-- ==== Sys2Proof/Word.lean ====
section
/-! DEFINITION. The word types and the plain-data tables of the model. -/
namespace Sys2Proof

/-- A 32-bit register, bus or engine word (R6). -/
abbrev Word := BitVec 32

/-- The smallest addressable unit (R6). -/
abbrev Byte := BitVec 8

/-- A sparse table: pairs of a key and a value, keys strictly rising, no entry at its key's default value. -/
abbrev Tab (α : Type) := List (Nat × α)

end Sys2Proof
end

