-- ==== Sys2Proof/Syntax.lean ====
section
/-! DEFINITION. The commands of the block: one constructor per row of spec/opcode_table.json, and the types of their
operands. -/
namespace Sys2Proof

/-- What the tracking loop presents at a wrap of the output angle (R50, R52, R58, R489). `freq` is the measured frequency in
mHz; `loop` lists the phase errors of the measured loop, in au, at the wraps of the measured angle in the finished cycle, oldest
first; `err` is the output angle less the measured angle, in au; `amp` is the positive-sequence amplitude in 0.1 % of `NOMAMP`;
`ampA`, `ampB` and `ampC` are the phase amplitudes over the finished cycle in hub ADC codes; `dipAt` is the output angle at which a
dip that is in progress began. -/
structure WrapMeas where
  freq : Nat
  loop : List Int
  err : BitVec 16
  amp : BitVec 16
  thd : BitVec 16
  phb : BitVec 16
  phc : BitVec 16
  ampA : BitVec 16
  ampB : BitVec 16
  ampC : BitVec 16
  dipAt : BitVec 16
deriving DecidableEq, Repr


/-- The SOP types the block takes part in (R142); `other` stands for SOP'' and the debug types. -/
inductive Sop where
  | sop | sopp | other
deriving DecidableEq, Repr

/-- What presents a tick to a counter (Table 03-1). -/
inductive TickSrc where
  | tclk | usec | angle | sched | slot | wrap
  | tin (k : Fin 8) (rise : Bool)
  | port (p : Fin 512) (kind : Fin 8)
deriving DecidableEq, Repr

/-- What presents a capture event to a counter (Table 03-5). -/
inductive CapSrc where
  | tin (k : Fin 8) (rise : Bool)
  | mzx | ma | wrap | slot
  | feeder (f : Fin 8)
  | port (p : Fin 512) (kind : Fin 8)
deriving DecidableEq, Repr

/-- Who makes a register access: the management plane (the host) or the course of a channel. -/
inductive Who where
  | host
  | course (c : Fin 4)
deriving DecidableEq, Repr

/-- The settings of a port's front end (R138). -/
inductive PortSetting where
  | cccfg | inrush | limit | retry | pgwin
deriving DecidableEq, Repr


/-- A filtered ship signal that is taken (R224). -/
inductive ShipSig where
  | shed (code : Fin 8)
  | emerg (low : Bool)
  | manv (low : Bool)
deriving DecidableEq, Repr

/-- How the two copies of the rake end a round (R235, R26, R44): they agree, they differ, or they have not agreed yet. -/
inductive RoundEnd where
  | agree | differ | late
deriving DecidableEq, Repr

/-- An event that can trigger an on-demand conversion (Table 09-4): `ZERO` or `MATCH` of a counter, an angle tick, a slot
start, a wrap. -/
inductive TrigSrc where
  | zero (n : Fin 32)
  | hit (n : Fin 32)
  | angle (a : BitVec 16)
  | slot | wrap
deriving DecidableEq, Repr

/-- Where a mailbox command came from: the two-wire port of this device, or a REQ frame, each with the request's tag
(R408, R409, R433). -/
inductive Origin where
  | host (tag : BitVec 8)
  | domain (tag : BitVec 8)
deriving DecidableEq, Repr

/-- How a frame ends at its receiver (R424, R425): by EOF after the CRC that it carries, aborted by EAB, cut at a header whose `LEN`
is above 2,048, or intact with a `TYPE` that Table 17-3 does not list. -/
inductive FrameEnd where
  | eof (crc : Word) | eab | tooLong | alien
deriving DecidableEq, Repr

/-- The header of a chain-link frame as it arrives (Table 17-2), and how the frame ends. -/
structure Header where
  dst : BitVec 16
  src : BitVec 16
  seq : BitVec 8
  gen : BitVec 8
  stop : FrameEnd
deriving DecidableEq, Repr

/-- How a two-wire transaction ends (R401-R403): complete without PEC; complete with a PEC, whose byte a write carries and a read leaves
out of account; with fewer bytes than its protocol needs; with a byte beyond the PEC, which is NACKed; or NACKed because its command code,
`code` in place of that of the row, is not in Table 16-3. -/
inductive Xact where
  | done | pec (b : Byte) | short | extra (b : Byte) | alien (code : Byte)
deriving DecidableEq, Repr

/-- A word command of the two-wire port: Write 32 or Read 32. -/
inductive WordCmd where
  | write (v : Word)
  | read
deriving DecidableEq, Repr

/-- A block command of the two-wire port: Block Write or Block Read. -/
inductive BlockCmd where
  | write (l : List Byte)
  | read
deriving DecidableEq, Repr

/-- The monitored clocks (Table 12-3, Table 12-7 class 0x1D). -/
inductive ClockId where
  | ref
  | pll (c : Fin 4)
  | tclk | mclk
  | die (d : Fin 8)
deriving DecidableEq, Repr

/-- What a self-test step measures (R325): whether the comparator trips at the lower stimulus, after how many ns it trips at the
upper one (65,535: not at all), the currents of the port's own amplifier and of the spare in mA, and whether the pull-down path
works; or a real trip that abandons the step. -/
inductive StResult where
  | measured (low : Bool) (ns own spare : BitVec 16) (path : Bool)
  | abandoned
deriving DecidableEq, Repr

/-- What resets a channel, `PORST_N` apart (Table 13-2): the channel watchdog, its PLL, an uncorrectable word that the user
of the context and queue store reads at a byte offset, or `CRU_CHRST`. -/
inductive ResetCause where
  | watchdog | pll
  | uecc (off : BitVec 20)
  | host
deriving DecidableEq, Repr

/-- What discovery finds of a flash device (R355, R357): a valid SFDP header in time, the density in MiB, a 64 KiB erase, and
the bytes of the two boot header copies. -/
structure FlashDev where
  sfdp : Bool
  mib : BitVec 16
  erase64 : Bool
  copy0 : List Byte
  copy1 : List Byte
deriving DecidableEq, Repr

/-- A step of the refresh of a flash device (R379): the slots of the device and of the other one are read and the source is verified; a
block has been rewritten, the per cent done; the rewritten slots are read back. -/
inductive RefreshStep where
  | verify (own other : List (List Byte))
  | block (pct : Fin 100)
  | result (slots : List (List Byte))
deriving DecidableEq, Repr

/-- The operations of the DEBUG instruction (R308, Table 15-4). -/
inductive DebugOp where
  | halt | step | resume
deriving DecidableEq, Repr

/-- What the MEMACC instruction reads or, with a word, writes: code RAM or data RAM of a channel at a byte offset, or a
register (Table 15-4). -/
inductive MemAcc where
  | code (c : Fin 4) (off : BitVec 18) (w : Option Word)
  | data (c : Fin 4) (off : BitVec 16) (w : Option Word)
  | reg (a : Word) (w : Option Word)
deriving DecidableEq, Repr


/-- The commands: one constructor per row of spec/opcode_table.json. An operand that is not an index or a written value
says what the environment of the block presents with the event (a level, a message, a conversion result). -/
inductive Instr where
  -- Start-up and the cabinet image (14)
  /-- PORST_N_ASSERT (R337). -/
  | porstNAssert
  /-- PORST_N_RELEASE (R361). -/
  | porstNRelease (addr : Fin 8)
  /-- FUSE_SENSE (R385). -/
  | fuseSense
  /-- FLASH_DISCOVERY (R355). -/
  | flashDiscovery (a b : FlashDev)
  /-- IMAGE_READ (R362). -/
  | imageRead (img : Option (List Byte))
  /-- SIGNATURE_CHECK (R363). -/
  | signatureCheck
  /-- VALUE_CHECK (R365). -/
  | valueCheck
  /-- SETTINGS_APPLY (R376). -/
  | settingsApply (a0 a1 b0 b1 : Option (List Byte))
  /-- BOOT_CALIBRATION_DONE (R361). -/
  | bootCalibrationDone
  /-- BOOT_RELEASE (R369). -/
  | bootRelease
  /-- RETRY (R366). -/
  | bootRetry
  /-- SAVE (R377). -/
  | bootSave
  /-- REFRESH (R378). -/
  | bootRefresh
  /-- SETTINGS_WRITEBACK (R377). -/
  | settingsWriteback (ok : Bool)
  /-- POWERED_HOUR (R378). -/
  | poweredHour
  /-- FLASH_REFRESH (R379). -/
  | flashRefresh (k : RefreshStep)
  /-- COURSE_RELEASE_AFTER_RESET (R371). -/
  | courseReleaseAfterReset (c : Fin 4) (code : List Byte)
  -- Mains angle timebase (02)
  /-- LOOP_LOCK (R54). -/
  | loopLock (angle amp e1 e2 : BitVec 16)
  /-- ACQUIRE_TIMEOUT (R54). -/
  | acquireTimeout
  /-- DIP_END (R51). -/
  | dipEnd (start stop amp : BitVec 16)
  /-- DIP_TIMEOUT (R52). -/
  | dipTimeout (freq : BitVec 17)
  /-- HOLD_TIME_EXPIRE (R56). -/
  | holdTimeExpire
  /-- BLACKOUT_FILTERED (R53). -/
  | blackoutFiltered (low : Bool) (angle : BitVec 16)
  /-- ANGLE_WRAP (R61). -/
  | angleWrap (m : WrapMeas)
  /-- SLOT_START (R61). -/
  | slotStart (k : Fin 32)
  /-- SCHEDULER_TICK (R66). -/
  | schedulerTick (k : Fin 256)
  /-- MZX_EDGE (R48). -/
  | mzxEdge (at16 : BitVec 16)
  /-- MA_COMPARATOR_EDGE (R48). -/
  | maComparatorEdge (at16 : BitVec 16)
  /-- ANG_SNAP (R73). -/
  | angSnap
  /-- ANG_CYC_LO_READ (R76). -/
  | angCycLoRead
  /-- ANG_USEC_LO_READ (R76). -/
  | angUsecLoRead
  -- Timer counters (03)
  /-- TIMER_TICK (R86). -/
  | timerTick (n : Fin 32) (src : TickSrc)
  /-- TIMER_ACTION (R91). -/
  | timerAction (n : Fin 32)
  /-- LOAD (R88). -/
  | tmuLoad (n : Fin 32)
  /-- START (R88). -/
  | tmuStart (n : Fin 32)
  /-- STOP (R88). -/
  | tmuStop (n : Fin 32)
  /-- TMU_GSTART (R88). -/
  | tmuGstart (who : Who) (v : Word)
  /-- TMU_GSTOP (R88). -/
  | tmuGstop (who : Who) (v : Word)
  /-- TMU_RLD_WRITE (R95). -/
  | tmuRldWrite (n : Fin 32) (v : Word)
  /-- TMU_CMP_WRITE (R89). -/
  | tmuCmpWrite (n : Fin 32) (v : Word)
  /-- TMU_CTL_WRITE (R93). -/
  | tmuCtlWrite (n : Fin 32) (v : Word)
  /-- TMU_CAPSRC_WRITE (R99). -/
  | tmuCapsrcWrite (n : Fin 32) (v : Word)
  /-- TIMER_CAPTURE (R96). -/
  | timerCapture (n : Fin 32) (src : CapSrc)
  /-- TMU_CAP_READ (R97). -/
  | tmuCapRead (n : Fin 32)
  /-- TMU_CNT_READ (R94). -/
  | tmuCntRead (n : Fin 32)
  /-- TIN_EDGE (R82). -/
  | tinEdge (k : Fin 8) (level : Bool)
  /-- PORT_EVENT_CROSSING (R83). -/
  | portEventCrossing (p : Fin 512) (kind : Fin 8)
  -- Port attach and power path (04)
  /-- ADMIN_EN (R141). -/
  | adminEn (p : Fin 512)
  /-- ADMIN_DIS (R141). -/
  | adminDis (p : Fin 512)
  /-- UNLOCK (R130). -/
  | adminUnlock (p : Fin 512)
  /-- SINK_CONDITION_APPEAR (R108). -/
  | sinkConditionAppear (p : Fin 512) (cc1 cc2 : BitVec 16)
  /-- SINK_CONDITION_LOST (R110). -/
  | sinkConditionLost (p : Fin 512) (cc1 cc2 : BitVec 16)
  /-- ACCESSORY_SEEN (R108). -/
  | accessorySeen (p : Fin 512) (cc1 cc2 : BitVec 16)
  /-- ATTACH (R110). -/
  | attach (p : Fin 512) (cc1 cc2 vs : BitVec 16)
  /-- DETACH (R112). -/
  | detach (p : Fin 512)
  /-- TURN_ON_EXEC (R114). -/
  | turnOnExec (c : Fin 4) (k : Fin 64)
  /-- INRUSH_COMPLETE (R118). -/
  | inrushComplete (p : Fin 512) (vs : BitVec 16)
  /-- INRUSH_TIMEOUT (R127). -/
  | inrushTimeout (p : Fin 512)
  /-- FAST_TRIP (R122). -/
  | fastTrip (p : Fin 512) (uv : BitVec 24) (ns : BitVec 16)
  /-- FAULT_TIMER_TRIP (R120). -/
  | faultTimerTrip (p : Fin 512)
  /-- LIMIT_RISE (R114). -/
  | limitRise (p : Fin 512) (ma : BitVec 16)
  /-- LIMIT_CLEAR (R120). -/
  | limitClear (p : Fin 512)
  /-- PGOOD_RISE (R124). -/
  | pgoodRise (p : Fin 512) (vs : BitVec 16)
  /-- CONTRACT_EXEC (R119). -/
  | contractExec (c : Fin 4) (k : Fin 64)
  /-- STEP_EXEC (R126). -/
  | stepExec (c : Fin 4) (k : Fin 64) (vs : BitVec 16)
  /-- STEP_COMPLETE (R126). -/
  | stepComplete (p : Fin 512) (vs : BitVec 16)
  /-- STEP_TIMEOUT (R126). -/
  | stepTimeout (p : Fin 512)
  /-- POWER_DOWN_EXEC (R137). -/
  | powerDownExec (p : Fin 512) (e : Option (Fin 64))
  /-- DISCHARGE_COMPLETE (R131). -/
  | dischargeComplete (p : Fin 512) (vs : BitVec 16)
  /-- DISCH_FAIL (R131). -/
  | dischFail (p : Fin 512) (vs : BitVec 16)
  /-- RETRY_EXPIRE (R128). -/
  | retryExpire (p : Fin 512)
  /-- CONTRACT_DWELL_CLEAR (R129). -/
  | contractDwellClear (p : Fin 512)
  /-- DETACH_DWELL_CLEAR (R129). -/
  | detachDwellClear (p : Fin 512)
  /-- TRANSFER_EXEC (R239). -/
  | transferExec (c : Fin 4) (k : Fin 64)
  /-- VCONN_ON_EXEC (R134). -/
  | vconnOnExec (c : Fin 4) (k : Fin 64)
  /-- VCONN_OFF_EXEC (R114). -/
  | vconnOffExec (c : Fin 4) (k : Fin 64)
  /-- VCONN_OC (R135). -/
  | vconnOc (p : Fin 512)
  /-- PRT_SETTING_WRITE (R139). -/
  | prtSettingWrite (who : Who) (p : Fin 512) (r : PortSetting) (v : Word)
  -- Protocol layer (05)
  /-- PD_MESSAGE_RX (R143). -/
  | pdMessageRx (p : Fin 512) (sp : Sop) (crc : Word) (bytes : List Byte)
  /-- GOODCRC_RX (R144). -/
  | goodcrcRx (p : Fin 512) (sp : Sop) (id : BitVec 3)
  /-- TX_START (R146). -/
  | txStart (p : Fin 512)
  /-- TX_RETRY (R145). -/
  | txRetry (p : Fin 512)
  /-- SINKTX_EXPIRE (R147). -/
  | sinktxExpire (p : Fin 512)
  /-- HARD_RESET_RX (R148). -/
  | hardResetRx (p : Fin 512)
  /-- HARD_RESET (R149). -/
  | pdHardReset (p : Fin 512)
  /-- HARD_RESET_DEEMED_SENT (R149). -/
  | hardResetDeemedSent (p : Fin 512)
  /-- CABLE_RESET (R150). -/
  | pdCableReset (p : Fin 512)
  /-- ALLOC (R163). -/
  | pdAlloc (p : Fin 512)
  /-- CANCEL (R164). -/
  | pdCancel (p : Fin 512)
  /-- CONTEXT_BIND (R163). -/
  | contextBind (c : Fin 4)
  /-- RELEASE (R162). -/
  | ctxRelease (c : Fin 4) (id : Fin 64) (gen : BitVec 8)
  /-- CTX_TIMER_WRITE (R169). -/
  | ctxTimerWrite (c : Fin 4) (n : Fin 64) (b : Bool) (v : Word)
  /-- CTX_TIMER_EXPIRE (R156). -/
  | ctxTimerExpire (c : Fin 4) (n : Fin 64) (b : Bool)
  /-- CTX_PANGET_READ (R152). -/
  | ctxPangetRead (c : Fin 4)
  /-- CTX_PANPUT (R153). -/
  | ctxPanput (c : Fin 4) (pan : Fin 256)
  /-- CTX_TX (R152). -/
  | ctxTx (c : Fin 4) (pan : Fin 256)
  /-- CTX_EVQ_READ (R155). -/
  | ctxEvqRead (c : Fin 4)
  /-- RX_TO_PAN (R154). -/
  | rxToPan (p : Fin 512)
  /-- HUB_ANSWER (R160). -/
  | hubAnswer (p : Fin 512)
  /-- CHUNK_REQUEST_RX (R158). -/
  | chunkRequestRx (p : Fin 512)
  /-- CHUNK_REQUEST_TX (R159). -/
  | chunkRequestTx (p : Fin 512)
  /-- CHUNK_SENDER_REQUEST_TIMEOUT (R158). -/
  | chunkSenderRequestTimeout (p : Fin 512)
  /-- CHUNK_SENDER_RESPONSE_TIMEOUT (R159). -/
  | chunkSenderResponseTimeout (p : Fin 512)
  /-- KEEPALIVE_WRITE (R170). -/
  | keepaliveWrite (p : Fin 512) (v : Word)
  /-- KA_EXP (R170). -/
  | kaExp (p : Fin 512)
  -- Operation queue (06)
  /-- TURN_ON (R175). -/
  | opTurnOn (c : Fin 4) (k : Fin 128) (arg0 arg1 : Word)
  /-- CONTRACT (R175). -/
  | opContract (c : Fin 4) (k : Fin 128) (arg0 arg1 : Word)
  /-- STEP (R175). -/
  | opStep (c : Fin 4) (k : Fin 128) (arg0 arg1 : Word)
  /-- HR_OFF (R177). -/
  | opHrOff (c : Fin 4) (k : Fin 128)
  /-- VCONN_ON (R175). -/
  | opVconnOn (c : Fin 4) (k : Fin 128) (arg0 arg1 : Word)
  /-- VCONN_OFF (R175). -/
  | opVconnOff (c : Fin 4) (k : Fin 128) (arg0 arg1 : Word)
  /-- OPQ_CQ_READ (R176). -/
  | opqCqRead (c : Fin 4)
  /-- OPQ_ABORT (R177). -/
  | opqAbort (c : Fin 4) (k : Fin 128)
  /-- CQ_RESULT_POST (R176). -/
  | cqResultPost (c : Fin 4)
  /-- HR_OFF_CREATE (R200). -/
  | hrOffCreate (p : Fin 512)
  -- Contracts and shedding (06)
  /-- CONTRACT_GROUP_WRITE (R196). -/
  | contractGroupWrite (p : Fin 512) (w7 w8 w10 : Word)
  /-- SHED_DEADLINE_EXPIRE (R197). -/
  | shedDeadlineExpire (p : Fin 512)
  /-- SHED_HOLD_END (R198). -/
  | shedHoldEnd (p : Fin 512)
  -- Firmware negotiation policy (06)
  /-- REQUEST_EVALUATION (R183). -/
  | requestEvaluation (p : Fin 512) (late : Bool)
  /-- SOURCE_CAP_REPEAT (R185). -/
  | sourceCapRepeat (p : Fin 512)
  /-- SENDER_RESPONSE_TIMEOUT (R185). -/
  | senderResponseTimeout (p : Fin 512)
  /-- NO_RESPONSE_TIMEOUT (R185). -/
  | noResponseTimeout (p : Fin 512)
  /-- SRC_TRANSITION_EXPIRE (R187). -/
  | srcTransitionExpire (p : Fin 512)
  /-- GRADUATION_STEP_PUSH (R187). -/
  | graduationStepPush (p : Fin 512)
  /-- FIRMWARE_MESSAGE_ANSWER (R192). -/
  | firmwareMessageAnswer (p : Fin 512)
  /-- EPR_MODE (R190). -/
  | eprMode (p : Fin 512)
  /-- VCONN_SWAP (R193). -/
  | vconnSwap (p : Fin 512) (late : Bool)
  /-- RE_ADVERTISE (R194). -/
  | reAdvertise (c : Fin 4)
  /-- HARD_RESET_RECOVERY (R200). -/
  | hardResetRecovery (p : Fin 512)
  -- Heavy ports (07)
  /-- DISCOVERY (R205). -/
  | discovery (p : Fin 512)
  /-- ENTER_MODE_ACK (R206). -/
  | enterModeAck (p : Fin 512)
  /-- HEAVY_CAPS (R209). -/
  | heavyCaps (p : Fin 512)
  /-- HEAVY_REQUEST (R210). -/
  | heavyRequest (p : Fin 512)
  /-- HEAVY_READY_ACK (R210). -/
  | heavyReadyAck (p : Fin 512)
  /-- HEAVY_ASK (R204). -/
  | heavyAsk (p : Fin 512)
  /-- TEST (R214). -/
  | hvTest (who : Who) (p : Fin 512)
  /-- EXIT (R214). -/
  | hvExit (who : Who) (p : Fin 512)
  /-- HVST_WRITE (R212). -/
  | hvstWrite (c : Fin 4) (k : Fin 128) (v : Word)
  -- Feeder placement (08)
  /-- RAKE_ROUND (R233). -/
  | rakeRound (e : RoundEnd)
  /-- ROUND_DEADLINE (R44). -/
  | roundDeadline
  /-- PLACEMENT_COMMIT (R25). -/
  | placementCommit (c : Fin 4)
  /-- FEEDER_DOWN_QUALIFY (R255). -/
  | feederDownQualify (f : Fin 8)
  /-- FEEDER_WINDOW_RETURN (R220). -/
  | feederWindowReturn (f : Fin 8)
  /-- SHIP_SIGNAL_FILTERED (R224). -/
  | shipSignalFiltered (sig : ShipSig)
  /-- ONLINE (R245). -/
  | fdrOnline (f : Fin 8)
  /-- OFFLINE (R245). -/
  | fdrOffline (f : Fin 8)
  -- Measurement and harvest (09)
  /-- SCAN_CONVERSION (R249). -/
  | scanConversion (u : Fin 32) (slot : Fin 33) (raw : BitVec 12)
  /-- MEASUREMENT_FRAME_RX (R251). -/
  | measurementFrameRx (p : Fin 512)
  /-- URGENT_CONVERSION (R252). -/
  | urgentConversion (p : Fin 512) (k v : BitVec 12) (abrt : Bool)
  /-- HUB_CONVERSION (R254). -/
  | hubConversion (slot : Fin 10) (h0 h1 : BitVec 14)
  /-- ARM (R257). -/
  | adcArm (who : Who) (u : Fin 34)
  /-- DISARM (R257). -/
  | adcDisarm (who : Who) (u : Fin 34)
  /-- SWTRIG (R257). -/
  | adcSwtrig (who : Who) (u : Fin 34)
  /-- CAL (R261). -/
  | adcCal (who : Who) (u : Fin 34)
  /-- ADC_TRIGGER (R258). -/
  | adcTrigger (u : Fin 34) (src : TrigSrc)
  /-- ON_DEMAND_CONVERSION (R257). -/
  | onDemandConversion (u : Fin 34) (raw : BitVec 14)
  /-- CALIBRATION_DONE (R261). -/
  | calibrationDone (u : Fin 34) (gain : BitVec 17) (ofs : BitVec 16)
  /-- PRT_ELO_READ (R266). -/
  | prtEloRead (who : Who) (p : Fin 512)
  /-- HRV_CYC_LO_READ (R266). -/
  | hrvCycLoRead
  /-- HRV_ENERGY_LO_READ (R266). -/
  | hrvEnergyLoRead (f : Fin 8) (inn : Bool)
  /-- GLB_SERIAL_LO_READ (R464). -/
  | glbSerialLoRead
  -- Svaq instructions (10)
  /-- ADD (R276). -/
  | svAdd (c : Fin 4)
  /-- SUB (R276). -/
  | svSub (c : Fin 4)
  /-- ADC (R276). -/
  | svAdc (c : Fin 4)
  /-- SBC (R276). -/
  | svSbc (c : Fin 4)
  /-- AND (R276). -/
  | svAnd (c : Fin 4)
  /-- OR (R276). -/
  | svOr (c : Fin 4)
  /-- XOR (R276). -/
  | svXor (c : Fin 4)
  /-- SHL (R273). -/
  | svShl (c : Fin 4)
  /-- SHR (R273). -/
  | svShr (c : Fin 4)
  /-- SAR (R273). -/
  | svSar (c : Fin 4)
  /-- MINU (R276). -/
  | svMinu (c : Fin 4)
  /-- MAXU (R276). -/
  | svMaxu (c : Fin 4)
  /-- CMP (R276). -/
  | svCmp (c : Fin 4)
  /-- TST (R276). -/
  | svTst (c : Fin 4)
  /-- ADDI (R275). -/
  | svAddi (c : Fin 4)
  /-- ANDI (R275). -/
  | svAndi (c : Fin 4)
  /-- ORI (R275). -/
  | svOri (c : Fin 4)
  /-- XORI (R275). -/
  | svXori (c : Fin 4)
  /-- SHLI (R275). -/
  | svShli (c : Fin 4)
  /-- SHRI (R275). -/
  | svShri (c : Fin 4)
  /-- SARI (R275). -/
  | svSari (c : Fin 4)
  /-- MINUI (R275). -/
  | svMinui (c : Fin 4)
  /-- MAXUI (R275). -/
  | svMaxui (c : Fin 4)
  /-- CMPI (R275). -/
  | svCmpi (c : Fin 4)
  /-- TSTI (R275). -/
  | svTsti (c : Fin 4)
  /-- MOVL (R276). -/
  | svMovl (c : Fin 4)
  /-- MOVH (R276). -/
  | svMovh (c : Fin 4)
  /-- LDW (R290). -/
  | svLdw (c : Fin 4)
  /-- LDH (R290). -/
  | svLdh (c : Fin 4)
  /-- LDHS (R290). -/
  | svLdhs (c : Fin 4)
  /-- LDB (R290). -/
  | svLdb (c : Fin 4)
  /-- LDBS (R290). -/
  | svLdbs (c : Fin 4)
  /-- STW (R291). -/
  | svStw (c : Fin 4)
  /-- STH (R291). -/
  | svSth (c : Fin 4)
  /-- STB (R291). -/
  | svStb (c : Fin 4)
  /-- STORE_LANDING (R291). -/
  | storeLanding (c : Fin 4)
  /-- MULU (R277). -/
  | svMulu (c : Fin 4)
  /-- MULS (R277). -/
  | svMuls (c : Fin 4)
  /-- MACU (R277). -/
  | svMacu (c : Fin 4)
  /-- MACS (R277). -/
  | svMacs (c : Fin 4)
  /-- PRODUCT_LANDING (R277). -/
  | productLanding (c : Fin 4)
  /-- DIVU (R278). -/
  | svDivu (c : Fin 4)
  /-- MFS (R276). -/
  | svMfs (c : Fin 4)
  /-- MTS (R276). -/
  | svMts (c : Fin 4)
  /-- B (R275). -/
  | svB (c : Fin 4)
  /-- JAL (R275). -/
  | svJal (c : Fin 4)
  /-- JR (R276). -/
  | svJr (c : Fin 4)
  /-- REP (R279). -/
  | svRep (c : Fin 4)
  /-- SMOVW (R281). -/
  | svSmovw (c : Fin 4) (elems : Nat)
  /-- SMOVB (R281). -/
  | svSmovb (c : Fin 4) (elems : Nat)
  /-- SFILLW (R281). -/
  | svSfillw (c : Fin 4) (elems : Nat)
  /-- SSCANW (R282). -/
  | svSscanw (c : Fin 4) (elems : Nat)
  /-- SNAP (R284). -/
  | svSnap (c : Fin 4)
  /-- NOP (R276). -/
  | svNop (c : Fin 4)
  /-- ERET (R287). -/
  | svEret (c : Fin 4)
  /-- XRET (R287). -/
  | svXret (c : Fin 4)
  /-- WAIT (R288). -/
  | svWait (c : Fin 4)
  /-- WAIT_WAKE (R288). -/
  | waitWake (c : Fin 4)
  /-- BRK (R287). -/
  | svBrk (c : Fin 4)
  /-- EVENT_ENTRY (R286). -/
  | eventEntry (c : Fin 4)
  -- Mailbox (01, 10)
  /-- MBX_TAKE_READ (R292). -/
  | mbxTakeRead (c : Fin 4)
  /-- MBX_DONE (R292). -/
  | mbxDone (c : Fin 4) (k : Fin 8) (len : BitVec 7)
  /-- MBX_POST (R29). -/
  | mbxPost (c : Fin 4) (o : Origin) (cmd : List Byte)
  /-- MBX_TAKE_TIMEOUT (R30). -/
  | mbxTakeTimeout (c : Fin 4) (k : Fin 8)
  /-- MBX_RESPONSE_TIMEOUT (R30). -/
  | mbxResponseTimeout (c : Fin 4) (k : Fin 8)
  -- Courses and the bridge (11)
  /-- BRIDGE_SCAN (R296). -/
  | bridgeScan (c : Fin 4)
  /-- RETUNE_STALL (R300). -/
  | retuneStall (c : Fin 4)
  /-- RETUNE_REJOIN (R300). -/
  | retuneRejoin (c : Fin 4)
  /-- RESTART (R306). -/
  | crsRestart (c : Fin 4)
  /-- UNPARK (R302). -/
  | crsUnpark (c : Fin 4)
  /-- COURSE_RESTART (R307). -/
  | courseRestart (c : Fin 4) (code : List Byte)
  /-- CRS_WDKICK (R309). -/
  | crsWdkick (c : Fin 4) (v : Word)
  /-- COURSE_WATCHDOG (R309). -/
  | courseWatchdog (c : Fin 4)
  /-- CHANNEL_WATCHDOG (R310). -/
  | channelWatchdog (c : Fin 4)
  -- Memories and scrub (12)
  /-- SCRUB_STEP (R318). -/
  | scrubStep (mem : BitVec 8)
  /-- POISONED_WORD_REWRITE (R317). -/
  | poisonedWordRewrite (mem : BitVec 8) (off : BitVec 20) (w : BitVec 64)
  -- Clocks and supplies (12, 13, 20)
  /-- CLOCK_LOSS (R319). -/
  | clockLoss (k : ClockId)
  /-- CLOCK_RETURN (R319). -/
  | clockReturn (k : ClockId)
  /-- MANAGEMENT_RESET_RELEASE (R336). -/
  | managementResetRelease
  /-- REFCLK_LOSS (R334). -/
  | refclkLoss
  /-- REFCLK_RETURN (R334). -/
  | refclkReturn
  /-- PORT_DIE_RESET_RELEASE (R336). -/
  | portDieResetRelease (d : Fin 8)
  /-- VDDP_LOW (R471). -/
  | vddpLow (d : Fin 8) (mv us : Nat)
  /-- VGH_LOW (R471). -/
  | vghLow (d : Fin 8) (mv us : Nat)
  /-- VGH_RECOVER (R471). -/
  | vghRecover (d : Fin 8) (mv : Nat)
  /-- VCONN_SUPPLY_LOW (R471). -/
  | vconnSupplyLow (d : Fin 8) (mv us : Nat)
  -- Port-die links and hold (12)
  /-- LINK_FRAME_CRC_ERROR (R320). -/
  | linkFrameCrcError (d : Fin 8)
  /-- PORT_DIE_LINK_LOSS (R321). -/
  | portDieLinkLoss (d : Fin 8) (hub three : Bool)
  /-- PORT_DIE_LINK_UP (R491). -/
  | portDieLinkUp (d : Fin 8)
  /-- HOLD_ORDER (R322). -/
  | holdOrder (d : Fin 8)
  /-- END_HOLD (R322). -/
  | endHold (d : Fin 8)
  /-- HOLD_EXPIRE (R323). -/
  | holdExpire (d : Fin 8)
  -- Self-test and log (12)
  /-- SELFTEST_STEP (R325). -/
  | selftestStep (d : Fin 8) (r : StResult)
  /-- LOG_POST (R27). -/
  | logPost (pl : Fin 3) (cls : Fin 64) (src : BitVec 16) (d0 : Word) (d1 : BitVec 16)
  /-- LOG_PROGRAM (R329). -/
  | logProgram (n : Fin 9)
  -- Resets, quiet mode (13)
  /-- CHANNEL_RESET (R338). -/
  | channelReset (c : Fin 4) (k : ResetCause)
  /-- CHANNEL_RESET_RELEASE (R336). -/
  | channelResetRelease (c : Fin 4)
  /-- CRU_CHRST (R336). -/
  | cruChrst (v : Word)
  /-- MGMT_ACCESS_TIMEOUT (R347). -/
  | mgmtAccessTimeout (a : Word) (write win : Bool)
  /-- QUIET_ENTRY (R349). -/
  | quietEntry
  /-- QUIET_WAKE (R350). -/
  | quietWake (src : Fin 6)
  -- Fuses and test port (15)
  /-- BLOW (R391). -/
  | otpBlow (vpp : Nat)
  /-- LOCK (R392). -/
  | otpLock (vpp : Nat)
  /-- REREAD (R389). -/
  | otpReread (vpp : Nat)
  /-- FUSE_REREAD (R389). -/
  | fuseReread (drift : List (BitVec 8 × Word × Word))
  /-- EXTEST (R395). -/
  | tapExtest (data : List Bool)
  /-- SAMPLE_PRELOAD (R395). -/
  | tapSamplePreload (data : List Bool)
  /-- IDCODE (R395). -/
  | tapIdcode
  /-- DEBUG (R308). -/
  | tapDebug (c : Fin 4) (op : DebugOp)
  /-- MEMACC (R457). -/
  | tapMemacc (a : MemAcc)
  /-- BYPASS (R395). -/
  | tapBypass (op : BitVec 4)
  -- Two-wire management port (16)
  /-- STATUS (R401). -/
  | twmStatus (x : Xact)
  /-- WADDR (R405). -/
  | twmWaddr (x : Xact) (k : WordCmd)
  /-- WDATA (R405). -/
  | twmWdata (x : Xact) (k : WordCmd)
  /-- WDATAI (R405). -/
  | twmWdatai (x : Xact) (k : WordCmd)
  /-- WBURST (R406). -/
  | twmWburst (x : Xact) (k : BlockCmd)
  /-- LASTRD (R407). -/
  | twmLastrd (x : Xact)
  /-- RQBUF (R404). -/
  | twmRqbuf (x : Xact) (k : BlockCmd)
  /-- RQGO (R408). -/
  | twmRqgo (x : Xact) (v : Word)
  /-- RQSTAT (R401). -/
  | twmRqstat (x : Xact)
  /-- RQRESP (R401). -/
  | twmRqresp (x : Xact)
  /-- ALERTSUM (R401). -/
  | twmAlertsum (x : Xact)
  /-- ALERT_RESPONSE (R411). -/
  | alertResponse (others : List (BitVec 7))
  /-- BUS_FAULT (R414). -/
  | busFault
  /-- STRETCH_LIMIT (R400): the B512 has held `SCL` low for `us` µs. -/
  | stretchLimit (us : Nat)
  /-- SCL_LOW_TIMEOUT (R400): `SCL` has been low for `us` µs; `busy` says that a transaction was in progress. -/
  | sclLowTimeout (us : Nat) (busy : Bool)
  /-- SDA_STUCK (R400): the B512 has held `SDA` low with `SCL` high for `us` µs. -/
  | sdaStuck (us : Nat)
  /-- REQUEST_TIMEOUT (R409). -/
  | requestTimeout
  /-- TWM_PADMIN_WRITE (R413). -/
  | twmPadminWrite (v : Word)
  /-- PING (R409). -/
  | mbxPing (c : Fin 4)
  /-- PORT_READ (R409). -/
  | mbxPortRead (c : Fin 4)
  /-- RENEG (R409). -/
  | mbxReneg (c : Fin 4)
  -- Chain links (17)
  /-- SIGNAL_DETECT (R422). -/
  | signalDetect (n : Fin 4)
  /-- TRAINING_COMPLETE (R422). -/
  | trainingComplete (n : Fin 4)
  /-- HELLO_TIMEOUT (R422). -/
  | helloTimeout (n : Fin 4)
  /-- CHAIN_LINK_LOSS (R423). -/
  | chainLinkLoss (n : Fin 4) (silent errors : Nat)
  /-- DROP (R422). -/
  | lnkDrop (mask : BitVec 4)
  /-- ENUM_NOW (R429). -/
  | enumNow
  /-- ENUMERATION_START (R429). -/
  | enumerationStart
  /-- ACK (R427). -/
  | lnkAck (n : Fin 4) (h : Header) (seq : BitVec 8) (nak : Bool) (free : Fin 5)
  /-- CHAIN_ACK_TIMEOUT (R427). -/
  | chainAckTimeout (n : Fin 4) (seq : BitVec 8)
  /-- HELLO (R422). -/
  | lnkHello (n : Fin 4) (h : Header) (fwver : Word) (level : BitVec 4) (link : Fin 4) (serial : BitVec 64)
  /-- ENUM (R429). -/
  | lnkEnum (n : Fin 4) (h : Header) (base gen : BitVec 16)
  /-- ENUM_DONE (R429). -/
  | lnkEnumDone (n : Fin 4) (h : Header) (count : BitVec 17) (level : BitVec 4)
  /-- LEVEL (R430). -/
  | lnkLevel (n : Fin 4) (h : Header) (level : BitVec 4) (gen : BitVec 16)
  /-- REQ (R433). -/
  | lnkReq (n : Fin 4) (h : Header) (kind : BitVec 4) (ch : Fin 4) (tag : BitVec 8) (data : List Byte)
  /-- RESP (R433). -/
  | lnkResp (n : Fin 4) (h : Header) (st : BitVec 4) (tag : BitVec 8) (data : List Byte)
  /-- ALERT (R435). -/
  | lnkAlert (n : Fin 4) (h : Header) (addr : BitVec 16)
  /-- LVREP (R438). -/
  | lnkLvrep (n : Fin 4) (h : Header) (fwver : Word) (level : BitVec 4)
  /-- TOPO (R439). -/
  | lnkTopo (n : Fin 4) (h : Header)
  -- Field update (18)
  /-- OPEN (R442). -/
  | updCmdOpen
  /-- SEND (R447). -/
  | updCmdSend
  /-- END (R445). -/
  | updCmdEnd
  /-- QUERY (R445). -/
  | updCmdQuery
  /-- ABORT (R445). -/
  | updCmdAbort
  /-- ACTIVATE (R450). -/
  | updCmdActivate (defer : Bool)
  /-- CONFIRM (R452). -/
  | updCmdConfirm
  /-- REJECT (R452). -/
  | updCmdReject
  /-- UPD_OPEN (R445). -/
  | updOpen (n : Fin 4) (h : Header) (session : BitVec 16) (len : Word) (lo hi : BitVec 16)
  /-- UPD_DATA (R445). -/
  | updData (n : Fin 4) (h : Header) (session block : BitVec 16) (bcrc : Word) (part : Fin 3) (bytes : List Byte)
  /-- UPD_END (R445). -/
  | updEnd (n : Fin 4) (h : Header) (session : BitVec 16)
  /-- UPD_QUERY (R445). -/
  | updQuery (n : Fin 4) (h : Header) (session : BitVec 16)
  /-- UPD_ABORT (R445). -/
  | updAbort (n : Fin 4) (h : Header) (session : BitVec 16)
  /-- REPORT (R446). -/
  | updReport (n : Fin 4) (h : Header) (session first : BitVec 16) (state reason : Byte) (missing : BitVec 16)
  /-- ERASE_COMPLETE (R445). -/
  | eraseComplete (okA okB : Bool)
  /-- BLOCK_STAGED (R445). -/
  | blockStaged (okA okB : Bool)
  /-- VERIFICATION_COMPLETE (R448). -/
  | verificationComplete (a b : Option (List Byte))
  /-- CHANNEL_SWITCH (R451). -/
  | channelSwitch (c : Fin 4)
  /-- TRIAL_WINDOW_END (R452). -/
  | trialWindowEnd
  /-- FALLBACK (R453). -/
  | fallback
  /-- UPD_OWNER_WRITE (R456). -/
  | updOwnerWrite (v : Word)
  -- Register map (19)
  /-- REGISTER_WRITE (R460). -/
  | registerWrite (who : Who) (a v : Word)
  -- Later events of the port and the protocol (04, 05, 08)
  /-- PGOOD_WINDOW_EXIT (R124). -/
  | pgoodWindowExit (p : Fin 512) (vs : BitVec 16)
  /-- LIMIT_ACTIVE_FALL (R120). -/
  | limitActiveFall (p : Fin 512)
  /-- VCONN_SOFT_START_END (R134). -/
  | vconnSoftStartEnd (p : Fin 512)
  /-- TRANSFER_DONE (R239). -/
  | transferDone (p : Fin 512)
  /-- BIST_CARRIER_END (R160). -/
  | bistCarrierEnd (p : Fin 512)
  /-- HARD_RESET_SIGNALLING_START (R149). -/
  | hardResetSignallingStart (p : Fin 512)
  /-- HARD_RESET_SENT (R149). -/
  | hardResetSent (p : Fin 512)
  /-- HOLD_HARD_RESET_TIMEOUT (R322). -/
  | holdHardResetTimeout (p : Fin 512)
  -- Svaq exceptions of a fetched word (10)
  /-- ILLEGAL (R274). -/
  | svIllegal (c : Fin 4)
  /-- FETCH (R287). -/
  | svFetch (c : Fin 4)
  -- Fuse programming (15)
  /-- VPP_LOST (R391). -/
  | vppLost (n : Nat)
  /-- PROGRAMMING_COMMAND_ENDED (R393). -/
  | programmingCommandEnded (fail : Option (Fin 3 × Fin 32))
  -- Chain links, continued (17)
  /-- SIGNAL_DETECT_LOST (R422). -/
  | signalDetectLost (n : Fin 4)
  /-- DROP_END (R422). -/
  | dropEnd (n : Fin 4)
deriving DecidableEq, Repr

end Sys2Proof
end

