-- ==== Sys2Proof/Config.lean ====
section
/-! DEFINITION. The free values: values the manual leaves open. Each is an opaque constant applied to the free-value
counter of the state, so no proof can see what it is. -/
namespace Sys2Proof.Config

/-- A natural number that the manual does not state. -/
opaque freeNat : Nat → Nat

/-- A word that the manual does not state. -/
opaque freeWord : Nat → BitVec 32

/-- What `FDR_IMEAN` shows for a negative mean current, by its magnitude in 10 mA (Table 08-12, log 157). -/
opaque negativeMean : Nat → BitVec 32

/-- The 16 check bits of a data word at its address: the code's generator is not stated (R314). -/
opaque checkBits : BitVec 64 → Nat → BitVec 16

/-- How the decoder takes a pattern of four or more errors, and what it makes of the data (R315: outside the guarantee). -/
opaque manyErrors : BitVec 100 → Nat
opaque manyData : BitVec 100 → BitVec 64

/-- The size in bytes of a memory of Table 12-2 that is given none. -/
opaque memBytes : Nat → Nat

/-- The upset of a memory word at a microsecond, if one comes: its memory, its word, the error pattern (R313, log 163). -/
opaque upset : Nat → Option (Nat × Nat × BitVec 100)

/-- The upset of a string at a microsecond, if one comes: its course, its index, the word in the order of R296, the bits flipped. -/
opaque stringUpset : Nat → Option (Fin 4 × Fin 3 × Nat × BitVec 32)

/-- The bits of the boundary register, and the device's identification code, of which IEEE 1149.1 fixes bit 0 at 1 (R395, log 106). -/
opaque boundaryBits : Nat
opaque idcode : BitVec 32

end Sys2Proof.Config
end

