-- ==== Sys2Proof/Machine/RegMap.lean ====
section
/-! DEFINITION. The register map of spec/19_register_map.md (R457-R467): every register's host address (namespace `R`),
the place of every named field as the owning chapter's field table gives it (namespace `F`, R12), and one row per
register with its reset value, its access masks (R7) and its class of Table 19-2 (R460). -/
namespace Sys2Proof.Machine

/-- A register field: least significant bit and width. -/
structure Fld where
  lo : Nat
  w : Nat
deriving DecidableEq, Repr

/-- The classes of Table 19-2 (R460), and the settings of the owning chapters (R374). -/
inductive RegClass where
  | plain | image | mgmt | course | noHostRead | setting
deriving DecidableEq, Repr

/-- One register of the map: base address, index ranges as (count, stride) with the largest stride first, reset value
(R459) and the masks of its RW, W1C, RC and WO bits (Table 00-4). Every other bit is RO or reserved. -/
structure RegRow where
  base : Nat
  dims : List (Nat × Nat)
  reset : Nat
  rw : Nat
  w1c : Nat
  rc : Nat
  wo : Nat
  cls : RegClass
deriving DecidableEq, Repr

namespace R

def GLB_ID : Nat := 0x0
def GLB_VIDPID : Nat := 0x4
def GLB_SERIAL_LO : Nat := 0x8
def GLB_SERIAL_HI : Nat := 0xC
def GLB_LOT : Nat := 0x10
def GLB_DATE : Nat := 0x14
def GLB_ORDER : Nat := 0x18
def GLB_SCRATCH : Nat := 0x1C
def ANG_CFG : Nat := 0x1000
def ANG_HOLDISL : Nat := 0x1004
def ANG_MZXOFS : Nat := 0x1008
def ANG_STATUS : Nat := 0x100C
def ANG_EVT : Nat := 0x1010
def ANG_EVTEN : Nat := 0x1014
def ANG_ANGLE : Nat := 0x1018
def ANG_CYC_LO : Nat := 0x101C
def ANG_CYC_HI : Nat := 0x1020
def ANG_FREQ : Nat := 0x1024
def ANG_PERIOD : Nat := 0x1028
def ANG_AMP : Nat := 0x102C
def ANG_PHOFS : Nat := 0x1030
def ANG_XCHK : Nat := 0x1034
def ANG_USEC_LO : Nat := 0x1038
def ANG_USEC_HI : Nat := 0x103C
def ANG_SNAP_CTL : Nat := 0x1040
def ANG_SNAP_ANG : Nat := 0x1044
def ANG_SNAP_CYCL : Nat := 0x1048
def ANG_SNAP_CYCH : Nat := 0x104C
def ANG_SNAP_USECL : Nat := 0x1050
def ANG_SNAP_USECH : Nat := 0x1054
def ANG_SBUD (f : Nat) : Nat := 0x1080 + 0x4 * f
def ANG_SBSTAT (f : Nat) : Nat := 0x10A0 + 0x4 * f
def TMU_CTL (n : Nat) : Nat := 0x2000 + 0x40 * n
def TMU_SRC (n : Nat) : Nat := 0x2004 + 0x40 * n
def TMU_CAPSRC (n : Nat) : Nat := 0x2008 + 0x40 * n
def TMU_CNT (n : Nat) : Nat := 0x200C + 0x40 * n
def TMU_RLD (n : Nat) : Nat := 0x2010 + 0x40 * n
def TMU_CMP (n : Nat) : Nat := 0x2014 + 0x40 * n
def TMU_CAP (n : Nat) : Nat := 0x2018 + 0x40 * n
def TMU_STAT (n : Nat) : Nat := 0x201C + 0x40 * n
def TMU_IEN (n : Nat) : Nat := 0x2020 + 0x40 * n
def TMU_CMD (n : Nat) : Nat := 0x2024 + 0x40 * n
def TMU_TINFLT : Nat := 0x2800
def TMU_RUN : Nat := 0x2804
def TMU_GSTART : Nat := 0x2808
def TMU_GSTOP : Nat := 0x280C
def TMU_TINLVL : Nat := 0x2810
def FDR_CFG (f : Nat) : Nat := 0x3000 + 0x40 * f
def FDR_PCAP (f : Nat) : Nat := 0x3004 + 0x40 * f
def FDR_ILIM (f : Nat) : Nat := 0x3008 + 0x40 * f
def FDR_DER (f : Nat) : Nat := 0x300C + 0x40 * f
def FDR_VWIN (f : Nat) : Nat := 0x3010 + 0x40 * f
def FDR_BAT (f : Nat) : Nat := 0x3014 + 0x40 * f
def FDR_SOC (f : Nat) : Nat := 0x3018 + 0x40 * f
def FDR_CMD (f : Nat) : Nat := 0x301C + 0x40 * f
def FDR_STAT (f : Nat) : Nat := 0x3020 + 0x40 * f
def FDR_VMEAS (f : Nat) : Nat := 0x3024 + 0x40 * f
def FDR_IMEAN (f : Nat) : Nat := 0x3028 + 0x40 * f
def FDR_USABLE (f : Nat) : Nat := 0x302C + 0x40 * f
def FDR_COMMIT (f : Nat) : Nat := 0x3030 + 0x40 * f
def FDR_EVT (f : Nat) : Nat := 0x3034 + 0x40 * f
def FDR_EVTEN (f : Nat) : Nat := 0x3038 + 0x40 * f
def PLC_CFG : Nat := 0x3200
def PLC_INFLT : Nat := 0x3204
def PLC_HOSTSHED : Nat := 0x3208
def PLC_INPUTS : Nat := 0x320C
def PLC_ROUND : Nat := 0x3210
def PLC_STAT : Nat := 0x3214
def PLC_CNT : Nat := 0x3218
def PLC_EVT : Nat := 0x321C
def PLC_EVTEN : Nat := 0x3220
def PLC_GSEL : Nat := 0x3224
def PLC_GUSED : Nat := 0x3228
def PLC_VCLIM0 : Nat := 0x322C
def PLC_VCLIM1 : Nat := 0x3230
def PLC_VCLOAD0 : Nat := 0x3234
def PLC_VCLOAD1 : Nat := 0x3238
def PLC_SHEDLV (L : Nat) : Nat := 0x3240 + 0x4 * L
def PLC_GRP (g : Nat) : Nat := 0x3400 + 0x4 * g
def PLC_ENT (p : Nat) : Nat := 0x3800 + 0x4 * p
def ADC_ODCFG (u : Nat) : Nat := 0x4000 + 0x20 * u
def ADC_ODTRG (u : Nat) : Nat := 0x4004 + 0x20 * u
def ADC_DATA (u : Nat) : Nat := 0x4008 + 0x20 * u
def ADC_STAT (u : Nat) : Nat := 0x400C + 0x20 * u
def ADC_CAL (u : Nat) : Nat := 0x4010 + 0x20 * u
def ADC_CMD (u : Nat) : Nat := 0x4014 + 0x20 * u
def ADC_FVSCL (f : Nat) : Nat := 0x4600 + 0x4 * f
def ADC_FISCL (f : Nat) : Nat := 0x4620 + 0x4 * f
def HRV_STAT : Nat := 0x4800
def HRV_CYC_LO : Nat := 0x4804
def HRV_CYC_HI : Nat := 0x4808
def HRV_FPWR (f : Nat) : Nat := 0x4820 + 0x4 * f
def HRV_FOUT_LO (f : Nat) : Nat := 0x4840 + 0x8 * f
def HRV_FOUT_HI (f : Nat) : Nat := 0x4844 + 0x8 * f
def HRV_FIN_LO (f : Nat) : Nat := 0x4880 + 0x8 * f
def HRV_FIN_HI (f : Nat) : Nat := 0x4884 + 0x8 * f
def FLT_SUM : Nat := 0x5000
def FLT_FEN : Nat := 0x5004
def FLT_AEN : Nat := 0x5008
def FLT_CLKSTAT : Nat := 0x500C
def FLT_ECCCNT : Nat := 0x5010
def FLT_ECCUE : Nat := 0x5014
def FLT_ECCUADDR : Nat := 0x5018
def FLT_SCRUB : Nat := 0x501C
def FLT_HOLDCFG : Nat := 0x5020
def FLT_LINKSTAT : Nat := 0x5024
def FLT_LOGSTAT : Nat := 0x5028
def FLT_LOGSEL : Nat := 0x502C
def FLT_LINKCNT (d : Nat) : Nat := 0x5040 + 0x4 * d
def FLT_STSTAT (d : Nat) : Nat := 0x5060 + 0x4 * d
def FLT_STFAIL (j : Nat) : Nat := 0x5080 + 0x4 * j
def FLT_LOGDATA (w : Nat) : Nat := 0x50C0 + 0x4 * w
def CRU_STAT : Nat := 0x6000
def CRU_CHRST : Nat := 0x6004
def CRU_XOVR : Nat := 0x6008
def CRU_PEER : Nat := 0x600C
def CRU_MAERR : Nat := 0x6010
def CRU_MAADDR : Nat := 0x6014
def CRU_QCFG : Nat := 0x6018
def CRU_QSTAT : Nat := 0x601C
def CRU_RCAUSE (c : Nat) : Nat := 0x6020 + 0x4 * c
def BOOT_STAT : Nat := 0x7000
def BOOT_FAIL : Nat := 0x7004
def BOOT_FAILS : Nat := 0x7008
def BOOT_TREL : Nat := 0x700C
def BOOT_FWVER : Nat := 0x7010
def BOOT_IMGINFO : Nat := 0x7014
def BOOT_NVSIZE : Nat := 0x7018
def BOOT_LOCK : Nat := 0x701C
def BOOT_ADMCFG : Nat := 0x7020
def BOOT_SETCFG : Nat := 0x7024
def BOOT_SETSTAT : Nat := 0x7028
def BOOT_REFCFG : Nat := 0x702C
def BOOT_REFSTAT : Nat := 0x7030
def BOOT_PWRHRS : Nat := 0x7034
def BOOT_LASTREF : Nat := 0x7038
def BOOT_CMD : Nat := 0x703C
def OTP_STAT : Nat := 0x7400
def OTP_REGION : Nat := 0x7404
def OTP_CRIT : Nat := 0x7408
def OTP_PGMEN : Nat := 0x740C
def OTP_PADDR : Nat := 0x7410
def OTP_PDATA : Nat := 0x7414
def OTP_PCMD : Nat := 0x7418
def OTP_PSTAT : Nat := 0x741C
def OTP_RRCFG : Nat := 0x7420
def OTP_RRSTAT : Nat := 0x7424
def OTP_DATA (w : Nat) : Nat := 0x7500 + 0x4 * w
def TWM_CFG : Nat := 0x8000
def TWM_STAT : Nat := 0x8004
def TWM_EVT : Nat := 0x8008
def TWM_EVTEN : Nat := 0x800C
def TWM_CNT : Nat := 0x8010
def TWM_WADDR : Nat := 0x8014
def TWM_LRD : Nat := 0x8018
def TWM_DOMCFG : Nat := 0x801C
def TWM_RQSTAT : Nat := 0x8020
def TWM_ASUM : Nat := 0x8024
def TWM_ADEV : Nat := 0x8028
def TWM_PASEL : Nat := 0x802C
def TWM_PADMIN : Nat := 0x8030
def TWM_APORT (j : Nat) : Nat := 0x8040 + 0x4 * j
def LNK_CFG : Nat := 0x9000
def LNK_STAT : Nat := 0x9004
def LNK_DOM : Nat := 0x9008
def LNK_DLOW : Nat := 0x900C
def LNK_GEN : Nat := 0x9010
def LNK_EVT : Nat := 0x9014
def LNK_EVTEN : Nat := 0x9018
def LNK_CMD : Nat := 0x901C
def LNK_LSTAT (n : Nat) : Nat := 0x9040 + 0x20 * n
def LNK_RANGE (n : Nat) : Nat := 0x9044 + 0x20 * n
def LNK_PFW (n : Nat) : Nat := 0x9048 + 0x20 * n
def LNK_CNT0 (n : Nat) : Nat := 0x904C + 0x20 * n
def LNK_CNT1 (n : Nat) : Nat := 0x9050 + 0x20 * n
def LNK_CNT2 (n : Nat) : Nat := 0x9054 + 0x20 * n
def UPD_CFG : Nat := 0xA000
def UPD_OWNER : Nat := 0xA004
def UPD_STAT : Nat := 0xA008
def UPD_SESS : Nat := 0xA00C
def UPD_PROG : Nat := 0xA010
def UPD_VER : Nat := 0xA014
def UPD_TLEFT : Nat := 0xA018
def UPD_CNT : Nat := 0xA01C
def UPD_EVT : Nat := 0xA020
def UPD_EVTEN : Nat := 0xA024
def UPD_OLEN : Nat := 0xA028
def UPD_ORANGE : Nat := 0xA02C
def UPD_ARG : Nat := 0xA030
def UPD_CMD : Nat := 0xA034
def UPD_DOK : Nat := 0xA040
def UPD_DFAIL : Nat := 0xA044
def UPD_DLAG : Nat := 0xA048
def UPD_BUF (w : Nat) : Nat := 0xB000 + 0x4 * w
def CHN_POLCFG (c : Nat) : Nat := 0x10100 + 0x4000 * c
def CHN_GRAD (c : Nat) : Nat := 0x10104 + 0x4000 * c
def CHN_SHEDSTAT (c : Nat) : Nat := 0x10108 + 0x4000 * c
def CHN_PACESTAT (c : Nat) : Nat := 0x1010C + 0x4000 * c
def CHN_PPOL (c k : Nat) : Nat := 0x10200 + 0x4000 * c + 0x4 * k
def CHN_PROF (c j w : Nat) : Nat := 0x10400 + 0x4000 * c + 0x40 * j + 0x4 * w
def CTX_STATE (c n : Nat) : Nat := 0x10800 + 0x4000 * c + 0x10 * n
def CTX_TMRA (c n : Nat) : Nat := 0x10804 + 0x4000 * c + 0x10 * n
def CTX_TMRB (c n : Nat) : Nat := 0x10808 + 0x4000 * c + 0x10 * n
def CTX_DATA (c n : Nat) : Nat := 0x1080C + 0x4000 * c + 0x10 * n
def CTX_GLB (c : Nat) : Nat := 0x10C00 + 0x4000 * c
def CTX_QSTAT (c : Nat) : Nat := 0x10C04 + 0x4000 * c
def CTX_CMD (c : Nat) : Nat := 0x10C08 + 0x4000 * c
def CTX_EVQ (c : Nat) : Nat := 0x10C0C + 0x4000 * c
def CTX_PANGET (c : Nat) : Nat := 0x10C10 + 0x4000 * c
def CTX_PANPUT (c : Nat) : Nat := 0x10C14 + 0x4000 * c
def CTX_TX (c : Nat) : Nat := 0x10C18 + 0x4000 * c
def CTX_WAIT (c j : Nat) : Nat := 0x10C20 + 0x4000 * c + 0x4 * j
def OPQ_ARG0 (c : Nat) : Nat := 0x11000 + 0x4000 * c
def OPQ_ARG1 (c : Nat) : Nat := 0x11004 + 0x4000 * c
def OPQ_PUSH (c : Nat) : Nat := 0x11008 + 0x4000 * c
def OPQ_RESULT (c : Nat) : Nat := 0x1100C + 0x4000 * c
def OPQ_CQ (c : Nat) : Nat := 0x11010 + 0x4000 * c
def OPQ_STAT (c : Nat) : Nat := 0x11014 + 0x4000 * c
def OPQ_ABORT (c : Nat) : Nat := 0x11018 + 0x4000 * c
def OPQ_ENTA (c i : Nat) : Nat := 0x11100 + 0x4000 * c + 0x10 * i
def OPQ_ENTB (c i : Nat) : Nat := 0x11104 + 0x4000 * c + 0x10 * i
def OPQ_ENTC (c i : Nat) : Nat := 0x11108 + 0x4000 * c + 0x10 * i
def CHN_HVCFG (c : Nat) : Nat := 0x11800 + 0x4000 * c
def CHN_HVCMD (c : Nat) : Nat := 0x11804 + 0x4000 * c
def CHN_HPROF (c j h : Nat) : Nat := 0x11900 + 0x4000 * c + 0x10 * j + 0x4 * h
def CHN_HVST (c k : Nat) : Nat := 0x11A00 + 0x4000 * c + 0x4 * k
def CRS_CFG (c : Nat) : Nat := 0x12000 + 0x4000 * c
def CRS_STAT (c : Nat) : Nat := 0x12004 + 0x4000 * c
def CRS_EVT (c : Nat) : Nat := 0x12008 + 0x4000 * c
def CRS_EVTEN (c : Nat) : Nat := 0x1200C + 0x4000 * c
def CRS_CNT (c : Nat) : Nat := 0x12010 + 0x4000 * c
def CRS_LASTDIS (c : Nat) : Nat := 0x12014 + 0x4000 * c
def CRS_LASTPC (c : Nat) : Nat := 0x12018 + 0x4000 * c
def CRS_WDKICK (c : Nat) : Nat := 0x1201C + 0x4000 * c
def CRS_WDSTAT (c : Nat) : Nat := 0x12020 + 0x4000 * c
def CRS_CMD (c : Nat) : Nat := 0x12024 + 0x4000 * c
def PRT_CFG (p : Nat) : Nat := 0x100000 + 0x100 * p
def PRT_SENSE (p : Nat) : Nat := 0x100004 + 0x100 * p
def PRT_FTRIP (p : Nat) : Nat := 0x100008 + 0x100 * p
def PRT_CCCFG (p : Nat) : Nat := 0x10000C + 0x100 * p
def PRT_INRUSH (p : Nat) : Nat := 0x100010 + 0x100 * p
def PRT_LIMIT (p : Nat) : Nat := 0x100014 + 0x100 * p
def PRT_RETRY (p : Nat) : Nat := 0x100018 + 0x100 * p
def PRT_PGWIN (p : Nat) : Nat := 0x10001C + 0x100 * p
def PRT_TARGET (p : Nat) : Nat := 0x100020 + 0x100 * p
def PRT_STATE (p : Nat) : Nat := 0x100024 + 0x100 * p
def PRT_TIMERS (p : Nat) : Nat := 0x100028 + 0x100 * p
def PRT_EVT (p : Nat) : Nat := 0x10002C + 0x100 * p
def PRT_EVTEN (p : Nat) : Nat := 0x100030 + 0x100 * p
def PRT_CMD (p : Nat) : Nat := 0x100034 + 0x100 * p
def PRT_TRIPSNAP (p : Nat) : Nat := 0x100038 + 0x100 * p
def PRT_TRIPUS (p : Nat) : Nat := 0x10003C + 0x100 * p
def PRT_PDCFG (p : Nat) : Nat := 0x100040 + 0x100 * p
def PRT_PDSTAT (p : Nat) : Nat := 0x100044 + 0x100 * p
def PRT_PDKA (p : Nat) : Nat := 0x100048 + 0x100 * p
def PRT_PDEVT (p : Nat) : Nat := 0x10004C + 0x100 * p
def PRT_PDEVTEN (p : Nat) : Nat := 0x100050 + 0x100 * p
def PRT_PDCMD (p : Nat) : Nat := 0x100054 + 0x100 * p
def PRT_PDCNT (p : Nat) : Nat := 0x100058 + 0x100 * p
def PRT_MVOLT (p : Nat) : Nat := 0x100060 + 0x100 * p
def PRT_MCURR (p : Nat) : Nat := 0x100064 + 0x100 * p
def PRT_MTEMP (p : Nat) : Nat := 0x100068 + 0x100 * p
def PRT_MUSEC (p : Nat) : Nat := 0x10006C + 0x100 * p
def PRT_ELO (p : Nat) : Nat := 0x100070 + 0x100 * p
def PRT_EHI (p : Nat) : Nat := 0x100074 + 0x100 * p

end R

namespace F

def GLB_ID_PART : Fld := ⟨16, 16⟩
def GLB_ID_STEP : Fld := ⟨8, 8⟩
def GLB_VIDPID_VID : Fld := ⟨16, 16⟩
def GLB_VIDPID_PID : Fld := ⟨0, 16⟩
def GLB_SERIAL_LO_SERIAL : Fld := ⟨0, 32⟩
def GLB_SERIAL_HI_SERIAL : Fld := ⟨0, 32⟩
def GLB_LOT_LOT : Fld := ⟨0, 32⟩
def GLB_DATE_YEAR : Fld := ⟨16, 16⟩
def GLB_DATE_WEEK : Fld := ⟨8, 8⟩
def GLB_ORDER_CODE : Fld := ⟨0, 8⟩
def GLB_SCRATCH_DATA : Fld := ⟨0, 32⟩
def ANG_CFG_NOMAMP : Fld := ⟨16, 16⟩
def ANG_CFG_BLK_EN : Fld := ⟨3, 1⟩
def ANG_CFG_XCHK_EN : Fld := ⟨2, 1⟩
def ANG_CFG_SRC : Fld := ⟨0, 2⟩
def ANG_HOLDISL_HOLD_MS : Fld := ⟨21, 11⟩
def ANG_HOLDISL_ISLF : Fld := ⟨0, 17⟩
def ANG_MZXOFS_OFS : Fld := ⟨0, 16⟩
def ANG_STATUS_STATE : Fld := ⟨29, 3⟩
def ANG_STATUS_FIRSTLOCK : Fld := ⟨28, 1⟩
def ANG_STATUS_BLK : Fld := ⟨27, 1⟩
def ANG_STATUS_PHLOSS : Fld := ⟨24, 3⟩
def ANG_STATUS_SHADOW : Fld := ⟨23, 1⟩
def ANG_STATUS_HOLD_LEFT : Fld := ⟨0, 11⟩
def ANG_EVT_PHLOSS : Fld := ⟨8, 1⟩
def ANG_EVT_FRANGE : Fld := ⟨7, 1⟩
def ANG_EVT_XCHK : Fld := ⟨6, 1⟩
def ANG_EVT_DIP : Fld := ⟨5, 1⟩
def ANG_EVT_RETURN_DONE : Fld := ⟨4, 1⟩
def ANG_EVT_ISLAND : Fld := ⟨3, 1⟩
def ANG_EVT_HOLD : Fld := ⟨2, 1⟩
def ANG_EVT_UNLOCK : Fld := ⟨1, 1⟩
def ANG_EVT_LOCK : Fld := ⟨0, 1⟩
def ANG_EVTEN_PHLOSS : Fld := ⟨8, 1⟩
def ANG_EVTEN_FRANGE : Fld := ⟨7, 1⟩
def ANG_EVTEN_XCHK : Fld := ⟨6, 1⟩
def ANG_EVTEN_DIP : Fld := ⟨5, 1⟩
def ANG_EVTEN_RETURN_DONE : Fld := ⟨4, 1⟩
def ANG_EVTEN_ISLAND : Fld := ⟨3, 1⟩
def ANG_EVTEN_HOLD : Fld := ⟨2, 1⟩
def ANG_EVTEN_UNLOCK : Fld := ⟨1, 1⟩
def ANG_EVTEN_LOCK : Fld := ⟨0, 1⟩
def ANG_ANGLE_STATE : Fld := ⟨29, 3⟩
def ANG_ANGLE_SLOT : Fld := ⟨16, 5⟩
def ANG_ANGLE_ANGLE : Fld := ⟨0, 16⟩
def ANG_CYC_LO_CYC : Fld := ⟨0, 32⟩
def ANG_CYC_HI_CYC : Fld := ⟨0, 16⟩
def ANG_FREQ_FREQ : Fld := ⟨0, 17⟩
def ANG_PERIOD_PERIOD : Fld := ⟨0, 22⟩
def ANG_AMP_THD : Fld := ⟨16, 16⟩
def ANG_AMP_AMP : Fld := ⟨0, 16⟩
def ANG_PHOFS_PHC : Fld := ⟨16, 16⟩
def ANG_PHOFS_PHB : Fld := ⟨0, 16⟩
def ANG_XCHK_ERR : Fld := ⟨0, 16⟩
def ANG_USEC_LO_USEC : Fld := ⟨0, 32⟩
def ANG_USEC_HI_USEC : Fld := ⟨0, 32⟩
def ANG_SNAP_CTL_VALID : Fld := ⟨31, 1⟩
def ANG_SNAP_CTL_SNAP : Fld := ⟨0, 1⟩
def ANG_SNAP_ANG_STATE : Fld := ⟨29, 3⟩
def ANG_SNAP_ANG_SLOT : Fld := ⟨16, 5⟩
def ANG_SNAP_ANG_ANGLE : Fld := ⟨0, 16⟩
def ANG_SNAP_CYCL_CYC : Fld := ⟨0, 32⟩
def ANG_SNAP_CYCH_CYC : Fld := ⟨0, 16⟩
def ANG_SNAP_USECL_USEC : Fld := ⟨0, 32⟩
def ANG_SNAP_USECH_USEC : Fld := ⟨0, 32⟩
def ANG_SBUD_OPS : Fld := ⟨24, 8⟩
def ANG_SBUD_IBUD : Fld := ⟨0, 24⟩
def ANG_SBSTAT_LATE : Fld := ⟨16, 16⟩
def ANG_SBSTAT_OVERSIZE : Fld := ⟨0, 16⟩
def TMU_CTL_CHAIN : Fld := ⟨15, 1⟩
def TMU_CTL_ONESHOT : Fld := ⟨14, 1⟩
def TMU_CTL_GATE : Fld := ⟨12, 2⟩
def TMU_CTL_LINK : Fld := ⟨9, 3⟩
def TMU_CTL_MACT : Fld := ⟨6, 3⟩
def TMU_CTL_ZACT : Fld := ⟨3, 3⟩
def TMU_CTL_CAPEN : Fld := ⟨2, 1⟩
def TMU_SRC_CLK : Fld := ⟨28, 4⟩
def TMU_SRC_CEDGE : Fld := ⟨26, 2⟩
def TMU_SRC_CTIN : Fld := ⟨23, 3⟩
def TMU_SRC_CPEV : Fld := ⟨20, 3⟩
def TMU_SRC_GSEL : Fld := ⟨16, 4⟩
def TMU_SRC_PSEL : Fld := ⟨0, 7⟩
def TMU_CAPSRC_CSEL : Fld := ⟨28, 4⟩
def TMU_CAPSRC_CEDGE : Fld := ⟨26, 2⟩
def TMU_CAPSRC_FSEL : Fld := ⟨23, 3⟩
def TMU_CAPSRC_CPK : Fld := ⟨20, 3⟩
def TMU_CNT_CNT : Fld := ⟨0, 32⟩
def TMU_RLD_RLD : Fld := ⟨0, 32⟩
def TMU_CMP_CMP : Fld := ⟨0, 32⟩
def TMU_CAP_CAP : Fld := ⟨0, 32⟩
def TMU_STAT_RUN : Fld := ⟨31, 1⟩
def TMU_STAT_CHAINED : Fld := ⟨30, 1⟩
def TMU_STAT_QDEPTH : Fld := ⟨27, 3⟩
def TMU_STAT_QOVR : Fld := ⟨4, 1⟩
def TMU_STAT_OVR : Fld := ⟨3, 1⟩
def TMU_STAT_CAP : Fld := ⟨2, 1⟩
def TMU_STAT_ZERO : Fld := ⟨1, 1⟩
def TMU_STAT_MATCH : Fld := ⟨0, 1⟩
def TMU_IEN_AEN : Fld := ⟨8, 5⟩
def TMU_IEN_CIE : Fld := ⟨0, 5⟩
def TMU_CMD_LOAD : Fld := ⟨2, 1⟩
def TMU_CMD_STOP : Fld := ⟨1, 1⟩
def TMU_CMD_START : Fld := ⟨0, 1⟩
def TMU_TINFLT_FILTk : Fld := ⟨0, 32⟩
def TMU_RUN_RUN : Fld := ⟨0, 32⟩
def TMU_GSTART_START : Fld := ⟨0, 32⟩
def TMU_GSTOP_STOP : Fld := ⟨0, 32⟩
def TMU_TINLVL_LVL : Fld := ⟨0, 8⟩
def FDR_CFG_PRES : Fld := ⟨31, 1⟩
def FDR_CFG_TYPE : Fld := ⟨28, 3⟩
def FDR_CFG_COST : Fld := ⟨25, 3⟩
def FDR_CFG_FPRIO : Fld := ⟨22, 3⟩
def FDR_CFG_VNOM : Fld := ⟨0, 10⟩
def FDR_PCAP_PCAP : Fld := ⟨0, 32⟩
def FDR_ILIM_ILIM : Fld := ⟨0, 32⟩
def FDR_DER_DERATE : Fld := ⟨22, 10⟩
def FDR_DER_SAGDER : Fld := ⟨12, 10⟩
def FDR_DER_RECOV : Fld := ⟨0, 8⟩
def FDR_VWIN_VOVER : Fld := ⟨20, 10⟩
def FDR_VWIN_VSAG : Fld := ⟨10, 10⟩
def FDR_VWIN_VDOWN : Fld := ⟨0, 10⟩
def FDR_BAT_RES : Fld := ⟨3, 10⟩
def FDR_BAT_RPRIO : Fld := ⟨0, 3⟩
def FDR_SOC_SOC : Fld := ⟨0, 10⟩
def FDR_CMD_ONLINE : Fld := ⟨1, 1⟩
def FDR_CMD_OFFLINE : Fld := ⟨0, 1⟩
def FDR_STAT_HEALTH : Fld := ⟨29, 3⟩
def FDR_STAT_OFFCMD : Fld := ⟨28, 1⟩
def FDR_STAT_BLKAPP : Fld := ⟨27, 1⟩
def FDR_STAT_RESLOW : Fld := ⟨26, 1⟩
def FDR_STAT_OVER : Fld := ⟨25, 1⟩
def FDR_STAT_DOWNSEEN : Fld := ⟨24, 1⟩
def FDR_STAT_RCNT : Fld := ⟨16, 8⟩
def FDR_STAT_KCOR : Fld := ⟨0, 10⟩
def FDR_VMEAS_VMEAS : Fld := ⟨0, 16⟩
def FDR_IMEAN_IMEAN : Fld := ⟨0, 32⟩
def FDR_USABLE_USABLE : Fld := ⟨0, 32⟩
def FDR_COMMIT_COMMIT : Fld := ⟨0, 32⟩
def FDR_EVT_OFFL : Fld := ⟨5, 1⟩
def FDR_EVT_RESLOW : Fld := ⟨4, 1⟩
def FDR_EVT_OVER : Fld := ⟨3, 1⟩
def FDR_EVT_SAG : Fld := ⟨2, 1⟩
def FDR_EVT_UP : Fld := ⟨1, 1⟩
def FDR_EVT_DOWN : Fld := ⟨0, 1⟩
def FDR_EVTEN_OFFL : Fld := ⟨5, 1⟩
def FDR_EVTEN_RESLOW : Fld := ⟨4, 1⟩
def FDR_EVTEN_OVER : Fld := ⟨3, 1⟩
def FDR_EVTEN_SAG : Fld := ⟨2, 1⟩
def FDR_EVTEN_UP : Fld := ⟨1, 1⟩
def FDR_EVTEN_DOWN : Fld := ⟨0, 1⟩
def PLC_CFG_VMOVES : Fld := ⟨24, 8⟩
def PLC_CFG_DWELL : Fld := ⟨16, 8⟩
def PLC_CFG_RAISE_MIN : Fld := ⟨8, 8⟩
def PLC_CFG_KSTEP : Fld := ⟨0, 8⟩
def PLC_INFLT_EMERG_LV : Fld := ⟨16, 3⟩
def PLC_INFLT_SFILT : Fld := ⟨8, 8⟩
def PLC_INFLT_BFILT : Fld := ⟨0, 8⟩
def PLC_HOSTSHED_LV : Fld := ⟨0, 3⟩
def PLC_INPUTS_LEVEL : Fld := ⟨29, 3⟩
def PLC_INPUTS_PINLV : Fld := ⟨26, 3⟩
def PLC_INPUTS_BLK : Fld := ⟨25, 1⟩
def PLC_INPUTS_EMERG : Fld := ⟨24, 1⟩
def PLC_INPUTS_MANV : Fld := ⟨23, 1⟩
def PLC_INPUTS_ISL : Fld := ⟨22, 1⟩
def PLC_ROUND_ROUND : Fld := ⟨0, 32⟩
def PLC_STAT_LAST : Fld := ⟨30, 2⟩
def PLC_STAT_MMRUN : Fld := ⟨24, 6⟩
def PLC_STAT_FMOVES : Fld := ⟨8, 8⟩
def PLC_STAT_VMOVED : Fld := ⟨0, 8⟩
def PLC_CNT_MISMATCH : Fld := ⟨16, 16⟩
def PLC_CNT_LATE : Fld := ⟨0, 16⟩
def PLC_EVT_VCOVER : Fld := ⟨4, 1⟩
def PLC_EVT_P7OVER : Fld := ⟨3, 1⟩
def PLC_EVT_LEVEL : Fld := ⟨2, 1⟩
def PLC_EVT_LATE : Fld := ⟨1, 1⟩
def PLC_EVT_MISMATCH : Fld := ⟨0, 1⟩
def PLC_EVTEN_VCOVER : Fld := ⟨4, 1⟩
def PLC_EVTEN_P7OVER : Fld := ⟨3, 1⟩
def PLC_EVTEN_LEVEL : Fld := ⟨2, 1⟩
def PLC_EVTEN_LATE : Fld := ⟨1, 1⟩
def PLC_EVTEN_MISMATCH : Fld := ⟨0, 1⟩
def PLC_GSEL_G : Fld := ⟨0, 8⟩
def PLC_GUSED_USED : Fld := ⟨0, 32⟩
def PLC_VCLIM0_LIMd : Fld := ⟨0, 32⟩
def PLC_VCLIM1_LIMd : Fld := ⟨0, 32⟩
def PLC_VCLOAD0_LOADd : Fld := ⟨0, 32⟩
def PLC_VCLOAD1_LOADd : Fld := ⟨0, 32⟩
def PLC_SHEDLV_PCT : Fld := ⟨25, 7⟩
def PLC_SHEDLV_FLOOR : Fld := ⟨21, 3⟩
def PLC_SHEDLV_KEEP : Fld := ⟨0, 16⟩
def PLC_GRP_BUDGET : Fld := ⟨16, 16⟩
def PLC_GRP_PARENT : Fld := ⟨8, 8⟩
def PLC_GRP_GPRIO : Fld := ⟨5, 3⟩
def PLC_ENT_LEG : Fld := ⟨30, 2⟩
def PLC_ENT_PEND : Fld := ⟨29, 1⟩
def PLC_ENT_SHED : Fld := ⟨28, 1⟩
def PLC_ENT_OVER : Fld := ⟨27, 1⟩
def PLC_ENT_MOVED : Fld := ⟨26, 1⟩
def PLC_ENT_FORCED : Fld := ⟨25, 1⟩
def PLC_ENT_HOLD : Fld := ⟨24, 1⟩
def PLC_ENT_DWELL : Fld := ⟨16, 8⟩
def PLC_ENT_CEIL : Fld := ⟨0, 16⟩
def ADC_ODCFG_ALIGN : Fld := ⟨31, 1⟩
def ADC_ODCFG_REPEAT : Fld := ⟨30, 1⟩
def ADC_ODCFG_INPUT : Fld := ⟨16, 8⟩
def ADC_ODCFG_DELAY : Fld := ⟨0, 16⟩
def ADC_ODTRG_TSRC : Fld := ⟨28, 4⟩
def ADC_ODTRG_TSEL : Fld := ⟨16, 5⟩
def ADC_ODTRG_TANG : Fld := ⟨0, 16⟩
def ADC_DATA_NEW : Fld := ⟨31, 1⟩
def ADC_DATA_INPUT : Fld := ⟨16, 8⟩
def ADC_DATA_DATA : Fld := ⟨0, 16⟩
def ADC_STAT_CALBUSY : Fld := ⟨31, 1⟩
def ADC_STAT_CALDONE : Fld := ⟨30, 1⟩
def ADC_STAT_ARMED : Fld := ⟨29, 1⟩
def ADC_STAT_PEND : Fld := ⟨28, 1⟩
def ADC_STAT_STALE : Fld := ⟨27, 1⟩
def ADC_STAT_CALFAIL : Fld := ⟨4, 1⟩
def ADC_STAT_CALRST : Fld := ⟨3, 1⟩
def ADC_STAT_ABRT : Fld := ⟨2, 1⟩
def ADC_STAT_TRGOVR : Fld := ⟨1, 1⟩
def ADC_STAT_OVR : Fld := ⟨0, 1⟩
def ADC_CAL_GAIN : Fld := ⟨16, 16⟩
def ADC_CAL_OFFSET : Fld := ⟨0, 16⟩
def ADC_CMD_CAL : Fld := ⟨3, 1⟩
def ADC_CMD_SWTRIG : Fld := ⟨2, 1⟩
def ADC_CMD_DISARM : Fld := ⟨1, 1⟩
def ADC_CMD_ARM : Fld := ⟨0, 1⟩
def ADC_FVSCL_VFS : Fld := ⟨0, 16⟩
def ADC_FISCL_IFS : Fld := ⟨0, 24⟩
def HRV_STAT_CYC : Fld := ⟨16, 16⟩
def HRV_CYC_LO_CYC : Fld := ⟨0, 32⟩
def HRV_CYC_HI_CYC : Fld := ⟨0, 16⟩
def HRV_FPWR_FPWR : Fld := ⟨0, 32⟩
def HRV_FOUT_LO_E : Fld := ⟨0, 32⟩
def HRV_FOUT_HI_E : Fld := ⟨0, 16⟩
def HRV_FIN_LO_E : Fld := ⟨0, 32⟩
def HRV_FIN_HI_E : Fld := ⟨0, 16⟩
def FLT_SUM_FUSE : Fld := ⟨14, 1⟩
def FLT_SUM_LOGLOST : Fld := ⟨13, 1⟩
def FLT_SUM_BOOT : Fld := ⟨12, 1⟩
def FLT_SUM_CHWDOG : Fld := ⟨11, 1⟩
def FLT_SUM_SELFTEST : Fld := ⟨10, 1⟩
def FLT_SUM_TIMEBASE : Fld := ⟨9, 1⟩
def FLT_SUM_PLACE : Fld := ⟨8, 1⟩
def FLT_SUM_CLK : Fld := ⟨7, 1⟩
def FLT_SUM_HOLD : Fld := ⟨6, 1⟩
def FLT_SUM_LINKERR : Fld := ⟨5, 1⟩
def FLT_SUM_ECC_UE : Fld := ⟨4, 1⟩
def FLT_SUM_ECC_CE : Fld := ⟨3, 1⟩
def FLT_SUM_DUPLEX : Fld := ⟨2, 1⟩
def FLT_SUM_CRSRST : Fld := ⟨1, 1⟩
def FLT_SUM_RETUNE : Fld := ⟨0, 1⟩
def FLT_FEN_FUSE : Fld := ⟨14, 1⟩
def FLT_FEN_LOGLOST : Fld := ⟨13, 1⟩
def FLT_FEN_BOOT : Fld := ⟨12, 1⟩
def FLT_FEN_CHWDOG : Fld := ⟨11, 1⟩
def FLT_FEN_SELFTEST : Fld := ⟨10, 1⟩
def FLT_FEN_TIMEBASE : Fld := ⟨9, 1⟩
def FLT_FEN_PLACE : Fld := ⟨8, 1⟩
def FLT_FEN_CLK : Fld := ⟨7, 1⟩
def FLT_FEN_HOLD : Fld := ⟨6, 1⟩
def FLT_FEN_LINKERR : Fld := ⟨5, 1⟩
def FLT_FEN_ECC_UE : Fld := ⟨4, 1⟩
def FLT_FEN_ECC_CE : Fld := ⟨3, 1⟩
def FLT_FEN_DUPLEX : Fld := ⟨2, 1⟩
def FLT_FEN_CRSRST : Fld := ⟨1, 1⟩
def FLT_FEN_RETUNE : Fld := ⟨0, 1⟩
def FLT_AEN_FUSE : Fld := ⟨14, 1⟩
def FLT_AEN_LOGLOST : Fld := ⟨13, 1⟩
def FLT_AEN_BOOT : Fld := ⟨12, 1⟩
def FLT_AEN_CHWDOG : Fld := ⟨11, 1⟩
def FLT_AEN_SELFTEST : Fld := ⟨10, 1⟩
def FLT_AEN_TIMEBASE : Fld := ⟨9, 1⟩
def FLT_AEN_PLACE : Fld := ⟨8, 1⟩
def FLT_AEN_CLK : Fld := ⟨7, 1⟩
def FLT_AEN_HOLD : Fld := ⟨6, 1⟩
def FLT_AEN_LINKERR : Fld := ⟨5, 1⟩
def FLT_AEN_ECC_UE : Fld := ⟨4, 1⟩
def FLT_AEN_ECC_CE : Fld := ⟨3, 1⟩
def FLT_AEN_DUPLEX : Fld := ⟨2, 1⟩
def FLT_AEN_CRSRST : Fld := ⟨1, 1⟩
def FLT_AEN_RETUNE : Fld := ⟨0, 1⟩
def FLT_CLKSTAT_REF : Fld := ⟨31, 1⟩
def FLT_CLKSTAT_TCLK : Fld := ⟨30, 1⟩
def FLT_CLKSTAT_MCLK : Fld := ⟨29, 1⟩
def FLT_CLKSTAT_PLL : Fld := ⟨24, 4⟩
def FLT_CLKSTAT_PDOSC : Fld := ⟨16, 8⟩
def FLT_ECCCNT_CE : Fld := ⟨16, 16⟩
def FLT_ECCCNT_UE : Fld := ⟨0, 16⟩
def FLT_ECCUE_MEM : Fld := ⟨24, 8⟩
def FLT_ECCUE_SCRUB : Fld := ⟨23, 1⟩
def FLT_ECCUADDR_ADDR : Fld := ⟨0, 32⟩
def FLT_SCRUB_PASSES : Fld := ⟨16, 16⟩
def FLT_SCRUB_LASTMS : Fld := ⟨0, 16⟩
def FLT_HOLDCFG_HOLD_S : Fld := ⟨0, 16⟩
def FLT_LINKSTAT_DEVHOLD : Fld := ⟨31, 1⟩
def FLT_LINKSTAT_HOLD : Fld := ⟨16, 8⟩
def FLT_LINKSTAT_UP : Fld := ⟨0, 8⟩
def FLT_LOGSTAT_FILL : Fld := ⟨24, 8⟩
def FLT_LOGSTAT_LOST_C : Fld := ⟨16, 8⟩
def FLT_LOGSTAT_LOST_D : Fld := ⟨8, 8⟩
def FLT_LOGSTAT_LOST_M : Fld := ⟨0, 8⟩
def FLT_LOGSEL_IDX : Fld := ⟨0, 7⟩
def FLT_LINKCNT_CRCERR : Fld := ⟨16, 16⟩
def FLT_LINKCNT_LOSS : Fld := ⟨0, 16⟩
def FLT_STSTAT_SPAREOK : Fld := ⟨31, 1⟩
def FLT_STSTAT_SPAREUSE : Fld := ⟨30, 1⟩
def FLT_STSTAT_SPPORT : Fld := ⟨24, 6⟩
def FLT_STSTAT_ROUNDS : Fld := ⟨16, 8⟩
def FLT_STSTAT_NEXT : Fld := ⟨0, 7⟩
def FLT_STFAIL_FAIL : Fld := ⟨0, 32⟩
def FLT_LOGDATA_WORD : Fld := ⟨0, 32⟩
def CRU_STAT_REFOK : Fld := ⟨6, 1⟩
def CRU_STAT_CPLL : Fld := ⟨2, 4⟩
def CRU_STAT_MPLL : Fld := ⟨1, 1⟩
def CRU_STAT_TPLL : Fld := ⟨0, 1⟩
def CRU_CHRST_KEY : Fld := ⟨8, 8⟩
def CRU_CHRST_CH : Fld := ⟨0, 4⟩
def CRU_PEER_MGT : Fld := ⟨8, 4⟩
def CRU_PEER_CH_T : Fld := ⟨4, 4⟩
def CRU_PEER_CH_M : Fld := ⟨0, 4⟩
def CRU_MAERR_ERR : Fld := ⟨31, 1⟩
def CRU_MAERR_CAUSE : Fld := ⟨28, 3⟩
def CRU_MAERR_COUNT : Fld := ⟨0, 16⟩
def CRU_MAADDR_ADDR : Fld := ⟨0, 32⟩
def CRU_QCFG_QEN : Fld := ⟨31, 1⟩
def CRU_QCFG_QIDLE_MS : Fld := ⟨0, 16⟩
def CRU_QSTAT_LASTWAKE : Fld := ⟨24, 8⟩
def CRU_QSTAT_ENTRIES : Fld := ⟨0, 16⟩
def CRU_RCAUSE_UECC : Fld := ⟨4, 1⟩
def CRU_RCAUSE_HOST : Fld := ⟨3, 1⟩
def CRU_RCAUSE_WDOG : Fld := ⟨2, 1⟩
def CRU_RCAUSE_PLL : Fld := ⟨1, 1⟩
def CRU_RCAUSE_POR : Fld := ⟨0, 1⟩
def BOOT_STAT_PHASE : Fld := ⟨28, 4⟩
def BOOT_STAT_ADMITDONE : Fld := ⟨27, 1⟩
def BOOT_STAT_SIGOK : Fld := ⟨26, 1⟩
def BOOT_STAT_SECURE : Fld := ⟨25, 1⟩
def BOOT_STAT_FUSEBAD : Fld := ⟨24, 1⟩
def BOOT_STAT_TRIALFB : Fld := ⟨23, 1⟩
def BOOT_STAT_NVA_OK : Fld := ⟨22, 1⟩
def BOOT_STAT_NVB_OK : Fld := ⟨21, 1⟩
def BOOT_STAT_CAND : Fld := ⟨18, 3⟩
def BOOT_STAT_SLOT : Fld := ⟨16, 2⟩
def BOOT_TREL_USEC : Fld := ⟨0, 32⟩
def BOOT_FWVER_FWVER : Fld := ⟨0, 32⟩
def BOOT_IMGINFO_LINKLV : Fld := ⟨24, 8⟩
def BOOT_IMGINFO_SVER : Fld := ⟨16, 8⟩
def BOOT_IMGINFO_SVER_MIN : Fld := ⟨8, 8⟩
def BOOT_IMGINFO_KSLOT : Fld := ⟨6, 2⟩
def BOOT_NVSIZE_A : Fld := ⟨16, 16⟩
def BOOT_NVSIZE_B : Fld := ⟨0, 16⟩
def BOOT_LOCK_LOCKED : Fld := ⟨0, 1⟩
def BOOT_ADMCFG_P7ALL : Fld := ⟨8, 1⟩
def BOOT_ADMCFG_DIV : Fld := ⟨0, 4⟩
def BOOT_SETCFG_WB_S : Fld := ⟨0, 8⟩
def BOOT_SETSTAT_COPY : Fld := ⟨30, 2⟩
def BOOT_SETSTAT_RESULT : Fld := ⟨27, 3⟩
def BOOT_SETSTAT_DIRTY : Fld := ⟨26, 1⟩
def BOOT_SETSTAT_WBERR : Fld := ⟨25, 1⟩
def BOOT_SETSTAT_IGNORED : Fld := ⟨0, 16⟩
def BOOT_REFCFG_HOURS : Fld := ⟨0, 20⟩
def BOOT_REFSTAT_STATE : Fld := ⟨29, 3⟩
def BOOT_REFSTAT_REASON : Fld := ⟨16, 8⟩
def BOOT_REFSTAT_PCT : Fld := ⟨0, 7⟩
def BOOT_PWRHRS_HOURS : Fld := ⟨0, 32⟩
def BOOT_LASTREF_HOURS : Fld := ⟨0, 32⟩
def BOOT_CMD_KEY : Fld := ⟨24, 8⟩
def BOOT_CMD_REFRESH : Fld := ⟨2, 1⟩
def BOOT_CMD_SAVE : Fld := ⟨1, 1⟩
def BOOT_CMD_RETRY : Fld := ⟨0, 1⟩
def OTP_STAT_SENSED : Fld := ⟨31, 1⟩
def OTP_STAT_TRIMBAD : Fld := ⟨30, 1⟩
def OTP_STAT_IDSRC : Fld := ⟨29, 1⟩
def OTP_STAT_KEYOK : Fld := ⟨25, 4⟩
def OTP_REGION_RSTATE : Fld := ⟨0, 26⟩
def OTP_CRIT_SECURE_BOOT : Fld := ⟨31, 1⟩
def OTP_CRIT_DEBUG_KILL : Fld := ⟨30, 1⟩
def OTP_CRIT_REVOKED : Fld := ⟨26, 4⟩
def OTP_CRIT_LOCK : Fld := ⟨13, 13⟩
def OTP_CRIT_WEAK : Fld := ⟨0, 8⟩
def OTP_PGMEN_SEC : Fld := ⟨14, 1⟩
def OTP_PGMEN_REV : Fld := ⟨13, 1⟩
def OTP_PGMEN_REG : Fld := ⟨0, 13⟩
def OTP_PADDR_ADDR : Fld := ⟨0, 8⟩
def OTP_PDATA_DATA : Fld := ⟨0, 32⟩
def OTP_PCMD_KEY : Fld := ⟨24, 8⟩
def OTP_PCMD_OP : Fld := ⟨0, 2⟩
def OTP_PSTAT_BUSY : Fld := ⟨31, 1⟩
def OTP_PSTAT_CODE : Fld := ⟨27, 4⟩
def OTP_PSTAT_BIT : Fld := ⟨0, 5⟩
def OTP_RRCFG_MIN : Fld := ⟨0, 16⟩
def OTP_RRSTAT_DIFFS : Fld := ⟨16, 16⟩
def OTP_RRSTAT_LASTW : Fld := ⟨0, 8⟩
def OTP_DATA_DATA : Fld := ⟨0, 32⟩
def TWM_CFG_PECREQ : Fld := ⟨31, 1⟩
def TWM_CFG_ARAEN : Fld := ⟨30, 1⟩
def TWM_CFG_BLEN : Fld := ⟨16, 5⟩
def TWM_CFG_GF : Fld := ⟨4, 4⟩
def TWM_STAT_ALERT : Fld := ⟨31, 1⟩
def TWM_STAT_ARAHELD : Fld := ⟨30, 1⟩
def TWM_STAT_RQPEND : Fld := ⟨29, 1⟩
def TWM_STAT_SADDR : Fld := ⟨0, 7⟩
def TWM_EVT_RQDONE : Fld := ⟨7, 1⟩
def TWM_EVT_FMTERR : Fld := ⟨6, 1⟩
def TWM_EVT_PECERR : Fld := ⟨5, 1⟩
def TWM_EVT_BUSFLT : Fld := ⟨4, 1⟩
def TWM_EVT_STRTO : Fld := ⟨3, 1⟩
def TWM_EVT_SDATO : Fld := ⟨2, 1⟩
def TWM_EVT_SCLTO : Fld := ⟨1, 1⟩
def TWM_EVT_WERR : Fld := ⟨0, 1⟩
def TWM_EVTEN_RQDONE : Fld := ⟨7, 1⟩
def TWM_EVTEN_FMTERR : Fld := ⟨6, 1⟩
def TWM_EVTEN_PECERR : Fld := ⟨5, 1⟩
def TWM_EVTEN_BUSFLT : Fld := ⟨4, 1⟩
def TWM_EVTEN_STRTO : Fld := ⟨3, 1⟩
def TWM_EVTEN_SDATO : Fld := ⟨2, 1⟩
def TWM_EVTEN_SCLTO : Fld := ⟨1, 1⟩
def TWM_EVTEN_WERR : Fld := ⟨0, 1⟩
def TWM_CNT_XFERS : Fld := ⟨16, 16⟩
def TWM_CNT_DISC : Fld := ⟨0, 16⟩
def TWM_WADDR_ADDR : Fld := ⟨0, 32⟩
def TWM_LRD_DATA : Fld := ⟨0, 32⟩
def TWM_DOMCFG_TMO_MS : Fld := ⟨0, 14⟩
def TWM_RQSTAT_ST : Fld := ⟨28, 4⟩
def TWM_RQSTAT_TAG : Fld := ⟨16, 8⟩
def TWM_RQSTAT_LEN : Fld := ⟨0, 7⟩
def TWM_ASUM_DOM : Fld := ⟨10, 1⟩
def TWM_ASUM_UPD : Fld := ⟨9, 1⟩
def TWM_ASUM_LNK : Fld := ⟨8, 1⟩
def TWM_ASUM_TWM : Fld := ⟨7, 1⟩
def TWM_ASUM_CRS : Fld := ⟨6, 1⟩
def TWM_ASUM_FLT : Fld := ⟨5, 1⟩
def TWM_ASUM_PLC : Fld := ⟨4, 1⟩
def TWM_ASUM_FDR : Fld := ⟨3, 1⟩
def TWM_ASUM_PRT : Fld := ⟨2, 1⟩
def TWM_ASUM_TMU : Fld := ⟨1, 1⟩
def TWM_ASUM_ANG : Fld := ⟨0, 1⟩
def TWM_ADEV_DEV : Fld := ⟨0, 16⟩
def TWM_PASEL_PORT : Fld := ⟨0, 9⟩
def TWM_PADMIN_ADIS : Fld := ⟨15, 1⟩
def TWM_PADMIN_POVEN : Fld := ⟨11, 1⟩
def TWM_PADMIN_POV : Fld := ⟨8, 3⟩
def TWM_PADMIN_AMASK : Fld := ⟨0, 1⟩
def TWM_APORT_PORT : Fld := ⟨0, 32⟩
def LNK_CFG_ROOT : Fld := ⟨31, 1⟩
def LNK_CFG_LEN : Fld := ⟨24, 4⟩
def LNK_CFG_HOLD_MS : Fld := ⟨0, 16⟩
def LNK_STAT_ADDR : Fld := ⟨16, 16⟩
def LNK_STAT_ENUMD : Fld := ⟨15, 1⟩
def LNK_STAT_ENRUN : Fld := ⟨14, 1⟩
def LNK_STAT_OVFL : Fld := ⟨13, 1⟩
def LNK_STAT_LVLOW : Fld := ⟨12, 1⟩
def LNK_STAT_DLEVEL : Fld := ⟨4, 4⟩
def LNK_STAT_OLEVEL : Fld := ⟨0, 4⟩
def LNK_DOM_COUNT : Fld := ⟨0, 17⟩
def LNK_DLOW_DEV : Fld := ⟨0, 16⟩
def LNK_GEN_GEN : Fld := ⟨0, 16⟩
def LNK_EVT_OVFL : Fld := ⟨7, 1⟩
def LNK_EVT_LOST : Fld := ⟨6, 1⟩
def LNK_EVT_DISC : Fld := ⟨5, 1⟩
def LNK_EVT_FAULT : Fld := ⟨4, 1⟩
def LNK_EVT_LEVEL : Fld := ⟨3, 1⟩
def LNK_EVT_ENUM : Fld := ⟨2, 1⟩
def LNK_EVT_DOWN : Fld := ⟨1, 1⟩
def LNK_EVT_UP : Fld := ⟨0, 1⟩
def LNK_EVTEN_OVFL : Fld := ⟨7, 1⟩
def LNK_EVTEN_LOST : Fld := ⟨6, 1⟩
def LNK_EVTEN_DISC : Fld := ⟨5, 1⟩
def LNK_EVTEN_FAULT : Fld := ⟨4, 1⟩
def LNK_EVTEN_LEVEL : Fld := ⟨3, 1⟩
def LNK_EVTEN_ENUM : Fld := ⟨2, 1⟩
def LNK_EVTEN_DOWN : Fld := ⟨1, 1⟩
def LNK_EVTEN_UP : Fld := ⟨0, 1⟩
def LNK_CMD_KEY : Fld := ⟨24, 8⟩
def LNK_CMD_DROP : Fld := ⟨4, 4⟩
def LNK_CMD_ENUM : Fld := ⟨0, 1⟩
def LNK_LSTAT_STATE : Fld := ⟨29, 3⟩
def LNK_LSTAT_SIGDET : Fld := ⟨28, 1⟩
def LNK_LSTAT_ENUMD : Fld := ⟨27, 1⟩
def LNK_LSTAT_PLINK : Fld := ⟨20, 4⟩
def LNK_LSTAT_PLEVEL : Fld := ⟨16, 4⟩
def LNK_LSTAT_CREDIT : Fld := ⟨0, 3⟩
def LNK_RANGE_HI : Fld := ⟨16, 16⟩
def LNK_RANGE_LO : Fld := ⟨0, 16⟩
def LNK_PFW_FWVER : Fld := ⟨0, 32⟩
def LNK_CNT0_CRCERR : Fld := ⟨16, 16⟩
def LNK_CNT0_LENERR : Fld := ⟨0, 16⟩
def LNK_CNT1_RETRY : Fld := ⟨16, 16⟩
def LNK_CNT1_LOST : Fld := ⟨0, 16⟩
def LNK_CNT2_LOSS : Fld := ⟨16, 16⟩
def LNK_CNT2_DISC : Fld := ⟨0, 16⟩
def UPD_CFG_WIN_MIN : Fld := ⟨21, 11⟩
def UPD_CFG_GAP_MS : Fld := ⟨11, 10⟩
def UPD_CFG_AUTOCONF : Fld := ⟨0, 1⟩
def UPD_OWNER_KEY : Fld := ⟨24, 8⟩
def UPD_OWNER_LOCK : Fld := ⟨0, 1⟩
def UPD_STAT_STATE : Fld := ⟨28, 4⟩
def UPD_STAT_REASON : Fld := ⟨20, 8⟩
def UPD_STAT_VA : Fld := ⟨19, 1⟩
def UPD_STAT_VB : Fld := ⟨18, 1⟩
def UPD_STAT_DEFER : Fld := ⟨17, 1⟩
def UPD_STAT_CONFIG : Fld := ⟨16, 1⟩
def UPD_STAT_CHDONE : Fld := ⟨12, 4⟩
def UPD_SESS_SESSION : Fld := ⟨16, 16⟩
def UPD_SESS_NBLK : Fld := ⟨0, 12⟩
def UPD_PROG_FIRST : Fld := ⟨16, 12⟩
def UPD_PROG_MISSING : Fld := ⟨0, 12⟩
def UPD_VER_FWVER : Fld := ⟨0, 32⟩
def UPD_TLEFT_SEC : Fld := ⟨0, 16⟩
def UPD_CNT_CRCERR : Fld := ⟨16, 16⟩
def UPD_CNT_DROP : Fld := ⟨0, 16⟩
def UPD_EVT_DOMCHG : Fld := ⟨7, 1⟩
def UPD_EVT_FALLBACK : Fld := ⟨6, 1⟩
def UPD_EVT_CONFIRMED : Fld := ⟨5, 1⟩
def UPD_EVT_ACTIVATED : Fld := ⟨4, 1⟩
def UPD_EVT_REFUSED : Fld := ⟨3, 1⟩
def UPD_EVT_FAILED : Fld := ⟨2, 1⟩
def UPD_EVT_READY : Fld := ⟨1, 1⟩
def UPD_EVT_OPENED : Fld := ⟨0, 1⟩
def UPD_EVTEN_DOMCHG : Fld := ⟨7, 1⟩
def UPD_EVTEN_FALLBACK : Fld := ⟨6, 1⟩
def UPD_EVTEN_CONFIRMED : Fld := ⟨5, 1⟩
def UPD_EVTEN_ACTIVATED : Fld := ⟨4, 1⟩
def UPD_EVTEN_REFUSED : Fld := ⟨3, 1⟩
def UPD_EVTEN_FAILED : Fld := ⟨2, 1⟩
def UPD_EVTEN_READY : Fld := ⟨1, 1⟩
def UPD_EVTEN_OPENED : Fld := ⟨0, 1⟩
def UPD_OLEN_LEN : Fld := ⟨0, 32⟩
def UPD_ORANGE_HI : Fld := ⟨16, 16⟩
def UPD_ORANGE_LO : Fld := ⟨0, 16⟩
def UPD_ARG_ARG : Fld := ⟨0, 32⟩
def UPD_CMD_KEY : Fld := ⟨24, 8⟩
def UPD_CMD_DEFER : Fld := ⟨8, 1⟩
def UPD_CMD_OP : Fld := ⟨0, 4⟩
def UPD_DOK_COUNT : Fld := ⟨0, 17⟩
def UPD_DFAIL_DEV : Fld := ⟨16, 16⟩
def UPD_DFAIL_COUNT : Fld := ⟨0, 16⟩
def UPD_DLAG_DEV : Fld := ⟨0, 16⟩
def UPD_BUF_DATA : Fld := ⟨0, 32⟩
def CHN_POLCFG_PACE : Fld := ⟨24, 8⟩
def CHN_POLCFG_SHOLD_S : Fld := ⟨16, 8⟩
def CHN_POLCFG_DEADLINE_MS : Fld := ⟨0, 13⟩
def CHN_GRAD_STEP_MV : Fld := ⟨16, 16⟩
def CHN_GRAD_GAP : Fld := ⟨0, 4⟩
def CHN_SHEDSTAT_DISC : Fld := ⟨16, 16⟩
def CHN_SHEDSTAT_STARTS : Fld := ⟨0, 16⟩
def CHN_PACESTAT_LEFT : Fld := ⟨24, 8⟩
def CHN_PACESTAT_HELD : Fld := ⟨16, 8⟩
def CHN_PACESTAT_DEFER : Fld := ⟨0, 16⟩
def CHN_PPOL_PROF : Fld := ⟨28, 4⟩
def CHN_PPOL_EPR_EN : Fld := ⟨27, 1⟩
def CHN_PPOL_PPS_EN : Fld := ⟨26, 1⟩
def CHN_PPOL_SLOT : Fld := ⟨21, 5⟩
def CHN_PPOL_PH : Fld := ⟨19, 2⟩
def CHN_PPOL_SHDUE : Fld := ⟨1, 1⟩
def CHN_PPOL_SHHOLD : Fld := ⟨0, 1⟩
def CHN_PROF_KIND : Fld := ⟨30, 2⟩
def CHN_PROF_VMAX : Fld := ⟨20, 10⟩
def CHN_PROF_VMIN : Fld := ⟨10, 10⟩
def CHN_PROF_IMAX : Fld := ⟨0, 10⟩
def CTX_STATE_STATE : Fld := ⟨30, 2⟩
def CTX_STATE_REASON : Fld := ⟨28, 2⟩
def CTX_STATE_CAUSE : Fld := ⟨25, 3⟩
def CTX_STATE_GEN : Fld := ⟨16, 8⟩
def CTX_STATE_PORT : Fld := ⟨0, 7⟩
def CTX_TMRA_PEND : Fld := ⟨31, 1⟩
def CTX_TMRA_TOVR : Fld := ⟨30, 1⟩
def CTX_TMRA_COUNT : Fld := ⟨0, 16⟩
def CTX_TMRB_PEND : Fld := ⟨31, 1⟩
def CTX_TMRB_TOVR : Fld := ⟨30, 1⟩
def CTX_TMRB_COUNT : Fld := ⟨0, 16⟩
def CTX_DATA_DATA : Fld := ⟨0, 32⟩
def CTX_GLB_FREE : Fld := ⟨26, 6⟩
def CTX_GLB_WAITN : Fld := ⟨18, 8⟩
def CTX_GLB_CMDERR : Fld := ⟨0, 1⟩
def CTX_QSTAT_EVQN : Fld := ⟨16, 10⟩
def CTX_QSTAT_PANFREE : Fld := ⟨0, 9⟩
def CTX_CMD_OP : Fld := ⟨28, 4⟩
def CTX_CMD_ID : Fld := ⟨8, 6⟩
def CTX_CMD_GEN : Fld := ⟨0, 8⟩
def CTX_EVQ_ENTRY : Fld := ⟨0, 32⟩
def CTX_PANGET_VALID : Fld := ⟨31, 1⟩
def CTX_PANGET_PAN : Fld := ⟨0, 8⟩
def CTX_PANPUT_PAN : Fld := ⟨0, 8⟩
def CTX_TX_PAN : Fld := ⟨0, 8⟩
def CTX_WAIT_WAIT : Fld := ⟨0, 32⟩
def OPQ_ARG0_VTGT : Fld := ⟨16, 16⟩
def OPQ_ARG0_ICON : Fld := ⟨0, 16⟩
def OPQ_ARG1_W : Fld := ⟨16, 16⟩
def OPQ_ARG1_SLOT : Fld := ⟨10, 6⟩
def OPQ_ARG1_PH : Fld := ⟨8, 2⟩
def OPQ_ARG1_LAST : Fld := ⟨0, 1⟩
def OPQ_PUSH_KIND : Fld := ⟨28, 4⟩
def OPQ_PUSH_PORT : Fld := ⟨0, 7⟩
def OPQ_RESULT_CODE : Fld := ⟨28, 4⟩
def OPQ_RESULT_ENTRY : Fld := ⟨0, 6⟩
def OPQ_CQ_VALID : Fld := ⟨31, 1⟩
def OPQ_CQ_RESULT : Fld := ⟨28, 3⟩
def OPQ_CQ_KIND : Fld := ⟨24, 4⟩
def OPQ_CQ_PORT : Fld := ⟨17, 7⟩
def OPQ_CQ_ENTRY : Fld := ⟨0, 6⟩
def OPQ_STAT_CQN : Fld := ⟨16, 9⟩
def OPQ_STAT_INUSE : Fld := ⟨0, 7⟩
def OPQ_ABORT_PORT : Fld := ⟨0, 7⟩
def OPQ_ENTA_STATE : Fld := ⟨30, 2⟩
def OPQ_ENTA_KIND : Fld := ⟨26, 4⟩
def OPQ_ENTA_PORT : Fld := ⟨19, 7⟩
def OPQ_ENTA_SLOT : Fld := ⟨13, 6⟩
def OPQ_ENTA_PH : Fld := ⟨11, 2⟩
def OPQ_ENTA_LAST : Fld := ⟨10, 1⟩
def OPQ_ENTA_STEPTO : Fld := ⟨9, 1⟩
def OPQ_ENTB_VTGT : Fld := ⟨16, 16⟩
def OPQ_ENTB_ICON : Fld := ⟨0, 16⟩
def OPQ_ENTC_W : Fld := ⟨16, 16⟩
def OPQ_ENTC_FA : Fld := ⟨12, 4⟩
def OPQ_ENTC_FB : Fld := ⟨8, 4⟩
def CHN_HVCFG_SVID : Fld := ⟨16, 16⟩
def CHN_HVCFG_DTRY : Fld := ⟨8, 4⟩
def CHN_HVCMD_OP : Fld := ⟨28, 4⟩
def CHN_HVCMD_PORT : Fld := ⟨0, 7⟩
def CHN_HVST_MUX : Fld := ⟨30, 2⟩
def CHN_HVST_ENTERED : Fld := ⟨29, 1⟩
def CHN_HVST_TESTREQ : Fld := ⟨28, 1⟩
def CHN_HVST_EXITREQ : Fld := ⟨27, 1⟩
def CHN_HVST_HSTATE : Fld := ⟨23, 4⟩
def CHN_HVST_STALE : Fld := ⟨20, 1⟩
def CHN_HVST_PVMAX : Fld := ⟨10, 10⟩
def CHN_HVST_PIMAX : Fld := ⟨0, 10⟩
def CRS_CFG_WD_MS : Fld := ⟨16, 16⟩
def CRS_CFG_RTMAX : Fld := ⟨12, 4⟩
def CRS_STAT_STATE : Fld := ⟨29, 3⟩
def CRS_STAT_DUPLEX : Fld := ⟨28, 1⟩
def CRS_STAT_PARK : Fld := ⟨25, 3⟩
def CRS_STAT_RETUNING : Fld := ⟨24, 1⟩
def CRS_STAT_RCAUSE : Fld := ⟨20, 4⟩
def CRS_EVT_WDBAD : Fld := ⟨5, 1⟩
def CRS_EVT_WDOG : Fld := ⟨4, 1⟩
def CRS_EVT_RESTART : Fld := ⟨3, 1⟩
def CRS_EVT_PARK : Fld := ⟨2, 1⟩
def CRS_EVT_RETUNE : Fld := ⟨1, 1⟩
def CRS_EVT_DISAGREE : Fld := ⟨0, 1⟩
def CRS_EVTEN_WDBAD : Fld := ⟨5, 1⟩
def CRS_EVTEN_WDOG : Fld := ⟨4, 1⟩
def CRS_EVTEN_RESTART : Fld := ⟨3, 1⟩
def CRS_EVTEN_PARK : Fld := ⟨2, 1⟩
def CRS_EVTEN_RETUNE : Fld := ⟨1, 1⟩
def CRS_EVTEN_DISAGREE : Fld := ⟨0, 1⟩
def CRS_CNT_RT2 : Fld := ⟨24, 8⟩
def CRS_CNT_RT1 : Fld := ⟨16, 8⟩
def CRS_CNT_RT0 : Fld := ⟨8, 8⟩
def CRS_CNT_RST : Fld := ⟨0, 8⟩
def CRS_LASTDIS_STR : Fld := ⟨30, 2⟩
def CRS_LASTDIS_KIND : Fld := ⟨27, 3⟩
def CRS_LASTDIS_WORD : Fld := ⟨0, 5⟩
def CRS_LASTPC_PC : Fld := ⟨0, 32⟩
def CRS_WDKICK_KEY : Fld := ⟨0, 32⟩
def CRS_WDSTAT_LEFT : Fld := ⟨0, 16⟩
def CRS_CMD_UNPARK : Fld := ⟨1, 1⟩
def CRS_CMD_RESTART : Fld := ⟨0, 1⟩
def PRT_CFG_CLASS : Fld := ⟨12, 2⟩
def PRT_CFG_LEGB_EN : Fld := ⟨11, 1⟩
def PRT_CFG_FEED_B : Fld := ⟨8, 3⟩
def PRT_CFG_LEGA_EN : Fld := ⟨7, 1⟩
def PRT_CFG_FEED_A : Fld := ⟨4, 3⟩
def PRT_SENSE_RSNS : Fld := ⟨0, 16⟩
def PRT_FTRIP_I_FT : Fld := ⟨0, 16⟩
def PRT_CCCFG_DEB_MS : Fld := ⟨8, 8⟩
def PRT_CCCFG_VCONN_EN : Fld := ⟨3, 1⟩
def PRT_CCCFG_RP : Fld := ⟨0, 2⟩
def PRT_INRUSH_T_INR : Fld := ⟨24, 8⟩
def PRT_INRUSH_I_INR : Fld := ⟨0, 16⟩
def PRT_LIMIT_LIM_MULT : Fld := ⟨24, 8⟩
def PRT_LIMIT_T_FT : Fld := ⟨0, 17⟩
def PRT_RETRY_TRIP_MAX : Fld := ⟨16, 4⟩
def PRT_RETRY_RETRY_BASE : Fld := ⟨0, 16⟩
def PRT_PGWIN_PG_HI : Fld := ⟨8, 8⟩
def PRT_PGWIN_PG_LO : Fld := ⟨0, 8⟩
def PRT_TARGET_VTGT : Fld := ⟨16, 16⟩
def PRT_TARGET_ICON : Fld := ⟨0, 16⟩
def PRT_STATE_STATE : Fld := ⟨28, 4⟩
def PRT_STATE_RET_STATE : Fld := ⟨24, 4⟩
def PRT_STATE_TRIPCNT : Fld := ⟨20, 4⟩
def PRT_STATE_CAUSE : Fld := ⟨17, 3⟩
def PRT_STATE_ARMED : Fld := ⟨16, 1⟩
def PRT_STATE_PGOOD : Fld := ⟨15, 1⟩
def PRT_STATE_LIMACT : Fld := ⟨14, 1⟩
def PRT_STATE_GA_ON : Fld := ⟨13, 1⟩
def PRT_STATE_GB_ON : Fld := ⟨12, 1⟩
def PRT_STATE_VCONN_ON : Fld := ⟨11, 1⟩
def PRT_STATE_ORIENT : Fld := ⟨10, 1⟩
def PRT_STATE_RA_SEEN : Fld := ⟨9, 1⟩
def PRT_STATE_SINK : Fld := ⟨8, 1⟩
def PRT_STATE_ATT_REC : Fld := ⟨7, 1⟩
def PRT_STATE_DISCH : Fld := ⟨6, 1⟩
def PRT_STATE_STALE : Fld := ⟨5, 1⟩
def PRT_STATE_LAMP : Fld := ⟨3, 2⟩
def PRT_TIMERS_RETRY_LEFT : Fld := ⟨16, 16⟩
def PRT_TIMERS_FT_ACC : Fld := ⟨0, 16⟩
def PRT_EVT_CNT_CLR : Fld := ⟨14, 1⟩
def PRT_EVT_STEP_TO : Fld := ⟨13, 1⟩
def PRT_EVT_ATT_REC : Fld := ⟨12, 1⟩
def PRT_EVT_ACC_SEEN : Fld := ⟨11, 1⟩
def PRT_EVT_LIM_RISE : Fld := ⟨10, 1⟩
def PRT_EVT_PG_FALL : Fld := ⟨9, 1⟩
def PRT_EVT_PG_RISE : Fld := ⟨8, 1⟩
def PRT_EVT_VCONN_OC : Fld := ⟨7, 1⟩
def PRT_EVT_DISCH_FAIL : Fld := ⟨6, 1⟩
def PRT_EVT_LOCKOUT : Fld := ⟨5, 1⟩
def PRT_EVT_INRTO : Fld := ⟨4, 1⟩
def PRT_EVT_FTIMER : Fld := ⟨3, 1⟩
def PRT_EVT_FAST : Fld := ⟨2, 1⟩
def PRT_EVT_DETACH : Fld := ⟨1, 1⟩
def PRT_EVT_ATTACH : Fld := ⟨0, 1⟩
def PRT_EVTEN_CNT_CLR : Fld := ⟨14, 1⟩
def PRT_EVTEN_STEP_TO : Fld := ⟨13, 1⟩
def PRT_EVTEN_ATT_REC : Fld := ⟨12, 1⟩
def PRT_EVTEN_ACC_SEEN : Fld := ⟨11, 1⟩
def PRT_EVTEN_LIM_RISE : Fld := ⟨10, 1⟩
def PRT_EVTEN_PG_FALL : Fld := ⟨9, 1⟩
def PRT_EVTEN_PG_RISE : Fld := ⟨8, 1⟩
def PRT_EVTEN_VCONN_OC : Fld := ⟨7, 1⟩
def PRT_EVTEN_DISCH_FAIL : Fld := ⟨6, 1⟩
def PRT_EVTEN_LOCKOUT : Fld := ⟨5, 1⟩
def PRT_EVTEN_INRTO : Fld := ⟨4, 1⟩
def PRT_EVTEN_FTIMER : Fld := ⟨3, 1⟩
def PRT_EVTEN_FAST : Fld := ⟨2, 1⟩
def PRT_EVTEN_DETACH : Fld := ⟨1, 1⟩
def PRT_EVTEN_ATTACH : Fld := ⟨0, 1⟩
def PRT_CMD_ADMIN_EN : Fld := ⟨2, 1⟩
def PRT_CMD_ADMIN_DIS : Fld := ⟨1, 1⟩
def PRT_CMD_UNLOCK : Fld := ⟨0, 1⟩
def PRT_TRIPSNAP_VTRIP : Fld := ⟨16, 16⟩
def PRT_TRIPSNAP_ITRIP : Fld := ⟨0, 16⟩
def PRT_TRIPUS_USEC : Fld := ⟨0, 32⟩
def PRT_PDCFG_GROUP : Fld := ⟨8, 8⟩
def PRT_PDCFG_SOPP_EN : Fld := ⟨4, 1⟩
def PRT_PDCFG_PRIO : Fld := ⟨0, 3⟩
def PRT_PDSTAT_PIF : Fld := ⟨29, 3⟩
def PRT_PDSTAT_REV : Fld := ⟨27, 2⟩
def PRT_PDSTAT_WAIT : Fld := ⟨26, 1⟩
def PRT_PDSTAT_RXFULL : Fld := ⟨25, 1⟩
def PRT_PDSTAT_TXBUSY : Fld := ⟨24, 1⟩
def PRT_PDSTAT_SINKTX : Fld := ⟨23, 1⟩
def PRT_PDSTAT_CTXID : Fld := ⟨16, 6⟩
def PRT_PDSTAT_GEN : Fld := ⟨8, 8⟩
def PRT_PDSTAT_TXID_SOP : Fld := ⟨5, 3⟩
def PRT_PDSTAT_TXID_SOPP : Fld := ⟨2, 3⟩
def PRT_PDKA_KIND : Fld := ⟨30, 2⟩
def PRT_PDKA_KA_MS : Fld := ⟨0, 16⟩
def PRT_PDEVT_CHUNK_DROP : Fld := ⟨6, 1⟩
def PRT_PDEVT_KA_EXP : Fld := ⟨5, 1⟩
def PRT_PDEVT_HR_RX : Fld := ⟨4, 1⟩
def PRT_PDEVT_HR_TX : Fld := ⟨3, 1⟩
def PRT_PDEVT_RX_BUSY : Fld := ⟨2, 1⟩
def PRT_PDEVT_BIST : Fld := ⟨1, 1⟩
def PRT_PDEVT_SOFT_RX : Fld := ⟨0, 1⟩
def PRT_PDEVTEN_CHUNK_DROP : Fld := ⟨6, 1⟩
def PRT_PDEVTEN_KA_EXP : Fld := ⟨5, 1⟩
def PRT_PDEVTEN_HR_RX : Fld := ⟨4, 1⟩
def PRT_PDEVTEN_HR_TX : Fld := ⟨3, 1⟩
def PRT_PDEVTEN_RX_BUSY : Fld := ⟨2, 1⟩
def PRT_PDEVTEN_BIST : Fld := ⟨1, 1⟩
def PRT_PDEVTEN_SOFT_RX : Fld := ⟨0, 1⟩
def PRT_PDCMD_CANCEL : Fld := ⟨3, 1⟩
def PRT_PDCMD_ALLOC : Fld := ⟨2, 1⟩
def PRT_PDCMD_CABLE_RESET : Fld := ⟨1, 1⟩
def PRT_PDCMD_HARD_RESET : Fld := ⟨0, 1⟩
def PRT_PDCNT_TXFAIL : Fld := ⟨16, 16⟩
def PRT_PDCNT_RXDROP : Fld := ⟨0, 16⟩
def PRT_MVOLT_PWR : Fld := ⟨16, 16⟩
def PRT_MVOLT_VOUT : Fld := ⟨0, 16⟩
def PRT_MCURR_SAT : Fld := ⟨17, 1⟩
def PRT_MCURR_REVI : Fld := ⟨16, 1⟩
def PRT_MCURR_IOUT : Fld := ⟨0, 16⟩
def PRT_MTEMP_GAPS : Fld := ⟨24, 8⟩
def PRT_MTEMP_TEMP : Fld := ⟨0, 16⟩
def PRT_MUSEC_USEC : Fld := ⟨0, 32⟩
def PRT_ELO_E : Fld := ⟨0, 32⟩
def PRT_EHI_CYC : Fld := ⟨16, 16⟩
def PRT_EHI_E : Fld := ⟨0, 16⟩
def MBX_STAT_ERR : Fld := ⟨31, 1⟩
def MBX_STAT_TAKEN : Fld := ⟨8, 8⟩
def MBX_STAT_POSTED : Fld := ⟨0, 8⟩
def MBX_TAKE_VALID : Fld := ⟨31, 1⟩
def MBX_TAKE_IDX : Fld := ⟨8, 3⟩
def MBX_TAKE_LEN : Fld := ⟨0, 7⟩
def MBX_DONE_IDX : Fld := ⟨8, 3⟩
def MBX_DONE_LEN : Fld := ⟨0, 7⟩
def CHN_HPROF_TYPE : Fld := ⟨30, 2⟩
def CHN_HPROF_VMAX : Fld := ⟨20, 10⟩
def CHN_HPROF_VMIN : Fld := ⟨10, 10⟩
def CHN_HPROF_IMAX : Fld := ⟨0, 10⟩
def BOOT_FAIL_C0 : Fld := ⟨0, 8⟩
def BOOT_FAIL_C1 : Fld := ⟨8, 8⟩
def BOOT_FAIL_C2 : Fld := ⟨16, 8⟩
def BOOT_FAIL_C3 : Fld := ⟨24, 8⟩
def BOOT_FAILS_S0 : Fld := ⟨0, 8⟩
def BOOT_FAILS_S1 : Fld := ⟨8, 8⟩

end F

/-- The GLB_ registers of the map. -/
def rowsGLB : List RegRow := [
  ⟨0x0, [], 0xB5120100, 0x0, 0x0, 0x0, 0x0, .plain⟩ /- GLB_ID -/,
  ⟨0x4, [], 0x0, 0x0, 0x0, 0x0, 0x0, .plain⟩ /- GLB_VIDPID -/,
  ⟨0x8, [], 0x0, 0x0, 0x0, 0x0, 0x0, .plain⟩ /- GLB_SERIAL_LO -/,
  ⟨0xC, [], 0x0, 0x0, 0x0, 0x0, 0x0, .plain⟩ /- GLB_SERIAL_HI -/,
  ⟨0x10, [], 0x0, 0x0, 0x0, 0x0, 0x0, .plain⟩ /- GLB_LOT -/,
  ⟨0x14, [], 0x0, 0x0, 0x0, 0x0, 0x0, .plain⟩ /- GLB_DATE -/,
  ⟨0x18, [], 0x0, 0x0, 0x0, 0x0, 0x0, .plain⟩ /- GLB_ORDER -/,
  ⟨0x1C, [], 0x0, 0xFFFFFFFF, 0x0, 0x0, 0x0, .plain⟩ /- GLB_SCRATCH -/]

/-- The ANG_ registers of the map. -/
def rowsANG : List RegRow := [
  ⟨0x1000, [], 0x18000008, 0xFFFF000F, 0x0, 0x0, 0x0, .image⟩ /- ANG_CFG -/,
  ⟨0x1004, [], 0xFA00C350, 0xFFE1FFFF, 0x0, 0x0, 0x0, .image⟩ /- ANG_HOLDISL -/,
  ⟨0x1008, [], 0x0, 0xFFFF, 0x0, 0x0, 0x0, .image⟩ /- ANG_MZXOFS -/,
  ⟨0x100C, [], 0x0, 0x0, 0x0, 0x0, 0x0, .plain⟩ /- ANG_STATUS -/,
  ⟨0x1010, [], 0x0, 0x0, 0x1FF, 0x0, 0x0, .plain⟩ /- ANG_EVT -/,
  ⟨0x1014, [], 0x0, 0x1FF, 0x0, 0x0, 0x0, .plain⟩ /- ANG_EVTEN -/,
  ⟨0x1018, [], 0x0, 0x0, 0x0, 0x0, 0x0, .plain⟩ /- ANG_ANGLE -/,
  ⟨0x101C, [], 0x0, 0x0, 0x0, 0x0, 0x0, .plain⟩ /- ANG_CYC_LO -/,
  ⟨0x1020, [], 0x0, 0x0, 0x0, 0x0, 0x0, .plain⟩ /- ANG_CYC_HI -/,
  ⟨0x1024, [], 0xC350, 0x0, 0x0, 0x0, 0x0, .plain⟩ /- ANG_FREQ -/,
  ⟨0x1028, [], 0x1E8480, 0x0, 0x0, 0x0, 0x0, .plain⟩ /- ANG_PERIOD -/,
  ⟨0x102C, [], 0x0, 0x0, 0x0, 0x0, 0x0, .plain⟩ /- ANG_AMP -/,
  ⟨0x1030, [], 0xAAAB5555, 0x0, 0x0, 0x0, 0x0, .plain⟩ /- ANG_PHOFS -/,
  ⟨0x1034, [], 0x0, 0x0, 0x0, 0x0, 0x0, .plain⟩ /- ANG_XCHK -/,
  ⟨0x1038, [], 0x0, 0x0, 0x0, 0x0, 0x0, .plain⟩ /- ANG_USEC_LO -/,
  ⟨0x103C, [], 0x0, 0x0, 0x0, 0x0, 0x0, .plain⟩ /- ANG_USEC_HI -/,
  ⟨0x1040, [], 0x0, 0x0, 0x0, 0x0, 0x1, .plain⟩ /- ANG_SNAP_CTL -/,
  ⟨0x1044, [], 0x0, 0x0, 0x0, 0x0, 0x0, .plain⟩ /- ANG_SNAP_ANG -/,
  ⟨0x1048, [], 0x0, 0x0, 0x0, 0x0, 0x0, .plain⟩ /- ANG_SNAP_CYCL -/,
  ⟨0x104C, [], 0x0, 0x0, 0x0, 0x0, 0x0, .plain⟩ /- ANG_SNAP_CYCH -/,
  ⟨0x1050, [], 0x0, 0x0, 0x0, 0x0, 0x0, .plain⟩ /- ANG_SNAP_USECL -/,
  ⟨0x1054, [], 0x0, 0x0, 0x0, 0x0, 0x0, .plain⟩ /- ANG_SNAP_USECH -/,
  ⟨0x1080, [(8, 0x4)], 0x0, 0xFFFFFFFF, 0x0, 0x0, 0x0, .setting⟩ /- ANG_SBUD -/,
  ⟨0x10A0, [(8, 0x4)], 0x0, 0x0, 0x0, 0xFFFFFFFF, 0x0, .plain⟩ /- ANG_SBSTAT -/]

/-- The TMU_ registers of the map. -/
def rowsTMU : List RegRow := [
  ⟨0x2000, [(32, 0x40)], 0x0, 0xFFFC, 0x0, 0x0, 0x0, .plain⟩ /- TMU_CTL -/,
  ⟨0x2004, [(32, 0x40)], 0x0, 0xFFFF007F, 0x0, 0x0, 0x0, .plain⟩ /- TMU_SRC -/,
  ⟨0x2008, [(32, 0x40)], 0x0, 0xFFF00000, 0x0, 0x0, 0x0, .plain⟩ /- TMU_CAPSRC -/,
  ⟨0x200C, [(32, 0x40)], 0x0, 0x0, 0x0, 0x0, 0x0, .plain⟩ /- TMU_CNT -/,
  ⟨0x2010, [(32, 0x40)], 0x0, 0xFFFFFFFF, 0x0, 0x0, 0x0, .plain⟩ /- TMU_RLD -/,
  ⟨0x2014, [(32, 0x40)], 0x0, 0xFFFFFFFF, 0x0, 0x0, 0x0, .plain⟩ /- TMU_CMP -/,
  ⟨0x2018, [(32, 0x40)], 0x0, 0x0, 0x0, 0xFFFFFFFF, 0x0, .plain⟩ /- TMU_CAP -/,
  ⟨0x201C, [(32, 0x40)], 0x0, 0x0, 0x1F, 0x0, 0x0, .plain⟩ /- TMU_STAT -/,
  ⟨0x2020, [(32, 0x40)], 0x0, 0x1F1F, 0x0, 0x0, 0x0, .plain⟩ /- TMU_IEN -/,
  ⟨0x2024, [(32, 0x40)], 0x0, 0x0, 0x0, 0x0, 0x7, .plain⟩ /- TMU_CMD -/,
  ⟨0x2800, [], 0x0, 0xFFFFFFFF, 0x0, 0x0, 0x0, .plain⟩ /- TMU_TINFLT -/,
  ⟨0x2804, [], 0x0, 0x0, 0x0, 0x0, 0x0, .plain⟩ /- TMU_RUN -/,
  ⟨0x2808, [], 0x0, 0x0, 0x0, 0x0, 0xFFFFFFFF, .plain⟩ /- TMU_GSTART -/,
  ⟨0x280C, [], 0x0, 0x0, 0x0, 0x0, 0xFFFFFFFF, .plain⟩ /- TMU_GSTOP -/,
  ⟨0x2810, [], 0x0, 0x0, 0x0, 0x0, 0x0, .plain⟩ /- TMU_TINLVL -/]

/-- The FDR_ registers of the map. -/
def rowsFDR : List RegRow := [
  ⟨0x3000, [(8, 0x40)], 0x0, 0xFFC003FF, 0x0, 0x0, 0x0, .image⟩ /- FDR_CFG -/,
  ⟨0x3004, [(8, 0x40)], 0x0, 0xFFFFFFFF, 0x0, 0x0, 0x0, .image⟩ /- FDR_PCAP -/,
  ⟨0x3008, [(8, 0x40)], 0x0, 0xFFFFFFFF, 0x0, 0x0, 0x0, .image⟩ /- FDR_ILIM -/,
  ⟨0x300C, [(8, 0x40)], 0xFA320078, 0xFFFFF0FF, 0x0, 0x0, 0x0, .image⟩ /- FDR_DER -/,
  ⟨0x3010, [(8, 0x40)], 0x0, 0x3FFFFFFF, 0x0, 0x0, 0x0, .image⟩ /- FDR_VWIN -/,
  ⟨0x3014, [(8, 0x40)], 0x0, 0x1FFF, 0x0, 0x0, 0x0, .image⟩ /- FDR_BAT -/,
  ⟨0x3018, [(8, 0x40)], 0x0, 0x3FF, 0x0, 0x0, 0x0, .mgmt⟩ /- FDR_SOC -/,
  ⟨0x301C, [(8, 0x40)], 0x0, 0x0, 0x0, 0x0, 0x3, .mgmt⟩ /- FDR_CMD -/,
  ⟨0x3020, [(8, 0x40)], 0x3E8, 0x0, 0x0, 0x0, 0x0, .plain⟩ /- FDR_STAT -/,
  ⟨0x3024, [(8, 0x40)], 0x0, 0x0, 0x0, 0x0, 0x0, .plain⟩ /- FDR_VMEAS -/,
  ⟨0x3028, [(8, 0x40)], 0x0, 0x0, 0x0, 0x0, 0x0, .plain⟩ /- FDR_IMEAN -/,
  ⟨0x302C, [(8, 0x40)], 0x0, 0x0, 0x0, 0x0, 0x0, .plain⟩ /- FDR_USABLE -/,
  ⟨0x3030, [(8, 0x40)], 0x0, 0x0, 0x0, 0x0, 0x0, .plain⟩ /- FDR_COMMIT -/,
  ⟨0x3034, [(8, 0x40)], 0x0, 0x0, 0x3F, 0x0, 0x0, .plain⟩ /- FDR_EVT -/,
  ⟨0x3038, [(8, 0x40)], 0x0, 0x3F, 0x0, 0x0, 0x0, .setting⟩ /- FDR_EVTEN -/]

/-- The PLC_ registers of the map. -/
def rowsPLC : List RegRow := [
  ⟨0x3200, [], 0x83C320A, 0xFFFFFFFF, 0x0, 0x0, 0x0, .image⟩ /- PLC_CFG -/,
  ⟨0x3204, [], 0x140A, 0x7FFFF, 0x0, 0x0, 0x0, .image⟩ /- PLC_INFLT -/,
  ⟨0x3208, [], 0x0, 0x7, 0x0, 0x0, 0x0, .mgmt⟩ /- PLC_HOSTSHED -/,
  ⟨0x320C, [], 0x0, 0x0, 0x0, 0x0, 0x0, .plain⟩ /- PLC_INPUTS -/,
  ⟨0x3210, [], 0x0, 0x0, 0x0, 0x0, 0x0, .plain⟩ /- PLC_ROUND -/,
  ⟨0x3214, [], 0x0, 0x0, 0x0, 0x0, 0x0, .plain⟩ /- PLC_STAT -/,
  ⟨0x3218, [], 0x0, 0x0, 0x0, 0xFFFFFFFF, 0x0, .plain⟩ /- PLC_CNT -/,
  ⟨0x321C, [], 0x0, 0x0, 0x1F, 0x0, 0x0, .plain⟩ /- PLC_EVT -/,
  ⟨0x3220, [], 0x0, 0x1F, 0x0, 0x0, 0x0, .setting⟩ /- PLC_EVTEN -/,
  ⟨0x3224, [], 0x0, 0xFF, 0x0, 0x0, 0x0, .setting⟩ /- PLC_GSEL -/,
  ⟨0x3228, [], 0x0, 0x0, 0x0, 0x0, 0x0, .plain⟩ /- PLC_GUSED -/,
  ⟨0x322C, [], 0x40404040, 0xFFFFFFFF, 0x0, 0x0, 0x0, .image⟩ /- PLC_VCLIM0 -/,
  ⟨0x3230, [], 0x40404040, 0xFFFFFFFF, 0x0, 0x0, 0x0, .image⟩ /- PLC_VCLIM1 -/,
  ⟨0x3234, [], 0x0, 0x0, 0x0, 0x0, 0x0, .plain⟩ /- PLC_VCLOAD0 -/,
  ⟨0x3238, [], 0x0, 0x0, 0x0, 0x0, 0x0, .plain⟩ /- PLC_VCLOAD1 -/,
  ⟨0x3240, [(8, 0x4)], 0xC8000000, 0xFEE0FFFF, 0x0, 0x0, 0x0, .image⟩ /- PLC_SHEDLV -/,
  ⟨0x3400, [(256, 0x4)], 0x0, 0xFFFFFFE0, 0x0, 0x0, 0x0, .image⟩ /- PLC_GRP -/,
  ⟨0x3800, [(512, 0x4)], 0x0, 0x0, 0x0, 0x0, 0x0, .plain⟩ /- PLC_ENT -/]

/-- The ADC_ registers of the map. -/
def rowsADC : List RegRow := [
  ⟨0x4000, [(34, 0x20)], 0x0, 0xC0FFFFFF, 0x0, 0x0, 0x0, .setting⟩ /- ADC_ODCFG -/,
  ⟨0x4004, [(34, 0x20)], 0x0, 0xF01FFFFF, 0x0, 0x0, 0x0, .setting⟩ /- ADC_ODTRG -/,
  ⟨0x4008, [(34, 0x20)], 0x0, 0x0, 0x0, 0x80000000, 0x0, .plain⟩ /- ADC_DATA -/,
  ⟨0x400C, [(34, 0x20)], 0x0, 0x0, 0x1F, 0x0, 0x0, .plain⟩ /- ADC_STAT -/,
  ⟨0x4010, [(34, 0x20)], 0x80000000, 0xFFFFFFFF, 0x0, 0x0, 0x0, .setting⟩ /- ADC_CAL -/,
  ⟨0x4014, [(34, 0x20)], 0x0, 0x0, 0x0, 0x0, 0xF, .plain⟩ /- ADC_CMD -/,
  ⟨0x4600, [(8, 0x4)], 0x0, 0xFFFF, 0x0, 0x0, 0x0, .image⟩ /- ADC_FVSCL -/,
  ⟨0x4620, [(8, 0x4)], 0x0, 0xFFFFFF, 0x0, 0x0, 0x0, .image⟩ /- ADC_FISCL -/]

/-- The HRV_ registers of the map. -/
def rowsHRV : List RegRow := [
  ⟨0x4800, [], 0x0, 0x0, 0x0, 0x0, 0x0, .plain⟩ /- HRV_STAT -/,
  ⟨0x4804, [], 0x0, 0x0, 0x0, 0x0, 0x0, .plain⟩ /- HRV_CYC_LO -/,
  ⟨0x4808, [], 0x0, 0x0, 0x0, 0x0, 0x0, .plain⟩ /- HRV_CYC_HI -/,
  ⟨0x4820, [(8, 0x4)], 0x0, 0x0, 0x0, 0x0, 0x0, .plain⟩ /- HRV_FPWR -/,
  ⟨0x4840, [(8, 0x8)], 0x0, 0x0, 0x0, 0x0, 0x0, .plain⟩ /- HRV_FOUT_LO -/,
  ⟨0x4844, [(8, 0x8)], 0x0, 0x0, 0x0, 0x0, 0x0, .plain⟩ /- HRV_FOUT_HI -/,
  ⟨0x4880, [(8, 0x8)], 0x0, 0x0, 0x0, 0x0, 0x0, .plain⟩ /- HRV_FIN_LO -/,
  ⟨0x4884, [(8, 0x8)], 0x0, 0x0, 0x0, 0x0, 0x0, .plain⟩ /- HRV_FIN_HI -/]

/-- The FLT_ registers of the map. -/
def rowsFLT : List RegRow := [
  ⟨0x5000, [], 0x1000, 0x0, 0x6FFF, 0x0, 0x0, .plain⟩ /- FLT_SUM -/,
  ⟨0x5004, [], 0x1FD6, 0x7FFF, 0x0, 0x0, 0x0, .setting⟩ /- FLT_FEN -/,
  ⟨0x5008, [], 0x0, 0x7FFF, 0x0, 0x0, 0x0, .setting⟩ /- FLT_AEN -/,
  ⟨0x500C, [], 0x0, 0x0, 0x0, 0x0, 0x0, .plain⟩ /- FLT_CLKSTAT -/,
  ⟨0x5010, [], 0x0, 0x0, 0x0, 0xFFFFFFFF, 0x0, .plain⟩ /- FLT_ECCCNT -/,
  ⟨0x5014, [], 0x0, 0x0, 0x0, 0x0, 0x0, .plain⟩ /- FLT_ECCUE -/,
  ⟨0x5018, [], 0x0, 0x0, 0x0, 0x0, 0x0, .plain⟩ /- FLT_ECCUADDR -/,
  ⟨0x501C, [], 0x0, 0x0, 0x0, 0x0, 0x0, .plain⟩ /- FLT_SCRUB -/,
  ⟨0x5020, [], 0x0, 0xFFFF, 0x0, 0x0, 0x0, .image⟩ /- FLT_HOLDCFG -/,
  ⟨0x5024, [], 0x0, 0x0, 0x0, 0x0, 0x0, .plain⟩ /- FLT_LINKSTAT -/,
  ⟨0x5028, [], 0x0, 0x0, 0x0, 0x0, 0x0, .plain⟩ /- FLT_LOGSTAT -/,
  ⟨0x502C, [], 0x0, 0x7F, 0x0, 0x0, 0x0, .setting⟩ /- FLT_LOGSEL -/,
  ⟨0x5040, [(8, 0x4)], 0x0, 0x0, 0x0, 0xFFFFFFFF, 0x0, .plain⟩ /- FLT_LINKCNT -/,
  ⟨0x5060, [(8, 0x4)], 0x80000000, 0x0, 0x0, 0x0, 0x0, .plain⟩ /- FLT_STSTAT -/,
  ⟨0x5080, [(16, 0x4)], 0x0, 0x0, 0x0, 0x0, 0x0, .plain⟩ /- FLT_STFAIL -/,
  ⟨0x50C0, [(8, 0x4)], 0x0, 0x0, 0x0, 0x0, 0x0, .plain⟩ /- FLT_LOGDATA -/]

/-- The CRU_ registers of the map. -/
def rowsCRU : List RegRow := [
  ⟨0x6000, [], 0x7F, 0x0, 0x0, 0x0, 0x0, .plain⟩ /- CRU_STAT -/,
  ⟨0x6004, [], 0x0, 0x0, 0x0, 0x0, 0xFF0F, .mgmt⟩ /- CRU_CHRST -/,
  ⟨0x6008, [], 0x0, 0x0, 0xFFFFF, 0x0, 0x0, .plain⟩ /- CRU_XOVR -/,
  ⟨0x600C, [], 0x0, 0x0, 0xFFF, 0x0, 0x0, .plain⟩ /- CRU_PEER -/,
  ⟨0x6010, [], 0x0, 0x0, 0x80000000, 0x0, 0x0, .plain⟩ /- CRU_MAERR -/,
  ⟨0x6014, [], 0x0, 0x0, 0x0, 0x0, 0x0, .plain⟩ /- CRU_MAADDR -/,
  ⟨0x6018, [], 0x64, 0x8000FFFF, 0x0, 0x0, 0x0, .mgmt⟩ /- CRU_QCFG -/,
  ⟨0x601C, [], 0x0, 0x0, 0x0, 0xFFFF, 0x0, .plain⟩ /- CRU_QSTAT -/,
  ⟨0x6020, [(4, 0x4)], 0x1, 0x0, 0x1F, 0x0, 0x0, .plain⟩ /- CRU_RCAUSE -/]

/-- The BOOT_ registers of the map. -/
def rowsBOOT : List RegRow := [
  ⟨0x7000, [], 0x0, 0x0, 0x0, 0x0, 0x0, .plain⟩ /- BOOT_STAT -/,
  ⟨0x7004, [], 0x0, 0x0, 0x0, 0x0, 0x0, .plain⟩ /- BOOT_FAIL -/,
  ⟨0x7008, [], 0x0, 0x0, 0x0, 0x0, 0x0, .plain⟩ /- BOOT_FAILS -/,
  ⟨0x700C, [], 0x0, 0x0, 0x0, 0x0, 0x0, .plain⟩ /- BOOT_TREL -/,
  ⟨0x7010, [], 0x0, 0x0, 0x0, 0x0, 0x0, .plain⟩ /- BOOT_FWVER -/,
  ⟨0x7014, [], 0x0, 0x0, 0x0, 0x0, 0x0, .plain⟩ /- BOOT_IMGINFO -/,
  ⟨0x7018, [], 0x0, 0x0, 0x0, 0x0, 0x0, .plain⟩ /- BOOT_NVSIZE -/,
  ⟨0x701C, [], 0x0, 0x0, 0x0, 0x0, 0x0, .plain⟩ /- BOOT_LOCK -/,
  ⟨0x7020, [], 0x104, 0x10F, 0x0, 0x0, 0x0, .image⟩ /- BOOT_ADMCFG -/,
  ⟨0x7024, [], 0xA, 0xFF, 0x0, 0x0, 0x0, .setting⟩ /- BOOT_SETCFG -/,
  ⟨0x7028, [], 0x0, 0x0, 0x0, 0x0, 0x0, .plain⟩ /- BOOT_SETSTAT -/,
  ⟨0x702C, [], 0x111F0, 0xFFFFF, 0x0, 0x0, 0x0, .setting⟩ /- BOOT_REFCFG -/,
  ⟨0x7030, [], 0x0, 0x0, 0x0, 0x0, 0x0, .plain⟩ /- BOOT_REFSTAT -/,
  ⟨0x7034, [], 0x0, 0x0, 0x0, 0x0, 0x0, .plain⟩ /- BOOT_PWRHRS -/,
  ⟨0x7038, [], 0x0, 0x0, 0x0, 0x0, 0x0, .plain⟩ /- BOOT_LASTREF -/,
  ⟨0x703C, [], 0x0, 0x0, 0x0, 0x0, 0xFF000007, .mgmt⟩ /- BOOT_CMD -/]

/-- The OTP_ registers of the map. -/
def rowsOTP : List RegRow := [
  ⟨0x7400, [], 0x0, 0x0, 0x0, 0x0, 0x0, .plain⟩ /- OTP_STAT -/,
  ⟨0x7404, [], 0x0, 0x0, 0x0, 0x0, 0x0, .plain⟩ /- OTP_REGION -/,
  ⟨0x7408, [], 0x0, 0x0, 0x0, 0x0, 0x0, .plain⟩ /- OTP_CRIT -/,
  ⟨0x740C, [], 0x0, 0x7FFF, 0x0, 0x0, 0x0, .image⟩ /- OTP_PGMEN -/,
  ⟨0x7410, [], 0x0, 0xFF, 0x0, 0x0, 0x0, .mgmt⟩ /- OTP_PADDR -/,
  ⟨0x7414, [], 0x0, 0xFFFFFFFF, 0x0, 0x0, 0x0, .mgmt⟩ /- OTP_PDATA -/,
  ⟨0x7418, [], 0x0, 0x0, 0x0, 0x0, 0xFF000003, .mgmt⟩ /- OTP_PCMD -/,
  ⟨0x741C, [], 0x0, 0x0, 0x0, 0x0, 0x0, .plain⟩ /- OTP_PSTAT -/,
  ⟨0x7420, [], 0x3C, 0xFFFF, 0x0, 0x0, 0x0, .setting⟩ /- OTP_RRCFG -/,
  ⟨0x7424, [], 0x0, 0x0, 0x0, 0xFFFF0000, 0x0, .plain⟩ /- OTP_RRSTAT -/,
  ⟨0x7500, [(256, 0x4)], 0x0, 0x0, 0x0, 0x0, 0x0, .plain⟩ /- OTP_DATA -/]

/-- The TWM_ registers of the map. -/
def rowsTWM : List RegRow := [
  ⟨0x8000, [], 0x40100010, 0xC01F00F0, 0x0, 0x0, 0x0, .setting⟩ /- TWM_CFG -/,
  ⟨0x8004, [], 0x38, 0x0, 0x0, 0x0, 0x0, .plain⟩ /- TWM_STAT -/,
  ⟨0x8008, [], 0x0, 0x0, 0xFF, 0x0, 0x0, .plain⟩ /- TWM_EVT -/,
  ⟨0x800C, [], 0x0, 0xFF, 0x0, 0x0, 0x0, .plain⟩ /- TWM_EVTEN -/,
  ⟨0x8010, [], 0x0, 0x0, 0x0, 0xFFFFFFFF, 0x0, .plain⟩ /- TWM_CNT -/,
  ⟨0x8014, [], 0x0, 0x0, 0x0, 0x0, 0x0, .plain⟩ /- TWM_WADDR -/,
  ⟨0x8018, [], 0x0, 0x0, 0x0, 0x0, 0x0, .plain⟩ /- TWM_LRD -/,
  ⟨0x801C, [], 0x1F4, 0x3FFF, 0x0, 0x0, 0x0, .setting⟩ /- TWM_DOMCFG -/,
  ⟨0x8020, [], 0x0, 0x0, 0x0, 0x0, 0x0, .plain⟩ /- TWM_RQSTAT -/,
  ⟨0x8024, [], 0x0, 0x0, 0x0, 0x0, 0x0, .plain⟩ /- TWM_ASUM -/,
  ⟨0x8028, [], 0xFFFF, 0x0, 0x0, 0x0, 0x0, .plain⟩ /- TWM_ADEV -/,
  ⟨0x802C, [], 0x0, 0x1FF, 0x0, 0x0, 0x0, .plain⟩ /- TWM_PASEL -/,
  ⟨0x8030, [], 0x0, 0xF01, 0x0, 0x0, 0x0, .mgmt⟩ /- TWM_PADMIN -/,
  ⟨0x8040, [(16, 0x4)], 0x0, 0x0, 0x0, 0x0, 0x0, .plain⟩ /- TWM_APORT -/]

/-- The LNK_ registers of the map. -/
def rowsLNK : List RegRow := [
  ⟨0x9000, [], 0xF0003E8, 0x8F00FFFF, 0x0, 0x0, 0x0, .image⟩ /- LNK_CFG -/,
  ⟨0x9004, [], 0x0, 0x0, 0x0, 0x0, 0x0, .plain⟩ /- LNK_STAT -/,
  ⟨0x9008, [], 0x0, 0x0, 0x0, 0x0, 0x0, .plain⟩ /- LNK_DOM -/,
  ⟨0x900C, [], 0xFFFF, 0x0, 0x0, 0x0, 0x0, .plain⟩ /- LNK_DLOW -/,
  ⟨0x9010, [], 0x0, 0x0, 0x0, 0x0, 0x0, .plain⟩ /- LNK_GEN -/,
  ⟨0x9014, [], 0x0, 0x0, 0xFF, 0x0, 0x0, .plain⟩ /- LNK_EVT -/,
  ⟨0x9018, [], 0x0, 0xFF, 0x0, 0x0, 0x0, .plain⟩ /- LNK_EVTEN -/,
  ⟨0x901C, [], 0x0, 0x0, 0x0, 0x0, 0xFF0000F1, .mgmt⟩ /- LNK_CMD -/,
  ⟨0x9040, [(4, 0x20)], 0x0, 0x0, 0x0, 0x0, 0x0, .plain⟩ /- LNK_LSTAT -/,
  ⟨0x9044, [(4, 0x20)], 0x0, 0x0, 0x0, 0x0, 0x0, .plain⟩ /- LNK_RANGE -/,
  ⟨0x9048, [(4, 0x20)], 0x0, 0x0, 0x0, 0x0, 0x0, .plain⟩ /- LNK_PFW -/,
  ⟨0x904C, [(4, 0x20)], 0x0, 0x0, 0x0, 0xFFFFFFFF, 0x0, .plain⟩ /- LNK_CNT0 -/,
  ⟨0x9050, [(4, 0x20)], 0x0, 0x0, 0x0, 0xFFFFFFFF, 0x0, .plain⟩ /- LNK_CNT1 -/,
  ⟨0x9054, [(4, 0x20)], 0x0, 0x0, 0x0, 0xFFFFFFFF, 0x0, .plain⟩ /- LNK_CNT2 -/]

/-- The UPD_ registers of the map. -/
def rowsUPD : List RegRow := [
  ⟨0xA000, [], 0x1432001, 0xFFFFF801, 0x0, 0x0, 0x0, .setting⟩ /- UPD_CFG -/,
  ⟨0xA004, [], 0x0, 0x1, 0x0, 0x0, 0xFF000000, .mgmt⟩ /- UPD_OWNER -/,
  ⟨0xA008, [], 0x0, 0x0, 0x0, 0x0, 0x0, .plain⟩ /- UPD_STAT -/,
  ⟨0xA00C, [], 0x0, 0x0, 0x0, 0x0, 0x0, .plain⟩ /- UPD_SESS -/,
  ⟨0xA010, [], 0xFFF0000, 0x0, 0x0, 0x0, 0x0, .plain⟩ /- UPD_PROG -/,
  ⟨0xA014, [], 0x0, 0x0, 0x0, 0x0, 0x0, .plain⟩ /- UPD_VER -/,
  ⟨0xA018, [], 0x0, 0x0, 0x0, 0x0, 0x0, .plain⟩ /- UPD_TLEFT -/,
  ⟨0xA01C, [], 0x0, 0x0, 0x0, 0xFFFFFFFF, 0x0, .plain⟩ /- UPD_CNT -/,
  ⟨0xA020, [], 0x0, 0x0, 0xFF, 0x0, 0x0, .plain⟩ /- UPD_EVT -/,
  ⟨0xA024, [], 0x0, 0xFF, 0x0, 0x0, 0x0, .plain⟩ /- UPD_EVTEN -/,
  ⟨0xA028, [], 0x0, 0xFFFFFFFF, 0x0, 0x0, 0x0, .plain⟩ /- UPD_OLEN -/,
  ⟨0xA02C, [], 0xFFFF0000, 0xFFFFFFFF, 0x0, 0x0, 0x0, .plain⟩ /- UPD_ORANGE -/,
  ⟨0xA030, [], 0x0, 0xFFFFFFFF, 0x0, 0x0, 0x0, .plain⟩ /- UPD_ARG -/,
  ⟨0xA034, [], 0x0, 0x0, 0x0, 0x0, 0xFF00010F, .mgmt⟩ /- UPD_CMD -/,
  ⟨0xA040, [], 0x0, 0x0, 0x0, 0x0, 0x0, .plain⟩ /- UPD_DOK -/,
  ⟨0xA044, [], 0xFFFF0000, 0x0, 0x0, 0x0, 0x0, .plain⟩ /- UPD_DFAIL -/,
  ⟨0xA048, [], 0xFFFF, 0x0, 0x0, 0x0, 0x0, .plain⟩ /- UPD_DLAG -/,
  ⟨0xB000, [(1024, 0x4)], 0x0, 0xFFFFFFFF, 0x0, 0x0, 0x0, .plain⟩ /- UPD_BUF -/]

/-- The CHN_ registers of the map. -/
def rowsCHN : List RegRow := [
  ⟨0x10100, [(4, 0x4000)], 0x80A00C8, 0xFFFF1FFF, 0x0, 0x0, 0x0, .setting⟩ /- CHN_POLCFG -/,
  ⟨0x10104, [(4, 0x4000)], 0x7D00001, 0xFFFF000F, 0x0, 0x0, 0x0, .setting⟩ /- CHN_GRAD -/,
  ⟨0x10108, [(4, 0x4000)], 0x0, 0x0, 0x0, 0xFFFFFFFF, 0x0, .plain⟩ /- CHN_SHEDSTAT -/,
  ⟨0x1010C, [(4, 0x4000)], 0x8000000, 0x0, 0x0, 0xFFFF, 0x0, .plain⟩ /- CHN_PACESTAT -/,
  ⟨0x10200, [(4, 0x4000), (128, 0x4)], 0x0, 0xFFF80000, 0x0, 0x0, 0x0, .image⟩ /- CHN_PPOL -/,
  ⟨0x10400, [(4, 0x4000), (16, 0x40), (11, 0x4)], 0xC0000000, 0xFFFFFFFF, 0x0, 0x0, 0x0, .image⟩ /- CHN_PROF -/,
  ⟨0x11800, [(4, 0x4000)], 0x300, 0xFFFF0F00, 0x0, 0x0, 0x0, .image⟩ /- CHN_HVCFG -/,
  ⟨0x11804, [(4, 0x4000)], 0x0, 0x0, 0x0, 0x0, 0xF000007F, .plain⟩ /- CHN_HVCMD -/,
  ⟨0x11900, [(4, 0x4000), (16, 0x10), (4, 0x4)], 0xC0000000, 0xFFFFFFFF, 0x0, 0x0, 0x0, .image⟩ /- CHN_HPROF -/,
  ⟨0x11A00, [(4, 0x4000), (128, 0x4)], 0x0, 0xE78FFFFF, 0x18000000, 0x0, 0x0, .course⟩ /- CHN_HVST -/]

/-- The CTX_ registers of the map. -/
def rowsCTX : List RegRow := [
  ⟨0x10810, [(4, 0x4000), (63, 0x10)], 0x0, 0x0, 0x0, 0x0, 0x0, .plain⟩ /- CTX_STATE -/,
  ⟨0x10814, [(4, 0x4000), (63, 0x10)], 0x0, 0xFFFF, 0x40000000, 0x0, 0x0, .course⟩ /- CTX_TMRA -/,
  ⟨0x10818, [(4, 0x4000), (63, 0x10)], 0x0, 0xFFFF, 0x40000000, 0x0, 0x0, .course⟩ /- CTX_TMRB -/,
  ⟨0x1081C, [(4, 0x4000), (63, 0x10)], 0x0, 0xFFFFFFFF, 0x0, 0x0, 0x0, .course⟩ /- CTX_DATA -/,
  ⟨0x10C00, [(4, 0x4000)], 0xFC000000, 0x0, 0x1, 0x0, 0x0, .plain⟩ /- CTX_GLB -/,
  ⟨0x10C04, [(4, 0x4000)], 0x100, 0x0, 0x0, 0x0, 0x0, .plain⟩ /- CTX_QSTAT -/,
  ⟨0x10C08, [(4, 0x4000)], 0x0, 0x0, 0x0, 0x0, 0xF0003FFF, .course⟩ /- CTX_CMD -/,
  ⟨0x10C0C, [(4, 0x4000)], 0x0, 0x0, 0x0, 0xFFFFFFFF, 0x0, .noHostRead⟩ /- CTX_EVQ -/,
  ⟨0x10C10, [(4, 0x4000)], 0x0, 0x0, 0x0, 0x800000FF, 0x0, .noHostRead⟩ /- CTX_PANGET -/,
  ⟨0x10C14, [(4, 0x4000)], 0x0, 0x0, 0x0, 0x0, 0xFF, .course⟩ /- CTX_PANPUT -/,
  ⟨0x10C18, [(4, 0x4000)], 0x0, 0x0, 0x0, 0x0, 0xFF, .course⟩ /- CTX_TX -/,
  ⟨0x10C20, [(4, 0x4000), (4, 0x4)], 0x0, 0x0, 0x0, 0x0, 0x0, .plain⟩ /- CTX_WAIT -/]

/-- The OPQ_ registers of the map. -/
def rowsOPQ : List RegRow := [
  ⟨0x11000, [(4, 0x4000)], 0x0, 0xFFFFFFFF, 0x0, 0x0, 0x0, .course⟩ /- OPQ_ARG0 -/,
  ⟨0x11004, [(4, 0x4000)], 0x0, 0xFFFFFF01, 0x0, 0x0, 0x0, .course⟩ /- OPQ_ARG1 -/,
  ⟨0x11008, [(4, 0x4000)], 0x0, 0x0, 0x0, 0x0, 0xF000007F, .course⟩ /- OPQ_PUSH -/,
  ⟨0x1100C, [(4, 0x4000)], 0x0, 0x0, 0x0, 0x0, 0x0, .plain⟩ /- OPQ_RESULT -/,
  ⟨0x11010, [(4, 0x4000)], 0x0, 0x0, 0x0, 0xFFFE003F, 0x0, .noHostRead⟩ /- OPQ_CQ -/,
  ⟨0x11014, [(4, 0x4000)], 0x0, 0x0, 0x0, 0x0, 0x0, .plain⟩ /- OPQ_STAT -/,
  ⟨0x11018, [(4, 0x4000)], 0x0, 0x0, 0x0, 0x0, 0x7F, .course⟩ /- OPQ_ABORT -/,
  ⟨0x11100, [(4, 0x4000), (64, 0x10)], 0x0, 0x0, 0x0, 0x0, 0x0, .plain⟩ /- OPQ_ENTA -/,
  ⟨0x11104, [(4, 0x4000), (64, 0x10)], 0x0, 0x0, 0x0, 0x0, 0x0, .plain⟩ /- OPQ_ENTB -/,
  ⟨0x11108, [(4, 0x4000), (64, 0x10)], 0x0, 0x0, 0x0, 0x0, 0x0, .plain⟩ /- OPQ_ENTC -/]

/-- The CRS_ registers of the map. -/
def rowsCRS : List RegRow := [
  ⟨0x12000, [(4, 0x4000)], 0x324000, 0xFFFFF000, 0x0, 0x0, 0x0, .image⟩ /- CRS_CFG -/,
  ⟨0x12004, [(4, 0x4000)], 0x0, 0x0, 0x0, 0x0, 0x0, .plain⟩ /- CRS_STAT -/,
  ⟨0x12008, [(4, 0x4000)], 0x0, 0x0, 0x3F, 0x0, 0x0, .plain⟩ /- CRS_EVT -/,
  ⟨0x1200C, [(4, 0x4000)], 0x0, 0x3F, 0x0, 0x0, 0x0, .plain⟩ /- CRS_EVTEN -/,
  ⟨0x12010, [(4, 0x4000)], 0x0, 0x0, 0x0, 0xFFFFFFFF, 0x0, .plain⟩ /- CRS_CNT -/,
  ⟨0x12014, [(4, 0x4000)], 0x0, 0x0, 0x0, 0x0, 0x0, .plain⟩ /- CRS_LASTDIS -/,
  ⟨0x12018, [(4, 0x4000)], 0x0, 0x0, 0x0, 0x0, 0x0, .plain⟩ /- CRS_LASTPC -/,
  ⟨0x1201C, [(4, 0x4000)], 0x0, 0x0, 0x0, 0x0, 0xFFFFFFFF, .course⟩ /- CRS_WDKICK -/,
  ⟨0x12020, [(4, 0x4000)], 0x0, 0x0, 0x0, 0x0, 0x0, .plain⟩ /- CRS_WDSTAT -/,
  ⟨0x12024, [(4, 0x4000)], 0x0, 0x0, 0x0, 0x0, 0x3, .mgmt⟩ /- CRS_CMD -/]

/-- The PRT_ registers of the map. -/
def rowsPRT : List RegRow := [
  ⟨0x100000, [(512, 0x100)], 0x0, 0x3FF0, 0x0, 0x0, 0x0, .image⟩ /- PRT_CFG -/,
  ⟨0x100004, [(512, 0x100)], 0x7D0, 0xFFFF, 0x0, 0x0, 0x0, .image⟩ /- PRT_SENSE -/,
  ⟨0x100008, [(512, 0x100)], 0x1F40, 0xFFFF, 0x0, 0x0, 0x0, .image⟩ /- PRT_FTRIP -/,
  ⟨0x10000C, [(512, 0x100)], 0x9602, 0xFF0B, 0x0, 0x0, 0x0, .setting⟩ /- PRT_CCCFG -/,
  ⟨0x100010, [(512, 0x100)], 0x140005DC, 0xFF00FFFF, 0x0, 0x0, 0x0, .setting⟩ /- PRT_INRUSH -/,
  ⟨0x100014, [(512, 0x100)], 0x7D002710, 0xFF01FFFF, 0x0, 0x0, 0x0, .setting⟩ /- PRT_LIMIT -/,
  ⟨0x100018, [(512, 0x100)], 0x403E8, 0xFFFFF, 0x0, 0x0, 0x0, .setting⟩ /- PRT_RETRY -/,
  ⟨0x10001C, [(512, 0x100)], 0x3232, 0xFFFF, 0x0, 0x0, 0x0, .setting⟩ /- PRT_PGWIN -/,
  ⟨0x100020, [(512, 0x100)], 0x0, 0x0, 0x0, 0x0, 0x0, .plain⟩ /- PRT_TARGET -/,
  ⟨0x100024, [(512, 0x100)], 0x0, 0x0, 0x0, 0x0, 0x0, .plain⟩ /- PRT_STATE -/,
  ⟨0x100028, [(512, 0x100)], 0x0, 0x0, 0x0, 0x0, 0x0, .plain⟩ /- PRT_TIMERS -/,
  ⟨0x10002C, [(512, 0x100)], 0x0, 0x0, 0x7FFF, 0x0, 0x0, .plain⟩ /- PRT_EVT -/,
  ⟨0x100030, [(512, 0x100)], 0x0, 0x7FFF, 0x0, 0x0, 0x0, .plain⟩ /- PRT_EVTEN -/,
  ⟨0x100034, [(512, 0x100)], 0x0, 0x0, 0x0, 0x0, 0x7, .plain⟩ /- PRT_CMD -/,
  ⟨0x100038, [(512, 0x100)], 0x0, 0x0, 0x0, 0x0, 0x0, .plain⟩ /- PRT_TRIPSNAP -/,
  ⟨0x10003C, [(512, 0x100)], 0x0, 0x0, 0x0, 0x0, 0x0, .plain⟩ /- PRT_TRIPUS -/,
  ⟨0x100040, [(512, 0x100)], 0x0, 0xFF17, 0x0, 0x0, 0x0, .image⟩ /- PRT_PDCFG -/,
  ⟨0x100044, [(512, 0x100)], 0x0, 0x0, 0x0, 0x0, 0x0, .plain⟩ /- PRT_PDSTAT -/,
  ⟨0x100048, [(512, 0x100)], 0x0, 0xC000FFFF, 0x0, 0x0, 0x0, .course⟩ /- PRT_PDKA -/,
  ⟨0x10004C, [(512, 0x100)], 0x0, 0x0, 0x7F, 0x0, 0x0, .plain⟩ /- PRT_PDEVT -/,
  ⟨0x100050, [(512, 0x100)], 0x0, 0x7F, 0x0, 0x0, 0x0, .plain⟩ /- PRT_PDEVTEN -/,
  ⟨0x100054, [(512, 0x100)], 0x0, 0x0, 0x0, 0x0, 0xF, .course⟩ /- PRT_PDCMD -/,
  ⟨0x100058, [(512, 0x100)], 0x0, 0x0, 0x0, 0xFFFFFFFF, 0x0, .plain⟩ /- PRT_PDCNT -/,
  ⟨0x100060, [(512, 0x100)], 0x0, 0x0, 0x0, 0x0, 0x0, .plain⟩ /- PRT_MVOLT -/,
  ⟨0x100064, [(512, 0x100)], 0x0, 0x0, 0x0, 0x0, 0x0, .plain⟩ /- PRT_MCURR -/,
  ⟨0x100068, [(512, 0x100)], 0x0, 0x0, 0x0, 0x0, 0x0, .plain⟩ /- PRT_MTEMP -/,
  ⟨0x10006C, [(512, 0x100)], 0x0, 0x0, 0x0, 0x0, 0x0, .plain⟩ /- PRT_MUSEC -/,
  ⟨0x100070, [(512, 0x100)], 0x0, 0x0, 0x0, 0x0, 0x0, .plain⟩ /- PRT_ELO -/,
  ⟨0x100074, [(512, 0x100)], 0x0, 0x0, 0x0, 0x0, 0x0, .plain⟩ /- PRT_EHI -/]

/-- The block of Table 19-1 an address lies in, with its rows; `none` in an unimplemented range (R463). -/
def blockRows (a : Nat) : Option (List RegRow) :=
  if a < 0x1000 then some rowsGLB
  else if a < 0x2000 then some rowsANG
  else if a < 0x3000 then some rowsTMU
  else if a < 0x4000 then some (rowsFDR ++ rowsPLC)
  else if a < 0x5000 then some (rowsADC ++ rowsHRV)
  else if a < 0x6000 then some rowsFLT
  else if a < 0x7000 then some rowsCRU
  else if a < 0x7400 then some rowsBOOT
  else if a < 0x8000 then some rowsOTP
  else if a < 0x9000 then some rowsTWM
  else if a < 0xA000 then some rowsLNK
  else if a < 0x10000 then some rowsUPD
  else if a < 0x20000 then some (rowsCHN ++ rowsCTX ++ rowsOPQ ++ rowsCRS)
  else if a < 0x100000 then none
  else if a < 0x120000 then some rowsPRT
  else none

/-- Whether an offset from a row's base is one of its instances. -/
def dimsMatch : List (Nat × Nat) → Nat → Bool
  | [], off => off == 0
  | (n, st) :: ds, off => off / st < n && dimsMatch ds (off % st)

def RegRow.covers (r : RegRow) (a : Nat) : Bool := r.base ≤ a && dimsMatch r.dims (a - r.base)

/-- The register at a host address, if the map has one there. -/
def findReg (a : Nat) : Option RegRow :=
  match blockRows a with
  | some rs => rs.find? (·.covers a)
  | none => none

/-- An address inside a block of Table 19-1 (R462), as against an unimplemented range (R463). -/
def implemented (a : Nat) : Bool := (blockRows a).isSome

/-- The reset value of the register at an address; 0 where the map has none. -/
def regReset (a : Nat) : Word :=
  match findReg a with
  | some r => BitVec.ofNat 32 r.reset
  | none => 0

/-- A register loaded from the cabinet image (Table 19-2). -/
def imageReg (a : Nat) : Bool := match findReg a with | some r => r.cls == .image | none => false

/-- A setting: a register its chapter calls one (R374). -/
def settingReg (a : Nat) : Bool := match findReg a with | some r => r.cls == .setting | none => false

end Sys2Proof.Machine
end

