-- ==== Sys2Proof/Machine/Tab.lean ====
section
/-! DEFINITION. Reading and writing sparse tables. Every register, memory byte, port, context and engine is held in
one; the default of a key is an argument, so the canonical form (keys strictly rising, no entry at its default) is kept
by every write. -/
namespace Sys2Proof.Machine

variable {α : Type}

/-- The value at key `k`; the default `d` where the table lists none. -/
def tabGet (d : α) (t : Tab α) (k : Nat) : α :=
  match t.lookup k with
  | some v => v
  | none => d

/-- Insertion of a key that is not listed, in key order. -/
def tabInsert (k : Nat) (v : α) : Tab α → Tab α
  | [] => [(k, v)]
  | e :: t => if k < e.1 then (k, v) :: e :: t else e :: tabInsert k v t

/-- The table without its entry at `k`. -/
def tabErase (t : Tab α) (k : Nat) : Tab α := t.filter fun e => e.1 != k

/-- Write `v` at key `k`; writing the default removes the entry. -/
def tabSet [DecidableEq α] (d : α) (t : Tab α) (k : Nat) (v : α) : Tab α :=
  if v = d then tabErase t k else tabInsert k v (tabErase t k)

/-- The table with every key that `p` names back at its default. -/
def tabDrop (p : Nat → Bool) (t : Tab α) : Tab α := t.filter fun e => !p e.1

/-- The canonical form. -/
abbrev tabWf [DecidableEq α] (d : Nat → α) (t : Tab α) : Prop :=
  (t.map (·.1)).Pairwise (· < ·) ∧ ∀ e ∈ t, e.2 ≠ d e.1

end Sys2Proof.Machine
end

