-- ==== Sys2Proof/Machine/State.lean ====
section
/-! DEFINITION. The state of the block. Registers that software reads and writes stand in one register file under their
host addresses; what the manual gives the machine beside them stands in named structures. Plain data throughout. -/
namespace Sys2Proof.Machine

/-! ### The event log (R27, R28, R328) -/

/-- The three planes (Table 12-6, `PLANE`). -/
inductive Plane where
  | control | data | management
deriving DecidableEq, Repr

/-- A log record (Table 12-6) without `CHK`, which is computed from the other halfwords when the record is presented. -/
structure LogRec where
  plane : Plane
  cls : Nat
  lost : Nat
  src : Nat
  seq : BitVec 32
  usec : BitVec 64
  cyc : BitVec 48
  angle : BitVec 16
  data0 : Word
  data1 : BitVec 16
deriving DecidableEq, Repr

/-- The staging buffer, the sequence counter, the lost-record counts of the three planes (R28) the records that the
posting ports hold while the management plane is quiet (R351), and the log rings of NVM_A and NVM_B, oldest first (R329). -/
structure Log where
  staged : List LogRec
  seq : BitVec 32
  lostC : Nat
  lostD : Nat
  lostM : Nat
  held : List LogRec
  ringA : List LogRec
  ringB : List LogRec
deriving DecidableEq, Repr

/-! ### Timebase (chapter 02) -/

/-- Table 02-3 and Table 02-10, `STATE`. -/
inductive AngState where
  | acquire | locked | holdover | island | ret
deriving DecidableEq, Repr

/-- What the timebase holds beside its registers: the output angle, CYC, USEC (R61, R71), the start of the hold time
and of the island ramp (R56, R57), edge blanking (R48), the cross-check (R74), the step-budget ledger (R66, R69), and the start of the
last round with the timing it followed (R60). `nextTick` and `nextSlot` are the scheduler tick and the slot start that come next in
this cycle (R61). `band` counts the last wraps of the measured angle, up to two, with a phase error inside ±256 au (R50). `dipping`
says that the last wrap stood in a dip (R51), `loopFreq` is the measured frequency of the last wrap outside one, `lead` the output's
lead over the measured angle at the last wrap of RETURN, `slew` the correction of the cycle and `idleAu` the part of the cycle, in
au, that has had none (R51, R58). `lastAu` is the position at which the last round began. -/
structure Timebase where
  st : AngState
  angle : BitVec 16
  cyc : BitVec 48
  usec : BitVec 64
  holdStart : BitVec 64
  rampFrom : Nat
  rampStart : BitVec 64
  mzxBlankEnd : Nat
  maBlankEnd : Nat
  xSeen : Bool
  xWraps : Nat
  xMiss : Nat
  ibudLeft : Tab Nat
  opsLeft : Tab Nat
  fresh : Tab Bool
  ibud : Tab Nat
  tick : Nat
  lastRound : Option (BitVec 64)
  lastIsl : Bool
  lastAu : Option Nat
  nextTick : Nat
  nextSlot : Nat
  band : Nat
  dipping : Bool
  loopFreq : Nat
  lead : Int
  slew : Int
  idleAu : Nat
deriving DecidableEq, Repr

/-! ### Timer counters (chapter 03) -/

/-- What a counter holds beside its registers: its captures, oldest first (R96-R98), the latched high halves of a
chained pair (R94), the pending high halves (R95) and the actions that land in the next TCLK cycle (R90, R91). `tick` and `cap` say
that its clock or its capture source presents a tick or an event that it has not taken; `usecAt` and `posAt` are the value of USEC
and the output position up to which it has had its USEC ticks and its angle ticks (Tables 03-1, 03-5). -/
structure Timer where
  caps : List (BitVec 64)
  cntHi : Word
  capHi : Word
  rldPend : Option Word
  cmpPend : Option Word
  actReset : Bool
  actStart : Bool
  tick : Bool
  cap : Bool
  usecAt : BitVec 64
  posAt : Nat
deriving DecidableEq, Repr

def Timer.init : Timer := ⟨[], 0, 0, none, none, false, false, false, false, 0, 0⟩

/-! ### Port front end on the port die (chapter 04) -/

/-- Table 04-11, `STATE`. -/
inductive PState where
  | off | idle | debounce | inrush | safe5v | contract | transition | limit | tripped | retryWait | lockout
deriving DecidableEq, Repr

/-- Table 04-11, `CAUSE`. -/
inductive TripCause where
  | none | fast | ftimer | inrushTo | dischFail
deriving DecidableEq, Repr

/-- A leg assignment (`PLC_ENT_p.LEG`, R104). -/
inductive Leg where
  | none | a | b | ab
deriving DecidableEq, Repr

/-- Table 06-13, `RESULT`. -/
inductive OpResult where
  | done | stepTo | aborted | cancelled | superseded | shedDisc
deriving DecidableEq, Repr

/-- A step in progress (R126): its queue entry, whether it is marked last, the target before it, and the time at which it
executed. -/
structure StepRun where
  entry : Nat
  last : Bool
  oldV : Nat
  timedOut : Bool
  start : Nat
deriving DecidableEq, Repr

/-- A transfer in progress (R239): its queue entry and the leg it ends on. -/
structure XferRun where
  entry : Nat
  leg : Leg
deriving DecidableEq, Repr

/-- A port's front end. `pgood` and `limact` are the signals of the same names; `bleed` is the sideline code 0b01;
`dischOff` marks a discharge that runs for `ADMIN_DIS`; `leg` is the leg that the last operation named (R104);
`ri` is the interval of the last trip; `attWait` holds `ORIENT` and `RA_SEEN` of an attach that waits for its discharge
(R110); `snap` is the last trip snapshot; `evt` and `opRes` hold the events and operation results the hub has not yet received;
`onEntry` is the TURN_ON in progress, `vcEntry` the VCONN_ON in its soft start, `downEntry` the operation that a power-down
completes, `disc` a disconnect that has reached the port die; `failed` marks a port that the self-test holds down (R326);
`failV` is `VS` at the last failed discharge. `cc` says that the sink condition stands before any debounce. The times of Table 04-5
stand on the device's clock: `ccAt` of the last change of `cc`, `stAt` at which the present state or the powering phase began,
`limStart` and `limFall` of the last rise and fall of limit-active, `winAt` from which `VS` has been inside its window as far as
the block knows, `dischAt` at which the bleed of a discharge went on, `vcAt` at which the VCONN switch closed, `retryStart` of the
last trip. -/
structure Port where
  state : PState
  ret : PState
  tripCnt : Nat
  cause : TripCause
  armed : Bool
  pgood : Bool
  limact : Bool
  ga : Bool
  gb : Bool
  vconn : Bool
  orient : Bool
  raSeen : Bool
  sink : Bool
  attRec : Bool
  disch : Bool
  bleed : Bool
  dischOff : Bool
  term : Bool
  vtgt : Nat
  icon : Nat
  ftAcc : Nat
  leg : Leg
  retryRun : Bool
  ri : Nat
  retryStart : Nat
  attWait : Option (Bool × Bool)
  cc : Bool
  ccAt : Nat
  stAt : Nat
  limStart : Nat
  limFall : Nat
  winAt : Nat
  dischAt : Nat
  vcAt : Nat
  failV : Nat
  snap : Word
  evt : BitVec 15
  opRes : List (Nat × OpResult)
  onEntry : Option Nat
  step : Option StepRun
  vcEntry : Option Nat
  downEntry : Option Nat
  xfer : Option XferRun
  disc : Bool
  failed : Bool
  mux : Nat
  entered : Bool
  pvmax : Nat
  pimax : Nat
  hvGone : Bool
  snapDue : Bool
deriving DecidableEq, Repr

def Port.init : Port :=
  { state := .off, ret := .off, tripCnt := 0, cause := .none, armed := false, pgood := false, limact := false,
    ga := false, gb := false, vconn := false, orient := false, raSeen := false, sink := false, attRec := false,
    disch := false, bleed := false, dischOff := false, term := false, vtgt := 0, icon := 0, ftAcc := 0, leg := .none,
    retryRun := false, ri := 0, retryStart := 0, attWait := none, cc := false, ccAt := 0, stAt := 0, limStart := 0,
    limFall := 0, winAt := 0, dischAt := 0, vcAt := 0, failV := 0,
    snap := 0, evt := 0, opRes := [], onEntry := none, step := none, vcEntry := none,
    downEntry := none, xfer := none, disc := false, failed := false, mux := 0, entered := false, pvmax := 0,
    pimax := 0, hvGone := false, snapDue := false }

/-! ### PHY on the port die (chapter 05) -/

/-- Table 05-3, `KIND`. -/
inductive EvKind where
  | rx | txDone | txFailed | txDiscarded | txIncomplete | txRefused | chunkErr | bound | closing | timerA | timerB
deriving DecidableEq, Repr

/-- Where a transmission came from: a chain of pans that firmware handed over, one chunk of such a chain, or an answer
or Chunk Request of the hub or of a port die in hold. -/
inductive TxOrigin where
  | chain (pan : Nat) | chunk (pan : Nat) (num : Nat) | answer
deriving DecidableEq, Repr

/-- A message in the TX buffer: `begun` once transmission has started, `waitNg` while it waits for tSinkTx (R147),
`tries` transmissions made so far (R145), `start` the time at which the last of them began. -/
structure TxBuf where
  sop : Sop
  bytes : List Byte
  origin : TxOrigin
  amsEnd : Bool
  waitNg : Bool
  begun : Bool
  tries : Nat
  start : Nat
deriving DecidableEq, Repr

/-- A message in the RX buffer (R146). -/
structure RxBuf where
  sop : Sop
  bytes : List Byte
  usec : BitVec 32
deriving DecidableEq, Repr

/-- A port's PHY: the two buffers, the transmit MessageID counters and stored receive MessageIDs (R144), the revision
(R161), the Rp level (R147), BIST (Table 05-4), Hard Reset pending and signalling (R149), the keep-alive watchdog (R170)
and a Hard Reset received in autonomous hold (Table 12-4). `wire` is the last message that began on CC, `ack` the
MessageID of the last GoodCRC sent. `late`, `pdEvt` and `rxDrop` hold the results, each with USEC at its GoodCRC, the events and
the refusals that have not reached the hub because the link is down (R321, Table 12-4). On the device's clock stand `ngAt`, when Rp
last went to 1.5 A, with `ngDone` once tSinkTx has passed since, `hrAt`, when a Hard Reset was asked for, `bistAt`, when a BIST
carrier began, `kaStart`, and `holdHrAt`. -/
structure Phy where
  rx : Option RxBuf
  tx : Option TxBuf
  txIdSop : Nat
  txIdSopp : Nat
  rxIdSop : Option Nat
  rxIdSopp : Option Nat
  rev : Nat
  sinkTx : Bool
  ngAt : Nat
  ngDone : Bool
  bistData : Bool
  bistCarrier : Bool
  bistAt : Nat
  hrPend : Bool
  hrAt : Nat
  hrSig : Bool
  kaRun : Bool
  kaStart : Nat
  holdHr : Bool
  holdHrAt : Nat
  wire : List Byte
  ack : Option Nat
  late : List (EvKind × Nat × BitVec 32)
  pdEvt : BitVec 7
  rxDrop : Nat
deriving DecidableEq, Repr

def Phy.init : Phy :=
  { rx := none, tx := none, txIdSop := 0, txIdSopp := 0, rxIdSop := none, rxIdSopp := none, rev := 0, sinkTx := false,
    ngAt := 0, ngDone := false, bistData := false, bistCarrier := false, bistAt := 0, hrPend := false, hrAt := 0, hrSig := false, kaRun := false, kaStart := 0,
    holdHr := false, holdHrAt := 0, wire := [], ack := none, late := [], pdEvt := 0,
    rxDrop := 0 }

/-! ### Protocol-layer hub and contexts (chapter 05) -/

/-- Progress of a chunked transmission (R158): the chain, the number of the chunk last sent, whether the hub awaits the sink's Chunk
Request, and since when. -/
structure ChunkTx where
  pan : Nat
  num : Nat
  awaitReq : Bool
  since : Nat
deriving DecidableEq, Repr

/-- Assembly of a chunked message (R159): pans held so far in chain order, bytes joined, announced Data Size, the next
chunk number, whether the Chunk Request for it has been sent and when, and USEC at the first EOP. -/
structure ChunkRx where
  sop : Sop
  pans : List Nat
  header : List Byte
  data : List Byte
  size : Nat
  next : Nat
  asked : Bool
  since : Nat
  usec : BitVec 32
deriving DecidableEq, Repr

/-- What the channel's hub, queue and policy hardware hold for one port: the context id and generation, the reason of a
waiting request (R163), transmissions queued in the hub (chains by first pan, oldest first), chunking, the no-pan
refusal still unread (R150), the executed leg (R237), the shed deadline and hold (R196-R198), the commit time that set
the ceiling, the marks of SHED_DISC, HR_OFF and transfers (R176, R200, R237), tPSHardReset, and the `PRT_CMD` marks held
while the link is down (R139). `hvDirty` marks a `CHN_HVST_k` written while the link is down (R213).
`redate`: no commit has been acknowledged since the channel left reset (R198). `stale`: no measurement has arrived since the port's die was in hold (R15). -/
structure HubPort where
  ctxId : Nat
  gen : BitVec 8
  waitAlloc : Bool
  txq : List Nat
  answers : List (Sop × List Byte)
  chunkTx : Option ChunkTx
  chunkRx : Option ChunkRx
  noPanUnread : Bool
  leg : Leg
  deadline : Option (BitVec 64)
  dueHeld : Bool
  hold : Bool
  holdStart : BitVec 64
  commitUs : BitVec 64
  hrOffMark : Bool
  xferMark : Bool
  xferQueued : Bool
  psHardReset : Bool
  psAt : Nat
  markDis : Bool
  markEn : Bool
  markUnlock : Bool
  testReq : Bool
  exitReq : Bool
  hstate : Nat
  hvDirty : Bool
  redate : Bool
  stale : Bool
deriving DecidableEq, Repr

def HubPort.init : HubPort :=
  { ctxId := 0, gen := 0, waitAlloc := false, txq := [], answers := [], chunkTx := none, chunkRx := none,
    noPanUnread := false, leg := .none, deadline := none, dueHeld := false, hold := false, holdStart := 0,
    commitUs := 0, hrOffMark := false, xferMark := false, xferQueued := false, psHardReset := false, psAt := 0, markDis := false,
    markEn := false, markUnlock := false, testReq := false, exitReq := false, hstate := 0,
    hvDirty := false, redate := true, stale := false }

/-- Table 05-15, `STATE`. -/
inductive CtxState where
  | free | bound | closing
deriving DecidableEq, Repr

/-- A context timer (R156, R169): armed count in units of 100 µs, when it was armed, an unread expiry, `TOVR`. -/
structure CtxTimer where
  count : BitVec 16
  start : Nat
  pend : Bool
  tovr : Bool
deriving DecidableEq, Repr

def CtxTimer.init : CtxTimer := ⟨0, 0, false, false⟩

/-- A negotiation context (R162, Table 05-15), with its unread BOUND and CLOSING entries. -/
structure Ctx where
  state : CtxState
  alloc : Bool
  cause : Nat
  gen : BitVec 8
  port : Nat
  tmrA : CtxTimer
  tmrB : CtxTimer
  data : Word
  boundUnread : Bool
  closingUnread : Bool
deriving DecidableEq, Repr

def Ctx.init : Ctx :=
  { state := .free, alloc := false, cause := 0, gen := 0, port := 0, tmrA := CtxTimer.init, tmrB := CtxTimer.init,
    data := 0, boundUnread := false, closingUnread := false }

/-- An entry of `CTX_EVQ` (Table 05-3). `noPan` marks the result of a command that names no pan (R150). -/
structure EvEntry where
  kind : EvKind
  ctx : Nat
  port : Nat
  sop : Sop
  info : Nat
  pan : Nat
  noPan : Bool
deriving DecidableEq, Repr

/-- Who owns a message pan (R153): `tx h` is a pan of the chain that starts at pan `h`, from its doorbell until its
result is read. -/
inductive PanOwner where
  | free | hub | firmware
  | tx (head : Nat)
deriving DecidableEq, Repr

/-! ### What the standard course firmware holds for a port (chapters 06, 07) -/

/-- A transition (R186, R210): from contract (`v0`, `i0`) to (`v1`, `i1`) at object position `pos` in `n` steps, of which
`k` have been pushed; `slot` is the slot of the next push and `entry` the step that is queued or in progress. `noOp` marks
a contract that stands unchanged, `oneOp` the single CONTRACT operation of a 5.0 V contract from SAFE5V, `pps` a PPS object,
`heavy` a heavy contract. `opened` is set at the GoodCRC of the Accept or of the accepted HEAVY_GRANT. `trying`, `last` and
`waited` time the attempts at a step push that was refused (R187). -/
structure Tran where
  v0 : Nat
  i0 : Nat
  v1 : Nat
  i1 : Nat
  pos : Nat
  n : Nat
  k : Nat
  slot : Nat
  entry : Option Nat
  noOp : Bool
  oneOp : Bool
  pps : Bool
  heavy : Bool
  opened : Bool
  trying : Bool
  last : BitVec 64
  waited : Nat
deriving DecidableEq, Repr

/-- The commands of discovery (R205) and of the exit (R214): `due` before the first command, `down` while EXIT brings a
heavy contract down, `gap` for its 100 µs, `exit` while Exit Mode is unanswered. -/
inductive Disc where
  | idle | due | identity | svids | modes | enter | down | gap | exit
deriving DecidableEq, Repr

/-- What context timer A carries for a port (Tables 05-8, 07-2). -/
inductive Wait where
  | none | sender | soft | caps | trans | same | recover | vconn | disc | busy | hcaps | hready
deriving DecidableEq, Repr

/-- What a port waits for a context to do. -/
inductive Want where
  | none | turnOn | move | swap | offer | recover | disc
deriving DecidableEq, Repr

/-- Why firmware sent a message, kept until its result is read. -/
inductive Say where
  | caps | accept | acceptSoft | softReset | swapEnd | vdm | cable | hcaps | grant | hready | askAck | eprAck | eprDone
  | eprExit | info
  | psRdy (t : Tran)
  | grantRej (again : Bool)
deriving DecidableEq, Repr

/-- The standard firmware's record of a port: the advertisement basis and the heavy basis (R182, R209), the words last
advertised, capability transmissions without GoodCRC and the hard-reset count (R185), the cable limits and the attempts at
the cable's identity (R179), EPR mode, the VCONN role and a swap (R193), the transition and a Request that waits for a
context, discovery (R205, R214) with the mode found, attempts at HEAVY_CAPS, what timer A and B carry and whether an
expiry unread is of an earlier use, transmissions whose result is unread by their first pan, messages dropped that are sent
again (R216), a TURN_ON that waits for a commit (R184), a recovery from Hard Reset and whether its HR_OFF is done (R200), a port given up
(R185), and a re-advertisement owed; whether the contract that stands is a PPS contract (R189), whether a contract has been recorded
since the firmware started (R215), whether the mode was left by EXIT (R214); and the moments of `clock` at which the wait of timer A
(with its length in 100 µs), that of timer B and the request for a context began. -/
structure Fw where
  basis : List Word
  hbasis : List Word
  adv : List Word
  hadv : List Word
  caps : Nat
  hrCount : Nat
  cabI : Nat
  cabV : Nat
  cabEpr : Bool
  cabTry : Nat
  cabDone : Bool
  epr : Bool
  vcSink : Bool
  vcAwait : Bool
  vcOn : Option Nat
  swapCtx : Bool
  tran : Option Tran
  req : Option Tran
  disc : Disc
  discTry : Nat
  noDisc : Bool
  test : Bool
  oldMux : Nat
  mpos : Nat
  vdo : Nat
  capsTry : Nat
  useA : Wait
  staleA : Bool
  useB : Bool
  staleB : Bool
  want : Want
  sent : List (Nat × Say)
  again : List (Say × List Byte)
  onWait : Bool
  recov : Bool
  hrOff : Bool
  dead : Bool
  owe : Bool
  cpps : Bool
  knows : Bool
  exited : Bool
  waitAt : Nat
  waitN : Nat
  bAt : Nat
  wantAt : Nat
deriving DecidableEq, Repr

def Fw.init : Fw :=
  { basis := [], hbasis := [], adv := [], hadv := [], caps := 0, hrCount := 0, cabI := 3000, cabV := 21000,
    cabEpr := false, cabTry := 0, cabDone := false, epr := false, vcSink := false, vcAwait := false, vcOn := none,
    swapCtx := false, tran := none, req := none, disc := .idle, discTry := 0, noDisc := false, test := false, oldMux := 0,
    mpos := 1, vdo := 0, capsTry := 0, useA := .none, staleA := false, useB := false, staleB := false, want := .none,
    sent := [], again := [], onWait := false, recov := false, hrOff := false, dead := false, owe := false,
    cpps := false, knows := false, exited := false, waitAt := 0, waitN := 0, bAt := 0, wantAt := 0 }

/-! ### Operation queue (chapters 02, 06) -/

/-- Table 06-1, `KIND`. -/
inductive OpKind where
  | turnOn | contract | step | hrOff | vconnOn | vconnOff | transfer
deriving DecidableEq, Repr

/-- Table 06-13, `OPQ_ENTA_i.STATE` of an occupied entry. -/
inductive OpState where
  | queued | released
deriving DecidableEq, Repr

/-- An entry of the operation queue: the fields of Tables 02-4 and 06-13, its release angle (R64), the tick at which it
fell due, its order of entry (R65), and the legs it names, leaves and ends on (R104, R238). `mbb` and `refuse` are decided
at release (R239). `fin` marks an entry whose final result waits for room in `OPQ_CQ` (R176). -/
structure OpEntry where
  st : OpState
  kind : OpKind
  port : Nat
  slot : Nat
  ph : Nat
  last : Bool
  stepTo : Bool
  vtgt : Nat
  icon : Nat
  w : Nat
  fa : Nat
  fb : Nat
  leg : Leg
  fromLeg : Leg
  rel : Nat
  due : Option Nat
  order : Nat
  mbb : Bool
  refuse : Bool
  fin : Bool
deriving DecidableEq, Repr

/-- A result as `OPQ_CQ` shows it. `entry` is none for SHED_DISC. -/
structure CqEntry where
  result : OpResult
  kind : Option OpKind
  port : Nat
  entry : Option Nat
deriving DecidableEq, Repr

/-! ### Channels and port dies -/

/-- What a channel holds beside its registers: whether it is in reset and the time of its last cause, the placement bank it sees (R25), `CTX_EVQ`,
`OPQ_CQ`, the results that wait for room (R176), the entry order, and the transmissions held by pacing in doorbell
order, as port index and first pan (R195). -/
structure Chan where
  inReset : Bool
  resetAt : Nat
  bank : Bool
  evq : List EvEntry
  cq : List CqEntry
  waitRes : List CqEntry
  opOrder : Nat
  paceHeld : List (Nat × Nat)
deriving DecidableEq, Repr

def Chan.init : Chan :=
  { inReset := true, resetAt := 0, bank := false, evq := [], cq := [], waitRes := [], opOrder := 0, paceHeld := [] }

/-- What a port die holds beside its ports: whether it is in reset, its own end of the link, autonomous hold with its
start and `HOLD_S` as the hub has sent it (R323), whether the hold has expired and the expiry record still waits for the link,
the die-reset mark of its next mirror (R490), the hub end's declaration of loss, if one stands, a low gate-driver or VCONN supply, the last fall of `VDDP`
(Table 20-3), its temperature in 0.1 K above 0 °C, the lamp and sideline codes that its external registers keep while it
is in reset (Table 12-3), the time at which its own end declared loss, the failures of the self-test whose records wait (source and
check), the time of its last self-test step, and the latch of its critical trim word (R386). -/
structure Die where
  inReset : Bool
  up : Bool
  hold : Bool
  holdStart : Nat
  holdS : Nat
  expired : Bool
  expDue : Bool
  resetMirror : Bool
  downSince : Option Nat
  vghLow : Bool
  vconnLow : Bool
  vddpAt : Option Nat
  temp : Int
  side : List (Nat × Nat)
  lostAt : Option Nat
  tests : List (Nat × Nat)
  testAt : Nat
  trim : Word
deriving DecidableEq, Repr

def Die.init : Die :=
  { inReset := true, up := false, hold := false, holdStart := 0, holdS := 0, expired := false, expDue := false,
    resetMirror := true, downSince := none, vghLow := false, vconnLow := false, vddpAt := none, temp := 0, side := [], lostAt := none, tests := [], testAt := 0,
    trim := 0 }

/-- A feeder row of the placement table (R23): the words of `FDR_STAT_f`, `FDR_VMEAS_f`, `FDR_IMEAN_f`,
`FDR_USABLE_f` and `FDR_COMMIT_f`. -/
structure FdrRow where
  stat : Word
  vmeas : Word
  imean : Word
  usable : Word
  commit : Word
deriving DecidableEq, Repr

/-- The reset values of Table 08-10: `KCOR` 1,000, health ABSENT. -/
def FdrRow.init : FdrRow := ⟨0x3E8, 0, 0, 0, 0⟩

/-- What the feeder monitor holds for a feeder (R219, R222, R245, R255): `DOWNSEEN`, a DOWN condition that still lasts,
the samples outside the window in a row, `OFFCMD`, the last voltage sample in mV, and the sum (10 mA) and number of the
current samples since the last round's t0. -/
structure FdrMon where
  downSeen : Bool
  downNow : Bool
  outCnt : Nat
  offcmd : Bool
  v : Nat
  iSum : Int
  iCnt : Nat
deriving DecidableEq, Repr

def FdrMon.init : FdrMon := ⟨false, false, 0, false, 0, 0, 0⟩

/-- One bank of the placement table (R23): the port entries, the feeder rows, the used power of each group. -/
structure Bank where
  ent : Tab Word
  fdr : Tab FdrRow
  gused : Tab Nat
deriving DecidableEq, Repr

/-- A port's place in the admission order (R372, R373): waiting, admitted, taken out by `ADMIN_DIS`, or to be admitted at
boot release by a kept `ADMIN_EN`. -/
inductive Adm where
  | waiting | admitted | removed | kept
deriving DecidableEq, Repr

/-- Device-wide conditions that no register holds: `PORST_N` low, the management plane in reset or its clock lost,
quiet mode (R349), EXTEST (R395), USEC when the management plane was last found busy (R349), and the time of the last loss of each
clock, at its source number of class 0x1D. -/
structure Clk where
  porst : Bool
  mgmtReset : Bool
  mclkLost : Bool
  quiet : Bool
  extest : Bool
  idleAt : BitVec 64
  lostAt : Tab Nat
deriving DecidableEq, Repr

/-! ### Courses (chapters 10, 11) -/

/-- A product in flight (R277): the cycles since its issue, whether it accumulates, its value. -/
structure Prod where
  age : Nat
  acc : Bool
  val : BitVec 64
deriving DecidableEq, Repr

/-- What a string holds (R271, Table 11-1): g1-g15, PC, the multiplier with its products in flight, oldest first, the loop
state, the status words. -/
structure Str where
  g : Tab Word
  pc : Word
  mlo : Word
  mhi : Word
  lc : Word
  ls : Word
  le : Word
  st : Word
  epc : Word
  estat : Word
  xpc : Word
  xcause : Word
  xstat : Word
  prods : List Prod
deriving DecidableEq, Repr

def Str.init : Str :=
  { g := [], pc := 0, mlo := 0, mhi := 0, lc := 0, ls := 0, le := 0, st := 0, epc := 0, estat := 0, xpc := 0,
    xcause := 0, xstat := 0, prods := [] }

/-- A store in the store buffer (R291). -/
structure StoreReq where
  addr : Word
  width : Nat
  data : Word
deriving DecidableEq, Repr

/-- A course (Table 11-1): its three strings, the string that is isolated for a retune and whether its stall has begun
(R300), the outvotes of each string in the second of USEC that `second` names (R301), the latched bits of `EVT`, `EVEN`,
`AEST.AE`, `AEADDR`, `CYCLE`, the store buffer, the sleep of `wait`, the word of the next scan and the cycles since one fell
due (R296), the start of the watchdog count and whether a first-stage restart has followed the last kick (R309, R310), a halt
by debug that waits or stands, with its time (R308), and the course's own latches of `ANG_CYC_HI` and `ANG_USEC_HI` (R289);
`mbxErr` is `MBX_STAT.ERR`; `mid` marks a string instruction that has stopped between elements and goes on (R283); `hung` an
access that waits for a stopped clock (R345). -/
structure Course where
  s0 : Str
  s1 : Str
  s2 : Str
  iso : Option Nat
  stall : Bool
  second : Nat
  out : Tab Nat
  link : Bool
  slot : Bool
  commit : Bool
  even : Word
  ae : Bool
  aeAddr : Word
  cycle : Word
  sbuf : List StoreReq
  sleep : Bool
  scan : Nat
  scanAge : Nat
  wdStart : Nat
  wdFirst : Bool
  haltReq : Bool
  halted : Bool
  haltAt : Nat
  cycHi : Word
  usecHi : Word
  mbxErr : Bool
  mid : Bool
  hung : Bool
deriving DecidableEq, Repr

def Course.init : Course :=
  { s0 := Str.init, s1 := Str.init, s2 := Str.init, iso := none, stall := false, second := 0, out := [], link := false,
    slot := false, commit := false, even := 0, ae := false, aeAddr := 0, cycle := 0, sbuf := [], sleep := false,
    scan := 0, scanAge := 0, wdStart := 0, wdFirst := false, haltReq := false, halted := false, haltAt := 0, cycHi := 0,
    usecHi := 0, mbxErr := false, mid := false, hung := false }

/-! ### The mailbox (R29-R31, R292, R409) -/

/-- An entry of a channel's lane: posted or taken, its place in posting order, the time of its posting or its taking, its
command length, its origin, and whether taken-no-response has been reported. Its buffers stand in memory 0x53. -/
structure MbxEntry where
  taken : Bool
  order : Nat
  time : Nat
  len : Nat
  origin : Origin
  reported : Bool
deriving DecidableEq, Repr

/-! ### Chain links and the two-wire port (chapters 16, 17) -/

/-- A frame to send (Table 17-2), how often it has been resent and when it last went out (R427), and for one that is sent on the link and the
`SEQ` it came in with, whose receive buffer it holds until then (R426). -/
structure Frame where
  typ : Nat
  dst : Nat
  src : Nat
  seq : Nat
  gen : Nat
  payload : List Byte
  tries : Nat
  start : Nat
  inOn : Option (Nat × Nat)
deriving DecidableEq, Repr

/-- What a chain link holds beside its registers: frames that wait for credit, frames sent and not acknowledged, the next
`SEQ`, the last `SEQ` values received intact, latest first, the last ACK sent, the alert value of its subtree (R435), a DROP in force,
the time of the last change of state or DROP, and the copies sent last that EAB has ended (R432). -/
structure Chain where
  wait : List Frame
  sent : List Frame
  txSeq : Nat
  rxSeq : List Nat
  ack : List Byte
  alert : Nat
  dropping : Bool
  since : Nat
  cut : List Frame
deriving DecidableEq, Repr

def Chain.init : Chain := ⟨[], [], 0, [], [], 0xFFFF, false, 0, []⟩

/-- A device's part in an enumeration (R429): running, its base, the down link whose ENUM_DONE is awaited, the next address,
the lowest level so far and, at the root, the lowest address below level 3; a holdoff that counts at the root, another
enumeration owed, the alert value last sent up (R435), and the time at which the holdoff last started. -/
structure Enum where
  run : Bool
  base : Nat
  link : Nat
  next : Nat
  lv : Nat
  low : Nat
  holdoff : Bool
  owed : Bool
  sentUp : Nat
  holdAt : Nat
deriving DecidableEq, Repr

def Enum.init : Enum := ⟨false, 0, 0, 0, 0, 0xFFFF, false, false, 0xFFFF, 0⟩

/-- The request buffer as written, the response, the `RQGO` word of the request and its time, a request held while an enumeration runs
(R408, R409, R433), the PEC of the last read (R403), and the `GEN` of the REQ under way (R433). -/
structure Twm where
  buf : List Byte
  resp : List Byte
  go : Word
  goAt : Nat
  held : Bool
  pec : Byte
  gen : Option Nat
deriving DecidableEq, Repr

def Twm.init : Twm := ⟨[], [], 0, 0, false, 0, none⟩

/-! ### Measurement (chapter 09) -/

/-- What an ADC unit holds beside its registers: a trigger accepted with the settings it keeps (R268), a calibration that
waits for it, a calibration that has been made since reset so that the scan runs (R249), and the ports whose urgent pairs
are queued, in request order (R252). -/
structure Adc where
  pend : Option Word
  pendAt : Nat
  trg : Bool
  trgAt : Option Nat
  calWait : Bool
  calAt : Nat
  calFail : Option Nat
  calDirty : Bool
  scanOn : Bool
  next : Option Nat
  urgent : List Nat
deriving DecidableEq, Repr

def Adc.init : Adc :=
  { pend := none, pendAt := 0, trg := false, trgAt := none, calWait := false, calAt := 0, calFail := none, calDirty := false,
    scanOn := false, next := none, urgent := [] }

/-- The last scan conversions of a port: `VS` in mV, the current in mA, full scale seen (R247, R248),
and a link frame with them on its way (R251). -/
structure Scan where
  v : Nat
  i : Int
  vsat : Bool
  isat : Bool
  due : Bool
deriving DecidableEq, Repr

def Scan.init : Scan := ⟨0, 0, false, false, false⟩

/-- Harvest of a port: the fine accumulator in pJ, the energy count in mWh, the stamp of its previous scan, and the high
word of the energy group (R263, R264, R266). -/
structure Harv where
  fine : Nat
  count : BitVec 48
  last : Option (BitVec 64)
  hi : Word
deriving DecidableEq, Repr

def Harv.init : Harv := ⟨0, 0, none, 0⟩

/-- Harvest of a feeder (R265): fine accumulators in pJ, counters in mWh, and the sum (10 µW) and number of the products of
the cycle. -/
structure FHarv where
  fineOut : Nat
  fineIn : Nat
  out : BitVec 48
  inn : BitVec 48
  sum : Int
  cnt : Nat
deriving DecidableEq, Repr

def FHarv.init : FHarv := ⟨0, 0, 0, 0, 0, 0⟩

/-! ### Flash and boot (chapter 14) -/

/-- A device's boot header (Table 14-2); no previous slot stands for 0xFF. -/
structure BootHdr where
  gen : Nat
  active : Nat
  previous : Option Nat
  staging : Nat
  trial : Bool
  staged : Bool
  pwrhrs : Nat
  lastref : Nat
deriving DecidableEq, Repr

/-- A settings record copy (Table 14-8). -/
structure SetRec where
  seq : Nat
  sver : Nat
  entries : List (Nat × Word)
deriving DecidableEq, Repr

/-- What the boot controller knows of a flash device: usable, its two header copies and its two settings copies where valid. The
copies are numbered 0 and 1, 2 and 3: those that a write cut by `PORST_N` has left invalid, and the one written last, of which no
later work on the device has told that it is complete (4: any of them, while a refresh rewrites the device; R381). -/
structure Nvm where
  ok : Bool
  hdr0 : Option BootHdr
  hdr1 : Option BootHdr
  set0 : Option SetRec
  set1 : Option SetRec
  torn : List Nat
  writing : Option Nat
deriving DecidableEq, Repr

def Nvm.init : Nvm :=
  { ok := false, hdr0 := none, hdr1 := none, set0 := none, set1 := none, torn := [], writing := none }

/-- A settings record on its way to the devices (R377): the one now written, whether NVM_A's copy verified, and a saved setting
written meanwhile. -/
structure Wb where
  record : SetRec
  onB : Bool
  okA : Bool
  again : Bool
deriving DecidableEq, Repr

/-- The refresh of a device once its source is verified (R379): whether that is the other device, and the SHA-384 of its slots. -/
structure Refresh where
  other : Bool
  hashes : List (List Byte)
deriving DecidableEq, Repr

/-- The boot controller (R361-R380): the candidates still to try with their slots, the current one first (none: the role is
empty); the bytes read of the current one and whether its signature verified; the channels whose code RAM it has written; a
retry; the end of step 3 (`ready`) and of calibration; the image defaults of
settings; the section `HASH` of each channel's code; the channels reset before release whose code is written anew (R381); a
settings record asked for at once, the time of the last saved setting write, and a record on its way; a refresh asked for by the host,
and one in progress; and the powered hours at the last header write. -/
structure Boot where
  cands : List (Nat × Option Nat)
  img : List Byte
  sigOk : Bool
  wrote : List Nat
  retry : Bool
  ready : Bool
  calDone : Bool
  defaults : List (Nat × Word)
  codeHash : Tab (List Byte)
  recode : List Nat
  saveNow : Bool
  dirtyAt : Nat
  wb : Option Wb
  refWant : Bool
  refresh : Option Refresh
  hdrHours : Nat
deriving DecidableEq, Repr

def Boot.init : Boot :=
  { cands := [], img := [], sigOk := false, wrote := [], retry := false, ready := false, calDone := false,
    defaults := [], codeHash := [], recode := [], saveNow := false, dirtyAt := 0, wb := none, refWant := false, refresh := none,
    hdrHours := 0 }

/-! ### Fuse array (chapter 15) -/

/-- A `BLOW` or `LOCK` in progress, with the time of its write. -/
structure OtpCmd where
  lock : Bool
  addr : Nat
  data : Word
  start : Nat
deriving DecidableEq, Repr

/-- The fuse controller: the reads of fuse sense (the normal and the margin read of each word), the regions that a LOCK has
locked since `PORST_N` (R392), the command in progress, a commanded re-read in progress, USEC at fuse sense or at the last re-read
of the interval (R389). -/
structure Otp where
  norm : Tab Word
  marg : Tab Word
  locked : Tab Bool
  cmd : Option OtpCmd
  reread : Bool
  rrAt : BitVec 64
deriving DecidableEq, Repr

def Otp.init : Otp := ⟨[], [], [], none, false, 0⟩

/-- The fuse array of a part as it leaves Icheren: normal read 1 and no weak bit. Both identity copies and the factory trim
are sealed and locked; no key slot is. -/
def shippedFuse : Tab Word :=
  [(0x05, 1), (0x07, 0x5ea1eb4c), (0x0D, 1), (0x0F, 0x5ea1eb4c), (0x2F, 0x5ea177f0), (0xB5, 7), (0xB6, 7), (0xB7, 7)]

/-! ### Field update (chapter 18) -/

/-- A device's part in a session (R442-R453): the range and `LEN` of the last OPEN taken; the missing blocks; the block whose
parts arrive, with its `BCRC` and the parts held; the blocks buffered and not yet programmed; the blocks programmed into the staging
slot; which flashes are usable; at the root whether a session is open, the state it awaits and the last REPORT of each device (state, reason); the start of the
window; a failure event that waits for its fallback; the channels still to switch, the one whose code is being copied, the time the last one reached step 6 of
R307, whether the switching goes back; the running and the staged `FWVER`, `BOOT_IMGINFO` word and code hashes; the time at which `CONFIRM` and
`REJECT` met (Table 18-7). -/
structure Upd where
  lo : Nat
  hi : Nat
  len : Nat
  missing : List Nat
  block : Nat
  bcrc : Word
  parts : Tab (List Byte)
  bufs : List (Nat × List Byte)
  slot : Tab (List Byte)
  useA : Bool
  useB : Bool
  isOpen : Bool
  await : Nat
  reports : Tab (Option (Nat × Nat))
  winStart : BitVec 64
  failed : Bool
  todo : List Nat
  copy : Option Nat
  step6 : Option Nat
  back : Bool
  ver : Word
  info : Word
  hash : Tab (List Byte)
  oldVer : Word
  oldInfo : Word
  oldHash : Tab (List Byte)
  clash : Option Nat
deriving DecidableEq, Repr

def Upd.init : Upd :=
  { lo := 0, hi := 0, len := 0, missing := [], block := 0, bcrc := 0, parts := [], bufs := [], slot := [], useA := false, useB := false,
    isOpen := false, await := 0, reports := [], winStart := 0, failed := false, todo := [], copy := none, step6 := none, back := false,
    ver := 0, info := 0, hash := [], oldVer := 0, oldInfo := 0, oldHash := [],
    clash := none }

/-! ### Memory words and scrubbers (R314-R318) -/

/-- A 64-bit word of a memory of Table 12-2 beside its data: whether it holds the poison check pattern, and which bits an upset has
flipped: of its data (63:0), of its check bits (79:64), and of the address under which it was stored (99:80). -/
structure WordErr where
  poison : Bool
  flips : BitVec 100
deriving DecidableEq, Repr

def WordErr.init : WordErr := ⟨false, 0⟩

/-- A memory's scrubber: the passes it has completed, and the word it takes next. -/
structure Scrubber where
  passes : Nat
  next : Nat
deriving DecidableEq, Repr

def Scrubber.init : Scrubber := ⟨0, 0⟩

/-! ### The whole block -/

/-- The state of the block. -/
structure State where
  /-- registers by host address; an unlisted one holds its reset value -/
  regs : Tab Word
  /-- settings and image-loaded registers as the port dies hold them, by host address (R139) -/
  dieRegs : Tab Word
  /-- port state records, words 7, 8, 10 and 13, at 16 p + w (Table 10-7) -/
  prec : Tab Word
  /-- bytes of the memories of Table 12-2, at id · 2^20 + offset -/
  mem : List Host.Cell
  /-- words in error (R314-R316), at id · 2^20 + offset / 8 -/
  ecc : Tab WordErr
  tb : Timebase
  timer : Tab Timer
  portEv : Tab Nat
  /-- the microsecond, from 1, of the last event of each privileged crossing (Table 13-4), by instance -/
  xat : Tab Nat
  /-- the ports as their port dies hold them -/
  port : Tab Port
  /-- the ports as the hub last saw them (R139) -/
  mir : Tab Port
  phy : Tab Phy
  hub : Tab HubPort
  fw : Tab Fw
  ctx : Tab Ctx
  pan : Tab PanOwner
  opq : Tab (Option OpEntry)
  chan : Tab Chan
  /-- the two banks of the placement table, and which is active -/
  bankA : Bank
  bankB : Bank
  active : Bool
  fdrMon : Tab FdrMon
  /-- a placement round has started and its copies have not agreed (R44) -/
  roundOpen : Bool
  /-- USEC of the last switch of the banks (R197) -/
  switchUs : BitVec 64
  die : Tab Die
  crs : Tab Course
  /-- mailbox entries at 8 c + i -/
  mbx : Tab (Option MbxEntry)
  lnk : Tab Chain
  enum : Enum
  twm : Twm
  adc : Tab Adc
  scan : Tab Scan
  /-- each memory's scrubber, the start of the present device-wide pass, and the second of USEC of each memory's last record of a
  corrected error (R318, R330) -/
  scrubs : Tab Scrubber
  scrubStart : BitVec 64
  ceSecond : Tab Nat
  harv : Tab Harv
  fharv : Tab FHarv
  /-- CYC of the last closed cycle (R264) -/
  hrvCyc : BitVec 48
  clk : Clk
  adm : Tab Adm
  /-- settings that the management plane has written (R374), by host address -/
  saved : Tab (Option Word)
  log : Log
  nvmA : Nvm
  nvmB : Nvm
  boot : Boot
  /-- the fuse array as its normal read gives it, and its weak bits (R385) -/
  fuse : Tab Word
  weak : Tab Word
  otp : Otp
  upd : Upd
  /-- the instruction of the test access port (Table 15-4) -/
  tap : Nat
  /-- the boundary register as the last scan left it, and the bits the last scan shifted out, first one first (R11) -/
  bsr : List Bool
  tdo : List Bool
  /-- value returned by the last register read, and the bytes of the last block read -/
  bus : Word
  block : List Byte
  /-- the free-value counter -/
  fresh : Nat
  /-- microseconds that have passed, whatever clock runs: the model's own -/
  clock : Nat
  /-- the commands that wait, first in first out -/
  pending : List Instr
deriving DecidableEq, Repr

/-- Why the block stops. No meaning of this model raises it: every command has an effect. -/
inductive Fault where
  /-- Raised by no command; safe. -/
  | stuck
deriving DecidableEq, Repr

/-- Why a command is turned away. -/
inductive Refusal where
  /-- Raised by the dispatch for a command without a meaning; safe. -/
  | notModelled (mnemonic : String)
deriving DecidableEq, Repr

def Timebase.init : Timebase :=
  { st := .acquire, angle := 0, cyc := 0, usec := 0, holdStart := 0, rampFrom := 50000, rampStart := 0, mzxBlankEnd := 0,
    maBlankEnd := 0, xSeen := false, xWraps := 0, xMiss := 0, ibudLeft := [], opsLeft := [], fresh := [], ibud := [],
    tick := 0, lastRound := none, lastIsl := false, lastAu := none, nextTick := 0, nextSlot := 0, band := 0,
    dipping := false, loopFreq := 50000, lead := 0, slew := 0, idleAu := 0 }

def Log.init : Log :=
  { staged := [], seq := 0, lostC := 0, lostD := 0, lostM := 0, held := [], ringA := [], ringB := [] }

/-- The block while `PORST_N` is low (R336, R337, R459): every register at its reset value, every domain in reset. -/
def State.reset : State :=
  { regs := [], dieRegs := [], prec := [], mem := [], ecc := [], tb := Timebase.init, timer := [], portEv := [], xat := [], port := [],
    mir := [], phy := [], hub := [], fw := [], ctx := [], pan := [], opq := [], chan := [],
    bankA := ⟨[], [], []⟩, bankB := ⟨[], [], []⟩, active := false, fdrMon := [], roundOpen := false, switchUs := 0, die := [],
    crs := [], mbx := [], lnk := [], enum := Enum.init, twm := Twm.init, adc := [], scan := [], scrubs := [], scrubStart := 0,
    ceSecond := [], harv := [], fharv := [], hrvCyc := 0,
    clk := ⟨true, true, false, false, false, 0, []⟩, adm := [], saved := [], log := Log.init,
    nvmA := Nvm.init, nvmB := Nvm.init, boot := Boot.init, fuse := shippedFuse, weak := [], otp := Otp.init,
    upd := Upd.init, tap := 2, bsr := [], tdo := [], bus := 0, block := [],
    fresh := 0, clock := 0, pending := [] }

end Sys2Proof.Machine
end

