-- ==== Sys2Proof/Machine/Ops.lean ====
section
/-! DEFINITION. The operations every meaning is built from: register fields, tables of the state, event bits with their
alerts, the event log, port records, and the idle step. -/
namespace Sys2Proof.Machine

/-! ### Register fields (R6, R7, R10) -/

/-- The bits of a field within its word. -/
def Fld.mask (f : Fld) : Word := BitVec.ofNat 32 ((2 ^ f.w - 1) * 2 ^ f.lo)

/-- The value a word holds in a field. -/
def Fld.get (f : Fld) (w : Word) : Nat := (w.extractLsb' f.lo f.w).toNat

/-- The word with a field set to `v`, of which the bits beyond the field are dropped. -/
def Fld.put (f : Fld) (w : Word) (v : Nat) : Word :=
  (w &&& ~~~f.mask) ||| (BitVec.ofNat 32 (v * 2 ^ f.lo) &&& f.mask)

/-- Bit `i` of a field, as a field. -/
def Fld.bit (f : Fld) (i : Nat) : Fld := ⟨f.lo + i, 1⟩

/-- The register at a host address. -/
def State.reg (s : State) (a : Nat) : Word := tabGet (regReset a) s.regs a

/-- A field of the register at a host address. -/
def State.fld (s : State) (a : Nat) (f : Fld) : Nat := f.get (s.reg a)

/-- A field of the register at a host address, as a truth value. -/
def State.flag (s : State) (a : Nat) (f : Fld) : Bool := s.fld a f != 0

def setReg (a : Nat) (v : Word) (s : State) : State := { s with regs := tabSet (regReset a) s.regs a v }

def setFld (a : Nat) (f : Fld) (v : Nat) (s : State) : State := setReg a (f.put (s.reg a) v) s

def setFlag (a : Nat) (f : Fld) (b : Bool) (s : State) : State := setFld a f b.toNat s

/-- Adds 1 to a counting field, which saturates at its largest value. -/
def incFld (a : Nat) (f : Fld) (s : State) : State :=
  if s.fld a f + 1 < 2 ^ f.w then setFld a f (s.fld a f + 1) s else setFld a f (2 ^ f.w - 1) s

/-- A field as a signed value (R10). -/
def signed (w v : Nat) : Int := if v < 2 ^ (w - 1) then (v : Int) else (v : Int) - 2 ^ w

/-! ### The tables of the state -/

def State.timerOf (s : State) (n : Nat) : Timer := tabGet Timer.init s.timer n
def State.portOf (s : State) (p : Nat) : Port := tabGet Port.init s.port p
def State.mirOf (s : State) (p : Nat) : Port := tabGet Port.init s.mir p
def State.phyOf (s : State) (p : Nat) : Phy := tabGet Phy.init s.phy p
def State.hubOf (s : State) (p : Nat) : HubPort := tabGet HubPort.init s.hub p
def State.fwOf (s : State) (p : Nat) : Fw := tabGet Fw.init s.fw p
def State.ctxOf (s : State) (c n : Nat) : Ctx := tabGet Ctx.init s.ctx (64 * c + n)
def State.panOf (s : State) (c i : Nat) : PanOwner := tabGet .free s.pan (256 * c + i)
def State.opOf (s : State) (c i : Nat) : Option OpEntry := tabGet none s.opq (64 * c + i)
def State.chanOf (s : State) (c : Nat) : Chan := tabGet Chan.init s.chan c
def State.dieOf (s : State) (d : Nat) : Die := tabGet Die.init s.die d
def State.monOf (s : State) (f : Nat) : FdrMon := tabGet FdrMon.init s.fdrMon f
def State.recOf (s : State) (p w : Nat) : Word := tabGet 0 s.prec (16 * p + w)

def updTimer (n : Nat) (f : Timer → Timer) (s : State) : State :=
  { s with timer := tabSet Timer.init s.timer n (f (s.timerOf n)) }

def updPhy (p : Nat) (f : Phy → Phy) (s : State) : State :=
  { s with phy := tabSet Phy.init s.phy p (f (s.phyOf p)) }

def updHub (p : Nat) (f : HubPort → HubPort) (s : State) : State :=
  { s with hub := tabSet HubPort.init s.hub p (f (s.hubOf p)) }

def updFw (p : Nat) (f : Fw → Fw) (s : State) : State :=
  { s with fw := tabSet Fw.init s.fw p (f (s.fwOf p)) }

def updCtx (c n : Nat) (f : Ctx → Ctx) (s : State) : State :=
  { s with ctx := tabSet Ctx.init s.ctx (64 * c + n) (f (s.ctxOf c n)) }

def setPan (c i : Nat) (o : PanOwner) (s : State) : State :=
  { s with pan := tabSet .free s.pan (256 * c + i) o }

def setOp (c i : Nat) (e : Option OpEntry) (s : State) : State :=
  { s with opq := tabSet none s.opq (64 * c + i) e }

def updChan (c : Nat) (f : Chan → Chan) (s : State) : State :=
  { s with chan := tabSet Chan.init s.chan c (f (s.chanOf c)) }

def updDie (d : Nat) (f : Die → Die) (s : State) : State :=
  { s with die := tabSet Die.init s.die d (f (s.dieOf d)) }

def updMon (f : Nat) (g : FdrMon → FdrMon) (s : State) : State :=
  { s with fdrMon := tabSet FdrMon.init s.fdrMon f (g (s.monOf f)) }

def setRec (p w : Nat) (v : Word) (s : State) : State := { s with prec := tabSet 0 s.prec (16 * p + w) v }

def State.crsOf (s : State) (c : Nat) : Course := tabGet Course.init s.crs c
def State.mbxOf (s : State) (c i : Nat) : Option MbxEntry := tabGet none s.mbx (8 * c + i)
def State.chainOf (s : State) (n : Nat) : Chain := tabGet Chain.init s.lnk n
def State.adcOf (s : State) (u : Nat) : Adc := tabGet Adc.init s.adc u
def State.scanOf (s : State) (p : Nat) : Scan := tabGet Scan.init s.scan p
def State.harvOf (s : State) (p : Nat) : Harv := tabGet Harv.init s.harv p
def State.fharvOf (s : State) (f : Nat) : FHarv := tabGet FHarv.init s.fharv f

def updCrs (c : Nat) (f : Course → Course) (s : State) : State :=
  { s with crs := tabSet Course.init s.crs c (f (s.crsOf c)) }

def setMbx (c i : Nat) (e : Option MbxEntry) (s : State) : State := { s with mbx := tabSet none s.mbx (8 * c + i) e }

def updChain (n : Nat) (f : Chain → Chain) (s : State) : State :=
  { s with lnk := tabSet Chain.init s.lnk n (f (s.chainOf n)) }

def updEnum (f : Enum → Enum) (s : State) : State := { s with enum := f s.enum }

def updTwm (f : Twm → Twm) (s : State) : State := { s with twm := f s.twm }

def updAdc (u : Nat) (f : Adc → Adc) (s : State) : State := { s with adc := tabSet Adc.init s.adc u (f (s.adcOf u)) }

def updScan (p : Nat) (f : Scan → Scan) (s : State) : State :=
  { s with scan := tabSet Scan.init s.scan p (f (s.scanOf p)) }

def updHarv (p : Nat) (f : Harv → Harv) (s : State) : State :=
  { s with harv := tabSet Harv.init s.harv p (f (s.harvOf p)) }

def updFharv (f : Nat) (g : FHarv → FHarv) (s : State) : State :=
  { s with fharv := tabSet FHarv.init s.fharv f (g (s.fharvOf f)) }

/-- Returns a value on the bus of a register read. -/
def setBus (v : Word) (s : State) : State := { s with bus := v }

/-- A read as a command: its value stands on the bus. -/
def readCmd (r : Word × State) : State := setBus r.1 r.2

/-- Applies `f` for each element of a list in turn. -/
def forEach {β : Type} (l : List β) (f : β → State → State) (s : State) : State :=
  l.foldl (fun t x => f x t) s

/-- The next free value (Config) and the state with the counter advanced. -/
def drawNat (s : State) : Nat × State := (Config.freeNat s.fresh, { s with fresh := s.fresh + 1 })

def drawWord (s : State) : Word × State := (Config.freeWord s.fresh, { s with fresh := s.fresh + 1 })

/-- One of the candidates of `l`, where the manual leaves open which. -/
def pick (l : List Nat) (s : State) : Nat × State :=
  let d := drawNat s
  (l.getD (d.1 % l.length) 0, d.2)

/-! ### Clock and reset conditions (R336, R346, Table 12-3) -/

/-- TCLK runs: `PORST_N` is released and no loss has been declared. -/
def State.tclk (s : State) : Bool := !s.clk.porst && !s.flag R.FLT_CLKSTAT F.FLT_CLKSTAT_TCLK

/-- The management plane is out of reset. -/
def State.mgmtUp (s : State) : Bool := !s.clk.mgmtReset

/-- Channel `c` is out of reset. -/
def State.chanUp (s : State) (c : Nat) : Bool := !(s.chanOf c).inReset

/-- Boot has released the courses. -/
def State.released (s : State) : Bool := !s.flag R.FLT_SUM F.FLT_SUM_BOOT

/-- A field of a register loaded from the image, as a block that runs before boot release acts on it: nothing that has been loaded acts
before step 5 (R362). -/
def State.act (s : State) (a : Nat) (f : Fld) : Nat := if s.released then s.fld a f else f.get (regReset a)

def State.acts (s : State) (a : Nat) (f : Fld) : Bool := s.act a f != 0

/-- The link of port die `d` is up at both of its ends (R321). -/
def State.linkUp (s : State) (d : Nat) : Bool :=
  s.flag R.FLT_LINKSTAT (F.FLT_LINKSTAT_UP.bit d) && (s.dieOf d).up

/-- The link of the die that holds port `p` is up (R5). -/
def State.portUp (s : State) (p : Nat) : Bool := s.linkUp (p / 64)

/-! ### Crossings (R342, Table 13-4) -/

/-- An instance of a privileged crossing: a port's trip, its Hard Reset received, its hard-reset request, its context start, a
channel's placement commit, its update activation, a port's events into the timer unit. -/
inductive Cross where
  | trip (p : Nat) | hrRx (p : Nat) | hrTx (p : Nat) | ctx (p : Nat) | commit (c : Nat) | activ (c : Nat) | timer (p : Nat)
deriving DecidableEq, Repr

/-- The number of an instance. -/
def Cross.key : Cross → Nat
  | .trip p => p
  | .hrRx p => 512 + p
  | .hrTx p => 1024 + p
  | .ctx p => 1536 + p
  | .timer p => 2048 + p
  | .commit c => 2560 + c
  | .activ c => 2564 + c

/-- The channel of the instance with number `k`. -/
def crossChan (k : Nat) : Nat := if k < 2560 then k % 512 / 128 else (k - 2560) % 4

/-- The bit of `CRU_XOVR` that a merge sets (Table 13-9). -/
def Cross.flag : Cross → Option Fld
  | .trip p => some ⟨5 * (p / 128), 1⟩
  | .hrRx p | .hrTx p => some ⟨5 * (p / 128) + 1, 1⟩
  | .ctx p => some ⟨5 * (p / 128) + 2, 1⟩
  | .commit c => some ⟨5 * c + 3, 1⟩
  | .activ c => some ⟨5 * c + 4, 1⟩
  | .timer _ => none

/-- An event enters its crossing. Whether it finds the last one of the same microsecond still without acknowledge, and is merged with it,
is a free value; an event of an earlier microsecond has been acknowledged (log 167). -/
def cross (x : Cross) (s : State) : Bool × State :=
  let t := { s with xat := tabSet 0 s.xat x.key (s.clock + 1) }
  if tabGet 0 s.xat x.key = s.clock + 1 then
    let d := drawNat t
    (decide (d.1 % 2 = 1), d.2)
  else (false, t)

/-- A merge sets the overrun flag of the instance. -/
def noteMerge (x : Cross) (s : State) : State :=
  match x.flag with
  | some f => setFld R.CRU_XOVR f 1 s
  | none => s

/-- An event whose state the receiver reads in any case: a merge sets the overrun flag and no more. -/
def xover (x : Cross) (s : State) : State :=
  let r := cross x s
  if r.1 then noteMerge x r.2 else r.2

/-! ### Event bits and alerts (R8, R410, R411) -/

/-- Sets an event bit; a contributing bit that rises from 0 to 1 clears `ARAHELD`. -/
def raiseEn (evt : Nat) (f : Fld) (en : Nat) (enf : Fld) (s : State) : State :=
  if s.flag evt f then s
  else
    let t := setFld evt f 1 s
    if t.flag en enf then setFld R.TWM_STAT F.TWM_STAT_ARAHELD 0 t else t

/-- Sets an event bit whose enable has the same place in the enable register. -/
def raise (evt en : Nat) (f : Fld) (s : State) : State := raiseEn evt f en f s

def raiseAng (f : Fld) (s : State) : State := raise R.ANG_EVT R.ANG_EVTEN f s

/-- A bit of the fault summary (Table 12-10). -/
def raiseSum (f : Fld) (s : State) : State := raise R.FLT_SUM R.FLT_AEN f s

/-- `AMASK` of a port's administration word (Table 16-15). -/
def State.amask (s : State) (p : Nat) : Bool := (s.recOf p 13).getLsbD 0

/-- An event bit of a port's register; a masked port does not contribute to `ALERT_N`. -/
def raisePrt (evt en : Nat) (p : Nat) (f : Fld) (s : State) : State :=
  if s.amask p then (if s.flag evt f then s else setFld evt f 1 s) else raise evt en f s

/-- A bit of `PRT_PDEVT`. -/
def raisePd (p : Nat) (f : Fld) (s : State) : State := raisePrt (R.PRT_PDEVT p) (R.PRT_PDEVTEN p) p f s

/-! ### The event log (R27, R28, R328, R351) -/

def Log.lostOf (l : Log) : Plane → Nat
  | .control => l.lostC
  | .data => l.lostD
  | .management => l.lostM

def Log.setLost (l : Log) : Plane → Nat → Log
  | .control, n => { l with lostC := n }
  | .data, n => { l with lostD := n }
  | .management, n => { l with lostM := n }

/-- A dropped record: the posting plane's lost count rises, saturating at 255, and `LOGLOST` is set. -/
def dropRec (pl : Plane) (s : State) : State :=
  raiseSum F.FLT_SUM_LOGLOST { s with log := s.log.setLost pl (min 255 (s.log.lostOf pl + 1)) }

/-- The staging buffer takes a record: it carries and clears the plane's lost count and takes the next `SEQ`. -/
def acceptRec (r : LogRec) (s : State) : State :=
  let r' := { r with lost := s.log.lostOf r.plane, seq := s.log.seq }
  { s with log := { (s.log.setLost r.plane 0) with staged := s.log.staged ++ [r'], seq := s.log.seq + 1 } }

/-- Records of one plane that its posting port holds. -/
def Log.heldOf (l : Log) (pl : Plane) : Nat := (l.held.filter fun r => r.plane = pl).length

/-- Offers a record to the staging buffer: dropped while the management plane is in reset or the buffer full. -/
def stageRec (r : LogRec) (s : State) : State :=
  if s.clk.mgmtReset || 128 ≤ s.log.staged.length then dropRec r.plane s else acceptRec r s

/-- A plane posts a record, stamped at this instant. A quiet management plane leaves it in the posting port (R351). -/
def postRec (r : LogRec) (s : State) : State :=
  let r' := { r with usec := s.tb.usec, cyc := s.tb.cyc, angle := s.tb.angle }
  if s.clk.quiet && !s.clk.mgmtReset then
    if s.log.heldOf r.plane < 32 then { s with log := { s.log with held := s.log.held ++ [r'] } }
    else dropRec r.plane s
  else stageRec r' s

/-- A record of class `cls` of Table 12-7 and its continuations. -/
def post (pl : Plane) (cls src : Nat) (d0 : Word) (d1 : Nat) (s : State) : State :=
  postRec { plane := pl, cls := cls, lost := 0, src := src, seq := 0, usec := 0, cyc := 0, angle := 0, data0 := d0,
            data1 := BitVec.ofNat 16 d1 } s

/-- The order in which the staging buffer accepts what the three posting ports hold: while they request together, one record of
each in the order control, data, management (R27). -/
def arbitrate (l : List LogRec) : List LogRec :=
  let of (pl : Plane) : List LogRec := l.filter fun r => r.plane = pl
  (List.range l.length).flatMap fun i => [(of .control)[i]?, (of .data)[i]?, (of .management)[i]?].reduceOption

/-- A wake source (numbered from 1 in R350): MCLK runs again, and the posting ports deliver what they hold (R351). -/
def wakeUp (src : Nat) (s : State) : State :=
  if s.clk.quiet then
    let l := arbitrate s.log.held
    let s1 := setFld R.CRU_QSTAT F.CRU_QSTAT_LASTWAKE src
      { s with clk := { s.clk with quiet := false, idleAt := s.tb.usec }, log := { s.log with held := [] } }
    forEach l stageRec s1
  else s

/-- A transaction reaches the management plane, which is busy with it: a quiet plane wakes (R349, R350, R417); one in reset or without
MCLK holds the interface in reset (Table 16-8). -/
def twmCmd (f : State → State) (s : State) : State :=
  if s.mgmtUp then
    let t := wakeUp 1 s
    f { t with clk := { t.clk with idleAt := t.tb.usec } }
  else s

/-! ### Accesses into a domain (R345-R348) -/

/-- A management-plane access fails (Table 13-10): cause 1 PEER, 2 REFUSED, 3 HANG. -/
def maErr (cause : Nat) (a : Word) (s : State) : State :=
  let s1 := incFld R.CRU_MAERR F.CRU_MAERR_COUNT (setFld R.CRU_MAERR F.CRU_MAERR_CAUSE cause s)
  setReg R.CRU_MAADDR a (setFld R.CRU_MAERR F.CRU_MAERR_ERR 1 s1)

/-- An address in the TCLK domain: the timebase, the timer unit, feeders and placement, the hub units and harvest. -/
def tclkAddr (a : Nat) : Bool := (0x1000 ≤ a && a < 0x4000) || (0x4400 ≤ a && a < 0x5000)

/-- The channel in whose reset domain an address lies (Table 19-1), or, for `TWM_PADMIN`, the word behind it. -/
def State.chanAddr (s : State) (a : Nat) : Option Nat :=
  if 0x10000 ≤ a && a < 0x20000 then some ((a - 0x10000) / 0x4000)
  else if 0x100000 ≤ a && a < 0x120000 then some ((a - 0x100000) / 0x8000)
  else if a = R.TWM_PADMIN then some (s.fld R.TWM_PASEL F.TWM_PASEL_PORT / 128)
  else none

/-- The cause with which an access to an implemented address fails, if it does: 1 PEER, 2 REFUSED. -/
def State.accessCause (s : State) (a : Nat) : Option Nat :=
  match s.chanAddr a with
  | some c => if s.chanUp c then none else some 1
  | none => if tclkAddr a && !s.tclk then some 2 else none

/-- An access of the course hangs (R345). -/
def hang (c : Nat) (s : State) : State := updCrs c (fun x => { x with hung := true }) s

/-- A write as a command of its own, to the register at address `a`: the host's fails where the domain cannot be reached (R346,
R348); a course's, in its own channel or in the TCLK domain, hangs on the stopped clock. -/
def access (who : Who) (a : Nat) (act : State → State) (s : State) : State :=
  match who with
  | .host =>
    twmCmd (fun t => match t.accessCause a with
      | some k => maErr k (BitVec.ofNat 32 a) t
      | none => act t) s
  | .course c =>
    if !s.chanUp c then s
    else if tclkAddr a && !s.tclk then hang c s
    else act s

/-- The halfwords 0-14 of a record, low halfword of each word first. -/
def LogRec.halves (r : LogRec) : List Nat :=
  let w0 := r.src + 65536 * (r.lost % 256) + 2 ^ 24 * (r.cls % 64) +
    2 ^ 30 * (match r.plane with | .control => 0 | .data => 1 | .management => 2)
  let w (n : Nat) : List Nat := [n % 65536, n / 65536 % 65536]
  w w0 ++ w r.seq.toNat ++ w (r.usec.toNat % 2 ^ 32) ++ w (r.usec.toNat / 2 ^ 32) ++ w (r.cyc.toNat % 2 ^ 32) ++
    [r.angle.toNat, r.cyc.toNat / 2 ^ 32] ++ w r.data0.toNat

/-- Ones'-complement sum of halfwords. -/
def onesSum (l : List Nat) : Nat := l.foldl (fun a h => if a + h < 65536 then a + h else a + h - 65535) 0

/-- `CHK` (Table 12-6): halfwords 0-13 and `DATA1` are the other fifteen. -/
def LogRec.chk (r : LogRec) : Nat := 65535 - onesSum (r.halves ++ [r.data1.toNat])

/-- Word `w` of a record as `FLT_LOGDATA_w` presents it. -/
def LogRec.word (r : LogRec) (w : Nat) : Word :=
  let l := r.halves ++ [r.chk, r.data1.toNat]
  BitVec.ofNat 32 (l.getD (2 * w) 0 + 65536 * l.getD (2 * w + 1) 0)

/-! ### Ports: die, mirror, settings, priority (R5, R35, R139) -/

/-- Changes a port in its port die; with its link up the hub's mirror follows (R139). -/
def updPort (p : Nat) (f : Port → Port) (s : State) : State :=
  let v := f (s.portOf p)
  let t := { s with port := tabSet Port.init s.port p v }
  if s.portUp p then { t with mir := tabSet Port.init t.mir p v } else t

/-- Changes the hub's mirror of a port alone. -/
def updMir (p : Nat) (f : Port → Port) (s : State) : State := { s with mir := tabSet Port.init s.mir p (f (s.mirOf p)) }

/-- An event of `PRT_EVT`: it reaches the hub, or waits in the port die while the link is down. -/
def portEvt (p : Nat) (f : Fld) (s : State) : State :=
  if s.portUp p then raisePrt (R.PRT_EVT p) (R.PRT_EVTEN p) p f s
  else updPort p (fun x => { x with evt := x.evt ||| BitVec.ofNat 15 (2 ^ f.lo) }) s

/-- A setting or image-loaded register of a port as its port die holds it. -/
def State.dreg (s : State) (a : Nat) : Word := tabGet (regReset a) s.dieRegs a

def State.dfld (s : State) (a : Nat) (f : Fld) : Nat := f.get (s.dreg a)

/-- A write to a port setting updates the hub's mirror and, with the link up, the port die (R139). -/
def writePortReg (p a : Nat) (v : Word) (s : State) : State :=
  let t := setReg a v s
  if s.portUp p then { t with dieRegs := tabSet (regReset a) t.dieRegs a v } else t

/-- A register of ADC unit `u` at address `a` changes on its die; the hub's copy follows while the link is up, and that of
a hub unit at once (R269). -/
def setUnit (u a : Nat) (v : Word) (s : State) : State :=
  let t := { s with dieRegs := tabSet (regReset a) s.dieRegs a v }
  if 32 ≤ u || s.linkUp (u / 4) then setReg a v t else t

/-- A register of ADC unit `u` is written from the hub: the hub's copy, and the unit's own while it can be reached. Calibration factors
written while the link is down go to the die at its return (R139, R269). -/
def writeUnit (u a : Nat) (v : Word) (s : State) : State :=
  let t := setReg a v s
  if (if 32 ≤ u then s.tclk else s.linkUp (u / 4)) then { t with dieRegs := tabSet (regReset a) t.dieRegs a v }
  else updAdc u (fun x => { x with calDirty := x.calDirty || a = R.ADC_CAL u }) t

def setUnitFld (u a : Nat) (f : Fld) (v : Nat) (s : State) : State := setUnit u a (f.put (s.dreg a) v) s

/-- A saved setting write: the management plane's is kept for the settings record, sets `DIRTY` and restarts the delay, also while a
record is on its way (R374, R377, R381). -/
def saveSetting (host : Bool) (a : Nat) (v : Word) (s : State) : State :=
  if host then
    setFld R.BOOT_SETSTAT F.BOOT_SETSTAT_DIRTY 1
      { s with saved := tabSet none s.saved a (some v)
               boot := { s.boot with dirtyAt := s.clock, wb := s.boot.wb.map fun r => { r with again := true } } }
  else s

/-- The port classes (Table 04-9): 0 OFF, 1 TC, 2 HV. -/
def State.cls (s : State) (p : Nat) : Nat := s.fld (R.PRT_CFG p) F.PRT_CFG_CLASS

/-- A value outside a setting's range acts as the nearer limit (R140). -/
def clampTo (lo hi v : Nat) : Nat := max lo (min hi v)

/-- The own priority of a port: the administration override, or `PRIO` (R35, R413). -/
def State.ownPrio (s : State) (p : Nat) : Nat :=
  let a := s.recOf p 13
  if a.getLsbD 11 then (a.extractLsb' 8 3).toNat else s.fld (R.PRT_PDCFG p) F.PRT_PDCFG_PRIO

/-- The lowest priority of the groups above `g`, other than group 0, up to `fuel` levels. -/
def State.groupPrio (s : State) : Nat → Nat → Nat
  | 0, _ => 7
  | fuel + 1, g =>
    if g = 0 then 7
    else min (s.fld (R.PLC_GRP g) F.PLC_GRP_GPRIO) (s.groupPrio fuel (s.fld (R.PLC_GRP g) F.PLC_GRP_PARENT))

/-- The priority in force of a port (R35). -/
def State.pif (s : State) (p : Nat) : Nat :=
  if s.ownPrio p = 7 then 7 else min (s.ownPrio p) (s.groupPrio 256 (s.fld (R.PRT_PDCFG p) F.PRT_PDCFG_GROUP))

/-- Powered, in the sense of Table 04-3: INRUSH powering, SAFE5V, CONTRACT, TRANSITION or LIMIT. -/
def Port.powered (x : Port) : Bool :=
  match x.state with
  | .inrush => !x.armed
  | .safe5v | .contract | .transition | .limit => true
  | _ => false

/-- A power-down is in progress: TRANSITION with `VTGT` = 0 (R137). -/
def Port.goingDown (x : Port) : Bool := x.state = .transition && x.vtgt = 0

/-- The code of a state (Table 04-11). -/
def PState.code : PState → Nat
  | .off => 0 | .idle => 1 | .debounce => 2 | .inrush => 3 | .safe5v => 4 | .contract => 5
  | .transition => 6 | .limit => 7 | .tripped => 8 | .retryWait => 9 | .lockout => 10

def TripCause.code : TripCause → Nat
  | .none => 0 | .fast => 1 | .ftimer => 2 | .inrushTo => 3 | .dischFail => 4

/-- The lamp code of a port (Table 04-7). -/
def Port.lamp (x : Port) : Nat :=
  match x.state with
  | .lockout => 3
  | .tripped | .retryWait | .limit => 2
  | .off | .idle | .debounce => 0
  | .inrush => if x.armed then 0 else if x.pgood then 1 else 2
  | .safe5v | .contract | .transition => if x.pgood then 1 else 2

/-! ### The placement table (R23-R25) -/

def State.bankOf (s : State) (b : Bool) : Bank := if b then s.bankB else s.bankA

/-- The entry of port `p` in the active bank. -/
def State.entOf (s : State) (p : Nat) : Word := tabGet 0 (s.bankOf s.active).ent p

/-- The entry of port `p` as its channel sees it. -/
def State.chEnt (s : State) (p : Nat) : Word := tabGet 0 (s.bankOf (s.chanOf (p / 128)).bank).ent p

/-- A feeder row of the active bank. -/
def State.fdrRow (s : State) (f : Nat) : FdrRow := tabGet FdrRow.init (s.bankOf s.active).fdr f

/-- The leg code of a placement entry. -/
def Leg.ofCode : Nat → Leg
  | 1 => .a | 2 => .b | 3 => .ab | _ => .none

def Leg.code : Leg → Nat
  | .none => 0 | .a => 1 | .b => 2 | .ab => 3

/-- The leg and the granted ceiling (100 mW) of port `p` in its channel's bank. -/
def State.chLeg (s : State) (p : Nat) : Leg := Leg.ofCode (F.PLC_ENT_LEG.get (s.chEnt p))

def State.chCeil (s : State) (p : Nat) : Nat := F.PLC_ENT_CEIL.get (s.chEnt p)

/-- The feeder that a leg code bit names: leg A is `FEED_A`, leg B `FEED_B`; 15 means none (R174). -/
def State.feedA (s : State) (p : Nat) : Nat := s.fld (R.PRT_CFG p) F.PRT_CFG_FEED_A

def State.feedB (s : State) (p : Nat) : Nat := s.fld (R.PRT_CFG p) F.PRT_CFG_FEED_B

/-! ### Time -/

/-- The idle step: on an empty queue 1 µs passes, and USEC counts it while TCLK runs (R71). -/
def idle (s : State) : State :=
  let t := { s with clock := s.clock + 1 }
  if t.tclk then { t with tb := { t.tb with usec := t.tb.usec + 1 } } else t

/-- At least `n` microseconds have passed since `t` on the device's clock. -/
def State.past (s : State) (t n : Nat) : Bool := t + n ≤ s.clock

/-- The least time in µs at which a timer of a port die that counts `n` µs can end: its oscillator runs within ±1 % (R117). -/
def atLeast (n : Nat) : Nat := n * 99 / 100

/-- Microseconds of USEC since `t`. -/
def State.since (s : State) (t : BitVec 64) : Nat := (s.tb.usec - t).toNat

end Sys2Proof.Machine
end

