-- ==== Sys2Proof/Machine/Mem.lean ====
section
/-! DEFINITION. The memories of Table 12-2: bytes, words in little-endian order, and poison (R316). -/
namespace Sys2Proof.Machine

/-- The place of a byte of a memory. -/
def memKey (id off : Nat) : Nat := id * 2 ^ 20 + off

def State.byteAt (s : State) (id off : Nat) : Byte := tabGet 0 s.mem (memKey id off)

def setByte (id off : Nat) (b : Byte) (s : State) : State := { s with mem := tabSet 0 s.mem (memKey id off) b }

/-- The canonical form of a memory list: addresses strictly rising, no entry at the value an unlisted byte reads as. -/
abbrev Memory.wf (m : List Host.Cell) : Prop := tabWf (fun _ => (0 : Byte)) m

/-- The little-endian value of bytes. -/
def leNat : List Byte → Nat
  | [] => 0
  | b :: l => b.toNat + 256 * leNat l

/-- The `n` bytes of a value, lowest first. -/
def natLe : Nat → Nat → List Byte
  | 0, _ => []
  | n + 1, v => BitVec.ofNat 8 v :: natLe n (v / 256)

/-- `n` bytes from an offset. -/
def State.bytesAt (s : State) (id off n : Nat) : List Byte := (List.range n).map fun i => s.byteAt id (off + i)

/-- The little-endian value of `n` bytes. -/
def State.leAt (s : State) (id off n : Nat) : Nat := leNat (s.bytesAt id off n)

/-- Writes bytes in rising address order. -/
def setBytes (id : Nat) : Nat → List Byte → State → State
  | _, [], s => s
  | off, b :: l, s => setBytes id (off + 1) l (setByte id off b s)

/-- Every byte of a range back to 0. -/
def clearMem (id off n : Nat) (s : State) : State :=
  { s with mem := tabDrop (fun k => memKey id off <= k && k < memKey id (off + n)) s.mem }

/-! ### The memory code (R314-R316) -/

/-- The word that holds an offset, beside its data. -/
def State.wordErr (s : State) (id off : Nat) : WordErr := tabGet WordErr.init s.ecc (memKey id (off / 8))

def setWordErr (id off : Nat) (e : WordErr) (s : State) : State :=
  { s with ecc := tabSet WordErr.init s.ecc (memKey id (off / 8)) e }

/-- The 80 bits that a memory stores for a word of `mem`: its data and the check bits over them and its address, as an upset has
left them (R314). -/
def State.storedWord (s : State) (id off : Nat) : BitVec 80 :=
  let d := BitVec.ofNat 64 (s.leAt id (off / 8 * 8) 8)
  (Config.checkBits d (off / 8) ++ d) ^^^ (s.wordErr id off).flips.truncate 80

/-- What the decode of a word finds. -/
inductive Ecc where
  | clean | corrected | uncorrectable
deriving DecidableEq, Repr

/-- How many bits are flipped. -/
def flipCount (f : BitVec 100) : Nat := (List.range 100).countP fun i => f.getLsbD i

/-- The decode of a word (R315): the poison check pattern, a pattern in an address position and any three-bit pattern are
uncorrectable. -/
def WordErr.decode (e : WordErr) : Ecc :=
  if e.poison then .uncorrectable
  else if e.flips = 0 then .clean
  else if e.flips.extractLsb' 80 20 ≠ 0 then .uncorrectable
  else match flipCount e.flips with
    | 1 | 2 => .corrected
    | 3 => .uncorrectable
    | _ => match Config.manyErrors e.flips % 3 with
      | 0 => .clean
      | 1 => .corrected
      | _ => .uncorrectable

/-- The word that holds an offset holds the poison check pattern. -/
def State.poisoned (s : State) (id off : Nat) : Bool := (s.wordErr id off).poison

/-- Words of a range of offsets are written whole: poison and errors are gone (R316). -/
def wordsWritten (id off n : Nat) (s : State) : State :=
  { s with ecc := tabDrop (fun k => memKey id (off / 8) <= k && k < memKey id ((off + n + 7) / 8)) s.ecc }

/-- The channel of a channel's memory (Table 12-2). -/
def memChan (id : Nat) : Nat := id % 16

/-- The plane that posts a memory's records: the data plane for a channel's memories, the control plane for the tables of the
TCLK domain, the management plane for its own and for an error in a context and queue store (R317). -/
def memPlane (id : Nat) : Plane := if id < 0x40 then .data else if id < 0x50 || 0x52 ≤ id then .management else .control

/-- A word is first found uncorrectable, by the scrubber or by a read (R316, R317): poison, count, last-found registers,
record. -/
def foundUe (id off : Nat) (scrub : Bool) (s : State) : State :=
  if s.poisoned id off then s
  else
    let a := off / 8 * 8
    let s1 := incFld R.FLT_ECCCNT F.FLT_ECCCNT_UE (setWordErr id off ⟨true, 0⟩ s)
    let s2 := setReg R.FLT_ECCUADDR (BitVec.ofNat 32 a)
      (setReg R.FLT_ECCUE (BitVec.ofNat 32 (id * 2 ^ 24 + scrub.toNat * 2 ^ 23)) s1)
    post (memPlane id) 0x15 id (BitVec.ofNat 32 a) (if scrub then 2 else 1) (raiseSum F.FLT_SUM_ECC_UE s2)

/-- A corrected error: counted, and recorded at most once per memory per second of USEC (R315, R330). -/
def foundCe (id off : Nat) (s : State) : State :=
  let s1 := raiseSum F.FLT_SUM_ECC_CE (incFld R.FLT_ECCCNT F.FLT_ECCCNT_CE s)
  let second := s1.tb.usec.toNat / 1000000 + 1
  if tabGet 0 s1.ceSecond id = second then s1
  else
    post (memPlane id) 0x14 id (BitVec.ofNat 32 (off / 8 * 8)) 0 { s1 with ceSecond := tabSet 0 s1.ceSecond id second }

/-- The word is written back as the decoder has it: the good data for one or two errors; beyond three, what it makes of them. -/
def writeBack (id off : Nat) (s : State) : State :=
  let f := (s.wordErr id off).flips
  let t := setWordErr id off WordErr.init s
  if flipCount f ≤ 2 then t
  else setBytes id (off / 8 * 8) (natLe 8 (s.leAt id (off / 8 * 8) 8 ^^^ (Config.manyData f).toNat)) t

/-- A word is read and decoded (R315-R317), by its user or by the scrubber: one that is correctable is corrected, written back and
counted, one that is not is poisoned, counted and logged when first found. -/
def decodeWord (id off : Nat) (scrub : Bool) (s : State) : State :=
  let e := s.wordErr id off
  if e = WordErr.init then s
  else match e.decode with
    | .clean => writeBack id off s
    | .corrected => foundCe id off (writeBack id off s)
    | .uncorrectable => foundUe id off scrub s

/-- A user reads the words that hold these places. -/
def seen (l : List (Nat × Nat)) (s : State) : State := forEach l (fun x => decodeWord x.1 x.2 false) s

/-- A user reads every word of a range. -/
def seenRange (id off n : Nat) (s : State) : State :=
  forEach ((s.ecc.map (·.1)).filter fun k => decide (memKey id (off / 8) ≤ k ∧ k < memKey id ((off + n + 7) / 8)))
    (fun k => decodeWord id ((k - memKey id 0) * 8) false) s

/-- One of these places is poisoned. -/
def State.anyPoison (s : State) (l : List (Nat × Nat)) : Bool := l.any fun x => s.poisoned x.1 x.2

end Sys2Proof.Machine
end

