-- ==== Sys2Proof/Machine/Digest.lean ====
section
/-! DEFINITION. The check values that images, headers and seals carry: the CRC-32 of IEEE 802.3 (R357, R375, R424), the CRC-16
of R384, SHA-384 (R358) and ECDSA over P-384 (R358, R363). The hash and the curve are those of FIPS 180 and FIPS 186, which the
manual names and does not restate. -/
namespace Sys2Proof.Machine

/-! ### Cyclic redundancy checks -/

/-- One bit of a reflected CRC-32. -/
def crc32Bit (c : Word) : Word := if c.getLsbD 0 then (c >>> 1) ^^^ 0xEDB88320 else c >>> 1

/-- Applies `f` `n` times. -/
def times {α : Type} (f : α → α) : Nat → α → α
  | 0, x => x
  | n + 1, x => times f n (f x)

/-- The CRC-32 of bytes: reflected, initial value all ones, final complement. -/
def crc32 (l : List Byte) : Word :=
  ~~~(l.foldl (fun c b => times crc32Bit 8 (c ^^^ BitVec.ofNat 32 b.toNat)) 0xFFFFFFFF)

/-- One bit of the CRC-16 of polynomial 0x1021. -/
def crc16Bit (c : BitVec 16) : BitVec 16 := if c.getLsbD 15 then (c <<< 1) ^^^ 0x1021 else c <<< 1

/-- The CRC-16 of bytes: initial value 0xFFFF, no reflection, no final XOR. -/
def crc16 (l : List Byte) : BitVec 16 :=
  l.foldl (fun c b => times crc16Bit 8 (c ^^^ BitVec.ofNat 16 (b.toNat * 256))) 0xFFFF

/-! ### SHA-384 -/

def shaK0 : List (BitVec 64) :=
  [0x428A2F98D728AE22, 0x7137449123EF65CD, 0xB5C0FBCFEC4D3B2F, 0xE9B5DBA58189DBBC,
   0x3956C25BF348B538, 0x59F111F1B605D019, 0x923F82A4AF194F9B, 0xAB1C5ED5DA6D8118,
   0xD807AA98A3030242, 0x12835B0145706FBE, 0x243185BE4EE4B28C, 0x550C7DC3D5FFB4E2,
   0x72BE5D74F27B896F, 0x80DEB1FE3B1696B1, 0x9BDC06A725C71235, 0xC19BF174CF692694,
   0xE49B69C19EF14AD2, 0xEFBE4786384F25E3, 0x0FC19DC68B8CD5B5, 0x240CA1CC77AC9C65]

def shaK1 : List (BitVec 64) :=
  [0x2DE92C6F592B0275, 0x4A7484AA6EA6E483, 0x5CB0A9DCBD41FBD4, 0x76F988DA831153B5,
   0x983E5152EE66DFAB, 0xA831C66D2DB43210, 0xB00327C898FB213F, 0xBF597FC7BEEF0EE4,
   0xC6E00BF33DA88FC2, 0xD5A79147930AA725, 0x06CA6351E003826F, 0x142929670A0E6E70,
   0x27B70A8546D22FFC, 0x2E1B21385C26C926, 0x4D2C6DFC5AC42AED, 0x53380D139D95B3DF,
   0x650A73548BAF63DE, 0x766A0ABB3C77B2A8, 0x81C2C92E47EDAEE6, 0x92722C851482353B]

def shaK2 : List (BitVec 64) :=
  [0xA2BFE8A14CF10364, 0xA81A664BBC423001, 0xC24B8B70D0F89791, 0xC76C51A30654BE30,
   0xD192E819D6EF5218, 0xD69906245565A910, 0xF40E35855771202A, 0x106AA07032BBD1B8,
   0x19A4C116B8D2D0C8, 0x1E376C085141AB53, 0x2748774CDF8EEB99, 0x34B0BCB5E19B48A8,
   0x391C0CB3C5C95A63, 0x4ED8AA4AE3418ACB, 0x5B9CCA4F7763E373, 0x682E6FF3D6B2B8A3,
   0x748F82EE5DEFB2FC, 0x78A5636F43172F60, 0x84C87814A1F0AB72, 0x8CC702081A6439EC]

def shaK3 : List (BitVec 64) :=
  [0x90BEFFFA23631E28, 0xA4506CEBDE82BDE9, 0xBEF9A3F7B2C67915, 0xC67178F2E372532B,
   0xCA273ECEEA26619C, 0xD186B8C721C0C207, 0xEADA7DD6CDE0EB1E, 0xF57D4F7FEE6ED178,
   0x06F067AA72176FBA, 0x0A637DC5A2C898A6, 0x113F9804BEF90DAE, 0x1B710B35131C471B,
   0x28DB77F523047D84, 0x32CAAB7B40C72493, 0x3C9EBE0A15C9BEBC, 0x431D67C49C100D4C,
   0x4CC5D4BECB3E42B6, 0x597F299CFC657E2A, 0x5FCB6FAB3AD6FAEC, 0x6C44198C4A475817]

/-- The round constants. -/
def shaK : List (BitVec 64) := shaK0 ++ shaK1 ++ shaK2 ++ shaK3

/-- The initial hash value. -/
def shaInit : List (BitVec 64) :=
  [0xCBBB9D5DC1059ED8, 0x629A292A367CD507, 0x9159015A3070DD17, 0x152FECD8F70E5939,
   0x67332667FFC00B31, 0x8EB44A8768581511, 0xDB0C2E0D64F98FA7, 0x47B5481DBEFA4FA4]

/-- The big-endian value of bytes. -/
def beNat (l : List Byte) : Nat := l.foldl (fun a b => 256 * a + b.toNat) 0

/-- The `n` bytes of a value, highest first. -/
def natBe (n v : Nat) : List Byte := (natLe n v).reverse

def shaSig (a b c : Nat) (x : BitVec 64) : BitVec 64 := x.rotateRight a ^^^ x.rotateRight b ^^^ (x >>> c)

def shaSum (a b c : Nat) (x : BitVec 64) : BitVec 64 := x.rotateRight a ^^^ x.rotateRight b ^^^ x.rotateRight c

/-- The message schedule, latest word first. -/
def shaExtend : Nat → List (BitVec 64) → List (BitVec 64)
  | 0, l => l
  | n + 1, l =>
    shaExtend n ((shaSig 19 61 6 (l.getD 1 0) + l.getD 6 0 + shaSig 1 8 7 (l.getD 14 0) + l.getD 15 0) :: l)

/-- One round over the eight working variables. -/
def shaRound (v : List (BitVec 64)) (kw : BitVec 64) : List (BitVec 64) :=
  match v with
  | [a, b, c, d, e, f, g, h] =>
    let t1 := h + shaSum 14 18 41 e + ((e &&& f) ^^^ (~~~e &&& g)) + kw
    let t2 := shaSum 28 34 39 a + ((a &&& b) ^^^ (a &&& c) ^^^ (b &&& c))
    [t1 + t2, a, b, c, d + t1, e, f, g]
  | _ => v

/-- The words of a block. -/
def shaWords (l : List Byte) : List (BitVec 64) :=
  (List.range 16).map fun i => BitVec.ofNat 64 (beNat ((l.drop (8 * i)).take 8))

/-- The hash value after one 128-byte block. -/
def shaBlock (h : List (BitVec 64)) (l : List Byte) : List (BitVec 64) :=
  let w := (shaExtend 64 (shaWords l).reverse).reverse
  let v := (List.zipWith (· + ·) shaK w).foldl shaRound h
  List.zipWith (· + ·) h v

/-- The hash value after `n` blocks of `l`. -/
def shaBlocks : Nat → List (BitVec 64) → List Byte → List (BitVec 64)
  | 0, h, _ => h
  | n + 1, h, l => shaBlocks n (shaBlock h (l.take 128)) (l.drop 128)

/-- The message with its padding. -/
def shaPad (l : List Byte) : List Byte :=
  l ++ 0x80 :: List.replicate ((239 - l.length % 128) % 128) 0 ++ natBe 16 (8 * l.length)

/-- SHA-384 of bytes: 48 bytes. -/
def sha384 (l : List Byte) : List Byte :=
  let m := shaPad l
  ((shaBlocks (m.length / 128) shaInit m).take 6).flatMap fun x => natBe 8 x.toNat

/-! ### ECDSA over P-384 -/

def ecP : Nat := 2 ^ 384 - 2 ^ 128 - 2 ^ 96 + 2 ^ 32 - 1

def ecN : Nat := 0xFFFFFFFFFFFFFFFFFFFFFFFFFFFFFFFFFFFFFFFFFFFFFFFFC7634D81F4372DDF581A0DB248B0A77AECEC196ACCC52973

def ecB : Nat := 0xB3312FA7E23EE7E4988E056BE3F82D19181D9C6EFE8141120314088F5013875AC656398D8A2ED19D2A85C8EDD3EC2AEF

def ecG : Nat × Nat :=
  (0xAA87CA22BE8B05378EB1C71EF320AD746E1D3B628BA79B9859F741E082542A385502F25DBF55296C3A545E3872760AB7,
   0x3617DE4A96262C6F5D9E98BF9292DC29F8F41DBD289A147CE9DA3113B5F0B8C00A60B1CE1D7E819D7A431D7C90EA0E5F)

/-- The bits of a 384-bit value, highest first. -/
def bits384 (v : Nat) : List Bool := (List.range 384).map fun i => v.testBit (383 - i)

/-- `a - b` modulo `m`. -/
def subMod (m a b : Nat) : Nat := (a + (m - b % m)) % m

/-- Euclid's algorithm on `a` and `b`, with the multiples of the value sought that they are. -/
def invGo (m : Nat) : Nat → Nat → Nat → Nat → Nat → Nat
  | 0, _, _, u, _ => u
  | n + 1, a, b, u, v => if b = 0 then u else invGo m n b (a % b) v (subMod m u (a / b * v))

/-- The inverse modulo a prime of at most 384 bits. -/
def invMod (m a : Nat) : Nat := invGo m 600 a m 1 0

/-- The sum of two points; `none` is the point at infinity. -/
def ecAdd : Option (Nat × Nat) → Option (Nat × Nat) → Option (Nat × Nat)
  | none, q => q
  | p, none => p
  | some (x1, y1), some (x2, y2) =>
    if x1 = x2 && (y1 + y2) % ecP = 0 then none
    else
      let k := if x1 = x2 then subMod ecP (3 * x1 * x1) 3 * invMod ecP (2 * y1 % ecP) % ecP
        else subMod ecP y2 y1 * invMod ecP (subMod ecP x2 x1) % ecP
      let x := subMod ecP (subMod ecP (k * k) x1) x2
      some (x, subMod ecP (k * subMod ecP x1 x) y1)

/-- A multiple of a point. -/
def ecMul (k : Nat) (p : Nat × Nat) : Option (Nat × Nat) :=
  (bits384 k).foldl (fun a t => if t then ecAdd (ecAdd a a) (some p) else ecAdd a a) none

/-- Whether `sig` (r then s) is a signature of `msg` under the uncompressed public key `key`. -/
def ecdsaOk (key msg sig : List Byte) : Bool :=
  let x := beNat ((key.drop 1).take 48)
  let y := beNat ((key.drop 49).take 48)
  let r := beNat (sig.take 48)
  let s := beNat ((sig.drop 48).take 48)
  let good := key.length = 97 && key.getD 0 0 = 4 && x < ecP && y < ecP &&
    y * y % ecP = (x * x * x + subMod ecP ecB (3 * x)) % ecP && 0 < r && r < ecN && 0 < s && s < ecN
  let w := invMod ecN s
  match ecAdd (ecMul (beNat (sha384 msg) * w % ecN) ecG) (ecMul (r * w % ecN) (x, y)) with
  | some q => good && q.1 % ecN = r
  | none => false

end Sys2Proof.Machine
end

