-- ==== Sys2Proof/Machine/Timebase.lean ====
section
/-! DEFINITION. The mains angle timebase (chapter 02): its states, its checks at a wrap, the cross-check, snapshots. -/
namespace Sys2Proof.Machine

def AngState.code : AngState → Nat
  | .acquire => 0 | .locked => 1 | .holdover => 2 | .island => 3 | .ret => 4

def setTb (f : Timebase → Timebase) (s : State) : State := { s with tb := f s.tb }

/-- A timebase event sets its bit and posts a record that carries the state in force (R54, Table 12-7 class 0x08). -/
def angEvt (f : Fld) (s : State) : State :=
  post .control 0x08 f.lo (s.reg R.ANG_FREQ) s.tb.st.code (raiseAng f s)

/-- The output frequency in mHz and the cycle length in units of 10 ns (Table 02-13). -/
def setFreq (f : Nat) (s : State) : State :=
  setFld R.ANG_PERIOD F.ANG_PERIOD_PERIOD (100000000000 / f) (setFld R.ANG_FREQ F.ANG_FREQ_FREQ f s)

def State.islf (s : State) : Nat := s.act R.ANG_HOLDISL F.ANG_HOLDISL_ISLF

def State.blkEn (s : State) : Bool := s.acts R.ANG_CFG F.ANG_CFG_BLK_EN

/-- `BLACKOUT_N` asserted at its filter with `BLK_EN` = 1. -/
def State.blkOn (s : State) : Bool := s.flag R.ANG_STATUS F.ANG_STATUS_BLK && s.blkEn

/-- The output frequency of ISLAND: it moves to `ISLF` at 5 Hz/s from its value at entry (R57). -/
def State.rampFreq (s : State) : Nat :=
  let d := 5 * s.since s.tb.rampStart / 1000
  if s.tb.rampFrom ≤ s.islf then min s.islf (s.tb.rampFrom + d) else max s.islf (s.tb.rampFrom - d)

/-- The ramp starts over from the frequency it has reached: `ISLF` changes (R57). -/
def rampAgain (s : State) : State := setTb (fun t => { t with rampFrom := s.rampFreq, rampStart := t.usec }) s

/-- ISLAND is entered (Table 02-3). -/
def enterIsland (s : State) : State :=
  angEvt F.ANG_EVT_ISLAND
    (setTb (fun t => { t with
        st := .island, rampFrom := s.fld R.ANG_FREQ F.ANG_FREQ_FREQ, rampStart := t.usec, dipping := false }) s)

/-- LOCKED or RETURN is left: HOLDOVER with the hold time started, or ISLAND at once with `HOLD_MS` = 0 (R52, R56). -/
def enterHoldover (s : State) : State :=
  if s.act R.ANG_HOLDISL F.ANG_HOLDISL_HOLD_MS = 0 then
    angEvt F.ANG_EVT_ISLAND (angEvt F.ANG_EVT_HOLD (angEvt F.ANG_EVT_UNLOCK
      (setTb (fun t => { t with
        st := .island, rampFrom := s.fld R.ANG_FREQ F.ANG_FREQ_FREQ, rampStart := t.usec, dipping := false }) s)))
  else
    angEvt F.ANG_EVT_HOLD (angEvt F.ANG_EVT_UNLOCK
      (setTb (fun t => { t with st := .holdover, holdStart := t.usec, dipping := false }) s))

/-- LOCKED is entered: the cross-check starts over (R74). -/
def enterLocked (s : State) : State :=
  setTb (fun t => { t with st := .locked, xSeen := false, xWraps := 0, xMiss := 0, dipping := false }) s

/-- The signed output error: positive when the output leads; exactly half a turn counts as a lead, which is closed by
retarding (R58). -/
def leadOf (err : BitVec 16) : Int := if err.toNat ≤ 32768 then (err.toNat : Int) else (err.toNat : Int) - 65536

/-- The correction that RETURN adds to a whole measured cycle (R58). -/
def slewOf (lead : Int) : Int := if 0 < lead then -(min 512 lead) else min 512 (-lead)

/-- The output frequency of RETURN over a cycle: 65,536 au plus the slew in each measured cycle. -/
def slewFreq (freq : Nat) (slew : Int) : Nat := freq * (65536 + slew).toNat / 65536

/-- RETURN begins from HOLDOVER or ISLAND when the loop is locked with at least 40 % amplitude and `BLACKOUT_N` does not
hold the state (Table 02-3, R59). `err` is the output angle less the measured angle; the slew begins here (R58). -/
def tryReturn (err : BitVec 16) (s : State) : State :=
  if (s.tb.st = .holdover ∨ s.tb.st = .island) ∧ s.flag R.ANG_STATUS F.ANG_STATUS_SHADOW ∧
      400 ≤ s.fld R.ANG_AMP F.ANG_AMP_AMP ∧ s.blkOn = false then
    setTb (fun t => { t with
      st := .ret, lead := leadOf err, slew := slewOf (leadOf err), idleAu := t.angle.toNat, dipping := false }) s
  else s

/-- The end of a blanking time follows the single load of the output angle (R48, R55). -/
def shiftBlank (stop before after : Nat) : Nat := if before < stop then after + (stop - before) else 0

/-- The position of an output angle in au since `PORST_N`. -/
def State.auPos (s : State) (a : BitVec 16) : Nat := s.tb.cyc.toNat * 65536 + a.toNat

/-- A phase error of the measured loop inside ±256 au (R50). -/
def inBand (e : Int) : Bool := -256 ≤ e && e ≤ 256

/-- The output angle has advanced to `a` within its cycle. -/
def advanceTo (a : BitVec 16) (s : State) : State :=
  setTb (fun t => { t with angle := if t.angle.toNat ≤ a.toNat then a else t.angle }) s

/-- The output angle can stand at `a` now: it goes forward, and every tick and slot start before `a` has come (R61). -/
def State.reaches (s : State) (a : BitVec 16) : Bool :=
  s.tb.angle.toNat ≤ a.toNat && a.toNat ≤ 256 * s.tb.nextTick && a.toNat ≤ 2048 * s.tb.nextSlot

/-- The single load of the output angle at the first lock: no tick and no slot start comes for what it skips (R55). The next ones
are those above the loaded angle. -/
def loadAngle (angle : BitVec 16) (s : State) : State :=
  forEach (List.range 32) (fun n => updTimer n fun x =>
      { x with posAt := s.auPos angle - (s.auPos s.tb.angle - x.posAt) })
    (setTb (fun t =>
      { t with angle := angle, mzxBlankEnd := shiftBlank t.mzxBlankEnd (s.auPos t.angle) (s.auPos angle),
               maBlankEnd := shiftBlank t.maBlankEnd (s.auPos t.angle) (s.auPos angle), lastAu := none,
               nextTick := angle.toNat / 256 + 1, nextSlot := angle.toNat / 2048 + 1 }) s)

/-- The measured loop locks at measured angle `angle` with amplitude `amp` in 0.1 % of `NOMAMP`: its phase errors `e1` and `e2` at
two consecutive wraps of the measured angle are inside ±256 au (R50, R54, R55). -/
def loopLock (angle amp : BitVec 16) (s : State) : State :=
  let s1 := setTb (fun t => { t with band := 2 })
    (setFld R.ANG_AMP F.ANG_AMP_AMP amp.toNat (setFld R.ANG_STATUS F.ANG_STATUS_SHADOW 1 s))
  if s1.tb.st = .acquire then
    angEvt F.ANG_EVT_LOCK (setFld R.ANG_STATUS F.ANG_STATUS_FIRSTLOCK 1 (enterLocked (loadAngle angle s1)))
  else tryReturn (s1.tb.angle - angle) s1

def execLoopLock (angle amp e1 e2 : BitVec 16) (s : State) : Host.Outcome State Fault Refusal :=
  .next (if s.tclk && inBand e1.toInt && inBand e2.toInt then loopLock angle amp s else s)

/-- 100 ms of USEC since the release of `PORST_N` without lock (Table 02-3). -/
def execAcquireTimeout (s : State) : Host.Outcome State Fault Refusal :=
  .next (if s.tclk && s.tb.st = .acquire && 100000 ≤ s.tb.usec.toNat then enterIsland s else s)

/-- The amplitude stands below 30 % of `NOMAMP` (R51). -/
def dipAmp (amp : BitVec 16) : Bool := amp.toNat < 300

/-- LOCKED or RETURN: the states in which a dip counts (R51). -/
def State.follows (s : State) : Bool := s.tb.st = .locked || s.tb.st = .ret

/-- A dip shorter than one cycle ends in LOCKED or RETURN at output angle `stop`; it began at `start`, or before the last wrap if
that wrap stood in it. The slew had no part of it (R51). -/
def dipEnd (start stop : BitVec 16) (s : State) : State :=
  let first := if s.tb.dipping then 0 else start.toNat
  angEvt F.ANG_EVT_DIP
    (setTb (fun t => { t with idleAu := min 65536 (t.idleAu + (stop.toNat - first)), dipping := false }) (advanceTo stop s))

def execDipEnd (start stop amp : BitVec 16) (s : State) : Host.Outcome State Fault Refusal :=
  .next (if s.tclk && s.follows && dipAmp amp && s.reaches stop && (s.tb.dipping || start.toNat ≤ stop.toNat) then
      dipEnd start stop s
    else s)

/-- Condition 1 of R52: a dip in which the last wrap stood has lasted 65,536 au; the frequency held is `freq`, which stood at the
dip's start. -/
def execDipTimeout (freq : BitVec 17) (s : State) : Host.Outcome State Fault Refusal :=
  .next (if s.tclk && s.follows && s.tb.dipping then enterHoldover (setFreq freq.toNat s) else s)

/-- The hold time has run (R56). -/
def State.holdOver (s : State) : Bool := 1000 * s.act R.ANG_HOLDISL F.ANG_HOLDISL_HOLD_MS ≤ s.since s.tb.holdStart

/-- The hold time elapses (R56). -/
def execHoldTimeExpire (s : State) : Host.Outcome State Fault Refusal :=
  .next (if s.tclk && s.tb.st = .holdover && s.holdOver then enterIsland s else s)

/-- The filtered `BLACKOUT_N` level as the timebase takes it, at measured angle `angle` (R53, R59, Table 02-3). -/
def angBlackout (low : Bool) (angle : BitVec 16) (s : State) : State :=
  let s1 := setFlag R.ANG_STATUS F.ANG_STATUS_BLK low s
  if low && s1.blkEn then
    match s1.tb.st with
    | .locked | .ret => enterHoldover s1
    | .acquire => enterIsland s1
    | .holdover | .island => s1
  else tryReturn (s1.tb.angle - angle) s1

/-! ### The checks of a wrap -/

/-- Conditions 2 and 3 of R52 on the measured loop. -/
def outOfRange (freq : Nat) : Bool := freq < 35000 || 75000 < freq

def phaseLost (l : List Int) : Bool := l.any fun e => e < -1024 || 1024 < e

/-- The phases, A in bit 0, whose amplitude over the finished cycle is below 30 % of `NOMAMP` (R489). -/
def State.phasesLow (s : State) (m : WrapMeas) : Nat :=
  let low (a : BitVec 16) : Bool := 10 * a.toNat < 3 * s.act R.ANG_CFG F.ANG_CFG_NOMAMP
  (low m.ampA).toNat + 2 * (low m.ampB).toNat + 4 * (low m.ampC).toNat

/-- The phase amplitudes of the finished cycle (R489). The check is made before the transition of the same wrap, so the record of
`PHLOSS` carries the state before it: DESIGN CHOICE, log 133. -/
def phaseCheck (m : WrapMeas) (s : State) : State :=
  let old := s.fld R.ANG_STATUS F.ANG_STATUS_PHLOSS
  let now := s.phasesLow m
  let s1 := setFld R.ANG_STATUS F.ANG_STATUS_PHLOSS now s
  if BitVec.ofNat 3 now &&& ~~~(BitVec.ofNat 3 old) ≠ 0 ∧ 300 ≤ m.amp.toNat then angEvt F.ANG_EVT_PHLOSS s1 else s1

/-- A dip is in progress at a wrap: in LOCKED or RETURN the amplitude stands below 30 % (R51). -/
def State.inDip (s : State) (m : WrapMeas) : Bool := s.follows && dipAmp m.amp

/-- The wraps of the measured angle inside ±256 au, counted up to two in a row (R50). The loop makes no update in a dip (R51), and
does not run in HOLDOVER and ISLAND below 40 % (R59). In ACQUIRE the second one is LOOP_LOCK's. -/
def State.bandNow (s : State) (m : WrapMeas) : Nat :=
  if s.inDip m then s.tb.band
  else if (s.tb.st = .holdover || s.tb.st = .island) && m.amp.toNat < 400 then 0
  else m.loop.foldl (fun n e => if inBand e then min (if s.tb.st = .acquire then 1 else 2) (n + 1) else 0) s.tb.band

/-- The loop values a wrap presents. -/
def wrapMeasure (m : WrapMeas) (s : State) : State :=
  let n := s.bandNow m
  setTb (fun t => { t with band := n, loopFreq := if s.inDip m then t.loopFreq else m.freq })
    (setFlag R.ANG_STATUS F.ANG_STATUS_SHADOW (n = 2)
      (setFld R.ANG_AMP F.ANG_AMP_THD m.thd.toNat (setFld R.ANG_AMP F.ANG_AMP_AMP m.amp.toNat s)))

/-- The phase offsets follow the loop in LOCKED with the three-phase source (R77). -/
def wrapPhofs (m : WrapMeas) (s : State) : State :=
  if s.act R.ANG_CFG F.ANG_CFG_SRC = 0 then
    setFld R.ANG_PHOFS F.ANG_PHOFS_PHC m.phc.toNat (setFld R.ANG_PHOFS F.ANG_PHOFS_PHB m.phb.toNat s)
  else s

/-- The fixed offsets of phases B and C (Table 02-1): with the sources 0b01 and 0b10 they stand in `ANG_PHOFS` (R47, R77). -/
def fixPhofs (s : State) : State :=
  if s.act R.ANG_CFG F.ANG_CFG_SRC = 1 ∨ s.act R.ANG_CFG F.ANG_CFG_SRC = 2 then
    setFld R.ANG_PHOFS F.ANG_PHOFS_PHC 43691 (setFld R.ANG_PHOFS F.ANG_PHOFS_PHB 21845 s)
  else s

/-- The unlock conditions of a wrap; `none` when none holds. `FRANGE` is posted after the events of the transition: DESIGN CHOICE,
log 132. -/
def wrapUnlock (m : WrapMeas) (s : State) : Option State :=
  if outOfRange m.freq then some (angEvt F.ANG_EVT_FRANGE (enterHoldover s))
  else if phaseLost m.loop then some (enterHoldover s)
  else none

/-- The au of the finished cycle that the slew has had no part of: up to the start of RETURN, in dips that have ended, and in the
dip in progress (R51, R58). -/
def State.idleNow (s : State) (m : WrapMeas) : Nat :=
  min 65536 (s.tb.idleAu + if s.inDip m then 65536 - (if s.tb.dipping then 0 else m.dipAt.toNat) else 0)

/-- The output's lead at the end of the finished cycle: its correction was spread evenly over the cycle (R58). -/
def State.leadNow (s : State) (m : WrapMeas) : Int :=
  s.tb.lead + (s.tb.slew * (65536 - s.idleNow m : Nat)).tdiv 65536

/-- A wrap in RETURN: the slew goes on from the lead that is left, or pauses in a dip; inside ±64 au LOCKED is entered (R51, R58). -/
def wrapReturn (m : WrapMeas) (s : State) : State :=
  let lead := s.leadNow m
  if s.inDip m then
    setFreq s.tb.loopFreq (setTb (fun t => { t with lead := lead, idleAu := 0, dipping := true }) s)
  else if -64 ≤ lead ∧ lead ≤ 64 then
    angEvt F.ANG_EVT_RETURN_DONE (angEvt F.ANG_EVT_LOCK
      (setFld R.ANG_STATUS F.ANG_STATUS_FIRSTLOCK 1 (enterLocked (setFreq m.freq s))))
  else
    setFreq (slewFreq m.freq (slewOf lead))
      (setTb (fun t => { t with lead := lead, slew := slewOf lead, idleAu := 0, dipping := false }) s)

/-- A wrap at which RETURN has begun gives the output frequency its slew (R58). -/
def slewEntry (m : WrapMeas) (s : State) : State := if s.tb.st = .ret then setFreq (slewFreq m.freq s.tb.slew) s else s

/-- The state work of a wrap (R51, R52, R57, R58, R77, Table 02-3). -/
def wrapState (m : WrapMeas) (s : State) : State :=
  match s.tb.st with
  | .acquire => setFreq s.islf s
  | .holdover => slewEntry m (tryReturn m.err s)
  | .island => slewEntry m (tryReturn m.err (setFreq s.rampFreq s))
  | .locked =>
    if s.inDip m then setTb (fun t => { t with dipping := true }) s
    else match wrapUnlock m s with
      | some t => t
      | none => wrapPhofs m (setFreq m.freq (setTb (fun t => { t with dipping := false }) s))
  | .ret =>
    if s.inDip m then wrapReturn m s
    else match wrapUnlock m s with
      | some t => t
      | none => wrapReturn m s

/-! ### Cross-check (R48, R74) -/

/-- A miss; the second in a row sets `XCHK` and reports the timebase fault, and counting starts over. -/
def crossMiss (s : State) : State :=
  if s.tb.xMiss = 0 then setTb (fun t => { t with xMiss := 1 }) s
  else raiseSum F.FLT_SUM_TIMEBASE (angEvt F.ANG_EVT_XCHK (setTb (fun t => { t with xMiss := 0 }) s))

/-- The cross-check runs: LOCKED, from the second wrap after entry. -/
def State.xActive (s : State) : Bool := s.tb.st = .locked && decide (2 ≤ s.tb.xWraps)

/-- The comparison at an accepted edge of the reference, once per cycle; `err` is in au. -/
def crossEdge (err : Int) (s : State) : State :=
  if s.xActive && !s.tb.xSeen then
    let s1 := setFld R.ANG_XCHK F.ANG_XCHK_ERR (err % 65536).toNat (setTb (fun t => { t with xSeen := true }) s)
    if err < -1024 ∨ 1024 < err then crossMiss s1 else setTb (fun t => { t with xMiss := 0 }) s1
  else s

/-- The cross-check at a wrap: a cycle with no accepted edge is a miss. `was` is the state before the wrap: the wrap at which LOCKED
is entered does not count (R74). -/
def crossWrap (was : AngState) (s : State) : State :=
  let s1 := if s.xActive && !s.tb.xSeen then crossMiss s else s
  if s1.tb.st = .locked && was = .locked then
    setTb (fun t => { t with xSeen := false, xWraps := min 2 (t.xWraps + 1) }) s1
  else s1

/-- `MZX` is the cross-check reference (Table 02-1). -/
def State.refIsMzx (s : State) : Bool :=
  s.act R.ANG_CFG F.ANG_CFG_SRC ≠ 2 && s.acts R.ANG_CFG F.ANG_CFG_XCHK_EN

/-- A signed angle difference, in −32,768 to 32,767. -/
def angDiff (a : Int) : Int := (a + 32768) % 65536 - 32768

/-- An edge at output angle `a` finds its input out of the blanking that ends at position `stop` (R48). -/
def State.unblanked (s : State) (stop : Nat) (a : BitVec 16) : Bool := stop ≤ s.auPos a

/-- An accepted rising edge on `MZX` at output angle `a` (R48, R74). -/
def mzxEdge (a : BitVec 16) (s : State) : State :=
  let s1 := setTb (fun t => { t with mzxBlankEnd := s.auPos a + 8192 }) s
  if s1.refIsMzx then
    crossEdge (angDiff ((a.toNat : Int) - signed 16 (s1.act R.ANG_MZXOFS F.ANG_MZXOFS_OFS))) s1
  else s1

/-- An accepted edge of the `MA` comparator at output angle `a` (R48, R74). -/
def maEdge (a : BitVec 16) (s : State) : State :=
  let s1 := setTb (fun t => { t with maBlankEnd := s.auPos a + 8192 }) s
  if s1.refIsMzx then s1 else crossEdge (angDiff (a.toNat : Int)) s1

/-! ### Snapshot and low-half reads (R73, R76) -/

/-- The word of `ANG_ANGLE` and `ANG_SNAP_ANG` (Table 02-12). -/
def State.angleWord (s : State) : Word :=
  BitVec.ofNat 32 (s.tb.st.code * 2 ^ 29 + s.tb.angle.toNat / 2048 * 2 ^ 16 + s.tb.angle.toNat)

/-- The snapshot of R73. -/
def angSnap (s : State) : State :=
  setFld R.ANG_SNAP_CTL F.ANG_SNAP_CTL_VALID 1
    (setReg R.ANG_SNAP_USECH (BitVec.ofNat 32 (s.tb.usec.toNat / 2 ^ 32))
      (setReg R.ANG_SNAP_USECL (BitVec.ofNat 32 s.tb.usec.toNat)
        (setReg R.ANG_SNAP_CYCH (BitVec.ofNat 32 (s.tb.cyc.toNat / 2 ^ 32))
          (setReg R.ANG_SNAP_CYCL (BitVec.ofNat 32 s.tb.cyc.toNat) (setReg R.ANG_SNAP_ANG s.angleWord s)))))

def execAngSnap (s : State) : Host.Outcome State Fault Refusal := .next (access .host R.ANG_SNAP_CTL angSnap s)

/-- Reads `ANG_CYC_LO` and latches `ANG_CYC_HI` (R76). -/
def readCycLo (s : State) : Word × State :=
  (BitVec.ofNat 32 s.tb.cyc.toNat, setReg R.ANG_CYC_HI (BitVec.ofNat 32 (s.tb.cyc.toNat / 2 ^ 32)) s)

/-- Reads `ANG_USEC_LO` and latches `ANG_USEC_HI` (R76). -/
def readUsecLo (s : State) : Word × State :=
  (BitVec.ofNat 32 s.tb.usec.toNat, setReg R.ANG_USEC_HI (BitVec.ofNat 32 (s.tb.usec.toNat / 2 ^ 32)) s)

end Sys2Proof.Machine
end

