-- ==== Sys2Proof/Machine/Queue.lean ====
section
/-! DEFINITION. The operation queue's shared operations (R174-R177, R200, R237): occupying and freeing entries, results
and `OPQ_CQ`, aborts, the marks that wait for an entry, and the shed deadline's stop (R196). -/
namespace Sys2Proof.Machine

/-- Kinds by their codes (Table 06-1). -/
def OpKind.code : OpKind → Nat
  | .turnOn => 1 | .contract => 2 | .step => 3 | .hrOff => 4 | .vconnOn => 5 | .vconnOff => 6 | .transfer => 7

def OpResult.code : OpResult → Nat
  | .done => 0 | .stepTo => 1 | .aborted => 2 | .cancelled => 3 | .superseded => 4 | .shedDisc => 5

def State.freeOps (s : State) (c : Nat) : List Nat := (List.range 64).filter fun i => (s.opOf c i).isNone

/-- Occupied entries of channel `c`. -/
def State.inUse (s : State) (c : Nat) : Nat := 64 - (s.freeOps c).length

/-! ### Results -/

/-- A result is posted to `OPQ_CQ`; a final one frees its entry. -/
def postCq (c : Nat) (e : CqEntry) (s : State) : State :=
  let s1 := updChan c (fun x => { x with cq := x.cq ++ [e] }) s
  match e.entry with
  | some i => if e.result = .stepTo then s1 else setOp c i none s1
  | none => s1

/-- A result arises: posted while `OPQ_CQ` has room and none waits before it, otherwise it waits in its entry, or as the
port's one SHED_DISC mark (R176). -/
def result (c : Nat) (e : CqEntry) (s : State) : State :=
  let x := s.chanOf c
  if x.waitRes = [] ∧ x.cq.length < 256 then postCq c e s
  else if e.result = .shedDisc ∧ e ∈ x.waitRes then s
  else
    let s1 := updChan c (fun y => { y with waitRes := y.waitRes ++ [e] }) s
    match e.entry with
    | some i => if e.result = .stepTo then s1 else setOp c i ((s1.opOf c i).map fun o => { o with fin := true }) s1
    | none => s1

/-- Entry `i` ends with a final result; nothing happens to an entry that is free or has its result. -/
def finishOp (c i : Nat) (r : OpResult) (s : State) : State :=
  match s.opOf c i with
  | none => s
  | some o => if o.fin then s else result c { result := r, kind := some o.kind, port := o.port, entry := some i } s

/-- STEP_TO: not final, shown by `STEPTO` of the entry (R176). -/
def stepToOp (c i : Nat) (s : State) : State :=
  match s.opOf c i with
  | none => s
  | some o =>
    if o.fin then s
    else result c { result := .stepTo, kind := some o.kind, port := o.port, entry := some i }
      (setOp c i (some { o with stepTo := true }) s)

/-- The entries of port index `k` for which `f` holds, in rising index. -/
def State.opsOf (s : State) (c k : Nat) (f : OpEntry → Bool) : List Nat :=
  (List.range 64).filter fun i => match s.opOf c i with | some o => !o.fin && o.port = k && f o | none => false

/-- Aborts the unreleased entries of port index `k` that were queued before `order` (R177). -/
def abortBefore (c k order : Nat) (s : State) : State :=
  forEach (s.opsOf c k fun o => o.st = .queued && o.order < order) (fun i => finishOp c i .aborted) s

/-- Aborts all unreleased entries of port index `k` (R177). -/
def abortOps (c k : Nat) (s : State) : State := abortBefore c k (s.chanOf c).opOrder s

/-- The released entries of port index `k` complete CANCELLED. -/
def cancelReleased (c k : Nat) (s : State) : State :=
  forEach (s.opsOf c k fun o => o.st = .released) (fun i => finishOp c i .cancelled) s

/-! ### Entries -/

/-- The release angle (R64): the phase offset plus the slot, rounded up to a multiple of 256 au. -/
def State.relAngle (s : State) (slot ph : Nat) : Nat :=
  let ofs := match ph with
    | 1 => s.fld R.ANG_PHOFS F.ANG_PHOFS_PHB
    | 2 => s.fld R.ANG_PHOFS F.ANG_PHOFS_PHC
    | _ => 0
  ((ofs + 2048 * slot) % 65536 + 255) / 256 * 256 % 65536

/-- Occupies entry `i` with an operation, which takes the next place in the order of entry. -/
def putOp (c i : Nat) (e : OpEntry) (s : State) : State :=
  updChan c (fun x => { x with opOrder := x.opOrder + 1 })
    (setOp c i (some { e with order := (s.chanOf c).opOrder }) s)

/-- An operation with the fields that every kind shares. -/
def State.newOp (s : State) (kind : OpKind) (k slot ph : Nat) : OpEntry :=
  { st := .queued, kind := kind, port := k, slot := slot, ph := ph, last := false, stepTo := false, vtgt := 0,
    icon := 0, w := 0, fa := 15, fb := 15, leg := .none, fromLeg := .none, rel := s.relAngle slot ph, due := none,
    order := 0, mbb := false, refuse := false, fin := false }

/-- Occupies one of the free entries; the manual does not say which. -/
def enterOp (c : Nat) (e : OpEntry) (s : State) : Nat × State :=
  let i := pick (s.freeOps c) s
  (i.1, putOp c i.1 e i.2)

/-- Creates HR_OFF for port index `k` and aborts the entries queued before it; with every entry occupied it waits as a
mark on its port (R177, R200). -/
def createHrOff (c k : Nat) (s : State) : State :=
  if s.freeOps c = [] then updHub (128 * c + k) (fun h => { h with hrOffMark := true }) s
  else
    abortBefore c k (s.chanOf c).opOrder
      (updHub (128 * c + k) (fun h => { h with hrOffMark := false }) (enterOp c (s.newOp .hrOff k 63 0) s).2)

/-- A port's transfer is occupied, also while its result waits for room (R176, R237). -/
def State.xferBusy (s : State) (c k : Nat) : Bool :=
  (List.range 64).any fun i => match s.opOf c i with
    | some o => o.kind = .transfer && o.port = k
    | none => false

/-- The feeders of a leg of port `p`. -/
def State.legFeeds (s : State) (p : Nat) : Leg → List Nat
  | .none => []
  | .a => [s.feedA p]
  | .b => [s.feedB p]
  | .ab => [s.feedA p, s.feedB p]

/-- A feeder row shows an available feeder: `HEALTH` OK or SAG (R219). -/
def FdrRow.avail (r : FdrRow) : Bool := F.FDR_STAT_HEALTH.get r.stat == 1 || F.FDR_STAT_HEALTH.get r.stat == 2

/-- The TRANSFER of R238 from the executed leg to leg `dest`: `FA` is the feeder it leaves, 15 if none or not available in
the channel's bank; `FB` the feeder it joins. -/
def State.transferOp (s : State) (c k : Nat) (dest : Leg) : OpEntry :=
  let p := 128 * c + k
  let fromLeg := (s.hubOf p).leg
  let bank := s.bankOf (s.chanOf c).bank
  let leaves := (s.legFeeds p fromLeg).filter fun f => f ∉ s.legFeeds p dest
  let joins := (s.legFeeds p dest).filter fun f => f ∉ s.legFeeds p fromLeg
  let fa := match leaves with
    | f :: _ => if (tabGet FdrRow.init bank.fdr f).avail then f else 15
    | [] => 15
  let fb := match joins with
    | f :: _ => f
    | [] => 15
  let forced := F.PLC_ENT_FORCED.get (s.chEnt p) != 0
  let ppol := s.reg (R.CHN_PPOL c k)
  let slot := if forced then 63 else F.CHN_PPOL_SLOT.get ppol
  let ph := if forced then 0 else F.CHN_PPOL_PH.get ppol
  let amps := max (s.fld (R.PRT_MCURR p) F.PRT_MCURR_IOUT) (s.mirOf p).icon
  { s.newOp .transfer k slot ph with
      w := max 1 ((amps + 9) / 10), fa := fa, fb := fb, leg := dest, fromLeg := fromLeg }

/-- The conditions of R237 on port index `k`. -/
def State.xferDue (s : State) (c k : Nat) : Bool :=
  let p := 128 * c + k
  (s.mirOf p).powered && (s.hubOf p).leg ≠ s.chLeg p && !s.xferBusy c k && !(s.hubOf p).xferQueued

/-- Queues the port's transfer, which never takes the last 8 free entries; otherwise it waits as a mark (R237). -/
def queueXfer (c k : Nat) (s : State) : State :=
  if s.xferDue c k then
    if 8 < (s.freeOps c).length then
      updHub (128 * c + k) (fun h => { h with xferMark := false, xferQueued := true })
        (enterOp c (s.transferOp c k (s.chLeg (128 * c + k))) s).2
    else updHub (128 * c + k) (fun h => { h with xferMark := true }) s
  else updHub (128 * c + k) (fun h => { h with xferMark := false }) s

/-- Entry `i` ends with a final result; at the completion of a turn-on or a transfer the channel checks the port's leg (R237). -/
def endOp (c i : Nat) (r : OpResult) (s : State) : State :=
  let s1 := finishOp c i r s
  match s.opOf c i with
  | some o => if o.kind = .turnOn || o.kind = .transfer then queueXfer c o.port s1 else s1
  | none => s1

def State.hrMarks (s : State) (c : Nat) : List Nat :=
  (List.range 128).filter fun k => (s.hubOf (128 * c + k)).hrOffMark

def State.xferMarks (s : State) (c : Nat) : List Nat :=
  (List.range 128).filter fun k => (s.hubOf (128 * c + k)).xferMark

/-- Freed entries go first to waiting HR_OFF marks, then to waiting transfers, each in rising port index (R200, R237). -/
def serveMarks (c : Nat) (s : State) : State :=
  let s1 := forEach (s.hrMarks c) (createHrOff c) s
  forEach (s1.xferMarks c) (queueXfer c) s1

/-- The oldest waiting result is posted once there is room (R176). -/
def postWaiting (c : Nat) (s : State) : State :=
  match (s.chanOf c).waitRes with
  | [] => s
  | e :: rest =>
    if (s.chanOf c).cq.length < 256 then postCq c e (updChan c (fun x => { x with waitRes := rest }) s) else s

/-! ### The shed deadline and hold (R196-R198) -/

/-- A port's deadline stops. -/
def stopDeadline (p : Nat) (s : State) : State := updHub p (fun h => { h with deadline := none, dueHeld := false }) s

/-- A port's shed hold ends. -/
def endHold (p : Nat) (s : State) : State := updHub p (fun h => { h with hold := false }) s

/-- Contracted power in 100 mW: V × I of the contract group, rounded up (R196). -/
def State.contractPower (s : State) (p : Nat) : Nat :=
  let w := (s.recOf p 7).toNat
  ((w / 65536) * (w % 65536) + 99999) / 100000

end Sys2Proof.Machine
end

