-- ==== Sys2Proof/Machine/Ctx.lean ====
section
/-! DEFINITION. Negotiation contexts, `CTX_EVQ` and the message pans of a channel (R151-R156, R162-R167). -/
namespace Sys2Proof.Machine

/-- A command that had no effect (Table 05-16, `CMDERR`). -/
def cmdErr (c : Nat) (s : State) : State := setFld (R.CTX_GLB c) F.CTX_GLB_CMDERR 1 s

/-! ### The event queue (R155, Table 05-3) -/

def EvKind.code : EvKind → Nat
  | .rx => 1 | .txDone => 2 | .txFailed => 3 | .txDiscarded => 4 | .txIncomplete => 5 | .txRefused => 6
  | .chunkErr => 7 | .bound => 8 | .closing => 9 | .timerA => 10 | .timerB => 11

def Sop.code : Sop → Nat
  | .sop => 0 | .sopp => 1 | .other => 2

/-- The word that a read of `CTX_EVQ` returns. -/
def EvEntry.word (e : EvEntry) : Word :=
  BitVec.ofNat 32 (e.kind.code * 2 ^ 28 + e.ctx * 2 ^ 22 + e.port * 2 ^ 15 + Sop.code e.sop * 2 ^ 13 + e.info * 2 ^ 8 +
    e.pan)

def postEv (c : Nat) (e : EvEntry) (s : State) : State := updChan c (fun x => { x with evq := x.evq ++ [e] }) s

/-- An entry of kinds 1-7 for port `p`. -/
def postMsg (p : Nat) (k : EvKind) (sp : Sop) (info pan : Nat) (noPan : Bool) (s : State) : State :=
  postEv (p / 128) { kind := k, ctx := (s.hubOf p).ctxId, port := p % 128, sop := sp, info := info, pan := pan, noPan := noPan } s

/-! ### Message pans (R151-R154) -/

/-- A pan's place in the pan memory. -/
def panOff (i : Nat) : Nat := 64 * i

def State.freePans (s : State) (c : Nat) : List Nat := (List.range 256).filter fun i => s.panOf c i = .free

/-- The first descriptor word of a pan (Table 05-2). -/
def State.panDesc (s : State) (c i : Nat) : Nat := s.leAt (0x20 + c) (panOff i) 4

def descNext (d : Nat) : Nat := d / 2 ^ 24 % 256
def descNv (d : Nat) : Bool := d / 2 ^ 23 % 2 = 1
def descSop (d : Nat) : Nat := d / 2 ^ 21 % 4
def descAms (d : Nat) : Bool := d / 2 ^ 20 % 2 = 1
def descAmsEnd (d : Nat) : Bool := d / 2 ^ 19 % 2 = 1
def descLen (d : Nat) : Nat := d % 512

/-- Pans that a message of `len` bytes takes. -/
def pansFor (len : Nat) : Nat := max 1 ((len + 47) / 48)

/-- The chain from pan `i`, of at most `n` pans. -/
def State.chain (s : State) (c : Nat) : Nat → Nat → List Nat
  | 0, _ => []
  | n + 1, i => i :: (if descNv (s.panDesc c i) then s.chain c n (descNext (s.panDesc c i)) else [])

/-- The chain of a message for transmission: as many pans as its `LEN` needs. -/
def State.txChain (s : State) (c i : Nat) : List Nat := s.chain c (min 6 (pansFor (descLen (s.panDesc c i)))) i

/-- The message bytes of a chain. -/
def State.chainBytes (s : State) (c : Nat) (l : List Nat) (len : Nat) : List Byte :=
  (l.flatMap fun i => s.bytesAt (0x20 + c) (panOff i + 16) 48).take len

/-- The pans whose chain starts at pan `i` in transmission, or with its result unread (R153). -/
def State.txPans (s : State) (c i : Nat) : List Nat := (List.range 256).filter fun j => s.panOf c j = .tx i

/-- Gives pans to an owner. -/
def ownPans (c : Nat) (l : List Nat) (o : PanOwner) (s : State) : State := forEach l (fun i => setPan c i o) s

/-- Writes the pans of a received message in chain order (Table 05-2). -/
def writeChain (c : Nat) (sp : Sop) (len usec w1 w3 : Nat) : List Nat → List Byte → State → State
  | [], _, s => s
  | i :: l, bytes, s =>
    let nx := match l with
      | j :: _ => j * 2 ^ 24 + 2 ^ 23
      | [] => 0
    let d := nx + Sop.code sp * 2 ^ 21 + len
    let s1 := setBytes (0x20 + c) (panOff i)
      (natLe 4 d ++ natLe 4 w1 ++ natLe 4 usec ++ natLe 4 w3 ++ bytes.take 48) (wordsWritten (0x20 + c) (panOff i) 64 s)
    writeChain c sp len usec w1 w3 l (bytes.drop 48) s1

/-- A received message lands in the chain `l` and is posted as kind `k`, its pans now owned by firmware. -/
def landChain (p : Nat) (k : EvKind) (sp : Sop) (bytes : List Byte) (usec : Nat) (l : List Nat) (s : State) : State :=
  let c := p / 128
  let h := s.hubOf p
  let w3 := h.ctxId * 256 + (if h.ctxId = 0 then 0 else h.gen.toNat)
  postMsg p k sp 0 (l.headD 0) false
    (ownPans c l .firmware (writeChain c sp bytes.length usec (p % 128) w3 l bytes s))

def execCtxPangetRead (c : Fin 4) (s : State) : Host.Outcome State Fault Refusal :=
  .next (if s.chanUp c then
      if s.freePans c = [] then setBus 0 s
      else
        let i := pick (s.freePans c) s
        setBus (BitVec.ofNat 32 (2 ^ 31 + i.1)) (setPan c i.1 .firmware i.2)
    else s)

/-- A write of `CTX_PANPUT` (R153). -/
def panPut (c i : Nat) (s : State) : State :=
  if s.panOf c i = .firmware then setPan c i .free s else cmdErr c s

def execCtxPanput (c : Fin 4) (pan : Fin 256) (s : State) : Host.Outcome State Fault Refusal :=
  .next (if s.chanUp c then panPut c pan s else s)

/-! ### The waiting set (R163, R164) -/

def waitReg (p : Nat) : Nat := R.CTX_WAIT (p / 128) (p % 128 / 32)

def State.waiting (s : State) (p : Nat) : Bool := s.flag (waitReg p) ⟨p % 32, 1⟩

def setWaiting (p : Nat) (b : Bool) (s : State) : State := setFlag (waitReg p) ⟨p % 32, 1⟩ b s

/-- The FREE contexts of channel `c`, in rising id. -/
def State.freeCtxs (s : State) (c : Nat) : List Nat :=
  (List.range 64).filter fun n => n != 0 && decide ((s.ctxOf c n).state = .free)

/-- The waiting ports that hold no context. -/
def State.waiters (s : State) (c : Nat) : List Nat :=
  ((List.range 128).map fun k => 128 * c + k).filter fun p => s.waiting p && (s.hubOf p).ctxId = 0

/-- The port of `l` with the highest priority in force, the lowest among equals. -/
def State.bestPort (s : State) : List Nat → Option Nat
  | [] => none
  | p :: l =>
    match s.bestPort l with
    | none => some p
    | some q => if s.pif q ≤ s.pif p then some p else some q

/-! ### Binding, closing and releasing (R162, R163, R166) -/

def CtxTimer.disarm (t : CtxTimer) : CtxTimer := { t with count := 0 }

/-- Context `n` is bound to port `p` (Table 05-5, first row). An unread timer expiry stays marked unread. -/
def bindCtx (c n p : Nat) (alloc : Bool) (s : State) : State :=
  let x := s.ctxOf c n
  let y : Ctx :=
    { state := .bound, alloc := alloc, cause := 0, gen := x.gen + 1, port := p % 128,
      tmrA := { CtxTimer.init with pend := x.tmrA.pend }, tmrB := { CtxTimer.init with pend := x.tmrB.pend },
      data := 0, boundUnread := true, closingUnread := false }
  postEv c { kind := .bound, ctx := n, port := p % 128, sop := .sop, info := alloc.toNat, pan := 0, noPan := false }
    (updHub p (fun h => { h with ctxId := n, gen := x.gen + 1 }) (setWaiting p false (updCtx c n (fun _ => y) s)))

/-- A FREE context goes to the waiting port that R163 chooses. -/
def serveWait (c : Nat) (s : State) : State :=
  match s.freeCtxs c, s.bestPort (s.waiters c) with
  | n :: _, some p => bindCtx c n p (s.hubOf p).waitAlloc s
  | _, _ => s

/-- Port `p` asks for a context (R163). -/
def requestCtx (p : Nat) (alloc : Bool) (s : State) : State :=
  match s.freeCtxs (p / 128), (s.hubOf p).ctxId with
  | n :: _, 0 => bindCtx (p / 128) n p alloc s
  | _, _ => setWaiting p true (updHub p (fun h => { h with waitAlloc := alloc }) s)

/-- A BOUND context of port `p` goes to CLOSING with a cause of Table 05-15; the port leaves the waiting set. -/
def closeCtx (p cause : Nat) (s : State) : State :=
  let c := p / 128
  let s1 := setWaiting p false s
  let n := (s1.hubOf p).ctxId
  if n ≠ 0 ∧ (s1.ctxOf c n).state = .bound then
    postEv c { kind := .closing, ctx := n, port := p % 128, sop := .sop, info := cause, pan := 0, noPan := false }
      (updCtx c n (fun x => { x with state := .closing, cause := cause, tmrA := x.tmrA.disarm, tmrB := x.tmrB.disarm,
                                     closingUnread := true }) s1)
  else s1

/-- `CTX_CMD` RELEASE (Table 05-5, R166). -/
def releaseCtx (c n : Nat) (gen : BitVec 8) (s : State) : State :=
  let x := s.ctxOf c n
  if n = 0 ∨ x.state = .free ∨ x.gen ≠ gen ∨ x.boundUnread = true ∨ x.closingUnread = true then cmdErr c s
  else
    serveWait c (updHub (128 * c + x.port) (fun h => { h with ctxId := 0 })
      (updCtx c n (fun y => { y with state := .free, tmrA := y.tmrA.disarm, tmrB := y.tmrB.disarm }) s))

def execCtxRelease (c : Fin 4) (id : Fin 64) (gen : BitVec 8) (s : State) : Host.Outcome State Fault Refusal :=
  .next (if s.chanUp c then releaseCtx c id gen s else s)

def execContextBind (c : Fin 4) (s : State) : Host.Outcome State Fault Refusal :=
  .next (if s.chanUp c then serveWait c s else s)

/-- INRUSH armed or powered, as the hub knows the port (R163). -/
def Port.mayAlloc (x : Port) : Bool := x.state = .inrush || x.powered

/-- `PRT_PDCMD.ALLOC` (R163, R164): a context start, which one in flight for the port takes with it (R342). -/
def allocCtx (p : Nat) (s : State) : State :=
  let r := cross (.ctx p) s
  if r.1 then noteMerge (.ctx p) r.2
  else if s.waiting p = true ∨ (s.hubOf p).ctxId ≠ 0 ∨ (s.mirOf p).mayAlloc = false then cmdErr (p / 128) r.2
  else requestCtx p true r.2

def execPdAlloc (p : Fin 512) (s : State) : Host.Outcome State Fault Refusal :=
  .next (if s.chanUp (p / 128) then allocCtx p s else s)

/-- `PRT_PDCMD.CANCEL` (R164): a port that does not wait is in no state that allows it. -/
def cancelCtx (p : Nat) (s : State) : State :=
  if s.waiting p then setWaiting p false s else cmdErr (p / 128) s

def execPdCancel (p : Fin 512) (s : State) : Host.Outcome State Fault Refusal :=
  .next (if s.chanUp (p / 128) then cancelCtx p s else s)

/-! ### Context timers (R156, R162, R169) -/

def Ctx.timer (x : Ctx) (b : Bool) : CtxTimer := if b then x.tmrB else x.tmrA

/-- Port `p` holds a BOUND context. -/
def State.bound (s : State) (p : Nat) : Bool :=
  (s.hubOf p).ctxId != 0 && (s.ctxOf (p / 128) (s.hubOf p).ctxId).state = .bound

/-- An expiry of the port's timer is unread. -/
def State.pendTimer (s : State) (p : Nat) (b : Bool) : Bool :=
  s.bound p && ((s.ctxOf (p / 128) (s.hubOf p).ctxId).timer b).pend

/-- Changes timer A (`b` = false) or B of a context. -/
def updCtxTimer (c n : Nat) (b : Bool) (f : CtxTimer → CtxTimer) (s : State) : State :=
  updCtx c n (fun x => if b then { x with tmrB := f x.tmrB } else { x with tmrA := f x.tmrA }) s

/-- A course write of a context timer: `COUNT` arms or disarms, a 1 clears `TOVR`; only a BOUND context takes it. -/
def writeCtxTimer (c n : Nat) (b : Bool) (v : Word) (s : State) : State :=
  if (s.ctxOf c n).state = .bound then
    updCtxTimer c n b (fun t => { t with count := v.truncate 16, start := s.clock, tovr := t.tovr && !v.getLsbD 30 }) s
  else s

def execCtxTimerWrite (c : Fin 4) (n : Fin 64) (b : Bool) (v : Word) (s : State) :
    Host.Outcome State Fault Refusal :=
  .next (if s.chanUp c then writeCtxTimer c n b v s else s)

/-- An armed timer expires after its count of 100 µs: an entry, or `TOVR` while the previous one is unread (R156). -/
def expireCtxTimer (c n : Nat) (b : Bool) (s : State) : State :=
  let x := s.ctxOf c n
  if x.state = .bound ∧ (x.timer b).count ≠ 0 ∧ s.past (x.timer b).start (100 * (x.timer b).count.toNat) = true then
    if (x.timer b).pend then updCtxTimer c n b (fun t => { t with count := 0, tovr := true }) s
    else
      postEv c { kind := if b then .timerB else .timerA, ctx := n, port := x.port, sop := .sop, info := 0, pan := 0, noPan := false }
        (updCtxTimer c n b (fun t => { t with count := 0, pend := true }) s)
  else s

def execCtxTimerExpire (c : Fin 4) (n : Fin 64) (b : Bool) (s : State) : Host.Outcome State Fault Refusal :=
  .next (if s.chanUp c then expireCtxTimer c n b s else s)

/-- `COUNT` as it reads: the time left in units of 100 µs, rounded up. -/
def State.ctxLeft (s : State) (t : CtxTimer) : Nat := t.count.toNat - (s.clock - t.start) / 100

/-! ### Reading the event queue -/

/-- What reading an entry changes: its unread marks end, and the pans of a transmission return to firmware (R153). -/
def evRead (c : Nat) (e : EvEntry) (s : State) : State :=
  match e.kind with
  | .rx | .chunkErr => s
  | .txRefused =>
    if e.noPan then updHub (128 * c + e.port) (fun h => { h with noPanUnread := false }) s
    else ownPans c (s.txPans c e.pan) .firmware s
  | .txDone => if e.noPan then s else ownPans c (s.txPans c e.pan) .firmware s
  | .txFailed | .txDiscarded | .txIncomplete => ownPans c (s.txPans c e.pan) .firmware s
  | .bound => updCtx c e.ctx (fun x => { x with boundUnread := false }) s
  | .closing => updCtx c e.ctx (fun x => { x with closingUnread := false }) s
  | .timerA => updCtxTimer c e.ctx false (fun t => { t with pend := false }) s
  | .timerB => updCtxTimer c e.ctx true (fun t => { t with pend := false }) s

/-- A course read of `CTX_EVQ`: the head, or 0. -/
def readEvq (c : Nat) (s : State) : Word × State :=
  match (s.chanOf c).evq with
  | [] => (0, s)
  | e :: l => (e.word, evRead c e (updChan c (fun x => { x with evq := l }) s))

def execCtxEvqRead (c : Fin 4) (s : State) : Host.Outcome State Fault Refusal :=
  .next (if s.chanUp c then readCmd (readEvq c s) else s)

end Sys2Proof.Machine
end

