-- ==== Sys2Proof/Machine/ChainOps.lean ====
section
/-! DEFINITION. Sending on the chain links (R426-R431): frames that wait, credit, sequence numbers, routing; and the answer
to the origin of a domain request (R409, R433). -/
namespace Sys2Proof.Machine

/-- Frame types (Table 17-3). -/
inductive FType where
  | ack | hello | enum | enumDone | level | req | resp | alert | upd | lvrep | topo
deriving DecidableEq, Repr

def FType.code : FType → Nat
  | .ack => 0 | .hello => 1 | .enum => 2 | .enumDone => 3 | .level => 4 | .req => 5 | .resp => 6 | .alert => 7
  | .upd => 8 | .lvrep => 9 | .topo => 10

/-- The place of a type in the order of R428. -/
def typePrio (t : Nat) : Nat :=
  match t with
  | 0 => 0 | 1 => 1 | 7 => 2 | 10 => 3 | 9 => 4 | 6 => 5 | 5 => 6 | 2 => 7 | 3 => 7 | 4 => 8 | _ => 9

def State.linkState (s : State) (n : Nat) : Nat := s.fld (R.LNK_LSTAT n) F.LNK_LSTAT_STATE

/-- Link `n` is UP (Table 17-11). -/
def State.lnkUp (s : State) (n : Nat) : Bool := s.linkState n = 3

def State.isRoot (s : State) : Bool := s.flag R.LNK_CFG F.LNK_CFG_ROOT

def State.enumd (s : State) : Bool := s.flag R.LNK_STAT F.LNK_STAT_ENUMD

def State.myAddr (s : State) : Nat := s.fld R.LNK_STAT F.LNK_STAT_ADDR

def State.domLevel (s : State) : Nat := s.fld R.LNK_STAT F.LNK_STAT_DLEVEL

/-- `SRC` of a frame this device sends. -/
def State.srcAddr (s : State) : Nat := if s.enumd then s.myAddr else 0xFFFF

def raiseLnk (f : Fld) (s : State) : State := raise R.LNK_EVT R.LNK_EVTEN f s

/-- A frame is dropped for good (R427, R431). -/
def countLost (n : Nat) (s : State) : State :=
  raiseLnk F.LNK_EVT_LOST (incFld (R.LNK_CNT1 n) F.LNK_CNT1_LOST s)

/-- A frame is discarded for its type, level, generation or route (R425, R431). -/
def countDisc (n : Nat) (s : State) : State :=
  raiseLnk F.LNK_EVT_DISC (incFld (R.LNK_CNT2 n) F.LNK_CNT2_DISC s)

/-- Inserts a frame behind those of its own and of earlier types (R428). -/
def insertFrame (f : Frame) : List Frame → List Frame
  | [] => [f]
  | g :: l => if typePrio f.typ < typePrio g.typ then f :: g :: l else g :: insertFrame f l

/-- The level that decides what a device sends and takes: 1 before any LEVEL has arrived. -/
def State.levelNow (s : State) : Nat := max 1 s.domLevel

/-- The level that a frame needs (Table 17-5): 2 for UPD and for a REQ of kind MBOX. -/
def Frame.level (f : Frame) : Nat :=
  if f.typ = 8 || (f.typ = 5 && (f.payload.getD 0 0).toNat / 16 = 3) then 2 else 1

/-- The first frame that waits on link `n` and may start: none of a feature above the level in force does (R437, R438; log 172). -/
def State.nextFrame (s : State) (n : Nat) : Option Frame := (s.chainOf n).wait.find? fun f => f.level ≤ s.levelNow

/-- Sends waiting frames while the partner has free buffers (R426); each takes the next `SEQ`. -/
def pumpLink (n : Nat) : Nat → State → State
  | 0, s => s
  | k + 1, s =>
    let cr := s.fld (R.LNK_LSTAT n) F.LNK_LSTAT_CREDIT
    match s.nextFrame n with
    | none => s
    | some f =>
      if cr = 0 then s
      else
        pumpLink n k (setFld (R.LNK_LSTAT n) F.LNK_LSTAT_CREDIT (cr - 1)
          (updChain n (fun y => { y with wait := y.wait.erase f, sent := y.sent ++ [{ f with seq := y.txSeq, start := s.clock }],
                                         txSeq := (y.txSeq + 1) % 256 }) s))

/-- Hands a frame to the output of link `n`. -/
def queueFrame (n : Nat) (f : Frame) (s : State) : State :=
  pumpLink n 4 (updChain n (fun y => { y with wait := insertFrame f y.wait }) s)

/-- Sends a frame of this device's own on link `n`. -/
def sendFrame (n : Nat) (t : FType) (dst : Nat) (payload : List Byte) (s : State) : State :=
  queueFrame n { typ := t.code, dst := dst, src := s.srcAddr, seq := 0, gen := s.fld R.LNK_GEN F.LNK_GEN_GEN % 256,
                 payload := payload, tries := 0, start := 0, inOn := none } s

/-- Down link `n` holds a range that contains `dst`. -/
def State.inRange (s : State) (n dst : Nat) : Bool :=
  s.flag (R.LNK_LSTAT n) F.LNK_LSTAT_ENUMD && s.fld (R.LNK_RANGE n) F.LNK_RANGE_LO ≤ dst &&
    dst ≤ s.fld (R.LNK_RANGE n) F.LNK_RANGE_HI

/-- Sends a routed frame on (R431); `from` is the link it came in on, 0 for a frame of this device's own. -/
def routeFrame (src : Nat) (f : Frame) (s : State) : State :=
  match ([1, 2, 3] : List Nat).find? fun k => s.inRange k f.dst with
  | some k => if s.lnkUp k then queueFrame k f s else countLost k s
  | none => if s.isRoot then countDisc src s else if s.lnkUp 0 then queueFrame 0 f s else countLost 0 s

/-- Broadcasts a frame on every enumerated down link that is UP. -/
def broadcastDown (f : Frame) (s : State) : State :=
  forEach ([1, 2, 3] : List Nat) (fun k t =>
    if t.flag (R.LNK_LSTAT k) F.LNK_LSTAT_ENUMD && t.lnkUp k then queueFrame k f t else t) s

/-- A frame of this device's own for the routed and broadcast types. -/
def State.ownFrame (s : State) (t : FType) (dst : Nat) (payload : List Byte) : Frame :=
  { typ := t.code, dst := dst, src := s.srcAddr, seq := 0, gen := s.fld R.LNK_GEN F.LNK_GEN_GEN % 256,
    payload := payload, tries := 0, start := 0, inOn := none }

/-! ### Link states (Table 17-1) -/

/-- At the root the holdoff restarts; while an enumeration runs, another is owed (R429, Table 17-7). -/
def restartHoldoff (s : State) : State :=
  setFld R.LNK_STAT F.LNK_STAT_ENRUN 1
    (updEnum (fun e => if e.run then { e with owed := true } else { e with holdoff := true, holdAt := s.clock }) s)

/-- A link changes state (Table 17-12); at the root a change of its own links restarts the holdoff (R429). -/
def setLink (n st : Nat) (s : State) : State :=
  let s1 := updChain n (fun y => { y with since := s.clock }) (setFld (R.LNK_LSTAT n) F.LNK_LSTAT_STATE st s)
  let s2 := post .management 0x36 n (s1.reg (R.LNK_PFW n)) st s1
  if s2.isRoot then restartHoldoff s2 else s2

/-- Link `n` may come up: it is enabled, and the root never brings its `LINK0` up (R421). -/
def State.linkOn (s : State) (n : Nat) : Bool :=
  s.flag R.LNK_CFG (F.LNK_CFG_LEN.bit n) && !(s.isRoot && n = 0)

/-- A link with signal detect leaves DOWN and sends idles, from boot release on (R421). -/
def startLink (n : Nat) (s : State) : State :=
  if s.linkOn n && s.linkState n = 0 && s.flag (R.LNK_LSTAT n) F.LNK_LSTAT_SIGDET && !s.flag R.FLT_SUM F.FLT_SUM_BOOT &&
      !(s.chainOf n).dropping then setLink n 1 s
  else s

/-- The device's own level (R436). -/
def State.ownLevel (s : State) : Nat := max 1 (min 3 (s.fld R.BOOT_IMGINFO F.BOOT_IMGINFO_LINKLV))

/-- `OLEVEL` follows the image that runs. -/
def showLevel (s : State) : State := setFld R.LNK_STAT F.LNK_STAT_OLEVEL s.ownLevel s

/-! ### Failure events of an update (R452) -/

/-- Channel `c` runs the activated code, while the update is ACTIVATING or in TRIAL. -/
def State.switched (s : State) (c : Nat) : Bool :=
  let st := s.fld R.UPD_STAT F.UPD_STAT_STATE
  (st = 5 || st = 6) && s.flag R.UPD_STAT (F.UPD_STAT_CHDONE.bit c)

/-- A failure event in a channel already switched. -/
def noteFailure (c : Nat) (s : State) : State :=
  if s.switched c then { s with upd := { s.upd with failed := true } } else s

/-! ### Answers to requests (R409, Table 16-6) -/

def raiseTwm (f : Fld) (s : State) : State := raise R.TWM_EVT R.TWM_EVTEN f s

/-- The pending request of this device's two-wire port ends with status `st` and a response. -/
def endRequest (st : Nat) (resp : List Byte) (s : State) : State :=
  let s1 := setFld R.TWM_RQSTAT F.TWM_RQSTAT_LEN resp.length (setFld R.TWM_RQSTAT F.TWM_RQSTAT_ST st s)
  raiseTwm F.TWM_EVT_RQDONE (updTwm (fun t => { t with resp := resp, held := false }) s1)

/-- A request is pending with tag `tag`. -/
def State.pendingTag (s : State) (tag : Nat) : Bool :=
  s.fld R.TWM_RQSTAT F.TWM_RQSTAT_ST = 1 && s.fld R.TWM_RQSTAT F.TWM_RQSTAT_TAG = tag

/-- An outcome goes to its origin: the two-wire port while the request is still pending, or a RESP to the root. -/
def answerOrigin (o : Origin) (st : Nat) (resp : List Byte) (s : State) : State :=
  match o with
  | .host tag => if s.pendingTag tag.toNat then endRequest st resp s else s
  | .domain tag =>
    let payload := natLe 1 st ++ natLe 1 tag.toNat ++ resp
    if s.isRoot then s else routeFrame 0 (s.ownFrame .resp 0 payload) s

/-- The device address that a record names as an origin (Table 12-7). -/
def State.originAddr (s : State) : Origin → Nat
  | .host _ => s.myAddr
  | .domain _ => 0

end Sys2Proof.Machine
end

