-- ==== Sys2Proof/Machine/Mailbox.lean ====
section
/-! DEFINITION. The mailbox lanes (R29-R31, R292): eight entries per channel, their buffers in memory 0x53. -/
namespace Sys2Proof.Machine

/-- The offset in memory 0x53 of the command buffer of entry `i`; its response buffer follows 64 bytes later. -/
def mbxOff (c i : Nat) : Nat := 0x400 * c + 0x80 * i

def State.mbxFree (s : State) (c : Nat) : List Nat := (List.range 8).filter fun i => (s.mbxOf c i).isNone

/-- The oldest posted entry of channel `c`. -/
def State.mbxOldest (s : State) (c : Nat) : Option (Nat × MbxEntry) :=
  (List.range 8).foldl (fun best i =>
    match s.mbxOf c i, best with
    | some e, none => if e.taken then none else some (i, e)
    | some e, some b => if !e.taken && e.order < b.2.order then some (i, e) else some b
    | none, b => b) none

/-- The next place in posting order. -/
def State.mbxOrder (s : State) (c : Nat) : Nat :=
  (List.range 8).foldl (fun n i => match s.mbxOf c i with | some e => max n (e.order + 1) | none => n) 0

/-- The management plane posts a command in one of the free entries; a full lane answers busy, a channel in reset with peer-reset status. -/
def mbxPost (c : Nat) (o : Origin) (cmd : List Byte) (s : State) : State :=
  if !s.chanUp c then answerOrigin o 11 [] s
  else if s.mbxFree c = [] then answerOrigin o 8 [] s
  else
    let i := pick (s.mbxFree c) s
    setMbx c i.1 (some { taken := false, order := s.mbxOrder c, time := s.clock, len := cmd.length, origin := o,
                         reported := false })
      (setBytes 0x53 (mbxOff c i.1) cmd (clearMem 0x53 (mbxOff c i.1) 64 (wordsWritten 0x53 (mbxOff c i.1) 64 i.2)))

def execMbxPost (c : Fin 4) (o : Origin) (cmd : List Byte) (s : State) : Host.Outcome State Fault Refusal :=
  .next (if 1 ≤ cmd.length && cmd.length ≤ 64 then twmCmd (mbxPost c o cmd) s else s)

/-- The taking of R30: the read of `MBX_TAKE`. -/
def mbxTake (c : Nat) (s : State) : Word × State :=
  match s.mbxOldest c with
  | none => (0, s)
  | some (i, e) =>
    (BitVec.ofNat 32 (2 ^ 31 + i * 256 + e.len), setMbx c i (some { e with taken := true, time := s.clock }) s)

def execMbxTakeRead (c : Fin 4) (s : State) : Host.Outcome State Fault Refusal :=
  .next (if s.chanUp c && s.mgmtUp then readCmd (mbxTake c (wakeUp 3 s)) else s)

/-- A response of `len` bytes has a poisoned word. -/
def State.respBad (s : State) (c i len : Nat) : Bool :=
  (List.range ((len + 7) / 8)).any fun w => s.poisoned 0x53 (mbxOff c i + 64 + 8 * w)

/-- `MBX_DONE`: the response goes to the origin, or, after taken-no-response has been reported, is logged and discarded. With a
poisoned word in it the request fails: an access of its own failed (Table 12-2, Table 16-6; log 164). -/
def mbxDone (c i len : Nat) (s : State) : State :=
  let err := updCrs c (fun x => { x with mbxErr := true }) s
  match s.mbxOf c i with
  | none => err
  | some e =>
    if !e.taken || 64 < len then err
    else
      let s1 := setMbx c i none s
      if e.reported then post .management 0x21 c (BitVec.ofNat 32 (s1.originAddr e.origin)) i s1
      else
        let s2 := seenRange 0x53 (mbxOff c i + 64) len s1
        if s2.respBad c i len then answerOrigin e.origin 7 [] s2
        else answerOrigin e.origin 2 (s2.bytesAt 0x53 (mbxOff c i + 64) len) s2

def execMbxDone (c : Fin 4) (i : Fin 8) (len : BitVec 7) (s : State) : Host.Outcome State Fault Refusal :=
  .next (if s.chanUp c && s.mgmtUp then mbxDone c i len.toNat (wakeUp 3 s) else s)

/-- 50 ms without a taking: the command is withdrawn (R30). -/
def mbxNotTaken (c i : Nat) (s : State) : State :=
  match s.mbxOf c i with
  | some e => if e.taken || !s.past e.time 50000 then s else answerOrigin e.origin 9 [] (setMbx c i none s)
  | none => s

def execMbxTakeTimeout (c : Fin 4) (i : Fin 8) (s : State) : Host.Outcome State Fault Refusal :=
  .next (if s.mgmtUp then mbxNotTaken c i s else s)

/-- 100 ms without a response: reported to the origin and recorded; the entry stays occupied (R30). -/
def mbxNoResp (c i : Nat) (s : State) : State :=
  match s.mbxOf c i with
  | some e =>
    if e.taken && !e.reported && s.past e.time 100000 then
      post .management 0x20 c (BitVec.ofNat 32 (s.originAddr e.origin)) i
        (answerOrigin e.origin 10 [] (setMbx c i (some { e with reported := true }) s))
    else s
  | none => s

def execMbxResponseTimeout (c : Fin 4) (i : Fin 8) (s : State) : Host.Outcome State Fault Refusal :=
  .next (if s.mgmtUp then mbxNoResp c i s else s)

/-- An entry is answered with peer-reset status and freed (R31, R307). -/
def mbxFlush (c i : Nat) (s : State) : State :=
  match s.mbxOf c i with
  | some e => let s1 := setMbx c i none s; if e.reported then s1 else answerOrigin e.origin 11 [] s1
  | none => s

/-- The entries that the course has taken are flushed (R307). -/
def mbxFlushTaken (c : Nat) (s : State) : State :=
  forEach (List.range 8) (fun i t =>
    match t.mbxOf c i with
    | some e => if e.taken then mbxFlush c i t else t
    | none => t) s

/-- A channel reset flushes its lane (R31). -/
def mbxFlushLane (c : Nat) (s : State) : State := forEach (List.range 8) (mbxFlush c) s

end Sys2Proof.Machine
end

