-- ==== Sys2Proof/Machine/Course.lean ====
section
/-! DEFINITION. Courses (chapter 11): the bridge's vote, disagreements, retunes, restarts and the first watchdog stage. -/
namespace Sys2Proof.Machine

/-! ### Strings -/

def Course.str (x : Course) : Nat → Str
  | 0 => x.s0
  | 1 => x.s1
  | _ => x.s2

def Course.setStr (x : Course) (i : Nat) (v : Str) : Course :=
  match i with
  | 0 => { x with s0 := v }
  | 1 => { x with s1 := v }
  | _ => { x with s2 := v }

def State.crsState (s : State) (c : Nat) : Nat := s.fld (R.CRS_STAT c) F.CRS_STAT_STATE

/-- String `i` of course `c` is parked (R301). -/
def State.parked (s : State) (c i : Nat) : Bool := s.flag (R.CRS_STAT c) (F.CRS_STAT_PARK.bit i)

/-- The strings whose requests the bridge counts: neither isolated nor parked. -/
def State.active3 (s : State) (c : Nat) : List Nat :=
  ([0, 1, 2] : List Nat).filter fun i => !s.parked c i && (s.crsOf c).iso != some i

/-- The string that speaks for the pair: the lowest that counts. -/
def State.lead (s : State) (c : Nat) : Str := (s.crsOf c).str ((s.active3 c).headD 0)

/-- Every string that counts takes a new state. -/
def updStrs (c : Nat) (f : Str → Str) (s : State) : State :=
  let l := s.active3 c
  updCrs c (fun x => l.foldl (fun y i => y.setStr i (f (y.str i))) x) s

/-! ### The vote (R295, R298) -/

/-- A vote: the value that at least two strings present and the string outvoted, or no majority. -/
inductive Vote (α : Type) where
  | agree (v : α)
  | outvoted (v : α) (i : Nat)
  | noMajority
deriving DecidableEq, Repr

def vote {α : Type} [DecidableEq α] : List (Nat × α) → Vote α
  | [(i, a), (j, b), (k, d)] =>
    if a = b then (if a = d then .agree a else .outvoted a k)
    else if a = d then .outvoted a j
    else if b = d then .outvoted b i
    else .noMajority
  | [(_, a), (_, b)] => if a = b then .agree a else .noMajority
  | _ => .noMajority

def raiseCrs (c : Nat) (f : Fld) (s : State) : State := raise (R.CRS_EVT c) (R.CRS_EVTEN c) f s

/-! ### Restart (R306, R307) -/

/-- The codes of Table 11-5. -/
inductive RCause where
  | held | start | nomaj | duplex | xdouble | wdog | ueccD | ueccC | host | update
deriving DecidableEq, Repr

def RCause.code : RCause → Nat
  | .held => 0 | .start => 1 | .nomaj => 2 | .duplex => 3 | .xdouble => 4 | .wdog => 5 | .ueccD => 6 | .ueccC => 7
  | .host => 8 | .update => 9

/-- The strings stop: step 1 of R307, with the event, the count and the record. -/
def beginRestart (c : Nat) (k : RCause) (s : State) : State :=
  let pc := (s.lead c).pc
  let s1 := setFld (R.CRS_STAT c) F.CRS_STAT_RCAUSE k.code (setFld (R.CRS_STAT c) F.CRS_STAT_STATE 3 s)
  let s2 := updCrs c (fun x =>
    { x with sleep := false, stall := false, haltReq := false, halted := false,
             wdStart := if x.halted then x.wdStart + (s1.clock - x.haltAt) else x.wdStart }) s1
  let s3 := post .data 0x12 c pc k.code (incFld (R.CRS_CNT c) F.CRS_CNT_RST (raiseCrs c F.CRS_EVT_RESTART s2))
  let s4 := if k = .xdouble || k = .wdog then noteFailure c s3 else s3
  if k = .host || k = .update then s4 else raiseSum F.FLT_SUM_CRSRST s4

/-- An entry of `CTX_EVQ` names pan `i`: kinds 1-7, but for the result of a command that names none (Table 05-3). -/
def EvEntry.names (e : EvEntry) (i : Nat) : Bool :=
  e.pan = i && match e.kind with
    | .bound | .closing | .timerA | .timerB => false
    | _ => !e.noPan

/-- Pans that firmware owns and that no unread `CTX_EVQ` entry names become free. -/
def freeFwPans (c : Nat) (s : State) : State :=
  forEach (List.range 256) (fun i t =>
    if t.panOf c i = .firmware && !((t.chanOf c).evq.any fun e => e.names i) then setPan c i .free t else t) s

/-- The firmware that starts anew on port `p` knows only what the hardware shows it: a port in INRUSH armed that holds a context is to
be turned on (R307). DESIGN CHOICE, log 156. -/
def restartFw (p : Nat) (s : State) : State :=
  let due : Bool := (s.mirOf p).state = .inrush && (s.mirOf p).armed && s.bound p
  updFw p (fun _ => { Fw.init with staleA := s.pendTimer p false, staleB := s.pendTimer p true, onWait := due }) s

/-- The registers, data RAM and latches of a course at its start (R305, R307). A parked string stays parked. -/
def startCourse (c : Nat) (s0 : State) : State :=
  let s := forEach ((List.range 128).map (128 * c + ·)) restartFw s0
  let s1 := wordsWritten (0x10 + c) 0 0x10000 (clearMem (0x10 + c) 0 0x10000 s)
  let s2 := updCrs c (fun x =>
    { Course.init with wdStart := s1.clock, wdFirst := x.wdFirst, second := x.second, out := x.out,
                       mbxErr := x.mbxErr }) s1
  setFld (R.CRS_STAT c) F.CRS_STAT_RETUNING 0 (setFld (R.CRS_STAT c) F.CRS_STAT_STATE 1 s2)

/-- Writes code RAM from what the boot controller reads of the active or the staging slot. -/
def writeCode (c : Nat) (code : List Byte) (s : State) : State :=
  setBytes c 0 (code.take 0x30000) (wordsWritten c 0 0x30000 (clearMem c 0 0x30000 s))

/-- Steps 2 to 6 of R307, once the stores of the store buffer have landed. -/
def finishRestart (c : Nat) (code : List Byte) (s : State) : State :=
  let k := s.fld (R.CRS_STAT c) F.CRS_STAT_RCAUSE
  let s1 := freeFwPans c (mbxFlushTaken c s)
  startCourse c (if k = 7 || k = 9 then writeCode c code s1 else s1)

/-- The course waits on an access into the stopped clock (R345, R346). -/
def State.crsHung (s : State) (c : Nat) : Bool := (s.crsOf c).hung && !s.tclk

/-- A restart in progress ends, which an access that hangs keeps from its end (R310, R345). `code` is what the boot controller
writes to code RAM for the causes UECC_C and UPDATE. -/
def courseRestart (c : Nat) (code : List Byte) (s : State) : State :=
  if s.crsState c = 3 ∧ (s.crsOf c).sbuf = [] ∧ !s.crsHung c then finishRestart c code s else s

/-- `CRS_CMD.RESTART`: no effect on a held course (R312). -/
def cmdRestart (c : Nat) (s : State) : State :=
  if s.crsState c = 0 ∨ s.crsState c = 3 then s else beginRestart c .host s

def execCrsRestart (c : Fin 4) (s : State) : Host.Outcome State Fault Refusal :=
  .next (access .host (R.CRS_CMD c) (cmdRestart c) s)

/-! ### Disagreement, retune and parking (R299–R302) -/

/-- The outvotes of string `i` in the current second of USEC, this one included. -/
def countOut (c i : Nat) (s : State) : Nat × State :=
  let x := s.crsOf c
  let now := s.tb.usec.toNat / 1000000
  let t := if x.second = now then x.out else []
  let n := tabGet 0 t i + 1
  (n, updCrs c (fun y => { y with second := now, out := tabSet 0 t i n }) s)

/-- A string is parked. -/
def park (c i : Nat) (s : State) : State :=
  let s1 := setFld (R.CRS_STAT c) F.CRS_STAT_DUPLEX 1 (setFlag (R.CRS_STAT c) (F.CRS_STAT_PARK.bit i) true s)
  post .data 0x11 c 0 i (raiseSum F.FLT_SUM_DUPLEX (raiseCrs c F.CRS_EVT_PARK s1))

/-- A string is isolated until its retune. -/
def isolate (c i : Nat) (s : State) : State :=
  setFld (R.CRS_STAT c) F.CRS_STAT_RETUNING 1 (updCrs c (fun x => { x with iso := some i }) s)

/-- String `i` is outvoted on a request of kind `kind`; `word` is the word of a scan. -/
def outvote (c i kind word : Nat) (s : State) : State :=
  let s1 := if (s.active3 c).headD 0 = i then ((s.crsOf c).str ((s.active3 c).getD 1 0)).pc else (s.lead c).pc
  let dis := i * 2 ^ 30 + kind * 2 ^ 27 + word
  let s2 := setReg (R.CRS_LASTPC c) s1 (setReg (R.CRS_LASTDIS c) (BitVec.ofNat 32 dis) (raiseCrs c F.CRS_EVT_DISAGREE s))
  let s3 := post .data 0x10 c s1 (i * 2 ^ 14 + kind * 2 ^ 11 + word) s2
  let n := countOut c i s3
  if s.fld (R.CRS_CFG c) F.CRS_CFG_RTMAX < n.1 then park c i n.2 else isolate c i n.2

/-- The bridge compares one request of the strings: the voted value goes on, a disagreement that cannot be masked restarts
the course. -/
def bridge {α : Type} [DecidableEq α] (c kind word : Nat) (f : Str → α) (k : α → State → State) (s : State) : State :=
  let l := s.active3 c
  match vote (l.map fun i => (i, f ((s.crsOf c).str i))) with
  | .agree v => k v s
  | .outvoted v i => k v (outvote c i kind word s)
  | .noMajority => beginRestart c (if l.length = 3 then .nomaj else .duplex) s

/-- The 27 per-string words in the order of R296. -/
def Str.word (x : Str) (i : Nat) : Word :=
  if i < 15 then tabGet 0 x.g (i + 1)
  else match i with
    | 15 => x.pc | 16 => x.mlo | 17 => x.mhi | 18 => x.lc | 19 => x.ls | 20 => x.le | 21 => x.st | 22 => x.epc
    | 23 => x.estat | 24 => x.xpc | 25 => x.xcause | _ => x.xstat

/-- Sets one of the 27 words; bits that no string holds stay 0. -/
def Str.setWord (x : Str) (i : Nat) (v : Word) : Str :=
  if i < 15 then { x with g := tabSet 0 x.g (i + 1) v }
  else match i with
    | 15 => { x with pc := v } | 16 => { x with mlo := v } | 17 => { x with mhi := v } | 18 => { x with lc := v }
    | 19 => { x with ls := v &&& 0xFFFFFFFC } | 20 => { x with le := v &&& 0xFFFFFFFC } | 21 => { x with st := v &&& 0x9F } | 22 => { x with epc := v }
    | 23 => { x with estat := v } | 24 => { x with xpc := v } | 25 => { x with xcause := v } | 26 => { x with xstat := v }
    | _ => x

/-- The course is at a boundary: running, not stalled, waiting on no access. -/
def State.crsRuns (s : State) (c : Nat) : Bool :=
  s.chanUp c && s.crsState c = 1 && !(s.crsOf c).stall && !s.crsHung c

/-- 256 cycles have passed since a scan fell due (R296). -/
def State.scanDue (s : State) (c : Nat) : Bool := 256 ≤ (s.crsOf c).scanAge

/-- The scan of R296 compares its next word. -/
def bridgeScan (c : Nat) (s : State) : State :=
  let w := (s.crsOf c).scan
  bridge c 6 w (fun x => x.word w) (fun _ t => t)
    (updCrs c (fun x => { x with scan := (w + 1) % 27, scanAge := x.scanAge % 256 }) s)

/-- The cycles of a sleep are counted at its end, so a sleeping course's scan may fall due at any time. -/
def execBridgeScan (c : Fin 4) (s : State) : Host.Outcome State Fault Refusal :=
  .next (if s.crsRuns c && (s.scanDue c || (s.crsOf c).sleep) then bridgeScan c s else s)

/-- The stall of 40 cycles begins: the isolated string takes the pair's state, and products in flight keep their places in
the instruction stream (R278, R300, R303). -/
def retuneStall (c i : Nat) (s : State) : State :=
  let x := s.lead c
  updCrs c (fun y =>
    { (y.setStr i x) with stall := true, cycle := y.cycle + 40,
                          scanAge := if y.halted then y.scanAge else y.scanAge + 40 }) s

/-- The boundary at which a stall begins: the course runs, or debug has halted it there, and no access is outstanding. -/
def State.stallDue (s : State) (c : Nat) : Bool :=
  s.chanUp c && (s.crsState c = 1 || s.crsState c = 2) && !(s.crsOf c).stall && !s.crsHung c

def execRetuneStall (c : Fin 4) (s : State) : Host.Outcome State Fault Refusal :=
  .next (match (s.crsOf c).iso with
    | some i => if s.stallDue c then retuneStall c i s else s
    | none => s)

def rtFld (i : Nat) : Fld :=
  match i with
  | 0 => F.CRS_CNT_RT0
  | 1 => F.CRS_CNT_RT1
  | _ => F.CRS_CNT_RT2

/-- A halt takes effect (R308). -/
def haltCourse (c : Nat) (s : State) : State :=
  setFld (R.CRS_STAT c) F.CRS_STAT_STATE 2 (updCrs c (fun x => { x with haltReq := false, halted := true, haltAt := s.clock }) s)

/-- The string rejoins; a halt that was requested meanwhile takes effect. -/
def retuneRejoin (c i : Nat) (s : State) : State :=
  let s1 := setFld (R.CRS_STAT c) F.CRS_STAT_RETUNING 0 (updCrs c (fun x => { x with iso := none, stall := false }) s)
  let s2 := raiseSum F.FLT_SUM_RETUNE (incFld (R.CRS_CNT c) (rtFld i) (raiseCrs c F.CRS_EVT_RETUNE s1))
  if (s2.crsOf c).haltReq then haltCourse c s2 else s2

def execRetuneRejoin (c : Fin 4) (s : State) : Host.Outcome State Fault Refusal :=
  .next (match (s.crsOf c).iso with
    | some i => if s.chanUp c && (s.crsOf c).stall then retuneRejoin c i s else s
    | none => s)

/-- `CRS_CMD.UNPARK`: the parked string is retuned and its count of the second cleared (R302). -/
def cmdUnpark (c : Nat) (s : State) : State :=
  forEach ([0, 1, 2] : List Nat) (fun i t =>
    if t.parked c i then
      isolate c i (updCrs c (fun x => { x with out := tabSet 0 x.out i 0 })
        (setFld (R.CRS_STAT c) F.CRS_STAT_DUPLEX 0 (setFlag (R.CRS_STAT c) (F.CRS_STAT_PARK.bit i) false t)))
    else t) s

def execCrsUnpark (c : Fin 4) (s : State) : Host.Outcome State Fault Refusal :=
  .next (access .host (R.CRS_CMD c) (cmdUnpark c) s)

/-- A write of `CRS_CMD`: `UNPARK` acts first (Table 11-6). -/
def crsCmd (c : Nat) (v : Word) (s : State) : State :=
  let s1 := if F.CRS_CMD_UNPARK.get v = 1 then cmdUnpark c s else s
  if F.CRS_CMD_RESTART.get v = 1 then cmdRestart c s1 else s1

/-! ### The course watchdog (R309) -/

/-- The present of the course watchdog: it pauses while debug halts the course (R308), and it goes on with the hub's microseconds
where USEC stands still with TCLK (log 162). -/
def State.wdNow (s : State) (c : Nat) : Nat := if (s.crsOf c).halted then (s.crsOf c).haltAt else s.clock

/-- A course store to `CRS_WDKICK`. -/
def wdKick (c : Nat) (v : Word) (s : State) : State :=
  if v = 0xC3A5 then updCrs c (fun x => { x with wdStart := s.wdNow c, wdFirst := false }) s
  else raiseCrs c F.CRS_EVT_WDBAD s

def execCrsWdkick (c : Fin 4) (v : Word) (s : State) : Host.Outcome State Fault Refusal :=
  .next (if s.chanUp c && s.crsState c = 1 then wdKick c v s else s)

/-- The store of a kick at the course's own address of `CRS_WDKICK`. -/
def StoreReq.kicks (e : StoreReq) : Bool := e.addr = 0x8201C && e.width = 4 && e.data = 0xC3A5

/-- A kick of course `c` falls in this same tick: it waits behind the watchdog's expiry. -/
def State.kickWaits (s : State) (c : Fin 4) : Bool :=
  let kick (i : Instr) : Bool := match i with
    | .crsWdkick d v => d = c && v = 0xC3A5
    | .registerWrite (.course d) a v => d = c && a.toNat / 4 * 4 = 0x8201C && v = 0xC3A5
    | _ => false
  let land (i : Instr) : Bool := match i with
    | .storeLanding d => d = c
    | _ => false
  s.pending.any kick || ((s.crsOf c).sbuf.take (s.pending.countP land)).any StoreReq.kicks

/-- `WD_MS` has passed since the course's start or its last kick; a course that debug has halted waits (R308, R309). -/
def State.wdDue (s : State) (c : Nat) : Bool :=
  s.chanUp c && !(s.crsOf c).halted && (s.crsState c = 1 || s.crsState c = 3) &&
  s.past (s.crsOf c).wdStart (1000 * s.fld (R.CRS_CFG c) F.CRS_CFG_WD_MS)

/-- The first stage: the course restarts with cause WDOG, and the second stage counts from here (R310). -/
def courseWatchdog (c : Nat) (s : State) : State :=
  let s1 := post .data 0x13 c 0 0 (raiseCrs c F.CRS_EVT_WDOG s)
  beginRestart c .wdog (updCrs c (fun x => { x with wdFirst := true, wdStart := s.clock }) s1)

/-- A kick of the same tick wins (Table 11-6). -/
def execCourseWatchdog (c : Fin 4) (s : State) : Host.Outcome State Fault Refusal :=
  .next (if s.wdDue c && !(s.crsOf c).wdFirst && !s.kickWaits c then courseWatchdog c s else s)

/-- The watchdog time left, ms. -/
def State.wdLeft (s : State) (c : Nat) : Nat :=
  if s.crsState c = 0 then 0 else s.fld (R.CRS_CFG c) F.CRS_CFG_WD_MS - (s.wdNow c - (s.crsOf c).wdStart) / 1000

end Sys2Proof.Machine
end

