-- ==== Sys2Proof/Machine/Phy.lean ====
section
/-! DEFINITION. The PHY of a port and the channel's protocol-layer hub (chapter 05): messages in and out, GoodCRC and
retries, chunking, hub answers, resets of the protocol layer, keep-alive. Message type codes are those of USB Power
Delivery Revision 3.2 (PRESUMED). -/
namespace Sys2Proof.Machine

/-! ### Messages as bytes -/

def msgHeader (l : List Byte) : Nat := leNat (l.take 2)
def msgType (l : List Byte) : Nat := msgHeader l % 32
def msgRev (l : List Byte) : Nat := msgHeader l / 64 % 4
def msgId (l : List Byte) : Nat := msgHeader l / 512 % 8
def msgNdo (l : List Byte) : Nat := msgHeader l / 4096 % 8
def msgExt (l : List Byte) : Bool := msgHeader l / 32768 % 2 = 1

/-- Data object `i` of a message. -/
def msgObj (l : List Byte) (i : Nat) : Nat := leNat ((l.drop (2 + 4 * i)).take 4)

def extHeader (l : List Byte) : Nat := leNat ((l.drop 2).take 2)
def extSize (l : List Byte) : Nat := extHeader l % 512
def extReq (l : List Byte) : Bool := extHeader l / 1024 % 2 = 1
def extNum (l : List Byte) : Nat := extHeader l / 2048 % 16

def isCtl (l : List Byte) (t : Nat) : Bool := !msgExt l && msgNdo l = 0 && msgType l = t
def isData (l : List Byte) (t : Nat) : Bool := !msgExt l && msgNdo l != 0 && msgType l = t
def isExtMsg (l : List Byte) (t : Nat) : Bool := msgExt l && msgType l = t

/-- A message header with the fields that firmware and the hub supply; the port die fills in the rest (R152). -/
def mkHeader (t ndo : Nat) (ext : Bool) : List Byte := natLe 2 (t + 4096 * ndo + 32768 * ext.toNat)

def ctlMsg (t : Nat) : List Byte := mkHeader t 0 false

/-- The header as sent: MessageID, source and DFP roles (cable plug 0 on SOP'), revision (R152). -/
def fillHeader (rev id : Nat) (sp : Sop) (l : List Byte) : List Byte :=
  let h := msgHeader l
  let roles := match sp with
    | .sop => 32 + 256
    | _ => 0
  natLe 2 (h % 32 + roles + 64 * (if rev = 1 then 1 else 2) + 512 * id + h / 4096 * 4096) ++ l.drop 2

def isStructuredVdm (l : List Byte) : Bool := isData l 15 && msgObj l 0 / 2 ^ 15 % 2 = 1

def epRKeepAlive (l : List Byte) : Bool := isExtMsg l 16 && l.getD 4 0 = 3 && !extReq l

/-- EPR_KeepAlive_Ack: Extended_Control type 4. -/
def kaAckMsg : List Byte := mkHeader 16 1 true ++ natLe 2 (0x8000 + 2) ++ natLe 2 4

/-- Who handles a received message (Table 05-4), other than GoodCRC, BIST and signalling. -/
inductive Handler where
  | chunkReq | reject | notSup | kaAck | firmware
deriving DecidableEq, Repr

/-- The control, data and extended types that firmware handles. -/
def fwCtl : List Nat := [3, 4, 6, 7, 11, 12, 13, 16, 17, 18, 20, 23, 24]
def fwData : List Nat := [2, 4, 5, 6, 9, 10, 12]
def fwExt : List Nat := [2, 5, 6, 7, 15, 16, 18]

def handlerOf (kind : Nat) (l : List Byte) : Handler :=
  if msgExt l then
    if extReq l then .chunkReq
    else if epRKeepAlive l && kind = 2 then .kaAck
    else if msgType l ∈ fwExt then .firmware else .notSup
  else if msgNdo l = 0 then
    if msgType l = 9 || msgType l = 10 then .reject
    else if msgType l ∈ fwCtl then .firmware else .notSup
  else if msgType l ∈ fwData || isStructuredVdm l then .firmware else .notSup

/-- The hub's or port die's refusal: Not_Supported, or Reject with `REV` = 2.0 (R160). -/
def refusal (rev : Nat) : List Byte := if rev = 1 then ctlMsg 4 else ctlMsg 16

/-! ### Port die registers and events of the protocol layer -/

def setDieReg (a : Nat) (v : Word) (s : State) : State := { s with dieRegs := tabSet (regReset a) s.dieRegs a v }

/-- The keep-alive kind in force on the port die; 0b11 acts as 0b00. -/
def State.kaKind (s : State) (p : Nat) : Nat := s.dfld (R.PRT_PDKA p) F.PRT_PDKA_KIND % 3

/-- An event of `PRT_PDEVT`: it reaches the hub, or waits in the port die while the link is down. -/
def pdEvent (p : Nat) (f : Fld) (s : State) : State :=
  if s.portUp p then raisePd p f s
  else updPhy p (fun y => { y with pdEvt := y.pdEvt ||| BitVec.ofNat 7 (2 ^ f.lo) }) s

/-- Takes part in SOP' traffic (R142, R203). -/
def State.soppOn (s : State) (p : Nat) : Bool :=
  s.cls p = 1 && s.flag (R.PRT_PDCFG p) F.PRT_PDCFG_SOPP_EN && (s.portOf p).vconn

/-! ### Results of transmissions -/

/-- A transmission's result reaches the hub, or waits in the mirror while the link is down. -/
def txResult (p : Nat) (k : EvKind) (sp : Sop) (pan : Nat) (s : State) : State :=
  if s.portUp p then (if s.chanUp (p / 128) then postMsg p k sp 0 pan false s else s)
  else updPhy p (fun y => { y with late := y.late ++ [(k, pan, s.tb.usec.truncate 32)] }) s

/-- The SOP type of a chain. -/
def State.chainSop (s : State) (c i : Nat) : Sop := if descSop (s.panDesc c i) = 1 then .sopp else .sop

/-- A chain ends with a result. -/
def endChain (p : Nat) (k : EvKind) (i : Nat) (s : State) : State := txResult p k (s.chainSop (p / 128) i) i s

/-- Drops the message in the TX buffer; a firmware chain is posted as TX discarded. -/
def dropTx (p : Nat) (s : State) : State :=
  match (s.phyOf p).tx with
  | none => s
  | some b =>
    let s1 := updPhy p (fun y => { y with tx := none }) s
    match b.origin with
    | .answer => s1
    | .chain i => endChain p .txDiscarded i s1
    | .chunk i _ => endChain p .txDiscarded i (updHub p (fun h => { h with chunkTx := none }) s1)

/-! ### Filling the TX buffer -/

/-- AMS switches Rp on this port (R147). -/
def State.amsActive (s : State) (p : Nat) : Bool :=
  s.cls p = 1 && decide (2 ≤ s.dfld (R.PRT_CCCFG p) F.PRT_CCCFG_RP) && (s.phyOf p).rev = 2

/-- Puts a message in the TX buffer; one marked `AMS` switches Rp to 1.5 A first, unless it stands there, and is held until tSinkTx
has passed since the switch. -/
def putTx (p : Nat) (sp : Sop) (bytes : List Byte) (o : TxOrigin) (ams amsEnd : Bool) (s : State) : State :=
  let act := ams && s.amsActive p
  let switch := act && !(s.phyOf p).sinkTx
  updPhy p (fun y => { y with
    sinkTx := y.sinkTx || act
    ngAt := if switch then s.clock else y.ngAt
    ngDone := y.ngDone && !switch
    tx := some { sop := sp, bytes := bytes, origin := o, amsEnd := amsEnd, waitNg := act && (switch || !y.ngDone), begun := false,
                 tries := 0, start := 0 } }) s

/-- Chunk `k` of a message in joined form: 26 data bytes, padded to a four-byte boundary (R158). -/
def chunkOf (m : List Byte) (k : Nat) : List Byte :=
  let size := m.length - 4
  let part := ((m.drop 4).drop (26 * k)).take 26
  let body := natLe 2 (0x8000 + 2048 * k + size) ++ part
  let pad := (4 - body.length % 4) % 4
  mkHeader (msgType m) ((body.length + pad) / 4) true ++ body ++ List.replicate pad 0

/-- Chunk `k` is the last of a message of `len` bytes in joined form. -/
def lastChunk (len k : Nat) : Bool := len - 4 <= 26 * (k + 1)

/-- The partial chain of an abandoned assembly is posted as CHUNK_ERR; pans it does not fill are free again. -/
def abandonRx (p : Nat) (s : State) : State :=
  match (s.hubOf p).chunkRx with
  | none => s
  | some a =>
    let bytes := a.header ++ natLe 2 (0x8000 + a.size) ++ a.data
    let used := a.pans.take (pansFor bytes.length)
    landChain p .chunkErr a.sop bytes a.usec.toNat used
      (ownPans (p / 128) (a.pans.drop (pansFor bytes.length)) .free (updHub p (fun h => { h with chunkRx := none }) s))

/-- The hub reads the pans of the chain from pan `i` (R315). -/
def seenChain (c i : Nat) (s : State) : State := forEach (s.txChain c i) (fun j => seenRange (0x20 + c) (panOff j) 64) s

/-- A pan of the chain from pan `i` is poisoned. -/
def State.chainBad (s : State) (c i : Nat) : Bool :=
  (s.txChain c i).any fun j => (List.range 8).any fun w => s.poisoned (0x20 + c) (panOff j + 8 * w)

/-- A chain goes to the TX buffer, an extended message as its first chunk. A poisoned pan abandons it (Table 12-2). A
Soft_Reset on SOP starts the SOP counter at 0 and abandons the assembly (Table 05-1). -/
def loadChain (p i : Nat) (s0 : State) : State :=
  let c := p / 128
  let s := seenChain c i s0
  let d := s.panDesc c i
  let l := s.txChain c i
  let m := s.chainBytes c l (descLen d)
  let sp := s.chainSop c i
  if s.chainBad c i then endChain p .txIncomplete i s
  else if msgExt m then
    putTx p sp (chunkOf m 0) (.chunk i 0) (descAms d) (descAmsEnd d && lastChunk m.length 0)
      (updHub p (fun h => { h with chunkTx := some { pan := i, num := 0, awaitReq := false, since := 0 } }) s)
  else
    let s1 := if isCtl m 13 && sp = .sop then abandonRx p (updPhy p (fun y => { y with txIdSop := 0 }) s) else s
    putTx p sp m (.chain i) (descAms d) (descAmsEnd d) s1

/-- The hub answers this message itself (R157, R158, R160). -/
def State.hubOwes (s : State) (p : Nat) (m : RxBuf) : Bool :=
  handlerOf (s.kaKind p) m.bytes ≠ .firmware || (msgExt m.bytes && extNum m.bytes = 0 && 260 < extSize m.bytes)

/-- A message in the RX buffer awaits the hub's answer, which takes the TX buffer ahead of firmware's chains (R160). -/
def State.answerDue (s : State) (p : Nat) : Bool :=
  match (s.phyOf p).rx with
  | some m => s.hubOwes p m
  | none => false

/-- The TX buffer takes the next message: answers first, then firmware's chains in order. -/
def fillTx (p : Nat) (s : State) : State :=
  if (s.phyOf p).tx ≠ none then s
  else
    match (s.hubOf p).answers with
    | a :: l => putTx p a.1 a.2 .answer false false (updHub p (fun h => { h with answers := l }) s)
    | [] =>
      if !s.portUp p || !s.chanUp (p / 128) || (s.dieOf (p / 64)).hold || (s.hubOf p).chunkTx ≠ none ||
          s.answerDue p then s
      else
        match (s.hubOf p).txq with
        | i :: l => loadChain p i (updHub p (fun h => { h with txq := l }) s)
        | [] => s

/-- An answer of the hub or of the port die. -/
def answer (p : Nat) (sp : Sop) (bytes : List Byte) (s : State) : State :=
  fillTx p (updHub p (fun h => { h with answers := h.answers ++ [(sp, bytes)] }) s)

/-! ### Discards and resets (Table 05-1) -/

/-- Posts TX discarded for each chain of a list. -/
def discardChains (p : Nat) (l : List Nat) (s : State) : State := forEach l (fun i => endChain p .txDiscarded i) s

/-- Chains of port `p` held by pacing (R195). -/
def State.pacedOf (s : State) (p : Nat) : List Nat :=
  ((s.chanOf (p / 128)).paceHeld.filter fun e => e.1 = p % 128).map (·.2)

/-- The hub discards what it holds for a port, each chain posted as TX discarded, and abandons the assembly. -/
def hubDiscard (p : Nat) (s : State) : State :=
  let h := s.hubOf p
  let chunk := match h.chunkTx with
    | some t => [t.pan]
    | none => []
  let l := chunk ++ h.txq ++ s.pacedOf p
  let s1 := updHub p (fun x => { x with chunkTx := none, txq := [], answers := [] }) s
  let s2 := updChan (p / 128) (fun x => { x with paceHeld := x.paceHeld.filter fun e => e.1 != p % 128 }) s1
  abandonRx p (discardChains p l s2)

/-- The port die's counters, stored IDs and buffers; Rp is back at 3.0 A. -/
def dieProto (p : Nat) (keepRev : Bool) (s : State) : State :=
  updPhy p (fun y => { y with rx := none, tx := none, txIdSop := 0, txIdSopp := 0, rxIdSop := none, rxIdSopp := none,
                              rev := if keepRev then y.rev else 0, sinkTx := false }) s

/-- A full reset of a port's protocol layer; the hub's part waits for the link. -/
def protoReset (p : Nat) (keepRev : Bool) (s : State) : State :=
  let s1 := dieProto p keepRev (dropTx p s)
  if s1.portUp p then hubDiscard p s1 else s1

/-- Keep-alive ends: `KIND` 0 and the watchdog stops (R170). -/
def stopKa (p : Nat) (s : State) : State :=
  let a := R.PRT_PDKA p
  let s1 := updPhy p (fun y => { y with kaRun := false }) (setDieReg a (F.PRT_PDKA_KIND.put (s.dreg a) 0) s)
  if s1.portUp p then setFld a F.PRT_PDKA_KIND 0 s1 else s1

/-- The heavy-mode record of the port die clears; the hub's requests clear with it, at the return of the link where it is down
(R213, R214). -/
def clearHeavy (p : Nat) (s : State) : State :=
  let s1 := updPort p (fun x => { x with
    entered := false, mux := 0, pvmax := 0, pimax := 0, hvGone := !s.portUp p || x.hvGone }) s
  if s1.portUp p then updHub p (fun h => { h with testReq := false, exitReq := false }) s1 else s1

/-- A result of the operation queue: final, or STEP_TO. The index 64 stands for an entry that a channel reset discarded. -/
def opResult (c i : Nat) (r : OpResult) (s : State) : State :=
  if 64 ≤ i then s else if r = .stepTo then stepToOp c i s else finishOp c i r s

/-- An operation that executes in the port die ends with a result; a freed entry goes to a mark that
waits (R200). With the link down the result waits in the mirror. -/
def opEnds (p : Nat) (e : Option Nat) (r : OpResult) (s : State) : State :=
  match e with
  | some i =>
    if s.portUp p then serveMarks (p / 128) (opResult (p / 128) i r s) else updPort p (fun x => { x with opRes := x.opRes ++ [(i, r)] }) s
  | none => s

/-- The VCONN switch opens; an operation in its soft start ends CANCELLED. -/
def openVconn (p : Nat) (s : State) : State :=
  let e := (s.portOf p).vcEntry
  opEnds p e .cancelled (updPort p (fun x => { x with vconn := false, vcEntry := none }) s)

/-- The start of Hard Reset signalling, sent or received (R148, R200, R213): the port die's part, then the channel's. -/
def hardResetStart (p : Nat) (s : State) : State :=
  let s1 := clearHeavy p (openVconn p (stopKa p (protoReset p true s)))
  let s2 := updPhy p (fun y => { y with hrPend := false, bistData := false, bistCarrier := false }) s1
  if s2.portUp p && s2.chanUp (p / 128) then
    serveMarks (p / 128) (abortOps (p / 128) (p % 128) (updHub p (fun h => { h with psHardReset := false }) s2))
  else s2

/-- The end of Hard Reset signalling sent, or its receipt: the channel times tPSHardReset (R200). -/
def hardResetT0 (p : Nat) (s : State) : State :=
  if s.portUp p && s.chanUp (p / 128) then updHub p (fun h => { h with psHardReset := true, psAt := s.clock }) s
  else s

/-! ### Answers of a port die in autonomous hold (Table 12-4) -/

def holdReply (rev : Nat) (l : List Byte) : List Byte :=
  if isData l 2 || isData l 9 then ctlMsg 12
  else if epRKeepAlive l then kaAckMsg
  else if isCtl l 11 || isCtl l 9 || isCtl l 10 then ctlMsg 4
  else if isCtl l 13 then ctlMsg 3
  else refusal rev

/-! ### Receiving (R143-R146, R160, R161, R170) -/

/-- `REV` as the first message of the sink sets it (R161); 1.0 is taken as 2.0. -/
def revOf (l : List Byte) : Nat := if msgRev l ≤ 1 then 1 else 2

/-- A received Soft_Reset on SOP (Table 05-1). -/
def softResetRx (p : Nat) (s : State) : State :=
  let s1 := pdEvent p F.PRT_PDEVT_SOFT_RX
    (updPhy p (fun y => { y with txIdSop := 0, rxIdSop := none }) (dropTx p s))
  if s1.portUp p then hubDiscard p s1 else s1

/-- The BIST modes of Table 05-4: 5 is BIST Carrier Mode, 8 BIST Test Data; others are ignored. -/
def bistRx (p : Nat) (l : List Byte) (s : State) : State :=
  let x := s.portOf p
  match msgObj l 0 / 2 ^ 28 with
  | 5 =>
    if x.state = .safe5v ∨ (x.state = .contract ∧ x.vtgt = 5000) then
      pdEvent p F.PRT_PDEVT_BIST (updPhy p (fun y => { y with bistCarrier := true, bistAt := s.clock }) s)
    else s
  | 8 => pdEvent p F.PRT_PDEVT_BIST (updPhy p (fun y => { y with bistData := true }) s)
  | _ => s

/-- The watchdog restarts on the messages of R170. -/
def kaRestart (p : Nat) (l : List Byte) (s : State) : State :=
  let k := s.kaKind p
  if (k = 1 && isData l 2) || (k = 2 && (epRKeepAlive l || isData l 9)) then
    updPhy p (fun y => { y with kaStart := s.clock }) s
  else s

/-- A message that was acknowledged and is new: BIST, hold answers, or the RX buffer. -/
def acceptMsg (p : Nat) (sp : Sop) (l : List Byte) (s : State) : State :=
  let s1 := if isCtl l 13 && sp = .sop then softResetRx p s else s
  let s2 := kaRestart p l s1
  if isData l 3 then bistRx p l s2
  else if (s2.dieOf (p / 64)).hold then answer p sp (holdReply (s2.phyOf p).rev l) s2
  else updPhy p (fun y => { y with rx := some { sop := sp, bytes := l, usec := s2.tb.usec.truncate 32 } }) s2

def Phy.rxId (y : Phy) : Sop → Option Nat
  | .sopp => y.rxIdSopp
  | _ => y.rxIdSop

def Phy.setRxId (y : Phy) (sp : Sop) (i : Option Nat) : Phy :=
  match sp with
  | .sopp => { y with rxIdSopp := i }
  | _ => { y with rxIdSop := i }

/-- A refused message: no GoodCRC (R143). -/
def rxBusy (p : Nat) (s : State) : State :=
  let s1 := if s.portUp p then incFld (R.PRT_PDCNT p) F.PRT_PDCNT_RXDROP s
    else updPhy p (fun y => { y with rxDrop := y.rxDrop + 1 }) s
  pdEvent p F.PRT_PDEVT_RX_BUSY s1

/-- A whole message arrives on CC (R143, R144, R146). -/
def pdRx (p : Nat) (sp : Sop) (crcOk : Bool) (l : List Byte) (s : State) : State :=
  let pend : Bool := match (s.phyOf p).tx with
    | some b => !b.begun
    | none => false
  let s1 := if pend then dropTx p s else s
  let y := s1.phyOf p
  if !crcOk || sp = .other || (sp = .sopp && !s1.soppOn p) then fillTx p s1
  else if y.rx ≠ none then fillTx p (rxBusy p s1)
  else
    let s2 := updPhy p (fun z => { z with ack := some (msgId l) }) s1
    let soft := isCtl l 13 && sp = .sop
    if y.bistData then fillTx p s2
    else if !isCtl l 13 && y.rxId sp = some (msgId l) then fillTx p s2
    else
      let s3 := updPhy p (fun z =>
        { z.setRxId sp (if soft then none else some (msgId l)) with
          rev := if z.rev = 0 && sp = .sop then revOf l else z.rev }) s2
      fillTx p (acceptMsg p sp l s3)

/-- A packet is intact when its CRC is the CRC-32 of its bytes (R142; PRESUMED, log 176: the parameters are those of R424). -/
def execPdMessageRx (p : Fin 512) (sp : Sop) (crc : Word) (bytes : List Byte) (s : State) :
    Host.Outcome State Fault Refusal :=
  .next (if s.cls p ≠ 0 ∧ (s.portOf p).state ≠ .off ∧ (s.phyOf p).bistCarrier = false then pdRx p sp (crc = crc32 bytes) bytes s
         else s)

/-! ### Transmitting (R144-R147) -/

def Phy.txId (y : Phy) : Sop → Nat
  | .sopp => y.txIdSopp
  | _ => y.txIdSop

def Phy.incTxId (y : Phy) : Sop → Phy
  | .sopp => { y with txIdSopp := (y.txIdSopp + 1) % 8 }
  | _ => { y with txIdSop := (y.txIdSop + 1) % 8 }

/-- The message in the TX buffer begins (R146). -/
def txStart (p : Nat) (s : State) : State :=
  match (s.phyOf p).tx with
  | none => s
  | some b =>
    if b.begun || b.waitNg || (s.phyOf p).hrPend || (s.phyOf p).hrSig || (s.phyOf p).bistCarrier then s
    else
      updPhy p (fun y => { y with
        tx := some { b with begun := true, tries := b.tries + 1, start := s.clock },
        wire := fillHeader y.rev (y.txId b.sop) b.sop b.bytes }) s

def execTxStart (p : Fin 512) (s : State) : Host.Outcome State Fault Refusal := .next (txStart p s)

/-- tSinkTx has passed since Rp went to 1.5 A. -/
def sinkTxExpire (p : Nat) (s : State) : State :=
  if (s.phyOf p).sinkTx && s.past (s.phyOf p).ngAt 16000 then
    updPhy p (fun y => { y with ngDone := true, tx := y.tx.map fun b => { b with waitNg := false } }) s
  else s

def execSinktxExpire (p : Fin 512) (s : State) : Host.Outcome State Fault Refusal := .next (sinkTxExpire p s)

/-- What the standard firmware records when one of its messages draws a GoodCRC: the basis (R182, R209) and the opening
and end of a transition (R192, R210). -/
def fwAck (p : Nat) (m : List Byte) (s : State) : State :=
  let objs := (List.range (msgNdo m)).map fun i => BitVec.ofNat 32 (msgObj m i)
  let eobjs := (List.range ((m.length - 4) / 4)).map fun i => BitVec.ofNat 32 (leNat ((m.drop (4 + 4 * i)).take 4))
  let svid := s.fld (R.CHN_HVCFG (p / 128)) F.CHN_HVCFG_SVID
  let vdm (cmd : Nat) : Bool := isStructuredVdm m && msgObj m 0 / 65536 = svid && msgObj m 0 % 256 = cmd
  updFw p (fun f =>
    if isData m 1 then { f with basis := objs, caps := 0 }
    else if isExtMsg m 17 then { f with basis := eobjs, caps := 0 }
    else if vdm 16 then { f with hbasis := objs.drop 1 }
    else if isCtl m 3 || vdm 17 then { f with tran := f.tran.map fun t => { t with opened := true } }
    else if isCtl m 6 then { f with tran := none }
    else f) s

/-- A chain is done: `USEC` of its last GoodCRC is written to its first pan (Table 05-2). -/
def stampChain (p i : Nat) (usec : BitVec 32) (s : State) : State :=
  let c := p / 128
  fwAck p (s.chainBytes c (s.txChain c i) (descLen (s.panDesc c i)))
    (setBytes (0x20 + c) (panOff i + 8) (natLe 4 usec.toNat) s)

/-- TX done: the chain is stamped and the result posted; with the link down both wait for the mirror. -/
def chainDone (p i : Nat) (sp : Sop) (s : State) : State :=
  txResult p .txDone sp i (if s.portUp p && s.chanUp (p / 128) then stampChain p i (s.tb.usec.truncate 32) s else s)

/-- A matching GoodCRC (R144, R145). -/
def goodCrc (p : Nat) (sp : Sop) (id : Nat) (s : State) : State :=
  match (s.phyOf p).tx with
  | none => s
  | some b =>
    if b.tries = 0 ∨ b.sop ≠ sp ∨ (s.phyOf p).txId sp ≠ id then s
    else
      let s1 := updPhy p (fun y => { y.incTxId sp with tx := none, sinkTx := y.sinkTx && !b.amsEnd }) s
      let s2 := match b.origin with
        | .answer => s1
        | .chain i => chainDone p i sp s1
        | .chunk i k =>
          if lastChunk (descLen (s1.panDesc (p / 128) i)) k then
            chainDone p i sp (updHub p (fun h => { h with chunkTx := none }) s1)
          else updHub p (fun h => { h with chunkTx := some { pan := i, num := k, awaitReq := true, since := s.clock } }) s1
      fillTx p s2

def execGoodcrcRx (p : Fin 512) (sp : Sop) (id : BitVec 3) (s : State) : Host.Outcome State Fault Refusal :=
  .next (goodCrc p sp id.toNat s)

/-- A result TX failed counts in `PRT_PDCNT.TXFAIL`. -/
def txFailed (p i : Nat) (s : State) : State :=
  endChain p .txFailed i (if s.portUp p then incFld (R.PRT_PDCNT p) F.PRT_PDCNT_TXFAIL s else s)

/-- The retry time, at least 0.9 ms from the EOP, passes without GoodCRC (R145). -/
def txRetry (p : Nat) (s : State) : State :=
  match (s.phyOf p).tx with
  | none => s
  | some b =>
    if !b.begun || !s.past b.start 900 then s
    else if b.tries < 3 then updPhy p (fun y => { y with tx := some { b with begun := false } }) s
    else
      let s1 := updPhy p (fun y => { y with tx := none }) s
      fillTx p (match b.origin with
        | .answer => s1
        | .chain i => txFailed p i s1
        | .chunk i _ => txFailed p i (updHub p (fun h => { h with chunkTx := none }) s1))

def execTxRetry (p : Fin 512) (s : State) : Host.Outcome State Fault Refusal := .next (txRetry p s)

/-! ### The doorbell (R152, R153, R195) -/

/-- The contracted object position of a port (Table 10-7, word 8). -/
def State.objPos (s : State) (p : Nat) : Nat := (s.recOf p 8).toNat / 2 ^ 28

/-- A capabilities message that pacing counts (R195, R211). -/
def State.pacedMsg (s : State) (p : Nat) (sp : Sop) (m : List Byte) : Bool :=
  sp = .sop && s.objPos p != 0 &&
    (isData m 1 || isExtMsg m 17 ||
     (isStructuredVdm m && msgObj m 0 / 65536 = s.fld (R.CHN_HVCFG (p / 128)) F.CHN_HVCFG_SVID && msgObj m 0 % 256 = 16))

/-- The refusals of R152. -/
def State.txBad (s : State) (p : Nat) (d : Nat) (l : List Nat) (m : List Byte) : Bool :=
  let len := descLen d
  len < 2 || 264 < len || l.length < pansFor len || 1 < descSop d ||
  (!msgExt m && len != 2 + 4 * msgNdo m) || (msgExt m && (s.phyOf p).rev = 1) ||
  (descSop d = 1 && !s.soppOn p) || !(s.mirOf p).mayAlloc

/-- Hands a chain to the hub, or posts TX refused. A chain with a pan that firmware does not own has no effect and sets
`CMDERR`. -/
def ctxTx (c i : Nat) (s : State) : State :=
  let d := s.panDesc c i
  let l := s.txChain c i
  if l.any fun j => s.panOf c j ≠ .firmware then cmdErr c s
  else
    let p := 128 * c + s.leAt (0x20 + c) (panOff i + 4) 4 % 128
    let m := s.chainBytes c l (descLen d)
    let s1 := ownPans c l (.tx i) s
    if s1.txBad p d l m then postMsg p .txRefused (s1.chainSop c i) 0 i false s1
    else if s1.pacedMsg p (s1.chainSop c i) m then
      if s1.fld (R.CHN_PACESTAT c) F.CHN_PACESTAT_LEFT = 0 then
        incFld (R.CHN_PACESTAT c) F.CHN_PACESTAT_DEFER
          (updChan c (fun x => { x with paceHeld := x.paceHeld ++ [(p % 128, i)] }) s1)
      else
        fillTx p (updHub p (fun h => { h with txq := h.txq ++ [i] })
          (setFld (R.CHN_PACESTAT c) F.CHN_PACESTAT_LEFT (s1.fld (R.CHN_PACESTAT c) F.CHN_PACESTAT_LEFT - 1) s1))
    else fillTx p (updHub p (fun h => { h with txq := h.txq ++ [i] }) s1)

def execCtxTx (c : Fin 4) (pan : Fin 256) (s : State) : Host.Outcome State Fault Refusal :=
  .next (if s.chanUp c then ctxTx c pan s else s)

/-- Tokens refill to `PACE` and held chains take them in doorbell order (R195). -/
def paceRefill (c : Nat) (s : State) : State :=
  let n := clampTo 1 32 (s.fld (R.CHN_POLCFG c) F.CHN_POLCFG_PACE)
  let taken := (s.chanOf c).paceHeld.take n
  let s1 := updChan c (fun x => { x with paceHeld := x.paceHeld.drop n }) s
  let s2 := setFld (R.CHN_PACESTAT c) F.CHN_PACESTAT_LEFT (n - taken.length) s1
  forEach taken (fun e t => fillTx (128 * c + e.1) (updHub (128 * c + e.1) (fun h => { h with txq := h.txq ++ [e.2] }) t)) s2

/-! ### From the RX buffer to pans (R154, R157, R159, R160) -/

/-- The hub can reach the port's RX buffer. -/
def State.hubSees (s : State) (p : Nat) : Bool := s.portUp p && s.chanUp (p / 128) && !(s.dieOf (p / 64)).hold

def clearRx (p : Nat) (s : State) : State := updPhy p (fun y => { y with rx := none }) s

/-- Takes `n` pans one after the other, each only while more than 16 are free (R154). -/
def takePans (c : Nat) : Nat → State → List Nat × State
  | 0, s => ([], s)
  | n + 1, s =>
    if 16 < (s.freePans c).length then
      let i := pick (s.freePans c) s
      let r := takePans c n (setPan c i.1 .hub i.2)
      (i.1 :: r.1, r.2)
    else ([], s)

/-- The chunk that the assembly of a port awaits. -/
def isNextChunk (a : ChunkRx) (m : RxBuf) : Bool :=
  msgExt m.bytes && a.asked && m.sop = a.sop && extNum m.bytes = a.next && msgType m.bytes = msgType a.header

/-- The awaited chunk joins the assembly; the last one delivers the chain (R159). -/
def joinChunk (p : Nat) (a : ChunkRx) (m : RxBuf) (s : State) : State :=
  let data := a.data ++ ((m.bytes.drop 4).take (min 26 (a.size - a.data.length)))
  if a.size ≤ data.length then
    landChain p .rx a.sop (a.header ++ natLe 2 (0x8000 + a.size) ++ data) a.usec.toNat a.pans
      (updHub p (fun h => { h with chunkRx := none }) s)
  else updHub p (fun h => { h with chunkRx := some { a with data := data, next := a.next + 1, asked := false } }) s

/-- A first chunk: delivered when it is whole, otherwise the assembly begins. The joined message carries USEC of the first chunk's
EOP: DESIGN CHOICE, log 152. -/
def firstChunk (p : Nat) (m : RxBuf) (i : Nat) (s : State) : State :=
  let size := extSize m.bytes
  let data := (m.bytes.drop 4).take (min 26 size)
  if size ≤ 26 then
    landChain p .rx m.sop (m.bytes.take 2 ++ natLe 2 (0x8000 + size) ++ data) m.usec.toNat [i] s
  else
    let a : ChunkRx :=
      { sop := m.sop, pans := [i], header := m.bytes.take 2, data := data, size := size, next := 1, asked := false,
        since := 0, usec := m.usec }
    updHub p (fun h => { h with chunkRx := some a }) s

/-- A message for firmware other than an awaited chunk needs a pan; without one it waits in the RX buffer. A chunk of another number
than 0 that no assembly awaits is delivered as it came: DESIGN CHOICE, log 151. -/
def deliverMsg (p : Nat) (m : RxBuf) (s : State) : State :=
  match takePans (p / 128) 1 s with
  | (i :: _, t) =>
    let t1 := clearRx p t
    if msgExt m.bytes && extNum m.bytes = 0 then firstChunk p m i t1
    else landChain p .rx m.sop m.bytes m.usec.toNat [i] t1
  | ([], t) => t

/-- The hub moves the message in the RX buffer to a pan (R154); a Data Size above 260 is answered (R157). -/
def rxToPan (p : Nat) (m : RxBuf) (s : State) : State :=
  let awaited : Bool := match (s.hubOf p).chunkRx with
    | some a => isNextChunk a m
    | none => false
  match (s.hubOf p).chunkRx, awaited with
  | some a, true => joinChunk p a m (clearRx p s)
  | _, _ =>
    let s1 := abandonRx p s
    if msgExt m.bytes && extNum m.bytes = 0 && 260 < extSize m.bytes then
      answer p m.sop (refusal (s1.phyOf p).rev) (raisePd p F.PRT_PDEVT_CHUNK_DROP (clearRx p s1))
    else deliverMsg p m s1

def execRxToPan (p : Fin 512) (s : State) : Host.Outcome State Fault Refusal :=
  .next (match (s.phyOf p).rx with
    | some m => if s.hubSees p && handlerOf (s.kaKind p) m.bytes = .firmware then rxToPan p m s else s
    | none => s)

/-- The hub answers the message in the RX buffer (R160); a first chunk of more than 260 bytes sets `CHUNK_DROP` too (R157). -/
def hubAnswer (p : Nat) (m : RxBuf) (s : State) : State :=
  let big := msgExt m.bytes && !extReq m.bytes && extNum m.bytes = 0 && 260 < extSize m.bytes
  let reply := match handlerOf (s.kaKind p) m.bytes with
    | .reject => some (ctlMsg 4)
    | .notSup => some (refusal (s.phyOf p).rev)
    | .kaAck => some kaAckMsg
    | .chunkReq | .firmware => none
  match reply with
  | some b =>
    let s1 := clearRx p (abandonRx p s)
    answer p m.sop b (if big then raisePd p F.PRT_PDEVT_CHUNK_DROP s1 else s1)
  | none => s

def execHubAnswer (p : Fin 512) (s : State) : Host.Outcome State Fault Refusal :=
  .next (match (s.phyOf p).rx with
    | some m => if s.hubSees p then hubAnswer p m s else s
    | none => s)

/-- The sink's Chunk Request: the chunk asked for is sent; any other request is dropped (R158). -/
def chunkReqRx (p : Nat) (m : RxBuf) (s : State) : State :=
  let s1 := clearRx p (abandonRx p s)
  match (s1.hubOf p).chunkTx with
  | some t =>
    if t.awaitReq && extNum m.bytes = t.num + 1 then
      let c := p / 128
      let s2 := seenChain c t.pan s1
      let d := s2.panDesc c t.pan
      let k := t.num + 1
      if s2.chainBad c t.pan then
        fillTx p (endChain p .txIncomplete t.pan (updHub p (fun h => { h with chunkTx := none }) s2))
      else
        putTx p (s2.chainSop c t.pan) (chunkOf (s2.chainBytes c (s2.txChain c t.pan) (descLen d)) k) (.chunk t.pan k) false
          (lastChunk (descLen d) k && descAmsEnd d)
          (updHub p (fun h => { h with chunkTx := some { t with num := k, awaitReq := false } }) s2)
    else fillTx p s1
  | none => fillTx p s1

def execChunkRequestRx (p : Fin 512) (s : State) : Host.Outcome State Fault Refusal :=
  .next (match (s.phyOf p).rx with
    | some m => if s.hubSees p && handlerOf (s.kaKind p) m.bytes = .chunkReq then chunkReqRx p m s else s
    | none => s)

/-- The hub asks for the next chunk once it holds the pans for it (R154, R159). -/
def chunkReqTx (p : Nat) (s : State) : State :=
  match (s.hubOf p).chunkRx with
  | none => s
  | some a =>
    if a.asked then s
    else
      let need := pansFor (4 + min a.size (26 * (a.next + 1)))
      let r := takePans (p / 128) (need - a.pans.length) s
      let b := { a with pans := a.pans ++ r.1 }
      let ready := need ≤ b.pans.length
      let s1 := updHub p (fun h => { h with chunkRx := some { b with asked := decide ready, since := s.clock } }) r.2
      if ready then
        answer p a.sop (mkHeader (msgType a.header) 1 true ++ natLe 2 (0x8400 + 2048 * a.next) ++ natLe 2 0) s1
      else s1

def execChunkRequestTx (p : Fin 512) (s : State) : Host.Outcome State Fault Refusal :=
  .next (if s.hubSees p then chunkReqTx p s else s)

/-- tChunkSenderRequest, 24–30 ms from the chunk's GoodCRC (R158). -/
def chunkReqTimeout (p : Nat) (s : State) : State :=
  match (s.hubOf p).chunkTx with
  | some t =>
    if t.awaitReq && s.past t.since 24000 then fillTx p (endChain p .txIncomplete t.pan (updHub p (fun h => { h with chunkTx := none }) s)) else s
  | none => s

def execChunkSenderRequestTimeout (p : Fin 512) (s : State) : Host.Outcome State Fault Refusal :=
  .next (if s.hubSees p then chunkReqTimeout p s else s)

/-- tChunkSenderResponse, 24–30 ms from the GoodCRC of the Chunk Request (R159). -/
def execChunkSenderResponseTimeout (p : Fin 512) (s : State) : Host.Outcome State Fault Refusal :=
  .next (match (s.hubOf p).chunkRx with
    | some a => if a.asked && s.past a.since 24000 && s.hubSees p then abandonRx p s else s
    | none => s)

/-! ### Hard Reset and Cable Reset (R149, R150, R200) -/

/-- Hard Reset signalling arrives. In autonomous hold the port die itself times the power-down (Table 12-4). -/
def hardResetRx (p : Nat) (s : State) : State :=
  let s0 := if s.portUp p && s.chanUp (p / 128) then xover (.hrRx p) s else s
  let s1 := pdEvent p F.PRT_PDEVT_HR_RX (hardResetStart p s0)
  if (s1.dieOf (p / 64)).hold then updPhy p (fun y => { y with holdHr := true, holdHrAt := s1.clock }) s1 else hardResetT0 p s1

def execHardResetRx (p : Fin 512) (s : State) : Host.Outcome State Fault Refusal :=
  .next (if s.cls p ≠ 0 ∧ (s.portOf p).state ≠ .off then hardResetRx p s else s)

/-- `PRT_PDCMD.HARD_RESET` (R149, R171). -/
def cmdHardReset (p : Nat) (s : State) : State :=
  if !s.portUp p then cmdErr (p / 128) s
  else updPhy p (fun y => { y with hrPend := true, hrAt := s.clock }) (xover (.hrTx p) s)

def execPdHardReset (p : Fin 512) (s : State) : Host.Outcome State Fault Refusal :=
  .next (if s.chanUp (p / 128) then cmdHardReset p s else s)

/-- Signalling begins once CC is idle. -/
def hrSigStart (p : Nat) (s : State) : State :=
  if (s.phyOf p).hrPend then updPhy p (fun y => { y with hrSig := true }) (hardResetStart p s) else s

def execHardResetSignallingStart (p : Fin 512) (s : State) : Host.Outcome State Fault Refusal :=
  .next (hrSigStart p s)

/-- Signalling ends: `HR_TX`. -/
def hrSent (p : Nat) (s : State) : State :=
  if (s.phyOf p).hrSig then
    hardResetT0 p (pdEvent p F.PRT_PDEVT_HR_TX (updPhy p (fun y => { y with hrSig := false }) s))
  else s

def execHardResetSent (p : Fin 512) (s : State) : Host.Outcome State Fault Refusal := .next (hrSent p s)

/-- tHardResetComplete, 4–5 ms after the request: the reset is deemed sent. -/
def hrDeemed (p : Nat) (s : State) : State :=
  if (s.phyOf p).hrPend && s.past (s.phyOf p).hrAt (atLeast 4000) then hardResetT0 p (pdEvent p F.PRT_PDEVT_HR_TX (hardResetStart p s)) else s

def execHardResetDeemedSent (p : Fin 512) (s : State) : Host.Outcome State Fault Refusal := .next (hrDeemed p s)

/-- Cable Reset is sent: SOP' transmissions of the port are discarded and its SOP' state cleared (Table 05-1), and the request has
its result, TX done. That result names no pan: DESIGN CHOICE, log 154. -/
def cableResetSent (p : Nat) (s : State) : State :=
  let c := p / 128
  let inBuf : Bool := match (s.phyOf p).tx with
    | some b => b.sop = .sopp
    | none => false
  let s1 := if inBuf then dropTx p s else s
  let part := match (s1.hubOf p).chunkTx with
    | some t => if s1.chainSop c t.pan = .sopp then [t.pan] else []
    | none => []
  let gone := (s1.hubOf p).txq.filter fun i => s1.chainSop c i = .sopp
  let s2 := updHub p (fun h => { h with
    chunkTx := if part = [] then h.chunkTx else none
    txq := h.txq.filter fun i => i ∉ gone
    answers := h.answers.filter fun a => a.1 ≠ .sopp }) s1
  let s3 := updPhy p (fun y => { y with txIdSopp := 0, rxIdSopp := none }) (discardChains p (part ++ gone) s2)
  fillTx p (postMsg p .txDone .sopp 0 0xFF true s3)

/-- `PRT_PDCMD.CABLE_RESET` (R150, R171). -/
def cableReset (p : Nat) (s : State) : State :=
  if !s.portUp p then cmdErr (p / 128) s
  else if s.soppOn p then cableResetSent p s
  else if (s.hubOf p).noPanUnread then cmdErr (p / 128) s
  else postMsg p .txRefused .sopp 1 0xFF true (updHub p (fun h => { h with noPanUnread := true }) s)

def execPdCableReset (p : Fin 512) (s : State) : Host.Outcome State Fault Refusal :=
  .next (if s.chanUp (p / 128) then cableReset p s else s)

/-- The BIST carrier ends after 30–60 ms (Table 05-4). -/
def execBistCarrierEnd (p : Fin 512) (s : State) : Host.Outcome State Fault Refusal :=
  .next (if (s.phyOf p).bistCarrier && s.past (s.phyOf p).bistAt (atLeast 30000) then
      fillTx p (updPhy p (fun y => { y with bistCarrier := false }) s)
    else s)

/-- tPSHardReset expires: the channel creates HR_OFF (R200). -/
def hrOffDue (p : Nat) (s : State) : State :=
  if (s.hubOf p).psHardReset && s.past (s.hubOf p).psAt 25000 then
    createHrOff (p / 128) (p % 128) (updHub p (fun h => { h with psHardReset := false }) s)
  else s

def execHrOffCreate (p : Fin 512) (s : State) : Host.Outcome State Fault Refusal :=
  .next (if s.chanUp (p / 128) then hrOffDue p s else s)

/-! ### Keep-alive (R170, R171) -/

/-- A course write of `PRT_PDKA`: it restarts the watchdog; with the link down it changes the mirror only. -/
def writeKa (p : Nat) (v : Word) (s : State) : State :=
  let w := v &&& 0xC000FFFF
  let s1 := writePortReg p (R.PRT_PDKA p) w s
  if s1.portUp p then
    updPhy p (fun y => { y with kaRun := F.PRT_PDKA_KIND.get w % 3 != 0, kaStart := s.clock }) s1
  else s1

def execKeepaliveWrite (p : Fin 512) (v : Word) (s : State) : Host.Outcome State Fault Refusal :=
  .next (if s.chanUp (p / 128) then writeKa p v s else s)

/-- The watchdog time in µs. -/
def State.kaUs (s : State) (p : Nat) : Nat := 1000 * clampTo 100 20000 (s.dfld (R.PRT_PDKA p) F.PRT_PDKA_KA_MS)

/-- The watchdog expires and stops; in hold it is suspended (Table 12-4). -/
def kaExpire (p : Nat) (s : State) : State :=
  if (s.phyOf p).kaRun && !(s.dieOf (p / 64)).hold && s.past (s.phyOf p).kaStart (atLeast (s.kaUs p)) then
    pdEvent p F.PRT_PDEVT_KA_EXP (updPhy p (fun y => { y with kaRun := false }) s)
  else s

def execKaExp (p : Fin 512) (s : State) : Host.Outcome State Fault Refusal := .next (kaExpire p s)

end Sys2Proof.Machine
end

