-- ==== Sys2Proof/Machine/PortFront.lean ====
section
/-! DEFINITION. The port front end (chapter 04): attach and detach, the port state table 04-3, protection, discharge,
VCONN, and the operations as they execute in the port die. -/
namespace Sys2Proof.Machine

/-! ### CC classification (Table 04-1, R107-R109) -/

/-- Ra threshold and upper edge of the Rd window in mV at the Rp level presented. -/
def State.ccLevels (s : State) (p : Nat) : Nat × Nat :=
  match (if (s.phyOf p).sinkTx then 1 else s.dfld (R.PRT_CCCFG p) F.PRT_CCCFG_RP) with
  | 0 => (200, 1600)
  | 1 => (400, 1600)
  | _ => (800, 2600)

def isRa (l : Nat × Nat) (v : Nat) : Bool := v < l.1
def isRd (l : Nat × Nat) (v : Nat) : Bool := l.1 <= v && v <= l.2
def isOpen (l : Nat × Nat) (v : Nat) : Bool := l.2 < v

/-- The sink condition (R108, R109). -/
def State.sinkCond (s : State) (p cc1 cc2 : Nat) : Bool :=
  match s.cls p with
  | 1 =>
    let l := s.ccLevels p
    (isRd l cc1 && (isOpen l cc2 || isRa l cc2)) || (isRd l cc2 && (isOpen l cc1 || isRa l cc1))
  | 2 => 400 <= cc1 && cc1 <= 660
  | _ => false

/-- The port has accepted an attach that no later one has taken over: its sink condition stands on the `ORIENT` pin (R112). -/
def Port.oriented (x : Port) : Bool :=
  match x.state with
  | .inrush | .safe5v | .contract | .transition | .limit => true
  | .tripped | .retryWait | .lockout => x.sink && !x.attRec
  | .off | .idle | .debounce => false

/-- The sink condition at these levels: of an attached TC port on the `ORIENT` pin alone, whatever traffic and VCONN do to the
other (R112). -/
def State.condAt (s : State) (p cc1 cc2 : Nat) : Bool :=
  if s.cls p = 1 && (s.portOf p).oriented then isRd (s.ccLevels p) (if (s.portOf p).orient then cc2 else cc1)
  else s.sinkCond p cc1 cc2

/-- Rd on both pins, or Ra on both (R108). -/
def State.accessory (s : State) (p cc1 cc2 : Nat) : Bool :=
  let l := s.ccLevels p
  s.cls p = 1 && ((isRd l cc1 && isRd l cc2) || (isRa l cc1 && isRa l cc2))

/-! ### States, PGOOD, gates -/

/-- The state in which operations execute: `RET_STATE` in LIMIT (R116). -/
def Port.eff (x : Port) : PState := if x.state = .limit then x.ret else x.state

/-- Sets the state, or `RET_STATE` in LIMIT. -/
def Port.setEff (x : Port) (v : PState) (now : Nat) : Port :=
  if x.state = .limit then { x with ret := v } else { x with state := v, stAt := now }

/-- PGOOD falls (R124). -/
def pgFall (p : Nat) (s : State) : State :=
  if (s.portOf p).pgood then portEvt p F.PRT_EVT_PG_FALL (updPort p (fun x => { x with pgood := false }) s) else s

/-- The advertised current (R119), mA. -/
def State.advCur (s : State) (p : Nat) : Nat :=
  if s.cls p = 2 then 3000
  else match s.dfld (R.PRT_CCCFG p) F.PRT_CCCFG_RP with
    | 0 => 900
    | 1 => 1500
    | _ => 3000

/-- The gates that a leg drives, of the legs enabled in `PRT_CFG` (R104). -/
def State.gatesOf (s : State) (p : Nat) (l : Leg) : Bool × Bool :=
  ((l = .a || l = .ab) && s.flag (R.PRT_CFG p) F.PRT_CFG_LEGA_EN,
   (l = .b || l = .ab) && s.flag (R.PRT_CFG p) F.PRT_CFG_LEGB_EN)

/-- Everything that ends when a port stops being powered: gates, limit, steps and transfers in the port die. -/
def Port.dropPower (x : Port) : Port :=
  { x with ga := false, gb := false, limact := false, ftAcc := 0, onEntry := none, step := none, vcEntry := none,
           downEntry := none, xfer := none, disc := false, attWait := none }

/-- Discharge starts (R131); `off` marks a discharge for `ADMIN_DIS`. -/
def Port.startDisch (x : Port) (off : Bool) (now : Nat) : Port :=
  { x with disch := true, bleed := true, dischOff := off, dischAt := now }

/-- Accumulated limit-active time in µs (R120). -/
def State.ftNow (s : State) (x : Port) : Nat :=
  if x.state = .limit && x.limact then x.ftAcc + (s.clock - x.limStart) else x.ftAcc

/-- `T_FT` in force (R140). -/
def State.tFt (s : State) (p : Nat) : Nat := clampTo 1000 100000 (s.dfld (R.PRT_LIMIT p) F.PRT_LIMIT_T_FT)

/-- `T_INR` in force, µs. -/
def State.tInr (s : State) (p : Nat) : Nat := 1000 * clampTo 1 200 (s.dfld (R.PRT_INRUSH p) F.PRT_INRUSH_T_INR)

/-! ### Thresholds and windows (R118, R119, R122, R125, R140) -/

/-- `I_FT` as the comparator uses it, mA: rounded down to a multiple of 100 (R122). -/
def State.ift (s : State) (p : Nat) : Nat := clampTo 1000 50000 (s.dfld (R.PRT_FTRIP p) F.PRT_FTRIP_I_FT) / 100 * 100

/-- `RSNS`, µΩ. -/
def State.rsns (s : State) (p : Nat) : Nat := clampTo 500 20000 (s.dfld (R.PRT_SENSE p) F.PRT_SENSE_RSNS)

/-- The limit in force of a port, 0.01 mA: `I_INR` while INRUSH powers it (R118), otherwise the lower of the multiple of `ICON` and
nine tenths of the fast-trip threshold (R119). -/
def State.limit (s : State) (p : Nat) : Nat :=
  if (s.portOf p).state = .inrush then 100 * clampTo 200 10000 (s.dfld (R.PRT_INRUSH p) F.PRT_INRUSH_I_INR)
  else min (clampTo 105 200 (s.dfld (R.PRT_LIMIT p) F.PRT_LIMIT_LIM_MULT) * (s.portOf p).icon) (90 * s.ift p)

/-- A current in mA that the current loop can meet: it reaches the limit in force within ±(2 % + 10 mA) (R119). -/
def State.meetsLimit (s : State) (p ma : Nat) : Bool := 98 * s.limit p ≤ 10000 * ma + 100000

/-- The comparator's answer to `uv` µV between `ISP` and `ISN` for `ns` ns: it always trips, never trips, or none where the outcome
is unspecified (R122). The thresholds are `RSNS` times a current, in 10 pV. -/
def State.fastCrosses (s : State) (p uv ns : Nat) : Option Bool :=
  if 250 ≤ ns ∧ (105 * s.ift p + 10000) * s.rsns p < 100000 * uv then some true
  else if ns < 100 ∨ 100000 * uv < (95 * s.ift p - 10000) * s.rsns p then some false
  else none

/-- `VS` in mV lies from `a` less `PG_LO` to `b` plus `PG_HI` (R125). -/
def State.spans (s : State) (p a b vs : Nat) : Bool :=
  a * (1000 - clampTo 10 200 (s.dfld (R.PRT_PGWIN p) F.PRT_PGWIN_PG_LO)) ≤ 1000 * vs &&
    1000 * vs ≤ b * (1000 + clampTo 10 200 (s.dfld (R.PRT_PGWIN p) F.PRT_PGWIN_PG_HI))

/-- The drop of a leg's pass pair, µV: 1.0 V and what `i` mA cause in the pair of `rPair` µΩ and in `RSNS` of `rSns` µΩ (R474). -/
def passDrop (i rPair rSns : Nat) : Nat := 1000000 + i * (rPair + rSns) / 1000

/-- How high a gate is driven over an output of `out` mV from a supply of `vgh` mV (R470). -/
def gateLimit (out vgh : Nat) : Nat := min (out + 12000) (vgh - 1000)

/-- The feeders of the conducting legs of port `p`. -/
def State.legFeeders (s : State) (p : Nat) : List Nat :=
  (if (s.portOf p).ga then [s.feedA p] else []) ++ (if (s.portOf p).gb then [s.feedB p] else [])

/-- `VS` is no higher than the feeder of each conducting leg, as last sampled, less the pass-pair drop (R106). The pair's resistance is the
board's, so the drop is taken at its least, 1.0 V; a feeder not sampled yet sets no bound (log 178). -/
def State.headroom (s : State) (p vs : Nat) : Bool :=
  (s.legFeeders p).all fun f => (s.monOf f).v = 0 || 1000 * vs + passDrop 0 0 0 ≤ 1000 * (s.monOf f).v

/-- `VS` is inside the window of R125: 4.75–5.50 V in SAFE5V, the span of both targets while a step moves, otherwise the CONTRACT
window around `VTGT`. -/
def State.inWindow (s : State) (p vs : Nat) : Bool :=
  let x := s.portOf p
  if x.eff = .safe5v then 4750 ≤ vs && vs ≤ 5500
  else match x.step with
    | some r => s.spans p (min r.oldV x.vtgt) (max r.oldV x.vtgt) vs
    | none => s.spans p x.vtgt x.vtgt vs

/-- The upper edge of the CONTRACT window around a target (R125), mV, rounded down. -/
def State.winHi (s : State) (p v : Nat) : Nat := v * (1000 + clampTo 10 200 (s.dfld (R.PRT_PGWIN p) F.PRT_PGWIN_PG_HI)) / 1000

/-- A step's bleed is on only while `VS` is above the upper edge of its window (R126). -/
def stepBleed (p vs : Nat) (s : State) : State :=
  let x := s.portOf p
  if x.bleed && !x.disch && vs ≤ s.winHi p x.vtgt then updPort p (fun y => { y with bleed := false }) s else s

/-! ### What the channel does when a port is lost (R177, R162, R196, R198, Table 06-10) -/

/-- Detach (cause 1), trip (2) or `ADMIN_DIS` (3) as the channel learns of it. A trip does not end a shed hold. -/
def hubGone (p cause : Nat) (s : State) : State :=
  if s.chanUp (p / 128) then
    let s1 := cancelReleased (p / 128) (p % 128) (abortOps (p / 128) (p % 128) s)
    let s2 := stopDeadline p (closeCtx p cause s1)
    serveMarks (p / 128) (if cause = 2 then s2 else endHold p s2)
  else s

/-- The protocol layer of a lost port (Table 05-1, R170, R213), then the channel's part when the link is up. -/
def portGone (p cause : Nat) (s : State) : State :=
  let s1 := clearHeavy p (stopKa p (protoReset p false s))
  let s2 := updPhy p (fun y => { y with hrPend := false, hrSig := false, bistData := false, bistCarrier := false,
                                        holdHr := false }) s1
  if s2.portUp p then hubGone p cause s2 else s2

/-! ### Trips (R127) -/

/-- A record of the control plane about a port; with the link down the hub posts it when the event reaches it (R321). -/
def portLog (p cls : Nat) (d0 : Word) (d1 : Nat) (s : State) : State := if s.portUp p then post .control cls p d0 d1 s else s

def State.retryInt (s : State) (p cnt : Nat) : Nat :=
  min (clampTo 100 60000 (s.dfld (R.PRT_RETRY p) F.PRT_RETRY_RETRY_BASE) * 2 ^ (cnt - 1)) 60000

/-- Requests the urgent conversion pair of a port (R252): it suspends a calibration of its unit (R261). -/
def requestUrgent (p : Nat) (s : State) : State :=
  let u := p / 16
  let s1 := updAdc u (fun a => { a with urgent := a.urgent ++ [p] }) s
  if s1.dfld (R.ADC_STAT u) F.ADC_STAT_CALBUSY = 1 then setUnitFld u (R.ADC_STAT u) F.ADC_STAT_CALRST 1 s1 else s1

/-- A trip: gates down, VCONN open, discharge, count, cause and retry timer (R127). -/
def tripPort (p : Nat) (cause : TripCause) (f : Fld) (s : State) : State :=
  let s1 := openVconn p (pgFall p s)
  let cnt := min 15 ((s1.portOf p).tripCnt + 1)
  let s2 := updPort p (fun x => { (x.dropPower.startDisch false s1.clock) with
    state := .tripped, stAt := s1.clock, ret := .off, tripCnt := cnt, cause := cause, armed := false, ri := s1.retryInt p cnt,
    retryRun := true, retryStart := s1.clock, attRec := false }) s1
  let s3 := portEvt p f s2
  let s4 := if s3.portUp p then setReg (R.PRT_TRIPUS p) (s3.tb.usec.truncate 32) s3 else s3
  let s5 := if s4.portUp p && s4.chanUp (p / 128) then xover (.trip p) s4 else s4
  portGone p 2 (requestUrgent p s5)

/-- A fast trip that these values bring acts: the comparator is armed while a gate is away from its off level (R123), and an
unspecified outcome is a free value (R122). -/
def State.fastActs (s : State) (p uv ns : Nat) : Bool :=
  (s.portOf p).powered && ((s.portOf p).ga || (s.portOf p).gb) &&
    (s.fastCrosses p uv ns).getD (decide (Config.freeNat s.fresh % 2 = 1))

def fastTrip (p uv ns : Nat) (s : State) : State :=
  let t := if s.fastCrosses p uv ns = none then (drawNat s).2 else s
  if s.fastActs p uv ns then tripPort p .fast F.PRT_EVT_FAST t else t

def execFastTrip (p : Fin 512) (uv : BitVec 24) (ns : BitVec 16) (s : State) : Host.Outcome State Fault Refusal :=
  .next (fastTrip p uv.toNat ns.toNat s)

/-- The inrush timer has expired in the powering phase (R118, R127). -/
def State.inrushEnds (s : State) (p : Nat) : Bool :=
  (s.portOf p).state = .inrush && !(s.portOf p).armed && s.past (s.portOf p).stAt (atLeast (s.tInr p))

/-- The accumulation of the fault timer meets `T_FT` in LIMIT (R120, R121). -/
def State.faultEnds (s : State) (p : Nat) : Bool := (s.portOf p).state = .limit && atLeast (s.tFt p) ≤ s.ftNow (s.portOf p)

/-! ### Events of one protection tick (R115, Table 04-4)

Time passes only on an empty queue, so the commands that wait fall in the protection tick of the one that runs. An event that one
of them makes moot has no effect. -/

/-- A fast trip of port `p` waits. -/
def State.fastWaits (s : State) (p : Nat) : Bool :=
  s.pending.any fun i => match i with
    | .fastTrip q uv ns => q.val = p && s.fastActs p uv.toNat ns.toNat
    | _ => false

/-- A trip of port `p` waits. -/
def State.tripWaits (s : State) (p : Nat) : Bool :=
  s.fastWaits p || s.pending.any fun i => match i with
    | .inrushTimeout q => q.val = p && s.inrushEnds p
    | .faultTimerTrip q => q.val = p && s.faultEnds p
    | _ => false

/-- A detach of port `p` is declared: the sink condition has been lost for 12.0 ms without a break (R112). -/
def State.detachEnds (s : State) (p : Nat) : Bool :=
  (s.portOf p).sink && !(s.portOf p).cc && s.past (s.portOf p).ccAt 11800

/-- A trip or a detach of port `p` waits: an operation of this tick is discarded. -/
def State.lossWaits (s : State) (p : Nat) : Bool :=
  s.tripWaits p || s.pending.any fun i => match i with
    | .detach q => q.val = p && s.detachEnds p
    | _ => false

def execInrushTimeout (p : Fin 512) (s : State) : Host.Outcome State Fault Refusal :=
  .next (if s.inrushEnds p && !s.fastWaits p then tripPort p .inrushTo F.PRT_EVT_INRTO s else s)

def execFaultTimerTrip (p : Fin 512) (s : State) : Host.Outcome State Fault Refusal :=
  .next (if s.faultEnds p && !s.fastWaits p then tripPort p .ftimer F.PRT_EVT_FTIMER s else s)

/-- A trip that waits acts before the detach of its tick, the fast trip before the others (Table 04-4). -/
def tripFirst (p : Nat) (s : State) : State :=
  let s1 := forEach s.pending (fun i t => match i with
    | .fastTrip q uv ns => if q.val = p then fastTrip p uv.toNat ns.toNat t else t
    | _ => t) s
  forEach s.pending (fun i t => match i with
    | .inrushTimeout q => if q.val = p && t.inrushEnds p then tripPort p .inrushTo F.PRT_EVT_INRTO t else t
    | .faultTimerTrip q => if q.val = p && t.faultEnds p then tripPort p .ftimer F.PRT_EVT_FTIMER t else t
    | _ => t) s1

/-! ### Administration and unlocking (R130, R139, R141, R373) -/

/-- The OFF to IDLE row: the port presents its terminations. -/
def leaveOff (p : Nat) (s : State) : State :=
  if (s.cls p = 1 ∨ s.cls p = 2) ∧ (s.portOf p).state = .off ∧ s.clk.extest = false ∧ (s.dieOf (p / 64)).inReset = false then
    updPort p (fun x => { x with state := .idle, stAt := s.clock, term := true, cc := false, ccAt := s.clock }) s
  else s

/-- The row from any state but OFF to OFF. -/
def goOff (p : Nat) (s : State) : State :=
  if (s.portOf p).state = .off then s
  else
    let s1 := openVconn p (pgFall p s)
    portGone p 3 (updPort p (fun x => { (x.dropPower.startDisch true s1.clock) with
      state := .off, stAt := s1.clock, ret := .off, armed := false, term := false, sink := false, attRec := false, cc := false,
      ccAt := s1.clock }) s1)

/-- `UNLOCK` on the port die: each clear of a count sets `CNT_CLR`. -/
def clearTrips (p : Nat) (s : State) : State :=
  if (s.portOf p).tripCnt = 0 then s
  else portEvt p F.PRT_EVT_CNT_CLR (updPort p (fun x => { x with tripCnt := 0 }) s)

def unlock (p : Nat) (s : State) : State :=
  let s1 := clearTrips p s
  if (s1.portOf p).state = .lockout then updPort p (fun x => { x with state := .idle, stAt := s1.clock, attRec := false }) s1 else s1

/-- A mark for a port whose link is down: a later `ADMIN_DIS` or `ADMIN_EN` replaces the other (R139). -/
def markAdmin (p : Nat) (en : Bool) (s : State) : State := updHub p (fun h => { h with markEn := en, markDis := !en }) s

/-- `ADMITDONE` once every port of the admission order is admitted (R372). -/
def admitDone (s : State) : State :=
  if (List.range 512).all fun p => s.cls p = 0 || tabGet Adm.waiting s.adm p = .admitted ||
      tabGet Adm.waiting s.adm p = .removed
  then setFld R.BOOT_STAT F.BOOT_STAT_ADMITDONE 1 s
  else s

def setAdm (p : Nat) (v : Adm) (s : State) : State := { s with adm := tabSet Adm.waiting s.adm p v }

/-- Admission of a port (R372); with the link down the order waits as a mark. -/
def admitPort (p : Nat) (s : State) : State :=
  let s1 := setAdm p .admitted s
  if s1.portUp p then leaveOff p s1 else markAdmin p true s1

/-- `ADMIN_EN` from the management plane (R373, R388). -/
def adminEn (p : Nat) (s : State) : State :=
  if s.flag R.OTP_STAT F.OTP_STAT_TRIMBAD then s
  else if !s.released then setAdm p .kept s
  else if s.cls p = 0 then s
  else admitDone (admitPort p s)

def execAdminEn (p : Fin 512) (s : State) : Host.Outcome State Fault Refusal :=
  .next (access .host (R.PRT_CMD p) (adminEn p) s)

/-- `ADMIN_DIS` from the management plane (R373). -/
def adminDis (p : Nat) (s : State) : State :=
  let s1 := setAdm p .removed s
  if !s1.released then s1
  else admitDone (if s1.portUp p then goOff p s1 else markAdmin p false s1)

def execAdminDis (p : Fin 512) (s : State) : Host.Outcome State Fault Refusal :=
  .next (access .host (R.PRT_CMD p) (adminDis p) s)

def cmdUnlock (p : Nat) (s : State) : State :=
  if s.portUp p then unlock p s else updHub p (fun h => { h with markUnlock := true }) s

def execAdminUnlock (p : Fin 512) (s : State) : Host.Outcome State Fault Refusal :=
  .next (access .host (R.PRT_CMD p) (cmdUnlock p) s)

/-! ### Attach and detach (R108-R112, R128) -/

/-- The sink condition begins or goes on (R110, R112): in IDLE the debounce starts. -/
def sinkSeen (p : Nat) (s : State) : State :=
  updPort p (fun x => { x with
    cc := true
    ccAt := if x.cc then x.ccAt else s.clock
    state := if x.state = .idle then .debounce else x.state
    stAt := if x.state = .idle then s.clock else x.stAt
    attWait := if x.state = .idle then none else x.attWait }) s

def execSinkConditionAppear (p : Fin 512) (cc1 cc2 : BitVec 16) (s : State) : Host.Outcome State Fault Refusal :=
  .next (if (s.portOf p).term && s.condAt p cc1.toNat cc2.toNat then sinkSeen p s else s)

/-- The sink condition is lost: a debounce ends, and a detach is timed from here (R110, R112). -/
def sinkGone (p : Nat) (s : State) : State :=
  updPort p (fun x => { x with
    cc := false
    ccAt := if x.cc then s.clock else x.ccAt
    state := if x.state = .debounce then .idle else x.state
    stAt := if x.state = .debounce then s.clock else x.stAt
    sink := x.sink && x.state != .debounce
    attWait := if x.state = .debounce then none else x.attWait }) s

def execSinkConditionLost (p : Fin 512) (cc1 cc2 : BitVec 16) (s : State) : Host.Outcome State Fault Refusal :=
  .next (if (s.portOf p).term && !s.condAt p cc1.toNat cc2.toNat then sinkGone p s else s)

def execAccessorySeen (p : Fin 512) (cc1 cc2 : BitVec 16) (s : State) : Host.Outcome State Fault Refusal :=
  .next (if (s.portOf p).state = .idle ∧ s.accessory p cc1.toNat cc2.toNat = true then portEvt p F.PRT_EVT_ACC_SEEN s
         else s)

/-- What the channel does at an accepted attach: a fresh protocol layer, and a context (R163). -/
def hubAttach (p : Nat) (s : State) : State :=
  if s.chanUp (p / 128) then requestCtx p false (xover (.ctx p) (updFw p (fun _ => Fw.init) (hubDiscard p s))) else s

/-- The attach is accepted (R110, R111). -/
def acceptAttach (p : Nat) (orient ra : Bool) (s : State) : State :=
  let s1 := updPort p (fun x => { x with
    state := .inrush, stAt := s.clock, armed := true, orient := orient, raSeen := ra, sink := true, icon := s.advCur p, attWait := none }) s
  let s2 := portEvt p F.PRT_EVT_ATTACH (dieProto p false s1)
  if s2.portUp p then hubAttach p s2 else s2

/-- The sink condition has held for `DEB_MS` without a break, in DEBOUNCE from its start on (R110). -/
def State.debounced (s : State) (p : Nat) : Bool :=
  let x := s.portOf p
  let n := atLeast (1000 * clampTo 100 200 (s.dfld (R.PRT_CCCFG p) F.PRT_CCCFG_DEB_MS))
  x.cc && s.past x.ccAt n && (x.state != .debounce || s.past x.stAt n)

/-- The debounce of an attach ends (R110, R128). -/
def attach (p cc1 cc2 vs : Nat) (s : State) : State :=
  let x := s.portOf p
  if !(s.sinkCond p cc1 cc2 && s.debounced p) then s
  else
    let l := s.ccLevels p
    let orient := s.cls p = 1 && !isRd l cc1
    let ra := s.cls p = 1 && isRa l (if orient then cc1 else cc2)
    match x.state with
    | .debounce =>
      if vs < 800 then acceptAttach p orient ra s
      else updPort p (fun y => { (if y.disch then y else y.startDisch false s.clock) with attWait := some (orient, ra) }) s
    | .tripped | .retryWait | .lockout =>
      if x.sink then s
      else portEvt p F.PRT_EVT_ATT_REC (updPort p (fun y => { y with sink := true, attRec := true }) s)
    | _ => s

def execAttach (p : Fin 512) (cc1 cc2 vs : BitVec 16) (s : State) : Host.Outcome State Fault Refusal :=
  .next (attach p cc1.toNat cc2.toNat vs.toNat s)

/-- A detach is declared (R112, R128, Table 04-3). In TRIPPED, RETRY_WAIT and LOCKOUT it is recorded, and `ATT_REC` stands until
the state is left (Table 04-11). -/
def detach (p : Nat) (s : State) : State :=
  let x := s.portOf p
  if x.powered then
    let s1 := openVconn p (pgFall p s)
    portGone p 1 (portEvt p F.PRT_EVT_DETACH (updPort p (fun y => { (y.dropPower.startDisch y.dischOff s1.clock) with
      state := .idle, stAt := s1.clock, ret := .off, armed := false, sink := false }) s1))
  else match x.state with
    | .inrush =>
      portGone p 1 (portEvt p F.PRT_EVT_DETACH (updPort p (fun y => { y with
        state := .idle, stAt := s.clock, armed := false, sink := false }) s))
    | .tripped | .retryWait | .lockout =>
      portGone p 1 (portEvt p F.PRT_EVT_DETACH (updPort p (fun y => { y with sink := false }) s))
    | _ => s

/-- A trip of the same tick acts first, and the detach is recorded in TRIPPED (Table 04-4). -/
def execDetach (p : Fin 512) (s : State) : Host.Outcome State Fault Refusal :=
  .next (if s.detachEnds p then detach p (tripFirst p s) else s)

/-! ### Inrush, limit and PGOOD (R118-R121, R124) -/

/-- VS reaches 4.75 V (R118): the limit of R119 replaces `I_INR`, and limit-active starts at 0 under it. The channel checks the leg
(R237). -/
def inrushComplete (p : Nat) (s : State) : State :=
  let e := (s.portOf p).onEntry
  let s1 := updPort p (fun x => { x with
    state := .safe5v, stAt := s.clock, icon := s.advCur p, onEntry := none, limact := false, winAt := s.clock,
    limFall := s.clock }) s
  let s2 := opEnds p e .done s1
  if s2.portUp p && s2.chanUp (p / 128) then serveMarks (p / 128) (queueXfer (p / 128) (p % 128) s2) else s2

/-- `VS` reaches 4.75 V before the inrush timer expires; a trip of the same tick wins (Table 04-4). -/
def execInrushComplete (p : Fin 512) (vs : BitVec 16) (s : State) : Host.Outcome State Fault Refusal :=
  .next (if (s.portOf p).state = .inrush ∧ (s.portOf p).armed = false ∧ 4750 ≤ vs.toNat ∧ s.tripWaits p = false then
      inrushComplete p s
    else s)

/-- Limit-active rises (Table 04-3, R118, R120). -/
def limitRise (p : Nat) (s : State) : State :=
  let x := s.portOf p
  let on : Port → Port := fun y => { y with limact := true, limStart := s.clock }
  if x.goingDown then s
  else match x.state with
    | .safe5v | .contract | .transition =>
      portEvt p F.PRT_EVT_LIM_RISE (updPort p (fun y => { (on y) with ret := x.state, state := .limit }) (pgFall p s))
    | .limit => if x.limact then s else updPort p on s
    | .inrush => if x.armed then s else updPort p on s
    | _ => s

/-- The current loop takes the gate over at a current that meets the limit in force (R105, R119). -/
def State.rises (s : State) (p ma : Nat) : Bool :=
  s.meetsLimit p ma && !(s.portOf p).limact && !s.tripWaits p

def execLimitRise (p : Fin 512) (ma : BitVec 16) (s : State) : Host.Outcome State Fault Refusal :=
  .next (if s.rises p ma.toNat then limitRise p s else s)

/-- A rise of limit-active for port `p` waits. -/
def State.riseWaits (s : State) (p : Nat) : Bool :=
  s.pending.any fun i => match i with
    | .limitRise q ma => q.val = p && s.rises p ma.toNat
    | _ => false

/-- Limit-active falls: the accumulation holds (R120). -/
def execLimitActiveFall (p : Fin 512) (s : State) : Host.Outcome State Fault Refusal :=
  .next (if (s.portOf p).limact then updPort p (fun x => { x with ftAcc := s.ftNow x, limact := false, limFall := s.clock }) s
         else s)

/-- Limit-active has been 0 for 2.0 ms; a rise of the same tick wins (Table 04-4). `RET_STATE` reads 0 once LIMIT is left, at every
way out of it: DESIGN CHOICE, log 145. -/
def execLimitClear (p : Fin 512) (s : State) : Host.Outcome State Fault Refusal :=
  .next (if (s.portOf p).state = .limit ∧ (s.portOf p).limact = false ∧ s.past (s.portOf p).limFall 1980 = true ∧
      s.riseWaits p = false ∧ s.tripWaits p = false then
      updPort p (fun x => { x with state := x.ret, stAt := s.clock, ret := .off, ftAcc := 0 }) s
    else s)

/-- PGOOD can rise (R124): `VS` inside the window and limit-active 0, each for 2.0 ms without a break. -/
def State.pgQualifies (s : State) (p vs : Nat) : Bool :=
  let x := s.portOf p
  (x.state = .safe5v || x.state = .contract || x.state = .transition) && !x.goingDown && !x.limact && s.inWindow p vs &&
    s.past x.winAt 1980 && s.past x.limFall 1980

/-- PGOOD rises, unless the fault timer starts or the port is lost in the same tick (R124, Table 04-4). -/
def execPgoodRise (p : Fin 512) (vs : BitVec 16) (s : State) : Host.Outcome State Fault Refusal :=
  let t := stepBleed p vs.toNat s
  .next (if s.pgQualifies p vs.toNat && !(s.portOf p).pgood && !s.riseWaits p && !s.lossWaits p then
      portEvt p F.PRT_EVT_PG_RISE (updPort p (fun y => { y with pgood := true }) t)
    else t)

/-- `VS` leaves the window (R124). -/
def execPgoodWindowExit (p : Fin 512) (vs : BitVec 16) (s : State) : Host.Outcome State Fault Refusal :=
  let t := stepBleed p vs.toNat s
  .next (if s.inWindow p vs.toNat then t else pgFall p (updPort p (fun y => { y with winAt := s.clock }) t))

/-! ### Operations in the port die (Table 04-3, R104, R126, R137, R175, R239) -/

/-- A released operation that its port die can take: the link is up, the die is not in hold, and no trip or detach of the same tick
discards it (Table 04-4). -/
def State.opArrives (s : State) (c i : Nat) (k : OpKind) : Option OpEntry :=
  match s.opOf c i with
  | some o =>
    if o.st = .released ∧ o.fin = false ∧ o.kind = k ∧ s.portUp (128 * c + o.port) = true ∧
        (s.dieOf ((128 * c + o.port) / 64)).hold = false ∧ s.lossWaits (128 * c + o.port) = false then some o
    else none
  | none => none

/-- An operation with no row for the port's state completes CANCELLED. -/
def opCancel (c i : Nat) (s : State) : State := serveMarks c (endOp c i .cancelled s)

def opDone (c i : Nat) (s : State) : State := serveMarks c (endOp c i .done s)

/-- The VCONN rail of port `p` can be used. After a fall its voltage comes from outside: whether it stands above 4.60 V again when a switch
is to close is a free value (Table 20-3, log 175). -/
def railOk (p : Nat) (s : State) : Bool × State :=
  if (s.dieOf (p / 64)).vconnLow then
    let d := drawNat s
    if d.1 % 2 = 1 then (true, updDie (p / 64) (fun x => { x with vconnLow := false }) d.2) else (false, d.2)
  else (true, s)

/-- TURN_ON executes (R118, R134, R326, R471). -/
def turnOn (c i : Nat) (o : OpEntry) (s : State) : State :=
  let p := 128 * c + o.port
  let x := s.portOf p
  if x.state = .inrush ∧ x.armed = true ∧ x.failed = false ∧ (s.dieOf (p / 64)).vghLow = false then
    let g := s.gatesOf p o.leg
    let want := x.raSeen && s.cls p = 1 && s.dfld (R.PRT_CCCFG p) F.PRT_CCCFG_VCONN_EN = 1
    let r := if want then railOk p s else (false, s)
    updHub p (fun h => { h with leg := o.leg })
      (updPort p (fun y => { y with
        armed := false, stAt := s.clock, ga := g.1, gb := g.2, vtgt := 5000, leg := o.leg, onEntry := some i,
        vconn := y.vconn || r.1, vcAt := if r.1 && !y.vconn then s.clock else y.vcAt, limact := false }) r.2)
  else opCancel c i s

def execTurnOnExec (c : Fin 4) (i : Fin 64) (s : State) : Host.Outcome State Fault Refusal :=
  .next (match s.opArrives c i .turnOn with
    | some o => turnOn c i o s
    | none => s)

/-- CONTRACT executes in SAFE5V. -/
def contract (c i : Nat) (o : OpEntry) (s : State) : State :=
  let p := 128 * c + o.port
  if (s.portOf p).eff = .safe5v then
    opDone c i (updPort p (fun y => { (y.setEff .contract s.clock) with icon := o.icon }) s)
  else opCancel c i s

def execContractExec (c : Fin 4) (i : Fin 64) (s : State) : Host.Outcome State Fault Refusal :=
  .next (match s.opArrives c i .contract with
    | some o => contract c i o s
    | none => s)

/-- A power-down (R137): gates off, VCONN open, `VTGT` 0, discharge; operations in progress are overtaken. -/
def powerDown (p : Nat) (e : Option Nat) (s : State) : State :=
  let x := s.portOf p
  let ends (k : Option Nat) (t : State) : State := opEnds p k .cancelled t
  let s1 := openVconn p (pgFall p s)
  let s2 := ends x.downEntry (ends (x.xfer.map (·.entry)) (ends (x.step.map (·.entry)) (ends x.onEntry s1)))
  let s3 := clearHeavy p (updPort p (fun y => { (y.dropPower.startDisch false s2.clock) with
    state := .transition, stAt := s2.clock, ret := .off, armed := false, vtgt := 0, downEntry := e }) s2)
  if ((s.portOf p).xfer.isSome || (s.portOf p).onEntry.isSome) && s3.portUp p && s3.chanUp (p / 128) then
    serveMarks (p / 128) (queueXfer (p / 128) (p % 128) s3)
  else s3

/-- HR_OFF, a STEP with `VTGT` = 0, or the disconnect of a shed deadline executes. -/
def powerDownExec (p : Nat) (e : Option Nat) (s : State) : State :=
  match e with
  | some i =>
    match s.opOf (p / 128) i with
    | some o =>
      if o.st = .released && !o.fin && o.port = p % 128 && (o.kind = .hrOff || (o.kind = .step && o.vtgt = 0)) &&
          s.portUp p && !(s.dieOf (p / 64)).hold && !s.lossWaits p then
        if (s.portOf p).powered then serveMarks (p / 128) (powerDown p (some i) s) else opCancel (p / 128) i s
      else s
    | none => s
  | none =>
    if (s.portOf p).disc && !s.lossWaits p then
      let s1 := updPort p (fun y => { y with disc := false }) s
      if (s1.portOf p).powered then powerDown p none s1 else s1
    else s

def execPowerDownExec (p : Fin 512) (e : Option (Fin 64)) (s : State) : Host.Outcome State Fault Refusal :=
  .next (powerDownExec p (e.map (·.val)) s)

/-- STEP executes (R126, R188): an earlier step in progress is superseded. -/
def step5 (c i : Nat) (o : OpEntry) (vs : Nat) (s : State) : State :=
  let p := 128 * c + o.port
  let x := s.portOf p
  if (x.eff = .safe5v ∨ x.eff = .contract ∨ x.eff = .transition) ∧ x.goingDown = false then
    let s1 := opEnds p (x.step.map (·.entry)) .superseded s
    serveMarks c (updPort p (fun y => { (y.setEff .transition s.clock) with
      vtgt := o.vtgt, icon := o.icon, bleed := y.disch || decide (s.winHi p o.vtgt < vs),
      step := some { entry := i, last := o.last, oldV := x.vtgt, timedOut := false, start := s.clock } }) s1)
  else opCancel c i s

def execStepExec (c : Fin 4) (i : Fin 64) (vs : BitVec 16) (s : State) : Host.Outcome State Fault Refusal :=
  .next (match s.opArrives c i .step with
    | some o => if o.vtgt = 0 then s else step5 c i o vs.toNat s
    | none => s)

/-- The step completes (R126). -/
def stepComplete (p : Nat) (s : State) : State :=
  match (s.portOf p).step with
  | none => s
  | some r =>
    let s1 := updPort p (fun y => { (if r.last then y.setEff .contract s.clock else y) with step := none, bleed := y.disch }) s
    serveMarks (p / 128) (opEnds p (some r.entry) .done s1)

/-- `VS`, which the feeders bound (R106), has been inside the CONTRACT window around the new `VTGT` for 100 µs without a break (R126). -/
def State.stepEnds (s : State) (p vs : Nat) : Bool :=
  match (s.portOf p).step with
  | none => false
  | some r => s.spans p (s.portOf p).vtgt (s.portOf p).vtgt vs && s.headroom p vs && s.past r.start (atLeast 100)

def execStepComplete (p : Fin 512) (vs : BitVec 16) (s : State) : Host.Outcome State Fault Refusal :=
  .next (if s.stepEnds p vs.toNat && !s.lossWaits p then stepComplete p s else stepBleed p vs.toNat s)

/-- 10 ms pass without completion: `STEP_TO`, and the step stays in progress (R126). -/
def stepTimeout (p : Nat) (s : State) : State :=
  match (s.portOf p).step with
  | none => s
  | some r =>
    if r.timedOut || !s.past r.start 9900 then s
    else
      opEnds p (some r.entry) .stepTo (portEvt p F.PRT_EVT_STEP_TO
        (updPort p (fun y => { y with step := some { r with timedOut := true } }) s))

def execStepTimeout (p : Fin 512) (s : State) : Host.Outcome State Fault Refusal :=
  .next (if s.lossWaits p then s else stepTimeout p s)

/-- TRANSFER executes (R239, R240, Table 08-5): the joining gate is driven first in make-before-break, the leaving gate
goes first in break-before-make. -/
def transfer (c i : Nat) (o : OpEntry) (s : State) : State :=
  let p := 128 * c + o.port
  let x := s.portOf p
  if (x.state = .inrush ∧ x.armed = true) ∨ x.goingDown = true then
    opDone c i (updHub p (fun h => { h with leg := o.leg }) (updPort p (fun y => { y with leg := o.leg }) s))
  else if x.powered then
    if o.refuse then opCancel c i s
    else
      let old := s.gatesOf p x.leg
      let new := s.gatesOf p o.leg
      let g := if o.mbb then (old.1 || new.1, old.2 || new.2) else (old.1 && new.1, old.2 && new.2)
      updPort p (fun y => { y with ga := g.1, gb := g.2, leg := o.leg, xfer := some { entry := i, leg := o.leg } }) s
  else opCancel c i s

def execTransferExec (c : Fin 4) (i : Fin 64) (s : State) : Host.Outcome State Fault Refusal :=
  .next (match s.opArrives c i .transfer with
    | some o => transfer c i o s
    | none => s)

/-- The transfer completes (Table 08-5); the channel records the leg and checks it again (R237). -/
def transferDone (p : Nat) (s : State) : State :=
  match (s.portOf p).xfer with
  | none => s
  | some r =>
    let g := s.gatesOf p r.leg
    let s1 := updPort p (fun y => { y with ga := g.1, gb := g.2, xfer := none }) s
    let s2 := opEnds p (some r.entry) .done s1
    if s2.portUp p && s2.chanUp (p / 128) then
      serveMarks (p / 128) (queueXfer (p / 128) (p % 128) (updHub p (fun h => { h with leg := r.leg }) s2))
    else s2

def execTransferDone (p : Fin 512) (s : State) : Host.Outcome State Fault Refusal := .next (transferDone p s)

/-! ### VCONN (R134-R136) -/

/-- VCONN_ON executes; with the rail too low VCONN stays off, and the operation completes CANCELLED (DESIGN CHOICE, log 175). -/
def vconnOn (c i : Nat) (o : OpEntry) (s : State) : State :=
  let p := 128 * c + o.port
  let x := s.portOf p
  if x.powered && !x.goingDown then
    if x.vconn then opDone c i s
    else
      let r := railOk p s
      if r.1 then updPort p (fun y => { y with vconn := true, vcAt := s.clock, vcEntry := some i }) r.2 else opCancel c i r.2
  else opCancel c i s

def execVconnOnExec (c : Fin 4) (i : Fin 64) (s : State) : Host.Outcome State Fault Refusal :=
  .next (match s.opArrives c i .vconnOn with
    | some o => vconnOn c i o s
    | none => s)

def vconnOff (c i : Nat) (o : OpEntry) (s : State) : State :=
  let p := 128 * c + o.port
  if (s.portOf p).state = .off then opCancel c i s else opDone c i (openVconn p s)

def execVconnOffExec (c : Fin 4) (i : Fin 64) (s : State) : Host.Outcome State Fault Refusal :=
  .next (match s.opArrives c i .vconnOff with
    | some o => vconnOff c i o s
    | none => s)

/-- The soft start ends. -/
def vconnUp (p : Nat) (s : State) : State :=
  match (s.portOf p).vcEntry with
  | some i => serveMarks (p / 128) (opEnds p (some i) .done (updPort p (fun y => { y with vcEntry := none }) s))
  | none => s

/-- The soft start lasts 0.5 ms (R134). -/
def execVconnSoftStartEnd (p : Fin 512) (s : State) : Host.Outcome State Fault Refusal :=
  .next (if s.past (s.portOf p).vcAt (atLeast 500) then vconnUp p s else s)

/-- VCONN overcurrent: after 1.0 ms of limiting (R135). -/
def execVconnOc (p : Fin 512) (s : State) : Host.Outcome State Fault Refusal :=
  .next (if (s.portOf p).vconn && s.past (s.portOf p).vcAt 900 then
      serveMarks (p / 128) (portLog p 0x04 0 0 (portEvt p F.PRT_EVT_VCONN_OC (openVconn p s)))
    else s)

/-! ### Discharge, retry and lockout (R128-R131) -/

def enterLockout (p : Nat) (s : State) : State :=
  portLog p 0x02 0 (s.portOf p).cause.code (portEvt p F.PRT_EVT_LOCKOUT
    (updPort p (fun x => { x with state := .lockout, stAt := s.clock, ret := .off }) s))

/-- RETRY_WAIT is left (R128). -/
def leaveRetry (p : Nat) (s : State) : State :=
  updPort p (fun x => { x with
    state := if x.sink then .debounce else .idle, stAt := s.clock, attRec := false, attWait := none }) s

/-- The retry timer expires; in TRIPPED the discharge is awaited, and in LOCKOUT nothing follows. -/
def retryExpire (p : Nat) (s : State) : State :=
  let s1 := updPort p (fun x => { x with retryRun := false }) s
  if (s1.portOf p).state = .retryWait then leaveRetry p s1 else s1

/-- The changes of the debounced sink condition that wait for port `p`, made now. -/
def sinkFirst (p : Nat) (s : State) : State :=
  forEach s.pending (fun i t => match i with
    | .attach q cc1 cc2 vs => if q.val = p then attach p cc1.toNat cc2.toNat vs.toNat t else t
    | .detach q => if q.val = p && t.detachEnds p then detach p t else t
    | _ => t) s

/-- The retry timer runs for RI (R127); its expiry uses the sink condition as it stands after the tick (Table 04-4). -/
def execRetryExpire (p : Fin 512) (s : State) : Host.Outcome State Fault Refusal :=
  .next (if (s.portOf p).retryRun && s.past (s.portOf p).retryStart (atLeast (1000 * (s.portOf p).ri)) then
      retryExpire p (sinkFirst p s)
    else s)

/-- Discharge complete (R131, Table 04-3). -/
def dischargeComplete (p : Nat) (s : State) : State :=
  let x := s.portOf p
  let s1 := updPort p (fun y => { y with disch := false, bleed := false, dischOff := false }) s
  match x.state, x.attWait with
  | .debounce, some w => acceptAttach p w.1 w.2 s1
  | .tripped, _ =>
    if x.tripCnt < clampTo 1 15 (s.dfld (R.PRT_RETRY p) F.PRT_RETRY_TRIP_MAX) then
      let s2 := updPort p (fun y => { y with state := .retryWait, stAt := s.clock }) s1
      if x.retryRun then s2 else leaveRetry p s2
    else enterLockout p s1
  | .transition, _ =>
    if x.vtgt = 0 then
      let s2 := updPort p (fun y => { y with state := .inrush, stAt := s.clock, armed := true, downEntry := none }) s1
      let s3 := opEnds p x.downEntry .done s2
      if s3.portUp p then serveMarks (p / 128) (stopDeadline p s3) else s3
    else s1
  | _, _ => s1

/-- `VS` has stayed below 0.8 V for 1.0 ms (R131). -/
def execDischargeComplete (p : Fin 512) (vs : BitVec 16) (s : State) : Host.Outcome State Fault Refusal :=
  .next (if (s.portOf p).disch && vs.toNat < 800 then dischargeComplete p s else s)

/-- Discharge complete of port `p` waits. -/
def State.dischWaits (s : State) (p : Nat) : Bool :=
  s.pending.any fun i => match i with
    | .dischargeComplete q vs => q.val = p && vs.toNat < 800
    | _ => false

/-- The discharge fails 650 ms after the bleed went on (R131); discharge complete in the same tick wins (Table 04-4). -/
def dischFail (p vs : Nat) (s : State) : State :=
  let x := s.portOf p
  let s1 := opEnds p x.downEntry .cancelled (updPort p (fun y => { y with
    disch := false, bleed := false, dischOff := false, cause := .dischFail, downEntry := none, attWait := none,
    armed := false, failV := vs }) s)
  let s2 := portLog p 0x03 (BitVec.ofNat 32 vs) 0 (portEvt p F.PRT_EVT_DISCH_FAIL s1)
  if x.dischOff then updPort p (fun y => { y with state := .off, ret := .off }) s2
  else
    let s3 := enterLockout p s2
    if s3.portUp p then serveMarks (p / 128) (stopDeadline p s3) else s3

def execDischFail (p : Fin 512) (vs : BitVec 16) (s : State) : Host.Outcome State Fault Refusal :=
  .next (if (s.portOf p).disch && s.past (s.portOf p).dischAt 640000 && !s.dischWaits p then dischFail p vs.toNat s else s)

/-- 60 s in CONTRACT without a break (R129). -/
def execContractDwellClear (p : Fin 512) (s : State) : Host.Outcome State Fault Refusal :=
  .next (if (s.portOf p).state = .contract ∧ s.past (s.portOf p).stAt 59400000 = true then clearTrips p s else s)

/-- A detach has lasted the interval of the last trip, from the loss of the sink condition; not in LOCKOUT (R129). -/
def execDetachDwellClear (p : Fin 512) (s : State) : Host.Outcome State Fault Refusal :=
  .next (if (s.portOf p).sink = false ∧ (s.portOf p).cc = false ∧ (s.portOf p).state ≠ .lockout ∧
      s.past (s.portOf p).ccAt (atLeast (1000 * (s.portOf p).ri)) = true then clearTrips p s
    else s)

/-! ### Settings (R121, R138-R140) -/

def settingAddr (p : Nat) : PortSetting → Nat
  | .cccfg => R.PRT_CCCFG p
  | .inrush => R.PRT_INRUSH p
  | .limit => R.PRT_LIMIT p
  | .retry => R.PRT_RETRY p
  | .pgwin => R.PRT_PGWIN p

/-- The writable bits of a setting (Table 04-10). -/
def settingMask : PortSetting → Word
  | .cccfg => 0xFF0B
  | .inrush => 0xFF00FFFF
  | .limit => 0xFF01FFFF
  | .retry => 0x000FFFFF
  | .pgwin => 0xFFFF

/-- An accumulation that meets a new, smaller `T_FT` trips (R121). -/
def checkFt (p : Nat) (s : State) : State :=
  let x := s.portOf p
  if x.state = .limit ∧ s.tFt p ≤ s.ftNow x then tripPort p .ftimer F.PRT_EVT_FTIMER s else s

/-- A write to a setting; a setting is saved when the management plane writes it (R374). -/
def writePortSetting (host : Bool) (p : Nat) (r : PortSetting) (v : Word) (s : State) : State :=
  let a := settingAddr p r
  let w := v &&& settingMask r
  checkFt p (writePortReg p a w (saveSetting host a w s))

/-- The writer may reach port `p`: the host any, a course the ports of its channel. -/
def Who.ownsPort (w : Who) (p : Nat) : Bool :=
  match w with
  | .host => true
  | .course c => p / 128 = c.val

def execPrtSettingWrite (who : Who) (p : Fin 512) (r : PortSetting) (v : Word) (s : State) :
    Host.Outcome State Fault Refusal :=
  .next (if Who.ownsPort who p then access who (settingAddr p r) (writePortSetting (who = .host) p r v) s else s)

end Sys2Proof.Machine
end

