-- ==== Sys2Proof/Machine/OpQueue.lean ====
section
/-! DEFINITION. Pushes and results of the operation queue, contract groups, shed deadlines and holds (chapter 06). -/
namespace Sys2Proof.Machine

/-! ### Pushes (R173-R175) -/

def OpKind.ofCode : Nat → Option OpKind
  | 1 => some .turnOn | 2 => some .contract | 3 => some .step | 4 => some .hrOff
  | 5 => some .vconnOn | 6 => some .vconnOff | _ => none

/-- The fields of `OPQ_ARG0` and `OPQ_ARG1` as they stand. -/
structure OpArgs where
  vtgt : Nat
  icon : Nat
  w : Nat
  slot : Nat
  ph : Nat
  last : Bool
deriving DecidableEq, Repr

def State.opArgs (s : State) (c : Nat) : OpArgs :=
  { vtgt := s.fld (R.OPQ_ARG0 c) F.OPQ_ARG0_VTGT, icon := s.fld (R.OPQ_ARG0 c) F.OPQ_ARG0_ICON,
    w := s.fld (R.OPQ_ARG1 c) F.OPQ_ARG1_W, slot := s.fld (R.OPQ_ARG1 c) F.OPQ_ARG1_SLOT,
    ph := s.fld (R.OPQ_ARG1 c) F.OPQ_ARG1_PH, last := s.flag (R.OPQ_ARG1 c) F.OPQ_ARG1_LAST }

/-- The kinds whose push needs a BOUND context (R165). -/
def needsCtx (k : OpKind) (a : OpArgs) : Bool :=
  match k with
  | .turnOn | .contract | .vconnOn => true
  | .step => a.vtgt != 0
  | _ => false

/-- Code 5 of Table 06-2. -/
def State.badState (s : State) (p : Nat) (k : OpKind) : Bool :=
  let x := s.mirOf p
  s.cls p = 0 ||
  (match x.state with
    | .off | .idle | .debounce | .tripped | .retryWait | .lockout => true
    | _ => false) ||
  (k = .turnOn && !(x.state = .inrush && x.armed)) ||
  (k = .vconnOn && (s.cls p != 1 || !x.raSeen || !s.flag (R.PRT_CCCFG p) F.PRT_CCCFG_VCONN_EN))

/-- The start current of a port as the hub knows its settings (R119), mA. -/
def State.startCur (s : State) (p : Nat) : Nat :=
  if s.cls p = 2 then 3000
  else match s.fld (R.PRT_CCCFG p) F.PRT_CCCFG_RP with
    | 0 => 900
    | 1 => 1500
    | _ => 3000

/-- Code 8 of Table 06-2. -/
def State.badRange (s : State) (p : Nat) (k : OpKind) (a : OpArgs) : Bool :=
  let hv := s.cls p = 2
  let badI : Bool := (if hv then 25000 else 5000) < a.icon
  let badV : Bool := (if hv then 56000 else 48000) < a.vtgt || (1 ≤ a.vtgt && a.vtgt ≤ 3299)
  (k = .contract && badI) || (k = .step && (badI || badV))

/-- The code of a push of kind `k` for port index `i` (Table 06-2); `none` for a kind that cannot be pushed. -/
def State.pushCode (s : State) (c : Nat) (k : Option OpKind) (i : Nat) : Nat :=
  let p := 128 * c + i
  let a := s.opArgs c
  if s.freeOps c = [] then 1
  else match k with
    | none => 2
    | some k =>
      if k ≠ .hrOff ∧ ((32 ≤ a.slot ∧ a.slot ≤ 62) ∨ a.ph = 3) then 3
      else if needsCtx k a && !s.bound p then 4
      else if s.badState p k then 5
      else if (k = .turnOn ∨ k = .contract ∨ k = .step) ∧ s.chLeg p = .none then 6
      else if k = .turnOn ∧ s.chCeil p * 100000 < 5000 * s.startCur p then 7
      else if s.badRange p k a then 8
      else if k = .turnOn ∧ (s.hubOf p).hold = true then 9
      else if s.portUp p = false ∨ s.tclk = false then 10
      else 0

/-- The entry of an accepted push (Table 06-1, R174). -/
def State.pushEntry (s : State) (c : Nat) (k : OpKind) (i : Nat) : OpEntry :=
  let p := 128 * c + i
  let a := s.opArgs c
  let l := s.chLeg p
  let fa := match l with
    | .none => 15
    | .a | .ab => s.feedA p
    | .b => s.feedB p
  let fb := if l = .ab then s.feedB p else 15
  match k with
  | .hrOff => s.newOp .hrOff i 63 0
  | .vconnOn | .vconnOff => s.newOp k i a.slot a.ph
  | .turnOn =>
    { s.newOp k i a.slot a.ph with
        leg := l, fa := fa, fb := fb, w := (clampTo 200 10000 (s.fld (R.PRT_INRUSH p) F.PRT_INRUSH_I_INR) + 9) / 10 }
  | .contract => { s.newOp k i a.slot a.ph with leg := l, fa := fa, fb := fb, w := a.w, icon := a.icon }
  | .step | .transfer =>
    { s.newOp k i a.slot a.ph with
        leg := l, fa := fa, fb := fb, w := a.w, icon := a.icon, vtgt := a.vtgt, last := a.last }

/-- `OPQ_RESULT` after a push. -/
def setResult (c code entry : Nat) (s : State) : State :=
  setReg (R.OPQ_RESULT c) (BitVec.ofNat 32 (code * 2 ^ 28 + entry)) s

/-- A write of `OPQ_PUSH`: a refused push has no effect but its code; an HR_OFF aborts the entries before it (R177). -/
def pushOp (c : Nat) (k : Option OpKind) (i : Nat) (s : State) : State :=
  match s.pushCode c k i, k with
  | 0, some k =>
    let order := (s.chanOf c).opOrder
    let r := enterOp c (s.pushEntry c k i) s
    let s1 := setResult c 0 r.1 r.2
    if k = .hrOff then serveMarks c (abortBefore c i order s1) else s1
  | code, _ => setResult c code 0 s

/-- A push row: the argument registers, then `OPQ_PUSH`. -/
def pushArgs (c : Nat) (k : OpKind) (i : Nat) (arg0 arg1 : Word) (s : State) : State :=
  pushOp c (some k) i (setReg (R.OPQ_ARG1 c) (arg1 &&& 0xFFFFFF01) (setReg (R.OPQ_ARG0 c) arg0 s))

def execOpTurnOn (c : Fin 4) (k : Fin 128) (arg0 arg1 : Word) (s : State) : Host.Outcome State Fault Refusal :=
  .next (if s.chanUp c then pushArgs c .turnOn k arg0 arg1 s else s)

def execOpContract (c : Fin 4) (k : Fin 128) (arg0 arg1 : Word) (s : State) : Host.Outcome State Fault Refusal :=
  .next (if s.chanUp c then pushArgs c .contract k arg0 arg1 s else s)

def execOpStep (c : Fin 4) (k : Fin 128) (arg0 arg1 : Word) (s : State) : Host.Outcome State Fault Refusal :=
  .next (if s.chanUp c then pushArgs c .step k arg0 arg1 s else s)

def execOpHrOff (c : Fin 4) (k : Fin 128) (s : State) : Host.Outcome State Fault Refusal :=
  .next (if s.chanUp c then pushOp c (some .hrOff) k s else s)

def execOpVconnOn (c : Fin 4) (k : Fin 128) (arg0 arg1 : Word) (s : State) : Host.Outcome State Fault Refusal :=
  .next (if s.chanUp c then pushArgs c .vconnOn k arg0 arg1 s else s)

def execOpVconnOff (c : Fin 4) (k : Fin 128) (arg0 arg1 : Word) (s : State) : Host.Outcome State Fault Refusal :=
  .next (if s.chanUp c then pushArgs c .vconnOff k arg0 arg1 s else s)

/-! ### Results (R176) -/

/-- The word that a read of `OPQ_CQ` returns. -/
def CqEntry.word (e : CqEntry) : Word :=
  let kind := match e.kind with
    | some k => k.code
    | none => 0
  BitVec.ofNat 32 (2 ^ 31 + e.result.code * 2 ^ 28 + kind * 2 ^ 24 + e.port * 2 ^ 17 + e.entry.getD 0)

def readCq (c : Nat) (s : State) : Word × State :=
  match (s.chanOf c).cq with
  | [] => (0, s)
  | e :: l => (e.word, updChan c (fun x => { x with cq := l }) s)

def execOpqCqRead (c : Fin 4) (s : State) : Host.Outcome State Fault Refusal :=
  .next (if s.chanUp c then readCmd (readCq c s) else s)

def execOpqAbort (c : Fin 4) (k : Fin 128) (s : State) : Host.Outcome State Fault Refusal :=
  .next (if s.chanUp c then serveMarks c (abortOps c k s) else s)

def execCqResultPost (c : Fin 4) (s : State) : Host.Outcome State Fault Refusal :=
  .next (if s.chanUp c then serveMarks c (postWaiting c s) else s)

/-! ### Shed deadlines and holds (R196-R198) -/

/-- A deadline expires: entries aborted, disconnect sent, SHED_DISC and a record posted, hold started (R196). -/
def fireDeadline (p : Nat) (s : State) : State :=
  let c := p / 128
  let s1 := abortOps c (p % 128) (stopDeadline p s)
  let s2 := updPort p (fun x => { x with disc := true }) s1
  let s3 := result c { result := .shedDisc, kind := none, port := p % 128, entry := none } s2
  let s4 := post .data 0x05 p (BitVec.ofNat 32 (s3.contractPower p * 65536 + s3.chCeil p)) 0 s3
  serveMarks c (incFld (R.CHN_SHEDSTAT c) F.CHN_SHEDSTAT_DISC
    (updHub p (fun h => { h with hold := true, holdStart := s4.tb.usec }) s4))

/-- An expiry acts, or is held while the port-die link is down (R197). -/
def expireDeadline (p : Nat) (s : State) : State :=
  if s.portUp p then fireDeadline p s else updHub p (fun h => { h with dueHeld := true }) s

/-- The time a deadline takes, in µs. -/
def State.deadlineUs (s : State) (c : Nat) : Nat :=
  1000 * clampTo 20 5000 (s.fld (R.CHN_POLCFG c) F.CHN_POLCFG_DEADLINE_MS)

/-- The comparison of R196 with a ceiling that a commit set at `us`: a deadline starts, timed from that commit, or stops. -/
def checkDeadline (p ceil : Nat) (us : BitVec 64) (s : State) : State :=
  let c := p / 128
  if s.contractPower p ≤ ceil then stopDeadline p s
  else if (s.mirOf p).powered ∧ s.ownPrio p < 7 ∧ (s.hubOf p).deadline = none then
    let stop := us + BitVec.ofNat 64 (s.deadlineUs c)
    let s1 := incFld (R.CHN_SHEDSTAT c) F.CHN_SHEDSTAT_STARTS (updHub p (fun h => { h with deadline := some stop }) s)
    if stop < s1.tb.usec then expireDeadline p s1 else s1
  else s

/-- The port's running deadline has come, and is not held (R197). -/
def State.deadlineDue (s : State) (p : Nat) : Bool :=
  match (s.hubOf p).deadline with
  | some t => t ≤ s.tb.usec && !(s.hubOf p).dueHeld
  | none => false

def execShedDeadlineExpire (p : Fin 512) (s : State) : Host.Outcome State Fault Refusal :=
  .next (if s.deadlineDue p && s.chanUp (p / 128) then expireDeadline p s else s)

/-- The port's shed hold has lasted `SHOLD_S` (R198). -/
def State.shedHoldDue (s : State) (p : Nat) : Bool :=
  (s.hubOf p).hold && 1000000 * clampTo 1 60 (s.fld (R.CHN_POLCFG (p / 128)) F.CHN_POLCFG_SHOLD_S) ≤ s.since (s.hubOf p).holdStart

def execShedHoldEnd (p : Fin 512) (s : State) : Host.Outcome State Fault Refusal :=
  .next (if s.shedHoldDue p then endHold p s else s)

/-- When the commit came that set the ceiling of the active bank: the channel's last change of it, or the switch of banks that the
channel has not acknowledged yet (R196, R197). -/
def State.ceilSince (s : State) (p : Nat) : BitVec 64 :=
  if F.PLC_ENT_CEIL.get (s.entOf p) = s.chCeil p then (s.hubOf p).commitUs else s.switchUs

/-- A course write of a port's contract group (Table 10-7): the hub keeps bits 21:16 of word 8. -/
def writeContract (p : Nat) (w7 w8 w10 : Word) (s : State) : State :=
  let clear (w : Nat) : State → State := wordsWritten (0x30 + p / 128) (64 * (p % 128) + 4 * w) 4
  let s1 := setRec p 10 w10 (setRec p 8 (w8 &&& 0xF000FFFF) (setRec p 7 w7 (clear 10 (clear 8 (clear 7 s)))))
  if (s1.mirOf p).powered then checkDeadline p (F.PLC_ENT_CEIL.get (s1.entOf p)) (s1.ceilSince p) s1 else s1

def execContractGroupWrite (p : Fin 512) (w7 w8 w10 : Word) (s : State) : Host.Outcome State Fault Refusal :=
  .next (if s.chanUp (p / 128) then writeContract p w7 w8 w10 s else s)

end Sys2Proof.Machine
end

