-- ==== Sys2Proof/Machine/Timers.lean ====
section
/-! DEFINITION. The timer unit (chapter 03): counters, matches, actions, chained pairs and captures. -/
namespace Sys2Proof.Machine

/-! ### Pairs -/

/-- Counter `n` is one of a chained pair (R92). -/
def State.chained (s : State) (n : Nat) : Bool := s.flag (R.TMU_CTL (n / 2 * 2)) F.TMU_CTL_CHAIN

/-- Counter `n` is the odd half of a chained pair, whose controls have no effect. -/
def State.oddHalf (s : State) (n : Nat) : Bool := s.chained n && n % 2 = 1

/-- The value a counter's value register shows for the whole count: 64 bits when chained (R92). -/
def State.wide (s : State) (reg : Nat → Nat) (n : Nat) : Nat :=
  if s.chained n then (s.reg (reg (n + 1))).toNat * 2 ^ 32 + (s.reg (reg n)).toNat else (s.reg (reg n)).toNat

/-- Writes the whole count of counter `n`. -/
def setWide (reg : Nat → Nat) (n v : Nat) (s : State) : State :=
  if s.chained n then setReg (reg (n + 1)) (BitVec.ofNat 32 (v / 2 ^ 32)) (setReg (reg n) (BitVec.ofNat 32 v) s)
  else setReg (reg n) (BitVec.ofNat 32 v) s

def State.running (s : State) (n : Nat) : Bool := s.flag (R.TMU_STAT n) F.TMU_STAT_RUN

/-- `RUN` of one counter, as `TMU_STAT_n` and `TMU_RUN` show it. -/
def setRunOne (n : Nat) (b : Bool) (s : State) : State :=
  setFlag R.TMU_RUN ⟨n, 1⟩ b (setFlag (R.TMU_STAT n) F.TMU_STAT_RUN b s)

/-- No tick of the past is left for counter `n`: it starts or stops, or its source changes. -/
def dropTicks (n : Nat) (s : State) : State :=
  updTimer n (fun x => { x with tick := false, usecAt := s.tb.usec, posAt := s.auPos s.tb.angle }) s

/-- `RUN` of a counter, and of both halves of a chained pair (R92). A start on a running counter has no effect (R88). -/
def setRun (n : Nat) (b : Bool) (s : State) : State :=
  let s1 := if s.running n = b then s else dropTicks n s
  if s1.chained n then setRunOne (n + 1) b (setRunOne n b s1) else setRunOne n b s1

/-- A flag of `TMU_STAT_n`; its `AEN` bit lets it assert `ALERT_N` (R100). -/
def raiseTmu (n : Nat) (f : Fld) (s : State) : State :=
  raiseEn (R.TMU_STAT n) f (R.TMU_IEN n) (F.TMU_IEN_AEN.bit f.lo) s

/-! ### Commands and actions (R88, R90, R91) -/

def tmuLoad (n : Nat) (s : State) : State := setWide R.TMU_CNT n (s.wide R.TMU_RLD n) s

/-- `TMU_CMD_n`: LOAD first; START and STOP together leave `RUN` unchanged. -/
def tmuCmd (n : Nat) (load start stop : Bool) (s : State) : State :=
  if s.oddHalf n then s
  else
    let s1 := if load then tmuLoad n s else s
    if start && !stop then setRun n true s1 else if stop && !start then setRun n false s1 else s1

def execTmuLoad (n : Fin 32) (s : State) : Host.Outcome State Fault Refusal :=
  .next (access .host (R.TMU_CMD n) (tmuCmd n true false false) s)

def execTmuStart (n : Fin 32) (s : State) : Host.Outcome State Fault Refusal :=
  .next (access .host (R.TMU_CMD n) (tmuCmd n false true false) s)

def execTmuStop (n : Fin 32) (s : State) : Host.Outcome State Fault Refusal :=
  .next (access .host (R.TMU_CMD n) (tmuCmd n false false true) s)

/-- A group write reaches every counter for the host, the channel's own eight for a course (R88). -/
def whoOwns (who : Who) (n : Nat) : Bool :=
  match who with
  | .host => true
  | .course c => n / 8 = c.val

/-- Starts or stops every counter named by a 1 bit. -/
def tmuGroup (who : Who) (v : Word) (start : Bool) (s : State) : State :=
  forEach (List.range 32) (fun n t => if v.getLsbD n && whoOwns who n then tmuCmd n false start (!start) t else t) s

def execTmuGstart (who : Who) (v : Word) (s : State) : Host.Outcome State Fault Refusal :=
  .next (access who R.TMU_GSTART (tmuGroup who v true) s)

def execTmuGstop (who : Who) (v : Word) (s : State) : Host.Outcome State Fault Refusal :=
  .next (access who R.TMU_GSTOP (tmuGroup who v false) s)

/-- The counter that counter `n` links to: a local index in the same channel group (R90). -/
def State.linked (s : State) (n : Nat) : Nat := n / 8 * 8 + s.fld (R.TMU_CTL n) F.TMU_CTL_LINK

/-- An action of Table 03-4 of counter `n`: its target, whether it resets and whether it starts. -/
def tmuAction (code n link : Nat) : Option (Nat × Bool × Bool) :=
  match code with
  | 1 => some (n, true, false)
  | 2 => some (n, false, true)
  | 3 => some (link, true, false)
  | 4 => some (link, false, true)
  | 5 => some (link, true, true)
  | _ => none

/-- Queues an action for the next TCLK cycle on its target. -/
def queueAction (a : Nat × Bool × Bool) (s : State) : State :=
  updTimer a.1 (fun t => { t with actReset := t.actReset || a.2.1, actStart := t.actStart || a.2.2 }) s

/-- Sends the actions of one tick: of a match and a zero to one target only the zero action acts (R91). -/
def sendActions (n : Nat) (isMatch isZero : Bool) (s : State) : State :=
  let m := if isMatch then tmuAction (s.fld (R.TMU_CTL n) F.TMU_CTL_MACT) n (s.linked n) else none
  let z := if isZero then tmuAction (s.fld (R.TMU_CTL n) F.TMU_CTL_ZACT) n (s.linked n) else none
  match m, z with
  | none, none => s
  | some a, none => queueAction a s
  | none, some b => queueAction b s
  | some a, some b => if a.1 = b.1 then queueAction b s else queueAction b (queueAction a s)

/-- The actions queued on counter `n` land: a reset before a start (R91). -/
def landAction (n : Nat) (s : State) : State :=
  let t := s.timerOf n
  updTimer n (fun x => { x with actReset := false, actStart := false }) (tmuCmd n t.actReset t.actStart false s)

def execTimerAction (n : Fin 32) (s : State) : Host.Outcome State Fault Refusal :=
  .next (if s.tclk then landAction n s else s)

/-! ### Ticks (R84-R86) -/

/-- An edge of a TIN input against an edge selection: 0 and 3 rising, 1 falling, 2 both. -/
def edgeIs (sel : Nat) (rise : Bool) : Bool :=
  match sel with
  | 1 => !rise
  | 2 => true
  | _ => rise

/-- The port that `PSEL` names for counter `n` (R83). -/
def State.pselPort (s : State) (n : Nat) : Nat := n / 8 * 128 + s.fld (R.TMU_SRC n) F.TMU_SRC_PSEL

/-- The last event that the crossing delivered for port `p`, if it is of kind `k` (R83). -/
def State.delivered (s : State) (p k : Nat) : Bool := tabGet 0 s.portEv p = k + 1

/-- The counter's clock source is this one (Table 03-1). -/
def State.clkIs (s : State) (n : Nat) (src : TickSrc) : Bool :=
  let clk := s.fld (R.TMU_SRC n) F.TMU_SRC_CLK
  match src with
  | .tclk => clk = 0
  | .usec => clk = 1
  | .angle => clk = 2
  | .sched => clk = 3
  | .slot => clk = 4
  | .wrap => clk = 5
  | .tin k rise =>
    clk = 6 && s.fld (R.TMU_SRC n) F.TMU_SRC_CTIN = k.val && edgeIs (s.fld (R.TMU_SRC n) F.TMU_SRC_CEDGE) rise
  | .port p kind =>
    clk = 7 && s.pselPort n = p.val && s.fld (R.TMU_SRC n) F.TMU_SRC_CPEV = kind.val && s.delivered p kind &&
      s.portUp p

/-- Attached, in the sense of Table 03-2. -/
def Port.attached (x : Port) : Bool := !(x.state = .off || x.state = .idle || x.state = .debounce)

/-- The gate level of counter `n` (R84). A port's levels read inactive while its link is down (R83). -/
def State.gateLevel (s : State) (n : Nat) : Bool :=
  let sel := s.fld (R.TMU_SRC n) F.TMU_SRC_GSEL
  let p := s.pselPort n
  if sel < 8 then (s.reg R.TMU_TINLVL).getLsbD sel
  else if sel = 8 then s.portUp p && (s.mirOf p).pgood
  else if sel = 9 then s.portUp p && (s.mirOf p).limact
  else if sel = 10 then s.portUp p && (s.mirOf p).attached
  else if sel = 11 then s.running (s.linked n)
  else false

/-- The gate lets counter `n` count; a gate on codes 12–15 never does. -/
def State.gateOpen (s : State) (n : Nat) : Bool :=
  match s.fld (R.TMU_CTL n) F.TMU_CTL_GATE with
  | 0 => true
  | 1 => s.gateLevel n
  | 2 => s.fld (R.TMU_SRC n) F.TMU_SRC_GSEL < 12 && !s.gateLevel n
  | _ => true

/-- The trigger source of unit `u` is code `code` of Table 09-4, of counter `n` for codes 1 and 2: a port-die unit takes those of its
own channel (R259). -/
def State.trigOn (s : State) (u code n : Nat) : Bool :=
  F.ADC_ODTRG_TSRC.get (s.dreg (R.ADC_ODTRG u)) = code &&
    (2 < code || (F.ADC_ODTRG_TSEL.get (s.dreg (R.ADC_ODTRG u)) = n && (32 ≤ u || n / 8 = u / 8)))

/-- An event is presented to each armed unit whose trigger it is (R257, R259). -/
def presentTrig (code n : Nat) (s : State) : State :=
  forEach (List.range 34) (fun u t =>
    if t.trigOn u code n && t.dfld (R.ADC_STAT u) F.ADC_STAT_ARMED = 1 then updAdc u (fun a => { a with trg := true }) t else t) s

/-- The procedure of R86 on counter `n`, or on the pair that starts at `n`. -/
def tickProc (n : Nat) (s : State) : State :=
  let cnt := s.wide R.TMU_CNT n
  let next := if cnt = 0 then s.wide R.TMU_RLD n else cnt - 1
  let isMatch := next = s.wide R.TMU_CMP n
  let isZero := next = 0
  let s1 := setWide R.TMU_CNT n next s
  let s2 := if isMatch then presentTrig 2 n (raiseTmu n F.TMU_STAT_MATCH s1) else s1
  let s3 := if isZero then presentTrig 1 n (raiseTmu n F.TMU_STAT_ZERO s2) else s2
  let s4 := if isZero && s.flag (R.TMU_CTL n) F.TMU_CTL_ONESHOT then setRun n false s3 else s3
  sendActions n isMatch isZero s4

/-- A tick is taken when the counter runs, its source presents it, its gate is open and no action lands (R85). -/
def State.takesTick (s : State) (n : Nat) (src : TickSrc) : Bool :=
  !s.oddHalf n && s.running n && s.clkIs n src && s.gateOpen n && !(s.timerOf n).actReset && !(s.timerOf n).actStart

/-- The source presents a tick that counter `n` has not had (Table 03-1): TCLK in every cycle, a USEC tick for each value of USEC, an
angle tick for each au of the output angle, any other at its event. -/
def State.presented (s : State) (n : Nat) (src : TickSrc) : Bool :=
  match src with
  | .tclk => true
  | .usec => (s.timerOf n).usecAt.toNat < s.tb.usec.toNat
  | .angle => (s.timerOf n).posAt < s.auPos s.tb.angle
  | _ => (s.timerOf n).tick

/-- The tick presented to counter `n` is over. -/
def endTick (n : Nat) (src : TickSrc) (s : State) : State :=
  updTimer n (fun x =>
    match src with
    | .tclk => x
    | .usec => { x with usecAt := x.usecAt + 1 }
    | .angle => { x with posAt := x.posAt + 1 }
    | _ => { x with tick := false }) s

/-- A tick of its source comes to counter `n`, which takes it or not (R85). -/
def timerTick (n : Nat) (src : TickSrc) (s : State) : State :=
  if s.clkIs n src && s.presented n src then
    (if s.takesTick n src then tickProc n (endTick n src s) else endTick n src s)
  else s

def execTimerTick (n : Fin 32) (src : TickSrc) (s : State) : Host.Outcome State Fault Refusal :=
  .next (if s.tclk then timerTick n src s else s)

/-! ### Captures (R96-R99) -/

/-- The entries held, as `QDEPTH` shows them. -/
def setCaps (n : Nat) (l : List (BitVec 64)) (s : State) : State :=
  setFld (R.TMU_STAT n) F.TMU_STAT_QDEPTH l.length (updTimer n (fun t => { t with caps := l }) s)

/-- Counter `n` captures from the event of feeder `f` (Table 03-5). -/
def State.capFeeder (s : State) (n f : Nat) : Bool :=
  s.fld (R.TMU_CAPSRC n) F.TMU_CAPSRC_CSEL = 12 && s.fld (R.TMU_CAPSRC n) F.TMU_CAPSRC_FSEL = f

/-- The capture source of counter `n` is this one (Table 03-5). -/
def State.capIs (s : State) (n : Nat) (src : CapSrc) : Bool :=
  let sel := s.fld (R.TMU_CAPSRC n) F.TMU_CAPSRC_CSEL
  match src with
  | .tin k rise => sel = k.val && edgeIs (s.fld (R.TMU_CAPSRC n) F.TMU_CAPSRC_CEDGE) rise
  | .mzx => sel = 8
  | .ma => sel = 9
  | .wrap => sel = 10
  | .slot => sel = 11
  | .feeder f => s.capFeeder n f
  | .port p kind =>
    sel = 13 && s.pselPort n = p.val && s.fld (R.TMU_CAPSRC n) F.TMU_CAPSRC_CPK = kind.val && s.delivered p kind &&
      s.portUp p

/-- An event is presented: to each running counter whose gate is open and whose clock source `clk` picks, and to each counter that
captures from the source that `cap` picks (R85, R96). -/
def present (clk cap : State → Nat → Bool) (s : State) : State :=
  forEach (List.range 32) (fun n t =>
    if t.oddHalf n then t
    else
      let k := t.running n && t.gateOpen n && clk t n
      let c := t.flag (R.TMU_CTL n) F.TMU_CTL_CAPEN && cap t n
      if k || c then updTimer n (fun x => { x with tick := x.tick || k, cap := x.cap || c }) t else t) s

/-- No counter's source. -/
def noSrc (_ : State) (_ : Nat) : Bool := false

/-- A port-class capture: into the single register, which a full one overwrites with `OVR` (R98). -/
def capSingle (n : Nat) (v : BitVec 64) (s : State) : State :=
  let s1 := if (s.timerOf n).caps = [] then s else raiseTmu n F.TMU_STAT_OVR s
  raiseTmu n F.TMU_STAT_CAP (setCaps n [v] s1)

/-- An angle-class capture: into the queue of four, dropped with `QOVR` when it is full (R97). -/
def capQueue (n : Nat) (v : BitVec 64) (s : State) : State :=
  if 4 ≤ (s.timerOf n).caps.length then raiseTmu n F.TMU_STAT_QOVR s
  else raiseTmu n F.TMU_STAT_CAP (setCaps n ((s.timerOf n).caps ++ [v]) s)

/-- A capture of the count by its selected source, which presents an event (R96). -/
def capture (n : Nat) (src : CapSrc) (s : State) : State :=
  let v := BitVec.ofNat 64 (s.wide R.TMU_CNT n)
  let s1 := updTimer n (fun x => { x with cap := false }) s
  match src with
  | .port _ _ => capSingle n v s1
  | _ => capQueue n v s1

def execTimerCapture (n : Fin 32) (src : CapSrc) (s : State) : Host.Outcome State Fault Refusal :=
  .next (if s.tclk && !s.oddHalf n && s.flag (R.TMU_CTL n) F.TMU_CTL_CAPEN && s.capIs n src && (s.timerOf n).cap then
      capture n src s
    else s)

/-- Reads `TMU_CAP_n`: the head is removed; of a chained pair the low half latches the high one (R94, R97, R98). An empty single
register reads 0, as an empty queue does: DESIGN CHOICE, log 141. -/
def readCap (n : Nat) (s : State) : Word × State :=
  if s.oddHalf n then ((s.timerOf n).capHi, s)
  else
    match (s.timerOf n).caps with
    | [] => (0, if s.chained n then updTimer (n + 1) (fun t => { t with capHi := 0 }) s else s)
    | v :: l =>
      let s1 := setCaps n l s
      (v.truncate 32,
        if s.chained n then updTimer (n + 1) (fun t => { t with capHi := BitVec.ofNat 32 (v.toNat / 2 ^ 32) }) s1
        else s1)

/-- Reads `TMU_CNT_n`; of a chained pair the low half latches the high one (R94). -/
def readCnt (n : Nat) (s : State) : Word × State :=
  if s.oddHalf n then ((s.timerOf n).cntHi, s)
  else
    (s.reg (R.TMU_CNT n),
      if s.chained n then updTimer (n + 1) (fun t => { t with cntHi := s.reg (R.TMU_CNT (n + 1)) }) s else s)

/-! ### Register writes (R87, R89, R92-R95, R99) -/

/-- A write to `TMU_RLD_n` (R87, R95). A pending high half stands until a low-half write of a chained pair, also over an unchaining,
and a read shows what is committed: DESIGN CHOICE, log 140. -/
def writeRld (n : Nat) (v : Word) (s : State) : State :=
  if s.oddHalf n then updTimer n (fun t => { t with rldPend := some v }) s
  else if s.chained n then
    match (s.timerOf (n + 1)).rldPend with
    | none => setReg (R.TMU_RLD n) v s
    | some h =>
      updTimer (n + 1) (fun t => { t with rldPend := none }) (setReg (R.TMU_RLD (n + 1)) h (setReg (R.TMU_RLD n) v s))
  else setReg (R.TMU_RLD n) v s

def execTmuRldWrite (n : Fin 32) (v : Word) (s : State) : Host.Outcome State Fault Refusal :=
  .next (access .host (R.TMU_RLD n) (writeRld n v) s)

/-- A write to `TMU_CMP_n` (R89, R95). Its pending high half is as that of `TMU_RLD`: DESIGN CHOICE, log 140. -/
def writeCmp (n : Nat) (v : Word) (s : State) : State :=
  if s.oddHalf n then updTimer n (fun t => { t with cmpPend := some v }) s
  else if s.chained n then
    match (s.timerOf (n + 1)).cmpPend with
    | none => setReg (R.TMU_CMP n) v s
    | some h =>
      updTimer (n + 1) (fun t => { t with cmpPend := none }) (setReg (R.TMU_CMP (n + 1)) h (setReg (R.TMU_CMP n) v s))
  else setReg (R.TMU_CMP n) v s

def execTmuCmpWrite (n : Fin 32) (v : Word) (s : State) : Host.Outcome State Fault Refusal :=
  .next (access .host (R.TMU_CMP n) (writeCmp n v) s)

/-- The value that a write of `TMU_CTL_n` leaves: a `GATE` of 0b11 is not taken (R84), `CHAIN` does not change while
either half runs and reads 0 on an odd counter (R93), reserved bits stay 0. -/
def ctlValue (n : Nat) (v : Word) (s : State) : Word :=
  let old := s.reg (R.TMU_CTL n)
  let v1 := v &&& 0xFFFC
  let v2 := if F.TMU_CTL_GATE.get v1 = 3 then F.TMU_CTL_GATE.put v1 (F.TMU_CTL_GATE.get old) else v1
  if n % 2 = 1 then F.TMU_CTL_CHAIN.put v2 0
  else if s.running n || s.running (n + 1) then F.TMU_CTL_CHAIN.put v2 (F.TMU_CTL_CHAIN.get old) else v2

/-- A write of `TMU_SRC_n`: the ticks of the source before are over. -/
def writeSrc (n : Nat) (w : Word) (s : State) : State :=
  if s.oddHalf n then s else setReg (R.TMU_SRC n) w (dropTicks n s)

/-- A write to `TMU_CTL_n` (R84, R92, R93). It writes `CAPEN`, so it empties the captures (R99). What the odd counter holds, its flags
and the latches of high halves stand when `CHAIN` changes: DESIGN CHOICE, log 142. -/
def writeCtl (n : Nat) (v : Word) (s : State) : State :=
  if s.oddHalf n then s
  else
    let w := ctlValue n v s
    let s1 := setReg (R.TMU_CTL n) w s
    let s2 := if n % 2 = 0 then
        let ch := F.TMU_CTL_CHAIN.get w
        setFld (R.TMU_STAT (n + 1)) F.TMU_STAT_CHAINED ch (setFld (R.TMU_STAT n) F.TMU_STAT_CHAINED ch s1)
      else s1
    setCaps n [] s2

def execTmuCtlWrite (n : Fin 32) (v : Word) (s : State) : Host.Outcome State Fault Refusal :=
  .next (access .host (R.TMU_CTL n) (writeCtl n v) s)

/-- A write to `TMU_CAPSRC_n`, which empties the captures (R99). -/
def writeCapsrc (n : Nat) (v : Word) (s : State) : State :=
  if s.oddHalf n then s else setCaps n [] (setReg (R.TMU_CAPSRC n) (v &&& 0xFFF00000) s)

def execTmuCapsrcWrite (n : Fin 32) (v : Word) (s : State) : Host.Outcome State Fault Refusal :=
  .next (access .host (R.TMU_CAPSRC n) (writeCapsrc n v) s)

/-! ### Inputs -/

/-- A filtered TIN level (R82); a change is an edge for clocks and captures (Tables 03-1, 03-5). -/
def tinEdge (k : Fin 8) (level : Bool) (s : State) : State :=
  if s.flag R.TMU_TINLVL ⟨k, 1⟩ = level then s
  else present (fun t n => t.clkIs n (.tin k level)) (fun t n => t.capIs n (.tin k level)) (setFlag R.TMU_TINLVL ⟨k, 1⟩ level s)

def execTinEdge (k : Fin 8) (level : Bool) (s : State) : Host.Outcome State Fault Refusal :=
  .next (if s.tclk then tinEdge k level s else s)

/-- A rising edge on `MZX` at output angle `a`: blanked, or accepted, which counters may capture (R48, R63). -/
def execMzxEdge (at16 : BitVec 16) (s : State) : Host.Outcome State Fault Refusal :=
  .next (if s.tclk && s.reaches at16 then
      let s1 := advanceTo at16 s
      if s1.unblanked s1.tb.mzxBlankEnd at16 then mzxEdge at16 (present noSrc (fun t n => t.capIs n .mzx) s1) else s1
    else s)

/-- An edge of the `MA` comparator at output angle `a`: blanked, or accepted, which counters may capture (R48, R63). -/
def execMaComparatorEdge (at16 : BitVec 16) (s : State) : Host.Outcome State Fault Refusal :=
  .next (if s.tclk && s.reaches at16 then
      let s1 := advanceTo at16 s
      if s1.unblanked s1.tb.maBlankEnd at16 then maEdge at16 (present noSrc (fun t n => t.capIs n .ma) s1) else s1
    else s)

/-- The events of a port that move the level behind a gate code (Table 03-2): PGOOD, limit-active, attached. -/
def gateKinds (sel k : Nat) : Bool :=
  match sel with
  | 8 => k = 4 || k = 5
  | 9 => k = 6 || k = 7
  | 10 => k = 0 || k = 1
  | _ => false

/-- Counter `n` has selected port `p` and event `k` as its clock or capture source, or a level that the event moves as its gate
(R83). The odd half of a chained pair selects nothing (R92). -/
def State.selects (s : State) (n p k : Nat) : Bool :=
  !s.oddHalf n && s.pselPort n = p &&
    ((s.fld (R.TMU_SRC n) F.TMU_SRC_CLK = 7 && s.fld (R.TMU_SRC n) F.TMU_SRC_CPEV = k) ||
     (s.fld (R.TMU_CTL n) F.TMU_CTL_GATE ≠ 0 && gateKinds (s.fld (R.TMU_SRC n) F.TMU_SRC_GSEL) k) ||
     (s.fld (R.TMU_CAPSRC n) F.TMU_CAPSRC_CSEL = 13 && s.fld (R.TMU_CAPSRC n) F.TMU_CAPSRC_CPK = k))

/-- A port event reaches TCLK and is presented once, or finds an earlier one in flight and sets `OVR` on every counter that selected
it (R83, R342). -/
def portEventCrossing (p : Fin 512) (k : Fin 8) (s : State) : State :=
  if !s.portUp p || !s.chanUp (p / 128) then s
  else
    let r := cross (.timer p) s
    if r.1 then
      forEach (List.range 32) (fun n t => if t.selects n p k then raiseTmu n F.TMU_STAT_OVR t else t) r.2
    else
      present (fun t n => t.clkIs n (.port p k)) (fun t n => t.capIs n (.port p k))
        { r.2 with portEv := tabSet 0 r.2.portEv p (k.val + 1) }

def execPortEventCrossing (p : Fin 512) (kind : Fin 8) (s : State) : Host.Outcome State Fault Refusal :=
  .next (if s.tclk then portEventCrossing p kind s else s)

end Sys2Proof.Machine
end

