-- ==== Sys2Proof/Machine/Rake.lean ====
section
/-! DEFINITION. Feeder placement (chapter 08): feeder health and headroom, the round of R233, ship signals, the two banks
and the commit. Power is in units of 100 mW throughout. -/
namespace Sys2Proof.Machine

/-! ### Feeder state for a round (R219, R221-R223) -/

/-- Health codes (Table 08-12). -/
inductive Health where
  | absent | ok | sag | down | recovering | offline
deriving DecidableEq, Repr

def Health.code : Health → Nat
  | .absent => 0 | .ok => 1 | .sag => 2 | .down => 3 | .recovering => 4 | .offline => 5

def Health.ofCode : Nat → Health
  | 1 => .ok | 2 => .sag | 3 => .down | 4 => .recovering | 5 => .offline | _ => .absent

def Health.avail : Health → Bool
  | .ok | .sag => true
  | _ => false

/-- The events of a feeder's health change (Table 08-2). -/
inductive HealthEv where
  | none | offl | down | sag | up
deriving DecidableEq, Repr

/-- A feeder as a round computes it. -/
structure FdrOut where
  health : Health
  rcnt : Nat
  kcor : Nat
  ev : HealthEv
  blkapp : Bool
  reslow : Bool
  isOver : Bool
  usable : Nat
  vmeas : Nat
  imean : Int
deriving DecidableEq, Repr

def State.fdrType (s : State) (f : Nat) : Nat := s.fld (R.FDR_CFG f) F.FDR_CFG_TYPE

/-- Blackout applies to feeder `f` (Table 08-1). -/
def State.blkApp (s : State) (f : Nat) : Bool :=
  s.flag R.PLC_INPUTS F.PLC_INPUTS_BLK && s.fdrType f ≤ 1 && s.flag (R.FDR_CFG f) F.FDR_CFG_PRES

/-- The mean current since the previous round's t0, rounded toward zero (R255), in 10 mA. -/
def FdrMon.imean (m : FdrMon) : Int := if m.iCnt = 0 then 0 else Int.tdiv m.iSum m.iCnt

/-- Table 08-2: health, `RCNT` and event; `RCNT` stands where a row does not name it. A present feeder that no round has seen yet
starts from OK. -/
def nextHealth (h : Health) (rcnt recov : Nat) (off seen : Bool) (v vsag : Nat) : Health × Nat × HealthEv :=
  match h with
  | .absent | .ok =>
    if off then (.offline, rcnt, .offl) else if seen then (.down, rcnt, .down)
    else if v < vsag then (.sag, rcnt, .sag) else (.ok, rcnt, .none)
  | .sag =>
    if off then (.offline, rcnt, .offl) else if seen then (.down, rcnt, .down)
    else if vsag + 500 ≤ v then (.ok, rcnt, .up) else (.sag, rcnt, .none)
  | .down =>
    if off then (.offline, rcnt, .offl) else if !seen then (.recovering, recov, .none) else (.down, rcnt, .none)
  | .recovering =>
    if off then (.offline, rcnt, .offl) else if seen then (.down, rcnt, .none)
    else if rcnt ≤ 1 then (.ok, 0, .up) else (.recovering, rcnt - 1, .none)
  | .offline => if off then (.offline, rcnt, .none) else (.recovering, recov, .none)

/-- R222. -/
def nextKcor (kcor kstep : Nat) (imean : Int) (ilim : Nat) : Nat :=
  if (ilim : Int) < imean then kcor * ilim / imean.toNat
  else if imean * 10 ≤ 9 * (ilim : Int) then min 1000 (kcor + kstep) else kcor

/-- The feeder row of the active bank; a poisoned one is taken as RECOVERING (Table 12-2). -/
def State.prevRow (s : State) (f : Nat) : FdrRow :=
  let r := s.fdrRow f
  if s.poisoned 0x50 (0x1000 * s.active.toNat + 0x800 + 32 * f) then
    { r with stat := BitVec.ofNat 32 (4 * 2 ^ 29 + s.fld (R.FDR_DER f) F.FDR_DER_RECOV * 2 ^ 16 + 1000) }
  else r

/-- The effective shed level (R225). -/
def State.shedLevel (s : State) : Nat :=
  max (max (s.fld R.PLC_INPUTS F.PLC_INPUTS_PINLV) (s.fld R.PLC_HOSTSHED F.PLC_HOSTSHED_LV))
    (if s.flag R.PLC_INPUTS F.PLC_INPUTS_EMERG then s.act R.PLC_INFLT F.PLC_INFLT_EMERG_LV else 0)

/-- Usable headroom (R221). -/
def State.usable (s : State) (f : Nat) (h : Health) (kcor lv : Nat) : Nat :=
  if h.avail then
    let u := s.fld (R.FDR_PCAP f) F.FDR_PCAP_PCAP * 10 * s.fld (R.FDR_DER f) F.FDR_DER_DERATE / 1000
    let u1 := if s.fdrType f ≤ 1 then u * s.fld (R.PLC_SHEDLV lv) F.PLC_SHEDLV_PCT / 100 else u
    let u2 := if h = .sag then u1 * s.fld (R.FDR_DER f) F.FDR_DER_SAGDER / 1000 else u1
    u2 * kcor / 1000
  else 0

/-- A feeder's row as a round computes it. -/
def State.fdrOut (s : State) (f lv : Nat) : FdrOut :=
  let m := s.monOf f
  let prev := s.prevRow f
  let imean := m.imean
  let recov := s.fld (R.FDR_DER f) F.FDR_DER_RECOV
  if !s.flag (R.FDR_CFG f) F.FDR_CFG_PRES then
    { health := .absent, rcnt := 0, kcor := 1000, ev := .none, blkapp := false, reslow := false, isOver := false,
      usable := 0, vmeas := m.v, imean := imean }
  else
    let blk := s.blkApp f
    let n := nextHealth (Health.ofCode (F.FDR_STAT_HEALTH.get prev.stat)) (F.FDR_STAT_RCNT.get prev.stat) recov
      (m.offcmd || blk) m.downSeen m.v (100 * s.fld (R.FDR_VWIN f) F.FDR_VWIN_VSAG)
    let ilim := s.fld (R.FDR_ILIM f) F.FDR_ILIM_ILIM
    let kcor := if n.1.avail then
        nextKcor (F.FDR_STAT_KCOR.get prev.stat) (s.fld R.PLC_CFG F.PLC_CFG_KSTEP) imean ilim
      else 1000
    { health := n.1, rcnt := n.2.1, kcor := kcor, ev := n.2.2, blkapp := blk,
      reslow := s.fdrType f = 2 && min 1000 (s.fld (R.FDR_SOC f) F.FDR_SOC_SOC) < s.fld (R.FDR_BAT f) F.FDR_BAT_RES,
      isOver := decide ((ilim : Int) < imean),
      usable := s.usable f n.1 kcor lv, vmeas := m.v, imean := imean }

/-! ### Ports in a round (R228-R231) -/

/-- The rake's hold status of a port: its port die is in autonomous hold or its channel in reset, or no measurement has arrived since
(R15). -/
def State.rakeHold (s : State) (p : Nat) : Bool :=
  s.flag R.FLT_LINKSTAT (F.FLT_LINKSTAT_HOLD.bit (p / 64)) || !s.chanUp (p / 128) || (s.hubOf p).stale

/-- Live: class TC or HV, in a state that may draw power, not in hold. -/
def State.live (s : State) (p : Nat) : Bool :=
  (s.cls p = 1 || s.cls p = 2) && !s.rakeHold p &&
  (match (s.mirOf p).eff with
    | .debounce | .inrush | .safe5v | .contract | .transition => true
    | _ => false)

def State.rakePowered (s : State) (p : Nat) : Bool :=
  s.live p && (s.mirOf p).eff != .debounce && !((s.mirOf p).state = .inrush && (s.mirOf p).armed)

/-- Rounded-up quotient. -/
def ceilDiv (a b : Nat) : Nat := (a + b - 1) / b

/-- A port state record word is poisoned: the rake falls back on the previous ceiling (Table 12-2). -/
def State.recBad (s : State) (p : Nat) : Bool :=
  (List.range 8).any fun w => s.poisoned (0x30 + p / 128) (64 * (p % 128) + 8 * w)

/-- A placement entry as a round reads it; a poisoned one is taken as Table 12-2 states. -/
def State.prevEnt (s : State) (p : Nat) : Word :=
  if s.poisoned 0x50 (0x1000 * s.active.toNat + 4 * p) then
    BitVec.ofNat 32 ((if s.rakePowered p then (s.hubOf p).leg.code else 0) * 2 ^ 30)
  else s.entOf p

def State.prevCeil (s : State) (p : Nat) : Nat := F.PLC_ENT_CEIL.get (s.prevEnt p)

/-- Requested power (Table 10-7, word 8). -/
def State.reqPower (s : State) (p : Nat) : Nat :=
  if s.recBad p then s.prevCeil p else (s.recOf p 8).toNat % 65536

/-- The floor of a live port (Table 08-4). -/
def State.floorOf (s : State) (p : Nat) : Nat :=
  if s.recBad p then s.prevCeil p
  else match (s.mirOf p).eff with
    | .debounce | .inrush => ceilDiv (5000 * s.startCur p) 100000
    | .transition => max (s.contractPower p) (s.reqPower p)
    | _ => s.contractPower p

/-- The power of profile object `w` of a profile as the rake counts it (R229), in 100 mW. -/
def objPower (epr pps : Bool) (w : Nat) (v : Word) : Nat :=
  let spr := w < 7
  match F.CHN_PROF_KIND.get v with
  | 0 => if spr || epr then F.CHN_PROF_VMAX.get v * F.CHN_PROF_IMAX.get v / 100 else 0
  | 1 => if spr && pps then F.CHN_PROF_VMAX.get v * F.CHN_PROF_IMAX.get v / 100 else 0
  | 2 => if !spr && epr then F.CHN_PROF_IMAX.get v * 10 else 0
  | _ => 0

/-- The power of a heavy object, in 100 mW. -/
def heavyPower (v : Word) : Nat :=
  if F.CHN_HPROF_TYPE.get v = 3 then 0 else F.CHN_HPROF_VMAX.get v * F.CHN_HPROF_IMAX.get v / 20

/-- Profile power (R229). -/
def State.pmax (s : State) (p : Nat) : Nat :=
  let c := p / 128
  let pol := s.reg (R.CHN_PPOL c (p % 128))
  let j := F.CHN_PPOL_PROF.get pol
  let epr := s.cls p = 1 && F.CHN_PPOL_EPR_EN.get pol = 1
  let pps := F.CHN_PPOL_PPS_EN.get pol = 1
  let usb := (List.range 11).foldl (fun m w => max m (objPower epr pps w (s.reg (R.CHN_PROF c j w)))) 0
  if s.cls p = 2 then (List.range 4).foldl (fun m h => max m (heavyPower (s.reg (R.CHN_HPROF c j h)))) usb else usb

/-- The parent group of a port or of a group (keys of R231: a port's number, 512 + g for a group). -/
def State.parentOf (s : State) (key : Nat) : Nat :=
  if key < 512 then s.fld (R.PRT_PDCFG key) F.PRT_PDCFG_GROUP else s.fld (R.PLC_GRP (key - 512)) F.PLC_GRP_PARENT

def State.keyPrio (s : State) (key : Nat) : Nat :=
  if key < 512 then s.ownPrio key else s.fld (R.PLC_GRP (key - 512)) F.PLC_GRP_GPRIO

/-- The groups from group `g` up to group 0. -/
def State.groupsUp (s : State) : Nat → Nat → List Nat
  | 0, _ => [0]
  | n + 1, g => if g = 0 then [0] else g :: s.groupsUp n (s.fld (R.PLC_GRP g) F.PLC_GRP_PARENT)

/-- The port's chain of groups. -/
def State.groupChain (s : State) (p : Nat) : List Nat := s.groupsUp 256 (s.parentOf p)

/-- The children of a group in falling priority, then rising key. -/
def State.children (s : State) (g : Nat) : List Nat :=
  let keys := (List.range 768).filter fun k => k != 512 && s.parentOf k = g
  ([7, 6, 5, 4, 3, 2, 1, 0] : List Nat).flatMap fun q => keys.filter fun k => s.keyPrio k = q

/-- The depth-first walk of the group tree. -/
def State.walk (s : State) : Nat → Nat → List Nat
  | 0, _ => []
  | n + 1, g => (s.children g).flatMap fun k => if k < 512 then [k] else s.walk n (k - 512)

/-- The service order (R231). -/
def State.serviceOrder (s : State) : List Nat :=
  let first := (List.range 512).filter fun p => s.live p && s.ownPrio p = 7
  first ++ (s.walk 256 0).filter fun p => !s.rakeHold p && !(s.live p && s.ownPrio p = 7)

/-! ### The round's working state (R233) -/

structure Ent where
  leg : Leg
  pend : Bool
  shed : Bool
  isOver : Bool
  moved : Bool
  forced : Bool
  hold : Bool
  dwell : Nat
  ceil : Nat
deriving DecidableEq, Repr

def Ent.init : Ent := ⟨.none, false, false, false, false, false, false, 0, 0⟩

def Ent.word (e : Ent) : Word :=
  BitVec.ofNat 32 (e.leg.code * 2 ^ 30 + e.pend.toNat * 2 ^ 29 + e.shed.toNat * 2 ^ 28 + e.isOver.toNat * 2 ^ 27 +
    e.moved.toNat * 2 ^ 26 + e.forced.toNat * 2 ^ 25 + e.hold.toNat * 2 ^ 24 + e.dwell * 2 ^ 16 + e.ceil % 65536)

def Ent.ofWord (w : Word) : Ent :=
  { leg := Leg.ofCode (F.PLC_ENT_LEG.get w), pend := F.PLC_ENT_PEND.get w != 0, shed := F.PLC_ENT_SHED.get w != 0,
    isOver := F.PLC_ENT_OVER.get w != 0, moved := F.PLC_ENT_MOVED.get w != 0, forced := F.PLC_ENT_FORCED.get w != 0,
    hold := F.PLC_ENT_HOLD.get w != 0, dwell := F.PLC_ENT_DWELL.get w, ceil := F.PLC_ENT_CEIL.get w }

/-- The rooms of the feeders, what the groups have left, the entries, the voluntary moves left. -/
structure Rnd where
  room : Tab Int
  groom : Tab Int
  ent : Tab Ent
  vmoves : Nat
deriving DecidableEq, Repr

def Rnd.roomOf (r : Rnd) (f : Nat) : Int := tabGet 0 r.room f
def Rnd.groomOf (r : Rnd) (g : Nat) : Int := tabGet 0 r.groom g
def Rnd.entOf (r : Rnd) (p : Nat) : Ent := tabGet Ent.init r.ent p

/-- The part of a charge that each feeder of a leg takes. -/
def shareOf (l : Leg) (c : Nat) : Nat := if l = .ab then (c + 1) / 2 else c

/-- `set_ceil` of R233. -/
def setCeil (s : State) (p c : Nat) (r : Rnd) : Rnd :=
  let e := r.entOf p
  let d : Int := (shareOf e.leg c : Int) - shareOf e.leg e.ceil
  let room := (s.legFeeds p e.leg).foldl (fun t f => tabSet 0 t f (tabGet 0 t f - d)) r.room
  let groom := (s.groupChain p).foldl (fun t g => tabSet 0 t g (tabGet 0 t g - ((c : Int) - e.ceil))) r.groom
  { r with room := room, groom := groom, ent := tabSet Ent.init r.ent p { e with ceil := c } }

/-- The latched voltages of the two legs' feeders differ by at most `lim` mV. -/
def State.abWithin (s : State) (p lim : Nat) : Bool :=
  let a := (s.monOf (s.feedA p)).v
  let b := (s.monOf (s.feedB p)).v
  a ≤ b + lim && b ≤ a + lim

/-- A leg fits a floor (R232, R223). -/
def legFits (s : State) (fd : Nat → FdrOut) (p : Nat) (l : Leg) (fl lim : Nat) (r : Rnd) : Bool :=
  let p7 := s.ownPrio p = 7
  (l != .ab || s.abWithin p lim) &&
  ((s.legFeeds p l).all fun f =>
    (fd f).health.avail && (shareOf l fl : Int) ≤ r.roomOf f &&
    (!(fd f).reslow || p7 || s.fld (R.FDR_BAT f) F.FDR_BAT_RPRIO ≤ s.pif p)) &&
  (p7 || (s.groupChain p).all fun g => (fl : Int) ≤ r.groomOf g)

/-- Cost rank of a leg: the higher of the two for AB. -/
def State.legCost (s : State) (p : Nat) (l : Leg) : Nat :=
  (s.legFeeds p l).foldl (fun m f => max m (s.fld (R.FDR_CFG f) F.FDR_CFG_COST)) 0

def State.legFprio (s : State) (p : Nat) (l : Leg) : Nat :=
  (s.legFeeds p l).foldl (fun m f => min m (s.fld (R.FDR_CFG f) F.FDR_CFG_FPRIO)) 7

/-- Room of a leg as the ranking counts it: for AB twice the smaller. -/
def legRoom (s : State) (p : Nat) (l : Leg) (r : Rnd) : Int :=
  match l with
  | .none => 0
  | .a => r.roomOf (s.feedA p)
  | .b => r.roomOf (s.feedB p)
  | .ab => 2 * min (r.roomOf (s.feedA p)) (r.roomOf (s.feedB p))

/-- Candidate `x` ranks before candidate `y` by the keys of R232; equal keys leave the order A, B, AB. -/
def ranksBefore (s : State) (p : Nat) (r : Rnd) (x y : Leg) : Bool :=
  let cx := s.legCost p x
  let cy := s.legCost p y
  let fx := s.legFprio p x
  let fy := s.legFprio p y
  let rx := legRoom s p x r
  let ry := legRoom s p y r
  if cx ≠ cy then cx < cy
  else if (x = .ab) ≠ (y = .ab) then y = .ab
  else if fx ≠ fy then fy < fx
  else if rx ≠ ry then ry < rx
  else x.code < y.code

/-- The candidate legs of a port (R232). -/
def State.candidates (s : State) (p : Nat) : List Leg :=
  let a := s.flag (R.PRT_CFG p) F.PRT_CFG_LEGA_EN
  let b := s.flag (R.PRT_CFG p) F.PRT_CFG_LEGB_EN
  (if a then [Leg.a] else []) ++ (if b then [Leg.b] else []) ++ (if a && b && s.abWithin p 1000 then [Leg.ab] else [])

/-- The best-ranked of a list of legs. -/
def bestLeg (s : State) (p : Nat) (r : Rnd) : List Leg → Leg
  | [] => .none
  | l :: t =>
    let best := bestLeg s p r t
    if best = .none || ranksBefore s p r l best then l else best

/-- A priority 7 port that is charged beyond a feeder's room or a group's budget is marked `OVER` (R234). -/
def p7Over (s : State) (p : Nat) (r : Rnd) : Rnd :=
  let e := r.entOf p
  let short := ((s.legFeeds p e.leg).any fun f => decide (r.roomOf f < 0)) ||
    (s.groupChain p).any fun g => decide (r.groomOf g < 0)
  if s.ownPrio p = 7 ∧ 0 < e.ceil ∧ short = true then { r with ent := tabSet Ent.init r.ent p { e with isOver := true } } else r

/-- Pass A for a port (R233, R234). -/
def passA (s : State) (lv : Nat) (fd : Nat → FdrOut) (r : Rnd) (p : Nat) : Rnd :=
  let prev := Ent.ofWord (s.prevEnt p)
  let manv := s.flag R.PLC_INPUTS F.PLC_INPUTS_MANV
  let powered := s.rakePowered p
  let pend := s.xferBusy (p / 128) (p % 128)
  let cur := if powered then (s.hubOf p).leg else prev.leg
  let low := s.pif p < s.fld (R.PLC_SHEDLV lv) F.PLC_SHEDLV_FLOOR && s.ownPrio p < 7
  let fl := if low then min (s.fld (R.PLC_SHEDLV lv) F.PLC_SHEDLV_KEEP) (s.pmax p) else s.floorOf p
  let v := bestLeg s p r ((s.candidates p).filter fun l => legFits s fd p l fl 1000 r)
  let e0 : Ent := { Ent.init with dwell := min (prev.dwell + 1) 255, pend := pend }
  let vol := !manv && decide (0 < r.vmoves) && !low && !pend && decide (s.fld R.PLC_CFG F.PLC_CFG_DWELL ≤ prev.dwell)
  -- entry so far, best leg, floor, voluntary moves left
  let q : Ent × Leg × Nat × Nat :=
    if !s.live p then (e0, .none, 0, r.vmoves)
    else
      let e := { e0 with shed := low }
      if cur != .none && legFits s fd p cur fl 1500 r then
        if v != .none && decide (s.legCost p v < s.legCost p cur) && vol then (e, v, fl, r.vmoves - 1)
        else (e, cur, fl, r.vmoves)
      else if v != .none then ({ e with forced := true }, v, fl, r.vmoves)
      else if s.ownPrio p = 7 then
        let best := bestLeg s p r ((s.candidates p).filter fun l => (s.legFeeds p l).all fun f => (fd f).health.avail)
        ({ e with isOver := true }, if best = .none then cur else best, fl, r.vmoves)
      else if powered then ({ e with shed := true }, cur, 0, r.vmoves)
      else (e, .none, fl, r.vmoves)
  let moved := q.2.1 != prev.leg
  let e1 := { q.1 with leg := q.2.1, moved := moved, dwell := if moved then 0 else q.1.dwell }
  p7Over s p (setCeil s p q.2.2.1 { r with ent := tabSet Ent.init r.ent p e1, vmoves := q.2.2.2 })

/-- `raise` of R233. -/
def raiseCeil (s : State) (t p : Nat) (r : Rnd) : Rnd :=
  let e := r.entOf p
  if e.leg = .none ∨ t ≤ e.ceil then r
  else
    let fr := if e.leg = .ab then legRoom s p .ab r + (e.ceil % 2 : Nat) else legRoom s p e.leg r
    let room := (s.groupChain p).foldl (fun m g => min m (r.groomOf g)) fr
    if 0 < room then setCeil s p (min t (e.ceil + room.toNat)) r else r

/-- `target_b` of R233. -/
def targetB (s : State) (r : Rnd) (p : Nat) : Nat :=
  let e := r.entOf p
  if e.shed then 0
  else if s.flag R.PLC_INPUTS F.PLC_INPUTS_MANV then min (s.pmax p) (max e.ceil (s.prevCeil p))
  else min (s.pmax p) (max e.ceil (max (s.reqPower p) (s.prevCeil p)))

/-- `target_c` of R233. -/
def targetC (s : State) (r : Rnd) (p : Nat) : Nat := if (r.entOf p).shed then 0 else s.pmax p

/-- A port in hold keeps its entry; its last current and its ceiling stay charged (R15). -/
def chargeHold (s : State) (r : Rnd) (p : Nat) : Rnd :=
  let e := { Ent.ofWord (s.prevEnt p) with hold := true, moved := false }
  let iLast := s.fld (R.PRT_MCURR p) F.PRT_MCURR_IOUT
  let room := (s.legFeeds p e.leg).foldl (fun t f =>
    tabSet 0 t f (tabGet 0 t f - (shareOf e.leg (ceilDiv (iLast * s.fld (R.FDR_CFG f) F.FDR_CFG_VNOM) 1000) : Int))) r.room
  let groom := (s.groupChain p).foldl (fun t g => tabSet 0 t g (tabGet 0 t g - (e.ceil : Int))) r.groom
  { r with room := room, groom := groom, ent := tabSet Ent.init r.ent p e }

/-- The rooms and budgets at the start of a round. -/
def Rnd.start (s : State) (fd : Nat → FdrOut) : Rnd :=
  let room := (List.range 8).foldl (fun t f => tabSet (0 : Int) t f ((fd f).usable : Int)) []
  let total : Int := (List.range 8).foldl (fun a f => a + ((fd f).usable : Int)) 0
  let groom := (List.range 256).foldl (fun t g =>
    tabSet (0 : Int) t g (if g = 0 then total else (s.fld (R.PLC_GRP g) F.PLC_GRP_BUDGET : Int) * 10)) []
  { room := room, groom := groom, ent := [], vmoves := s.fld R.PLC_CFG F.PLC_CFG_VMOVES }

/-- One rake round (R233). -/
def rakeRound (s : State) (lv : Nat) (fd : Nat → FdrOut) : Rnd :=
  let r0 := ((List.range 512).filter fun p => s.rakeHold p).foldl (chargeHold s) (Rnd.start s fd)
  let order := s.serviceOrder
  let r1 := order.foldl (passA s lv fd) r0
  let r2 := order.foldl (fun r p => raiseCeil s (targetB s r p) p r) r1
  if s.flag R.PLC_INPUTS F.PLC_INPUTS_MANV then r2
  else order.foldl (fun r p =>
    if (r.entOf p).ceil + s.fld R.PLC_CFG F.PLC_CFG_RAISE_MIN ≤ targetC s r p then raiseCeil s (targetC s r p) p r
    else r) r2

/-! ### The end of a round (R24, R26, R44, R234-R236, R241) -/

/-- `IMEAN` as its unsigned field shows it; what it shows for a negative mean the spec does not say. -/
def imeanWord (i : Int) : Word := if 0 ≤ i then BitVec.ofNat 32 i.toNat else Config.negativeMean i.natAbs

/-- A feeder row in the form of Table 08-12. -/
def FdrOut.row (o : FdrOut) (m : FdrMon) (charged : Int) : FdrRow :=
  { stat := BitVec.ofNat 32 (o.health.code * 2 ^ 29 + m.offcmd.toNat * 2 ^ 28 + o.blkapp.toNat * 2 ^ 27 +
      o.reslow.toNat * 2 ^ 26 + o.isOver.toNat * 2 ^ 25 + m.downSeen.toNat * 2 ^ 24 + o.rcnt % 256 * 2 ^ 16 + o.kcor % 1024),
    vmeas := BitVec.ofNat 32 (min 65535 o.vmeas), imean := imeanWord o.imean,
    usable := BitVec.ofNat 32 o.usable, commit := BitVec.ofNat 32 charged.toNat }

/-- The bank a round writes. -/
def Rnd.bank (s : State) (fd : Nat → FdrOut) (r : Rnd) : Bank :=
  let start := Rnd.start s fd
  { ent := (List.range 512).foldl (fun t p => tabSet 0 t p (r.entOf p).word) [],
    fdr := (List.range 8).foldl (fun t f =>
      tabSet FdrRow.init t f ((fd f).row (s.monOf f) (start.roomOf f - r.roomOf f))) [],
    gused := (List.range 256).foldl (fun t g => tabSet 0 t g (start.groomOf g - r.groomOf g).toNat) [] }

def setBank (b : Bool) (v : Bank) (s : State) : State := if b then { s with bankB := v } else { s with bankA := v }

def raisePlc (f : Fld) (s : State) : State := raise R.PLC_EVT R.PLC_EVTEN f s

def raiseFdr (f : Nat) (b : Fld) (s : State) : State := raise (R.FDR_EVT f) (R.FDR_EVTEN f) b s

/-- The events and the record of a feeder at an agreed round (Tables 08-2, 08-13, class 0x09). -/
def fdrEvents (s0 : State) (fd : Nat → FdrOut) (f : Nat) (s : State) : State :=
  let o := fd f
  let prev := s0.prevRow f
  let old := F.FDR_STAT_HEALTH.get prev.stat
  let s1 := match o.ev with
    | .none => s
    | .offl => raiseFdr f F.FDR_EVT_OFFL s
    | .down => raiseFdr f F.FDR_EVT_DOWN s
    | .sag => raiseFdr f F.FDR_EVT_SAG s
    | .up => raiseFdr f F.FDR_EVT_UP s
  let s2 := if o.isOver then raiseFdr f F.FDR_EVT_OVER s1 else s1
  let s3 := if o.reslow && F.FDR_STAT_RESLOW.get prev.stat = 0 then raiseFdr f F.FDR_EVT_RESLOW s2 else s2
  if old = o.health.code then s3
  else post .control 0x09 f (BitVec.ofNat 32 o.vmeas) (old * 256 + o.health.code) s3

/-- Priority 7 over-commits of an agreed round (R234, class 0x0C). -/
def p7Event (r : Rnd) (p : Nat) (s : State) : State :=
  if (r.entOf p).isOver && !(r.entOf p).hold then
    post .control 0x0C p (BitVec.ofNat 32 (r.entOf p).ceil) 0 (raisePlc F.PLC_EVT_P7OVER s)
  else s

/-- VCONN load of a port die (R241), W. -/
def State.vconnLoad (s : State) (d : Nat) : Nat :=
  ((List.range 64).filter fun i =>
    s.rakePowered (64 * d + i) && (s.mirOf (64 * d + i)).raSeen &&
    s.flag (R.PRT_CCCFG (64 * d + i)) F.PRT_CCCFG_VCONN_EN).length

/-- The VCONN loads of a round. -/
def vconnRound (s : State) : State :=
  forEach (List.range 8) (fun d t =>
    let n := s.vconnLoad d
    let load := if d < 4 then R.PLC_VCLOAD0 else R.PLC_VCLOAD1
    let lim := if d < 4 then R.PLC_VCLIM0 else R.PLC_VCLIM1
    let f : Fld := ⟨8 * (d % 4), 8⟩
    let t1 := setFld load f n t
    if t1.fld lim f < n then raisePlc F.PLC_EVT_VCOVER t1 else t1) s

/-- A round that does not commit: `code` is `PLC_STAT.LAST`. From the third in a row a placement fault is reported
(R236). -/
def noCommit (code : Nat) (cnt ev : Fld) (s : State) : State :=
  let round := s.reg R.PLC_ROUND
  let s1 := incFld R.PLC_STAT F.PLC_STAT_MMRUN (setFld R.PLC_STAT F.PLC_STAT_LAST code s)
  let s2 := post .control 0x0B 0 round code (raisePlc ev (incFld R.PLC_CNT cnt s1))
  let run := s2.fld R.PLC_STAT F.PLC_STAT_MMRUN
  if 3 ≤ run then post .control 0x0D 0 round run (raiseSum F.FLT_SUM_PLACE s2) else s2

/-- The current accumulators start over at a round's t0. -/
def clearMeans (s : State) : State :=
  forEach (List.range 8) (fun f => updMon f fun m => { m with iSum := 0, iCnt := 0 }) s

/-- An agreed round: the new bank becomes active and the round number rises (R24, R235). -/
def commitRound (s : State) : State :=
  let lv := s.shedLevel
  let outs := (List.range 8).map fun f => s.fdrOut f lv
  let fd : Nat → FdrOut := fun f => outs.getD f (s.fdrOut 8 lv)
  let r := rakeRound s lv fd
  let s1 := wordsWritten 0x50 (0x1000 * (!s.active).toNat) 0x1000
    (setBank (!s.active) (r.bank s fd) { s with active := !s.active, switchUs := s.tb.usec })
  let fm := ((List.range 512).filter fun p => (r.entOf p).forced && (r.entOf p).moved).length
  let vm := s.fld R.PLC_CFG F.PLC_CFG_VMOVES - r.vmoves
  let s2 := setReg R.PLC_ROUND (s.reg R.PLC_ROUND + 1)
    (setReg R.PLC_STAT (BitVec.ofNat 32 (2 ^ 30 + min 255 fm * 256 + vm)) s1)
  let s3 := forEach (List.range 8) (fun f => updMon f fun m => { m with downSeen := m.downNow }) s2
  forEach (List.range 512) (p7Event r) (forEach (List.range 8) (fdrEvents s fd) s3)

/-- A poisoned word of the image tables makes a round that reads it late (Table 12-2). -/
def State.imageBad (s : State) : Bool :=
  s.ecc.any fun e => e.2.poison && memKey 0x51 0 ≤ e.1 && e.1 < memKey 0x52 0

/-- What a round reads: the port state tables, the active bank of the placement table and the image tables (R24, Table 12-2). -/
def roundReads (s : State) : State :=
  seenRange 0x51 0 0x2000 (seenRange 0x50 (0x1000 * s.active.toNat) 0x1000
    (forEach ([0x30, 0x31, 0x32, 0x33] : List Nat) (fun id => seenRange id 0 0x2000) s))

/-- A round starts and ends as `e` says. -/
def runRound (e : RoundEnd) (s : State) : State :=
  let s0 := vconnRound (roundReads s)
  let s1 := match (if s0.imageBad then .late else e) with
    | .agree => { (commitRound s0) with roundOpen := false }
    | .differ => noCommit 2 F.PLC_CNT_MISMATCH F.PLC_EVT_MISMATCH { s0 with roundOpen := false }
    | .late => { s0 with roundOpen := true }
  clearMeans s1

/-- A change between angle timing and USEC timing keeps the starts of rounds at least 6.0 ms apart (R60). -/
def State.roundDue (s : State) : Bool :=
  match s.tb.lastRound with
  | none => true
  | some u => (s.tb.st = .island) = s.tb.lastIsl || 6000 ≤ s.since u

/-- A round's start falls at this instant and has not been taken: outside ISLAND at output angles 0 and 32,768, in ISLAND at a
multiple of 10,000 µs of USEC (R60). -/
def State.roundPoint (s : State) : Bool :=
  if s.tb.st = .island then s.tb.usec.toNat % 10000 = 0 && !(s.tb.lastIsl && s.tb.lastRound = some s.tb.usec)
  else (s.tb.angle = 0 || s.tb.angle = 32768) && !(!s.tb.lastIsl && s.tb.lastAu = some (s.auPos s.tb.angle))

def execRakeRound (e : RoundEnd) (s : State) : Host.Outcome State Fault Refusal :=
  .next (if s.tclk && s.released && s.roundDue && s.roundPoint then
      runRound e (setTb (fun t => { t with
        lastRound := some t.usec, lastIsl := t.st = .island, lastAu := some (s.auPos t.angle) }) s)
    else s)

/-- The deadline of the open round has come: 8,192 au after its start, or 2.5 ms in ISLAND timing (R44, R60, Table 01-7). -/
def State.roundLate (s : State) : Bool :=
  if s.tb.lastIsl then (s.tb.lastRound.map fun u => decide (2500 ≤ s.since u)).getD true
  else (s.tb.lastAu.map fun a => decide (a + 8192 ≤ s.auPos s.tb.angle)).getD true

/-- The deadline of R44. -/
def execRoundDeadline (s : State) : Host.Outcome State Fault Refusal :=
  .next (if s.tclk && s.roundOpen && s.roundLate then noCommit 3 F.PLC_CNT_LATE F.PLC_EVT_LATE { s with roundOpen := false } else s)

/-! ### The commit in a channel (R25, R196, R237, R243) -/

/-- What a commit does to port index `k`: an unreleased transfer to another leg is aborted, a new ceiling is dated, as is
every ceiling at the first commit after a channel reset (R198), a transfer queued, a deadline started or stopped. -/
def commitPort (old : Bank) (c k : Nat) (s : State) : State :=
  let p := 128 * c + k
  let before := tabGet 0 old.ent p
  let now := s.chEnt p
  let s1 := if F.PLC_ENT_LEG.get before = F.PLC_ENT_LEG.get now then s
    else forEach (s.opsOf c k fun o => o.kind = .transfer && o.st = .queued) (fun i => finishOp c i .aborted) s
  let s2 := updHub p (fun h => { h with
    xferQueued := false,
    redate := false
    commitUs := if F.PLC_ENT_CEIL.get before = F.PLC_ENT_CEIL.get now && !h.redate then h.commitUs else s.tb.usec }) s1
  let s3 := queueXfer c k s2
  if (s3.mirOf p).powered then checkDeadline p (s3.chCeil p) (s3.hubOf p).commitUs s3 else s3

/-- Channel `c` acknowledges the commit; `EVT.COMMIT` is latched (Table 10-8). -/
def placementCommit (c : Nat) (s : State) : State :=
  let old := s.bankOf (s.chanOf c).bank
  let s1 := updCrs c (fun x => { x with commit := true }) (updChan c (fun x => { x with bank := s.active }) (xover (.commit c) s))
  serveMarks c (forEach (List.range 128) (commitPort old c) s1)

def execPlacementCommit (c : Fin 4) (s : State) : Host.Outcome State Fault Refusal :=
  .next (if s.tclk && s.chanUp c then placementCommit c s else s)

/-! ### Ship signals and commands (R219, R220, R224, R225, R245) -/

/-- The effective shed level as it now stands; a change is an event and a record (class 0x0A). -/
def setLevel (s : State) : State :=
  let lv := s.shedLevel
  if lv = s.fld R.PLC_INPUTS F.PLC_INPUTS_LEVEL then s
  else post .control 0x0A 0 0 lv (raisePlc F.PLC_EVT_LEVEL (setFld R.PLC_INPUTS F.PLC_INPUTS_LEVEL lv s))

def execShipSignalFiltered (sig : ShipSig) (s : State) : Host.Outcome State Fault Refusal :=
  .next (if s.tclk then
      setLevel (match sig with
        | .shed code => setFld R.PLC_INPUTS F.PLC_INPUTS_PINLV code s
        | .emerg low => setFlag R.PLC_INPUTS F.PLC_INPUTS_EMERG low s
        | .manv low => setFlag R.PLC_INPUTS F.PLC_INPUTS_MANV low s)
    else s)

/-- The filtered `BLACKOUT_N` reaches the rake and the timebase, at measured angle `angle` (R224, R53). -/
def execBlackoutFiltered (low : Bool) (angle : BitVec 16) (s : State) : Host.Outcome State Fault Refusal :=
  .next (if s.tclk then angBlackout low angle (setFlag R.PLC_INPUTS F.PLC_INPUTS_BLK low s) else s)

/-- The feeder event of feeder `f` is raised (R220): counters that capture from it are presented it. -/
def feederEvent (f : Nat) (s : State) : State := present noSrc (fun t n => t.capFeeder n f) s

/-- A DOWN condition qualifies (R219), with the feeder event where it was not qualified before (R220). -/
def feederDown (f : Nat) (s : State) : State :=
  updMon f (fun m => { m with downSeen := true, downNow := true }) (if (s.monOf f).downNow then s else feederEvent f s)

/-- A sample inside the window; the first one after a DOWN condition raises the feeder event (R220). -/
def feederBack (f : Nat) (s : State) : State :=
  updMon f (fun m => { m with downNow := false, outCnt := 0 }) (if (s.monOf f).downNow then feederEvent f s else s)

/-- A voltage sample of a feeder is outside its window. -/
def State.outside (s : State) (f v : Nat) : Bool :=
  v < 100 * s.act (R.FDR_VWIN f) F.FDR_VWIN_VDOWN || 100 * s.act (R.FDR_VWIN f) F.FDR_VWIN_VOVER < v

/-- The 11th sample in a row outside the window has come (R255). -/
def execFeederDownQualify (f : Fin 8) (s : State) : Host.Outcome State Fault Refusal :=
  .next (if s.tclk && s.acts (R.FDR_CFG f) F.FDR_CFG_PRES && decide (11 ≤ (s.monOf f).outCnt) then feederDown f s else s)

/-- The last sample is inside the window (R220). -/
def execFeederWindowReturn (f : Fin 8) (s : State) : Host.Outcome State Fault Refusal :=
  .next (if s.tclk && s.acts (R.FDR_CFG f) F.FDR_CFG_PRES && !s.outside f (s.monOf f).v then feederBack f s else s)

def execFdrOnline (f : Fin 8) (s : State) : Host.Outcome State Fault Refusal :=
  .next (access .host (R.FDR_CMD f) (updMon f fun m => { m with offcmd := false }) s)

def execFdrOffline (f : Fin 8) (s : State) : Host.Outcome State Fault Refusal :=
  .next (access .host (R.FDR_CMD f) (updMon f fun m => { m with offcmd := true }) s)

end Sys2Proof.Machine
end

