-- ==== Sys2Proof/Machine/Measure.lean ====
section
/-! DEFINITION. Measurement and harvest (chapter 09): conversions and their correction, the port scan, trip snapshots, the
hub frame, on-demand conversions, calibration, energy. -/
namespace Sys2Proof.Machine

/-! ### Inputs and correction (R246, R247, R260, Table 09-1) -/

/-- Width and signedness of an input of unit `u`; none for an input of a hub unit that never yields a result. -/
def unitForm (u code : Nat) : Option (Nat × Bool) :=
  if u < 32 then some (12, 16 ≤ code && code < 32)
  else if u = 32 then
    if code = 0 || code = 5 then some (14, true) else if code < 10 then some (14, false) else none
  else if code = 5 then some (14, false) else if code < 10 then some (14, true) else none

/-- A raw code as its input's form has it. -/
def rawCode (form : Nat × Bool) (raw : Nat) : Int :=
  let r := raw % 2 ^ form.1
  if form.2 then signed form.1 r else (r : Int)

/-- Saturation at the full scale of an input. -/
def fullScale (form : Nat × Bool) (v : Int) : Int :=
  let lo : Int := if form.2 then -(2 ^ (form.1 - 1)) else 0
  let hi : Int := if form.2 then 2 ^ (form.1 - 1) - 1 else 2 ^ form.1 - 1
  max lo (min hi v)

/-- R260: ((raw − OFFSET) × GAIN) / 32,768, rounded toward zero. -/
def correct (cal : Word) (form : Nat × Bool) (raw : Nat) : Int :=
  fullScale form (Int.tdiv ((rawCode form raw - signed 16 (F.ADC_CAL_OFFSET.get cal)) * F.ADC_CAL_GAIN.get cal) 32768)

/-- The corrected code of input `code` of unit `u`. -/
def State.converted (s : State) (u code raw : Nat) : Option Int :=
  (unitForm u code).map fun form => correct (s.dreg (R.ADC_CAL u)) form raw

/-- The current of a port in mA (Table 09-2). -/
def State.portMa (s : State) (p : Nat) (code : Int) : Int :=
  Int.tdiv (code * 62500) (s.fld (R.PRT_SENSE p) F.PRT_SENSE_RSNS)

def State.calBusy (s : State) (u : Nat) : Bool := s.dfld (R.ADC_STAT u) F.ADC_STAT_CALBUSY = 1

/-! ### The port scan (R248, R249, R251) -/

/-- A scan conversion of slot 0–32 of unit `u`; a current conversion sends the port's frame (R251). -/
def scanConversion (u slot raw : Nat) (s : State) : State :=
  let p := 16 * u + slot / 2
  if slot = 32 then
    match s.converted u 0x20 raw with
    | some c => updDie (u / 4) (fun d => { d with temp := c - 2730 }) s
    | none => s
  else if slot % 2 = 0 then
    match s.converted u (slot / 2) raw with
    | some c => updScan p (fun x => { x with v := c.toNat * 16, vsat := c = 4095 }) s
    | none => s
  else
    match s.converted u (16 + slot / 2) raw with
    | some c => updScan p (fun x => { x with
        i := s.portMa p c, isat := c = 2047 || c = -2048, due := s.portUp p && !(s.dieOf (p / 64)).hold }) s
    | none => s

/-- The pending on-demand conversion of unit `u` is due: its delay of `DELAY` × 100 ns is over (R257). -/
def State.odDue (s : State) (u : Nat) : Bool :=
  match (s.adcOf u).pend with
  | some cfg => 1000 * (s.adcOf u).pendAt + (if u < 32 then 99 else 100) * F.ADC_ODCFG_DELAY.get cfg ≤ 1000 * s.clock
  | none => false

/-- The next slot boundary of unit `u` is left for a scan conversion: no urgent pair waits, and no on-demand conversion (R250). -/
def State.slotFree (s : State) (u : Nat) : Bool := (s.adcOf u).urgent = [] && !s.odDue u

/-- The slot's conversion comes next in the frame (R249, R254). -/
def State.slotNext (s : State) (u slot : Nat) : Bool := ((s.adcOf u).next.map fun n => decide (n = slot)).getD true

/-- The frame of unit `u`, of `n` conversions, has passed slot `slot`. -/
def passSlot (u slot n : Nat) (s : State) : State := updAdc u (fun a => { a with next := some ((slot + 1) % n) }) s

def execScanConversion (u : Fin 32) (slot : Fin 33) (raw : BitVec 12) (s : State) : Host.Outcome State Fault Refusal :=
  .next (if !(s.dieOf (u / 4)).inReset && (s.adcOf u).scanOn && !s.calBusy u && s.slotFree u && s.slotNext u slot then
      passSlot u slot 33 (scanConversion u slot raw.toNat s)
    else s)

/-! ### Harvest of a port (R263, R264) -/

/-- One fine unit of 1 mWh, in pJ. -/
def pjPerMwh : Nat := 3600000000000

/-- Harvest adds a scan of `v` mV and `i` mA. -/
def harvestScan (p v i : Nat) (s : State) : State :=
  match (s.harvOf p).last with
  | none => updHarv p (fun h => { h with last := some s.tb.usec }) s
  | some t =>
    let dt := s.since t
    let s1 := updHarv p (fun h => { h with fine := h.fine + v * i * min dt 5000, last := some s.tb.usec }) s
    if 5000 < dt then
      setFld (R.PRT_MTEMP p) F.PRT_MTEMP_GAPS (s1.fld (R.PRT_MTEMP p) F.PRT_MTEMP_GAPS + 1) s1
    else s1

/-- The measurement group of port `p`, stamped with USEC at the frame's arrival; the port has fresh measurements (R15). -/
def measurementFrame (p : Nat) (s : State) : State :=
  let x := s.scanOf p
  let v := min 65535 x.v
  let i := min 65535 (max 0 x.i).toNat
  let s1 := setReg (R.PRT_MVOLT p) (BitVec.ofNat 32 (min 65535 (v * i / 100000) * 65536 + v)) s
  let s2 := setReg (R.PRT_MCURR p)
    (BitVec.ofNat 32 ((x.vsat || x.isat).toNat * 2 ^ 17 + (decide (x.i < 0)).toNat * 2 ^ 16 + i)) s1
  let s3 := setFld (R.PRT_MTEMP p) F.PRT_MTEMP_TEMP ((s2.dieOf (p / 64)).temp % 65536).toNat s2
  let s4 := wordsWritten (0x30 + p / 128) (64 * (p % 128)) 16 (setReg (R.PRT_MUSEC p) (s3.tb.usec.truncate 32) s3)
  let s5 := updHub p (fun h => { h with stale := false }) (updScan p (fun y => { y with due := false }) s4)
  if s5.tclk then harvestScan p v i s5 else s5

def execMeasurementFrameRx (p : Fin 512) (s : State) : Host.Outcome State Fault Refusal :=
  .next (if s.portUp p && !(s.dieOf (p / 64)).hold && (s.scanOf p).due then measurementFrame p s else s)

/-! ### Trip snapshots (R252, R253, R127) -/

/-- The urgent pair of port `p`: the snapshot, and the trip's record once the hub has it. A calibration that the request suspended starts
again (R261). -/
def urgentConversion (p i v : Nat) (abrt : Bool) (s : State) : State :=
  let u := p / 16
  let vs := match s.converted u (p % 16) v with
    | some c => c.toNat * 16
    | none => 0
  let ma := match s.converted u (16 + p % 16) i with
    | some c => min 65535 (max 0 (s.portMa p c)).toNat
    | none => 0
  let w := BitVec.ofNat 32 (vs * 65536 + ma)
  let up := s.portUp p
  let s1 := updAdc u (fun a => { a with urgent := a.urgent.drop 1, calAt := s.clock })
    (updPort p (fun x => { x with snap := w, snapDue := !up }) s)
  let s2 := if abrt && (s1.adcOf u).pend.isSome then setUnitFld u (R.ADC_STAT u) F.ADC_STAT_ABRT 1 s1 else s1
  if s2.portUp p then
    let x := s2.mirOf p
    post .control 0x01 p w (x.tripCnt * 16 + x.cause.code) (setReg (R.PRT_TRIPSNAP p) w s2)
  else s2

def execUrgentConversion (p : Fin 512) (i v : BitVec 12) (abrt : Bool) (s : State) : Host.Outcome State Fault Refusal :=
  .next (if (s.adcOf (p / 16)).urgent.head? = some p.val then urgentConversion p i.toNat v.toNat abrt s else s)

/-! ### The hub frame (R254, R255, R265) -/

/-- The feeder that slot `slot` of the hub frame converts. -/
def slotFeeder (slot : Nat) : Option Nat :=
  if 1 ≤ slot && slot ≤ 4 then some (slot - 1) else if 6 ≤ slot then some (slot - 2) else none

/-- The feeder monitor takes a voltage sample: a DOWN condition qualifies at the 11th sample in a row outside. -/
def monitorSample (f v : Nat) (s : State) : State :=
  let s1 := updMon f (fun m => { m with v := v }) s
  if !s.acts (R.FDR_CFG f) F.FDR_CFG_PRES then s1
  else if s.outside f v then
    let s2 := updMon f (fun m => { m with outCnt := min 11 (m.outCnt + 1) }) s1
    if 11 ≤ (s2.monOf f).outCnt then feederDown f s2 else s2
  else feederBack f s1

/-- Harvest adds the product of a slot: `v` mV by `i` (10 mA) over 10 µs. -/
def harvestFeeder (f v : Nat) (i : Int) (s : State) : State :=
  let e := v * i.natAbs * 100
  updFharv f (fun h => { h with
    fineOut := if 0 < i then h.fineOut + e else h.fineOut
    fineIn := if i < 0 then h.fineIn + e else h.fineIn
    sum := h.sum + v * i, cnt := h.cnt + 1 }) s

/-- One slot of the hub frame; the mains inputs go to the tracking loop, whose results the timebase rows carry. -/
def hubSlot (slot h0 h1 : Nat) (s : State) : State :=
  match slotFeeder slot, s.converted 32 slot h0, s.converted 33 slot h1 with
  | some f, some cv, some ci =>
    let v := cv.toNat * s.act (R.ADC_FVSCL f) F.ADC_FVSCL_VFS / 16384
    let i := Int.tdiv (ci * s.act (R.ADC_FISCL f) F.ADC_FISCL_IFS) 8192
    let s1 := monitorSample f v s
    harvestFeeder f v i (updMon f (fun m => { m with iSum := m.iSum + i, iCnt := m.iCnt + 1 }) s1)
  | _, _, _ => s

/-! ### Commands of a unit (R257, R258, R261, R268, R269) -/

/-- The writer reaches unit `u`: the host any, a course those of its channel. -/
def Who.ownsUnit (w : Who) (u : Nat) : Bool :=
  match w with
  | .host => true
  | .course c => u / 8 = c.val

/-- The unit takes commands: a hub unit while TCLK runs, a port-die unit over its link. -/
def State.unitUp (s : State) (u : Nat) : Bool := if 32 ≤ u then s.tclk else s.linkUp (u / 4)

/-- A trigger arrives at unit `u`. -/
def trigger (u : Nat) (s : State) : State :=
  if s.dfld (R.ADC_STAT u) F.ADC_STAT_ARMED = 0 then s
  else if (s.adcOf u).pend.isSome || s.calBusy u then setUnitFld u (R.ADC_STAT u) F.ADC_STAT_TRGOVR 1 s
  else
    setUnitFld u (R.ADC_STAT u) F.ADC_STAT_PEND 1
      (updAdc u (fun a => { a with pend := some (s.dreg (R.ADC_ODCFG u)), pendAt := s.clock }) s)

/-- A calibration begins. -/
def startCal (u : Nat) (s : State) : State :=
  setUnitFld u (R.ADC_STAT u) F.ADC_STAT_CALBUSY 1 (updAdc u (fun a => { a with calWait := false, calAt := s.clock }) s)

/-- `CAL`: refused on a hub unit; a pending on-demand conversion is awaited. -/
def calibrate (u : Nat) (s : State) : State :=
  if 32 ≤ u then setUnitFld u (R.ADC_STAT u) F.ADC_STAT_CALFAIL 1 s
  else if (s.adcOf u).pend.isSome then updAdc u (fun a => { a with calWait := true }) s
  else startCal u s

/-- The path is armed or disarmed; no event before waits for it. -/
def armUnit (u : Nat) (on : Bool) (s : State) : State :=
  setUnitFld u (R.ADC_STAT u) F.ADC_STAT_ARMED on.toNat (updAdc u (fun a => { a with trg := false }) s)

/-- A write of `ADC_CMD_u`: `ARM` and `DISARM` together do nothing, and `DISARM` acts before a trigger. -/
def adcCmd (u : Nat) (cal trig disarm arm : Bool) (s : State) : State :=
  if s.unitUp u then
    let s1 := if arm = disarm then s else armUnit u arm s
    let s2 := if trig then trigger u s1 else s1
    if cal then calibrate u s2 else s2
  else s

def execAdcArm (who : Who) (u : Fin 34) (s : State) : Host.Outcome State Fault Refusal :=
  .next (if Who.ownsUnit who u then access who (R.ADC_CMD u) (adcCmd u false false false true) s else s)

def execAdcDisarm (who : Who) (u : Fin 34) (s : State) : Host.Outcome State Fault Refusal :=
  .next (if Who.ownsUnit who u then access who (R.ADC_CMD u) (adcCmd u false false true false) s else s)

def execAdcSwtrig (who : Who) (u : Fin 34) (s : State) : Host.Outcome State Fault Refusal :=
  .next (if Who.ownsUnit who u then access who (R.ADC_CMD u) (adcCmd u false true false false) s else s)

def execAdcCal (who : Who) (u : Fin 34) (s : State) : Host.Outcome State Fault Refusal :=
  .next (if Who.ownsUnit who u then access who (R.ADC_CMD u) (adcCmd u true false false false) s else s)

/-- The trigger source of unit `u` is this event (R259). -/
def State.trigIs (s : State) (u : Nat) : TrigSrc → Bool
  | .zero n => s.trigOn u 1 n
  | .hit n => s.trigOn u 2 n
  | .angle a => s.trigOn u 3 0 && F.ADC_ODTRG_TANG.get (s.dreg (R.ADC_ODTRG u)) = a.toNat
  | .slot => s.trigOn u 4 0
  | .wrap => s.trigOn u 5 0

/-- The event has occurred and not been taken: presented by its own row, or the output angle can stand at `TANG` now. -/
def State.trigComes (s : State) (u : Nat) : TrigSrc → Bool
  | .angle a => s.reaches a && decide ((s.adcOf u).trgAt ≠ some (s.auPos a))
  | _ => (s.adcOf u).trg

/-- The event is taken (R259). -/
def takeTrig (u : Nat) (src : TrigSrc) (s : State) : State :=
  match src with
  | .angle a => updAdc u (fun x => { x with trgAt := some (s.auPos a) }) (advanceTo a s)
  | _ => updAdc u (fun x => { x with trg := false }) s

def execAdcTrigger (u : Fin 34) (src : TrigSrc) (s : State) : Host.Outcome State Fault Refusal :=
  .next (if s.tclk && s.unitUp u && s.trigIs u src && s.trigComes u src then trigger u (takeTrig u src s) else s)

/-- `DATA` as R262 places it. -/
def alignCode (left : Bool) (form : Nat × Bool) (c : Int) : Nat :=
  ((if left then c * 2 ^ (16 - form.1) else c) % 65536).toNat

/-- A result lands in `ADC_DATA_u` (R257, R258). -/
def landResult (u : Nat) (cfg : Word) (form : Nat × Bool) (c : Int) (s : State) : State :=
  let s1 := if s.dfld (R.ADC_DATA u) F.ADC_DATA_NEW = 1 then setUnitFld u (R.ADC_STAT u) F.ADC_STAT_OVR 1 s else s
  let s2 := setUnit u (R.ADC_DATA u) (BitVec.ofNat 32 (2 ^ 31 + F.ADC_ODCFG_INPUT.get cfg * 65536 +
    alignCode (F.ADC_ODCFG_ALIGN.get cfg = 1) form c)) s1
  let s3 := updAdc u (fun a => { a with pend := none }) (setUnitFld u (R.ADC_STAT u) F.ADC_STAT_PEND 0 s2)
  let s4 := if F.ADC_ODCFG_REPEAT.get cfg = 0 then armUnit u false s3 else s3
  if (s4.adcOf u).calWait then startCal u s4 else s4

/-- The on-demand conversion of unit `u`. -/
def onDemand (u raw : Nat) (s : State) : State :=
  match (s.adcOf u).pend with
  | none => s
  | some cfg =>
    match unitForm u (F.ADC_ODCFG_INPUT.get cfg) with
    | none => s
    | some form => landResult u cfg form (correct (s.dreg (R.ADC_CAL u)) form raw) s

/-- The on-demand conversion of a port-die unit, after its delay and the urgent pairs (R250, R253). The path of a hub unit adds no
conversion of its own: its result lands with the frame's (R257). -/
def execOnDemandConversion (u : Fin 34) (raw : BitVec 14) (s : State) : Host.Outcome State Fault Refusal :=
  .next (if u.val < 32 && !(s.dieOf (u / 4)).inReset && (s.adcOf u).urgent = [] && s.odDue u then onDemand u raw.toNat s else s)

/-- A hub unit's pending path takes the frame conversion of its input, once its delay has ended (R257). -/
def hubDeliver (u slot raw : Nat) (s : State) : State :=
  match (s.adcOf u).pend with
  | some cfg => if F.ADC_ODCFG_INPUT.get cfg = slot && s.odDue u then onDemand u raw s else s
  | none => s

def hubConversion (slot h0 h1 : Nat) (s : State) : State :=
  passSlot 32 slot 10 (hubDeliver 33 slot h1 (hubDeliver 32 slot h0 (hubSlot slot h0 h1 s)))

def execHubConversion (slot : Fin 10) (h0 h1 : BitVec 14) (s : State) : Host.Outcome State Fault Refusal :=
  .next (if s.tclk && !s.calBusy 32 && !s.calBusy 33 && s.slotNext 32 slot then hubConversion slot h0.toNat h1.toNat s else s)

/-- The record of a calibration of unit `u` that failed with gain `gain` (class 0x1F). -/
def calRecord (u gain : Nat) (s : State) : State := post .control 0x1F u (BitVec.ofNat 32 gain) 0 s

/-- A calibration ends with a computed gain and offset; a failed one whose unit the hub does not hear is recorded at the return of the
link (R261). -/
def calibrationDone (u gain : Nat) (ofs : BitVec 16) (s : State) : State :=
  let first : Option Nat := if 32 ≤ u then some 0 else none
  let s1 := updAdc u (fun a => { a with scanOn := true, next := first }) (setUnitFld u (R.ADC_STAT u) F.ADC_STAT_CALBUSY 0 s)
  if 29491 ≤ gain && gain ≤ 36045 then
    setUnitFld u (R.ADC_STAT u) F.ADC_STAT_CALDONE 1
      (setUnit u (R.ADC_CAL u) (BitVec.ofNat 32 (gain * 65536 + ofs.toNat)) s1)
  else
    let s2 := setUnitFld u (R.ADC_STAT u) F.ADC_STAT_CALFAIL 1 s1
    if 32 ≤ u || s2.linkUp (u / 4) then calRecord u gain s2 else updAdc u (fun a => { a with calFail := some gain }) s2

/-- The calibration of unit `u` has run its time from its beginning, and no urgent pair waits (R261, Table 09-6). -/
def State.calEnds (s : State) (u : Nat) : Bool :=
  s.calBusy u && (s.adcOf u).urgent = [] && s.past (s.adcOf u).calAt (atLeast 2550)

def execCalibrationDone (u : Fin 34) (gain : BitVec 17) (ofs : BitVec 16) (s : State) :
    Host.Outcome State Fault Refusal :=
  .next (if s.calEnds u then calibrationDone u gain.toNat ofs s else s)

/-! ### The close of a cycle (R264–R266) -/

/-- Whole mWh leave port `p`'s fine accumulator, and its energy group is written. -/
def closePort (p : Nat) (s : State) : State :=
  let h := s.harvOf p
  let n := h.count + BitVec.ofNat 48 (h.fine / pjPerMwh)
  let hi := BitVec.ofNat 32 (s.tb.cyc.toNat % 65536 * 65536 + n.toNat / 2 ^ 32)
  wordsWritten (0x30 + p / 128) (64 * (p % 128) + 40) 16
    (setReg (R.PRT_ELO p) (BitVec.ofNat 32 n.toNat)
      (updHarv p (fun x => { x with fine := h.fine % pjPerMwh, count := n, hi := hi }) s))

/-- The counters and the mean power of feeder `f`. -/
def closeFeeder (f : Nat) (s : State) : State :=
  let h := s.fharvOf f
  let w : Int := if h.cnt = 0 then 0 else Int.tdiv h.sum (100000 * h.cnt)
  let out := h.out + BitVec.ofNat 48 (h.fineOut / pjPerMwh)
  let inn := h.inn + BitVec.ofNat 48 (h.fineIn / pjPerMwh)
  setReg (R.HRV_FPWR f) (BitVec.ofInt 32 w)
    (setReg (R.HRV_FOUT_LO f) (BitVec.ofNat 32 out.toNat) (setReg (R.HRV_FIN_LO f) (BitVec.ofNat 32 inn.toNat)
      (updFharv f (fun _ => { fineOut := h.fineOut % pjPerMwh, fineIn := h.fineIn % pjPerMwh, out := out, inn := inn,
                              sum := 0, cnt := 0 }) s)))

/-- Harvest closes the cycle that has just ended; `CYC` has already advanced. -/
def harvestClose (s : State) : State :=
  let s1 := forEach (List.range 8) closeFeeder (forEach (List.range 512) closePort s)
  let cyc := s1.tb.cyc - 1
  setReg R.HRV_CYC_LO (BitVec.ofNat 32 cyc.toNat)
    (setFld R.HRV_STAT F.HRV_STAT_CYC (cyc.toNat % 65536) { s1 with hrvCyc := cyc })

/-! ### Low-half reads (R266, R464) -/

/-- Reads `PRT_ELO` and latches `PRT_EHI`. -/
def readElo (p : Nat) (s : State) : Word × State := (s.reg (R.PRT_ELO p), setReg (R.PRT_EHI p) (s.harvOf p).hi s)

def readHrvCyc (s : State) : Word × State :=
  (s.reg R.HRV_CYC_LO, setReg R.HRV_CYC_HI (BitVec.ofNat 32 (s.hrvCyc.toNat / 2 ^ 32)) s)

/-- Reads `HRV_FOUT_f_LO` or `HRV_FIN_f_LO` and latches its own HI register. -/
def readFeederLo (f : Nat) (inn : Bool) (s : State) : Word × State :=
  let h := s.fharvOf f
  if inn then (s.reg (R.HRV_FIN_LO f), setReg (R.HRV_FIN_HI f) (BitVec.ofNat 32 (h.inn.toNat / 2 ^ 32)) s)
  else (s.reg (R.HRV_FOUT_LO f), setReg (R.HRV_FOUT_HI f) (BitVec.ofNat 32 (h.out.toNat / 2 ^ 32)) s)

end Sys2Proof.Machine
end

