-- ==== Sys2Proof/Machine/Cycle.lean ====
section
/-! DEFINITION. The output cycle (R61-R70): scheduler ticks with the step-budget ledger, phase-A slot starts, and wraps with
harvest and admission. -/
namespace Sys2Proof.Machine

/-! ### The ledger (R65-R67, R69) -/

/-- The feeders that an operation names. One that stands in both `FA` and `FB` is named once: the ledger's procedure runs over each
named feeder (R66). DESIGN CHOICE, log 131. -/
def OpEntry.feeders (o : OpEntry) : List Nat := (if o.fa = o.fb then [o.fa] else [o.fa, o.fb]).filter fun f => f < 8

/-- Budgets refresh at a phase-A slot start. -/
def refreshBudgets (s : State) : State :=
  setTb (fun t => { t with
    ibud := (List.range 8).foldl (fun m f => tabSet 0 m f (s.fld (R.ANG_SBUD f) F.ANG_SBUD_IBUD)) []
    ibudLeft := (List.range 8).foldl (fun m f => tabSet 0 m f (s.fld (R.ANG_SBUD f) F.ANG_SBUD_IBUD)) []
    opsLeft := (List.range 8).foldl (fun m f => tabSet 0 m f (s.fld (R.ANG_SBUD f) F.ANG_SBUD_OPS)) []
    fresh := (List.range 8).foldl (fun m f => tabSet false m f true) [] }) s

/-- The queued entries of channel `c` fall due at the tick at angle 256 × `k` (R64). -/
def markDue (k c : Nat) (s : State) : State :=
  forEach (List.range 64) (fun i t =>
    match t.opOf c i with
    | some o =>
      if o.st = .queued ∧ o.due = none ∧ (o.slot = 63 ∨ o.rel = 256 * k) then
        setOp c i (some { o with due := some t.tb.tick }) t
      else t
    | none => t) s

/-- The due tick of entry `i`. -/
def State.dueOf (s : State) (c i : Nat) : Option Nat :=
  match s.opOf c i with
  | some o => if o.st = .queued ∧ o.fin = false then o.due else none
  | none => none

/-- No operation queued earlier for the same port is unreleased. -/
def State.firstOfPort (s : State) (c i : Nat) : Bool :=
  match s.opOf c i with
  | some o => (s.opsOf c o.port fun e => e.st = .queued && e.order < o.order) = []
  | none => false

/-- Inserts entry `i` before the first entry of a later due tick. -/
def insertDue (s : State) (c i : Nat) : List Nat → List Nat
  | [] => [i]
  | j :: l => if (s.dueOf c i).getD 0 < (s.dueOf c j).getD 0 then i :: j :: l else j :: insertDue s c i l

/-- The eligible entries of channel `c`, by due tick, then by index (R65). -/
def State.eligible (s : State) (c : Nat) : List Nat :=
  let l := (List.range 64).filter fun i => (s.dueOf c i).isSome && s.firstOfPort c i
  l.foldl (fun a i => insertDue s c i a) []

def State.fits (s : State) (o : OpEntry) : Bool :=
  o.feeders.all fun f => o.w ≤ tabGet 0 s.tb.ibudLeft f && 1 ≤ tabGet 0 s.tb.opsLeft f

/-- A step larger than the whole budget of a feeder it names. -/
def State.oversize (s : State) (o : OpEntry) : Bool := o.feeders.any fun f => tabGet 0 s.tb.ibud f < o.w

def State.allFresh (s : State) (o : OpEntry) : Bool :=
  o.feeders.all fun f => tabGet false s.tb.fresh f && 1 ≤ tabGet 0 s.tb.opsLeft f

/-- The named feeders are charged: the weight, or the whole budget of an oversize release. -/
def charge (all : Bool) (o : OpEntry) (s : State) : State :=
  forEach o.feeders (fun f t => setTb (fun b => { b with
    ibudLeft := tabSet 0 b.ibudLeft f (if all then 0 else tabGet 0 b.ibudLeft f - o.w)
    opsLeft := tabSet 0 b.opsLeft f (tabGet 0 b.opsLeft f - 1)
    fresh := tabSet false b.fresh f false }) t) s

/-- The voltages of the feeders that a transfer involves lie within 1,000 mV of each other (R239). -/
def State.closeFeeds (s : State) (p : Nat) (o : OpEntry) : Bool :=
  let l := s.legFeeds p o.fromLeg ++ s.legFeeds p o.leg
  l.all fun f => l.all fun g => (s.monOf f).v ≤ (s.monOf g).v + 1000

/-- Entry `i` is released: a transfer's sequence is decided (R239), a late or oversize release is counted (R67), and a last
step that meets the ceiling stops the deadline (R197). An oversize release counts on every feeder it names, also on one whose `IBUD`
the weight does not exceed: DESIGN CHOICE, log 130. -/
def release (c i : Nat) (o : OpEntry) (all : Bool) (s : State) : State :=
  let p := 128 * c + o.port
  let near := s.closeFeeds p o
  let s0 := if o.kind = .hrOff then xover (.hrTx p) s else s
  let s1 := setOp c i (some { o with st := .released, mbb := near, refuse := o.kind = .transfer && o.leg = .ab && !near }) s0
  let s2 := forEach o.feeders (fun f t =>
    let t1 := if o.due = some t.tb.tick then t else incFld (R.ANG_SBSTAT f) F.ANG_SBSTAT_LATE t
    if all then incFld (R.ANG_SBSTAT f) F.ANG_SBSTAT_OVERSIZE t1 else t1) s1
  if o.kind = .step && o.last && o.vtgt * o.icon ≤ s2.chCeil p * 100000 then stopDeadline p s2 else s2

/-- The ledger's decision on entry `i`. -/
def offer (c i : Nat) (s : State) : State :=
  match s.opOf c i with
  | some o =>
    if s.fits o then release c i o false (charge false o s)
    else if s.oversize o && s.allFresh o then release c i o true (charge true o s)
    else s
  | none => s

/-- Channel `c` offers its eligible operations. -/
def offerChannel (c : Nat) (s : State) : State := forEach (s.eligible c) (offer c) s

/-- The scheduler tick at angle 256 × `k` (R66); nothing is released in ACQUIRE (R55). -/
def schedulerTick (k : Nat) (s : State) : State :=
  let s1 := present (fun t n => t.clkIs n .sched) noSrc (advanceTo (BitVec.ofNat 16 (256 * k)) s)
  let s2 := if k % 8 = 0 then refreshBudgets s1 else s1
  let s3 := forEach (List.range 4) (markDue k) s2
  let first := k / 8 % 4
  let s4 := if s3.tb.st = .acquire then s3
    else forEach ([first, first + 1, first + 2, first + 3].map (· % 4)) offerChannel s3
  setTb (fun t => { t with tick := t.tick + 1, nextTick := k + 1 }) s4

/-- Tick `k` comes next: the ticks of a cycle come in order, each after the slot starts before it (R61). -/
def State.tickDue (s : State) (k : Nat) : Bool := s.tb.nextTick = k && 256 * k ≤ 2048 * s.tb.nextSlot

def execSchedulerTick (k : Fin 256) (s : State) : Host.Outcome State Fault Refusal :=
  .next (if s.tclk && s.tickDue k then schedulerTick k s else s)

/-! ### Slot starts (R61, R195, Table 10-8) -/

/-- What a phase-A slot start does in channel `c`: `EVT.SLOT`, and the capabilities tokens of R195. -/
def slotChannel (c : Nat) (s : State) : State :=
  if s.chanUp c then paceRefill c (updCrs c (fun x => { x with slot := true }) s) else s

def slotStart (k : Nat) (s : State) : State :=
  forEach (List.range 4) slotChannel
    (presentTrig 4 0 <| present (fun t n => t.clkIs n .slot) (fun t n => t.capIs n .slot)
      (setTb (fun t => { t with nextSlot := k + 1 }) (advanceTo (BitVec.ofNat 16 (2048 * k)) s)))

/-- Slot start `k` comes next: the slot starts of a cycle come in order, each after the ticks before it (R61). -/
def State.slotDue (s : State) (k : Nat) : Bool := s.tb.nextSlot = k && 8 * k ≤ s.tb.nextTick

def execSlotStart (k : Fin 32) (s : State) : Host.Outcome State Fault Refusal :=
  .next (if s.tclk && s.slotDue k then slotStart k s else s)

/-! ### Admission (R372) -/

/-- The admission feeder of a port. -/
def State.admFeeder (s : State) (p : Nat) : Nat :=
  if s.flag (R.PRT_CFG p) F.PRT_CFG_LEGA_EN then s.feedA p else s.feedB p

/-- An `ADMIN_DIS` for port `p` waits, as its command or as a write of `PRT_CMD_p`: in one cycle with admission it acts, and the port is
not admitted (Table 14-10). -/
def State.disWaits (s : State) (p : Nat) : Bool :=
  s.pending.any fun i => match i with
    | .adminDis q => q.val = p
    | .registerWrite .host a v =>
      a.toNat / 4 * 4 = R.PRT_CMD p && F.PRT_CMD_ADMIN_DIS.get v = 1 && F.PRT_CMD_ADMIN_EN.get v = 0
    | _ => false

/-- The ports of feeder `f` not yet admitted, in admission order. -/
def State.admOrder (s : State) (f : Nat) : List Nat :=
  let l := (List.range 512).filter fun p =>
    (s.cls p = 1 || s.cls p = 2) && tabGet Adm.waiting s.adm p = .waiting && s.admFeeder p = f && !s.disWaits p
  ([7, 6, 5, 4, 3, 2, 1, 0] : List Nat).flatMap fun q => l.filter fun p => s.pif p = q

/-- The quota of feeder `f`. -/
def State.admQuota (s : State) (f : Nat) : Nat :=
  max 1 (s.fld (R.ANG_SBUD f) F.ANG_SBUD_OPS / s.fld R.BOOT_ADMCFG F.BOOT_ADMCFG_DIV)

/-- Each feeder admits the next ports of its order; nothing is admitted while `TRIMBAD` is set (R388). -/
def admitRound (s : State) : State :=
  if s.flag R.OTP_STAT F.OTP_STAT_TRIMBAD || !s.released then s
  else admitDone (forEach (List.range 16) (fun f t => forEach ((s.admOrder f).take (s.admQuota f)) admitPort t) s)

/-! ### Wraps (R50-R61, R74, R264, R372) -/

/-- A wrap from 65,535 to 0: CYC rises, the loop's cycle is judged, the cross-check counts, harvest closes the cycle and
admission goes on. -/
def angleWrap (m : WrapMeas) (s : State) : State :=
  let s1 := presentTrig 5 0 <| present (fun t n => t.clkIs n .wrap) (fun t n => t.capIs n .wrap)
    (setTb (fun t => { t with angle := 0, cyc := t.cyc + 1, nextTick := 0, nextSlot := 0 }) s)
  admitRound (harvestClose (crossWrap s.tb.st (wrapState m (phaseCheck m (wrapMeasure m s1)))))

/-- The wrap comes after the last tick and the last slot start of the cycle (R61). -/
def State.wrapDue (s : State) : Bool := s.tb.nextTick = 256 && s.tb.nextSlot = 32

def execAngleWrap (m : WrapMeas) (s : State) : Host.Outcome State Fault Refusal :=
  .next (if s.tclk && s.wrapDue then angleWrap m s else s)

end Sys2Proof.Machine
end

