-- ==== Sys2Proof/Machine/Heavy.lean ====
section
/-! DEFINITION. The hardware of heavy ports (chapter 07): `CHN_HVCMD`, `CHN_HVST_k` and the sideline. -/
namespace Sys2Proof.Machine

/-- The sideline code of a port (R133, R212): 0b01 while discharging, the heavy multiplexer of an entered port. -/
def State.sideline (s : State) (p : Nat) : Nat :=
  let x := s.portOf p
  if x.bleed then 1
  else if s.cls p = 2 && x.entered && 2 ≤ x.mux && !x.disch &&
      (match x.state with
        | .safe5v | .contract | .transition | .limit => true
        | _ => false) then x.mux
  else 0

/-! ### The sideline (R132) -/

/-- Bits 3 to 0 of a port in the frame: `MUX`, then `LAMP`. -/
def sideBits (mux lamp : Nat) : List Bool := [mux.testBit 1, mux.testBit 0, lamp.testBit 1, lamp.testBit 0]

/-- The frame of die `d` in the order of its 256 bits: port 63 of the die first. -/
def State.sideFrame (s : State) (d : Nat) : List Bool :=
  ((List.range 64).reverse.map fun i => sideBits (s.sideline (64 * d + i)) (s.portOf (64 * d + i)).lamp).flatten

/-- `SLD_d` in period `t` of its 12 MHz shift clock: frames repeat without a gap. -/
def State.sld (s : State) (d t : Nat) : Bool := (s.sideFrame d).getD (t % 256) false

/-- `SLL_d` in period `t`: high for the one after the 256th bit of a frame. -/
def slLatch (t : Nat) : Bool := t % 256 = 0 && t != 0

/-- The word of `CHN_HVST_k` (Table 07-11). -/
def State.hvstWord (s : State) (p : Nat) : Word :=
  let x := s.mirOf p
  let h := s.hubOf p
  BitVec.ofNat 32 (x.mux * 2 ^ 30 + x.entered.toNat * 2 ^ 29 + h.testReq.toNat * 2 ^ 28 + h.exitReq.toNat * 2 ^ 27 +
    h.hstate % 16 * 2 ^ 23 + (!s.portUp p).toNat * 2 ^ 20 + x.pvmax % 1024 * 1024 + x.pimax % 1024)

/-- A course write of `CHN_HVST_k` (R212, R213): it has no effect for a TC or OFF port; with the link down it reaches the
hub's mirror only. -/
def writeHvst (p : Nat) (v : Word) (s : State) : State :=
  if s.cls p ≠ 2 then s
  else
    let f : Port → Port := fun x => { x with
      mux := F.CHN_HVST_MUX.get v, entered := F.CHN_HVST_ENTERED.get v != 0, pvmax := F.CHN_HVST_PVMAX.get v,
      pimax := F.CHN_HVST_PIMAX.get v }
    let up := s.portUp p
    let s1 := if up then updPort p f s else updMir p f s
    updHub p (fun h => { h with
      testReq := h.testReq && F.CHN_HVST_TESTREQ.get v = 0, exitReq := h.exitReq && F.CHN_HVST_EXITREQ.get v = 0,
      hstate := F.CHN_HVST_HSTATE.get v, hvDirty := h.hvDirty || !up }) s1

def execHvstWrite (c : Fin 4) (k : Fin 128) (v : Word) (s : State) : Host.Outcome State Fault Refusal :=
  .next (if s.chanUp c then writeHvst (128 * c + k) v s else s)

/-- `CHN_HVCMD`: OP 1 TEST, 2 EXIT; other codes have no effect (R214). -/
def hvCmd (p op : Nat) (s : State) : State :=
  if op = 1 then updHub p (fun h => { h with testReq := true }) s
  else if op = 2 then updHub p (fun h => { h with exitReq := true }) s
  else s

def execHvTest (who : Who) (p : Fin 512) (s : State) : Host.Outcome State Fault Refusal :=
  .next (if Who.ownsPort who p then access who (R.CHN_HVCMD (p / 128)) (hvCmd p 1) s else s)

def execHvExit (who : Who) (p : Fin 512) (s : State) : Host.Outcome State Fault Refusal :=
  .next (if Who.ownsPort who p then access who (R.CHN_HVCMD (p / 128)) (hvCmd p 2) s else s)

end Sys2Proof.Machine
end

