-- ==== Sys2Proof/Machine/Links.lean ====
section
/-! DEFINITION. The port-die links and autonomous hold (R320-R323, R490, Table 12-4), the port dies' supplies (Table 20-3) and
the rolling self-test (R324-R326). -/
namespace Sys2Proof.Machine

/-- The port numbers of a die. -/
def diePorts (d : Nat) : List Nat := (List.range 64).map fun i => 64 * d + i

/-- `EVT.LINK` of the die's course (Table 10-8). -/
def latchLink (d : Nat) (s : State) : State := updCrs (d / 2) (fun x => { x with link := true }) s

/-! ### Autonomous hold (R322, Table 12-4) -/

/-- A message held at entry is answered as if it had just been received, and discarded. -/
def answerHeld (p : Nat) (s : State) : State :=
  match (s.phyOf p).rx with
  | none => s
  | some m =>
    let pend : Bool := match (s.phyOf p).tx with
      | some b => !b.begun
      | none => false
    answer p m.sop (holdReply (s.phyOf p).rev m.bytes) (clearRx p (if pend then dropTx p s else s))

/-- Port die `d` enters hold: cause 1 link, 2 hold order. The last current reported stays reserved until a fresh one comes (R15). -/
def enterHold (d cause : Nat) (s : State) : State :=
  if (s.dieOf d).hold then s
  else
    let s0 := forEach (diePorts d) (fun p => updHub p fun h => { h with stale := true }) s
    let s1 := updDie d (fun x => { x with hold := true, holdStart := s.clock, expired := false }) s0
    let s2 := raiseSum F.FLT_SUM_HOLD (setFlag R.FLT_LINKSTAT (F.FLT_LINKSTAT_HOLD.bit d) true s1)
    forEach (diePorts d) answerHeld (post .control 0x1A d 0 cause s2)

def execHoldOrder (d : Fin 8) (s : State) : Host.Outcome State Fault Refusal :=
  .next (if s.linkUp d then enterHold d 2 s else s)

/-- A port whose keep-alive watchdog runs restarts it from its full time; waiting messages of the hub go on. -/
def resumePort (p : Nat) (s : State) : State :=
  fillTx p (if (s.phyOf p).kaRun then updPhy p (fun y => { y with kaStart := s.clock }) s else s)

/-- The record of a self-test failure of source `src` at check `check`. -/
def testRecord (d src check : Nat) (s : State) : State :=
  post .control 0x1E src (BitVec.ofNat 32 check) d (raiseSum F.FLT_SUM_SELFTEST s)

/-- The registers of a self-test as the die holds them reach the hub, and failures that waited are reported. -/
def deliverTest (d : Nat) (s : State) : State :=
  let l := (s.dieOf d).tests
  let s1 := forEach [R.FLT_STSTAT d, R.FLT_STFAIL (2 * d), R.FLT_STFAIL (2 * d + 1)] (fun a t => setReg a (t.dreg a) t) s
  forEach l (fun e t => testRecord d e.1 e.2 t) (updDie d (fun x => { x with tests := [] }) s1)

/-- The end-hold order: the die leaves hold. -/
def leaveHold (d : Nat) (s : State) : State :=
  let ms := (s.clock - (s.dieOf d).holdStart) / 1000
  let s1 := updDie d (fun x => { x with hold := false, expired := false })
    (setFlag R.FLT_LINKSTAT (F.FLT_LINKSTAT_HOLD.bit d) false s)
  forEach (diePorts d) resumePort (deliverTest d (post .control 0x1B d (BitVec.ofNat 32 ms) 0 s1))

/-- A powered port of a die powers down as R137 sets out, without an operation. -/
def downPort (p : Nat) (s : State) : State :=
  if (s.portOf p).powered && !(s.portOf p).goingDown then powerDown p none s else s

/-- `HOLD_S` expires (R323): the record waits in the mirror while the link is down. -/
def holdExpire (d : Nat) (s : State) : State :=
  let s1 := forEach (diePorts d) downPort s
  let up := s.linkUp d
  let s2 := updDie d (fun x => { x with expired := true, expDue := !up }) s1
  if up then post .control 0x1C d 0 0 s2 else s2

/-- `HOLD_S` seconds of the die's oscillator have passed since the entry. -/
def State.holdEnds (s : State) (d : Nat) : Bool :=
  (s.dieOf d).hold && !(s.dieOf d).expired && (s.dieOf d).holdS != 0 &&
    s.past (s.dieOf d).holdStart (atLeast (1000000 * (s.dieOf d).holdS))

def execHoldExpire (d : Fin 8) (s : State) : Host.Outcome State Fault Refusal :=
  .next (if s.holdEnds d then holdExpire d s else s)

/-- A hold order for die `d` waits: it wins over an end-hold order of the same tick (Table 12-8). -/
def State.holdWaits (s : State) (d : Nat) : Bool :=
  s.pending.any fun i => match i with
    | .holdOrder e => e.val = d
    | _ => false

/-- An expiry that waits acts before an end-hold order of the same tick (Table 12-8). -/
def expireFirst (d : Nat) (s : State) : State :=
  if s.holdEnds d && s.pending.any (fun i => match i with
      | .holdExpire e => e.val = d
      | _ => false) then holdExpire d s
  else s

/-- The hub sends the order only with its channel out of reset and TCLK running (R321). -/
def execEndHold (d : Fin 8) (s : State) : Host.Outcome State Fault Refusal :=
  .next (if s.linkUp d && (s.dieOf d).hold && s.chanUp (d / 2) && s.tclk && !s.holdWaits d then leaveHold d (expireFirst d s)
         else s)

/-- 30 ms after a Hard Reset received in hold, the port powers down, in hold or after it (Table 12-4). -/
def execHoldHardResetTimeout (p : Fin 512) (s : State) : Host.Outcome State Fault Refusal :=
  .next (if (s.phyOf p).holdHr && s.past (s.phyOf p).holdHrAt (atLeast 30000) then
      downPort p (updPhy p (fun y => { y with holdHr := false }) s)
    else s)

/-! ### Frames and loss (R320, R321) -/

def execLinkFrameCrcError (d : Fin 8) (s : State) : Host.Outcome State Fault Refusal :=
  .next (if s.chanUp (d / 2) then raiseSum F.FLT_SUM_LINKERR (incFld (R.FLT_LINKCNT d) F.FLT_LINKCNT_CRCERR s) else s)

/-- The hub end declares its link lost. -/
def hubLinkLost (d : Nat) (three : Bool) (s : State) : State :=
  let s1 := setFlag R.FLT_LINKSTAT (F.FLT_LINKSTAT_UP.bit d) false s
  let s2 := updDie d (fun x => { x with downSince := some s.clock }) (incFld (R.FLT_LINKCNT d) F.FLT_LINKCNT_LOSS s1)
  post .control 0x18 d 0 (if three then 2 else 1) (latchLink d s2)

/-- The port die's end declares its link lost and the die enters hold. -/
def dieLinkLost (d : Nat) (s : State) : State := enterHold d 1 (updDie d (fun x => { x with up := false, lostAt := some s.clock }) s)

/-- One end declares loss: the hub end with `hub`, otherwise the port die. -/
def portDieLinkLoss (d : Nat) (hub three : Bool) (s : State) : State :=
  if hub then (if s.flag R.FLT_LINKSTAT (F.FLT_LINKSTAT_UP.bit d) then hubLinkLost d three s else s)
  else if (s.dieOf d).up then dieLinkLost d s else s

def execPortDieLinkLoss (d : Fin 8) (hub three : Bool) (s : State) : Host.Outcome State Fault Refusal :=
  .next (portDieLinkLoss d hub three s)

/-! ### Link up and resynchronisation (R321, R490, R139, R197, R213) -/

/-- The bits of an event word that waited in a mirror. -/
def raiseBits (p evt en n : Nat) (v : Nat) (s : State) : State :=
  forEach (List.range n) (fun i t => if v.testBit i then raisePrt evt en p ⟨i, 1⟩ t else t) s

/-- R490: what the channel does for port `p` when a die-reset mirror arrives. -/
def resetMirrorPort (p : Nat) (old : PState) (s : State) : State :=
  if old = .off ∨ old = .idle then s
  else
    hubDiscard p (clearHeavy p (stopKa p (hubGone p 4 (updHub p (fun h => { h with leg := .none }) s))))

/-- The record of a detach that the mirror shows (R321). Table 12-7 has no class for it and gives it no data: all are free. -/
def detachRecord (p : Nat) (s : State) : State :=
  let c := drawNat s
  let w := drawWord c.2
  let n := drawNat w.2
  post .control (c.1 % 64) p w.1 n.1 n.2

/-- A trip, a snapshot that the hub has not got (R252), a failed discharge, a lockout, a VCONN overcurrent, a detach or a Hard Reset of the time without link, as the mirror
shows it. -/
def mirrorEvents (p : Nat) (x : Port) (s : State) : State :=
  let has (f : Fld) : Bool := x.evt.toNat.testBit f.lo
  let trip := has F.PRT_EVT_FAST || has F.PRT_EVT_FTIMER || has F.PRT_EVT_INRTO
  let gone (cause : Nat) (t : State) : State :=
    hubDiscard p (hubGone p cause (setFld (R.PRT_PDKA p) F.PRT_PDKA_KIND 0 t))
  let s0 := if trip then setReg (R.PRT_TRIPUS p) (s.tb.usec.truncate 32) (gone 2 s) else s
  let s1 := if x.snapDue then
      post .control 0x01 p x.snap (x.tripCnt * 16 + x.cause.code)
        (setReg (R.PRT_TRIPSNAP p) x.snap (updPort p (fun z => { z with snapDue := false }) s0))
    else s0
  let s2 := if has F.PRT_EVT_DISCH_FAIL then post .control 0x03 p (BitVec.ofNat 32 x.failV) 0 s1 else s1
  let s3 := if has F.PRT_EVT_LOCKOUT then post .control 0x02 p 0 x.cause.code s2 else s2
  let s4 := if has F.PRT_EVT_VCONN_OC then post .control 0x04 p 0 0 s3 else s3
  let s5 := if has F.PRT_EVT_DETACH then gone 1 (detachRecord p s4) else s4
  let y := s.phyOf p
  if y.pdEvt.toNat.testBit F.PRT_PDEVT_HR_RX.lo || y.pdEvt.toNat.testBit F.PRT_PDEVT_HR_TX.lo then
    abortOps (p / 128) (p % 128) (hubDiscard p (setFld (R.PRT_PDKA p) F.PRT_PDKA_KIND 0 s5))
  else if y.pdEvt.toNat.testBit F.PRT_PDEVT_SOFT_RX.lo then hubDiscard p s5
  else s5

/-- A result that waited in the port die reaches the hub (R145, Table 05-2). -/
def lateResult (p : Nat) (e : EvKind × Nat × BitVec 32) (s : State) : State :=
  match e.1 with
  | .txDone => endChain p .txDone e.2.1 (stampChain p e.2.1 e.2.2 s)
  | .txFailed => txFailed p e.2.1 s
  | k => endChain p k e.2.1 s

/-- The results, events and refusals that waited in the port die. -/
def mirrorResults (p : Nat) (x : Port) (s : State) : State :=
  let y := s.phyOf p
  let s1 := updPhy p (fun z => { z with late := [], pdEvt := 0, rxDrop := 0 })
    (updPort p (fun z => { z with opRes := [], evt := 0 }) s)
  let s2 := forEach x.opRes (fun e t => opResult (p / 128) e.1 e.2 t) s1
  let s3 := forEach y.late (lateResult p) s2
  let drops := min 65535 (s3.fld (R.PRT_PDCNT p) F.PRT_PDCNT_RXDROP + y.rxDrop)
  raiseBits p (R.PRT_PDEVT p) (R.PRT_PDEVTEN p) 7 y.pdEvt.toNat
    (raiseBits p (R.PRT_EVT p) (R.PRT_EVTEN p) 15 x.evt.toNat
      (setFld (R.PRT_PDCNT p) F.PRT_PDCNT_RXDROP drops s3))

/-- Port `p`'s part of the mirror reaches the hub; heavy fields written meanwhile stand and go to the die (R213),
and the requests of R214 clear if the die has cleared its record. -/
def mirrorPort (reset : Bool) (p : Nat) (s : State) : State :=
  let old := s.mirOf p
  let keep : Port → Port := fun z =>
    if (s.hubOf p).hvDirty then
      { z with mux := old.mux, entered := old.entered, pvmax := old.pvmax, pimax := old.pimax }
    else z
  let gone := (s.portOf p).hvGone
  let s1 := updHub p (fun h => { h with hvDirty := false, testReq := h.testReq && !gone, exitReq := h.exitReq && !gone })
    (updPort p (fun z => { keep z with hvGone := false }) s)
  let x := s1.portOf p
  if reset then
    mirrorResults p x (updHub p (fun h => { h with leg := .none }) (resetMirrorPort p old.state s1))
  else
    let s2 := mirrorResults p x (mirrorEvents p x (updHub p (fun h => { h with leg := x.leg }) s1))
    if x.evt.toNat.testBit F.PRT_EVT_ATTACH.lo && x.mayAlloc then hubAttach p s2 else s2

/-- The registers of port `p` that its port die holds as settings. -/
def portSettings (p : Nat) : List Nat :=
  [R.PRT_CFG p, R.PRT_SENSE p, R.PRT_FTRIP p, R.PRT_CCCFG p, R.PRT_INRUSH p, R.PRT_LIMIT p, R.PRT_RETRY p, R.PRT_PGWIN p,
   R.PRT_PDCFG p]

/-- The setting mirror of port `p` reaches the port die, then the marks of R139; a held expiry acts (R197). -/
def sendSettings (p : Nat) (s : State) : State :=
  let s1 := forEach (portSettings p) (fun a t => setDieReg a (t.reg a) t) s
  let ka := R.PRT_PDKA p
  let s2 := if s1.dreg ka = s1.reg ka then s1
    else updPhy p (fun y => { y with kaRun := F.PRT_PDKA_KIND.get (s1.reg ka) % 3 != 0, kaStart := s1.clock })
      (setDieReg ka (s1.reg ka) s1)
  let h := s2.hubOf p
  let s3 := updHub p (fun x => { x with markDis := false, markEn := false, markUnlock := false }) (checkFt p s2)
  let s4 := if h.markDis then goOff p s3 else if h.markEn then leaveOff p s3 else s3
  let s5 := if h.markUnlock then unlock p s4 else s4
  if (s5.hubOf p).dueHeld then
    if s5.chCeil p < s5.contractPower p then fireDeadline p s5 else stopDeadline p s5
  else s5

/-- The ADC registers of unit `u`: results and status from the die, settings from the hub; calibration factors from the die unless they
were written while the link was down; and the record of a calibration that failed meanwhile (R261, R269). -/
def mirrorUnit (u : Nat) (s : State) : State :=
  let a := s.adcOf u
  let up := [R.ADC_DATA u, R.ADC_STAT u] ++ (if a.calDirty then [] else [R.ADC_CAL u])
  let down := [R.ADC_ODCFG u, R.ADC_ODTRG u] ++ (if a.calDirty then [R.ADC_CAL u] else [])
  let s1 := forEach up (fun a t => setReg a (t.dreg a) t) (updAdc u (fun a => { a with calDirty := false, calFail := none }) s)
  let s2 := forEach down (fun a t => setDieReg a (t.reg a) t) s1
  match a.calFail with
  | some g => calRecord u g s2
  | none => s2

/-- The link of die `d` is up: steps 1 to 3 of R321. The loss duration is open where no loss was declared (R491). -/
def linkComesUp (d : Nat) (s : State) : State :=
  let reset := (s.dieOf d).resetMirror
  let exp := (s.dieOf d).expDue
  let dur : Word × State := match (s.dieOf d).downSince with
    | some t => (BitVec.ofNat 32 (s.clock - t), s)
    | none => drawWord s
  let s1 := setFlag R.FLT_LINKSTAT (F.FLT_LINKSTAT_UP.bit d) true
    (updDie d (fun x => { x with up := true, lostAt := none, resetMirror := false, downSince := none, expDue := false,
                                 holdS := dur.2.fld R.FLT_HOLDCFG F.FLT_HOLDCFG_HOLD_S }) dur.2)
  let s2 := latchLink d (post .control 0x19 d dur.1 0 s1)
  let s3 := forEach (diePorts d) (mirrorPort reset) s2
  let s4 := deliverTest d (if exp then post .control 0x1C d 0 0 s3 else s3)
  let s5 := forEach [4 * d, 4 * d + 1, 4 * d + 2, 4 * d + 3] mirrorUnit s4
  let s6 := forEach (diePorts d) sendSettings s5
  serveMarks (d / 2) (forEach ((List.range 64).map fun i => 64 * (d % 2) + i) (queueXfer (d / 2)) s6)

/-- An end has sent training frames for 4.0 ms since it declared loss; one that left reset has declared none (R491). -/
def State.trained (s : State) (t : Option Nat) : Bool :=
  match t with
  | some n => s.past n (atLeast 4000)
  | none => true

/-- 64 valid frames in each direction: the die and the channel are out of reset and both ends have been without the link. -/
def execPortDieLinkUp (d : Fin 8) (s : State) : Host.Outcome State Fault Refusal :=
  .next (if !(s.dieOf d).inReset && s.chanUp (d / 2) && !s.flag R.FLT_LINKSTAT (F.FLT_LINKSTAT_UP.bit d) && !(s.dieOf d).up &&
      s.trained (s.dieOf d).downSince && s.trained (s.dieOf d).lostAt then linkComesUp d s
    else s)

/-! ### Reset of a port die (Table 12-3, Table 20-3, R490) -/

/-- The registers that a port die holds: those of its ports and of its ADC units. The self-test's records stand. -/
def dieHeld (d a : Nat) : Bool :=
  (0x100000 + 0x4000 * d ≤ a && a < 0x104000 + 0x4000 * d) || (0x4000 + 0x80 * d ≤ a && a < 0x4080 + 0x80 * d)

/-- A port as a reset of its die leaves it: every gate off, VCONN open, nothing kept but the mark of R326. -/
def resetPort (p : Nat) (s : State) : State :=
  { s with port := tabSet Port.init s.port p { Port.init with failed := (s.portOf p).failed } }

/-- The die goes into reset: its gates and VCONN switches are off, its link is lost, its external registers keep their last
bits. -/
def dieReset (d : Nat) (s : State) : State :=
  let bits := (diePorts d).map fun p => ((s.portOf p).lamp, s.sideline p)
  let mine (k : Nat) : Bool := decide (k / 64 = d)
  let s1 := forEach (diePorts d) resetPort s
  let s2 := { s1 with
    phy := tabDrop mine s1.phy, scan := tabDrop mine s1.scan, adc := tabDrop (fun u => u / 4 = d && u < 32) s1.adc,
    dieRegs := tabDrop (dieHeld d) s1.dieRegs }
  updDie d (fun x => { x with inReset := true, up := false, hold := false, expired := false, expDue := false, holdS := 0,
                              lostAt := none, tests := [], resetMirror := true, temp := 0, side := if x.inReset then x.side else bits })
    (setFlag R.FLT_LINKSTAT (F.FLT_LINKSTAT_HOLD.bit d) false s2)

/-- After the reset a port starts from IDLE, unless its last mirror shows it OFF. -/
def startPort (p : Nat) (s : State) : State :=
  if s.released && (s.cls p = 1 || s.cls p = 2) && (s.mirOf p).state != .off && !s.clk.extest then
    updPort p (fun x => { x with state := .idle, stAt := s.clock, ccAt := s.clock, term := true }) s
  else s

/-- The die leaves reset: its ports start, and its units calibrate (R261). -/
def dieRelease (d : Nat) (s : State) : State :=
  let s1 := updDie d (fun x => { x with inReset := false, side := [] }) s
  forEach [4 * d, 4 * d + 1, 4 * d + 2, 4 * d + 3] startCal (forEach (diePorts d) startPort s1)

/-- The release comes 1 ms after `VDDP` has risen again (Table 20-3). -/
def State.vddpOver (s : State) (d : Nat) : Bool :=
  match (s.dieOf d).vddpAt with
  | some t => s.past t (atLeast 1000)
  | none => true

def execPortDieResetRelease (d : Fin 8) (s : State) : Host.Outcome State Fault Refusal :=
  .next (if (s.dieOf d).inReset && !s.clk.porst && !s.flag R.FLT_CLKSTAT (F.FLT_CLKSTAT_PDOSC.bit d) && s.vddpOver d then
      dieRelease d (updDie d (fun x => { x with vddpAt := none }) s)
    else s)

/-- A supply of `mv` mV is below its threshold, which lies between `lo` and `hi` mV; between them it is open (Table 20-3, log 175). -/
def below (lo hi mv : Nat) (s : State) : Bool × State :=
  if mv < lo then (true, s)
  else if hi ≤ mv then (false, s)
  else
    let d := drawNat s
    (decide (d.1 % 2 = 1), d.2)

/-- `VDDP` has stood at `mv` mV for `us` µs. -/
def execVddpLow (d : Fin 8) (mv us : Nat) (s : State) : Host.Outcome State Fault Refusal :=
  let b := below 4350 4500 mv s
  .next (if us < 2 || !b.1 then b.2
    else updDie d (fun x => { x with vddpAt := some s.clock }) (if (s.dieOf d).inReset then b.2 else dieReset d b.2))

/-- `VGH_d` has stood at `mv` mV for `us` µs: every powered port of the die powers down. -/
def execVghLow (d : Fin 8) (mv us : Nat) (s : State) : Host.Outcome State Fault Refusal :=
  let b := below 64000 65000 mv s
  .next (if us < 10 || !b.1 || (s.dieOf d).inReset then b.2
    else forEach (diePorts d) downPort (updDie d (fun x => { x with vghLow := true }) b.2))

/-- `VGH_d` has risen to `mv` mV. -/
def execVghRecover (d : Fin 8) (mv : Nat) (s : State) : Host.Outcome State Fault Refusal :=
  let b := below 66000 67000 mv s
  .next (if b.1 then b.2 else updDie d (fun x => { x with vghLow := false }) b.2)

/-- `VCONN_d` has stood at `mv` mV for `us` µs: every VCONN switch of the die opens. -/
def execVconnSupplyLow (d : Fin 8) (mv us : Nat) (s : State) : Host.Outcome State Fault Refusal :=
  let b := below 4400 4550 mv s
  .next (if us < 10 || !b.1 || (s.dieOf d).inReset then b.2
    else forEach (diePorts d) (fun p t => if (t.portOf p).vconn then openVconn p t else t)
      (updDie d (fun x => { x with vconnLow := true }) b.2))

/-! ### Rolling self-test (R324-R326) -/

def setTest (a : Nat) (f : Fld) (v : Nat) (s : State) : State := setDieReg a (f.put (s.dreg a) v) s

/-- Results reach the hub outside hold. -/
def State.delivers (s : State) (d : Nat) : Bool := s.linkUp d && !(s.dieOf d).hold

/-- A self-test failure of source `src` at check `check`: reported now, or kept until results are delivered. -/
def testFailed (d src check : Nat) (s : State) : State :=
  if s.delivers d then testRecord d src check s
  else updDie d (fun x => { x with tests := x.tests ++ [(src, check)] }) s

/-- The check that a step fails (R325): the comparator trips at the lower stimulus or not within 1.0 µs at the upper, the two
amplifiers differ by more than 3 % + 30 mA, or the pull-down path does not work. -/
def StResult.failed : StResult → Option Nat
  | .measured low ns own spare path =>
    if low || 1000 < ns.toNat then some 2
    else if 3 * spare.toNat + 3000 < 100 * (max own.toNat spare.toNat - min own.toNat spare.toNat) then some 3
    else if path then none else some 4
  | .abandoned => none

def State.spareOk (s : State) (d : Nat) : Bool := s.dfld (R.FLT_STSTAT d) F.FLT_STSTAT_SPAREOK = 1
def State.spareUse (s : State) (d : Nat) : Bool := s.dfld (R.FLT_STSTAT d) F.FLT_STSTAT_SPAREUSE = 1

/-- Step 0: the spare, and the report of a spare that has failed or is in use. -/
def testSpare (d : Nat) (r : StResult) (s : State) : State :=
  let a := R.FLT_STSTAT d
  let s1 := match StResult.failed r with
    | some k => testFailed d 0xFFFF k (setTest a F.FLT_STSTAT_SPAREOK 0 s)
    | none => if r = StResult.abandoned then s else setTest a F.FLT_STSTAT_SPAREOK 1 s
  if (!s1.spareOk d || s1.spareUse d) && s1.delivers d then raiseSum F.FLT_SUM_SELFTEST s1 else s1

/-- The port is tested: not OFF, not guarded by the spare, and with a spare that is free or both gates off. -/
def State.testable (s : State) (d i : Nat) : Bool :=
  s.cls (64 * d + i) != 0 && !(s.spareUse d && s.dfld (R.FLT_STSTAT d) F.FLT_STSTAT_SPPORT = i) &&
  ((s.spareOk d && !s.spareUse d) || (!(s.portOf (64 * d + i)).ga && !(s.portOf (64 * d + i)).gb))

/-- A port that fails: the spare path, or the port held down. -/
def testPortFailed (d i check : Nat) (s : State) : State :=
  let p := 64 * d + i
  let s1 := testFailed d p check (setTest (R.FLT_STFAIL (p / 32)) ⟨p % 32, 1⟩ 1 s)
  if s1.spareOk d && !s1.spareUse d then
    setTest (R.FLT_STSTAT d) F.FLT_STSTAT_SPPORT i (setTest (R.FLT_STSTAT d) F.FLT_STSTAT_SPAREUSE 1 s1)
  else downPort p (updPort p (fun x => { x with failed := true }) s1)

/-- A step of the round; one comes every 900 ms (R324). -/
def selftestStep (d : Nat) (r : StResult) (s : State) : State :=
  let a := R.FLT_STSTAT d
  let k := s.dfld a F.FLT_STSTAT_NEXT
  let s1 := if k = 0 then testSpare d r s
    else if s.testable d (k - 1) then
      match StResult.failed r with
      | some n => testPortFailed d (k - 1) n s
      | none => s
    else s
  let s2 := setTest a F.FLT_STSTAT_NEXT ((k + 1) % 65) (updDie d (fun x => { x with testAt := s.clock }) s1)
  let s3 := if k = 64 then setTest a F.FLT_STSTAT_ROUNDS (s2.dfld a F.FLT_STSTAT_ROUNDS + 1) s2 else s2
  if s3.delivers d then
    forEach [a, R.FLT_STFAIL (2 * d), R.FLT_STFAIL (2 * d + 1)] (fun b t => setReg b (t.dreg b) t) s3
  else s3

def execSelftestStep (d : Fin 8) (r : StResult) (s : State) : Host.Outcome State Fault Refusal :=
  .next (if !(s.dieOf d).inReset && s.past (s.dieOf d).testAt (atLeast 900000) &&
      ([4 * d.val, 4 * d.val + 1, 4 * d.val + 2, 4 * d.val + 3].all s.slotFree) then selftestStep d r s else s)

end Sys2Proof.Machine
end

