-- ==== Sys2Proof/Machine/Memories.lean ====
section
/-! DEFINITION. Channel resets (R310, R317, R336-R339, R348), the scrubbers (R315-R318) and the bittern log's commands
(R329). -/
namespace Sys2Proof.Machine

/-! ### Channel reset -/

/-- The addresses of channel `c`'s block. -/
def inBlock (c a : Nat) : Bool := 0x10000 + 0x4000 * c ≤ a && a < 0x14000 + 0x4000 * c

/-- What a channel reset keeps of a port at the hub: its leg as the mirror shows it, and the marks of R139. -/
def HubPort.afterReset (h : HubPort) (m : Port) : HubPort :=
  { HubPort.init with leg := m.leg, commitUs := h.commitUs, stale := h.stale, markDis := h.markDis, markEn := h.markEn, markUnlock := h.markUnlock }

/-- A port of a channel in reset: results still due have no entry to reach. -/
def resetHubPort (p : Nat) (s : State) : State :=
  let none64 : Option Nat → Option Nat := fun e => e.map fun _ => 64
  let cut : Port → Port := fun x =>
    { x with opRes := [], onEntry := none64 x.onEntry, vcEntry := none64 x.vcEntry, downEntry := none64 x.downEntry,
             step := x.step.map (fun r => { r with entry := 64 }), xfer := x.xfer.map (fun r => { r with entry := 64 }),
             disc := false }
  let m := s.mirOf p
  let s1 := updHub p (fun h => h.afterReset m) { s with port := tabSet Port.init s.port p (cut (s.portOf p)) }
  updFw p (fun _ => Fw.init) (updPhy p (fun y =>
    { y with late := [], tx := y.tx.map (fun b => { b with origin := .answer }) }) s1)

/-- A link whose hub end is in reset: the port die hears no valid frame and enters hold (R14). -/
def cutLink (d : Nat) (s : State) : State :=
  let s1 := setFlag R.FLT_LINKSTAT (F.FLT_LINKSTAT_UP.bit d) false s
  if (s1.dieOf d).up then dieLinkLost d s1 else s1

/-- Channel `c` is cleared (R338). -/
def clearChannel (c : Nat) (s : State) : State :=
  let mine (n k : Nat) : Bool := decide (k / n = c)
  let keepGen (t : Tab Ctx) : Tab Ctx :=
    (List.range 64).foldl (fun m n =>
      tabSet Ctx.init m (64 * c + n) { Ctx.init with gen := (tabGet Ctx.init t (64 * c + n)).gen }) t
  let s1 := { s with
    regs := tabDrop (fun a => inBlock c a && !imageReg a && !settingReg a) s.regs,
    ctx := keepGen s.ctx, pan := tabDrop (mine 256) s.pan, opq := tabDrop (mine 64) s.opq,
    xat := tabDrop (fun k => decide (crossChan k = c)) s.xat }
  let s2 := wordsWritten (0x40 + c) 0 0x100000 (wordsWritten (0x20 + c) 0 0x4000 (wordsWritten (0x10 + c) 0 0x10000
    (clearMem (0x20 + c) 0 0x4000 (clearMem (0x10 + c) 0 0x10000 s1))))
  updCrs c (fun _ => Course.init) (updChan c (fun x => { Chan.init with resetAt := x.resetAt, bank := x.bank }) s2)

/-- A cause of Table 13-2 resets channel `c`; a further cause sets its bit as well (R339). The peers are told (R348). -/
def resetChannel (c : Nat) (cause : Fld) (s : State) : State :=
  let s1 := updChan c (fun x => { x with resetAt := s.clock }) (setFld (R.CRU_RCAUSE c) cause 1 s)
  if !s1.chanUp c then s1
  else
    let s0 := if c ∈ s1.boot.wrote then { s1 with boot := { s1.boot with recode := c :: s1.boot.recode } } else s1
    let s2 := forEach ((List.range 128).map fun k => 128 * c + k) resetHubPort (clearChannel c (mbxFlushLane c s0))
    let s3 := forEach [2 * c, 2 * c + 1] cutLink s2
    let s4 := if s3.mgmtUp then setFld R.CRU_PEER (F.CRU_PEER_CH_M.bit c) 1 s3 else s3
    if s4.tclk then setFld R.CRU_PEER (F.CRU_PEER_CH_T.bit c) 1 s4 else s4

/-- An uncorrectable word of the context and queue store (R317): the management plane posts the record, waking if it is quiet. -/
def uecc (c off : Nat) (scrub : Bool) (s : State) : State :=
  resetChannel c F.CRU_RCAUSE_UECC (foundUe (0x40 + c) off scrub (wakeUp 2 s))

/-- The channel watchdog (R310). -/
def channelWatchdog (c : Nat) (s : State) : State :=
  post .management 0x22 c 0 0 (raiseSum F.FLT_SUM_CHWDOG (resetChannel c F.CRU_RCAUSE_WDOG (noteFailure c s)))

/-- `WD_MS` passes again after the first stage, before the restart has ended or without a kick since (R310). A kick of the same
tick wins. -/
def State.stage2Due (s : State) (c : Fin 4) : Bool := s.wdDue c && (s.crsOf c).wdFirst && !s.kickWaits c

def execChannelWatchdog (c : Fin 4) (s : State) : Host.Outcome State Fault Refusal :=
  .next (if s.stage2Due c then channelWatchdog c s else s)

def execChannelReset (c : Fin 4) (k : ResetCause) (s : State) : Host.Outcome State Fault Refusal :=
  .next (match k with
    | .watchdog => if s.stage2Due c then channelWatchdog c s else s
    | .pll => resetChannel c F.CRU_RCAUSE_PLL s
    | .uecc off =>
      if s.chanUp c && (s.wordErr (0x40 + c) off.toNat).decode = .uncorrectable then uecc c off.toNat false s else s
    | .host => resetChannel c F.CRU_RCAUSE_HOST s)

/-- A port of the waiting set at release: one in INRUSH armed (R167). -/
def waitAtRelease (p : Nat) (s : State) : State :=
  if (s.portOf p).state = .inrush && (s.portOf p).armed then
    setWaiting p true (updHub p (fun h => { h with waitAlloc := false }) s)
  else s

/-- Channel `c` leaves reset: it reads the active bank, and its course is held (R25, R167, R338). The ports that wait are
given contexts as R163 chooses. -/
def releaseChannel (c : Nat) (s : State) : State :=
  let s1 := updChan c (fun x => { x with inReset := false, bank := s.active }) s
  forEach ((List.range 128).map fun k => 128 * c + k) waitAtRelease s1

/-- 10 µs have passed since the last cause, and the PLL has been locked for 1 ms, which the report of its return waits for
(Table 13-2). -/
def execChannelResetRelease (c : Fin 4) (s : State) : Host.Outcome State Fault Refusal :=
  .next (if !s.chanUp c && !s.clk.porst && !s.flag R.FLT_CLKSTAT (F.FLT_CLKSTAT_PLL.bit c) && s.past (s.chanOf c).resetAt 10 then
      releaseChannel c s
    else s)

/-- A write of `CRU_CHRST` (Table 13-8). -/
def writeChrst (v : Word) (s : State) : State :=
  if F.CRU_CHRST_KEY.get v = 0x5A then
    forEach (List.range 4) (fun c t => if v.getLsbD c then resetChannel c F.CRU_RCAUSE_HOST t else t) s
  else s

def execCruChrst (v : Word) (s : State) : Host.Outcome State Fault Refusal :=
  .next (access .host R.CRU_CHRST (writeChrst v) s)

/-! ### Scrubbers (R315-R318, R330) -/

/-- The memories of Table 12-2. -/
def memIds : List Nat :=
  ([0x00, 0x10, 0x20, 0x30, 0x40] : List Nat).flatMap (fun b => [b, b + 1, b + 2, b + 3]) ++ [0x50, 0x51, 0x52, 0x53]

/-- The memory's scrubber runs: its clock and its domain do. -/
def State.scrubRuns (s : State) (id : Nat) : Bool :=
  if id < 0x50 then s.chanUp (memChan id) else if id < 0x52 then s.tclk else s.mgmtUp && !s.clk.quiet

/-- The bytes of a memory (Table 12-2). -/
def memBytes (id : Nat) : Nat :=
  match id / 16 with
  | 0 => 0x30000
  | 1 => 0x10000
  | 2 => 0x4000
  | 3 => 0x2000
  | _ => if id = 0x50 || id = 0x51 then 0x2000 else if id = 0x52 then 0x1000 else Config.memBytes id

/-- The staging entry of a record (log 166). -/
def LogRec.entry (r : LogRec) : Nat := r.seq.toNat % 128

/-- The record in staging entry `n` is dropped, and the entry is free (Table 12-2). -/
def dropStaged (n : Nat) (s : State) : State :=
  if s.log.staged.any fun r => r.entry = n then
    dropRec .management (wordsWritten 0x52 (32 * n) 32
      { s with log := { s.log with staged := s.log.staged.filter fun r => r.entry ≠ n } })
  else s

/-- A pass of memory `id` ends; a device-wide pass ends with the last of them (Table 12-11). -/
def scrubPass (id : Nat) (s : State) : State :=
  let passes (t : State) (k : Nat) : Nat := (tabGet Scrubber.init t.scrubs k).passes
  let low (t : State) : Nat := memIds.foldl (fun m k => min m (passes t k)) (passes t 0)
  let s1 := { s with scrubs := tabSet Scrubber.init s.scrubs id ⟨passes s id + 1, 0⟩ }
  if low s1 = low s then s1
  else
    let ms := s1.since s1.scrubStart / 1000
    { setReg R.FLT_SCRUB (BitVec.ofNat 32 (low s1 % 65536 * 65536 + min 65535 ms)) s1 with scrubStart := s1.tb.usec }

/-- The scrubber reads a word: one of a context and queue store that cannot be corrected resets the channel, one of the staging
buffer drops its record (Table 12-2). -/
def scrubWord (id off : Nat) (s : State) : State :=
  if 0x40 ≤ id && id < 0x50 && (s.wordErr id off).decode = .uncorrectable then uecc (memChan id) off true s
  else
    let s1 := decodeWord id off true s
    if id = 0x52 && s1.poisoned id off then dropStaged (off / 32) s1 else s1

/-- A step of the scrubber of memory `id`: its next word in ascending order, and after the last one the first (R318). -/
def scrubStep (id : Nat) (s : State) : State :=
  let x := tabGet Scrubber.init s.scrubs id
  let s1 := scrubWord id (8 * x.next) { s with scrubs := tabSet Scrubber.init s.scrubs id { x with next := x.next + 1 } }
  if memBytes id ≤ 8 * (x.next + 1) then scrubPass id s1 else s1

def execScrubStep (mem : BitVec 8) (s : State) : Host.Outcome State Fault Refusal :=
  .next (if mem.toNat ∈ memIds && s.scrubRuns mem.toNat then scrubStep mem.toNat s else s)

/-- The register at a place of the image tables. -/
def imageAddr (o : Nat) : Nat :=
  if o < 0x400 then R.PLC_GRP 0 + o
  else if o < 0xC00 then 0x10200 + (o - 0x400) / 0x200 * 0x4000 + (o - 0x400) % 0x200
  else if o < 0x1C00 then 0x10400 + (o - 0xC00) / 0x400 * 0x4000 + (o - 0xC00) % 0x400
  else 0x11900 + (o - 0x1C00) / 0x100 * 0x4000 + (o - 0x1C00) % 0x100

/-- The boot controller rewrites a poisoned word of code RAM or of the image tables from the active slot (Table 12-2). Reserved
bits, and the entry of the root group, keep reading 0 (R9). -/
def rewriteWord (id off : Nat) (w : BitVec 64) (s : State) : State :=
  let a := off / 8 * 8
  let s1 := wordsWritten id off 1 s
  if id < 4 then setBytes id a (natLe 8 w.toNat) s1
  else if id = 0x51 then
    let one (o : Nat) (v : Word) (t : State) : State :=
      let b := imageAddr o
      match findReg b with
      | some r => if imageReg b && b != R.PLC_GRP 0 then setReg b (v &&& BitVec.ofNat 32 r.rw) t else t
      | none => t
    one (a + 4) (BitVec.ofNat 32 (w.toNat / 2 ^ 32)) (one a (BitVec.ofNat 32 w.toNat) s1)
  else s

def execPoisonedWordRewrite (mem : BitVec 8) (off : BitVec 20) (w : BitVec 64) (s : State) :
    Host.Outcome State Fault Refusal :=
  .next (if s.poisoned mem.toNat off.toNat && !s.clk.porst then rewriteWord mem.toNat off.toNat w s else s)

/-! ### The bittern log (R27, R329) -/

def Plane.ofFin : Fin 3 → Plane
  | 0 => .control
  | 1 => .data
  | 2 => .management

def execLogPost (pl : Fin 3) (cls : Fin 64) (src : BitVec 16) (d0 : Word) (d1 : BitVec 16) (s : State) :
    Host.Outcome State Fault Refusal :=
  .next (post (Plane.ofFin pl) cls src.toNat d0 d1.toNat s)

/-- The records that the ring of a device of `mib` MiB holds: from 0x01B0_0000 to the end of the device (Table 14-1). -/
def ringCap (mib : Nat) : Nat := (mib * 0x100000 - 0x1B00000) / 32

/-- Records are programmed into a ring; one that is too full for them first loses its oldest erase sector, 64 KiB. -/
def ringAdd (cap : Nat) (ring g : List LogRec) : List LogRec :=
  if ring.length + g.length ≤ cap then ring ++ g else ring.drop 2048 ++ g

/-- The management plane reads the entries of the first `n` staged records; one with a poisoned word loses its record (Table 12-2). -/
def readStaged (n : Nat) (s : State) : State :=
  forEach (s.log.staged.take n) (fun r t =>
    let u := seenRange 0x52 (32 * r.entry) 32 t
    if (List.range 4).any fun w => u.poisoned 0x52 (32 * r.entry + 8 * w) then dropStaged r.entry u else u) s

/-- A group of up to 8 staged records is programmed in `SEQ` order into the ring of each flash that has not failed, and its
entries are freed. With both flashes absent or failed they stay. -/
def logProgram (n : Nat) (s0 : State) : State :=
  let s := readStaged n s0
  let n := n - (s0.log.staged.length - s.log.staged.length)
  let g := s.log.staged.take n
  let done (x : Nvm) : Nvm := if x.writing = some 4 then x else { x with writing := none }
  if s.nvmA.ok || s.nvmB.ok then
    { s with nvmA := done s.nvmA, nvmB := done s.nvmB, log := { s.log with
        staged := s.log.staged.drop n
        ringA := if s.nvmA.ok then ringAdd (ringCap (s.fld R.BOOT_NVSIZE F.BOOT_NVSIZE_A)) s.log.ringA g else s.log.ringA
        ringB := if s.nvmB.ok then ringAdd (ringCap (s.fld R.BOOT_NVSIZE F.BOOT_NVSIZE_B)) s.log.ringB g else s.log.ringB } }
  else s

def execLogProgram (n : Fin 9) (s : State) : Host.Outcome State Fault Refusal :=
  .next (if s.mgmtUp && !s.clk.quiet then logProgram n s else s)

end Sys2Proof.Machine
end

