-- ==== Sys2Proof/Machine/Fuse.lean ====
section
/-! DEFINITION. The fuse array (chapter 15): fuse sense, the re-read, programming, and the instructions of the test access port
that need no engine. -/
namespace Sys2Proof.Machine

/-! ### Reading the array (R383-R387) -/

/-- The normal read of a word of the array. -/
def State.fuseWord (s : State) (w : Nat) : Word := tabGet 0 s.fuse w

/-- The margin read, which only solid bits pass (R385). -/
def State.fuseMargin (s : State) (w : Nat) : Word := s.fuseWord w &&& ~~~ tabGet 0 s.weak w

/-- The majority of three copies, bit by bit (R386). -/
def majority (a b c : Word) : Word := (a &&& b) ||| (a &&& c) ||| (b &&& c)

/-- The first word and the seal word of the region with lock bit `i` (Table 15-1). -/
def regionWords (i : Nat) : Nat × Nat :=
  if i = 0 then (0x00, 0x07)
  else if i = 1 then (0x08, 0x0F)
  else if i = 2 then (0x10, 0x2F)
  else if i < 7 then (0x30 + 0x10 * (i - 3), 0x3C + 0x10 * (i - 3))
  else if i < 11 then (0x70 + 0x10 * (i - 7), 0x7C + 0x10 * (i - 7))
  else if i = 11 then (0xB8, 0xBF)
  else (0xC0, 0xDF)

/-- The region that a word lies in, by its lock bit. -/
def wordRegion (w : Nat) : Option Nat :=
  if w < 0x08 then some 0
  else if w < 0x10 then some 1
  else if w < 0x30 then some 2
  else if w < 0x70 then some (3 + (w - 0x30) / 0x10)
  else if w < 0xB0 then some (7 + (w - 0x70) / 0x10)
  else if w < 0xB8 then none
  else if w < 0xC0 then some 11
  else if w < 0xE0 then some 12
  else none

/-- The seal of a region's data (R384). -/
def sealOf (rd : Nat → Word) (i : Nat) : Word :=
  let r := regionWords i
  let bytes := (List.range (r.2 - r.1)).flatMap fun k => natLe 4 (rd (r.1 + k)).toNat
  BitVec.ofNat 32 (0x5EA1 * 65536 + (crc16 bytes).toNat)

def sealOk (rd : Nat → Word) (i : Nat) : Bool := rd (regionWords i).2 = sealOf rd i

/-- The voted security word, lock bits and trim word of port die `d` (R386). -/
def votedSec (rd : Nat → Word) : Word := majority (rd 0xB2) (rd 0xB3) (rd 0xB4)
def votedLock (rd : Nat → Word) : Word := majority (rd 0xB5) (rd 0xB6) (rd 0xB7)
def votedTrim (rd : Nat → Word) (d : Nat) : Word := majority (rd (0x10 + d)) (rd (0x18 + d)) (rd (0x20 + d))

/-- The state of a region: 0 OPEN, 1 SEALED, 2 SEALED_INCOMPLETE (R384). -/
def regionState (rd : Nat → Word) (i : Nat) : Nat :=
  if (votedLock rd).getLsbD i then (if sealOk rd i then 1 else 2) else 0

/-- Slot `k` is revoked in either copy (R387). -/
def slotRevoked (rd : Nat → Word) (k : Nat) : Bool := (rd 0xB0).getLsbD k || (rd 0xB1).getLsbD k

/-- Slot `k` is usable (R387). -/
def slotUsable (rd : Nat → Word) (k : Nat) : Bool :=
  let a := regionState rd (3 + k)
  let b := regionState rd (7 + k)
  (a = 1 || b = 1) && !slotRevoked rd k && a != 2 && b != 2

/-- The hash that key slot `k` holds, through copy A if that is SEALED. -/
def slotHash (rd : Nat → Word) (k : Nat) : List Byte :=
  let base := if regionState rd (3 + k) = 1 then 0x30 + 0x10 * k else 0x70 + 0x10 * k
  (List.range 12).flatMap fun i => natLe 4 (rd (base + i)).toNat

/-- The identity or the key region is invalid in both copies (R387). -/
def fuseBad (rd : Nat → Word) : Bool :=
  (regionState rd 0 != 1 && regionState rd 1 != 1) ||
  (List.range 4).any fun k => regionState rd (3 + k) = 2 && regionState rd (7 + k) = 2

/-- The words that hold critical bits (R386). -/
def criticalWords : List Nat := (List.range 24).map (0x10 + ·) ++ (List.range 6).map (0xB2 + ·)

/-- The 1 bits of a word. -/
def ones (w : Word) : Nat := ((List.range 32).filter fun i => w.getLsbD i).length

/-- Weak bits among the critical words, saturating at 255. -/
def weakCount (rd mg : Nat → Word) : Nat :=
  min 255 (criticalWords.foldl (fun n w => n + ones (rd w &&& ~~~ mg w)) 0)

/-- The bits that a list of lower positions sets. -/
def bitsOf (n : Nat) (p : Nat → Bool) : Nat := (List.range n).foldl (fun v i => v + (p i).toNat * 2 ^ i) 0

/-! ### Fuse sense (R385-R388) -/

/-- The identity registers, through the identity copy that is SEALED (R387, R464). -/
def loadIdentity (rd : Nat → Word) (s : State) : State :=
  let base := if regionState rd 0 = 1 then 0 else 8
  setReg R.GLB_ORDER (BitVec.ofNat 32 (F.GLB_ORDER_CODE.get (rd (base + 5))))
    (setReg R.GLB_DATE (rd (base + 4) &&& 0xFFFFFF00)
      (setReg R.GLB_LOT (rd (base + 3)) (setReg R.GLB_SERIAL_LO (rd (base + 1)) (setReg R.GLB_VIDPID (rd base) s))))

/-- What fuse sense puts into the OTP_ registers and latches. -/
def loadOtp (rd mg : Nat → Word) (s : State) : State :=
  let stat := 2 ^ 31 + (decide (regionState rd 2 ≠ 1)).toNat * 2 ^ 30 + (decide (regionState rd 0 ≠ 1)).toNat * 2 ^ 29 +
    bitsOf 4 (slotUsable rd) * 2 ^ 25
  let crit := ((votedSec rd).getLsbD 0).toNat * 2 ^ 31 + ((votedSec rd).getLsbD 1).toNat * 2 ^ 30 +
    bitsOf 4 (slotRevoked rd) * 2 ^ 26 + (votedLock rd).toNat % 2 ^ 13 * 2 ^ 13 + weakCount rd mg
  let region := (List.range 13).foldl (fun v i => v + regionState rd i * 4 ^ i) 0
  let s1 := setReg R.OTP_REGION (BitVec.ofNat 32 region)
    (setReg R.OTP_CRIT (BitVec.ofNat 32 crit) (setReg R.OTP_STAT (BitVec.ofNat 32 stat) s))
  forEach (List.range 0xE0) (fun w t => setReg (R.OTP_DATA w) (rd w) t) s1

/-- Serial number bits 63:32, of the identity copy in use (R464). -/
def State.serialHi (s : State) : Word :=
  if !s.flag R.OTP_STAT F.OTP_STAT_SENSED || s.flag R.BOOT_STAT F.BOOT_STAT_FUSEBAD then 0
  else tabGet 0 s.otp.norm (s.fld R.OTP_STAT F.OTP_STAT_IDSRC * 8 + 2)

/-- The boot phase (Table 14-12). -/
def State.phase (s : State) : Nat := s.fld R.BOOT_STAT F.BOOT_STAT_PHASE

def setPhase (v : Nat) (s : State) : State := setFld R.BOOT_STAT F.BOOT_STAT_PHASE v s

/-- Boot has failed (R366): the record of class 0x31. -/
def bootFailed (s : State) : State :=
  let t := setPhase 7 s
  post .management 0x31 0xFFFF (t.reg R.BOOT_FAIL) (t.fld R.BOOT_FWVER ⟨16, 16⟩) t

/-- The voted critical trim words reach the latches of their port dies (R386). -/
def latchTrims (rd : Nat → Word) (s : State) : State :=
  forEach (List.range 8) (fun d => updDie d fun x => { x with trim := votedTrim rd d }) s

/-- Step 1 of boot. -/
def fuseSense (s : State) : State :=
  let s1 := latchTrims s.fuseWord (loadOtp s.fuseWord s.fuseMargin s)
  let s2 := { s1 with otp := { s1.otp with norm := s.fuse, rrAt := s.tb.usec
                                           marg := (List.range 256).foldl (fun t w => tabSet 0 t w (s.fuseMargin w)) [] } }
  let s3 := setFlag R.BOOT_STAT F.BOOT_STAT_SECURE ((votedSec s.fuseWord).getLsbD 0) s2
  if fuseBad s.fuseWord then bootFailed (setFld R.BOOT_STAT F.BOOT_STAT_FUSEBAD 1 s3)
  else setPhase 1 (loadIdentity s.fuseWord s3)

/-- The boot controller and the fuse controller run: they pause while MCLK is stopped (R336, R349). -/
def State.bootRuns (s : State) : Bool := !s.clk.porst && !s.clk.mclkLost && !s.clk.quiet

def execFuseSense (s : State) : Host.Outcome State Fault Refusal :=
  .next (if s.bootRuns && s.phase = 0 && !s.flag R.OTP_STAT F.OTP_STAT_SENSED then fuseSense s else s)

/-! ### Re-reading in service (R389) -/

/-- `OTP_RRCFG.MIN` minutes of USEC have passed since fuse sense or the last re-read of the interval (log 174). -/
def State.rereadDue (s : State) : Bool :=
  s.flag R.OTP_STAT F.OTP_STAT_SENSED &&
    60000000 * clampTo 10 10080 (s.fld R.OTP_RRCFG F.OTP_RRCFG_MIN) ≤ s.since s.otp.rrAt

/-- The critical bits of the security word. -/
def secBits : Word := 3

/-- The words whose critical value, weak bits or region state differ from those of fuse sense: a voted word counts under its
first copy, a region under its seal word. -/
def rereadDiffs (rd mg rd0 mg0 : Nat → Word) : List Nat :=
  ((List.range 8).filter fun d => votedTrim rd d != votedTrim rd0 d).map (0x10 + ·) ++
  (if votedSec rd &&& secBits = votedSec rd0 &&& secBits then [] else [0xB2]) ++
  (if votedLock rd &&& 0x1FFF = votedLock rd0 &&& 0x1FFF then [] else [0xB5]) ++
  (criticalWords.filter fun w => ones (rd w &&& ~~~ mg w) != ones (rd0 w &&& ~~~ mg0 w)) ++
  ((List.range 13).filter fun i => regionState rd i != regionState rd0 i).map fun i => (regionWords i).2

/-- Each difference is counted, recorded and reported. -/
def fuseDiff (rd mg : Nat → Word) (w : Nat) (s : State) : State :=
  let s1 := setFld R.OTP_RRSTAT F.OTP_RRSTAT_LASTW w (incFld R.OTP_RRSTAT F.OTP_RRSTAT_DIFFS s)
  post .management 0x34 w (rd w) (weakCount rd mg) (raiseSum F.FLT_SUM_FUSE s1)

/-- The re-read; `drift` lists words that now read otherwise than the array stands, with both reads. -/
def fuseReread (drift : List (BitVec 8 × Word × Word)) (s : State) : State :=
  let now (w : Nat) : Option (Word × Word) := (drift.find? fun e => e.1.toNat = w).map (·.2)
  let rd (w : Nat) : Word := match now w with | some v => v.1 | none => s.fuseWord w
  let mg (w : Nat) : Word := match now w with | some v => v.2 | none => s.fuseMargin w
  let s1 := forEach (rereadDiffs rd mg (tabGet 0 s.otp.norm) (tabGet 0 s.otp.marg)) (fuseDiff rd mg) s
  if s1.otp.reread then
    setReg R.OTP_PSTAT 0 { s1 with otp := { s1.otp with reread := false } }
  else s1

/-- The re-read of the interval: a quiet plane wakes for it (R350), and the next interval begins. -/
def intervalReread (s : State) : State :=
  if s.rereadDue then
    let t := wakeUp 6 s
    { t with otp := { t.otp with rrAt := t.tb.usec } }
  else s

/-- A re-read runs when the interval is over or `REREAD` has asked for it; one that falls due while a command runs starts when the
command ends (Table 15-5). -/
def execFuseReread (drift : List (BitVec 8 × Word × Word)) (s : State) : Host.Outcome State Fault Refusal :=
  .next (if !s.clk.porst && !s.clk.mclkLost && s.otp.cmd.isNone && (s.rereadDue || s.otp.reread) then
      fuseReread drift (intervalReread s)
    else s)

/-! ### Programming (R390-R394) -/

inductive OtpOp where
  | blow | lock | reread
deriving DecidableEq, Repr

def OtpOp.code : OtpOp → Nat
  | .blow => 1 | .lock => 2 | .reread => 3

/-- The words that a `BLOW` of word `w` programs. -/
def blowWords (w : Nat) : List Nat :=
  if 0xB2 ≤ w && w < 0xB5 then [0xB2, 0xB3, 0xB4] else if 0xB5 ≤ w && w < 0xB8 then [0xB5, 0xB6, 0xB7] else [w]

/-- `OTP_PGMEN` permits word `w`. The lock-bit words have no bit there. -/
def State.wordPermitted (s : State) (w : Nat) : Bool :=
  match wordRegion w with
  | some i => s.flag R.OTP_PGMEN (F.OTP_PGMEN_REG.bit i)
  | none =>
    if w = 0xB0 || w = 0xB1 then s.flag R.OTP_PGMEN F.OTP_PGMEN_REV
    else if 0xB2 ≤ w && w < 0xB5 then s.flag R.OTP_PGMEN F.OTP_PGMEN_SEC
    else false

/-- The region's latched lock bit is 1, or a LOCK has locked it since `PORST_N`. -/
def State.regionLocked (s : State) (i : Nat) : Bool :=
  s.flag R.OTP_CRIT (F.OTP_CRIT_LOCK.bit i) || tabGet false s.otp.locked i

/-- `VPP`, in mV, lies in its window: 6.5 V ± 3 % (Table 15-3). -/
def vppOk (vpp : Nat) : Bool := 6305 ≤ vpp && vpp ≤ 6695

/-- The first code of Table 15-3 whose condition holds. -/
def State.otpRefusal (s : State) (op : OtpOp) (vpp : Nat) : Option Nat :=
  let a := s.fld R.OTP_PADDR F.OTP_PADDR_ADDR
  if s.flag R.OTP_PSTAT F.OTP_PSTAT_BUSY then some 1
  else if s.phase != 6 then some 2
  else if !vppOk vpp then some 3
  else match op with
  | .reread => none
  | .blow =>
    if 0xE0 ≤ a then some 4
    else if !s.wordPermitted a then some 5
    else if (match wordRegion a with | some i => s.regionLocked i | none => false) then some 6
    else if (blowWords a).any fun w => s.fuseWord w &&& ~~~ s.reg R.OTP_PDATA != 0 then some 10
    else none
  | .lock =>
    let i := a % 16
    if 12 < i || !s.flag R.OTP_PGMEN (F.OTP_PGMEN_REG.bit i) then some 5
    else if s.regionLocked i then some 6
    else if !sealOk s.fuseMargin i then some 7
    else none

/-- A keyed write of `OTP_PCMD` by the management plane. -/
def otpCommand (op : OtpOp) (vpp : Nat) (s : State) : State :=
  match s.otpRefusal op vpp with
  | some c => setFld R.OTP_PSTAT F.OTP_PSTAT_CODE c s
  | none =>
    let s1 := setFld R.OTP_PSTAT F.OTP_PSTAT_BUSY 1 s
    let run (l : Bool) : Option OtpCmd :=
      some { lock := l, addr := s.fld R.OTP_PADDR F.OTP_PADDR_ADDR, data := s.reg R.OTP_PDATA, start := s.clock }
    match op with
    | .reread => { s1 with otp := { s1.otp with reread := true } }
    | .blow => { s1 with otp := { s1.otp with cmd := run false } }
    | .lock => { s1 with otp := { s1.otp with cmd := run true } }

def execOtpBlow (vpp : Nat) (s : State) : Host.Outcome State Fault Refusal :=
  .next (access .host R.OTP_PCMD (otpCommand .blow vpp) s)

def execOtpLock (vpp : Nat) (s : State) : Host.Outcome State Fault Refusal :=
  .next (access .host R.OTP_PCMD (otpCommand .lock vpp) s)

def execOtpReread (vpp : Nat) (s : State) : Host.Outcome State Fault Refusal :=
  .next (access .host R.OTP_PCMD (otpCommand .reread vpp) s)

/-- The words and the bits that a command programs. -/
def OtpCmd.words (c : OtpCmd) : List Nat := if c.lock then [0xB5, 0xB6, 0xB7] else blowWords c.addr
def OtpCmd.bits (c : OtpCmd) : Word := if c.lock then BitVec.ofNat 32 (2 ^ (c.addr % 16)) else c.data

/-- Bits of a word are blown and pass the margin read. A blown bit never returns to 0. -/
def blowBits (w : Nat) (bits : Word) (s : State) : State :=
  { s with fuse := tabSet 0 s.fuse w (s.fuseWord w ||| bits), weak := tabSet 0 s.weak w (tabGet 0 s.weak w &&& ~~~ bits) }

/-- A bit that was pulsed and does not pass the margin read: weak, or still 0. A bit already solid is left alone. -/
def halfBlow (w i : Nat) (s : State) : State :=
  if (s.fuseMargin w).getLsbD i then s
  else
    let d := drawNat s
    let t := d.2
    let b := BitVec.ofNat 32 (2 ^ i)
    if (t.fuseWord w).getLsbD i || d.1 % 2 = 1 then
      { t with fuse := tabSet 0 t.fuse w (t.fuseWord w ||| b), weak := tabSet 0 t.weak w (tabGet 0 t.weak w ||| b) }
    else t

/-- The bits below position `i`. -/
def lowMask (i : Nat) : Word := BitVec.ofNat 32 (2 ^ i - 1)

/-- The bits that a command pulses, as word and bit, in their order (R391): the words ascending, each from bit 0 upward, without the
bits already solid. -/
def State.newBits (s : State) (c : OtpCmd) : List (Nat × Nat) :=
  c.words.flatMap fun w => ((List.range 32).filter fun i => c.bits.getLsbD i && !(s.fuseMargin w).getLsbD i).map fun i => (w, i)

/-- The number of the last of these bits, or an open value where there is none. -/
def lastBit (l : List (Nat × Nat)) (s : State) : Nat × State :=
  match l.getLast? with
  | some e => (e.2, s)
  | none => let d := drawNat s; (d.1 % 32, d.2)

/-- The new bits that stand before bit `i` of copy `k`. -/
def State.before (s : State) (c : OtpCmd) (k i : Nat) : List (Nat × Nat) :=
  (s.newBits c).takeWhile fun e => e != (c.words.getD k 0, i)

/-- A programming command ends with `code` and a bit number. -/
def otpEnd (c : OtpCmd) (code bit : Nat) (s : State) : State :=
  let s1 := setReg R.OTP_PSTAT (BitVec.ofNat 32 (code * 2 ^ 27 + bit % 32)) { s with otp := { s.otp with cmd := none } }
  post .management 0x35 c.addr c.data ((if c.lock then 2 else 1) * 16 + code) s1

/-- All pulses are made and verified: the `DEBUG_KILL` latch follows at once (R393), and a region that was locked counts as
locked (R392). -/
def otpDone (c : OtpCmd) (s : State) : State :=
  let l := s.newBits c
  let s1 := forEach c.words (fun w t => blowBits w c.bits t) s
  let s2 := if c.lock then { s1 with otp := { s1.otp with locked := tabSet false s1.otp.locked (c.addr % 16) true } }
    else if 0xB2 ≤ c.addr && c.addr < 0xB5 && c.data.getLsbD 1 then setFld R.OTP_CRIT F.OTP_CRIT_DEBUG_KILL 1 s1
    else s1
  let b := lastBit l s2
  otpEnd c 0 b.1 b.2

/-- The command stops in copy `k` after the bits below `i`; bit `i` stays half blown. -/
def otpStop (c : OtpCmd) (k i : Nat) (s : State) : State :=
  let s1 := forEach (c.words.take k) (fun w t => blowBits w c.bits t) s
  let w := c.words.getD k 0
  let s2 := blowBits w (c.bits &&& lowMask i) s1
  if c.bits.getLsbD i then halfBlow w i s2 else s2

/-- A command ends when its bits are programmed, or when bit `i` of copy `k` has not verified after four pulses; each pulse with its
margin read takes 12 µs (R391). -/
def programmingEnds (c : OtpCmd) (fail : Option (Fin 3 × Fin 32)) (s : State) : State :=
  match fail with
  | none => if s.past c.start (12 * (s.newBits c).length) then otpDone c s else s
  | some (k, i) =>
    if (s.newBits c).contains (c.words.getD k 0, i.val) && k < c.words.length &&
        s.past c.start (12 * (s.before c k i).length + 48) then
      otpEnd c 9 i (otpStop c k i s)
    else s

def execProgrammingCommandEnded (fail : Option (Fin 3 × Fin 32)) (s : State) : Host.Outcome State Fault Refusal :=
  .next (match s.otp.cmd with
    | some c => if s.bootRuns then programmingEnds c fail s else s
    | none => s)

/-- `VPP` leaves its window when `n` of the new bits are complete (R391): the pulse in progress ends, and `BIT` names the last bit
completed, which is open where none is. -/
def vppLost (c : OtpCmd) (n : Nat) (s : State) : State :=
  let l := s.newBits c
  let s1 := match l[n]? with
    | some e => otpStop c (c.words.idxOf e.1) e.2 s
    | none => s
  let b := lastBit (l.take n) s1
  otpEnd c 8 b.1 b.2

def execVppLost (n : Nat) (s : State) : Host.Outcome State Fault Refusal :=
  .next (match s.otp.cmd with
    | some c => if s.bootRuns && n < (s.newBits c).length && s.past c.start (12 * n) then vppLost c n s else s
    | none => s)

/-! ### The test access port (R395) -/

def setTap (n : Nat) (s : State) : State := { s with tap := n }

/-- `DEBUG_KILL` is latched. -/
def State.debugKill (s : State) : Bool := s.flag R.OTP_CRIT F.OTP_CRIT_DEBUG_KILL

/-- The boundary register captures the pins, whose levels are open, and `data` is shifted through it, first bit first (R11: boundary
scan). -/
def scanBoundary (data : List Bool) (s : State) : State :=
  let d := drawNat s
  let l := (List.range Config.boundaryBits).map (fun i => d.1.testBit i) ++ data
  { d.2 with tdo := l.take data.length, bsr := l.drop data.length }

/-- EXTEST is loaded: it drives every port to OFF until `PORST_N`. -/
def loadExtest (s : State) : State :=
  forEach (List.range 512) goOff { (setTap 0 s) with clk := { s.clk with extest := true } }

def execTapExtest (data : List Bool) (s : State) : Host.Outcome State Fault Refusal := .next (scanBoundary data (loadExtest s))

def execTapSamplePreload (data : List Bool) (s : State) : Host.Outcome State Fault Refusal :=
  .next (scanBoundary data (setTap 1 s))

/-- IDCODE: the identification register is shifted out, least significant bit first. -/
def execTapIdcode (s : State) : Host.Outcome State Fault Refusal :=
  .next { (setTap 2 s) with tdo := (List.range 32).map fun i => i = 0 || Config.idcode.getLsbD i }

/-- A 4-bit opcode is loaded: BYPASS for 0xF and for each opcode that Table 15-4 does not list, and for DEBUG and MEMACC once
`DEBUG_KILL` is latched. -/
def loadOpcode (op : Nat) (s : State) : State :=
  if op = 0 then loadExtest s
  else if op = 1 || op = 2 || ((op = 8 || op = 9) && !s.debugKill) then setTap op s
  else setTap 15 s

def execTapBypass (op : BitVec 4) (s : State) : Host.Outcome State Fault Refusal := .next (loadOpcode op.toNat s)

end Sys2Proof.Machine
end

