-- ==== Sys2Proof/Machine/Boot.lean ====
section
/-! DEFINITION. Start-up (chapter 14): `PORST_N`, the flash devices, the cabinet image and its checks, boot release, the
settings record, powered hours and the background refresh. -/
namespace Sys2Proof.Machine

/-! ### `PORST_N` (R336, R337, R354, Table 15-5) -/

/-- A programming command that `PORST_N` cuts off: how far its pulses have come is open. -/
def otpCut (s : State) : State :=
  match s.otp.cmd with
  | none => s
  | some c =>
    let k := drawNat s
    let i := drawNat k.2
    otpStop c (k.1 % c.words.length) (i.1 % 33) i.2

/-- `PORST_N` cuts the work on a flash device: the settings copy being written is invalid, and so is the header copy written last
unless that write has ended; of a device being refreshed any one copy may be the one (R381). What is open is the free value `d`
(log 168). -/
def Nvm.cut (d : Nat) (n : Nvm) : Nvm :=
  { Nvm.init with torn := match n.writing with
      | some 4 => d % 5 :: n.torn
      | some k => if k < 2 && d % 2 = 0 then n.torn else k :: n.torn
      | none => n.torn }

/-- `PORST_N` low: everything at reset but the fuse array, the flash devices and what waits outside. -/
def porstAssert (s : State) : State :=
  let t := otpCut s
  let a := drawNat t
  let b := drawNat a.2
  { State.reset with fuse := t.fuse, weak := t.weak, log := { Log.init with ringA := t.log.ringA, ringB := t.log.ringB },
                     nvmA := t.nvmA.cut a.1, nvmB := t.nvmB.cut b.1, fresh := b.2.fresh, pending := t.pending }

def execPorstNAssert (s : State) : Host.Outcome State Fault Refusal := .next (porstAssert s)

/-- `PORST_N` is released: the timebase starts in ACQUIRE, the hub units calibrate, the boot sequence begins, and the level of
`ADDR2`-`ADDR0` is taken (R398); the first record of the log. -/
def porstRelease (addr : Nat) (s : State) : State :=
  let s1 := forEach (List.range 4) (fun c => updChan c fun x => { x with resetAt := s.clock })
    { s with clk := { s.clk with porst := false, mgmtReset := false } }
  post .management 0x30 0 0 0 (setFld R.TWM_STAT F.TWM_STAT_SADDR (0x38 + addr) (startCal 33 (startCal 32 s1)))

def execPorstNRelease (addr : Fin 8) (s : State) : Host.Outcome State Fault Refusal :=
  .next (if s.clk.porst then porstRelease addr s else s)

/-! ### Flash devices and headers (R355-R357, R364) -/

/-- The little-endian value of `n` bytes at an offset of a list. -/
def leOf (l : List Byte) (off n : Nat) : Nat := leNat ((l.drop off).take n)

/-- A boot header copy, if it is valid (R357). -/
def parseHdr (l : List Byte) : Option BootHdr :=
  let a := leOf l 8 1
  let p := leOf l 9 1
  let g := leOf l 10 1
  let flags := leOf l 11 1
  if 64 ≤ l.length && leOf l 0 4 = 0x48423531 && leOf l 0x3C 4 = (crc32 (l.take 0x3C)).toNat &&
      a ≤ 2 && (p ≤ 2 || p = 0xFF) && g ≤ 2 && a != p && a != g && p != g then
    some { gen := leOf l 4 4, active := a, previous := if p = 0xFF then none else some p, staging := g,
           trial := flags % 2 = 1, staged := flags / 2 % 2 = 1, pwrhrs := leOf l 12 4, lastref := leOf l 16 4 }
  else none

/-- The device's header: of its two copies the valid one with the higher `GEN`. -/
def bestHdr (x y : Option BootHdr) : Option BootHdr :=
  match x, y with
  | some a, some b => if a.gen < b.gen then some b else some a
  | some a, none => some a
  | none, b => b

/-- The device is not failed (R355). -/
def flashGood (x : FlashDev) : Bool := x.sfdp && 64 ≤ x.mib.toNat && x.erase64

/-- What discovery reads of a device. A copy whose write `PORST_N` has cut is invalid (R381). -/
def flashNvm (torn : List Nat) (x : FlashDev) : Nvm :=
  { Nvm.init with
    ok := flashGood x
    hdr0 := if flashGood x && 0 ∉ torn then parseHdr x.copy0 else none
    hdr1 := if flashGood x && 1 ∉ torn then parseHdr x.copy1 else none
    torn := torn }

/-- The device's header. -/
def Nvm.hdr (n : Nvm) : Option BootHdr := bestHdr n.hdr0 n.hdr1

/-- Header copy 0 is the device's header. -/
def Nvm.first (n : Nvm) : Bool :=
  match n.hdr0, n.hdr1 with
  | some a, some b => decide (b.gen ≤ a.gen)
  | some _, none => true
  | none, _ => false

/-- A header is written: the other copy is erased and programmed (R357). -/
def Nvm.putHdr (h : BootHdr) (n : Nvm) : Nvm :=
  if n.first then { n with hdr1 := some h, writing := some 1, torn := n.torn.filter (· ≠ 1) }
  else { n with hdr0 := some h, writing := some 0, torn := n.torn.filter (· ≠ 0) }

/-- The two slots that a header contributes, in the order in which they are tried (R364). -/
def BootHdr.tries (h : BootHdr) : Option Nat × Option Nat :=
  if h.trial then (h.previous, some h.active) else (some h.active, h.previous)

/-- The candidates, numbered in the order in which they are tried; a retry adds the staged images (R366). -/
def candidates (a b : Option BootHdr) (retry : Bool) : List (Nat × Option Nat) :=
  let aFirst : Bool := match a, b with
    | some x, some y => decide (y.gen ≤ x.gen)
    | some _, none => true
    | none, _ => false
  let p := if aFirst then a else b
  let q := if aFirst then b else a
  let one (i : Nat) (h : Option BootHdr) (f : BootHdr → Option Nat) : List (Nat × Option Nat) :=
    match h with
    | some x => [(i, f x)]
    | none => []
  let stage (i : Nat) (h : Option BootHdr) : List (Nat × Option Nat) :=
    match h with
    | some x => if retry && x.staged then [(i, some x.staging)] else []
    | none => []
  one 0 p (fun h => h.tries.1) ++ one 1 q (fun h => h.tries.1) ++ one 2 p (fun h => h.tries.2) ++
    one 3 q (fun h => h.tries.2) ++ stage 4 a ++ stage 5 b

def updBoot (f : Boot → Boot) (s : State) : State := { s with boot := f s.boot }

/-- A candidate's outcome (Table 14-6). -/
def setOutcome (i code : Nat) (s : State) : State :=
  if i < 4 then setFld R.BOOT_FAIL ⟨8 * i, 8⟩ code s else setFld R.BOOT_FAILS ⟨8 * (i - 4), 8⟩ code s

/-- The next candidate whose slot is not empty is read; with none left boot has failed. -/
def nextCand : List (Nat × Option Nat) → State → State
  | [], s => bootFailed (updBoot (fun b => { b with cands := [], img := [] }) s)
  | (i, none) :: l, s => nextCand l (setOutcome i 1 s)
  | (i, some k) :: l, s => setPhase 2 (updBoot (fun b => { b with cands := (i, some k) :: l, img := [] }) s)

/-- The powered hours of the first header stand in the registers (R378). -/
def loadHours (h : Option BootHdr) (s : State) : State :=
  match h with
  | some x =>
    setReg R.BOOT_LASTREF (BitVec.ofNat 32 x.lastref) (setReg R.BOOT_PWRHRS (BitVec.ofNat 32 x.pwrhrs)
      (updBoot (fun b => { b with hdrHours := x.pwrhrs }) s))
  | none => s

/-- Step 2a. -/
def flashDiscovery (a b : FlashDev) (s : State) : State :=
  let x := flashNvm s.nvmA.torn a
  let y := flashNvm s.nvmB.torn b
  let size := (if x.ok then a.mib.toNat else 0) * 65536 + (if y.ok then b.mib.toNat else 0)
  let s1 := setReg R.BOOT_NVSIZE (BitVec.ofNat 32 size) { s with nvmA := x, nvmB := y }
  let s2 := setFlag R.BOOT_STAT F.BOOT_STAT_NVB_OK y.ok (setFlag R.BOOT_STAT F.BOOT_STAT_NVA_OK x.ok s1)
  let trial (h : Option BootHdr) : Bool := match h with | some v => v.trial | none => false
  let s3 := if trial x.hdr || trial y.hdr then setFld R.BOOT_STAT F.BOOT_STAT_TRIALFB 1 s2 else s2
  let s4 := if s.boot.retry then s3 else loadHours (bestHdr x.hdr y.hdr) s3
  nextCand (candidates x.hdr y.hdr s.boot.retry) s4

def execFlashDiscovery (a b : FlashDev) (s : State) : Host.Outcome State Fault Refusal :=
  .next (if s.bootRuns && s.phase = 1 then flashDiscovery a b s else s)

/-! ### The cabinet image (R358-R360, Table 14-3, Table 14-4) -/

/-- An entry of the section table. -/
structure Sec where
  typ : Nat
  dest : Nat
  ofs : Nat
  len : Nat
  hash : List Byte
deriving DecidableEq, Repr

def imgNsec (b : List Byte) : Nat := leOf b 6 2
def imgLen (b : List Byte) : Nat := leOf b 8 4
def imgVer (b : List Byte) : Word := BitVec.ofNat 32 (leOf b 12 4)

/-- `BOOT_IMGINFO` of an image (Table 14-12). -/
def imgInfo (b : List Byte) : Word :=
  BitVec.ofNat 32 (leOf b 0x10 1 * 2 ^ 24 + leOf b 0x11 1 * 2 ^ 16 + leOf b 0x12 1 * 2 ^ 8 + leOf b 0x13 1 % 4 * 2 ^ 6)

def imgSecs (b : List Byte) : List Sec :=
  (List.range (imgNsec b)).map fun i =>
    let o := 0xA0 + 64 * i
    { typ := leOf b o 4, dest := leOf b (o + 4) 4, ofs := leOf b (o + 8) 4, len := leOf b (o + 12) 4,
      hash := (b.drop (o + 16)).take 48 }

/-- The bytes of a section. -/
def Sec.bytes (x : Sec) (b : List Byte) : List Byte := (b.drop x.ofs).take x.len

/-- Two sections do not overlap. -/
def Sec.apart (x y : Sec) : Bool := x.ofs + x.len ≤ y.ofs || y.ofs + y.len ≤ x.ofs

def pairwiseApart : List Sec → Bool
  | [] => true
  | x :: l => l.all x.apart && pairwiseApart l

/-- The header and the section table: 0, or outcome 0x02 or 0x03. -/
def imageForm (b : List Byte) : Nat :=
  let n := imgNsec b
  if leOf b 0 4 != 0x43414231 || leOf b 4 2 != 1 || n < 1 || 64 < n || imgLen b < 0x100 + 64 * n ||
      8388608 < imgLen b then 2
  else if (imgSecs b).all (fun x => 1 ≤ x.typ && x.typ ≤ 3 && x.ofs % 256 = 0 && x.len % 8 = 0 &&
      0xA0 + 64 * n ≤ x.ofs && x.ofs + x.len + 96 ≤ imgLen b) && pairwiseApart (imgSecs b) then 0
  else 3

/-- Every section has its `HASH`. -/
def imageHashes (b : List Byte) : Bool := (imgSecs b).all fun x => sha384 (x.bytes b) = x.hash

/-- The signature verifies against `PUBKEY` (R358). -/
def imageSigned (b : List Byte) : Bool :=
  ecdsaOk ((b.drop 0x20).take 97) (b.take (imgLen b - 96)) ((b.drop (imgLen b - 96)).take 96)

/-- `PUBKEY` is the key of a usable slot (R363). -/
def State.imageKey (s : State) (b : List Byte) : Bool :=
  let k := leOf b 0x13 1
  let rd := tabGet 0 s.otp.norm
  k < 4 && slotUsable rd k && sha384 ((b.drop 0x20).take 97) = slotHash rd k

/-- The entries of the register lists. -/
def imageRegs (b : List Byte) : List (Nat × Word) :=
  ((imgSecs b).filter fun x => x.typ = 1).flatMap fun x =>
    (List.range (x.len / 8)).map fun i => (leOf b (x.ofs + 8 * i) 4, BitVec.ofNat 32 (leOf b (x.ofs + 8 * i + 4) 4))

/-- The code section of channel `c`. -/
def imageCode (b : List Byte) (c : Nat) : Option Sec := (imgSecs b).find? fun x => x.typ = 2 && x.dest.testBit c

/-- A settings register (R374). -/
def savedReg (a : Nat) : Bool := settingReg a || a = R.UPD_OWNER

/-- Outcome 0x07: an entry names another register, or one twice. -/
def listOk (l : List (Nat × Word)) : Bool :=
  l.all (fun e => imageReg e.1 || savedReg e.1) && (l.map (·.1)).eraseDups.length = l.length

/-- Outcome 0x08: each channel receives one code section of at most 196,608 bytes. -/
def codeOk (b : List Byte) : Bool :=
  let code := (imgSecs b).filter fun x => x.typ = 2
  code.all (fun x => x.len ≤ 196608) &&
    (List.range 4).all fun c => (code.filter fun x => x.dest.testBit c).length = 1

/-! ### Value checks (R365) -/

/-- A register's value under a register list; one that no entry names keeps its reset value (R359). -/
def listVal (l : List (Nat × Word)) (a : Nat) : Word :=
  match l.lookup a, findReg a with
  | some v, some r => v &&& BitVec.ofNat 32 r.rw
  | _, _ => regReset a

def inRange (lo hi v : Nat) : Bool := lo ≤ v && v ≤ hi

/-- A present feeder (R218, R256), and the field ranges of any feeder. -/
def feederOk (v : Nat → Word) (f : Nat) : Bool :=
  let cfg := v (R.FDR_CFG f)
  let win := v (R.FDR_VWIN f)
  let vnom := F.FDR_CFG_VNOM.get cfg
  let der := v (R.FDR_DER f)
  F.FDR_DER_DERATE.get der ≤ 1000 && F.FDR_DER_SAGDER.get der ≤ 1000 && 1 ≤ F.FDR_DER_RECOV.get der &&
  (F.FDR_CFG_PRES.get cfg = 0 ||
    (F.FDR_CFG_TYPE.get cfg < 4 && inRange 120 600 vnom && F.FDR_VWIN_VDOWN.get win < F.FDR_VWIN_VSAG.get win &&
     F.FDR_VWIN_VSAG.get win < vnom && vnom < F.FDR_VWIN_VOVER.get win && v (R.FDR_PCAP f) != 0 && v (R.FDR_ILIM f) != 0 &&
     F.ADC_FVSCL_VFS.get (v (R.ADC_FVSCL f)) != 0 && F.ADC_FISCL_IFS.get (v (R.ADC_FISCL f)) != 0))

/-- The feeders on the enabled legs of a port. -/
def wiredFeeders (v : Nat → Word) (p : Nat) : List Nat :=
  let cfg := v (R.PRT_CFG p)
  (if F.PRT_CFG_LEGA_EN.get cfg = 1 then [F.PRT_CFG_FEED_A.get cfg] else []) ++
    (if F.PRT_CFG_LEGB_EN.get cfg = 1 then [F.PRT_CFG_FEED_B.get cfg] else [])

/-- The class, wiring and ranges of a port (Table 04-9, R218). -/
def portOk (v : Nat → Word) (p : Nat) : Bool :=
  let cls := F.PRT_CFG_CLASS.get (v (R.PRT_CFG p))
  let fs := wiredFeeders v p
  cls != 3 && inRange 500 20000 (F.PRT_SENSE_RSNS.get (v (R.PRT_SENSE p))) &&
  inRange 1000 50000 (F.PRT_FTRIP_I_FT.get (v (R.PRT_FTRIP p))) &&
  F.CHN_PPOL_PH.get (v (R.CHN_PPOL (p / 128) (p % 128))) != 3 &&
  (cls = 0 || (fs != [] && fs.all (fun f => F.FDR_CFG_PRES.get (v (R.FDR_CFG f)) = 1) &&
    !(fs.length = 2 && fs.getD 0 0 = fs.getD 1 1)))

/-- The groups above `g` end at group 0 within `n` steps (R32). -/
def groupRooted (v : Nat → Word) : Nat → Nat → Bool
  | 0, g => g = 0
  | n + 1, g => g = 0 || groupRooted v n (F.PLC_GRP_PARENT.get (v (R.PLC_GRP g)))

/-- A PPS or AVS object (R178). -/
def augOk (kind : Nat) (w : Word) : Bool :=
  let lo := F.CHN_PROF_VMIN.get w
  let hi := F.CHN_PROF_VMAX.get w
  let i := F.CHN_PROF_IMAX.get w
  if kind = 1 then 33 ≤ lo && hi ≤ 210 && i % 5 = 0 && i ≤ 500 else lo = 150 && hi ≤ 480 && i ≤ 240

/-- One range of a profile: fixed objects in rising voltage, then the other kind, then empty words. `ph` is 0 among the fixed
objects, 1 among the others, 2 among the empty words. -/
def profRange (kind : Nat) (volts : List Nat) : Nat → Nat → List Word → Bool
  | _, _, [] => true
  | ph, last, w :: l =>
    let k := F.CHN_PROF_KIND.get w
    let v := F.CHN_PROF_VMAX.get w
    if k = 3 then profRange kind volts 2 last l
    else if k = 0 then
      ph = 0 && v ∈ volts && last < v && F.CHN_PROF_VMIN.get w = 0 && F.CHN_PROF_IMAX.get w ≤ 500 &&
        profRange kind volts 0 v l
    else k = kind && ph ≤ 1 && augOk kind w && profRange kind volts 1 last l

/-- The profile rules of R178. -/
def profileOk (l : List Word) : Bool :=
  let first := l.headD 0
  F.CHN_PROF_KIND.get first = 0 && F.CHN_PROF_VMAX.get first = 50 &&
  profRange 1 [50, 90, 150, 200] 0 0 (l.take 7) && profRange 2 [280, 360, 480] 0 0 (l.drop 7) &&
  (l.filter fun w => F.CHN_PROF_KIND.get w = 2).length ≤ 1

/-- The heavy profile rules of R208 that do not concern feeders. -/
def heavyOk : Nat → Nat → List Word → Bool
  | _, _, [] => true
  | ph, last, w :: l =>
    let k := F.CHN_HPROF_TYPE.get w
    let v := F.CHN_HPROF_VMAX.get w
    let i := F.CHN_HPROF_IMAX.get w
    let fine := v ≤ 560 && i ≤ 500 && v * i ≤ 280000
    if k = 3 then heavyOk 2 last l
    else if k = 0 then ph = 0 && last < v && fine && F.CHN_HPROF_VMIN.get w = 0 && heavyOk 0 v l
    else k = 1 && ph ≤ 1 && fine && 50 ≤ F.CHN_HPROF_VMIN.get w && F.CHN_HPROF_VMIN.get w < v && heavyOk 1 last l

def profWords (v : Nat → Word) (c j : Nat) : List Word := (List.range 11).map fun w => v (R.CHN_PROF c j w)
def heavyWords (v : Nat → Word) (c j : Nat) : List Word := (List.range 4).map fun h => v (R.CHN_HPROF c j h)

/-- Profile `j` of channel `c` is named by a TC or HV port (R178). -/
def profNamed (v : Nat → Word) (c j : Nat) : Bool :=
  (List.range 128).any fun k =>
    F.PRT_CFG_CLASS.get (v (R.PRT_CFG (128 * c + k))) != 0 && F.CHN_PPOL_PROF.get (v (R.CHN_PPOL c k)) = j

/-- The profiles of channel `c` (R178, R208). -/
def profilesOk (v : Nat → Word) (c : Nat) : Bool :=
  (List.range 16).all fun j =>
    let l := profWords v c j
    (!(profNamed v c j || l.any fun w => F.CHN_PROF_KIND.get w != 3) || profileOk l) && heavyOk 0 0 (heavyWords v c j)

/-- No heavy object of an HV port exceeds its lowest feeder less 2.0 V (R208). -/
def heavyFits (v : Nat → Word) (p : Nat) : Bool :=
  F.PRT_CFG_CLASS.get (v (R.PRT_CFG p)) != 2 ||
  (heavyWords v (p / 128) (F.CHN_PPOL_PROF.get (v (R.CHN_PPOL (p / 128) (p % 128))))).all fun w =>
    F.CHN_HPROF_TYPE.get w = 3 ||
    (wiredFeeders v p).all fun f => F.CHN_HPROF_VMAX.get w + 20 ≤ F.FDR_CFG_VNOM.get (v (R.FDR_CFG f))

/-- The device-wide and channel fields with a stated range. -/
def fieldsOk (v : Nat → Word) : Bool :=
  F.ANG_CFG_SRC.get (v R.ANG_CFG) != 3 && inRange 1 8191 (F.ANG_CFG_NOMAMP.get (v R.ANG_CFG)) &&
  F.ANG_HOLDISL_HOLD_MS.get (v R.ANG_HOLDISL) ≤ 2000 &&
  inRange 35000 75000 (F.ANG_HOLDISL_ISLF.get (v R.ANG_HOLDISL)) &&
  (List.range 8).all (fun k => F.PLC_SHEDLV_PCT.get (v (R.PLC_SHEDLV k)) ≤ 100) &&
  1 ≤ F.BOOT_ADMCFG_DIV.get (v R.BOOT_ADMCFG) && inRange 100 10000 (F.LNK_CFG_HOLD_MS.get (v R.LNK_CFG)) &&
  (List.range 4).all fun c => inRange 1 8 (F.CHN_HVCFG_DTRY.get (v (R.CHN_HVCFG c))) &&
    inRange 5 1000 (F.CRS_CFG_WD_MS.get (v (R.CRS_CFG c))) && 1 ≤ F.CRS_CFG_RTMAX.get (v (R.CRS_CFG c))

/-- Outcome 0x09 (R365). -/
def valuesOk (v : Nat → Word) : Bool :=
  fieldsOk v && (List.range 8).all (feederOk v) && (List.range 512).all (portOk v) &&
  (List.range 256).all (groupRooted v 256) && (List.range 4).all (profilesOk v) && (List.range 512).all (heavyFits v)

/-- The checks of step 2d: 0, or outcome 0x07, 0x08 or 0x09. -/
def imageValues (b : List Byte) : Nat :=
  let l := imageRegs b
  if !listOk l then 7 else if !codeOk b then 8 else if !valuesOk (listVal l) then 9 else 0

/-! ### Steps 2b to 2d -/

/-- The current candidate fails: the code RAMs it wrote are cleared and the next one is tried (R362). -/
def candFail (code : Nat) (s : State) : State :=
  let s1 := forEach s.boot.wrote (fun c t => wordsWritten c 0 0x30000 (clearMem c 0 0x30000 t)) s
  let s2 := updBoot (fun b => { b with wrote := [] }) s1
  match s.boot.cands with
  | (i, _) :: l => nextCand l (setOutcome i code s2)
  | [] => s2

/-- The channels of code section `x`. -/
def Sec.chans (x : Sec) : List Nat := (List.range 4).filter fun c => x.typ = 2 && x.dest.testBit c

/-- Step 2b: every section goes to its destination as it is read (R362). -/
def imageRead (b : List Byte) (s : State) : State :=
  match imageForm b with
  | 0 =>
    let s1 := forEach (imgSecs b) (fun x t => forEach x.chans (fun c u => writeCode c (x.bytes b) u) t) s
    let s2 := updBoot (fun w => { w with wrote := (imgSecs b).flatMap Sec.chans }) s1
    if imageHashes b then setPhase 3 (updBoot (fun w => { w with img := b }) s2) else candFail 4 s2
  | code => candFail code s

def execImageRead (img : Option (List Byte)) (s : State) : Host.Outcome State Fault Refusal :=
  .next (if s.bootRuns && s.phase = 2 then
      match img with
      | some b => imageRead b s
      | none => candFail 0x0A s
    else s)

/-- Step 2c (R363). -/
def signatureCheck (s : State) : State :=
  let b := s.boot.img
  let ok := imageSigned b
  if s.flag R.BOOT_STAT F.BOOT_STAT_SECURE then
    if !ok then candFail 5 s
    else if !s.imageKey b then candFail 6 s
    else setPhase 4 (updBoot (fun w => { w with sigOk := ok }) s)
  else setPhase 4 (updBoot (fun w => { w with sigOk := ok }) s)

def execSignatureCheck (s : State) : Host.Outcome State Fault Refusal :=
  .next (if s.bootRuns && s.phase = 3 then signatureCheck s else s)

/-- A device's header is rewritten with `GEN` + 1 and the powered hours (R357). -/
def Nvm.rewrite (hours : Nat) (f : BootHdr → BootHdr) (n : Nvm) : Nvm :=
  match n.ok, n.hdr with
  | true, some h => n.putHdr { f h with gen := (h.gen + 1) % 2 ^ 32, pwrhrs := hours }
  | _, _ => n

/-- The header of each usable device is rewritten. -/
def writeHeaders (f : BootHdr → BootHdr) (s : State) : State :=
  let h := (s.reg R.BOOT_PWRHRS).toNat
  updBoot (fun b => { b with hdrHours := h }) { s with nvmA := s.nvmA.rewrite h f, nvmB := s.nvmB.rewrite h f }

/-- Slot `k` becomes active, the old active slot previous and the remaining slot staging. -/
def BootHdr.activate (k : Nat) (h : BootHdr) : BootHdr :=
  if h.active = k then { h with trial := false, staged := false }
  else { h with active := k, previous := some h.active, staging := 3 - k - h.active, trial := false, staged := false }

/-- Candidate `i` in slot `k` is accepted (Table 14-12). -/
def acceptImage (i k : Nat) (s : State) : State :=
  let b := s.boot.img
  let s1 := setReg R.BOOT_IMGINFO (imgInfo b) (setReg R.BOOT_FWVER (imgVer b) s)
  let s2 := setFlag R.BOOT_STAT F.BOOT_STAT_SIGOK s.boot.sigOk
    (setFld R.BOOT_STAT F.BOOT_STAT_SLOT k (setFld R.BOOT_STAT F.BOOT_STAT_CAND i s1))
  let hash (c : Nat) : List Byte := match imageCode b c with
    | some x => x.hash
    | none => []
  let s3 := updBoot (fun w => { w with codeHash := (List.range 4).foldl (fun t c => tabSet [] t c (hash c)) [] }) s2
  setPhase 5 (if i < 4 then s3 else writeHeaders (BootHdr.activate k) s3)

/-- Step 2d. -/
def valueCheck (s : State) : State :=
  match imageValues s.boot.img, s.boot.cands with
  | 0, (i, some k) :: _ => acceptImage i k s
  | code, _ => candFail code s

def execValueCheck (s : State) : Host.Outcome State Fault Refusal :=
  .next (if s.bootRuns && s.phase = 4 then valueCheck s else s)

/-! ### The settings record (R374-R377) -/

/-- A settings record copy, if it is valid (R375). -/
def parseSet (l : List Byte) : Option SetRec :=
  let n := leOf l 12 4
  if leOf l 0 4 = 0x53544753 && n ≤ 8180 && 0x14 + 8 * n ≤ l.length &&
      leOf l (0x10 + 8 * n) 4 = (crc32 (l.take (0x10 + 8 * n))).toNat then
    some { seq := leOf l 4 4, sver := leOf l 8 1,
           entries := (List.range n).map fun i =>
             (leOf l (0x10 + 8 * i) 4, BitVec.ofNat 32 (leOf l (0x14 + 8 * i) 4)) }
  else none

/-- The valid copy with the highest `SEQ`, and its number; ties go to the earlier. -/
def bestSet (l : List (Nat × Option SetRec)) : Option (Nat × SetRec) :=
  l.foldl (fun best e =>
    match e.2, best with
    | some r, some b => if b.2.seq < r.seq then some (e.1, r) else some b
    | some r, none => some (e.1, r)
    | none, b => b) none

/-- A value reaches its register, and the port die that holds a copy of it (R139, R269). -/
def loadReg (a : Nat) (v : Word) (s : State) : State :=
  match findReg a with
  | none => s
  | some r =>
    let w := v &&& BitVec.ofNat 32 r.rw
    if a = R.PLC_GRP 0 then s
    else if 0x100000 ≤ a then writePortReg ((a - 0x100000) / 0x100) a w s
    else if 0x4000 ≤ a && a < 0x4440 then writeUnit ((a - 0x4000) / 0x20) a w s
    else setReg a w s

/-- The image's values and the settings `vals`: a setting that neither names stands at its reset value, calibration factors
apart (R359, R376). -/
def loadValues (vals : List (Nat × Word)) (s : State) : State :=
  let old := (s.regs.map (·.1)).filter fun a =>
    savedReg a && !(0x4000 ≤ a && a < 0x4440 && a % 0x20 = 0x10)
  forEach vals (fun e t => loadReg e.1 e.2 t) (forEach old (fun a t => loadReg a (regReset a) t) s)

/-- Step 3 ends: the register entries of the image and the settings stand in their registers, and `BOOT_SETSTAT` shows what was
applied. -/
def settled (copy result : Nat) (seq : Nat) (entries : List (Nat × Word)) (s : State) : State :=
  let l := imageRegs s.boot.img
  let good := entries.filter fun e => savedReg e.1
  let ign := entries.length - good.length
  let stat := copy * 2 ^ 30 + result * 2 ^ 27 + ign
  let s1 := loadValues (l ++ good) { s with saved := good.foldl (fun t e => tabSet none t e.1 (some e.2)) [] }
  let s2 := updBoot (fun b => { b with ready := true, defaults := l.filter fun e => savedReg e.1 })
    (setReg R.BOOT_SETSTAT (BitVec.ofNat 32 stat) s1)
  post .management 0x32 0 (BitVec.ofNat 32 seq) (result * 256 + min 255 ign) s2

/-- Step 3 (R376). -/
def settingsApply (a0 a1 b0 b1 : Option SetRec) (s : State) : State :=
  let on (n : Nvm) (k : Nat) (r : Option SetRec) : Option SetRec := if n.ok && k ∉ n.torn then r else none
  let x := { s.nvmA with set0 := on s.nvmA 2 a0, set1 := on s.nvmA 3 a1 }
  let y := { s.nvmB with set0 := on s.nvmB 2 b0, set1 := on s.nvmB 3 b1 }
  let s1 := { s with nvmA := x, nvmB := y }
  let info := s.reg R.BOOT_IMGINFO
  match bestSet [(0, x.set0), (1, x.set1), (2, y.set0), (3, y.set1)] with
  | none => settled 0 1 0 [] s1
  | some (i, r) =>
    if r.sver < F.BOOT_IMGINFO_SVER_MIN.get info then settled i 2 r.seq [] s1
    else if F.BOOT_IMGINFO_SVER.get info < r.sver then settled i 3 r.seq [] s1
    else settled i 0 r.seq r.entries s1

def execSettingsApply (a0 a1 b0 b1 : Option (List Byte)) (s : State) : Host.Outcome State Fault Refusal :=
  .next (if s.bootRuns && s.phase = 5 && !s.boot.ready then
      settingsApply (a0.bind parseSet) (a1.bind parseSet) (b0.bind parseSet) (b1.bind parseSet) s
    else s)

/-! ### Boot release (R361, R368, R369, R372) -/

def execBootCalibrationDone (s : State) : Host.Outcome State Fault Refusal :=
  .next (if s.bootRuns && (List.range 34).all (fun u => (s.adcOf u).scanOn && !s.calBusy u) then
      updBoot (fun b => { b with calDone := true }) s
    else s)

/-- What has been loaded begins to act (R362): the fixed offsets of the sources, the ramp of ISLAND towards its frequency, and the
bound of a hold in the port dies. -/
def actValues (s : State) : State :=
  let w := (s.reg R.FLT_HOLDCFG).toNat % 65536
  forEach (List.range 8) (fun d t => if t.linkUp d then updDie d (fun x => { x with holdS := w }) t else t)
    (fixPhofs (rampAgain s))

/-- The first ports are admitted: those of priority 7, those with a kept `ADMIN_EN`, and the first of each order. -/
def firstAdmissions (s : State) : State :=
  if s.flag R.OTP_STAT F.OTP_STAT_TRIMBAD then s
  else
    let p7 := s.flag R.BOOT_ADMCFG F.BOOT_ADMCFG_P7ALL
    let now := (List.range 512).filter fun p => s.cls p != 0 && !s.disWaits p &&
      (tabGet Adm.waiting s.adm p = .kept || (p7 && tabGet Adm.waiting s.adm p = .waiting && s.ownPrio p = 7))
    admitRound (forEach now admitPort s)

/-- A course is released with a cause of START (Table 11-5). -/
def releaseCourse (c : Nat) (s : State) : State := startCourse c (setFld (R.CRS_STAT c) F.CRS_STAT_RCAUSE 1 s)

/-- The code section of a channel that was reset before release is written anew (Table 14-10). -/
def rewriteCode (c : Nat) (s : State) : State :=
  match imageCode s.boot.img c with
  | some x => writeCode c (x.bytes s.boot.img) s
  | none => s

/-- Steps 4 and 5. -/
def bootRelease (s : State) : State :=
  let s0 := setFld R.BOOT_LOCK F.BOOT_LOCK_LOCKED 1 s
  let s1 := actValues (forEach s0.boot.recode rewriteCode s0)
  let s2 := forEach (List.range 4) releaseCourse (setFld R.FLT_SUM F.FLT_SUM_BOOT 0 s1)
  let s3 := setPhase 6 (setReg R.BOOT_TREL (s2.tb.usec.truncate 32) s2)
  let s4 := forEach (List.range 4) startLink (setLevel (showLevel s3))
  let s5 := post .management 0x31 (s4.fld R.BOOT_STAT F.BOOT_STAT_CAND) (s4.reg R.BOOT_FAIL)
    (s4.fld R.BOOT_FWVER ⟨16, 16⟩) s4
  firstAdmissions (updBoot (fun b => { b with cands := [], wrote := [], recode := [] }) s5)

/-- Boot waits for every channel to leave reset (Table 14-10). -/
def execBootRelease (s : State) : Host.Outcome State Fault Refusal :=
  .next (if s.bootRuns && s.phase = 5 && s.boot.ready && s.boot.calDone && (List.range 4).all s.chanUp then bootRelease s
         else s)

/-- `BOOT_CMD.RETRY` (R366, R367). -/
def cmdRetry (s : State) : State :=
  if s.phase = 7 && !s.flag R.BOOT_STAT F.BOOT_STAT_FUSEBAD then
    setPhase 1 (setReg R.BOOT_FAILS 0 (setReg R.BOOT_FAIL 0 (updBoot (fun b => { b with retry := true, ready := false }) s)))
  else s

def execBootRetry (s : State) : Host.Outcome State Fault Refusal := .next (access .host R.BOOT_CMD cmdRetry s)

/-! ### Writing the settings record (R377) -/

def cmdSave (s : State) : State := if s.phase = 6 then updBoot (fun b => { b with saveNow := true }) s else s

def execBootSave (s : State) : Host.Outcome State Fault Refusal := .next (access .host R.BOOT_CMD cmdSave s)

/-- A saved setting's default: the image's, or its reset value. -/
def State.settingDefault (s : State) (a : Nat) : Word :=
  match s.boot.defaults.lookup a, findReg a with
  | some v, some r => v &&& BitVec.ofNat 32 r.rw
  | _, _ => regReset a

/-- The saved settings that differ from their defaults. -/
def State.changedSettings (s : State) : List (Nat × Word) :=
  s.saved.filterMap fun e =>
    match e.2 with
    | some v => if v = s.settingDefault e.1 then none else some (e.1, v)
    | none => none

/-- The settings copy with the lower `SEQ`, an invalid one first: 2 or 3. -/
def Nvm.lowSet (n : Nvm) : Nat :=
  match n.set0, n.set1 with
  | some a, some b => if a.seq ≤ b.seq then 2 else 3
  | some _, none => 3
  | none, _ => 2

/-- Settings copy `k`, 2 or 3, as it now stands. -/
def Nvm.putSet (k : Nat) (r : Option SetRec) (n : Nvm) : Nvm := if k = 2 then { n with set0 := r } else { n with set1 := r }

/-- The lower copy is erased and programmed: until that is verified it is invalid. -/
def Nvm.beginSet (n : Nvm) : Nvm := { n.putSet n.lowSet none with writing := some n.lowSet }

/-- The copy being written is verified, or has failed and stays invalid. -/
def Nvm.endSet (r : SetRec) (done : Bool) (n : Nvm) : Nvm :=
  match n.writing with
  | some k => { (if done then n.putSet k (some r) else n) with writing := none, torn := n.torn.filter (· ≠ k) }
  | none => n

/-- The highest `SEQ` of the four copies. -/
def State.lastSeq (s : State) : Nat :=
  [s.nvmA.set0, s.nvmA.set1, s.nvmB.set0, s.nvmB.set1].foldl (fun m r => match r with | some x => max m x.seq | none => m) 0

/-- The delay of `WB_S` seconds since the last saved setting write has ended, or a record is asked for at once (R377, R140). -/
def State.writebackDue (s : State) : Bool :=
  s.phase = 6 && s.boot.wb.isNone && (s.boot.saveNow || (s.flag R.BOOT_SETSTAT F.BOOT_SETSTAT_DIRTY &&
    s.past s.boot.dirtyAt (1000000 * clampTo 1 255 (s.fld R.BOOT_SETCFG F.BOOT_SETCFG_WB_S))))

def setWb (w : Option Wb) (s : State) : State := updBoot (fun b => { b with wb := w }) s

/-- A new record is made: it goes to NVM_A first. -/
def wbBegin (s : State) : State :=
  let r : SetRec := { seq := (s.lastSeq + 1) % 2 ^ 32, sver := s.fld R.BOOT_IMGINFO F.BOOT_IMGINFO_SVER,
                      entries := s.changedSettings }
  let s1 := updBoot (fun b => { b with saveNow := false }) s
  if s.nvmA.ok then setWb (some ⟨r, false, false, false⟩) { s1 with nvmA := s1.nvmA.beginSet }
  else if s.nvmB.ok then setWb (some ⟨r, true, false, false⟩) { s1 with nvmB := s1.nvmB.beginSet }
  else setFld R.BOOT_SETSTAT F.BOOT_SETSTAT_WBERR 1 s1

/-- The record has been tried on each device: `DIRTY` ends when both are programmed, unless a saved setting was written meanwhile
(Table 14-10). -/
def wbEnd (w : Wb) (okB : Bool) (s : State) : State :=
  let both := w.okA && okB
  let s1 := setFlag R.BOOT_SETSTAT F.BOOT_SETSTAT_WBERR (!both) (setWb none s)
  let s2 := if both && !w.again then setFld R.BOOT_SETSTAT F.BOOT_SETSTAT_DIRTY 0 s1 else s1
  post .management 0x32 1 (BitVec.ofNat 32 w.record.seq)
    (s2.fld R.BOOT_SETSTAT F.BOOT_SETSTAT_RESULT * 256 + min 255 (s2.fld R.BOOT_SETSTAT F.BOOT_SETSTAT_IGNORED)) s2

/-- The device being written has its copy, or the copy has failed; NVM_B follows NVM_A. -/
def wbNext (w : Wb) (ok : Bool) (s : State) : State :=
  if w.onB then wbEnd w ok { s with nvmB := s.nvmB.endSet w.record ok }
  else
    let s1 := { s with nvmA := s.nvmA.endSet w.record ok }
    if s1.nvmB.ok then setWb (some { w with onB := true, okA := ok }) { s1 with nvmB := s1.nvmB.beginSet }
    else wbEnd { w with okA := ok } false s1

/-- A step of the write-back: it begins when due, and `ok` says of the copy being written whether it has been programmed. -/
def writeback (ok : Bool) (s : State) : State :=
  match s.boot.wb with
  | some w => wbNext w ok s
  | none => if s.writebackDue then wbBegin (wakeUp 6 s) else s

def execSettingsWriteback (ok : Bool) (s : State) : Host.Outcome State Fault Refusal :=
  .next (if s.mgmtUp then writeback ok s else s)

/-! ### Powered hours and the background refresh (R378-R380) -/

/-- Reason codes 0x01 to 0x04 of Table 18-4, or 0. -/
def State.shipRefusal (s : State) : Nat :=
  let low (f : Nat) : Bool := s.flag (R.FDR_CFG f) F.FDR_CFG_PRES && s.fld (R.FDR_CFG f) F.FDR_CFG_TYPE = 2 &&
    F.FDR_STAT_RESLOW.get (s.fdrRow f).stat = 1
  if s.flag R.PLC_INPUTS F.PLC_INPUTS_MANV then 1
  else if s.flag R.PLC_INPUTS F.PLC_INPUTS_EMERG then 2
  else if (List.range 8).any low then 3
  else if s.flag R.UPD_OWNER F.UPD_OWNER_LOCK then 4
  else 0

/-- An update stages, activates or is in trial: a refresh waits (R380, R455). -/
def State.updateBusy (s : State) : Bool :=
  let st := s.fld R.UPD_STAT F.UPD_STAT_STATE
  1 ≤ st && st ≤ 6

def setRefState (v : Nat) (s : State) : State := setFld R.BOOT_REFSTAT F.BOOT_REFSTAT_STATE v s

def refreshRecord (src reason : Nat) (s : State) : State :=
  post .management 0x33 src (s.reg R.BOOT_PWRHRS) reason s

/-- A refresh that is due or asked for starts, waits or is refused. -/
def tryRefresh (s : State) : State :=
  if 2 ≤ s.fld R.BOOT_REFSTAT F.BOOT_REFSTAT_STATE || !(s.nvmA.ok || s.nvmB.ok) then s
  else if s.shipRefusal != 0 then
    refreshRecord 2 s.shipRefusal (setFld R.BOOT_REFSTAT F.BOOT_REFSTAT_REASON s.shipRefusal (setRefState 1 s))
  else if s.updateBusy then setRefState 1 s
  else
    refreshRecord 0 0 (setFld R.BOOT_REFSTAT F.BOOT_REFSTAT_PCT 0 (setRefState (if s.nvmA.ok then 2 else 3)
      (updBoot (fun b => { b with refWant := false }) s)))

def cmdRefresh (s : State) : State := tryRefresh (updBoot (fun b => { b with refWant := true }) s)

def execBootRefresh (s : State) : Host.Outcome State Fault Refusal := .next (access .host R.BOOT_CMD cmdRefresh s)

/-- The refresh interval in force (R140, Table 14-12). -/
def State.refHours (s : State) : Nat := clampTo 8766 175320 (s.fld R.BOOT_REFCFG F.BOOT_REFCFG_HOURS)

/-- A refresh is due, asked for, or was refused before. -/
def State.refreshDue (s : State) : Bool :=
  (s.reg R.BOOT_LASTREF).toNat + s.refHours ≤ (s.reg R.BOOT_PWRHRS).toNat || s.boot.refWant ||
    s.fld R.BOOT_REFSTAT F.BOOT_REFSTAT_STATE = 1

/-- One more powered hour. In quiet mode it counts as well, and a header write or a due refresh wakes the management plane (R350,
R378). -/
def poweredHour (s0 : State) : State :=
  let s1 := setReg R.BOOT_PWRHRS (s0.reg R.BOOT_PWRHRS + 1) s0
  let write : Bool := s1.boot.hdrHours + 24 ≤ (s1.reg R.BOOT_PWRHRS).toNat
  let s2 := if write then writeHeaders id (wakeUp 6 s1) else s1
  if s2.refreshDue then tryRefresh (wakeUp 6 s2) else s2

def execPoweredHour (s : State) : Host.Outcome State Fault Refusal :=
  .next (if !s.clk.porst && !s.clk.mclkLost then poweredHour s else s)

/-! ### The refresh of a device (R379) -/

/-- The images in the slots of a device, as a refresh reads them, verify: those of the roles that hold one. -/
def Nvm.imagesVerify (slots : List (List Byte)) (n : Nvm) : Bool :=
  match n.ok, n.hdr with
  | true, some h =>
    ([some h.active, h.previous, if h.staged then some h.staging else none].reduceOption).all fun k =>
      imageForm (slots.getD k []) = 0 && imageHashes (slots.getD k [])
  | _, _ => false

/-- The device being refreshed is NVM_A. -/
def State.refreshesA (s : State) : Bool := s.fld R.BOOT_REFSTAT F.BOOT_REFSTAT_STATE = 2

def setRefresh (r : Option Refresh) (s : State) : State := updBoot (fun b => { b with refresh := r }) s

/-- Changes the device being refreshed. -/
def updTarget (f : Nvm → Nvm) (s : State) : State :=
  if s.refreshesA then { s with nvmA := f s.nvmA } else { s with nvmB := f s.nvmB }

/-- The source is chosen: the other device when its images verify, or else the device itself, DESIGN CHOICE (log 169); the target's copies
are then erased and programmed. -/
def refreshVerify (own other : List (List Byte)) (s : State) : State :=
  let far := (if s.refreshesA then s.nvmB else s.nvmA).imagesVerify other
  updTarget (fun n => { n with writing := some 4 })
    (setRefresh (some { other := far, hashes := (if far then other else own).map sha384 }) s)

/-- A device takes the settings copies and the header of its source, its own `GEN` counting on. -/
def Nvm.refreshFrom (hours : Nat) (src n : Nvm) : Nvm :=
  let m := { n with set0 := src.set0, set1 := src.set1, torn := [], writing := none }
  match src.hdr with
  | some h => m.putHdr { h with gen := ((match n.hdr with | some g => g.gen | none => h.gen) + 1) % 2 ^ 32, pwrhrs := hours }
  | none => m

/-- The refresh of a device ends: the other follows, or the refresh is complete. -/
def refreshEnds (r : Refresh) (s : State) : State :=
  let h := s.reg R.BOOT_PWRHRS
  let src := if s.refreshesA = r.other then s.nvmB else s.nvmA
  let t := setRefresh none (updTarget (Nvm.refreshFrom h.toNat src) s)
  if t.refreshesA && t.nvmB.ok then setFld R.BOOT_REFSTAT F.BOOT_REFSTAT_PCT 0 (setRefState 3 t)
  else
    let s1 := writeHeaders (fun x => { x with lastref := h.toNat }) (setReg R.BOOT_LASTREF h t)
    refreshRecord 1 0 (setFld R.BOOT_REFSTAT F.BOOT_REFSTAT_PCT 0 (setRefState 0 s1))

/-- The result is verified: the slots hold what the source's held. Otherwise the device is rewritten again, DESIGN CHOICE (log 169). -/
def refreshResult (slots : List (List Byte)) (r : Refresh) (s : State) : State :=
  if slots.map sha384 = r.hashes then refreshEnds r s
  else setFld R.BOOT_REFSTAT F.BOOT_REFSTAT_PCT 0 (setRefresh none s)

def flashRefresh (k : RefreshStep) (s : State) : State :=
  match k, s.boot.refresh with
  | .verify own other, none => refreshVerify own other s
  | .block pct, some _ => setFld R.BOOT_REFSTAT F.BOOT_REFSTAT_PCT pct s
  | .result slots, some r => refreshResult slots r s
  | _, _ => s

def execFlashRefresh (k : RefreshStep) (s : State) : Host.Outcome State Fault Refusal :=
  .next (if s.bootRuns && 2 ≤ s.fld R.BOOT_REFSTAT F.BOOT_REFSTAT_STATE then flashRefresh k s else s)

end Sys2Proof.Machine
end

