-- ==== Sys2Proof/Machine/Resets.lean ====
section
/-! DEFINITION. Alerts (R410-R412), clock loss and return (R334, R335, Table 12-3), the management reset, failed management
accesses (R346-R348) and quiet mode (R349-R351). -/
namespace Sys2Proof.Machine

/-! ### Alerts (Table 16-14) -/

/-- A register has a bit in common with its enable register. -/
def State.both (s : State) (evt en : Nat) : Bool := s.reg evt &&& s.reg en != 0

/-- Port `p` contributes to `TWM_ASUM.PRT`. -/
def State.portAlert (s : State) (p : Nat) : Bool :=
  !s.amask p && (s.both (R.PRT_EVT p) (R.PRT_EVTEN p) || s.both (R.PRT_PDEVT p) (R.PRT_PDEVTEN p))

/-- Another device of the domain has an alert pending (R412). -/
def State.domAlert (s : State) : Bool := s.isRoot && s.fld R.TWM_ADEV F.TWM_ADEV_DEV != 0xFFFF

/-- The contributions of this device: bits 9:0 of `TWM_ASUM`. -/
def State.ownAlerts (s : State) : Nat :=
  bitsOf 10 fun i =>
    match i with
    | 0 => s.both R.ANG_EVT R.ANG_EVTEN
    | 1 => (List.range 32).any fun n => s.fld (R.TMU_STAT n) ⟨0, 5⟩ &&& s.fld (R.TMU_IEN n) F.TMU_IEN_AEN != 0
    | 2 => (List.range 512).any s.portAlert
    | 3 => (List.range 8).any fun f => s.both (R.FDR_EVT f) (R.FDR_EVTEN f)
    | 4 => s.both R.PLC_EVT R.PLC_EVTEN
    | 5 => s.both R.FLT_SUM R.FLT_AEN
    | 6 => (List.range 4).any fun c => s.both (R.CRS_EVT c) (R.CRS_EVTEN c)
    | 7 => s.both R.TWM_EVT R.TWM_EVTEN
    | 8 => s.both R.LNK_EVT R.LNK_EVTEN
    | _ => s.both R.UPD_EVT R.UPD_EVTEN

/-- `TWM_ASUM`. -/
def State.asum (s : State) : Nat := s.ownAlerts + s.domAlert.toNat * 1024

/-- The device would assert `ALERT_N` (R410). -/
def State.alertN (s : State) : Bool := s.asum != 0 && !s.flag R.TWM_STAT F.TWM_STAT_ARAHELD

/-- `FAULT_N` is asserted (R327), whatever clock has been lost. -/
def State.faultN (s : State) : Bool :=
  s.clk.porst || s.flag R.FLT_SUM F.FLT_SUM_BOOT || s.reg R.FLT_SUM &&& s.reg R.FLT_FEN != 0

/-- A write that leaves `TWM_ASUM` at 0 clears `ARAHELD` (R411). -/
def afterWrite (s : State) : State :=
  if s.flag R.TWM_STAT F.TWM_STAT_ARAHELD && s.asum = 0 then setFld R.TWM_STAT F.TWM_STAT_ARAHELD 0 s else s

/-! ### Clock loss and return (Table 12-3) -/

/-- The source number of class 0x1D. -/
def clockSrc : ClockId → Nat
  | .ref => 0
  | .pll c => 1 + c
  | .tclk => 5
  | .mclk => 6
  | .die d => 8 + d

/-- The status bit of a clock. -/
def clockFld : ClockId → Fld
  | .ref => F.FLT_CLKSTAT_REF
  | .pll c => F.FLT_CLKSTAT_PLL.bit c
  | .tclk => F.FLT_CLKSTAT_TCLK
  | .mclk => F.FLT_CLKSTAT_MCLK
  | .die d => F.FLT_CLKSTAT_PDOSC.bit d

/-- The registers of the management domain that a management reset clears. Settings, image-loaded registers and the owner
lock stand; the update's own state follows Table 18-7. -/
def mgmtAddr (a : Nat) : Bool :=
  0x8000 ≤ a && a < 0x10000 && !savedReg a && !imageReg a && !(R.UPD_STAT ≤ a && a ≤ R.UPD_TLEFT)

/-- The staged image is no longer marked (Table 18-3). -/
def unstage (s : State) : State := writeHeaders (fun h => { h with staged := false }) s

def setUpdState (v : Nat) (s : State) : State := setFld R.UPD_STAT F.UPD_STAT_STATE v s

def State.updState (s : State) : Nat := s.fld R.UPD_STAT F.UPD_STAT_STATE

/-- What a management reset does to an update: staging is abandoned (Table 18-7). -/
def updReset (s : State) : State :=
  let s1 := { s with upd := { s.upd with isOpen := false, reports := [], parts := [], bufs := [] } }
  if 1 ≤ s1.updState && s1.updState ≤ 3 then
    let t := unstage (setReg R.UPD_STAT 0 (setReg R.UPD_SESS 0 (setReg R.UPD_PROG 0x0FFF0000 s1)))
    { t with upd := Upd.init }
  else s1

/-- The management plane goes into reset: staged records, mailbox entries, links and the two-wire port are lost (Table 12-3,
Table 13-5). -/
def mgmtReset (s : State) : State :=
  let saddr := s.fld R.TWM_STAT F.TWM_STAT_SADDR
  let s1 := updReset s
  let s2 := { s1 with regs := tabDrop mgmtAddr s1.regs, lnk := [], enum := Enum.init, twm := Twm.init, mbx := [],
                      log := { s1.log with staged := [] },
                      clk := { s1.clk with mgmtReset := true, quiet := false } }
  let s3 := setFld R.TWM_STAT F.TWM_STAT_SADDR saddr s2
  forEach (List.range 4) (fun c t => if t.chanUp c then setFld R.CRU_PEER (F.CRU_PEER_MGT.bit c) 1 t else t) s3

/-- The response to a loss (Table 12-3), once its bit and `CLK` are set. -/
def lossResponse (k : ClockId) (s : State) : State :=
  match k with
  | .ref => s
  | .pll c => resetChannel c F.CRU_RCAUSE_PLL (setFlag R.CRU_STAT (F.CRU_STAT_CPLL.bit c) false s)
  | .tclk =>
    let s1 := setFld R.CRU_STAT F.CRU_STAT_TPLL 0 (setFld R.FLT_LINKSTAT F.FLT_LINKSTAT_DEVHOLD 1 s)
    forEach (List.range 8) (fun d t => if t.linkUp d && t.chanUp (d / 2) then enterHold d 2 t else t) s1
  | .mclk =>
    let s1 := mgmtReset (setFld R.CRU_STAT F.CRU_STAT_MPLL 0 s)
    { s1 with clk := { s1.clk with mclkLost := true } }
  | .die d => dieReset d s

/-- The least time in µs that a clock which has run well for 1 ms took since its loss: the monitor oscillator runs within ±5 % (R319);
the manual gives the monitor RC of a port die no accuracy. -/
def returnUs : ClockId → Nat
  | .die _ => 0
  | _ => 950

/-- A monitor declares a clock lost. The record of an MCLK loss finds the management plane in reset. -/
def clockLoss (k : ClockId) (s : State) : State :=
  let s0 := { s with clk := { s.clk with lostAt := tabSet 0 s.clk.lostAt (clockSrc k) s.clock } }
  let s1 := lossResponse k (raiseSum F.FLT_SUM_CLK (setFld R.FLT_CLKSTAT (clockFld k) 1 s0))
  post .control 0x1D (clockSrc k) 0 1 s1

/-- In quiet mode the MCLK monitor is suspended (R349). -/
def State.lossSeen (s : State) (k : ClockId) : Bool :=
  match k with
  | .mclk => !s.clk.mclkLost && !s.clk.quiet
  | _ => !s.flag R.FLT_CLKSTAT (clockFld k)

def execClockLoss (k : ClockId) (s : State) : Host.Outcome State Fault Refusal :=
  .next (if !s.clk.porst && s.lossSeen k then clockLoss k s else s)

/-- A lost clock has run well for 1 ms. TCLK's loss stands until `PORST_N`; MCLK's bit stands until it is read. -/
def clockReturn (k : ClockId) (s : State) : State :=
  let tell (t : State) : State := post .control 0x1D (clockSrc k) 0 2 t
  match k with
  | .ref => tell (setFld R.FLT_CLKSTAT F.FLT_CLKSTAT_REF 0 s)
  | .pll c => tell (setFlag R.CRU_STAT (F.CRU_STAT_CPLL.bit c) true (setFld R.FLT_CLKSTAT (F.FLT_CLKSTAT_PLL.bit c) 0 s))
  | .tclk => s
  | .mclk => tell (setFld R.CRU_STAT F.CRU_STAT_MPLL 1 { s with clk := { s.clk with mclkLost := false } })
  | .die d => tell (setFld R.FLT_CLKSTAT (F.FLT_CLKSTAT_PDOSC.bit d) 0 s)

def State.returnSeen (s : State) (k : ClockId) : Bool :=
  s.past (tabGet 0 s.clk.lostAt (clockSrc k)) (returnUs k) &&
    (match k with
      | .mclk => s.clk.mclkLost
      | _ => s.flag R.FLT_CLKSTAT (clockFld k))

def execClockReturn (k : ClockId) (s : State) : Host.Outcome State Fault Refusal :=
  .next (if !s.clk.porst && s.returnSeen k then clockReturn k s else s)

/-- The management reset is released; a header that shows `TRIAL` is a failure event (R452). -/
def mgmtRelease (s : State) : State :=
  let trial (n : Nvm) : Bool := match n.hdr with
    | some h => h.trial
    | none => false
  let s1 := showLevel { s with clk := { s.clk with mgmtReset := false } }
  if trial s1.nvmA || trial s1.nvmB then { s1 with upd := { s1.upd with failed := true } } else s1

def execManagementResetRelease (s : State) : Host.Outcome State Fault Refusal :=
  .next (if s.clk.mgmtReset && !s.clk.porst && !s.clk.mclkLost then mgmtRelease s else s)

/-- `REFCLK` leaves its limits: each PLL freezes its loop and runs on (R334). -/
def execRefclkLoss (s : State) : Host.Outcome State Fault Refusal := .next (setFld R.CRU_STAT F.CRU_STAT_REFOK 0 s)

def execRefclkReturn (s : State) : Host.Outcome State Fault Refusal := .next (setFld R.CRU_STAT F.CRU_STAT_REFOK 1 s)

/-! ### Failed management accesses (R347) -/

/-- An access unanswered after 1 ms is abandoned (R347); one through the window sets `WERR` (R405, R407). -/
def accessTimeout (a : Word) (write win : Bool) (s : State) : State :=
  let s1 := maErr 3 a s
  let s2 := if write then s1 else setBus 0xFFFFFFFF s1
  if win then
    raiseTwm F.TWM_EVT_WERR (if write then s2 else setReg R.TWM_LRD 0xFFFFFFFF s2)
  else s2

def execMgmtAccessTimeout (a : Word) (write win : Bool) (s : State) : Host.Outcome State Fault Refusal :=
  .next (if s.mgmtUp then accessTimeout a write win s else s)

/-! ### Quiet mode (R349-R351) -/

/-- Flash work of the boot controller is in progress: start-up before release or failure, a settings record asked for at once, a
refresh. -/
def State.flashBusy (s : State) : Bool :=
  s.phase < 6 || s.boot.saveNow || s.boot.wb.isSome || 2 ≤ s.fld R.BOOT_REFSTAT F.BOOT_REFSTAT_STATE

/-- The management plane is idle. A transaction is over within the step that brings it. -/
def State.mgmtIdle (s : State) : Bool :=
  !s.alertN && (List.range 4).all (fun n => !s.lnkUp n) && s.log.staged = [] && !s.flashBusy && !s.updateBusy &&
  s.upd.todo = [] && s.mbx = [] && s.log.held = [] && s.otp.cmd.isNone && !s.otp.reread

/-- The management plane is found busy, or idle without a break since it last was (R349). -/
def markBusy (s : State) : State := if s.mgmtIdle then s else { s with clk := { s.clk with idleAt := s.tb.usec } }

/-- It has been idle for `QIDLE_MS` ms of USEC (R349, R140). -/
def State.quietDue (s : State) : Bool :=
  s.mgmtUp && !s.clk.quiet && s.flag R.CRU_QCFG F.CRU_QCFG_QEN && s.mgmtIdle &&
    1000 * clampTo 10 60000 (s.fld R.CRU_QCFG F.CRU_QCFG_QIDLE_MS) ≤ s.since s.clk.idleAt

def execQuietEntry (s : State) : Host.Outcome State Fault Refusal :=
  .next (if s.quietDue then incFld R.CRU_QSTAT F.CRU_QSTAT_ENTRIES { s with clk := { s.clk with quiet := true } } else s)

/-- Scheduled management work has come (R350): a settings write-back, a fuse re-read or a flash refresh. -/
def State.workDue (s : State) : Bool := s.writebackDue || s.rereadDue || s.refreshDue

/-- A wake source is there: an address match comes from outside; the others stand in the state or among the commands that wait. -/
def State.wakeSource (s : State) (src : Fin 6) : Bool :=
  match src with
  | 0 => true
  | 1 => s.log.held != []
  | 2 => s.pending.any fun i => match i with
      | .mbxTakeRead _ | .mbxDone _ _ _ => true
      | _ => false
  | 3 => s.pending.any fun i => match i with
      | .signalDetect _ => true
      | _ => false
  | 4 => s.alertN
  | 5 => s.workDue

def execQuietWake (src : Fin 6) (s : State) : Host.Outcome State Fault Refusal :=
  .next (if s.wakeSource src then wakeUp (src + 1) s else s)

end Sys2Proof.Machine
end

