-- ==== Sys2Proof/Machine/Domain.lean ====
section
/-! DEFINITION. The states of the chain links (Table 17-1), enumeration (R429, R430), the domain feature level (R436, R437)
and the alert values of the tree (R435). -/
namespace Sys2Proof.Machine

/-! ### Alerts across the domain (R435) -/

/-- The values that arrived on the enumerated down links. -/
def State.downAlert (s : State) : Nat :=
  ([1, 2, 3] : List Nat).foldl (fun v k =>
    if s.flag (R.LNK_LSTAT k) F.LNK_LSTAT_ENUMD then min v (s.chainOf k).alert else v) 0xFFFF

/-- The lowest address in the device's subtree with an alert pending. -/
def State.alertValue (s : State) : Nat := min (if s.ownAlerts != 0 then s.myAddr else 0xFFFF) s.downAlert

/-- Sends the present value up. -/
def sendAlert (s : State) : State :=
  if s.lnkUp 0 then
    sendFrame 0 .alert 0 (natLe 2 s.alertValue) (updEnum (fun e => { e with sentUp := s.alertValue }) s)
  else s

/-- The root shows the lowest value of its down links; `DOM` rising clears `ARAHELD` (R411, R412). -/
def showAlert (s : State) : State :=
  let s1 := setFld R.TWM_ADEV F.TWM_ADEV_DEV s.downAlert s
  if s1.domAlert && !s.domAlert then setFld R.TWM_STAT F.TWM_STAT_ARAHELD 0 s1 else s1

/-- A changed alert value goes up, or into `TWM_ADEV` at the root. -/
def alertUpdate (s : State) : State :=
  if s.isRoot then showAlert s
  else if s.lnkUp 0 && s.alertValue != s.enum.sentUp then sendAlert s
  else s

def raiseUpd (f : Fld) (s : State) : State := raise R.UPD_EVT R.UPD_EVTEN f s

/-! ### What the root knows of the domain (R446) -/

/-- The state and reason of the device at address `a`, as the root knows them. -/
def State.reportOf (s : State) (a : Nat) : Option (Nat × Nat) :=
  if a = s.myAddr then some (s.updState, s.fld R.UPD_STAT F.UPD_STAT_REASON) else tabGet none s.upd.reports a

/-- The in-range devices of the enumeration. -/
def State.inSession (s : State) : List Nat :=
  let hi := min s.upd.hi (s.fld R.LNK_DOM F.LNK_DOM_COUNT - 1)
  (List.range (hi + 1 - s.upd.lo)).map (s.upd.lo + ·)

def State.counted (s : State) (a : Nat) : Bool :=
  match s.reportOf a with
  | some r => r.1 = s.upd.await
  | none => false

/-- A device has failed, or has refused what the session asks. -/
def State.failing (s : State) (a : Nat) : Bool :=
  match s.reportOf a with
  | some r => r.1 = 7 || (r.2 != 0 && r.1 != s.upd.await)
  | none => false

/-- The words of `UPD_DOK`, `UPD_DFAIL` and `UPD_DLAG`; before the first session at their reset values. -/
def State.domWords (s : State) : Word × Word × Word :=
  if !s.isRoot || s.upd.await = 0 then (0, 0xFFFF0000, 0xFFFF)
  else
    let l := s.inSession
    let bad := l.filter s.failing
    (BitVec.ofNat 32 (l.filter s.counted).length,
     BitVec.ofNat 32 (bad.headD 0xFFFF * 65536 + min 65535 bad.length),
     BitVec.ofNat 32 ((l.find? fun a => !s.counted a).getD 0xFFFF))

/-- Runs `f`; at the root `DOMCHG` is set when `UPD_DOK` or `UPD_DFAIL` changes. -/
def withDom (f : State → State) (s : State) : State :=
  let t := f s
  if s.isRoot && (t.domWords.1 != s.domWords.1 || t.domWords.2.1 != s.domWords.2.1) then raiseUpd F.UPD_EVT_DOMCHG t else t

/-! ### The level in force (R436, R437) -/

/-- The level in force becomes `v` (Table 17-12); frames that waited for it start. -/
def setLevelNow (v : Nat) (s : State) : State :=
  let s1 := forEach (List.range 4) (fun n => pumpLink n 4) <| setFlag R.LNK_STAT F.LNK_STAT_LVLOW (decide (v < s.ownLevel)) (setFld R.LNK_STAT F.LNK_STAT_DLEVEL v s)
  if s.domLevel = v then s1
  else
    post .management 0x38 0 (if s1.isRoot then BitVec.ofNat 32 (s1.fld R.LNK_DLOW F.LNK_DLOW_DEV) else 0) v
      (raiseLnk F.LNK_EVT_LEVEL s1)

/-! ### Enumeration (R429, R430) -/

/-- The request that waited for the enumeration goes out (R433). -/
def sendRequest (s : State) : State :=
  let go := s.twm.go
  let kind := go.toNat / 4096 % 16
  let payload := natLe 1 (kind * 16 + go.toNat / 1024 % 4) ++ natLe 1 (go.toNat % 256) ++ s.twm.buf
  if kind = 3 && s.levelNow < 2 then endRequest 3 [] s
  else routeFrame 0 (s.ownFrame .req (go.toNat / 65536) payload) (updTwm (fun t => { t with held := false, gen := some (s.fld R.LNK_GEN F.LNK_GEN_GEN % 256) }) s)

/-- The enumeration of this device's subtree is complete: ENUM_DONE goes up, or the root sets the level and broadcasts it. -/
def enumFinish (s : State) : State :=
  let e := s.enum
  let gen := s.fld R.LNK_GEN F.LNK_GEN_GEN
  let s1 := setFld R.LNK_STAT F.LNK_STAT_ENUMD 1 (updEnum (fun x => { x with run := false }) s)
  let s2 := raiseLnk F.LNK_EVT_ENUM s1
  if s2.isRoot then
    let s3 := withDom (fun t => setFld R.LNK_DLOW F.LNK_DLOW_DEV e.low (setFld R.LNK_DOM F.LNK_DOM_COUNT e.next t)) s2
    let s4 := post .management 0x37 0 (BitVec.ofNat 32 e.next) gen s3
    let s5 := setLevelNow e.lv s4
    let s6 := broadcastDown (s5.ownFrame .level 0 (natLe 1 e.lv ++ natLe 2 gen)) s5
    let s7 := setFlag R.LNK_STAT F.LNK_STAT_ENRUN e.owed
      (updEnum (fun x => { x with holdoff := e.owed, owed := false, holdAt := s.clock }) s6)
    if s7.twm.held then sendRequest s7 else s7
  else
    sendFrame 0 .enumDone 0 (natLe 4 (e.next - e.base) ++ natLe 1 e.lv ++ [0]) (post .management 0x37 s2.myAddr 0 gen s2)

/-- The device numbers its down links in turn, from the first of `l`. -/
def enumLinks : List Nat → State → State
  | [], s => enumFinish s
  | k :: l, s =>
    let s1 := setReg (R.LNK_RANGE k) 0 (setFld (R.LNK_LSTAT k) F.LNK_LSTAT_ENUMD 0 s)
    if !s1.lnkUp k then enumLinks l s1
    else if s1.enum.next ≤ 65535 then
      sendFrame k .enum 0 (natLe 2 s1.enum.next ++ natLe 2 (s1.fld R.LNK_GEN F.LNK_GEN_GEN))
        (updEnum (fun e => { e with link := k }) s1)
    else enumLinks l (raiseLnk F.LNK_EVT_OVFL (setFld R.LNK_STAT F.LNK_STAT_OVFL 1 s1))

/-- The down links after link `k`. -/
def linksAfter (k : Nat) : List Nat := ([1, 2, 3] : List Nat).filter (k < ·)

/-- The procedure of R429 begins with a base and a generation. -/
def enumBegin (base gen : Nat) (s : State) : State :=
  let lv := s.ownLevel
  let low := if s.isRoot && lv < 3 then 0 else 0xFFFF
  let s1 := setFld R.LNK_GEN F.LNK_GEN_GEN gen (setFld R.LNK_STAT F.LNK_STAT_ADDR base s)
  let s2 := setLevelNow 1 (setFld R.LNK_STAT F.LNK_STAT_OVFL 0 s1)
  enumLinks [1, 2, 3] (updEnum (fun e => { e with run := true, base := base, link := 0, next := base + 1, lv := lv,
                                                  low := low, holdoff := false }) s2)

/-- The root starts an enumeration. -/
def rootEnum (s : State) : State :=
  enumBegin 0 ((s.fld R.LNK_GEN F.LNK_GEN_GEN + 1) % 65536) (setFld R.LNK_STAT F.LNK_STAT_ENRUN 1 s)

/-- The lowest address below level 3 of a subtree on link `k` with addresses `lo` to `hi` whose lowest level is `lv`: the
partner's own level is known from its HELLO; deeper in the subtree the manual does not say how the root learns it. -/
def subtreeLow (k lo hi lv : Nat) (s : State) : Nat × State :=
  if 3 ≤ lv then (0xFFFF, s)
  else if hi ≤ lo || s.fld (R.LNK_LSTAT k) F.LNK_LSTAT_PLEVEL < 3 then (lo, s)
  else
    let d := drawNat s
    (lo + 1 + d.1 % (hi - lo), d.2)

/-- ENUM_DONE arrives from the link whose subtree is being numbered. -/
def enumDone (k count lv : Nat) (s : State) : State :=
  let lo := s.enum.next
  let hi := lo + count - 1
  let s1 := setReg (R.LNK_RANGE k) (BitVec.ofNat 32 (hi % 65536 * 65536 + lo))
    (setFld (R.LNK_LSTAT k) F.LNK_LSTAT_ENUMD 1 s)
  let w := if s1.isRoot then subtreeLow k lo hi lv s1 else (0xFFFF, s1)
  enumLinks (linksAfter k)
    (updEnum (fun e => { e with next := lo + count, lv := min e.lv lv, low := min e.low w.1, link := 0 }) w.2)

/-- `LNK_CMD.ENUM`: at once; while an enumeration runs, another is owed. -/
def cmdEnum (s : State) : State :=
  if !s.isRoot then s else if s.enum.run then restartHoldoff s else rootEnum s

def execEnumNow (s : State) : Host.Outcome State Fault Refusal := .next (access .host R.LNK_CMD cmdEnum s)

/-- The holdoff has run for `HOLD_MS` (R429, R140). -/
def State.holdoffOver (s : State) : Bool :=
  s.enum.holdoff && s.past s.enum.holdAt (1000 * clampTo 100 10000 (s.fld R.LNK_CFG F.LNK_CFG_HOLD_MS))

def execEnumerationStart (s : State) : Host.Outcome State Fault Refusal :=
  .next (if s.mgmtUp && s.isRoot && s.holdoffOver && !s.enum.run then rootEnum s else s)

/-! ### Link states (Table 17-1) -/

/-- What is under way on a link is abandoned. -/
def abandonFrames (n : Nat) (s : State) : State :=
  setFld (R.LNK_LSTAT n) F.LNK_LSTAT_CREDIT 0
    (updChain n (fun x => { x with wait := [], sent := [], rxSeq := [], ack := [], alert := 0xFFFF }) s)

/-- A link goes DOWN; a down link's range is emptied, and a device whose `LINK0` leaves UP is no longer enumerated: what it was numbering
below it is given up (log 177). An enumeration that waits for this link goes on to the next (R429, R430, R439). -/
def linkDown (n : Nat) (s : State) : State :=
  let up := s.lnkUp n
  let s1 := setLink n 0 (abandonFrames n s)
  if !up then s1
  else
    let s2 := raiseLnk F.LNK_EVT_DOWN s1
    if n = 0 then setFld R.LNK_STAT F.LNK_STAT_ENUMD 0 (updEnum (fun e => { e with run := false }) s2)
    else
      let s3 := setReg (R.LNK_RANGE n) 0 (setFld (R.LNK_LSTAT n) F.LNK_LSTAT_ENUMD 0 s2)
      if s3.enum.run && s3.enum.link = n then enumLinks (linksAfter n) (updEnum (fun e => { e with link := 0 }) s3) else s3

/-- Signal detect: a level that `SIGDET` shows; it wakes a quiet management plane (R350). -/
def execSignalDetect (n : Fin 4) (s : State) : Host.Outcome State Fault Refusal :=
  .next (if s.mgmtUp then startLink n (setFld (R.LNK_LSTAT n) F.LNK_LSTAT_SIGDET 1 (wakeUp 4 s)) else s)

/-- Signal detect is lost; a link that is UP waits for the loss rule. -/
def signalLost (n : Nat) (s : State) : State :=
  let s1 := setFld (R.LNK_LSTAT n) F.LNK_LSTAT_SIGDET 0 s
  if s1.linkState n = 0 || s1.lnkUp n then s1 else linkDown n s1

def execSignalDetectLost (n : Fin 4) (s : State) : Host.Outcome State Fault Refusal :=
  .next (if s.mgmtUp then signalLost n s else s)

/-- The HELLO payload (Table 17-3): `FWVER`, own level, link number, serial number. -/
def State.helloBytes (s : State) (n : Nat) : List Byte :=
  natLe 4 (s.reg R.BOOT_FWVER).toNat ++ natLe 1 s.ownLevel ++ natLe 1 n ++ natLe 4 (s.reg R.GLB_SERIAL_LO).toNat ++
    natLe 4 s.serialHi.toNat

/-- 1,024 valid symbols, which take 163.84 µs: HELLO goes out. The partner's buffers are all free at this point. -/
def trainingComplete (n : Nat) (s : State) : State :=
  let s1 := setFld (R.LNK_LSTAT n) F.LNK_LSTAT_CREDIT 4 (setLink n 2 s)
  sendFrame n .hello 0 (s1.helloBytes n) s1

def execTrainingComplete (n : Fin 4) (s : State) : Host.Outcome State Fault Refusal :=
  .next (if s.mgmtUp && s.linkState n = 1 && s.past (s.chainOf n).since 163 then trainingComplete n s else s)

/-- 2.0 ms in HELLO without the partner's. -/
def execHelloTimeout (n : Fin 4) (s : State) : Host.Outcome State Fault Refusal :=
  .next (if s.mgmtUp && s.linkState n = 2 && s.past (s.chainOf n).since 2000 then setLink n 1 (abandonFrames n s) else s)

/-- The loss rule of R423: TOPO goes up for a link that was UP, and training starts over while signal is detected. -/
def chainLoss (n : Nat) (s : State) : State :=
  let up := s.lnkUp n
  let s1 := linkDown n (incFld (R.LNK_CNT2 n) F.LNK_CNT2_LOSS s)
  startLink n (if up && !s1.isRoot && s1.lnkUp 0 then sendFrame 0 .topo 0 [] s1 else s1)

/-- The loss rule: `silent` tenths of a microsecond without a valid symbol, or `errors` code or disparity errors within 1 ms (R423). -/
def lossRule (silent errors : Nat) : Bool := 80 ≤ silent || 64 ≤ errors

def execChainLinkLoss (n : Fin 4) (silent errors : Nat) (s : State) : Host.Outcome State Fault Refusal :=
  .next (if s.mgmtUp && 1 ≤ s.linkState n && s.linkState n ≤ 3 && lossRule silent errors then chainLoss n s else s)

/-- `LNK_CMD.DROP`: the links of the mask stop sending for 10 ms. -/
def cmdDrop (mask : Nat) (s : State) : State :=
  forEach (List.range 4) (fun n t =>
    if mask.testBit n then
      updChain n (fun x => { x with dropping := true, since := s.clock }) (if t.linkState n = 0 then t else linkDown n t)
    else t) s

def execLnkDrop (mask : BitVec 4) (s : State) : Host.Outcome State Fault Refusal :=
  .next (access .host R.LNK_CMD (cmdDrop mask.toNat) s)

def execDropEnd (n : Fin 4) (s : State) : Host.Outcome State Fault Refusal :=
  .next (if s.mgmtUp && (s.chainOf n).dropping && s.past (s.chainOf n).since 10000 then startLink n (updChain n (fun x => { x with dropping := false }) s)
    else s)

/-- A write of `LNK_CMD`, which needs its key. -/
def writeLnkCmd (v : Word) (s : State) : State :=
  if F.LNK_CMD_KEY.get v ≠ 0x96 then s
  else
    let s1 := cmdDrop (F.LNK_CMD_DROP.get v) s
    if F.LNK_CMD_ENUM.get v = 1 then cmdEnum s1 else s1

/-! ### Receiving a frame (R425-R427) -/

/-- The receive buffers of link `n` that frames hold which have not been sent on, on some output (R426). -/
def State.heldBufs (s : State) (n : Nat) : Nat :=
  (((List.range 4).flatMap fun k => (s.chainOf k).wait.filterMap (·.inOn)).filter (·.1 = n)).eraseDups.length

/-- The payload of an ACK (Table 17-3). -/
def ackBytes (seq : Nat) (nak : Bool) (free : Nat) : List Byte := natLe 1 seq ++ natLe 1 (nak.toNat * 128 + free)

/-- Answers a frame with ACK or NAK and the count of free receive buffers. -/
def ackFrame (n seq : Nat) (nak : Bool) (s : State) : State :=
  updChain n (fun x => { x with ack := ackBytes seq nak (4 - s.heldBufs n) }) s

/-- How far a frame is sent on (R431): not beyond this device, by its `DST`, or to every enumerated down link. -/
inductive Travel where
  | local | routed | broadcast
deriving DecidableEq, Repr

/-- The outputs that a frame from link `n` is sent on to. -/
def State.outputs (s : State) (n : Nat) (h : Header) : Travel → List Nat
  | .local => []
  | .routed =>
    if h.dst.toNat = s.myAddr then []
    else match ([1, 2, 3] : List Nat).find? fun k => s.inRange k h.dst.toNat with
      | some k => [k]
      | none => if s.isRoot then [] else [0]
  | .broadcast => if n = 0 then ([1, 2, 3] : List Nat).filter fun k => s.flag (R.LNK_LSTAT k) F.LNK_LSTAT_ENUMD else []

/-- A frame of a type that needs `level` and travels so may be taken: the level in force allows it, and a routed one has the generation of
this device (R425). -/
def State.takes (s : State) (h : Header) (level : Nat) (tr : Travel) : Bool :=
  level ≤ s.levelNow && (tr != .routed || s.fld R.LNK_GEN F.LNK_GEN_GEN % 256 = h.gen.toNat)

/-- The bytes that the CRC of a frame covers: its header (Table 17-2) and its payload. -/
def covered (h : Header) (typ : FType) (payload : List Byte) : List Byte :=
  natLe 2 h.dst.toNat ++ natLe 2 h.src.toNat ++ natLe 2 (typ.code * 4096 + payload.length) ++ [h.seq, h.gen] ++ payload

/-- The frame has arrived intact (R424). -/
def intact (h : Header) (typ : FType) (payload : List Byte) : Bool :=
  match h.stop with
  | .eof crc => crc = crc32 (covered h typ payload)
  | _ => false

/-- At level 3 a frame that fails its CRC was already under way on each idle output, and its copies end with EAB (R432). -/
def cutThrough (n : Nat) (h : Header) (typ level : Nat) (tr : Travel) (s : State) : State :=
  if s.domLevel = 3 && s.takes h level tr then
    forEach (s.outputs n h tr) (fun k t =>
      if t.lnkUp k && (t.chainOf k).wait = [] && 0 < t.fld (R.LNK_LSTAT k) F.LNK_LSTAT_CREDIT then
        updChain k (fun x => { x with cut := [{ typ := typ, dst := h.dst.toNat, src := h.src.toNat, seq := x.txSeq, gen := h.gen.toNat,
                                                payload := [], tries := 0, start := t.clock, inOn := none }] }) t
      else t) s
  else s

/-- What an intact frame other than ACK does. One that has been received intact before is acknowledged and discarded (R427; log 173). -/
def takeFrame (n : Nat) (h : Header) (level : Nat) (tr : Travel) (act : State → State) (s : State) : State :=
  if (s.chainOf n).rxSeq.contains h.seq.toNat then ackFrame n h.seq.toNat false s
  else
    let s1 := updChain n (fun x => { x with rxSeq := (h.seq.toNat :: x.rxSeq).take 128 }) s
    ackFrame n h.seq.toNat false (if s.takes h level tr then act s1 else countDisc n s1)

/-- A frame other than ACK arrives on link `n`: its type and payload, the level that it needs, how it travels. `act` is what it does. -/
def recvFrame (n : Nat) (h : Header) (typ : FType) (payload : List Byte) (level : Nat) (tr : Travel) (act : State → State)
    (s : State) : State :=
  match h.stop with
  | .eab => s
  | .tooLong => incFld (R.LNK_CNT0 n) F.LNK_CNT0_LENERR s
  | .alien => countDisc n (ackFrame n h.seq.toNat false s)
  | .eof _ =>
    if intact h typ payload then takeFrame n h level tr act s
    else cutThrough n h typ.code level tr (ackFrame n h.seq.toNat true (incFld (R.LNK_CNT0 n) F.LNK_CNT0_CRCERR s))

/-- A frame from link `n` as it is sent on: its type, destination, source, generation and payload stand. -/
def frameOf (n : Nat) (h : Header) (t : FType) (payload : List Byte) : Frame :=
  { typ := t.code, dst := h.dst.toNat, src := h.src.toNat, seq := 0, gen := h.gen.toNat, payload := payload, tries := 0, start := 0,
    inOn := some (n, h.seq.toNat) }

/-- A frame is sent again, or dropped after three resends (R427). -/
def resend (n seq : Nat) (s : State) : State :=
  match (s.chainOf n).sent.find? (·.seq = seq) with
  | none => s
  | some f =>
    if 3 ≤ f.tries then
      pumpLink n 4 (countLost n (updChain n (fun x => { x with sent := x.sent.filter (·.seq ≠ seq) }) s))
    else
      setFld (R.LNK_LSTAT n) F.LNK_LSTAT_CREDIT (s.fld (R.LNK_LSTAT n) F.LNK_LSTAT_CREDIT - 1)
        (incFld (R.LNK_CNT1 n) F.LNK_CNT1_RETRY
          (updChain n (fun x => { x with sent := x.sent.map fun g => if g.seq = seq then { g with tries := g.tries + 1, start := s.clock }
                                                                    else g }) s))

/-- An ACK frame: the partner's free buffers, and the fate of the frame it answers (R426, R427). -/
def ackRx (n seq : Nat) (nak : Bool) (free : Nat) (s : State) : State :=
  let s1 := setFld (R.LNK_LSTAT n) F.LNK_LSTAT_CREDIT free s
  if nak then resend n seq s1
  else pumpLink n 4 (updChain n (fun x => { x with sent := x.sent.filter (·.seq ≠ seq) }) s1)

def execLnkAck (n : Fin 4) (h : Header) (seq : BitVec 8) (nak : Bool) (free : Fin 5) (s : State) :
    Host.Outcome State Fault Refusal :=
  .next (if s.mgmtUp && 2 ≤ s.linkState n && s.linkState n ≤ 3 then
      match h.stop with
      | .eab => s
      | .tooLong => incFld (R.LNK_CNT0 n) F.LNK_CNT0_LENERR s
      | .alien => countDisc n (ackFrame n h.seq.toNat false s)
      | .eof _ =>
        if intact h .ack (ackBytes seq.toNat nak free) then ackRx n seq.toNat nak free s
        else ackFrame n h.seq.toNat true (incFld (R.LNK_CNT0 n) F.LNK_CNT0_CRCERR s)
    else s)

/-- No ACK has begun 400 µs after the EOF of the frame with that `SEQ`, which takes (`LEN` + 14) × 160 ns on the wire (R427, R434). -/
def State.ackOverdue (s : State) (n seq : Nat) : Bool :=
  (s.chainOf n).sent.any fun f => f.seq = seq && s.past f.start (400 + (f.payload.length + 14) * 160 / 1000)

def execChainAckTimeout (n : Fin 4) (seq : BitVec 8) (s : State) : Host.Outcome State Fault Refusal :=
  .next (if s.mgmtUp && 2 ≤ s.linkState n && s.linkState n ≤ 3 && s.ackOverdue n seq.toNat then resend n seq.toNat s else s)

/-! ### The link-local and relayed frames -/

/-- The partner's HELLO: UP when one end faces up and the other down, otherwise FAULT. -/
def hello (n : Nat) (fwver : Word) (level link : Nat) (s : State) : State :=
  if s.linkState n ≠ 2 then s
  else
    let s1 := setReg (R.LNK_PFW n) fwver
      (setFld (R.LNK_LSTAT n) F.LNK_LSTAT_PLINK link (setFld (R.LNK_LSTAT n) F.LNK_LSTAT_PLEVEL level s))
    if (n = 0) = (link = 0) then raiseLnk F.LNK_EVT_FAULT (setLink n 4 (abandonFrames n s1))
    else raiseLnk F.LNK_EVT_UP (setLink n 3 s1)

def execLnkHello (n : Fin 4) (h : Header) (fwver : Word) (level : BitVec 4) (link : Fin 4) (serial : BitVec 64) (s : State) :
    Host.Outcome State Fault Refusal :=
  .next (if s.mgmtUp && 2 ≤ s.linkState n && s.linkState n ≤ 3 then
      recvFrame n h .hello (natLe 4 fwver.toNat ++ natLe 1 level.toNat ++ natLe 1 link ++ natLe 8 serial.toNat) 1 .local (hello n fwver level.toNat link) s
    else s)

/-- Frames other than HELLO and ACK need a link that is UP. -/
def State.hears (s : State) (n : Nat) : Bool := s.mgmtUp && s.lnkUp n

def execLnkEnum (n : Fin 4) (h : Header) (base gen : BitVec 16) (s : State) : Host.Outcome State Fault Refusal :=
  .next (if s.hears n then
      recvFrame n h .enum (natLe 2 base.toNat ++ natLe 2 gen.toNat) 1 .local (fun t => if n = 0 then enumBegin base.toNat gen.toNat t else t) s
    else s)

def execLnkEnumDone (n : Fin 4) (h : Header) (count : BitVec 17) (level : BitVec 4) (s : State) :
    Host.Outcome State Fault Refusal :=
  .next (if s.hears n then
      recvFrame n h .enumDone (natLe 4 count.toNat ++ natLe 1 level.toNat ++ [0]) 1 .local (fun t => if t.enum.run && n ≠ 0 && t.enum.link = n then enumDone n count.toNat level.toNat t
                                     else t) s
    else s)

/-- The payload of LEVEL. -/
def levelBytes (level : Nat) (gen : BitVec 16) : List Byte := natLe 1 level ++ natLe 2 gen.toNat

/-- LEVEL: taken, sent down, and answered with an ALERT (R430). -/
def levelRx (h : Header) (level : Nat) (gen : BitVec 16) (s : State) : State :=
  sendAlert (broadcastDown (frameOf 0 h .level (levelBytes level gen)) (setLevelNow level s))

def execLnkLevel (n : Fin 4) (h : Header) (level : BitVec 4) (gen : BitVec 16) (s : State) :
    Host.Outcome State Fault Refusal :=
  .next (if s.hears n then recvFrame n h .level (levelBytes level.toNat gen) 1 .broadcast (fun t => if n = 0 then levelRx h level.toNat gen t else t) s else s)

/-- ALERT from a down link (R435). -/
def execLnkAlert (n : Fin 4) (h : Header) (addr : BitVec 16) (s : State) : Host.Outcome State Fault Refusal :=
  .next (if s.hears n then
      recvFrame n h .alert (natLe 2 addr.toNat) 1 .local (fun t =>
        if n = 0 then t else alertUpdate (updChain n (fun x => { x with alert := addr.toNat }) t)) s
    else s)

/-- LVREP and TOPO: relayed up, or they restart the root's holdoff. -/
def relayUp (n : Nat) (f : Frame) (s : State) : State :=
  if s.isRoot then restartHoldoff s
  else if n = 0 then s
  else if s.lnkUp 0 then queueFrame 0 f s
  else countLost 0 s

def execLnkLvrep (n : Fin 4) (h : Header) (fwver : Word) (level : BitVec 4) (s : State) :
    Host.Outcome State Fault Refusal :=
  .next (if s.hears n then
      (let p := natLe 4 fwver.toNat ++ natLe 1 level.toNat
       recvFrame n h .lvrep p 1 .local (relayUp n (frameOf n h .lvrep p)) s)
    else s)

def execLnkTopo (n : Fin 4) (h : Header) (s : State) : Host.Outcome State Fault Refusal :=
  .next (if s.hears n then recvFrame n h .topo [] 1 .local (relayUp n (frameOf n h .topo [])) s else s)

/-- An activation has changed what this device runs: LVREP goes up, and the root enumerates again (R438). -/
def levelReport (s : State) : State :=
  if s.isRoot then restartHoldoff s
  else if s.lnkUp 0 then sendFrame 0 .lvrep 0 (natLe 4 (s.reg R.BOOT_FWVER).toNat ++ natLe 1 s.ownLevel) s
  else s

end Sys2Proof.Machine
end

