-- ==== Sys2Proof/Machine/Update.lean ====
section
/-! DEFINITION. Field update (chapter 18): sessions, staging, verification, activation, the health window and fallback. -/
namespace Sys2Proof.Machine

def updUpd (f : Upd → Upd) (s : State) : State := { s with upd := f s.upd }

def State.session (s : State) : Nat := s.fld R.UPD_SESS F.UPD_SESS_SESSION

def State.nblk (s : State) : Nat := s.fld R.UPD_SESS F.UPD_SESS_NBLK

/-- Blocks of an image (R443). -/
def blocksOf (len : Nat) : Nat := (len + 4095) / 4096

/-- A state change of Table 18-3, with its record (Table 18-10). -/
def moveTo (v : Nat) (s : State) : State :=
  post .management 0x39 s.session (s.reg R.UPD_VER) (s.updState * 256 + v) (setUpdState v s)

/-- `UPD_PROG` follows the bitmap of missing blocks. -/
def showMissing (s : State) : State :=
  let l := s.upd.missing
  let first := l.foldl min 0xFFF
  setFld R.UPD_PROG F.UPD_PROG_MISSING l.length (setFld R.UPD_PROG F.UPD_PROG_FIRST first s)

def setReason (v : Nat) (s : State) : State := setFld R.UPD_STAT F.UPD_STAT_REASON v s

/-- A command is refused (R445, R449). -/
def refuse (op code : Nat) (s : State) : State :=
  post .management 0x3B op (s.reg R.UPD_ARG) code (raiseUpd F.UPD_EVT_REFUSED (setReason code s))

/-! ### UPD frames (Table 18-1, Table 18-2) -/

/-- The 12-byte subheader. -/
def subheader (op part session block : Nat) (bcrc : Word) : List Byte :=
  natLe 1 (op * 16 + part) ++ [0] ++ natLe 2 session ++ natLe 2 block ++ [0, 0] ++ natLe 4 bcrc.toNat

/-- A member sends REPORT to the root. -/
def sendReport (s : State) : State :=
  if s.isRoot || s.levelNow < 2 then s
  else
    let first := s.upd.missing.foldl min 0xFFFF
    let payload := subheader 6 0 s.session first 0 ++ natLe 1 s.updState ++
      natLe 1 (s.fld R.UPD_STAT F.UPD_STAT_REASON) ++ natLe 2 s.upd.missing.length
    routeFrame 0 (s.ownFrame .upd 0 payload) s

/-- The root broadcasts an UPD frame, a feature of level 2 (R437). -/
def castUpd (payload : List Byte) (s : State) : State :=
  if s.levelNow < 2 then s else broadcastDown (s.ownFrame .upd 0 payload) s

/-- This device's address lies in the range of the session it took, and the frame names that session. -/
def State.takesUpd (s : State) (session : Nat) : Bool :=
  s.session = session && s.upd.lo ≤ s.myAddr && s.myAddr ≤ s.upd.hi

/-! ### The staging state machine (Table 18-3) -/

/-- FAILED is entered with a reason. -/
def failWith (code : Nat) (s : State) : State :=
  sendReport (raiseUpd F.UPD_EVT_FAILED (moveTo 7 (setReason code s)))

/-- No refusal stands against an OPEN at this device: 0, or its code. With boot FAILED the host can stage an image, so NOTREL is not
among them (R366). -/
def State.openRefusal (s : State) (len : Nat) : Nat :=
  if s.shipRefusal != 0 then s.shipRefusal
  else if s.phase < 6 then 5
  else if 2 ≤ s.fld R.BOOT_REFSTAT F.BOOT_REFSTAT_STATE then 6
  else if s.updState = 5 || s.updState = 6 then 7
  else if !(List.range 4).any (slotUsable (tabGet 0 s.otp.norm)) then 0x0D
  else if !s.nvmA.ok && !s.nvmB.ok then 0x0E
  else if len = 0 || 8388608 < len then 0x0F
  else 0

/-- An OPEN is taken. -/
def takeOpen (session len lo hi : Nat) (s : State) : State :=
  let n := blocksOf len
  let s1 := unstage s
  let s2 := updUpd (fun u => { u with
    lo := lo, hi := hi, len := len, missing := List.range n, block := 0, bcrc := 0, parts := [], bufs := [], slot := [],
    useA := s1.nvmA.ok, useB := s1.nvmB.ok }) s1
  let s3 := setReg R.UPD_SESS (BitVec.ofNat 32 (session * 65536 + n)) s2
  let s4 := setFld R.UPD_STAT F.UPD_STAT_CONFIG 0 (setFld R.UPD_STAT F.UPD_STAT_VA 0 (setFld R.UPD_STAT F.UPD_STAT_VB 0 s3))
  showMissing (moveTo 1 (setReason 0 s4))

/-- A flash whose erasure or programming failed is unusable for the session (Table 18-3). -/
def flashResult (okA okB : Bool) (s : State) : State :=
  let bad := (s.upd.useA && !okA) || (s.upd.useB && !okB)
  let s1 := updUpd (fun u => { u with useA := u.useA && okA, useB := u.useB && okB }) s
  if bad then setReason 0x0E s1 else s1

/-- The erasure is complete on each usable flash. -/
def eraseDone (okA okB : Bool) (s : State) : State :=
  let s1 := flashResult okA okB s
  if s1.upd.useA || s1.upd.useB then sendReport (raiseUpd F.UPD_EVT_OPENED (moveTo 2 s1)) else failWith 0x0E s1

def execEraseComplete (okA okB : Bool) (s : State) : Host.Outcome State Fault Refusal :=
  .next (if s.mgmtUp && s.updState = 1 then withDom (eraseDone okA okB) s else s)

/-- The place of a block's buffer in the management RAM (log 166). -/
def bufPlace (block : Nat) : Nat := 0x2000 + 0x1000 * (block % 16)

/-- A whole block arrives: buffered, or it stays missing (Table 18-3). -/
def blockArrives (block : Nat) (bcrc : Word) (bytes : List Byte) (s : State) : State :=
  if !s.upd.missing.contains block then s
  else if crc32 bytes ≠ bcrc then incFld R.UPD_CNT F.UPD_CNT_CRCERR s
  else if 16 ≤ s.upd.bufs.length then incFld R.UPD_CNT F.UPD_CNT_DROP s
  else wordsWritten 0x53 (bufPlace block) 4096 (updUpd (fun u => { u with bufs := u.bufs ++ [(block, bytes)] }) s)

/-- A DATA part: parts 0 and 1 are held for their block, part 2 completes it. -/
def dataPart (block part : Nat) (bcrc : Word) (bytes : List Byte) (s : State) : State :=
  let same := s.upd.block = block && s.upd.bcrc = bcrc
  let held := if same then s.upd.parts else []
  if part < 2 then updUpd (fun u => { u with block := block, bcrc := bcrc, parts := tabSet [] held part bytes }) s
  else
    let s1 := updUpd (fun u => { u with parts := [] }) s
    match held.lookup 0, held.lookup 1 with
    | some p0, some p1 => blockArrives block bcrc (p0 ++ p1 ++ bytes) s1
    | _, _ => s1

/-- The oldest buffered block has been programmed. One whose buffer has a poisoned word fails as one that fails its `BCRC` does
(Table 12-2). -/
def blockStaged (okA okB : Bool) (s : State) : State :=
  match s.upd.bufs with
  | [] => s
  | (b, bytes) :: l =>
    let s0 := seenRange 0x53 (bufPlace b) 4096 (updUpd (fun u => { u with bufs := l }) s)
    if (List.range 512).any fun w => s0.poisoned 0x53 (bufPlace b + 8 * w) then incFld R.UPD_CNT F.UPD_CNT_CRCERR s0
    else
    let s1 := flashResult okA okB s0
    if s1.upd.useA || s1.upd.useB then
      showMissing (updUpd (fun u => { u with missing := u.missing.filter (· ≠ b), slot := tabSet [] u.slot b bytes }) s1)
    else failWith 0x0E s1

def execBlockStaged (okA okB : Bool) (s : State) : Host.Outcome State Fault Refusal :=
  .next (if s.mgmtUp && s.updState = 2 then withDom (blockStaged okA okB) s else s)

/-- END in RECEIVING. -/
def endAct (s : State) : State :=
  if s.updState ≠ 2 then s else if s.upd.missing = [] then moveTo 3 s else sendReport s

def queryAct (s : State) : State := if s.updState = 2 then sendReport s else s

def abortAct (s : State) : State :=
  if 1 ≤ s.updState && s.updState ≤ 4 then moveTo 0 (unstage s) else s

/-! ### Verification (R448) -/

/-- The image that the staging slot holds: the blocks programmed, up to `LEN` (R443). -/
def State.stagedImage (s : State) : List Byte :=
  ((List.range (blocksOf s.upd.len)).flatMap fun b => tabGet [] s.upd.slot b).take s.upd.len

/-- What a copy reads back: what has been programmed, or the bytes that a flash which has lost it gives; no byte where it gives none. -/
def State.readBack (s : State) (o : Option (List Byte)) : List Byte := o.getD s.stagedImage

/-- The outcome of a staged copy: 0, or a code of Table 14-6. -/
def State.copyOutcome (s : State) (l : List Byte) : Nat :=
  if l = [] then 0x0A
  else if imageForm l != 0 then imageForm l
  else if !imageHashes l then 4
  else if !imageSigned l then 5
  else if !s.imageKey l then 6
  else imageValues l

/-- An entry of the staged image's register list differs from the value in force. -/
def State.configDiffers (s : State) (l : List Byte) : Bool :=
  (imageRegs l).any fun e =>
    match findReg e.1 with
    | some r => r.cls == .image && e.1 != R.PLC_GRP 0 && (e.2 &&& BitVec.ofNat 32 r.rw) != s.reg e.1
    | none => false

/-- The code section hashes of an image. -/
def codeHashes (l : List Byte) : Tab (List Byte) :=
  (List.range 4).foldl (fun t c => tabSet [] t c (match imageCode l c with | some x => x.hash | none => [])) []

/-- READY is entered with the copy `l`. -/
def verified (va vb : Bool) (l : List Byte) (s : State) : State :=
  let mark (ok : Bool) (h : BootHdr) : BootHdr := { h with staged := ok }
  let hours := (s.reg R.BOOT_PWRHRS).toNat
  let s1 := { s with nvmA := if va then s.nvmA.rewrite hours (mark true) else s.nvmA,
                     nvmB := if vb then s.nvmB.rewrite hours (mark true) else s.nvmB }
  let s2 := updUpd (fun u => { u with ver := imgVer l, info := imgInfo l, hash := codeHashes l }) s1
  let s3 := setReg R.UPD_VER (imgVer l) (setFlag R.UPD_STAT F.UPD_STAT_CONFIG (s2.configDiffers l) s2)
  sendReport (raiseUpd F.UPD_EVT_READY (moveTo 4 s3))

/-- Verification ends: at least one copy passes, or none. `a` and `b` are what a flash reads back where that is not what has been
programmed. -/
def verify (a b : Option (List Byte)) (s : State) : State :=
  let la := s.readBack a
  let lb := s.readBack b
  if !(List.range 4).any (slotUsable (tabGet 0 s.otp.norm)) then failWith 0x0D s
  else
    let ca := if s.upd.useA then s.copyOutcome la else 0x0A
    let cb := if s.upd.useB then s.copyOutcome lb else 0x0A
    let va := s.upd.useA && ca = 0
    let vb := s.upd.useB && cb = 0
    let code := if s.upd.useA && ca != 0 then 0x80 + ca else if s.upd.useB && cb != 0 then 0x80 + cb else 0
    let s1 := setFlag R.UPD_STAT F.UPD_STAT_VB vb (setFlag R.UPD_STAT F.UPD_STAT_VA va s)
    if va then verified va vb la (if code = 0 then s1 else setReason code s1)
    else if vb then verified va vb lb (if code = 0 then s1 else setReason code s1)
    else failWith code s1

def execVerificationComplete (a b : Option (List Byte)) (s : State) : Host.Outcome State Fault Refusal :=
  .next (if s.mgmtUp && s.updState = 3 then withDom (verify a b) s else s)

/-! ### `UPD_CMD` at the root (R442, R447, R449) -/

/-- The conditions of Table 18-4 from NOTREL on that every distribution command shares; `busy` adds that of `SEND`. A device whose boot
has failed has neither `LNK_CFG` nor a level from an image: it stages for itself (R366; DESIGN CHOICE, log 170). -/
def State.castRefusal (s : State) (busy : Bool) : Nat :=
  if s.phase < 6 then 5
  else if 2 ≤ s.fld R.BOOT_REFSTAT F.BOOT_REFSTAT_STATE || busy then 6
  else if s.phase = 7 then 0
  else if !s.isRoot then 0x0C
  else if s.levelNow < 2 then 0x0B
  else 0

/-- `UPD_CMD` OPEN. The number of a new session is open. -/
def cmdOpen (s : State) : State :=
  let len := (s.reg R.UPD_OLEN).toNat
  let lo := s.fld R.UPD_ORANGE F.UPD_ORANGE_LO
  let hi := s.fld R.UPD_ORANGE F.UPD_ORANGE_HI
  let first := s.openRefusal len
  let code :=
    if 1 ≤ first && first ≤ 7 then first
    else if s.castRefusal false != 0 then s.castRefusal false
    else first
  if code ≠ 0 then refuse 1 code s
  else
    let d := drawNat s
    let session := d.1 % 65536
    let s1 := updUpd (fun u => { u with isOpen := true, await := 2, reports := [], lo := lo, hi := hi }) d.2
    let s2 := castUpd (subheader 1 0 session 0 0 ++ natLe 4 len ++ natLe 2 lo ++ natLe 2 hi) s1
    if lo ≤ s2.myAddr && s2.myAddr ≤ hi then takeOpen session len lo hi s2
    else setReg R.UPD_SESS (BitVec.ofNat 32 (session * 65536 + blocksOf len)) s2

def execUpdCmdOpen (s : State) : Host.Outcome State Fault Refusal := .next (access .host R.UPD_CMD (withDom cmdOpen) s)

/-- DATA frames of the previous block still wait on a down link. -/
def State.sendBusy (s : State) : Bool :=
  ([1, 2, 3] : List Nat).any fun k => (s.chainOf k).wait.any fun f => f.typ = 8 && (f.payload.getD 0 0).toNat / 16 = 2

/-- The bytes of `UPD_BUF`. -/
def State.updBuf (s : State) : List Byte := (List.range 1024).flatMap fun w => natLe 4 (s.reg (R.UPD_BUF w)).toNat

def cmdSend (s : State) : State :=
  let block := (s.reg R.UPD_ARG).toNat % 4096
  let code :=
    if s.castRefusal s.sendBusy != 0 then s.castRefusal s.sendBusy
    else if s.upd.isOpen && s.nblk ≤ block then 0x0F
    else if !s.upd.isOpen then 0x10
    else 0
  if code ≠ 0 then refuse 2 code s
  else
    let b := s.updBuf
    let crc := crc32 b
    let s1 := if s.takesUpd s.session && s.updState = 2 then blockArrives block crc b s else s
    let head (part : Nat) : List Byte := subheader 2 part s.session block crc
    castUpd (head 2 ++ b.drop 4072)
      (castUpd (head 1 ++ (b.drop 2036).take 2036) (castUpd (head 0 ++ b.take 2036) s1))

def execUpdCmdSend (s : State) : Host.Outcome State Fault Refusal := .next (access .host R.UPD_CMD (withDom cmdSend) s)

/-- END (3) and QUERY (4). -/
def cmdCast (op : Nat) (act : State → State) (s : State) : State :=
  let code := if s.castRefusal false != 0 then s.castRefusal false else if !s.upd.isOpen then 0x10 else 0
  if code ≠ 0 then refuse op code s
  else
    let s1 := if op = 3 then updUpd (fun u => { u with await := 4 }) s else s
    let s2 := castUpd (subheader op 0 s.session 0 0) s1
    if s2.takesUpd s2.session then act s2 else s2

def execUpdCmdEnd (s : State) : Host.Outcome State Fault Refusal :=
  .next (access .host R.UPD_CMD (withDom (cmdCast 3 endAct)) s)

def execUpdCmdQuery (s : State) : Host.Outcome State Fault Refusal :=
  .next (access .host R.UPD_CMD (withDom (cmdCast 4 queryAct)) s)

def cmdAbort (s : State) : State :=
  if s.castRefusal false ≠ 0 then refuse 5 (s.castRefusal false) s
  else
    let s1 := castUpd (subheader 5 0 s.session 0 0) (updUpd (fun u => { u with isOpen := false }) s)
    if s1.takesUpd s1.session then abortAct s1 else s1

def execUpdCmdAbort (s : State) : Host.Outcome State Fault Refusal := .next (access .host R.UPD_CMD (withDom cmdAbort) s)

/-! ### Received UPD frames -/

/-- A broadcast UPD frame: from `LINK0` it goes on down the tree, and `act` is what it does here. -/
def recvUpd (n : Nat) (h : Header) (payload : List Byte) (act : State → State) (s : State) : State :=
  recvFrame n h .upd payload 2 .broadcast (fun t => if n = 0 then act (broadcastDown (frameOf n h .upd payload) t) else t) s

/-- An OPEN frame at a device in its range (R446). -/
def openRx (session len lo hi : Nat) (s : State) : State :=
  if !(s.enumd && lo ≤ s.myAddr && s.myAddr ≤ hi) then s
  else if s.openRefusal len ≠ 0 then sendReport (refuse 1 (s.openRefusal len) s)
  else takeOpen session len lo hi s

def execUpdOpen (n : Fin 4) (h : Header) (session : BitVec 16) (len : Word) (lo hi : BitVec 16) (s : State) :
    Host.Outcome State Fault Refusal :=
  .next (if s.hears n then
      recvUpd n h (subheader 1 0 session.toNat 0 0 ++ natLe 4 len.toNat ++ natLe 2 lo.toNat ++ natLe 2 hi.toNat)
        (openRx session.toNat len.toNat lo.toNat hi.toNat) s
    else s)

def execUpdData (n : Fin 4) (h : Header) (session block : BitVec 16) (bcrc : Word) (part : Fin 3) (bytes : List Byte)
    (s : State) : Host.Outcome State Fault Refusal :=
  .next (if s.hears n then
      recvUpd n h (subheader 2 part session.toNat block.toNat bcrc ++ bytes)
        (fun t => if t.takesUpd session.toNat && t.updState = 2 then dataPart block.toNat part bcrc bytes t else t) s
    else s)

def execUpdEnd (n : Fin 4) (h : Header) (session : BitVec 16) (s : State) : Host.Outcome State Fault Refusal :=
  .next (if s.hears n then
      recvUpd n h (subheader 3 0 session.toNat 0 0) (fun t => if t.takesUpd session.toNat then endAct t else t) s
    else s)

def execUpdQuery (n : Fin 4) (h : Header) (session : BitVec 16) (s : State) : Host.Outcome State Fault Refusal :=
  .next (if s.hears n then
      recvUpd n h (subheader 4 0 session.toNat 0 0) (fun t => if t.takesUpd session.toNat then queryAct t else t) s
    else s)

def execUpdAbort (n : Fin 4) (h : Header) (session : BitVec 16) (s : State) : Host.Outcome State Fault Refusal :=
  .next (if s.hears n then
      recvUpd n h (subheader 5 0 session.toNat 0 0) (fun t => if t.takesUpd session.toNat then abortAct t else t) s
    else s)

/-- The payload of a REPORT. -/
def reportBytes (session first state reason missing : Nat) : List Byte :=
  subheader 6 0 session first 0 ++ natLe 1 state ++ natLe 1 reason ++ natLe 2 missing

/-- A REPORT at the root; elsewhere it is routed on. -/
def reportRx (n : Nat) (h : Header) (session first state reason missing : Nat) (s : State) : State :=
  if s.enumd && h.dst.toNat = s.myAddr then
    if s.isRoot then
      withDom (updUpd (fun u => { u with reports := tabSet none u.reports h.src.toNat (some (state, reason)) })) s
    else s
  else
    routeFrame n (frameOf n h .upd (reportBytes session first state reason missing)) s

def execUpdReport (n : Fin 4) (h : Header) (session first : BitVec 16) (state reason : Byte) (missing : BitVec 16)
    (s : State) : Host.Outcome State Fault Refusal :=
  .next (if s.hears n then
      recvFrame n h .upd (reportBytes session.toNat first.toNat state.toNat reason.toNat missing.toNat) 2 .routed (reportRx n h session.toNat first.toNat state.toNat reason.toNat missing.toNat) s
    else s)

/-! ### Activation (R450, R451) -/

/-- A fallback still switches channels back. -/
def State.goingBack (s : State) : Bool := s.upd.back && s.upd.todo != []

def State.activateRefusal (s : State) (defer : Bool) : Nat :=
  if s.shipRefusal != 0 then s.shipRefusal
  else if s.phase != 6 then 5
  else if 2 ≤ s.fld R.BOOT_REFSTAT F.BOOT_REFSTAT_STATE || s.updState = 5 || s.updState = 6 || s.goingBack then 6
  else if s.updState ≠ 4 then 8
  else if s.reg R.UPD_ARG ≠ s.reg R.UPD_VER then 9
  else if s.flag R.UPD_STAT F.UPD_STAT_CONFIG && !defer then 0x0A
  else if !s.nvmA.ok && !s.nvmB.ok then 0x0E
  else 0

/-- The rotation of R450. -/
def rotate (h : BootHdr) : BootHdr :=
  { h with active := h.staging, previous := some h.active, staging := h.previous.getD (3 - h.active - h.staging),
           trial := true, staged := false }

def activate (defer : Bool) (s : State) : State :=
  let s1 := writeHeaders rotate s
  let s2 := updUpd (fun u => { u with
    failed := false, todo := [0, 1, 2, 3], copy := none, step6 := none, back := false, oldVer := s1.reg R.BOOT_FWVER,
    oldInfo := s1.reg R.BOOT_IMGINFO, oldHash := s1.boot.codeHash }) s1
  moveTo 5 (setFld R.UPD_STAT F.UPD_STAT_CHDONE 0 (setFlag R.UPD_STAT F.UPD_STAT_DEFER defer (setReason 0 s2)))

def cmdActivate (defer : Bool) (s : State) : State :=
  if s.activateRefusal defer ≠ 0 then refuse 6 (s.activateRefusal defer) s else activate defer s

def execUpdCmdActivate (defer : Bool) (s : State) : Host.Outcome State Fault Refusal :=
  .next (access .host R.UPD_CMD (withDom (cmdActivate defer)) s)

/-- The update activation crossing of channel `c` is sent (R342). -/
def switchChannel (c : Nat) (s : State) : State :=
  let hash := tabGet [] (if s.upd.back then s.upd.oldHash else s.upd.hash) c
  beginRestart c .update (xover (.activ c)
    (updUpd (fun u => { u with copy := some c }) (updBoot (fun b => { b with codeHash := tabSet [] b.codeHash c hash }) s)))

/-- `GAP_MS` have passed since the last channel switched (R451, R140). -/
def State.gapOver (s : State) : Bool :=
  match s.upd.step6 with
  | some t => s.past t (1000 * clampTo 10 1000 (s.fld R.UPD_CFG F.UPD_CFG_GAP_MS))
  | none => true

def execChannelSwitch (c : Fin 4) (s : State) : Host.Outcome State Fault Refusal :=
  .next (if s.mgmtUp && s.upd.todo.head? = some c.val && s.upd.copy.isNone && s.gapOver && (s.updState = 5 || s.goingBack) && !s.upd.failed &&
        s.shipRefusal = 0 && s.chanUp c && s.crsState c != 0 then switchChannel c s
    else s)

/-- What the device runs changes (Table 18-10 class 0x3A). -/
def runImage (ver info : Word) (src : Nat) (s : State) : State :=
  let s1 := showLevel (setReg R.BOOT_IMGINFO info (setReg R.BOOT_FWVER ver s))
  let s2 := if ver = s.reg R.BOOT_FWVER && s1.ownLevel = s.ownLevel then s1 else levelReport s1
  post .management 0x3A src ver (s2.fld R.UPD_STAT F.UPD_STAT_CHDONE) s2

/-- The last channel runs the new code: the window starts. -/
def enterTrial (s : State) : State :=
  let s1 := runImage s.upd.ver s.upd.info 0 (moveTo 6 s)
  raiseUpd F.UPD_EVT_ACTIVATED (updUpd (fun u => { u with winStart := s1.tb.usec }) s1)

/-- Every channel runs the previous image again. -/
def fallbackDone (s : State) : State :=
  raiseUpd F.UPD_EVT_FALLBACK (runImage s.upd.oldVer s.upd.oldInfo 2 (updUpd (fun u => { u with back := false }) s))

/-- Channel `c` has reached step 6 of R307 with its new code. -/
def switchDone (c : Nat) (s : State) : State :=
  let s1 := setFlag R.UPD_STAT (F.UPD_STAT_CHDONE.bit c) (!s.upd.back)
    (updUpd (fun u => { u with todo := u.todo.filter (· ≠ c), copy := none, step6 := some s.clock }) s)
  if s1.upd.todo ≠ [] then s1 else if s1.upd.back then fallbackDone s1 else enterTrial s1

/-- The copy does not match its `HASH`: a failure event while the update is ACTIVATING. The course does not start. -/
def copyFailed (s : State) : State :=
  if s.updState = 5 then updUpd (fun u => { u with failed := true }) s else s

/-- A restart in progress ends (R307). With cause UPDATE the copied code is checked first (R451). -/
def restartCourse (c : Nat) (code : List Byte) (s : State) : State :=
  if s.crsState c = 3 && (s.crsOf c).sbuf = [] && !s.crsHung c && s.fld (R.CRS_STAT c) F.CRS_STAT_RCAUSE = 9 then
    if sha384 code = tabGet [] s.boot.codeHash c then
      let t := finishRestart c code s
      if s.upd.copy = some c then switchDone c t else t
    else copyFailed s
  else courseRestart c code s

/-- A held course is released after its channel's reset. Poisoned code is rewritten and checked first (R371), and so is a copy of the
update that the reset has cut short, whose channel has then switched (R451). -/
def releaseAfterReset (c : Nat) (code : List Byte) (s : State) : State :=
  let poison : Bool := s.ecc.any fun e => e.2.poison && memKey c 0 ≤ e.1 && e.1 < memKey (c + 1) 0
  let cut : Bool := s.upd.copy = some c
  if poison || cut then
    if sha384 code = tabGet [] s.boot.codeHash c then
      let t := releaseCourse c (writeCode c code s)
      if cut then switchDone c t else t
    else if cut then copyFailed s else s
  else releaseCourse c s

def execCourseReleaseAfterReset (c : Fin 4) (code : List Byte) (s : State) : Host.Outcome State Fault Refusal :=
  .next (if s.bootRuns && s.released && s.chanUp c && s.crsState c = 0 then withDom (releaseAfterReset c code) s else s)

def execCourseRestart (c : Fin 4) (code : List Byte) (s : State) : Host.Outcome State Fault Refusal :=
  .next (if s.chanUp c then withDom (restartCourse c code) s else s)

/-! ### The window and fallback (R452, R453) -/

/-- `UPD_TLEFT`: whole seconds of the window left. -/
def State.windowLeft (s : State) : Nat :=
  if s.updState = 6 then 60 * clampTo 1 1440 (s.fld R.UPD_CFG F.UPD_CFG_WIN_MIN) - s.since s.upd.winStart / 1000000 else 0

/-- The activated image is confirmed. -/
def confirm (s : State) : State :=
  let s1 := raiseUpd F.UPD_EVT_CONFIRMED (moveTo 0 (writeHeaders (fun h => { h with trial := false }) s))
  post .management 0x3A 1 (s1.reg R.BOOT_FWVER) (s1.fld R.UPD_STAT F.UPD_STAT_CHDONE) s1

/-- A failure event of R452 falls in this same tick: it waits among the commands (Table 18-7). -/
def State.failureWaits (s : State) : Bool :=
  s.pending.any fun i => match i with
    | .courseWatchdog c => s.switched c && s.wdDue c && !(s.crsOf c).wdFirst && !s.kickWaits c
    | .channelWatchdog c | .channelReset c .watchdog => s.switched c && s.stage2Due c
    | _ => false

/-- `REJECT` falls in this same tick, or `CONFIRM`. -/
def State.rejectWaits (s : State) : Bool := s.pending.any fun i => match i with
  | .updCmdReject => true
  | _ => false
def State.confirmWaits (s : State) : Bool := s.pending.any fun i => match i with
  | .updCmdConfirm => true
  | _ => false

/-- `CONFIRM` and `REJECT` together: neither acts (Table 18-7). The first of the two notes it for the other. -/
def clash (waits : Bool) (act : State → State) (s : State) : State :=
  if s.upd.clash = some s.clock then updUpd (fun u => { u with clash := none }) s
  else if waits then updUpd (fun u => { u with clash := some s.clock }) s
  else act s

/-- `CONFIRM` in TRIAL; a failure event of the same tick acts first (Table 18-7). -/
def cmdConfirm (s : State) : State :=
  if s.updState = 6 then
    clash s.rejectWaits (fun t => if t.upd.failed || t.failureWaits then t else confirm t) s
  else s

def execUpdCmdConfirm (s : State) : Host.Outcome State Fault Refusal :=
  .next (access .host R.UPD_CMD (withDom cmdConfirm) s)

/-- A failure event of the update itself. -/
def failUpdate (s : State) : State := updUpd (fun u => { u with failed := true }) s

/-- `REJECT` in ACTIVATING or TRIAL. -/
def cmdReject (s : State) : State :=
  if s.updState = 6 then clash s.confirmWaits failUpdate s else if s.updState = 5 then failUpdate s else s

def execUpdCmdReject (s : State) : Host.Outcome State Fault Refusal := .next (access .host R.UPD_CMD cmdReject s)

/-- The end of the window; a failure event of the same tick, `REJECT` among them, acts first (Table 18-7). -/
def windowEnd (s : State) : State :=
  if s.failureWaits || s.rejectWaits then s
  else if s.flag R.UPD_CFG F.UPD_CFG_AUTOCONF then confirm s
  else failUpdate s

/-- `WIN_MIN` minutes of USEC have passed since entry to TRIAL (R452). -/
def State.windowOver (s : State) : Bool :=
  60000000 * clampTo 1 1440 (s.fld R.UPD_CFG F.UPD_CFG_WIN_MIN) ≤ s.since s.upd.winStart

def execTrialWindowEnd (s : State) : Host.Outcome State Fault Refusal :=
  .next (if s.mgmtUp && s.updState = 6 && !s.upd.failed && s.windowOver then withDom windowEnd s else s)

/-- The rotation of R453. -/
def rotateBack (h : BootHdr) : BootHdr :=
  { h with active := h.previous.getD h.active, previous := some h.staging, staging := h.active, trial := false,
           staged := false }

/-- The channel whose copy has begun gets the code of the previous image. -/
def copyBack (s : State) : State :=
  match s.upd.copy with
  | some c => updBoot (fun b => { b with codeHash := tabSet [] b.codeHash c (tabGet [] s.upd.oldHash c) }) s
  | none => s

/-- Fallback: the headers turn back, and the switched channels follow. A channel whose copy has begun counts among them: its copy is
made from the new active slot. -/
def fallback (s : State) : State :=
  let s1 := writeHeaders rotateBack s
  let back := (List.range 4).filter fun c =>
    s.flag R.UPD_STAT (F.UPD_STAT_CHDONE.bit c) || s.upd.copy = some c
  let s2 := updUpd (fun u => { u with failed := false, back := true, todo := back, step6 := none }) s1
  let s3 := failWith 0x11 (copyBack s2)
  if back = [] then fallbackDone s3 else s3

def execFallback (s : State) : Host.Outcome State Fault Refusal :=
  .next (if s.mgmtUp && s.upd.failed && (s.updState = 5 || s.updState = 6) then withDom fallback s else s)

/-! ### Register writes -/

/-- A write of `UPD_CMD`, which needs its key (Table 18-9). -/
def writeUpdCmd (v : Word) (s : State) : State :=
  if F.UPD_CMD_KEY.get v ≠ 0x5D then s
  else match F.UPD_CMD_OP.get v with
    | 1 => withDom cmdOpen s
    | 2 => withDom cmdSend s
    | 3 => withDom (cmdCast 3 endAct) s
    | 4 => withDom (cmdCast 4 queryAct) s
    | 5 => withDom cmdAbort s
    | 6 => withDom (cmdActivate (F.UPD_CMD_DEFER.get v = 1)) s
    | 7 => withDom cmdConfirm s
    | 8 => cmdReject s
    | _ => s

/-- A write of `UPD_OWNER`, which needs its key; `LOCK` is a saved setting. -/
def writeOwner (v : Word) (s : State) : State :=
  if F.UPD_OWNER_KEY.get v ≠ 0x4C then s
  else saveSetting true R.UPD_OWNER (v &&& 1) (setReg R.UPD_OWNER (v &&& 1) s)

def execUpdOwnerWrite (v : Word) (s : State) : Host.Outcome State Fault Refusal :=
  .next (access .host R.UPD_OWNER (writeOwner v) s)

end Sys2Proof.Machine
end

