-- ==== Sys2Proof/Machine/Access.lean ====
section
/-! DEFINITION. Register accesses (R7, R139, R344-R348, R457-R463): what each register reads as, what a read changes, what a
write does, and who may write. -/
namespace Sys2Proof.Machine

/-- The index of an address among `n` registers from a base at a stride. -/
def regIdx (base stride n a : Nat) : Option Nat :=
  if base ≤ a ∧ (a - base) % stride = 0 ∧ (a - base) / stride < n then some ((a - base) / stride) else none

/-- Writes of the bits of a register row: RW bits take the value, a 1 clears a W1C bit (Table 00-4). -/
def RegRow.write (r : RegRow) (old v : Word) : Word :=
  let rw := BitVec.ofNat 32 r.rw
  (old &&& ~~~rw ||| v &&& rw) &&& ~~~(v &&& BitVec.ofNat 32 r.w1c)

/-- The bits that an RC read leaves (Table 00-4). -/
def RegRow.afterRead (r : RegRow) (old : Word) : Word := old &&& ~~~(BitVec.ofNat 32 r.rc)

/-- Every field of the register is RO or RC. -/
def RegRow.readOnly (r : RegRow) : Bool := r.rw = 0 && r.w1c = 0 && r.wo = 0

/-! ### Views: registers whose value is computed -/

/-- `HOLD_LEFT` (Table 02-10): a part of a millisecond counts as a whole one, DESIGN CHOICE, log 134. -/
def State.holdLeft (s : State) : Nat :=
  if s.tb.st = .holdover then s.act R.ANG_HOLDISL F.ANG_HOLDISL_HOLD_MS - s.since s.tb.holdStart / 1000 else 0

/-- `ANG_STATUS`. -/
def State.angStatus (s : State) : Word :=
  F.ANG_STATUS_STATE.put (F.ANG_STATUS_HOLD_LEFT.put (s.reg R.ANG_STATUS) s.holdLeft) s.tb.st.code

/-- The words of a feeder row at offsets 0x20 to 0x30 (Table 08-10). -/
def FdrRow.word (r : FdrRow) : Nat → Word
  | 0 => r.stat
  | 1 => r.vmeas
  | 2 => r.imean
  | 3 => r.usable
  | _ => r.commit

/-- The time up to which the hub's mirror of port `p` is kept: now, or the loss of its link. -/
def State.mirTime (s : State) (p : Nat) : Nat :=
  match (s.dieOf (p / 64)).downSince with
  | some t => if s.portUp p then s.clock else t
  | none => s.clock

/-- `PRT_TARGET` (Table 04-11). -/
def State.targetWord (s : State) (p : Nat) : Word := BitVec.ofNat 32 ((s.mirOf p).vtgt * 65536 + (s.mirOf p).icon)

/-- `PRT_STATE` (Table 04-11). -/
def State.stateWord (s : State) (p : Nat) : Word :=
  let x := s.mirOf p
  let bit (n : Nat) (b : Bool) : Nat := b.toNat * 2 ^ n
  BitVec.ofNat 32 (x.state.code * 2 ^ 28 + x.ret.code * 2 ^ 24 + x.tripCnt % 16 * 2 ^ 20 + x.cause.code * 2 ^ 17 +
    bit 16 x.armed + bit 15 x.pgood + bit 14 x.limact + bit 13 x.ga + bit 12 x.gb + bit 11 x.vconn + bit 10 x.orient +
    bit 9 x.raSeen + bit 8 x.sink + bit 7 x.attRec + bit 6 x.disch + bit 5 (!s.portUp p) + x.lamp * 8)

/-- `PRT_TIMERS` (Table 04-11). -/
def State.timersWord (s : State) (p : Nat) : Word :=
  let x := s.mirOf p
  let now := s.mirTime p
  let left := if x.retryRun then x.ri - (now - x.retryStart) / 1000 else 0
  let acc := if x.state = .limit && x.limact then x.ftAcc + (now - x.limStart) else x.ftAcc
  BitVec.ofNat 32 (left % 65536 * 65536 + acc / 10 % 65536)

/-- `PRT_PDSTAT` (Table 05-11). `TXBUSY` shows a message in the TX buffer, a chunked one between its chunks, and what the hub queues
or holds by pacing. `REV`, `RXFULL`, `TXBUSY`, `SINKTX` and the counters are the port die's present values also while its link is
down: DESIGN CHOICE, log 153. -/
def State.pdStat (s : State) (p : Nat) : Word :=
  let y := s.phyOf p
  let h := s.hubOf p
  let gen := if h.ctxId = 0 then 0 else h.gen.toNat
  BitVec.ofNat 32 (s.pif p * 2 ^ 29 + y.rev % 4 * 2 ^ 27 + (s.waiting p).toNat * 2 ^ 26 + y.rx.isSome.toNat * 2 ^ 25 +
    (y.tx.isSome || h.chunkTx.isSome || h.txq != [] || h.answers != [] || s.pacedOf p != []).toNat * 2 ^ 24 + y.sinkTx.toNat * 2 ^ 23 + h.ctxId * 2 ^ 16 + gen * 256 + y.txIdSop % 8 * 32 +
    y.txIdSopp % 8 * 4)

/-- `CHN_PPOL_k` (Table 06-12). -/
def State.ppolWord (s : State) (c k : Nat) : Word :=
  let h := s.hubOf (128 * c + k)
  F.CHN_PPOL_SHDUE.put (F.CHN_PPOL_SHHOLD.put (s.reg (R.CHN_PPOL c k)) h.hold.toNat) h.deadline.isSome.toNat

/-- `CTX_STATE_n` (Table 05-15). -/
def Ctx.stateWord (x : Ctx) : Word :=
  let st := match x.state with
    | .free => 0
    | .bound => 1
    | .closing => 2
  BitVec.ofNat 32 (st * 2 ^ 30 + x.alloc.toNat * 2 ^ 28 + x.cause * 2 ^ 25 + x.gen.toNat * 65536 + x.port)

/-- `CTX_TMRA_n` or `CTX_TMRB_n` (Table 05-15). -/
def State.timerWord (s : State) (t : CtxTimer) : Word :=
  BitVec.ofNat 32 (t.pend.toNat * 2 ^ 31 + t.tovr.toNat * 2 ^ 30 + s.ctxLeft t)

/-- Ports in the waiting set of channel `c`. -/
def State.waitCount (s : State) (c : Nat) : Nat := ((List.range 128).filter fun k => s.waiting (128 * c + k)).length

/-- `CTX_GLB` (Table 05-16). -/
def State.glbWord (s : State) (c : Nat) : Word :=
  BitVec.ofNat 32 ((s.freeCtxs c).length * 2 ^ 26 + s.waitCount c * 2 ^ 18 + s.fld (R.CTX_GLB c) F.CTX_GLB_CMDERR)

/-- `CTX_QSTAT` (Table 05-16). -/
def State.qstatWord (s : State) (c : Nat) : Word :=
  BitVec.ofNat 32 ((s.chanOf c).evq.length * 65536 + (s.freePans c).length)

/-- `OPQ_STAT` (Table 06-13). -/
def State.opqStat (s : State) (c : Nat) : Word := BitVec.ofNat 32 ((s.chanOf c).cq.length * 65536 + s.inUse c)

/-- `OPQ_ENTA_i`, `OPQ_ENTB_i` and `OPQ_ENTC_i` (Table 06-13). -/
def entryWord (w : Nat) : Option OpEntry → Word
  | none => 0
  | some o =>
    match w with
    | 0 =>
      let st := match o.st with
        | .queued => 1
        | .released => 2
      BitVec.ofNat 32 (st * 2 ^ 30 + o.kind.code * 2 ^ 26 + o.port * 2 ^ 19 + o.slot * 2 ^ 13 + o.ph * 2 ^ 11 +
        o.last.toNat * 1024 + o.stepTo.toNat * 512)
    | 1 => BitVec.ofNat 32 (o.vtgt * 65536 + o.icon)
    | _ => BitVec.ofNat 32 (o.w * 65536 + o.fa * 4096 + o.fb * 256)

/-- `TWM_STAT` (Table 16-11). -/
def State.twmStat (s : State) : Word :=
  F.TWM_STAT_ALERT.put (F.TWM_STAT_RQPEND.put (s.reg R.TWM_STAT) (decide (s.fld R.TWM_RQSTAT F.TWM_RQSTAT_ST = 1)).toNat)
    s.alertN.toNat

/-- `TWM_APORTj` (Table 16-14). -/
def State.aport (s : State) (j : Nat) : Word := BitVec.ofNat 32 (bitsOf 32 fun b => s.portAlert (32 * j + b))

/-- `FLT_LOGSTAT` (Table 12-11). -/
def State.logStat (s : State) : Word :=
  BitVec.ofNat 32 (s.log.staged.length * 2 ^ 24 + s.log.lostC * 65536 + s.log.lostD * 256 + s.log.lostM)

/-- `FLT_LOGDATA_w` (Table 12-11). -/
def State.logData (s : State) (w : Nat) : Word :=
  match s.log.staged[s.fld R.FLT_LOGSEL F.FLT_LOGSEL_IDX]? with
  | some r => r.word w
  | none => 0

/-! ### Reading a register that can be reached -/

/-- A register that holds what it shows: an RC field is cleared by the read. -/
def readHeld (r : RegRow) (a : Nat) (s : State) : Word × State := (s.reg a, setReg a (r.afterRead (s.reg a)) s)

/-- A register whose read changes nothing. -/
def show0 (v : Word) (s : State) : Word × State := (v, s)

def readAng (r : RegRow) (a : Nat) (s : State) : Word × State :=
  if a = R.ANG_STATUS then show0 s.angStatus s
  else if a = R.ANG_ANGLE then show0 s.angleWord s
  else if a = R.ANG_CYC_LO then readCycLo s
  else if a = R.ANG_USEC_LO then readUsecLo s
  else readHeld r a s

def readTmu (r : RegRow) (a : Nat) (s : State) : Word × State :=
  match regIdx (R.TMU_CNT 0) 0x40 32 a, regIdx (R.TMU_CAP 0) 0x40 32 a with
  | some n, _ => readCnt n s
  | none, some n => readCap n s
  | none, none => readHeld r a s

/-- The ledger view of `PLC_GUSED`: the used power of the group that `PLC_GSEL` names, in the active bank. -/
def State.gusedWord (s : State) : Word :=
  BitVec.ofNat 32 (tabGet 0 (s.bankOf s.active).gused (s.fld R.PLC_GSEL ⟨0, 8⟩))

def readPlc (r : RegRow) (a : Nat) (s : State) : Word × State :=
  if a < 0x3200 then
    if 0x20 ≤ a % 0x40 && a % 0x40 ≤ 0x30 then show0 ((s.fdrRow (a % 0x1000 / 0x40)).word ((a % 0x40 - 0x20) / 4)) s
    else readHeld r a s
  else if a = R.PLC_INPUTS then show0 (F.PLC_INPUTS_ISL.put (s.reg a) s.tb.lastIsl.toNat) s
  else if a = R.PLC_GUSED then show0 s.gusedWord s
  else if R.PLC_ENT 0 ≤ a then show0 (s.entOf ((a - R.PLC_ENT 0) / 4)) s
  else readHeld r a s

def readAdc (r : RegRow) (a : Nat) (s : State) : Word × State :=
  let u := (a - 0x4000) / 0x20
  if R.ADC_FVSCL 0 ≤ a then
    match regIdx (R.HRV_FOUT_LO 0) 8 8 a, regIdx (R.HRV_FIN_LO 0) 8 8 a with
    | some f, _ => readFeederLo f false s
    | none, some f => readFeederLo f true s
    | none, none => if a = R.HRV_CYC_LO then readHrvCyc s else readHeld r a s
  else if a = R.ADC_DATA u then (s.reg a, writeUnit u a (r.afterRead (s.reg a)) s)
  else if a = R.ADC_STAT u then show0 (F.ADC_STAT_STALE.put (s.reg a) (decide (u < 32) && !s.linkUp (u / 4)).toNat) s
  else readHeld r a s

def readFlt (r : RegRow) (a : Nat) (s : State) : Word × State :=
  if a = R.FLT_CLKSTAT then (s.reg a, setFld a F.FLT_CLKSTAT_MCLK 0 s)
  else if a = R.FLT_LOGSTAT then show0 s.logStat s
  else match regIdx (R.FLT_LOGDATA 0) 4 8 a with
    | some w => show0 (s.logData w) s
    | none => readHeld r a s

def readTwm (r : RegRow) (a : Nat) (s : State) : Word × State :=
  if a = R.TWM_STAT then show0 s.twmStat s
  else if a = R.TWM_ASUM then show0 (BitVec.ofNat 32 s.asum) s
  else if a = R.TWM_PADMIN then show0 (s.recOf (s.fld R.TWM_PASEL F.TWM_PASEL_PORT) 13) s
  else match regIdx (R.TWM_APORT 0) 4 16 a with
    | some j => show0 (s.aport j) s
    | none => readHeld r a s

def readUpd (r : RegRow) (a : Nat) (s : State) : Word × State :=
  if a = R.UPD_TLEFT then show0 (BitVec.ofNat 32 s.windowLeft) s
  else if a = R.UPD_DOK then show0 s.domWords.1 s
  else if a = R.UPD_DFAIL then show0 s.domWords.2.1 s
  else if a = R.UPD_DLAG then show0 s.domWords.2.2 s
  else readHeld r a s

/-- Reads `CTX_PANGET`: a free pan goes to firmware (R152). -/
def readPanget (c : Nat) (s : State) : Word × State :=
  if s.freePans c = [] then (0, s)
  else
    let i := pick (s.freePans c) s
    (BitVec.ofNat 32 (2 ^ 31 + i.1), setPan c i.1 .firmware i.2)

/-- The registers of contexts, at offsets 0x0810 to 0x0BFF of a channel block. -/
def readCtx (c o : Nat) (s : State) : Word :=
  let x := s.ctxOf c ((o - 0x800) / 16)
  match o % 16 / 4 with
  | 0 => x.stateWord
  | 1 => s.timerWord x.tmrA
  | 2 => s.timerWord x.tmrB
  | _ => x.data

def readChn (r : RegRow) (a : Nat) (s : State) : Word × State :=
  let c := (a - 0x10000) / 0x4000
  let o := a % 0x4000
  if o = 0x10C then
    (F.CHN_PACESTAT_HELD.put (s.reg a) (s.chanOf c).paceHeld.length, setReg a (r.afterRead (s.reg a)) s)
  else if 0x200 ≤ o && o < 0x400 then show0 (s.ppolWord c ((o - 0x200) / 4)) s
  else if 0x800 ≤ o && o < 0xC00 then show0 (readCtx c o s) s
  else if o = 0xC00 then show0 (s.glbWord c) s
  else if o = 0xC04 then show0 (s.qstatWord c) s
  else if o = 0xC0C then readEvq c s
  else if o = 0xC10 then readPanget c s
  else if o = 0x1010 then readCq c s
  else if o = 0x1014 then show0 (s.opqStat c) s
  else if 0x1100 ≤ o && o < 0x1500 then show0 (entryWord (o % 16 / 4) (s.opOf c ((o - 0x1100) / 16))) s
  else if 0x1A00 ≤ o && o < 0x1C00 then show0 (s.hvstWord (128 * c + (o - 0x1A00) / 4)) s
  else if o = 0x2020 then show0 (BitVec.ofNat 32 (s.wdLeft c)) s
  else readHeld r a s

def readPrt (r : RegRow) (a : Nat) (s : State) : Word × State :=
  let p := (a - 0x100000) / 0x100
  match a % 0x100 with
  | 0x20 => show0 (s.targetWord p) s
  | 0x24 => show0 (s.stateWord p) s
  | 0x28 => show0 (s.timersWord p) s
  | 0x44 => show0 (s.pdStat p) s
  | 0x70 => readElo p s
  | _ => readHeld r a s

/-- Reads `GLB_SERIAL_LO` and latches `GLB_SERIAL_HI` (R464). -/
def readSerial (s : State) : Word × State := (s.reg R.GLB_SERIAL_LO, setReg R.GLB_SERIAL_HI s.serialHi s)

/-- Reads the register at host address `a`, which the map has. -/
def readReg (r : RegRow) (a : Nat) (s : State) : Word × State :=
  if a < 0x1000 then (if a = R.GLB_SERIAL_LO then readSerial s else readHeld r a s)
  else if a < 0x2000 then readAng r a s
  else if a < 0x3000 then readTmu r a s
  else if a < 0x4000 then readPlc r a s
  else if a < 0x5000 then readAdc r a s
  else if a < 0x6000 then readFlt r a s
  else if a < 0x8000 then readHeld r a s
  else if a < 0x9000 then readTwm r a s
  else if a < 0xA000 then readHeld r a s
  else if a < 0x10000 then readUpd r a s
  else if a < 0x20000 then readChn r a s
  else readPrt r a s

/-! ### Writing a register that can be reached -/

/-- A write that the access codes of the register decide. A saved setting that the host writes is kept for its record. -/
def writeHeld (host : Bool) (r : RegRow) (a : Nat) (v : Word) (s : State) : State :=
  let w := r.write (s.reg a) v
  setReg a w (if r.cls = .setting then saveSetting host a w s else s)

/-- `TMU_SRC_n` and `TMU_IEN_n` of the odd half of a chained pair take no writes (R92). -/
def writeTmu (who : Who) (r : RegRow) (a : Nat) (v : Word) (s : State) : State :=
  if a = R.TMU_GSTART then tmuGroup who v true s
  else if a = R.TMU_GSTOP then tmuGroup who v false s
  else if 0x2800 ≤ a then writeHeld (who = .host) r a v s
  else
    let n := (a - 0x2000) / 0x40
    match a % 0x40 with
    | 0x00 => writeCtl n v s
    | 0x04 => writeSrc n (r.write (s.reg a) v) s
    | 0x08 => writeCapsrc n v s
    | 0x10 => writeRld n v s
    | 0x14 => writeCmp n v s
    | 0x24 => tmuCmd n (F.TMU_CMD_LOAD.get v = 1) (F.TMU_CMD_START.get v = 1) (F.TMU_CMD_STOP.get v = 1) s
    | 0x1C => setReg a (r.write (s.reg a) v) s
    | _ => if s.oddHalf n then s else setReg a (r.write (s.reg a) v) s

/-- A write of `FDR_CMD_f` (R245). -/
def writeFdrCmd (f : Nat) (v : Word) (s : State) : State :=
  if F.FDR_CMD_ONLINE.get v = F.FDR_CMD_OFFLINE.get v then s
  else updMon f (fun m => { m with offcmd := F.FDR_CMD_OFFLINE.get v = 1 }) s

def writePlc (host : Bool) (r : RegRow) (a : Nat) (v : Word) (s : State) : State :=
  if a < 0x3200 && a % 0x40 = 0x1C then writeFdrCmd (a % 0x1000 / 0x40) v s
  else if a = R.PLC_HOSTSHED then setLevel (writeHeld host r a v s)
  else writeHeld host r a v s

/-- A write of a unit's registers (R257, R269). -/
def writeAdc (host : Bool) (r : RegRow) (a : Nat) (v : Word) (s : State) : State :=
  let u := (a - 0x4000) / 0x20
  if 0x4440 ≤ a then writeHeld host r a v s
  else if a = R.ADC_CMD u then
    adcCmd u (F.ADC_CMD_CAL.get v = 1) (F.ADC_CMD_SWTRIG.get v = 1) (F.ADC_CMD_DISARM.get v = 1) (F.ADC_CMD_ARM.get v = 1) s
  else
    let w := r.write (s.reg a) v
    writeUnit u a w (if r.cls = .setting then saveSetting host a w s else s)

/-- A keyed write of `BOOT_CMD` (Table 19-2). -/
def writeBootCmd (v : Word) (s : State) : State :=
  if F.BOOT_CMD_KEY.get v ≠ 0xA5 then s
  else
    let s1 := if F.BOOT_CMD_RETRY.get v = 1 then cmdRetry s else s
    let s2 := if F.BOOT_CMD_SAVE.get v = 1 then cmdSave s1 else s1
    if F.BOOT_CMD_REFRESH.get v = 1 then cmdRefresh s2 else s2

/-- A keyed write of `OTP_PCMD`: whether `VPP` is present is a free value. -/
def writeOtpCmd (v : Word) (s : State) : State :=
  if F.OTP_PCMD_KEY.get v ≠ 0x3C then s
  else
    let d := drawNat s
    match F.OTP_PCMD_OP.get v with
    | 1 => otpCommand .blow d.1 d.2
    | 2 => otpCommand .lock d.1 d.2
    | 3 => otpCommand .reread d.1 d.2
    | _ => s

/-- A write of the administration word of the port that `TWM_PASEL` names (R413): `ADIS` stands, poison is replaced. The port
state table of a channel in reset cannot be reached. -/
def writePadmin (v : Word) (s : State) : State :=
  let p := s.fld R.TWM_PASEL F.TWM_PASEL_PORT
  setRec p 13 (s.recOf p 13 &&& 0x8000 ||| v &&& 0x0F01) (wordsWritten (0x30 + p / 128) (64 * (p % 128) + 52) 4 s)

/-- The device-wide registers from 0x5000 to 0xFFFF. -/
def writeDev (host : Bool) (r : RegRow) (a : Nat) (v : Word) (s : State) : State :=
  if a = R.CRU_CHRST then writeChrst v s
  else if a = R.BOOT_CMD then writeBootCmd v s
  else if a = R.OTP_PCMD then writeOtpCmd v s
  else if a = R.TWM_PADMIN then writePadmin v s
  else if a = R.LNK_CMD then writeLnkCmd v s
  else if a = R.UPD_CMD then writeUpdCmd v s
  else if a = R.UPD_OWNER then writeOwner v s
  else writeHeld host r a v s

/-- A write of `CTX_CMD`: RELEASE; other codes have no effect. -/
def writeCtxCmd (c : Nat) (v : Word) (s : State) : State :=
  if F.CTX_CMD_OP.get v = 1 then releaseCtx c (F.CTX_CMD_ID.get v) (BitVec.ofNat 8 (F.CTX_CMD_GEN.get v)) s else s

/-- The registers of context `n`; `CTX_DATA_n` of any context takes the word. -/
def writeCtx (c o : Nat) (v : Word) (s : State) : State :=
  let n := (o - 0x800) / 16
  match o % 16 / 4 with
  | 1 => writeCtxTimer c n false v s
  | 2 => writeCtxTimer c n true v s
  | 3 => updCtx c n (fun x => { x with data := v }) s
  | _ => s

/-- The registers of a channel block. -/
def writeChn (host : Bool) (r : RegRow) (a : Nat) (v : Word) (s : State) : State :=
  let c := (a - 0x10000) / 0x4000
  let o := a % 0x4000
  if 0x800 ≤ o && o < 0xC00 then writeCtx c o v s
  else if o = 0xC08 then writeCtxCmd c v s
  else if o = 0xC14 then panPut c (F.CTX_PANPUT_PAN.get v) s
  else if o = 0xC18 then ctxTx c (F.CTX_TX_PAN.get v) s
  else if o = 0x1008 then pushOp c (OpKind.ofCode (v.toNat / 2 ^ 28)) (v.toNat % 128) s
  else if o = 0x1018 then serveMarks c (abortOps c (v.toNat % 128) s)
  else if o = 0x1804 then hvCmd (128 * c + F.CHN_HVCMD_PORT.get v) (F.CHN_HVCMD_OP.get v) s
  else if 0x1A00 ≤ o && o < 0x1C00 then writeHvst (128 * c + (o - 0x1A00) / 4) v s
  else if o = 0x201C then wdKick c v s
  else if o = 0x2024 then crsCmd c v s
  else writeHeld host r a v s

/-- A write of `PRT_CMD`: the administrative bits act for the management plane, and together they do nothing (R141). -/
def writePrtCmd (host : Bool) (p : Nat) (v : Word) (s : State) : State :=
  let en := F.PRT_CMD_ADMIN_EN.get v = 1
  let dis := F.PRT_CMD_ADMIN_DIS.get v = 1
  let s1 := if host && en && !dis then adminEn p s else if host && dis && !en then adminDis p s else s
  if F.PRT_CMD_UNLOCK.get v = 1 then cmdUnlock p s1 else s1

/-- A course write of `PRT_PDCMD`; `ALLOC` and `CANCEL` together do nothing (R164). -/
def writePdCmd (p : Nat) (v : Word) (s : State) : State :=
  let alloc := F.PRT_PDCMD_ALLOC.get v = 1
  let cancel := F.PRT_PDCMD_CANCEL.get v = 1
  let s1 := if alloc && !cancel then allocCtx p s else if cancel && !alloc then cancelCtx p s else s
  let s2 := if F.PRT_PDCMD_CABLE_RESET.get v = 1 then cableReset p s1 else s1
  if F.PRT_PDCMD_HARD_RESET.get v = 1 then cmdHardReset p s2 else s2

/-- The registers of a port block. -/
def writePrt (host : Bool) (r : RegRow) (a : Nat) (v : Word) (s : State) : State :=
  let p := (a - 0x100000) / 0x100
  match a % 0x100 with
  | 0x0C => writePortSetting host p .cccfg v s
  | 0x10 => writePortSetting host p .inrush v s
  | 0x14 => writePortSetting host p .limit v s
  | 0x18 => writePortSetting host p .retry v s
  | 0x1C => writePortSetting host p .pgwin v s
  | 0x34 => writePrtCmd host p v s
  | 0x48 => writeKa p v s
  | 0x54 => writePdCmd p v s
  | _ => writeHeld host r a v s

/-- Writes the register at host address `a`, which the map has and which `who` may write. -/
def writeReg (who : Who) (r : RegRow) (a : Nat) (v : Word) (s : State) : State :=
  let host := decide (who = .host)
  if a < 0x1000 then writeHeld host r a v s
  else if a < 0x2000 then
    (if a = R.ANG_SNAP_CTL then (if F.ANG_SNAP_CTL_SNAP.get v = 1 then angSnap s else s) else writeHeld host r a v s)
  else if a < 0x3000 then writeTmu who r a v s
  else if a < 0x4000 then writePlc host r a v s
  else if a < 0x5000 then writeAdc host r a v s
  else if a < 0x10000 then writeDev host r a v s
  else if a < 0x20000 then writeChn host r a v s
  else writePrt host r a v s

/-! ### The management plane's accesses (R344-R348, R460-R463) -/

/-- The place of word `w` of port `p`'s record in the port state tables. -/
def recPlace (p w : Nat) : Nat × Nat := (0x30 + p / 128, 64 * (p % 128) + 4 * w)

/-- The places in the placement table of the entry of port `p`, of word `w` of the row of feeder `f` and of the use of group `g`, in
bank `b` (log 56). -/
def entPlace (b : Bool) (p : Nat) : Nat × Nat := (0x50, 0x1000 * b.toNat + 4 * p)
def rowPlace (b : Bool) (f w : Nat) : Nat × Nat := (0x50, 0x1000 * b.toNat + 0x800 + 32 * f + 4 * w)
def usedPlace (b : Bool) (g : Nat) : Nat × Nat := (0x50, 0x1000 * b.toNat + 0xA00 + 4 * g)

/-- The place in the image tables of a register that they hold (Table 12-2, log 57). -/
def imagePlace (a : Nat) : Option Nat :=
  let o := a % 0x4000
  let c := (a - 0x10000) / 0x4000
  if R.PLC_GRP 0 ≤ a && a < R.PLC_GRP 0 + 0x400 then some (a - R.PLC_GRP 0)
  else if a < 0x10000 || 0x20000 ≤ a then none
  else if 0x200 ≤ o && o < 0x400 then some (0x400 + 0x200 * c + (o - 0x200))
  else if 0x400 ≤ o && o < 0x800 then some (0xC00 + 0x400 * c + (o - 0x400))
  else if 0x1900 ≤ o && o < 0x1A00 then some (0x1C00 + 0x100 * c + (o - 0x1900))
  else none

/-- The word of a memory that a register shows (Table 12-2). -/
def State.regPlaces (s : State) (a : Nat) : List (Nat × Nat) :=
  if 0x100000 ≤ a then
    let p := (a - 0x100000) / 0x100
    match a % 0x100 with
    | 0x60 => [recPlace p 0] | 0x64 => [recPlace p 1] | 0x68 => [recPlace p 2] | 0x6C => [recPlace p 3]
    | 0x24 => [recPlace p 4] | 0x20 => [recPlace p 5] | 0x28 => [recPlace p 6]
    | 0x70 => [recPlace p 11] | 0x74 => [recPlace p 12]
    | _ => []
  else if a = R.TWM_PADMIN then [recPlace (s.fld R.TWM_PASEL F.TWM_PASEL_PORT) 13]
  else if R.PLC_ENT 0 ≤ a && a < 0x4000 then [entPlace s.active ((a - R.PLC_ENT 0) / 4)]
  else if 0x3000 ≤ a && a < 0x3200 && 0x20 ≤ a % 0x40 && a % 0x40 ≤ 0x30 then
    [rowPlace s.active (a % 0x1000 / 0x40) ((a % 0x40 - 0x20) / 4)]
  else if a = R.PLC_GUSED then [usedPlace s.active (s.fld R.PLC_GSEL F.PLC_GSEL_G)]
  else match imagePlace a with
    | some o => [(0x51, o)]
    | none => []

/-- A management-plane access to a poisoned word sets the access-error flag; the manual names no cause for it. -/
def maPoison (a : Nat) (s : State) : State :=
  let d := drawNat s
  maErr (d.1 % 8) (BitVec.ofNat 32 a) d.2

/-- What a management-plane access answers: the value read, whether the access failed, and the state after it. -/
structure Answer where
  val : Word
  failed : Bool
  st : State

/-- A word read by the management plane: through the window, in a request, or through MEMACC. -/
def hostRead (a : Nat) (s : State) : Answer :=
  if !implemented a then ⟨0xFFFFFFFF, true, s⟩
  else
    match s.accessCause a with
    | some k => ⟨0xFFFFFFFF, true, maErr k (BitVec.ofNat 32 a) s⟩
    | none =>
      match findReg a with
      | none => ⟨0, false, s⟩
      | some r =>
        if r.cls = .noHostRead then ⟨0, false, s⟩
        else
          let t := seen (s.regPlaces a) s
          if t.anyPoison (s.regPlaces a) then ⟨0xFFFFFFFF, false, maPoison a t⟩
          else
            let x := readReg r a t
            ⟨x.1, false, x.2⟩

/-- The host may write the register (Table 19-2). -/
def RegRow.hostWrites (r : RegRow) : Bool :=
  !r.readOnly && (match r.cls with
    | .image | .course | .noHostRead => false
    | .plain | .mgmt | .setting => true)

/-- A word written by the management plane. -/
def hostWrite (a : Nat) (v : Word) (s : State) : Bool × State :=
  if !implemented a then (true, s)
  else
    match s.accessCause a with
    | some k => (true, maErr k (BitVec.ofNat 32 a) s)
    | none =>
      match findReg a with
      | none => (false, s)
      | some r => (false, if r.hostWrites then afterWrite (writeReg .host r a v s) else s)

/-- A host read as a command. -/
def hostReadCmd (a : Nat) (s : State) : State :=
  twmCmd (fun t => let x := hostRead a t; setBus x.val x.st) s

/-! ### The low-half reads (R76, R94, R97, R98, R266, R464) -/

def execAngCycLoRead (s : State) : Host.Outcome State Fault Refusal := .next (hostReadCmd R.ANG_CYC_LO s)

def execAngUsecLoRead (s : State) : Host.Outcome State Fault Refusal := .next (hostReadCmd R.ANG_USEC_LO s)

def execTmuCapRead (n : Fin 32) (s : State) : Host.Outcome State Fault Refusal := .next (hostReadCmd (R.TMU_CAP n) s)

def execTmuCntRead (n : Fin 32) (s : State) : Host.Outcome State Fault Refusal := .next (hostReadCmd (R.TMU_CNT n) s)

def execHrvCycLoRead (s : State) : Host.Outcome State Fault Refusal := .next (hostReadCmd R.HRV_CYC_LO s)

def execHrvEnergyLoRead (f : Fin 8) (inn : Bool) (s : State) : Host.Outcome State Fault Refusal :=
  .next (hostReadCmd (if inn then R.HRV_FIN_LO f else R.HRV_FOUT_LO f) s)

/-- `PRT_ELO` is read by the host or by the course that owns the port. -/
def execPrtEloRead (who : Who) (p : Fin 512) (s : State) : Host.Outcome State Fault Refusal :=
  .next (match who with
    | .host => hostReadCmd (R.PRT_ELO p) s
    | .course c => if p.val / 128 = c.val && s.chanUp c then readCmd (readElo p s) else s)

def execGlbSerialLoRead (s : State) : Host.Outcome State Fault Refusal := .next (hostReadCmd R.GLB_SERIAL_LO s)

/-- A write of `TWM_PADMIN` (R413). -/
def execTwmPadminWrite (v : Word) (s : State) : Host.Outcome State Fault Refusal :=
  .next (twmCmd (fun t => (hostWrite R.TWM_PADMIN v t).2) s)

end Sys2Proof.Machine
end

