-- ==== Sys2Proof/Machine/CourseMap.lean ====
section
/-! DEFINITION. The course's address map (R289-R292, Tables 10-7 to 10-12): what a course load returns and what a course store
does when it lands, and the REGISTER_WRITE row. -/
namespace Sys2Proof.Machine

/-- What a course address names (Table 10-9). -/
inductive Spot where
  | code (off : Nat)
  | data (off : Nat)
  | pan (off : Nat)
  | rec_ (k w : Nat)
  | reg (a : Nat)
  | tmu (a : Nat)
  | view (a : Nat)
  | ent (k : Nat)
  | round
  | row (f w : Nat)
  | mbxCmd (i off : Nat)
  | mbxResp (i off : Nat)
  | mbxStat | mbxTake | mbxDone
  | pev (j : Nat)
  | outside
deriving DecidableEq, Repr

/-- The host addresses of the angle views, in the order of Table 10-9. -/
def angleViews : List Nat := [R.ANG_ANGLE, R.ANG_CYC_LO, R.ANG_CYC_HI, R.ANG_USEC_LO, R.ANG_USEC_HI, R.ANG_FREQ]

/-- A register of a block at a host address, where the map has one. -/
def regSpot (f : Nat → Spot) (a : Nat) : Spot := if (findReg a).isSome then f a else .outside

/-- The place of a course address, aligned to a word outside the byte-addressed memories. -/
def courseSpot (c a : Nat) : Spot :=
  if a < 0x30000 then .code a
  else if 0x40000 ≤ a && a < 0x50000 then .data (a - 0x40000)
  else if 0x80000 ≤ a && a < 0x84000 then regSpot .reg (0x10000 + 0x4000 * c + (a - 0x80000))
  else if 0x90000 ≤ a && a < 0x94000 then .pan (a - 0x90000)
  else if 0xA0000 ≤ a && a < 0xA2000 then .rec_ ((a - 0xA0000) / 64) (a % 64 / 4)
  else if 0xB0000 ≤ a && a < 0xB8000 then regSpot .reg (0x100000 + 0x8000 * c + (a - 0xB0000))
  else if 0xC0000 ≤ a && a < 0xC0200 then regSpot .tmu (0x2000 + 0x200 * c + (a - 0xC0000))
  else if 0xC0200 ≤ a && a < 0xC0204 then .tmu R.TMU_RUN
  else if 0xC0204 ≤ a && a < 0xC0208 then .tmu R.TMU_GSTART
  else if 0xC0208 ≤ a && a < 0xC020C then .tmu R.TMU_GSTOP
  else if 0xC020C ≤ a && a < 0xC0210 then .tmu R.TMU_TINLVL
  else if 0xC0300 ≤ a && a < 0xC0318 then .view (angleViews.getD ((a - 0xC0300) / 4) 0)
  else if 0xC1000 ≤ a && a < 0xC1100 then regSpot .reg (0x4000 + 0x100 * c + (a - 0xC1000))
  else if 0xD0000 ≤ a && a < 0xD0200 then .ent ((a - 0xD0000) / 4)
  else if 0xD0200 ≤ a && a < 0xD0204 then .round
  else if 0xD0400 ≤ a && a < 0xD0500 then
    (if a % 0x20 < 0x14 then .row ((a - 0xD0400) / 0x20) (a % 0x20 / 4) else .outside)
  else if 0xE0000 ≤ a && a < 0xE0400 then
    (if a % 0x80 < 0x40 then .mbxCmd ((a - 0xE0000) / 0x80) (a % 0x40) else .mbxResp ((a - 0xE0000) / 0x80) (a % 0x40))
  else if 0xE0400 ≤ a && a < 0xE0404 then .mbxStat
  else if 0xE0404 ≤ a && a < 0xE0408 then .mbxTake
  else if 0xE0408 ≤ a && a < 0xE040C then .mbxDone
  else if 0xE1000 ≤ a && a < 0xE1010 then .pev ((a - 0xE1000) / 4)
  else .outside

/-- The regions that take halfword and byte accesses (R290). -/
def Spot.narrow : Spot → Bool
  | .code _ | .data _ | .pan _ | .rec_ _ _ => true
  | _ => false

/-- An access that waits for TCLK hangs while it is lost (R346). -/
def State.hangs (s : State) : Spot → Bool
  | .tmu _ => !s.tclk
  | _ => false

/-- The course's access-error flag, with the address of the first access since it was cleared (Table 10-1). -/
def setAe (c : Nat) (a : Word) (s : State) : State :=
  updCrs c (fun x => if x.ae then x else { x with ae := true, aeAddr := a }) s

/-! ### The port state record (Table 10-7) -/

def State.recWord (s : State) (p w : Nat) : Word :=
  match w with
  | 0 => s.reg (R.PRT_MVOLT p)
  | 1 => s.reg (R.PRT_MCURR p)
  | 2 => s.reg (R.PRT_MTEMP p)
  | 3 => s.reg (R.PRT_MUSEC p)
  | 4 => s.stateWord p
  | 5 => s.targetWord p
  | 6 => s.timersWord p
  | 7 => s.recOf p 7
  | 8 => s.recOf p 8 &&& 0xF000FFFF ||| BitVec.ofNat 32 ((s.hubOf p).ctxId * 65536)
  | 9 => BitVec.ofNat 32 (s.pif p)
  | 10 => s.recOf p 10
  | 11 => s.reg (R.PRT_ELO p)
  | 12 => (s.harvOf p).hi
  | 13 => s.recOf p 13
  | _ => 0

/-- The hub compares a written contract group with the port's ceiling (R196). -/
def contractWritten (p : Nat) (s : State) : State :=
  if (s.mirOf p).powered then checkDeadline p (F.PLC_ENT_CEIL.get (s.entOf p)) (s.ceilSince p) s else s

/-- The word with `n` bytes from byte `i` replaced. -/
def mergeBytes (old : Word) (i n : Nat) (v : Word) : Word :=
  let m := BitVec.ofNat 32 ((2 ^ (8 * n) - 1) * 2 ^ (8 * i))
  (old &&& ~~~m) ||| ((v <<< (8 * i)) &&& m)

/-- A course store into a record word; `none` where the word has another writer. -/
def storeRec (p w i n : Nat) (v : Word) (s : State) : Option State :=
  if w = 7 || w = 8 || w = 10 then
    let x := mergeBytes (s.recOf p w) i n v
    some (contractWritten p (setRec p w (if w = 8 then x &&& 0xF000FFFF else x) s))
  else if w = 9 then some s
  else none

/-! ### Loads -/

/-- `MBX_STAT` (Table 10-12). -/
def State.mbxStat (s : State) (c : Nat) : Word :=
  let taken := bitsOf 8 fun i => match s.mbxOf c i with | some e => e.taken | none => false
  let posted := bitsOf 8 fun i => match s.mbxOf c i with | some e => !e.taken | none => false
  BitVec.ofNat 32 ((s.crsOf c).mbxErr.toNat * 2 ^ 31 + taken * 256 + posted)

/-- Port `p` is marked in the port event summary (Table 10-12). -/
def State.pevBit (s : State) (p : Nat) : Bool :=
  s.reg (R.PRT_PDEVT p) != 0 || (s.hubOf p).testReq || (s.hubOf p).exitReq

def State.pevWord (s : State) (c j : Nat) : Word := BitVec.ofNat 32 (bitsOf 32 fun b => s.pevBit (128 * c + 32 * j + b))

/-- The word of an angle view; the low halves latch the course's own high halves (R289). -/
def readView (c a : Nat) (s : State) : Word × State :=
  let hi (v : Nat) : Word := BitVec.ofNat 32 (v / 2 ^ 32)
  if a = R.ANG_ANGLE then (s.angleWord, s)
  else if a = R.ANG_CYC_LO then
    (BitVec.ofNat 32 s.tb.cyc.toNat, updCrs c (fun x => { x with cycHi := hi s.tb.cyc.toNat }) s)
  else if a = R.ANG_CYC_HI then ((s.crsOf c).cycHi, s)
  else if a = R.ANG_USEC_LO then
    (BitVec.ofNat 32 s.tb.usec.toNat, updCrs c (fun x => { x with usecHi := hi s.tb.usec.toNat }) s)
  else if a = R.ANG_USEC_HI then ((s.crsOf c).usecHi, s)
  else (s.reg a, s)

/-- The eight counters of channel `c` in a device-wide word. -/
def ownCounters (c : Nat) : Word := BitVec.ofNat 32 (255 * 2 ^ (8 * c))

/-- A register of the counter window as the course reads it. -/
def readTmuSpot (c a : Nat) (s : State) : Word × State :=
  match findReg a with
  | some r =>
    let x := readReg r a s
    (if a = R.TMU_RUN then x.1 &&& ownCounters c else x.1, x.2)
  | none => (0, s)

/-- The round number that belongs to the bank that channel `c` sees. -/
def State.chRound (s : State) (c : Nat) : Word :=
  if (s.chanOf c).bank = s.active then s.reg R.PLC_ROUND else s.reg R.PLC_ROUND - 1

/-- The lane answers while the management plane is out of reset; an access wakes it (R350, Table 13-5). -/
def laneRead (f : State → Word × State) (s : State) : Option (Word × State) :=
  if s.mgmtUp then some (f (wakeUp 3 s)) else none

/-- The words of the memories of Table 12-2 that an access to a spot reads. -/
def State.spotPlaces (s : State) (c : Nat) : Spot → List (Nat × Nat)
  | .code o => [(c, o)]
  | .data o => [(0x10 + c, o)]
  | .pan o => [(0x20 + c, o)]
  | .rec_ k w => [recPlace (128 * c + k) w]
  | .reg a => s.regPlaces a
  | .ent k => [entPlace (s.chanOf c).bank (128 * c + k)]
  | .row f w => [rowPlace (s.chanOf c).bank f w]
  | .mbxCmd e o => [(0x53, mbxOff c e + o)]
  | .mbxResp e o => [(0x53, mbxOff c e + 64 + o)]
  | .tmu _ | .view _ | .round | .mbxStat | .mbxTake | .mbxDone | .pev _ | .outside => []

/-- A word-aligned load, or a byte offset of a byte-addressed memory with `n` bytes: the value and the state after it; `none`
where the access errs. -/
def loadSpot (c i n : Nat) (sp : Spot) (s : State) : Option (Word × State) :=
  match sp with
  | .code o => some (BitVec.ofNat 32 (s.leAt c o n), s)
  | .data o => some (BitVec.ofNat 32 (s.leAt (0x10 + c) o n), s)
  | .pan o => some (BitVec.ofNat 32 (s.leAt (0x20 + c) o n), s)
  | .rec_ k w => some ((s.recWord (128 * c + k) w >>> (8 * i)) &&& BitVec.ofNat 32 (2 ^ (8 * n) - 1), s)
  | .reg a => (findReg a).map fun r => readReg r a s
  | .tmu a => some (readTmuSpot c a s)
  | .view a => some (readView c a s)
  | .ent k => some (s.chEnt (128 * c + k), s)
  | .round => some (s.chRound c, s)
  | .row f w => some ((tabGet FdrRow.init (s.bankOf (s.chanOf c).bank).fdr f).word w, s)
  | .mbxCmd e o => laneRead (fun t => (BitVec.ofNat 32 (t.leAt 0x53 (mbxOff c e + o) 4), t)) s
  | .mbxResp e o => laneRead (fun t => (BitVec.ofNat 32 (t.leAt 0x53 (mbxOff c e + 64 + o) 4), t)) s
  | .mbxStat => laneRead (fun t => (t.mbxStat c, t)) s
  | .mbxTake => laneRead (mbxTake c) s
  | .mbxDone => laneRead (fun t => (0, t)) s
  | .pev j => some (s.pevWord c j, s)
  | .outside => none

/-- A course load of `n` bytes at an address aligned to its width: all ones in its width and `AE` where it errs (R16, R290), as it
does on a poisoned word (Table 12-2). A poisoned word of code or data RAM stops the course instead, which the caller sees to. -/
def courseLoad (c n : Nat) (a : Word) (s : State) : Word × State :=
  let sp := courseSpot c a.toNat
  let err (t : State) : Word × State := (BitVec.ofNat 32 (2 ^ (8 * n) - 1), setAe c a t)
  if n = 4 || sp.narrow then
    let t := seen (s.spotPlaces c sp) s
    if t.anyPoison (s.spotPlaces c sp) then err t
    else match loadSpot c (a.toNat % 4) n sp t with
      | some r => r
      | none => err t
  else err s

/-! ### Stores -/

/-- What the course column of Table 19-2 makes of a store. -/
inductive Grant where
  | acts | ignored | denied
deriving DecidableEq, Repr

def RegRow.courseGrant (r : RegRow) : Grant :=
  match r.cls with
  | .image => .ignored
  | .mgmt => .denied
  | .plain | .course | .noHostRead | .setting => if r.readOnly then .denied else .acts

/-- A store to a register of the course's map; the administrative bits of `PRT_CMD` err (R141). -/
def storeReg (c : Fin 4) (a : Nat) (v : Word) (s : State) : Option State :=
  match findReg a with
  | none => none
  | some r =>
    match r.courseGrant with
    | .ignored => some s
    | .denied => none
    | .acts => some (afterWrite (writeReg (.course c) r a v s))

/-- The store also sets `AE` although part of it acts. -/
def storeErrs (a : Nat) (v : Word) : Bool :=
  0x100000 ≤ a && a % 0x100 = 0x34 && (F.PRT_CMD_ADMIN_EN.get v = 1 || F.PRT_CMD_ADMIN_DIS.get v = 1)

/-- A store into the lane, while the management plane is out of reset. -/
def laneStore (f : State → Option State) (s : State) : Option State := if s.mgmtUp then f (wakeUp 3 s) else none

/-- A store of `n` bytes lands at a spot; `none` where it has no effect and errs. -/
def storeSpot (c : Fin 4) (i n : Nat) (sp : Spot) (v : Word) (s : State) : Option State :=
  match sp with
  | .data o => some (setBytes (0x10 + c) o (natLe n v.toNat) s)
  | .pan o => some (setBytes (0x20 + c) o (natLe n v.toNat) s)
  | .rec_ k w => storeRec (128 * c + k) w i n v s
  | .reg a => storeReg c a v s
  | .tmu a => storeReg c a v s
  | .mbxResp e o => laneStore (fun t => some (setBytes 0x53 (mbxOff c e + 64 + o) (natLe 4 v.toNat) t)) s
  | .mbxStat =>
    laneStore (fun t => some (if v.getLsbD 31 then updCrs c (fun x => { x with mbxErr := false }) t else t)) s
  | .mbxDone => laneStore (fun t => some (mbxDone c (v.toNat / 256 % 8) (v.toNat % 128) t)) s
  | .code _ | .view _ | .ent _ | .round | .row _ _ | .mbxCmd _ _ | .mbxTake | .pev _ | .outside => none

/-- The word of a memory that a course store changes in part: the store reads it, changes it and writes it back (R315). -/
def Spot.merged (c : Nat) : Spot → List (Nat × Nat)
  | .data o => [(0x10 + c, o)]
  | .pan o => [(0x20 + c, o)]
  | .rec_ k w => [recPlace (128 * c + k) w]
  | .mbxResp e o => [(0x53, mbxOff c e + 64 + o)]
  | _ => []

/-- A course store of `n` bytes takes effect (R16, R289, R290); into a poisoned word it has none and errs (R316). -/
def courseStore (c : Fin 4) (n : Nat) (a v : Word) (s0 : State) : State :=
  let sp := courseSpot c a.toNat
  let s := seen (sp.merged c) s0
  let errs : Bool := match sp with
    | .reg b => storeErrs b v
    | _ => false
  match (if (n = 4 || sp.narrow) && !s.anyPoison (sp.merged c) then storeSpot c (a.toNat % 4) n sp v s else none) with
  | some t => if errs then setAe c a t else t
  | none => setAe c a s

/-! ### REGISTER_WRITE -/

/-- A word written by the host at a host address, or by a course at an address of its map; the course's access hangs while
TCLK is lost (R346). -/
def registerWrite (who : Who) (a v : Word) (s : State) : State :=
  match who with
  | .host => twmCmd (fun t => (hostWrite (a.toNat / 4 * 4) v t).2) s
  | .course c =>
    if !s.chanUp c then s
    else if s.hangs (courseSpot c (a.toNat / 4 * 4)) then hang c s
    else courseStore c 4 (BitVec.ofNat 32 (a.toNat / 4 * 4)) v s

def execRegisterWrite (who : Who) (a v : Word) (s : State) : Host.Outcome State Fault Refusal :=
  .next (registerWrite who a v s)

/-! ### MEMACC (R457, Table 15-4) -/

/-- Debug access to a word of a RAM of channel `c`. A channel in reset answers as to any management-plane access, though the
manual names no address for it; what a poisoned word reads as here is open. -/
def ramAcc (c id off : Nat) (w : Option Word) (s : State) : State :=
  let o := off / 4 * 4
  if !s.chanUp c then
    let d := drawWord s
    let t := maErr 1 d.1 d.2
    if w.isSome then t else setBus 0xFFFFFFFF t
  else
    let t := seen [(id, o)] s
    match w with
    | some v => if t.poisoned id o then t else setBytes id o (natLe 4 v.toNat) t
    | none => if t.poisoned id o then readCmd (drawWord t) else setBus (BitVec.ofNat 32 (t.leAt id o 4)) t

def memAcc (m : MemAcc) (s : State) : State :=
  match m with
  | .code c o w => ramAcc c c o.toNat w s
  | .data c o w => ramAcc c (0x10 + c) o.toNat w s
  | .reg a none => hostReadCmd (a.toNat / 4 * 4) s
  | .reg a (some v) => (hostWrite (a.toNat / 4 * 4) v s).2

/-- MEMACC acts as BYPASS once `DEBUG_KILL` is latched (R395). Its access follows the rules of the host's (R457): it wakes a quiet
plane, DESIGN CHOICE (log 87). -/
def execTapMemacc (a : MemAcc) (s : State) : Host.Outcome State Fault Refusal :=
  .next (if s.debugKill then setTap 15 s else twmCmd (memAcc a) (setTap 9 s))

end Sys2Proof.Machine
end

