-- ==== Sys2Proof/Machine/Chain.lean ====
section
/-! DEFINITION. Domain requests (R408, R409, R433, Table 16-4, Table 16-6): how a device executes one, and the REQ and RESP
frames. -/
namespace Sys2Proof.Machine

/-- A request buffer matches its `KIND` (Table 16-4). -/
def requestOk (kind : Nat) (data : List Byte) : Bool :=
  match kind with
  | 1 => data.length = 5 && 1 ≤ leNat (data.drop 4) && leNat (data.drop 4) ≤ 16
  | 2 => 8 ≤ data.length && data.length ≤ 64 && data.length % 4 = 0
  | 3 => 1 ≤ data.length && data.length ≤ 64
  | _ => false

/-- `n` words read in ascending addresses: their bytes, whether an access failed, the state after them. -/
def requestRead : Nat → Nat → State → List Byte × Bool × State
  | 0, _, s => ([], false, s)
  | n + 1, a, s =>
    let x := hostRead (a / 4 * 4) s
    let r := requestRead n ((a + 4) % 2 ^ 32) x.st
    (natLe 4 x.val.toNat ++ r.1, x.failed || r.2.1, r.2.2)

/-- The words of a WRITE in ascending addresses; `n` bounds their number. -/
def requestWrite : Nat → Nat → List Byte → State → Bool × State
  | 0, _, _, s => (false, s)
  | n + 1, a, l, s =>
    if l.length < 4 then (false, s)
    else
      let x := hostWrite (a / 4 * 4) (BitVec.ofNat 32 (leNat (l.take 4))) s
      let r := requestWrite n ((a + 4) % 2 ^ 32) (l.drop 4) x.2
      (x.1 || r.1, r.2)

/-- A device executes a request and answers its origin: ACCERR where an access failed, REFUSED where the buffer does not match
the kind; an MBOX request is answered from its lane (R29-R31). -/
def runRequest (o : Origin) (kind ch : Nat) (data : List Byte) (s : State) : State :=
  let st (failed : Bool) : Nat := if failed then 7 else 2
  if !requestOk kind data then answerOrigin o 3 [] s
  else if kind = 1 then
    let r := requestRead (leNat (data.drop 4)) (leNat (data.take 4)) s
    answerOrigin o (st r.2.1) r.1 r.2.2
  else if kind = 2 then
    let r := requestWrite 15 (leNat (data.take 4)) (data.drop 4) s
    answerOrigin o (st r.1) [] r.2
  else mbxPost ch o data s

/-- The payload of a REQ (Table 17-3). -/
def reqBytes (kind ch : Nat) (tag : BitVec 8) (data : List Byte) : List Byte :=
  natLe 1 (kind * 16 + ch) ++ natLe 1 tag.toNat ++ data

/-- A REQ that is intact and of this device's level and generation: consumed at its destination, otherwise sent on (R431). -/
def reqRx (n : Nat) (h : Header) (kind ch : Nat) (tag : BitVec 8) (data : List Byte) (s : State) : State :=
  if h.dst.toNat = s.myAddr then runRequest (.domain tag) kind ch data s
  else routeFrame n (frameOf n h .req (reqBytes kind ch tag data)) s

def execLnkReq (n : Fin 4) (h : Header) (kind : BitVec 4) (ch : Fin 4) (tag : BitVec 8) (data : List Byte) (s : State) :
    Host.Outcome State Fault Refusal :=
  .next (if s.hears n then
      recvFrame n h .req (reqBytes kind.toNat ch tag data) (if kind = 3 then 2 else 1) .routed (reqRx n h kind.toNat ch tag data) s
    else s)

/-- The payload of a RESP. -/
def respBytes (st : Nat) (tag : BitVec 8) (data : List Byte) : List Byte := natLe 1 st ++ natLe 1 tag.toNat ++ data

/-- A RESP: the root takes one whose tag and generation match the pending request, and discards any other (R433). -/
def respRx (n : Nat) (h : Header) (st : Nat) (tag : BitVec 8) (data : List Byte) (s : State) : State :=
  if h.dst.toNat = s.myAddr then
    (if s.isRoot && s.pendingTag tag.toNat && s.twm.gen = some h.gen.toNat && 2 ≤ st && st ≤ 11 && data.length ≤ 64 then endRequest st data s else s)
  else routeFrame n (frameOf n h .resp (respBytes st tag data)) s

def execLnkResp (n : Fin 4) (h : Header) (st : BitVec 4) (tag : BitVec 8) (data : List Byte) (s : State) :
    Host.Outcome State Fault Refusal :=
  .next (if s.hears n then recvFrame n h .resp (respBytes st.toNat tag data) 1 .routed (respRx n h st.toNat tag data) s else s)

/-- An upset flips bits of a word of a memory (R313). A poisoned word stays so; an entry of the staging buffer that holds no record
is written before it is read (log 163). -/
def strikeWord (id w : Nat) (f : BitVec 100) (s : State) : State :=
  if id ∈ memIds && 8 * w < memBytes id && !s.poisoned id (8 * w) &&
      (id ≠ 0x52 || s.log.staged.any fun r => r.entry = w / 4) then
    setWordErr id (8 * w) ⟨false, (s.wordErr id (8 * w)).flips ^^^ f⟩ s
  else s

/-- An upset flips bits of a word of a string. -/
def strikeString (c : Fin 4) (i : Fin 3) (w : Nat) (f : Word) (s : State) : State :=
  updCrs c (fun x => x.setStr i ((x.str i).setWord w ((x.str i).word w ^^^ f))) s

/-- What upsets the microsecond that has passed has brought: free values (R313, log 163). -/
def strike (s : State) : State :=
  let s1 := match Config.upset s.clock with
    | some (id, w, f) => strikeWord id w f s
    | none => s
  match Config.stringUpset s.clock with
  | some (c, i, w, f) => strikeString c i w f s1
  | none => s1

/-- The step on an empty queue: 1 µs of USEC passes, an upset may come, and a changed alert value goes out (R71, R313, R435). -/
def idleStep (s : State) : State :=
  let t := markBusy (strike (idle s))
  if t.mgmtUp then alertUpdate t else t

end Sys2Proof.Machine
end

