-- ==== Sys2Proof/Machine/FwBase.lean ====
section
/-! DEFINITION. What the rows of the standard course firmware share (chapters 06, 07): sending a message, timer A, contexts,
contract groups, offers, pushes of steps and Hard Reset. Bit layouts of USB Power Delivery objects are those of Revision
3.2 (PRESUMED). -/
namespace Sys2Proof.Machine

/-- The course runs its firmware. -/
def State.fwRuns (s : State) (c : Nat) : Bool := s.chanUp c && s.crsState c = 1

/-! ### Sending (R151-R153, R492) -/

/-- Takes `n` pans for firmware, as `n` reads of `CTX_PANGET` would. -/
def getPans (c : Nat) : Nat → State → List Nat × State
  | 0, s => ([], s)
  | n + 1, s =>
    let i := pick (s.freePans c) s
    let r := getPans c n (setPan c i.1 .firmware i.2)
    (i.1 :: r.1, r.2)

/-- Firmware sends a message and notes why. `AMS` and `AMSEND` are marked on SOP of a TC port only (R492). With too few free
pans nothing is sent. -/
def say (p : Nat) (sp : Sop) (bytes : List Byte) (ams amsEnd : Bool) (w : Say) (s : State) : State :=
  let c := p / 128
  let n := pansFor bytes.length
  if (s.freePans c).length < n then s
  else
    let r := getPans c n s
    let i := r.1.headD 0
    let mark : Bool := s.cls p = 1 && sp = .sop
    let len := bytes.length + (mark && ams).toNat * 2 ^ 20 + (mark && amsEnd).toNat * 2 ^ 19
    updFw p (fun f => { f with sent := f.sent ++ [(i, w)] }) (ctxTx c i (writeChain c sp len 0 (p % 128) 0 r.1 bytes r.2))

def dataMsg (t : Nat) (l : List Nat) : List Byte := mkHeader t l.length false ++ l.flatMap (natLe 4)

/-- An extended message in joined form (R158). -/
def extMsg (t : Nat) (data : List Byte) : List Byte := mkHeader t 0 true ++ natLe 2 (0x8000 + data.length) ++ data

def sayCtl (p t : Nat) (amsEnd : Bool) (w : Say) (s : State) : State := say p .sop (ctlMsg t) false amsEnd w s

/-! ### Contexts and timer A -/

/-- Writes a timer of the port's context; an expiry still unread is then of the earlier use. -/
def armTimer (p : Nat) (b : Bool) (n : Nat) (s : State) : State :=
  let c := p / 128
  if s.bound p then writeCtxTimer c (s.hubOf p).ctxId b (BitVec.ofNat 32 n) s else s

/-- Counts of Tables 05-8 and 07-2, units of 100 µs. -/
def Wait.count : Wait → Nat
  | .none => 0
  | .sender | .soft | .trans | .same => 300
  | .caps | .vconn => 1500
  | .recover => 8000
  | .disc | .hcaps | .hready => 270
  | .busy => 500

/-- Timer A carries a wait of `n` units, or none. -/
def waitFor (p : Nat) (u : Wait) (n : Nat) (s : State) : State :=
  updFw p (fun f => { f with useA := u, staleA := s.pendTimer p false, waitAt := s.clock, waitN := n }) (armTimer p false n s)

def arm (p : Nat) (u : Wait) (s : State) : State := waitFor p u u.count s

/-- tNoResponse on timer B (R185). -/
def armNoResponse (p : Nat) (on : Bool) (s : State) : State :=
  if on || (s.fwOf p).useB then
    updFw p (fun f => { f with useB := on, staleB := s.pendTimer p true, bAt := s.clock }) (armTimer p true (if on then 50000 else 0) s)
  else s

/-- `CTX_CMD` RELEASE for the port's context. -/
def fwRelease (p : Nat) (s : State) : State :=
  let h := s.hubOf p
  if h.ctxId = 0 then s
  else releaseCtx (p / 128) h.ctxId h.gen (updFw p (fun f => { f with useA := .none, useB := false, swapCtx := false }) s)

/-- A wait of timer A that no context carries is over: its time has passed. -/
def State.waitOver (s : State) (p : Nat) : Bool := s.past (s.fwOf p).waitAt (100 * (s.fwOf p).waitN)

/-- `ALLOC` has given no BOUND entry within 5 ms (Tables 06-5, 06-7). -/
def State.allocLate (s : State) (p : Nat) : Bool := !s.bound p && s.past (s.fwOf p).wantAt 5000

/-- `ALLOC`, noting what the context is for; a port that waits already only notes it. -/
def fwAlloc (p : Nat) (w : Want) (s : State) : State :=
  let s1 := updFw p (fun f => { f with want := w, wantAt := s.clock }) s
  if s.waiting p || (s.hubOf p).ctxId != 0 then s1 else allocCtx p s1

/-! ### The contract group (R183, R184, R192) -/

/-- The contract that stands: voltage, current and object position; where the group holds none, the port's target. -/
def State.contractOf (s : State) (p : Nat) : Nat × Nat × Nat :=
  let w := (s.recOf p 7).toNat
  if w = 0 then ((s.mirOf p).vtgt, (s.mirOf p).icon, 0) else (w / 65536, w % 65536, s.objPos p)

/-- Requested power of a voltage and a current, in 100 mW, rounded up (R183). -/
def powerOf (v i : Nat) : Nat := (v * i + 99999) / 100000

/-- Writes the requested power. -/
def writeRequested (p pw : Nat) (s : State) : State :=
  let w8 := (s.recOf p 8 &&& 0xF0000000) ||| BitVec.ofNat 32 (min pw 65535)
  writeContract p (s.recOf p 7) w8 (s.recOf p 10) s

/-- The requested power goes back to the power of the present contract (R186). -/
def requestedBack (p : Nat) (s : State) : State := writeRequested p (s.contractPower p) s

/-- Records a contract; the requested power is that of the contract. -/
def recordContract (p v i pos : Nat) (s : State) : State :=
  updFw p (fun f => { f with knows := true }) <| writeContract p (BitVec.ofNat 32 (v * 65536 + i)) (BitVec.ofNat 32 (pos * 2 ^ 28 + min (powerOf v i) 65535)) (s.recOf p 10) s

/-- A message left unanswered is counted in bits 7:0 of word 10 (R192). -/
def countUnanswered (p : Nat) (s : State) : State :=
  writeContract p (s.recOf p 7) (s.recOf p 8) (BitVec.ofNat 32 (min 255 ((s.recOf p 10).toNat % 256 + 1))) s

/-! ### Offers (R179-R182) -/

def State.ppol (s : State) (p : Nat) : Word := s.reg (R.CHN_PPOL (p / 128) (p % 128))

/-- Profile word at position `w` + 1 of the port. -/
def State.profWord (s : State) (p w : Nat) : Word := s.reg (R.CHN_PROF (p / 128) (F.CHN_PPOL_PROF.get (s.ppol p)) w)

/-- `epr_ok`, given whether the port is in EPR mode (R179). -/
def State.eprOk (s : State) (p : Nat) (inEpr : Bool) : Bool :=
  s.cls p = 1 && F.CHN_PPOL_EPR_EN.get (s.ppol p) = 1 && (s.fwOf p).cabEpr && inEpr

/-- The profile holds an EPR object and `EPR_EN` = 1: EPR Mode Capable (R181). -/
def State.eprCapable (s : State) (p : Nat) : Bool :=
  F.CHN_PPOL_EPR_EN.get (s.ppol p) = 1 &&
    ((List.range 4).any fun w => F.CHN_PROF_KIND.get (s.profWord p (7 + w)) != 3)

/-- The object of position `w` + 1 as it is emitted (R180, R181), or none. -/
def State.offerObj (s : State) (p : Nat) (epr : Bool) (w : Nat) : Option Nat :=
  let o := s.profWord p w
  let pw := s.chCeil p * 100
  let vm := F.CHN_PROF_VMAX.get o
  let vmax := vm * 100
  let cab := (s.fwOf p).cabI
  let capped : Bool := decide ((s.fwOf p).cabV < vmax)
  match F.CHN_PROF_KIND.get o with
  | 0 =>
    let i := min (min (F.CHN_PROF_IMAX.get o * 10) cab) (pw * 1000 / vmax / 10 * 10)
    let j := if w = 0 then max i 100 else i
    if (7 ≤ w && !epr) || capped || (w != 0 && i < 500) then none
    else some ((w = 0 && s.eprCapable p).toNat * 2 ^ 23 + vm * 2 * 1024 + j / 10)
  | 1 =>
    let i := min (min (F.CHN_PROF_IMAX.get o * 10) cab) (pw * 1000 / vmax / 50 * 50)
    if (7 ≤ w && !epr) || F.CHN_PPOL_PPS_EN.get (s.ppol p) = 0 || capped || i < 1000 then none
    else some (3 * 2 ^ 30 + vm * 2 ^ 17 + F.CHN_PROF_VMIN.get o * 256 + i / 50)
  | 2 =>
    let q := min (F.CHN_PROF_IMAX.get o) (pw / 1000)
    if (7 ≤ w && !epr) || capped || q < 15 then none
    else some (13 * 2 ^ 28 + vm * 2 ^ 17 + F.CHN_PROF_VMIN.get o * 256 + q)
  | _ => none

/-- The emitted SPR objects, and the emitted EPR objects. -/
def State.offerSpr (s : State) (p : Nat) : List Nat := (List.range 7).filterMap (s.offerObj p false)

def State.offerEpr (s : State) (p : Nat) (inEpr : Bool) : List Nat :=
  ((List.range 4).map (· + 7)).filterMap (s.offerObj p (s.eprOk p inEpr))

/-- The objects of the capabilities message in the order of its positions. -/
def State.capsObjs (s : State) (p : Nat) : List Nat :=
  let l := s.offerSpr p
  if (s.fwOf p).epr then l ++ List.replicate (7 - l.length) 0 ++ s.offerEpr p true else l

/-- Heavy object `h` + 1 as it is emitted, zero where it is not offered (R209). -/
def State.heavyObj (s : State) (p h : Nat) : Nat :=
  let o := s.reg (R.CHN_HPROF (p / 128) (F.CHN_PPOL_PROF.get (s.ppol p)) h)
  let vmax := F.CHN_HPROF_VMAX.get o * 100
  let i := min (min (F.CHN_HPROF_IMAX.get o * 50) ((s.mirOf p).pimax * 50)) (s.chCeil p * 100 * 1000 / vmax / 50 * 50)
  if F.CHN_HPROF_TYPE.get o = 3 || (s.mirOf p).pvmax * 100 < vmax || i < 1000 then 0
  else o.toNat / 1024 * 1024 + i / 50

def State.heavyObjs (s : State) (p : Nat) : List Nat := (List.range 4).map (s.heavyObj p)

/-- Heavy mode is entered, as the hub knows it. -/
def State.entered (s : State) (p : Nat) : Bool := s.cls p = 2 && (s.mirOf p).entered

def toWords (l : List Nat) : List Word := l.map (BitVec.ofNat 32)

/-- Sends Source_Capabilities or EPR_Source_Capabilities (R180, R185); a port given up sends none. -/
def sendCaps (p : Nat) (reply : Bool) (s : State) : State :=
  let f := s.fwOf p
  if f.dead then s
  else
    let l := s.capsObjs p
    let m := if f.epr then extMsg 17 (l.flatMap (natLe 4)) else dataMsg 1 l
    say p .sop m (!reply) false .caps
      (updFw p (fun g => { g with caps := g.caps + 1, adv := toWords l, owe := false }) s)

/-- `CHN_HVCFG.SVID`. -/
def State.svid (s : State) (p : Nat) : Nat := s.fld (R.CHN_HVCFG (p / 128)) F.CHN_HVCFG_SVID

/-- A structured VDM header of version 2.1 (R207): SVID, object position, command type (0 REQ, 1 ACK, 2 NAK), command. -/
def vdmHead (svid pos ct cmd : Nat) : Nat := svid * 65536 + 0xA800 + pos % 8 * 256 + ct * 64 + cmd

/-- Sends a message that was kept with its reason. -/
def sayAgain (p : Nat) (m : Say × List Byte) (s : State) : State := say p .sop m.2 false false m.1 s

/-- Sends a structured VDM. -/
def sayVdm (p : Nat) (w : Say) (objs : List Nat) (s : State) : State := sayAgain p (w, dataMsg 15 objs) s

/-- Sends HEAVY_CAPS; with no object to offer, Source_Capabilities in its place (R209). -/
def sendHcaps (p : Nat) (s : State) : State :=
  let l := s.heavyObjs p
  if l.all (· = 0) then sendCaps p false (updFw p (fun f => { f with hadv := toWords l }) s)
  else
    sayVdm p .hcaps (vdmHead (s.svid p) (s.fwOf p).mpos 0 16 :: l)
      (updFw p (fun f => { f with hadv := toWords l, owe := false, capsTry := f.capsTry + 1 }) s)

/-- The advertisement of a port: heavy once the mode is entered (R194). -/
def sendOffer (p : Nat) (s : State) : State :=
  if s.entered p then sendHcaps p (updFw p (fun f => { f with capsTry := 0 }) s) else sendCaps p false s

/-- No transition, test or exit stands in the way of an advertisement. -/
def Fw.calm (f : Fw) : Bool := f.tran.isNone && f.req.isNone && !f.test && decide (f.disc = .idle)

/-- Re-advertises once the port holds a context; during a transition or a test it is owed (R194, Tables 06-10, 07-8). -/
def reAdvertise (p : Nat) (s : State) : State :=
  if !(s.fwOf p).calm then updFw p (fun f => { f with owe := true }) s
  else if s.bound p then sendOffer p s
  else fwAlloc p .offer s

/-! ### Hard Reset -/

/-- `PRT_PDCMD.HARD_RESET`; what follows comes with its event. -/
def fwHardReset (p : Nat) (s : State) : State := writePdCmd p 1 (waitFor p .none 0 s)

/-- What firmware forgets at a Hard Reset (R200): the next attach state but for the cable, the count and given-up marks. -/
def Fw.hardReset (f : Fw) : Fw :=
  { Fw.init with hrCount := f.hrCount + 1, cabI := f.cabI, cabV := f.cabV, cabEpr := f.cabEpr, cabTry := f.cabTry,
                 cabDone := f.cabDone, dead := f.dead, recov := true, knows := true, staleA := f.staleA, staleB := f.staleB }

/-- A Hard Reset has been sent or received: a port without a context takes one at once (R200). -/
def hardResetSeen (p : Nat) (s : State) : State :=
  let s1 := armNoResponse p false (waitFor p .none 0 s)
  let s2 := updFw p Fw.hardReset s1
  if s2.bound p then s2 else fwAlloc p .recover s2

/-- Bits of `PRT_PDEVT` that firmware acts on and clears: Hard Reset, and the keep-alive expiry (R189, R190). -/
def fwPortEvents (p : Nat) (s : State) : State :=
  let a := R.PRT_PDEVT p
  let hr := s.flag a F.PRT_PDEVT_HR_RX || s.flag a F.PRT_PDEVT_HR_TX
  let ka := s.flag a F.PRT_PDEVT_KA_EXP
  let s1 := if hr then hardResetSeen p (setFld a F.PRT_PDEVT_HR_TX 0 (setFld a F.PRT_PDEVT_HR_RX 0 s)) else s
  if ka then fwHardReset p (setFld a F.PRT_PDEVT_KA_EXP 0 s1) else s1

/-! ### Pushes -/

/-- `CODE` and `ENTRY` of `OPQ_RESULT`. -/
def State.pushed (s : State) (c : Nat) : Nat × Nat :=
  ((s.reg (R.OPQ_RESULT c)).toNat / 2 ^ 28, (s.reg (R.OPQ_RESULT c)).toNat % 64)

/-- `OPQ_ARG1`. -/
def arg1Of (w slot ph : Nat) (last : Bool) : Word := BitVec.ofNat 32 (w * 65536 + slot * 1024 + ph * 256 + last.toNat)

def State.startSlot (s : State) (p : Nat) : Nat := F.CHN_PPOL_SLOT.get (s.ppol p)

def State.startPhase (s : State) (p : Nat) : Nat := F.CHN_PPOL_PH.get (s.ppol p)

/-- TURN_ON for the start slot; refused with FULL, NOLEG, CEILING, HOLD or LINK it waits for a commit (R184). -/
def tryTurnOn (p : Nat) (s : State) : State :=
  let c := p / 128
  if s.bound p then
    let s1 := pushArgs c .turnOn (p % 128) (s.reg (R.OPQ_ARG0 c)) (arg1Of 0 (s.startSlot p) (s.startPhase p) false) s
    match (s1.pushed c).1 with
    | 0 => updFw p (fun f => { f with onWait := false }) s1
    | 1 | 6 | 7 | 9 | 10 => updFw p (fun f => { f with onWait := true }) s1
    | _ => s1
  else if (s.mirOf p).mayAlloc then fwAlloc p .turnOn s
  else s

/-! ### Transitions (R186, R187) -/

/-- `VTGT` of step `k`: halves rounded away from zero. -/
def Tran.vtgt (t : Tran) (k : Nat) : Nat :=
  if t.v0 ≤ t.v1 then t.v0 + (2 * (t.v1 - t.v0) * k + t.n) / (2 * t.n)
  else t.v0 - (2 * (t.v0 - t.v1) * k + t.n) / (2 * t.n)

/-- `ICON` of step `k`; step 0 is the contract left. -/
def Tran.icon (t : Tran) (k : Nat) : Nat := if k = 0 then t.i0 else if k < t.n then max t.i0 t.i1 else t.i1

def absDiff (a b : Nat) : Nat := max a b - min a b

/-- `W` of step `k`. -/
def Tran.weight (t : Tran) (k : Nat) : Nat :=
  (absDiff (t.icon k) (t.icon (k - 1)) + 9) / 10 + (if t.vtgt (k - 1) < t.vtgt k then 20 else 0)

/-- The transition from the contract that stands to a requested one (R186). -/
def State.newTran (s : State) (p v i pos : Nat) (pps heavy noOp : Bool) : Tran :=
  let x := s.contractOf p
  let step := clampTo 500 10000 (s.fld (R.CHN_GRAD (p / 128)) F.CHN_GRAD_STEP_MV)
  { v0 := x.1, i0 := x.2.1, v1 := v, i1 := i, pos := pos, n := max 1 ((absDiff v x.1 + step - 1) / step), k := 0,
    slot := s.startSlot p, entry := none, noOp := noOp, oneOp := v = 5000 && (s.mirOf p).state = .safe5v, pps := pps,
    heavy := heavy, opened := false, trying := false, last := 0, waited := 0 }

/-- After a refusal with FULL, NOLEG or LINK: the time since the first attempt, link-down time left out. -/
def Tran.retry (t : Tran) (now : BitVec 64) (up : Bool) : Tran :=
  { t with trying := true, last := now, waited := t.waited + (if t.trying && up then (now - t.last).toNat else 0) }

/-- Pushes the next step, or the one CONTRACT operation. -/
def pushStep (p : Nat) (t : Tran) (s : State) : State :=
  let c := p / 128
  let k := t.k + 1
  let one := t.oneOp
  let w := if one then (absDiff t.i1 t.i0 + 9) / 10 else t.weight k
  let last : Bool := decide (k = t.n)
  let arg0 := BitVec.ofNat 32 (if one then t.i1 else t.vtgt k * 65536 + t.icon k)
  let s1 := pushArgs c (if one then .contract else .step) (p % 128) arg0
    (arg1Of w t.slot (s.startPhase p) (!one && last)) s
  let put (u : Tran) : State → State := updFw p (fun f => { f with tran := some u })
  match (s1.pushed c).1 with
  | 0 =>
    let gap := clampTo 1 8 (s.fld (R.CHN_GRAD c) F.CHN_GRAD_GAP)
    put { t with k := if one then t.n else k, slot := (t.slot + gap) % 32, entry := some (s1.pushed c).2, trying := false,
                 waited := 0 } s1
  | 1 | 6 | 10 =>
    let u := t.retry s.tb.usec (s.portUp p)
    if 100000 ≤ u.waited then fwHardReset p (put u s1) else put u s1
  | _ => fwHardReset p s1

/-- The end of a transition: PS_RDY, or HEAVY_READY for a heavy contract. -/
def sendReady (p : Nat) (t : Tran) (s : State) : State :=
  let s1 := updFw p (fun f => { f with tran := some { t with entry := none } }) s
  if t.heavy then sayVdm p .hready [vdmHead (s.svid p) (s.fwOf p).mpos 0 18] s1
  else sayCtl p 6 true (.psRdy t) s1

end Sys2Proof.Machine
end

