-- ==== Sys2Proof/Machine/FwEvent.lean ====
section
/-! DEFINITION. What the standard course firmware does with the entries of `CTX_EVQ` and `OPQ_CQ` that have no row of their
own: results of its transmissions, bindings and closings, and results of turn-ons, VCONN switching and Hard Reset
(chapters 06, 07). -/
namespace Sys2Proof.Machine

/-! ### Heavy mode record (R206, R214) -/

/-- A course write of `CHN_HVST_k` that changes some fields and leaves the rest. -/
def setHvst (p : Nat) (l : List (Fld × Nat)) (s : State) : State :=
  writeHvst p (l.foldl (fun w x => x.1.put w x.2) (s.hvstWord p &&& 0xE7FFFFFF)) s

def setHstate (p n : Nat) (s : State) : State := setHvst p [(F.CHN_HVST_HSTATE, n)] s

/-- `HSTATE` outside discovery and test. -/
def State.restState (s : State) (p : Nat) : Nat :=
  if s.entered p then (if 12 ≤ s.objPos p then 4 else 3) else if (s.fwOf p).noDisc && !(s.fwOf p).exited then 5 else 1

/-! ### Discovery (R205, R214) -/

/-- Attempts per command, 1-8. -/
def State.dtry (s : State) (p : Nat) : Nat := clampTo 1 8 (s.fld (R.CHN_HVCFG (p / 128)) F.CHN_HVCFG_DTRY)

/-- Sends the command of a discovery stage; the PD SID stands in Discover Identity and Discover SVIDs. -/
def sendDisc (p : Nat) (d : Disc) (s : State) : State :=
  let head := match d with
    | .identity => vdmHead 0xFF00 0 0 1
    | .svids => vdmHead 0xFF00 0 0 2
    | .modes => vdmHead (s.svid p) 0 0 3
    | .enter => vdmHead (s.svid p) (s.fwOf p).mpos 0 4
    | _ => vdmHead (s.svid p) (s.fwOf p).mpos 0 5
  sayVdm p .vdm [head] (updFw p (fun f => { f with disc := d }) s)

/-- The next stage, with no attempt failed yet. -/
def discNext (p : Nat) (d : Disc) (s : State) : State := sendDisc p d (updFw p (fun f => { f with discTry := 0 }) s)

/-- A re-advertisement that is owed, or the release of the context. -/
def settleCtx (p : Nat) (s : State) : State :=
  if (s.fwOf p).owe then reAdvertise p (updFw p (fun f => { f with owe := false }) s) else fwRelease p s

/-- Discovery fails; a test that fails leads to Hard Reset. -/
def discFail (p : Nat) (s : State) : State :=
  if (s.fwOf p).test then fwHardReset p s
  else settleCtx p (setHstate p 5 (updFw p (fun f => { f with disc := .idle, noDisc := true, useA := .none }) s))

/-- One failed attempt at the command that is outstanding; `busy` waits tVDMBusy before the next. -/
def discMiss (p : Nat) (busy : Bool) (s : State) : State :=
  let n := (s.fwOf p).discTry + 1
  let s1 := updFw p (fun f => { f with discTry := n }) s
  if s.dtry p ≤ n then discFail p s1
  else if busy then arm p .busy s1
  else sendDisc p (s.fwOf p).disc s1

/-- The exit is complete: the port keeps its SPR contract and is not entered again (R214). -/
def exitDone (p : Nat) (s : State) : State :=
  settleCtx p (setHstate p 1 (waitFor p .none 0 (updFw p (fun f => { f with disc := .idle, noDisc := true, exited := true }) s)))

/-- With no heavy contract left: the mode is left and 100 µs pass before Exit Mode (R214). -/
def exitMode (p : Nat) (s : State) : State :=
  waitFor p .disc 1 (setHvst p [(F.CHN_HVST_MUX, 0), (F.CHN_HVST_ENTERED, 0)] (updFw p (fun f => { f with disc := .gap }) s))

/-- HEAVY_CAPS was not answered: again, up to `DTRY` attempts; then the present contract stands (Table 07-7). -/
def hcapsMiss (p : Nat) (s : State) : State :=
  let s1 := waitFor p .none 0 s
  if s.dtry p ≤ (s.fwOf p).capsTry then settleCtx p s1 else sendHcaps p s1

/-- HEAVY_CAPS answers a HEAVY_ASK or follows a rejected grant, once the port holds a context. -/
def offerHeavy (p : Nat) (s : State) : State :=
  if s.bound p then sendHcaps p (updFw p (fun f => { f with capsTry := 0 }) s) else fwAlloc p .offer s

/-! ### The cable's identity (R179, chapter 05) -/

/-- nDiscoverIdentityCount (PRESUMED). -/
def cableTries : Nat := 20

def sendCable (p : Nat) (s : State) : State :=
  say p .sopp (dataMsg 15 [vdmHead 0xFF00 0 0 1]) false false .cable (updFw p (fun f => { f with cabTry := f.cabTry + 1 }) s)

/-- The first capabilities of a port go out when its first attempt at the cable's identity has ended. -/
def firstCaps (p : Nat) (s : State) : State :=
  if (s.fwOf p).adv = [] then sendCaps p false s else s

/-! ### VCONN swap (R193) -/

/-- A swap that Table 06-7 accepts, with a context held: Accept, then the wait for PS_RDY, or VCONN_ON. -/
def swapAccept (p : Nat) (s : State) : State :=
  let s1 := sayCtl p 3 false .info s
  if !(s.fwOf p).vcSink then arm p .vconn (updFw p (fun f => { f with vcAwait := true }) s1)
  else
    let c := p / 128
    let s2 := pushArgs c .vconnOn (p % 128) (s1.reg (R.OPQ_ARG0 c)) (arg1Of 0 63 0 false) s1
    if (s2.pushed c).1 = 0 then updFw p (fun f => { f with vcOn := some (s2.pushed c).2 }) s2 else fwHardReset p s2

/-! ### A contract is made (R183, R185, R189-R191) -/

/-- The keep-alive of a PPS contract (R189). -/
def watchPps (p : Nat) (s : State) : State := writeKa p (BitVec.ofNat 32 (2 ^ 30 + 14000)) s

/-- EPR mode is left: a PPS contract that stands takes its own watch again (R189, R190). -/
def leaveEpr (p : Nat) (s : State) : State :=
  let s1 := updFw p (fun g => { g with epr := false }) s
  if (s1.fwOf p).cpps then watchPps p s1 else writeKa p 0 s1

/-- PS_RDY has drawn its GoodCRC. -/
def contractMade (p : Nat) (t : Tran) (s : State) : State :=
  let s1 := updFw p (fun f => { f with tran := none, hrCount := 0, cpps := t.pps }) (recordContract p t.v1 t.i1 t.pos s)
  let epr := (s1.fwOf p).epr
  let s2 := if t.pps && !epr then watchPps p s1
    else if s1.fld (R.PRT_PDKA p) F.PRT_PDKA_KIND = 1 then writeKa p 0 s1 else s1
  if s2.cls p = 2 then
    if (s2.fwOf p).disc = .down then exitMode p s2
    else if s2.entered p then settleCtx p s2
    else
      let s3 := setHstate p (s2.restState p) s2
      if (s3.fwOf p).noDisc then settleCtx p s3
      else
        let s4 := updFw p (fun f => { f with disc := .due }) s3
        if s4.bound p then s4 else fwAlloc p .disc s4
  else if epr && t.pos ≤ 7 && s2.offerEpr p true = [] then
    settleCtx p (say p .sop (dataMsg 10 [5 * 2 ^ 24]) true false .eprExit s2)
  else settleCtx p s2

/-- HEAVY_READY's ACK has come: the heavy contract is recorded and the context released (R210). -/
def heavyMade (p : Nat) (t : Tran) (s : State) : State :=
  let s1 := updFw p (fun f => { f with tran := none, hrCount := 0, cpps := false }) (recordContract p t.v1 t.i1 t.pos s)
  settleCtx p (setHstate p 4 (waitFor p .none 0 s1))

/-! ### Results of transmissions -/

/-- Sends the displaced messages again. -/
def sayDropped (p : Nat) (s : State) : State :=
  forEach (s.fwOf p).again (sayAgain p) (updFw p (fun f => { f with again := [] }) s)

/-- The chain that opened a transition drew no GoodCRC: no transition begins (R186). -/
def noTransition (p : Nat) (s : State) : State := requestedBack p (updFw p (fun f => { f with tran := none }) s)

/-- Soft_Reset sent by firmware. -/
def sendSoftReset (p : Nat) (s : State) : State :=
  say p .sop (ctlMsg 13) true false .softReset (updFw p (fun f => { f with useA := .none }) s)

/-- Messages of the B512 that are sent again whatever plug's message displaced them; the others only after a HEAVY_ASK (R216). -/
def Say.displaced : Say → Bool
  | .vdm | .hcaps | .grant | .grantRej _ | .hready => true
  | _ => false

/-- A message other than HEAVY_ASK is handled: an Accept that it displaced opens no transition (R186), and of the displaced messages
only those that Table 07-7 sends again stay. -/
def keepDropped (p : Nat) (s : State) : State :=
  let l := (s.fwOf p).again
  if l = [] then s
  else
    let s1 := if l.any fun m => m.1 = .accept then noTransition p s else s
    updFw p (fun f => { f with again := l.filter fun m => m.1.displaced }) s1

/-- The wait that follows the Accept or the grant of a transition. -/
def openTransition (p : Nat) (s : State) : State :=
  match (s.fwOf p).tran with
  | some t => arm p (if t.noOp then .same else .trans) s
  | none => s

/-- What firmware does with the result of a message that it sent for reason `w`. -/
def said (p : Nat) (w : Say) (k : EvKind) (s : State) : State :=
  let f := s.fwOf p
  match w, k with
  | .caps, .txDone => arm p .sender s
  | .caps, .txRefused => s
  | .caps, _ => if 50 ≤ f.caps then fwRelease p s else arm p .caps s
  | .accept, .txDone => openTransition p s
  | .accept, .txFailed => sendSoftReset p (noTransition p s)
  | .accept, _ => if s.cls p = 2 then s else noTransition p s
  | .acceptSoft, .txDone => sendCaps p false s
  | .softReset, .txDone => arm p .soft s
  | .softReset, .txFailed => fwHardReset p s
  | .psRdy t, .txDone => contractMade p t s
  | .psRdy _, .txFailed => fwHardReset p s
  | .swapEnd, .txDone =>
    let s1 := updFw p (fun g => { g with vcSink := false }) s
    if f.swapCtx then fwRelease p s1 else s1
  | .swapEnd, .txFailed => fwHardReset p s
  | .vdm, .txDone => waitFor p .disc (if f.disc = .enter || f.disc = .exit then 450 else 270) s
  | .vdm, .txFailed => if f.disc = .exit then exitDone p s else discMiss p false s
  | .cable, .txDone => s
  | .cable, _ => firstCaps p s
  | .hcaps, .txDone => arm p .hcaps s
  | .hcaps, .txFailed => hcapsMiss p s
  | .grant, .txDone => openTransition p s
  | .grant, .txFailed => sendSoftReset p (noTransition p s)
  | .grantRej b, .txDone => if b then offerHeavy p s else s
  | .hready, .txDone => arm p .hready s
  | .hready, .txFailed => fwHardReset p s
  | .askAck, .txDone =>
    sayDropped p (if f.again.any fun m => m.1 = .hcaps then s else offerHeavy p s)
  | .eprAck, .txDone => say p .sop (dataMsg 10 [3 * 2 ^ 24]) false false .eprDone s
  | .eprDone, .txDone =>
    sendCaps p false (writeKa p (BitVec.ofNat 32 (2 ^ 31 + 900)) (updFw p (fun g => { g with epr := true }) s))
  | .eprExit, .txDone => leaveEpr p s
  | _, _ => s

/-! ### The event queue -/

/-- Returns the pans of a chain (R153). -/
def putChain (c i : Nat) (s : State) : State := forEach (s.chain c 6 i) (panPut c) s

/-- The message in a chain. -/
def State.rxBytes (s : State) (c i : Nat) : List Byte :=
  s.chainBytes c (s.txChain c i) (descLen (s.panDesc c i))

/-- A context is bound: what the port waited for is done (R184, R193, R194, R200, R205). -/
def fwBound (p : Nat) (alloc : Bool) (s : State) : State :=
  let f := s.fwOf p
  let s1 := updFw p (fun g => { g with want := .none }) s
  if !alloc then tryTurnOn p s1
  else match f.want with
    | .turnOn => tryTurnOn p s1
    | .move =>
      match f.req with
      | some t => sayCtl p 3 false .accept (updFw p (fun g => { g with tran := some t, req := none }) s1)
      | none => s1
    | .offer => if f.calm then sendOffer p s1 else updFw p (fun g => { g with owe := true }) s1
    | .recover => if f.hrOff then arm p .recover s1 else s1
    | .disc =>
      if f.disc = .down then (if 12 ≤ s1.objPos p then sendCaps p false s1 else exitMode p s1) else s1
    | .swap => swapAccept p s1
    | .none => s1

/-- An entry of `CTX_EVQ` that has no row: it has been read, and its pans are returned. -/
def fwEvent (c : Nat) (e : EvEntry) (s : State) : State :=
  let p := 128 * c + e.port
  match e.kind with
  | .bound => fwBound p (e.info = 1) s
  | .closing =>
    if (s.hubOf p).ctxId = e.ctx then
      releaseCtx c e.ctx (s.ctxOf c e.ctx).gen (updFw p (fun _ => Fw.init) s)
    else s
  | .timerA | .timerB => updFw p (fun f => if e.kind = .timerA then { f with staleA := false } else { f with staleB := false }) s
  | .rx | .chunkErr => putChain c e.pan s
  | .txRefused | .txDone | .txFailed | .txDiscarded | .txIncomplete =>
    if e.kind = .txRefused && e.info = 1 then s
    else
      let s1 := putChain c e.pan s
      match (s.fwOf p).sent.find? fun x => x.1 = e.pan with
      | some x =>
        let s2 := updFw p (fun f => { f with sent := f.sent.filter fun y => y.1 != e.pan }) s1
        let dropped : Bool := e.kind = .txDiscarded && s.cls p = 2
        said p x.2 e.kind
          (if dropped then updFw p (fun f => { f with again := f.again ++ [(x.2, s.rxBytes c e.pan)] }) s2 else s2)
      | none => s1

/-! ### Which row an entry belongs to -/

/-- The rows that act on an entry of `CTX_EVQ`. -/
inductive FwRow where
  | request | repeat_ | sender | noResponse | transition | answer | epr | swap | recovery | discovery | enterAck | caps
  | heavyRequest | ready | ask
deriving DecidableEq, Repr

/-- The row of a timer A expiry. -/
def Wait.row : Wait → Option FwRow
  | .none => Option.none
  | .sender | .soft => some .sender
  | .caps => some .repeat_
  | .trans | .same => some .transition
  | .recover => some .recovery
  | .vconn => some .swap
  | .disc | .busy => some .discovery
  | .hcaps => some .caps
  | .hready => some .ready

/-- Command type of a VDM header: 0 REQ, 1 ACK, 2 NAK, 3 BUSY; and its command. -/
def vdmCt (h : Nat) : Nat := h / 64 % 4
def vdmCmd (h : Nat) : Nat := h % 32

/-- A VDM header that answers the discovery command that is outstanding. -/
def answersDisc (f : Fw) (svid h : Nat) : Bool :=
  vdmCt h != 0 &&
  (match f.disc with
    | .identity => h / 65536 = 0xFF00 && vdmCmd h = 1
    | .svids => h / 65536 = 0xFF00 && vdmCmd h = 2
    | .modes => h / 65536 = svid && vdmCmd h = 3
    | .enter => h / 65536 = svid && vdmCmd h = 4
    | .exit => h / 65536 = svid && vdmCmd h = 5
    | _ => false)

/-- The row of a structured VDM on an HV port. -/
def vdmRow (f : Fw) (svid h : Nat) : FwRow :=
  if answersDisc f svid h then (if f.disc = .enter && vdmCt h = 1 then .enterAck else .discovery)
  else if h / 65536 != svid then .answer
  else if vdmCmd h = 16 && f.useA = .hcaps && vdmCt h = 1 then .heavyRequest
  else if vdmCmd h = 16 && f.useA = .hcaps && vdmCt h = 2 then .caps
  else if vdmCmd h = 18 && f.useA = .hready && vdmCt h != 0 then .ready
  else if vdmCmd h = 19 && vdmCt h = 0 then .ask
  else .answer

/-- The row of a received message. -/
def State.msgRow (s : State) (p : Nat) (sp : Sop) (m : List Byte) : Option FwRow :=
  let f := s.fwOf p
  if sp ≠ .sop then (if s.cls p = 1 && 0 < f.cabTry && !f.cabDone then some .discovery else none)
  else if isData m 2 || isData m 9 then some .request
  else if isData m 10 then some .epr
  else if isCtl m 11 || (isCtl m 6 && f.vcAwait) then some .swap
  else if s.cls p = 2 && isStructuredVdm m then some (vdmRow f (s.svid p) (msgObj m 0))
  else some .answer

/-- The row of an entry, or none where firmware handles it without one. -/
def State.evRow (s : State) (c : Nat) (e : EvEntry) : Option FwRow :=
  let p := 128 * c + e.port
  let f := s.fwOf p
  let ours : Bool := (s.hubOf p).ctxId = e.ctx
  match e.kind with
  | .rx => s.msgRow p e.sop (s.rxBytes c e.pan)
  | .timerA => if f.staleA || !ours then none else f.useA.row
  | .timerB => if f.staleB || !ours || !f.useB then none else some .noResponse
  | _ => none

/-! ### The operation results (R184, R193, R196, R200) -/

/-- TURN_ON is DONE: the contract group, tNoResponse after a hard reset, and the first Source_Capabilities or the cable's
discovery (R184, R185). -/
def atSafe5v (p : Nat) (s : State) : State :=
  let s1 := updFw p (fun f => { f with cpps := false }) (recordContract p 5000 (s.startCur p) 0 s)
  let s2 := if 0 < (s1.fwOf p).hrCount then armNoResponse p true s1 else s1
  if s2.soppOn p && !(s2.fwOf p).cabDone && (s2.fwOf p).cabTry < cableTries then sendCable p s2 else sendCaps p false s2

/-- A shed disconnect: no PS_RDY, the context released, TURN_ON again after the hold (R198, Table 06-10). -/
def shedSeen (p : Nat) (s : State) : State :=
  let f (g : Fw) : Fw :=
    { Fw.init with cabI := g.cabI, cabV := g.cabV, cabEpr := g.cabEpr, cabTry := g.cabTry, cabDone := g.cabDone,
                   staleA := g.staleA, staleB := g.staleB, onWait := true, knows := true }
  fwRelease p (updFw p f (waitFor p .none 0 s))

/-- A result that has no row: it has been read. -/
def fwResult (c : Nat) (e : CqEntry) (s : State) : State :=
  let p := 128 * c + e.port
  let f := s.fwOf p
  match e.kind, e.result with
  | none, _ => shedSeen p s
  | some .turnOn, .done => atSafe5v p s
  | some .vconnOn, r =>
    if f.vcOn = e.entry && f.vcOn ≠ none then
      let s1 := updFw p (fun g => { g with vcOn := none }) s
      if r = .done then sayCtl p 6 true .swapEnd s1 else fwHardReset p s1
    else s
  | some .hrOff, .done =>
    if f.recov then
      let s1 := updFw p (fun g => { g with hrOff := true }) s
      if s.bound p then arm p .recover s1 else s1
    else if f.knows then s else updFw p (fun g => { g with onWait := true }) s
  | _, _ => s

/-- The transition of which a result is a step's. -/
def State.tranStep (s : State) (c : Nat) (e : CqEntry) : Bool :=
  match (s.fwOf (128 * c + e.port)).tran with
  | some t => t.entry.isSome && t.entry = e.entry
  | none => false

/-! ### Up to the next entry that has a row -/

def drainEv (c : Nat) : Nat → State → State
  | 0, s => s
  | n + 1, s =>
    match (s.chanOf c).evq with
    | [] => s
    | e :: _ => if (s.evRow c e).isSome then s else drainEv c n (fwEvent c e (readEvq c s).2)

def drainCq (c : Nat) : Nat → State → State
  | 0, s => s
  | n + 1, s =>
    match (s.chanOf c).cq with
    | [] => s
    | e :: _ => if s.tranStep c e then s else drainCq c n (fwResult c e (readCq c s).2)

/-- What firmware does before a row: port events, results and entries without a row. -/
def fwPrep (c : Nat) (s : State) : State :=
  let s1 := forEach ((List.range 128).map (128 * c + ·)) fwPortEvents s
  let s2 := drainCq c (s1.chanOf c).cq.length s1
  drainEv c (s2.chanOf c).evq.length s2

end Sys2Proof.Machine
end

