-- ==== Sys2Proof/Machine/Firmware.lean ====
section
/-! DEFINITION. The rows of the standard course firmware's negotiation policy (chapter 06) and its mailbox commands
(Table 16-7). A row acts while the course runs: firmware first works through what stands before it in its queues. -/
namespace Sys2Proof.Machine

/-! ### Rows on the head of `CTX_EVQ` -/

/-- The ACK of an accepted HEAVY_GRANT, which an open transition expects (R210). -/
def State.grantAck (s : State) (p : Nat) (m : List Byte) : Bool :=
  s.cls p = 2 && isStructuredVdm m && msgObj m 0 / 65536 = s.svid p && vdmCmd (msgObj m 0) = 17 && vdmCt (msgObj m 0) = 1

/-- A message that leads to Hard Reset: one on SOP during an open transition (Tables 06-6, 07-7). -/
def State.breaks (s : State) (p : Nat) (r : FwRow) (e : EvEntry) (m : List Byte) : Bool :=
  let opened : Bool := match (s.fwOf p).tran with
    | some t => t.opened
    | none => false
  e.kind = .rx && e.sop = .sop && opened && r != .ready && !s.grantAck p m

/-- Reads the head of `CTX_EVQ`; the pans of a received message are returned once it is read. -/
def takeHead (c : Nat) (e : EvEntry) (s : State) : State :=
  let s1 := (readEvq c s).2
  if e.kind = .rx then putChain c e.pan s1 else s1

/-- Row `r` of port `p`: `act` on the head entry if it is the row's, otherwise `other`. After a received message, messages
that it displaced are sent again. -/
def onRow (p : Nat) (r : FwRow) (act : EvEntry → List Byte → State → State) (other : State → State) (s : State) : State :=
  let c := p / 128
  let s1 := fwPrep c s
  match (s1.chanOf c).evq with
  | e :: _ =>
    if e.port = p % 128 ∧ s1.evRow c e = some r then
      let m := s1.rxBytes c e.pan
      let s2 := takeHead c e s1
      if s1.breaks p r e m then fwHardReset p s2
      else if e.kind = .rx && r != .ask then sayDropped p (act e m (keepDropped p s2))
      else act e m s2
    else other s1
  | [] => other s1

/-- A row on a timer A wait of kind `u`: on its expiry entry, or without a context when its time has passed. -/
def onWait (p : Nat) (r : FwRow) (act : Wait → State → State) (s : State) : State :=
  let go (t : State) : State := act (t.fwOf p).useA (updFw p (fun f => { f with useA := .none }) t)
  onRow p r (fun _ _ t => go t)
    (fun t => if !t.bound p && t.waitOver p && (t.fwOf p).useA.row = some r then go t else t) s

/-- The act of a firmware row of port `p`. -/
def fwDo (p : Nat) (f : State → State) (s : State) : State := if s.fwRuns (p / 128) then f s else s

/-! ### Requests (R183, Table 06-5) -/

/-- What a Request names: voltage in mV, current in mA, and whether the object allows it. -/
structure Ask where
  v : Nat
  i : Nat
  ok : Bool
  pps : Bool
deriving DecidableEq, Repr

/-- A request data object against an object of the basis. -/
def askOf (o rdo : Nat) : Ask :=
  if o / 2 ^ 30 = 0 then
    let i := rdo / 1024 % 1024 * 10
    { v := o / 1024 % 1024 * 50, i := i, ok := i ≤ o % 1024 * 10, pps := false }
  else
    let i := rdo % 128 * 50
    let vmin := o / 256 % 256 * 100
    if o / 2 ^ 28 = 12 then
      let v := rdo / 512 % 4096 * 20
      { v := v, i := i, ok := vmin ≤ v && v ≤ o / 2 ^ 17 % 256 * 100 && i ≤ o % 128 * 50, pps := true }
    else
      let v := rdo / 512 % 4096 * 25
      { v := v, i := i, ok := vmin ≤ v && v ≤ o / 2 ^ 17 % 512 * 100 && v % 100 = 0 && v * i ≤ o % 256 * 1000000,
        pps := false }

/-- The object that a position of the basis names, 0 where it names none. -/
def basisObj (l : List Word) (pos : Nat) : Nat := if pos = 0 then 0 else (l.getD (pos - 1) 0).toNat

/-- The request is what the port already has; for a firmware that has restarted and an entered port, what `PRT_TARGET` shows
(R215). -/
def State.sameContract (s : State) (p v i pos : Nat) : Bool :=
  let x := s.contractOf p
  if s.entered p && !(s.fwOf p).knows then v = (s.mirOf p).vtgt && i = (s.mirOf p).icon
  else v = x.1 && i = x.2.1 && (pos = x.2.2 || s.recOf p 7 = 0)

/-- Accept, with the transition that its GoodCRC opens. -/
def acceptTran (p : Nat) (t : Tran) (s : State) : State :=
  sayCtl p 3 false .accept (updFw p (fun f => { f with tran := some t, req := none }) s)

def reject (p : Nat) (s : State) : State := sayCtl p 4 true .info s

/-- A Request or EPR_Request (Table 06-5). -/
def evalRequest (p : Nat) (m : List Byte) (s : State) : State :=
  let s0 := armNoResponse p false (waitFor p .none 0 s)
  let f := s0.fwOf p
  let rdo := msgObj m 0
  let pos := rdo / 2 ^ 28
  let isEpr := isData m 9
  let o := basisObj f.basis pos
  if o = 0 then reject p s0
  else
    let a := askOf o rdo
    let s1 := writeRequested p (powerOf a.v a.i) s0
    let bad : Bool := (8 ≤ pos && !isEpr) || (pos < 8 && isEpr && !f.epr) || (isEpr && msgObj m 1 != o) || !a.ok
    let same := s1.sameContract p a.v a.i pos
    let t := s1.newTran p a.v a.i pos a.pps false same
    if bad then reject p s1
    else if s1.chCeil p * 100000 < a.v * a.i then reAdvertise p (reject p s1)
    else if same || s1.bound p then acceptTran p t s1
    else fwAlloc p .move (updFw p (fun g => { g with req := some t }) s1)

/-- No BOUND entry within 5 ms of `ALLOC`: Wait and `CANCEL` (Tables 06-5, 06-7); only the answer to a Request ends the sequence
(R492). -/
def waitAnswer (p : Nat) (amsEnd : Bool) (s : State) : State :=
  sayCtl p 12 amsEnd .info (cancelCtx p (updFw p (fun f => { f with req := none, want := .none }) s))

def execRequestEvaluation (p : Fin 512) (late : Bool) (s : State) : Host.Outcome State Fault Refusal :=
  .next (fwDo p (onRow p .request (fun _ m => evalRequest p m)
    (fun t => if late && (t.fwOf p).req.isSome && (t.fwOf p).want = .move && t.allocLate p then waitAnswer p true t else t)) s)

/-! ### Waits of the start (R185) -/

def execSourceCapRepeat (p : Fin 512) (s : State) : Host.Outcome State Fault Refusal :=
  .next (fwDo p (onWait p .repeat_ (fun _ => sendCaps p false)) s)

/-- No Request within tSenderResponse, or no Accept of a Soft_Reset (R185, R192). -/
def senderTimeout (p : Nat) (u : Wait) (s : State) : State :=
  if u = .soft || (s.fwOf p).hrCount < 2 then fwHardReset p s else arm p .caps s

def execSenderResponseTimeout (p : Fin 512) (s : State) : Host.Outcome State Fault Refusal :=
  .next (fwDo p (onWait p .sender (senderTimeout p)) s)

/-- tNoResponse: Hard Reset while the count is below 2, otherwise the port is given up until detach. -/
def noResponse (p : Nat) (s : State) : State :=
  let s1 := updFw p (fun f => { f with useB := false }) s
  if (s1.fwOf p).hrCount < 2 then fwHardReset p s1
  else fwRelease p (updFw p (fun f => { f with dead := true, basis := [] }) s1)

def execNoResponseTimeout (p : Fin 512) (s : State) : Host.Outcome State Fault Refusal :=
  .next (fwDo p (onRow p .noResponse (fun _ _ => noResponse p)
    (fun t => if !t.bound p && (t.fwOf p).useB && t.past (t.fwOf p).bAt 5000000 then noResponse p t else t)) s)

/-! ### Transitions (R187, R188) -/

/-- tSrcTransition expires: the first push, or PS_RDY with no operation. -/
def transitionExpire (p : Nat) (u : Wait) (s : State) : State :=
  match (s.fwOf p).tran with
  | some t => if u = .same then sendReady p t s else pushStep p t s
  | none => s

def execSrcTransitionExpire (p : Fin 512) (s : State) : Host.Outcome State Fault Refusal :=
  .next (fwDo p (onWait p .transition (transitionExpire p)) s)

/-- A result of the port's step: the next step, the end of the transition, or Hard Reset on STEP_TO. A step that was
aborted, cancelled or superseded ends the transition without PS_RDY. -/
def stepResult (p : Nat) (t : Tran) (r : OpResult) (s : State) : State :=
  let u := { t with entry := none }
  match r with
  | .done => if t.k = t.n then sendReady p u s else pushStep p u (updFw p (fun f => { f with tran := some u }) s)
  | .stepTo => fwHardReset p s
  | _ => updFw p (fun f => { f with tran := none }) s

/-- A step completes, or a push that was refused with FULL, NOLEG or LINK is tried again. -/
def stepPush (p : Nat) (s : State) : State :=
  let c := p / 128
  let s1 := fwPrep c s
  match (s1.fwOf p).tran, (s1.chanOf c).cq with
  | some t, e :: _ =>
    if e.port = p % 128 ∧ s1.tranStep c e = true then stepResult p t e.result (readCq c s1).2
    else if t.trying then pushStep p t s1 else s1
  | some t, [] => if t.trying then pushStep p t s1 else s1
  | none, _ => s1

def execGraduationStepPush (p : Fin 512) (s : State) : Host.Outcome State Fault Refusal := .next (fwDo p (stepPush p) s)

/-! ### Messages firmware answers (R192, Table 06-6) -/

/-- The granted ceiling in whole W, as one byte. -/
def State.ceilW (s : State) (p : Nat) : Nat := min 255 (s.chCeil p / 10)

/-- VID and PID, little-endian. -/
def State.vidPid (s : State) : List Byte := natLe 2 (s.fld R.GLB_VIDPID F.GLB_VIDPID_VID) ++ natLe 2 (s.fld R.GLB_VIDPID F.GLB_VIDPID_PID)

/-- Internal Temp: `TEMP` in whole °C; 1 stands for less than 2 °C. -/
def State.dieTemp (s : State) (p : Nat) : Nat :=
  let t := (signed 16 (s.fld (R.PRT_MTEMP p) F.PRT_MTEMP_TEMP) + 5) / 10
  if t < 2 then 1 else min 255 t.toNat

/-- The contract that stands is a PPS contract; a firmware that has restarted sees it by its keep-alive (R189). -/
def State.ppsNow (s : State) (p : Nat) : Bool :=
  (s.fwOf p).cpps || s.fld (R.PRT_PDKA p) F.PRT_PDKA_KIND = 1

/-- A structured VDM with another command type. -/
def vdmReply (h ct : Nat) : Nat := h / 256 * 256 + ct * 64 + h % 64

/-- A structured VDM that no other row takes (Tables 06-6, 07-7): Attention is counted, one with another SVID or from the wrong end is
NAKed, and answers of the plug that nothing awaits are dropped. -/
def answerVdm (p : Nat) (m : List Byte) (s : State) : State :=
  let h := msgObj m 0
  let svid := h / 65536
  let nak := say p .sop (dataMsg 15 [vdmReply h 2]) false false .info
  let ours : Bool := svid = 0xFF00 || (svid = s.svid p && vdmCmd h != 19)
  if s.cls p = 1 then nak s
  else if vdmCmd h = 6 && vdmCt h = 0 then countUnanswered p s
  else if vdmCt h != 0 && ours then s
  else nak s

/-- Control messages. -/
def answerCtl (p t : Nat) (s : State) : State :=
  match t with
  | 7 => sendCaps p true s
  | 13 =>
    sayCtl p 3 false .acceptSoft
      (waitFor p .none 0 (updFw p (fun f => { f with tran := none, req := none, disc := .idle, test := false, again := [] }) s))
  | 17 =>
    say p .sop (extMsg 1 (s.vidPid ++ List.replicate 19 0 ++ natLe 1 (s.ceilW p) ++ natLe 1 0)) false false .info s
  | 18 => say p .sop (extMsg 2 (natLe 1 (s.dieTemp p) ++ List.replicate 6 0)) false false .info s
  | 20 =>
    if s.ppsNow p then
      say p .sop (extMsg 12 (natLe 2 (s.fld (R.PRT_MVOLT p) F.PRT_MVOLT_VOUT / 20) ++
        natLe 1 (min 255 (s.fld (R.PRT_MCURR p) F.PRT_MCURR_IOUT / 50)) ++ natLe 1 0)) false false .info s
    else sayCtl p 16 false .info s
  | 23 =>
    say p .sop (dataMsg 11 [min 255 (s.pmax p / 10) * 65536 + s.ceilW p * 256 + s.ceilW p]) false false .info s
  | 24 => say p .sop (dataMsg 12 [0x32100000]) false false .info s
  | 3 =>
    if (s.fwOf p).useA = .soft then sendCaps p false (waitFor p .none 0 s) else sendSoftReset p s
  | _ => sendSoftReset p s

/-- A message that firmware handles itself (Table 06-6). -/
def answerMsg (p : Nat) (m : List Byte) (s : State) : State :=
  if msgExt m then
    match msgType m with
    | 6 => say p .sop (extMsg 7 (s.vidPid ++ [0x42, 0x35, 0x31, 0x32])) false false .info s
    | 16 => sayCtl p 16 false .info s
    | _ => countUnanswered p s
  else if msgNdo m = 0 then answerCtl p (msgType m) s
  else if isStructuredVdm m then answerVdm p m s
  else countUnanswered p s

def execFirmwareMessageAnswer (p : Fin 512) (s : State) : Host.Outcome State Fault Refusal :=
  .next (fwDo p (onRow p .answer (fun _ m => answerMsg p m) id) s)

/-! ### EPR mode (R190) -/

/-- EPR_Mode: Enter accepted or failed; Exit by the sink leaves the mode; others are left unanswered. On an HV port every EPR_Mode is
answered with Enter Failed (Table 07-1). -/
def eprMode (p : Nat) (m : List Byte) (s : State) : State :=
  let f := s.fwOf p
  match (if s.cls p = 2 then 1 else msgObj m 0 / 2 ^ 24) with
  | 1 =>
    if s.eprOk p true && !f.epr && 1 ≤ s.objPos p && s.objPos p ≤ 7 && s.offerEpr p true != [] then
      say p .sop (dataMsg 10 [2 * 2 ^ 24]) false false .eprAck s
    else
      let code := if s.cls p = 2 || !s.eprCapable p then 5 else if !f.cabEpr then 1 else 4
      say p .sop (dataMsg 10 [4 * 2 ^ 24 + code * 2 ^ 16]) false false .info s
  | 5 => sendCaps p false (leaveEpr p s)
  | _ => countUnanswered p s

def execEprMode (p : Fin 512) (s : State) : Host.Outcome State Fault Refusal :=
  .next (fwDo p (onRow p .epr (fun _ m => eprMode p m) id) s)

/-! ### VCONN swap (R193, Table 06-7) -/

/-- A VCONN_Swap: rejected, accepted with the context held, or a context asked for. -/
def swapAsked (p : Nat) (s : State) : State :=
  let noSwap : Bool := s.cls p = 2 ||
    ((s.fwOf p).vcSink && (!s.flag (R.PRT_CCCFG p) F.PRT_CCCFG_VCONN_EN || !(s.mirOf p).raSeen))
  if noSwap then sayCtl p 4 false .info s
  else if s.bound p then swapAccept p s
  else fwAlloc p .swap (updFw p (fun f => { f with swapCtx := true }) s)

/-- The sink's PS_RDY: VCONN_OFF, and the sink is the source of VCONN. -/
def swapReady (p : Nat) (s : State) : State :=
  let c := p / 128
  let s1 := waitFor p .none 0 (updFw p (fun f => { f with vcAwait := false, vcSink := true }) s)
  let s2 := pushArgs c .vconnOff (p % 128) (s1.reg (R.OPQ_ARG0 c)) (arg1Of 0 63 0 false) s1
  if (s2.fwOf p).swapCtx then fwRelease p s2 else s2

def swapRow (p : Nat) (e : EvEntry) (m : List Byte) (s : State) : State :=
  if e.kind = .timerA then fwHardReset p s
  else if isCtl m 11 then swapAsked p s
  else swapReady p s

def execVconnSwap (p : Fin 512) (late : Bool) (s : State) : Host.Outcome State Fault Refusal :=
  .next (fwDo p (onRow p .swap (swapRow p)
    (fun t => if late && (t.fwOf p).want = .swap && t.allocLate p then
        waitAnswer p false (updFw p (fun f => { f with swapCtx := false }) t)
      else t)) s)

/-! ### Re-advertisement after a commit (R184, R194) -/

/-- A port with an explicit contract whose offer the commit has changed. -/
def State.offerChanged (s : State) (p : Nat) : Bool :=
  s.objPos p != 0 && (s.mirOf p).powered &&
    (if s.entered p then (s.fwOf p).hadv != toWords (s.heavyObjs p) else (s.fwOf p).adv != toWords (s.capsObjs p))

/-- Ports in rising priority in force, then rising index. -/
def State.byPif (s : State) (l : List Nat) : List Nat := (List.range 8).flatMap fun q => l.filter fun p => s.pif p = q

/-- After a commit: ports whose contracted power exceeds the ceiling first, then the others whose offer changed; and the
turn-ons that wait for a commit. -/
def afterCommit (c : Nat) (s : State) : State :=
  let s1 := fwPrep c s
  let l := ((List.range 128).map (128 * c + ·)).filter s1.offerChanged
  let isOver := l.filter fun p => s1.chCeil p < s1.contractPower p
  let rest := l.filter fun p => !(s1.chCeil p < s1.contractPower p)
  let s2 := forEach (s1.byPif isOver ++ s1.byPif rest) reAdvertise s1
  forEach ((List.range 128).map (128 * c + ·)) (fun p t => if (t.fwOf p).onWait then tryTurnOn p t else t) s2

def execReAdvertise (c : Fin 4) (s : State) : Host.Outcome State Fault Refusal :=
  .next (if s.fwRuns c then afterCommit c s else s)

/-! ### Recovery from Hard Reset (R200, Table 06-9) -/

def execHardResetRecovery (p : Fin 512) (s : State) : Host.Outcome State Fault Refusal :=
  .next (fwDo p (onWait p .recovery (fun _ t =>
    tryTurnOn p (updFw p (fun f => { f with recov := false, hrOff := false }) t))) s)

/-! ### Mailbox commands (Table 16-7) -/

/-- Answers the command of entry `i` with response bytes. -/
def mbxAnswer (c i : Nat) (l : List Byte) (s : State) : State := mbxDone c i l.length (setBytes 0x53 (mbxOff c i + 64) l s)

/-- Takes the oldest command if its opcode is `op`, or one that the firmware does not know; a command of the wrong length is
answered with status 0xFE, an unknown one with 0xFF. -/
def mbxCmd (c op len : Nat) (act : Nat → List Byte → State → List Byte × State) (s : State) : State :=
  match s.mbxOldest c with
  | none => s
  | some (i, e) =>
    let m := s.bytesAt 0x53 (mbxOff c i) e.len
    let o := (m.getD 0 0).toNat
    let s1 := (mbxTake c s).2
    if o = op then
      if e.len = len then let r := act i m s1; mbxAnswer c i (natLe 1 o ++ r.1) r.2
      else mbxAnswer c i (natLe 1 o ++ [0xFE]) s1
    else if o = 0 ∨ 3 < o then mbxAnswer c i (natLe 1 o ++ [0xFF]) s1
    else s

/-- A mailbox row: the course runs, and the lane answers. -/
def mbxRow (c : Nat) (f : State → State) (s : State) : State :=
  if s.fwRuns c && s.mgmtUp then f (fwPrep c s) else s

def execMbxPing (c : Fin 4) (s : State) : Host.Outcome State Fault Refusal :=
  .next (mbxRow c (mbxCmd c 1 1 (fun _ _ t => ([0] ++ natLe 4 (t.reg R.BOOT_FWVER).toNat, t))) s)

/-- Words 7, 8 and 10 of a port's record. -/
def portWords (p : Nat) (s : State) : List Byte :=
  natLe 4 (s.recWord p 7).toNat ++ natLe 4 (s.recWord p 8).toNat ++ natLe 4 (s.recWord p 10).toNat

def execMbxPortRead (c : Fin 4) (s : State) : Host.Outcome State Fault Refusal :=
  .next (mbxRow c (mbxCmd c 2 2 (fun _ m t => ([0] ++ portWords (128 * c + (m.getD 1 0).toNat % 128) t, t))) s)

/-- RENEG: a port with an explicit contract is re-advertised under R180. -/
def reneg (p : Nat) (s : State) : List Byte × State :=
  if s.objPos p = 0 then ([1], s) else ([0], reAdvertise p s)

def execMbxReneg (c : Fin 4) (s : State) : Host.Outcome State Fault Refusal :=
  .next (mbxRow c (mbxCmd c 3 2 (fun _ m t => reneg (128 * c + (m.getD 1 0).toNat % 128) t)) s)

end Sys2Proof.Machine
end

