-- ==== Sys2Proof/Machine/FwHeavy.lean ====
section
/-! DEFINITION. The rows of the standard course firmware on heavy ports: discovery, mode entry and heavy contracts
(chapter 07), and the cable's identity on TC ports (R179). -/
namespace Sys2Proof.Machine

/-! ### The cable's identity (R179) -/

/-- Cable limits from the answer to Discover Identity: the cable VDO's current, voltage and EPR Capable bits. -/
def cableLimits (m : List Byte) (f : Fw) : Fw :=
  let v := msgObj m 4
  let five : Bool := v / 32 % 4 = 2
  let volts := match v / 512 % 4 with
    | 0 => 21000
    | 1 => 30000
    | 2 => 40000
    | _ => 50000
  { f with cabI := if five then 5000 else 3000, cabV := volts, cabEpr := five && volts = 50000 && v / 2 ^ 17 % 2 = 1 }

/-- The cable has answered: with an ACK its limits are known. Capabilities follow where the offer has changed. -/
def cableAnswer (p : Nat) (m : List Byte) (s : State) : State :=
  let ack : Bool := vdmCt (msgObj m 0) = 1 && vdmCmd (msgObj m 0) = 1 && 5 ≤ msgNdo m
  let s1 := updFw p (fun f => { (if ack then cableLimits m f else f) with cabDone := true }) s
  if (s1.fwOf p).adv = [] then sendCaps p false s1
  else if (s1.fwOf p).adv = toWords (s1.capsObjs p) then s1
  else reAdvertise p s1

/-- The next attempt at the cable's identity is due; after the last one the limits stay (R179). -/
def cableNext (p : Nat) (s : State) : State :=
  let f := s.fwOf p
  if s.soppOn p && !f.cabDone && (s.mirOf p).powered then
    if cableTries ≤ f.cabTry then firstCaps p (updFw p (fun g => { g with cabDone := true }) s)
    else sendCable p (if f.cabTry = 0 then s else firstCaps p s)
  else s

/-! ### Discovery (R205, R214) -/

/-- The SVID list of a Discover SVIDs ACK names `svid`. -/
def listsSvid (m : List Byte) (svid : Nat) : Bool :=
  (List.range (msgNdo m - 1)).any fun i => msgObj m (i + 1) / 65536 = svid || msgObj m (i + 1) % 65536 = svid

/-- The first mode of a Discover Modes ACK with `GREV` = 0b0001: its position and VDO. -/
def firstMode (m : List Byte) : Option (Nat × Nat) :=
  ((List.range (msgNdo m - 1)).map fun i => (i + 1, msgObj m (i + 1))).find? fun x => x.2 / 2 ^ 28 = 1

/-- The test has run steps 1-3: `MUX` is restored and the context released (R214). -/
def testDone (p : Nat) (s : State) : State :=
  let s1 := updFw p (fun f => { f with test := false, disc := .idle }) s
  settleCtx p (setHvst p [(F.CHN_HVST_MUX, (s.fwOf p).oldMux), (F.CHN_HVST_HSTATE, s1.restState p)] s1)

/-- An ACK to the discovery command that is outstanding. -/
def discAck (p : Nat) (m : List Byte) (s : State) : State :=
  match (s.fwOf p).disc with
  | .identity => discNext p .svids s
  | .svids => if listsSvid m (s.svid p) then discNext p .modes s else discFail p s
  | .modes =>
    match firstMode m with
    | none => discFail p s
    | some x =>
      let s1 := updFw p (fun f => { f with mpos := x.1, vdo := x.2 }) s
      if (s.fwOf p).test then testDone p s1 else discNext p .enter s1
  | .exit => exitDone p s
  | _ => s

/-- An answer to discovery, or the expiry of its wait. -/
def discRow (p : Nat) (e : EvEntry) (m : List Byte) (s : State) : State :=
  let f := s.fwOf p
  let d := f.disc
  if e.kind = .timerA then
    let s1 := updFw p (fun g => { g with useA := .none }) s
    if d = .gap || f.useA = .busy then sendDisc p (if d = .gap then .exit else d) s1
    else if d = .exit then exitDone p s1
    else discMiss p false s1
  else if e.sop = .sopp then cableAnswer p m s
  else
    let h := msgObj m 0
    if vdmCt h = 1 then discAck p m (waitFor p .none 0 s)
    else if d = .exit then s
    else if vdmCt h = 3 then discMiss p true s
    else discFail p (waitFor p .none 0 s)

/-- Discovery begins with Discover Identity; a test switches the auxiliary pair to the test line first (R214). -/
def discStart (p : Nat) (s : State) : State :=
  let s1 := if (s.fwOf p).test then
      setHvst p [(F.CHN_HVST_MUX, 3), (F.CHN_HVST_HSTATE, 6)]
        (updFw p (fun f => { f with oldMux := (s.mirOf p).mux }) s)
    else setHstate p 2 s
  discNext p .identity s1

/-- A request of `CHN_HVCMD` is taken up: it is cleared, and a context asked for (R214). -/
def takeRequest (p : Nat) (f : Fld) (g : Fw → Fw) (s : State) : State :=
  fwAlloc p .disc (updFw p g (setHvst p [(f, 1)] s))

/-- What discovery does without an entry: it starts once the port holds its context, and takes up TEST and EXIT while no
transition is open and no context held. -/
def discIdle (p : Nat) (s : State) : State :=
  let f := s.fwOf p
  let h := s.hubOf p
  if s.cls p = 1 then cableNext p s
  else if f.disc = .due then (if s.bound p then discStart p s else s)
  else if f.calm && h.ctxId = 0 && !s.waiting p && (s.mirOf p).powered then
    if h.testReq then takeRequest p F.CHN_HVST_TESTREQ (fun g => { g with test := true, disc := .due }) s
    else if h.exitReq then
      if s.entered p then takeRequest p F.CHN_HVST_EXITREQ (fun g => { g with disc := .down }) s
      else setHvst p [(F.CHN_HVST_EXITREQ, 1)] s
    else s
  else s

def execDiscovery (p : Fin 512) (s : State) : Host.Outcome State Fault Refusal :=
  .next (fwDo p (onRow p .discovery (discRow p) (discIdle p)) s)

/-! ### Mode entry (R206) -/

/-- The mode VDO's `AUX`, `PVMAX` and `PIMAX` (Table 07-3) go to `CHN_HVST_k`, and HEAVY_CAPS is sent. -/
def enterMode (p : Nat) (s : State) : State :=
  let v := (s.fwOf p).vdo
  let s1 := waitFor p .none 0 (updFw p (fun f => { f with disc := .idle, capsTry := 0 }) s)
  sendHcaps p (setHvst p
    [(F.CHN_HVST_MUX, if v / 2 ^ 20 % 2 = 1 then 2 else 0), (F.CHN_HVST_ENTERED, 1), (F.CHN_HVST_HSTATE, 3),
     (F.CHN_HVST_PVMAX, v / 1024 % 1024), (F.CHN_HVST_PIMAX, v % 1024)] s1)

def execEnterModeAck (p : Fin 512) (s : State) : Host.Outcome State Fault Refusal :=
  .next (fwDo p (onRow p .enterAck (fun _ _ => enterMode p) id) s)

/-! ### Heavy capabilities, requests and grants (R209, R210) -/

/-- HEAVY_CAPS unanswered is sent again; a NAK leaves the present contract (Table 07-7). -/
def capsRow (p : Nat) (e : EvEntry) (_ : List Byte) (s : State) : State :=
  if e.kind = .timerA then hcapsMiss p s else settleCtx p (waitFor p .none 0 s)

/-- A restarted firmware, which has advertised nothing yet, advertises to each powered port with `ENTERED` = 1 (R215). -/
def capsIdle (p : Nat) (s : State) : State :=
  if s.entered p && (s.mirOf p).powered && (s.fwOf p).hadv = [] && (s.fwOf p).adv = [] && (s.fwOf p).calm then reAdvertise p s
  else s

def execHeavyCaps (p : Fin 512) (s : State) : Host.Outcome State Fault Refusal :=
  .next (fwDo p (onRow p .caps (capsRow p) (capsIdle p)) s)

/-- HEAVY_GRANT: the HRDO echoed with its outcome. -/
def sendGrant (p hrdo outcome : Nat) (w : Say) (s : State) : State :=
  sayVdm p w [vdmHead (s.svid p) (s.fwOf p).mpos 0 17, hrdo / 2 ^ 28 * 2 ^ 28 + outcome * 2 ^ 26 + hrdo % 2 ^ 26] s

/-- An object of the heavy basis allows a voltage (100 mV) and a current (50 mA). -/
def heavyAllows (o v i : Nat) : Bool :=
  let vmax := o / 2 ^ 20 % 1024
  let vOk : Bool := if o / 2 ^ 30 = 0 then v = vmax else o / 1024 % 1024 ≤ v && v ≤ vmax
  o != 0 && vOk && i ≤ o % 1024

/-- The plug's HRDO in its ACK of HEAVY_CAPS (Table 07-7). -/
def evalHrdo (p : Nat) (m : List Byte) (s : State) : State :=
  let x := msgObj m 1
  let pos := x / 2 ^ 28
  let v := x / 2 ^ 16 % 1024
  let i := x % 1024
  let s1 := writeRequested p (powerOf (v * 100) (i * 50)) (waitFor p .none 0 s)
  let o := if 4 < pos then 0 else basisObj (s1.fwOf p).hbasis pos
  let same := s1.sameContract p (v * 100) (i * 50) (11 + pos)
  if !heavyAllows o v i then sendGrant p x 2 (.grantRej false) s1
  else if s1.chCeil p * 100000 < v * 100 * (i * 50) then sendGrant p x 2 (.grantRej true) s1
  else
    sendGrant p x 1 .grant
      (updFw p (fun f => { f with tran := some (s1.newTran p (v * 100) (i * 50) (11 + pos) false true same) }) s1)

def execHeavyRequest (p : Fin 512) (s : State) : Host.Outcome State Fault Refusal :=
  .next (fwDo p (onRow p .heavyRequest (fun _ m => evalHrdo p m) id) s)

/-- The ACK of HEAVY_READY; a NAK or no answer in time leads to Hard Reset (R210). -/
def readyRow (p : Nat) (e : EvEntry) (m : List Byte) (s : State) : State :=
  match (s.fwOf p).tran with
  | some t => if e.kind = .rx && vdmCt (msgObj m 0) = 1 then heavyMade p t s else fwHardReset p s
  | none => s

def execHeavyReadyAck (p : Fin 512) (s : State) : Host.Outcome State Fault Refusal :=
  .next (fwDo p (onRow p .ready (readyRow p) id) s)

/-- HEAVY_ASK: ACK and then HEAVY_CAPS in heavy mode, otherwise NAK (Table 07-7, R216). -/
def heavyAsk (p : Nat) (m : List Byte) (s : State) : State :=
  let reply (ct : Nat) (w : Say) : State → State := sayVdm p w [vdmReply (msgObj m 0) ct]
  if s.entered p then reply 1 .askAck s else sayDropped p (reply 2 .info s)

def execHeavyAsk (p : Fin 512) (s : State) : Host.Outcome State Fault Refusal :=
  .next (fwDo p (onRow p .ask (fun _ m => heavyAsk p m) id) s)

end Sys2Proof.Machine
end

