-- ==== Sys2Proof/Machine/Mgmt.lean ====
section
/-! DEFINITION. The two-wire management port (chapter 16): its transactions and commands, the register window, domain
requests, the Alert Response Address, and recovery of the bus. -/
namespace Sys2Proof.Machine

/-! ### Transactions (R401-R404, Table 16-12) -/

/-- The glitch filter of `SCL` and `SDA`, ns. A write of `GF` takes effect when the bus next goes idle, which is before the next
transaction (R399). -/
def State.glitchNs (s : State) : Nat := (s.fld R.TWM_CFG F.TWM_CFG_GF + 1) * 50

/-- The largest filter that a bus of `khz` kHz allows (Table 16-1). -/
def largestGlitchNs (khz : Nat) : Nat := if khz ≤ 100 then 800 else if khz ≤ 400 then 300 else 100

/-- A transaction that acted. -/
def countXfer (s : State) : State := incFld R.TWM_CNT F.TWM_CNT_XFERS s

/-- A discarded transaction, with its event bit. -/
def discard (f : Fld) (s : State) : State := raiseTwm f (incFld R.TWM_CNT F.TWM_CNT_DISC s)

/-- The Packet Error Code of the System Management Bus: the CRC-8 with polynomial 0x07 and initial value 0. -/
def crc8Bit (c : BitVec 8) : BitVec 8 := if c.getLsbD 7 then (c <<< 1) ^^^ 0x07 else c <<< 1

def crc8 (l : List Byte) : Byte := l.foldl (fun c b => times crc8Bit 8 (c ^^^ b)) 0

/-- The address bytes of this device: of a write, of a read. -/
def State.addrW (s : State) : Byte := BitVec.ofNat 8 (2 * s.fld R.TWM_STAT F.TWM_STAT_SADDR)
def State.addrR (s : State) : Byte := s.addrW + 1

/-- The PEC that a write of `data` to command `code` needs (R403: all bytes of the transaction). -/
def State.writePec (s : State) (code : Nat) (data : List Byte) : Byte := crc8 (s.addrW :: BitVec.ofNat 8 code :: data)

/-- A write of `data` whose form satisfies command `code`: it acts at its STOP, after its PEC has passed (R402, R403). A byte beyond the
PEC is NACKed with `FMTERR`. -/
def writeXact (x : Xact) (code : Nat) (data : List Byte) (act : State → State) (s : State) : State :=
  let checked (b : Byte) (go : State) : State := if b = s.writePec code data then countXfer go else discard F.TWM_EVT_PECERR s
  match x with
  | .short | .alien _ => discard F.TWM_EVT_FMTERR s
  | .done => if s.flag R.TWM_CFG F.TWM_CFG_PECREQ then discard F.TWM_EVT_PECERR s else countXfer (act s)
  | .pec b => checked b (act s)
  | .extra b => checked b (act (raiseTwm F.TWM_EVT_FMTERR s))

/-- A read: its value is taken when the read address is ACKed, whatever the controller then reads (R402); the PEC covers the command and
the bytes that `sent` gives (R403). A transaction that never reaches the read address, cut short, with a data byte after the
command code or with a code that is NACKed, is discarded. -/
def readXact (x : Xact) (code : Nat) (sent : State → List Byte) (act : State → State) (s : State) : State :=
  match x with
  | .short | .extra _ | .alien _ => discard F.TWM_EVT_FMTERR s
  | .done | .pec _ =>
    let t := act s
    countXfer (updTwm (fun y => { y with pec := crc8 ([s.addrW, BitVec.ofNat 8 code, s.addrR] ++ sent t) }) t)

/-- The bytes of a Read 32, and of a Block Read with its count. -/
def State.sentWord (s : State) : List Byte := natLe 4 s.bus.toNat
def State.sentBlock (s : State) : List Byte := BitVec.ofNat 8 s.block.length :: s.block

/-- A Read 32 and a Block Read. -/
def readWord (x : Xact) (code : Nat) (act : State → State) (s : State) : State := readXact x code State.sentWord act s
def readBlock (x : Xact) (code : Nat) (act : State → State) (s : State) : State := readXact x code State.sentBlock act s

/-- The bytes of a Write 32, and of a Block Write with its count. -/
def wordBytes (v : Word) : List Byte := natLe 4 v.toNat
def blockBytes (l : List Byte) : List Byte := BitVec.ofNat 8 l.length :: l

/-- The bytes of a Block Read stand in `block`. -/
def setBlock (l : List Byte) (s : State) : State := { s with block := l }

/-! ### The register window (R405-R407) -/

/-- A failed access sets `WERR`. -/
def noteWerr (failed : Bool) (s : State) : State := if failed then raiseTwm F.TWM_EVT_WERR s else s

/-- A window read at the window address; its value goes to `TWM_LRD`. -/
def windowRead (s : State) : Word × State :=
  let x := hostRead (s.reg R.TWM_WADDR).toNat s
  (x.val, setReg R.TWM_LRD x.val (noteWerr x.failed x.st))

/-- A window write at the window address. -/
def windowWrite (v : Word) (s : State) : State :=
  let x := hostWrite (s.reg R.TWM_WADDR).toNat v s
  noteWerr x.1 x.2

/-- 4 is added to the window address. -/
def windowNext (s : State) : State := setReg R.TWM_WADDR (s.reg R.TWM_WADDR + 4) s

/-- A read as a command whose window address then advances. -/
def windowReadNext (s : State) : Word × State :=
  let x := windowRead s
  (x.1, windowNext x.2)

/-- `n` reads of `WBURST`: the bytes, and the state after them. -/
def burstRead : Nat → State → List Byte × State
  | 0, s => ([], s)
  | n + 1, s =>
    let x := windowReadNext s
    let r := burstRead n x.2
    (natLe 4 x.1.toNat ++ r.1, r.2)

/-- The words of a `WBURST` write in order; `n` bounds their number. -/
def burstWrite : Nat → List Byte → State → State
  | 0, _, s => s
  | n + 1, l, s =>
    if l.length < 4 then s
    else burstWrite n (l.drop 4) (windowNext (windowWrite (BitVec.ofNat 32 (leNat (l.take 4))) s))

def execTwmStatus (x : Xact) (s : State) : Host.Outcome State Fault Refusal :=
  .next (twmCmd (readWord x 0x00 fun t => setBus t.twmStat t) s)

def execTwmWaddr (x : Xact) (k : WordCmd) (s : State) : Host.Outcome State Fault Refusal :=
  .next (twmCmd (match k with
    | .write v => writeXact x 0x01 (wordBytes v) fun t => setReg R.TWM_WADDR (v &&& 0xFFFFFFFC) t
    | .read => readWord x 0x01 fun t => setBus (t.reg R.TWM_WADDR) t) s)

def execTwmWdata (x : Xact) (k : WordCmd) (s : State) : Host.Outcome State Fault Refusal :=
  .next (twmCmd (match k with
    | .write v => writeXact x 0x02 (wordBytes v) (windowWrite v)
    | .read => readWord x 0x02 fun t => readCmd (windowRead t)) s)

def execTwmWdatai (x : Xact) (k : WordCmd) (s : State) : Host.Outcome State Fault Refusal :=
  .next (twmCmd (match k with
    | .write v => writeXact x 0x03 (wordBytes v) fun t => windowNext (windowWrite v t)
    | .read => readWord x 0x03 fun t => readCmd (windowReadNext t)) s)

/-- The words of a `WBURST` read: `BLEN`, of which 0 acts as 1 and a value above 16 as 16 (Table 16-11, R140). -/
def State.burstLen (s : State) : Nat := clampTo 1 16 (s.fld R.TWM_CFG F.TWM_CFG_BLEN)

/-- `WBURST`: a Block Write takes 4 to 64 bytes in whole words; a count byte outside that is NACKed, so the transaction ends
short. -/
def execTwmWburst (x : Xact) (k : BlockCmd) (s : State) : Host.Outcome State Fault Refusal :=
  .next (twmCmd (match k with
    | .write l =>
      if 4 ≤ l.length && l.length ≤ 64 && l.length % 4 = 0 then writeXact x 0x04 (blockBytes l) (burstWrite 16 l)
      else discard F.TWM_EVT_FMTERR
    | .read => readBlock x 0x04 fun t =>
      let r := burstRead t.burstLen t
      setBlock r.1 r.2) s)

def execTwmLastrd (x : Xact) (s : State) : Host.Outcome State Fault Refusal :=
  .next (twmCmd (readWord x 0x05 fun t => setBus (t.reg R.TWM_LRD) t) s)

/-! ### Domain requests (R408, R409) -/

/-- A request is pending. -/
def State.rqPending (s : State) : Bool := s.fld R.TWM_RQSTAT F.TWM_RQSTAT_ST = 1

/-- The command code of the transaction is that of its row. -/
def listedCode : Xact → Bool
  | .alien _ => false
  | .done | .pec _ | .short | .extra _ => true

/-- `RQBUF`: a Block Write while a request is pending is NACKed at the command code. -/
def execTwmRqbuf (x : Xact) (k : BlockCmd) (s : State) : Host.Outcome State Fault Refusal :=
  .next (twmCmd (match k with
    | .write l => fun t =>
      if t.rqPending && listedCode x then t
      else if 1 ≤ l.length && l.length ≤ 64 then writeXact x 0x10 (blockBytes l) (updTwm fun y => { y with buf := l }) t
      else discard F.TWM_EVT_FMTERR t
    | .read => readBlock x 0x10 fun t => setBlock t.twm.buf t) s)

/-- `DEV` names this device: its own address or 0xFFFF, which in a domain of 65,536 devices names another at the root. -/
def State.namesSelf (s : State) (dev : Nat) : Bool :=
  dev = s.myAddr || (dev = 0xFFFF && !(s.isRoot && s.fld R.LNK_DOM F.LNK_DOM_COUNT = 65536))

/-- The request of an `RQGO` word (Table 16-5): it ends at once where it is bad or its target cannot be reached; this device
executes its own; the root sends any other, after a running enumeration. -/
def startRequest (v : Word) (s : State) : State :=
  let kind := v.toNat / 4096 % 16
  let ch := v.toNat / 1024 % 4
  let tag := v.toNat % 256
  let dev := v.toNat / 65536
  let s1 := updTwm (fun y => { y with go := v, goAt := s.clock, held := false, gen := none })
    (setReg R.TWM_RQSTAT (BitVec.ofNat 32 (2 ^ 28 + tag * 65536)) s)
  if !requestOk kind s.twm.buf || v.toNat / 256 % 4 != 0 then endRequest 3 [] s1
  else if s.namesSelf dev then runRequest (.host (BitVec.ofNat 8 tag)) kind ch s.twm.buf s1
  else if !s.isRoot then endRequest 5 [] s1
  else if s.fld R.LNK_DOM F.LNK_DOM_COUNT ≤ dev then endRequest 4 [] s1
  else if s.enum.run then updTwm (fun y => { y with held := true }) s1
  else sendRequest s1

/-- The write passes its checks. -/
def State.passes (s : State) (x : Xact) (code : Nat) (data : List Byte) : Bool :=
  match x with
  | .short | .alien _ => false
  | .done => !s.flag R.TWM_CFG F.TWM_CFG_PECREQ
  | .pec b | .extra b => b = s.writePec code data

/-- `RQGO`: without effect, but for `FMTERR`, while a request is pending. -/
def execTwmRqgo (x : Xact) (v : Word) (s : State) : Host.Outcome State Fault Refusal :=
  .next (twmCmd (fun t =>
    if t.rqPending && t.passes x 0x11 (wordBytes v) then raiseTwm F.TWM_EVT_FMTERR t
    else writeXact x 0x11 (wordBytes v) (startRequest v) t) s)

def execTwmRqstat (x : Xact) (s : State) : Host.Outcome State Fault Refusal :=
  .next (twmCmd (readWord x 0x12 fun t => setBus (t.reg R.TWM_RQSTAT) t) s)

/-- The response that `RQRESP` returns: one byte of 0 where `LEN` is 0 or `ST` is not DONE. -/
def State.response (s : State) : List Byte :=
  if s.fld R.TWM_RQSTAT F.TWM_RQSTAT_ST = 2 && s.twm.resp ≠ [] then s.twm.resp else [0]

def execTwmRqresp (x : Xact) (s : State) : Host.Outcome State Fault Refusal :=
  .next (twmCmd (readBlock x 0x13 fun t => setBlock t.response t) s)

def execTwmAlertsum (x : Xact) (s : State) : Host.Outcome State Fault Refusal :=
  .next (twmCmd (readWord x 0x20 fun t => setBus (BitVec.ofNat 32 t.asum) t) s)

/-- `TMO_MS` after `RQGO` the request ends with TIMEOUT. -/
def execRequestTimeout (s : State) : Host.Outcome State Fault Refusal :=
  .next (if s.mgmtUp && s.rqPending &&
      s.past s.twm.goAt (1000 * clampTo 10 10000 (s.fld R.TWM_DOMCFG F.TWM_DOMCFG_TMO_MS)) then endRequest 6 [] s else s)

/-! ### The Alert Response Address and bus recovery (R400, R411, R414-R417) -/

/-- A Read Byte at 0x0C, answered with SADDR while `ALERT_N` would be asserted; `others` are the addresses that further devices send. A
0 wins every bit (R416), so a device drops out when one of them is lower. -/
def execAlertResponse (others : List (BitVec 7)) (s : State) : Host.Outcome State Fault Refusal :=
  .next (if s.mgmtUp && s.flag R.TWM_CFG F.TWM_CFG_ARAEN && s.alertN then
      (let t := wakeUp 1 s
       if others.any fun a => a.toNat < t.fld R.TWM_STAT F.TWM_STAT_SADDR then t
       else setFld R.TWM_STAT F.TWM_STAT_ARAHELD 1
         (setBus (BitVec.ofNat 32 (2 * t.fld R.TWM_STAT F.TWM_STAT_SADDR)) t))
    else s)

/-- A STOP or repeated START in mid-byte. -/
def execBusFault (s : State) : Host.Outcome State Fault Refusal :=
  .next (if s.mgmtUp then discard F.TWM_EVT_BUSFLT s else s)

/-- The limits of Table 16-2: each acts no earlier than its least time (log 2). -/
def execStretchLimit (us : Nat) (s : State) : Host.Outcome State Fault Refusal :=
  .next (if s.mgmtUp && 2000 ≤ us then discard F.TWM_EVT_STRTO s else s)

/-- With no transaction in progress there is none to discard: `busy` says that one was. -/
def execSclLowTimeout (us : Nat) (busy : Bool) (s : State) : Host.Outcome State Fault Refusal :=
  .next (if s.mgmtUp && 25000 ≤ us then (if busy then discard F.TWM_EVT_SCLTO s else raiseTwm F.TWM_EVT_SCLTO s) else s)

def execSdaStuck (us : Nat) (s : State) : Host.Outcome State Fault Refusal :=
  .next (if s.mgmtUp && 35000 ≤ us then discard F.TWM_EVT_SDATO s else s)

end Sys2Proof.Machine
end

