-- ==== Sys2Proof/Machine/Flags.lean ====
section
/-! DEFINITION. Flags of a Svaq string (Table 10-2), conditions (Table 10-3), and results with their flags (R273, Table
10-6). -/
namespace Sys2Proof.Machine

/-- The flags N, Z, C and V, bits 3 to 0 of `ST`. -/
structure Flags where
  n : Bool
  z : Bool
  c : Bool
  v : Bool
deriving DecidableEq, Repr

/-- The flags that an `ST` word holds. -/
def Flags.of (st : Word) : Flags := ⟨st.getLsbD 3, st.getLsbD 2, st.getLsbD 1, st.getLsbD 0⟩

/-- `ST` with its flags replaced. -/
def Flags.put (f : Flags) (st : Word) : Word :=
  (st &&& 0xFFFFFFF0) ||| BitVec.ofNat 32 (8 * f.n.toNat + 4 * f.z.toNat + 2 * f.c.toNat + f.v.toNat)

/-- The condition of a code holds (Table 10-3). -/
def Flags.holds (f : Flags) : Nat → Bool
  | 0 => true
  | 1 => f.z
  | 2 => !f.z
  | 3 => f.c
  | 4 => !f.c
  | 5 => f.n
  | 6 => !f.n
  | 7 => f.v
  | 8 => !f.v
  | 9 => f.c && !f.z
  | 10 => !f.c || f.z
  | 11 => f.n = f.v
  | 12 => f.n != f.v
  | 13 => !f.z && f.n = f.v
  | 14 => f.z || f.n != f.v
  | _ => false

/-- N and Z of a result; C and V stand. -/
def Flags.logic (r : Word) (f : Flags) : Flags := { f with n := r.msb, z := r = 0 }

/-- The sum of two words and a carry, with N, Z, C and V. -/
def addFlags (a b : Word) (cin : Bool) : Word × Flags :=
  let r := a + b + BitVec.ofNat 32 cin.toNat
  (r, ⟨r.msb, r = 0, 2 ^ 32 ≤ a.toNat + b.toNat + cin.toNat, a.msb = b.msb && r.msb != a.msb⟩)

/-- A difference with its flags: C is 1 when no borrow occurred, `cin` is 1 less the borrow taken in. -/
def subFlags (a b : Word) (cin : Bool) : Word × Flags := addFlags a (~~~b) cin

/-- The kinds of shift. -/
inductive ShiftKind where
  | left | right | arith
deriving DecidableEq, Repr

/-- A shift by bits 4:0 of its amount: N and Z, and C the last bit shifted out. A shift of 0 leaves C. -/
def shiftFlags (k : ShiftKind) (a b : Word) (f : Flags) : Word × Flags :=
  let n := b.toNat % 32
  let r := match k with
    | .left => a <<< n
    | .right => a >>> n
    | .arith => a.sshiftRight n
  let c := if n = 0 then f.c else match k with
    | .left => a.getLsbD (32 - n)
    | .right | .arith => a.getLsbD (n - 1)
  (r, { f.logic r with c := c })

end Sys2Proof.Machine
end

