-- ==== Sys2Proof/Machine/Operands.lean ====
section
/-! DEFINITION. Fields of a Svaq instruction word (Table 10-4), its immediate operands (R275), and which words are legal
(R274, Table 10-5). -/
namespace Sys2Proof.Machine

/-- Bits `hi` to `lo` of an instruction word. -/
def fieldOf (w : Word) (hi lo : Nat) : Nat := w.toNat / 2 ^ lo % 2 ^ (hi + 1 - lo)

def opCond (w : Word) : Nat := fieldOf w 31 28
def opCode (w : Word) : Nat := fieldOf w 27 22
def opD (w : Word) : Nat := fieldOf w 21 18
def opA (w : Word) : Nat := fieldOf w 17 14
def opB (w : Word) : Nat := fieldOf w 13 10

/-- `NUM` or `FN`. -/
def opNum (w : Word) : Nat := fieldOf w 7 0

/-- `IMM16`, and `LEN16` of `rep`. -/
def imm16 (w : Word) : Nat := fieldOf w 15 0

/-- `A` of `rep`, which stands in the place of `D` (form P). -/
def opRep (w : Word) : Nat := fieldOf w 21 18

/-- `IMM14` with its sign extended, and with zeros. -/
def simm14 (w : Word) : Word := (BitVec.ofNat 14 (fieldOf w 13 0)).signExtend 32
def zimm14 (w : Word) : Word := BitVec.ofNat 32 (fieldOf w 13 0)

/-- `OFF22` in bytes. -/
def off22 (w : Word) : Word := (BitVec.ofNat 22 (fieldOf w 21 0)).signExtend 32 * 4

/-- The fields that its opcode fixes at 0 are 0, and a group opcode has an assigned `FN`. -/
def opFieldsOk (w : Word) : Bool :=
  let op := opCode w
  if op ≤ 0x0B then fieldOf w 9 0 = 0
  else if op ≤ 0x0D then opD w = 0 && fieldOf w 9 0 = 0
  else if op = 0x10 || (0x14 ≤ op && op ≤ 0x1B) then true
  else if op = 0x1C || op = 0x1D then opD w = 0
  else if op = 0x20 || op = 0x21 then fieldOf w 17 16 = 0
  else if 0x24 ≤ op && op ≤ 0x28 then true
  else if 0x2C ≤ op && op ≤ 0x2E then true
  else if 0x30 ≤ op && op ≤ 0x34 then opD w = 0 && fieldOf w 9 0 = 0
  else if op = 0x38 then fieldOf w 17 10 = 0 && fieldOf w 9 8 = 0
  else if op = 0x39 then opD w = 0 && opB w = 0 && fieldOf w 9 8 = 0
  else if op = 0x3A || op = 0x3B then true
  else if op = 0x3C then opD w = 0 && fieldOf w 13 0 = 0
  else if op = 0x3D then fieldOf w 17 16 = 0 && imm16 w != 0
  else if op = 0x3E then fieldOf w 9 8 = 0 && opNum w ≤ 4
  else if op = 0x3F then fieldOf w 21 8 = 0 && opNum w ≤ 4
  else false

/-- The word is a legal instruction. -/
def legal (w : Word) : Bool := opCond w != 15 && opFieldsOk w

end Sys2Proof.Machine
end

