-- ==== Sys2Proof/Machine/Svaq.lean ====
section
/-! DEFINITION. What every Svaq instruction is built from (chapter 10, R295): the registers of a string, landing of products,
the loop check, exceptions, fetch, the vote on each request, loads, stores and events. -/
namespace Sys2Proof.Machine

/-! ### A string (R271, Table 10-1) -/

/-- General register `i`; g0 reads as 0. -/
def Str.gpr (x : Str) (i : Nat) : Word := if i = 0 then 0 else tabGet 0 x.g i

/-- Writes general register `i`; a write to g0 is discarded. -/
def Str.setGpr (i : Nat) (v : Word) (x : Str) : Str := if i = 0 then x else { x with g := tabSet 0 x.g i v }

/-- The value of `MHI`:`MLO`. -/
def Str.acc (x : Str) : BitVec 64 := x.mhi ++ x.mlo

def Str.setAcc (v : BitVec 64) (x : Str) : Str := { x with mhi := v.extractLsb' 32 32, mlo := v.extractLsb' 0 32 }

/-- A product lands: it replaces the multiplier result, or is added to it (R277). -/
def Str.land (p : Prod) (x : Str) : Str := x.setAcc (if p.acc then x.acc + p.val else p.val)

/-- Products land in issue order while the oldest was issued 4 cycles ago or more; `n` bounds their number. -/
def Str.landDue : Nat → Str → Str
  | 0, x => x
  | n + 1, x =>
    match x.prods with
    | [] => x
    | p :: l => if 4 ≤ p.age then Str.landDue n (Str.land p { x with prods := l }) else x

/-- `n` cycles pass for the products in flight. -/
def Str.aged (n : Nat) (x : Str) : Str := { x with prods := x.prods.map fun p => { p with age := p.age + n } }

/-- Every product in flight lands (R278). -/
def Str.landAll (x : Str) : Str := x.prods.foldl (fun y p => Str.land p y) { x with prods := [] }

/-- The condition of the instruction holds in this string. -/
def Str.cond (x : Str) (w : Word) : Bool := (Flags.of x.st).holds (opCond w)

/-- Flags of a result. -/
def Str.setFlags (f : Flags) (x : Str) : Str := { x with st := f.put x.st }

/-- The instruction at `PC` completes and execution would continue at `next`: the loop check of R279. -/
def Str.retireTo (next : Word) (x : Str) : Str :=
  if x.pc = x.le && 2 ≤ x.lc.toNat then { x with lc := x.lc - 1, pc := x.ls }
  else if x.pc = x.le && x.lc = 1 then { x with lc := 0, pc := next }
  else { x with pc := next }

/-- The instruction at `PC` completes. -/
def Str.retire (x : Str) : Str := x.retireTo (x.pc + 4)

/-- The exception causes (Table 10-1, `XCAUSE`). -/
inductive Exc where
  | illegal | misalign | fetch | brk
deriving DecidableEq, Repr

def Exc.code : Exc → Word
  | .illegal => 1 | .misalign => 2 | .fetch => 3 | .brk => 4

/-- `XA` and `IE` of `ST`. -/
def Str.xa (x : Str) : Bool := x.st.getLsbD 7
def Str.ie (x : Str) : Bool := x.st.getLsbD 4

/-- Exception entry (R287). -/
def Str.except (k : Exc) (x : Str) : Str :=
  { x with xpc := x.pc, xcause := k.code, xstat := x.st, st := (x.st ||| 0x80) &&& 0xFFFFFFEF, pc := 0x10 }

/-- Event entry (R286). -/
def Str.enterEvent (x : Str) : Str := { x with epc := x.pc, estat := x.st, st := x.st &&& 0xFFFFFFEF, pc := 0x8 }

/-! ### The course -/

/-- Cycles pass (R276); the scan's pause while debug halts the course (R308). -/
def spend (c n : Nat) (s : State) : State :=
  updStrs c (Str.aged n) (updCrs c (fun x =>
    { x with cycle := x.cycle + BitVec.ofNat 32 n, scanAge := if x.halted then x.scanAge else x.scanAge + n }) s)

/-- How an instruction ends in a string. -/
inductive Ending where
  | step (x : Str)
  | exc (k : Exc)

/-- Every string that counts ends the instruction; `cost` is its cycles, and an exception takes 4. An exception while `XA` is
1 in two strings stops the course (R287). -/
def settle (c cost : Nat) (f : Str → Ending) (s : State) : State :=
  let dbl := (s.active3 c).filter fun i =>
    match f ((s.crsOf c).str i) with
    | .exc _ => ((s.crsOf c).str i).xa
    | .step _ => false
  if 2 ≤ dbl.length then beginRestart c .xdouble s
  else
    let n := match f (s.lead c) with
      | .exc _ => 4
      | .step _ => cost
    spend c n (updStrs c (fun x => match f x with | .exc k => x.except k | .step y => y) s)

/-- An instruction that presents no request: `f` computes its effect but for `PC`, in 1 cycle. -/
def alu (c : Nat) (w : Word) (f : Str → Str) (s : State) : State :=
  settle c 1 (fun x => .step (if x.cond w then (f x).retire else x.retire)) s

/-- The sources of events (Table 10-8). -/
def State.evtWord (s : State) (c : Nat) : Word :=
  let x := s.crsOf c
  let timer := (List.range 8).any fun k =>
    (s.reg (R.TMU_STAT (8 * c + k))).toNat % 32 &&& s.fld (R.TMU_IEN (8 * c + k)) F.TMU_IEN_CIE != 0
  let port := (List.range 4).any fun j => s.pevWord c j != 0
  BitVec.ofNat 32 (x.link.toNat * 128 + x.slot.toNat * 64 + x.commit.toNat * 32 + (s.mbxOldest c).isSome.toNat * 16 +
    port.toNat * 8 + (decide ((s.chanOf c).cq ≠ [])).toNat * 4 + (decide ((s.chanOf c).evq ≠ [])).toNat * 2 + timer.toNat)

/-- An enabled event is pending. -/
def State.eventPending (s : State) (c : Nat) : Bool := s.evtWord c &&& (s.crsOf c).even != 0

/-! ### Stores leaving the buffer (R291) -/

/-- The oldest store of the buffer lands; none where it hangs on a stopped clock (R346). -/
def landOldest (c : Fin 4) (s : State) : Option State :=
  match (s.crsOf c).sbuf with
  | [] => some s
  | e :: l =>
    if s.hangs (courseSpot c e.addr.toNat) then none
    else some (courseStore c e.width e.addr e.data (updCrs c (fun x => { x with sbuf := l }) s))

/-- Up to `n` stores land. -/
def landStores (c : Fin 4) : Nat → State → Option State
  | 0, s => some s
  | n + 1, s =>
    match landOldest c s with
    | some t => landStores c n t
    | none => none

/-- The buffer holds a store to the counter window or to the device-wide counter registers. -/
def State.slowStore (s : State) (c : Nat) : Bool :=
  (s.crsOf c).sbuf.any fun e => match courseSpot c e.addr.toNat with
    | .tmu _ => true
    | _ => false

/-- The cycles of a wait for `n` stores: each lands within 4 cycles. With the instruction, of at most 22 cycles beside the
wait, and the 4 cycles of entry the whole stays within the bounds of R286: 200 behind slow stores, else 41, which leaves
`most`. -/
def waitCycles (n most : Nat) (slow : Bool) (s : State) : Nat × State :=
  if n = 0 then (0, s)
  else
    let d := drawNat s
    (d.1 % ((if slow then 174 else min most (4 * n)) + 1), d.2)

/-! ### Fetch (R295, Table 11-2) -/

/-- The word at a fetch address in code RAM. What an address that is not aligned fetches is open. -/
def codeWord (c : Nat) (pc : Word) (s : State) : Word × State :=
  if pc.toNat % 4 ≠ 0 then drawWord s else (BitVec.ofNat 32 (s.leAt c pc.toNat 4), s)

/-- The course is at a boundary and may execute: a scan that is due (R296) and the stall of a retune (R300) come first. -/
def State.executes (s : State) (c : Nat) : Bool :=
  s.crsRuns c && !(s.crsOf c).sleep && (s.crsOf c).iso.isNone && !s.scanDue c

/-- Products that are due land in every string that counts. -/
def landProducts (c : Nat) (s : State) : State := updStrs c (Str.landDue 4) s

/-- The strings fetch: the voted address goes to `k`. -/
def fetchAt (c : Nat) (k : Word → State → State) (s : State) : State := bridge c 1 0 (fun x => x.pc) k s

/-- Executes the instruction at `PC` where its word is one that `is` names: `act` is its meaning. Elsewhere the command does
not stand for what the course executes and has no effect. An uncorrectable word stops the course (Table 11-5). -/
def svRun (c : Nat) (is : Word → Bool) (act : Word → State → State) (s : State) : State :=
  if s.executes c then
    fetchAt c (fun pc t0 =>
      if 0x30000 ≤ pc.toNat then s
      else
        let t := seen [(c, pc.toNat)] t0
        if t.poisoned c pc.toNat then beginRestart c .ueccC t
        else
          let r := codeWord c pc t
          if is r.1 then act r.1 (landProducts c r.2) else s) s
  else s

/-- A legal word with opcode `op`. -/
def isOp (op : Nat) (w : Word) : Bool := legal w && opCode w = op

/-- A legal word of the string or the system group. -/
def isFn (op fn : Nat) (w : Word) : Bool := legal w && opCode w = op && opNum w = fn

/-! ### Loads -/

/-- What a voted load does: it hangs, an uncorrectable word stops the course, or a value arrives after some cycles. -/
inductive Loaded where
  | hang
  | stop (s : State)
  | value (v : Word) (cost : Nat) (s : State)

/-- A voted load of `n` bytes at an address aligned to them (Table 10-10). -/
def svLoad (c : Fin 4) (n : Nat) (a : Word) (s : State) : Loaded :=
  match courseSpot c a.toNat with
  | .data o =>
    let t := seen [(0x10 + c, o)] s
    if t.poisoned (0x10 + c) o then .stop (beginRestart c .ueccD t)
    else let r := courseLoad c n a t; .value r.1 2 r.2
  | .code o =>
    let t := seen [(c, o)] s
    if t.poisoned c o then .stop (beginRestart c .ueccC t)
    else let r := courseLoad c n a t; .value r.1 3 r.2
  | .outside => let r := courseLoad c n a s; .value r.1 6 r.2
  | sp =>
    let k := (s.crsOf c).sbuf.length
    let slow := s.slowStore c
    match landStores c k s with
    | none => .hang
    | some t =>
      if t.hangs sp then .hang
      else
        let w := waitCycles k 16 slow t
        let r := courseLoad c n a w.2
        match sp with
        | .tmu _ => let d := drawNat r.2; .value r.1 (w.1 + 12 + d.1 % 5) d.2
        | _ => .value r.1 (w.1 + 6) r.2

/-- A load instruction: `ext` extends the value to a word. -/
def load (c : Fin 4) (n : Nat) (ext : Word → Word) (w : Word) (s : State) : State :=
  let addr (x : Str) : Word := x.gpr (opA w) + simm14 w
  let good (x : Str) : Bool := (addr x).toNat % n = 0
  bridge c 2 0 (fun x => if x.cond w && good x then some (addr x, n) else none)
    (fun v t =>
      let fin (d : Word) (x : Str) : Ending :=
        if !x.cond w then .step x.retire
        else if !good x then .exc .misalign
        else .step (x.setGpr (opD w) (ext d)).retire
      match v with
      | none => settle c 1 (fin 0) t
      | some r =>
        match svLoad c n r.1 t with
        | .hang => hang c t
        | .stop u => u
        | .value d cost u => settle c cost (fin d) u) s

/-! ### Stores -/

/-- A voted store of `n` bytes: data RAM takes it at once, any other region through the store buffer. The cycles beyond the
first, and the state; none where it waits on a store that hangs. -/
def svStore (c : Fin 4) (n : Nat) (a v : Word) (s : State) : Option (Nat × State) :=
  match courseSpot c a.toNat with
  | .data _ => some (0, courseStore c n a v s)
  | _ =>
    let push (t : State) : State := updCrs c (fun x => { x with sbuf := x.sbuf ++ [⟨a, n, v⟩] }) t
    if (s.crsOf c).sbuf.length < 4 then some (0, push s)
    else
      let slow := s.slowStore c
      match landOldest c s with
      | none => none
      | some t =>
        let w := waitCycles 1 4 slow t
        some (w.1, push w.2)

/-- The data of a store of `n` bytes. -/
def storeData (n : Nat) (v : Word) : Word := v &&& BitVec.ofNat 32 (2 ^ (8 * n) - 1)

/-- A store instruction. -/
def store (c : Fin 4) (n : Nat) (w : Word) (s : State) : State :=
  let addr (x : Str) : Word := x.gpr (opA w) + simm14 w
  let good (x : Str) : Bool := (addr x).toNat % n = 0
  let fin (x : Str) : Ending :=
    if !x.cond w then .step x.retire else if !good x then .exc .misalign else .step x.retire
  bridge c 3 0
    (fun x => if x.cond w && good x then some (addr x, n, storeData n (x.gpr (opD w))) else none)
    (fun v t =>
      match v with
      | none => settle c 1 fin t
      | some r =>
        match svStore c n r.1 r.2.2 t with
        | none => hang c t
        | some u => settle c (1 + u.1) fin u.2) s

/-! ### The multiplier (R277, R278) -/

/-- Issues a product in every string whose condition holds. -/
def issue (c : Nat) (acc : Bool) (f : Word → Word → BitVec 64) (w : Word) (s : State) : State :=
  alu c w (fun x => { x with prods := x.prods ++ [⟨0, acc, f (x.gpr (opA w)) (x.gpr (opB w))⟩] }) s

def mulU (a b : Word) : BitVec 64 := a.zeroExtend 64 * b.zeroExtend 64
def mulS (a b : Word) : BitVec 64 := a.signExtend 64 * b.signExtend 64

/-- Cycles until the last product in flight has landed. -/
def Str.productWait (x : Str) : Nat :=
  match x.prods.getLast? with
  | none => 0
  | some p => 4 - p.age

/-- `divu` (Table 10-6): quotient in `MLO`, remainder in `MHI`. -/
def Str.divide (a b : Word) (x : Str) : Str :=
  if b = 0 then { x with mlo := 0xFFFFFFFF, mhi := a } else { x with mlo := a / b, mhi := a % b }

def divide (c : Nat) (w : Word) (s : State) : State :=
  let x := s.lead c
  let cost := if x.cond w then 34 + x.productWait else 1
  settle c cost (fun x =>
    .step (if x.cond w then (x.landAll.divide (x.gpr (opA w)) (x.gpr (opB w))).retire else x.retire)) s

/-! ### Special registers (Table 10-1, Table 11-1) -/

/-- A special register that each string holds. -/
def Str.special (x : Str) (n : Nat) : Word :=
  match n with
  | 0 => x.mlo | 1 => x.mhi | 2 => x.lc | 3 => x.ls | 4 => x.le | 5 => x.st | 6 => x.epc | 7 => x.estat | 8 => x.xpc
  | 9 => x.xcause | 10 => x.xstat
  | _ => 0

/-- A write of a special register that each string holds; `XA`, the reserved bits and `XCAUSE` are read-only. -/
def Str.setSpecial (n : Nat) (v : Word) (x : Str) : Str :=
  match n with
  | 0 => { x with mlo := v }
  | 1 => { x with mhi := v }
  | 2 => { x with lc := v }
  | 3 => { x with ls := v &&& 0xFFFFFFFC }
  | 4 => { x with le := v &&& 0xFFFFFFFC }
  | 5 => { x with st := (x.st &&& 0xFFFFFFE0) ||| (v &&& 0x1F) }
  | 6 => { x with epc := v }
  | 7 => { x with estat := v }
  | 8 => { x with xpc := v }
  | 10 => { x with xstat := v }
  | _ => x

/-- A special register that the course holds once: 11 to 16. -/
def courseSpecial (n : Nat) : Bool := 11 ≤ n && n ≤ 16

def State.special (s : State) (c n : Nat) : Word :=
  let x := s.crsOf c
  match n with
  | 11 => s.evtWord c
  | 12 => x.even
  | 13 => BitVec.ofNat 32 (x.ae.toNat * 2 ^ 31)
  | 14 => x.aeAddr
  | 15 => x.cycle
  | 16 => BitVec.ofNat 32 c
  | _ => 0

/-- A write of a special register that the course holds: a 1 clears a latched bit of `EVT`, or `AE`. -/
def setSpecial (c n : Nat) (v : Word) (s : State) : State :=
  match n with
  | 11 => updCrs c (fun x => { x with link := x.link && !v.getLsbD 7, slot := x.slot && !v.getLsbD 6,
                                      commit := x.commit && !v.getLsbD 5 }) s
  | 12 => updCrs c (fun x => { x with even := v &&& 0xFF }) s
  | 13 => updCrs c (fun x => { x with ae := x.ae && !v.getLsbD 31 }) s
  | _ => s

def readSpecial (c : Nat) (w : Word) (s : State) : State :=
  let n := opNum w
  if courseSpecial n then
    bridge c 4 0 (fun x => if x.cond w then some (n, false, (0 : Word)) else none)
      (fun _ t => alu c w (fun x => x.setGpr (opD w) (t.special c n)) t) s
  else alu c w (fun x => x.setGpr (opD w) (x.special n)) s

def writeSpecial (c : Nat) (w : Word) (s : State) : State :=
  let n := opNum w
  if courseSpecial n then
    bridge c 4 0 (fun x => if x.cond w then some (n, true, x.gpr (opA w)) else none)
      (fun v t => alu c w id (match v with
        | some r => setSpecial c n r.2.2 t
        | none => t)) s
  else alu c w (fun x => x.setSpecial n (x.gpr (opA w))) s

/-! ### Branches, returns and the loop (R275, R279, R280, R287) -/

/-- A taken branch makes no loop check; one whose condition fails completes in 1 cycle. -/
def branch (c : Nat) (w : Word) (f : Str → Str) (s : State) : State :=
  settle c (if (s.lead c).cond w then 2 else 1) (fun x => .step (if x.cond w then f x else x.retire)) s

/-- `rep`: the body begins at the next instruction; a count of 0 goes past it (R279). Bits 1:0 of `LS` and `LE` read 0 (Table
10-1). -/
def Str.rep (n len : Nat) (x : Str) : Str :=
  let a := x.gpr n
  let le := (x.pc + 4 * BitVec.ofNat 32 len) &&& 0xFFFFFFFC
  let y := { x with lc := a, ls := (x.pc + 4) &&& 0xFFFFFFFC, le := le }
  if a = 0 then y.retireTo (le + 4) else y.retire

def repeat_ (c : Nat) (w : Word) (s : State) : State :=
  let x := s.lead c
  settle c (if x.cond w && x.gpr (opRep w) = 0 then 2 else 1)
    (fun x => .step (if x.cond w then x.rep (opRep w) (imm16 w) else x.retire)) s

/-- `eret` and `xret`: the return takes 2 cycles. `XA` is read-only but for `xret`. -/
def return_ (c : Nat) (w : Word) (x0 : Bool) (s : State) : State :=
  settle c (if (s.lead c).cond w then 2 else 1)
    (fun x => .step (
      if !x.cond w then x.retire
      else if x0 then { x.retireTo x.xpc with st := x.xstat &&& 0x1F }
      else { x.retireTo x.epc with st := (x.st &&& 0x80) ||| (x.estat &&& 0x1F) })) s

/-- `brk` raises BRK. -/
def break_ (c : Nat) (w : Word) (s : State) : State :=
  settle c 1 (fun x => if x.cond w then .exc .brk else .step x.retire) s

/-- `wait`: the course sleeps unless an enabled event is pending (R288). -/
def wait_ (c : Nat) (w : Word) (s : State) : State :=
  bridge c 5 0 (fun x => x.cond w)
    (fun v t =>
      let u := alu c w id t
      if v && !t.eventPending c then updCrs c (fun x => { x with sleep := true }) u else u) s

/-! ### String instructions (R281-R283) -/

/-- A string instruction as each string runs it: the loads of its elements from g12 and the stores to g13, their width, and
its element. `found` ends a search. -/
structure StrOp where
  width : Nat
  loads : Bool
  stores : Bool
  aligned : Str → Bool
  data : Word → Str → Word
  next : Word → Str → Str
  found : Word → Str → Bool
  final : Bool → Str → Str

/-- The string still has elements of the instruction at `pc` to do. -/
def StrOp.live (o : StrOp) (w pc : Word) (x : Str) : Bool :=
  x.pc = pc && x.cond w && o.aligned x && x.gpr 14 != 0

/-- The instruction stops between elements (R283), or ends in every string that counts. -/
def StrOp.finish (o : StrOp) (c : Nat) (w pc : Word) (s : State) : State :=
  if (s.active3 c).any (fun i => o.live w pc ((s.crsOf c).str i)) then updCrs c (fun x => { x with mid := true }) s
  else
    settle c 0 (fun x =>
      if x.pc ≠ pc then .step x
      else if !x.cond w then .step x.retire
      else if !o.aligned x then .exc .misalign
      else .step (o.final false x).retire) (updCrs c (fun x => { x with mid := false }) s)

/-- The element's effect on the strings: a search ends where it has found its word. -/
def StrOp.after (o : StrOp) (c : Nat) (w pc d : Word) (s : State) : State :=
  updStrs c (fun x =>
    if !o.live w pc x then x
    else if o.found d x then (o.final true x).retire
    else o.next d x) s

/-- The end of an element: a search that has found its word is over, otherwise `k` follows. -/
def StrOp.ends (o : StrOp) (c : Nat) (w pc d : Word) (k : State → State) (s : State) : State :=
  let x := s.lead c
  if o.live w pc x && o.found d x then updCrs c (fun y => { y with mid := false }) (o.after c w pc d s)
  else k (o.after c w pc d s)

/-- The store of an element. -/
def StrOp.put (o : StrOp) (c : Fin 4) (w pc d : Word) (k : State → State) (s : State) : State :=
  if o.stores then
    bridge c 3 0
      (fun x => if o.live w pc x then some (x.gpr 13, o.width, storeData o.width (o.data d x)) else none)
      (fun v t =>
        match v with
        | none => k t
        | some r =>
          match svStore c o.width r.1 r.2.2 t with
          | none => hang c (updCrs c (fun x => { x with mid := true }) t)
          | some u => k (spend c (1 + u.1) u.2)) s
  else k (spend c 1 s)

/-- One element, then `k`; the instruction stops where an access hangs. -/
def StrOp.element (o : StrOp) (c : Fin 4) (w pc : Word) (k : State → State) (s : State) : State :=
  if o.loads then
    bridge c 2 0 (fun x => if o.live w pc x then some (x.gpr 12, o.width) else none)
      (fun v t =>
        match v with
        | none => k t
        | some r =>
          match svLoad c o.width r.1 t with
          | .hang => hang c (updCrs c (fun x => { x with mid := true }) t)
          | .stop u => u
          | .value d cost u => o.put c w pc d (o.ends c w pc d k) (spend c cost u)) s
  else o.put c w pc 0 (o.ends c w pc 0 k) s

/-- Up to `n` elements. A retune that is due takes the next element boundary (R300). -/
def StrOp.run (o : StrOp) (c : Fin 4) (w pc : Word) : Nat → State → State
  | 0, s => o.finish c w pc s
  | n + 1, s =>
    if !s.crsRuns c then s
    else if (s.active3 c).any (fun i => o.live w pc ((s.crsOf c).str i)) then
      o.element c w pc (fun t => if (t.crsOf c).iso.isSome then o.finish c w pc t else o.run c w pc n t) s
    else o.finish c w pc s

/-- A string instruction begins, in its first cycle, or goes on; `elems` elements and at least one follow before it stops
between elements. -/
def StrOp.begin (o : StrOp) (c : Fin 4) (elems : Nat) (w : Word) (s : State) : State :=
  let x := s.lead c
  let s1 := if (s.crsOf c).mid || (x.cond w && !o.aligned x) then s else spend c 1 s
  o.run c w x.pc (max 1 elems) s1

/-- Register g`i` goes up by `n`. -/
def Str.bump (i n : Nat) (x : Str) : Str := x.setGpr i (x.gpr i + BitVec.ofNat 32 n)

/-- One element less in g14. -/
def Str.count14 (x : Str) : Str := x.setGpr 14 (x.gpr 14 - 1)

def Str.wordAt (x : Str) (i : Nat) : Bool := (x.gpr i).toNat % 4 = 0

/-- `smovw` and `smovb`. -/
def moveOp (n : Nat) : StrOp :=
  { width := n, loads := true, stores := true, aligned := fun x => n = 1 || (x.wordAt 12 && x.wordAt 13),
    data := fun d _ => d, next := fun _ x => ((x.bump 12 n).bump 13 n).count14, found := fun _ _ => false,
    final := fun _ x => x }

/-- `sfillw` with the word of register `a`. -/
def fillOp (a : Nat) : StrOp :=
  { width := 4, loads := false, stores := true, aligned := fun x => x.wordAt 13, data := fun _ x => x.gpr a,
    next := fun _ x => (x.bump 13 4).count14, found := fun _ _ => false, final := fun _ x => x }

/-- Z of a string. -/
def Str.setZ (b : Bool) (x : Str) : Str := x.setFlags { Flags.of x.st with z := b }

/-- `sscanw` for the word of register `a`. -/
def scanOp (a : Nat) : StrOp :=
  { width := 4, loads := true, stores := false, aligned := fun x => x.wordAt 12, data := fun d _ => d,
    next := fun _ x => (x.bump 12 4).count14, found := fun d x => d = x.gpr a, final := Str.setZ }

/-! ### snap (R284) -/

/-- The words of port `k`'s record, from word `i` on, go to data RAM; `n` are left. -/
def snapWords (c : Fin 4) (k : Nat) (b : Word) (i : Nat) : Nat → State → State
  | 0, s => s
  | n + 1, s =>
    let r := courseLoad c 4 (BitVec.ofNat 32 (0xA0000 + 0x40 * k + 4 * i)) s
    snapWords c k b (i + 1) n (courseStore c 4 (b + BitVec.ofNat 32 (4 * i)) r.1 r.2)

/-- The copy, where its destination lies in data RAM. -/
def snapCopy (c : Fin 4) (k : Nat) (b : Word) (s : State) : State :=
  if 0x40000 ≤ b.toNat && b.toNat + 64 ≤ 0x50000 then snapWords c k b 0 16 s else setAe c b s

def snap (c : Fin 4) (w : Word) (s : State) : State :=
  let addr (x : Str) : Word := x.gpr (opB w)
  let good (x : Str) : Bool := (addr x).toNat % 4 = 0
  let fin (x : Str) : Ending :=
    if !x.cond w then .step x.retire else if !good x then .exc .misalign else .step x.retire
  bridge c 2 0 (fun x => if x.cond w && good x then some ((x.gpr (opA w)).toNat % 128, addr x) else none)
    (fun v t =>
      match v with
      | none => settle c 1 fin t
      | some r =>
        let k := (t.crsOf c).sbuf.length
        match landStores c k t with
        | none => hang c t
        | some u =>
          let z := waitCycles k 15 (t.slowStore c) u
          settle c (22 + z.1) fin (snapCopy c r.1 r.2 z.2)) s

end Sys2Proof.Machine
end

