-- ==== Sys2Proof/Machine/SvaqRows.lean ====
section
/-! DEFINITION. The Svaq instructions (Table 10-6), one meaning each, and what goes on at their boundaries: exceptions of a
fetched word, landings, event entry, sleep and debug. -/
namespace Sys2Proof.Machine

/-! ### Shapes of the register instructions -/

/-- The second operand of form R. -/
def regB (w : Word) (x : Str) : Word := x.gpr (opB w)

/-- A result with its flags, to register d. -/
def arith (c : Nat) (b : Str → Word) (f : Word → Word → Flags → Word × Flags) (w : Word) (s : State) : State :=
  alu c w (fun x =>
    let r := f (x.gpr (opA w)) (b x) (Flags.of x.st)
    (x.setFlags r.2).setGpr (opD w) r.1) s

/-- A result that sets N and Z and leaves C and V. -/
def logic (c : Nat) (b : Str → Word) (f : Word → Word → Word) (w : Word) (s : State) : State :=
  arith c b (fun u v g => let r := f u v; (r, g.logic r)) w s

/-- Flags alone; the result is discarded. -/
def compare (c : Nat) (b : Str → Word) (f : Word → Word → Flags → Flags) (w : Word) (s : State) : State :=
  alu c w (fun x => x.setFlags (f (x.gpr (opA w)) (b x) (Flags.of x.st))) s

/-! ### The instructions -/

def actAdd (c : Fin 4) (w : Word) (s : State) : State := arith c (regB w) (fun a b _ => addFlags a b false) w s

def execSvAdd (c : Fin 4) (s : State) : Host.Outcome State Fault Refusal :=
  .next (svRun c (isOp 0x00) (actAdd c) s)

def actSub (c : Fin 4) (w : Word) (s : State) : State := arith c (regB w) (fun a b _ => subFlags a b true) w s

def execSvSub (c : Fin 4) (s : State) : Host.Outcome State Fault Refusal :=
  .next (svRun c (isOp 0x01) (actSub c) s)

def actAdc (c : Fin 4) (w : Word) (s : State) : State := arith c (regB w) (fun a b f => addFlags a b f.c) w s

def execSvAdc (c : Fin 4) (s : State) : Host.Outcome State Fault Refusal :=
  .next (svRun c (isOp 0x02) (actAdc c) s)

def actSbc (c : Fin 4) (w : Word) (s : State) : State := arith c (regB w) (fun a b f => subFlags a b f.c) w s

def execSvSbc (c : Fin 4) (s : State) : Host.Outcome State Fault Refusal :=
  .next (svRun c (isOp 0x03) (actSbc c) s)

def actAnd (c : Fin 4) (w : Word) (s : State) : State := logic c (regB w) (fun a b => a &&& b) w s

def execSvAnd (c : Fin 4) (s : State) : Host.Outcome State Fault Refusal :=
  .next (svRun c (isOp 0x04) (actAnd c) s)

def actOr (c : Fin 4) (w : Word) (s : State) : State := logic c (regB w) (fun a b => a ||| b) w s

def execSvOr (c : Fin 4) (s : State) : Host.Outcome State Fault Refusal :=
  .next (svRun c (isOp 0x05) (actOr c) s)

def actXor (c : Fin 4) (w : Word) (s : State) : State := logic c (regB w) (fun a b => a ^^^ b) w s

def execSvXor (c : Fin 4) (s : State) : Host.Outcome State Fault Refusal :=
  .next (svRun c (isOp 0x06) (actXor c) s)

def actShl (c : Fin 4) (w : Word) (s : State) : State := arith c (regB w) (shiftFlags .left) w s

def execSvShl (c : Fin 4) (s : State) : Host.Outcome State Fault Refusal :=
  .next (svRun c (isOp 0x07) (actShl c) s)

def actShr (c : Fin 4) (w : Word) (s : State) : State := arith c (regB w) (shiftFlags .right) w s

def execSvShr (c : Fin 4) (s : State) : Host.Outcome State Fault Refusal :=
  .next (svRun c (isOp 0x08) (actShr c) s)

def actSar (c : Fin 4) (w : Word) (s : State) : State := arith c (regB w) (shiftFlags .arith) w s

def execSvSar (c : Fin 4) (s : State) : Host.Outcome State Fault Refusal :=
  .next (svRun c (isOp 0x09) (actSar c) s)

def actMinu (c : Fin 4) (w : Word) (s : State) : State := logic c (regB w) (fun a b => if a ≤ b then a else b) w s

def execSvMinu (c : Fin 4) (s : State) : Host.Outcome State Fault Refusal :=
  .next (svRun c (isOp 0x0A) (actMinu c) s)

def actMaxu (c : Fin 4) (w : Word) (s : State) : State := logic c (regB w) (fun a b => if a ≤ b then b else a) w s

def execSvMaxu (c : Fin 4) (s : State) : Host.Outcome State Fault Refusal :=
  .next (svRun c (isOp 0x0B) (actMaxu c) s)

def actCmp (c : Fin 4) (w : Word) (s : State) : State := compare c (regB w) (fun a b _ => (subFlags a b true).2) w s

def execSvCmp (c : Fin 4) (s : State) : Host.Outcome State Fault Refusal :=
  .next (svRun c (isOp 0x0C) (actCmp c) s)

def actTst (c : Fin 4) (w : Word) (s : State) : State := compare c (regB w) (fun a b f => f.logic (a &&& b)) w s

def execSvTst (c : Fin 4) (s : State) : Host.Outcome State Fault Refusal :=
  .next (svRun c (isOp 0x0D) (actTst c) s)

def actAddi (c : Fin 4) (w : Word) (s : State) : State := arith c (fun _ => simm14 w) (fun a b _ => addFlags a b false) w s

def execSvAddi (c : Fin 4) (s : State) : Host.Outcome State Fault Refusal :=
  .next (svRun c (isOp 0x10) (actAddi c) s)

def actAndi (c : Fin 4) (w : Word) (s : State) : State := logic c (fun _ => zimm14 w) (fun a b => a &&& b) w s

def execSvAndi (c : Fin 4) (s : State) : Host.Outcome State Fault Refusal :=
  .next (svRun c (isOp 0x14) (actAndi c) s)

def actOri (c : Fin 4) (w : Word) (s : State) : State := logic c (fun _ => zimm14 w) (fun a b => a ||| b) w s

def execSvOri (c : Fin 4) (s : State) : Host.Outcome State Fault Refusal :=
  .next (svRun c (isOp 0x15) (actOri c) s)

def actXori (c : Fin 4) (w : Word) (s : State) : State := logic c (fun _ => zimm14 w) (fun a b => a ^^^ b) w s

def execSvXori (c : Fin 4) (s : State) : Host.Outcome State Fault Refusal :=
  .next (svRun c (isOp 0x16) (actXori c) s)

def actShli (c : Fin 4) (w : Word) (s : State) : State := arith c (fun _ => zimm14 w) (shiftFlags .left) w s

def execSvShli (c : Fin 4) (s : State) : Host.Outcome State Fault Refusal :=
  .next (svRun c (isOp 0x17) (actShli c) s)

def actShri (c : Fin 4) (w : Word) (s : State) : State := arith c (fun _ => zimm14 w) (shiftFlags .right) w s

def execSvShri (c : Fin 4) (s : State) : Host.Outcome State Fault Refusal :=
  .next (svRun c (isOp 0x18) (actShri c) s)

def actSari (c : Fin 4) (w : Word) (s : State) : State := arith c (fun _ => zimm14 w) (shiftFlags .arith) w s

def execSvSari (c : Fin 4) (s : State) : Host.Outcome State Fault Refusal :=
  .next (svRun c (isOp 0x19) (actSari c) s)

def actMinui (c : Fin 4) (w : Word) (s : State) : State := logic c (fun _ => zimm14 w) (fun a b => if a ≤ b then a else b) w s

def execSvMinui (c : Fin 4) (s : State) : Host.Outcome State Fault Refusal :=
  .next (svRun c (isOp 0x1A) (actMinui c) s)

def actMaxui (c : Fin 4) (w : Word) (s : State) : State := logic c (fun _ => zimm14 w) (fun a b => if a ≤ b then b else a) w s

def execSvMaxui (c : Fin 4) (s : State) : Host.Outcome State Fault Refusal :=
  .next (svRun c (isOp 0x1B) (actMaxui c) s)

def actCmpi (c : Fin 4) (w : Word) (s : State) : State := compare c (fun _ => simm14 w) (fun a b _ => (subFlags a b true).2) w s

def execSvCmpi (c : Fin 4) (s : State) : Host.Outcome State Fault Refusal :=
  .next (svRun c (isOp 0x1C) (actCmpi c) s)

def actTsti (c : Fin 4) (w : Word) (s : State) : State := compare c (fun _ => zimm14 w) (fun a b f => f.logic (a &&& b)) w s

def execSvTsti (c : Fin 4) (s : State) : Host.Outcome State Fault Refusal :=
  .next (svRun c (isOp 0x1D) (actTsti c) s)

def actMovl (c : Fin 4) (w : Word) (s : State) : State := alu c w (fun x => x.setGpr (opD w) (BitVec.ofNat 32 (imm16 w))) s

def execSvMovl (c : Fin 4) (s : State) : Host.Outcome State Fault Refusal :=
  .next (svRun c (isOp 0x20) (actMovl c) s)

def actMovh (c : Fin 4) (w : Word) (s : State) : State := alu c w (fun x => x.setGpr (opD w) (BitVec.ofNat 32 (imm16 w * 65536) ||| (x.gpr (opD w) &&& 0xFFFF))) s

def execSvMovh (c : Fin 4) (s : State) : Host.Outcome State Fault Refusal :=
  .next (svRun c (isOp 0x21) (actMovh c) s)

def actLdw (c : Fin 4) (w : Word) (s : State) : State := load c 4 id w s

def execSvLdw (c : Fin 4) (s : State) : Host.Outcome State Fault Refusal :=
  .next (svRun c (isOp 0x24) (actLdw c) s)

def actLdh (c : Fin 4) (w : Word) (s : State) : State := load c 2 id w s

def execSvLdh (c : Fin 4) (s : State) : Host.Outcome State Fault Refusal :=
  .next (svRun c (isOp 0x25) (actLdh c) s)

def actLdhs (c : Fin 4) (w : Word) (s : State) : State := load c 2 (fun v => (v.truncate 16).signExtend 32) w s

def execSvLdhs (c : Fin 4) (s : State) : Host.Outcome State Fault Refusal :=
  .next (svRun c (isOp 0x26) (actLdhs c) s)

def actLdb (c : Fin 4) (w : Word) (s : State) : State := load c 1 id w s

def execSvLdb (c : Fin 4) (s : State) : Host.Outcome State Fault Refusal :=
  .next (svRun c (isOp 0x27) (actLdb c) s)

def actLdbs (c : Fin 4) (w : Word) (s : State) : State := load c 1 (fun v => (v.truncate 8).signExtend 32) w s

def execSvLdbs (c : Fin 4) (s : State) : Host.Outcome State Fault Refusal :=
  .next (svRun c (isOp 0x28) (actLdbs c) s)

def actStw (c : Fin 4) (w : Word) (s : State) : State := store c 4 w s

def execSvStw (c : Fin 4) (s : State) : Host.Outcome State Fault Refusal :=
  .next (svRun c (isOp 0x2C) (actStw c) s)

def actSth (c : Fin 4) (w : Word) (s : State) : State := store c 2 w s

def execSvSth (c : Fin 4) (s : State) : Host.Outcome State Fault Refusal :=
  .next (svRun c (isOp 0x2D) (actSth c) s)

def actStb (c : Fin 4) (w : Word) (s : State) : State := store c 1 w s

def execSvStb (c : Fin 4) (s : State) : Host.Outcome State Fault Refusal :=
  .next (svRun c (isOp 0x2E) (actStb c) s)

def actMulu (c : Fin 4) (w : Word) (s : State) : State := issue c false mulU w s

def execSvMulu (c : Fin 4) (s : State) : Host.Outcome State Fault Refusal :=
  .next (svRun c (isOp 0x30) (actMulu c) s)

def actMuls (c : Fin 4) (w : Word) (s : State) : State := issue c false mulS w s

def execSvMuls (c : Fin 4) (s : State) : Host.Outcome State Fault Refusal :=
  .next (svRun c (isOp 0x31) (actMuls c) s)

def actMacu (c : Fin 4) (w : Word) (s : State) : State := issue c true mulU w s

def execSvMacu (c : Fin 4) (s : State) : Host.Outcome State Fault Refusal :=
  .next (svRun c (isOp 0x32) (actMacu c) s)

def actMacs (c : Fin 4) (w : Word) (s : State) : State := issue c true mulS w s

def execSvMacs (c : Fin 4) (s : State) : Host.Outcome State Fault Refusal :=
  .next (svRun c (isOp 0x33) (actMacs c) s)

def actDivu (c : Fin 4) (w : Word) (s : State) : State := divide c w s

def execSvDivu (c : Fin 4) (s : State) : Host.Outcome State Fault Refusal :=
  .next (svRun c (isOp 0x34) (actDivu c) s)

def actMfs (c : Fin 4) (w : Word) (s : State) : State := readSpecial c w s

def execSvMfs (c : Fin 4) (s : State) : Host.Outcome State Fault Refusal :=
  .next (svRun c (isOp 0x38) (actMfs c) s)

def actMts (c : Fin 4) (w : Word) (s : State) : State := writeSpecial c w s

def execSvMts (c : Fin 4) (s : State) : Host.Outcome State Fault Refusal :=
  .next (svRun c (isOp 0x39) (actMts c) s)

def actB (c : Fin 4) (w : Word) (s : State) : State := branch c w (fun x => { x with pc := x.pc + off22 w }) s

def execSvB (c : Fin 4) (s : State) : Host.Outcome State Fault Refusal :=
  .next (svRun c (isOp 0x3A) (actB c) s)

def actJal (c : Fin 4) (w : Word) (s : State) : State := branch c w (fun x => { x.setGpr 15 (x.pc + 4) with pc := x.pc + off22 w }) s

def execSvJal (c : Fin 4) (s : State) : Host.Outcome State Fault Refusal :=
  .next (svRun c (isOp 0x3B) (actJal c) s)

def actJr (c : Fin 4) (w : Word) (s : State) : State := branch c w (fun x => { x with pc := x.gpr (opA w) &&& 0xFFFFFFFC }) s

def execSvJr (c : Fin 4) (s : State) : Host.Outcome State Fault Refusal :=
  .next (svRun c (isOp 0x3C) (actJr c) s)

def actRep (c : Fin 4) (w : Word) (s : State) : State := repeat_ c w s

def execSvRep (c : Fin 4) (s : State) : Host.Outcome State Fault Refusal :=
  .next (svRun c (isOp 0x3D) (actRep c) s)

def actSmovw (c : Fin 4) (elems : Nat) (w : Word) (s : State) : State := (moveOp 4).begin c elems w s

def execSvSmovw (c : Fin 4) (elems : Nat) (s : State) : Host.Outcome State Fault Refusal :=
  .next (svRun c (isFn 0x3E 0) (actSmovw c elems) s)

def actSmovb (c : Fin 4) (elems : Nat) (w : Word) (s : State) : State := (moveOp 1).begin c elems w s

def execSvSmovb (c : Fin 4) (elems : Nat) (s : State) : Host.Outcome State Fault Refusal :=
  .next (svRun c (isFn 0x3E 1) (actSmovb c elems) s)

def actSfillw (c : Fin 4) (elems : Nat) (w : Word) (s : State) : State := (fillOp (opA w)).begin c elems w s

def execSvSfillw (c : Fin 4) (elems : Nat) (s : State) : Host.Outcome State Fault Refusal :=
  .next (svRun c (isFn 0x3E 2) (actSfillw c elems) s)

def actSscanw (c : Fin 4) (elems : Nat) (w : Word) (s : State) : State := (scanOp (opA w)).begin c elems w s

def execSvSscanw (c : Fin 4) (elems : Nat) (s : State) : Host.Outcome State Fault Refusal :=
  .next (svRun c (isFn 0x3E 3) (actSscanw c elems) s)

def actSnap (c : Fin 4) (w : Word) (s : State) : State := snap c w s

def execSvSnap (c : Fin 4) (s : State) : Host.Outcome State Fault Refusal :=
  .next (svRun c (isFn 0x3E 4) (actSnap c) s)

def actNop (c : Fin 4) (w : Word) (s : State) : State := alu c w id s

def execSvNop (c : Fin 4) (s : State) : Host.Outcome State Fault Refusal :=
  .next (svRun c (isFn 0x3F 0) (actNop c) s)

def actEret (c : Fin 4) (w : Word) (s : State) : State := return_ c w false s

def execSvEret (c : Fin 4) (s : State) : Host.Outcome State Fault Refusal :=
  .next (svRun c (isFn 0x3F 1) (actEret c) s)

def actXret (c : Fin 4) (w : Word) (s : State) : State := return_ c w true s

def execSvXret (c : Fin 4) (s : State) : Host.Outcome State Fault Refusal :=
  .next (svRun c (isFn 0x3F 2) (actXret c) s)

def actWait (c : Fin 4) (w : Word) (s : State) : State := wait_ c w s

def execSvWait (c : Fin 4) (s : State) : Host.Outcome State Fault Refusal :=
  .next (svRun c (isFn 0x3F 3) (actWait c) s)

def actBrk (c : Fin 4) (w : Word) (s : State) : State := break_ c w s

def execSvBrk (c : Fin 4) (s : State) : Host.Outcome State Fault Refusal :=
  .next (svRun c (isFn 0x3F 4) (actBrk c) s)

/-! ### Exceptions of a fetched word (R274, R287) -/

/-- A word that is not a legal instruction, whatever its condition. -/
def actIllegal (c : Fin 4) (_ : Word) (s : State) : State := settle c 4 (fun _ => .exc .illegal) s

def execSvIllegal (c : Fin 4) (s : State) : Host.Outcome State Fault Refusal :=
  .next (svRun c (fun w => !legal w) (actIllegal c) s)

/-- An instruction fetched from outside code RAM. -/
def fetchOutside (c : Fin 4) (s : State) : State :=
  fetchAt c (fun pc t =>
    if 0x30000 ≤ pc.toNat then settle c 4 (fun _ => .exc .fetch) (landProducts c t) else s) s

def execSvFetch (c : Fin 4) (s : State) : Host.Outcome State Fault Refusal :=
  .next (if s.executes c then fetchOutside c s else s)

/-! ### Landings (R277, R291) -/

/-- The oldest store of the buffer lands, also while the course restarts (R307). -/
def execStoreLanding (c : Fin 4) (s : State) : Host.Outcome State Fault Refusal :=
  .next (if s.chanUp c then (landOldest c s).getD s else s)

/-- Products whose fourth cycle has come land. -/
def execProductLanding (c : Fin 4) (s : State) : Host.Outcome State Fault Refusal :=
  .next (if s.crsRuns c then landProducts c s else s)

/-! ### Events (R286, R288) -/

/-- An event may be taken: two strings at least have `IE` set and `XA` clear, and an enabled source is pending. -/
def State.eventDue (s : State) (c : Nat) : Bool :=
  2 ≤ ((s.active3 c).filter fun i => ((s.crsOf c).str i).ie && !((s.crsOf c).str i).xa).length && s.eventPending c

/-- An event is taken by all strings that count, in 4 cycles. -/
def eventEntry (c : Nat) (s : State) : State :=
  spend c 4 (updStrs c Str.enterEvent (updCrs c (fun x => { x with mid := false }) s))

/-- A retune that is due comes first (R311). -/
def execEventEntry (c : Fin 4) (s : State) : Host.Outcome State Fault Refusal :=
  .next (if s.executes c && s.eventDue c then eventEntry c s else s)

/-- The course wakes 2 cycles after an enabled event has appeared; how long it slept is open. -/
def wake (c : Nat) (s : State) : State :=
  let d := drawNat s
  spend c (d.1 + 2) (updCrs c (fun x => { x with sleep := false }) d.2)

/-- A stall that is due begins first, and the wake is taken after it (Table 11-6). -/
def execWaitWake (c : Fin 4) (s : State) : Host.Outcome State Fault Refusal :=
  .next (if s.crsRuns c && (s.crsOf c).sleep && (s.crsOf c).iso.isNone && s.eventPending c then wake c s else s)

/-! ### Engine debug (R308) -/

/-- The meanings of legal words, by opcode and, in a group, by `FN`. -/
def actOf (c : Fin 4) (elems : Nat) (w : Word) (s : State) : State :=
  if !legal w then actIllegal c w s
  else match opCode w with
    | 0x00 => actAdd c w s
    | 0x01 => actSub c w s
    | 0x02 => actAdc c w s
    | 0x03 => actSbc c w s
    | 0x04 => actAnd c w s
    | 0x05 => actOr c w s
    | 0x06 => actXor c w s
    | 0x07 => actShl c w s
    | 0x08 => actShr c w s
    | 0x09 => actSar c w s
    | 0x0A => actMinu c w s
    | 0x0B => actMaxu c w s
    | 0x0C => actCmp c w s
    | 0x0D => actTst c w s
    | 0x10 => actAddi c w s
    | 0x14 => actAndi c w s
    | 0x15 => actOri c w s
    | 0x16 => actXori c w s
    | 0x17 => actShli c w s
    | 0x18 => actShri c w s
    | 0x19 => actSari c w s
    | 0x1A => actMinui c w s
    | 0x1B => actMaxui c w s
    | 0x1C => actCmpi c w s
    | 0x1D => actTsti c w s
    | 0x20 => actMovl c w s
    | 0x21 => actMovh c w s
    | 0x24 => actLdw c w s
    | 0x25 => actLdh c w s
    | 0x26 => actLdhs c w s
    | 0x27 => actLdb c w s
    | 0x28 => actLdbs c w s
    | 0x2C => actStw c w s
    | 0x2D => actSth c w s
    | 0x2E => actStb c w s
    | 0x30 => actMulu c w s
    | 0x31 => actMuls c w s
    | 0x32 => actMacu c w s
    | 0x33 => actMacs c w s
    | 0x34 => actDivu c w s
    | 0x38 => actMfs c w s
    | 0x39 => actMts c w s
    | 0x3A => actB c w s
    | 0x3B => actJal c w s
    | 0x3C => actJr c w s
    | 0x3D => actRep c w s
    | 0x3E =>
      match opNum w with
      | 0 => actSmovw c elems w s
      | 1 => actSmovb c elems w s
      | 2 => actSfillw c elems w s
      | 3 => actSscanw c elems w s
      | _ => actSnap c w s
    | _ =>
      match opNum w with
      | 0 => actNop c w s
      | 1 => actEret c w s
      | 2 => actXret c w s
      | 3 => actWait c w s
      | _ => actBrk c w s

/-- One instruction, whatever stands at `PC`; a string instruction runs to its end. -/
def svStep (c : Fin 4) (s : State) : State :=
  if !s.executes c then s
  else if 0x30000 ≤ (s.lead c).pc.toNat then fetchOutside c s
  else svRun c (fun _ => true) (fun w t => actOf c ((t.lead c).gpr 14).toNat w t) s

/-- A halted course steps once and stays halted, unless it restarts. -/
def debugStep (c : Fin 4) (s : State) : State :=
  let t := svStep c (setFld (R.CRS_STAT c) F.CRS_STAT_STATE 1 s)
  if t.crsState c = 1 then setFld (R.CRS_STAT c) F.CRS_STAT_STATE 2 t else t

/-- The course runs on; its watchdog has paused meanwhile. -/
def debugResume (c : Fin 4) (s : State) : State :=
  setFld (R.CRS_STAT c) F.CRS_STAT_STATE 1
    (updCrs c (fun x => { x with halted := false, wdStart := x.wdStart + (s.clock - x.haltAt) }) s)

/-- A halt waits for the end of a retune, or of an access that hangs. -/
def debugOp (c : Fin 4) (op : DebugOp) (s : State) : State :=
  match op with
  | .halt =>
    if s.crsState c ≠ 1 then s
    else if (s.crsOf c).iso.isSome || s.crsHung c then updCrs c (fun x => { x with haltReq := true }) s
    else haltCourse c s
  | .step => if s.crsState c = 2 then debugStep c s else s
  | .resume => if s.crsState c = 2 then debugResume c s else s

/-- DEBUG acts as BYPASS once `DEBUG_KILL` is latched (R395). -/
def execTapDebug (c : Fin 4) (op : DebugOp) (s : State) : Host.Outcome State Fault Refusal :=
  .next (if s.debugKill then setTap 15 s
    else if s.chanUp c then debugOp c op (setTap 8 s) else setTap 8 s)

end Sys2Proof.Machine
end

