-- ==== Sys2Proof/Machine/Dispatch.lean ====
section
/-! DEFINITION. One arm per command: a direct call of its meaning, or rejected by name. -/
namespace Sys2Proof.Machine

def exec (i : Instr) (s : State) : Host.Outcome State Fault Refusal :=
  match i with
  -- Start-up and the cabinet image (14)
  | .porstNAssert => Sys2Proof.Machine.execPorstNAssert s
  | .porstNRelease addr => Sys2Proof.Machine.execPorstNRelease addr s
  | .fuseSense => Sys2Proof.Machine.execFuseSense s
  | .flashDiscovery a b => Sys2Proof.Machine.execFlashDiscovery a b s
  | .imageRead img => Sys2Proof.Machine.execImageRead img s
  | .signatureCheck => Sys2Proof.Machine.execSignatureCheck s
  | .valueCheck => Sys2Proof.Machine.execValueCheck s
  | .settingsApply a0 a1 b0 b1 => Sys2Proof.Machine.execSettingsApply a0 a1 b0 b1 s
  | .bootCalibrationDone => Sys2Proof.Machine.execBootCalibrationDone s
  | .bootRelease => Sys2Proof.Machine.execBootRelease s
  | .bootRetry => Sys2Proof.Machine.execBootRetry s
  | .bootSave => Sys2Proof.Machine.execBootSave s
  | .bootRefresh => Sys2Proof.Machine.execBootRefresh s
  | .settingsWriteback ok => Sys2Proof.Machine.execSettingsWriteback ok s
  | .poweredHour => Sys2Proof.Machine.execPoweredHour s
  | .flashRefresh k => Sys2Proof.Machine.execFlashRefresh k s
  | .courseReleaseAfterReset c code => Sys2Proof.Machine.execCourseReleaseAfterReset c code s
  -- Mains angle timebase (02)
  | .loopLock angle amp e1 e2 => Sys2Proof.Machine.execLoopLock angle amp e1 e2 s
  | .acquireTimeout => Sys2Proof.Machine.execAcquireTimeout s
  | .dipEnd start stop amp => Sys2Proof.Machine.execDipEnd start stop amp s
  | .dipTimeout freq => Sys2Proof.Machine.execDipTimeout freq s
  | .holdTimeExpire => Sys2Proof.Machine.execHoldTimeExpire s
  | .blackoutFiltered low angle => Sys2Proof.Machine.execBlackoutFiltered low angle s
  | .angleWrap m => Sys2Proof.Machine.execAngleWrap m s
  | .slotStart k => Sys2Proof.Machine.execSlotStart k s
  | .schedulerTick k => Sys2Proof.Machine.execSchedulerTick k s
  | .mzxEdge at16 => Sys2Proof.Machine.execMzxEdge at16 s
  | .maComparatorEdge at16 => Sys2Proof.Machine.execMaComparatorEdge at16 s
  | .angSnap => Sys2Proof.Machine.execAngSnap s
  | .angCycLoRead => Sys2Proof.Machine.execAngCycLoRead s
  | .angUsecLoRead => Sys2Proof.Machine.execAngUsecLoRead s
  -- Timer counters (03)
  | .timerTick n src => Sys2Proof.Machine.execTimerTick n src s
  | .timerAction n => Sys2Proof.Machine.execTimerAction n s
  | .tmuLoad n => Sys2Proof.Machine.execTmuLoad n s
  | .tmuStart n => Sys2Proof.Machine.execTmuStart n s
  | .tmuStop n => Sys2Proof.Machine.execTmuStop n s
  | .tmuGstart who v => Sys2Proof.Machine.execTmuGstart who v s
  | .tmuGstop who v => Sys2Proof.Machine.execTmuGstop who v s
  | .tmuRldWrite n v => Sys2Proof.Machine.execTmuRldWrite n v s
  | .tmuCmpWrite n v => Sys2Proof.Machine.execTmuCmpWrite n v s
  | .tmuCtlWrite n v => Sys2Proof.Machine.execTmuCtlWrite n v s
  | .tmuCapsrcWrite n v => Sys2Proof.Machine.execTmuCapsrcWrite n v s
  | .timerCapture n src => Sys2Proof.Machine.execTimerCapture n src s
  | .tmuCapRead n => Sys2Proof.Machine.execTmuCapRead n s
  | .tmuCntRead n => Sys2Proof.Machine.execTmuCntRead n s
  | .tinEdge k level => Sys2Proof.Machine.execTinEdge k level s
  | .portEventCrossing p kind => Sys2Proof.Machine.execPortEventCrossing p kind s
  -- Port attach and power path (04)
  | .adminEn p => Sys2Proof.Machine.execAdminEn p s
  | .adminDis p => Sys2Proof.Machine.execAdminDis p s
  | .adminUnlock p => Sys2Proof.Machine.execAdminUnlock p s
  | .sinkConditionAppear p cc1 cc2 => Sys2Proof.Machine.execSinkConditionAppear p cc1 cc2 s
  | .sinkConditionLost p cc1 cc2 => Sys2Proof.Machine.execSinkConditionLost p cc1 cc2 s
  | .accessorySeen p cc1 cc2 => Sys2Proof.Machine.execAccessorySeen p cc1 cc2 s
  | .attach p cc1 cc2 vs => Sys2Proof.Machine.execAttach p cc1 cc2 vs s
  | .detach p => Sys2Proof.Machine.execDetach p s
  | .turnOnExec c k => Sys2Proof.Machine.execTurnOnExec c k s
  | .inrushComplete p vs => Sys2Proof.Machine.execInrushComplete p vs s
  | .inrushTimeout p => Sys2Proof.Machine.execInrushTimeout p s
  | .fastTrip p uv ns => Sys2Proof.Machine.execFastTrip p uv ns s
  | .faultTimerTrip p => Sys2Proof.Machine.execFaultTimerTrip p s
  | .limitRise p ma => Sys2Proof.Machine.execLimitRise p ma s
  | .limitClear p => Sys2Proof.Machine.execLimitClear p s
  | .pgoodRise p vs => Sys2Proof.Machine.execPgoodRise p vs s
  | .contractExec c k => Sys2Proof.Machine.execContractExec c k s
  | .stepExec c k vs => Sys2Proof.Machine.execStepExec c k vs s
  | .stepComplete p vs => Sys2Proof.Machine.execStepComplete p vs s
  | .stepTimeout p => Sys2Proof.Machine.execStepTimeout p s
  | .powerDownExec p e => Sys2Proof.Machine.execPowerDownExec p e s
  | .dischargeComplete p vs => Sys2Proof.Machine.execDischargeComplete p vs s
  | .dischFail p vs => Sys2Proof.Machine.execDischFail p vs s
  | .retryExpire p => Sys2Proof.Machine.execRetryExpire p s
  | .contractDwellClear p => Sys2Proof.Machine.execContractDwellClear p s
  | .detachDwellClear p => Sys2Proof.Machine.execDetachDwellClear p s
  | .transferExec c k => Sys2Proof.Machine.execTransferExec c k s
  | .vconnOnExec c k => Sys2Proof.Machine.execVconnOnExec c k s
  | .vconnOffExec c k => Sys2Proof.Machine.execVconnOffExec c k s
  | .vconnOc p => Sys2Proof.Machine.execVconnOc p s
  | .prtSettingWrite who p r v => Sys2Proof.Machine.execPrtSettingWrite who p r v s
  -- Protocol layer (05)
  | .pdMessageRx p sp crc bytes => Sys2Proof.Machine.execPdMessageRx p sp crc bytes s
  | .goodcrcRx p sp id => Sys2Proof.Machine.execGoodcrcRx p sp id s
  | .txStart p => Sys2Proof.Machine.execTxStart p s
  | .txRetry p => Sys2Proof.Machine.execTxRetry p s
  | .sinktxExpire p => Sys2Proof.Machine.execSinktxExpire p s
  | .hardResetRx p => Sys2Proof.Machine.execHardResetRx p s
  | .pdHardReset p => Sys2Proof.Machine.execPdHardReset p s
  | .hardResetDeemedSent p => Sys2Proof.Machine.execHardResetDeemedSent p s
  | .pdCableReset p => Sys2Proof.Machine.execPdCableReset p s
  | .pdAlloc p => Sys2Proof.Machine.execPdAlloc p s
  | .pdCancel p => Sys2Proof.Machine.execPdCancel p s
  | .contextBind c => Sys2Proof.Machine.execContextBind c s
  | .ctxRelease c id gen => Sys2Proof.Machine.execCtxRelease c id gen s
  | .ctxTimerWrite c n b v => Sys2Proof.Machine.execCtxTimerWrite c n b v s
  | .ctxTimerExpire c n b => Sys2Proof.Machine.execCtxTimerExpire c n b s
  | .ctxPangetRead c => Sys2Proof.Machine.execCtxPangetRead c s
  | .ctxPanput c pan => Sys2Proof.Machine.execCtxPanput c pan s
  | .ctxTx c pan => Sys2Proof.Machine.execCtxTx c pan s
  | .ctxEvqRead c => Sys2Proof.Machine.execCtxEvqRead c s
  | .rxToPan p => Sys2Proof.Machine.execRxToPan p s
  | .hubAnswer p => Sys2Proof.Machine.execHubAnswer p s
  | .chunkRequestRx p => Sys2Proof.Machine.execChunkRequestRx p s
  | .chunkRequestTx p => Sys2Proof.Machine.execChunkRequestTx p s
  | .chunkSenderRequestTimeout p => Sys2Proof.Machine.execChunkSenderRequestTimeout p s
  | .chunkSenderResponseTimeout p => Sys2Proof.Machine.execChunkSenderResponseTimeout p s
  | .keepaliveWrite p v => Sys2Proof.Machine.execKeepaliveWrite p v s
  | .kaExp p => Sys2Proof.Machine.execKaExp p s
  -- Operation queue (06)
  | .opTurnOn c k arg0 arg1 => Sys2Proof.Machine.execOpTurnOn c k arg0 arg1 s
  | .opContract c k arg0 arg1 => Sys2Proof.Machine.execOpContract c k arg0 arg1 s
  | .opStep c k arg0 arg1 => Sys2Proof.Machine.execOpStep c k arg0 arg1 s
  | .opHrOff c k => Sys2Proof.Machine.execOpHrOff c k s
  | .opVconnOn c k arg0 arg1 => Sys2Proof.Machine.execOpVconnOn c k arg0 arg1 s
  | .opVconnOff c k arg0 arg1 => Sys2Proof.Machine.execOpVconnOff c k arg0 arg1 s
  | .opqCqRead c => Sys2Proof.Machine.execOpqCqRead c s
  | .opqAbort c k => Sys2Proof.Machine.execOpqAbort c k s
  | .cqResultPost c => Sys2Proof.Machine.execCqResultPost c s
  | .hrOffCreate p => Sys2Proof.Machine.execHrOffCreate p s
  -- Contracts and shedding (06)
  | .contractGroupWrite p w7 w8 w10 => Sys2Proof.Machine.execContractGroupWrite p w7 w8 w10 s
  | .shedDeadlineExpire p => Sys2Proof.Machine.execShedDeadlineExpire p s
  | .shedHoldEnd p => Sys2Proof.Machine.execShedHoldEnd p s
  -- Firmware negotiation policy (06)
  | .requestEvaluation p late => Sys2Proof.Machine.execRequestEvaluation p late s
  | .sourceCapRepeat p => Sys2Proof.Machine.execSourceCapRepeat p s
  | .senderResponseTimeout p => Sys2Proof.Machine.execSenderResponseTimeout p s
  | .noResponseTimeout p => Sys2Proof.Machine.execNoResponseTimeout p s
  | .srcTransitionExpire p => Sys2Proof.Machine.execSrcTransitionExpire p s
  | .graduationStepPush p => Sys2Proof.Machine.execGraduationStepPush p s
  | .firmwareMessageAnswer p => Sys2Proof.Machine.execFirmwareMessageAnswer p s
  | .eprMode p => Sys2Proof.Machine.execEprMode p s
  | .vconnSwap p late => Sys2Proof.Machine.execVconnSwap p late s
  | .reAdvertise c => Sys2Proof.Machine.execReAdvertise c s
  | .hardResetRecovery p => Sys2Proof.Machine.execHardResetRecovery p s
  -- Heavy ports (07)
  | .discovery p => Sys2Proof.Machine.execDiscovery p s
  | .enterModeAck p => Sys2Proof.Machine.execEnterModeAck p s
  | .heavyCaps p => Sys2Proof.Machine.execHeavyCaps p s
  | .heavyRequest p => Sys2Proof.Machine.execHeavyRequest p s
  | .heavyReadyAck p => Sys2Proof.Machine.execHeavyReadyAck p s
  | .heavyAsk p => Sys2Proof.Machine.execHeavyAsk p s
  | .hvTest who p => Sys2Proof.Machine.execHvTest who p s
  | .hvExit who p => Sys2Proof.Machine.execHvExit who p s
  | .hvstWrite c k v => Sys2Proof.Machine.execHvstWrite c k v s
  -- Feeder placement (08)
  | .rakeRound e => Sys2Proof.Machine.execRakeRound e s
  | .roundDeadline => Sys2Proof.Machine.execRoundDeadline s
  | .placementCommit c => Sys2Proof.Machine.execPlacementCommit c s
  | .feederDownQualify f => Sys2Proof.Machine.execFeederDownQualify f s
  | .feederWindowReturn f => Sys2Proof.Machine.execFeederWindowReturn f s
  | .shipSignalFiltered sig => Sys2Proof.Machine.execShipSignalFiltered sig s
  | .fdrOnline f => Sys2Proof.Machine.execFdrOnline f s
  | .fdrOffline f => Sys2Proof.Machine.execFdrOffline f s
  -- Measurement and harvest (09)
  | .scanConversion u slot raw => Sys2Proof.Machine.execScanConversion u slot raw s
  | .measurementFrameRx p => Sys2Proof.Machine.execMeasurementFrameRx p s
  | .urgentConversion p k v abrt => Sys2Proof.Machine.execUrgentConversion p k v abrt s
  | .hubConversion slot h0 h1 => Sys2Proof.Machine.execHubConversion slot h0 h1 s
  | .adcArm who u => Sys2Proof.Machine.execAdcArm who u s
  | .adcDisarm who u => Sys2Proof.Machine.execAdcDisarm who u s
  | .adcSwtrig who u => Sys2Proof.Machine.execAdcSwtrig who u s
  | .adcCal who u => Sys2Proof.Machine.execAdcCal who u s
  | .adcTrigger u src => Sys2Proof.Machine.execAdcTrigger u src s
  | .onDemandConversion u raw => Sys2Proof.Machine.execOnDemandConversion u raw s
  | .calibrationDone u gain ofs => Sys2Proof.Machine.execCalibrationDone u gain ofs s
  | .prtEloRead who p => Sys2Proof.Machine.execPrtEloRead who p s
  | .hrvCycLoRead => Sys2Proof.Machine.execHrvCycLoRead s
  | .hrvEnergyLoRead f inn => Sys2Proof.Machine.execHrvEnergyLoRead f inn s
  | .glbSerialLoRead => Sys2Proof.Machine.execGlbSerialLoRead s
  -- Svaq instructions (10)
  | .svAdd c => Sys2Proof.Machine.execSvAdd c s
  | .svSub c => Sys2Proof.Machine.execSvSub c s
  | .svAdc c => Sys2Proof.Machine.execSvAdc c s
  | .svSbc c => Sys2Proof.Machine.execSvSbc c s
  | .svAnd c => Sys2Proof.Machine.execSvAnd c s
  | .svOr c => Sys2Proof.Machine.execSvOr c s
  | .svXor c => Sys2Proof.Machine.execSvXor c s
  | .svShl c => Sys2Proof.Machine.execSvShl c s
  | .svShr c => Sys2Proof.Machine.execSvShr c s
  | .svSar c => Sys2Proof.Machine.execSvSar c s
  | .svMinu c => Sys2Proof.Machine.execSvMinu c s
  | .svMaxu c => Sys2Proof.Machine.execSvMaxu c s
  | .svCmp c => Sys2Proof.Machine.execSvCmp c s
  | .svTst c => Sys2Proof.Machine.execSvTst c s
  | .svAddi c => Sys2Proof.Machine.execSvAddi c s
  | .svAndi c => Sys2Proof.Machine.execSvAndi c s
  | .svOri c => Sys2Proof.Machine.execSvOri c s
  | .svXori c => Sys2Proof.Machine.execSvXori c s
  | .svShli c => Sys2Proof.Machine.execSvShli c s
  | .svShri c => Sys2Proof.Machine.execSvShri c s
  | .svSari c => Sys2Proof.Machine.execSvSari c s
  | .svMinui c => Sys2Proof.Machine.execSvMinui c s
  | .svMaxui c => Sys2Proof.Machine.execSvMaxui c s
  | .svCmpi c => Sys2Proof.Machine.execSvCmpi c s
  | .svTsti c => Sys2Proof.Machine.execSvTsti c s
  | .svMovl c => Sys2Proof.Machine.execSvMovl c s
  | .svMovh c => Sys2Proof.Machine.execSvMovh c s
  | .svLdw c => Sys2Proof.Machine.execSvLdw c s
  | .svLdh c => Sys2Proof.Machine.execSvLdh c s
  | .svLdhs c => Sys2Proof.Machine.execSvLdhs c s
  | .svLdb c => Sys2Proof.Machine.execSvLdb c s
  | .svLdbs c => Sys2Proof.Machine.execSvLdbs c s
  | .svStw c => Sys2Proof.Machine.execSvStw c s
  | .svSth c => Sys2Proof.Machine.execSvSth c s
  | .svStb c => Sys2Proof.Machine.execSvStb c s
  | .storeLanding c => Sys2Proof.Machine.execStoreLanding c s
  | .svMulu c => Sys2Proof.Machine.execSvMulu c s
  | .svMuls c => Sys2Proof.Machine.execSvMuls c s
  | .svMacu c => Sys2Proof.Machine.execSvMacu c s
  | .svMacs c => Sys2Proof.Machine.execSvMacs c s
  | .productLanding c => Sys2Proof.Machine.execProductLanding c s
  | .svDivu c => Sys2Proof.Machine.execSvDivu c s
  | .svMfs c => Sys2Proof.Machine.execSvMfs c s
  | .svMts c => Sys2Proof.Machine.execSvMts c s
  | .svB c => Sys2Proof.Machine.execSvB c s
  | .svJal c => Sys2Proof.Machine.execSvJal c s
  | .svJr c => Sys2Proof.Machine.execSvJr c s
  | .svRep c => Sys2Proof.Machine.execSvRep c s
  | .svSmovw c elems => Sys2Proof.Machine.execSvSmovw c elems s
  | .svSmovb c elems => Sys2Proof.Machine.execSvSmovb c elems s
  | .svSfillw c elems => Sys2Proof.Machine.execSvSfillw c elems s
  | .svSscanw c elems => Sys2Proof.Machine.execSvSscanw c elems s
  | .svSnap c => Sys2Proof.Machine.execSvSnap c s
  | .svNop c => Sys2Proof.Machine.execSvNop c s
  | .svEret c => Sys2Proof.Machine.execSvEret c s
  | .svXret c => Sys2Proof.Machine.execSvXret c s
  | .svWait c => Sys2Proof.Machine.execSvWait c s
  | .waitWake c => Sys2Proof.Machine.execWaitWake c s
  | .svBrk c => Sys2Proof.Machine.execSvBrk c s
  | .eventEntry c => Sys2Proof.Machine.execEventEntry c s
  -- Mailbox (01, 10)
  | .mbxTakeRead c => Sys2Proof.Machine.execMbxTakeRead c s
  | .mbxDone c k len => Sys2Proof.Machine.execMbxDone c k len s
  | .mbxPost c o cmd => Sys2Proof.Machine.execMbxPost c o cmd s
  | .mbxTakeTimeout c k => Sys2Proof.Machine.execMbxTakeTimeout c k s
  | .mbxResponseTimeout c k => Sys2Proof.Machine.execMbxResponseTimeout c k s
  -- Courses and the bridge (11)
  | .bridgeScan c => Sys2Proof.Machine.execBridgeScan c s
  | .retuneStall c => Sys2Proof.Machine.execRetuneStall c s
  | .retuneRejoin c => Sys2Proof.Machine.execRetuneRejoin c s
  | .crsRestart c => Sys2Proof.Machine.execCrsRestart c s
  | .crsUnpark c => Sys2Proof.Machine.execCrsUnpark c s
  | .courseRestart c code => Sys2Proof.Machine.execCourseRestart c code s
  | .crsWdkick c v => Sys2Proof.Machine.execCrsWdkick c v s
  | .courseWatchdog c => Sys2Proof.Machine.execCourseWatchdog c s
  | .channelWatchdog c => Sys2Proof.Machine.execChannelWatchdog c s
  -- Memories and scrub (12)
  | .scrubStep mem => Sys2Proof.Machine.execScrubStep mem s
  | .poisonedWordRewrite mem off w => Sys2Proof.Machine.execPoisonedWordRewrite mem off w s
  -- Clocks and supplies (12, 13, 20)
  | .clockLoss k => Sys2Proof.Machine.execClockLoss k s
  | .clockReturn k => Sys2Proof.Machine.execClockReturn k s
  | .managementResetRelease => Sys2Proof.Machine.execManagementResetRelease s
  | .refclkLoss => Sys2Proof.Machine.execRefclkLoss s
  | .refclkReturn => Sys2Proof.Machine.execRefclkReturn s
  | .portDieResetRelease d => Sys2Proof.Machine.execPortDieResetRelease d s
  | .vddpLow d mv us => Sys2Proof.Machine.execVddpLow d mv us s
  | .vghLow d mv us => Sys2Proof.Machine.execVghLow d mv us s
  | .vghRecover d mv => Sys2Proof.Machine.execVghRecover d mv s
  | .vconnSupplyLow d mv us => Sys2Proof.Machine.execVconnSupplyLow d mv us s
  -- Port-die links and hold (12)
  | .linkFrameCrcError d => Sys2Proof.Machine.execLinkFrameCrcError d s
  | .portDieLinkLoss d hub three => Sys2Proof.Machine.execPortDieLinkLoss d hub three s
  | .portDieLinkUp d => Sys2Proof.Machine.execPortDieLinkUp d s
  | .holdOrder d => Sys2Proof.Machine.execHoldOrder d s
  | .endHold d => Sys2Proof.Machine.execEndHold d s
  | .holdExpire d => Sys2Proof.Machine.execHoldExpire d s
  -- Self-test and log (12)
  | .selftestStep d r => Sys2Proof.Machine.execSelftestStep d r s
  | .logPost pl cls src d0 d1 => Sys2Proof.Machine.execLogPost pl cls src d0 d1 s
  | .logProgram n => Sys2Proof.Machine.execLogProgram n s
  -- Resets, quiet mode (13)
  | .channelReset c k => Sys2Proof.Machine.execChannelReset c k s
  | .channelResetRelease c => Sys2Proof.Machine.execChannelResetRelease c s
  | .cruChrst v => Sys2Proof.Machine.execCruChrst v s
  | .mgmtAccessTimeout a write win => Sys2Proof.Machine.execMgmtAccessTimeout a write win s
  | .quietEntry => Sys2Proof.Machine.execQuietEntry s
  | .quietWake src => Sys2Proof.Machine.execQuietWake src s
  -- Fuses and test port (15)
  | .otpBlow vpp => Sys2Proof.Machine.execOtpBlow vpp s
  | .otpLock vpp => Sys2Proof.Machine.execOtpLock vpp s
  | .otpReread vpp => Sys2Proof.Machine.execOtpReread vpp s
  | .fuseReread drift => Sys2Proof.Machine.execFuseReread drift s
  | .tapExtest data => Sys2Proof.Machine.execTapExtest data s
  | .tapSamplePreload data => Sys2Proof.Machine.execTapSamplePreload data s
  | .tapIdcode => Sys2Proof.Machine.execTapIdcode s
  | .tapDebug c op => Sys2Proof.Machine.execTapDebug c op s
  | .tapMemacc a => Sys2Proof.Machine.execTapMemacc a s
  | .tapBypass op => Sys2Proof.Machine.execTapBypass op s
  -- Two-wire management port (16)
  | .twmStatus x => Sys2Proof.Machine.execTwmStatus x s
  | .twmWaddr x k => Sys2Proof.Machine.execTwmWaddr x k s
  | .twmWdata x k => Sys2Proof.Machine.execTwmWdata x k s
  | .twmWdatai x k => Sys2Proof.Machine.execTwmWdatai x k s
  | .twmWburst x k => Sys2Proof.Machine.execTwmWburst x k s
  | .twmLastrd x => Sys2Proof.Machine.execTwmLastrd x s
  | .twmRqbuf x k => Sys2Proof.Machine.execTwmRqbuf x k s
  | .twmRqgo x v => Sys2Proof.Machine.execTwmRqgo x v s
  | .twmRqstat x => Sys2Proof.Machine.execTwmRqstat x s
  | .twmRqresp x => Sys2Proof.Machine.execTwmRqresp x s
  | .twmAlertsum x => Sys2Proof.Machine.execTwmAlertsum x s
  | .alertResponse others => Sys2Proof.Machine.execAlertResponse others s
  | .busFault => Sys2Proof.Machine.execBusFault s
  | .stretchLimit us => Sys2Proof.Machine.execStretchLimit us s
  | .sclLowTimeout us busy => Sys2Proof.Machine.execSclLowTimeout us busy s
  | .sdaStuck us => Sys2Proof.Machine.execSdaStuck us s
  | .requestTimeout => Sys2Proof.Machine.execRequestTimeout s
  | .twmPadminWrite v => Sys2Proof.Machine.execTwmPadminWrite v s
  | .mbxPing c => Sys2Proof.Machine.execMbxPing c s
  | .mbxPortRead c => Sys2Proof.Machine.execMbxPortRead c s
  | .mbxReneg c => Sys2Proof.Machine.execMbxReneg c s
  -- Chain links (17)
  | .signalDetect n => Sys2Proof.Machine.execSignalDetect n s
  | .trainingComplete n => Sys2Proof.Machine.execTrainingComplete n s
  | .helloTimeout n => Sys2Proof.Machine.execHelloTimeout n s
  | .chainLinkLoss n silent errors => Sys2Proof.Machine.execChainLinkLoss n silent errors s
  | .lnkDrop mask => Sys2Proof.Machine.execLnkDrop mask s
  | .enumNow => Sys2Proof.Machine.execEnumNow s
  | .enumerationStart => Sys2Proof.Machine.execEnumerationStart s
  | .lnkAck n h seq nak free => Sys2Proof.Machine.execLnkAck n h seq nak free s
  | .chainAckTimeout n seq => Sys2Proof.Machine.execChainAckTimeout n seq s
  | .lnkHello n h fwver level link serial => Sys2Proof.Machine.execLnkHello n h fwver level link serial s
  | .lnkEnum n h base gen => Sys2Proof.Machine.execLnkEnum n h base gen s
  | .lnkEnumDone n h count level => Sys2Proof.Machine.execLnkEnumDone n h count level s
  | .lnkLevel n h level gen => Sys2Proof.Machine.execLnkLevel n h level gen s
  | .lnkReq n h kind ch tag data => Sys2Proof.Machine.execLnkReq n h kind ch tag data s
  | .lnkResp n h st tag data => Sys2Proof.Machine.execLnkResp n h st tag data s
  | .lnkAlert n h addr => Sys2Proof.Machine.execLnkAlert n h addr s
  | .lnkLvrep n h fwver level => Sys2Proof.Machine.execLnkLvrep n h fwver level s
  | .lnkTopo n h => Sys2Proof.Machine.execLnkTopo n h s
  -- Field update (18)
  | .updCmdOpen => Sys2Proof.Machine.execUpdCmdOpen s
  | .updCmdSend => Sys2Proof.Machine.execUpdCmdSend s
  | .updCmdEnd => Sys2Proof.Machine.execUpdCmdEnd s
  | .updCmdQuery => Sys2Proof.Machine.execUpdCmdQuery s
  | .updCmdAbort => Sys2Proof.Machine.execUpdCmdAbort s
  | .updCmdActivate defer => Sys2Proof.Machine.execUpdCmdActivate defer s
  | .updCmdConfirm => Sys2Proof.Machine.execUpdCmdConfirm s
  | .updCmdReject => Sys2Proof.Machine.execUpdCmdReject s
  | .updOpen n h session len lo hi => Sys2Proof.Machine.execUpdOpen n h session len lo hi s
  | .updData n h session block bcrc part bytes => Sys2Proof.Machine.execUpdData n h session block bcrc part bytes s
  | .updEnd n h session => Sys2Proof.Machine.execUpdEnd n h session s
  | .updQuery n h session => Sys2Proof.Machine.execUpdQuery n h session s
  | .updAbort n h session => Sys2Proof.Machine.execUpdAbort n h session s
  | .updReport n h session first state reason missing => Sys2Proof.Machine.execUpdReport n h session first state reason missing s
  | .eraseComplete okA okB => Sys2Proof.Machine.execEraseComplete okA okB s
  | .blockStaged okA okB => Sys2Proof.Machine.execBlockStaged okA okB s
  | .verificationComplete a b => Sys2Proof.Machine.execVerificationComplete a b s
  | .channelSwitch c => Sys2Proof.Machine.execChannelSwitch c s
  | .trialWindowEnd => Sys2Proof.Machine.execTrialWindowEnd s
  | .fallback => Sys2Proof.Machine.execFallback s
  | .updOwnerWrite v => Sys2Proof.Machine.execUpdOwnerWrite v s
  -- Register map (19)
  | .registerWrite who a v => Sys2Proof.Machine.execRegisterWrite who a v s
  -- Later events of the port and the protocol (04, 05, 08)
  | .pgoodWindowExit p vs => Sys2Proof.Machine.execPgoodWindowExit p vs s
  | .limitActiveFall p => Sys2Proof.Machine.execLimitActiveFall p s
  | .vconnSoftStartEnd p => Sys2Proof.Machine.execVconnSoftStartEnd p s
  | .transferDone p => Sys2Proof.Machine.execTransferDone p s
  | .bistCarrierEnd p => Sys2Proof.Machine.execBistCarrierEnd p s
  | .hardResetSignallingStart p => Sys2Proof.Machine.execHardResetSignallingStart p s
  | .hardResetSent p => Sys2Proof.Machine.execHardResetSent p s
  | .holdHardResetTimeout p => Sys2Proof.Machine.execHoldHardResetTimeout p s
  -- Svaq exceptions of a fetched word (10)
  | .svIllegal c => Sys2Proof.Machine.execSvIllegal c s
  | .svFetch c => Sys2Proof.Machine.execSvFetch c s
  -- Fuse programming (15)
  | .vppLost n => Sys2Proof.Machine.execVppLost n s
  | .programmingCommandEnded fail => Sys2Proof.Machine.execProgrammingCommandEnded fail s
  -- Chain links, continued (17)
  | .signalDetectLost n => Sys2Proof.Machine.execSignalDetectLost n s
  | .dropEnd n => Sys2Proof.Machine.execDropEnd n s

end Sys2Proof.Machine
end

