-- ==== Sys2Proof/Machine/Package.lean ====
section
/-! DEFINITION. The columns of the package (R480-R483): which signal or supply stands at a position of the 74 × 74 grid. It is no
state; the machine does not read it. -/
namespace Sys2Proof.Machine

/-- The position (row, column) of signal `s` of port `p`: 0 `CC1`, 1 `CC2`, 2 `VS`, 3 `ISP`, 4 `ISN`, 5 `GA`, 6 `GB` (R481). -/
def portColumn (p s : Nat) : Nat × Nat :=
  let d := p / 64
  let q := p % 64
  let col := 3 + 18 * (d % 4) + q / 4
  let i := 1 + 7 * (q % 4) + s
  if d < 4 then (i, col) else (75 - i, col)

/-- What a position carries, other than a port's signal: a rail, ground, or a signal with its index within its group. -/
inductive Column where
  | gnd | vddc | vddh | vddio
  | vgh (d : Nat) | vddp (d : Nat) | vconn (d : Nat) | sideline (d k : Nat)
  | port (p s : Nat) | hub (row k : Nat)
deriving DecidableEq, Repr

/-- The supply columns of port die `d` at depth `i`; `far` is the column X0 + 17 (Table 20-9). -/
def dieSupply (d i : Nat) (far : Bool) : Column :=
  if far then
    if i ≤ 14 then .vconn d else if i ≤ 17 then .sideline d (i - 15) else .gnd
  else if i ≤ 8 then .vgh d
  else if i ≤ 14 then .vddp d
  else .gnd

/-- Rows 29 to 46 (R483). The signals of rows 29 and 46 are numbered in the order of Table 20-10. -/
def hubColumn (r c : Nat) : Column :=
  if c = 1 || c = 74 then .gnd
  else if r = 29 then (if 2 ≤ c && c ≤ 46 then .hub 29 (c - 2) else .gnd)
  else if r = 46 then (if 2 ≤ c && c ≤ 45 then .hub 46 (c - 2) else .gnd)
  else if (r + c) % 2 = 1 then .gnd
  else if r ≤ 31 || 44 ≤ r then .vddh
  else if r ≤ 33 || 42 ≤ r then .vddio
  else .vddc

/-- The grid: port dies 0-3 in rows 1-28, the hub in rows 29-46, port dies 4-7 in rows 47-74 (R480-R483). -/
def gridColumn (r c : Nat) : Column :=
  if 29 ≤ r && r ≤ 46 then hubColumn r c
  else if c = 1 || c = 74 then .gnd
  else
    let d := (if r ≤ 28 then 0 else 4) + (c - 2) / 18
    let i := if r ≤ 28 then r else 75 - r
    let x := (c - 2) % 18
    if x = 0 then dieSupply d i false
    else if x = 17 then dieSupply d i true
    else .port (64 * d + 4 * (x - 1) + (i - 1) / 7) ((i - 1) % 7)

end Sys2Proof.Machine
end

