-- ==== Sys2Proof/Safety.lean ====
section
/-! DEFINITION. What counts as a safe run, what it is for a command to complete, and what a command may touch: the parts of
the state, one to a field of State. -/
namespace Sys2Proof

/-- A step that answers a next state. -/
def Runs (s : Machine.State) : Prop := ∃ t, Machine.step s = .next t

/-- A command that is done in `s` answers a next state of which `q` holds. -/
def Completes (i : Instr) (s : Machine.State) (q : Machine.State → Prop) : Prop :=
  ∃ t, Machine.exec i s = .next t ∧ q t

/-- The parts of the state: its fields. -/
inductive Part where
  | regs | dieRegs | prec | mem | ecc | tb | timer | portEv | xat | port | mir | phy | hub | fw | ctx | pan | opq |
    chan | bankA | bankB | active | fdrMon | roundOpen | switchUs | die | crs | mbx | lnk | enum | twm | adc | scan |
    scrubs | scrubStart | ceSecond | harv | fharv | hrvCyc | clk | adm | saved | log | nvmA | nvmB | boot | fuse |
    weak | otp | upd | tap | bsr | tdo | bus | block | fresh | clock | pending
deriving DecidableEq, Repr

/-- A part is the same in both states. -/
def Part.same (s t : Machine.State) : Part → Prop
  | .regs => t.regs = s.regs
  | .dieRegs => t.dieRegs = s.dieRegs
  | .prec => t.prec = s.prec
  | .mem => t.mem = s.mem
  | .ecc => t.ecc = s.ecc
  | .tb => t.tb = s.tb
  | .timer => t.timer = s.timer
  | .portEv => t.portEv = s.portEv
  | .xat => t.xat = s.xat
  | .port => t.port = s.port
  | .mir => t.mir = s.mir
  | .phy => t.phy = s.phy
  | .hub => t.hub = s.hub
  | .fw => t.fw = s.fw
  | .ctx => t.ctx = s.ctx
  | .pan => t.pan = s.pan
  | .opq => t.opq = s.opq
  | .chan => t.chan = s.chan
  | .bankA => t.bankA = s.bankA
  | .bankB => t.bankB = s.bankB
  | .active => t.active = s.active
  | .fdrMon => t.fdrMon = s.fdrMon
  | .roundOpen => t.roundOpen = s.roundOpen
  | .switchUs => t.switchUs = s.switchUs
  | .die => t.die = s.die
  | .crs => t.crs = s.crs
  | .mbx => t.mbx = s.mbx
  | .lnk => t.lnk = s.lnk
  | .enum => t.enum = s.enum
  | .twm => t.twm = s.twm
  | .adc => t.adc = s.adc
  | .scan => t.scan = s.scan
  | .scrubs => t.scrubs = s.scrubs
  | .scrubStart => t.scrubStart = s.scrubStart
  | .ceSecond => t.ceSecond = s.ceSecond
  | .harv => t.harv = s.harv
  | .fharv => t.fharv = s.fharv
  | .hrvCyc => t.hrvCyc = s.hrvCyc
  | .clk => t.clk = s.clk
  | .adm => t.adm = s.adm
  | .saved => t.saved = s.saved
  | .log => t.log = s.log
  | .nvmA => t.nvmA = s.nvmA
  | .nvmB => t.nvmB = s.nvmB
  | .boot => t.boot = s.boot
  | .fuse => t.fuse = s.fuse
  | .weak => t.weak = s.weak
  | .otp => t.otp = s.otp
  | .upd => t.upd = s.upd
  | .tap => t.tap = s.tap
  | .bsr => t.bsr = s.bsr
  | .tdo => t.tdo = s.tdo
  | .bus => t.bus = s.bus
  | .block => t.block = s.block
  | .fresh => t.fresh = s.fresh
  | .clock => t.clock = s.clock
  | .pending => t.pending = s.pending

/-- From `s` to `t` nothing has changed outside the parts of `l`. -/
def Only (l : List Part) (s t : Machine.State) : Prop := ∀ p : Part, p ∉ l → p.same s t

/-- The parts of the state that a command may touch. The queue is in none of them. -/
def footprint : Instr → List Part
  | .porstNAssert =>
      [.regs, .dieRegs, .prec, .mem, .ecc, .tb, .timer, .portEv, .xat, .port, .mir, .phy, .hub, .fw, .ctx, .pan, .opq,
       .chan, .bankA, .bankB, .active, .fdrMon, .roundOpen, .switchUs, .die, .crs, .mbx, .lnk, .enum, .twm, .adc, .scan,
       .scrubs, .scrubStart, .ceSecond, .harv, .fharv, .hrvCyc, .clk, .adm, .saved, .log, .nvmA, .nvmB, .boot, .fuse,
       .weak, .otp, .upd, .tap, .bsr, .tdo, .bus, .block, .fresh, .clock]
  | .porstNRelease .. =>
      [.regs, .dieRegs, .chan, .adc, .clk, .log]
  | .fuseSense =>
      [.regs, .die, .log, .otp]
  | .flashDiscovery .. | .flashRefresh .. =>
      [.regs, .log, .nvmA, .nvmB, .boot]
  | .imageRead .. | .signatureCheck =>
      [.regs, .mem, .ecc, .log, .boot]
  | .valueCheck =>
      [.regs, .mem, .ecc, .log, .nvmA, .nvmB, .boot]
  | .settingsApply .. =>
      [.regs, .dieRegs, .adc, .saved, .log, .nvmA, .nvmB, .boot]
  | .bootCalibrationDone =>
      [.boot]
  | .bootRelease =>
      [.regs, .mem, .ecc, .tb, .port, .mir, .hub, .fw, .die, .crs, .lnk, .enum, .adm, .log, .boot]
  | .bootRetry | .bootSave | .bootRefresh =>
      [.regs, .crs, .clk, .log, .boot]
  | .settingsWriteback .. | .poweredHour =>
      [.regs, .clk, .log, .nvmA, .nvmB, .boot]
  | .courseReleaseAfterReset .. =>
      [.regs, .mem, .ecc, .fw, .crs, .lnk, .enum, .log, .upd]
  | .loopLock .. | .mzxEdge .. | .maComparatorEdge .. =>
      [.regs, .tb, .timer, .log]
  | .acquireTimeout | .dipEnd .. | .dipTimeout .. | .holdTimeExpire | .blackoutFiltered .. =>
      [.regs, .tb, .log]
  | .angleWrap .. =>
      [.regs, .ecc, .tb, .timer, .port, .mir, .hub, .adc, .harv, .fharv, .hrvCyc, .adm, .log]
  | .slotStart .. =>
      [.regs, .mem, .ecc, .tb, .timer, .phy, .hub, .pan, .chan, .crs, .adc, .ceSecond, .log]
  | .schedulerTick .. =>
      [.regs, .tb, .timer, .xat, .hub, .opq, .fresh]
  | .angSnap | .crsUnpark .. =>
      [.regs, .crs, .clk, .log]
  | .angCycLoRead | .angUsecLoRead | .tmuCapRead .. | .tmuCntRead .. | .prtEloRead .. | .hrvCycLoRead | .hrvEnergyLoRead
    .. | .glbSerialLoRead =>
      [.regs, .dieRegs, .mem, .ecc, .timer, .hub, .ctx, .pan, .chan, .adc, .ceSecond, .clk, .log, .bus, .fresh]
  | .timerTick .. =>
      [.regs, .timer, .adc]
  | .timerAction .. | .timerCapture .. | .tinEdge .. =>
      [.regs, .timer]
  | .tmuLoad .. | .tmuStart .. | .tmuStop .. | .tmuGstart .. | .tmuGstop .. | .tmuRldWrite .. | .tmuCmpWrite .. |
    .tmuCtlWrite .. | .tmuCapsrcWrite .. =>
      [.regs, .timer, .crs, .clk, .log]
  | .portEventCrossing .. =>
      [.regs, .timer, .portEv, .xat, .fresh]
  | .adminEn .. =>
      [.regs, .port, .mir, .hub, .crs, .clk, .adm, .log]
  | .adminDis .. =>
      [.regs, .dieRegs, .mem, .ecc, .port, .mir, .phy, .hub, .ctx, .pan, .opq, .chan, .crs, .clk, .adm, .log, .fresh]
  | .adminUnlock .. =>
      [.regs, .port, .mir, .hub, .crs, .clk, .log]
  | .sinkConditionAppear .. | .sinkConditionLost .. | .limitClear .. | .limitActiveFall .. =>
      [.port, .mir]
  | .accessorySeen .. | .limitRise .. | .pgoodRise .. | .contractDwellClear .. | .detachDwellClear .. | .pgoodWindowExit
    .. =>
      [.regs, .port, .mir]
  | .attach .. | .dischargeComplete .. | .detach .. | .inrushTimeout .. | .fastTrip .. | .faultTimerTrip .. | .retryExpire
    .. | .requestEvaluation .. | .sourceCapRepeat .. | .senderResponseTimeout .. | .noResponseTimeout .. |
    .srcTransitionExpire .. | .graduationStepPush .. | .firmwareMessageAnswer .. | .eprMode .. | .vconnSwap .. |
    .reAdvertise .. | .hardResetRecovery .. | .discovery .. | .enterModeAck .. | .heavyCaps .. | .heavyRequest .. |
    .heavyReadyAck .. | .heavyAsk .. | .portDieLinkUp .. =>
      [.regs, .dieRegs, .prec, .mem, .ecc, .xat, .port, .mir, .phy, .hub, .fw, .ctx, .pan, .opq, .chan, .die, .crs,
       .adc, .ceSecond, .log, .fresh]
  | .turnOnExec .. | .vconnOnExec .. | .vconnSupplyLow .. =>
      [.port, .mir, .hub, .opq, .chan, .die, .fresh]
  | .inrushComplete .. | .contractExec .. | .stepExec .. | .stepComplete .. | .transferExec .. | .vconnOffExec .. |
    .vconnSoftStartEnd .. | .transferDone .. =>
      [.port, .mir, .hub, .opq, .chan, .fresh]
  | .stepTimeout .. | .powerDownExec .. =>
      [.regs, .port, .mir, .hub, .opq, .chan, .fresh]
  | .dischFail .. | .vconnOc .. | .shedDeadlineExpire .. =>
      [.regs, .port, .mir, .hub, .opq, .chan, .log, .fresh]
  | .prtSettingWrite .. =>
      [.regs, .dieRegs, .mem, .ecc, .xat, .port, .mir, .phy, .hub, .ctx, .pan, .opq, .chan, .crs, .adc, .clk, .saved,
       .log, .boot, .fresh]
  | .pdMessageRx .. | .txRetry .. | .pdCableReset .. | .ctxTx .. | .hubAnswer .. | .chunkRequestRx .. |
    .chunkSenderRequestTimeout .. | .bistCarrierEnd .. | .goodcrcRx .. | .rxToPan .. | .chunkRequestTx .. |
    .portDieLinkLoss .. =>
      [.regs, .mem, .ecc, .phy, .hub, .fw, .pan, .chan, .die, .crs, .ceSecond, .log, .fresh]
  | .txStart .. | .sinktxExpire .. =>
      [.phy]
  | .hardResetRx .. | .hardResetDeemedSent .. | .hardResetSignallingStart .. =>
      [.regs, .dieRegs, .mem, .ecc, .xat, .port, .mir, .phy, .hub, .pan, .opq, .chan, .fresh]
  | .pdHardReset .. =>
      [.regs, .xat, .phy, .fresh]
  | .pdAlloc .. =>
      [.regs, .xat, .hub, .ctx, .chan, .fresh]
  | .pdCancel .. | .refclkLoss | .refclkReturn | .linkFrameCrcError .. | .busFault | .stretchLimit _ | .sclLowTimeout .. |
    .sdaStuck _ =>
      [.regs]
  | .contextBind .. | .ctxRelease .. =>
      [.regs, .hub, .ctx, .chan]
  | .ctxTimerWrite .. =>
      [.ctx]
  | .ctxTimerExpire .. =>
      [.ctx, .chan]
  | .ctxPangetRead .. =>
      [.pan, .bus, .fresh]
  | .ctxPanput .. =>
      [.regs, .pan]
  | .ctxEvqRead .. =>
      [.hub, .ctx, .pan, .chan, .bus]
  | .chunkSenderResponseTimeout .. =>
      [.mem, .ecc, .hub, .pan, .chan]
  | .keepaliveWrite .. =>
      [.regs, .dieRegs, .phy]
  | .kaExp .. =>
      [.regs, .phy]
  | .opTurnOn .. | .opContract .. | .opStep .. | .opHrOff .. | .opVconnOn .. | .opVconnOff .. =>
      [.regs, .hub, .opq, .chan, .fresh]
  | .opqCqRead .. =>
      [.chan, .bus]
  | .opqAbort .. | .cqResultPost .. | .hrOffCreate .. =>
      [.hub, .opq, .chan, .fresh]
  | .contractGroupWrite .. | .placementCommit .. =>
      [.regs, .prec, .ecc, .xat, .port, .mir, .hub, .opq, .chan, .crs, .log, .fresh]
  | .shedHoldEnd .. =>
      [.hub]
  | .hvTest .. | .hvExit .. =>
      [.regs, .hub, .crs, .clk, .log]
  | .hvstWrite .. =>
      [.port, .mir, .hub]
  | .rakeRound .. =>
      [.regs, .mem, .ecc, .tb, .bankA, .bankB, .active, .fdrMon, .roundOpen, .switchUs, .ceSecond, .log]
  | .roundDeadline =>
      [.regs, .roundOpen, .log]
  | .feederDownQualify .. | .feederWindowReturn .. =>
      [.timer, .fdrMon]
  | .shipSignalFiltered .. | .logPost .. =>
      [.regs, .log]
  | .fdrOnline .. | .fdrOffline .. =>
      [.regs, .fdrMon, .crs, .clk, .log]
  | .scanConversion .. =>
      [.die, .adc, .scan]
  | .measurementFrameRx .. =>
      [.regs, .ecc, .hub, .scan, .harv]
  | .urgentConversion .. =>
      [.regs, .dieRegs, .port, .mir, .adc, .log]
  | .hubConversion .. =>
      [.regs, .dieRegs, .timer, .fdrMon, .adc, .fharv]
  | .adcArm .. | .adcDisarm .. | .adcSwtrig .. | .adcCal .. =>
      [.regs, .dieRegs, .crs, .adc, .clk, .log]
  | .adcTrigger .. =>
      [.regs, .dieRegs, .tb, .adc]
  | .onDemandConversion .. =>
      [.regs, .dieRegs, .adc]
  | .calibrationDone .. =>
      [.regs, .dieRegs, .adc, .log]
  | .svAdd .. | .svSub .. | .svAdc .. | .svSbc .. | .svAnd .. | .svOr .. | .svXor .. | .svShl .. | .svShr .. | .svSar .. |
    .svMinu .. | .svMaxu .. | .svCmp .. | .svTst .. | .svAddi .. | .svAndi .. | .svOri .. | .svXori .. | .svShli .. |
    .svShri .. | .svSari .. | .svMinui .. | .svMaxui .. | .svCmpi .. | .svTsti .. | .svMovl .. | .svMovh .. | .svMulu .. |
    .svMuls .. | .svMacu .. | .svMacs .. | .svDivu .. | .svMfs .. | .svMts .. | .svB .. | .svJal .. | .svJr .. | .svRep ..
    | .svNop .. | .svEret .. | .svXret .. | .svWait .. | .svBrk .. | .svIllegal .. =>
      [.regs, .mem, .ecc, .crs, .ceSecond, .log, .upd, .fresh]
  | .svLdw .. | .svLdh .. | .svLdhs .. | .svLdb .. | .svLdbs .. | .svStw .. | .svSth .. | .svStb .. | .storeLanding .. |
    .svSmovw .. | .svSmovb .. | .svSfillw .. | .svSscanw .. | .svSnap .. | .twmRqgo .. | .twmPadminWrite .. |
    .registerWrite .. | .tapDebug .. | .tapMemacc .. | .twmWdata .. | .twmWdatai .. | .twmWburst .. =>
      [.regs, .dieRegs, .prec, .mem, .ecc, .timer, .xat, .port, .mir, .phy, .hub, .fw, .ctx, .pan, .opq, .chan, .fdrMon,
       .die, .crs, .mbx, .lnk, .enum, .twm, .adc, .ceSecond, .clk, .adm, .saved, .log, .nvmA, .nvmB, .boot, .otp, .upd,
       .tap, .bus, .block, .fresh]
  | .productLanding .. | .eventEntry .. | .retuneStall .. =>
      [.crs]
  | .waitWake .. =>
      [.crs, .fresh]
  | .mbxTakeRead .. =>
      [.regs, .mbx, .clk, .log, .bus]
  | .mbxDone .. | .mbxPost .. =>
      [.regs, .mem, .ecc, .crs, .mbx, .lnk, .twm, .ceSecond, .clk, .log, .fresh]
  | .mbxTakeTimeout .. =>
      [.regs, .mbx, .lnk, .twm]
  | .mbxResponseTimeout .. =>
      [.regs, .mbx, .lnk, .twm, .log]
  | .bridgeScan .. | .courseWatchdog .. | .svFetch .. =>
      [.regs, .crs, .log, .upd]
  | .retuneRejoin .. | .crsWdkick .. =>
      [.regs, .crs]
  | .crsRestart .. | .updCmdReject =>
      [.regs, .crs, .clk, .log, .upd]
  | .courseRestart .. =>
      [.regs, .mem, .ecc, .fw, .pan, .crs, .mbx, .lnk, .enum, .twm, .log, .upd]
  | .channelWatchdog .. | .channelReset .. | .scrubStep .. =>
      [.regs, .mem, .ecc, .xat, .port, .phy, .hub, .fw, .ctx, .pan, .opq, .chan, .die, .crs, .mbx, .lnk, .twm, .scrubs,
       .scrubStart, .ceSecond, .clk, .log, .boot, .upd]
  | .poisonedWordRewrite .. =>
      [.regs, .mem, .ecc]
  | .clockLoss .. =>
      [.regs, .dieRegs, .mem, .ecc, .xat, .port, .phy, .hub, .fw, .ctx, .pan, .opq, .chan, .die, .crs, .mbx, .lnk,
       .enum, .twm, .adc, .scan, .ceSecond, .clk, .log, .nvmA, .nvmB, .boot, .upd]
  | .clockReturn .. | .quietWake .. =>
      [.regs, .clk, .log]
  | .managementResetRelease =>
      [.regs, .clk, .upd]
  | .portDieResetRelease .. =>
      [.regs, .dieRegs, .port, .mir, .die, .adc]
  | .vddpLow .. =>
      [.regs, .dieRegs, .port, .phy, .die, .adc, .scan, .fresh]
  | .vghLow .. =>
      [.regs, .port, .mir, .hub, .opq, .chan, .die, .fresh]
  | .vghRecover .. =>
      [.die, .fresh]
  | .holdOrder .. =>
      [.regs, .mem, .ecc, .phy, .hub, .pan, .chan, .die, .ceSecond, .log]
  | .endHold .. =>
      [.regs, .mem, .ecc, .port, .mir, .phy, .hub, .pan, .opq, .chan, .die, .ceSecond, .log, .fresh]
  | .holdExpire .. | .selftestStep .. =>
      [.regs, .dieRegs, .port, .mir, .hub, .opq, .chan, .die, .log, .fresh]
  | .logProgram .. =>
      [.regs, .mem, .ecc, .ceSecond, .log, .nvmA, .nvmB]
  | .channelResetRelease .. =>
      [.regs, .hub, .chan]
  | .cruChrst .. =>
      [.regs, .mem, .ecc, .xat, .port, .phy, .hub, .fw, .ctx, .pan, .opq, .chan, .die, .crs, .mbx, .lnk, .twm,
       .ceSecond, .clk, .log, .boot]
  | .mgmtAccessTimeout .. =>
      [.regs, .bus]
  | .quietEntry =>
      [.regs, .clk]
  | .otpBlow .. | .otpLock .. | .otpReread .. =>
      [.regs, .crs, .clk, .log, .otp]
  | .fuseReread .. =>
      [.regs, .clk, .log, .otp]
  | .tapExtest .. | .tapBypass .. =>
      [.regs, .dieRegs, .mem, .ecc, .port, .mir, .phy, .hub, .ctx, .pan, .opq, .chan, .clk, .tap, .bsr, .tdo, .fresh]
  | .tapSamplePreload .. =>
      [.tap, .bsr, .tdo, .fresh]
  | .tapIdcode =>
      [.tap, .tdo]
  | .twmStatus .. | .twmWaddr .. | .twmLastrd .. | .twmRqstat .. | .twmAlertsum .. =>
      [.regs, .twm, .clk, .log, .bus]
  | .twmRqbuf .. | .twmRqresp .. =>
      [.regs, .twm, .clk, .log, .block]
  | .alertResponse .. =>
      [.regs, .clk, .log, .bus]
  | .requestTimeout =>
      [.regs, .twm]
  | .mbxPing .. | .mbxPortRead .. | .mbxReneg .. =>
      [.regs, .dieRegs, .prec, .mem, .ecc, .xat, .port, .mir, .phy, .hub, .fw, .ctx, .pan, .opq, .chan, .crs, .mbx,
       .lnk, .twm, .ceSecond, .log, .fresh]
  | .signalDetect .. =>
      [.regs, .lnk, .enum, .clk, .log]
  | .trainingComplete .. | .helloTimeout .. | .lnkHello .. | .lnkLevel .. | .dropEnd .. =>
      [.regs, .lnk, .enum, .log]
  | .chainLinkLoss .. | .enumerationStart | .lnkEnum .. | .signalDetectLost .. =>
      [.regs, .lnk, .enum, .twm, .log]
  | .lnkDrop .. | .enumNow =>
      [.regs, .lnk, .enum, .twm, .clk, .log]
  | .lnkAck .. | .chainAckTimeout .. | .updQuery .. =>
      [.regs, .lnk]
  | .lnkEnumDone .. =>
      [.regs, .lnk, .enum, .twm, .log, .fresh]
  | .lnkReq .. =>
      [.regs, .dieRegs, .prec, .mem, .ecc, .timer, .xat, .port, .mir, .phy, .hub, .fw, .ctx, .pan, .opq, .chan, .fdrMon,
       .die, .crs, .mbx, .lnk, .enum, .twm, .adc, .ceSecond, .adm, .saved, .log, .nvmA, .nvmB, .boot, .otp, .upd, .fresh]
  | .lnkResp .. =>
      [.regs, .lnk, .twm]
  | .lnkAlert .. | .lnkLvrep .. | .lnkTopo .. =>
      [.regs, .lnk, .enum]
  | .updCmdOpen | .updCmdAbort =>
      [.regs, .crs, .lnk, .clk, .log, .nvmA, .nvmB, .boot, .upd, .fresh]
  | .updCmdSend =>
      [.regs, .ecc, .crs, .lnk, .clk, .log, .upd]
  | .updCmdEnd | .updCmdQuery =>
      [.regs, .crs, .lnk, .clk, .log, .upd]
  | .updCmdActivate .. | .updCmdConfirm =>
      [.regs, .crs, .clk, .log, .nvmA, .nvmB, .boot, .upd]
  | .updOpen .. =>
      [.regs, .lnk, .log, .nvmA, .nvmB, .boot, .upd]
  | .updData .. =>
      [.regs, .ecc, .lnk, .upd]
  | .updEnd .. =>
      [.regs, .lnk, .log]
  | .updAbort .. =>
      [.regs, .lnk, .log, .nvmA, .nvmB, .boot]
  | .updReport .. =>
      [.regs, .lnk, .upd]
  | .eraseComplete .. =>
      [.regs, .lnk, .log, .upd]
  | .blockStaged .. =>
      [.regs, .mem, .ecc, .lnk, .ceSecond, .log, .upd]
  | .verificationComplete .. =>
      [.regs, .lnk, .log, .nvmA, .nvmB, .upd]
  | .channelSwitch .. =>
      [.regs, .xat, .crs, .log, .boot, .upd, .fresh]
  | .trialWindowEnd =>
      [.regs, .log, .nvmA, .nvmB, .boot, .upd]
  | .fallback =>
      [.regs, .lnk, .enum, .log, .nvmA, .nvmB, .boot, .upd]
  | .updOwnerWrite .. =>
      [.regs, .crs, .clk, .saved, .log, .boot]
  | .hardResetSent .. =>
      [.regs, .phy, .hub]
  | .holdHardResetTimeout .. =>
      [.regs, .port, .mir, .phy, .hub, .opq, .chan, .fresh]
  | .vppLost .. | .programmingCommandEnded .. =>
      [.regs, .log, .fuse, .weak, .otp, .fresh]

/-- A trip of port `p` with cause `c` has been taken from `s` to `t` (R127). -/
def Tripped (p : Nat) (c : Machine.TripCause) (s t : Machine.State) : Prop :=
  (t.portOf p).state = .tripped ∧ (t.portOf p).cause = c ∧ (t.portOf p).tripCnt = min 15 ((s.portOf p).tripCnt + 1) ∧
  (t.portOf p).ga = false ∧ (t.portOf p).gb = false ∧ (t.portOf p).vconn = false ∧ (t.portOf p).pgood = false ∧
  (t.portOf p).disch = true ∧ (t.portOf p).retryRun = true ∧ (t.portOf p).retryStart = s.clock ∧
  (t.portOf p).sink = (s.portOf p).sink ∧ t.tb = s.tb

/-- The course runs its firmware, which has worked through all that stands before the head of the channel's `CTX_EVQ`: port
events, results and entries without a row of their own. -/
def Caught (s : Machine.State) (c : Nat) : Prop := s.fwRuns c = true ∧ Machine.fwPrep c s = s

/-- The head of `CTX_EVQ` is row `r`'s entry of port `p`, no message waits to be sent again, and the entry is none that leads
to Hard Reset during an open transition. -/
def Turn (s : Machine.State) (p : Nat) (r : Machine.FwRow) (e : Machine.EvEntry) : Prop :=
  Caught s (p / 128) ∧ (s.chanOf (p / 128)).evq.head? = some e ∧ e.port = p % 128 ∧ s.evRow (p / 128) e = some r ∧
  s.breaks p r e (s.rxBytes (p / 128) e.pan) = false ∧ (s.fwOf p).again = []

/-- Course `c` executes, and its strings that count, two at least, are in state `x`, in which they fetch the legal word `w`
from code RAM; products that are due have landed in `x`. -/
def Fetches (s : Machine.State) (c : Fin 4) (w : Word) (x : Machine.Str) : Prop :=
  s.executes c = true ∧ 2 ≤ (s.active3 c).length ∧
  (∀ i ∈ s.active3 c, Machine.Str.landDue 4 ((s.crsOf c).str i) = x) ∧
  x.pc.toNat % 4 = 0 ∧ x.pc.toNat < 0x30000 ∧ s.wordErr c x.pc.toNat = Machine.WordErr.init ∧ s.leAt c x.pc.toNat 4 = w.toNat ∧
  Machine.legal w = true

/-- Every string that counts is left in state `y`, its products in flight `n` cycles older, after `n` cycles; the other
strings and the other courses are as they were. -/
def Leaves (s : Machine.State) (c : Fin 4) (y : Machine.Str) (n : Nat) (t : Machine.State) : Prop :=
  t.active3 c = s.active3 c ∧ (∀ i ∈ s.active3 c, (t.crsOf c).str i = y.aged n) ∧
  (∀ i < 3, i ∉ s.active3 c → (t.crsOf c).str i = (s.crsOf c).str i) ∧
  (t.crsOf c).cycle = (s.crsOf c).cycle + BitVec.ofNat 32 n ∧ ∀ d : Fin 4, d ≠ c → t.crsOf d = s.crsOf d

end Sys2Proof
end

