-- ==== Sys2Proof/Certificates/Slice0/Obligations.lean ====
section
/-! DEFINITION. The statements for the provers: what each command does where the spec says it completes, what no command may touch, and the invariants of the block. -/
open Sys2Proof Sys2Proof.Machine

/-- The timebase state rows complete: lock, return, island, dip, holdover, blackout. (02 Tracking, 02 States) -/
def Obligations.TimebaseTransitions : Prop :=
  (∀ (s : State) (angle amp e1 e2 : BitVec 16), s.tclk = true → s.tb.st = .acquire →
    -256 ≤ e1.toInt → e1.toInt ≤ 256 → -256 ≤ e2.toInt → e2.toInt ≤ 256 →
    Completes (.loopLock angle amp e1 e2) s fun t =>
      t.tb.st = .locked ∧ t.tb.angle = angle ∧ t.tb.cyc = s.tb.cyc ∧ t.tb.usec = s.tb.usec ∧
      t.tb.nextTick = angle.toNat / 256 + 1 ∧ t.tb.nextSlot = angle.toNat / 2048 + 1 ∧
      t.flag R.ANG_STATUS F.ANG_STATUS_FIRSTLOCK = true ∧ t.flag R.ANG_STATUS F.ANG_STATUS_SHADOW = true ∧
      t.flag R.ANG_EVT F.ANG_EVT_LOCK = true ∧ Only [.regs, .tb, .timer, .log] s t) ∧
  (∀ (s : State) (angle amp e1 e2 : BitVec 16), s.tclk = true → (s.tb.st = .holdover ∨ s.tb.st = .island) →
    400 ≤ amp.toNat → s.blkOn = false → -256 ≤ e1.toInt → e1.toInt ≤ 256 → -256 ≤ e2.toInt → e2.toInt ≤ 256 →
    Completes (.loopLock angle amp e1 e2) s fun t =>
      t.tb = { s.tb with
        st := .ret, band := 2, lead := leadOf (s.tb.angle - angle), slew := slewOf (leadOf (s.tb.angle - angle)),
        idleAu := s.tb.angle.toNat, dipping := false } ∧
      t.flag R.ANG_STATUS F.ANG_STATUS_SHADOW = true ∧
      t.fld R.ANG_AMP F.ANG_AMP_AMP = amp.toNat ∧ Only [.regs, .tb] s t) ∧
  (∀ (s : State) (angle amp e1 e2 : BitVec 16),
    (e1.toInt < -256 ∨ 256 < e1.toInt ∨ e2.toInt < -256 ∨ 256 < e2.toInt) →
    Completes (.loopLock angle amp e1 e2) s fun t => t = s) ∧
  (∀ s : State, s.tclk = true → s.tb.st = .acquire → 100000 ≤ s.tb.usec.toNat →
    Completes .acquireTimeout s fun t =>
      t.tb = { s.tb with
        st := .island, rampFrom := s.fld R.ANG_FREQ F.ANG_FREQ_FREQ, rampStart := s.tb.usec, dipping := false } ∧
      t.flag R.ANG_EVT F.ANG_EVT_ISLAND = true ∧ Only [.regs, .tb, .log] s t) ∧
  (∀ s : State, s.tclk = true → s.tb.st = .holdover →
    1000 * s.act R.ANG_HOLDISL F.ANG_HOLDISL_HOLD_MS ≤ (s.tb.usec - s.tb.holdStart).toNat →
    Completes .holdTimeExpire s fun t =>
      t.tb = { s.tb with
        st := .island, rampFrom := s.fld R.ANG_FREQ F.ANG_FREQ_FREQ, rampStart := s.tb.usec, dipping := false } ∧
      t.flag R.ANG_EVT F.ANG_EVT_ISLAND = true ∧ Only [.regs, .tb, .log] s t) ∧
  (∀ (s : State) (start stop amp : BitVec 16), s.tclk = true → (s.tb.st = .locked ∨ s.tb.st = .ret) → amp.toNat < 300 →
    s.reaches stop = true → (s.tb.dipping = true ∨ start.toNat ≤ stop.toNat) →
    Completes (.dipEnd start stop amp) s fun t =>
      t.tb.st = s.tb.st ∧ t.tb.angle = stop ∧ t.tb.cyc = s.tb.cyc ∧ t.tb.usec = s.tb.usec ∧ t.tb.dipping = false ∧
      t.tb.slew = s.tb.slew ∧ t.reg R.ANG_FREQ = s.reg R.ANG_FREQ ∧
      t.flag R.ANG_EVT F.ANG_EVT_DIP = true ∧ Only [.regs, .tb, .log] s t) ∧
  (∀ (s : State) (freq : BitVec 17), s.tclk = true → (s.tb.st = .locked ∨ s.tb.st = .ret) → s.tb.dipping = true →
    Completes (.dipTimeout freq) s fun t =>
      t.flag R.ANG_EVT F.ANG_EVT_UNLOCK = true ∧ t.flag R.ANG_EVT F.ANG_EVT_HOLD = true ∧
      t.fld R.ANG_FREQ F.ANG_FREQ_FREQ = freq.toNat ∧ Only [.regs, .tb, .log] s t ∧
      (s.act R.ANG_HOLDISL F.ANG_HOLDISL_HOLD_MS ≠ 0 →
        t.tb = { s.tb with st := .holdover, holdStart := s.tb.usec, dipping := false }) ∧
      (s.act R.ANG_HOLDISL F.ANG_HOLDISL_HOLD_MS = 0 → t.flag R.ANG_EVT F.ANG_EVT_ISLAND = true ∧
        t.tb = { s.tb with st := .island, rampFrom := freq.toNat, rampStart := s.tb.usec, dipping := false })) ∧
  (∀ (s : State) (angle : BitVec 16), s.tclk = true → s.blkEn = true → (s.tb.st = .locked ∨ s.tb.st = .ret) →
    Completes (.blackoutFiltered true angle) s fun t =>
      t.flag R.ANG_STATUS F.ANG_STATUS_BLK = true ∧ t.flag R.PLC_INPUTS F.PLC_INPUTS_BLK = true ∧
      t.flag R.ANG_EVT F.ANG_EVT_UNLOCK = true ∧ t.flag R.ANG_EVT F.ANG_EVT_HOLD = true ∧
      t.reg R.ANG_FREQ = s.reg R.ANG_FREQ ∧ Only [.regs, .tb, .log] s t ∧
      (s.act R.ANG_HOLDISL F.ANG_HOLDISL_HOLD_MS ≠ 0 →
        t.tb = { s.tb with st := .holdover, holdStart := s.tb.usec, dipping := false }) ∧
      (s.act R.ANG_HOLDISL F.ANG_HOLDISL_HOLD_MS = 0 → t.tb.st = .island)) ∧
  (∀ (s : State) (angle : BitVec 16), s.tclk = true → s.blkEn = true → s.tb.st = .acquire →
    Completes (.blackoutFiltered true angle) s fun t =>
      t.tb.st = .island ∧ t.flag R.ANG_STATUS F.ANG_STATUS_BLK = true ∧ t.flag R.ANG_EVT F.ANG_EVT_ISLAND = true) ∧
  (∀ (s : State) (angle : BitVec 16), s.tclk = true → s.blkEn = true → (s.tb.st = .holdover ∨ s.tb.st = .island) →
    Completes (.blackoutFiltered true angle) s fun t =>
      t.tb = s.tb ∧ t.flag R.ANG_STATUS F.ANG_STATUS_BLK = true ∧ Only [.regs] s t) ∧
  (∀ (s : State) (angle : BitVec 16), s.tclk = true →
    Completes (.blackoutFiltered false angle) s fun t =>
      t.flag R.ANG_STATUS F.ANG_STATUS_BLK = false ∧ t.flag R.PLC_INPUTS F.PLC_INPUTS_BLK = false ∧
      Only [.regs, .tb] s t)

/-- Wraps, slot starts, scheduler ticks, reference edges and snapshots complete. (02 The cycle, slots and ticks, 02 Angle
and USEC, 02 Inputs, 02 Tracking) -/
def Obligations.TimebaseCycle : Prop :=
  (∀ (s : State) (m : WrapMeas), s.tclk = true → s.tb.nextTick = 256 → s.tb.nextSlot = 32 →
    Completes (.angleWrap m) s fun t =>
      t.tb.angle = 0 ∧ t.tb.cyc = s.tb.cyc + 1 ∧ t.tb.usec = s.tb.usec ∧ t.tb.nextTick = 0 ∧ t.tb.nextSlot = 0 ∧
      t.fld R.ANG_AMP F.ANG_AMP_AMP = m.amp.toNat ∧
      (s.tb.st = .locked → 300 ≤ m.amp.toNat → 35000 ≤ m.freq → m.freq ≤ 75000 →
        (∀ e ∈ m.loop, -1024 ≤ e ∧ e ≤ 1024) →
        t.tb.st = .locked ∧ t.fld R.ANG_FREQ F.ANG_FREQ_FREQ = m.freq ∧ t.tb.dipping = false) ∧
      (s.tb.st = .locked → m.amp.toNat < 300 →
        t.tb.st = .locked ∧ t.fld R.ANG_FREQ F.ANG_FREQ_FREQ = s.fld R.ANG_FREQ F.ANG_FREQ_FREQ ∧ t.tb.dipping = true) ∧
      (s.tb.st = .ret → 300 ≤ m.amp.toNat → 35000 ≤ m.freq → m.freq ≤ 75000 →
        (∀ e ∈ m.loop, -1024 ≤ e ∧ e ≤ 1024) → -64 ≤ s.leadNow m → s.leadNow m ≤ 64 →
        t.tb.st = .locked ∧ t.flag R.ANG_EVT F.ANG_EVT_LOCK = true) ∧
      (s.tb.st = .locked → 300 ≤ m.amp.toNat → 75000 < m.freq → s.act R.ANG_HOLDISL F.ANG_HOLDISL_HOLD_MS ≠ 0 →
        t.tb.st = .holdover ∧ t.tb.holdStart = s.tb.usec ∧ t.flag R.ANG_EVT F.ANG_EVT_FRANGE = true)) ∧
  (∀ (s : State) (k : Fin 32), s.tclk = true → s.tb.nextSlot = k.val → 8 * k.val ≤ s.tb.nextTick →
    s.tb.angle.toNat ≤ 2048 * k.val →
    Completes (.slotStart k) s fun t =>
      t.tb = { s.tb with angle := BitVec.ofNat 16 (2048 * k.val), nextSlot := k.val + 1 } ∧
      ∀ c : Fin 4, s.chanUp c = true → (t.crsOf c).slot = true) ∧
  (∀ (s : State) (k : Fin 256), s.tclk = true → s.tb.nextTick = k.val → 256 * k.val ≤ 2048 * s.tb.nextSlot →
    s.tb.angle.toNat ≤ 256 * k.val →
    Completes (.schedulerTick k) s fun t =>
      t.tb.angle.toNat = 256 * k.val ∧ t.tb.nextTick = k.val + 1 ∧ t.tb.tick = s.tb.tick + 1 ∧ t.tb.st = s.tb.st ∧
      (k.val % 8 = 0 → ∀ f : Fin 8, tabGet 0 t.tb.ibud f = s.fld (R.ANG_SBUD f) F.ANG_SBUD_IBUD) ∧
      (k.val % 8 ≠ 0 → t.tb.ibud = s.tb.ibud) ∧
      (s.tb.st = .acquire → ∀ (c : Fin 4) (i : Fin 64) (o : OpEntry), t.opOf c i = some o →
        ∃ o', s.opOf c i = some o' ∧ o'.st = o.st)) ∧
  (∀ (s : State) (a : BitVec 16), s.tclk = true → s.reaches a = true →
    Completes (.mzxEdge a) s fun t =>
      t.tb.angle = a ∧
      (s.auPos a < s.tb.mzxBlankEnd → t = { s with tb := { s.tb with angle := a } }) ∧
      (s.tb.mzxBlankEnd ≤ s.auPos a → t.tb.mzxBlankEnd = s.auPos a + 8192 ∧ t.tb.st = s.tb.st)) ∧
  (∀ (s : State) (a : BitVec 16), s.tclk = true → s.reaches a = true →
    Completes (.maComparatorEdge a) s fun t =>
      t.tb.angle = a ∧
      (s.auPos a < s.tb.maBlankEnd → t = { s with tb := { s.tb with angle := a } }) ∧
      (s.tb.maBlankEnd ≤ s.auPos a → t.tb.maBlankEnd = s.auPos a + 8192 ∧ t.tb.st = s.tb.st)) ∧
  (∀ s : State, s.mgmtUp = true → s.tclk = true →
    Completes .angSnap s fun t =>
      t.tb = s.tb ∧ t.flag R.ANG_SNAP_CTL F.ANG_SNAP_CTL_VALID = true ∧
      (t.reg R.ANG_SNAP_ANG).toNat = s.tb.st.code * 2 ^ 29 + s.tb.angle.toNat / 2048 * 2 ^ 16 + s.tb.angle.toNat ∧
      (t.reg R.ANG_SNAP_CYCL).toNat + 2 ^ 32 * (t.reg R.ANG_SNAP_CYCH).toNat = s.tb.cyc.toNat ∧
      (t.reg R.ANG_SNAP_USECL).toNat + 2 ^ 32 * (t.reg R.ANG_SNAP_USECH).toNat = s.tb.usec.toNat)

/-- Reading ANG_CYC_LO or ANG_USEC_LO latches the high half. (R76) -/
def Obligations.LowHalfReadsLatch : Prop :=
  (∀ s : State, s.mgmtUp = true → s.tclk = true →
    Completes .angCycLoRead s fun t =>
      t.bus.toNat = s.tb.cyc.toNat % 2 ^ 32 ∧ (t.reg R.ANG_CYC_HI).toNat = s.tb.cyc.toNat / 2 ^ 32 ∧ t.tb = s.tb ∧
      Only [.regs, .clk, .log, .bus] s t ∧
      (s.clk.quiet = false → ∀ a, a ≠ R.ANG_CYC_HI → t.reg a = s.reg a)) ∧
  (∀ s : State, s.mgmtUp = true → s.tclk = true →
    Completes .angUsecLoRead s fun t =>
      t.bus.toNat = s.tb.usec.toNat % 2 ^ 32 ∧ (t.reg R.ANG_USEC_HI).toNat = s.tb.usec.toNat / 2 ^ 32 ∧ t.tb = s.tb ∧
      Only [.regs, .clk, .log, .bus] s t ∧
      (s.clk.quiet = false → ∀ a, a ≠ R.ANG_USEC_HI → t.reg a = s.reg a))

/-- Counter ticks, actions and commands complete with the count, flags and RUN they give. (03 Counting, 03 Compare and
match, 03 Actions on match and zero, 03 Chained counters) -/
def Obligations.TimersCount : Prop :=
  (∀ (s : State) (n : Fin 32) (src : TickSrc), s.tclk = true → s.presented n src = true → s.takesTick n src = true →
    Completes (.timerTick n src) s fun t =>
      let v := if s.wide R.TMU_CNT n = 0 then s.wide R.TMU_RLD n else s.wide R.TMU_CNT n - 1
      t.wide R.TMU_CNT n = v ∧
      (v = s.wide R.TMU_CMP n → t.flag (R.TMU_STAT n) F.TMU_STAT_MATCH = true) ∧
      (v = 0 → t.flag (R.TMU_STAT n) F.TMU_STAT_ZERO = true) ∧
      (v = 0 → s.flag (R.TMU_CTL n) F.TMU_CTL_ONESHOT = true → t.running n = false) ∧
      (s.flag (R.TMU_CTL n) F.TMU_CTL_ONESHOT = false → t.running n = true) ∧ Only [.regs, .timer, .adc] s t) ∧
  (∀ (s : State) (n : Fin 32) (src : TickSrc), s.tclk = true → s.clkIs n src = true → s.presented n src = true →
    s.takesTick n src = false →
    Completes (.timerTick n src) s fun t =>
      t.regs = s.regs ∧ (src = .usec → (t.timerOf n).usecAt = (s.timerOf n).usecAt + 1) ∧
      (src = .angle → (t.timerOf n).posAt = (s.timerOf n).posAt + 1) ∧ Only [.timer] s t) ∧
  (∀ (s : State) (n : Fin 32), s.tclk = true → s.oddHalf n = false →
    Completes (.timerAction n) s fun t =>
      (t.timerOf n).actReset = false ∧ (t.timerOf n).actStart = false ∧
      t.wide R.TMU_CNT n = (if (s.timerOf n).actReset then s.wide R.TMU_RLD n else s.wide R.TMU_CNT n) ∧
      t.running n = (s.running n || (s.timerOf n).actStart)) ∧
  (∀ (s : State) (n : Fin 32), s.mgmtUp = true → s.tclk = true → s.oddHalf n = false →
    Completes (.tmuLoad n) s fun t =>
      t.wide R.TMU_CNT n = s.wide R.TMU_RLD n ∧ t.running n = s.running n ∧ Only [.regs, .clk, .log] s t) ∧
  (∀ (s : State) (n : Fin 32), s.mgmtUp = true → s.tclk = true → s.oddHalf n = false →
    Completes (.tmuStart n) s fun t =>
      t.running n = true ∧ (s.chained n = true → t.running (n.val + 1) = true) ∧
      t.wide R.TMU_CNT n = s.wide R.TMU_CNT n ∧ Only [.regs, .timer, .clk, .log] s t) ∧
  (∀ (s : State) (n : Fin 32), s.mgmtUp = true → s.tclk = true → s.oddHalf n = false →
    Completes (.tmuStop n) s fun t =>
      t.running n = false ∧ (s.chained n = true → t.running (n.val + 1) = false) ∧
      t.wide R.TMU_CNT n = s.wide R.TMU_CNT n ∧ Only [.regs, .timer, .clk, .log] s t) ∧
  (∀ (s : State) (who : Who) (v : Word), s.tclk = true → (who = .host → s.mgmtUp = true) →
    (∀ c : Fin 4, who = .course c → s.chanUp c = true) →
    Completes (.tmuGstart who v) s fun t =>
      (∀ n : Fin 32, v.getLsbD n = true → whoOwns who n = true → s.oddHalf n = false → t.running n = true) ∧
      (∀ n : Fin 32, (v.getLsbD n = false ∨ whoOwns who n = false) → s.chained n = false → t.running n = s.running n) ∧
      Only [.regs, .timer, .clk, .log] s t) ∧
  (∀ (s : State) (who : Who) (v : Word), s.tclk = true → (who = .host → s.mgmtUp = true) →
    (∀ c : Fin 4, who = .course c → s.chanUp c = true) →
    Completes (.tmuGstop who v) s fun t =>
      (∀ n : Fin 32, v.getLsbD n = true → whoOwns who n = true → s.oddHalf n = false → t.running n = false) ∧
      (∀ n : Fin 32, (v.getLsbD n = false ∨ whoOwns who n = false) → s.chained n = false → t.running n = s.running n) ∧
      Only [.regs, .timer, .clk, .log] s t)

/-- Counter settings, captures, their reads and the inputs of the timer unit complete. (03 Counting, 03 Capture, 03
Chained counters, 03 Registers) -/
def Obligations.TimerRegistersAndCaptures : Prop :=
  (∀ (s : State) (n : Fin 32) (v : Word), s.mgmtUp = true → s.tclk = true →
    Completes (.tmuRldWrite n v) s fun t =>
      (s.chained n = false → t.reg (R.TMU_RLD n) = v) ∧
      (s.oddHalf n = true → (t.timerOf n).rldPend = some v ∧ t.reg (R.TMU_RLD n) = s.reg (R.TMU_RLD n)) ∧
      (s.chained n = true → n.val % 2 = 0 → ∀ h, (s.timerOf (n.val + 1)).rldPend = some h →
        t.wide R.TMU_RLD n = h.toNat * 2 ^ 32 + v.toNat ∧ (t.timerOf (n.val + 1)).rldPend = none) ∧
      t.reg (R.TMU_CNT n) = s.reg (R.TMU_CNT n)) ∧
  (∀ (s : State) (n : Fin 32) (v : Word), s.mgmtUp = true → s.tclk = true →
    Completes (.tmuCmpWrite n v) s fun t =>
      (s.chained n = false → t.reg (R.TMU_CMP n) = v) ∧
      (s.oddHalf n = true → (t.timerOf n).cmpPend = some v ∧ t.reg (R.TMU_CMP n) = s.reg (R.TMU_CMP n)) ∧
      (s.chained n = true → n.val % 2 = 0 → ∀ h, (s.timerOf (n.val + 1)).cmpPend = some h →
        t.wide R.TMU_CMP n = h.toNat * 2 ^ 32 + v.toNat ∧ (t.timerOf (n.val + 1)).cmpPend = none) ∧
      t.reg (R.TMU_CNT n) = s.reg (R.TMU_CNT n)) ∧
  (∀ (s : State) (n : Fin 32) (v : Word), s.mgmtUp = true → s.tclk = true → s.oddHalf n = false →
    Completes (.tmuCtlWrite n v) s fun t =>
      (n.val % 2 = 0 → s.running n = false → s.running (n.val + 1) = false → F.TMU_CTL_GATE.get v ≠ 3 →
        t.reg (R.TMU_CTL n) = v &&& 0xFFFC) ∧
      (F.TMU_CTL_GATE.get v = 3 → t.fld (R.TMU_CTL n) F.TMU_CTL_GATE = s.fld (R.TMU_CTL n) F.TMU_CTL_GATE) ∧
      (n.val % 2 = 0 → s.running n = true → t.fld (R.TMU_CTL n) F.TMU_CTL_CHAIN = s.fld (R.TMU_CTL n) F.TMU_CTL_CHAIN) ∧
      (n.val % 2 = 1 → t.fld (R.TMU_CTL n) F.TMU_CTL_CHAIN = 0) ∧
      (t.timerOf n).caps = [] ∧ t.fld (R.TMU_STAT n) F.TMU_STAT_QDEPTH = 0) ∧
  (∀ (s : State) (n : Fin 32) (v : Word), s.mgmtUp = true → s.tclk = true → s.oddHalf n = false →
    Completes (.tmuCapsrcWrite n v) s fun t =>
      t.reg (R.TMU_CAPSRC n) = v &&& 0xFFF00000 ∧ (t.timerOf n).caps = [] ∧
      t.fld (R.TMU_STAT n) F.TMU_STAT_QDEPTH = 0) ∧
  (∀ (s : State) (n : Fin 32) (src : CapSrc), s.tclk = true → s.oddHalf n = false →
    s.flag (R.TMU_CTL n) F.TMU_CTL_CAPEN = true → s.capIs n src = true → (s.timerOf n).cap = true →
    Completes (.timerCapture n src) s fun t =>
      ((∀ p k, src ≠ .port p k) → (s.timerOf n).caps.length < 4 →
        (t.timerOf n).caps = (s.timerOf n).caps ++ [BitVec.ofNat 64 (s.wide R.TMU_CNT n)] ∧
        t.flag (R.TMU_STAT n) F.TMU_STAT_CAP = true) ∧
      ((∀ p k, src ≠ .port p k) → 4 ≤ (s.timerOf n).caps.length →
        t.timerOf n = { s.timerOf n with cap := false } ∧ t.flag (R.TMU_STAT n) F.TMU_STAT_QOVR = true) ∧
      (∀ p k, src = .port p k →
        (t.timerOf n).caps = [BitVec.ofNat 64 (s.wide R.TMU_CNT n)] ∧
        t.flag (R.TMU_STAT n) F.TMU_STAT_CAP = true ∧
        ((s.timerOf n).caps ≠ [] → t.flag (R.TMU_STAT n) F.TMU_STAT_OVR = true)) ∧
      (t.timerOf n).cap = false ∧ Only [.regs, .timer] s t) ∧
  (∀ (s : State) (n : Fin 32), s.mgmtUp = true → s.tclk = true → s.oddHalf n = false →
    Completes (.tmuCapRead n) s fun t =>
      (∀ v l, (s.timerOf n).caps = v :: l → t.bus.toNat = v.toNat % 2 ^ 32 ∧ (t.timerOf n).caps = l ∧
        (s.chained n = true → (t.timerOf (n.val + 1)).capHi.toNat = v.toNat / 2 ^ 32)) ∧
      ((s.timerOf n).caps = [] → t.bus = 0 ∧ (t.timerOf n).caps = [] ∧ (s.clk.quiet = false → t.regs = s.regs))) ∧
  (∀ (s : State) (n : Fin 32), s.mgmtUp = true → s.tclk = true → s.oddHalf n = false →
    Completes (.tmuCntRead n) s fun t =>
      t.bus = s.reg (R.TMU_CNT n) ∧ (s.clk.quiet = false → t.regs = s.regs) ∧
      (s.chained n = true → (t.timerOf (n.val + 1)).cntHi = s.reg (R.TMU_CNT (n.val + 1)))) ∧
  (∀ (s : State) (k : Fin 8) (level : Bool), s.tclk = true →
    Completes (.tinEdge k level) s fun t =>
      (t.reg R.TMU_TINLVL).getLsbD k = level ∧
      ∀ i, i ≠ k.val → (t.reg R.TMU_TINLVL).getLsbD i = (s.reg R.TMU_TINLVL).getLsbD i) ∧
  (∀ (s : State) (p : Fin 512) (k : Fin 8), s.tclk = true → s.portUp p = true → s.chanUp (p.val / 128) = true →
    Completes (.portEventCrossing p k) s fun t =>
      (tabGet 0 s.xat (2048 + p.val) ≠ s.clock + 1 → t.delivered p k = true ∧ t.regs = s.regs) ∧
      (t.delivered p k = true ∨ ∀ n : Fin 32, s.selects n p k = true → t.flag (R.TMU_STAT n) F.TMU_STAT_OVR = true) ∧
      (t.delivered p k = true → ∀ n : Fin 32, s.oddHalf n = false → s.flag (R.TMU_CTL n) F.TMU_CTL_CAPEN = true →
        s.portEv = [] → t.capIs n (.port p k) = true → (t.timerOf n).cap = true) ∧
      Only [.regs, .timer, .portEv, .xat, .fresh] s t)

/-- Administration, attach and detach of a port complete with the state they give. (04 Attach and detach, 04 Port states,
04 Registers, 14 Admission) -/
def Obligations.PortAdminAndAttach : Prop :=
  (∀ (s : State) (p : Fin 512), s.flag R.OTP_STAT F.OTP_STAT_TRIMBAD = false → (s.cls p = 1 ∨ s.cls p = 2) →
    s.released = true → s.portUp p = true → (s.portOf p).state = .off → s.clk.extest = false →
    (s.dieOf (p / 64)).inReset = false → s.mgmtUp = true → s.chanUp (p.val / 128) = true →
    Completes (.adminEn p) s fun t =>
      t.portOf p = { s.portOf p with state := .idle, stAt := s.clock, term := true, cc := false, ccAt := s.clock } ∧
      tabGet Adm.waiting t.adm p = .admitted ∧ Only [.regs, .port, .mir, .adm, .clk, .log] s t) ∧
  (∀ (s : State) (p : Fin 512), s.flag R.OTP_STAT F.OTP_STAT_TRIMBAD = false → s.released = false →
    s.mgmtUp = true → s.chanUp (p.val / 128) = true →
    Completes (.adminEn p) s fun t => tabGet Adm.waiting t.adm p = .kept ∧ Only [.regs, .adm, .clk, .log] s t) ∧
  (∀ (s : State) (p : Fin 512), s.released = true → s.portUp p = true → (s.portOf p).state ≠ .off →
    s.mgmtUp = true → s.chanUp (p.val / 128) = true →
    Completes (.adminDis p) s fun t =>
      (t.portOf p).state = .off ∧ (t.portOf p).term = false ∧ (t.portOf p).ga = false ∧ (t.portOf p).gb = false ∧
      (t.portOf p).sink = false ∧ (t.portOf p).disch = true ∧ (t.portOf p).tripCnt = (s.portOf p).tripCnt ∧
      tabGet Adm.waiting t.adm p = .removed) ∧
  (∀ (s : State) (p : Fin 512), s.released = true → s.portUp p = false →
    s.mgmtUp = true → s.chanUp (p.val / 128) = true →
    Completes (.adminDis p) s fun t =>
      (t.hubOf p).markDis = true ∧ (t.hubOf p).markEn = false ∧ t.port = s.port ∧
      tabGet Adm.waiting t.adm p = .removed) ∧
  (∀ (s : State) (p : Fin 512), s.portUp p = true → s.mgmtUp = true → s.chanUp (p.val / 128) = true →
    Completes (.adminUnlock p) s fun t =>
      (t.portOf p).tripCnt = 0 ∧
      ((s.portOf p).state = .lockout → (t.portOf p).state = .idle) ∧
      ((s.portOf p).state ≠ .lockout → (t.portOf p).state = (s.portOf p).state) ∧
      ((s.portOf p).tripCnt ≠ 0 → t.flag (R.PRT_EVT p) F.PRT_EVT_CNT_CLR = true)) ∧
  (∀ (s : State) (p : Fin 512), s.portUp p = false → s.mgmtUp = true → s.chanUp (p.val / 128) = true →
    Completes (.adminUnlock p) s fun t => (t.hubOf p).markUnlock = true ∧ Only [.regs, .hub, .clk, .log] s t) ∧
  (∀ (s : State) (p : Fin 512) (cc1 cc2 : BitVec 16), (s.portOf p).state = .idle →
    (s.portOf p).term = true → s.sinkCond p cc1.toNat cc2.toNat = true →
    Completes (.sinkConditionAppear p cc1 cc2) s fun t =>
      t.portOf p = { s.portOf p with
        state := .debounce, stAt := s.clock, cc := true, ccAt := if (s.portOf p).cc then (s.portOf p).ccAt else s.clock,
        attWait := none } ∧ Only [.port, .mir] s t) ∧
  (∀ (s : State) (p : Fin 512) (cc1 cc2 : BitVec 16), (s.portOf p).state = .debounce → (s.portOf p).term = true →
    s.sinkCond p cc1.toNat cc2.toNat = false →
    Completes (.sinkConditionLost p cc1 cc2) s fun t =>
      t.portOf p = { s.portOf p with
        state := .idle, stAt := s.clock, cc := false, ccAt := if (s.portOf p).cc then s.clock else (s.portOf p).ccAt,
        sink := false, attWait := none } ∧ Only [.port, .mir] s t) ∧
  (∀ (s : State) (p : Fin 512) (cc1 cc2 : BitVec 16), (s.portOf p).state = .contract → (s.portOf p).term = true →
    s.cls p = 1 → (s.portOf p).cc = true →
    Completes (.sinkConditionLost p cc1 cc2) s fun t =>
      (isRd (s.ccLevels p) (if (s.portOf p).orient then cc2 else cc1).toNat = true → t = s) ∧
      (isRd (s.ccLevels p) (if (s.portOf p).orient then cc2 else cc1).toNat = false →
        t.portOf p = { s.portOf p with cc := false, ccAt := s.clock } ∧ Only [.port, .mir] s t)) ∧
  (∀ (s : State) (p : Fin 512) (cc1 cc2 : BitVec 16), (s.portOf p).state = .idle →
    s.accessory p cc1.toNat cc2.toNat = true → s.portUp p = true →
    Completes (.accessorySeen p cc1 cc2) s fun t =>
      t.flag (R.PRT_EVT p) F.PRT_EVT_ACC_SEEN = true ∧ Only [.regs] s t) ∧
  (∀ (s : State) (p : Fin 512) (cc1 cc2 vs : BitVec 16), (s.portOf p).state = .debounce →
    s.sinkCond p cc1.toNat cc2.toNat = true → s.debounced p = true →
    Completes (.attach p cc1 cc2 vs) s fun t =>
      (vs.toNat < 800 → (t.portOf p).state = .inrush ∧ (t.portOf p).armed = true ∧ (t.portOf p).sink = true ∧
        (t.portOf p).orient = (s.cls p == 1 && !isRd (s.ccLevels p) cc1.toNat) ∧
        (t.portOf p).ga = (s.portOf p).ga ∧ (t.portOf p).gb = (s.portOf p).gb) ∧
      (800 ≤ vs.toNat → (t.portOf p).state = .debounce ∧ (t.portOf p).disch = true ∧ (t.portOf p).attWait ≠ none)) ∧
  (∀ (s : State) (p : Fin 512) (cc1 cc2 vs : BitVec 16),
    ((s.portOf p).state = .tripped ∨ (s.portOf p).state = .retryWait ∨ (s.portOf p).state = .lockout) →
    s.sinkCond p cc1.toNat cc2.toNat = true → (s.portOf p).sink = false → s.portUp p = true →
    s.debounced p = true →
    Completes (.attach p cc1 cc2 vs) s fun t =>
      t.portOf p = { s.portOf p with sink := true, attRec := true } ∧
      t.flag (R.PRT_EVT p) F.PRT_EVT_ATT_REC = true) ∧
  (∀ (s : State) (p : Fin 512), (s.portOf p).sink = true → (s.portOf p).powered = true → (s.portOf p).cc = false →
    (s.portOf p).ccAt + 11800 ≤ s.clock → tripFirst p s = s →
    Completes (.detach p) s fun t =>
      (t.portOf p).state = .idle ∧ (t.portOf p).sink = false ∧ (t.portOf p).ga = false ∧ (t.portOf p).gb = false ∧
      (t.portOf p).disch = true ∧ (t.portOf p).pgood = false) ∧
  (∀ (s : State) (p : Fin 512), (s.portOf p).sink = true → (s.portOf p).state = .inrush → (s.portOf p).armed = true →
    (s.portOf p).cc = false → (s.portOf p).ccAt + 11800 ≤ s.clock → tripFirst p s = s →
    Completes (.detach p) s fun t =>
      (t.portOf p).state = .idle ∧ (t.portOf p).sink = false ∧ (t.portOf p).armed = false ∧
      (t.portOf p).disch = (s.portOf p).disch) ∧
  (∀ (s : State) (p : Fin 512), (s.portOf p).sink = true →
    ((s.portOf p).state = .tripped ∨ (s.portOf p).state = .retryWait ∨ (s.portOf p).state = .lockout) →
    (s.portOf p).cc = false → (s.portOf p).ccAt + 11800 ≤ s.clock → tripFirst p s = s →
    Completes (.detach p) s fun t =>
      (t.portOf p).state = (s.portOf p).state ∧ (t.portOf p).sink = false ∧
      (t.portOf p).attRec = (s.portOf p).attRec) ∧
  (∀ (s : State) (p : Fin 512), ((s.portOf p).sink = false ∨ (s.portOf p).cc = true ∨ s.clock < (s.portOf p).ccAt + 11800) →
    Completes (.detach p) s fun t => t = s)

/-- Trips, limit, PGOOD, discharge, retry and dwell rows complete with the port's new state. (04 Port states, 04
Protection timers and thresholds, 04 Trip, retry and lockout, 04 Discharge and the sideline) -/
def Obligations.PortProtection : Prop :=
  (∀ (s : State) (p : Fin 512) (vs : BitVec 16), (s.portOf p).state = .inrush → (s.portOf p).armed = false →
    4750 ≤ vs.toNat → s.tripWaits p = false →
    Completes (.inrushComplete p vs) s fun t =>
      (t.portOf p).state = .safe5v ∧ (t.portOf p).icon = s.advCur p ∧ (t.portOf p).onEntry = none ∧
      (t.portOf p).ga = (s.portOf p).ga ∧ (t.portOf p).gb = (s.portOf p).gb) ∧
  (∀ (s : State) (p : Fin 512), (s.portOf p).state = .inrush → (s.portOf p).armed = false →
    s.past (s.portOf p).stAt (atLeast (s.tInr p)) = true → s.fastWaits p = false →
    Completes (.inrushTimeout p) s fun t => Tripped p .inrushTo s t) ∧
  (∀ (s : State) (p : Fin 512) (uv : BitVec 24) (ns : BitVec 16), (s.portOf p).powered = true →
    ((s.portOf p).ga = true ∨ (s.portOf p).gb = true) → 250 ≤ ns.toNat →
    (105 * s.ift p + 10000) * s.rsns p < 100000 * uv.toNat →
    Completes (.fastTrip p uv ns) s fun t => Tripped p .fast s t) ∧
  (∀ (s : State) (p : Fin 512) (uv : BitVec 24) (ns : BitVec 16),
    ((s.portOf p).powered = false ∨ ns.toNat < 100 ∨ 100000 * uv.toNat < (95 * s.ift p - 10000) * s.rsns p) →
    Completes (.fastTrip p uv ns) s fun t => t.port = s.port ∧ Only [.fresh] s t) ∧
  (∀ (s : State) (p : Fin 512), (s.portOf p).state = .limit → atLeast (s.tFt p) ≤ s.ftNow (s.portOf p) →
    s.fastWaits p = false →
    Completes (.faultTimerTrip p) s fun t => Tripped p .ftimer s t) ∧
  (∀ (s : State) (p : Fin 512) (ma : BitVec 16), (s.portOf p).goingDown = false → (s.portOf p).limact = false →
    98 * s.limit p ≤ 10000 * ma.toNat + 100000 → s.tripWaits p = false →
    ((s.portOf p).state = .safe5v ∨ (s.portOf p).state = .contract ∨ (s.portOf p).state = .transition) →
    Completes (.limitRise p ma) s fun t =>
      (t.portOf p).state = .limit ∧ (t.portOf p).ret = (s.portOf p).state ∧ (t.portOf p).limact = true ∧
      (t.portOf p).limStart = s.clock ∧ (t.portOf p).pgood = false ∧ (t.portOf p).ga = (s.portOf p).ga ∧
      (s.portUp p = true → t.flag (R.PRT_EVT p) F.PRT_EVT_LIM_RISE = true)) ∧
  (∀ (s : State) (p : Fin 512) (ma : BitVec 16), 10000 * ma.toNat + 100000 < 98 * s.limit p →
    Completes (.limitRise p ma) s fun t => t = s) ∧
  (∀ (s : State) (p : Fin 512), (s.portOf p).limact = true →
    Completes (.limitActiveFall p) s fun t =>
      t.portOf p = { s.portOf p with ftAcc := s.ftNow (s.portOf p), limact := false, limFall := s.clock } ∧
      Only [.port, .mir] s t) ∧
  (∀ (s : State) (p : Fin 512), (s.portOf p).state = .limit → (s.portOf p).limact = false →
    (s.portOf p).limFall + 1980 ≤ s.clock → s.riseWaits p = false → s.tripWaits p = false →
    Completes (.limitClear p) s fun t =>
      t.portOf p = { s.portOf p with state := (s.portOf p).ret, stAt := s.clock, ret := .off, ftAcc := 0 } ∧
      Only [.port, .mir] s t) ∧
  (∀ (s : State) (p : Fin 512) (vs : BitVec 16),
    ((s.portOf p).state = .safe5v ∨ (s.portOf p).state = .contract ∨ (s.portOf p).state = .transition) →
    (s.portOf p).goingDown = false → (s.portOf p).limact = false → (s.portOf p).pgood = false → s.portUp p = true →
    s.inWindow p vs.toNat = true → (s.portOf p).winAt + 1980 ≤ s.clock → (s.portOf p).limFall + 1980 ≤ s.clock →
    s.riseWaits p = false → s.lossWaits p = false →
    Completes (.pgoodRise p vs) s fun t =>
      (t.portOf p).pgood = true ∧ (t.portOf p).state = (s.portOf p).state ∧ (t.portOf p).ga = (s.portOf p).ga ∧
      t.flag (R.PRT_EVT p) F.PRT_EVT_PG_RISE = true ∧ Only [.regs, .port, .mir] s t) ∧
  (∀ (s : State) (p : Fin 512) (vs : BitVec 16), s.inWindow p vs.toNat = false →
    Completes (.pgoodRise p vs) s fun t => (t.portOf p).pgood = (s.portOf p).pgood ∧ t.regs = s.regs) ∧
  (∀ (s : State) (p : Fin 512) (vs : BitVec 16), (s.portOf p).pgood = true → s.portUp p = true →
    Completes (.pgoodWindowExit p vs) s fun t =>
      (s.inWindow p vs.toNat = true → (t.portOf p).pgood = true ∧ t.regs = s.regs) ∧
      (s.inWindow p vs.toNat = false → (t.portOf p).pgood = false ∧ (t.portOf p).winAt = s.clock ∧
        t.flag (R.PRT_EVT p) F.PRT_EVT_PG_FALL = true) ∧
      (t.portOf p).state = (s.portOf p).state ∧ Only [.regs, .port, .mir] s t) ∧
  (∀ (s : State) (p : Fin 512) (vs : BitVec 16), (s.portOf p).disch = true → vs.toNat < 800 →
    Completes (.dischargeComplete p vs) s fun t =>
      (t.portOf p).disch = false ∧ (t.portOf p).bleed = false ∧
      ((s.portOf p).state = .tripped → (s.portOf p).retryRun = true →
        (s.portOf p).tripCnt < clampTo 1 15 (s.dfld (R.PRT_RETRY p) F.PRT_RETRY_TRIP_MAX) →
        (t.portOf p).state = .retryWait) ∧
      ((s.portOf p).state = .tripped →
        clampTo 1 15 (s.dfld (R.PRT_RETRY p) F.PRT_RETRY_TRIP_MAX) ≤ (s.portOf p).tripCnt →
        (t.portOf p).state = .lockout) ∧
      ((s.portOf p).state = .transition → (s.portOf p).vtgt = 0 →
        (t.portOf p).state = .inrush ∧ (t.portOf p).armed = true)) ∧
  (∀ (s : State) (p : Fin 512) (vs : BitVec 16), 800 ≤ vs.toNat →
    Completes (.dischargeComplete p vs) s fun t => t = s) ∧
  (∀ (s : State) (p : Fin 512) (vs : BitVec 16), (s.portOf p).disch = true →
    (s.portOf p).dischAt + 640000 ≤ s.clock → s.dischWaits p = false →
    Completes (.dischFail p vs) s fun t =>
      (t.portOf p).disch = false ∧ (t.portOf p).cause = .dischFail ∧
      (t.portOf p).state = (if (s.portOf p).dischOff then .off else .lockout)) ∧
  (∀ (s : State) (p : Fin 512), (s.portOf p).retryRun = true →
    s.past (s.portOf p).retryStart (atLeast (1000 * (s.portOf p).ri)) = true → sinkFirst p s = s →
    Completes (.retryExpire p) s fun t =>
      (t.portOf p).retryRun = false ∧
      ((s.portOf p).state = .retryWait → (t.portOf p).state = (if (s.portOf p).sink then .debounce else .idle)) ∧
      ((s.portOf p).state ≠ .retryWait → (t.portOf p).state = (s.portOf p).state) ∧ Only [.port, .mir] s t) ∧
  (∀ (s : State) (p : Fin 512), (s.portOf p).state = .contract → s.portUp p = true →
    (s.portOf p).stAt + 59400000 ≤ s.clock →
    Completes (.contractDwellClear p) s fun t =>
      t.portOf p = { s.portOf p with tripCnt := 0 } ∧
      ((s.portOf p).tripCnt ≠ 0 → t.flag (R.PRT_EVT p) F.PRT_EVT_CNT_CLR = true)) ∧
  (∀ (s : State) (p : Fin 512), (s.portOf p).sink = false → (s.portOf p).cc = false → (s.portOf p).state ≠ .lockout →
    s.portUp p = true → s.past (s.portOf p).ccAt (atLeast (1000 * (s.portOf p).ri)) = true →
    Completes (.detachDwellClear p) s fun t =>
      t.portOf p = { s.portOf p with tripCnt := 0 } ∧
      ((s.portOf p).tripCnt ≠ 0 → t.flag (R.PRT_EVT p) F.PRT_EVT_CNT_CLR = true)) ∧
  (∀ (s : State) (p : Fin 512), (s.portOf p).vconn = true → (s.portOf p).vcAt + 900 ≤ s.clock →
    Completes (.vconnOc p) s fun t => (t.portOf p).vconn = false ∧ (t.portOf p).state = (s.portOf p).state)

/-- Operations that reach their port die execute, and settings are taken. (04 Port states, 04 VCONN, 04 Registers, 08 Leg
transfers) -/
def Obligations.PortOperations : Prop :=
  (∀ (s : State) (c : Fin 4) (i : Fin 64) (o : OpEntry), s.opArrives c i .turnOn = some o →
    let p := 128 * c.val + o.port
    (s.portOf p).state = .inrush → (s.portOf p).armed = true → (s.portOf p).failed = false →
    (s.dieOf (p / 64)).vghLow = false →
    Completes (.turnOnExec c i) s fun t =>
      ((t.portOf p).ga, (t.portOf p).gb) = s.gatesOf p o.leg ∧ (t.portOf p).vtgt = 5000 ∧
      (t.portOf p).armed = false ∧ (t.portOf p).state = .inrush ∧ (t.portOf p).onEntry = some i.val ∧
      (t.hubOf p).leg = o.leg ∧ Only [.port, .mir, .hub, .die, .fresh] s t) ∧
  (∀ (s : State) (c : Fin 4) (i : Fin 64) (o : OpEntry), s.opArrives c i .contract = some o →
    (s.portOf (128 * c.val + o.port)).eff = .safe5v →
    Completes (.contractExec c i) s fun t =>
      (t.portOf (128 * c.val + o.port)).eff = .contract ∧ (t.portOf (128 * c.val + o.port)).icon = o.icon) ∧
  (∀ (s : State) (c : Fin 4) (i : Fin 64) (o : OpEntry) (vs : BitVec 16), s.opArrives c i .step = some o → o.vtgt ≠ 0 →
    let p := 128 * c.val + o.port
    ((s.portOf p).eff = .safe5v ∨ (s.portOf p).eff = .contract ∨ (s.portOf p).eff = .transition) →
    (s.portOf p).goingDown = false →
    Completes (.stepExec c i vs) s fun t =>
      (t.portOf p).eff = .transition ∧ (t.portOf p).vtgt = o.vtgt ∧ (t.portOf p).icon = o.icon ∧
      (t.portOf p).step = some { entry := i, last := o.last, oldV := (s.portOf p).vtgt, timedOut := false, start := s.clock }) ∧
  (∀ (s : State) (p : Fin 512) (r : StepRun) (vs : BitVec 16), (s.portOf p).step = some r →
    s.spans p (s.portOf p).vtgt (s.portOf p).vtgt vs.toNat = true → s.headroom p vs.toNat = true → r.start + 99 ≤ s.clock → s.lossWaits p = false →
    Completes (.stepComplete p vs) s fun t =>
      (t.portOf p).step = none ∧ (t.portOf p).eff = (if r.last then .contract else (s.portOf p).eff) ∧
      (t.portOf p).vtgt = (s.portOf p).vtgt) ∧
  (∀ (s : State) (p : Fin 512) (vs : BitVec 16),
    s.spans p (s.portOf p).vtgt (s.portOf p).vtgt vs.toNat = false ∨ s.headroom p vs.toNat = false →
    Completes (.stepComplete p vs) s fun t => (t.portOf p).step = (s.portOf p).step ∧ Only [.port, .mir] s t) ∧
  (∀ (s : State) (p : Fin 512) (r : StepRun), (s.portOf p).step = some r → r.timedOut = false →
    r.start + 9900 ≤ s.clock → s.lossWaits p = false →
    Completes (.stepTimeout p) s fun t =>
      (t.portOf p).step = some { r with timedOut := true } ∧ (t.portOf p).state = (s.portOf p).state) ∧
  (∀ (s : State) (p : Fin 512) (i : Fin 64) (o : OpEntry), s.opOf (p.val / 128) i = some o → o.st = .released →
    o.fin = false → o.port = p.val % 128 → (o.kind = .hrOff ∨ (o.kind = .step ∧ o.vtgt = 0)) → s.portUp p = true →
    (s.dieOf (p.val / 64)).hold = false → (s.portOf p).powered = true →
    s.lossWaits p = false →
    Completes (.powerDownExec p (some i)) s fun t =>
      (t.portOf p).state = .transition ∧ (t.portOf p).vtgt = 0 ∧ (t.portOf p).ga = false ∧ (t.portOf p).gb = false ∧
      (t.portOf p).disch = true ∧ (t.portOf p).pgood = false ∧ (t.portOf p).downEntry = some i.val) ∧
  (∀ (s : State) (p : Fin 512), (s.portOf p).disc = true → (s.portOf p).powered = true →
    s.lossWaits p = false →
    Completes (.powerDownExec p none) s fun t =>
      (t.portOf p).state = .transition ∧ (t.portOf p).vtgt = 0 ∧ (t.portOf p).ga = false ∧ (t.portOf p).gb = false ∧
      (t.portOf p).disch = true ∧ (t.portOf p).downEntry = none) ∧
  (∀ (s : State) (c : Fin 4) (i : Fin 64) (o : OpEntry), s.opArrives c i .transfer = some o →
    let p := 128 * c.val + o.port
    (s.portOf p).powered = true → (s.portOf p).goingDown = false → o.refuse = false →
    Completes (.transferExec c i) s fun t =>
      (t.portOf p).leg = o.leg ∧ (t.portOf p).xfer = some { entry := i, leg := o.leg } ∧
      (o.mbb = true → (t.portOf p).ga = ((s.gatesOf p (s.portOf p).leg).1 || (s.gatesOf p o.leg).1) ∧
        (t.portOf p).gb = ((s.gatesOf p (s.portOf p).leg).2 || (s.gatesOf p o.leg).2)) ∧
      (o.mbb = false → (t.portOf p).ga = ((s.gatesOf p (s.portOf p).leg).1 && (s.gatesOf p o.leg).1) ∧
        (t.portOf p).gb = ((s.gatesOf p (s.portOf p).leg).2 && (s.gatesOf p o.leg).2)) ∧ Only [.port, .mir] s t) ∧
  (∀ (s : State) (p : Fin 512) (r : XferRun), (s.portOf p).xfer = some r →
    Completes (.transferDone p) s fun t =>
      ((t.portOf p).ga, (t.portOf p).gb) = s.gatesOf p r.leg ∧ (t.portOf p).xfer = none) ∧
  (∀ (s : State) (c : Fin 4) (i : Fin 64) (o : OpEntry), s.opArrives c i .vconnOn = some o →
    let p := 128 * c.val + o.port
    (s.portOf p).powered = true → (s.portOf p).goingDown = false → (s.portOf p).vconn = false →
    (s.dieOf (p / 64)).vconnLow = false →
    Completes (.vconnOnExec c i) s fun t =>
      t.portOf p = { s.portOf p with vconn := true, vcAt := s.clock, vcEntry := some i.val } ∧ Only [.port, .mir] s t) ∧
  (∀ (s : State) (c : Fin 4) (i : Fin 64) (o : OpEntry), s.opArrives c i .vconnOff = some o →
    (s.portOf (128 * c.val + o.port)).state ≠ .off →
    Completes (.vconnOffExec c i) s fun t => (t.portOf (128 * c.val + o.port)).vconn = false) ∧
  (∀ (s : State) (p : Fin 512) (i : Nat), (s.portOf p).vcEntry = some i →
    (s.portOf p).vcAt + 495 ≤ s.clock →
    Completes (.vconnSoftStartEnd p) s fun t => (t.portOf p).vcEntry = none ∧ (t.portOf p).vconn = (s.portOf p).vconn) ∧
  (∀ (s : State) (who : Who) (p : Fin 512) (r : PortSetting) (v : Word), Who.ownsPort who p = true →
    s.chanUp (p.val / 128) = true → (who = .host → s.mgmtUp = true) → (s.portOf p).state ≠ .limit →
    Completes (.prtSettingWrite who p r v) s fun t =>
      t.reg (settingAddr p r) = v &&& settingMask r ∧
      (s.portUp p = true → t.dreg (settingAddr p r) = v &&& settingMask r) ∧
      (s.portUp p = false → t.dieRegs = s.dieRegs) ∧ t.port = s.port) ∧
  (∀ (s : State) (who : Who) (p : Fin 512) (v : Word), Who.ownsPort who p = true → s.portUp p = true →
    s.chanUp (p.val / 128) = true → (who = .host → s.mgmtUp = true) → (s.portOf p).state = .limit →
    clampTo 1000 100000 (F.PRT_LIMIT_T_FT.get v) ≤ s.ftNow (s.portOf p) →
    Completes (.prtSettingWrite who p .limit v) s fun t =>
      (t.portOf p).state = .tripped ∧ (t.portOf p).cause = .ftimer)

/-- Messages, GoodCRC, retries, hard resets and keep-alive complete in the port's PHY. (05 The PHY on each port, 05
Timers, 05 Registers) -/
def Obligations.PhyCommandsComplete : Prop :=
  (∀ (s : State) (p : Fin 512) (sp : Sop) (m : List Byte), s.cls p ≠ 0 → (s.portOf p).state ≠ .off →
    (s.phyOf p).bistCarrier = false → (s.phyOf p).bistData = false → sp ≠ .other → (sp = .sopp → s.soppOn p = true) →
    (s.phyOf p).rx = none → isCtl m 13 = false → isData m 3 = false → (s.phyOf p).rxId sp ≠ some (msgId m) →
    (s.dieOf (p.val / 64)).hold = false →
    Completes (.pdMessageRx p sp (crc32 m) m) s fun t =>
      (t.phyOf p).rx = some { sop := sp, bytes := m, usec := s.tb.usec.truncate 32 } ∧
      (t.phyOf p).ack = some (msgId m) ∧ (t.phyOf p).rxId sp = some (msgId m)) ∧
  (∀ (s : State) (p : Fin 512) (sp : Sop) (m : List Byte), s.cls p ≠ 0 → (s.portOf p).state ≠ .off →
    (s.phyOf p).bistCarrier = false → (s.phyOf p).bistData = false → sp ≠ .other → (sp = .sopp → s.soppOn p = true) →
    (s.phyOf p).rx = none → isCtl m 13 = false → (s.phyOf p).rxId sp = some (msgId m) →
    Completes (.pdMessageRx p sp (crc32 m) m) s fun t =>
      (t.phyOf p).rx = none ∧ (t.phyOf p).ack = some (msgId m) ∧ (t.phyOf p).rxId sp = some (msgId m)) ∧
  (∀ (s : State) (p : Fin 512) (sp : Sop) (m : List Byte), s.cls p ≠ 0 → (s.portOf p).state ≠ .off →
    (s.phyOf p).bistCarrier = false → sp ≠ .other → (sp = .sopp → s.soppOn p = true) → (s.phyOf p).rx ≠ none →
    s.portUp p = true →
    Completes (.pdMessageRx p sp (crc32 m) m) s fun t =>
      (t.phyOf p).rx = (s.phyOf p).rx ∧ (t.phyOf p).ack = (s.phyOf p).ack ∧
      t.flag (R.PRT_PDEVT p) F.PRT_PDEVT_RX_BUSY = true) ∧
  (∀ (s : State) (p : Fin 512) (sp : Sop) (crc : Word) (m : List Byte), crc ≠ crc32 m →
    Completes (.pdMessageRx p sp crc m) s fun t =>
      (t.phyOf p).rx = (s.phyOf p).rx ∧ (t.phyOf p).ack = (s.phyOf p).ack ∧ (t.phyOf p).rxId sp = (s.phyOf p).rxId sp ∧
      (t.phyOf p).rev = (s.phyOf p).rev) ∧
  (∀ (s : State) (p : Fin 512) (b : TxBuf), (s.phyOf p).tx = some b → b.begun = false → b.waitNg = false →
    (s.phyOf p).hrPend = false → (s.phyOf p).hrSig = false → (s.phyOf p).bistCarrier = false →
    Completes (.txStart p) s fun t =>
      t.phyOf p = { s.phyOf p with
        tx := some { b with begun := true, tries := b.tries + 1, start := s.clock }
        wire := fillHeader (s.phyOf p).rev ((s.phyOf p).txId b.sop) b.sop b.bytes } ∧ Only [.phy] s t) ∧
  (∀ (s : State) (p : Fin 512) (b : TxBuf) (i : Nat), (s.phyOf p).tx = some b → b.tries ≠ 0 → b.origin = .chain i →
    (s.phyOf p).txId b.sop < 8 → (s.hubOf p).answers = [] → (s.hubOf p).txq = [] → s.portUp p = true →
    s.chanUp (p.val / 128) = true → i < 256 →
    Completes (.goodcrcRx p b.sop (BitVec.ofNat 3 ((s.phyOf p).txId b.sop))) s fun t =>
      (t.phyOf p).tx = none ∧ (t.phyOf p).txId b.sop = ((s.phyOf p).txId b.sop + 1) % 8 ∧
      t.leAt (0x20 + p.val / 128) (panOff i + 8) 4 = s.tb.usec.toNat % 2 ^ 32 ∧
      (t.chanOf (p.val / 128)).evq = (s.chanOf (p.val / 128)).evq ++
        [{ kind := .txDone, ctx := (s.hubOf p).ctxId, port := p.val % 128, sop := b.sop, info := 0, pan := i, noPan := false }]) ∧
  (∀ (s : State) (p : Fin 512) (b : TxBuf) (sp : Sop) (id : BitVec 3), (s.phyOf p).tx = some b →
    (b.tries = 0 ∨ b.sop ≠ sp ∨ (s.phyOf p).txId sp ≠ id.toNat) →
    Completes (.goodcrcRx p sp id) s fun t => t = s) ∧
  (∀ (s : State) (p : Fin 512) (b : TxBuf), (s.phyOf p).tx = some b → b.begun = true → b.start + 900 ≤ s.clock → b.tries < 3 →
    Completes (.txRetry p) s fun t =>
      t.phyOf p = { s.phyOf p with tx := some { b with begun := false } } ∧ Only [.phy] s t) ∧
  (∀ (s : State) (p : Fin 512) (b : TxBuf) (i : Nat), (s.phyOf p).tx = some b → b.begun = true → b.start + 900 ≤ s.clock → 3 ≤ b.tries →
    b.origin = .chain i → (s.hubOf p).answers = [] → (s.hubOf p).txq = [] → s.portUp p = true →
    s.chanUp (p.val / 128) = true →
    Completes (.txRetry p) s fun t =>
      (t.phyOf p).tx = none ∧
      (t.chanOf (p.val / 128)).evq = (s.chanOf (p.val / 128)).evq ++
        [{ kind := .txFailed, ctx := (s.hubOf p).ctxId, port := p.val % 128, sop := s.chainSop (p.val / 128) i,
           info := 0, pan := i, noPan := false }]) ∧
  (∀ (s : State) (p : Fin 512), (s.phyOf p).sinkTx = true → (s.phyOf p).ngAt + 16000 ≤ s.clock →
    Completes (.sinktxExpire p) s fun t =>
      t.phyOf p = { s.phyOf p with ngDone := true, tx := (s.phyOf p).tx.map fun b => { b with waitNg := false } } ∧ Only [.phy] s t) ∧
  (∀ (s : State) (p : Fin 512), s.cls p ≠ 0 → (s.portOf p).state ≠ .off →
    Completes (.hardResetRx p) s fun t =>
      (t.phyOf p).tx = none ∧ (t.phyOf p).rx = none ∧ (t.phyOf p).txIdSop = 0 ∧ (t.phyOf p).rxIdSop = none ∧
      (t.phyOf p).kaRun = false ∧ (t.phyOf p).hrPend = false ∧ (t.phyOf p).rev = (s.phyOf p).rev ∧
      (t.portOf p).vconn = false ∧ (t.portOf p).entered = false ∧ (t.portOf p).state = (s.portOf p).state ∧
      ((s.dieOf (p.val / 64)).hold = true → (t.phyOf p).holdHr = true ∧ (t.phyOf p).holdHrAt = s.clock) ∧
      (s.portUp p = true → t.flag (R.PRT_PDEVT p) F.PRT_PDEVT_HR_RX = true) ∧
      (s.portUp p = true → s.chanUp (p.val / 128) = true → (s.dieOf (p.val / 64)).hold = false →
        (t.hubOf p).psHardReset = true ∧ (t.hubOf p).psAt = s.clock)) ∧
  (∀ (s : State) (p : Fin 512), s.chanUp (p.val / 128) = true →
    Completes (.pdHardReset p) s fun t =>
      (s.portUp p = true → t.phyOf p = { s.phyOf p with hrPend := true, hrAt := s.clock } ∧ Only [.regs, .phy, .xat, .fresh] s t) ∧
      (s.portUp p = false → t.flag (R.CTX_GLB (p.val / 128)) F.CTX_GLB_CMDERR = true ∧ t.phy = s.phy)) ∧
  (∀ (s : State) (p : Fin 512), (s.phyOf p).hrPend = true →
    Completes (.hardResetSignallingStart p) s fun t =>
      (t.phyOf p).hrSig = true ∧ (t.phyOf p).hrPend = false ∧ (t.phyOf p).tx = none ∧ (t.phyOf p).rx = none ∧
      (t.portOf p).vconn = false) ∧
  (∀ (s : State) (p : Fin 512), (s.phyOf p).hrSig = true →
    Completes (.hardResetSent p) s fun t =>
      (t.phyOf p).hrSig = false ∧ (s.portUp p = true → t.flag (R.PRT_PDEVT p) F.PRT_PDEVT_HR_TX = true) ∧
      (s.portUp p = true → s.chanUp (p.val / 128) = true → (t.hubOf p).psHardReset = true)) ∧
  (∀ (s : State) (p : Fin 512), (s.phyOf p).hrPend = true → (s.phyOf p).hrAt + 3960 ≤ s.clock →
    Completes (.hardResetDeemedSent p) s fun t =>
      (t.phyOf p).hrPend = false ∧ (t.phyOf p).tx = none ∧ (t.portOf p).vconn = false ∧
      (s.portUp p = true → t.flag (R.PRT_PDEVT p) F.PRT_PDEVT_HR_TX = true) ∧
      (s.portUp p = true → s.chanUp (p.val / 128) = true → (t.hubOf p).psHardReset = true)) ∧
  (∀ (s : State) (p : Fin 512), s.chanUp (p.val / 128) = true → s.portUp p = true →
    Completes (.pdCableReset p) s fun t =>
      (s.soppOn p = true → (t.phyOf p).txIdSopp = 0 ∧ (t.phyOf p).rxIdSopp = none ∧
        ∀ i ∈ (t.hubOf p).txq, s.chainSop (p.val / 128) i ≠ .sopp) ∧
      (s.soppOn p = false → (s.hubOf p).noPanUnread = true → t.flag (R.CTX_GLB (p.val / 128)) F.CTX_GLB_CMDERR = true) ∧
      (s.soppOn p = false → (s.hubOf p).noPanUnread = false →
        (t.chanOf (p.val / 128)).evq = (s.chanOf (p.val / 128)).evq ++
          [{ kind := .txRefused, ctx := (s.hubOf p).ctxId, port := p.val % 128, sop := .sopp, info := 1, pan := 0xFF, noPan := true }])) ∧
  (∀ (s : State) (p : Fin 512), (s.phyOf p).bistCarrier = true → (s.phyOf p).bistAt + 29700 ≤ s.clock →
    Completes (.bistCarrierEnd p) s fun t =>
      (t.phyOf p).bistCarrier = false ∧
      ((s.phyOf p).tx ≠ none → t.phyOf p = { s.phyOf p with bistCarrier := false } ∧ Only [.phy] s t)) ∧
  (∀ (s : State) (p : Fin 512) (v : Word), s.chanUp (p.val / 128) = true →
    Completes (.keepaliveWrite p v) s fun t =>
      t.reg (R.PRT_PDKA p) = v &&& 0xC000FFFF ∧
      (s.portUp p = true → (t.phyOf p).kaStart = s.clock ∧ t.dreg (R.PRT_PDKA p) = v &&& 0xC000FFFF) ∧
      (s.portUp p = false → t.phy = s.phy ∧ t.dieRegs = s.dieRegs)) ∧
  (∀ (s : State) (p : Fin 512), (s.phyOf p).kaRun = true → (s.dieOf (p.val / 64)).hold = false → s.portUp p = true →
    s.past (s.phyOf p).kaStart (atLeast (s.kaUs p)) = true →
    Completes (.kaExp p) s fun t =>
      t.phyOf p = { s.phyOf p with kaRun := false } ∧ t.flag (R.PRT_PDEVT p) F.PRT_PDEVT_KA_EXP = true)

/-- The hub moves messages to pans, answers them, and sends and joins chunks. (05 Message pans, 05 Extended messages and
chunking, 05 Who handles each message) -/
def Obligations.HubCommandsComplete : Prop :=
  (∀ (s : State) (p : Fin 512) (m : RxBuf), (s.phyOf p).rx = some m → s.hubSees p = true →
    handlerOf (s.kaKind p) m.bytes = .firmware → msgExt m.bytes = false → (s.hubOf p).chunkRx = none →
    m.bytes.length ≤ 48 →
    Completes (.rxToPan p) s fun t =>
      ((s.freePans (p.val / 128)).length ≤ 16 → t.phy = s.phy ∧ t.mem = s.mem) ∧
      (16 < (s.freePans (p.val / 128)).length → (t.phyOf p).rx = none ∧
        ∃ i, i < 256 ∧ s.panOf (p.val / 128) i = .free ∧ t.panOf (p.val / 128) i = .firmware ∧
          t.bytesAt (0x20 + p.val / 128) (panOff i + 16) m.bytes.length = m.bytes ∧
          (t.chanOf (p.val / 128)).evq = (s.chanOf (p.val / 128)).evq ++
            [{ kind := .rx, ctx := (s.hubOf p).ctxId, port := p.val % 128, sop := m.sop, info := 0, pan := i, noPan := false }] ∧
          ∀ id off, off < 2 ^ 20 → ¬(id = 0x20 + p.val / 128 ∧ panOff i ≤ off ∧ off < panOff i + 64) →
            t.byteAt id off = s.byteAt id off)) ∧
  (∀ (s : State) (p : Fin 512) (m : RxBuf) (reply : List Byte), (s.phyOf p).rx = some m → s.hubSees p = true →
    ((handlerOf (s.kaKind p) m.bytes = .reject ∧ reply = ctlMsg 4) ∨
     (handlerOf (s.kaKind p) m.bytes = .notSup ∧ reply = refusal (s.phyOf p).rev) ∨
     (handlerOf (s.kaKind p) m.bytes = .kaAck ∧ reply = kaAckMsg)) →
    Completes (.hubAnswer p) s fun t =>
      (t.phyOf p).rx = none ∧
      ((s.phyOf p).tx ≠ none → (t.hubOf p).answers = (s.hubOf p).answers ++ [(m.sop, reply)]) ∧
      ((s.phyOf p).tx = none → (s.hubOf p).answers = [] →
        (t.phyOf p).tx = some { sop := m.sop, bytes := reply, origin := .answer, amsEnd := false, waitNg := false,
                                begun := false, tries := 0, start := 0 })) ∧
  (∀ (s : State) (p : Fin 512) (m : RxBuf) (c : ChunkTx), (s.phyOf p).rx = some m → s.hubSees p = true →
    handlerOf (s.kaKind p) m.bytes = .chunkReq → (s.hubOf p).chunkTx = some c → c.awaitReq = true →
    extNum m.bytes = c.num + 1 → (∀ k < 256 * 8, s.wordErr (0x20 + p.val / 128) (8 * k) = WordErr.init) →
    Completes (.chunkRequestRx p) s fun t =>
      (t.phyOf p).rx = none ∧ (t.hubOf p).chunkTx = some { c with num := c.num + 1, awaitReq := false } ∧
      (t.phyOf p).tx.map (·.origin) = some (.chunk c.pan (c.num + 1))) ∧
  (∀ (s : State) (p : Fin 512) (a : ChunkRx), s.hubSees p = true → (s.hubOf p).chunkRx = some a → a.asked = false →
    a.size ≤ 260 → 22 ≤ (s.freePans (p.val / 128)).length →
    Completes (.chunkRequestTx p) s fun t =>
      ∃ b, (t.hubOf p).chunkRx = some b ∧ b.asked = true ∧ b.data = a.data ∧ b.next = a.next ∧
        pansFor (4 + min a.size (26 * (a.next + 1))) ≤ b.pans.length) ∧
  (∀ (s : State) (p : Fin 512) (c : ChunkTx), s.hubSees p = true → (s.hubOf p).chunkTx = some c → c.awaitReq = true →
    c.since + 24000 ≤ s.clock → (s.hubOf p).txq = [] →
    Completes (.chunkSenderRequestTimeout p) s fun t =>
      (t.hubOf p).chunkTx = none ∧
      (t.chanOf (p.val / 128)).evq = (s.chanOf (p.val / 128)).evq ++
        [{ kind := .txIncomplete, ctx := (s.hubOf p).ctxId, port := p.val % 128, sop := s.chainSop (p.val / 128) c.pan,
           info := 0, pan := c.pan, noPan := false }]) ∧
  (∀ (s : State) (p : Fin 512) (a : ChunkRx), s.hubSees p = true → (s.hubOf p).chunkRx = some a → a.asked = true →
    a.since + 24000 ≤ s.clock →
    Completes (.chunkSenderResponseTimeout p) s fun t =>
      (t.hubOf p).chunkRx = none ∧
      ∃ i, (t.chanOf (p.val / 128)).evq = (s.chanOf (p.val / 128)).evq ++
        [{ kind := .chunkErr, ctx := (s.hubOf p).ctxId, port := p.val % 128, sop := a.sop, info := 0, pan := i, noPan := false }]) ∧
  (∀ (s : State) (c : Fin 4) (i : Fin 256), s.chanUp c = true →
    let p := 128 * c.val + s.leAt (0x20 + c.val) (panOff i + 4) 4 % 128
    let l := s.txChain c i
    let m := s.chainBytes c l (descLen (s.panDesc c i))
    Completes (.ctxTx c i) s fun t =>
      ((∃ j ∈ l, s.panOf c j ≠ .firmware) → t.flag (R.CTX_GLB c) F.CTX_GLB_CMDERR = true ∧ t.pan = s.pan) ∧
      ((∀ j ∈ l, s.panOf c j = .firmware) → s.txBad p (s.panDesc c i) l m = true →
        (t.chanOf c).evq = (s.chanOf c).evq ++
          [{ kind := .txRefused, ctx := (s.hubOf p).ctxId, port := p % 128, sop := s.chainSop c i, info := 0, pan := i, noPan := false }]) ∧
      ((∀ j ∈ l, s.panOf c j = .firmware) → s.txBad p (s.panDesc c i) l m = false →
        s.pacedMsg p (s.chainSop c i) m = false → (s.phyOf p).tx ≠ none →
        (t.hubOf p).txq = (s.hubOf p).txq ++ [i.val] ∧ ∀ j ∈ l, t.panOf c j = .tx i.val))

/-- Contexts are asked for, bound and released; their timers, pans and event queue are served. (05 Negotiation contexts,
05 Timers, 05 Message pans) -/
def Obligations.ContextCommandsComplete : Prop :=
  (∀ (s : State) (p : Fin 512), s.chanUp (p.val / 128) = true →
    tabGet 0 s.xat (Cross.ctx p).key ≠ s.clock + 1 →
    Completes (.pdAlloc p) s fun t =>
      ((s.waiting p = true ∨ (s.hubOf p).ctxId ≠ 0 ∨ (s.mirOf p).mayAlloc = false) →
        t.flag (R.CTX_GLB (p.val / 128)) F.CTX_GLB_CMDERR = true ∧ Only [.regs, .xat] s t) ∧
      (s.waiting p = false → (s.hubOf p).ctxId = 0 → (s.mirOf p).mayAlloc = true →
        (s.freeCtxs (p.val / 128) = [] → t.waiting p = true ∧ (t.hubOf p).waitAlloc = true) ∧
        (∀ n l, s.freeCtxs (p.val / 128) = n :: l →
          (t.hubOf p).ctxId = n ∧ (t.ctxOf (p.val / 128) n).state = .bound ∧
          (t.ctxOf (p.val / 128) n).port = p.val % 128 ∧ (t.ctxOf (p.val / 128) n).alloc = true ∧
          (t.ctxOf (p.val / 128) n).gen = (s.ctxOf (p.val / 128) n).gen + 1 ∧ t.waiting p = false))) ∧
  (∀ (s : State) (p : Fin 512), s.chanUp (p.val / 128) = true →
    Completes (.pdCancel p) s fun t =>
      t.waiting p = false ∧ (s.waiting p = false → t.flag (R.CTX_GLB (p.val / 128)) F.CTX_GLB_CMDERR = true) ∧
      Only [.regs] s t) ∧
  (∀ (s : State) (c : Fin 4) (n p : Nat) (l : List Nat), s.chanUp c = true → s.freeCtxs c = n :: l →
    s.bestPort (s.waiters c) = some p →
    Completes (.contextBind c) s fun t =>
      (t.hubOf p).ctxId = n ∧ (t.ctxOf c n).state = .bound ∧ (t.ctxOf c n).port = p % 128 ∧
      (t.chanOf c).evq = (s.chanOf c).evq ++
        [{ kind := .bound, ctx := n, port := p % 128, sop := .sop, info := (s.hubOf p).waitAlloc.toNat, pan := 0, noPan := false }]) ∧
  (∀ (s : State) (c : Fin 4) (n : Fin 64) (gen : BitVec 8), s.chanUp c = true →
    Completes (.ctxRelease c n gen) s fun t =>
      ((n.val = 0 ∨ (s.ctxOf c n).state = .free ∨ (s.ctxOf c n).gen ≠ gen ∨ (s.ctxOf c n).boundUnread = true ∨
        (s.ctxOf c n).closingUnread = true) → t.flag (R.CTX_GLB c) F.CTX_GLB_CMDERR = true ∧ Only [.regs] s t) ∧
      (n.val ≠ 0 → (s.ctxOf c n).state ≠ .free → (s.ctxOf c n).gen = gen → (s.ctxOf c n).boundUnread = false →
        (s.ctxOf c n).closingUnread = false → (∀ k : Fin 128, s.waiting (128 * c.val + k.val) = false) →
        (t.ctxOf c n).state = .free ∧ (t.hubOf (128 * c.val + (s.ctxOf c n).port)).ctxId = 0)) ∧
  (∀ (s : State) (c : Fin 4) (n : Fin 64) (b : Bool) (v : Word), s.chanUp c = true → (s.ctxOf c n).state = .bound →
    Completes (.ctxTimerWrite c n b v) s fun t =>
      ((t.ctxOf c n).timer b).count = v.truncate 16 ∧ ((t.ctxOf c n).timer b).start = s.clock ∧
      (v.getLsbD 30 = true → ((t.ctxOf c n).timer b).tovr = false) ∧
      (t.ctxOf c n).timer (!b) = (s.ctxOf c n).timer (!b) ∧ Only [.ctx] s t) ∧
  (∀ (s : State) (c : Fin 4) (n : Fin 64) (b : Bool), s.chanUp c = true → (s.ctxOf c n).state = .bound →
    ((s.ctxOf c n).timer b).count ≠ 0 →
    ((s.ctxOf c n).timer b).start + 100 * ((s.ctxOf c n).timer b).count.toNat ≤ s.clock →
    Completes (.ctxTimerExpire c n b) s fun t =>
      ((t.ctxOf c n).timer b).count = 0 ∧ ((t.ctxOf c n).timer b).pend = true ∧
      (((s.ctxOf c n).timer b).pend = true → ((t.ctxOf c n).timer b).tovr = true ∧ t.chan = s.chan) ∧
      (((s.ctxOf c n).timer b).pend = false →
        (t.chanOf c).evq = (s.chanOf c).evq ++
          [{ kind := if b then .timerB else .timerA, ctx := n, port := (s.ctxOf c n).port, sop := .sop, info := 0,
             pan := 0, noPan := false }])) ∧
  (∀ (s : State) (c : Fin 4), s.chanUp c = true →
    Completes (.ctxPangetRead c) s fun t =>
      (s.freePans c = [] → t.bus = 0 ∧ t.pan = s.pan) ∧
      (s.freePans c ≠ [] → ∃ i, i < 256 ∧ s.panOf c i = .free ∧ t.panOf c i = .firmware ∧ t.bus.toNat = 2 ^ 31 + i)) ∧
  (∀ (s : State) (c : Fin 4) (i : Fin 256), s.chanUp c = true →
    Completes (.ctxPanput c i) s fun t =>
      (s.panOf c i = .firmware → t.panOf c i = .free ∧ Only [.pan] s t) ∧
      (s.panOf c i ≠ .firmware → t.flag (R.CTX_GLB c) F.CTX_GLB_CMDERR = true ∧ Only [.regs] s t)) ∧
  (∀ (s : State) (c : Fin 4), s.chanUp c = true →
    Completes (.ctxEvqRead c) s fun t =>
      ((s.chanOf c).evq = [] → t.bus = 0) ∧
      (∀ e l, (s.chanOf c).evq = e :: l → t.bus = e.word ∧ (t.chanOf c).evq = l ∧
        (e.noPan = false → e.kind = .txDone ∨ e.kind = .txFailed ∨ e.kind = .txDiscarded ∨ e.kind = .txIncomplete →
          ∀ j : Fin 256, s.panOf c j = .tx e.pan → t.panOf c j = .firmware)))

/-- Pushes, aborts, results and HR_OFF of the operation queue complete. (06 Operations, 06 Soft and hard reset, 06
Registers) -/
def Obligations.OperationQueueCompletes : Prop :=
  (∀ (s : State) (c : Fin 4) (k : Fin 128) (a0 a1 : Word) (i : Instr) (kind : OpKind),
    ((i = .opTurnOn c k a0 a1 ∧ kind = .turnOn) ∨ (i = .opContract c k a0 a1 ∧ kind = .contract) ∨
     (i = .opStep c k a0 a1 ∧ kind = .step) ∨ (i = .opVconnOn c k a0 a1 ∧ kind = .vconnOn) ∨
     (i = .opVconnOff c k a0 a1 ∧ kind = .vconnOff)) →
    let p := 128 * c.val + k.val
    s.chanUp c = true → s.freeOps c ≠ [] →
    (F.OPQ_ARG1_SLOT.get a1 ≤ 31 ∨ F.OPQ_ARG1_SLOT.get a1 = 63) → F.OPQ_ARG1_PH.get a1 ≠ 3 → s.bound p = true →
    s.badState p kind = false → s.chLeg p ≠ .none → 5000 * s.startCur p ≤ s.chCeil p * 100000 →
    F.OPQ_ARG0_ICON.get a0 ≤ 5000 → (F.OPQ_ARG0_VTGT.get a0 = 0 ∨ 3300 ≤ F.OPQ_ARG0_VTGT.get a0) →
    F.OPQ_ARG0_VTGT.get a0 ≤ 48000 → (s.hubOf p).hold = false → s.portUp p = true → s.tclk = true →
    Completes i s fun t =>
      ∃ (e : Fin 64) (o : OpEntry), s.opOf c e = none ∧ t.opOf c e = some o ∧ (t.reg (R.OPQ_RESULT c)).toNat = e.val ∧
        o.st = .queued ∧ o.kind = kind ∧ o.port = k.val ∧ o.slot = F.OPQ_ARG1_SLOT.get a1 ∧
        o.ph = F.OPQ_ARG1_PH.get a1 ∧
        (kind = .step → o.vtgt = F.OPQ_ARG0_VTGT.get a0 ∧ o.icon = F.OPQ_ARG0_ICON.get a0 ∧
          o.last = (F.OPQ_ARG1_LAST.get a1 != 0)) ∧
        (kind = .contract → o.icon = F.OPQ_ARG0_ICON.get a0) ∧
        ∀ j : Fin 64, j ≠ e → t.opOf c j = s.opOf c j) ∧
  (∀ (s : State) (c : Fin 4) (k : Fin 128) (a0 a1 : Word) (i : Instr) (kind : OpKind),
    ((i = .opTurnOn c k a0 a1 ∧ kind = .turnOn) ∨ (i = .opContract c k a0 a1 ∧ kind = .contract) ∨
     (i = .opStep c k a0 a1 ∧ kind = .step) ∨ (i = .opVconnOn c k a0 a1 ∧ kind = .vconnOn)) →
    s.chanUp c = true →
    Completes i s fun t =>
      (s.freeOps c = [] → t.fld (R.OPQ_RESULT c) F.OPQ_RESULT_CODE = 1 ∧ t.opq = s.opq) ∧
      (s.freeOps c ≠ [] → 32 ≤ F.OPQ_ARG1_SLOT.get a1 → F.OPQ_ARG1_SLOT.get a1 ≤ 62 →
        t.fld (R.OPQ_RESULT c) F.OPQ_RESULT_CODE = 3 ∧ t.opq = s.opq) ∧
      (s.freeOps c ≠ [] → F.OPQ_ARG1_PH.get a1 = 3 →
        t.fld (R.OPQ_RESULT c) F.OPQ_RESULT_CODE = 3 ∧ t.opq = s.opq) ∧
      (s.freeOps c ≠ [] → F.OPQ_ARG1_SLOT.get a1 ≤ 31 → F.OPQ_ARG1_PH.get a1 ≠ 3 →
        s.bound (128 * c.val + k.val) = false → (kind = .step → F.OPQ_ARG0_VTGT.get a0 ≠ 0) →
        t.fld (R.OPQ_RESULT c) F.OPQ_RESULT_CODE = 4 ∧ t.opq = s.opq)) ∧
  (∀ (s : State) (c : Fin 4) (k : Fin 128), s.chanUp c = true → s.freeOps c ≠ [] →
    s.badState (128 * c.val + k.val) .hrOff = false → s.portUp (128 * c.val + k.val) = true → s.tclk = true →
    s.hrMarks c = [] → s.xferMarks c = [] →
    Completes (.opHrOff c k) s fun t =>
      ∃ (e : Fin 64) (o : OpEntry), s.opOf c e = none ∧ t.opOf c e = some o ∧ (t.reg (R.OPQ_RESULT c)).toNat = e.val ∧
        o.st = .queued ∧ o.kind = .hrOff ∧ o.port = k.val ∧ o.slot = 63) ∧
  (∀ (s : State) (c : Fin 4), s.chanUp c = true →
    Completes (.opqCqRead c) s fun t =>
      ((s.chanOf c).cq = [] → t.bus = 0) ∧
      (∀ e l, (s.chanOf c).cq = e :: l → t.bus = e.word ∧ (t.chanOf c).cq = l) ∧ Only [.chan, .bus] s t) ∧
  (∀ (s : State) (c : Fin 4) (k : Fin 128), s.chanUp c = true → s.hrMarks c = [] → s.xferMarks c = [] →
    Completes (.opqAbort c k) s fun t =>
      ∀ (e : Fin 64) (o : OpEntry), s.opOf c e = some o → o.fin = false →
        (o.st = .queued → o.port = k.val → o.order < (s.chanOf c).opOrder →
          t.opOf c e = none ∨ t.opOf c e = some { o with fin := true }) ∧
        ((o.st ≠ .queued ∨ o.port ≠ k.val) → t.opOf c e = some o)) ∧
  (∀ (s : State) (c : Fin 4) (r : CqEntry) (l : List CqEntry), s.chanUp c = true → s.hrMarks c = [] →
    s.xferMarks c = [] → (s.chanOf c).waitRes = r :: l → (s.chanOf c).cq.length < 256 →
    Completes (.cqResultPost c) s fun t =>
      (t.chanOf c).cq = (s.chanOf c).cq ++ [r] ∧ (t.chanOf c).waitRes = l ∧ Only [.chan, .opq] s t) ∧
  (∀ (s : State) (p : Fin 512), s.chanUp (p.val / 128) = true → (s.hubOf p).psHardReset = true →
    (s.hubOf p).psAt + 25000 ≤ s.clock →
    Completes (.hrOffCreate p) s fun t =>
      (t.hubOf p).psHardReset = false ∧
      (s.freeOps (p.val / 128) = [] → (t.hubOf p).hrOffMark = true) ∧
      (s.freeOps (p.val / 128) ≠ [] → ∃ (e : Fin 64) (o : OpEntry), s.opOf (p.val / 128) e = none ∧
        t.opOf (p.val / 128) e = some o ∧ o.kind = .hrOff ∧ o.port = p.val % 128 ∧ o.st = .queued))

/-- A contract group write, an expired shed deadline and the end of a hold complete. (06 Shedding, 08 Ceilings, pacing and
the deadline, 10 The course's address map) -/
def Obligations.ContractsAndShedding : Prop :=
  (∀ (s : State) (p : Fin 512) (w7 w8 w10 : Word), s.chanUp (p.val / 128) = true →
    Completes (.contractGroupWrite p w7 w8 w10) s fun t =>
      let power := (w7.toNat / 65536 * (w7.toNat % 65536) + 99999) / 100000
      let ceil := F.PLC_ENT_CEIL.get (s.entOf p)
      let stop := s.ceilSince p + BitVec.ofNat 64 (s.deadlineUs (p.val / 128))
      t.recOf p 7 = w7 ∧ t.recOf p 8 = w8 &&& 0xF000FFFF ∧ t.recOf p 10 = w10 ∧ t.recOf p 9 = s.recOf p 9 ∧
      t.recOf p 13 = s.recOf p 13 ∧
      ((s.mirOf p).powered = true → power ≤ ceil → (t.hubOf p).deadline = none) ∧
      ((s.mirOf p).powered = true → ceil < power → s.ownPrio p < 7 → (s.hubOf p).deadline = none →
        s.tb.usec.toNat ≤ stop.toNat → (t.hubOf p).deadline = some stop)) ∧
  (∀ (s : State) (p : Fin 512), s.deadlineDue p = true → s.chanUp (p.val / 128) = true →
    Completes (.shedDeadlineExpire p) s fun t =>
      (s.portUp p = false → (t.hubOf p).dueHeld = true ∧ Only [.hub] s t) ∧
      (s.portUp p = true → (t.hubOf p).deadline = none ∧ (t.hubOf p).hold = true ∧
        (t.hubOf p).holdStart = s.tb.usec ∧ (t.portOf p).disc = true ∧
        (t.portOf p).state = (s.portOf p).state ∧
        t.fld (R.CHN_SHEDSTAT (p.val / 128)) F.CHN_SHEDSTAT_DISC =
          min (s.fld (R.CHN_SHEDSTAT (p.val / 128)) F.CHN_SHEDSTAT_DISC + 1) (2 ^ F.CHN_SHEDSTAT_DISC.w - 1))) ∧
  (∀ (s : State) (p : Fin 512), s.shedHoldDue p = true →
    Completes (.shedHoldEnd p) s fun t => t.hubOf p = { s.hubOf p with hold := false } ∧ Only [.hub] s t) ∧
  (∀ (s : State) (p : Fin 512), s.deadlineDue p = false → Completes (.shedDeadlineExpire p) s fun t => t = s) ∧
  (∀ (s : State) (p : Fin 512), s.shedHoldDue p = false → Completes (.shedHoldEnd p) s fun t => t = s)

/-- Firmware's rows on requests, capability repeats, response waits, transitions and recovery complete. (06 Requests, 06
Starting a port, 06 Graduated transitions, 06 Soft and hard reset) -/
def Obligations.FirmwareRequestsAndWaits : Prop :=
  (∀ (s : State) (p : Fin 512) (late : Bool) (e : EvEntry), Turn s p .request e →
    let m := s.rxBytes (p.val / 128) e.pan
    let pos := msgObj m 0 / 2 ^ 28
    let o := basisObj (s.fwOf p).basis pos
    let a := askOf o (msgObj m 0)
    let fits : Prop := a.ok = true ∧ ((isData m 9 = false ∧ pos ≤ 7) ∨
      (isData m 9 = true ∧ (8 ≤ pos ∨ (s.fwOf p).epr = true) ∧ msgObj m 1 = o))
    Completes (.requestEvaluation p late) s fun t =>
      (t.fwOf p).useA = .none ∧ (t.fwOf p).useB = false ∧
      (o = 0 → (t.fwOf p).tran = (s.fwOf p).tran ∧ t.prec = s.prec) ∧
      (o ≠ 0 → (t.recOf p 8).toNat % 65536 = min (powerOf a.v a.i) 65535 ∧ t.recOf p 7 = s.recOf p 7) ∧
      (o ≠ 0 → ¬fits → (t.fwOf p).tran = (s.fwOf p).tran) ∧
      (o ≠ 0 → fits → s.chCeil p * 100000 < a.v * a.i → (t.fwOf p).tran = (s.fwOf p).tran) ∧
      (o ≠ 0 → fits → a.v * a.i ≤ s.chCeil p * 100000 → s.bound p = true →
        ∃ tr, (t.fwOf p).tran = some tr ∧ tr.v1 = a.v ∧ tr.i1 = a.i ∧ tr.pos = pos ∧ tr.k = 0 ∧ tr.opened = false ∧
          tr.noOp = s.sameContract p a.v a.i pos) ∧
      (o ≠ 0 → fits → a.v * a.i ≤ s.chCeil p * 100000 → s.bound p = false → s.sameContract p a.v a.i pos = false →
        (t.fwOf p).tran = (s.fwOf p).tran ∧ (t.fwOf p).want = .move ∧
        ∃ tr, (t.fwOf p).req = some tr ∧ tr.v1 = a.v ∧ tr.i1 = a.i ∧ tr.pos = pos)) ∧
  (∀ (s : State) (p : Fin 512), Caught s (p.val / 128) → (s.chanOf (p.val / 128)).evq = [] → (s.fwOf p).req.isSome = true →
    (s.fwOf p).want = .move → s.bound p = false → (s.fwOf p).wantAt + 5000 ≤ s.clock →
    Completes (.requestEvaluation p true) s fun t =>
      (t.fwOf p).req = none ∧ (t.fwOf p).want = .none ∧ t.waiting p = false ∧ t.prec = s.prec) ∧
  (∀ (s : State) (p : Fin 512) (e : EvEntry), Turn s p .repeat_ e → (s.fwOf p).dead = false →
    Completes (.sourceCapRepeat p) s fun t =>
      (t.fwOf p).adv = toWords (s.capsObjs p) ∧ (t.fwOf p).caps = (s.fwOf p).caps + 1 ∧ (t.fwOf p).useA = .none ∧
      (t.fwOf p).owe = false) ∧
  (∀ (s : State) (p : Fin 512), Caught s (p.val / 128) → (s.chanOf (p.val / 128)).evq = [] → s.bound p = false →
    (s.fwOf p).useA = .caps → s.waitOver p = true → (s.fwOf p).dead = false →
    Completes (.sourceCapRepeat p) s fun t =>
      (t.fwOf p).adv = toWords (s.capsObjs p) ∧ (t.fwOf p).caps = (s.fwOf p).caps + 1 ∧ (t.fwOf p).useA = .none) ∧
  (∀ (s : State) (p : Fin 512) (e : EvEntry), Turn s p .sender e → e.kind = .timerA →
    Completes (.senderResponseTimeout p) s fun t =>
      (((s.fwOf p).useA = .soft ∨ (s.fwOf p).hrCount < 2) → s.portUp p = true → (t.phyOf p).hrPend = true) ∧
      ((s.fwOf p).useA = .sender → 2 ≤ (s.fwOf p).hrCount →
        (t.fwOf p).useA = .caps ∧ t.phy = s.phy ∧
        (s.bound p = true →
          ((t.ctxOf (p.val / 128) (s.hubOf p).ctxId).timer false).count = 1500 ∧
          ((t.ctxOf (p.val / 128) (s.hubOf p).ctxId).timer false).start = s.clock))) ∧
  (∀ (s : State) (p : Fin 512) (e : EvEntry), Turn s p .noResponse e → e.kind = .timerB →
    Completes (.noResponseTimeout p) s fun t =>
      (t.fwOf p).useB = false ∧
      ((s.fwOf p).hrCount < 2 → s.portUp p = true → (t.phyOf p).hrPend = true) ∧
      (2 ≤ (s.fwOf p).hrCount → (t.fwOf p).dead = true ∧ (t.fwOf p).basis = [] ∧ t.phy = s.phy)) ∧
  (∀ (s : State) (p : Fin 512) (e : EvEntry) (tr : Tran), Turn s p .transition e → e.kind = .timerA →
    (s.fwOf p).tran = some tr →
    Completes (.srcTransitionExpire p) s fun t =>
      (t.fwOf p).useA = .none ∧
      ((s.fwOf p).useA = .same → (t.fwOf p).tran = some { tr with entry := none } ∧ t.opq = s.opq) ∧
      (let k := tr.k + 1
       (s.fwOf p).useA = .trans → tr.oneOp = false → s.freeOps (p.val / 128) ≠ [] → tr.slot ≤ 31 →
        s.startPhase p ≠ 3 → s.bound p = true → s.badState p .step = false → s.chLeg p ≠ .none →
        3300 ≤ tr.vtgt k → tr.vtgt k ≤ 48000 → tr.icon k ≤ 5000 → tr.weight k ≤ 65535 →
        s.portUp p = true → s.tclk = true →
        ∃ (j : Fin 64) (o : OpEntry) (u : Tran), s.opOf (p.val / 128) j = none ∧ t.opOf (p.val / 128) j = some o ∧
          o.kind = .step ∧ o.port = p.val % 128 ∧ o.slot = tr.slot ∧ o.vtgt = tr.vtgt k ∧ o.icon = tr.icon k ∧
          o.last = decide (k = tr.n) ∧ (t.fwOf p).tran = some u ∧ u.k = k ∧ u.entry = some j.val)) ∧
  (∀ (s : State) (p : Fin 512) (e : CqEntry) (tr : Tran), Caught s (p.val / 128) →
    (s.chanOf (p.val / 128)).cq.head? = some e → e.port = p.val % 128 → s.tranStep (p.val / 128) e = true →
    (s.fwOf p).tran = some tr →
    Completes (.graduationStepPush p) s fun t =>
      (t.chanOf (p.val / 128)).cq = (s.chanOf (p.val / 128)).cq.tail ∧
      (e.result = .done → tr.k = tr.n → (t.fwOf p).tran = some { tr with entry := none } ∧ t.opq = s.opq) ∧
      (e.result = .stepTo → s.portUp p = true → (t.phyOf p).hrPend = true) ∧
      ((e.result = .aborted ∨ e.result = .cancelled ∨ e.result = .superseded) →
        (t.fwOf p).tran = none ∧ t.phy = s.phy ∧ t.opq = s.opq)) ∧
  (∀ (s : State) (p : Fin 512) (e : EvEntry), Turn s p .recovery e → e.kind = .timerA →
    Completes (.hardResetRecovery p) s fun t =>
      (t.fwOf p).recov = false ∧ (t.fwOf p).hrOff = false ∧ (t.fwOf p).useA = .none ∧ t.phy = s.phy ∧ t.prec = s.prec)

/-- Firmware's answers, EPR mode, VCONN swap and re-advertisement complete. (06 Messages firmware answers, 06 PPS and EPR,
06 VCONN swap, 06 Power objects, 08 Ceilings, pacing and the deadline) -/
def Obligations.FirmwareMessagesAndOffers : Prop :=
  (∀ (s : State) (p : Fin 512) (e : EvEntry), Turn s p .answer e →
    let m := s.rxBytes (p.val / 128) e.pan
    Completes (.firmwareMessageAnswer p) s fun t =>
      t = sayDropped p (answerMsg p m (takeHead (p.val / 128) e s)) ∧
      (isCtl m 7 = true → (s.fwOf p).dead = false →
        (t.fwOf p).adv = toWords (s.capsObjs p) ∧ (t.fwOf p).caps = (s.fwOf p).caps + 1) ∧
      (isCtl m 13 = true →
        (t.fwOf p).tran = none ∧ (t.fwOf p).req = none ∧ (t.fwOf p).useA = .none ∧ (t.fwOf p).disc = .idle ∧
        (t.fwOf p).test = false) ∧
      (msgExt m = true → msgType m ≠ 6 → msgType m ≠ 16 →
        t.recOf p 10 = BitVec.ofNat 32 (min 255 ((s.recOf p 10).toNat % 256 + 1)) ∧ t.recOf p 7 = s.recOf p 7) ∧
      (msgExt m = false → msgNdo m ≠ 0 → isStructuredVdm m = false →
        t.recOf p 10 = BitVec.ofNat 32 (min 255 ((s.recOf p 10).toNat % 256 + 1)) ∧ t.recOf p 7 = s.recOf p 7)) ∧
  (∀ (s : State) (p : Fin 512) (e : EvEntry), Turn s p .epr e →
    let m := s.rxBytes (p.val / 128) e.pan
    let act := msgObj m 0 / 2 ^ 24
    Completes (.eprMode p) s fun t =>
      t = sayDropped p (eprMode p m (takeHead (p.val / 128) e s)) ∧
      (act = 1 ∨ s.cls p = 2 → (t.fwOf p).epr = (s.fwOf p).epr ∧ (t.fwOf p).adv = (s.fwOf p).adv) ∧
      (s.cls p ≠ 2 → act = 5 → (t.fwOf p).epr = false ∧
        ((s.fwOf p).cpps = false → t.reg (R.PRT_PDKA p) = 0) ∧
        ((s.fwOf p).cpps = true → t.reg (R.PRT_PDKA p) = BitVec.ofNat 32 (2 ^ 30 + 14000))) ∧
      (s.cls p ≠ 2 → act ≠ 1 → act ≠ 5 →
        t.recOf p 10 = BitVec.ofNat 32 (min 255 ((s.recOf p 10).toNat % 256 + 1)) ∧ t.fw = s.fw)) ∧
  (∀ (s : State) (p : Fin 512) (late : Bool) (e : EvEntry), Turn s p .swap e → e.kind = .rx →
    let m := s.rxBytes (p.val / 128) e.pan
    Completes (.vconnSwap p late) s fun t =>
      (isCtl m 11 = true → s.cls p = 2 →
        (t.fwOf p).vcSink = (s.fwOf p).vcSink ∧ (t.fwOf p).vcAwait = (s.fwOf p).vcAwait ∧
        (t.fwOf p).want = (s.fwOf p).want ∧ t.opq = s.opq) ∧
      (isCtl m 11 = true → s.cls p = 1 → s.bound p = true → (s.fwOf p).vcSink = false →
        (t.fwOf p).vcAwait = true ∧ (t.fwOf p).useA = .vconn ∧ (t.fwOf p).vcSink = false ∧ t.opq = s.opq) ∧
      (isCtl m 11 = true → s.cls p = 1 → s.bound p = false → (s.fwOf p).vcSink = false →
        (t.fwOf p).want = .swap ∧ (t.fwOf p).swapCtx = true ∧ (t.fwOf p).vcAwait = (s.fwOf p).vcAwait) ∧
      (isCtl m 6 = true →
        (t.fwOf p).vcAwait = false ∧ (t.fwOf p).vcSink = true ∧ (t.fwOf p).useA = .none)) ∧
  (∀ (s : State) (c : Fin 4) (p : Fin 512), p.val / 128 = c.val → Caught s c → s.offerChanged p = true →
    s.entered p = false → (s.fwOf p).calm = true → (s.fwOf p).dead = false → s.bound p = true →
    (∀ q, q / 128 = c.val → q ≠ p.val → s.offerChanged q = false) →
    (∀ q, q / 128 = c.val → (s.fwOf q).onWait = false) →
    Completes (.reAdvertise c) s fun t =>
      (t.fwOf p).adv = toWords (s.capsObjs p) ∧ (t.fwOf p).caps = (s.fwOf p).caps + 1 ∧
      ∀ q, q ≠ p.val → t.fwOf q = s.fwOf q)

/-- Discovery, mode entry and the heavy contract's rows complete. (07 Discovery, 07 Heavy commands and objects, 07 Test,
exit and recovery) -/
def Obligations.HeavyFirmwareRows : Prop :=
  (∀ (s : State) (p : Fin 512) (e : EvEntry), Turn s p .discovery e → s.cls p = 2 → (s.fwOf p).disc = .identity →
    let h := msgObj (s.rxBytes (p.val / 128) e.pan) 0
    Completes (.discovery p) s fun t =>
      (e.kind = .rx → e.sop = .sop → vdmCt h = 1 →
        (t.fwOf p).disc = .svids ∧ (t.fwOf p).discTry = 0 ∧ (t.fwOf p).useA = .none) ∧
      (e.kind = .rx → e.sop = .sop → vdmCt h = 2 → (s.fwOf p).test = false →
        (t.fwOf p).disc = .idle ∧ (t.fwOf p).noDisc = true ∧ (t.hubOf p).hstate = 5) ∧
      (e.kind = .timerA → (s.fwOf p).useA = .disc → (s.fwOf p).discTry + 1 < s.dtry p →
        (t.fwOf p).discTry = (s.fwOf p).discTry + 1 ∧ (t.fwOf p).disc = .identity) ∧
      (e.kind = .timerA → (s.fwOf p).useA = .disc → s.dtry p ≤ (s.fwOf p).discTry + 1 → (s.fwOf p).test = false →
        (t.fwOf p).disc = .idle ∧ (t.fwOf p).noDisc = true ∧ (t.hubOf p).hstate = 5)) ∧
  (∀ (s : State) (p : Fin 512), Caught s (p.val / 128) → (s.chanOf (p.val / 128)).evq = [] → s.cls p = 2 →
    (s.fwOf p).disc = .due → s.bound p = true → (s.fwOf p).test = false →
    Completes (.discovery p) s fun t =>
      (t.fwOf p).disc = .identity ∧ (t.fwOf p).discTry = 0 ∧ (t.hubOf p).hstate = 2) ∧
  (∀ (s : State) (p : Fin 512) (e : EvEntry), Turn s p .enterAck e →
    Completes (.enterModeAck p) s fun t =>
      (t.fwOf p).disc = .idle ∧ (t.hubOf p).hstate = 3 ∧ (t.mirOf p).entered = true ∧
      (t.mirOf p).mux = (if (s.fwOf p).vdo / 2 ^ 20 % 2 = 1 then 2 else 0) ∧
      (t.mirOf p).pvmax = (s.fwOf p).vdo / 1024 % 1024 ∧ (t.mirOf p).pimax = (s.fwOf p).vdo % 1024) ∧
  (∀ (s : State) (p : Fin 512) (e : EvEntry), Turn s p .caps e → e.kind = .timerA →
    Completes (.heavyCaps p) s fun t =>
      ((s.fwOf p).capsTry < s.dtry p → (s.heavyObjs p).all (· = 0) = false →
        (t.fwOf p).capsTry = (s.fwOf p).capsTry + 1 ∧ (t.fwOf p).hadv = toWords (s.heavyObjs p) ∧
        (t.fwOf p).useA = .none) ∧
      (s.dtry p ≤ (s.fwOf p).capsTry → (t.fwOf p).useA = .none ∧ t.prec = s.prec)) ∧
  (∀ (s : State) (p : Fin 512) (e : EvEntry), Turn s p .heavyRequest e →
    let x := msgObj (s.rxBytes (p.val / 128) e.pan) 1
    let pos := x / 2 ^ 28
    let v := x / 2 ^ 16 % 1024
    let i := x % 1024
    let o := if 4 < pos then 0 else basisObj (s.fwOf p).hbasis pos
    Completes (.heavyRequest p) s fun t =>
      (t.recOf p 8).toNat % 65536 = min (powerOf (v * 100) (i * 50)) 65535 ∧ t.recOf p 7 = s.recOf p 7 ∧
      (heavyAllows o v i = false → (t.fwOf p).tran = (s.fwOf p).tran) ∧
      (heavyAllows o v i = true → s.chCeil p * 100000 < v * 100 * (i * 50) → (t.fwOf p).tran = (s.fwOf p).tran) ∧
      (heavyAllows o v i = true → v * 100 * (i * 50) ≤ s.chCeil p * 100000 →
        ∃ tr, (t.fwOf p).tran = some tr ∧ tr.v1 = v * 100 ∧ tr.i1 = i * 50 ∧ tr.pos = 11 + pos ∧ tr.heavy = true ∧
          tr.k = 0)) ∧
  (∀ (s : State) (p : Fin 512) (e : EvEntry) (tr : Tran), Turn s p .ready e → (s.fwOf p).tran = some tr →
    Completes (.heavyReadyAck p) s fun t =>
      (e.kind = .rx → vdmCt (msgObj (s.rxBytes (p.val / 128) e.pan) 0) = 1 →
        t.recOf p 7 = BitVec.ofNat 32 (tr.v1 * 65536 + tr.i1) ∧ (t.fwOf p).tran = none ∧ (t.fwOf p).hrCount = 0 ∧
        (t.hubOf p).hstate = 4) ∧
      ((e.kind = .timerA ∨ vdmCt (msgObj (s.rxBytes (p.val / 128) e.pan) 0) ≠ 1) → s.portUp p = true →
        (t.phyOf p).hrPend = true)) ∧
  (∀ (s : State) (p : Fin 512) (e : EvEntry), Turn s p .ask e →
    Completes (.heavyAsk p) s fun t =>
      t = heavyAsk p (s.rxBytes (p.val / 128) e.pan) (takeHead (p.val / 128) e s) ∧ t.prec = s.prec ∧ t.port = s.port ∧
      t.mir = s.mir ∧ t.opq = s.opq ∧ (t.fwOf p).tran = (s.fwOf p).tran ∧ (t.fwOf p).useA = (s.fwOf p).useA)

/-- TEST and EXIT of CHN_HVCMD and a write of CHN_HVST_k complete. (07 The auxiliary pair, 07 Test, exit and recovery, 07
Registers) -/
def Obligations.HeavyCommandsComplete : Prop :=
  (∀ (s : State) (who : Who) (p : Fin 512), Who.ownsPort who p = true → s.chanUp (p.val / 128) = true →
    (who = .host → s.mgmtUp = true) →
    Completes (.hvTest who p) s fun t => t.hubOf p = { s.hubOf p with testReq := true } ∧
      (∀ q : Fin 512, q ≠ p → t.hubOf q = s.hubOf q) ∧ Only [.regs, .hub, .clk, .log] s t ∧
      (s.clk.quiet = false → Only [.hub, .clk] s t)) ∧
  (∀ (s : State) (who : Who) (p : Fin 512), Who.ownsPort who p = true → s.chanUp (p.val / 128) = true →
    (who = .host → s.mgmtUp = true) →
    Completes (.hvExit who p) s fun t => t.hubOf p = { s.hubOf p with exitReq := true } ∧
      (∀ q : Fin 512, q ≠ p → t.hubOf q = s.hubOf q) ∧ Only [.regs, .hub, .clk, .log] s t ∧
      (s.clk.quiet = false → Only [.hub, .clk] s t)) ∧
  (∀ (s : State) (c : Fin 4) (k : Fin 128) (v : Word), s.chanUp c = true →
    let p := 128 * c.val + k.val
    let put (x : Port) : Port := { x with
      mux := F.CHN_HVST_MUX.get v, entered := F.CHN_HVST_ENTERED.get v != 0, pvmax := F.CHN_HVST_PVMAX.get v,
      pimax := F.CHN_HVST_PIMAX.get v }
    Completes (.hvstWrite c k v) s fun t =>
      (s.cls p ≠ 2 → t = s) ∧
      (s.cls p = 2 → (t.hubOf p).hstate = F.CHN_HVST_HSTATE.get v ∧
        (t.hubOf p).testReq = ((s.hubOf p).testReq && F.CHN_HVST_TESTREQ.get v = 0) ∧
        (t.hubOf p).exitReq = ((s.hubOf p).exitReq && F.CHN_HVST_EXITREQ.get v = 0) ∧
        (t.mirOf p).mux = F.CHN_HVST_MUX.get v ∧ (t.mirOf p).entered = (F.CHN_HVST_ENTERED.get v != 0) ∧
        (t.mirOf p).pvmax = F.CHN_HVST_PVMAX.get v ∧ (t.mirOf p).pimax = F.CHN_HVST_PIMAX.get v ∧
        (s.portUp p = true → t.portOf p = put (s.portOf p)) ∧
        (s.portUp p = false → t.port = s.port ∧ (t.hubOf p).hvDirty = true) ∧ Only [.hub, .port, .mir] s t))

/-- A rake round ends agreed, different or late, and a channel takes over a commit. (08 Two rakes, one commit, 08
Ceilings, pacing and the deadline, 08 Registers, 01 Three paths through the device) -/
def Obligations.RoundsAndCommits : Prop :=
  (∀ s : State, s.tclk = true → s.released = true → s.roundDue = true → s.roundPoint = true →
    roundReads s = s → s.imageBad = false →
    Completes (.rakeRound .agree) s fun t =>
      t.active = !s.active ∧ t.bankOf s.active = s.bankOf s.active ∧ t.switchUs = s.tb.usec ∧ t.reg R.PLC_ROUND = s.reg R.PLC_ROUND + 1 ∧
      t.fld R.PLC_STAT F.PLC_STAT_LAST = 1 ∧ t.fld R.PLC_STAT F.PLC_STAT_MMRUN = 0 ∧ t.roundOpen = false ∧
      t.tb.lastRound = some s.tb.usec ∧ t.opq = s.opq ∧
      ∀ f : Fin 8, (t.monOf f).iSum = 0 ∧ (t.monOf f).iCnt = 0 ∧ (t.monOf f).downSeen = (s.monOf f).downNow) ∧
  (∀ s : State, s.tclk = true → s.released = true → s.roundDue = true → s.roundPoint = true →
    roundReads s = s → s.imageBad = false →
    Completes (.rakeRound .differ) s fun t =>
      t.active = s.active ∧ t.bankA = s.bankA ∧ t.bankB = s.bankB ∧ t.reg R.PLC_ROUND = s.reg R.PLC_ROUND ∧
      t.fld R.PLC_STAT F.PLC_STAT_LAST = 2 ∧
      t.fld R.PLC_STAT F.PLC_STAT_MMRUN = min (s.fld R.PLC_STAT F.PLC_STAT_MMRUN + 1) 63 ∧
      t.fld R.PLC_CNT F.PLC_CNT_MISMATCH = min (s.fld R.PLC_CNT F.PLC_CNT_MISMATCH + 1) 65535 ∧
      t.flag R.PLC_EVT F.PLC_EVT_MISMATCH = true ∧ t.roundOpen = false) ∧
  (∀ s : State, s.tclk = true → s.released = true → s.roundDue = true → s.roundPoint = true → roundReads s = s →
    Completes (.rakeRound .late) s fun t =>
      t.roundOpen = true ∧ t.active = s.active ∧ t.bankA = s.bankA ∧ t.bankB = s.bankB ∧
      t.reg R.PLC_ROUND = s.reg R.PLC_ROUND ∧ t.reg R.PLC_STAT = s.reg R.PLC_STAT) ∧
  (∀ s : State, s.tclk = true → s.roundOpen = true → s.roundLate = true →
    Completes .roundDeadline s fun t =>
      t.roundOpen = false ∧ t.fld R.PLC_STAT F.PLC_STAT_LAST = 3 ∧ t.flag R.PLC_EVT F.PLC_EVT_LATE = true ∧
      t.fld R.PLC_CNT F.PLC_CNT_LATE = min (s.fld R.PLC_CNT F.PLC_CNT_LATE + 1) 65535 ∧ t.active = s.active ∧
      t.bankA = s.bankA ∧ t.bankB = s.bankB ∧ t.reg R.PLC_ROUND = s.reg R.PLC_ROUND) ∧
  (∀ (s : State) (c : Fin 4), s.tclk = true → s.chanUp c = true →
    Completes (.placementCommit c) s fun t =>
      (t.chanOf c).bank = s.active ∧ (t.crsOf c).commit = true ∧ t.active = s.active ∧ t.bankA = s.bankA ∧
      t.bankB = s.bankB ∧
      ∀ p : Fin 512, (t.hubOf p).commitUs =
        if p.val / 128 = c.val ∧ (F.PLC_ENT_CEIL.get (s.chEnt p) ≠ F.PLC_ENT_CEIL.get (s.entOf p) ∨ (s.hubOf p).redate = true)
        then s.tb.usec
        else (s.hubOf p).commitUs)

/-- An agreed round keeps the entry of a port in hold and gives no leg to a port that is not live. (08 The algorithm, 01
Port groups, 08 Registers) -/
def Obligations.RoundKeepsHeldPorts : Prop :=
  ∀ (s : State) (p : Fin 512), s.tclk = true → s.released = true → s.roundDue = true → s.roundPoint = true →
    roundReads s = s → s.imageBad = false →
    Completes (.rakeRound .agree) s fun t =>
      (s.rakeHold p = true →
        F.PLC_ENT_LEG.get (t.entOf p) = F.PLC_ENT_LEG.get (s.prevEnt p) ∧
        F.PLC_ENT_CEIL.get (t.entOf p) = F.PLC_ENT_CEIL.get (s.prevEnt p) ∧
        F.PLC_ENT_HOLD.get (t.entOf p) = 1 ∧ F.PLC_ENT_MOVED.get (t.entOf p) = 0) ∧
      (s.rakeHold p = false → s.live p = false →
        F.PLC_ENT_LEG.get (t.entOf p) = 0 ∧ F.PLC_ENT_CEIL.get (t.entOf p) = 0)

/-- Feeder windows, ship signals and the feeder commands complete. (08 The feeder model, 08 Ship signals, 08 Registers) -/
def Obligations.FeederInputsComplete : Prop :=
  (∀ (s : State) (f : Fin 8), s.tclk = true → s.acts (R.FDR_CFG f) F.FDR_CFG_PRES = true → 11 ≤ (s.monOf f).outCnt →
    Completes (.feederDownQualify f) s fun t =>
      t.monOf f = { s.monOf f with downSeen := true, downNow := true } ∧
      (∀ g : Fin 8, g ≠ f → t.monOf g = s.monOf g) ∧
      (∀ n : Fin 32, (t.timerOf n).cap = ((s.timerOf n).cap || (!(s.monOf f).downNow && !s.oddHalf n && s.flag (R.TMU_CTL n) F.TMU_CTL_CAPEN &&
        s.capFeeder n f))) ∧
      Only [.timer, .fdrMon] s t) ∧
  (∀ (s : State) (f : Fin 8), (s.monOf f).outCnt < 11 →
    Completes (.feederDownQualify f) s fun t => t = s) ∧
  (∀ (s : State) (f : Fin 8), s.tclk = true → s.acts (R.FDR_CFG f) F.FDR_CFG_PRES = true →
    s.outside f (s.monOf f).v = false →
    Completes (.feederWindowReturn f) s fun t =>
      t.monOf f = { s.monOf f with downNow := false, outCnt := 0 } ∧
      (∀ g : Fin 8, g ≠ f → t.monOf g = s.monOf g) ∧
      (∀ n : Fin 32, (t.timerOf n).cap = ((s.timerOf n).cap || ((s.monOf f).downNow && !s.oddHalf n && s.flag (R.TMU_CTL n) F.TMU_CTL_CAPEN &&
        s.capFeeder n f))) ∧
      Only [.timer, .fdrMon] s t) ∧
  (∀ (s : State) (f : Fin 8), s.outside f (s.monOf f).v = true →
    Completes (.feederWindowReturn f) s fun t => t = s) ∧
  (∀ (s : State) (f : Fin 8), s.tclk = true → s.mgmtUp = true →
    Completes (.fdrOnline f) s fun t =>
      t.monOf f = { s.monOf f with offcmd := false } ∧ (∀ g : Fin 8, g ≠ f → t.monOf g = s.monOf g) ∧
      Only [.regs, .fdrMon, .clk, .log] s t ∧ (s.clk.quiet = false → Only [.fdrMon, .clk] s t)) ∧
  (∀ (s : State) (f : Fin 8), s.tclk = true → s.mgmtUp = true →
    Completes (.fdrOffline f) s fun t =>
      t.monOf f = { s.monOf f with offcmd := true } ∧ (∀ g : Fin 8, g ≠ f → t.monOf g = s.monOf g) ∧
      Only [.regs, .fdrMon, .clk, .log] s t ∧ (s.clk.quiet = false → Only [.fdrMon, .clk] s t)) ∧
  (∀ (s : State) (sig : ShipSig), s.tclk = true →
    Completes (.shipSignalFiltered sig) s fun t =>
      (∀ n, sig = .shed n → t.fld R.PLC_INPUTS F.PLC_INPUTS_PINLV = n.val) ∧
      (∀ b, sig = .emerg b → t.flag R.PLC_INPUTS F.PLC_INPUTS_EMERG = b) ∧
      (∀ b, sig = .manv b → t.flag R.PLC_INPUTS F.PLC_INPUTS_MANV = b) ∧
      t.fld R.PLC_INPUTS F.PLC_INPUTS_LEVEL = t.shedLevel ∧
      t.flag R.PLC_INPUTS F.PLC_INPUTS_BLK = s.flag R.PLC_INPUTS F.PLC_INPUTS_BLK ∧
      (s.fld R.PLC_INPUTS F.PLC_INPUTS_LEVEL ≠ t.shedLevel → t.flag R.PLC_EVT F.PLC_EVT_LEVEL = true))

/-- Scan conversions, measurement frames and trip snapshots complete. (09 The port scan, 09 Calibration, 09 Trip
snapshots, 09 Harvest, 09 Registers) -/
def Obligations.ScanAndTripMeasurements : Prop :=
  (∀ (s : State) (u : Fin 32) (slot : Fin 33) (raw : BitVec 12) (p : Nat), p = 16 * u.val + slot.val / 2 →
    (s.dieOf (u.val / 4)).inReset = false → (s.adcOf u).scanOn = true → s.calBusy u = false →
    s.slotFree u = true → s.slotNext u slot = true →
    let cal := s.dreg (R.ADC_CAL u)
    Completes (.scanConversion u slot raw) s fun t =>
      (slot.val = 32 → (t.dieOf (u.val / 4)).temp = correct cal (12, false) raw.toNat - 2730 ∧ Only [.die, .adc] s t) ∧
      (slot.val < 32 → slot.val % 2 = 0 →
        (t.scanOf p).v = 16 * (correct cal (12, false) raw.toNat).toNat ∧
        (t.scanOf p).vsat = (correct cal (12, false) raw.toNat == 4095) ∧ (t.scanOf p).i = (s.scanOf p).i ∧
        Only [.adc, .scan] s t) ∧
      (slot.val < 32 → slot.val % 2 = 1 →
        (t.scanOf p).due = (s.portUp p && !(s.dieOf (p / 64)).hold) ∧
        (t.scanOf p).i =
          Int.tdiv (correct cal (12, true) raw.toNat * 62500) (s.fld (R.PRT_SENSE p) F.PRT_SENSE_RSNS) ∧
        (t.scanOf p).isat =
          (correct cal (12, true) raw.toNat == 2047 || correct cal (12, true) raw.toNat == -2048) ∧
        (t.scanOf p).v = (s.scanOf p).v ∧ Only [.adc, .scan] s t)) ∧
  (∀ (s : State) (u : Fin 32) (slot : Fin 33) (raw : BitVec 12), (s.slotFree u = false ∨ s.slotNext u slot = false) →
    Completes (.scanConversion u slot raw) s fun t => t = s) ∧
  (∀ (s : State) (p : Fin 512), s.portUp p = true → (s.dieOf (p.val / 64)).hold = false →
    (s.scanOf p).due = true →
    let x := s.scanOf p
    let v := min 65535 x.v
    let i := min 65535 (max 0 x.i).toNat
    Completes (.measurementFrameRx p) s fun t =>
      t.fld (R.PRT_MVOLT p) F.PRT_MVOLT_VOUT = v ∧ t.fld (R.PRT_MVOLT p) F.PRT_MVOLT_PWR = min 65535 (v * i / 100000) ∧
      t.fld (R.PRT_MCURR p) F.PRT_MCURR_IOUT = i ∧
      t.flag (R.PRT_MCURR p) F.PRT_MCURR_REVI = decide (x.i < 0) ∧
      t.flag (R.PRT_MCURR p) F.PRT_MCURR_SAT = (x.vsat || x.isat) ∧
      t.reg (R.PRT_MUSEC p) = s.tb.usec.truncate 32 ∧
      ((t.fld (R.PRT_MTEMP p) F.PRT_MTEMP_TEMP : Int) = (s.dieOf (p.val / 64)).temp % 65536) ∧
      (s.tclk = true → (t.harvOf p).last = some s.tb.usec) ∧
      (s.tclk = true → (s.harvOf p).last = none → (t.harvOf p).fine = (s.harvOf p).fine) ∧
      (∀ u, s.tclk = true → (s.harvOf p).last = some u →
        (t.harvOf p).fine = (s.harvOf p).fine + v * i * min (s.tb.usec - u).toNat 5000) ∧
      (t.harvOf p).count = (s.harvOf p).count ∧ (t.hubOf p).stale = false ∧ (t.scanOf p).due = false ∧
      Only [.regs, .ecc, .hub, .scan, .harv] s t) ∧
  (∀ (s : State) (p : Fin 512) (i v : BitVec 12) (abrt : Bool), (s.adcOf (p.val / 16)).urgent.head? = some p.val →
    let cal := s.dreg (R.ADC_CAL (p.val / 16))
    let vs := 16 * (correct cal (12, false) v.toNat).toNat
    let ma := min 65535 (max 0 (s.portMa p (correct cal (12, true) i.toNat))).toNat
    Completes (.urgentConversion p i v abrt) s fun t =>
      (t.portOf p).snap = BitVec.ofNat 32 (vs * 65536 + ma) ∧ (t.portOf p).state = (s.portOf p).state ∧
      (t.adcOf (p.val / 16)).urgent = (s.adcOf (p.val / 16)).urgent.tail ∧
      (abrt = true → (s.adcOf (p.val / 16)).pend.isSome = true →
        t.dfld (R.ADC_STAT (p.val / 16)) F.ADC_STAT_ABRT = 1) ∧
      (s.portUp p = true → t.reg (R.PRT_TRIPSNAP p) = BitVec.ofNat 32 (vs * 65536 + ma)))

/-- The hub frame feeds the feeder monitor and harvest, and the low-half reads latch. (09 The hub frame, 09 Harvest, 09
Registers, 19 Global and identity registers) -/
def Obligations.HubFrameAndHarvest : Prop :=
  (∀ (s : State) (slot : Fin 10) (h0 h1 : BitVec 14), s.tclk = true → s.calBusy 32 = false → s.calBusy 33 = false →
    s.slotNext 32 slot = true →
    Completes (.hubConversion slot h0 h1) s fun t =>
      (slotFeeder slot = none → t.fdrMon = s.fdrMon ∧ t.fharv = s.fharv ∧ t.timer = s.timer) ∧
      (t.adcOf 32).next = some ((slot.val + 1) % 10) ∧
      ∀ f, slotFeeder slot = some f →
        let v := (correct (s.dreg (R.ADC_CAL 32)) (14, false) h0.toNat).toNat * s.act (R.ADC_FVSCL f) F.ADC_FVSCL_VFS / 16384
        let i := Int.tdiv (correct (s.dreg (R.ADC_CAL 33)) (14, true) h1.toNat * s.act (R.ADC_FISCL f) F.ADC_FISCL_IFS) 8192
        (t.monOf f).v = v ∧ (t.monOf f).iSum = (s.monOf f).iSum + i ∧ (t.monOf f).iCnt = (s.monOf f).iCnt + 1 ∧
        (t.fharvOf f).sum = (s.fharvOf f).sum + v * i ∧ (t.fharvOf f).cnt = (s.fharvOf f).cnt + 1 ∧
        (t.fharvOf f).fineOut = (s.fharvOf f).fineOut + (if 0 < i then v * i.natAbs * 100 else 0) ∧
        (t.fharvOf f).fineIn = (s.fharvOf f).fineIn + (if i < 0 then v * i.natAbs * 100 else 0) ∧
        (s.acts (R.FDR_CFG f) F.FDR_CFG_PRES = true → s.outside f v = false →
          (t.monOf f).outCnt = 0 ∧ (t.monOf f).downNow = false ∧ (t.monOf f).downSeen = (s.monOf f).downSeen) ∧
        (s.acts (R.FDR_CFG f) F.FDR_CFG_PRES = true → s.outside f v = true →
          (t.monOf f).outCnt = min 11 ((s.monOf f).outCnt + 1) ∧
          (10 ≤ (s.monOf f).outCnt → (t.monOf f).downNow = true ∧ (t.monOf f).downSeen = true) ∧
          ((s.monOf f).outCnt < 10 → (t.monOf f).downNow = (s.monOf f).downNow)) ∧
        Only [.regs, .dieRegs, .timer, .fdrMon, .adc, .fharv] s t) ∧
  (∀ s : State, s.mgmtUp = true → s.tclk = true →
    Completes .hrvCycLoRead s fun t =>
      t.bus = s.reg R.HRV_CYC_LO ∧ (t.reg R.HRV_CYC_HI).toNat = s.hrvCyc.toNat / 2 ^ 32 ∧
      (s.clk.quiet = false → ∀ a, a ≠ R.HRV_CYC_HI → t.reg a = s.reg a) ∧ Only [.regs, .clk, .log, .bus] s t) ∧
  (∀ (s : State) (f : Fin 8), s.mgmtUp = true → s.tclk = true →
    Completes (.hrvEnergyLoRead f false) s fun t =>
      t.bus = s.reg (R.HRV_FOUT_LO f) ∧ (t.reg (R.HRV_FOUT_HI f)).toNat = (s.fharvOf f).out.toNat / 2 ^ 32 ∧
      (s.clk.quiet = false → ∀ a, a ≠ R.HRV_FOUT_HI f → t.reg a = s.reg a) ∧ Only [.regs, .clk, .log, .bus] s t) ∧
  (∀ (s : State) (f : Fin 8), s.mgmtUp = true → s.tclk = true →
    Completes (.hrvEnergyLoRead f true) s fun t =>
      t.bus = s.reg (R.HRV_FIN_LO f) ∧ (t.reg (R.HRV_FIN_HI f)).toNat = (s.fharvOf f).inn.toNat / 2 ^ 32 ∧
      (s.clk.quiet = false → ∀ a, a ≠ R.HRV_FIN_HI f → t.reg a = s.reg a) ∧ Only [.regs, .clk, .log, .bus] s t) ∧
  (∀ s : State, s.mgmtUp = true →
    Completes .glbSerialLoRead s fun t =>
      t.bus = s.reg R.GLB_SERIAL_LO ∧ t.reg R.GLB_SERIAL_HI = s.serialHi ∧
      (s.clk.quiet = false → ∀ a, a ≠ R.GLB_SERIAL_HI → t.reg a = s.reg a) ∧ Only [.regs, .clk, .log, .bus] s t) ∧
  (∀ (s : State) (who : Who) (p : Fin 512), s.chanUp (p.val / 128) = true →
    (who = .host ∧ s.mgmtUp = true ∧ seen (s.regPlaces (R.PRT_ELO p)) s = s ∧
      s.anyPoison (s.regPlaces (R.PRT_ELO p)) = false ∨ ∃ c : Fin 4, who = .course c ∧ p.val / 128 = c.val) →
    Completes (.prtEloRead who p) s fun t =>
      t.bus = s.reg (R.PRT_ELO p) ∧ t.reg (R.PRT_EHI p) = (s.harvOf p).hi ∧
      (s.clk.quiet = false ∨ who ≠ .host → ∀ a, a ≠ R.PRT_EHI p → t.reg a = s.reg a) ∧
      Only [.regs, .clk, .log, .bus] s t)

/-- On-demand conversions, their triggers and calibration complete. (09 On-demand conversions, 09 Calibration, 09
Alignment, 09 Registers, 09 The hub frame) -/
def Obligations.AdcCommandsComplete : Prop :=
  (∀ (s : State) (who : Who) (u : Fin 34) (on : Bool), Who.ownsUnit who u = true → (who = .host → s.mgmtUp = true) →
    (∀ c : Fin 4, who = .course c → s.chanUp c = true) → s.unitUp u = true →
    Completes (if on then .adcArm who u else .adcDisarm who u) s fun t =>
      t.dfld (R.ADC_STAT u) F.ADC_STAT_ARMED = on.toNat ∧ t.reg (R.ADC_STAT u) = t.dreg (R.ADC_STAT u) ∧
      (t.adcOf u).trg = false ∧ (t.adcOf u).pend = (s.adcOf u).pend ∧ Only [.regs, .dieRegs, .adc, .clk, .log] s t) ∧
  (∀ (s : State) (who : Who) (u : Fin 34), Who.ownsUnit who u = true → (who = .host → s.mgmtUp = true) →
    (∀ c : Fin 4, who = .course c → s.chanUp c = true) → s.unitUp u = true →
    let armed := s.dfld (R.ADC_STAT u) F.ADC_STAT_ARMED = 1
    Completes (.adcSwtrig who u) s fun t =>
      (¬armed → Only [.regs, .clk, .log] s t) ∧
      (armed → (s.adcOf u).pend = none → s.calBusy u = false →
        (t.adcOf u).pend = some (s.dreg (R.ADC_ODCFG u)) ∧ (t.adcOf u).pendAt = s.clock ∧
        t.dfld (R.ADC_STAT u) F.ADC_STAT_PEND = 1 ∧
        t.dfld (R.ADC_STAT u) F.ADC_STAT_TRGOVR = s.dfld (R.ADC_STAT u) F.ADC_STAT_TRGOVR ∧
        Only [.regs, .dieRegs, .adc, .clk, .log] s t) ∧
      (armed → ((s.adcOf u).pend ≠ none ∨ s.calBusy u = true) →
        t.dfld (R.ADC_STAT u) F.ADC_STAT_TRGOVR = 1 ∧ Only [.regs, .dieRegs, .clk, .log] s t)) ∧
  (∀ (s : State) (u : Fin 34) (src : TrigSrc), s.tclk = true → s.unitUp u = true → s.trigIs u src = true →
    s.trigComes u src = true →
    let armed := s.dfld (R.ADC_STAT u) F.ADC_STAT_ARMED = 1
    Completes (.adcTrigger u src) s fun t =>
      t.trigComes u src = false ∧ Only [.regs, .dieRegs, .tb, .adc] s t ∧
      (¬armed → t.dieRegs = s.dieRegs ∧ t.regs = s.regs ∧ (t.adcOf u).pend = (s.adcOf u).pend) ∧
      (armed → (s.adcOf u).pend = none → s.calBusy u = false →
        (t.adcOf u).pend = some (s.dreg (R.ADC_ODCFG u)) ∧ (t.adcOf u).pendAt = s.clock ∧
        t.dfld (R.ADC_STAT u) F.ADC_STAT_PEND = 1 ∧
        t.dfld (R.ADC_STAT u) F.ADC_STAT_TRGOVR = s.dfld (R.ADC_STAT u) F.ADC_STAT_TRGOVR) ∧
      (armed → ((s.adcOf u).pend ≠ none ∨ s.calBusy u = true) →
        (t.adcOf u).pend = (s.adcOf u).pend ∧ t.dfld (R.ADC_STAT u) F.ADC_STAT_TRGOVR = 1)) ∧
  (∀ (s : State) (u : Fin 34) (src : TrigSrc), (s.trigIs u src = false ∨ s.trigComes u src = false) →
    Completes (.adcTrigger u src) s fun t => t = s) ∧
  (∀ (s : State) (who : Who) (u : Fin 34), Who.ownsUnit who u = true → (who = .host → s.mgmtUp = true) →
    (∀ c : Fin 4, who = .course c → s.chanUp c = true) → s.unitUp u = true →
    Completes (.adcCal who u) s fun t =>
      (32 ≤ u.val → t.dfld (R.ADC_STAT u) F.ADC_STAT_CALFAIL = 1 ∧ t.adc = s.adc) ∧
      (u.val < 32 → (s.adcOf u).pend = none → t.calBusy u = true ∧ (t.adcOf u).calAt = s.clock) ∧
      (u.val < 32 → (s.adcOf u).pend ≠ none → (t.adcOf u).calWait = true ∧ t.dieRegs = s.dieRegs)) ∧
  (∀ (s : State) (u : Fin 34) (raw : BitVec 14) (cfg : Word) (form : Nat × Bool) (slot : Fin 10) (h0 h1 : BitVec 14),
    (s.adcOf u).pend = some cfg → unitForm u (F.ADC_ODCFG_INPUT.get cfg) = some form → s.odDue u = true →
    let Lands : Nat → State → Prop := fun code t =>
      t.dreg (R.ADC_DATA u) = BitVec.ofNat 32 (2 ^ 31 + F.ADC_ODCFG_INPUT.get cfg * 65536 +
        alignCode (F.ADC_ODCFG_ALIGN.get cfg = 1) form (correct (s.dreg (R.ADC_CAL u)) form code)) ∧
      (t.adcOf u).pend = none ∧ t.dfld (R.ADC_STAT u) F.ADC_STAT_PEND = 0 ∧
      (s.dfld (R.ADC_DATA u) F.ADC_DATA_NEW = 1 → t.dfld (R.ADC_STAT u) F.ADC_STAT_OVR = 1) ∧
      (F.ADC_ODCFG_REPEAT.get cfg = 0 → t.dfld (R.ADC_STAT u) F.ADC_STAT_ARMED = 0) ∧
      ((s.adcOf u).calWait = true → t.calBusy u = true ∧ (t.adcOf u).calWait = false)
    (u.val < 32 → (s.dieOf (u.val / 4)).inReset = false → (s.adcOf u).urgent = [] →
      Completes (.onDemandConversion u raw) s fun t => Lands raw.toNat t ∧ Only [.regs, .dieRegs, .adc] s t) ∧
    (32 ≤ u.val → s.tclk = true → s.calBusy 32 = false → s.calBusy 33 = false → s.slotNext 32 slot = true →
      F.ADC_ODCFG_INPUT.get cfg = slot.val → (s.adcOf (65 - u.val)).pend = none →
      Completes (.hubConversion slot h0 h1) s fun t => Lands (if u.val = 32 then h0.toNat else h1.toNat) t)) ∧
  (∀ (s : State) (u : Fin 34) (raw : BitVec 14), (s.odDue u = false ∨ (s.adcOf u).urgent ≠ []) →
    Completes (.onDemandConversion u raw) s fun t => t = s) ∧
  (∀ (s : State) (u : Fin 34) (gain : BitVec 17) (ofs : BitVec 16), s.calBusy u = true → (s.adcOf u).urgent = [] →
    s.past (s.adcOf u).calAt (atLeast 2550) = true →
    Completes (.calibrationDone u gain ofs) s fun t =>
      t.calBusy u = false ∧ (t.adcOf u).scanOn = true ∧ (t.adcOf u).next = (if 32 ≤ u.val then some 0 else none) ∧
      (29491 ≤ gain.toNat → gain.toNat ≤ 36045 →
        (t.dreg (R.ADC_CAL u)).toNat = gain.toNat * 65536 + ofs.toNat ∧
        t.dfld (R.ADC_STAT u) F.ADC_STAT_CALDONE = 1 ∧ Only [.regs, .dieRegs, .adc] s t) ∧
      (¬(29491 ≤ gain.toNat ∧ gain.toNat ≤ 36045) →
        t.dreg (R.ADC_CAL u) = s.dreg (R.ADC_CAL u) ∧ t.dfld (R.ADC_STAT u) F.ADC_STAT_CALFAIL = 1 ∧
        (u.val < 32 → s.linkUp (u.val / 4) = false → (t.adcOf u).calFail = some gain.toNat ∧ t.log = s.log))) ∧
  ∀ (s : State) (u : Fin 34) (gain : BitVec 17) (ofs : BitVec 16), (s.calBusy u = false ∨ (s.adcOf u).urgent ≠ []) →
    Completes (.calibrationDone u gain ofs) s fun t => t = s

/-- Sums, differences and shifts set C and V as the spec says. (10 Conditions, 10 Instructions and their cycles) -/
def Obligations.FlagArithmetic : Prop :=
  (∀ (a b : Word) (k : Bool),
    (addFlags a b k).1.toNat = (a.toNat + b.toNat + k.toNat) % 2 ^ 32 ∧
    ((addFlags a b k).2.c = true ↔ 2 ^ 32 ≤ a.toNat + b.toNat + k.toNat) ∧
    ((addFlags a b k).2.v = true ↔
      (a.toInt + b.toInt + (k.toNat : Int) < -2 ^ 31 ∨ 2 ^ 31 ≤ a.toInt + b.toInt + (k.toNat : Int))) ∧
    ((addFlags a b k).2.n = true ↔ 2 ^ 31 ≤ (addFlags a b k).1.toNat) ∧
    ((addFlags a b k).2.z = true ↔ (addFlags a b k).1 = 0)) ∧
  (∀ (a b : Word) (k : Bool), let borrow := 1 - k.toNat
    (subFlags a b k).1 = a - b - BitVec.ofNat 32 borrow ∧
    ((subFlags a b k).2.c = true ↔ b.toNat + borrow ≤ a.toNat) ∧
    ((subFlags a b k).2.v = true ↔
      (a.toInt - b.toInt - (borrow : Int) < -2 ^ 31 ∨ 2 ^ 31 ≤ a.toInt - b.toInt - (borrow : Int)))) ∧
  (∀ (k : ShiftKind) (a b : Word) (f : Flags), let n := b.toNat % 32
    (shiftFlags k a b f).2.v = f.v ∧ (n = 0 → (shiftFlags k a b f).1 = a ∧ (shiftFlags k a b f).2.c = f.c) ∧
    (k = .left → (shiftFlags k a b f).1.toNat = a.toNat * 2 ^ n % 2 ^ 32 ∧
      (0 < n → ((shiftFlags k a b f).2.c = true ↔ a.toNat / 2 ^ (32 - n) % 2 = 1))) ∧
    (k = .right → (shiftFlags k a b f).1.toNat = a.toNat / 2 ^ n ∧
      (0 < n → ((shiftFlags k a b f).2.c = true ↔ a.toNat / 2 ^ (n - 1) % 2 = 1))) ∧
    (k = .arith → (shiftFlags k a b f).1.toInt = a.toInt / 2 ^ n ∧
      (0 < n → ((shiftFlags k a b f).2.c = true ↔ a.toNat / 2 ^ (n - 1) % 2 = 1))))

/-- The arithmetic, logical, shift, compare, test and move instructions complete. (10 Conditions, 10 Instructions and
their cycles, 10 Encodings, 10 Block repeat) -/
def Obligations.SvaqDataInstructions : Prop :=
  ∀ (s : State) (c : Fin 4) (w : Word) (x : Str), Fetches s c w x →
    let g := Flags.of x.st
    let a := x.gpr (opA w)
    let b := x.gpr (opB w)
    let si := simm14 w
    let zi := zimm14 w
    (∀ (i : Instr) (op : Nat) (r : Word × Flags), opCode w = op →
      ((i = .svAdd c ∧ op = 0x00 ∧ r = addFlags a b false) ∨ (i = .svSub c ∧ op = 0x01 ∧ r = subFlags a b true) ∨
       (i = .svAdc c ∧ op = 0x02 ∧ r = addFlags a b g.c) ∨ (i = .svSbc c ∧ op = 0x03 ∧ r = subFlags a b g.c) ∨
       (i = .svAnd c ∧ op = 0x04 ∧ r = (a &&& b, g.logic (a &&& b))) ∨
       (i = .svOr c ∧ op = 0x05 ∧ r = (a ||| b, g.logic (a ||| b))) ∨
       (i = .svXor c ∧ op = 0x06 ∧ r = (a ^^^ b, g.logic (a ^^^ b))) ∨
       (i = .svShl c ∧ op = 0x07 ∧ r = shiftFlags .left a b g) ∨
       (i = .svShr c ∧ op = 0x08 ∧ r = shiftFlags .right a b g) ∨
       (i = .svSar c ∧ op = 0x09 ∧ r = shiftFlags .arith a b g) ∨
       (i = .svMinu c ∧ op = 0x0A ∧ r.1 = (if a.toNat ≤ b.toNat then a else b) ∧ r.2 = g.logic r.1) ∨
       (i = .svMaxu c ∧ op = 0x0B ∧ r.1 = (if a.toNat ≤ b.toNat then b else a) ∧ r.2 = g.logic r.1) ∨
       (i = .svAddi c ∧ op = 0x10 ∧ r = addFlags a si false) ∨
       (i = .svAndi c ∧ op = 0x14 ∧ r = (a &&& zi, g.logic (a &&& zi))) ∨
       (i = .svOri c ∧ op = 0x15 ∧ r = (a ||| zi, g.logic (a ||| zi))) ∨
       (i = .svXori c ∧ op = 0x16 ∧ r = (a ^^^ zi, g.logic (a ^^^ zi))) ∨
       (i = .svShli c ∧ op = 0x17 ∧ r = shiftFlags .left a zi g) ∨
       (i = .svShri c ∧ op = 0x18 ∧ r = shiftFlags .right a zi g) ∨
       (i = .svSari c ∧ op = 0x19 ∧ r = shiftFlags .arith a zi g) ∨
       (i = .svMinui c ∧ op = 0x1A ∧ r.1 = (if a.toNat ≤ zi.toNat then a else zi) ∧ r.2 = g.logic r.1) ∨
       (i = .svMaxui c ∧ op = 0x1B ∧ r.1 = (if a.toNat ≤ zi.toNat then zi else a) ∧ r.2 = g.logic r.1)) →
      Completes i s fun t => Only [.crs] s t ∧
        Leaves s c (if x.cond w then ((x.setFlags r.2).setGpr (opD w) r.1).retire else x.retire) 1 t) ∧
    (∀ (i : Instr) (op : Nat) (f : Flags), opCode w = op →
      ((i = .svCmp c ∧ op = 0x0C ∧ f = (subFlags a b true).2) ∨ (i = .svTst c ∧ op = 0x0D ∧ f = g.logic (a &&& b)) ∨
       (i = .svCmpi c ∧ op = 0x1C ∧ f = (subFlags a si true).2) ∨
       (i = .svTsti c ∧ op = 0x1D ∧ f = g.logic (a &&& zi))) →
      Completes i s fun t => Only [.crs] s t ∧
        Leaves s c (if x.cond w then (x.setFlags f).retire else x.retire) 1 t) ∧
    (∀ (i : Instr) (op : Nat) (v : Nat), opCode w = op →
      ((i = .svMovl c ∧ op = 0x20 ∧ v = imm16 w) ∨
       (i = .svMovh c ∧ op = 0x21 ∧ v = imm16 w * 65536 + (x.gpr (opD w)).toNat % 65536)) →
      Completes i s fun t => Only [.crs] s t ∧
        Leaves s c (if x.cond w then (x.setGpr (opD w) (BitVec.ofNat 32 v)).retire else x.retire) 1 t)

/-- Multiplies, divide, landings and the special registers complete. (10 The multiplier, 10 Programmer's state, 10
Instructions and their cycles) -/
def Obligations.SvaqMultiplierAndSpecials : Prop :=
  (∀ (s : State) (c : Fin 4) (w : Word) (x : Str) (i : Instr) (op : Nat) (p : Prod), Fetches s c w x → opCode w = op →
    let a := x.gpr (opA w)
    let b := x.gpr (opB w)
    p.age = 0 →
    ((i = .svMulu c ∧ op = 0x30 ∧ p.acc = false ∧ p.val.toNat = a.toNat * b.toNat) ∨
     (i = .svMuls c ∧ op = 0x31 ∧ p.acc = false ∧ p.val.toInt = a.toInt * b.toInt) ∨
     (i = .svMacu c ∧ op = 0x32 ∧ p.acc = true ∧ p.val.toNat = a.toNat * b.toNat) ∨
     (i = .svMacs c ∧ op = 0x33 ∧ p.acc = true ∧ p.val.toInt = a.toInt * b.toInt)) →
    Completes i s fun t => Only [.crs] s t ∧
      Leaves s c (if x.cond w then ({ x with prods := x.prods ++ [p] } : Str).retire else x.retire) 1 t) ∧
  (∀ (s : State) (c : Fin 4) (w : Word) (x : Str), Fetches s c w x → opCode w = 0x34 →
    let a := x.gpr (opA w)
    let b := x.gpr (opB w)
    Completes (.svDivu c) s fun t => Only [.crs] s t ∧
      (x.cond w = false → Leaves s c x.retire 1 t) ∧
      (x.cond w = true → b = 0 →
        Leaves s c ({ x.landAll with mlo := 0xFFFFFFFF, mhi := a } : Str).retire
          (34 + x.productWait) t) ∧
      (x.cond w = true → b ≠ 0 →
        Leaves s c ({ x.landAll with mlo := BitVec.ofNat 32 (a.toNat / b.toNat),
                                     mhi := BitVec.ofNat 32 (a.toNat % b.toNat) } : Str).retire
          (34 + x.productWait) t)) ∧
  (∀ (s : State) (c : Fin 4), s.crsRuns c = true →
    Completes (.productLanding c) s fun t =>
      (∀ i ∈ s.active3 c, (t.crsOf c).str i = Str.landDue 4 ((s.crsOf c).str i)) ∧
      (t.crsOf c).cycle = (s.crsOf c).cycle ∧ Only [.crs] s t) ∧
  (∀ (s : State) (c : Fin 4) (w : Word) (x : Str), Fetches s c w x → opCode w = 0x38 → x.cond w = true →
    let n := opNum w
    Completes (.svMfs c) s fun t => Only [.crs] s t ∧
      (n ≤ 10 → Leaves s c (x.setGpr (opD w) (x.special n)).retire 1 t) ∧
      (n = 12 → Leaves s c (x.setGpr (opD w) (s.crsOf c).even).retire 1 t) ∧
      (n = 15 → Leaves s c (x.setGpr (opD w) (s.crsOf c).cycle).retire 1 t) ∧
      (n = 16 → Leaves s c (x.setGpr (opD w) (BitVec.ofNat 32 c)).retire 1 t) ∧
      (17 ≤ n → Leaves s c (x.setGpr (opD w) 0).retire 1 t)) ∧
  (∀ (s : State) (c : Fin 4) (w : Word) (x : Str), Fetches s c w x → opCode w = 0x39 → x.cond w = true →
    let n := opNum w
    let v := x.gpr (opA w)
    Completes (.svMts c) s fun t => Only [.crs] s t ∧
      (n = 0 → Leaves s c ({ x with mlo := v } : Str).retire 1 t) ∧
      (n = 1 → Leaves s c ({ x with mhi := v } : Str).retire 1 t) ∧
      (n = 2 → Leaves s c ({ x with lc := v } : Str).retire 1 t) ∧
      (n = 5 → Leaves s c ({ x with st := (x.st &&& 0xFFFFFFE0) ||| (v &&& 0x1F) } : Str).retire 1 t) ∧
      (n = 9 ∨ 14 ≤ n → Leaves s c x.retire 1 t ∧ (t.crsOf c).even = (s.crsOf c).even ∧
        (t.crsOf c).ae = (s.crsOf c).ae) ∧
      (n = 11 → (t.crsOf c).link = ((s.crsOf c).link && !v.getLsbD 7) ∧
        (t.crsOf c).slot = ((s.crsOf c).slot && !v.getLsbD 6) ∧
        (t.crsOf c).commit = ((s.crsOf c).commit && !v.getLsbD 5)) ∧
      (n = 12 → (t.crsOf c).even = v &&& 0xFF) ∧
      (n = 13 → (t.crsOf c).ae = ((s.crsOf c).ae && !v.getLsbD 31)))

/-- Branches, rep, returns, wait, nop and brk complete. (10 Encodings, 10 Block repeat, 10 Events and exceptions) -/
def Obligations.SvaqControlInstructions : Prop :=
  ∀ (s : State) (c : Fin 4) (w : Word) (x : Str), Fetches s c w x →
    (∀ (i : Instr) (op : Nat) (y : Str), opCode w = op →
      ((i = .svB c ∧ op = 0x3A ∧ y = { x with pc := x.pc + off22 w }) ∨
       (i = .svJal c ∧ op = 0x3B ∧ y = { x.setGpr 15 (x.pc + 4) with pc := x.pc + off22 w }) ∨
       (i = .svJr c ∧ op = 0x3C ∧ y = { x with pc := x.gpr (opA w) &&& 0xFFFFFFFC })) →
      Completes i s fun t => Only [.crs] s t ∧
        (x.cond w = true → Leaves s c y 2 t) ∧ (x.cond w = false → Leaves s c x.retire 1 t)) ∧
    (opCode w = 0x3D →
      let n := x.gpr (opRep w)
      let le := x.pc + BitVec.ofNat 32 (4 * imm16 w)
      Completes (.svRep c) s fun t => Only [.crs] s t ∧
        (x.cond w = false → Leaves s c x.retire 1 t) ∧
        (x.cond w = true → n ≠ 0 → Leaves s c { x with lc := n, ls := x.pc + 4, le := le, pc := x.pc + 4 } 1 t) ∧
        (x.cond w = true → n = 0 → Leaves s c { x with lc := 0, ls := x.pc + 4, le := le, pc := le + 4 } 2 t)) ∧
    (opCode w = 0x3F → opNum w = 0 →
      Completes (.svNop c) s fun t => Only [.crs] s t ∧ Leaves s c x.retire 1 t) ∧
    (opCode w = 0x3F → opNum w = 1 →
      Completes (.svEret c) s fun t => Only [.crs] s t ∧
        (x.cond w = true → Leaves s c { x.retireTo x.epc with st := (x.st &&& 0x80) ||| (x.estat &&& 0x1F) } 2 t) ∧
        (x.cond w = false → Leaves s c x.retire 1 t)) ∧
    (opCode w = 0x3F → opNum w = 2 →
      Completes (.svXret c) s fun t => Only [.crs] s t ∧
        (x.cond w = true → Leaves s c { x.retireTo x.xpc with st := x.xstat &&& 0x1F } 2 t) ∧
        (x.cond w = false → Leaves s c x.retire 1 t)) ∧
    (opCode w = 0x3F → opNum w = 3 →
      Completes (.svWait c) s fun t => Only [.crs] s t ∧ Leaves s c x.retire 1 t ∧
        (t.crsOf c).sleep = (x.cond w && !s.eventPending c)) ∧
    (opCode w = 0x3F → opNum w = 4 → x.xa = false →
      Completes (.svBrk c) s fun t => Only [.crs] s t ∧
        (x.cond w = true → Leaves s c { x with xpc := x.pc, xcause := 4, xstat := x.st,
                                               st := (x.st ||| 0x80) &&& 0xFFFFFFEF, pc := 0x10 } 4 t) ∧
        (x.cond w = false → Leaves s c x.retire 1 t))

/-- Illegal words, fetches outside code RAM, events and wake-ups complete. (10 Events and exceptions, 11 Start, halt and
restart) -/
def Obligations.SvaqExceptionsAndEvents : Prop :=
  (∀ (s : State) (c : Fin 4) (x : Str) (w : Word) (i : Instr) (cause : Word), s.executes c = true →
    2 ≤ (s.active3 c).length →
    (∀ j ∈ s.active3 c, Str.landDue 4 ((s.crsOf c).str j) = x) →
    ((i = .svIllegal c ∧ cause = 1 ∧ x.pc.toNat % 4 = 0 ∧ x.pc.toNat < 0x30000 ∧ s.wordErr c x.pc.toNat = WordErr.init ∧
        s.leAt c x.pc.toNat 4 = w.toNat ∧ legal w = false) ∨
     (i = .svFetch c ∧ cause = 3 ∧ 0x30000 ≤ x.pc.toNat)) →
    Completes i s fun t =>
      (x.xa = false → Only [.crs] s t ∧
        Leaves s c { x with xpc := x.pc, xcause := cause, xstat := x.st, st := (x.st ||| 0x80) &&& 0xFFFFFFEF,
                            pc := 0x10 } 4 t) ∧
      (x.xa = true → t.crsState c = 3 ∧ t.fld (R.CRS_STAT c) F.CRS_STAT_RCAUSE = 4 ∧
        t.flag (R.CRS_EVT c) F.CRS_EVT_RESTART = true ∧ t.executes c = false)) ∧
  (∀ (s : State) (c : Fin 4), s.executes c = true → s.eventDue c = true →
    Completes (.eventEntry c) s fun t => Only [.crs] s t ∧ t.active3 c = s.active3 c ∧
      (∀ i ∈ s.active3 c, let x := (s.crsOf c).str i
        (t.crsOf c).str i =
          ({ x with epc := x.pc, estat := x.st, st := x.st &&& 0xFFFFFFEF, pc := 0x8 } : Str).aged 4) ∧
      (t.crsOf c).cycle = (s.crsOf c).cycle + 4) ∧
  (∀ (s : State) (c : Fin 4), s.crsRuns c = true → (s.crsOf c).sleep = true → (s.crsOf c).iso = none →
    s.eventPending c = true →
    Completes (.waitWake c) s fun t =>
      (t.crsOf c).sleep = false ∧ t.crsRuns c = true ∧
      (∃ n, ∀ i ∈ s.active3 c, (t.crsOf c).str i = ((s.crsOf c).str i).aged n) ∧ Only [.crs, .fresh] s t)

/-- Loads and stores complete in data RAM, code RAM, the store buffer and outside the map. (10 The course's address map,
10 Instructions and their cycles, 10 Events and exceptions) -/
def Obligations.SvaqLoadsAndStores : Prop :=
  (∀ (s : State) (c : Fin 4) (w : Word) (x : Str) (i : Instr) (n : Nat) (sign : Bool), Fetches s c w x →
    ((i = .svLdw c ∧ opCode w = 0x24 ∧ n = 4 ∧ sign = false) ∨ (i = .svLdh c ∧ opCode w = 0x25 ∧ n = 2 ∧ sign = false) ∨
     (i = .svLdhs c ∧ opCode w = 0x26 ∧ n = 2 ∧ sign = true) ∨ (i = .svLdb c ∧ opCode w = 0x27 ∧ n = 1 ∧ sign = false) ∨
     (i = .svLdbs c ∧ opCode w = 0x28 ∧ n = 1 ∧ sign = true)) →
    let a := (x.gpr (opA w) + simm14 w).toNat
    let ext (v : Nat) : Word :=
      if sign = true ∧ 2 ^ (8 * n - 1) ≤ v then BitVec.ofNat 32 (v + 2 ^ 32 - 2 ^ (8 * n)) else BitVec.ofNat 32 v
    Completes i s fun t =>
      (x.cond w = false → Only [.crs] s t ∧ Leaves s c x.retire 1 t) ∧
      (x.cond w = true → a % n ≠ 0 → x.xa = false → Only [.crs] s t ∧ Leaves s c (x.except .misalign) 4 t) ∧
      (x.cond w = true → a % n = 0 → 0x40000 ≤ a → a < 0x50000 → s.wordErr (0x10 + c) (a - 0x40000) = WordErr.init →
        Only [.crs] s t ∧ Leaves s c (x.setGpr (opD w) (ext (s.leAt (0x10 + c) (a - 0x40000) n))).retire 2 t) ∧
      (x.cond w = true → a % n = 0 → a < 0x30000 → s.wordErr c a = WordErr.init →
        Only [.crs] s t ∧ Leaves s c (x.setGpr (opD w) (ext (s.leAt c a n))).retire 3 t) ∧
      (x.cond w = true → a % n = 0 → courseSpot c a = .outside →
        Only [.crs] s t ∧ Leaves s c (x.setGpr (opD w) (ext (2 ^ (8 * n) - 1))).retire 6 t ∧ (t.crsOf c).ae = true)) ∧
  (∀ (s : State) (c : Fin 4) (w : Word) (x : Str) (i : Instr) (n : Nat), Fetches s c w x →
    ((i = .svStw c ∧ opCode w = 0x2C ∧ n = 4) ∨ (i = .svSth c ∧ opCode w = 0x2D ∧ n = 2) ∨
     (i = .svStb c ∧ opCode w = 0x2E ∧ n = 1)) →
    let a := (x.gpr (opA w) + simm14 w).toNat
    let v := (x.gpr (opD w)).toNat % 2 ^ (8 * n)
    Completes i s fun t =>
      (x.cond w = false → Only [.crs] s t ∧ Leaves s c x.retire 1 t) ∧
      (x.cond w = true → a % n ≠ 0 → x.xa = false → Only [.crs] s t ∧ Leaves s c (x.except .misalign) 4 t) ∧
      (x.cond w = true → a % n = 0 → 0x40000 ≤ a → a < 0x50000 → s.wordErr (0x10 + c) (a - 0x40000) = WordErr.init →
        Only [.crs, .mem] s t ∧ Leaves s c x.retire 1 t ∧ t.leAt (0x10 + c) (a - 0x40000) n = v ∧
        ∀ id off, off < 2 ^ 20 → ¬(id = 0x10 + c.val ∧ a - 0x40000 ≤ off ∧ off < a - 0x40000 + n) →
          t.byteAt id off = s.byteAt id off) ∧
      (x.cond w = true → a % n = 0 → (a < 0x40000 ∨ 0x50000 ≤ a) → (s.crsOf c).sbuf.length < 4 →
        Only [.crs] s t ∧ Leaves s c x.retire 1 t ∧
        (t.crsOf c).sbuf = (s.crsOf c).sbuf ++ [⟨BitVec.ofNat 32 a, n, BitVec.ofNat 32 v⟩])) ∧
  (∀ (s : State) (c : Fin 4) (e : StoreReq) (l : List StoreReq), s.chanUp c = true → (s.crsOf c).sbuf = e :: l →
    s.hangs (courseSpot c e.addr.toNat) = false →
    Completes (.storeLanding c) s fun t =>
      t = courseStore c e.width e.addr e.data (updCrs c (fun x => { x with sbuf := l }) s) ∧
      (courseSpot c e.addr.toNat = .outside → (t.crsOf c).ae = true ∧ (t.crsOf c).sbuf = l ∧ Only [.crs] s t))

/-- The string instructions and snap complete over data RAM. (10 String instructions, 10 The course's address map) -/
def Obligations.SvaqStringsRun : Prop :=
  (∀ (s : State) (c : Fin 4) (w : Word) (x : Str) (i : Instr) (e k : Nat), Fetches s c w x → opCode w = 0x3E →
    x.cond w = true → (s.crsOf c).mid = false →
    ((i = .svSmovw c e ∧ opNum w = 0 ∧ k = 4) ∨ (i = .svSmovb c e ∧ opNum w = 1 ∧ k = 1)) →
    let n := (x.gpr 14).toNat
    let a := (x.gpr 12).toNat
    let b := (x.gpr 13).toNat
    n ≤ e → a % k = 0 → b % k = 0 → 0x40000 ≤ a → a + k * n ≤ 0x50000 → 0x40000 ≤ b → b + k * n ≤ 0x50000 →
    (a + k * n ≤ b ∨ b + k * n ≤ a) → (∀ o < 0x10000, s.wordErr (0x10 + c) o = WordErr.init) →
    Completes i s fun t => Only [.crs, .mem] s t ∧ (t.crsOf c).mid = false ∧
      (t.crsOf c).cycle = (s.crsOf c).cycle + BitVec.ofNat 32 (1 + 3 * n) ∧
      (∀ j ∈ s.active3 c, let y := (t.crsOf c).str j
        y.gpr 12 = BitVec.ofNat 32 (a + k * n) ∧ y.gpr 13 = BitVec.ofNat 32 (b + k * n) ∧ y.gpr 14 = 0 ∧
        (∀ r, r ≠ 12 → r ≠ 13 → r ≠ 14 → y.gpr r = x.gpr r) ∧ y.st = x.st ∧ y.pc = x.retire.pc ∧ y.lc = x.retire.lc) ∧
      t.bytesAt (0x10 + c) (b - 0x40000) (k * n) = s.bytesAt (0x10 + c) (a - 0x40000) (k * n) ∧
      ∀ id off, off < 2 ^ 20 → ¬(id = 0x10 + c.val ∧ b - 0x40000 ≤ off ∧ off < b - 0x40000 + k * n) →
        t.byteAt id off = s.byteAt id off) ∧
  (∀ (s : State) (c : Fin 4) (w : Word) (x : Str) (e : Nat), Fetches s c w x → opCode w = 0x3E → opNum w = 2 →
    x.cond w = true → (s.crsOf c).mid = false → opA w ≠ 13 → opA w ≠ 14 →
    let n := (x.gpr 14).toNat
    let b := (x.gpr 13).toNat
    n ≤ e → b % 4 = 0 → 0x40000 ≤ b → b + 4 * n ≤ 0x50000 → (∀ o < 0x10000, s.wordErr (0x10 + c) o = WordErr.init) →
    Completes (.svSfillw c e) s fun t => Only [.crs, .mem] s t ∧
      (t.crsOf c).cycle = (s.crsOf c).cycle + BitVec.ofNat 32 (1 + n) ∧
      (∀ j ∈ s.active3 c, let y := (t.crsOf c).str j
        y.gpr 13 = BitVec.ofNat 32 (b + 4 * n) ∧ y.gpr 14 = 0 ∧ (∀ r, r ≠ 13 → r ≠ 14 → y.gpr r = x.gpr r) ∧
        y.st = x.st ∧ y.pc = x.retire.pc ∧ y.lc = x.retire.lc) ∧
      (∀ j < n, t.leAt (0x10 + c) (b - 0x40000 + 4 * j) 4 = (x.gpr (opA w)).toNat) ∧
      ∀ id off, off < 2 ^ 20 → ¬(id = 0x10 + c.val ∧ b - 0x40000 ≤ off ∧ off < b - 0x40000 + 4 * n) →
        t.byteAt id off = s.byteAt id off) ∧
  (∀ (s : State) (c : Fin 4) (w : Word) (x : Str) (e m : Nat), Fetches s c w x → opCode w = 0x3E → opNum w = 3 →
    x.cond w = true → (s.crsOf c).mid = false → opA w ≠ 12 → opA w ≠ 14 →
    let n := (x.gpr 14).toNat
    let a := (x.gpr 12).toNat
    n ≤ e → a % 4 = 0 → 0x40000 ≤ a → a + 4 * n ≤ 0x50000 → (∀ o < 0x10000, s.wordErr (0x10 + c) o = WordErr.init) →
    (∀ j < m, s.leAt (0x10 + c) (a - 0x40000 + 4 * j) 4 ≠ (x.gpr (opA w)).toNat) →
    Completes (.svSscanw c e) s fun t => Only [.crs] s t ∧
      (m = n → (t.crsOf c).cycle = (s.crsOf c).cycle + BitVec.ofNat 32 (1 + 3 * n) ∧
        ∀ j ∈ s.active3 c, let y := (t.crsOf c).str j
          y.gpr 12 = BitVec.ofNat 32 (a + 4 * n) ∧ y.gpr 14 = 0 ∧ (∀ r, r ≠ 12 → r ≠ 14 → y.gpr r = x.gpr r) ∧
          Flags.of y.st = { Flags.of x.st with z := false } ∧ y.pc = x.retire.pc) ∧
      (m < n → s.leAt (0x10 + c) (a - 0x40000 + 4 * m) 4 = (x.gpr (opA w)).toNat →
        (t.crsOf c).cycle = (s.crsOf c).cycle + BitVec.ofNat 32 (1 + 3 * (m + 1)) ∧
        ∀ j ∈ s.active3 c, let y := (t.crsOf c).str j
          y.gpr 12 = BitVec.ofNat 32 (a + 4 * m) ∧ y.gpr 14 = BitVec.ofNat 32 (n - m) ∧
          (∀ r, r ≠ 12 → r ≠ 14 → y.gpr r = x.gpr r) ∧
          Flags.of y.st = { Flags.of x.st with z := true } ∧ y.pc = x.retire.pc)) ∧
  (∀ (s : State) (c : Fin 4) (w : Word) (x : Str), Fetches s c w x → opCode w = 0x3E → opNum w = 4 → x.cond w = true →
    (s.crsOf c).sbuf = [] →
    let p := 128 * c.val + (x.gpr (opA w)).toNat % 128
    let b := (x.gpr (opB w)).toNat
    b % 4 = 0 → 0x40000 ≤ b → b + 64 ≤ 0x50000 → (∀ j < 16, s.wordErr (recPlace p j).1 (recPlace p j).2 = WordErr.init) →
    (∀ o < 0x10000, s.wordErr (0x10 + c) o = WordErr.init) →
    Completes (.svSnap c) s fun t => Only [.crs, .mem] s t ∧ Leaves s c x.retire 22 t ∧
      (∀ j < 16, t.leAt (0x10 + c) (b - 0x40000 + 4 * j) 4 = (s.recWord p j).toNat) ∧
      ∀ id off, off < 2 ^ 20 → ¬(id = 0x10 + c.val ∧ b - 0x40000 ≤ off ∧ off < b - 0x40000 + 64) →
        t.byteAt id off = s.byteAt id off)

/-- Posting, taking, answering and timing out of mailbox commands complete. (10 The course's address map, 16 Domain
requests, 01 The domain) -/
def Obligations.MailboxCommandsComplete : Prop :=
  (∀ (s : State) (c : Fin 4) (o : Origin) (cmd : List Byte), s.mgmtUp = true → s.chanUp c = true → 1 ≤ cmd.length →
    cmd.length ≤ 64 →
    Completes (.mbxPost c o cmd) s fun t =>
      (s.mbxFree c = [] → t.mbx = s.mbx) ∧
      (s.mbxFree c ≠ [] → ∃ (i : Fin 8) (e : MbxEntry), s.mbxOf c i = none ∧ t.mbxOf c i = some e ∧ e.taken = false ∧
        e.time = s.clock ∧ e.len = cmd.length ∧ e.origin = o ∧ e.reported = false ∧
        t.bytesAt 0x53 (mbxOff c i) cmd.length = cmd ∧
        (∀ (j : Fin 8) (f : MbxEntry), s.mbxOf c j = some f → f.order < e.order) ∧
        ∀ j : Fin 8, j ≠ i → t.mbxOf c j = s.mbxOf c j)) ∧
  (∀ (s : State) (c : Fin 4), s.chanUp c = true → s.mgmtUp = true →
    Completes (.mbxTakeRead c) s fun t =>
      ((∀ (i : Fin 8) (e : MbxEntry), s.mbxOf c i = some e → e.taken = true) → t.bus = 0 ∧ t.mbx = s.mbx) ∧
      Only [.regs, .clk, .log, .mbx, .bus] s t ∧ (s.clk.quiet = false → Only [.mbx, .bus] s t) ∧
      ∀ (i : Fin 8) (e : MbxEntry), s.mbxOf c i = some e → e.taken = false →
        (∀ (j : Fin 8) (f : MbxEntry), s.mbxOf c j = some f → f.taken = false → j = i ∨ e.order < f.order) →
        t.bus = BitVec.ofNat 32 (2 ^ 31 + i.val * 256 + e.len) ∧
        t.mbxOf c i = some { e with taken := true, time := s.clock } ∧
        ∀ j : Fin 8, j ≠ i → t.mbxOf c j = s.mbxOf c j) ∧
  (∀ (s : State) (c : Fin 4) (i : Fin 8) (len : BitVec 7), s.chanUp c = true → s.mgmtUp = true →
    Completes (.mbxDone c i len) s fun t =>
      (∀ e, s.mbxOf c i = some e → e.taken = true → len.toNat ≤ 64 →
        t.mbxOf c i = none ∧ (t.crsOf c).mbxErr = (s.crsOf c).mbxErr ∧
        ∀ j : Fin 8, j ≠ i → t.mbxOf c j = s.mbxOf c j) ∧
      ((64 < len.toNat ∨ s.mbxOf c i = none ∨ ∃ e, s.mbxOf c i = some e ∧ e.taken = false) →
        t.mbx = s.mbx ∧ (t.crsOf c).mbxErr = true ∧ Only [.regs, .clk, .log, .crs] s t ∧
        (s.clk.quiet = false → Only [.crs] s t))) ∧
  (∀ (s : State) (c : Fin 4) (i : Fin 8) (e : MbxEntry), s.mgmtUp = true → s.mbxOf c i = some e → e.taken = false →
    Completes (.mbxTakeTimeout c i) s fun t =>
      (s.past e.time 50000 = false → t = s) ∧
      (s.past e.time 50000 = true → t.mbxOf c i = none) ∧ ∀ j : Fin 8, j ≠ i → t.mbxOf c j = s.mbxOf c j) ∧
  (∀ (s : State) (c : Fin 4) (i : Fin 8) (e : MbxEntry), s.mgmtUp = true → s.mbxOf c i = some e → e.taken = true →
    e.reported = false →
    Completes (.mbxResponseTimeout c i) s fun t =>
      (s.past e.time 100000 = false → t = s) ∧
      (s.past e.time 100000 = true → t.mbxOf c i = some { e with reported := true }) ∧ ∀ j : Fin 8, j ≠ i → t.mbxOf c j = s.mbxOf c j) ∧
  (∀ (s : State) (c : Fin 4) (i : Nat) (e : MbxEntry), Caught s c → s.mgmtUp = true → s.mbxOldest c = some (i, e) →
    e.len = 1 → s.bytesAt 0x53 (mbxOff c i) 1 = [1] →
    Completes (.mbxPing c) s fun t =>
      t.mbxOf c i = none ∧ t.bytesAt 0x53 (mbxOff c i + 64) 6 = [1, 0] ++ natLe 4 (s.reg R.BOOT_FWVER).toNat) ∧
  (∀ (s : State) (c : Fin 4) (i : Nat) (e : MbxEntry) (k : Byte), Caught s c → s.mgmtUp = true →
    s.mbxOldest c = some (i, e) → e.len = 2 → s.bytesAt 0x53 (mbxOff c i) 2 = [2, k] →
    let p := 128 * c.val + k.toNat % 128
    Completes (.mbxPortRead c) s fun t =>
      t.mbxOf c i = none ∧ t.bytesAt 0x53 (mbxOff c i + 64) 14 =
        [2, 0] ++ natLe 4 (s.recWord p 7).toNat ++ natLe 4 (s.recWord p 8).toNat ++ natLe 4 (s.recWord p 10).toNat) ∧
  (∀ (s : State) (c : Fin 4) (i : Nat) (e : MbxEntry) (k : Byte), Caught s c → s.mgmtUp = true →
    s.mbxOldest c = some (i, e) → e.len = 2 → s.bytesAt 0x53 (mbxOff c i) 2 = [3, k] →
    let p := 128 * c.val + k.toNat % 128
    Completes (.mbxReneg c) s fun t =>
      t.mbxOf c i = none ∧
      (s.objPos p = 0 → t.bytesAt 0x53 (mbxOff c i + 64) 2 = [3, 1] ∧ t.fw = s.fw) ∧
      (s.objPos p ≠ 0 → t.bytesAt 0x53 (mbxOff c i + 64) 2 = [3, 0] ∧
        ((s.fwOf p).calm = false → (t.fwOf p).owe = true) ∧
        ((s.fwOf p).calm = true → s.bound p = true → s.entered p = false → (s.fwOf p).dead = false →
          (t.fwOf p).adv = toWords (s.capsObjs p))))

/-- The scan, the retune, restarts and the watchdogs of a course complete. (11 The bridge, 11 Recording a disagreement, 11
Retune, 11 Start, halt and restart, 11 The course watchdog, 11 Registers) -/
def Obligations.CoursesRestartAndRetune : Prop :=
  (∀ (s : State) (c : Fin 4), s.crsRuns c = true → (s.scanDue c = true ∨ (s.crsOf c).sleep = true) →
    let w := (s.crsOf c).scan
    Completes (.bridgeScan c) s fun t =>
      (2 ≤ (s.active3 c).length →
        (∀ i ∈ s.active3 c, ∀ j ∈ s.active3 c, ((s.crsOf c).str i).word w = ((s.crsOf c).str j).word w) →
        t.crsOf c = { s.crsOf c with scan := (w + 1) % 27, scanAge := (s.crsOf c).scanAge % 256 } ∧ Only [.crs] s t) ∧
      ∀ i j k : Nat, s.active3 c = [0, 1, 2] → [i, j, k].Perm [0, 1, 2] →
        ((s.crsOf c).str j).word w = ((s.crsOf c).str k).word w →
        ((s.crsOf c).str i).word w ≠ ((s.crsOf c).str j).word w →
        t.flag (R.CRS_EVT c) F.CRS_EVT_DISAGREE = true ∧
        t.reg (R.CRS_LASTDIS c) = BitVec.ofNat 32 (i * 2 ^ 30 + 6 * 2 ^ 27 + w) ∧
        ((s.crsOf c).second = s.tb.usec.toNat / 1000000 →
          tabGet 0 (s.crsOf c).out i + 1 ≤ s.fld (R.CRS_CFG c) F.CRS_CFG_RTMAX →
          (t.crsOf c).iso = some i ∧ t.flag (R.CRS_STAT c) F.CRS_STAT_RETUNING = true)) ∧
  (∀ (s : State) (c : Fin 4) (i : Fin 3), (s.crsOf c).iso = some i.val → s.chanUp c = true →
    (s.crsState c = 1 ∨ s.crsState c = 2) → (s.crsOf c).stall = false → s.crsHung c = false →
    Completes (.retuneStall c) s fun t =>
      (t.crsOf c).str i = t.lead c ∧ (t.crsOf c).stall = true ∧ (t.crsOf c).cycle = (s.crsOf c).cycle + 40 ∧
      (t.lead c).pc = (s.lead c).pc ∧ (t.lead c).g = (s.lead c).g ∧ Only [.crs] s t) ∧
  (∀ (s : State) (c : Fin 4) (i : Fin 3), (s.crsOf c).iso = some i.val → s.chanUp c = true → (s.crsOf c).stall = true →
    Completes (.retuneRejoin c) s fun t =>
      (t.crsOf c).iso = none ∧ (t.crsOf c).stall = false ∧ t.flag (R.CRS_STAT c) F.CRS_STAT_RETUNING = false ∧
      t.flag (R.CRS_EVT c) F.CRS_EVT_RETUNE = true ∧ (∀ j, (t.crsOf c).str j = (s.crsOf c).str j) ∧
      ((s.crsOf c).haltReq = true → t.crsState c = 2) ∧ ((s.crsOf c).haltReq = false → t.crsState c = s.crsState c)) ∧
  (∀ (s : State) (c : Fin 4), s.mgmtUp = true → s.chanUp c = true →
    Completes (.crsRestart c) s fun t =>
      (s.crsState c = 1 ∨ s.crsState c = 2 → t.crsState c = 3 ∧ t.fld (R.CRS_STAT c) F.CRS_STAT_RCAUSE = 8 ∧
        t.flag (R.CRS_EVT c) F.CRS_EVT_RESTART = true) ∧
      (s.crsState c = 0 ∨ s.crsState c = 3 → t.crsState c = s.crsState c ∧ Only [.regs, .clk, .log] s t ∧
        (s.clk.quiet = false → t.regs = s.regs ∧ t.log = s.log))) ∧
  (∀ (s : State) (c : Fin 4) (i : Fin 3), s.mgmtUp = true → s.chanUp c = true →
    (∀ j : Fin 3, s.parked c j = decide (j = i)) →
    Completes (.crsUnpark c) s fun t =>
      (∀ j : Fin 3, t.parked c j = false) ∧ t.flag (R.CRS_STAT c) F.CRS_STAT_DUPLEX = false ∧
      t.flag (R.CRS_STAT c) F.CRS_STAT_RETUNING = true ∧ (t.crsOf c).iso = some i.val ∧
      tabGet 0 (t.crsOf c).out i = 0 ∧ Only [.regs, .crs, .clk, .log] s t) ∧
  (∀ (s : State) (c : Fin 4) (code : List Byte), s.chanUp c = true → s.crsState c = 3 → (s.crsOf c).sbuf = [] →
    s.crsHung c = false → code.length ≤ 0x30000 → s.fld (R.CRS_STAT c) F.CRS_STAT_RCAUSE ≠ 9 →
    let k := s.fld (R.CRS_STAT c) F.CRS_STAT_RCAUSE
    Completes (.courseRestart c code) s fun t =>
      t.crsState c = 1 ∧ (t.crsOf c).s0 = Str.init ∧ (t.crsOf c).s1 = Str.init ∧ (t.crsOf c).s2 = Str.init ∧
      (t.crsOf c).cycle = 0 ∧ (t.crsOf c).even = 0 ∧ (t.crsOf c).wdStart = s.clock ∧
      (∀ o < 0x10000, t.byteAt (0x10 + c) o = 0 ∧ t.wordErr (0x10 + c) o = WordErr.init) ∧
      (∀ (i : Fin 8) (e : MbxEntry), s.mbxOf c i = some e → e.taken = true → t.mbxOf c i = none) ∧
      (k ≠ 7 → ∀ o < 0x30000, t.byteAt c o = s.byteAt c o) ∧
      (k = 7 → t.bytesAt c 0 code.length = code ∧ ∀ o < 0x30000, t.wordErr c o = WordErr.init)) ∧
  (∀ (s : State) (c : Fin 4) (v : Word), s.chanUp c = true → s.crsState c = 1 →
    Completes (.crsWdkick c v) s fun t =>
      (v = 0xC3A5 → t.crsOf c = { s.crsOf c with wdStart := s.wdNow c, wdFirst := false } ∧ Only [.crs] s t) ∧
      (v ≠ 0xC3A5 → t.flag (R.CRS_EVT c) F.CRS_EVT_WDBAD = true ∧ t.crs = s.crs)) ∧
  (∀ (s : State) (c : Fin 4), s.wdDue c = true → (s.crsOf c).wdFirst = false →
    Completes (.courseWatchdog c) s fun t =>
      (s.kickWaits c = true → t = s) ∧ (s.kickWaits c = false → t.crsState c = 3 ∧ t.fld (R.CRS_STAT c) F.CRS_STAT_RCAUSE = 5 ∧ (t.crsOf c).wdFirst = true ∧
      t.flag (R.CRS_EVT c) F.CRS_EVT_WDOG = true ∧ t.flag (R.CRS_EVT c) F.CRS_EVT_RESTART = true ∧
        (t.crsOf c).wdStart = s.clock)) ∧
  (∀ (s : State) (c : Fin 4), s.wdDue c = false → Completes (.courseWatchdog c) s fun t => t = s) ∧
  (∀ (s : State) (c : Fin 4), s.wdDue c = true → (s.crsOf c).wdFirst = true → s.kickWaits c = false →
    Completes (.channelWatchdog c) s fun t =>
      t.chanUp c = false ∧ t.flag (R.CRU_RCAUSE c) F.CRU_RCAUSE_WDOG = true ∧
      t.flag R.FLT_SUM F.FLT_SUM_CHWDOG = true ∧ ∀ d : Fin 4, d ≠ c → t.chanUp d = s.chanUp d)

/-- Scrub steps, rewritten words and log records complete; that a full ring erases its oldest sector when the next group
does not fit is the choice of log entry 82. (12 Memory protection, 12 The bittern log, 12 Registers, 13 Reset domains) -/
def Obligations.MemoryAndLogCommands : Prop :=
  (∀ (s : State) (mem : BitVec 8), mem.toNat ∈ memIds → s.scrubRuns mem.toNat = true →
    let id := mem.toNat
    let x := tabGet Scrubber.init s.scrubs id
    let off := 8 * x.next
    let e := s.wordErr id off
    let other := ¬(0x40 ≤ id ∧ id < 0x50) ∧ id ≠ 0x52
    Completes (.scrubStep mem) s fun t =>
      tabGet Scrubber.init t.scrubs id = (if memBytes id ≤ off + 8 then ⟨x.passes + 1, 0⟩ else ⟨x.passes, x.next + 1⟩) ∧
      (e = WordErr.init → Only [.regs, .scrubs, .scrubStart] s t ∧ (∀ a, a ≠ R.FLT_SCRUB → t.reg a = s.reg a) ∧
        (off + 8 < memBytes id → Only [.scrubs] s t)) ∧
      (e.decode = .corrected → flipCount e.flips ≤ 2 →
        t.fld R.FLT_ECCCNT F.FLT_ECCCNT_CE = min 65535 (s.fld R.FLT_ECCCNT F.FLT_ECCCNT_CE + 1) ∧
        t.fld R.FLT_ECCCNT F.FLT_ECCCNT_UE = s.fld R.FLT_ECCCNT F.FLT_ECCCNT_UE ∧
        t.flag R.FLT_SUM F.FLT_SUM_ECC_CE = true ∧ t.wordErr id off = WordErr.init ∧ t.mem = s.mem) ∧
      (e.decode = .uncorrectable → other → e.poison = false →
        t.wordErr id off = ⟨true, 0⟩ ∧
        t.fld R.FLT_ECCCNT F.FLT_ECCCNT_UE = min 65535 (s.fld R.FLT_ECCCNT F.FLT_ECCCNT_UE + 1) ∧
        t.fld R.FLT_ECCCNT F.FLT_ECCCNT_CE = s.fld R.FLT_ECCCNT F.FLT_ECCCNT_CE ∧
        t.reg R.FLT_ECCUADDR = BitVec.ofNat 32 off ∧ t.flag R.FLT_SUM F.FLT_SUM_ECC_UE = true ∧ t.mem = s.mem) ∧
      (e.poison = true → other → Only [.regs, .scrubs, .scrubStart] s t) ∧
      (e.decode = .uncorrectable → 0x40 ≤ id ∧ id < 0x50 →
        t.flag (R.CRU_RCAUSE (id % 16)) F.CRU_RCAUSE_UECC = true ∧ t.chanUp (id % 16) = false) ∧
      (e.decode = .uncorrectable → id = 0x52 → (∃ r ∈ s.log.staged, r.entry = off / 32) →
        t.poisoned 0x52 off = false ∧ (∀ r ∈ t.log.staged, r.entry ≠ off / 32) ∧
        t.flag R.FLT_SUM F.FLT_SUM_LOGLOST = true ∧ t.mem = s.mem)) ∧
  (∀ (s : State) (mem : BitVec 8) (off : BitVec 20) (w : BitVec 64), s.poisoned mem.toNat off.toNat = true →
    s.clk.porst = false → mem.toNat < 4 →
    Completes (.poisonedWordRewrite mem off w) s fun t =>
      t.wordErr mem.toNat off.toNat = WordErr.init ∧ t.leAt mem.toNat (off.toNat / 8 * 8) 8 = w.toNat ∧
      (∀ id a, a < 2 ^ 20 → id ≠ mem.toNat ∨ a < off.toNat / 8 * 8 ∨ off.toNat / 8 * 8 + 8 ≤ a →
        t.byteAt id a = s.byteAt id a) ∧ Only [.mem, .ecc] s t) ∧
  (∀ (s : State) (pl : Fin 3) (cls : Fin 64) (src : BitVec 16) (d0 : Word) (d1 : BitVec 16),
    Completes (.logPost pl cls src d0 d1) s fun t =>
      let r : LogRec := { plane := Plane.ofFin pl, cls := cls.val, lost := 0, src := src.toNat, seq := 0, usec := s.tb.usec,
                          cyc := s.tb.cyc, angle := s.tb.angle, data0 := d0, data1 := d1 }
      (s.clk.quiet = false → s.clk.mgmtReset = false → s.log.staged.length < 128 →
        t.log.staged = s.log.staged ++ [{ r with lost := s.log.lostOf (Plane.ofFin pl), seq := s.log.seq }] ∧
        t.log.seq = s.log.seq + 1 ∧ t.log.lostOf (Plane.ofFin pl) = 0 ∧ t.log.held = s.log.held ∧ Only [.log] s t) ∧
      (s.clk.mgmtReset = true ∨ s.clk.quiet = false ∧ 128 ≤ s.log.staged.length →
        t.log.staged = s.log.staged ∧ t.log.seq = s.log.seq ∧
        t.log.lostOf (Plane.ofFin pl) = min 255 (s.log.lostOf (Plane.ofFin pl) + 1) ∧
        t.flag R.FLT_SUM F.FLT_SUM_LOGLOST = true ∧ Only [.log, .regs] s t) ∧
      (s.clk.quiet = true → s.clk.mgmtReset = false → s.log.heldOf (Plane.ofFin pl) < 32 →
        t.log = { s.log with held := s.log.held ++ [r] } ∧ Only [.log] s t)) ∧
  (∀ (s : State) (n : Fin 9), s.mgmtUp = true → s.clk.quiet = false →
    (∀ o < 0x1000, s.wordErr 0x52 o = WordErr.init) →
    Completes (.logProgram n) s fun t =>
      (s.nvmA.ok = false → s.nvmB.ok = false → t = s) ∧
      (s.nvmA.ok = true ∨ s.nvmB.ok = true → t.log.staged = s.log.staged.drop n.val) ∧
      (s.nvmA.ok = false → t.log.ringA = s.log.ringA) ∧ (s.nvmB.ok = false → t.log.ringB = s.log.ringB) ∧
      (s.nvmA.ok = true →
        let cap := (s.fld R.BOOT_NVSIZE F.BOOT_NVSIZE_A * 2 ^ 20 - 0x1B00000) / 32
        (s.log.ringA.length + (s.log.staged.take n.val).length ≤ cap → t.log.ringA = s.log.ringA ++ s.log.staged.take n.val) ∧
        (cap < s.log.ringA.length + (s.log.staged.take n.val).length →
          t.log.ringA = s.log.ringA.drop 2048 ++ s.log.staged.take n.val)) ∧
      (s.nvmB.ok = true →
        let cap := (s.fld R.BOOT_NVSIZE F.BOOT_NVSIZE_B * 2 ^ 20 - 0x1B00000) / 32
        (s.log.ringB.length + (s.log.staged.take n.val).length ≤ cap → t.log.ringB = s.log.ringB ++ s.log.staged.take n.val) ∧
        (cap < s.log.ringB.length + (s.log.staged.take n.val).length →
          t.log.ringB = s.log.ringB.drop 2048 ++ s.log.staged.take n.val)) ∧
      t.log.seq = s.log.seq ∧ t.log.held = s.log.held ∧ Only [.log, .nvmA, .nvmB] s t)

/-- Losses and returns of clocks and supplies, and the releases of the management plane and of a port die, complete. (12
Clock monitors, 13 Clocks, 13 Reset domains, 13 Stopped clocks, 12 Registers, 13 Registers, 20 Power supply) -/
def Obligations.ClockAndSupplyCommands : Prop :=
  (∀ (s : State) (k : ClockId), s.clk.porst = false → s.lossSeen k = true →
    Completes (.clockLoss k) s fun t =>
      tabGet 0 t.clk.lostAt (clockSrc k) = s.clock ∧
      t.flag R.FLT_CLKSTAT (clockFld k) = true ∧ t.flag R.FLT_SUM F.FLT_SUM_CLK = true ∧
      (∀ c, k = .pll c → t.chanUp c = false ∧ t.flag (R.CRU_RCAUSE c) F.CRU_RCAUSE_PLL = true) ∧
      (k = .tclk → t.tclk = false ∧ t.flag R.FLT_LINKSTAT F.FLT_LINKSTAT_DEVHOLD = true ∧
        ∀ d : Fin 8, s.linkUp d = true → s.chanUp (d.val / 2) = true → (t.dieOf d).hold = true) ∧
      (k = .mclk → t.mgmtUp = false ∧ t.clk.mclkLost = true ∧ t.log.staged = [] ∧ t.mbx = []) ∧
      (∀ d, k = .die d → (t.dieOf d).inReset = true)) ∧
  (∀ (s : State) (k : ClockId), s.clk.porst = false → s.returnSeen k = true →
    Completes (.clockReturn k) s fun t =>
      (k = .tclk → t = s) ∧ (k = .mclk → t.clk.mclkLost = false ∧ t.reg R.FLT_CLKSTAT = s.reg R.FLT_CLKSTAT) ∧
      (k ≠ .tclk → k ≠ .mclk → t.flag R.FLT_CLKSTAT (clockFld k) = false) ∧ Only [.regs, .log, .clk] s t) ∧
  (∀ (s : State) (k : ClockId), s.past (tabGet 0 s.clk.lostAt (clockSrc k)) (returnUs k) = false →
    Completes (.clockReturn k) s fun t => t = s) ∧
  (∀ s : State,
    (Completes .refclkLoss s fun t => t.fld R.CRU_STAT F.CRU_STAT_REFOK = 0 ∧
      (∀ a, a ≠ R.CRU_STAT → t.reg a = s.reg a) ∧ Only [.regs] s t) ∧
    Completes .refclkReturn s fun t => t.fld R.CRU_STAT F.CRU_STAT_REFOK = 1 ∧
      (∀ a, a ≠ R.CRU_STAT → t.reg a = s.reg a) ∧ Only [.regs] s t) ∧
  (∀ s : State, s.clk.mgmtReset = true → s.clk.porst = false → s.clk.mclkLost = false →
    Completes .managementResetRelease s fun t => t.mgmtUp = true ∧ (∀ a, a ≠ R.LNK_STAT → t.reg a = s.reg a) ∧
      Only [.regs, .clk, .upd] s t) ∧
  (∀ (s : State) (d : Fin 8), (s.dieOf d).inReset = true → s.clk.porst = false →
    s.flag R.FLT_CLKSTAT (F.FLT_CLKSTAT_PDOSC.bit d) = false → s.vddpOver d = true →
    Completes (.portDieResetRelease d) s fun t =>
      (t.dieOf d).inReset = false ∧
      (∀ p, p / 64 = d.val → s.released = true → s.cls p = 1 ∨ s.cls p = 2 → (s.mirOf p).state ≠ .off →
        s.clk.extest = false → (t.portOf p).state = .idle ∧ (t.portOf p).term = true) ∧
      (∀ p, p / 64 ≠ d.val → t.portOf p = s.portOf p) ∧ (∀ e, e ≠ d.val → t.dieOf e = s.dieOf e) ∧
      Only [.die, .port, .mir, .adc, .dieRegs, .regs] s t) ∧
  (∀ (s : State) (d : Fin 8) (mv us : Nat),
    Completes (.vddpLow d mv us) s fun t =>
      (us < 2 ∨ 4500 ≤ mv → Only [.fresh] s t) ∧
      (2 ≤ us → mv < 4350 → (s.dieOf d).inReset = true → (t.dieOf d).vddpAt = some s.clock ∧ Only [.die] s t) ∧
      (2 ≤ us → mv < 4350 → (s.dieOf d).inReset = false →
        (t.dieOf d).vddpAt = some s.clock ∧
        (t.dieOf d).inReset = true ∧ (t.dieOf d).up = false ∧ (t.dieOf d).hold = false ∧
        (∀ p, p / 64 = d.val → (t.portOf p).state = .off ∧ (t.portOf p).ga = false ∧ (t.portOf p).gb = false ∧
          (t.portOf p).vconn = false ∧ (t.portOf p).failed = (s.portOf p).failed) ∧
        (∀ p, p / 64 ≠ d.val → t.portOf p = s.portOf p ∧ t.phyOf p = s.phyOf p) ∧
        Only [.port, .phy, .scan, .adc, .dieRegs, .die, .regs] s t)) ∧
  (∀ (s : State) (d : Fin 8) (mv us : Nat),
    Completes (.vghLow d mv us) s fun t =>
      (us < 10 ∨ 65000 ≤ mv ∨ (s.dieOf d).inReset = true → Only [.fresh] s t) ∧
      (10 ≤ us → mv < 64000 → (s.dieOf d).inReset = false → (t.dieOf d).vghLow = true ∧
        ∀ p, p / 64 = d.val → (s.portOf p).powered = true → (t.portOf p).goingDown = true)) ∧
  (∀ (s : State) (d : Fin 8) (mv : Nat),
    Completes (.vghRecover d mv) s fun t =>
      (mv < 66000 → t = s) ∧ (67000 ≤ mv → (t.dieOf d).vghLow = false ∧ Only [.die] s t)) ∧
  (∀ (s : State) (d : Fin 8) (mv us : Nat),
    Completes (.vconnSupplyLow d mv us) s fun t =>
      (us < 10 ∨ 4550 ≤ mv ∨ (s.dieOf d).inReset = true → Only [.fresh] s t) ∧
      (10 ≤ us → mv < 4400 → (s.dieOf d).inReset = false → (t.dieOf d).vconnLow = true ∧
        (∀ p, p / 64 = d.val → (t.portOf p).vconn = false) ∧ Only [.hub, .chan, .mir, .opq, .port, .die, .fresh] s t))

/-- Link losses and link up, autonomous hold and the rolling self-test complete. (12 Port-die links and autonomous hold,
12 Rolling self-test of the protection paths, 12 Registers) -/
def Obligations.LinkHoldAndTestCommands : Prop :=
  (∀ (s : State) (d : Fin 8), s.chanUp (d.val / 2) = true →
    Completes (.linkFrameCrcError d) s fun t =>
      t.fld (R.FLT_LINKCNT d) F.FLT_LINKCNT_CRCERR = min 65535 (s.fld (R.FLT_LINKCNT d) F.FLT_LINKCNT_CRCERR + 1) ∧
      t.fld (R.FLT_LINKCNT d) F.FLT_LINKCNT_LOSS = s.fld (R.FLT_LINKCNT d) F.FLT_LINKCNT_LOSS ∧
      t.flag R.FLT_SUM F.FLT_SUM_LINKERR = true ∧ Only [.regs] s t) ∧
  (∀ (s : State) (d : Fin 8) (three : Bool), s.flag R.FLT_LINKSTAT (F.FLT_LINKSTAT_UP.bit d) = true →
    Completes (.portDieLinkLoss d true three) s fun t =>
      t.flag R.FLT_LINKSTAT (F.FLT_LINKSTAT_UP.bit d) = false ∧
      t.fld (R.FLT_LINKCNT d) F.FLT_LINKCNT_LOSS = min 65535 (s.fld (R.FLT_LINKCNT d) F.FLT_LINKCNT_LOSS + 1) ∧
      (t.crsOf (d.val / 2)).link = true ∧ (t.dieOf d).downSince = some s.clock ∧
      (t.dieOf d).up = (s.dieOf d).up ∧ (t.dieOf d).hold = (s.dieOf d).hold ∧ Only [.regs, .die, .crs, .log] s t) ∧
  (∀ (s : State) (d : Fin 8) (three : Bool), (s.dieOf d).up = true →
    Completes (.portDieLinkLoss d false three) s fun t =>
      (t.dieOf d).up = false ∧ (t.dieOf d).hold = true ∧ (t.dieOf d).lostAt = some s.clock ∧
      ((s.dieOf d).hold = false → (t.dieOf d).holdStart = s.clock) ∧
      ((s.dieOf d).hold = true → (t.dieOf d).holdStart = (s.dieOf d).holdStart) ∧
      (∀ p, t.portOf p = s.portOf p) ∧ ∀ e, e ≠ d.val → t.dieOf e = s.dieOf e) ∧
  (∀ (s : State) (d : Fin 8), (s.dieOf d).inReset = false → s.chanUp (d.val / 2) = true →
    s.flag R.FLT_LINKSTAT (F.FLT_LINKSTAT_UP.bit d) = false → (s.dieOf d).up = false →
    s.trained (s.dieOf d).downSince = true → s.trained (s.dieOf d).lostAt = true →
    Completes (.portDieLinkUp d) s fun t =>
      (t.dieOf d).up = true ∧ (t.dieOf d).resetMirror = false ∧ (t.dieOf d).downSince = none ∧
      (t.dieOf d).hold = (s.dieOf d).hold ∧ (t.dieOf d).holdS = s.fld R.FLT_HOLDCFG F.FLT_HOLDCFG_HOLD_S ∧
      ∀ e, e ≠ d.val → t.dieOf e = s.dieOf e) ∧
  (∀ (s : State) (d : Fin 8), s.linkUp d = true →
    Completes (.holdOrder d) s fun t =>
      ((s.dieOf d).hold = true → t = s) ∧
      ((s.dieOf d).hold = false → (t.dieOf d).hold = true ∧ (t.dieOf d).holdStart = s.clock ∧
        (t.dieOf d).expired = false ∧ ∀ p, t.portOf p = s.portOf p)) ∧
  (∀ (s : State) (d : Fin 8), s.linkUp d = true → (s.dieOf d).hold = true → s.chanUp (d.val / 2) = true →
    s.tclk = true → s.holdWaits d = false →
    Completes (.endHold d) s fun t =>
      (t.dieOf d).hold = false ∧ (t.dieOf d).expired = false ∧ (t.dieOf d).up = true ∧
      ((s.holdEnds d = false ∨ .holdExpire d ∉ s.pending) → ∀ p, t.portOf p = s.portOf p) ∧
      (s.holdEnds d = true → .holdExpire d ∈ s.pending →
        ∀ p, p / 64 = d.val → (s.portOf p).powered = true → (t.portOf p).goingDown = true)) ∧
  (∀ (s : State) (d : Fin 8), s.holdWaits d = true → Completes (.endHold d) s fun t => t = s) ∧
  (∀ (s : State) (d : Fin 8), s.holdEnds d = false → Completes (.holdExpire d) s fun t => t = s) ∧
  (∀ (s : State) (d : Fin 8), s.holdEnds d = true →
    Completes (.holdExpire d) s fun t =>
      (t.dieOf d).expired = true ∧ (t.dieOf d).expDue = !s.linkUp d ∧ (t.dieOf d).hold = true ∧
      ∀ p, p / 64 = d.val → (s.portOf p).powered = true → (t.portOf p).goingDown = true) ∧
  (∀ (s : State) (p : Fin 512), (s.phyOf p).holdHr = true →
    Completes (.holdHardResetTimeout p) s fun t =>
      (s.past (s.phyOf p).holdHrAt (atLeast 30000) = false → t = s) ∧
      (s.past (s.phyOf p).holdHrAt (atLeast 30000) = true → (t.phyOf p).holdHr = false ∧ ((s.portOf p).powered = true → (t.portOf p).goingDown = true))) ∧
  (∀ (s : State) (d : Fin 8) (r : StResult), (s.dieOf d).inReset = false → s.past (s.dieOf d).testAt (atLeast 900000) = true →
    s.slotFree (4 * d.val) = true → s.slotFree (4 * d.val + 1) = true → s.slotFree (4 * d.val + 2) = true →
    s.slotFree (4 * d.val + 3) = true →
    s.dfld (R.FLT_STSTAT d) F.FLT_STSTAT_NEXT ≤ 64 →
    let k := s.dfld (R.FLT_STSTAT d) F.FLT_STSTAT_NEXT
    let p := 64 * d.val + (k - 1)
    Completes (.selftestStep d r) s fun t =>
      t.dfld (R.FLT_STSTAT d) F.FLT_STSTAT_NEXT = (k + 1) % 65 ∧
      t.dfld (R.FLT_STSTAT d) F.FLT_STSTAT_ROUNDS =
        (s.dfld (R.FLT_STSTAT d) F.FLT_STSTAT_ROUNDS + (if k = 64 then 1 else 0)) % 256 ∧
      (k = 0 → StResult.failed r = none → r ≠ .abandoned → t.spareOk d = true) ∧
      (∀ n, k = 0 → StResult.failed r = some n → t.spareOk d = false) ∧
      (∀ n, k ≠ 0 → s.testable d (k - 1) = true → StResult.failed r = some n →
        (t.dreg (R.FLT_STFAIL (p / 32))).getLsbD (p % 32) = true ∧
        (s.spareOk d = true → s.spareUse d = false →
          t.spareUse d = true ∧ t.dfld (R.FLT_STSTAT d) F.FLT_STSTAT_SPPORT = k - 1 ∧ t.portOf p = s.portOf p) ∧
        (s.spareOk d = false ∨ s.spareUse d = true →
          (t.portOf p).failed = true ∧ ((s.portOf p).powered = true → (t.portOf p).goingDown = true) ∧
          t.spareUse d = s.spareUse d)) ∧
      (k ≠ 0 → s.testable d (k - 1) = false → t.port = s.port) ∧ (StResult.failed r = none → t.port = s.port)) ∧
  ∀ (s : State) (d : Fin 8) (r : StResult), s.past (s.dieOf d).testAt (atLeast 900000) = false →
    Completes (.selftestStep d r) s fun t => t = s

/-- A reset of a channel clears it and tells its peers, and its release gives it the active bank. (13 Reset domains, 13
Peer reset, 13 Registers, 01 Channels) -/
def Obligations.ChannelResetAndRelease : Prop :=
  (∀ (s : State) (c : Fin 4) (k : ResetCause), s.chanUp c = true → (k = .watchdog → s.stage2Due c = true) →
    (∀ off, k = .uecc off → (s.wordErr (0x40 + c) off.toNat).decode = .uncorrectable) →
    Completes (.channelReset c k) s fun t =>
      t.chanUp c = false ∧ (t.chanOf c).resetAt = s.clock ∧
      (k = .watchdog → t.flag (R.CRU_RCAUSE c) F.CRU_RCAUSE_WDOG = true ∧ t.flag R.FLT_SUM F.FLT_SUM_CHWDOG = true) ∧
      (k = .pll → t.flag (R.CRU_RCAUSE c) F.CRU_RCAUSE_PLL = true) ∧
      (∀ off, k = .uecc off → t.flag (R.CRU_RCAUSE c) F.CRU_RCAUSE_UECC = true) ∧
      (k = .host → t.flag (R.CRU_RCAUSE c) F.CRU_RCAUSE_HOST = true) ∧
      (∀ n < 64, (t.ctxOf c n).state = .free ∧ (t.ctxOf c n).gen = (s.ctxOf c n).gen) ∧
      (∀ i < 64, t.opOf c i = none) ∧ t.crsOf c = Course.init ∧ (∀ i < 8, t.mbxOf c i = none) ∧
      (∀ (i : Fin 8) (e : MbxEntry) (tag : BitVec 8), s.mbxOf c i = some e → e.origin = .host tag → e.reported = false →
        s.pendingTag tag.toNat = true → t.fld R.TWM_RQSTAT F.TWM_RQSTAT_ST = 11) ∧
      (∀ d, d / 2 = c.val → (t.dieOf d).up = false) ∧
      (s.mgmtUp = true → t.flag R.CRU_PEER (F.CRU_PEER_CH_M.bit c) = true) ∧
      (s.tclk = true → t.flag R.CRU_PEER (F.CRU_PEER_CH_T.bit c) = true) ∧
      ∀ e : Fin 4, e ≠ c → t.chanOf e = s.chanOf e ∧ t.crsOf e = s.crsOf e ∧ ∀ n < 64, t.ctxOf e n = s.ctxOf e n) ∧
  (∀ (s : State) (c : Fin 4), s.chanUp c = false →
    (Completes (.channelReset c .host) s fun t => t.flag (R.CRU_RCAUSE c) F.CRU_RCAUSE_HOST = true ∧
      t.chanOf c = { s.chanOf c with resetAt := s.clock } ∧
      (∀ a, a ≠ R.CRU_RCAUSE c → t.reg a = s.reg a) ∧ Only [.regs, .chan] s t) ∧
    Completes (.channelReset c .pll) s fun t => t.flag (R.CRU_RCAUSE c) F.CRU_RCAUSE_PLL = true ∧
      t.chanOf c = { s.chanOf c with resetAt := s.clock } ∧
      (∀ a, a ≠ R.CRU_RCAUSE c → t.reg a = s.reg a) ∧ Only [.regs, .chan] s t) ∧
  (∀ (s : State) (c : Fin 4), s.stage2Due c = false → Completes (.channelReset c .watchdog) s fun t => t = s) ∧
  (∀ (s : State) (v : Word), s.mgmtUp = true →
    Completes (.cruChrst v) s fun t =>
      (F.CRU_CHRST_KEY.get v ≠ 0x5A → Only [.regs, .clk, .log] s t ∧
        (s.clk.quiet = false → t.regs = s.regs ∧ t.log = s.log)) ∧
      (F.CRU_CHRST_KEY.get v = 0x5A → ∀ c : Fin 4,
        (v.getLsbD c = true → t.chanUp c = false ∧ t.flag (R.CRU_RCAUSE c) F.CRU_RCAUSE_HOST = true) ∧
        (v.getLsbD c = false → t.chanOf c = s.chanOf c ∧ t.crsOf c = s.crsOf c ∧
          t.reg (R.CRU_RCAUSE c) = s.reg (R.CRU_RCAUSE c)))) ∧
  (∀ (s : State) (c : Fin 4), s.chanUp c = false → s.clk.porst = false →
    s.flag R.FLT_CLKSTAT (F.FLT_CLKSTAT_PLL.bit c) = false → s.past (s.chanOf c).resetAt 10 = true →
    Completes (.channelResetRelease c) s fun t =>
      t.chanUp c = true ∧ (t.chanOf c).bank = s.active ∧ (∀ e, e ≠ c.val → t.chanOf e = s.chanOf e) ∧
      Only [.chan, .hub, .regs] s t) ∧
  ∀ (s : State) (c : Fin 4), s.past (s.chanOf c).resetAt 10 = false →
    Completes (.channelResetRelease c) s fun t => t = s

/-- An abandoned management access, and quiet mode's entry and wake, complete. (13 Stopped clocks, 13 Quiet mode, 13
Registers, 16 The register window) -/
def Obligations.ManagementTimeoutAndQuiet : Prop :=
  (∀ (s : State) (a : Word) (write win : Bool), s.mgmtUp = true →
    Completes (.mgmtAccessTimeout a write win) s fun t =>
      t.fld R.CRU_MAERR F.CRU_MAERR_ERR = 1 ∧ t.fld R.CRU_MAERR F.CRU_MAERR_CAUSE = 3 ∧
      t.fld R.CRU_MAERR F.CRU_MAERR_COUNT = min 65535 (s.fld R.CRU_MAERR F.CRU_MAERR_COUNT + 1) ∧
      t.reg R.CRU_MAADDR = a ∧ t.bus = (if write then s.bus else 0xFFFFFFFF) ∧
      (win = true → t.flag R.TWM_EVT F.TWM_EVT_WERR = true) ∧
      (win = true → write = false → t.reg R.TWM_LRD = 0xFFFFFFFF) ∧
      (win = false → ∀ b, b ≠ R.CRU_MAERR → b ≠ R.CRU_MAADDR → t.reg b = s.reg b) ∧ Only [.regs, .bus] s t) ∧
  (∀ s : State,
    Completes .quietEntry s fun t =>
      (s.mgmtUp = true → s.clk.quiet = false → s.flag R.CRU_QCFG F.CRU_QCFG_QEN = true → s.mgmtIdle = true →
        1000 * max 10 (min 60000 (s.fld R.CRU_QCFG F.CRU_QCFG_QIDLE_MS)) ≤ s.since s.clk.idleAt →
        t.clk.quiet = true ∧
        t.fld R.CRU_QSTAT F.CRU_QSTAT_ENTRIES = min 65535 (s.fld R.CRU_QSTAT F.CRU_QSTAT_ENTRIES + 1) ∧
        (∀ a, a ≠ R.CRU_QSTAT → t.reg a = s.reg a) ∧ Only [.regs, .clk] s t) ∧
      (s.mgmtIdle = false ∨ s.flag R.CRU_QCFG F.CRU_QCFG_QEN = false ∨ s.since s.clk.idleAt < 10000 → t = s)) ∧
  (∀ (s : State) (src : Fin 6),
    Completes (.quietWake src) s fun t =>
      (s.clk.quiet = false ∨ s.wakeSource src = false → t = s) ∧
      (s.clk.quiet = true → s.wakeSource src = true →
        t.clk.quiet = false ∧ t.fld R.CRU_QSTAT F.CRU_QSTAT_LASTWAKE = src.val + 1 ∧ t.log.held = [] ∧
        (s.clk.mgmtReset = false → s.log.staged.length + s.log.held.length ≤ 128 →
          t.log.staged.length = s.log.staged.length + s.log.held.length ∧
          t.log.seq = s.log.seq + BitVec.ofNat 32 s.log.held.length) ∧ Only [.regs, .clk, .log] s t))

/-- A command that finds its lane full is answered busy to its origin and is not queued. (R29) -/
def Obligations.FullLaneAnswersBusy : Prop :=
  ∀ (s : State) (c : Fin 4) (o : Origin) (cmd : List Byte), s.mgmtUp = true → s.chanUp c = true → 1 ≤ cmd.length →
    cmd.length ≤ 64 → (∀ i < 8, s.mbxOf c i ≠ none) →
    let w := wakeUp 1 s
    let u : State := { w with clk := { w.clk with idleAt := w.tb.usec } }
    Completes (.mbxPost c o cmd) s fun t =>
      t.mbx = s.mbx ∧ t.mem = s.mem ∧
      (∀ tag, o = .host tag → s.pendingTag tag.toNat = true →
        t.fld R.TWM_RQSTAT F.TWM_RQSTAT_ST = 8 ∧ t.fld R.TWM_RQSTAT F.TWM_RQSTAT_LEN = 0 ∧
        t.fld R.TWM_RQSTAT F.TWM_RQSTAT_TAG = tag.toNat ∧ t.flag R.TWM_EVT F.TWM_EVT_RQDONE = true ∧ t.twm.resp = []) ∧
      (∀ tag, o = .domain tag → s.isRoot = false → t = routeFrame 0 (u.ownFrame .resp 0 [8, tag]) u)

/-- PORST_N and the boot steps complete: fuse sense, discovery, image read, signature, value checks, settings and release.
(14 The boot sequence, 14 The cabinet image, 14 The flash devices, 15 Sensing at power-up, 14 Registers, 13 Reset
domains) -/
def Obligations.BootStepsComplete : Prop :=
  (∀ s : State,
    Completes .porstNAssert s fun t =>
      t.clk.porst = true ∧ (∀ a, t.reg a = regReset a) ∧ (∀ p, t.portOf p = Port.init) ∧ t.pending = s.pending ∧
      t.log.ringA = s.log.ringA ∧ t.log.ringB = s.log.ringB ∧
      (s.otp.cmd = none → t.fuse = s.fuse ∧ t.weak = s.weak) ∧
      (s.nvmA.writing = none → t.nvmA = { Nvm.init with torn := s.nvmA.torn }) ∧
      (s.nvmB.writing = none → t.nvmB = { Nvm.init with torn := s.nvmB.torn })) ∧
  (∀ (s : State) (addr : Fin 8), s.clk.porst = true →
    Completes (.porstNRelease addr) s fun t =>
      t.clk.porst = false ∧ t.mgmtUp = true ∧ t.fld R.TWM_STAT F.TWM_STAT_SADDR = 0x38 + addr.val ∧
      t.calBusy 32 = true ∧ t.calBusy 33 = true ∧ (∀ c < 4, (t.chanOf c).resetAt = s.clock) ∧
      Only [.adc, .chan, .clk, .dieRegs, .log, .regs] s t) ∧
  (∀ s : State, s.bootRuns = true → s.phase = 0 → s.flag R.OTP_STAT F.OTP_STAT_SENSED = false →
    Completes .fuseSense s fun t =>
      t.flag R.OTP_STAT F.OTP_STAT_SENSED = true ∧ (∀ w < 0xE0, t.reg (R.OTP_DATA w) = s.fuseWord w) ∧
      t.flag R.BOOT_STAT F.BOOT_STAT_SECURE = (votedSec s.fuseWord).getLsbD 0 ∧
      (fuseBad s.fuseWord = true → t.phase = 7 ∧ t.flag R.BOOT_STAT F.BOOT_STAT_FUSEBAD = true) ∧
      (fuseBad s.fuseWord = false → t.phase = 1 ∧
        t.reg R.GLB_VIDPID = s.fuseWord (if regionState s.fuseWord 0 = 1 then 0 else 8)) ∧
      (∀ d < 8, (t.dieOf d).trim = votedTrim s.fuseWord d) ∧ Only [.die, .log, .otp, .regs] s t) ∧
  (∀ (s : State) (a b : FlashDev), s.bootRuns = true → s.phase = 1 →
    let x := flashNvm s.nvmA.torn a
    let y := flashNvm s.nvmB.torn b
    let l := candidates x.hdr y.hdr s.boot.retry
    Completes (.flashDiscovery a b) s fun t =>
      t.nvmA = x ∧ t.nvmB = y ∧ t.flag R.BOOT_STAT F.BOOT_STAT_NVA_OK = flashGood a ∧
      t.flag R.BOOT_STAT F.BOOT_STAT_NVB_OK = flashGood b ∧
      ((∀ e ∈ l, e.2 = none) → t.phase = 7 ∧ t.boot.cands = []) ∧
      ((∃ e ∈ l, e.2 ≠ none) → t.phase = 2 ∧ t.boot.cands = l.dropWhile (fun e => e.2.isNone) ∧ t.boot.img = [])) ∧
  (∀ s : State, s.bootRuns = true →
    let fails (code : Nat) (t : State) : Prop := ∀ i k l, i < 4 → s.boot.cands = (i, some k) :: l →
      (l = [] → t.fld R.BOOT_FAIL ⟨8 * i, 8⟩ = code ∧ t.phase = 7 ∧ t.boot.cands = []) ∧
      ∀ j m r, l = (j, some m) :: r →
        t.fld R.BOOT_FAIL ⟨8 * i, 8⟩ = code ∧ t.phase = 2 ∧ t.boot.cands = l ∧ t.boot.img = []
    let cleared (t : State) : Prop := ∀ c ∈ s.boot.wrote, ∀ a < 0x30000, t.byteAt c a = 0
    (s.phase = 2 →
      (Completes (.imageRead none) s fun t => fails 0x0A t ∧ cleared t) ∧
      ∀ b, Completes (.imageRead (some b)) s fun t =>
        (imageForm b ≠ 0 → fails (imageForm b) t ∧ cleared t) ∧
        (imageForm b = 0 → imageHashes b = false → fails 4 t) ∧
        (imageForm b = 0 → imageHashes b = true → t.phase = 3 ∧ t.boot.img = b ∧ t.boot.cands = s.boot.cands ∧
          ∀ x, imgSecs b = [x] → ∀ c ∈ x.chans, t.bytesAt c 0 ((x.bytes b).take 0x30000).length = (x.bytes b).take 0x30000)) ∧
    (s.phase = 3 →
      let b := s.boot.img
      Completes .signatureCheck s fun t =>
        (s.flag R.BOOT_STAT F.BOOT_STAT_SECURE = false → t.phase = 4 ∧ t.boot.sigOk = imageSigned b) ∧
        (s.flag R.BOOT_STAT F.BOOT_STAT_SECURE = true →
          (imageSigned b = true → s.imageKey b = true → t.phase = 4 ∧ t.boot.sigOk = true) ∧
          (imageSigned b = false → fails 5 t ∧ cleared t) ∧
          (imageSigned b = true → s.imageKey b = false → fails 6 t ∧ cleared t))) ∧
    (s.phase = 4 →
      let b := s.boot.img
      Completes .valueCheck s fun t =>
        (imageValues b ≠ 0 → fails (imageValues b) t ∧ cleared t) ∧
        ∀ i k l, imageValues b = 0 → s.boot.cands = (i, some k) :: l → i < 6 → k < 3 →
          t.phase = 5 ∧ t.reg R.BOOT_FWVER = imgVer b ∧ t.reg R.BOOT_IMGINFO = imgInfo b ∧
          t.fld R.BOOT_STAT F.BOOT_STAT_CAND = i ∧ t.fld R.BOOT_STAT F.BOOT_STAT_SLOT = k ∧
          t.flag R.BOOT_STAT F.BOOT_STAT_SIGOK = s.boot.sigOk)) ∧
  (∀ (s : State) (a0 a1 b0 b1 : Option (List Byte)), s.bootRuns = true → s.phase = 5 → s.boot.ready = false →
    let on (n : Nvm) (k : Nat) (x : Option (List Byte)) : Option SetRec := if n.ok ∧ k ∉ n.torn then x.bind parseSet else none
    let best := bestSet [(0, on s.nvmA 2 a0), (1, on s.nvmA 3 a1), (2, on s.nvmB 2 b0), (3, on s.nvmB 3 b1)]
    let img := imageRegs s.boot.img
    Completes (.settingsApply a0 a1 b0 b1) s fun t =>
      let loads (l : List (Nat × Word)) : Prop := ∀ a, a < 0x4000 ∨ 0x4440 ≤ a ∧ a < 0x100000 → savedReg a = true →
        (∀ v r, l.reverse.lookup a = some v → findReg a = some r → t.reg a = v &&& BitVec.ofNat 32 r.rw) ∧
        (l.reverse.lookup a = none → t.reg a = regReset a)
      t.boot.ready = true ∧ t.flag R.BOOT_SETSTAT F.BOOT_SETSTAT_DIRTY = false ∧
      (best = none → t.fld R.BOOT_SETSTAT F.BOOT_SETSTAT_RESULT = 1 ∧ loads img) ∧
      ∀ i r, best = some (i, r) →
        (r.sver < s.fld R.BOOT_IMGINFO F.BOOT_IMGINFO_SVER_MIN →
          t.fld R.BOOT_SETSTAT F.BOOT_SETSTAT_RESULT = 2 ∧ loads img) ∧
        (s.fld R.BOOT_IMGINFO F.BOOT_IMGINFO_SVER_MIN ≤ r.sver → s.fld R.BOOT_IMGINFO F.BOOT_IMGINFO_SVER < r.sver →
          t.fld R.BOOT_SETSTAT F.BOOT_SETSTAT_RESULT = 3 ∧ loads img) ∧
        (s.fld R.BOOT_IMGINFO F.BOOT_IMGINFO_SVER_MIN ≤ r.sver → r.sver ≤ s.fld R.BOOT_IMGINFO F.BOOT_IMGINFO_SVER →
          t.fld R.BOOT_SETSTAT F.BOOT_SETSTAT_RESULT = 0 ∧ t.fld R.BOOT_SETSTAT F.BOOT_SETSTAT_COPY = i ∧
          loads (img ++ r.entries.filter fun e => savedReg e.1))) ∧
  (∀ s : State, s.bootRuns = true → (∀ u < 34, (s.adcOf u).scanOn = true ∧ s.calBusy u = false) →
    Completes .bootCalibrationDone s fun t => t.boot.calDone = true ∧ Only [.boot] s t) ∧
  (∀ s : State, s.bootRuns = true → s.phase = 5 → s.boot.ready = true → s.boot.calDone = true →
    (∀ c < 4, s.chanUp c = true) →
    Completes .bootRelease s fun t =>
      t.released = true ∧ t.phase = 6 ∧ t.reg R.BOOT_TREL = s.tb.usec.truncate 32 ∧
      t.fld R.BOOT_LOCK F.BOOT_LOCK_LOCKED = 1 ∧
      ∀ c : Fin 4, t.crsState c = 1 ∧ t.fld (R.CRS_STAT c) F.CRS_STAT_RCAUSE = 1 ∧ (t.crsOf c).s0 = Str.init ∧
        (t.crsOf c).s1 = Str.init ∧ (t.crsOf c).s2 = Str.init ∧ ∀ a < 0x10000, t.byteAt (0x10 + c.val) a = 0)

/-- Retry, save, settings write-back, powered hours, refresh and a course's release after its channel's reset complete.
(14 The boot sequence, 14 The settings record, 14 Background refresh, 14 Registers) -/
def Obligations.BootServicesComplete : Prop :=
  (∀ s : State, s.mgmtUp = true →
    Completes .bootRetry s fun t => Only [.boot, .regs, .clk, .log] s t ∧
      (s.phase = 7 → s.flag R.BOOT_STAT F.BOOT_STAT_FUSEBAD = false →
        t.phase = 1 ∧ t.reg R.BOOT_FAIL = 0 ∧ t.reg R.BOOT_FAILS = 0 ∧ t.boot.retry = true ∧ t.boot.ready = false) ∧
      (s.phase ≠ 7 ∨ s.flag R.BOOT_STAT F.BOOT_STAT_FUSEBAD = true → t.boot = s.boot ∧
        (s.clk.quiet = false → t.regs = s.regs))) ∧
  (∀ s : State, s.mgmtUp = true →
    Completes .bootSave s fun t => Only [.boot, .regs, .clk, .log] s t ∧ (s.clk.quiet = false → t.regs = s.regs) ∧
      (s.phase = 6 → t.boot.saveNow = true) ∧ (s.phase ≠ 6 → t.boot = s.boot)) ∧
  (∀ (s : State) (ok : Bool), s.mgmtUp = true → s.boot.wb = none →
    let r : SetRec := { seq := (s.lastSeq + 1) % 2 ^ 32, sver := s.fld R.BOOT_IMGINFO F.BOOT_IMGINFO_SVER,
                        entries := s.changedSettings }
    Completes (.settingsWriteback ok) s fun t =>
      (s.writebackDue = false → t = s) ∧
      (s.writebackDue = true → t.boot.saveNow = false ∧ Only [.boot, .nvmA, .nvmB, .regs, .clk, .log] s t ∧
        (s.nvmA.ok = true → t.boot.wb = some ⟨r, false, false, false⟩ ∧ t.nvmA = s.nvmA.beginSet ∧ t.nvmB = s.nvmB) ∧
        (s.nvmA.ok = false → s.nvmB.ok = true →
          t.boot.wb = some ⟨r, true, false, false⟩ ∧ t.nvmA = s.nvmA ∧ t.nvmB = s.nvmB.beginSet) ∧
        (s.nvmA.ok = false → s.nvmB.ok = false →
          t.boot.wb = none ∧ t.flag R.BOOT_SETSTAT F.BOOT_SETSTAT_WBERR = true))) ∧
  (∀ (s : State) (ok : Bool) (w : Wb), s.mgmtUp = true → s.boot.wb = some w →
    Completes (.settingsWriteback ok) s fun t =>
      t.saved = s.saved ∧ Only [.boot, .nvmA, .nvmB, .regs, .log] s t ∧
      (w.onB = false → t.nvmA = s.nvmA.endSet w.record ok ∧
        (s.nvmB.ok = true → t.boot.wb = some { w with onB := true, okA := ok } ∧ t.nvmB = s.nvmB.beginSet) ∧
        (s.nvmB.ok = false → t.boot.wb = none ∧ t.nvmB = s.nvmB ∧
          t.flag R.BOOT_SETSTAT F.BOOT_SETSTAT_WBERR = true)) ∧
      (w.onB = true → t.nvmA = s.nvmA ∧ t.nvmB = s.nvmB.endSet w.record ok ∧ t.boot.wb = none ∧
        t.flag R.BOOT_SETSTAT F.BOOT_SETSTAT_WBERR = !(w.okA && ok) ∧
        t.flag R.BOOT_SETSTAT F.BOOT_SETSTAT_DIRTY =
          (s.flag R.BOOT_SETSTAT F.BOOT_SETSTAT_DIRTY && (w.again || !(w.okA && ok))))) ∧
  (∀ s : State, s.mgmtUp = true → s.fld R.BOOT_REFSTAT F.BOOT_REFSTAT_STATE < 2 → (s.nvmA.ok = true ∨ s.nvmB.ok = true) →
    Completes .bootRefresh s fun t =>
      (s.shipRefusal ≠ 0 → t.fld R.BOOT_REFSTAT F.BOOT_REFSTAT_STATE = 1 ∧
        t.fld R.BOOT_REFSTAT F.BOOT_REFSTAT_REASON = s.shipRefusal ∧ t.boot.refWant = true) ∧
      (s.shipRefusal = 0 → s.updateBusy = true →
        t.fld R.BOOT_REFSTAT F.BOOT_REFSTAT_STATE = 1 ∧ t.boot.refWant = true) ∧
      (s.shipRefusal = 0 → s.updateBusy = false →
        t.fld R.BOOT_REFSTAT F.BOOT_REFSTAT_STATE = (if s.nvmA.ok then 2 else 3) ∧
        t.fld R.BOOT_REFSTAT F.BOOT_REFSTAT_PCT = 0 ∧ t.boot.refWant = false) ∧ Only [.boot, .log, .regs, .clk] s t) ∧
  (∀ s : State, s.clk.porst = false → s.clk.mclkLost = false →
    Completes .poweredHour s fun t =>
      t.reg R.BOOT_PWRHRS = s.reg R.BOOT_PWRHRS + 1 ∧ t.reg R.BOOT_LASTREF = s.reg R.BOOT_LASTREF ∧
      Only [.boot, .log, .nvmA, .nvmB, .regs, .clk] s t) ∧
  (∀ s : State, s.bootRuns = true → 2 ≤ s.fld R.BOOT_REFSTAT F.BOOT_REFSTAT_STATE →
    let onA := s.fld R.BOOT_REFSTAT F.BOOT_REFSTAT_STATE = 2
    let own := if onA then s.nvmA else s.nvmB
    let other := if onA then s.nvmB else s.nvmA
    let target (t : State) : Nvm := if onA then t.nvmA else t.nvmB
    (s.boot.refresh = none → ∀ a b : List (List Byte),
      Completes (.flashRefresh (.verify a b)) s fun t => target t = { own with writing := some 4 } ∧
        t.boot.refresh = some { other := other.imagesVerify b, hashes := (if other.imagesVerify b then b else a).map sha384 } ∧
        Only [.boot, .nvmA, .nvmB] s t) ∧
    (∀ r pct, s.boot.refresh = some r →
      Completes (.flashRefresh (.block pct)) s fun t => t.fld R.BOOT_REFSTAT F.BOOT_REFSTAT_PCT = pct.val ∧
        t.fld R.BOOT_REFSTAT F.BOOT_REFSTAT_STATE = s.fld R.BOOT_REFSTAT F.BOOT_REFSTAT_STATE ∧ Only [.regs] s t) ∧
    ∀ r slots, s.boot.refresh = some r →
      Completes (.flashRefresh (.result slots)) s fun t =>
        t.boot.refresh = none ∧ t.fld R.BOOT_REFSTAT F.BOOT_REFSTAT_PCT = 0 ∧
        (slots.map sha384 ≠ r.hashes → t.nvmA = s.nvmA ∧ t.nvmB = s.nvmB ∧
          t.fld R.BOOT_REFSTAT F.BOOT_REFSTAT_STATE = s.fld R.BOOT_REFSTAT F.BOOT_REFSTAT_STATE) ∧
        (slots.map sha384 = r.hashes →
          (target t).set0 = (if r.other then other else own).set0 ∧ (target t).set1 = (if r.other then other else own).set1 ∧
          (onA → s.nvmB.ok = true →
            t.fld R.BOOT_REFSTAT F.BOOT_REFSTAT_STATE = 3 ∧ t.reg R.BOOT_LASTREF = s.reg R.BOOT_LASTREF) ∧
          (¬onA ∨ s.nvmB.ok = false →
            t.fld R.BOOT_REFSTAT F.BOOT_REFSTAT_STATE = 0 ∧ t.reg R.BOOT_LASTREF = s.reg R.BOOT_PWRHRS))) ∧
  (∀ (s : State) (c : Fin 4) (code : List Byte), s.bootRuns = true → s.released = true → s.chanUp c = true →
    s.crsState c = 0 → s.upd.copy ≠ some c.val →
    let bad := s.ecc.any fun e => e.2.poison && (decide (memKey c 0 ≤ e.1) && decide (e.1 < memKey (c.val + 1) 0))
    Completes (.courseReleaseAfterReset c code) s fun t =>
      (bad = true → sha384 code ≠ tabGet [] s.boot.codeHash c → t = s) ∧
      (bad = false ∨ sha384 code = tabGet [] s.boot.codeHash c →
        t.crsState c = 1 ∧ t.fld (R.CRS_STAT c) F.CRS_STAT_RCAUSE = 1 ∧ (t.crsOf c).s0 = Str.init ∧
        (bad = true → code.length ≤ 0x30000 → t.bytesAt c 0 code.length = code) ∧
        (bad = false → ∀ a < 0x30000, t.byteAt c a = s.byteAt c a) ∧ Only [.crs, .mem, .ecc, .regs, .fw] s t))

/-- Programming commands, their ends, VPP's loss and the re-read complete. (15 Re-reading in service, 15 Programming, 15
Sensing at power-up, 15 Coincidences, 15 Registers) -/
def Obligations.FuseCommandsComplete : Prop :=
  (∀ (s : State) (op : OtpOp) (vpp : Nat) (i : Instr), s.mgmtUp = true →
    (op = .blow ∧ i = .otpBlow vpp ∨ op = .lock ∧ i = .otpLock vpp ∨ op = .reread ∧ i = .otpReread vpp) →
    let a := s.fld R.OTP_PADDR F.OTP_PADDR_ADDR
    let refused (c : Nat) (t : State) : Prop := t.fld R.OTP_PSTAT F.OTP_PSTAT_CODE = c ∧
      t.fld R.OTP_PSTAT F.OTP_PSTAT_BUSY = s.fld R.OTP_PSTAT F.OTP_PSTAT_BUSY ∧
      (s.clk.quiet = false → t.log = s.log ∧ ∀ b, b ≠ R.OTP_PSTAT → t.reg b = s.reg b) ∧ Only [.regs, .clk, .log] s t
    let idle : Prop := s.flag R.OTP_PSTAT F.OTP_PSTAT_BUSY = false ∧ s.phase = 6 ∧ 6305 ≤ vpp ∧ vpp ≤ 6695
    Completes i s fun t =>
      (∀ c, s.otpRefusal op vpp = some c → refused c t) ∧
      (s.flag R.OTP_PSTAT F.OTP_PSTAT_BUSY = true → refused 1 t) ∧
      (s.flag R.OTP_PSTAT F.OTP_PSTAT_BUSY = false → s.phase ≠ 6 → refused 2 t) ∧
      (s.flag R.OTP_PSTAT F.OTP_PSTAT_BUSY = false → s.phase = 6 → (vpp < 6305 ∨ 6695 < vpp) → refused 3 t) ∧
      (idle → op = .blow → 0xE0 ≤ a → refused 4 t) ∧
      (idle → op = .blow → a < 0xE0 → s.wordPermitted a = false → refused 5 t) ∧
      (idle → op = .lock → a % 16 ≤ 12 → s.flag R.OTP_PGMEN (F.OTP_PGMEN_REG.bit (a % 16)) = true →
        s.regionLocked (a % 16) = false → sealOk s.fuseMargin (a % 16) = false → refused 7 t) ∧
      (s.otpRefusal op vpp = none →
        t.fld R.OTP_PSTAT F.OTP_PSTAT_BUSY = 1 ∧ t.fuse = s.fuse ∧ t.weak = s.weak ∧
        (op = .reread → t.otp.reread = true ∧ t.otp.cmd = s.otp.cmd) ∧
        (op ≠ .reread → t.otp.cmd = some ⟨decide (op = .lock), a, s.reg R.OTP_PDATA, s.clock⟩ ∧
          t.otp.reread = s.otp.reread) ∧ Only [.otp, .regs, .clk, .log] s t)) ∧
  (∀ (s : State) (c : OtpCmd), s.bootRuns = true → s.otp.cmd = some c →
    (s.past c.start (12 * (s.newBits c).length) = true → Completes (.programmingCommandEnded none) s fun t =>
      t.otp.cmd = none ∧ t.fld R.OTP_PSTAT F.OTP_PSTAT_CODE = 0 ∧ t.fld R.OTP_PSTAT F.OTP_PSTAT_BUSY = 0 ∧
      (∀ e, (s.newBits c).getLast? = some e → t.fld R.OTP_PSTAT F.OTP_PSTAT_BIT = e.2) ∧
      (∀ w ∈ c.words, t.fuseWord w = s.fuseWord w ||| c.bits ∧
        tabGet 0 t.weak w = tabGet 0 s.weak w &&& ~~~c.bits) ∧
      (∀ w, w ∉ c.words → t.fuseWord w = s.fuseWord w ∧ tabGet 0 t.weak w = tabGet 0 s.weak w) ∧
      (c.lock = true → tabGet false t.otp.locked (c.addr % 16) = true)) ∧
    (∀ (k : Fin 3) (i : Fin 32), k.val < c.words.length → (c.words.getD k 0, i.val) ∈ s.newBits c →
      s.past c.start (12 * (s.before c k i).length + 48) = true →
      Completes (.programmingCommandEnded (some (k, i))) s fun t =>
        t.otp.cmd = none ∧ t.fld R.OTP_PSTAT F.OTP_PSTAT_CODE = 9 ∧ t.fld R.OTP_PSTAT F.OTP_PSTAT_BIT = i.val ∧
        t.fld R.OTP_PSTAT F.OTP_PSTAT_BUSY = 0 ∧ (∀ w ∈ c.words.take k, t.fuseWord w = s.fuseWord w ||| c.bits) ∧
        (t.fuseMargin (c.words.getD k 0)).getLsbD i = false ∧ ∀ w, w ∉ c.words → t.fuseWord w = s.fuseWord w) ∧
    (∀ n, n < (s.newBits c).length → s.past c.start (12 * n) = true →
      Completes (.vppLost n) s fun t =>
        t.otp.cmd = none ∧ t.fld R.OTP_PSTAT F.OTP_PSTAT_CODE = 8 ∧ t.fld R.OTP_PSTAT F.OTP_PSTAT_BUSY = 0 ∧
        (∀ e, ((s.newBits c).take n).getLast? = some e → t.fld R.OTP_PSTAT F.OTP_PSTAT_BIT = e.2) ∧
        (∀ e ∈ (s.newBits c).take n, (t.fuseMargin e.1).getLsbD e.2 = true) ∧
        (∀ e ∈ (s.newBits c).drop (n + 1), (t.fuseWord e.1).getLsbD e.2 = (s.fuseWord e.1).getLsbD e.2 ∧
          (t.fuseMargin e.1).getLsbD e.2 = false) ∧
        ∀ w, w ∉ c.words → t.fuseWord w = s.fuseWord w) ∧
    ∀ fail n, s.past c.start (12 * (s.newBits c).length) = false →
      (∀ e, fail = some e → s.past c.start (12 * (s.before c e.1 e.2).length + 48) = false) → (s.newBits c).length ≤ n →
      Completes (.programmingCommandEnded fail) s (· = s) ∧ Completes (.vppLost n) s (· = s)) ∧
  (∀ (s : State) (drift : List (BitVec 8 × Word × Word)), s.clk.porst = false → s.clk.mclkLost = false →
    let now (w : Nat) : Option (Word × Word) := (drift.find? fun e => e.1.toNat = w).map (·.2)
    let rd (w : Nat) : Word := match now w with | some v => v.1 | none => s.fuseWord w
    let mg (w : Nat) : Word := match now w with | some v => v.2 | none => s.fuseMargin w
    let diffs := rereadDiffs rd mg (tabGet 0 s.otp.norm) (tabGet 0 s.otp.marg)
    let awake := s.clk.quiet = false ∨ s.rereadDue = false
    Completes (.fuseReread drift) s fun t =>
      ((s.otp.cmd ≠ none ∨ s.rereadDue = false ∧ s.otp.reread = false) → t = s) ∧
      (s.otp.cmd = none → s.rereadDue = true ∨ s.otp.reread = true →
        t.fld R.OTP_RRSTAT F.OTP_RRSTAT_DIFFS = min 65535 (s.fld R.OTP_RRSTAT F.OTP_RRSTAT_DIFFS + diffs.length) ∧
        (∀ w, diffs.getLast? = some w → t.fld R.OTP_RRSTAT F.OTP_RRSTAT_LASTW = w ∧
          t.flag R.FLT_SUM F.FLT_SUM_FUSE = true) ∧
        (diffs = [] → awake → t.log = s.log ∧ ∀ a, a ≠ R.OTP_PSTAT → t.reg a = s.reg a) ∧
        (s.rereadDue = true → t.clk.quiet = false ∧ t.otp.rrAt = s.tb.usec) ∧
        (s.clk.quiet = true → s.rereadDue = true → t.fld R.CRU_QSTAT F.CRU_QSTAT_LASTWAKE = 6) ∧
        t.otp.reread = false ∧ t.otp.norm = s.otp.norm ∧ (s.otp.reread = true → t.reg R.OTP_PSTAT = 0) ∧
        Only [.log, .otp, .regs, .clk] s t))

/-- A programmed bit acts from the next PORST_N; DEBUG_KILL, blown by a BLOW that completes, is latched at once. (R393) -/
def Obligations.DebugKillLatchesAtOnce : Prop :=
  (∀ (s : State) (c : OtpCmd), s.bootRuns = true → s.otp.cmd = some c →
    let kills : Bool := !c.lock && decide (0xB2 ≤ c.addr) && decide (c.addr < 0xB5) && c.data.getLsbD 1
    s.past c.start (12 * (s.newBits c).length) = true →
    Completes (.programmingCommandEnded none) s fun t =>
      (∀ a, a ≠ R.OTP_PSTAT → a ≠ R.OTP_CRIT → a ≠ R.FLT_SUM → a ≠ R.TWM_STAT → t.reg a = s.reg a) ∧
      t.reg R.OTP_CRIT = s.reg R.OTP_CRIT ||| (if kills then 0x40000000 else 0) ∧
      (kills = true →
        (∀ (k : Fin 4) (op : DebugOp), exec (.tapDebug k op) t = .next { t with tap := 15 }) ∧
        ∀ m, exec (.tapMemacc m) t = .next { t with tap := 15 })) ∧
  ∀ s : State, s.bootRuns = true → s.phase = 0 → s.flag R.OTP_STAT F.OTP_STAT_SENSED = false →
    Completes .fuseSense s fun t =>
      t.debugKill = (votedSec s.fuseWord).getLsbD 1 ∧
      t.flag R.OTP_CRIT F.OTP_CRIT_SECURE_BOOT = (votedSec s.fuseWord).getLsbD 0 ∧
      t.fld R.OTP_CRIT F.OTP_CRIT_LOCK = (votedLock s.fuseWord).toNat % 2 ^ 13 ∧
      (∀ i < 13, t.fld R.OTP_REGION ⟨2 * i, 2⟩ = regionState s.fuseWord i) ∧ ∀ w < 0xE0, t.reg (R.OTP_DATA w) = s.fuseWord w

/-- The instructions of the test access port complete. (15 The test access port, 11 Start, halt and restart, 13 Peer
reset) -/
def Obligations.TestPortCommandsComplete : Prop :=
  (∀ s : State,
    let shifted (data : List Bool) (t : State) : Prop := t.tdo.length = data.length ∧
      (t.tdo ++ t.bsr).drop Config.boundaryBits = data
    (∀ data, Completes (.tapSamplePreload data) s fun t =>
      t.tap = 1 ∧ shifted data t ∧ Only [.tap, .tdo, .bsr, .fresh] s t) ∧
    (Completes .tapIdcode s fun t => t.tap = 2 ∧ t.tdo.length = 32 ∧ t.tdo.head? = some true ∧ Only [.tap, .tdo] s t) ∧
    (∀ op : BitVec 4, Completes (.tapBypass op) s fun t =>
      (op = 0 → t.tap = 0 ∧ t.clk.extest = true ∧ ∀ p < 512, (t.portOf p).state = .off) ∧
      (op = 1 ∨ op = 2 ∨ (op = 8 ∨ op = 9) ∧ s.debugKill = false → t.tap = op.toNat ∧ Only [.tap] s t) ∧
      (3 ≤ op.toNat ∧ op.toNat < 8 ∨ 10 ≤ op.toNat ∨ (op = 8 ∨ op = 9) ∧ s.debugKill = true → t.tap = 15 ∧ Only [.tap] s t)) ∧
    ∀ data, Completes (.tapExtest data) s fun t =>
      t.tap = 0 ∧ shifted data t ∧ t.clk.extest = true ∧ ∀ p < 512, (t.portOf p).state = .off) ∧
  (∀ (s : State) (c : Fin 4) (op : DebugOp),
    Completes (.tapDebug c op) s fun t =>
      (s.debugKill = true → t.tap = 15 ∧ Only [.tap] s t) ∧
      (s.debugKill = false → s.chanUp c = true →
        t.tap = 8 ∧
        (op = .halt → s.crsState c = 1 → (s.crsOf c).iso = none → s.crsHung c = false →
          t.crsState c = 2 ∧ (t.crsOf c).halted = true ∧ (t.crsOf c).haltAt = s.clock ∧ (t.crsOf c).s0 = (s.crsOf c).s0 ∧ Only [.crs, .regs, .tap] s t) ∧
        (op = .halt → s.crsState c = 1 → (s.crsOf c).iso ≠ none ∨ s.crsHung c = true →
          (t.crsOf c).haltReq = true ∧ t.crsState c = 1 ∧ Only [.crs, .tap] s t) ∧
        (op = .step → s.crsState c = 2 → t.crsState c ≠ 1 ∧ t = debugStep c { s with tap := 8 }) ∧
        (op = .resume → s.crsState c = 2 →
          t.crsState c = 1 ∧ (t.crsOf c).wdStart = (s.crsOf c).wdStart + (s.clock - (s.crsOf c).haltAt) ∧
          (t.crsOf c).s0 = (s.crsOf c).s0 ∧ Only [.crs, .regs, .tap] s t) ∧
        (op ≠ .halt → s.crsState c ≠ 2 → Only [.tap] s t))) ∧
  (∀ (s : State) (m : MemAcc), s.debugKill = true →
    Completes (.tapMemacc m) s fun t => t.tap = 15 ∧ Only [.tap] s t) ∧
  (∀ (s : State) (m : MemAcc) (c : Fin 4) (id o : Nat) (w : Option Word), s.debugKill = false → s.mgmtUp = true →
    ((∃ off, m = .code c off w ∧ id = c.val ∧ o = off.toNat / 4 * 4) ∨
     (∃ off, m = .data c off w ∧ id = 0x10 + c.val ∧ o = off.toNat / 4 * 4)) →
    Completes (.tapMemacc m) s fun t =>
      t.tap = 9 ∧
      (s.clk.quiet = true → t.fld R.CRU_QSTAT F.CRU_QSTAT_LASTWAKE = 1 ∧ t.clk.quiet = false) ∧
      (s.chanUp c = true → s.wordErr id o = WordErr.init →
        (w = none → t.bus.toNat = s.leAt id o 4 ∧ (s.clk.quiet = false → Only [.bus, .tap, .clk] s t)) ∧
        (∀ v, w = some v → t.leAt id o 4 = v.toNat ∧
          (∀ d a, a < 2 ^ 20 → d ≠ id ∨ a < o ∨ o + 4 ≤ a → t.byteAt d a = s.byteAt d a) ∧
          (s.clk.quiet = false → Only [.mem, .tap, .clk] s t))) ∧
      (s.chanUp c = true → s.poisoned id o = true → t.mem = s.mem ∧ t.ecc = s.ecc) ∧
      (s.chanUp c = false → t.fld R.CRU_MAERR F.CRU_MAERR_CAUSE = 1 ∧ t.flag R.CRU_MAERR F.CRU_MAERR_ERR = true ∧
        t.mem = s.mem ∧ (w = none → t.bus = 0xFFFFFFFF))) ∧
  (∀ (s : State) (a : Word) (w : Option Word), s.debugKill = false → s.mgmtUp = true →
    Completes (.tapMemacc (.reg a w)) s fun t =>
      (w = none → t = hostReadCmd (a.toNat / 4 * 4) { s with tap := 9 }) ∧
      (∀ v, w = some v → t = registerWrite .host a v { s with tap := 9 }) ∧
      (a.toNat / 4 * 4 = R.GLB_ID → w = none → t.bus = s.reg R.GLB_ID))

/-- Status, the register window, the burst, the last read and the alert summary complete, and bad transactions are
discarded. (16 Transactions and commands, 16 The register window, 16 Registers, 13 Quiet mode) -/
def Obligations.TwoWireTransactionsComplete : Prop :=
  (∀ s : State, s.mgmtUp = true → s.clk.quiet = false →
    let s0 : State := { s with clk := { s.clk with idleAt := s.tb.usec } }
    let pec (code : Nat) (l : List Byte) : Byte := crc8 ([s.addrW, BitVec.ofNat 8 code] ++ l)
    let wr (x : Xact) (code : Nat) (l : List Byte) : Prop :=
      x = .pec (pec code l) ∨ x = .done ∧ s.flag R.TWM_CFG F.TWM_CFG_PECREQ = false
    let rd (x : Xact) : Prop := x = .done ∨ ∃ b, x = .pec b
    let counted (t : State) : Prop := t.fld R.TWM_CNT F.TWM_CNT_XFERS = min 65535 (s.fld R.TWM_CNT F.TWM_CNT_XFERS + 1)
    let dropped (f : Fld) (t : State) : Prop := t.flag R.TWM_EVT f = true ∧
      t.fld R.TWM_CNT F.TWM_CNT_DISC = min 65535 (s.fld R.TWM_CNT F.TWM_CNT_DISC + 1) ∧
      (∀ a, a ≠ R.TWM_EVT → a ≠ R.TWM_CNT → a ≠ R.TWM_STAT → t.reg a = s.reg a) ∧ Only [.regs, .clk] s t
    let sent (code : Nat) (l : List Byte) (t : State) : Prop := t.twm.pec = pec code (s.addrR :: l)
    let shows (code : Nat) (v : Word) (t : State) : Prop := t.bus = v ∧ counted t ∧ sent code (natLe 4 v.toNat) t ∧
      (∀ a, a ≠ R.TWM_CNT → t.reg a = s.reg a) ∧ Only [.bus, .regs, .twm, .clk] s t
    let a := (s.reg R.TWM_WADDR).toNat
    (∀ x, rd x →
      Completes (.twmStatus x) s (shows 0x00 s.twmStat) ∧ Completes (.twmWaddr x .read) s (shows 0x01 (s.reg R.TWM_WADDR)) ∧
      Completes (.twmLastrd x) s (shows 0x05 (s.reg R.TWM_LRD)) ∧
      Completes (.twmAlertsum x) s (shows 0x20 (BitVec.ofNat 32 s.asum)) ∧
      (Completes (.twmWdata x .read) s fun t => t.bus = (hostRead a s0).val ∧ t.reg R.TWM_LRD = (hostRead a s0).val ∧
        sent 0x02 (natLe 4 t.bus.toNat) t ∧ ((hostRead a s0).failed = true → t.flag R.TWM_EVT F.TWM_EVT_WERR = true) ∧
        (implemented a = false → t.bus = 0xFFFFFFFF ∧ t.flag R.TWM_EVT F.TWM_EVT_WERR = true)) ∧
      (Completes (.twmWdatai x .read) s fun t => t.bus = (hostRead a s0).val ∧ t.reg R.TWM_LRD = (hostRead a s0).val ∧
        sent 0x03 (natLe 4 t.bus.toNat) t ∧ t.reg R.TWM_WADDR = s.reg R.TWM_WADDR + 4) ∧
      Completes (.twmWburst x .read) s fun t => t.block = (burstRead s.burstLen s0).1 ∧ t.block.length = 4 * s.burstLen ∧
        sent 0x04 (BitVec.ofNat 8 (4 * s.burstLen) :: t.block) t ∧
        t.reg R.TWM_WADDR = s.reg R.TWM_WADDR + BitVec.ofNat 32 (4 * s.burstLen)) ∧
    (∀ x v,
      (wr x 0x01 (natLe 4 v.toNat) → Completes (.twmWaddr x (.write v)) s fun t => t.reg R.TWM_WADDR = v &&& 0xFFFFFFFC ∧
        counted t ∧ (∀ b, b ≠ R.TWM_WADDR → b ≠ R.TWM_CNT → t.reg b = s.reg b) ∧ Only [.regs, .clk] s t) ∧
      (wr x 0x02 (natLe 4 v.toNat) → Completes (.twmWdata x (.write v)) s fun t =>
        (implemented a = true → s.accessCause a = none → t = countXfer (hostWrite a v s0).2) ∧
        (implemented a = false → t.flag R.TWM_EVT F.TWM_EVT_WERR = true ∧ counted t ∧
          (∀ b, b ≠ R.TWM_EVT → b ≠ R.TWM_CNT → b ≠ R.TWM_STAT → t.reg b = s.reg b) ∧ Only [.regs, .clk] s t)) ∧
      (wr x 0x03 (natLe 4 v.toNat) → Completes (.twmWdatai x (.write v)) s
        (· = countXfer (windowNext (windowWrite v s0)))) ∧
      Completes (.twmWaddr (.extra (pec 0x01 (natLe 4 v.toNat))) (.write v)) s fun t =>
        t.reg R.TWM_WADDR = v &&& 0xFFFFFFFC ∧ t.flag R.TWM_EVT F.TWM_EVT_FMTERR = true ∧ counted t) ∧
    (∀ x (l : List Byte), wr x 0x04 (BitVec.ofNat 8 l.length :: l) → 4 ≤ l.length → l.length ≤ 64 → l.length % 4 = 0 →
      Completes (.twmWburst x (.write l)) s fun t => t = countXfer (burstWrite 16 l s0) ∧
        (l.length = 4 → t = countXfer (windowNext (windowWrite (BitVec.ofNat 32 (leNat l)) s0)))) ∧
    (∀ x (l : List Byte), l.length < 4 ∨ 64 < l.length ∨ l.length % 4 ≠ 0 →
      Completes (.twmWburst x (.write l)) s (dropped F.TWM_EVT_FMTERR)) ∧
    (∀ i ∈ [Instr.twmStatus .short, .twmRqstat .short, .twmRqresp .short, .twmWaddr .short .read, .twmWdata .short .read, .twmWdatai .short .read,
        .twmWburst .short .read, .twmLastrd .short, .twmAlertsum .short, .twmStatus (.extra 0), .twmLastrd (.extra 0)],
      Completes i s (dropped F.TWM_EVT_FMTERR)) ∧
    (∀ (code : Byte) (k : WordCmd) (l : BlockCmd) (v : Word),
      ∀ i ∈ [Instr.twmStatus (.alien code), .twmWaddr (.alien code) k, .twmWdata (.alien code) k, .twmWdatai (.alien code) k,
          .twmWburst (.alien code) l, .twmLastrd (.alien code), .twmRqbuf (.alien code) l, .twmRqgo (.alien code) v,
          .twmRqstat (.alien code), .twmRqresp (.alien code), .twmAlertsum (.alien code)],
        Completes i s (dropped F.TWM_EVT_FMTERR)) ∧
    ∀ v b,
      (∀ i ∈ [Instr.twmWaddr .short (.write v), .twmWdata .short (.write v), .twmWdatai .short (.write v)],
        Completes i s (dropped F.TWM_EVT_FMTERR)) ∧
      (b ≠ pec 0x01 (natLe 4 v.toNat) → Completes (.twmWaddr (.pec b) (.write v)) s (dropped F.TWM_EVT_PECERR)) ∧
      (b ≠ pec 0x02 (natLe 4 v.toNat) → Completes (.twmWdata (.pec b) (.write v)) s (dropped F.TWM_EVT_PECERR)) ∧
      (b ≠ pec 0x03 (natLe 4 v.toNat) → Completes (.twmWdatai (.pec b) (.write v)) s (dropped F.TWM_EVT_PECERR)) ∧
      (s.flag R.TWM_CFG F.TWM_CFG_PECREQ = true →
        ∀ i ∈ [Instr.twmWaddr .done (.write v), .twmWdata .done (.write v), .twmWdatai .done (.write v)],
          Completes i s (dropped F.TWM_EVT_PECERR))) ∧
  ∀ (s : State) (x : Xact) (k : WordCmd) (b : BlockCmd) (v : Word), s.mgmtUp = true →
    ∀ i ∈ [Instr.twmStatus x, .twmWaddr x k, .twmWdata x k, .twmWdatai x k, .twmWburst x b, .twmLastrd x, .twmRqbuf x b,
        .twmRqgo x v, .twmRqstat x, .twmRqresp x, .twmAlertsum x, .twmPadminWrite v],
      exec i s = exec i (wakeUp 1 s)

/-- The request buffer, RQGO, its status, its response and its time-out complete. (16 Domain requests, 16 Registers, 17
Routing and forwarding) -/
def Obligations.DomainRequestsComplete : Prop :=
  ∀ s : State, s.mgmtUp = true → s.clk.quiet = false →
    let s0 : State := { s with clk := { s.clk with idleAt := s.tb.usec } }
    let pec (code : Nat) (l : List Byte) : Byte := crc8 ([s.addrW, BitVec.ofNat 8 code] ++ l)
    let wr (x : Xact) (code : Nat) (l : List Byte) : Prop :=
      x = .pec (pec code l) ∨ x = .done ∧ s.flag R.TWM_CFG F.TWM_CFG_PECREQ = false
    let rd (x : Xact) : Prop := x = .done ∨ ∃ b, x = .pec b
    let ends (st : Nat) (t : State) : Prop := t.fld R.TWM_RQSTAT F.TWM_RQSTAT_ST = st ∧
      t.flag R.TWM_EVT F.TWM_EVT_RQDONE = true
    (∀ x, rd x →
      (Completes (.twmRqbuf x .read) s fun t => t.block = s.twm.buf ∧
        t.twm = { s.twm with pec := pec 0x10 (s.addrR :: BitVec.ofNat 8 s.twm.buf.length :: s.twm.buf) } ∧
        Only [.block, .regs, .twm, .clk] s t) ∧
      (Completes (.twmRqstat x) s fun t => t.bus = s.reg R.TWM_RQSTAT ∧ Only [.bus, .regs, .twm, .clk] s t) ∧
      Completes (.twmRqresp x) s fun t =>
        (s.fld R.TWM_RQSTAT F.TWM_RQSTAT_ST = 2 → s.twm.resp ≠ [] → t.block = s.twm.resp) ∧
        (s.fld R.TWM_RQSTAT F.TWM_RQSTAT_ST ≠ 2 ∨ s.twm.resp = [] → t.block = [0]) ∧ Only [.block, .regs, .twm, .clk] s t) ∧
    (∀ x (l : List Byte), wr x 0x10 (BitVec.ofNat 8 l.length :: l) → 1 ≤ l.length → l.length ≤ 64 →
      Completes (.twmRqbuf x (.write l)) s fun t =>
        (s.rqPending = true → t = s0) ∧ (s.rqPending = false → t.twm = { s.twm with buf := l } ∧ Only [.twm, .regs, .clk] s t)) ∧
    (∀ x (v : Word), wr x 0x11 (natLe 4 v.toNat) → s.rqPending = true →
      Completes (.twmRqgo x v) s fun t => t.flag R.TWM_EVT F.TWM_EVT_FMTERR = true ∧
        (∀ a, a ≠ R.TWM_EVT → a ≠ R.TWM_STAT → t.reg a = s.reg a) ∧ Only [.regs, .clk] s t) ∧
    (∀ x (v : Word), wr x 0x11 (natLe 4 v.toNat) → s.rqPending = false →
      let kind := v.toNat / 4096 % 16
      let dev := v.toNat / 65536
      let tag := v.toNat % 256
      let good := requestOk kind s.twm.buf = true ∧ v.toNat / 256 % 4 = 0
      let s1 := updTwm (fun y => { y with go := v, goAt := s.clock, held := false, gen := none })
        (setReg R.TWM_RQSTAT (BitVec.ofNat 32 (2 ^ 28 + tag * 65536)) s0)
      Completes (.twmRqgo x v) s fun t =>
        (¬good → ends 3 t ∧ t.twm.resp = [] ∧ t.fld R.TWM_RQSTAT F.TWM_RQSTAT_TAG = tag) ∧
        (good → s.namesSelf dev = false → s.isRoot = false → ends 5 t ∧ t.twm.resp = []) ∧
        (good → s.namesSelf dev = false → s.isRoot = true → s.fld R.LNK_DOM F.LNK_DOM_COUNT ≤ dev → ends 4 t) ∧
        (good → s.namesSelf dev = false → s.isRoot = true → dev < s.fld R.LNK_DOM F.LNK_DOM_COUNT →
          (s.enum.run = true → t.rqPending = true ∧ t.twm.held = true ∧ t.twm.go = v) ∧
          (s.enum.run = false → t = countXfer (sendRequest s1))) ∧
        (good → s.namesSelf dev = true → kind = 1 →
          let r := requestRead (leNat (s.twm.buf.drop 4)) (leNat (s.twm.buf.take 4)) s1
          ends (if r.2.1 then 7 else 2) t ∧ t.twm.resp = r.1 ∧ t.fld R.TWM_RQSTAT F.TWM_RQSTAT_LEN = r.1.length)) ∧
    Completes .requestTimeout s fun t =>
      let late := s.past s.twm.goAt (1000 * max 10 (min 10000 (s.fld R.TWM_DOMCFG F.TWM_DOMCFG_TMO_MS)))
      (s.rqPending = true → late = true → ends 6 t ∧ t.twm.resp = [] ∧ Only [.twm, .regs] s t) ∧
      (s.rqPending = false ∨ late = false → t = s)

/-- The Alert Response Address, the bus faults and the administration word complete. (16 Alerts, 16 Administration, 16 Bus
errors and recovery, 16 Registers) -/
def Obligations.BusAlertAndAdministrationComplete : Prop :=
  (∀ (s : State) (others : List (BitVec 7)), s.mgmtUp = true → s.clk.quiet = false →
    let lost := ∃ a ∈ others, a.toNat < s.fld R.TWM_STAT F.TWM_STAT_SADDR
    Completes (.alertResponse others) s fun t =>
      (s.flag R.TWM_CFG F.TWM_CFG_ARAEN = true → s.alertN = true → ¬lost →
        t.bus.toNat = 2 * s.fld R.TWM_STAT F.TWM_STAT_SADDR ∧ t.flag R.TWM_STAT F.TWM_STAT_ARAHELD = true ∧
        t.alertN = false ∧ (∀ a, a ≠ R.TWM_STAT → t.reg a = s.reg a) ∧ Only [.bus, .regs] s t) ∧
      (s.flag R.TWM_CFG F.TWM_CFG_ARAEN = false ∨ s.alertN = false ∨ lost → t = s)) ∧
  (∀ s : State, s.mgmtUp = true →
    let dropped (f : Fld) (t : State) : Prop := t.flag R.TWM_EVT f = true ∧
      t.fld R.TWM_CNT F.TWM_CNT_DISC = min 65535 (s.fld R.TWM_CNT F.TWM_CNT_DISC + 1) ∧
      (∀ a, a ≠ R.TWM_EVT → a ≠ R.TWM_CNT → a ≠ R.TWM_STAT → t.reg a = s.reg a) ∧ Only [.regs] s t
    Completes .busFault s (dropped F.TWM_EVT_BUSFLT) ∧
    (∀ us, Completes (.stretchLimit us) s fun t => if us < 2000 then t = s else dropped F.TWM_EVT_STRTO t) ∧
    (∀ us, Completes (.sdaStuck us) s fun t => if us < 35000 then t = s else dropped F.TWM_EVT_SDATO t) ∧
    (∀ us, Completes (.sclLowTimeout us true) s fun t => if us < 25000 then t = s else dropped F.TWM_EVT_SCLTO t) ∧
    ∀ us, Completes (.sclLowTimeout us false) s fun t => if us < 25000 then t = s else t.flag R.TWM_EVT F.TWM_EVT_SCLTO = true ∧
      t.reg R.TWM_CNT = s.reg R.TWM_CNT ∧ Only [.regs] s t) ∧
  (∀ (s : State) (v : Word), s.mgmtUp = true → s.clk.quiet = false →
    let p := s.fld R.TWM_PASEL F.TWM_PASEL_PORT
    s.chanUp (p / 128) = true →
    Completes (.twmPadminWrite v) s fun t =>
      t.recOf p 13 = (s.recOf p 13 &&& 0x8000) ||| (v &&& 0x0F01) ∧
      (∀ q w, q ≠ p ∨ w ≠ 13 → w < 16 → t.recOf q w = s.recOf q w) ∧ (∀ q, t.portOf q = s.portOf q) ∧
      Only [.prec, .regs, .ecc, .log, .clk] s t)

/-- Signal detect, training, HELLO, its time-out, loss and DROP move a chain link as Table 17-1 says. (17 Ports, cabling
and link states, 17 Link faults and tree recovery, 17 Delivery on each hop, 17 Registers) -/
def Obligations.LinkStatesComplete : Prop :=
  ∀ (s : State) (n : Fin 4), s.mgmtUp = true →
    let starts (t : State) : Prop := t.linkOn n = true ∧ t.flag (R.LNK_LSTAT n) F.LNK_LSTAT_SIGDET = true ∧
      t.flag R.FLT_SUM F.FLT_SUM_BOOT = false ∧ (t.chainOf n).dropping = false
    (Completes (.signalDetect n) s fun t => t.flag (R.LNK_LSTAT n) F.LNK_LSTAT_SIGDET = true ∧
      (s.linkState n ≠ 0 → t.linkState n = s.linkState n) ∧
      (s.linkState n = 0 → starts t → t.linkState n = 1) ∧ (s.linkState n = 0 → ¬starts t → t.linkState n = 0)) ∧
    (Completes (.signalDetectLost n) s fun t => t.flag (R.LNK_LSTAT n) F.LNK_LSTAT_SIGDET = false ∧
      (s.linkState n = 3 → t.linkState n = 3) ∧ (s.linkState n ≠ 3 → t.linkState n = 0)) ∧
    (s.linkState n = 1 → s.past (s.chainOf n).since 163 = true → Completes (.trainingComplete n) s fun t => t.linkState n = 2 ∧
      ((s.chainOf n).wait = [] → (t.chainOf n).wait = [] ∧ t.fld (R.LNK_LSTAT n) F.LNK_LSTAT_CREDIT = 3 ∧
        ∃ f, (t.chainOf n).sent = (s.chainOf n).sent ++ [f] ∧ f.typ = 1 ∧ f.dst = 0 ∧ f.seq = (s.chainOf n).txSeq ∧ f.start = s.clock ∧
          f.payload = natLe 4 (s.reg R.BOOT_FWVER).toNat ++ natLe 1 s.ownLevel ++ natLe 1 n ++
            natLe 4 (s.reg R.GLB_SERIAL_LO).toNat ++ natLe 4 s.serialHi.toNat)) ∧
    (s.linkState n = 2 → s.past (s.chainOf n).since 2000 = true → Completes (.helloTimeout n) s fun t => t.linkState n = 1 ∧ (t.chainOf n).wait = [] ∧
      (t.chainOf n).sent = [] ∧ t.fld (R.LNK_LSTAT n) F.LNK_LSTAT_CREDIT = 0) ∧
    (∀ (h : Header) (fw : Word) (lv : BitVec 4) (k : Fin 4) (serial : BitVec 64), s.linkState n = 2 →
      intact h .hello (natLe 4 fw.toNat ++ natLe 1 lv.toNat ++ natLe 1 k.val ++ natLe 8 serial.toNat) = true →
      h.seq.toNat ∉ (s.chainOf n).rxSeq →
      Completes (.lnkHello n h fw lv k serial) s fun t =>
        t.reg (R.LNK_PFW n) = fw ∧ t.fld (R.LNK_LSTAT n) F.LNK_LSTAT_PLEVEL = lv.toNat ∧
        t.fld (R.LNK_LSTAT n) F.LNK_LSTAT_PLINK = k.val ∧
        ((n.val = 0 ↔ k.val = 0) → t.linkState n = 4 ∧ t.flag R.LNK_EVT F.LNK_EVT_FAULT = true) ∧
        (¬(n.val = 0 ↔ k.val = 0) → t.linkState n = 3 ∧ t.flag R.LNK_EVT F.LNK_EVT_UP = true ∧
          (t.chainOf n).ack = natLe 1 h.seq.toNat ++ natLe 1 (4 - s.heldBufs n) ∧
          (t.chainOf n).rxSeq = (h.seq.toNat :: (s.chainOf n).rxSeq).take 128)) ∧
    (∀ silent errors, 1 ≤ s.linkState n → s.linkState n ≤ 3 → 80 ≤ silent ∨ 64 ≤ errors →
      Completes (.chainLinkLoss n silent errors) s fun t =>
      t.fld (R.LNK_CNT2 n) F.LNK_CNT2_LOSS = min 65535 (s.fld (R.LNK_CNT2 n) F.LNK_CNT2_LOSS + 1) ∧
      (t.linkState n = 0 ∨ t.linkState n = 1) ∧
      (s.flag (R.LNK_LSTAT n) F.LNK_LSTAT_SIGDET = false → t.linkState n = 0) ∧
      (s.linkState n = 3 → t.flag R.LNK_EVT F.LNK_EVT_DOWN = true ∧
        (n.val ≠ 0 → t.reg (R.LNK_RANGE n) = 0 ∧ t.fld (R.LNK_LSTAT n) F.LNK_LSTAT_ENUMD = 0) ∧
        (n.val = 0 → t.enumd = false ∧ t.enum.run = false))) ∧
    (∀ mask : BitVec 4, Completes (.lnkDrop mask) s fun t =>
      (mask.getLsbD n = true → (t.chainOf n).dropping = true ∧ t.linkState n = 0) ∧
      (mask.getLsbD n = false → (t.chainOf n).dropping = (s.chainOf n).dropping ∧ t.linkState n = s.linkState n)) ∧
    ((s.chainOf n).dropping = true → s.past (s.chainOf n).since 10000 = true → Completes (.dropEnd n) s fun t => (t.chainOf n).dropping = false ∧
      (s.linkState n ≠ 0 → t.linkState n = s.linkState n) ∧ (s.linkState n = 0 → starts t → t.linkState n = 1)) ∧
    (∀ silent errors, silent < 80 → errors < 64 → Completes (.chainLinkLoss n silent errors) s (· = s)) ∧
    (s.past (s.chainOf n).since 163 = false → Completes (.trainingComplete n) s (· = s)) ∧
    (s.past (s.chainOf n).since 2000 = false → Completes (.helloTimeout n) s (· = s)) ∧
    (s.past (s.chainOf n).since 10000 = false → Completes (.dropEnd n) s (· = s)) ∧
    ∀ (h : Header) (fw : Word) (lv : BitVec 4) (k : Fin 4) (serial : BitVec 64), h.stop = .eab →
      Completes (.lnkHello n h fw lv k serial) s (· = s)

/-- What every frame does at its receiver, ACK and NAK, and the acknowledgement time-out complete. (17 Frames, 17 Delivery
on each hop, 17 Link faults and tree recovery, 17 Registers) -/
def Obligations.FramesAreAcknowledged : Prop :=
  (∀ (s : State) (n : Fin 4) (h : Header) (w : Word) (a b : BitVec 16) (c : BitVec 17) (lv : BitVec 4) (k : Fin 4)
    (tag : BitVec 8) (data : List Byte) (serial : BitVec 64), s.mgmtUp = true → s.lnkUp n = true →
    let ack (nak : Nat) : List Byte := natLe 1 h.seq.toNat ++ natLe 1 (128 * nak + (4 - s.heldBufs n))
    let disc (t : State) : Prop := t.flag R.LNK_EVT F.LNK_EVT_DISC = true ∧ Only [.lnk, .regs] s t ∧
      t.fld (R.LNK_CNT2 n) F.LNK_CNT2_DISC = min 65535 (s.fld (R.LNK_CNT2 n) F.LNK_CNT2_DISC + 1)
    let does (i : Instr) (ty : FType) (l : List Byte) : Prop := Completes i s fun t =>
      (h.stop = .eab → t = s) ∧
      (h.stop = .tooLong →
        t.fld (R.LNK_CNT0 n) F.LNK_CNT0_LENERR = min 65535 (s.fld (R.LNK_CNT0 n) F.LNK_CNT0_LENERR + 1) ∧
        (∀ r, r ≠ R.LNK_CNT0 n → t.reg r = s.reg r) ∧ Only [.regs] s t) ∧
      (h.stop = .alien → t.chainOf n = { s.chainOf n with ack := ack 0 } ∧ disc t) ∧
      (∀ crc, h.stop = .eof crc → crc ≠ crc32 (covered h ty l) →
        t.fld (R.LNK_CNT0 n) F.LNK_CNT0_CRCERR = min 65535 (s.fld (R.LNK_CNT0 n) F.LNK_CNT0_CRCERR + 1) ∧
        (t.chainOf n).ack = ack 1 ∧ (s.domLevel ≠ 3 → t.chainOf n = { s.chainOf n with ack := ack 1 }) ∧
        (∀ r, r ≠ R.LNK_CNT0 n → t.reg r = s.reg r) ∧ Only [.lnk, .regs] s t) ∧
      (intact h ty l = true → h.seq.toNat ∈ (s.chainOf n).rxSeq →
        t.chainOf n = { s.chainOf n with ack := ack 0 } ∧ Only [.lnk] s t)
    let other (i : Instr) (ty : FType) (l : List Byte) : Prop := intact h ty l = true → h.seq.toNat ∉ (s.chainOf n).rxSeq →
      s.fld R.LNK_GEN F.LNK_GEN_GEN % 256 ≠ h.gen.toNat → Completes i s fun t =>
        t.chainOf n = { s.chainOf n with ack := ack 0, rxSeq := (h.seq.toNat :: (s.chainOf n).rxSeq).take 128 } ∧ disc t
    let req := reqBytes lv.toNat k tag data
    let resp := respBytes lv.toNat tag data
    does (.lnkHello n h w lv k serial) .hello (natLe 4 w.toNat ++ natLe 1 lv.toNat ++ natLe 1 k.val ++ natLe 8 serial.toNat) ∧
    does (.lnkEnum n h a b) .enum (natLe 2 a.toNat ++ natLe 2 b.toNat) ∧
    does (.lnkEnumDone n h c lv) .enumDone (natLe 4 c.toNat ++ natLe 1 lv.toNat ++ [0]) ∧
    does (.lnkLevel n h lv a) .level (natLe 1 lv.toNat ++ natLe 2 a.toNat) ∧
    does (.lnkReq n h lv k tag data) .req req ∧ does (.lnkResp n h lv tag data) .resp resp ∧
    does (.lnkAlert n h a) .alert (natLe 2 a.toNat) ∧
    does (.lnkLvrep n h w lv) .lvrep (natLe 4 w.toNat ++ natLe 1 lv.toNat) ∧ does (.lnkTopo n h) .topo [] ∧
    other (.lnkReq n h lv k tag data) .req req ∧ other (.lnkResp n h lv tag data) .resp resp) ∧
  (∀ (s : State) (n : Fin 4) (h : Header) (seq : BitVec 8) (free : Fin 5), s.mgmtUp = true → 2 ≤ s.linkState n →
    s.linkState n ≤ 3 → (s.chainOf n).wait = [] →
    let x := s.chainOf n
    let again (cr : Nat) (t : State) : Prop := ∀ f, x.sent.find? (·.seq = seq.toNat) = some f →
      (f.tries < 3 →
        (t.chainOf n).sent =
          x.sent.map (fun g => if g.seq = seq.toNat then { g with tries := g.tries + 1, start := s.clock } else g) ∧
        t.fld (R.LNK_LSTAT n) F.LNK_LSTAT_CREDIT = cr - 1 ∧
        t.fld (R.LNK_CNT1 n) F.LNK_CNT1_RETRY = min 65535 (s.fld (R.LNK_CNT1 n) F.LNK_CNT1_RETRY + 1)) ∧
      (3 ≤ f.tries →
        (t.chainOf n).sent = x.sent.filter (·.seq ≠ seq.toNat) ∧ t.flag R.LNK_EVT F.LNK_EVT_LOST = true ∧
        t.fld (R.LNK_CNT1 n) F.LNK_CNT1_LOST = min 65535 (s.fld (R.LNK_CNT1 n) F.LNK_CNT1_LOST + 1))
    let overdue : Prop := ∃ f ∈ x.sent, f.seq = seq.toNat ∧ f.start + 400 + (f.payload.length + 14) * 160 / 1000 ≤ s.clock
    (intact h .ack (natLe 1 seq.toNat ++ natLe 1 free.val) = true → Completes (.lnkAck n h seq false free) s fun t =>
      t.fld (R.LNK_LSTAT n) F.LNK_LSTAT_CREDIT = free.val ∧ (t.chainOf n).sent = x.sent.filter (·.seq ≠ seq.toNat) ∧
      t.linkState n = s.linkState n ∧ Only [.lnk, .regs] s t) ∧
    (intact h .ack (natLe 1 seq.toNat ++ natLe 1 (128 + free.val)) = true → Completes (.lnkAck n h seq true free) s fun t =>
      again free.val t ∧ (x.sent.find? (·.seq = seq.toNat) = none →
        t.fld (R.LNK_LSTAT n) F.LNK_LSTAT_CREDIT = free.val ∧ Only [.regs] s t)) ∧
    (∀ nak, h.stop = .eab → Completes (.lnkAck n h seq nak free) s (· = s)) ∧
    (∀ nak crc, h.stop = .eof crc → intact h .ack (ackBytes seq.toNat nak free.val) = false →
      Completes (.lnkAck n h seq nak free) s fun t =>
        t.fld (R.LNK_CNT0 n) F.LNK_CNT0_CRCERR = min 65535 (s.fld (R.LNK_CNT0 n) F.LNK_CNT0_CRCERR + 1) ∧
        (t.chainOf n).sent = x.sent ∧ t.linkState n = s.linkState n) ∧
    Completes (.chainAckTimeout n seq) s fun t =>
      (overdue → again (s.fld (R.LNK_LSTAT n) F.LNK_LSTAT_CREDIT) t ∧ Only [.lnk, .regs] s t) ∧ (¬overdue → t = s))

/-- Enumeration, level, alert, relayed reports, requests and responses complete. (17 Enumeration, 17 Routing and
forwarding, 17 Alerts across the domain, 17 The domain feature level and mixed versions, 16 Domain requests, 17
Registers) -/
def Obligations.EnumerationAndDomainFramesComplete : Prop :=
  (∀ s : State, s.mgmtUp = true →
    let root (t : State) : Prop :=
      t.fld R.LNK_GEN F.LNK_GEN_GEN = (s.fld R.LNK_GEN F.LNK_GEN_GEN + 1) % 65536 ∧ t.myAddr = 0 ∧ t.enum.base = 0 ∧
      ((∀ k, 1 ≤ k → k ≤ 3 → s.lnkUp k = false) → s.twm.held = false →
        t.enum.run = false ∧ t.enumd = true ∧ t.fld R.LNK_DOM F.LNK_DOM_COUNT = 1 ∧ t.domLevel = s.ownLevel ∧
        t.flag R.LNK_EVT F.LNK_EVT_ENUM = true) ∧
      (∀ k, 1 ≤ k → k ≤ 3 → s.lnkUp k = true → (∀ j, 1 ≤ j → j < k → s.lnkUp j = false) →
        t.enum.run = true ∧ t.enum.link = k ∧ t.enum.next = 1 ∧ t.domLevel = 1)
    (Completes .enumNow s fun t =>
      Only [.enum, .regs, .lnk, .twm, .log, .clk] s t ∧
      (s.isRoot = false → Only [.regs, .log, .clk] s t ∧ (s.clk.quiet = false → t.regs = s.regs ∧ t.log = s.log)) ∧
      (s.isRoot = true → s.enum.run = false → root t) ∧
      (s.isRoot = true → s.enum.run = true → t.enum = { s.enum with owed := true } ∧
        t.fld R.LNK_STAT F.LNK_STAT_ENRUN = 1 ∧ (s.clk.quiet = false → Only [.enum, .regs, .clk] s t))) ∧
    Completes .enumerationStart s fun t =>
      let late := s.past s.enum.holdAt (1000 * max 100 (min 10000 (s.fld R.LNK_CFG F.LNK_CFG_HOLD_MS)))
      (s.isRoot = true → s.enum.holdoff = true → late = true → s.enum.run = false → root t) ∧
      (s.isRoot = false ∨ s.enum.holdoff = false ∨ late = false ∨ s.enum.run = true → t = s)) ∧
  ∀ (s : State) (n : Fin 4) (h : Header), s.mgmtUp = true → s.lnkUp n = true → h.seq.toNat ∉ (s.chainOf n).rxSeq →
    let s1 := updChain n (fun x => { x with rxSeq := (h.seq.toNat :: x.rxSeq).take 128 }) s
    let s2 := ackFrame n h.seq.toNat false s1
    (∀ base gen : BitVec 16, intact h .enum (natLe 2 base.toNat ++ natLe 2 gen.toNat) = true → Completes (.lnkEnum n h base gen) s fun t =>
      (n.val ≠ 0 → t = s2) ∧
      (n.val = 0 → t.myAddr = base.toNat ∧ t.fld R.LNK_GEN F.LNK_GEN_GEN = gen.toNat ∧ t.enum.base = base.toNat)) ∧
    (∀ (count : BitVec 17) (lv : BitVec 4), intact h .enumDone (natLe 4 count.toNat ++ natLe 1 lv.toNat ++ [0]) = true → Completes (.lnkEnumDone n h count lv) s fun t =>
      (s.enum.run = false ∨ n.val = 0 ∨ s.enum.link ≠ n.val → t = s2) ∧
      (s.enum.run = true → n.val ≠ 0 → s.enum.link = n.val → 1 ≤ count.toNat → s.enum.next + count.toNat ≤ 65536 →
        t.fld (R.LNK_RANGE n) F.LNK_RANGE_LO = s.enum.next ∧
        t.fld (R.LNK_RANGE n) F.LNK_RANGE_HI = s.enum.next + count.toNat - 1 ∧
        t.fld (R.LNK_LSTAT n) F.LNK_LSTAT_ENUMD = 1 ∧ t.enum.next = s.enum.next + count.toNat ∧
        t.enum.lv = min s.enum.lv lv.toNat)) ∧
    (∀ (lv : BitVec 4) (gen : BitVec 16), intact h .level (natLe 1 lv.toNat ++ natLe 2 gen.toNat) = true → Completes (.lnkLevel n h lv gen) s fun t =>
      (n.val ≠ 0 → t = s2) ∧
      (n.val = 0 → t.domLevel = lv.toNat ∧
        t.flag R.LNK_STAT F.LNK_STAT_LVLOW = decide (lv.toNat < s.ownLevel) ∧
        (s.domLevel ≠ lv.toNat → t.flag R.LNK_EVT F.LNK_EVT_LEVEL = true))) ∧
    (∀ a : BitVec 16, intact h .alert (natLe 2 a.toNat) = true → Completes (.lnkAlert n h a) s fun t =>
      (n.val = 0 → t = s2) ∧
      (n.val ≠ 0 → (t.chainOf n).alert = a.toNat ∧
        (s.isRoot = true → s.flag (R.LNK_LSTAT n) F.LNK_LSTAT_ENUMD = true → t.fld R.TWM_ADEV F.TWM_ADEV_DEV ≤ a.toNat))) ∧
    (let up (t : State) : Prop :=
      (s.isRoot = true → t.fld R.LNK_STAT F.LNK_STAT_ENRUN = 1 ∧
        (s.enum.run = false → t.enum.holdoff = true ∧ t.enum.holdAt = s.clock) ∧ (s.enum.run = true → t.enum.owed = true)) ∧
      (s.isRoot = false → n.val = 0 → t = s2) ∧ (s.isRoot = false → n.val ≠ 0 → s.lnkUp 0 = false →
        t.fld (R.LNK_CNT1 0) F.LNK_CNT1_LOST = min 65535 (s.fld (R.LNK_CNT1 0) F.LNK_CNT1_LOST + 1))
    (∀ (w : Word) (lv : BitVec 4), intact h .lvrep (natLe 4 w.toNat ++ natLe 1 lv.toNat) = true →
      Completes (.lnkLvrep n h w lv) s up) ∧ (intact h .topo [] = true → Completes (.lnkTopo n h) s up)) ∧
    (s.fld R.LNK_GEN F.LNK_GEN_GEN % 256 = h.gen.toNat →
      (∀ (kind : BitVec 4) (ch : Fin 4) (tag : BitVec 8) (data : List Byte), kind.toNat ≠ 3 ∨ 2 ≤ s.domLevel →
        intact h .req (reqBytes kind.toNat ch tag data) = true → Completes (.lnkReq n h kind ch tag data) s fun t =>
          (h.dst.toNat = s.myAddr → t = ackFrame n h.seq.toNat false (runRequest (.domain tag) kind.toNat ch data s1)) ∧
          (h.dst.toNat ≠ s.myAddr → s.isRoot = false → (∀ k, 1 ≤ k → k ≤ 3 → s.inRange k h.dst.toNat = false) →
            s.lnkUp 0 = false → t = ackFrame n h.seq.toNat false (countLost 0 s1))) ∧
      ∀ (st : BitVec 4) (tag : BitVec 8) (data : List Byte), h.dst.toNat = s.myAddr →
        intact h .resp (respBytes st.toNat tag data) = true → Completes (.lnkResp n h st tag data) s fun t =>
          (s.isRoot = true → s.pendingTag tag.toNat = true → s.twm.gen = some h.gen.toNat → 2 ≤ st.toNat → st.toNat ≤ 11 → data.length ≤ 64 →
            t.fld R.TWM_RQSTAT F.TWM_RQSTAT_ST = st.toNat ∧ t.twm.resp = data ∧
            t.flag R.TWM_EVT F.TWM_EVT_RQDONE = true) ∧
          (s.isRoot = false ∨ s.pendingTag tag.toNat = false ∨ s.twm.gen ≠ some h.gen.toNat → t = s2))

/-- The UPD_CMD commands and the owner lock complete. (18 Sessions and commands, 18 Refusals, 18 Activation, 18 Registers) -/
def Obligations.UpdateCommandsComplete : Prop :=
  ∀ s : State, s.mgmtUp = true →
    let refused (c : Nat) (t : State) : Prop := t.fld R.UPD_STAT F.UPD_STAT_REASON = c ∧
      t.flag R.UPD_EVT F.UPD_EVT_REFUSED = true ∧ t.updState = s.updState ∧ t.upd = s.upd ∧
      t.reg R.UPD_SESS = s.reg R.UPD_SESS ∧ Only [.log, .regs, .clk] s t
    let idle (t : State) : Prop := Only [.log, .regs, .clk] s t ∧ (s.clk.quiet = false → t.regs = s.regs ∧ t.log = s.log)
    let len := (s.reg R.UPD_OLEN).toNat
    let lo := s.fld R.UPD_ORANGE F.UPD_ORANGE_LO
    let hi := s.fld R.UPD_ORANGE F.UPD_ORANGE_HI
    let mine := lo ≤ s.myAddr ∧ s.myAddr ≤ hi
    let openCode := if 1 ≤ s.openRefusal len && s.openRefusal len ≤ 7 then s.openRefusal len
      else if s.castRefusal false != 0 then s.castRefusal false else s.openRefusal len
    let castCode := if s.castRefusal false != 0 then s.castRefusal false else if !s.upd.isOpen then 0x10 else 0
    (Completes .updCmdOpen s fun t =>
      (openCode ≠ 0 → refused openCode t) ∧
      (openCode = 0 → t.upd.isOpen = true ∧ t.upd.await = 2 ∧ t.nblk = (len + 4095) / 4096 ∧
        (mine → t.updState = 1 ∧ t.upd.missing = List.range ((len + 4095) / 4096) ∧ t.upd.lo = lo ∧ t.upd.hi = hi ∧
          t.fld R.UPD_STAT F.UPD_STAT_REASON = 0) ∧ (¬mine → t.updState = s.updState))) ∧
    (let block := (s.reg R.UPD_ARG).toNat % 4096
     let code := if s.castRefusal s.sendBusy != 0 then s.castRefusal s.sendBusy
       else if s.upd.isOpen && s.nblk ≤ block then 0x0F else if !s.upd.isOpen then 0x10 else 0
     Completes .updCmdSend s fun t =>
      (code ≠ 0 → refused code t) ∧
      (code = 0 →
        (s.takesUpd s.session = true → s.updState = 2 → block ∈ s.upd.missing → s.upd.bufs.length < 16 →
          t.upd = { s.upd with bufs := s.upd.bufs ++ [(block, s.updBuf)] }) ∧
        (s.takesUpd s.session = false ∨ s.updState ≠ 2 → t.upd = s.upd) ∧ t.updState = s.updState)) ∧
    (Completes .updCmdEnd s fun t =>
      (castCode ≠ 0 → refused castCode t) ∧
      (castCode = 0 → t.upd = { s.upd with await := 4 } ∧
        (s.takesUpd s.session = true → s.updState = 2 → s.upd.missing = [] → t.updState = 3) ∧
        (s.takesUpd s.session = false ∨ s.updState ≠ 2 ∨ s.upd.missing ≠ [] → t.updState = s.updState))) ∧
    (Completes .updCmdQuery s fun t =>
      (castCode ≠ 0 → refused castCode t) ∧ (castCode = 0 → t.upd = s.upd ∧ t.updState = s.updState)) ∧
    (Completes .updCmdAbort s fun t =>
      (s.castRefusal false ≠ 0 → refused (s.castRefusal false) t) ∧
      (s.castRefusal false = 0 → t.upd = { s.upd with isOpen := false } ∧
        (s.takesUpd s.session = true → 1 ≤ s.updState → s.updState ≤ 4 → t.updState = 0) ∧
        (s.takesUpd s.session = false ∨ s.updState = 0 ∨ 4 < s.updState → t.updState = s.updState))) ∧
    (∀ defer, Completes (.updCmdActivate defer) s fun t =>
      (s.activateRefusal defer ≠ 0 → refused (s.activateRefusal defer) t) ∧
      (s.activateRefusal defer = 0 → t.updState = 5 ∧ t.upd.todo = [0, 1, 2, 3] ∧ t.upd.failed = false ∧
        t.upd.back = false ∧ t.upd.copy = none ∧ t.upd.step6 = none ∧ t.upd.oldVer = s.reg R.BOOT_FWVER ∧
        t.upd.oldHash = s.boot.codeHash ∧ t.fld R.UPD_STAT F.UPD_STAT_CHDONE = 0 ∧
        t.flag R.UPD_STAT F.UPD_STAT_DEFER = defer ∧ t.nvmA = s.nvmA.rewrite (s.reg R.BOOT_PWRHRS).toNat rotate ∧
        t.nvmB = s.nvmB.rewrite (s.reg R.BOOT_PWRHRS).toNat rotate)) ∧
    (Completes .updCmdConfirm s fun t =>
      (s.updState = 6 → s.upd.clash ≠ some s.clock → s.rejectWaits = false →
        (s.upd.failed = false → s.failureWaits = false → t.updState = 0 ∧ t.flag R.UPD_EVT F.UPD_EVT_CONFIRMED = true ∧
          t.nvmA = s.nvmA.rewrite (s.reg R.BOOT_PWRHRS).toNat (fun h => { h with trial := false }) ∧
          t.nvmB = s.nvmB.rewrite (s.reg R.BOOT_PWRHRS).toNat (fun h => { h with trial := false })) ∧
        (s.upd.failed = true ∨ s.failureWaits = true → idle t)) ∧
      (s.updState = 6 → s.upd.clash ≠ some s.clock → s.rejectWaits = true →
        t.upd = { s.upd with clash := some s.clock } ∧ t.updState = 6) ∧
      (s.updState = 6 → s.upd.clash = some s.clock → t.upd = { s.upd with clash := none } ∧ t.updState = 6) ∧
      (s.updState ≠ 6 → idle t)) ∧
    (Completes .updCmdReject s fun t =>
      t.updState = s.updState ∧ Only [.upd, .log, .regs, .clk] s t ∧
      (s.updState = 5 ∨ s.updState = 6 ∧ s.upd.clash ≠ some s.clock ∧ s.confirmWaits = false →
        t.upd = { s.upd with failed := true }) ∧
      (s.updState = 6 → s.upd.clash ≠ some s.clock → s.confirmWaits = true → t.upd = { s.upd with clash := some s.clock }) ∧
      (s.updState = 6 → s.upd.clash = some s.clock → t.upd = { s.upd with clash := none }) ∧
      (s.updState ≠ 5 → s.updState ≠ 6 → idle t)) ∧
    ∀ v : Word, Completes (.updOwnerWrite v) s fun t =>
      (F.UPD_OWNER_KEY.get v = 0x4C → t.fld R.UPD_OWNER F.UPD_OWNER_LOCK = F.UPD_OWNER_LOCK.get v ∧
        tabGet none t.saved R.UPD_OWNER = some (v &&& 1)) ∧ (F.UPD_OWNER_KEY.get v ≠ 0x4C → idle t)

/-- Erasure, blocks, verification and the UPD frames move the staging state as Table 18-3 says. (18 The staging state
machine, 18 Verification, 18 Sessions and commands, 17 Frames, 18 Registers) -/
def Obligations.StagingCompletes : Prop :=
  (∀ (s : State) (okA okB : Bool), s.mgmtUp = true →
    let left := (s.upd.useA && okA) || (s.upd.useB && okB)
    let failed (t : State) : Prop := t.updState = 7 ∧ t.fld R.UPD_STAT F.UPD_STAT_REASON = 0x0E ∧
      t.flag R.UPD_EVT F.UPD_EVT_FAILED = true
    (s.updState = 1 → Completes (.eraseComplete okA okB) s fun t =>
      (left = true → t.updState = 2 ∧ t.flag R.UPD_EVT F.UPD_EVT_OPENED = true ∧ t.upd.useA = (s.upd.useA && okA) ∧
        t.upd.useB = (s.upd.useB && okB)) ∧ (left = false → failed t)) ∧
    ∀ b bytes l, s.updState = 2 → s.upd.bufs = (b, bytes) :: l → Completes (.blockStaged okA okB) s fun t =>
      t.upd.bufs = l ∧
      ((∀ w < 512, s.wordErr 0x53 (bufPlace b + 8 * w) = WordErr.init) →
        (left = true → t.upd.missing = s.upd.missing.filter (· ≠ b) ∧ tabGet [] t.upd.slot b = bytes ∧ t.updState = 2) ∧
        (left = false → failed t)) ∧
      ((∃ w < 512, s.poisoned 0x53 (bufPlace b + 8 * w) = true) → t.upd = { s.upd with bufs := l } ∧ t.updState = 2 ∧
        t.fld R.UPD_CNT F.UPD_CNT_CRCERR = min 65535 (s.fld R.UPD_CNT F.UPD_CNT_CRCERR + 1))) ∧
  (∀ (s : State) (a b : Option (List Byte)), s.mgmtUp = true → s.updState = 3 →
    let keys := (List.range 4).any (slotUsable (tabGet 0 s.otp.norm))
    let la := a.getD s.stagedImage
    let lb := b.getD s.stagedImage
    let ca := if s.upd.useA then s.copyOutcome la else 0x0A
    let cb := if s.upd.useB then s.copyOutcome lb else 0x0A
    let va := s.upd.useA && decide (ca = 0)
    let vb := s.upd.useB && decide (cb = 0)
    Completes (.verificationComplete a b) s fun t =>
      (keys = false → t.updState = 7 ∧ t.fld R.UPD_STAT F.UPD_STAT_REASON = 0x0D) ∧
      (keys = true → t.flag R.UPD_STAT F.UPD_STAT_VA = va ∧ t.flag R.UPD_STAT F.UPD_STAT_VB = vb) ∧
      (keys = true → va = true ∨ vb = true → t.updState = 4 ∧ t.flag R.UPD_EVT F.UPD_EVT_READY = true ∧
        let l := if va then la else lb
        t.reg R.UPD_VER = imgVer l ∧ t.upd.ver = imgVer l ∧ t.upd.info = imgInfo l ∧ t.upd.hash = codeHashes l) ∧
      (keys = true → va = false → vb = false → t.updState = 7 ∧
        (s.upd.useA = true → t.fld R.UPD_STAT F.UPD_STAT_REASON = 0x80 + ca) ∧
        (s.upd.useA = false → s.upd.useB = true → t.fld R.UPD_STAT F.UPD_STAT_REASON = 0x80 + cb))) ∧
  (∀ (s : State) (n : Fin 4) (h : Header) (session first : BitVec 16) (state reason : Byte) (missing : BitVec 16),
    s.mgmtUp = true → s.lnkUp n = true → h.seq.toNat ∉ (s.chainOf n).rxSeq → 2 ≤ s.domLevel →
    intact h .upd (reportBytes session.toNat first.toNat state.toNat reason.toNat missing.toNat) = true →
    s.fld R.LNK_GEN F.LNK_GEN_GEN % 256 = h.gen.toNat → s.enumd = true → h.dst.toNat = s.myAddr → s.isRoot = true →
    Completes (.updReport n h session first state reason missing) s fun t =>
      tabGet none t.upd.reports h.src.toNat = some (state.toNat, reason.toNat) ∧ t.updState = s.updState) ∧
  ∀ (s : State) (h : Header) (session : BitVec 16), s.mgmtUp = true → s.lnkUp 0 = true →
    h.seq.toNat ∉ (s.chainOf 0).rxSeq → 2 ≤ s.domLevel →
    let sub (op : Nat) : List Byte := subheader op 0 session.toNat 0 0
    let mine := s.takesUpd session.toNat = true
    (∀ (len : Word) (lo hi : BitVec 16), intact h .upd (sub 1 ++ natLe 4 len.toNat ++ natLe 2 lo.toNat ++ natLe 2 hi.toNat) = true →
      Completes (.updOpen 0 h session len lo hi) s fun t =>
      (s.enumd = true → lo.toNat ≤ s.myAddr → s.myAddr ≤ hi.toNat →
        (s.openRefusal len.toNat = 0 → t.updState = 1 ∧ t.session = session.toNat ∧ t.nblk = (len.toNat + 4095) / 4096 ∧
          t.upd.missing = List.range ((len.toNat + 4095) / 4096) ∧ t.upd.len = len.toNat) ∧
        (s.openRefusal len.toNat ≠ 0 → t.fld R.UPD_STAT F.UPD_STAT_REASON = s.openRefusal len.toNat ∧
          t.flag R.UPD_EVT F.UPD_EVT_REFUSED = true ∧ t.updState = s.updState ∧ t.upd = s.upd)) ∧
      (s.enumd = false ∨ s.myAddr < lo.toNat ∨ hi.toNat < s.myAddr → t.updState = s.updState ∧ t.upd = s.upd)) ∧
    (∀ (block : BitVec 16) (crc : Word) (part : Fin 3) (l : List Byte),
      intact h .upd (subheader 2 part session.toNat block.toNat crc ++ l) = true →
      Completes (.updData 0 h session block crc part l) s fun t =>
      t.updState = s.updState ∧ (¬mine ∨ s.updState ≠ 2 → t.upd = s.upd) ∧
      (mine → s.updState = 2 → part.val < 2 → tabGet [] t.upd.parts part = l ∧ t.upd.block = block.toNat ∧
        t.upd.bcrc = crc ∧ t.upd.bufs = s.upd.bufs) ∧
      ∀ p0 p1, mine → s.updState = 2 → part.val = 2 → s.upd.block = block.toNat → s.upd.bcrc = crc →
        s.upd.parts.lookup 0 = some p0 → s.upd.parts.lookup 1 = some p1 → block.toNat ∈ s.upd.missing →
        t.upd.parts = [] ∧
        (crc32 (p0 ++ p1 ++ l) = crc → s.upd.bufs.length < 16 → t.upd.bufs = s.upd.bufs ++ [(block.toNat, p0 ++ p1 ++ l)]) ∧
        (crc32 (p0 ++ p1 ++ l) ≠ crc → t.upd.bufs = s.upd.bufs ∧
          t.fld R.UPD_CNT F.UPD_CNT_CRCERR = min 65535 (s.fld R.UPD_CNT F.UPD_CNT_CRCERR + 1))) ∧
    (intact h .upd (sub 3) = true → Completes (.updEnd 0 h session) s fun t => t.upd = s.upd ∧
      (mine → s.updState = 2 → s.upd.missing = [] → t.updState = 3) ∧
      (¬mine ∨ s.updState ≠ 2 ∨ s.upd.missing ≠ [] → t.updState = s.updState)) ∧
    (intact h .upd (sub 4) = true → Completes (.updQuery 0 h session) s fun t => t.upd = s.upd ∧ t.updState = s.updState) ∧
    (intact h .upd (sub 5) = true → Completes (.updAbort 0 h session) s fun t => t.upd = s.upd ∧
      (mine → 1 ≤ s.updState → s.updState ≤ 4 → t.updState = 0) ∧
      (¬mine ∨ s.updState = 0 ∨ 4 < s.updState → t.updState = s.updState))

/-- Channel switches, the end of a switched restart, the window's end and fallback complete. (18 Activation, 18 Timings,
11 Start, halt and restart, 18 Registers, 12 Memory protection) -/
def Obligations.ActivationCompletes : Prop :=
  (∀ (s : State) (c : Fin 4), s.mgmtUp = true → s.upd.todo.head? = some c.val → s.upd.copy = none → s.gapOver = true →
    (s.updState = 5 ∨ s.goingBack = true) → s.upd.failed = false → s.shipRefusal = 0 → s.chanUp c = true →
    s.crsState c ≠ 0 →
    Completes (.channelSwitch c) s fun t =>
      t.crsState c = 3 ∧ t.fld (R.CRS_STAT c) F.CRS_STAT_RCAUSE = 9 ∧ t.upd = { s.upd with copy := some c.val } ∧
      tabGet [] t.boot.codeHash c = tabGet [] (if s.upd.back then s.upd.oldHash else s.upd.hash) c ∧
      (∀ d : Fin 4, d ≠ c → t.crsOf d = s.crsOf d)) ∧
  (∀ (s : State) (c : Fin 4) (code : List Byte), s.chanUp c = true → s.upd.copy = some c.val → code.length ≤ 0x30000 →
    let todo := s.upd.todo.filter (· ≠ c.val)
    let switched (t : State) : Prop :=
      t.crsState c = 1 ∧ (t.crsOf c).s0 = Str.init ∧ t.bytesAt c 0 code.length = code ∧
      t.upd.todo = todo ∧ t.upd.copy = none ∧ t.upd.step6 = some s.clock ∧
      (s.upd.back = false → t.flag R.UPD_STAT (F.UPD_STAT_CHDONE.bit c) = true ∧
        (todo = [] → t.updState = 6 ∧ t.reg R.BOOT_FWVER = s.upd.ver ∧
          t.upd.winStart = s.tb.usec ∧ t.flag R.UPD_EVT F.UPD_EVT_ACTIVATED = true)) ∧
      (s.upd.back = true → todo = [] →
        t.upd.back = false ∧ t.reg R.BOOT_FWVER = s.upd.oldVer ∧ t.flag R.UPD_EVT F.UPD_EVT_FALLBACK = true)
    let held (t : State) : Prop := t.crsState c = s.crsState c ∧
      (s.updState = 5 → t.upd = { s.upd with failed := true }) ∧ (s.updState ≠ 5 → t = s) ∧ Only [.upd] s t
    let good := sha384 code = tabGet [] s.boot.codeHash c
    (s.crsState c = 3 → (s.crsOf c).sbuf = [] → s.crsHung c = false → s.fld (R.CRS_STAT c) F.CRS_STAT_RCAUSE = 9 →
      Completes (.courseRestart c code) s fun t => (good → switched t) ∧ (¬good → held t)) ∧
    (s.bootRuns = true → s.released = true → s.crsState c = 0 →
      Completes (.courseReleaseAfterReset c code) s fun t =>
        (good → switched t ∧ t.fld (R.CRS_STAT c) F.CRS_STAT_RCAUSE = 1) ∧ (¬good → held t))) ∧
  (∀ s : State, s.mgmtUp = true → s.updState = 6 → s.upd.failed = false →
    60000000 * max 1 (min 1440 (s.fld R.UPD_CFG F.UPD_CFG_WIN_MIN)) ≤ s.since s.upd.winStart →
    s.failureWaits = false → s.rejectWaits = false →
    Completes .trialWindowEnd s fun t =>
      (s.flag R.UPD_CFG F.UPD_CFG_AUTOCONF = true →
        t.updState = 0 ∧ t.flag R.UPD_EVT F.UPD_EVT_CONFIRMED = true ∧ t.upd = s.upd) ∧
      (s.flag R.UPD_CFG F.UPD_CFG_AUTOCONF = false → t.upd = { s.upd with failed := true } ∧ t.updState = 6)) ∧
  (∀ s : State, s.mgmtUp = true → s.upd.failed = true → s.updState = 5 ∨ s.updState = 6 →
    let back := (List.range 4).filter fun c => s.flag R.UPD_STAT (F.UPD_STAT_CHDONE.bit c) || decide (s.upd.copy = some c)
    Completes .fallback s fun t =>
      t.updState = 7 ∧ t.fld R.UPD_STAT F.UPD_STAT_REASON = 0x11 ∧ t.flag R.UPD_EVT F.UPD_EVT_FAILED = true ∧
      t.upd.failed = false ∧ t.upd.todo = back ∧ t.upd.copy = s.upd.copy ∧ t.upd.step6 = none ∧
      (∀ c, s.upd.copy = some c → tabGet [] t.boot.codeHash c = tabGet [] s.upd.oldHash c) ∧
      t.nvmA = s.nvmA.rewrite (s.reg R.BOOT_PWRHRS).toNat rotateBack ∧
      t.nvmB = s.nvmB.rewrite (s.reg R.BOOT_PWRHRS).toNat rotateBack ∧
      (back ≠ [] → t.upd.back = true ∧ t.reg R.BOOT_FWVER = s.reg R.BOOT_FWVER) ∧
      (back = [] → t.upd.back = false ∧ t.reg R.BOOT_FWVER = s.upd.oldVer ∧
        t.flag R.UPD_EVT F.UPD_EVT_FALLBACK = true))

/-- A register write acts as its access, its owner and the state of its domain allow. (19 Who may write, 19 Addresses that
hold no register, 19 Channel and port registers, 10 The course's address map, 13 Stopped clocks) -/
def Obligations.RegisterWriteCompletes : Prop :=
  (∀ (s : State) (a v : Word), s.mgmtUp = false → Completes (.registerWrite .host a v) s fun t => t = s) ∧
  (∀ (s' : State) (a v : Word), s'.mgmtUp = true →
    let b := a.toNat / 4 * 4
    let s := twmCmd id s'
    Completes (.registerWrite .host a v) s' fun t =>
      (0x20000 ≤ b → b < 0x100000 → t = s) ∧ (0x120000 ≤ b → t = s) ∧
      (∀ c : Fin 4, s.chanUp c = false →
        (0x10000 + 0x4000 * c.val ≤ b ∧ b < 0x14000 + 0x4000 * c.val ∨
          0x100000 + 0x8000 * c.val ≤ b ∧ b < 0x108000 + 0x8000 * c.val) →
        t.flag R.CRU_MAERR F.CRU_MAERR_ERR = true ∧ t.fld R.CRU_MAERR F.CRU_MAERR_CAUSE = 1 ∧
        t.reg R.CRU_MAADDR = BitVec.ofNat 32 b ∧
        t.fld R.CRU_MAERR F.CRU_MAERR_COUNT = min 65535 (s.fld R.CRU_MAERR F.CRU_MAERR_COUNT + 1) ∧
        (∀ x, x ≠ R.CRU_MAERR → x ≠ R.CRU_MAADDR → t.reg x = s.reg x) ∧ Only [.regs] s t) ∧
      (s.tclk = false → (0x1000 ≤ b ∧ b < 0x4000 ∨ 0x4400 ≤ b ∧ b < 0x5000) →
        t.flag R.CRU_MAERR F.CRU_MAERR_ERR = true ∧ t.fld R.CRU_MAERR F.CRU_MAERR_CAUSE = 2 ∧
        t.reg R.CRU_MAADDR = BitVec.ofNat 32 b ∧
        (∀ x, x ≠ R.CRU_MAERR → x ≠ R.CRU_MAADDR → t.reg x = s.reg x) ∧ Only [.regs] s t) ∧
      (s.accessCause b = none → findReg b = none → t = s) ∧
      (∀ r, s.accessCause b = none → findReg b = some r →
        (r.rw = 0 ∧ r.w1c = 0 ∧ r.wo = 0 ∨ r.cls = .image ∨ r.cls = .course ∨ r.cls = .noHostRead) → t = s) ∧
      (b = R.GLB_SCRATCH → t.reg R.GLB_SCRATCH = v ∧
        (∀ x, x ≠ R.GLB_SCRATCH → x ≠ R.TWM_STAT → t.reg x = s.reg x) ∧ Only [.regs] s t) ∧
      (b = R.FLT_SUM →
        (∀ n < 32, (t.reg R.FLT_SUM).getLsbD n =
          ((s.reg R.FLT_SUM).getLsbD n && !(v.getLsbD n && decide (n < 15 ∧ n ≠ 12)))) ∧
        (∀ x, x ≠ R.FLT_SUM → x ≠ R.TWM_STAT → t.reg x = s.reg x) ∧ Only [.regs] s t)) ∧
  (∀ (s : State) (c : Fin 4) (v : Word), s.chanUp c = true →
    (∀ k : Fin 128, let p := 128 * c.val + k.val
      Completes (.registerWrite (.course c) (BitVec.ofNat 32 (0xB0030 + 0x100 * k.val)) v) s fun t =>
        t.reg (R.PRT_EVTEN p) = s.reg (R.PRT_EVTEN p) &&& 0xFFFF8000 ||| v &&& 0x7FFF ∧
        (∀ x, x ≠ R.PRT_EVTEN p → x ≠ R.TWM_STAT → t.reg x = s.reg x) ∧ Only [.regs] s t) ∧
    (∀ k : Fin 128,
      Completes (.registerWrite (.course c) (BitVec.ofNat 32 (0xB0000 + 0x100 * k.val)) v) s fun t => t = s) ∧
    ∀ a : Word, (a.toNat < 0x30000 ∨ a = 0x82024) →
      Completes (.registerWrite (.course c) a v) s fun t =>
        (t.crsOf c).ae = true ∧ (∀ d : Fin 4, d ≠ c → t.crsOf d = s.crsOf d) ∧ Only [.crs] s t)

/-- A course access outside its own channel's map does nothing but set AE, and a read gives all ones. (R16) -/
def Obligations.WritesOutsideTheCourseMap : Prop :=
  ∀ (s : State) (c : Fin 4) (a v : Word),
    (∀ r ∈ [(0, 0x30000), (0x40000, 0x50000), (0x80000, 0x84000), (0x90000, 0x94000), (0xA0000, 0xA2000),
        (0xB0000, 0xB8000), (0xC0000, 0xC0210), (0xC0300, 0xC0318), (0xC1000, 0xC1100), (0xD0000, 0xD0204),
        (0xD0400, 0xD0500), (0xE0000, 0xE040C), (0xE1000, 0xE1010)], a.toNat < r.1 ∨ r.2 ≤ a.toNat) →
    let flagged (t : State) : Prop :=
      t.crsOf c = { s.crsOf c with ae := true, aeAddr := if (s.crsOf c).ae then (s.crsOf c).aeAddr else a } ∧
      (∀ d : Fin 4, d ≠ c → t.crsOf d = s.crsOf d) ∧ Only [.crs] s t
    (∀ n, n = 1 ∨ n = 2 ∨ n = 4 → flagged (courseStore c n a v s)) ∧
    ((courseLoad c 4 a s).1 = 0xFFFFFFFF ∧ flagged (courseLoad c 4 a s).2) ∧
    (∀ n, n = 1 ∨ n = 2 → (courseLoad c n a s).1 = BitVec.ofNat 32 (2 ^ (8 * n) - 1) ∧ flagged (courseLoad c n a s).2) ∧
    (s.chanUp c = true → a.toNat % 4 = 0 → Completes (.registerWrite (.course c) a v) s flagged)

/-- An address in an unimplemented range reads all ones, takes no write, and fails without CRU_MAERR. (R463) -/
def Obligations.UnimplementedAddresses : Prop :=
  ∀ (s : State) (a : Nat) (v : Word), a < 2 ^ 32 → a % 4 = 0 → (0x20000 ≤ a ∧ a < 0x100000 ∨ 0x120000 ≤ a) →
    s.mgmtUp = true →
    (hostRead a s).val = 0xFFFFFFFF ∧ (hostRead a s).failed = true ∧ (hostRead a s).st = s ∧
    hostWrite a v s = (true, s) ∧
    Completes (.registerWrite .host (BitVec.ofNat 32 a) v) s (· = twmCmd id s) ∧
    (s.clk.quiet = false → (s.reg R.TWM_WADDR).toNat = a →
      Completes (.twmWdata .done .read) s (fun t =>
        t.bus = 0xFFFFFFFF ∧ t.flag R.TWM_EVT F.TWM_EVT_WERR = true ∧ t.reg R.CRU_MAERR = s.reg R.CRU_MAERR) ∧
      Completes (.twmWdata (.pec (s.writePec 0x02 (natLe 4 v.toNat))) (.write v)) s fun t =>
        t.flag R.TWM_EVT F.TWM_EVT_WERR = true ∧ t.reg R.CRU_MAERR = s.reg R.CRU_MAERR ∧ Only [.regs, .clk] s t) ∧
    (∀ (o : Origin) (ch b n k : Nat), 1 ≤ n → n ≤ 16 → k < n → b < 2 ^ 32 → (b + 4 * k) % 2 ^ 32 / 4 * 4 = a →
      ∃ resp t, runRequest o 1 ch (natLe 4 b ++ [BitVec.ofNat 8 n]) s = answerOrigin o 7 resp t) ∧
    (∀ (o : Origin) (ch b k : Nat) (l : List Byte), 4 ≤ l.length → l.length ≤ 60 → l.length % 4 = 0 → 4 * k < l.length →
      b < 2 ^ 32 → (b + 4 * k) % 2 ^ 32 / 4 * 4 = a →
      ∃ t, runRequest o 2 ch (natLe 4 b ++ l) s = answerOrigin o 7 [] t) ∧
    ∀ g : Word, s.clk.quiet = false → s.rqPending = false → s.namesSelf (g.toNat / 65536) = true → g.toNat / 256 % 4 = 0 →
      (g.toNat / 4096 % 16 = 1 → s.twm.buf = natLe 4 a ++ [1] →
        Completes (.twmRqgo (.pec (s.writePec 0x11 (natLe 4 g.toNat))) g) s fun t =>
          t.fld R.TWM_RQSTAT F.TWM_RQSTAT_ST = 7 ∧ t.twm.resp = [0xFF, 0xFF, 0xFF, 0xFF] ∧
          t.reg R.CRU_MAERR = s.reg R.CRU_MAERR) ∧
      (g.toNat / 4096 % 16 = 2 → s.twm.buf = natLe 4 a ++ natLe 4 v.toNat →
        Completes (.twmRqgo (.pec (s.writePec 0x11 (natLe 4 g.toNat))) g) s fun t =>
          t.fld R.TWM_RQSTAT F.TWM_RQSTAT_ST = 7 ∧ t.reg R.CRU_MAERR = s.reg R.CRU_MAERR)

/-- A step runs the command at the front of the queue on the state with the queue's rest; on an empty queue it only lets
time pass. (13 Clocks, 02 Angle and USEC, 17 Alerts across the domain) -/
def Obligations.StepTakesTheFrontCommand : Prop :=
  (∀ (s : State) (i : Instr) (q : List Instr), s.pending = i :: q → step s = exec i { s with pending := q }) ∧
  ∀ s : State, s.pending = [] →
    ∃ t, step s = .next t ∧ t.pending = [] ∧
      (s.tclk = true → t.tb = { s.tb with usec := s.tb.usec + 1 }) ∧ (s.tclk = false → t.tb = s.tb) ∧
      t.clock = s.clock + 1 ∧ t.clk = { s.clk with idleAt := t.clk.idleAt } ∧
      (Config.upset s.clock = none → t.ecc = s.ecc) ∧ (Config.stringUpset s.clock = none → t.crs = s.crs) ∧
      (s.mgmtUp = false → Only [.tb, .ecc, .crs, .clk, .clock] s t) ∧
      Only [.regs, .ecc, .tb, .crs, .lnk, .enum, .clk, .clock] s t

/-- At reset every register holds its stated value, every domain is in reset, the queue is empty and the memory is
canonical. (13 Reset domains, 19 The address space, 19 Global and identity registers, 19 Device-wide registers, 02
States, 04 Port states) -/
def Obligations.ResetLeavesTheStatedValues : Prop :=
  (∀ a, State.reset.reg a = regReset a) ∧
  regReset R.GLB_ID = 0xB5120100 ∧ regReset R.ANG_CFG = 0x18000008 ∧ regReset R.ANG_HOLDISL = 0xFA00C350 ∧
  regReset R.FLT_SUM = 0x1000 ∧ regReset R.GLB_SCRATCH = 0 ∧
  State.reset.tb.st = .acquire ∧ State.reset.tb.angle = 0 ∧ State.reset.tb.cyc = 0 ∧ State.reset.tb.usec = 0 ∧
  State.reset.mgmtUp = false ∧ State.reset.tclk = false ∧ (∀ c : Fin 4, State.reset.chanUp c = false) ∧
  (∀ d : Fin 8, (State.reset.dieOf d).inReset = true) ∧ (∀ p : Fin 512, (State.reset.portOf p).state = .off) ∧
  State.reset.pending = [] ∧ State.reset.log.staged = [] ∧ State.reset.mem = [] ∧ State.reset.ecc = [] ∧
  Memory.wf State.reset.mem ∧
  ∀ addr : Fin 8, Completes (.porstNRelease addr) State.reset fun t =>
    t.mgmtUp = true ∧ t.tclk = true ∧ t.fld R.TWM_STAT F.TWM_STAT_SADDR = 0x38 + addr.val ∧ ∀ c : Fin 4, t.chanUp c = false

/-- Every command completes, changes only the parts of the block its footprint names, never the queue, and USEC and the
clock only at PORST_N. (01 Channels, 13 Reset domains, 01 Three paths through the device, 02 Angle and USEC) -/
def Obligations.CommandsKeepToTheirFootprint : Prop :=
  ∀ (i : Instr) (s : State), Completes i s fun t =>
    Only (footprint i) s t ∧ t.pending = s.pending ∧
    (i ≠ .porstNAssert → t.tb.usec = s.tb.usec ∧ t.clock = s.clock) ∧
    (i = .porstNAssert → Only [.fuse, .weak, .log, .nvmA, .nvmB, .fresh, .pending] State.reset t)

/-- Every step keeps the memory in its canonical form. (12 Memory protection, 10 The course's address map, 05 Message
pans) -/
def Obligations.MemoryStaysCanonical : Prop :=
  ∀ s t : State, Memory.wf s.mem → step s = .next t → Memory.wf t.mem

/-- No step returns a blown fuse bit to 0. (15 Programming, 15 The map, 15 Sensing at power-up) -/
def Obligations.BlownFusesStayBlown : Prop :=
  ∀ (s t : State) (w b : Nat), step s = .next t → (s.fuseWord w).getLsbD b = true → (t.fuseWord w).getLsbD b = true
end

