-- ==== Sys2Proof/Laws/Tab.lean ====
section
/-! SUPPORT. Sparse tables: what a read gives after a write, and that every write keeps the canonical form. -/
namespace Sys2Proof.Machine

variable {α : Type}

theorem lookup_head (e : Nat × α) (t : Tab α) (j : Nat) :
    (e :: t).lookup j = if j = e.1 then some e.2 else t.lookup j := by
  obtain ⟨k, v⟩ := e
  by_cases h : j = k
  · simp [h]
  · have hb : (j == k) = false := by simp [h]
    simp [List.lookup, hb, h]

theorem erase_head (e : Nat × α) (t : Tab α) (k : Nat) :
    tabErase (e :: t) k = if e.1 = k then tabErase t k else e :: tabErase t k := by
  by_cases h : e.1 = k <;> simp [tabErase, h]

theorem lookup_erase_same (t : Tab α) (k : Nat) : (tabErase t k).lookup k = none := by
  induction t with
  | nil => rfl
  | cons e t ih =>
    rw [erase_head]
    split
    · exact ih
    · next h => rw [lookup_head, if_neg (Ne.symm h), ih]

theorem lookup_erase_ne (t : Tab α) {k j : Nat} (h : j ≠ k) : (tabErase t k).lookup j = t.lookup j := by
  induction t with
  | nil => rfl
  | cons e t ih =>
    rw [erase_head, lookup_head]
    split
    · next he => rw [ih, if_neg (by omega)]
    · rw [lookup_head, ih]

theorem lookup_insert_same (t : Tab α) (k : Nat) (v : α) (h : t.lookup k = none) :
    (tabInsert k v t).lookup k = some v := by
  induction t with
  | nil => simp [tabInsert]
  | cons e t ih =>
    rw [lookup_head] at h
    split at h
    · cases h
    · next he =>
      unfold tabInsert
      split
      · rw [lookup_head]; simp
      · rw [lookup_head, if_neg he, ih h]

theorem lookup_insert_ne (t : Tab α) {k j : Nat} (v : α) (h : j ≠ k) : (tabInsert k v t).lookup j = t.lookup j := by
  induction t with
  | nil => simp [tabInsert, lookup_head, h]
  | cons e t ih =>
    unfold tabInsert
    split
    · rw [lookup_head, if_neg h]
    · rw [lookup_head, lookup_head, ih]

theorem mem_tabInsert {k : Nat} {v : α} {t : Tab α} {e : Nat × α} (h : e ∈ tabInsert k v t) :
    e = (k, v) ∨ e ∈ t := by
  induction t with
  | nil => simpa [tabInsert] using h
  | cons f t ih =>
    unfold tabInsert at h
    split at h
    · simpa using h
    · rcases List.mem_cons.mp h with h | h
      · exact .inr (by simp [h])
      · rcases ih h with h | h
        · exact .inl h
        · exact .inr (by simp [h])

@[simp] theorem tabGet_nil (d : α) (k : Nat) : tabGet d [] k = d := rfl

theorem tabGet_head (d : α) (e : Nat × α) (t : Tab α) (k : Nat) :
    tabGet d (e :: t) k = if k = e.1 then e.2 else tabGet d t k := by
  unfold tabGet
  rw [lookup_head]
  by_cases h : k = e.1 <;> simp [h]

/-- Dropping keys returns them to their default and leaves the others. -/
theorem tabGet_tabDrop (d : α) (p : Nat → Bool) (t : Tab α) (k : Nat) :
    tabGet d (tabDrop p t) k = if p k then d else tabGet d t k := by
  induction t with
  | nil => simp [tabDrop, tabGet]
  | cons e t ih =>
    have hd : tabDrop p (e :: t) = if p e.1 then tabDrop p t else e :: tabDrop p t := by
      by_cases h : p e.1 <;> simp [tabDrop, h]
    rw [hd, tabGet_head]
    by_cases hk : k = e.1
    · subst hk
      by_cases hp : p e.1 <;> simp [hp, ih, tabGet_head]
    · by_cases hp : p e.1 <;> simp [hp, hk, ih, tabGet_head]

variable [DecidableEq α]

theorem lookup_set_ne (d : α) (t : Tab α) {k j : Nat} (v : α) (h : j ≠ k) :
    (tabSet d t k v).lookup j = t.lookup j := by
  unfold tabSet
  split
  · exact lookup_erase_ne t h
  · rw [lookup_insert_ne _ v h, lookup_erase_ne t h]

/-- A read of the key just written gives the value written. -/
@[simp] theorem tabGet_tabSet_same (d : α) (t : Tab α) (k : Nat) (v : α) : tabGet d (tabSet d t k v) k = v := by
  unfold tabSet
  split
  · next h => simp [tabGet, lookup_erase_same, h]
  · simp [tabGet, lookup_insert_same _ k v (lookup_erase_same t k)]

/-- A write leaves every other key as it was, whatever its default. -/
theorem tabGet_tabSet_ne (d d' : α) (t : Tab α) {k j : Nat} (v : α) (h : j ≠ k) :
    tabGet d' (tabSet d t k v) j = tabGet d' t j := by
  simp [tabGet, lookup_set_ne d t v h]

/-- A read after a write, at any two keys. -/
theorem tabGet_tabSet (d : α) (t : Tab α) (k j : Nat) (v : α) :
    tabGet d (tabSet d t k v) j = if j = k then v else tabGet d t j := by
  by_cases h : j = k
  · simp [h]
  · simp [h, tabGet_tabSet_ne d d t v h]

theorem tabWf_filter {d : Nat → α} {t : Tab α} (h : tabWf d t) (p : Nat × α → Bool) : tabWf d (t.filter p) :=
  ⟨(h.1.sublist ((List.filter_sublist).map _)), fun e he => h.2 e (List.mem_filter.mp he).1⟩

theorem tabWf_erase {d : Nat → α} {t : Tab α} (h : tabWf d t) (k : Nat) : tabWf d (tabErase t k) := tabWf_filter h _

theorem tabWf_drop {d : Nat → α} {t : Tab α} (h : tabWf d t) (p : Nat → Bool) : tabWf d (tabDrop p t) := tabWf_filter h _

theorem tabWf_insert {d : Nat → α} {t : Tab α} {k : Nat} {v : α} (h : tabWf d t) (hk : ∀ e ∈ t, e.1 ≠ k)
    (hv : v ≠ d k) : tabWf d (tabInsert k v t) := by
  induction t with
  | nil => exact ⟨by simp [tabInsert], by simpa [tabInsert] using hv⟩
  | cons e t ih =>
    have ht : tabWf d t := ⟨(List.pairwise_cons.mp h.1).2, fun f hf => h.2 f (by simp [hf])⟩
    have hlt : ∀ f ∈ t, e.1 < f.1 := fun f hf => (List.pairwise_cons.mp h.1).1 f.1 (List.mem_map_of_mem hf)
    have ht' := ih ht fun f hf => hk f (by simp [hf])
    unfold tabInsert
    split
    · next hl =>
      refine ⟨List.pairwise_cons.mpr ⟨?_, h.1⟩, ?_⟩
      · intro n hn
        obtain ⟨f, hf, rfl⟩ := List.mem_map.mp hn
        rcases List.mem_cons.mp hf with rfl | hf
        · exact hl
        · exact Nat.lt_trans hl (hlt f hf)
      · intro f hf
        rcases List.mem_cons.mp hf with rfl | hf
        · exact hv
        · exact h.2 f hf
    · next hl =>
      have hne := hk e (by simp)
      refine ⟨List.pairwise_cons.mpr ⟨?_, ht'.1⟩, ?_⟩
      · intro n hn
        obtain ⟨f, hf, rfl⟩ := List.mem_map.mp hn
        rcases mem_tabInsert hf with rfl | hf
        · exact Nat.lt_of_le_of_ne (Nat.le_of_not_lt hl) hne
        · exact hlt f hf
      · intro f hf
        rcases List.mem_cons.mp hf with rfl | hf
        · exact h.2 _ (by simp)
        · exact ht'.2 f hf

/-- Every write keeps the canonical form. -/
theorem tabWf_set {d : Nat → α} {t : Tab α} (h : tabWf d t) (k : Nat) (v : α) : tabWf d (tabSet (d k) t k v) := by
  unfold tabSet
  split
  · exact tabWf_erase h k
  · next hv =>
    exact tabWf_insert (tabWf_erase h k) (fun e he => by simpa using (List.mem_filter.mp he).2) hv

end Sys2Proof.Machine
end

