-- ==== Sys2Proof/Laws/State.lean ====
section
/-! SUPPORT. The updates of the state: what each writes, and one line for every field it leaves. -/
namespace Sys2Proof.Machine

/-! ### What is written reads back, and its neighbours stand -/

@[simp] theorem reg_setReg (a : Nat) (v : Word) (s : State) : (setReg a v s).reg a = v := tabGet_tabSet_same ..

theorem reg_setReg_ne (a b : Nat) (v : Word) (s : State) (h : b ≠ a) : (setReg a v s).reg b = s.reg b :=
  tabGet_tabSet_ne _ _ _ _ h

@[simp] theorem timerOf_updTimer (n : Nat) (f : Timer → Timer) (s : State) : (updTimer n f s).timerOf n = f (s.timerOf n) := tabGet_tabSet_same ..

theorem timerOf_updTimer_ne (n : Nat) (f : Timer → Timer) (s : State) (j : Nat) (h : j ≠ n) : (updTimer n f s).timerOf j = s.timerOf j :=
  tabGet_tabSet_ne _ _ _ _ h

@[simp] theorem phyOf_updPhy (p : Nat) (f : Phy → Phy) (s : State) : (updPhy p f s).phyOf p = f (s.phyOf p) := tabGet_tabSet_same ..

theorem phyOf_updPhy_ne (p : Nat) (f : Phy → Phy) (s : State) (j : Nat) (h : j ≠ p) : (updPhy p f s).phyOf j = s.phyOf j :=
  tabGet_tabSet_ne _ _ _ _ h

@[simp] theorem hubOf_updHub (p : Nat) (f : HubPort → HubPort) (s : State) : (updHub p f s).hubOf p = f (s.hubOf p) := tabGet_tabSet_same ..

theorem hubOf_updHub_ne (p : Nat) (f : HubPort → HubPort) (s : State) (j : Nat) (h : j ≠ p) : (updHub p f s).hubOf j = s.hubOf j :=
  tabGet_tabSet_ne _ _ _ _ h

@[simp] theorem fwOf_updFw (p : Nat) (f : Fw → Fw) (s : State) : (updFw p f s).fwOf p = f (s.fwOf p) := tabGet_tabSet_same ..

theorem fwOf_updFw_ne (p : Nat) (f : Fw → Fw) (s : State) (j : Nat) (h : j ≠ p) : (updFw p f s).fwOf j = s.fwOf j :=
  tabGet_tabSet_ne _ _ _ _ h

@[simp] theorem chanOf_updChan (c : Nat) (f : Chan → Chan) (s : State) : (updChan c f s).chanOf c = f (s.chanOf c) := tabGet_tabSet_same ..

theorem chanOf_updChan_ne (c : Nat) (f : Chan → Chan) (s : State) (j : Nat) (h : j ≠ c) : (updChan c f s).chanOf j = s.chanOf j :=
  tabGet_tabSet_ne _ _ _ _ h

@[simp] theorem dieOf_updDie (d : Nat) (f : Die → Die) (s : State) : (updDie d f s).dieOf d = f (s.dieOf d) := tabGet_tabSet_same ..

theorem dieOf_updDie_ne (d : Nat) (f : Die → Die) (s : State) (j : Nat) (h : j ≠ d) : (updDie d f s).dieOf j = s.dieOf j :=
  tabGet_tabSet_ne _ _ _ _ h

@[simp] theorem monOf_updMon (n : Nat) (g : FdrMon → FdrMon) (s : State) : (updMon n g s).monOf n = g (s.monOf n) := tabGet_tabSet_same ..

theorem monOf_updMon_ne (n : Nat) (g : FdrMon → FdrMon) (s : State) (j : Nat) (h : j ≠ n) : (updMon n g s).monOf j = s.monOf j :=
  tabGet_tabSet_ne _ _ _ _ h

@[simp] theorem crsOf_updCrs (c : Nat) (f : Course → Course) (s : State) : (updCrs c f s).crsOf c = f (s.crsOf c) := tabGet_tabSet_same ..

theorem crsOf_updCrs_ne (c : Nat) (f : Course → Course) (s : State) (j : Nat) (h : j ≠ c) : (updCrs c f s).crsOf j = s.crsOf j :=
  tabGet_tabSet_ne _ _ _ _ h

@[simp] theorem chainOf_updChain (n : Nat) (f : Chain → Chain) (s : State) : (updChain n f s).chainOf n = f (s.chainOf n) := tabGet_tabSet_same ..

theorem chainOf_updChain_ne (n : Nat) (f : Chain → Chain) (s : State) (j : Nat) (h : j ≠ n) : (updChain n f s).chainOf j = s.chainOf j :=
  tabGet_tabSet_ne _ _ _ _ h

@[simp] theorem adcOf_updAdc (u : Nat) (f : Adc → Adc) (s : State) : (updAdc u f s).adcOf u = f (s.adcOf u) := tabGet_tabSet_same ..

theorem adcOf_updAdc_ne (u : Nat) (f : Adc → Adc) (s : State) (j : Nat) (h : j ≠ u) : (updAdc u f s).adcOf j = s.adcOf j :=
  tabGet_tabSet_ne _ _ _ _ h

@[simp] theorem scanOf_updScan (p : Nat) (f : Scan → Scan) (s : State) : (updScan p f s).scanOf p = f (s.scanOf p) := tabGet_tabSet_same ..

theorem scanOf_updScan_ne (p : Nat) (f : Scan → Scan) (s : State) (j : Nat) (h : j ≠ p) : (updScan p f s).scanOf j = s.scanOf j :=
  tabGet_tabSet_ne _ _ _ _ h

@[simp] theorem harvOf_updHarv (p : Nat) (f : Harv → Harv) (s : State) : (updHarv p f s).harvOf p = f (s.harvOf p) := tabGet_tabSet_same ..

theorem harvOf_updHarv_ne (p : Nat) (f : Harv → Harv) (s : State) (j : Nat) (h : j ≠ p) : (updHarv p f s).harvOf j = s.harvOf j :=
  tabGet_tabSet_ne _ _ _ _ h

@[simp] theorem fharvOf_updFharv (n : Nat) (g : FHarv → FHarv) (s : State) : (updFharv n g s).fharvOf n = g (s.fharvOf n) := tabGet_tabSet_same ..

theorem fharvOf_updFharv_ne (n : Nat) (g : FHarv → FHarv) (s : State) (j : Nat) (h : j ≠ n) : (updFharv n g s).fharvOf j = s.fharvOf j :=
  tabGet_tabSet_ne _ _ _ _ h

@[simp] theorem mirOf_updMir (p : Nat) (f : Port → Port) (s : State) : (updMir p f s).mirOf p = f (s.mirOf p) := tabGet_tabSet_same ..

theorem mirOf_updMir_ne (p : Nat) (f : Port → Port) (s : State) (j : Nat) (h : j ≠ p) : (updMir p f s).mirOf j = s.mirOf j :=
  tabGet_tabSet_ne _ _ _ _ h

@[simp] theorem ctxOf_updCtx (c n : Nat) (f : Ctx → Ctx) (s : State) : (updCtx c n f s).ctxOf c n = f (s.ctxOf c n) :=
  tabGet_tabSet_same ..

theorem ctxOf_updCtx_ne (c n d m : Nat) (f : Ctx → Ctx) (s : State) (h : 64 * d + m ≠ 64 * c + n) :
    (updCtx c n f s).ctxOf d m = s.ctxOf d m := tabGet_tabSet_ne _ _ _ _ h

@[simp] theorem panOf_setPan (c i : Nat) (o : PanOwner) (s : State) : (setPan c i o s).panOf c i = o :=
  tabGet_tabSet_same ..

theorem panOf_setPan_ne (c i d j : Nat) (o : PanOwner) (s : State) (h : 256 * d + j ≠ 256 * c + i) :
    (setPan c i o s).panOf d j = s.panOf d j := tabGet_tabSet_ne _ _ _ _ h

@[simp] theorem opOf_setOp (c i : Nat) (e : Option OpEntry) (s : State) : (setOp c i e s).opOf c i = e :=
  tabGet_tabSet_same ..

theorem opOf_setOp_ne (c i d j : Nat) (e : Option OpEntry) (s : State) (h : 64 * d + j ≠ 64 * c + i) :
    (setOp c i e s).opOf d j = s.opOf d j := tabGet_tabSet_ne _ _ _ _ h

@[simp] theorem recOf_setRec (p w : Nat) (v : Word) (s : State) : (setRec p w v s).recOf p w = v :=
  tabGet_tabSet_same ..

theorem recOf_setRec_ne (p w q x : Nat) (v : Word) (s : State) (h : 16 * q + x ≠ 16 * p + w) :
    (setRec p w v s).recOf q x = s.recOf q x := tabGet_tabSet_ne _ _ _ _ h

@[simp] theorem mbxOf_setMbx (c i : Nat) (e : Option MbxEntry) (s : State) : (setMbx c i e s).mbxOf c i = e :=
  tabGet_tabSet_same ..

theorem mbxOf_setMbx_ne (c i d j : Nat) (e : Option MbxEntry) (s : State) (h : 8 * d + j ≠ 8 * c + i) :
    (setMbx c i e s).mbxOf d j = s.mbxOf d j := tabGet_tabSet_ne _ _ _ _ h

@[simp] theorem byteAt_setByte (id off : Nat) (b : Byte) (s : State) : (setByte id off b s).byteAt id off = b :=
  tabGet_tabSet_same ..

theorem byteAt_setByte_ne (id off id' off' : Nat) (b : Byte) (s : State) (h : memKey id' off' ≠ memKey id off) :
    (setByte id off b s).byteAt id' off' = s.byteAt id' off' := tabGet_tabSet_ne _ _ _ _ h

@[simp] theorem wordErr_setWordErr (id off : Nat) (e : WordErr) (s : State) : (setWordErr id off e s).wordErr id off = e :=
  tabGet_tabSet_same ..

@[simp] theorem bus_setBus (v : Word) (s : State) : (setBus v s).bus = v := rfl

@[simp] theorem enum_updEnum (f : Enum → Enum) (s : State) : (updEnum f s).enum = f s.enum := rfl

@[simp] theorem twm_updTwm (f : Twm → Twm) (s : State) : (updTwm f s).twm = f s.twm := rfl

/-! ### What each update leaves -/

@[simp] theorem setReg_dieRegs (a : Nat) (v : Word) (s : State) : (setReg a v s).dieRegs = s.dieRegs := rfl
@[simp] theorem setReg_dreg (a : Nat) (v : Word) (s : State) (x : Nat) : (setReg a v s).dreg x = s.dreg x := rfl
@[simp] theorem setReg_prec (a : Nat) (v : Word) (s : State) : (setReg a v s).prec = s.prec := rfl
@[simp] theorem setReg_recOf (a : Nat) (v : Word) (s : State) (x y : Nat) : (setReg a v s).recOf x y = s.recOf x y := rfl
@[simp] theorem setReg_mem (a : Nat) (v : Word) (s : State) : (setReg a v s).mem = s.mem := rfl
@[simp] theorem setReg_byteAt (a : Nat) (v : Word) (s : State) (x y : Nat) : (setReg a v s).byteAt x y = s.byteAt x y := rfl
@[simp] theorem setReg_ecc (a : Nat) (v : Word) (s : State) : (setReg a v s).ecc = s.ecc := rfl
@[simp] theorem setReg_wordErr (a : Nat) (v : Word) (s : State) (x y : Nat) : (setReg a v s).wordErr x y = s.wordErr x y := rfl
@[simp] theorem setReg_tb (a : Nat) (v : Word) (s : State) : (setReg a v s).tb = s.tb := rfl
@[simp] theorem setReg_timer (a : Nat) (v : Word) (s : State) : (setReg a v s).timer = s.timer := rfl
@[simp] theorem setReg_timerOf (a : Nat) (v : Word) (s : State) (x : Nat) : (setReg a v s).timerOf x = s.timerOf x := rfl
@[simp] theorem setReg_portEv (a : Nat) (v : Word) (s : State) : (setReg a v s).portEv = s.portEv := rfl
@[simp] theorem setReg_xat (a : Nat) (v : Word) (s : State) : (setReg a v s).xat = s.xat := rfl
@[simp] theorem setReg_port (a : Nat) (v : Word) (s : State) : (setReg a v s).port = s.port := rfl
@[simp] theorem setReg_portOf (a : Nat) (v : Word) (s : State) (x : Nat) : (setReg a v s).portOf x = s.portOf x := rfl
@[simp] theorem setReg_mir (a : Nat) (v : Word) (s : State) : (setReg a v s).mir = s.mir := rfl
@[simp] theorem setReg_mirOf (a : Nat) (v : Word) (s : State) (x : Nat) : (setReg a v s).mirOf x = s.mirOf x := rfl
@[simp] theorem setReg_phy (a : Nat) (v : Word) (s : State) : (setReg a v s).phy = s.phy := rfl
@[simp] theorem setReg_phyOf (a : Nat) (v : Word) (s : State) (x : Nat) : (setReg a v s).phyOf x = s.phyOf x := rfl
@[simp] theorem setReg_hub (a : Nat) (v : Word) (s : State) : (setReg a v s).hub = s.hub := rfl
@[simp] theorem setReg_hubOf (a : Nat) (v : Word) (s : State) (x : Nat) : (setReg a v s).hubOf x = s.hubOf x := rfl
@[simp] theorem setReg_fw (a : Nat) (v : Word) (s : State) : (setReg a v s).fw = s.fw := rfl
@[simp] theorem setReg_fwOf (a : Nat) (v : Word) (s : State) (x : Nat) : (setReg a v s).fwOf x = s.fwOf x := rfl
@[simp] theorem setReg_ctx (a : Nat) (v : Word) (s : State) : (setReg a v s).ctx = s.ctx := rfl
@[simp] theorem setReg_ctxOf (a : Nat) (v : Word) (s : State) (x y : Nat) : (setReg a v s).ctxOf x y = s.ctxOf x y := rfl
@[simp] theorem setReg_pan (a : Nat) (v : Word) (s : State) : (setReg a v s).pan = s.pan := rfl
@[simp] theorem setReg_panOf (a : Nat) (v : Word) (s : State) (x y : Nat) : (setReg a v s).panOf x y = s.panOf x y := rfl
@[simp] theorem setReg_opq (a : Nat) (v : Word) (s : State) : (setReg a v s).opq = s.opq := rfl
@[simp] theorem setReg_opOf (a : Nat) (v : Word) (s : State) (x y : Nat) : (setReg a v s).opOf x y = s.opOf x y := rfl
@[simp] theorem setReg_chan (a : Nat) (v : Word) (s : State) : (setReg a v s).chan = s.chan := rfl
@[simp] theorem setReg_chanOf (a : Nat) (v : Word) (s : State) (x : Nat) : (setReg a v s).chanOf x = s.chanOf x := rfl
@[simp] theorem setReg_bankA (a : Nat) (v : Word) (s : State) : (setReg a v s).bankA = s.bankA := rfl
@[simp] theorem setReg_bankB (a : Nat) (v : Word) (s : State) : (setReg a v s).bankB = s.bankB := rfl
@[simp] theorem setReg_active (a : Nat) (v : Word) (s : State) : (setReg a v s).active = s.active := rfl
@[simp] theorem setReg_fdrMon (a : Nat) (v : Word) (s : State) : (setReg a v s).fdrMon = s.fdrMon := rfl
@[simp] theorem setReg_monOf (a : Nat) (v : Word) (s : State) (x : Nat) : (setReg a v s).monOf x = s.monOf x := rfl
@[simp] theorem setReg_roundOpen (a : Nat) (v : Word) (s : State) : (setReg a v s).roundOpen = s.roundOpen := rfl
@[simp] theorem setReg_switchUs (a : Nat) (v : Word) (s : State) : (setReg a v s).switchUs = s.switchUs := rfl
@[simp] theorem setReg_die (a : Nat) (v : Word) (s : State) : (setReg a v s).die = s.die := rfl
@[simp] theorem setReg_dieOf (a : Nat) (v : Word) (s : State) (x : Nat) : (setReg a v s).dieOf x = s.dieOf x := rfl
@[simp] theorem setReg_crs (a : Nat) (v : Word) (s : State) : (setReg a v s).crs = s.crs := rfl
@[simp] theorem setReg_crsOf (a : Nat) (v : Word) (s : State) (x : Nat) : (setReg a v s).crsOf x = s.crsOf x := rfl
@[simp] theorem setReg_mbx (a : Nat) (v : Word) (s : State) : (setReg a v s).mbx = s.mbx := rfl
@[simp] theorem setReg_mbxOf (a : Nat) (v : Word) (s : State) (x y : Nat) : (setReg a v s).mbxOf x y = s.mbxOf x y := rfl
@[simp] theorem setReg_lnk (a : Nat) (v : Word) (s : State) : (setReg a v s).lnk = s.lnk := rfl
@[simp] theorem setReg_chainOf (a : Nat) (v : Word) (s : State) (x : Nat) : (setReg a v s).chainOf x = s.chainOf x := rfl
@[simp] theorem setReg_enum (a : Nat) (v : Word) (s : State) : (setReg a v s).enum = s.enum := rfl
@[simp] theorem setReg_twm (a : Nat) (v : Word) (s : State) : (setReg a v s).twm = s.twm := rfl
@[simp] theorem setReg_adc (a : Nat) (v : Word) (s : State) : (setReg a v s).adc = s.adc := rfl
@[simp] theorem setReg_adcOf (a : Nat) (v : Word) (s : State) (x : Nat) : (setReg a v s).adcOf x = s.adcOf x := rfl
@[simp] theorem setReg_scan (a : Nat) (v : Word) (s : State) : (setReg a v s).scan = s.scan := rfl
@[simp] theorem setReg_scanOf (a : Nat) (v : Word) (s : State) (x : Nat) : (setReg a v s).scanOf x = s.scanOf x := rfl
@[simp] theorem setReg_scrubs (a : Nat) (v : Word) (s : State) : (setReg a v s).scrubs = s.scrubs := rfl
@[simp] theorem setReg_scrubStart (a : Nat) (v : Word) (s : State) : (setReg a v s).scrubStart = s.scrubStart := rfl
@[simp] theorem setReg_ceSecond (a : Nat) (v : Word) (s : State) : (setReg a v s).ceSecond = s.ceSecond := rfl
@[simp] theorem setReg_harv (a : Nat) (v : Word) (s : State) : (setReg a v s).harv = s.harv := rfl
@[simp] theorem setReg_harvOf (a : Nat) (v : Word) (s : State) (x : Nat) : (setReg a v s).harvOf x = s.harvOf x := rfl
@[simp] theorem setReg_fharv (a : Nat) (v : Word) (s : State) : (setReg a v s).fharv = s.fharv := rfl
@[simp] theorem setReg_fharvOf (a : Nat) (v : Word) (s : State) (x : Nat) : (setReg a v s).fharvOf x = s.fharvOf x := rfl
@[simp] theorem setReg_hrvCyc (a : Nat) (v : Word) (s : State) : (setReg a v s).hrvCyc = s.hrvCyc := rfl
@[simp] theorem setReg_clk (a : Nat) (v : Word) (s : State) : (setReg a v s).clk = s.clk := rfl
@[simp] theorem setReg_adm (a : Nat) (v : Word) (s : State) : (setReg a v s).adm = s.adm := rfl
@[simp] theorem setReg_saved (a : Nat) (v : Word) (s : State) : (setReg a v s).saved = s.saved := rfl
@[simp] theorem setReg_log (a : Nat) (v : Word) (s : State) : (setReg a v s).log = s.log := rfl
@[simp] theorem setReg_nvmA (a : Nat) (v : Word) (s : State) : (setReg a v s).nvmA = s.nvmA := rfl
@[simp] theorem setReg_nvmB (a : Nat) (v : Word) (s : State) : (setReg a v s).nvmB = s.nvmB := rfl
@[simp] theorem setReg_boot (a : Nat) (v : Word) (s : State) : (setReg a v s).boot = s.boot := rfl
@[simp] theorem setReg_fuse (a : Nat) (v : Word) (s : State) : (setReg a v s).fuse = s.fuse := rfl
@[simp] theorem setReg_weak (a : Nat) (v : Word) (s : State) : (setReg a v s).weak = s.weak := rfl
@[simp] theorem setReg_otp (a : Nat) (v : Word) (s : State) : (setReg a v s).otp = s.otp := rfl
@[simp] theorem setReg_upd (a : Nat) (v : Word) (s : State) : (setReg a v s).upd = s.upd := rfl
@[simp] theorem setReg_tap (a : Nat) (v : Word) (s : State) : (setReg a v s).tap = s.tap := rfl
@[simp] theorem setReg_bsr (a : Nat) (v : Word) (s : State) : (setReg a v s).bsr = s.bsr := rfl
@[simp] theorem setReg_tdo (a : Nat) (v : Word) (s : State) : (setReg a v s).tdo = s.tdo := rfl
@[simp] theorem setReg_bus (a : Nat) (v : Word) (s : State) : (setReg a v s).bus = s.bus := rfl
@[simp] theorem setReg_block (a : Nat) (v : Word) (s : State) : (setReg a v s).block = s.block := rfl
@[simp] theorem setReg_fresh (a : Nat) (v : Word) (s : State) : (setReg a v s).fresh = s.fresh := rfl
@[simp] theorem setReg_clock (a : Nat) (v : Word) (s : State) : (setReg a v s).clock = s.clock := rfl
@[simp] theorem setReg_pending (a : Nat) (v : Word) (s : State) : (setReg a v s).pending = s.pending := rfl

@[simp] theorem updTimer_regs (n : Nat) (f : Timer → Timer) (s : State) : (updTimer n f s).regs = s.regs := rfl
@[simp] theorem updTimer_reg (n : Nat) (f : Timer → Timer) (s : State) (x : Nat) : (updTimer n f s).reg x = s.reg x := rfl
@[simp] theorem updTimer_dieRegs (n : Nat) (f : Timer → Timer) (s : State) : (updTimer n f s).dieRegs = s.dieRegs := rfl
@[simp] theorem updTimer_dreg (n : Nat) (f : Timer → Timer) (s : State) (x : Nat) : (updTimer n f s).dreg x = s.dreg x := rfl
@[simp] theorem updTimer_prec (n : Nat) (f : Timer → Timer) (s : State) : (updTimer n f s).prec = s.prec := rfl
@[simp] theorem updTimer_recOf (n : Nat) (f : Timer → Timer) (s : State) (x y : Nat) : (updTimer n f s).recOf x y = s.recOf x y := rfl
@[simp] theorem updTimer_mem (n : Nat) (f : Timer → Timer) (s : State) : (updTimer n f s).mem = s.mem := rfl
@[simp] theorem updTimer_byteAt (n : Nat) (f : Timer → Timer) (s : State) (x y : Nat) : (updTimer n f s).byteAt x y = s.byteAt x y := rfl
@[simp] theorem updTimer_ecc (n : Nat) (f : Timer → Timer) (s : State) : (updTimer n f s).ecc = s.ecc := rfl
@[simp] theorem updTimer_wordErr (n : Nat) (f : Timer → Timer) (s : State) (x y : Nat) : (updTimer n f s).wordErr x y = s.wordErr x y := rfl
@[simp] theorem updTimer_tb (n : Nat) (f : Timer → Timer) (s : State) : (updTimer n f s).tb = s.tb := rfl
@[simp] theorem updTimer_portEv (n : Nat) (f : Timer → Timer) (s : State) : (updTimer n f s).portEv = s.portEv := rfl
@[simp] theorem updTimer_xat (n : Nat) (f : Timer → Timer) (s : State) : (updTimer n f s).xat = s.xat := rfl
@[simp] theorem updTimer_port (n : Nat) (f : Timer → Timer) (s : State) : (updTimer n f s).port = s.port := rfl
@[simp] theorem updTimer_portOf (n : Nat) (f : Timer → Timer) (s : State) (x : Nat) : (updTimer n f s).portOf x = s.portOf x := rfl
@[simp] theorem updTimer_mir (n : Nat) (f : Timer → Timer) (s : State) : (updTimer n f s).mir = s.mir := rfl
@[simp] theorem updTimer_mirOf (n : Nat) (f : Timer → Timer) (s : State) (x : Nat) : (updTimer n f s).mirOf x = s.mirOf x := rfl
@[simp] theorem updTimer_phy (n : Nat) (f : Timer → Timer) (s : State) : (updTimer n f s).phy = s.phy := rfl
@[simp] theorem updTimer_phyOf (n : Nat) (f : Timer → Timer) (s : State) (x : Nat) : (updTimer n f s).phyOf x = s.phyOf x := rfl
@[simp] theorem updTimer_hub (n : Nat) (f : Timer → Timer) (s : State) : (updTimer n f s).hub = s.hub := rfl
@[simp] theorem updTimer_hubOf (n : Nat) (f : Timer → Timer) (s : State) (x : Nat) : (updTimer n f s).hubOf x = s.hubOf x := rfl
@[simp] theorem updTimer_fw (n : Nat) (f : Timer → Timer) (s : State) : (updTimer n f s).fw = s.fw := rfl
@[simp] theorem updTimer_fwOf (n : Nat) (f : Timer → Timer) (s : State) (x : Nat) : (updTimer n f s).fwOf x = s.fwOf x := rfl
@[simp] theorem updTimer_ctx (n : Nat) (f : Timer → Timer) (s : State) : (updTimer n f s).ctx = s.ctx := rfl
@[simp] theorem updTimer_ctxOf (n : Nat) (f : Timer → Timer) (s : State) (x y : Nat) : (updTimer n f s).ctxOf x y = s.ctxOf x y := rfl
@[simp] theorem updTimer_pan (n : Nat) (f : Timer → Timer) (s : State) : (updTimer n f s).pan = s.pan := rfl
@[simp] theorem updTimer_panOf (n : Nat) (f : Timer → Timer) (s : State) (x y : Nat) : (updTimer n f s).panOf x y = s.panOf x y := rfl
@[simp] theorem updTimer_opq (n : Nat) (f : Timer → Timer) (s : State) : (updTimer n f s).opq = s.opq := rfl
@[simp] theorem updTimer_opOf (n : Nat) (f : Timer → Timer) (s : State) (x y : Nat) : (updTimer n f s).opOf x y = s.opOf x y := rfl
@[simp] theorem updTimer_chan (n : Nat) (f : Timer → Timer) (s : State) : (updTimer n f s).chan = s.chan := rfl
@[simp] theorem updTimer_chanOf (n : Nat) (f : Timer → Timer) (s : State) (x : Nat) : (updTimer n f s).chanOf x = s.chanOf x := rfl
@[simp] theorem updTimer_bankA (n : Nat) (f : Timer → Timer) (s : State) : (updTimer n f s).bankA = s.bankA := rfl
@[simp] theorem updTimer_bankB (n : Nat) (f : Timer → Timer) (s : State) : (updTimer n f s).bankB = s.bankB := rfl
@[simp] theorem updTimer_active (n : Nat) (f : Timer → Timer) (s : State) : (updTimer n f s).active = s.active := rfl
@[simp] theorem updTimer_fdrMon (n : Nat) (f : Timer → Timer) (s : State) : (updTimer n f s).fdrMon = s.fdrMon := rfl
@[simp] theorem updTimer_monOf (n : Nat) (f : Timer → Timer) (s : State) (x : Nat) : (updTimer n f s).monOf x = s.monOf x := rfl
@[simp] theorem updTimer_roundOpen (n : Nat) (f : Timer → Timer) (s : State) : (updTimer n f s).roundOpen = s.roundOpen := rfl
@[simp] theorem updTimer_switchUs (n : Nat) (f : Timer → Timer) (s : State) : (updTimer n f s).switchUs = s.switchUs := rfl
@[simp] theorem updTimer_die (n : Nat) (f : Timer → Timer) (s : State) : (updTimer n f s).die = s.die := rfl
@[simp] theorem updTimer_dieOf (n : Nat) (f : Timer → Timer) (s : State) (x : Nat) : (updTimer n f s).dieOf x = s.dieOf x := rfl
@[simp] theorem updTimer_crs (n : Nat) (f : Timer → Timer) (s : State) : (updTimer n f s).crs = s.crs := rfl
@[simp] theorem updTimer_crsOf (n : Nat) (f : Timer → Timer) (s : State) (x : Nat) : (updTimer n f s).crsOf x = s.crsOf x := rfl
@[simp] theorem updTimer_mbx (n : Nat) (f : Timer → Timer) (s : State) : (updTimer n f s).mbx = s.mbx := rfl
@[simp] theorem updTimer_mbxOf (n : Nat) (f : Timer → Timer) (s : State) (x y : Nat) : (updTimer n f s).mbxOf x y = s.mbxOf x y := rfl
@[simp] theorem updTimer_lnk (n : Nat) (f : Timer → Timer) (s : State) : (updTimer n f s).lnk = s.lnk := rfl
@[simp] theorem updTimer_chainOf (n : Nat) (f : Timer → Timer) (s : State) (x : Nat) : (updTimer n f s).chainOf x = s.chainOf x := rfl
@[simp] theorem updTimer_enum (n : Nat) (f : Timer → Timer) (s : State) : (updTimer n f s).enum = s.enum := rfl
@[simp] theorem updTimer_twm (n : Nat) (f : Timer → Timer) (s : State) : (updTimer n f s).twm = s.twm := rfl
@[simp] theorem updTimer_adc (n : Nat) (f : Timer → Timer) (s : State) : (updTimer n f s).adc = s.adc := rfl
@[simp] theorem updTimer_adcOf (n : Nat) (f : Timer → Timer) (s : State) (x : Nat) : (updTimer n f s).adcOf x = s.adcOf x := rfl
@[simp] theorem updTimer_scan (n : Nat) (f : Timer → Timer) (s : State) : (updTimer n f s).scan = s.scan := rfl
@[simp] theorem updTimer_scanOf (n : Nat) (f : Timer → Timer) (s : State) (x : Nat) : (updTimer n f s).scanOf x = s.scanOf x := rfl
@[simp] theorem updTimer_scrubs (n : Nat) (f : Timer → Timer) (s : State) : (updTimer n f s).scrubs = s.scrubs := rfl
@[simp] theorem updTimer_scrubStart (n : Nat) (f : Timer → Timer) (s : State) : (updTimer n f s).scrubStart = s.scrubStart := rfl
@[simp] theorem updTimer_ceSecond (n : Nat) (f : Timer → Timer) (s : State) : (updTimer n f s).ceSecond = s.ceSecond := rfl
@[simp] theorem updTimer_harv (n : Nat) (f : Timer → Timer) (s : State) : (updTimer n f s).harv = s.harv := rfl
@[simp] theorem updTimer_harvOf (n : Nat) (f : Timer → Timer) (s : State) (x : Nat) : (updTimer n f s).harvOf x = s.harvOf x := rfl
@[simp] theorem updTimer_fharv (n : Nat) (f : Timer → Timer) (s : State) : (updTimer n f s).fharv = s.fharv := rfl
@[simp] theorem updTimer_fharvOf (n : Nat) (f : Timer → Timer) (s : State) (x : Nat) : (updTimer n f s).fharvOf x = s.fharvOf x := rfl
@[simp] theorem updTimer_hrvCyc (n : Nat) (f : Timer → Timer) (s : State) : (updTimer n f s).hrvCyc = s.hrvCyc := rfl
@[simp] theorem updTimer_clk (n : Nat) (f : Timer → Timer) (s : State) : (updTimer n f s).clk = s.clk := rfl
@[simp] theorem updTimer_adm (n : Nat) (f : Timer → Timer) (s : State) : (updTimer n f s).adm = s.adm := rfl
@[simp] theorem updTimer_saved (n : Nat) (f : Timer → Timer) (s : State) : (updTimer n f s).saved = s.saved := rfl
@[simp] theorem updTimer_log (n : Nat) (f : Timer → Timer) (s : State) : (updTimer n f s).log = s.log := rfl
@[simp] theorem updTimer_nvmA (n : Nat) (f : Timer → Timer) (s : State) : (updTimer n f s).nvmA = s.nvmA := rfl
@[simp] theorem updTimer_nvmB (n : Nat) (f : Timer → Timer) (s : State) : (updTimer n f s).nvmB = s.nvmB := rfl
@[simp] theorem updTimer_boot (n : Nat) (f : Timer → Timer) (s : State) : (updTimer n f s).boot = s.boot := rfl
@[simp] theorem updTimer_fuse (n : Nat) (f : Timer → Timer) (s : State) : (updTimer n f s).fuse = s.fuse := rfl
@[simp] theorem updTimer_weak (n : Nat) (f : Timer → Timer) (s : State) : (updTimer n f s).weak = s.weak := rfl
@[simp] theorem updTimer_otp (n : Nat) (f : Timer → Timer) (s : State) : (updTimer n f s).otp = s.otp := rfl
@[simp] theorem updTimer_upd (n : Nat) (f : Timer → Timer) (s : State) : (updTimer n f s).upd = s.upd := rfl
@[simp] theorem updTimer_tap (n : Nat) (f : Timer → Timer) (s : State) : (updTimer n f s).tap = s.tap := rfl
@[simp] theorem updTimer_bsr (n : Nat) (f : Timer → Timer) (s : State) : (updTimer n f s).bsr = s.bsr := rfl
@[simp] theorem updTimer_tdo (n : Nat) (f : Timer → Timer) (s : State) : (updTimer n f s).tdo = s.tdo := rfl
@[simp] theorem updTimer_bus (n : Nat) (f : Timer → Timer) (s : State) : (updTimer n f s).bus = s.bus := rfl
@[simp] theorem updTimer_block (n : Nat) (f : Timer → Timer) (s : State) : (updTimer n f s).block = s.block := rfl
@[simp] theorem updTimer_fresh (n : Nat) (f : Timer → Timer) (s : State) : (updTimer n f s).fresh = s.fresh := rfl
@[simp] theorem updTimer_clock (n : Nat) (f : Timer → Timer) (s : State) : (updTimer n f s).clock = s.clock := rfl
@[simp] theorem updTimer_pending (n : Nat) (f : Timer → Timer) (s : State) : (updTimer n f s).pending = s.pending := rfl

@[simp] theorem updPhy_regs (p : Nat) (f : Phy → Phy) (s : State) : (updPhy p f s).regs = s.regs := rfl
@[simp] theorem updPhy_reg (p : Nat) (f : Phy → Phy) (s : State) (x : Nat) : (updPhy p f s).reg x = s.reg x := rfl
@[simp] theorem updPhy_dieRegs (p : Nat) (f : Phy → Phy) (s : State) : (updPhy p f s).dieRegs = s.dieRegs := rfl
@[simp] theorem updPhy_dreg (p : Nat) (f : Phy → Phy) (s : State) (x : Nat) : (updPhy p f s).dreg x = s.dreg x := rfl
@[simp] theorem updPhy_prec (p : Nat) (f : Phy → Phy) (s : State) : (updPhy p f s).prec = s.prec := rfl
@[simp] theorem updPhy_recOf (p : Nat) (f : Phy → Phy) (s : State) (x y : Nat) : (updPhy p f s).recOf x y = s.recOf x y := rfl
@[simp] theorem updPhy_mem (p : Nat) (f : Phy → Phy) (s : State) : (updPhy p f s).mem = s.mem := rfl
@[simp] theorem updPhy_byteAt (p : Nat) (f : Phy → Phy) (s : State) (x y : Nat) : (updPhy p f s).byteAt x y = s.byteAt x y := rfl
@[simp] theorem updPhy_ecc (p : Nat) (f : Phy → Phy) (s : State) : (updPhy p f s).ecc = s.ecc := rfl
@[simp] theorem updPhy_wordErr (p : Nat) (f : Phy → Phy) (s : State) (x y : Nat) : (updPhy p f s).wordErr x y = s.wordErr x y := rfl
@[simp] theorem updPhy_tb (p : Nat) (f : Phy → Phy) (s : State) : (updPhy p f s).tb = s.tb := rfl
@[simp] theorem updPhy_timer (p : Nat) (f : Phy → Phy) (s : State) : (updPhy p f s).timer = s.timer := rfl
@[simp] theorem updPhy_timerOf (p : Nat) (f : Phy → Phy) (s : State) (x : Nat) : (updPhy p f s).timerOf x = s.timerOf x := rfl
@[simp] theorem updPhy_portEv (p : Nat) (f : Phy → Phy) (s : State) : (updPhy p f s).portEv = s.portEv := rfl
@[simp] theorem updPhy_xat (p : Nat) (f : Phy → Phy) (s : State) : (updPhy p f s).xat = s.xat := rfl
@[simp] theorem updPhy_port (p : Nat) (f : Phy → Phy) (s : State) : (updPhy p f s).port = s.port := rfl
@[simp] theorem updPhy_portOf (p : Nat) (f : Phy → Phy) (s : State) (x : Nat) : (updPhy p f s).portOf x = s.portOf x := rfl
@[simp] theorem updPhy_mir (p : Nat) (f : Phy → Phy) (s : State) : (updPhy p f s).mir = s.mir := rfl
@[simp] theorem updPhy_mirOf (p : Nat) (f : Phy → Phy) (s : State) (x : Nat) : (updPhy p f s).mirOf x = s.mirOf x := rfl
@[simp] theorem updPhy_hub (p : Nat) (f : Phy → Phy) (s : State) : (updPhy p f s).hub = s.hub := rfl
@[simp] theorem updPhy_hubOf (p : Nat) (f : Phy → Phy) (s : State) (x : Nat) : (updPhy p f s).hubOf x = s.hubOf x := rfl
@[simp] theorem updPhy_fw (p : Nat) (f : Phy → Phy) (s : State) : (updPhy p f s).fw = s.fw := rfl
@[simp] theorem updPhy_fwOf (p : Nat) (f : Phy → Phy) (s : State) (x : Nat) : (updPhy p f s).fwOf x = s.fwOf x := rfl
@[simp] theorem updPhy_ctx (p : Nat) (f : Phy → Phy) (s : State) : (updPhy p f s).ctx = s.ctx := rfl
@[simp] theorem updPhy_ctxOf (p : Nat) (f : Phy → Phy) (s : State) (x y : Nat) : (updPhy p f s).ctxOf x y = s.ctxOf x y := rfl
@[simp] theorem updPhy_pan (p : Nat) (f : Phy → Phy) (s : State) : (updPhy p f s).pan = s.pan := rfl
@[simp] theorem updPhy_panOf (p : Nat) (f : Phy → Phy) (s : State) (x y : Nat) : (updPhy p f s).panOf x y = s.panOf x y := rfl
@[simp] theorem updPhy_opq (p : Nat) (f : Phy → Phy) (s : State) : (updPhy p f s).opq = s.opq := rfl
@[simp] theorem updPhy_opOf (p : Nat) (f : Phy → Phy) (s : State) (x y : Nat) : (updPhy p f s).opOf x y = s.opOf x y := rfl
@[simp] theorem updPhy_chan (p : Nat) (f : Phy → Phy) (s : State) : (updPhy p f s).chan = s.chan := rfl
@[simp] theorem updPhy_chanOf (p : Nat) (f : Phy → Phy) (s : State) (x : Nat) : (updPhy p f s).chanOf x = s.chanOf x := rfl
@[simp] theorem updPhy_bankA (p : Nat) (f : Phy → Phy) (s : State) : (updPhy p f s).bankA = s.bankA := rfl
@[simp] theorem updPhy_bankB (p : Nat) (f : Phy → Phy) (s : State) : (updPhy p f s).bankB = s.bankB := rfl
@[simp] theorem updPhy_active (p : Nat) (f : Phy → Phy) (s : State) : (updPhy p f s).active = s.active := rfl
@[simp] theorem updPhy_fdrMon (p : Nat) (f : Phy → Phy) (s : State) : (updPhy p f s).fdrMon = s.fdrMon := rfl
@[simp] theorem updPhy_monOf (p : Nat) (f : Phy → Phy) (s : State) (x : Nat) : (updPhy p f s).monOf x = s.monOf x := rfl
@[simp] theorem updPhy_roundOpen (p : Nat) (f : Phy → Phy) (s : State) : (updPhy p f s).roundOpen = s.roundOpen := rfl
@[simp] theorem updPhy_switchUs (p : Nat) (f : Phy → Phy) (s : State) : (updPhy p f s).switchUs = s.switchUs := rfl
@[simp] theorem updPhy_die (p : Nat) (f : Phy → Phy) (s : State) : (updPhy p f s).die = s.die := rfl
@[simp] theorem updPhy_dieOf (p : Nat) (f : Phy → Phy) (s : State) (x : Nat) : (updPhy p f s).dieOf x = s.dieOf x := rfl
@[simp] theorem updPhy_crs (p : Nat) (f : Phy → Phy) (s : State) : (updPhy p f s).crs = s.crs := rfl
@[simp] theorem updPhy_crsOf (p : Nat) (f : Phy → Phy) (s : State) (x : Nat) : (updPhy p f s).crsOf x = s.crsOf x := rfl
@[simp] theorem updPhy_mbx (p : Nat) (f : Phy → Phy) (s : State) : (updPhy p f s).mbx = s.mbx := rfl
@[simp] theorem updPhy_mbxOf (p : Nat) (f : Phy → Phy) (s : State) (x y : Nat) : (updPhy p f s).mbxOf x y = s.mbxOf x y := rfl
@[simp] theorem updPhy_lnk (p : Nat) (f : Phy → Phy) (s : State) : (updPhy p f s).lnk = s.lnk := rfl
@[simp] theorem updPhy_chainOf (p : Nat) (f : Phy → Phy) (s : State) (x : Nat) : (updPhy p f s).chainOf x = s.chainOf x := rfl
@[simp] theorem updPhy_enum (p : Nat) (f : Phy → Phy) (s : State) : (updPhy p f s).enum = s.enum := rfl
@[simp] theorem updPhy_twm (p : Nat) (f : Phy → Phy) (s : State) : (updPhy p f s).twm = s.twm := rfl
@[simp] theorem updPhy_adc (p : Nat) (f : Phy → Phy) (s : State) : (updPhy p f s).adc = s.adc := rfl
@[simp] theorem updPhy_adcOf (p : Nat) (f : Phy → Phy) (s : State) (x : Nat) : (updPhy p f s).adcOf x = s.adcOf x := rfl
@[simp] theorem updPhy_scan (p : Nat) (f : Phy → Phy) (s : State) : (updPhy p f s).scan = s.scan := rfl
@[simp] theorem updPhy_scanOf (p : Nat) (f : Phy → Phy) (s : State) (x : Nat) : (updPhy p f s).scanOf x = s.scanOf x := rfl
@[simp] theorem updPhy_scrubs (p : Nat) (f : Phy → Phy) (s : State) : (updPhy p f s).scrubs = s.scrubs := rfl
@[simp] theorem updPhy_scrubStart (p : Nat) (f : Phy → Phy) (s : State) : (updPhy p f s).scrubStart = s.scrubStart := rfl
@[simp] theorem updPhy_ceSecond (p : Nat) (f : Phy → Phy) (s : State) : (updPhy p f s).ceSecond = s.ceSecond := rfl
@[simp] theorem updPhy_harv (p : Nat) (f : Phy → Phy) (s : State) : (updPhy p f s).harv = s.harv := rfl
@[simp] theorem updPhy_harvOf (p : Nat) (f : Phy → Phy) (s : State) (x : Nat) : (updPhy p f s).harvOf x = s.harvOf x := rfl
@[simp] theorem updPhy_fharv (p : Nat) (f : Phy → Phy) (s : State) : (updPhy p f s).fharv = s.fharv := rfl
@[simp] theorem updPhy_fharvOf (p : Nat) (f : Phy → Phy) (s : State) (x : Nat) : (updPhy p f s).fharvOf x = s.fharvOf x := rfl
@[simp] theorem updPhy_hrvCyc (p : Nat) (f : Phy → Phy) (s : State) : (updPhy p f s).hrvCyc = s.hrvCyc := rfl
@[simp] theorem updPhy_clk (p : Nat) (f : Phy → Phy) (s : State) : (updPhy p f s).clk = s.clk := rfl
@[simp] theorem updPhy_adm (p : Nat) (f : Phy → Phy) (s : State) : (updPhy p f s).adm = s.adm := rfl
@[simp] theorem updPhy_saved (p : Nat) (f : Phy → Phy) (s : State) : (updPhy p f s).saved = s.saved := rfl
@[simp] theorem updPhy_log (p : Nat) (f : Phy → Phy) (s : State) : (updPhy p f s).log = s.log := rfl
@[simp] theorem updPhy_nvmA (p : Nat) (f : Phy → Phy) (s : State) : (updPhy p f s).nvmA = s.nvmA := rfl
@[simp] theorem updPhy_nvmB (p : Nat) (f : Phy → Phy) (s : State) : (updPhy p f s).nvmB = s.nvmB := rfl
@[simp] theorem updPhy_boot (p : Nat) (f : Phy → Phy) (s : State) : (updPhy p f s).boot = s.boot := rfl
@[simp] theorem updPhy_fuse (p : Nat) (f : Phy → Phy) (s : State) : (updPhy p f s).fuse = s.fuse := rfl
@[simp] theorem updPhy_weak (p : Nat) (f : Phy → Phy) (s : State) : (updPhy p f s).weak = s.weak := rfl
@[simp] theorem updPhy_otp (p : Nat) (f : Phy → Phy) (s : State) : (updPhy p f s).otp = s.otp := rfl
@[simp] theorem updPhy_upd (p : Nat) (f : Phy → Phy) (s : State) : (updPhy p f s).upd = s.upd := rfl
@[simp] theorem updPhy_tap (p : Nat) (f : Phy → Phy) (s : State) : (updPhy p f s).tap = s.tap := rfl
@[simp] theorem updPhy_bsr (p : Nat) (f : Phy → Phy) (s : State) : (updPhy p f s).bsr = s.bsr := rfl
@[simp] theorem updPhy_tdo (p : Nat) (f : Phy → Phy) (s : State) : (updPhy p f s).tdo = s.tdo := rfl
@[simp] theorem updPhy_bus (p : Nat) (f : Phy → Phy) (s : State) : (updPhy p f s).bus = s.bus := rfl
@[simp] theorem updPhy_block (p : Nat) (f : Phy → Phy) (s : State) : (updPhy p f s).block = s.block := rfl
@[simp] theorem updPhy_fresh (p : Nat) (f : Phy → Phy) (s : State) : (updPhy p f s).fresh = s.fresh := rfl
@[simp] theorem updPhy_clock (p : Nat) (f : Phy → Phy) (s : State) : (updPhy p f s).clock = s.clock := rfl
@[simp] theorem updPhy_pending (p : Nat) (f : Phy → Phy) (s : State) : (updPhy p f s).pending = s.pending := rfl

@[simp] theorem updHub_regs (p : Nat) (f : HubPort → HubPort) (s : State) : (updHub p f s).regs = s.regs := rfl
@[simp] theorem updHub_reg (p : Nat) (f : HubPort → HubPort) (s : State) (x : Nat) : (updHub p f s).reg x = s.reg x := rfl
@[simp] theorem updHub_dieRegs (p : Nat) (f : HubPort → HubPort) (s : State) : (updHub p f s).dieRegs = s.dieRegs := rfl
@[simp] theorem updHub_dreg (p : Nat) (f : HubPort → HubPort) (s : State) (x : Nat) : (updHub p f s).dreg x = s.dreg x := rfl
@[simp] theorem updHub_prec (p : Nat) (f : HubPort → HubPort) (s : State) : (updHub p f s).prec = s.prec := rfl
@[simp] theorem updHub_recOf (p : Nat) (f : HubPort → HubPort) (s : State) (x y : Nat) : (updHub p f s).recOf x y = s.recOf x y := rfl
@[simp] theorem updHub_mem (p : Nat) (f : HubPort → HubPort) (s : State) : (updHub p f s).mem = s.mem := rfl
@[simp] theorem updHub_byteAt (p : Nat) (f : HubPort → HubPort) (s : State) (x y : Nat) : (updHub p f s).byteAt x y = s.byteAt x y := rfl
@[simp] theorem updHub_ecc (p : Nat) (f : HubPort → HubPort) (s : State) : (updHub p f s).ecc = s.ecc := rfl
@[simp] theorem updHub_wordErr (p : Nat) (f : HubPort → HubPort) (s : State) (x y : Nat) : (updHub p f s).wordErr x y = s.wordErr x y := rfl
@[simp] theorem updHub_tb (p : Nat) (f : HubPort → HubPort) (s : State) : (updHub p f s).tb = s.tb := rfl
@[simp] theorem updHub_timer (p : Nat) (f : HubPort → HubPort) (s : State) : (updHub p f s).timer = s.timer := rfl
@[simp] theorem updHub_timerOf (p : Nat) (f : HubPort → HubPort) (s : State) (x : Nat) : (updHub p f s).timerOf x = s.timerOf x := rfl
@[simp] theorem updHub_portEv (p : Nat) (f : HubPort → HubPort) (s : State) : (updHub p f s).portEv = s.portEv := rfl
@[simp] theorem updHub_xat (p : Nat) (f : HubPort → HubPort) (s : State) : (updHub p f s).xat = s.xat := rfl
@[simp] theorem updHub_port (p : Nat) (f : HubPort → HubPort) (s : State) : (updHub p f s).port = s.port := rfl
@[simp] theorem updHub_portOf (p : Nat) (f : HubPort → HubPort) (s : State) (x : Nat) : (updHub p f s).portOf x = s.portOf x := rfl
@[simp] theorem updHub_mir (p : Nat) (f : HubPort → HubPort) (s : State) : (updHub p f s).mir = s.mir := rfl
@[simp] theorem updHub_mirOf (p : Nat) (f : HubPort → HubPort) (s : State) (x : Nat) : (updHub p f s).mirOf x = s.mirOf x := rfl
@[simp] theorem updHub_phy (p : Nat) (f : HubPort → HubPort) (s : State) : (updHub p f s).phy = s.phy := rfl
@[simp] theorem updHub_phyOf (p : Nat) (f : HubPort → HubPort) (s : State) (x : Nat) : (updHub p f s).phyOf x = s.phyOf x := rfl
@[simp] theorem updHub_fw (p : Nat) (f : HubPort → HubPort) (s : State) : (updHub p f s).fw = s.fw := rfl
@[simp] theorem updHub_fwOf (p : Nat) (f : HubPort → HubPort) (s : State) (x : Nat) : (updHub p f s).fwOf x = s.fwOf x := rfl
@[simp] theorem updHub_ctx (p : Nat) (f : HubPort → HubPort) (s : State) : (updHub p f s).ctx = s.ctx := rfl
@[simp] theorem updHub_ctxOf (p : Nat) (f : HubPort → HubPort) (s : State) (x y : Nat) : (updHub p f s).ctxOf x y = s.ctxOf x y := rfl
@[simp] theorem updHub_pan (p : Nat) (f : HubPort → HubPort) (s : State) : (updHub p f s).pan = s.pan := rfl
@[simp] theorem updHub_panOf (p : Nat) (f : HubPort → HubPort) (s : State) (x y : Nat) : (updHub p f s).panOf x y = s.panOf x y := rfl
@[simp] theorem updHub_opq (p : Nat) (f : HubPort → HubPort) (s : State) : (updHub p f s).opq = s.opq := rfl
@[simp] theorem updHub_opOf (p : Nat) (f : HubPort → HubPort) (s : State) (x y : Nat) : (updHub p f s).opOf x y = s.opOf x y := rfl
@[simp] theorem updHub_chan (p : Nat) (f : HubPort → HubPort) (s : State) : (updHub p f s).chan = s.chan := rfl
@[simp] theorem updHub_chanOf (p : Nat) (f : HubPort → HubPort) (s : State) (x : Nat) : (updHub p f s).chanOf x = s.chanOf x := rfl
@[simp] theorem updHub_bankA (p : Nat) (f : HubPort → HubPort) (s : State) : (updHub p f s).bankA = s.bankA := rfl
@[simp] theorem updHub_bankB (p : Nat) (f : HubPort → HubPort) (s : State) : (updHub p f s).bankB = s.bankB := rfl
@[simp] theorem updHub_active (p : Nat) (f : HubPort → HubPort) (s : State) : (updHub p f s).active = s.active := rfl
@[simp] theorem updHub_fdrMon (p : Nat) (f : HubPort → HubPort) (s : State) : (updHub p f s).fdrMon = s.fdrMon := rfl
@[simp] theorem updHub_monOf (p : Nat) (f : HubPort → HubPort) (s : State) (x : Nat) : (updHub p f s).monOf x = s.monOf x := rfl
@[simp] theorem updHub_roundOpen (p : Nat) (f : HubPort → HubPort) (s : State) : (updHub p f s).roundOpen = s.roundOpen := rfl
@[simp] theorem updHub_switchUs (p : Nat) (f : HubPort → HubPort) (s : State) : (updHub p f s).switchUs = s.switchUs := rfl
@[simp] theorem updHub_die (p : Nat) (f : HubPort → HubPort) (s : State) : (updHub p f s).die = s.die := rfl
@[simp] theorem updHub_dieOf (p : Nat) (f : HubPort → HubPort) (s : State) (x : Nat) : (updHub p f s).dieOf x = s.dieOf x := rfl
@[simp] theorem updHub_crs (p : Nat) (f : HubPort → HubPort) (s : State) : (updHub p f s).crs = s.crs := rfl
@[simp] theorem updHub_crsOf (p : Nat) (f : HubPort → HubPort) (s : State) (x : Nat) : (updHub p f s).crsOf x = s.crsOf x := rfl
@[simp] theorem updHub_mbx (p : Nat) (f : HubPort → HubPort) (s : State) : (updHub p f s).mbx = s.mbx := rfl
@[simp] theorem updHub_mbxOf (p : Nat) (f : HubPort → HubPort) (s : State) (x y : Nat) : (updHub p f s).mbxOf x y = s.mbxOf x y := rfl
@[simp] theorem updHub_lnk (p : Nat) (f : HubPort → HubPort) (s : State) : (updHub p f s).lnk = s.lnk := rfl
@[simp] theorem updHub_chainOf (p : Nat) (f : HubPort → HubPort) (s : State) (x : Nat) : (updHub p f s).chainOf x = s.chainOf x := rfl
@[simp] theorem updHub_enum (p : Nat) (f : HubPort → HubPort) (s : State) : (updHub p f s).enum = s.enum := rfl
@[simp] theorem updHub_twm (p : Nat) (f : HubPort → HubPort) (s : State) : (updHub p f s).twm = s.twm := rfl
@[simp] theorem updHub_adc (p : Nat) (f : HubPort → HubPort) (s : State) : (updHub p f s).adc = s.adc := rfl
@[simp] theorem updHub_adcOf (p : Nat) (f : HubPort → HubPort) (s : State) (x : Nat) : (updHub p f s).adcOf x = s.adcOf x := rfl
@[simp] theorem updHub_scan (p : Nat) (f : HubPort → HubPort) (s : State) : (updHub p f s).scan = s.scan := rfl
@[simp] theorem updHub_scanOf (p : Nat) (f : HubPort → HubPort) (s : State) (x : Nat) : (updHub p f s).scanOf x = s.scanOf x := rfl
@[simp] theorem updHub_scrubs (p : Nat) (f : HubPort → HubPort) (s : State) : (updHub p f s).scrubs = s.scrubs := rfl
@[simp] theorem updHub_scrubStart (p : Nat) (f : HubPort → HubPort) (s : State) : (updHub p f s).scrubStart = s.scrubStart := rfl
@[simp] theorem updHub_ceSecond (p : Nat) (f : HubPort → HubPort) (s : State) : (updHub p f s).ceSecond = s.ceSecond := rfl
@[simp] theorem updHub_harv (p : Nat) (f : HubPort → HubPort) (s : State) : (updHub p f s).harv = s.harv := rfl
@[simp] theorem updHub_harvOf (p : Nat) (f : HubPort → HubPort) (s : State) (x : Nat) : (updHub p f s).harvOf x = s.harvOf x := rfl
@[simp] theorem updHub_fharv (p : Nat) (f : HubPort → HubPort) (s : State) : (updHub p f s).fharv = s.fharv := rfl
@[simp] theorem updHub_fharvOf (p : Nat) (f : HubPort → HubPort) (s : State) (x : Nat) : (updHub p f s).fharvOf x = s.fharvOf x := rfl
@[simp] theorem updHub_hrvCyc (p : Nat) (f : HubPort → HubPort) (s : State) : (updHub p f s).hrvCyc = s.hrvCyc := rfl
@[simp] theorem updHub_clk (p : Nat) (f : HubPort → HubPort) (s : State) : (updHub p f s).clk = s.clk := rfl
@[simp] theorem updHub_adm (p : Nat) (f : HubPort → HubPort) (s : State) : (updHub p f s).adm = s.adm := rfl
@[simp] theorem updHub_saved (p : Nat) (f : HubPort → HubPort) (s : State) : (updHub p f s).saved = s.saved := rfl
@[simp] theorem updHub_log (p : Nat) (f : HubPort → HubPort) (s : State) : (updHub p f s).log = s.log := rfl
@[simp] theorem updHub_nvmA (p : Nat) (f : HubPort → HubPort) (s : State) : (updHub p f s).nvmA = s.nvmA := rfl
@[simp] theorem updHub_nvmB (p : Nat) (f : HubPort → HubPort) (s : State) : (updHub p f s).nvmB = s.nvmB := rfl
@[simp] theorem updHub_boot (p : Nat) (f : HubPort → HubPort) (s : State) : (updHub p f s).boot = s.boot := rfl
@[simp] theorem updHub_fuse (p : Nat) (f : HubPort → HubPort) (s : State) : (updHub p f s).fuse = s.fuse := rfl
@[simp] theorem updHub_weak (p : Nat) (f : HubPort → HubPort) (s : State) : (updHub p f s).weak = s.weak := rfl
@[simp] theorem updHub_otp (p : Nat) (f : HubPort → HubPort) (s : State) : (updHub p f s).otp = s.otp := rfl
@[simp] theorem updHub_upd (p : Nat) (f : HubPort → HubPort) (s : State) : (updHub p f s).upd = s.upd := rfl
@[simp] theorem updHub_tap (p : Nat) (f : HubPort → HubPort) (s : State) : (updHub p f s).tap = s.tap := rfl
@[simp] theorem updHub_bsr (p : Nat) (f : HubPort → HubPort) (s : State) : (updHub p f s).bsr = s.bsr := rfl
@[simp] theorem updHub_tdo (p : Nat) (f : HubPort → HubPort) (s : State) : (updHub p f s).tdo = s.tdo := rfl
@[simp] theorem updHub_bus (p : Nat) (f : HubPort → HubPort) (s : State) : (updHub p f s).bus = s.bus := rfl
@[simp] theorem updHub_block (p : Nat) (f : HubPort → HubPort) (s : State) : (updHub p f s).block = s.block := rfl
@[simp] theorem updHub_fresh (p : Nat) (f : HubPort → HubPort) (s : State) : (updHub p f s).fresh = s.fresh := rfl
@[simp] theorem updHub_clock (p : Nat) (f : HubPort → HubPort) (s : State) : (updHub p f s).clock = s.clock := rfl
@[simp] theorem updHub_pending (p : Nat) (f : HubPort → HubPort) (s : State) : (updHub p f s).pending = s.pending := rfl

@[simp] theorem updFw_regs (p : Nat) (f : Fw → Fw) (s : State) : (updFw p f s).regs = s.regs := rfl
@[simp] theorem updFw_reg (p : Nat) (f : Fw → Fw) (s : State) (x : Nat) : (updFw p f s).reg x = s.reg x := rfl
@[simp] theorem updFw_dieRegs (p : Nat) (f : Fw → Fw) (s : State) : (updFw p f s).dieRegs = s.dieRegs := rfl
@[simp] theorem updFw_dreg (p : Nat) (f : Fw → Fw) (s : State) (x : Nat) : (updFw p f s).dreg x = s.dreg x := rfl
@[simp] theorem updFw_prec (p : Nat) (f : Fw → Fw) (s : State) : (updFw p f s).prec = s.prec := rfl
@[simp] theorem updFw_recOf (p : Nat) (f : Fw → Fw) (s : State) (x y : Nat) : (updFw p f s).recOf x y = s.recOf x y := rfl
@[simp] theorem updFw_mem (p : Nat) (f : Fw → Fw) (s : State) : (updFw p f s).mem = s.mem := rfl
@[simp] theorem updFw_byteAt (p : Nat) (f : Fw → Fw) (s : State) (x y : Nat) : (updFw p f s).byteAt x y = s.byteAt x y := rfl
@[simp] theorem updFw_ecc (p : Nat) (f : Fw → Fw) (s : State) : (updFw p f s).ecc = s.ecc := rfl
@[simp] theorem updFw_wordErr (p : Nat) (f : Fw → Fw) (s : State) (x y : Nat) : (updFw p f s).wordErr x y = s.wordErr x y := rfl
@[simp] theorem updFw_tb (p : Nat) (f : Fw → Fw) (s : State) : (updFw p f s).tb = s.tb := rfl
@[simp] theorem updFw_timer (p : Nat) (f : Fw → Fw) (s : State) : (updFw p f s).timer = s.timer := rfl
@[simp] theorem updFw_timerOf (p : Nat) (f : Fw → Fw) (s : State) (x : Nat) : (updFw p f s).timerOf x = s.timerOf x := rfl
@[simp] theorem updFw_portEv (p : Nat) (f : Fw → Fw) (s : State) : (updFw p f s).portEv = s.portEv := rfl
@[simp] theorem updFw_xat (p : Nat) (f : Fw → Fw) (s : State) : (updFw p f s).xat = s.xat := rfl
@[simp] theorem updFw_port (p : Nat) (f : Fw → Fw) (s : State) : (updFw p f s).port = s.port := rfl
@[simp] theorem updFw_portOf (p : Nat) (f : Fw → Fw) (s : State) (x : Nat) : (updFw p f s).portOf x = s.portOf x := rfl
@[simp] theorem updFw_mir (p : Nat) (f : Fw → Fw) (s : State) : (updFw p f s).mir = s.mir := rfl
@[simp] theorem updFw_mirOf (p : Nat) (f : Fw → Fw) (s : State) (x : Nat) : (updFw p f s).mirOf x = s.mirOf x := rfl
@[simp] theorem updFw_phy (p : Nat) (f : Fw → Fw) (s : State) : (updFw p f s).phy = s.phy := rfl
@[simp] theorem updFw_phyOf (p : Nat) (f : Fw → Fw) (s : State) (x : Nat) : (updFw p f s).phyOf x = s.phyOf x := rfl
@[simp] theorem updFw_hub (p : Nat) (f : Fw → Fw) (s : State) : (updFw p f s).hub = s.hub := rfl
@[simp] theorem updFw_hubOf (p : Nat) (f : Fw → Fw) (s : State) (x : Nat) : (updFw p f s).hubOf x = s.hubOf x := rfl
@[simp] theorem updFw_ctx (p : Nat) (f : Fw → Fw) (s : State) : (updFw p f s).ctx = s.ctx := rfl
@[simp] theorem updFw_ctxOf (p : Nat) (f : Fw → Fw) (s : State) (x y : Nat) : (updFw p f s).ctxOf x y = s.ctxOf x y := rfl
@[simp] theorem updFw_pan (p : Nat) (f : Fw → Fw) (s : State) : (updFw p f s).pan = s.pan := rfl
@[simp] theorem updFw_panOf (p : Nat) (f : Fw → Fw) (s : State) (x y : Nat) : (updFw p f s).panOf x y = s.panOf x y := rfl
@[simp] theorem updFw_opq (p : Nat) (f : Fw → Fw) (s : State) : (updFw p f s).opq = s.opq := rfl
@[simp] theorem updFw_opOf (p : Nat) (f : Fw → Fw) (s : State) (x y : Nat) : (updFw p f s).opOf x y = s.opOf x y := rfl
@[simp] theorem updFw_chan (p : Nat) (f : Fw → Fw) (s : State) : (updFw p f s).chan = s.chan := rfl
@[simp] theorem updFw_chanOf (p : Nat) (f : Fw → Fw) (s : State) (x : Nat) : (updFw p f s).chanOf x = s.chanOf x := rfl
@[simp] theorem updFw_bankA (p : Nat) (f : Fw → Fw) (s : State) : (updFw p f s).bankA = s.bankA := rfl
@[simp] theorem updFw_bankB (p : Nat) (f : Fw → Fw) (s : State) : (updFw p f s).bankB = s.bankB := rfl
@[simp] theorem updFw_active (p : Nat) (f : Fw → Fw) (s : State) : (updFw p f s).active = s.active := rfl
@[simp] theorem updFw_fdrMon (p : Nat) (f : Fw → Fw) (s : State) : (updFw p f s).fdrMon = s.fdrMon := rfl
@[simp] theorem updFw_monOf (p : Nat) (f : Fw → Fw) (s : State) (x : Nat) : (updFw p f s).monOf x = s.monOf x := rfl
@[simp] theorem updFw_roundOpen (p : Nat) (f : Fw → Fw) (s : State) : (updFw p f s).roundOpen = s.roundOpen := rfl
@[simp] theorem updFw_switchUs (p : Nat) (f : Fw → Fw) (s : State) : (updFw p f s).switchUs = s.switchUs := rfl
@[simp] theorem updFw_die (p : Nat) (f : Fw → Fw) (s : State) : (updFw p f s).die = s.die := rfl
@[simp] theorem updFw_dieOf (p : Nat) (f : Fw → Fw) (s : State) (x : Nat) : (updFw p f s).dieOf x = s.dieOf x := rfl
@[simp] theorem updFw_crs (p : Nat) (f : Fw → Fw) (s : State) : (updFw p f s).crs = s.crs := rfl
@[simp] theorem updFw_crsOf (p : Nat) (f : Fw → Fw) (s : State) (x : Nat) : (updFw p f s).crsOf x = s.crsOf x := rfl
@[simp] theorem updFw_mbx (p : Nat) (f : Fw → Fw) (s : State) : (updFw p f s).mbx = s.mbx := rfl
@[simp] theorem updFw_mbxOf (p : Nat) (f : Fw → Fw) (s : State) (x y : Nat) : (updFw p f s).mbxOf x y = s.mbxOf x y := rfl
@[simp] theorem updFw_lnk (p : Nat) (f : Fw → Fw) (s : State) : (updFw p f s).lnk = s.lnk := rfl
@[simp] theorem updFw_chainOf (p : Nat) (f : Fw → Fw) (s : State) (x : Nat) : (updFw p f s).chainOf x = s.chainOf x := rfl
@[simp] theorem updFw_enum (p : Nat) (f : Fw → Fw) (s : State) : (updFw p f s).enum = s.enum := rfl
@[simp] theorem updFw_twm (p : Nat) (f : Fw → Fw) (s : State) : (updFw p f s).twm = s.twm := rfl
@[simp] theorem updFw_adc (p : Nat) (f : Fw → Fw) (s : State) : (updFw p f s).adc = s.adc := rfl
@[simp] theorem updFw_adcOf (p : Nat) (f : Fw → Fw) (s : State) (x : Nat) : (updFw p f s).adcOf x = s.adcOf x := rfl
@[simp] theorem updFw_scan (p : Nat) (f : Fw → Fw) (s : State) : (updFw p f s).scan = s.scan := rfl
@[simp] theorem updFw_scanOf (p : Nat) (f : Fw → Fw) (s : State) (x : Nat) : (updFw p f s).scanOf x = s.scanOf x := rfl
@[simp] theorem updFw_scrubs (p : Nat) (f : Fw → Fw) (s : State) : (updFw p f s).scrubs = s.scrubs := rfl
@[simp] theorem updFw_scrubStart (p : Nat) (f : Fw → Fw) (s : State) : (updFw p f s).scrubStart = s.scrubStart := rfl
@[simp] theorem updFw_ceSecond (p : Nat) (f : Fw → Fw) (s : State) : (updFw p f s).ceSecond = s.ceSecond := rfl
@[simp] theorem updFw_harv (p : Nat) (f : Fw → Fw) (s : State) : (updFw p f s).harv = s.harv := rfl
@[simp] theorem updFw_harvOf (p : Nat) (f : Fw → Fw) (s : State) (x : Nat) : (updFw p f s).harvOf x = s.harvOf x := rfl
@[simp] theorem updFw_fharv (p : Nat) (f : Fw → Fw) (s : State) : (updFw p f s).fharv = s.fharv := rfl
@[simp] theorem updFw_fharvOf (p : Nat) (f : Fw → Fw) (s : State) (x : Nat) : (updFw p f s).fharvOf x = s.fharvOf x := rfl
@[simp] theorem updFw_hrvCyc (p : Nat) (f : Fw → Fw) (s : State) : (updFw p f s).hrvCyc = s.hrvCyc := rfl
@[simp] theorem updFw_clk (p : Nat) (f : Fw → Fw) (s : State) : (updFw p f s).clk = s.clk := rfl
@[simp] theorem updFw_adm (p : Nat) (f : Fw → Fw) (s : State) : (updFw p f s).adm = s.adm := rfl
@[simp] theorem updFw_saved (p : Nat) (f : Fw → Fw) (s : State) : (updFw p f s).saved = s.saved := rfl
@[simp] theorem updFw_log (p : Nat) (f : Fw → Fw) (s : State) : (updFw p f s).log = s.log := rfl
@[simp] theorem updFw_nvmA (p : Nat) (f : Fw → Fw) (s : State) : (updFw p f s).nvmA = s.nvmA := rfl
@[simp] theorem updFw_nvmB (p : Nat) (f : Fw → Fw) (s : State) : (updFw p f s).nvmB = s.nvmB := rfl
@[simp] theorem updFw_boot (p : Nat) (f : Fw → Fw) (s : State) : (updFw p f s).boot = s.boot := rfl
@[simp] theorem updFw_fuse (p : Nat) (f : Fw → Fw) (s : State) : (updFw p f s).fuse = s.fuse := rfl
@[simp] theorem updFw_weak (p : Nat) (f : Fw → Fw) (s : State) : (updFw p f s).weak = s.weak := rfl
@[simp] theorem updFw_otp (p : Nat) (f : Fw → Fw) (s : State) : (updFw p f s).otp = s.otp := rfl
@[simp] theorem updFw_upd (p : Nat) (f : Fw → Fw) (s : State) : (updFw p f s).upd = s.upd := rfl
@[simp] theorem updFw_tap (p : Nat) (f : Fw → Fw) (s : State) : (updFw p f s).tap = s.tap := rfl
@[simp] theorem updFw_bsr (p : Nat) (f : Fw → Fw) (s : State) : (updFw p f s).bsr = s.bsr := rfl
@[simp] theorem updFw_tdo (p : Nat) (f : Fw → Fw) (s : State) : (updFw p f s).tdo = s.tdo := rfl
@[simp] theorem updFw_bus (p : Nat) (f : Fw → Fw) (s : State) : (updFw p f s).bus = s.bus := rfl
@[simp] theorem updFw_block (p : Nat) (f : Fw → Fw) (s : State) : (updFw p f s).block = s.block := rfl
@[simp] theorem updFw_fresh (p : Nat) (f : Fw → Fw) (s : State) : (updFw p f s).fresh = s.fresh := rfl
@[simp] theorem updFw_clock (p : Nat) (f : Fw → Fw) (s : State) : (updFw p f s).clock = s.clock := rfl
@[simp] theorem updFw_pending (p : Nat) (f : Fw → Fw) (s : State) : (updFw p f s).pending = s.pending := rfl

@[simp] theorem updCtx_regs (c n : Nat) (f : Ctx → Ctx) (s : State) : (updCtx c n f s).regs = s.regs := rfl
@[simp] theorem updCtx_reg (c n : Nat) (f : Ctx → Ctx) (s : State) (x : Nat) : (updCtx c n f s).reg x = s.reg x := rfl
@[simp] theorem updCtx_dieRegs (c n : Nat) (f : Ctx → Ctx) (s : State) : (updCtx c n f s).dieRegs = s.dieRegs := rfl
@[simp] theorem updCtx_dreg (c n : Nat) (f : Ctx → Ctx) (s : State) (x : Nat) : (updCtx c n f s).dreg x = s.dreg x := rfl
@[simp] theorem updCtx_prec (c n : Nat) (f : Ctx → Ctx) (s : State) : (updCtx c n f s).prec = s.prec := rfl
@[simp] theorem updCtx_recOf (c n : Nat) (f : Ctx → Ctx) (s : State) (x y : Nat) : (updCtx c n f s).recOf x y = s.recOf x y := rfl
@[simp] theorem updCtx_mem (c n : Nat) (f : Ctx → Ctx) (s : State) : (updCtx c n f s).mem = s.mem := rfl
@[simp] theorem updCtx_byteAt (c n : Nat) (f : Ctx → Ctx) (s : State) (x y : Nat) : (updCtx c n f s).byteAt x y = s.byteAt x y := rfl
@[simp] theorem updCtx_ecc (c n : Nat) (f : Ctx → Ctx) (s : State) : (updCtx c n f s).ecc = s.ecc := rfl
@[simp] theorem updCtx_wordErr (c n : Nat) (f : Ctx → Ctx) (s : State) (x y : Nat) : (updCtx c n f s).wordErr x y = s.wordErr x y := rfl
@[simp] theorem updCtx_tb (c n : Nat) (f : Ctx → Ctx) (s : State) : (updCtx c n f s).tb = s.tb := rfl
@[simp] theorem updCtx_timer (c n : Nat) (f : Ctx → Ctx) (s : State) : (updCtx c n f s).timer = s.timer := rfl
@[simp] theorem updCtx_timerOf (c n : Nat) (f : Ctx → Ctx) (s : State) (x : Nat) : (updCtx c n f s).timerOf x = s.timerOf x := rfl
@[simp] theorem updCtx_portEv (c n : Nat) (f : Ctx → Ctx) (s : State) : (updCtx c n f s).portEv = s.portEv := rfl
@[simp] theorem updCtx_xat (c n : Nat) (f : Ctx → Ctx) (s : State) : (updCtx c n f s).xat = s.xat := rfl
@[simp] theorem updCtx_port (c n : Nat) (f : Ctx → Ctx) (s : State) : (updCtx c n f s).port = s.port := rfl
@[simp] theorem updCtx_portOf (c n : Nat) (f : Ctx → Ctx) (s : State) (x : Nat) : (updCtx c n f s).portOf x = s.portOf x := rfl
@[simp] theorem updCtx_mir (c n : Nat) (f : Ctx → Ctx) (s : State) : (updCtx c n f s).mir = s.mir := rfl
@[simp] theorem updCtx_mirOf (c n : Nat) (f : Ctx → Ctx) (s : State) (x : Nat) : (updCtx c n f s).mirOf x = s.mirOf x := rfl
@[simp] theorem updCtx_phy (c n : Nat) (f : Ctx → Ctx) (s : State) : (updCtx c n f s).phy = s.phy := rfl
@[simp] theorem updCtx_phyOf (c n : Nat) (f : Ctx → Ctx) (s : State) (x : Nat) : (updCtx c n f s).phyOf x = s.phyOf x := rfl
@[simp] theorem updCtx_hub (c n : Nat) (f : Ctx → Ctx) (s : State) : (updCtx c n f s).hub = s.hub := rfl
@[simp] theorem updCtx_hubOf (c n : Nat) (f : Ctx → Ctx) (s : State) (x : Nat) : (updCtx c n f s).hubOf x = s.hubOf x := rfl
@[simp] theorem updCtx_fw (c n : Nat) (f : Ctx → Ctx) (s : State) : (updCtx c n f s).fw = s.fw := rfl
@[simp] theorem updCtx_fwOf (c n : Nat) (f : Ctx → Ctx) (s : State) (x : Nat) : (updCtx c n f s).fwOf x = s.fwOf x := rfl
@[simp] theorem updCtx_pan (c n : Nat) (f : Ctx → Ctx) (s : State) : (updCtx c n f s).pan = s.pan := rfl
@[simp] theorem updCtx_panOf (c n : Nat) (f : Ctx → Ctx) (s : State) (x y : Nat) : (updCtx c n f s).panOf x y = s.panOf x y := rfl
@[simp] theorem updCtx_opq (c n : Nat) (f : Ctx → Ctx) (s : State) : (updCtx c n f s).opq = s.opq := rfl
@[simp] theorem updCtx_opOf (c n : Nat) (f : Ctx → Ctx) (s : State) (x y : Nat) : (updCtx c n f s).opOf x y = s.opOf x y := rfl
@[simp] theorem updCtx_chan (c n : Nat) (f : Ctx → Ctx) (s : State) : (updCtx c n f s).chan = s.chan := rfl
@[simp] theorem updCtx_chanOf (c n : Nat) (f : Ctx → Ctx) (s : State) (x : Nat) : (updCtx c n f s).chanOf x = s.chanOf x := rfl
@[simp] theorem updCtx_bankA (c n : Nat) (f : Ctx → Ctx) (s : State) : (updCtx c n f s).bankA = s.bankA := rfl
@[simp] theorem updCtx_bankB (c n : Nat) (f : Ctx → Ctx) (s : State) : (updCtx c n f s).bankB = s.bankB := rfl
@[simp] theorem updCtx_active (c n : Nat) (f : Ctx → Ctx) (s : State) : (updCtx c n f s).active = s.active := rfl
@[simp] theorem updCtx_fdrMon (c n : Nat) (f : Ctx → Ctx) (s : State) : (updCtx c n f s).fdrMon = s.fdrMon := rfl
@[simp] theorem updCtx_monOf (c n : Nat) (f : Ctx → Ctx) (s : State) (x : Nat) : (updCtx c n f s).monOf x = s.monOf x := rfl
@[simp] theorem updCtx_roundOpen (c n : Nat) (f : Ctx → Ctx) (s : State) : (updCtx c n f s).roundOpen = s.roundOpen := rfl
@[simp] theorem updCtx_switchUs (c n : Nat) (f : Ctx → Ctx) (s : State) : (updCtx c n f s).switchUs = s.switchUs := rfl
@[simp] theorem updCtx_die (c n : Nat) (f : Ctx → Ctx) (s : State) : (updCtx c n f s).die = s.die := rfl
@[simp] theorem updCtx_dieOf (c n : Nat) (f : Ctx → Ctx) (s : State) (x : Nat) : (updCtx c n f s).dieOf x = s.dieOf x := rfl
@[simp] theorem updCtx_crs (c n : Nat) (f : Ctx → Ctx) (s : State) : (updCtx c n f s).crs = s.crs := rfl
@[simp] theorem updCtx_crsOf (c n : Nat) (f : Ctx → Ctx) (s : State) (x : Nat) : (updCtx c n f s).crsOf x = s.crsOf x := rfl
@[simp] theorem updCtx_mbx (c n : Nat) (f : Ctx → Ctx) (s : State) : (updCtx c n f s).mbx = s.mbx := rfl
@[simp] theorem updCtx_mbxOf (c n : Nat) (f : Ctx → Ctx) (s : State) (x y : Nat) : (updCtx c n f s).mbxOf x y = s.mbxOf x y := rfl
@[simp] theorem updCtx_lnk (c n : Nat) (f : Ctx → Ctx) (s : State) : (updCtx c n f s).lnk = s.lnk := rfl
@[simp] theorem updCtx_chainOf (c n : Nat) (f : Ctx → Ctx) (s : State) (x : Nat) : (updCtx c n f s).chainOf x = s.chainOf x := rfl
@[simp] theorem updCtx_enum (c n : Nat) (f : Ctx → Ctx) (s : State) : (updCtx c n f s).enum = s.enum := rfl
@[simp] theorem updCtx_twm (c n : Nat) (f : Ctx → Ctx) (s : State) : (updCtx c n f s).twm = s.twm := rfl
@[simp] theorem updCtx_adc (c n : Nat) (f : Ctx → Ctx) (s : State) : (updCtx c n f s).adc = s.adc := rfl
@[simp] theorem updCtx_adcOf (c n : Nat) (f : Ctx → Ctx) (s : State) (x : Nat) : (updCtx c n f s).adcOf x = s.adcOf x := rfl
@[simp] theorem updCtx_scan (c n : Nat) (f : Ctx → Ctx) (s : State) : (updCtx c n f s).scan = s.scan := rfl
@[simp] theorem updCtx_scanOf (c n : Nat) (f : Ctx → Ctx) (s : State) (x : Nat) : (updCtx c n f s).scanOf x = s.scanOf x := rfl
@[simp] theorem updCtx_scrubs (c n : Nat) (f : Ctx → Ctx) (s : State) : (updCtx c n f s).scrubs = s.scrubs := rfl
@[simp] theorem updCtx_scrubStart (c n : Nat) (f : Ctx → Ctx) (s : State) : (updCtx c n f s).scrubStart = s.scrubStart := rfl
@[simp] theorem updCtx_ceSecond (c n : Nat) (f : Ctx → Ctx) (s : State) : (updCtx c n f s).ceSecond = s.ceSecond := rfl
@[simp] theorem updCtx_harv (c n : Nat) (f : Ctx → Ctx) (s : State) : (updCtx c n f s).harv = s.harv := rfl
@[simp] theorem updCtx_harvOf (c n : Nat) (f : Ctx → Ctx) (s : State) (x : Nat) : (updCtx c n f s).harvOf x = s.harvOf x := rfl
@[simp] theorem updCtx_fharv (c n : Nat) (f : Ctx → Ctx) (s : State) : (updCtx c n f s).fharv = s.fharv := rfl
@[simp] theorem updCtx_fharvOf (c n : Nat) (f : Ctx → Ctx) (s : State) (x : Nat) : (updCtx c n f s).fharvOf x = s.fharvOf x := rfl
@[simp] theorem updCtx_hrvCyc (c n : Nat) (f : Ctx → Ctx) (s : State) : (updCtx c n f s).hrvCyc = s.hrvCyc := rfl
@[simp] theorem updCtx_clk (c n : Nat) (f : Ctx → Ctx) (s : State) : (updCtx c n f s).clk = s.clk := rfl
@[simp] theorem updCtx_adm (c n : Nat) (f : Ctx → Ctx) (s : State) : (updCtx c n f s).adm = s.adm := rfl
@[simp] theorem updCtx_saved (c n : Nat) (f : Ctx → Ctx) (s : State) : (updCtx c n f s).saved = s.saved := rfl
@[simp] theorem updCtx_log (c n : Nat) (f : Ctx → Ctx) (s : State) : (updCtx c n f s).log = s.log := rfl
@[simp] theorem updCtx_nvmA (c n : Nat) (f : Ctx → Ctx) (s : State) : (updCtx c n f s).nvmA = s.nvmA := rfl
@[simp] theorem updCtx_nvmB (c n : Nat) (f : Ctx → Ctx) (s : State) : (updCtx c n f s).nvmB = s.nvmB := rfl
@[simp] theorem updCtx_boot (c n : Nat) (f : Ctx → Ctx) (s : State) : (updCtx c n f s).boot = s.boot := rfl
@[simp] theorem updCtx_fuse (c n : Nat) (f : Ctx → Ctx) (s : State) : (updCtx c n f s).fuse = s.fuse := rfl
@[simp] theorem updCtx_weak (c n : Nat) (f : Ctx → Ctx) (s : State) : (updCtx c n f s).weak = s.weak := rfl
@[simp] theorem updCtx_otp (c n : Nat) (f : Ctx → Ctx) (s : State) : (updCtx c n f s).otp = s.otp := rfl
@[simp] theorem updCtx_upd (c n : Nat) (f : Ctx → Ctx) (s : State) : (updCtx c n f s).upd = s.upd := rfl
@[simp] theorem updCtx_tap (c n : Nat) (f : Ctx → Ctx) (s : State) : (updCtx c n f s).tap = s.tap := rfl
@[simp] theorem updCtx_bsr (c n : Nat) (f : Ctx → Ctx) (s : State) : (updCtx c n f s).bsr = s.bsr := rfl
@[simp] theorem updCtx_tdo (c n : Nat) (f : Ctx → Ctx) (s : State) : (updCtx c n f s).tdo = s.tdo := rfl
@[simp] theorem updCtx_bus (c n : Nat) (f : Ctx → Ctx) (s : State) : (updCtx c n f s).bus = s.bus := rfl
@[simp] theorem updCtx_block (c n : Nat) (f : Ctx → Ctx) (s : State) : (updCtx c n f s).block = s.block := rfl
@[simp] theorem updCtx_fresh (c n : Nat) (f : Ctx → Ctx) (s : State) : (updCtx c n f s).fresh = s.fresh := rfl
@[simp] theorem updCtx_clock (c n : Nat) (f : Ctx → Ctx) (s : State) : (updCtx c n f s).clock = s.clock := rfl
@[simp] theorem updCtx_pending (c n : Nat) (f : Ctx → Ctx) (s : State) : (updCtx c n f s).pending = s.pending := rfl

@[simp] theorem setPan_regs (c i : Nat) (o : PanOwner) (s : State) : (setPan c i o s).regs = s.regs := rfl
@[simp] theorem setPan_reg (c i : Nat) (o : PanOwner) (s : State) (x : Nat) : (setPan c i o s).reg x = s.reg x := rfl
@[simp] theorem setPan_dieRegs (c i : Nat) (o : PanOwner) (s : State) : (setPan c i o s).dieRegs = s.dieRegs := rfl
@[simp] theorem setPan_dreg (c i : Nat) (o : PanOwner) (s : State) (x : Nat) : (setPan c i o s).dreg x = s.dreg x := rfl
@[simp] theorem setPan_prec (c i : Nat) (o : PanOwner) (s : State) : (setPan c i o s).prec = s.prec := rfl
@[simp] theorem setPan_recOf (c i : Nat) (o : PanOwner) (s : State) (x y : Nat) : (setPan c i o s).recOf x y = s.recOf x y := rfl
@[simp] theorem setPan_mem (c i : Nat) (o : PanOwner) (s : State) : (setPan c i o s).mem = s.mem := rfl
@[simp] theorem setPan_byteAt (c i : Nat) (o : PanOwner) (s : State) (x y : Nat) : (setPan c i o s).byteAt x y = s.byteAt x y := rfl
@[simp] theorem setPan_ecc (c i : Nat) (o : PanOwner) (s : State) : (setPan c i o s).ecc = s.ecc := rfl
@[simp] theorem setPan_wordErr (c i : Nat) (o : PanOwner) (s : State) (x y : Nat) : (setPan c i o s).wordErr x y = s.wordErr x y := rfl
@[simp] theorem setPan_tb (c i : Nat) (o : PanOwner) (s : State) : (setPan c i o s).tb = s.tb := rfl
@[simp] theorem setPan_timer (c i : Nat) (o : PanOwner) (s : State) : (setPan c i o s).timer = s.timer := rfl
@[simp] theorem setPan_timerOf (c i : Nat) (o : PanOwner) (s : State) (x : Nat) : (setPan c i o s).timerOf x = s.timerOf x := rfl
@[simp] theorem setPan_portEv (c i : Nat) (o : PanOwner) (s : State) : (setPan c i o s).portEv = s.portEv := rfl
@[simp] theorem setPan_xat (c i : Nat) (o : PanOwner) (s : State) : (setPan c i o s).xat = s.xat := rfl
@[simp] theorem setPan_port (c i : Nat) (o : PanOwner) (s : State) : (setPan c i o s).port = s.port := rfl
@[simp] theorem setPan_portOf (c i : Nat) (o : PanOwner) (s : State) (x : Nat) : (setPan c i o s).portOf x = s.portOf x := rfl
@[simp] theorem setPan_mir (c i : Nat) (o : PanOwner) (s : State) : (setPan c i o s).mir = s.mir := rfl
@[simp] theorem setPan_mirOf (c i : Nat) (o : PanOwner) (s : State) (x : Nat) : (setPan c i o s).mirOf x = s.mirOf x := rfl
@[simp] theorem setPan_phy (c i : Nat) (o : PanOwner) (s : State) : (setPan c i o s).phy = s.phy := rfl
@[simp] theorem setPan_phyOf (c i : Nat) (o : PanOwner) (s : State) (x : Nat) : (setPan c i o s).phyOf x = s.phyOf x := rfl
@[simp] theorem setPan_hub (c i : Nat) (o : PanOwner) (s : State) : (setPan c i o s).hub = s.hub := rfl
@[simp] theorem setPan_hubOf (c i : Nat) (o : PanOwner) (s : State) (x : Nat) : (setPan c i o s).hubOf x = s.hubOf x := rfl
@[simp] theorem setPan_fw (c i : Nat) (o : PanOwner) (s : State) : (setPan c i o s).fw = s.fw := rfl
@[simp] theorem setPan_fwOf (c i : Nat) (o : PanOwner) (s : State) (x : Nat) : (setPan c i o s).fwOf x = s.fwOf x := rfl
@[simp] theorem setPan_ctx (c i : Nat) (o : PanOwner) (s : State) : (setPan c i o s).ctx = s.ctx := rfl
@[simp] theorem setPan_ctxOf (c i : Nat) (o : PanOwner) (s : State) (x y : Nat) : (setPan c i o s).ctxOf x y = s.ctxOf x y := rfl
@[simp] theorem setPan_opq (c i : Nat) (o : PanOwner) (s : State) : (setPan c i o s).opq = s.opq := rfl
@[simp] theorem setPan_opOf (c i : Nat) (o : PanOwner) (s : State) (x y : Nat) : (setPan c i o s).opOf x y = s.opOf x y := rfl
@[simp] theorem setPan_chan (c i : Nat) (o : PanOwner) (s : State) : (setPan c i o s).chan = s.chan := rfl
@[simp] theorem setPan_chanOf (c i : Nat) (o : PanOwner) (s : State) (x : Nat) : (setPan c i o s).chanOf x = s.chanOf x := rfl
@[simp] theorem setPan_bankA (c i : Nat) (o : PanOwner) (s : State) : (setPan c i o s).bankA = s.bankA := rfl
@[simp] theorem setPan_bankB (c i : Nat) (o : PanOwner) (s : State) : (setPan c i o s).bankB = s.bankB := rfl
@[simp] theorem setPan_active (c i : Nat) (o : PanOwner) (s : State) : (setPan c i o s).active = s.active := rfl
@[simp] theorem setPan_fdrMon (c i : Nat) (o : PanOwner) (s : State) : (setPan c i o s).fdrMon = s.fdrMon := rfl
@[simp] theorem setPan_monOf (c i : Nat) (o : PanOwner) (s : State) (x : Nat) : (setPan c i o s).monOf x = s.monOf x := rfl
@[simp] theorem setPan_roundOpen (c i : Nat) (o : PanOwner) (s : State) : (setPan c i o s).roundOpen = s.roundOpen := rfl
@[simp] theorem setPan_switchUs (c i : Nat) (o : PanOwner) (s : State) : (setPan c i o s).switchUs = s.switchUs := rfl
@[simp] theorem setPan_die (c i : Nat) (o : PanOwner) (s : State) : (setPan c i o s).die = s.die := rfl
@[simp] theorem setPan_dieOf (c i : Nat) (o : PanOwner) (s : State) (x : Nat) : (setPan c i o s).dieOf x = s.dieOf x := rfl
@[simp] theorem setPan_crs (c i : Nat) (o : PanOwner) (s : State) : (setPan c i o s).crs = s.crs := rfl
@[simp] theorem setPan_crsOf (c i : Nat) (o : PanOwner) (s : State) (x : Nat) : (setPan c i o s).crsOf x = s.crsOf x := rfl
@[simp] theorem setPan_mbx (c i : Nat) (o : PanOwner) (s : State) : (setPan c i o s).mbx = s.mbx := rfl
@[simp] theorem setPan_mbxOf (c i : Nat) (o : PanOwner) (s : State) (x y : Nat) : (setPan c i o s).mbxOf x y = s.mbxOf x y := rfl
@[simp] theorem setPan_lnk (c i : Nat) (o : PanOwner) (s : State) : (setPan c i o s).lnk = s.lnk := rfl
@[simp] theorem setPan_chainOf (c i : Nat) (o : PanOwner) (s : State) (x : Nat) : (setPan c i o s).chainOf x = s.chainOf x := rfl
@[simp] theorem setPan_enum (c i : Nat) (o : PanOwner) (s : State) : (setPan c i o s).enum = s.enum := rfl
@[simp] theorem setPan_twm (c i : Nat) (o : PanOwner) (s : State) : (setPan c i o s).twm = s.twm := rfl
@[simp] theorem setPan_adc (c i : Nat) (o : PanOwner) (s : State) : (setPan c i o s).adc = s.adc := rfl
@[simp] theorem setPan_adcOf (c i : Nat) (o : PanOwner) (s : State) (x : Nat) : (setPan c i o s).adcOf x = s.adcOf x := rfl
@[simp] theorem setPan_scan (c i : Nat) (o : PanOwner) (s : State) : (setPan c i o s).scan = s.scan := rfl
@[simp] theorem setPan_scanOf (c i : Nat) (o : PanOwner) (s : State) (x : Nat) : (setPan c i o s).scanOf x = s.scanOf x := rfl
@[simp] theorem setPan_scrubs (c i : Nat) (o : PanOwner) (s : State) : (setPan c i o s).scrubs = s.scrubs := rfl
@[simp] theorem setPan_scrubStart (c i : Nat) (o : PanOwner) (s : State) : (setPan c i o s).scrubStart = s.scrubStart := rfl
@[simp] theorem setPan_ceSecond (c i : Nat) (o : PanOwner) (s : State) : (setPan c i o s).ceSecond = s.ceSecond := rfl
@[simp] theorem setPan_harv (c i : Nat) (o : PanOwner) (s : State) : (setPan c i o s).harv = s.harv := rfl
@[simp] theorem setPan_harvOf (c i : Nat) (o : PanOwner) (s : State) (x : Nat) : (setPan c i o s).harvOf x = s.harvOf x := rfl
@[simp] theorem setPan_fharv (c i : Nat) (o : PanOwner) (s : State) : (setPan c i o s).fharv = s.fharv := rfl
@[simp] theorem setPan_fharvOf (c i : Nat) (o : PanOwner) (s : State) (x : Nat) : (setPan c i o s).fharvOf x = s.fharvOf x := rfl
@[simp] theorem setPan_hrvCyc (c i : Nat) (o : PanOwner) (s : State) : (setPan c i o s).hrvCyc = s.hrvCyc := rfl
@[simp] theorem setPan_clk (c i : Nat) (o : PanOwner) (s : State) : (setPan c i o s).clk = s.clk := rfl
@[simp] theorem setPan_adm (c i : Nat) (o : PanOwner) (s : State) : (setPan c i o s).adm = s.adm := rfl
@[simp] theorem setPan_saved (c i : Nat) (o : PanOwner) (s : State) : (setPan c i o s).saved = s.saved := rfl
@[simp] theorem setPan_log (c i : Nat) (o : PanOwner) (s : State) : (setPan c i o s).log = s.log := rfl
@[simp] theorem setPan_nvmA (c i : Nat) (o : PanOwner) (s : State) : (setPan c i o s).nvmA = s.nvmA := rfl
@[simp] theorem setPan_nvmB (c i : Nat) (o : PanOwner) (s : State) : (setPan c i o s).nvmB = s.nvmB := rfl
@[simp] theorem setPan_boot (c i : Nat) (o : PanOwner) (s : State) : (setPan c i o s).boot = s.boot := rfl
@[simp] theorem setPan_fuse (c i : Nat) (o : PanOwner) (s : State) : (setPan c i o s).fuse = s.fuse := rfl
@[simp] theorem setPan_weak (c i : Nat) (o : PanOwner) (s : State) : (setPan c i o s).weak = s.weak := rfl
@[simp] theorem setPan_otp (c i : Nat) (o : PanOwner) (s : State) : (setPan c i o s).otp = s.otp := rfl
@[simp] theorem setPan_upd (c i : Nat) (o : PanOwner) (s : State) : (setPan c i o s).upd = s.upd := rfl
@[simp] theorem setPan_tap (c i : Nat) (o : PanOwner) (s : State) : (setPan c i o s).tap = s.tap := rfl
@[simp] theorem setPan_bsr (c i : Nat) (o : PanOwner) (s : State) : (setPan c i o s).bsr = s.bsr := rfl
@[simp] theorem setPan_tdo (c i : Nat) (o : PanOwner) (s : State) : (setPan c i o s).tdo = s.tdo := rfl
@[simp] theorem setPan_bus (c i : Nat) (o : PanOwner) (s : State) : (setPan c i o s).bus = s.bus := rfl
@[simp] theorem setPan_block (c i : Nat) (o : PanOwner) (s : State) : (setPan c i o s).block = s.block := rfl
@[simp] theorem setPan_fresh (c i : Nat) (o : PanOwner) (s : State) : (setPan c i o s).fresh = s.fresh := rfl
@[simp] theorem setPan_clock (c i : Nat) (o : PanOwner) (s : State) : (setPan c i o s).clock = s.clock := rfl
@[simp] theorem setPan_pending (c i : Nat) (o : PanOwner) (s : State) : (setPan c i o s).pending = s.pending := rfl

@[simp] theorem setOp_regs (c i : Nat) (e : Option OpEntry) (s : State) : (setOp c i e s).regs = s.regs := rfl
@[simp] theorem setOp_reg (c i : Nat) (e : Option OpEntry) (s : State) (x : Nat) : (setOp c i e s).reg x = s.reg x := rfl
@[simp] theorem setOp_dieRegs (c i : Nat) (e : Option OpEntry) (s : State) : (setOp c i e s).dieRegs = s.dieRegs := rfl
@[simp] theorem setOp_dreg (c i : Nat) (e : Option OpEntry) (s : State) (x : Nat) : (setOp c i e s).dreg x = s.dreg x := rfl
@[simp] theorem setOp_prec (c i : Nat) (e : Option OpEntry) (s : State) : (setOp c i e s).prec = s.prec := rfl
@[simp] theorem setOp_recOf (c i : Nat) (e : Option OpEntry) (s : State) (x y : Nat) : (setOp c i e s).recOf x y = s.recOf x y := rfl
@[simp] theorem setOp_mem (c i : Nat) (e : Option OpEntry) (s : State) : (setOp c i e s).mem = s.mem := rfl
@[simp] theorem setOp_byteAt (c i : Nat) (e : Option OpEntry) (s : State) (x y : Nat) : (setOp c i e s).byteAt x y = s.byteAt x y := rfl
@[simp] theorem setOp_ecc (c i : Nat) (e : Option OpEntry) (s : State) : (setOp c i e s).ecc = s.ecc := rfl
@[simp] theorem setOp_wordErr (c i : Nat) (e : Option OpEntry) (s : State) (x y : Nat) : (setOp c i e s).wordErr x y = s.wordErr x y := rfl
@[simp] theorem setOp_tb (c i : Nat) (e : Option OpEntry) (s : State) : (setOp c i e s).tb = s.tb := rfl
@[simp] theorem setOp_timer (c i : Nat) (e : Option OpEntry) (s : State) : (setOp c i e s).timer = s.timer := rfl
@[simp] theorem setOp_timerOf (c i : Nat) (e : Option OpEntry) (s : State) (x : Nat) : (setOp c i e s).timerOf x = s.timerOf x := rfl
@[simp] theorem setOp_portEv (c i : Nat) (e : Option OpEntry) (s : State) : (setOp c i e s).portEv = s.portEv := rfl
@[simp] theorem setOp_xat (c i : Nat) (e : Option OpEntry) (s : State) : (setOp c i e s).xat = s.xat := rfl
@[simp] theorem setOp_port (c i : Nat) (e : Option OpEntry) (s : State) : (setOp c i e s).port = s.port := rfl
@[simp] theorem setOp_portOf (c i : Nat) (e : Option OpEntry) (s : State) (x : Nat) : (setOp c i e s).portOf x = s.portOf x := rfl
@[simp] theorem setOp_mir (c i : Nat) (e : Option OpEntry) (s : State) : (setOp c i e s).mir = s.mir := rfl
@[simp] theorem setOp_mirOf (c i : Nat) (e : Option OpEntry) (s : State) (x : Nat) : (setOp c i e s).mirOf x = s.mirOf x := rfl
@[simp] theorem setOp_phy (c i : Nat) (e : Option OpEntry) (s : State) : (setOp c i e s).phy = s.phy := rfl
@[simp] theorem setOp_phyOf (c i : Nat) (e : Option OpEntry) (s : State) (x : Nat) : (setOp c i e s).phyOf x = s.phyOf x := rfl
@[simp] theorem setOp_hub (c i : Nat) (e : Option OpEntry) (s : State) : (setOp c i e s).hub = s.hub := rfl
@[simp] theorem setOp_hubOf (c i : Nat) (e : Option OpEntry) (s : State) (x : Nat) : (setOp c i e s).hubOf x = s.hubOf x := rfl
@[simp] theorem setOp_fw (c i : Nat) (e : Option OpEntry) (s : State) : (setOp c i e s).fw = s.fw := rfl
@[simp] theorem setOp_fwOf (c i : Nat) (e : Option OpEntry) (s : State) (x : Nat) : (setOp c i e s).fwOf x = s.fwOf x := rfl
@[simp] theorem setOp_ctx (c i : Nat) (e : Option OpEntry) (s : State) : (setOp c i e s).ctx = s.ctx := rfl
@[simp] theorem setOp_ctxOf (c i : Nat) (e : Option OpEntry) (s : State) (x y : Nat) : (setOp c i e s).ctxOf x y = s.ctxOf x y := rfl
@[simp] theorem setOp_pan (c i : Nat) (e : Option OpEntry) (s : State) : (setOp c i e s).pan = s.pan := rfl
@[simp] theorem setOp_panOf (c i : Nat) (e : Option OpEntry) (s : State) (x y : Nat) : (setOp c i e s).panOf x y = s.panOf x y := rfl
@[simp] theorem setOp_chan (c i : Nat) (e : Option OpEntry) (s : State) : (setOp c i e s).chan = s.chan := rfl
@[simp] theorem setOp_chanOf (c i : Nat) (e : Option OpEntry) (s : State) (x : Nat) : (setOp c i e s).chanOf x = s.chanOf x := rfl
@[simp] theorem setOp_bankA (c i : Nat) (e : Option OpEntry) (s : State) : (setOp c i e s).bankA = s.bankA := rfl
@[simp] theorem setOp_bankB (c i : Nat) (e : Option OpEntry) (s : State) : (setOp c i e s).bankB = s.bankB := rfl
@[simp] theorem setOp_active (c i : Nat) (e : Option OpEntry) (s : State) : (setOp c i e s).active = s.active := rfl
@[simp] theorem setOp_fdrMon (c i : Nat) (e : Option OpEntry) (s : State) : (setOp c i e s).fdrMon = s.fdrMon := rfl
@[simp] theorem setOp_monOf (c i : Nat) (e : Option OpEntry) (s : State) (x : Nat) : (setOp c i e s).monOf x = s.monOf x := rfl
@[simp] theorem setOp_roundOpen (c i : Nat) (e : Option OpEntry) (s : State) : (setOp c i e s).roundOpen = s.roundOpen := rfl
@[simp] theorem setOp_switchUs (c i : Nat) (e : Option OpEntry) (s : State) : (setOp c i e s).switchUs = s.switchUs := rfl
@[simp] theorem setOp_die (c i : Nat) (e : Option OpEntry) (s : State) : (setOp c i e s).die = s.die := rfl
@[simp] theorem setOp_dieOf (c i : Nat) (e : Option OpEntry) (s : State) (x : Nat) : (setOp c i e s).dieOf x = s.dieOf x := rfl
@[simp] theorem setOp_crs (c i : Nat) (e : Option OpEntry) (s : State) : (setOp c i e s).crs = s.crs := rfl
@[simp] theorem setOp_crsOf (c i : Nat) (e : Option OpEntry) (s : State) (x : Nat) : (setOp c i e s).crsOf x = s.crsOf x := rfl
@[simp] theorem setOp_mbx (c i : Nat) (e : Option OpEntry) (s : State) : (setOp c i e s).mbx = s.mbx := rfl
@[simp] theorem setOp_mbxOf (c i : Nat) (e : Option OpEntry) (s : State) (x y : Nat) : (setOp c i e s).mbxOf x y = s.mbxOf x y := rfl
@[simp] theorem setOp_lnk (c i : Nat) (e : Option OpEntry) (s : State) : (setOp c i e s).lnk = s.lnk := rfl
@[simp] theorem setOp_chainOf (c i : Nat) (e : Option OpEntry) (s : State) (x : Nat) : (setOp c i e s).chainOf x = s.chainOf x := rfl
@[simp] theorem setOp_enum (c i : Nat) (e : Option OpEntry) (s : State) : (setOp c i e s).enum = s.enum := rfl
@[simp] theorem setOp_twm (c i : Nat) (e : Option OpEntry) (s : State) : (setOp c i e s).twm = s.twm := rfl
@[simp] theorem setOp_adc (c i : Nat) (e : Option OpEntry) (s : State) : (setOp c i e s).adc = s.adc := rfl
@[simp] theorem setOp_adcOf (c i : Nat) (e : Option OpEntry) (s : State) (x : Nat) : (setOp c i e s).adcOf x = s.adcOf x := rfl
@[simp] theorem setOp_scan (c i : Nat) (e : Option OpEntry) (s : State) : (setOp c i e s).scan = s.scan := rfl
@[simp] theorem setOp_scanOf (c i : Nat) (e : Option OpEntry) (s : State) (x : Nat) : (setOp c i e s).scanOf x = s.scanOf x := rfl
@[simp] theorem setOp_scrubs (c i : Nat) (e : Option OpEntry) (s : State) : (setOp c i e s).scrubs = s.scrubs := rfl
@[simp] theorem setOp_scrubStart (c i : Nat) (e : Option OpEntry) (s : State) : (setOp c i e s).scrubStart = s.scrubStart := rfl
@[simp] theorem setOp_ceSecond (c i : Nat) (e : Option OpEntry) (s : State) : (setOp c i e s).ceSecond = s.ceSecond := rfl
@[simp] theorem setOp_harv (c i : Nat) (e : Option OpEntry) (s : State) : (setOp c i e s).harv = s.harv := rfl
@[simp] theorem setOp_harvOf (c i : Nat) (e : Option OpEntry) (s : State) (x : Nat) : (setOp c i e s).harvOf x = s.harvOf x := rfl
@[simp] theorem setOp_fharv (c i : Nat) (e : Option OpEntry) (s : State) : (setOp c i e s).fharv = s.fharv := rfl
@[simp] theorem setOp_fharvOf (c i : Nat) (e : Option OpEntry) (s : State) (x : Nat) : (setOp c i e s).fharvOf x = s.fharvOf x := rfl
@[simp] theorem setOp_hrvCyc (c i : Nat) (e : Option OpEntry) (s : State) : (setOp c i e s).hrvCyc = s.hrvCyc := rfl
@[simp] theorem setOp_clk (c i : Nat) (e : Option OpEntry) (s : State) : (setOp c i e s).clk = s.clk := rfl
@[simp] theorem setOp_adm (c i : Nat) (e : Option OpEntry) (s : State) : (setOp c i e s).adm = s.adm := rfl
@[simp] theorem setOp_saved (c i : Nat) (e : Option OpEntry) (s : State) : (setOp c i e s).saved = s.saved := rfl
@[simp] theorem setOp_log (c i : Nat) (e : Option OpEntry) (s : State) : (setOp c i e s).log = s.log := rfl
@[simp] theorem setOp_nvmA (c i : Nat) (e : Option OpEntry) (s : State) : (setOp c i e s).nvmA = s.nvmA := rfl
@[simp] theorem setOp_nvmB (c i : Nat) (e : Option OpEntry) (s : State) : (setOp c i e s).nvmB = s.nvmB := rfl
@[simp] theorem setOp_boot (c i : Nat) (e : Option OpEntry) (s : State) : (setOp c i e s).boot = s.boot := rfl
@[simp] theorem setOp_fuse (c i : Nat) (e : Option OpEntry) (s : State) : (setOp c i e s).fuse = s.fuse := rfl
@[simp] theorem setOp_weak (c i : Nat) (e : Option OpEntry) (s : State) : (setOp c i e s).weak = s.weak := rfl
@[simp] theorem setOp_otp (c i : Nat) (e : Option OpEntry) (s : State) : (setOp c i e s).otp = s.otp := rfl
@[simp] theorem setOp_upd (c i : Nat) (e : Option OpEntry) (s : State) : (setOp c i e s).upd = s.upd := rfl
@[simp] theorem setOp_tap (c i : Nat) (e : Option OpEntry) (s : State) : (setOp c i e s).tap = s.tap := rfl
@[simp] theorem setOp_bsr (c i : Nat) (e : Option OpEntry) (s : State) : (setOp c i e s).bsr = s.bsr := rfl
@[simp] theorem setOp_tdo (c i : Nat) (e : Option OpEntry) (s : State) : (setOp c i e s).tdo = s.tdo := rfl
@[simp] theorem setOp_bus (c i : Nat) (e : Option OpEntry) (s : State) : (setOp c i e s).bus = s.bus := rfl
@[simp] theorem setOp_block (c i : Nat) (e : Option OpEntry) (s : State) : (setOp c i e s).block = s.block := rfl
@[simp] theorem setOp_fresh (c i : Nat) (e : Option OpEntry) (s : State) : (setOp c i e s).fresh = s.fresh := rfl
@[simp] theorem setOp_clock (c i : Nat) (e : Option OpEntry) (s : State) : (setOp c i e s).clock = s.clock := rfl
@[simp] theorem setOp_pending (c i : Nat) (e : Option OpEntry) (s : State) : (setOp c i e s).pending = s.pending := rfl

@[simp] theorem updChan_regs (c : Nat) (f : Chan → Chan) (s : State) : (updChan c f s).regs = s.regs := rfl
@[simp] theorem updChan_reg (c : Nat) (f : Chan → Chan) (s : State) (x : Nat) : (updChan c f s).reg x = s.reg x := rfl
@[simp] theorem updChan_dieRegs (c : Nat) (f : Chan → Chan) (s : State) : (updChan c f s).dieRegs = s.dieRegs := rfl
@[simp] theorem updChan_dreg (c : Nat) (f : Chan → Chan) (s : State) (x : Nat) : (updChan c f s).dreg x = s.dreg x := rfl
@[simp] theorem updChan_prec (c : Nat) (f : Chan → Chan) (s : State) : (updChan c f s).prec = s.prec := rfl
@[simp] theorem updChan_recOf (c : Nat) (f : Chan → Chan) (s : State) (x y : Nat) : (updChan c f s).recOf x y = s.recOf x y := rfl
@[simp] theorem updChan_mem (c : Nat) (f : Chan → Chan) (s : State) : (updChan c f s).mem = s.mem := rfl
@[simp] theorem updChan_byteAt (c : Nat) (f : Chan → Chan) (s : State) (x y : Nat) : (updChan c f s).byteAt x y = s.byteAt x y := rfl
@[simp] theorem updChan_ecc (c : Nat) (f : Chan → Chan) (s : State) : (updChan c f s).ecc = s.ecc := rfl
@[simp] theorem updChan_wordErr (c : Nat) (f : Chan → Chan) (s : State) (x y : Nat) : (updChan c f s).wordErr x y = s.wordErr x y := rfl
@[simp] theorem updChan_tb (c : Nat) (f : Chan → Chan) (s : State) : (updChan c f s).tb = s.tb := rfl
@[simp] theorem updChan_timer (c : Nat) (f : Chan → Chan) (s : State) : (updChan c f s).timer = s.timer := rfl
@[simp] theorem updChan_timerOf (c : Nat) (f : Chan → Chan) (s : State) (x : Nat) : (updChan c f s).timerOf x = s.timerOf x := rfl
@[simp] theorem updChan_portEv (c : Nat) (f : Chan → Chan) (s : State) : (updChan c f s).portEv = s.portEv := rfl
@[simp] theorem updChan_xat (c : Nat) (f : Chan → Chan) (s : State) : (updChan c f s).xat = s.xat := rfl
@[simp] theorem updChan_port (c : Nat) (f : Chan → Chan) (s : State) : (updChan c f s).port = s.port := rfl
@[simp] theorem updChan_portOf (c : Nat) (f : Chan → Chan) (s : State) (x : Nat) : (updChan c f s).portOf x = s.portOf x := rfl
@[simp] theorem updChan_mir (c : Nat) (f : Chan → Chan) (s : State) : (updChan c f s).mir = s.mir := rfl
@[simp] theorem updChan_mirOf (c : Nat) (f : Chan → Chan) (s : State) (x : Nat) : (updChan c f s).mirOf x = s.mirOf x := rfl
@[simp] theorem updChan_phy (c : Nat) (f : Chan → Chan) (s : State) : (updChan c f s).phy = s.phy := rfl
@[simp] theorem updChan_phyOf (c : Nat) (f : Chan → Chan) (s : State) (x : Nat) : (updChan c f s).phyOf x = s.phyOf x := rfl
@[simp] theorem updChan_hub (c : Nat) (f : Chan → Chan) (s : State) : (updChan c f s).hub = s.hub := rfl
@[simp] theorem updChan_hubOf (c : Nat) (f : Chan → Chan) (s : State) (x : Nat) : (updChan c f s).hubOf x = s.hubOf x := rfl
@[simp] theorem updChan_fw (c : Nat) (f : Chan → Chan) (s : State) : (updChan c f s).fw = s.fw := rfl
@[simp] theorem updChan_fwOf (c : Nat) (f : Chan → Chan) (s : State) (x : Nat) : (updChan c f s).fwOf x = s.fwOf x := rfl
@[simp] theorem updChan_ctx (c : Nat) (f : Chan → Chan) (s : State) : (updChan c f s).ctx = s.ctx := rfl
@[simp] theorem updChan_ctxOf (c : Nat) (f : Chan → Chan) (s : State) (x y : Nat) : (updChan c f s).ctxOf x y = s.ctxOf x y := rfl
@[simp] theorem updChan_pan (c : Nat) (f : Chan → Chan) (s : State) : (updChan c f s).pan = s.pan := rfl
@[simp] theorem updChan_panOf (c : Nat) (f : Chan → Chan) (s : State) (x y : Nat) : (updChan c f s).panOf x y = s.panOf x y := rfl
@[simp] theorem updChan_opq (c : Nat) (f : Chan → Chan) (s : State) : (updChan c f s).opq = s.opq := rfl
@[simp] theorem updChan_opOf (c : Nat) (f : Chan → Chan) (s : State) (x y : Nat) : (updChan c f s).opOf x y = s.opOf x y := rfl
@[simp] theorem updChan_bankA (c : Nat) (f : Chan → Chan) (s : State) : (updChan c f s).bankA = s.bankA := rfl
@[simp] theorem updChan_bankB (c : Nat) (f : Chan → Chan) (s : State) : (updChan c f s).bankB = s.bankB := rfl
@[simp] theorem updChan_active (c : Nat) (f : Chan → Chan) (s : State) : (updChan c f s).active = s.active := rfl
@[simp] theorem updChan_fdrMon (c : Nat) (f : Chan → Chan) (s : State) : (updChan c f s).fdrMon = s.fdrMon := rfl
@[simp] theorem updChan_monOf (c : Nat) (f : Chan → Chan) (s : State) (x : Nat) : (updChan c f s).monOf x = s.monOf x := rfl
@[simp] theorem updChan_roundOpen (c : Nat) (f : Chan → Chan) (s : State) : (updChan c f s).roundOpen = s.roundOpen := rfl
@[simp] theorem updChan_switchUs (c : Nat) (f : Chan → Chan) (s : State) : (updChan c f s).switchUs = s.switchUs := rfl
@[simp] theorem updChan_die (c : Nat) (f : Chan → Chan) (s : State) : (updChan c f s).die = s.die := rfl
@[simp] theorem updChan_dieOf (c : Nat) (f : Chan → Chan) (s : State) (x : Nat) : (updChan c f s).dieOf x = s.dieOf x := rfl
@[simp] theorem updChan_crs (c : Nat) (f : Chan → Chan) (s : State) : (updChan c f s).crs = s.crs := rfl
@[simp] theorem updChan_crsOf (c : Nat) (f : Chan → Chan) (s : State) (x : Nat) : (updChan c f s).crsOf x = s.crsOf x := rfl
@[simp] theorem updChan_mbx (c : Nat) (f : Chan → Chan) (s : State) : (updChan c f s).mbx = s.mbx := rfl
@[simp] theorem updChan_mbxOf (c : Nat) (f : Chan → Chan) (s : State) (x y : Nat) : (updChan c f s).mbxOf x y = s.mbxOf x y := rfl
@[simp] theorem updChan_lnk (c : Nat) (f : Chan → Chan) (s : State) : (updChan c f s).lnk = s.lnk := rfl
@[simp] theorem updChan_chainOf (c : Nat) (f : Chan → Chan) (s : State) (x : Nat) : (updChan c f s).chainOf x = s.chainOf x := rfl
@[simp] theorem updChan_enum (c : Nat) (f : Chan → Chan) (s : State) : (updChan c f s).enum = s.enum := rfl
@[simp] theorem updChan_twm (c : Nat) (f : Chan → Chan) (s : State) : (updChan c f s).twm = s.twm := rfl
@[simp] theorem updChan_adc (c : Nat) (f : Chan → Chan) (s : State) : (updChan c f s).adc = s.adc := rfl
@[simp] theorem updChan_adcOf (c : Nat) (f : Chan → Chan) (s : State) (x : Nat) : (updChan c f s).adcOf x = s.adcOf x := rfl
@[simp] theorem updChan_scan (c : Nat) (f : Chan → Chan) (s : State) : (updChan c f s).scan = s.scan := rfl
@[simp] theorem updChan_scanOf (c : Nat) (f : Chan → Chan) (s : State) (x : Nat) : (updChan c f s).scanOf x = s.scanOf x := rfl
@[simp] theorem updChan_scrubs (c : Nat) (f : Chan → Chan) (s : State) : (updChan c f s).scrubs = s.scrubs := rfl
@[simp] theorem updChan_scrubStart (c : Nat) (f : Chan → Chan) (s : State) : (updChan c f s).scrubStart = s.scrubStart := rfl
@[simp] theorem updChan_ceSecond (c : Nat) (f : Chan → Chan) (s : State) : (updChan c f s).ceSecond = s.ceSecond := rfl
@[simp] theorem updChan_harv (c : Nat) (f : Chan → Chan) (s : State) : (updChan c f s).harv = s.harv := rfl
@[simp] theorem updChan_harvOf (c : Nat) (f : Chan → Chan) (s : State) (x : Nat) : (updChan c f s).harvOf x = s.harvOf x := rfl
@[simp] theorem updChan_fharv (c : Nat) (f : Chan → Chan) (s : State) : (updChan c f s).fharv = s.fharv := rfl
@[simp] theorem updChan_fharvOf (c : Nat) (f : Chan → Chan) (s : State) (x : Nat) : (updChan c f s).fharvOf x = s.fharvOf x := rfl
@[simp] theorem updChan_hrvCyc (c : Nat) (f : Chan → Chan) (s : State) : (updChan c f s).hrvCyc = s.hrvCyc := rfl
@[simp] theorem updChan_clk (c : Nat) (f : Chan → Chan) (s : State) : (updChan c f s).clk = s.clk := rfl
@[simp] theorem updChan_adm (c : Nat) (f : Chan → Chan) (s : State) : (updChan c f s).adm = s.adm := rfl
@[simp] theorem updChan_saved (c : Nat) (f : Chan → Chan) (s : State) : (updChan c f s).saved = s.saved := rfl
@[simp] theorem updChan_log (c : Nat) (f : Chan → Chan) (s : State) : (updChan c f s).log = s.log := rfl
@[simp] theorem updChan_nvmA (c : Nat) (f : Chan → Chan) (s : State) : (updChan c f s).nvmA = s.nvmA := rfl
@[simp] theorem updChan_nvmB (c : Nat) (f : Chan → Chan) (s : State) : (updChan c f s).nvmB = s.nvmB := rfl
@[simp] theorem updChan_boot (c : Nat) (f : Chan → Chan) (s : State) : (updChan c f s).boot = s.boot := rfl
@[simp] theorem updChan_fuse (c : Nat) (f : Chan → Chan) (s : State) : (updChan c f s).fuse = s.fuse := rfl
@[simp] theorem updChan_weak (c : Nat) (f : Chan → Chan) (s : State) : (updChan c f s).weak = s.weak := rfl
@[simp] theorem updChan_otp (c : Nat) (f : Chan → Chan) (s : State) : (updChan c f s).otp = s.otp := rfl
@[simp] theorem updChan_upd (c : Nat) (f : Chan → Chan) (s : State) : (updChan c f s).upd = s.upd := rfl
@[simp] theorem updChan_tap (c : Nat) (f : Chan → Chan) (s : State) : (updChan c f s).tap = s.tap := rfl
@[simp] theorem updChan_bsr (c : Nat) (f : Chan → Chan) (s : State) : (updChan c f s).bsr = s.bsr := rfl
@[simp] theorem updChan_tdo (c : Nat) (f : Chan → Chan) (s : State) : (updChan c f s).tdo = s.tdo := rfl
@[simp] theorem updChan_bus (c : Nat) (f : Chan → Chan) (s : State) : (updChan c f s).bus = s.bus := rfl
@[simp] theorem updChan_block (c : Nat) (f : Chan → Chan) (s : State) : (updChan c f s).block = s.block := rfl
@[simp] theorem updChan_fresh (c : Nat) (f : Chan → Chan) (s : State) : (updChan c f s).fresh = s.fresh := rfl
@[simp] theorem updChan_clock (c : Nat) (f : Chan → Chan) (s : State) : (updChan c f s).clock = s.clock := rfl
@[simp] theorem updChan_pending (c : Nat) (f : Chan → Chan) (s : State) : (updChan c f s).pending = s.pending := rfl

@[simp] theorem updDie_regs (d : Nat) (f : Die → Die) (s : State) : (updDie d f s).regs = s.regs := rfl
@[simp] theorem updDie_reg (d : Nat) (f : Die → Die) (s : State) (x : Nat) : (updDie d f s).reg x = s.reg x := rfl
@[simp] theorem updDie_dieRegs (d : Nat) (f : Die → Die) (s : State) : (updDie d f s).dieRegs = s.dieRegs := rfl
@[simp] theorem updDie_dreg (d : Nat) (f : Die → Die) (s : State) (x : Nat) : (updDie d f s).dreg x = s.dreg x := rfl
@[simp] theorem updDie_prec (d : Nat) (f : Die → Die) (s : State) : (updDie d f s).prec = s.prec := rfl
@[simp] theorem updDie_recOf (d : Nat) (f : Die → Die) (s : State) (x y : Nat) : (updDie d f s).recOf x y = s.recOf x y := rfl
@[simp] theorem updDie_mem (d : Nat) (f : Die → Die) (s : State) : (updDie d f s).mem = s.mem := rfl
@[simp] theorem updDie_byteAt (d : Nat) (f : Die → Die) (s : State) (x y : Nat) : (updDie d f s).byteAt x y = s.byteAt x y := rfl
@[simp] theorem updDie_ecc (d : Nat) (f : Die → Die) (s : State) : (updDie d f s).ecc = s.ecc := rfl
@[simp] theorem updDie_wordErr (d : Nat) (f : Die → Die) (s : State) (x y : Nat) : (updDie d f s).wordErr x y = s.wordErr x y := rfl
@[simp] theorem updDie_tb (d : Nat) (f : Die → Die) (s : State) : (updDie d f s).tb = s.tb := rfl
@[simp] theorem updDie_timer (d : Nat) (f : Die → Die) (s : State) : (updDie d f s).timer = s.timer := rfl
@[simp] theorem updDie_timerOf (d : Nat) (f : Die → Die) (s : State) (x : Nat) : (updDie d f s).timerOf x = s.timerOf x := rfl
@[simp] theorem updDie_portEv (d : Nat) (f : Die → Die) (s : State) : (updDie d f s).portEv = s.portEv := rfl
@[simp] theorem updDie_xat (d : Nat) (f : Die → Die) (s : State) : (updDie d f s).xat = s.xat := rfl
@[simp] theorem updDie_port (d : Nat) (f : Die → Die) (s : State) : (updDie d f s).port = s.port := rfl
@[simp] theorem updDie_portOf (d : Nat) (f : Die → Die) (s : State) (x : Nat) : (updDie d f s).portOf x = s.portOf x := rfl
@[simp] theorem updDie_mir (d : Nat) (f : Die → Die) (s : State) : (updDie d f s).mir = s.mir := rfl
@[simp] theorem updDie_mirOf (d : Nat) (f : Die → Die) (s : State) (x : Nat) : (updDie d f s).mirOf x = s.mirOf x := rfl
@[simp] theorem updDie_phy (d : Nat) (f : Die → Die) (s : State) : (updDie d f s).phy = s.phy := rfl
@[simp] theorem updDie_phyOf (d : Nat) (f : Die → Die) (s : State) (x : Nat) : (updDie d f s).phyOf x = s.phyOf x := rfl
@[simp] theorem updDie_hub (d : Nat) (f : Die → Die) (s : State) : (updDie d f s).hub = s.hub := rfl
@[simp] theorem updDie_hubOf (d : Nat) (f : Die → Die) (s : State) (x : Nat) : (updDie d f s).hubOf x = s.hubOf x := rfl
@[simp] theorem updDie_fw (d : Nat) (f : Die → Die) (s : State) : (updDie d f s).fw = s.fw := rfl
@[simp] theorem updDie_fwOf (d : Nat) (f : Die → Die) (s : State) (x : Nat) : (updDie d f s).fwOf x = s.fwOf x := rfl
@[simp] theorem updDie_ctx (d : Nat) (f : Die → Die) (s : State) : (updDie d f s).ctx = s.ctx := rfl
@[simp] theorem updDie_ctxOf (d : Nat) (f : Die → Die) (s : State) (x y : Nat) : (updDie d f s).ctxOf x y = s.ctxOf x y := rfl
@[simp] theorem updDie_pan (d : Nat) (f : Die → Die) (s : State) : (updDie d f s).pan = s.pan := rfl
@[simp] theorem updDie_panOf (d : Nat) (f : Die → Die) (s : State) (x y : Nat) : (updDie d f s).panOf x y = s.panOf x y := rfl
@[simp] theorem updDie_opq (d : Nat) (f : Die → Die) (s : State) : (updDie d f s).opq = s.opq := rfl
@[simp] theorem updDie_opOf (d : Nat) (f : Die → Die) (s : State) (x y : Nat) : (updDie d f s).opOf x y = s.opOf x y := rfl
@[simp] theorem updDie_chan (d : Nat) (f : Die → Die) (s : State) : (updDie d f s).chan = s.chan := rfl
@[simp] theorem updDie_chanOf (d : Nat) (f : Die → Die) (s : State) (x : Nat) : (updDie d f s).chanOf x = s.chanOf x := rfl
@[simp] theorem updDie_bankA (d : Nat) (f : Die → Die) (s : State) : (updDie d f s).bankA = s.bankA := rfl
@[simp] theorem updDie_bankB (d : Nat) (f : Die → Die) (s : State) : (updDie d f s).bankB = s.bankB := rfl
@[simp] theorem updDie_active (d : Nat) (f : Die → Die) (s : State) : (updDie d f s).active = s.active := rfl
@[simp] theorem updDie_fdrMon (d : Nat) (f : Die → Die) (s : State) : (updDie d f s).fdrMon = s.fdrMon := rfl
@[simp] theorem updDie_monOf (d : Nat) (f : Die → Die) (s : State) (x : Nat) : (updDie d f s).monOf x = s.monOf x := rfl
@[simp] theorem updDie_roundOpen (d : Nat) (f : Die → Die) (s : State) : (updDie d f s).roundOpen = s.roundOpen := rfl
@[simp] theorem updDie_switchUs (d : Nat) (f : Die → Die) (s : State) : (updDie d f s).switchUs = s.switchUs := rfl
@[simp] theorem updDie_crs (d : Nat) (f : Die → Die) (s : State) : (updDie d f s).crs = s.crs := rfl
@[simp] theorem updDie_crsOf (d : Nat) (f : Die → Die) (s : State) (x : Nat) : (updDie d f s).crsOf x = s.crsOf x := rfl
@[simp] theorem updDie_mbx (d : Nat) (f : Die → Die) (s : State) : (updDie d f s).mbx = s.mbx := rfl
@[simp] theorem updDie_mbxOf (d : Nat) (f : Die → Die) (s : State) (x y : Nat) : (updDie d f s).mbxOf x y = s.mbxOf x y := rfl
@[simp] theorem updDie_lnk (d : Nat) (f : Die → Die) (s : State) : (updDie d f s).lnk = s.lnk := rfl
@[simp] theorem updDie_chainOf (d : Nat) (f : Die → Die) (s : State) (x : Nat) : (updDie d f s).chainOf x = s.chainOf x := rfl
@[simp] theorem updDie_enum (d : Nat) (f : Die → Die) (s : State) : (updDie d f s).enum = s.enum := rfl
@[simp] theorem updDie_twm (d : Nat) (f : Die → Die) (s : State) : (updDie d f s).twm = s.twm := rfl
@[simp] theorem updDie_adc (d : Nat) (f : Die → Die) (s : State) : (updDie d f s).adc = s.adc := rfl
@[simp] theorem updDie_adcOf (d : Nat) (f : Die → Die) (s : State) (x : Nat) : (updDie d f s).adcOf x = s.adcOf x := rfl
@[simp] theorem updDie_scan (d : Nat) (f : Die → Die) (s : State) : (updDie d f s).scan = s.scan := rfl
@[simp] theorem updDie_scanOf (d : Nat) (f : Die → Die) (s : State) (x : Nat) : (updDie d f s).scanOf x = s.scanOf x := rfl
@[simp] theorem updDie_scrubs (d : Nat) (f : Die → Die) (s : State) : (updDie d f s).scrubs = s.scrubs := rfl
@[simp] theorem updDie_scrubStart (d : Nat) (f : Die → Die) (s : State) : (updDie d f s).scrubStart = s.scrubStart := rfl
@[simp] theorem updDie_ceSecond (d : Nat) (f : Die → Die) (s : State) : (updDie d f s).ceSecond = s.ceSecond := rfl
@[simp] theorem updDie_harv (d : Nat) (f : Die → Die) (s : State) : (updDie d f s).harv = s.harv := rfl
@[simp] theorem updDie_harvOf (d : Nat) (f : Die → Die) (s : State) (x : Nat) : (updDie d f s).harvOf x = s.harvOf x := rfl
@[simp] theorem updDie_fharv (d : Nat) (f : Die → Die) (s : State) : (updDie d f s).fharv = s.fharv := rfl
@[simp] theorem updDie_fharvOf (d : Nat) (f : Die → Die) (s : State) (x : Nat) : (updDie d f s).fharvOf x = s.fharvOf x := rfl
@[simp] theorem updDie_hrvCyc (d : Nat) (f : Die → Die) (s : State) : (updDie d f s).hrvCyc = s.hrvCyc := rfl
@[simp] theorem updDie_clk (d : Nat) (f : Die → Die) (s : State) : (updDie d f s).clk = s.clk := rfl
@[simp] theorem updDie_adm (d : Nat) (f : Die → Die) (s : State) : (updDie d f s).adm = s.adm := rfl
@[simp] theorem updDie_saved (d : Nat) (f : Die → Die) (s : State) : (updDie d f s).saved = s.saved := rfl
@[simp] theorem updDie_log (d : Nat) (f : Die → Die) (s : State) : (updDie d f s).log = s.log := rfl
@[simp] theorem updDie_nvmA (d : Nat) (f : Die → Die) (s : State) : (updDie d f s).nvmA = s.nvmA := rfl
@[simp] theorem updDie_nvmB (d : Nat) (f : Die → Die) (s : State) : (updDie d f s).nvmB = s.nvmB := rfl
@[simp] theorem updDie_boot (d : Nat) (f : Die → Die) (s : State) : (updDie d f s).boot = s.boot := rfl
@[simp] theorem updDie_fuse (d : Nat) (f : Die → Die) (s : State) : (updDie d f s).fuse = s.fuse := rfl
@[simp] theorem updDie_weak (d : Nat) (f : Die → Die) (s : State) : (updDie d f s).weak = s.weak := rfl
@[simp] theorem updDie_otp (d : Nat) (f : Die → Die) (s : State) : (updDie d f s).otp = s.otp := rfl
@[simp] theorem updDie_upd (d : Nat) (f : Die → Die) (s : State) : (updDie d f s).upd = s.upd := rfl
@[simp] theorem updDie_tap (d : Nat) (f : Die → Die) (s : State) : (updDie d f s).tap = s.tap := rfl
@[simp] theorem updDie_bsr (d : Nat) (f : Die → Die) (s : State) : (updDie d f s).bsr = s.bsr := rfl
@[simp] theorem updDie_tdo (d : Nat) (f : Die → Die) (s : State) : (updDie d f s).tdo = s.tdo := rfl
@[simp] theorem updDie_bus (d : Nat) (f : Die → Die) (s : State) : (updDie d f s).bus = s.bus := rfl
@[simp] theorem updDie_block (d : Nat) (f : Die → Die) (s : State) : (updDie d f s).block = s.block := rfl
@[simp] theorem updDie_fresh (d : Nat) (f : Die → Die) (s : State) : (updDie d f s).fresh = s.fresh := rfl
@[simp] theorem updDie_clock (d : Nat) (f : Die → Die) (s : State) : (updDie d f s).clock = s.clock := rfl
@[simp] theorem updDie_pending (d : Nat) (f : Die → Die) (s : State) : (updDie d f s).pending = s.pending := rfl

@[simp] theorem updMon_regs (n : Nat) (g : FdrMon → FdrMon) (s : State) : (updMon n g s).regs = s.regs := rfl
@[simp] theorem updMon_reg (n : Nat) (g : FdrMon → FdrMon) (s : State) (x : Nat) : (updMon n g s).reg x = s.reg x := rfl
@[simp] theorem updMon_dieRegs (n : Nat) (g : FdrMon → FdrMon) (s : State) : (updMon n g s).dieRegs = s.dieRegs := rfl
@[simp] theorem updMon_dreg (n : Nat) (g : FdrMon → FdrMon) (s : State) (x : Nat) : (updMon n g s).dreg x = s.dreg x := rfl
@[simp] theorem updMon_prec (n : Nat) (g : FdrMon → FdrMon) (s : State) : (updMon n g s).prec = s.prec := rfl
@[simp] theorem updMon_recOf (n : Nat) (g : FdrMon → FdrMon) (s : State) (x y : Nat) : (updMon n g s).recOf x y = s.recOf x y := rfl
@[simp] theorem updMon_mem (n : Nat) (g : FdrMon → FdrMon) (s : State) : (updMon n g s).mem = s.mem := rfl
@[simp] theorem updMon_byteAt (n : Nat) (g : FdrMon → FdrMon) (s : State) (x y : Nat) : (updMon n g s).byteAt x y = s.byteAt x y := rfl
@[simp] theorem updMon_ecc (n : Nat) (g : FdrMon → FdrMon) (s : State) : (updMon n g s).ecc = s.ecc := rfl
@[simp] theorem updMon_wordErr (n : Nat) (g : FdrMon → FdrMon) (s : State) (x y : Nat) : (updMon n g s).wordErr x y = s.wordErr x y := rfl
@[simp] theorem updMon_tb (n : Nat) (g : FdrMon → FdrMon) (s : State) : (updMon n g s).tb = s.tb := rfl
@[simp] theorem updMon_timer (n : Nat) (g : FdrMon → FdrMon) (s : State) : (updMon n g s).timer = s.timer := rfl
@[simp] theorem updMon_timerOf (n : Nat) (g : FdrMon → FdrMon) (s : State) (x : Nat) : (updMon n g s).timerOf x = s.timerOf x := rfl
@[simp] theorem updMon_portEv (n : Nat) (g : FdrMon → FdrMon) (s : State) : (updMon n g s).portEv = s.portEv := rfl
@[simp] theorem updMon_xat (n : Nat) (g : FdrMon → FdrMon) (s : State) : (updMon n g s).xat = s.xat := rfl
@[simp] theorem updMon_port (n : Nat) (g : FdrMon → FdrMon) (s : State) : (updMon n g s).port = s.port := rfl
@[simp] theorem updMon_portOf (n : Nat) (g : FdrMon → FdrMon) (s : State) (x : Nat) : (updMon n g s).portOf x = s.portOf x := rfl
@[simp] theorem updMon_mir (n : Nat) (g : FdrMon → FdrMon) (s : State) : (updMon n g s).mir = s.mir := rfl
@[simp] theorem updMon_mirOf (n : Nat) (g : FdrMon → FdrMon) (s : State) (x : Nat) : (updMon n g s).mirOf x = s.mirOf x := rfl
@[simp] theorem updMon_phy (n : Nat) (g : FdrMon → FdrMon) (s : State) : (updMon n g s).phy = s.phy := rfl
@[simp] theorem updMon_phyOf (n : Nat) (g : FdrMon → FdrMon) (s : State) (x : Nat) : (updMon n g s).phyOf x = s.phyOf x := rfl
@[simp] theorem updMon_hub (n : Nat) (g : FdrMon → FdrMon) (s : State) : (updMon n g s).hub = s.hub := rfl
@[simp] theorem updMon_hubOf (n : Nat) (g : FdrMon → FdrMon) (s : State) (x : Nat) : (updMon n g s).hubOf x = s.hubOf x := rfl
@[simp] theorem updMon_fw (n : Nat) (g : FdrMon → FdrMon) (s : State) : (updMon n g s).fw = s.fw := rfl
@[simp] theorem updMon_fwOf (n : Nat) (g : FdrMon → FdrMon) (s : State) (x : Nat) : (updMon n g s).fwOf x = s.fwOf x := rfl
@[simp] theorem updMon_ctx (n : Nat) (g : FdrMon → FdrMon) (s : State) : (updMon n g s).ctx = s.ctx := rfl
@[simp] theorem updMon_ctxOf (n : Nat) (g : FdrMon → FdrMon) (s : State) (x y : Nat) : (updMon n g s).ctxOf x y = s.ctxOf x y := rfl
@[simp] theorem updMon_pan (n : Nat) (g : FdrMon → FdrMon) (s : State) : (updMon n g s).pan = s.pan := rfl
@[simp] theorem updMon_panOf (n : Nat) (g : FdrMon → FdrMon) (s : State) (x y : Nat) : (updMon n g s).panOf x y = s.panOf x y := rfl
@[simp] theorem updMon_opq (n : Nat) (g : FdrMon → FdrMon) (s : State) : (updMon n g s).opq = s.opq := rfl
@[simp] theorem updMon_opOf (n : Nat) (g : FdrMon → FdrMon) (s : State) (x y : Nat) : (updMon n g s).opOf x y = s.opOf x y := rfl
@[simp] theorem updMon_chan (n : Nat) (g : FdrMon → FdrMon) (s : State) : (updMon n g s).chan = s.chan := rfl
@[simp] theorem updMon_chanOf (n : Nat) (g : FdrMon → FdrMon) (s : State) (x : Nat) : (updMon n g s).chanOf x = s.chanOf x := rfl
@[simp] theorem updMon_bankA (n : Nat) (g : FdrMon → FdrMon) (s : State) : (updMon n g s).bankA = s.bankA := rfl
@[simp] theorem updMon_bankB (n : Nat) (g : FdrMon → FdrMon) (s : State) : (updMon n g s).bankB = s.bankB := rfl
@[simp] theorem updMon_active (n : Nat) (g : FdrMon → FdrMon) (s : State) : (updMon n g s).active = s.active := rfl
@[simp] theorem updMon_roundOpen (n : Nat) (g : FdrMon → FdrMon) (s : State) : (updMon n g s).roundOpen = s.roundOpen := rfl
@[simp] theorem updMon_switchUs (n : Nat) (g : FdrMon → FdrMon) (s : State) : (updMon n g s).switchUs = s.switchUs := rfl
@[simp] theorem updMon_die (n : Nat) (g : FdrMon → FdrMon) (s : State) : (updMon n g s).die = s.die := rfl
@[simp] theorem updMon_dieOf (n : Nat) (g : FdrMon → FdrMon) (s : State) (x : Nat) : (updMon n g s).dieOf x = s.dieOf x := rfl
@[simp] theorem updMon_crs (n : Nat) (g : FdrMon → FdrMon) (s : State) : (updMon n g s).crs = s.crs := rfl
@[simp] theorem updMon_crsOf (n : Nat) (g : FdrMon → FdrMon) (s : State) (x : Nat) : (updMon n g s).crsOf x = s.crsOf x := rfl
@[simp] theorem updMon_mbx (n : Nat) (g : FdrMon → FdrMon) (s : State) : (updMon n g s).mbx = s.mbx := rfl
@[simp] theorem updMon_mbxOf (n : Nat) (g : FdrMon → FdrMon) (s : State) (x y : Nat) : (updMon n g s).mbxOf x y = s.mbxOf x y := rfl
@[simp] theorem updMon_lnk (n : Nat) (g : FdrMon → FdrMon) (s : State) : (updMon n g s).lnk = s.lnk := rfl
@[simp] theorem updMon_chainOf (n : Nat) (g : FdrMon → FdrMon) (s : State) (x : Nat) : (updMon n g s).chainOf x = s.chainOf x := rfl
@[simp] theorem updMon_enum (n : Nat) (g : FdrMon → FdrMon) (s : State) : (updMon n g s).enum = s.enum := rfl
@[simp] theorem updMon_twm (n : Nat) (g : FdrMon → FdrMon) (s : State) : (updMon n g s).twm = s.twm := rfl
@[simp] theorem updMon_adc (n : Nat) (g : FdrMon → FdrMon) (s : State) : (updMon n g s).adc = s.adc := rfl
@[simp] theorem updMon_adcOf (n : Nat) (g : FdrMon → FdrMon) (s : State) (x : Nat) : (updMon n g s).adcOf x = s.adcOf x := rfl
@[simp] theorem updMon_scan (n : Nat) (g : FdrMon → FdrMon) (s : State) : (updMon n g s).scan = s.scan := rfl
@[simp] theorem updMon_scanOf (n : Nat) (g : FdrMon → FdrMon) (s : State) (x : Nat) : (updMon n g s).scanOf x = s.scanOf x := rfl
@[simp] theorem updMon_scrubs (n : Nat) (g : FdrMon → FdrMon) (s : State) : (updMon n g s).scrubs = s.scrubs := rfl
@[simp] theorem updMon_scrubStart (n : Nat) (g : FdrMon → FdrMon) (s : State) : (updMon n g s).scrubStart = s.scrubStart := rfl
@[simp] theorem updMon_ceSecond (n : Nat) (g : FdrMon → FdrMon) (s : State) : (updMon n g s).ceSecond = s.ceSecond := rfl
@[simp] theorem updMon_harv (n : Nat) (g : FdrMon → FdrMon) (s : State) : (updMon n g s).harv = s.harv := rfl
@[simp] theorem updMon_harvOf (n : Nat) (g : FdrMon → FdrMon) (s : State) (x : Nat) : (updMon n g s).harvOf x = s.harvOf x := rfl
@[simp] theorem updMon_fharv (n : Nat) (g : FdrMon → FdrMon) (s : State) : (updMon n g s).fharv = s.fharv := rfl
@[simp] theorem updMon_fharvOf (n : Nat) (g : FdrMon → FdrMon) (s : State) (x : Nat) : (updMon n g s).fharvOf x = s.fharvOf x := rfl
@[simp] theorem updMon_hrvCyc (n : Nat) (g : FdrMon → FdrMon) (s : State) : (updMon n g s).hrvCyc = s.hrvCyc := rfl
@[simp] theorem updMon_clk (n : Nat) (g : FdrMon → FdrMon) (s : State) : (updMon n g s).clk = s.clk := rfl
@[simp] theorem updMon_adm (n : Nat) (g : FdrMon → FdrMon) (s : State) : (updMon n g s).adm = s.adm := rfl
@[simp] theorem updMon_saved (n : Nat) (g : FdrMon → FdrMon) (s : State) : (updMon n g s).saved = s.saved := rfl
@[simp] theorem updMon_log (n : Nat) (g : FdrMon → FdrMon) (s : State) : (updMon n g s).log = s.log := rfl
@[simp] theorem updMon_nvmA (n : Nat) (g : FdrMon → FdrMon) (s : State) : (updMon n g s).nvmA = s.nvmA := rfl
@[simp] theorem updMon_nvmB (n : Nat) (g : FdrMon → FdrMon) (s : State) : (updMon n g s).nvmB = s.nvmB := rfl
@[simp] theorem updMon_boot (n : Nat) (g : FdrMon → FdrMon) (s : State) : (updMon n g s).boot = s.boot := rfl
@[simp] theorem updMon_fuse (n : Nat) (g : FdrMon → FdrMon) (s : State) : (updMon n g s).fuse = s.fuse := rfl
@[simp] theorem updMon_weak (n : Nat) (g : FdrMon → FdrMon) (s : State) : (updMon n g s).weak = s.weak := rfl
@[simp] theorem updMon_otp (n : Nat) (g : FdrMon → FdrMon) (s : State) : (updMon n g s).otp = s.otp := rfl
@[simp] theorem updMon_upd (n : Nat) (g : FdrMon → FdrMon) (s : State) : (updMon n g s).upd = s.upd := rfl
@[simp] theorem updMon_tap (n : Nat) (g : FdrMon → FdrMon) (s : State) : (updMon n g s).tap = s.tap := rfl
@[simp] theorem updMon_bsr (n : Nat) (g : FdrMon → FdrMon) (s : State) : (updMon n g s).bsr = s.bsr := rfl
@[simp] theorem updMon_tdo (n : Nat) (g : FdrMon → FdrMon) (s : State) : (updMon n g s).tdo = s.tdo := rfl
@[simp] theorem updMon_bus (n : Nat) (g : FdrMon → FdrMon) (s : State) : (updMon n g s).bus = s.bus := rfl
@[simp] theorem updMon_block (n : Nat) (g : FdrMon → FdrMon) (s : State) : (updMon n g s).block = s.block := rfl
@[simp] theorem updMon_fresh (n : Nat) (g : FdrMon → FdrMon) (s : State) : (updMon n g s).fresh = s.fresh := rfl
@[simp] theorem updMon_clock (n : Nat) (g : FdrMon → FdrMon) (s : State) : (updMon n g s).clock = s.clock := rfl
@[simp] theorem updMon_pending (n : Nat) (g : FdrMon → FdrMon) (s : State) : (updMon n g s).pending = s.pending := rfl

@[simp] theorem setRec_regs (p w : Nat) (v : Word) (s : State) : (setRec p w v s).regs = s.regs := rfl
@[simp] theorem setRec_reg (p w : Nat) (v : Word) (s : State) (x : Nat) : (setRec p w v s).reg x = s.reg x := rfl
@[simp] theorem setRec_dieRegs (p w : Nat) (v : Word) (s : State) : (setRec p w v s).dieRegs = s.dieRegs := rfl
@[simp] theorem setRec_dreg (p w : Nat) (v : Word) (s : State) (x : Nat) : (setRec p w v s).dreg x = s.dreg x := rfl
@[simp] theorem setRec_mem (p w : Nat) (v : Word) (s : State) : (setRec p w v s).mem = s.mem := rfl
@[simp] theorem setRec_byteAt (p w : Nat) (v : Word) (s : State) (x y : Nat) : (setRec p w v s).byteAt x y = s.byteAt x y := rfl
@[simp] theorem setRec_ecc (p w : Nat) (v : Word) (s : State) : (setRec p w v s).ecc = s.ecc := rfl
@[simp] theorem setRec_wordErr (p w : Nat) (v : Word) (s : State) (x y : Nat) : (setRec p w v s).wordErr x y = s.wordErr x y := rfl
@[simp] theorem setRec_tb (p w : Nat) (v : Word) (s : State) : (setRec p w v s).tb = s.tb := rfl
@[simp] theorem setRec_timer (p w : Nat) (v : Word) (s : State) : (setRec p w v s).timer = s.timer := rfl
@[simp] theorem setRec_timerOf (p w : Nat) (v : Word) (s : State) (x : Nat) : (setRec p w v s).timerOf x = s.timerOf x := rfl
@[simp] theorem setRec_portEv (p w : Nat) (v : Word) (s : State) : (setRec p w v s).portEv = s.portEv := rfl
@[simp] theorem setRec_xat (p w : Nat) (v : Word) (s : State) : (setRec p w v s).xat = s.xat := rfl
@[simp] theorem setRec_port (p w : Nat) (v : Word) (s : State) : (setRec p w v s).port = s.port := rfl
@[simp] theorem setRec_portOf (p w : Nat) (v : Word) (s : State) (x : Nat) : (setRec p w v s).portOf x = s.portOf x := rfl
@[simp] theorem setRec_mir (p w : Nat) (v : Word) (s : State) : (setRec p w v s).mir = s.mir := rfl
@[simp] theorem setRec_mirOf (p w : Nat) (v : Word) (s : State) (x : Nat) : (setRec p w v s).mirOf x = s.mirOf x := rfl
@[simp] theorem setRec_phy (p w : Nat) (v : Word) (s : State) : (setRec p w v s).phy = s.phy := rfl
@[simp] theorem setRec_phyOf (p w : Nat) (v : Word) (s : State) (x : Nat) : (setRec p w v s).phyOf x = s.phyOf x := rfl
@[simp] theorem setRec_hub (p w : Nat) (v : Word) (s : State) : (setRec p w v s).hub = s.hub := rfl
@[simp] theorem setRec_hubOf (p w : Nat) (v : Word) (s : State) (x : Nat) : (setRec p w v s).hubOf x = s.hubOf x := rfl
@[simp] theorem setRec_fw (p w : Nat) (v : Word) (s : State) : (setRec p w v s).fw = s.fw := rfl
@[simp] theorem setRec_fwOf (p w : Nat) (v : Word) (s : State) (x : Nat) : (setRec p w v s).fwOf x = s.fwOf x := rfl
@[simp] theorem setRec_ctx (p w : Nat) (v : Word) (s : State) : (setRec p w v s).ctx = s.ctx := rfl
@[simp] theorem setRec_ctxOf (p w : Nat) (v : Word) (s : State) (x y : Nat) : (setRec p w v s).ctxOf x y = s.ctxOf x y := rfl
@[simp] theorem setRec_pan (p w : Nat) (v : Word) (s : State) : (setRec p w v s).pan = s.pan := rfl
@[simp] theorem setRec_panOf (p w : Nat) (v : Word) (s : State) (x y : Nat) : (setRec p w v s).panOf x y = s.panOf x y := rfl
@[simp] theorem setRec_opq (p w : Nat) (v : Word) (s : State) : (setRec p w v s).opq = s.opq := rfl
@[simp] theorem setRec_opOf (p w : Nat) (v : Word) (s : State) (x y : Nat) : (setRec p w v s).opOf x y = s.opOf x y := rfl
@[simp] theorem setRec_chan (p w : Nat) (v : Word) (s : State) : (setRec p w v s).chan = s.chan := rfl
@[simp] theorem setRec_chanOf (p w : Nat) (v : Word) (s : State) (x : Nat) : (setRec p w v s).chanOf x = s.chanOf x := rfl
@[simp] theorem setRec_bankA (p w : Nat) (v : Word) (s : State) : (setRec p w v s).bankA = s.bankA := rfl
@[simp] theorem setRec_bankB (p w : Nat) (v : Word) (s : State) : (setRec p w v s).bankB = s.bankB := rfl
@[simp] theorem setRec_active (p w : Nat) (v : Word) (s : State) : (setRec p w v s).active = s.active := rfl
@[simp] theorem setRec_fdrMon (p w : Nat) (v : Word) (s : State) : (setRec p w v s).fdrMon = s.fdrMon := rfl
@[simp] theorem setRec_monOf (p w : Nat) (v : Word) (s : State) (x : Nat) : (setRec p w v s).monOf x = s.monOf x := rfl
@[simp] theorem setRec_roundOpen (p w : Nat) (v : Word) (s : State) : (setRec p w v s).roundOpen = s.roundOpen := rfl
@[simp] theorem setRec_switchUs (p w : Nat) (v : Word) (s : State) : (setRec p w v s).switchUs = s.switchUs := rfl
@[simp] theorem setRec_die (p w : Nat) (v : Word) (s : State) : (setRec p w v s).die = s.die := rfl
@[simp] theorem setRec_dieOf (p w : Nat) (v : Word) (s : State) (x : Nat) : (setRec p w v s).dieOf x = s.dieOf x := rfl
@[simp] theorem setRec_crs (p w : Nat) (v : Word) (s : State) : (setRec p w v s).crs = s.crs := rfl
@[simp] theorem setRec_crsOf (p w : Nat) (v : Word) (s : State) (x : Nat) : (setRec p w v s).crsOf x = s.crsOf x := rfl
@[simp] theorem setRec_mbx (p w : Nat) (v : Word) (s : State) : (setRec p w v s).mbx = s.mbx := rfl
@[simp] theorem setRec_mbxOf (p w : Nat) (v : Word) (s : State) (x y : Nat) : (setRec p w v s).mbxOf x y = s.mbxOf x y := rfl
@[simp] theorem setRec_lnk (p w : Nat) (v : Word) (s : State) : (setRec p w v s).lnk = s.lnk := rfl
@[simp] theorem setRec_chainOf (p w : Nat) (v : Word) (s : State) (x : Nat) : (setRec p w v s).chainOf x = s.chainOf x := rfl
@[simp] theorem setRec_enum (p w : Nat) (v : Word) (s : State) : (setRec p w v s).enum = s.enum := rfl
@[simp] theorem setRec_twm (p w : Nat) (v : Word) (s : State) : (setRec p w v s).twm = s.twm := rfl
@[simp] theorem setRec_adc (p w : Nat) (v : Word) (s : State) : (setRec p w v s).adc = s.adc := rfl
@[simp] theorem setRec_adcOf (p w : Nat) (v : Word) (s : State) (x : Nat) : (setRec p w v s).adcOf x = s.adcOf x := rfl
@[simp] theorem setRec_scan (p w : Nat) (v : Word) (s : State) : (setRec p w v s).scan = s.scan := rfl
@[simp] theorem setRec_scanOf (p w : Nat) (v : Word) (s : State) (x : Nat) : (setRec p w v s).scanOf x = s.scanOf x := rfl
@[simp] theorem setRec_scrubs (p w : Nat) (v : Word) (s : State) : (setRec p w v s).scrubs = s.scrubs := rfl
@[simp] theorem setRec_scrubStart (p w : Nat) (v : Word) (s : State) : (setRec p w v s).scrubStart = s.scrubStart := rfl
@[simp] theorem setRec_ceSecond (p w : Nat) (v : Word) (s : State) : (setRec p w v s).ceSecond = s.ceSecond := rfl
@[simp] theorem setRec_harv (p w : Nat) (v : Word) (s : State) : (setRec p w v s).harv = s.harv := rfl
@[simp] theorem setRec_harvOf (p w : Nat) (v : Word) (s : State) (x : Nat) : (setRec p w v s).harvOf x = s.harvOf x := rfl
@[simp] theorem setRec_fharv (p w : Nat) (v : Word) (s : State) : (setRec p w v s).fharv = s.fharv := rfl
@[simp] theorem setRec_fharvOf (p w : Nat) (v : Word) (s : State) (x : Nat) : (setRec p w v s).fharvOf x = s.fharvOf x := rfl
@[simp] theorem setRec_hrvCyc (p w : Nat) (v : Word) (s : State) : (setRec p w v s).hrvCyc = s.hrvCyc := rfl
@[simp] theorem setRec_clk (p w : Nat) (v : Word) (s : State) : (setRec p w v s).clk = s.clk := rfl
@[simp] theorem setRec_adm (p w : Nat) (v : Word) (s : State) : (setRec p w v s).adm = s.adm := rfl
@[simp] theorem setRec_saved (p w : Nat) (v : Word) (s : State) : (setRec p w v s).saved = s.saved := rfl
@[simp] theorem setRec_log (p w : Nat) (v : Word) (s : State) : (setRec p w v s).log = s.log := rfl
@[simp] theorem setRec_nvmA (p w : Nat) (v : Word) (s : State) : (setRec p w v s).nvmA = s.nvmA := rfl
@[simp] theorem setRec_nvmB (p w : Nat) (v : Word) (s : State) : (setRec p w v s).nvmB = s.nvmB := rfl
@[simp] theorem setRec_boot (p w : Nat) (v : Word) (s : State) : (setRec p w v s).boot = s.boot := rfl
@[simp] theorem setRec_fuse (p w : Nat) (v : Word) (s : State) : (setRec p w v s).fuse = s.fuse := rfl
@[simp] theorem setRec_weak (p w : Nat) (v : Word) (s : State) : (setRec p w v s).weak = s.weak := rfl
@[simp] theorem setRec_otp (p w : Nat) (v : Word) (s : State) : (setRec p w v s).otp = s.otp := rfl
@[simp] theorem setRec_upd (p w : Nat) (v : Word) (s : State) : (setRec p w v s).upd = s.upd := rfl
@[simp] theorem setRec_tap (p w : Nat) (v : Word) (s : State) : (setRec p w v s).tap = s.tap := rfl
@[simp] theorem setRec_bsr (p w : Nat) (v : Word) (s : State) : (setRec p w v s).bsr = s.bsr := rfl
@[simp] theorem setRec_tdo (p w : Nat) (v : Word) (s : State) : (setRec p w v s).tdo = s.tdo := rfl
@[simp] theorem setRec_bus (p w : Nat) (v : Word) (s : State) : (setRec p w v s).bus = s.bus := rfl
@[simp] theorem setRec_block (p w : Nat) (v : Word) (s : State) : (setRec p w v s).block = s.block := rfl
@[simp] theorem setRec_fresh (p w : Nat) (v : Word) (s : State) : (setRec p w v s).fresh = s.fresh := rfl
@[simp] theorem setRec_clock (p w : Nat) (v : Word) (s : State) : (setRec p w v s).clock = s.clock := rfl
@[simp] theorem setRec_pending (p w : Nat) (v : Word) (s : State) : (setRec p w v s).pending = s.pending := rfl

@[simp] theorem updCrs_regs (c : Nat) (f : Course → Course) (s : State) : (updCrs c f s).regs = s.regs := rfl
@[simp] theorem updCrs_reg (c : Nat) (f : Course → Course) (s : State) (x : Nat) : (updCrs c f s).reg x = s.reg x := rfl
@[simp] theorem updCrs_dieRegs (c : Nat) (f : Course → Course) (s : State) : (updCrs c f s).dieRegs = s.dieRegs := rfl
@[simp] theorem updCrs_dreg (c : Nat) (f : Course → Course) (s : State) (x : Nat) : (updCrs c f s).dreg x = s.dreg x := rfl
@[simp] theorem updCrs_prec (c : Nat) (f : Course → Course) (s : State) : (updCrs c f s).prec = s.prec := rfl
@[simp] theorem updCrs_recOf (c : Nat) (f : Course → Course) (s : State) (x y : Nat) : (updCrs c f s).recOf x y = s.recOf x y := rfl
@[simp] theorem updCrs_mem (c : Nat) (f : Course → Course) (s : State) : (updCrs c f s).mem = s.mem := rfl
@[simp] theorem updCrs_byteAt (c : Nat) (f : Course → Course) (s : State) (x y : Nat) : (updCrs c f s).byteAt x y = s.byteAt x y := rfl
@[simp] theorem updCrs_ecc (c : Nat) (f : Course → Course) (s : State) : (updCrs c f s).ecc = s.ecc := rfl
@[simp] theorem updCrs_wordErr (c : Nat) (f : Course → Course) (s : State) (x y : Nat) : (updCrs c f s).wordErr x y = s.wordErr x y := rfl
@[simp] theorem updCrs_tb (c : Nat) (f : Course → Course) (s : State) : (updCrs c f s).tb = s.tb := rfl
@[simp] theorem updCrs_timer (c : Nat) (f : Course → Course) (s : State) : (updCrs c f s).timer = s.timer := rfl
@[simp] theorem updCrs_timerOf (c : Nat) (f : Course → Course) (s : State) (x : Nat) : (updCrs c f s).timerOf x = s.timerOf x := rfl
@[simp] theorem updCrs_portEv (c : Nat) (f : Course → Course) (s : State) : (updCrs c f s).portEv = s.portEv := rfl
@[simp] theorem updCrs_xat (c : Nat) (f : Course → Course) (s : State) : (updCrs c f s).xat = s.xat := rfl
@[simp] theorem updCrs_port (c : Nat) (f : Course → Course) (s : State) : (updCrs c f s).port = s.port := rfl
@[simp] theorem updCrs_portOf (c : Nat) (f : Course → Course) (s : State) (x : Nat) : (updCrs c f s).portOf x = s.portOf x := rfl
@[simp] theorem updCrs_mir (c : Nat) (f : Course → Course) (s : State) : (updCrs c f s).mir = s.mir := rfl
@[simp] theorem updCrs_mirOf (c : Nat) (f : Course → Course) (s : State) (x : Nat) : (updCrs c f s).mirOf x = s.mirOf x := rfl
@[simp] theorem updCrs_phy (c : Nat) (f : Course → Course) (s : State) : (updCrs c f s).phy = s.phy := rfl
@[simp] theorem updCrs_phyOf (c : Nat) (f : Course → Course) (s : State) (x : Nat) : (updCrs c f s).phyOf x = s.phyOf x := rfl
@[simp] theorem updCrs_hub (c : Nat) (f : Course → Course) (s : State) : (updCrs c f s).hub = s.hub := rfl
@[simp] theorem updCrs_hubOf (c : Nat) (f : Course → Course) (s : State) (x : Nat) : (updCrs c f s).hubOf x = s.hubOf x := rfl
@[simp] theorem updCrs_fw (c : Nat) (f : Course → Course) (s : State) : (updCrs c f s).fw = s.fw := rfl
@[simp] theorem updCrs_fwOf (c : Nat) (f : Course → Course) (s : State) (x : Nat) : (updCrs c f s).fwOf x = s.fwOf x := rfl
@[simp] theorem updCrs_ctx (c : Nat) (f : Course → Course) (s : State) : (updCrs c f s).ctx = s.ctx := rfl
@[simp] theorem updCrs_ctxOf (c : Nat) (f : Course → Course) (s : State) (x y : Nat) : (updCrs c f s).ctxOf x y = s.ctxOf x y := rfl
@[simp] theorem updCrs_pan (c : Nat) (f : Course → Course) (s : State) : (updCrs c f s).pan = s.pan := rfl
@[simp] theorem updCrs_panOf (c : Nat) (f : Course → Course) (s : State) (x y : Nat) : (updCrs c f s).panOf x y = s.panOf x y := rfl
@[simp] theorem updCrs_opq (c : Nat) (f : Course → Course) (s : State) : (updCrs c f s).opq = s.opq := rfl
@[simp] theorem updCrs_opOf (c : Nat) (f : Course → Course) (s : State) (x y : Nat) : (updCrs c f s).opOf x y = s.opOf x y := rfl
@[simp] theorem updCrs_chan (c : Nat) (f : Course → Course) (s : State) : (updCrs c f s).chan = s.chan := rfl
@[simp] theorem updCrs_chanOf (c : Nat) (f : Course → Course) (s : State) (x : Nat) : (updCrs c f s).chanOf x = s.chanOf x := rfl
@[simp] theorem updCrs_bankA (c : Nat) (f : Course → Course) (s : State) : (updCrs c f s).bankA = s.bankA := rfl
@[simp] theorem updCrs_bankB (c : Nat) (f : Course → Course) (s : State) : (updCrs c f s).bankB = s.bankB := rfl
@[simp] theorem updCrs_active (c : Nat) (f : Course → Course) (s : State) : (updCrs c f s).active = s.active := rfl
@[simp] theorem updCrs_fdrMon (c : Nat) (f : Course → Course) (s : State) : (updCrs c f s).fdrMon = s.fdrMon := rfl
@[simp] theorem updCrs_monOf (c : Nat) (f : Course → Course) (s : State) (x : Nat) : (updCrs c f s).monOf x = s.monOf x := rfl
@[simp] theorem updCrs_roundOpen (c : Nat) (f : Course → Course) (s : State) : (updCrs c f s).roundOpen = s.roundOpen := rfl
@[simp] theorem updCrs_switchUs (c : Nat) (f : Course → Course) (s : State) : (updCrs c f s).switchUs = s.switchUs := rfl
@[simp] theorem updCrs_die (c : Nat) (f : Course → Course) (s : State) : (updCrs c f s).die = s.die := rfl
@[simp] theorem updCrs_dieOf (c : Nat) (f : Course → Course) (s : State) (x : Nat) : (updCrs c f s).dieOf x = s.dieOf x := rfl
@[simp] theorem updCrs_mbx (c : Nat) (f : Course → Course) (s : State) : (updCrs c f s).mbx = s.mbx := rfl
@[simp] theorem updCrs_mbxOf (c : Nat) (f : Course → Course) (s : State) (x y : Nat) : (updCrs c f s).mbxOf x y = s.mbxOf x y := rfl
@[simp] theorem updCrs_lnk (c : Nat) (f : Course → Course) (s : State) : (updCrs c f s).lnk = s.lnk := rfl
@[simp] theorem updCrs_chainOf (c : Nat) (f : Course → Course) (s : State) (x : Nat) : (updCrs c f s).chainOf x = s.chainOf x := rfl
@[simp] theorem updCrs_enum (c : Nat) (f : Course → Course) (s : State) : (updCrs c f s).enum = s.enum := rfl
@[simp] theorem updCrs_twm (c : Nat) (f : Course → Course) (s : State) : (updCrs c f s).twm = s.twm := rfl
@[simp] theorem updCrs_adc (c : Nat) (f : Course → Course) (s : State) : (updCrs c f s).adc = s.adc := rfl
@[simp] theorem updCrs_adcOf (c : Nat) (f : Course → Course) (s : State) (x : Nat) : (updCrs c f s).adcOf x = s.adcOf x := rfl
@[simp] theorem updCrs_scan (c : Nat) (f : Course → Course) (s : State) : (updCrs c f s).scan = s.scan := rfl
@[simp] theorem updCrs_scanOf (c : Nat) (f : Course → Course) (s : State) (x : Nat) : (updCrs c f s).scanOf x = s.scanOf x := rfl
@[simp] theorem updCrs_scrubs (c : Nat) (f : Course → Course) (s : State) : (updCrs c f s).scrubs = s.scrubs := rfl
@[simp] theorem updCrs_scrubStart (c : Nat) (f : Course → Course) (s : State) : (updCrs c f s).scrubStart = s.scrubStart := rfl
@[simp] theorem updCrs_ceSecond (c : Nat) (f : Course → Course) (s : State) : (updCrs c f s).ceSecond = s.ceSecond := rfl
@[simp] theorem updCrs_harv (c : Nat) (f : Course → Course) (s : State) : (updCrs c f s).harv = s.harv := rfl
@[simp] theorem updCrs_harvOf (c : Nat) (f : Course → Course) (s : State) (x : Nat) : (updCrs c f s).harvOf x = s.harvOf x := rfl
@[simp] theorem updCrs_fharv (c : Nat) (f : Course → Course) (s : State) : (updCrs c f s).fharv = s.fharv := rfl
@[simp] theorem updCrs_fharvOf (c : Nat) (f : Course → Course) (s : State) (x : Nat) : (updCrs c f s).fharvOf x = s.fharvOf x := rfl
@[simp] theorem updCrs_hrvCyc (c : Nat) (f : Course → Course) (s : State) : (updCrs c f s).hrvCyc = s.hrvCyc := rfl
@[simp] theorem updCrs_clk (c : Nat) (f : Course → Course) (s : State) : (updCrs c f s).clk = s.clk := rfl
@[simp] theorem updCrs_adm (c : Nat) (f : Course → Course) (s : State) : (updCrs c f s).adm = s.adm := rfl
@[simp] theorem updCrs_saved (c : Nat) (f : Course → Course) (s : State) : (updCrs c f s).saved = s.saved := rfl
@[simp] theorem updCrs_log (c : Nat) (f : Course → Course) (s : State) : (updCrs c f s).log = s.log := rfl
@[simp] theorem updCrs_nvmA (c : Nat) (f : Course → Course) (s : State) : (updCrs c f s).nvmA = s.nvmA := rfl
@[simp] theorem updCrs_nvmB (c : Nat) (f : Course → Course) (s : State) : (updCrs c f s).nvmB = s.nvmB := rfl
@[simp] theorem updCrs_boot (c : Nat) (f : Course → Course) (s : State) : (updCrs c f s).boot = s.boot := rfl
@[simp] theorem updCrs_fuse (c : Nat) (f : Course → Course) (s : State) : (updCrs c f s).fuse = s.fuse := rfl
@[simp] theorem updCrs_weak (c : Nat) (f : Course → Course) (s : State) : (updCrs c f s).weak = s.weak := rfl
@[simp] theorem updCrs_otp (c : Nat) (f : Course → Course) (s : State) : (updCrs c f s).otp = s.otp := rfl
@[simp] theorem updCrs_upd (c : Nat) (f : Course → Course) (s : State) : (updCrs c f s).upd = s.upd := rfl
@[simp] theorem updCrs_tap (c : Nat) (f : Course → Course) (s : State) : (updCrs c f s).tap = s.tap := rfl
@[simp] theorem updCrs_bsr (c : Nat) (f : Course → Course) (s : State) : (updCrs c f s).bsr = s.bsr := rfl
@[simp] theorem updCrs_tdo (c : Nat) (f : Course → Course) (s : State) : (updCrs c f s).tdo = s.tdo := rfl
@[simp] theorem updCrs_bus (c : Nat) (f : Course → Course) (s : State) : (updCrs c f s).bus = s.bus := rfl
@[simp] theorem updCrs_block (c : Nat) (f : Course → Course) (s : State) : (updCrs c f s).block = s.block := rfl
@[simp] theorem updCrs_fresh (c : Nat) (f : Course → Course) (s : State) : (updCrs c f s).fresh = s.fresh := rfl
@[simp] theorem updCrs_clock (c : Nat) (f : Course → Course) (s : State) : (updCrs c f s).clock = s.clock := rfl
@[simp] theorem updCrs_pending (c : Nat) (f : Course → Course) (s : State) : (updCrs c f s).pending = s.pending := rfl

@[simp] theorem setMbx_regs (c i : Nat) (e : Option MbxEntry) (s : State) : (setMbx c i e s).regs = s.regs := rfl
@[simp] theorem setMbx_reg (c i : Nat) (e : Option MbxEntry) (s : State) (x : Nat) : (setMbx c i e s).reg x = s.reg x := rfl
@[simp] theorem setMbx_dieRegs (c i : Nat) (e : Option MbxEntry) (s : State) : (setMbx c i e s).dieRegs = s.dieRegs := rfl
@[simp] theorem setMbx_dreg (c i : Nat) (e : Option MbxEntry) (s : State) (x : Nat) : (setMbx c i e s).dreg x = s.dreg x := rfl
@[simp] theorem setMbx_prec (c i : Nat) (e : Option MbxEntry) (s : State) : (setMbx c i e s).prec = s.prec := rfl
@[simp] theorem setMbx_recOf (c i : Nat) (e : Option MbxEntry) (s : State) (x y : Nat) : (setMbx c i e s).recOf x y = s.recOf x y := rfl
@[simp] theorem setMbx_mem (c i : Nat) (e : Option MbxEntry) (s : State) : (setMbx c i e s).mem = s.mem := rfl
@[simp] theorem setMbx_byteAt (c i : Nat) (e : Option MbxEntry) (s : State) (x y : Nat) : (setMbx c i e s).byteAt x y = s.byteAt x y := rfl
@[simp] theorem setMbx_ecc (c i : Nat) (e : Option MbxEntry) (s : State) : (setMbx c i e s).ecc = s.ecc := rfl
@[simp] theorem setMbx_wordErr (c i : Nat) (e : Option MbxEntry) (s : State) (x y : Nat) : (setMbx c i e s).wordErr x y = s.wordErr x y := rfl
@[simp] theorem setMbx_tb (c i : Nat) (e : Option MbxEntry) (s : State) : (setMbx c i e s).tb = s.tb := rfl
@[simp] theorem setMbx_timer (c i : Nat) (e : Option MbxEntry) (s : State) : (setMbx c i e s).timer = s.timer := rfl
@[simp] theorem setMbx_timerOf (c i : Nat) (e : Option MbxEntry) (s : State) (x : Nat) : (setMbx c i e s).timerOf x = s.timerOf x := rfl
@[simp] theorem setMbx_portEv (c i : Nat) (e : Option MbxEntry) (s : State) : (setMbx c i e s).portEv = s.portEv := rfl
@[simp] theorem setMbx_xat (c i : Nat) (e : Option MbxEntry) (s : State) : (setMbx c i e s).xat = s.xat := rfl
@[simp] theorem setMbx_port (c i : Nat) (e : Option MbxEntry) (s : State) : (setMbx c i e s).port = s.port := rfl
@[simp] theorem setMbx_portOf (c i : Nat) (e : Option MbxEntry) (s : State) (x : Nat) : (setMbx c i e s).portOf x = s.portOf x := rfl
@[simp] theorem setMbx_mir (c i : Nat) (e : Option MbxEntry) (s : State) : (setMbx c i e s).mir = s.mir := rfl
@[simp] theorem setMbx_mirOf (c i : Nat) (e : Option MbxEntry) (s : State) (x : Nat) : (setMbx c i e s).mirOf x = s.mirOf x := rfl
@[simp] theorem setMbx_phy (c i : Nat) (e : Option MbxEntry) (s : State) : (setMbx c i e s).phy = s.phy := rfl
@[simp] theorem setMbx_phyOf (c i : Nat) (e : Option MbxEntry) (s : State) (x : Nat) : (setMbx c i e s).phyOf x = s.phyOf x := rfl
@[simp] theorem setMbx_hub (c i : Nat) (e : Option MbxEntry) (s : State) : (setMbx c i e s).hub = s.hub := rfl
@[simp] theorem setMbx_hubOf (c i : Nat) (e : Option MbxEntry) (s : State) (x : Nat) : (setMbx c i e s).hubOf x = s.hubOf x := rfl
@[simp] theorem setMbx_fw (c i : Nat) (e : Option MbxEntry) (s : State) : (setMbx c i e s).fw = s.fw := rfl
@[simp] theorem setMbx_fwOf (c i : Nat) (e : Option MbxEntry) (s : State) (x : Nat) : (setMbx c i e s).fwOf x = s.fwOf x := rfl
@[simp] theorem setMbx_ctx (c i : Nat) (e : Option MbxEntry) (s : State) : (setMbx c i e s).ctx = s.ctx := rfl
@[simp] theorem setMbx_ctxOf (c i : Nat) (e : Option MbxEntry) (s : State) (x y : Nat) : (setMbx c i e s).ctxOf x y = s.ctxOf x y := rfl
@[simp] theorem setMbx_pan (c i : Nat) (e : Option MbxEntry) (s : State) : (setMbx c i e s).pan = s.pan := rfl
@[simp] theorem setMbx_panOf (c i : Nat) (e : Option MbxEntry) (s : State) (x y : Nat) : (setMbx c i e s).panOf x y = s.panOf x y := rfl
@[simp] theorem setMbx_opq (c i : Nat) (e : Option MbxEntry) (s : State) : (setMbx c i e s).opq = s.opq := rfl
@[simp] theorem setMbx_opOf (c i : Nat) (e : Option MbxEntry) (s : State) (x y : Nat) : (setMbx c i e s).opOf x y = s.opOf x y := rfl
@[simp] theorem setMbx_chan (c i : Nat) (e : Option MbxEntry) (s : State) : (setMbx c i e s).chan = s.chan := rfl
@[simp] theorem setMbx_chanOf (c i : Nat) (e : Option MbxEntry) (s : State) (x : Nat) : (setMbx c i e s).chanOf x = s.chanOf x := rfl
@[simp] theorem setMbx_bankA (c i : Nat) (e : Option MbxEntry) (s : State) : (setMbx c i e s).bankA = s.bankA := rfl
@[simp] theorem setMbx_bankB (c i : Nat) (e : Option MbxEntry) (s : State) : (setMbx c i e s).bankB = s.bankB := rfl
@[simp] theorem setMbx_active (c i : Nat) (e : Option MbxEntry) (s : State) : (setMbx c i e s).active = s.active := rfl
@[simp] theorem setMbx_fdrMon (c i : Nat) (e : Option MbxEntry) (s : State) : (setMbx c i e s).fdrMon = s.fdrMon := rfl
@[simp] theorem setMbx_monOf (c i : Nat) (e : Option MbxEntry) (s : State) (x : Nat) : (setMbx c i e s).monOf x = s.monOf x := rfl
@[simp] theorem setMbx_roundOpen (c i : Nat) (e : Option MbxEntry) (s : State) : (setMbx c i e s).roundOpen = s.roundOpen := rfl
@[simp] theorem setMbx_switchUs (c i : Nat) (e : Option MbxEntry) (s : State) : (setMbx c i e s).switchUs = s.switchUs := rfl
@[simp] theorem setMbx_die (c i : Nat) (e : Option MbxEntry) (s : State) : (setMbx c i e s).die = s.die := rfl
@[simp] theorem setMbx_dieOf (c i : Nat) (e : Option MbxEntry) (s : State) (x : Nat) : (setMbx c i e s).dieOf x = s.dieOf x := rfl
@[simp] theorem setMbx_crs (c i : Nat) (e : Option MbxEntry) (s : State) : (setMbx c i e s).crs = s.crs := rfl
@[simp] theorem setMbx_crsOf (c i : Nat) (e : Option MbxEntry) (s : State) (x : Nat) : (setMbx c i e s).crsOf x = s.crsOf x := rfl
@[simp] theorem setMbx_lnk (c i : Nat) (e : Option MbxEntry) (s : State) : (setMbx c i e s).lnk = s.lnk := rfl
@[simp] theorem setMbx_chainOf (c i : Nat) (e : Option MbxEntry) (s : State) (x : Nat) : (setMbx c i e s).chainOf x = s.chainOf x := rfl
@[simp] theorem setMbx_enum (c i : Nat) (e : Option MbxEntry) (s : State) : (setMbx c i e s).enum = s.enum := rfl
@[simp] theorem setMbx_twm (c i : Nat) (e : Option MbxEntry) (s : State) : (setMbx c i e s).twm = s.twm := rfl
@[simp] theorem setMbx_adc (c i : Nat) (e : Option MbxEntry) (s : State) : (setMbx c i e s).adc = s.adc := rfl
@[simp] theorem setMbx_adcOf (c i : Nat) (e : Option MbxEntry) (s : State) (x : Nat) : (setMbx c i e s).adcOf x = s.adcOf x := rfl
@[simp] theorem setMbx_scan (c i : Nat) (e : Option MbxEntry) (s : State) : (setMbx c i e s).scan = s.scan := rfl
@[simp] theorem setMbx_scanOf (c i : Nat) (e : Option MbxEntry) (s : State) (x : Nat) : (setMbx c i e s).scanOf x = s.scanOf x := rfl
@[simp] theorem setMbx_scrubs (c i : Nat) (e : Option MbxEntry) (s : State) : (setMbx c i e s).scrubs = s.scrubs := rfl
@[simp] theorem setMbx_scrubStart (c i : Nat) (e : Option MbxEntry) (s : State) : (setMbx c i e s).scrubStart = s.scrubStart := rfl
@[simp] theorem setMbx_ceSecond (c i : Nat) (e : Option MbxEntry) (s : State) : (setMbx c i e s).ceSecond = s.ceSecond := rfl
@[simp] theorem setMbx_harv (c i : Nat) (e : Option MbxEntry) (s : State) : (setMbx c i e s).harv = s.harv := rfl
@[simp] theorem setMbx_harvOf (c i : Nat) (e : Option MbxEntry) (s : State) (x : Nat) : (setMbx c i e s).harvOf x = s.harvOf x := rfl
@[simp] theorem setMbx_fharv (c i : Nat) (e : Option MbxEntry) (s : State) : (setMbx c i e s).fharv = s.fharv := rfl
@[simp] theorem setMbx_fharvOf (c i : Nat) (e : Option MbxEntry) (s : State) (x : Nat) : (setMbx c i e s).fharvOf x = s.fharvOf x := rfl
@[simp] theorem setMbx_hrvCyc (c i : Nat) (e : Option MbxEntry) (s : State) : (setMbx c i e s).hrvCyc = s.hrvCyc := rfl
@[simp] theorem setMbx_clk (c i : Nat) (e : Option MbxEntry) (s : State) : (setMbx c i e s).clk = s.clk := rfl
@[simp] theorem setMbx_adm (c i : Nat) (e : Option MbxEntry) (s : State) : (setMbx c i e s).adm = s.adm := rfl
@[simp] theorem setMbx_saved (c i : Nat) (e : Option MbxEntry) (s : State) : (setMbx c i e s).saved = s.saved := rfl
@[simp] theorem setMbx_log (c i : Nat) (e : Option MbxEntry) (s : State) : (setMbx c i e s).log = s.log := rfl
@[simp] theorem setMbx_nvmA (c i : Nat) (e : Option MbxEntry) (s : State) : (setMbx c i e s).nvmA = s.nvmA := rfl
@[simp] theorem setMbx_nvmB (c i : Nat) (e : Option MbxEntry) (s : State) : (setMbx c i e s).nvmB = s.nvmB := rfl
@[simp] theorem setMbx_boot (c i : Nat) (e : Option MbxEntry) (s : State) : (setMbx c i e s).boot = s.boot := rfl
@[simp] theorem setMbx_fuse (c i : Nat) (e : Option MbxEntry) (s : State) : (setMbx c i e s).fuse = s.fuse := rfl
@[simp] theorem setMbx_weak (c i : Nat) (e : Option MbxEntry) (s : State) : (setMbx c i e s).weak = s.weak := rfl
@[simp] theorem setMbx_otp (c i : Nat) (e : Option MbxEntry) (s : State) : (setMbx c i e s).otp = s.otp := rfl
@[simp] theorem setMbx_upd (c i : Nat) (e : Option MbxEntry) (s : State) : (setMbx c i e s).upd = s.upd := rfl
@[simp] theorem setMbx_tap (c i : Nat) (e : Option MbxEntry) (s : State) : (setMbx c i e s).tap = s.tap := rfl
@[simp] theorem setMbx_bsr (c i : Nat) (e : Option MbxEntry) (s : State) : (setMbx c i e s).bsr = s.bsr := rfl
@[simp] theorem setMbx_tdo (c i : Nat) (e : Option MbxEntry) (s : State) : (setMbx c i e s).tdo = s.tdo := rfl
@[simp] theorem setMbx_bus (c i : Nat) (e : Option MbxEntry) (s : State) : (setMbx c i e s).bus = s.bus := rfl
@[simp] theorem setMbx_block (c i : Nat) (e : Option MbxEntry) (s : State) : (setMbx c i e s).block = s.block := rfl
@[simp] theorem setMbx_fresh (c i : Nat) (e : Option MbxEntry) (s : State) : (setMbx c i e s).fresh = s.fresh := rfl
@[simp] theorem setMbx_clock (c i : Nat) (e : Option MbxEntry) (s : State) : (setMbx c i e s).clock = s.clock := rfl
@[simp] theorem setMbx_pending (c i : Nat) (e : Option MbxEntry) (s : State) : (setMbx c i e s).pending = s.pending := rfl

@[simp] theorem updChain_regs (n : Nat) (f : Chain → Chain) (s : State) : (updChain n f s).regs = s.regs := rfl
@[simp] theorem updChain_reg (n : Nat) (f : Chain → Chain) (s : State) (x : Nat) : (updChain n f s).reg x = s.reg x := rfl
@[simp] theorem updChain_dieRegs (n : Nat) (f : Chain → Chain) (s : State) : (updChain n f s).dieRegs = s.dieRegs := rfl
@[simp] theorem updChain_dreg (n : Nat) (f : Chain → Chain) (s : State) (x : Nat) : (updChain n f s).dreg x = s.dreg x := rfl
@[simp] theorem updChain_prec (n : Nat) (f : Chain → Chain) (s : State) : (updChain n f s).prec = s.prec := rfl
@[simp] theorem updChain_recOf (n : Nat) (f : Chain → Chain) (s : State) (x y : Nat) : (updChain n f s).recOf x y = s.recOf x y := rfl
@[simp] theorem updChain_mem (n : Nat) (f : Chain → Chain) (s : State) : (updChain n f s).mem = s.mem := rfl
@[simp] theorem updChain_byteAt (n : Nat) (f : Chain → Chain) (s : State) (x y : Nat) : (updChain n f s).byteAt x y = s.byteAt x y := rfl
@[simp] theorem updChain_ecc (n : Nat) (f : Chain → Chain) (s : State) : (updChain n f s).ecc = s.ecc := rfl
@[simp] theorem updChain_wordErr (n : Nat) (f : Chain → Chain) (s : State) (x y : Nat) : (updChain n f s).wordErr x y = s.wordErr x y := rfl
@[simp] theorem updChain_tb (n : Nat) (f : Chain → Chain) (s : State) : (updChain n f s).tb = s.tb := rfl
@[simp] theorem updChain_timer (n : Nat) (f : Chain → Chain) (s : State) : (updChain n f s).timer = s.timer := rfl
@[simp] theorem updChain_timerOf (n : Nat) (f : Chain → Chain) (s : State) (x : Nat) : (updChain n f s).timerOf x = s.timerOf x := rfl
@[simp] theorem updChain_portEv (n : Nat) (f : Chain → Chain) (s : State) : (updChain n f s).portEv = s.portEv := rfl
@[simp] theorem updChain_xat (n : Nat) (f : Chain → Chain) (s : State) : (updChain n f s).xat = s.xat := rfl
@[simp] theorem updChain_port (n : Nat) (f : Chain → Chain) (s : State) : (updChain n f s).port = s.port := rfl
@[simp] theorem updChain_portOf (n : Nat) (f : Chain → Chain) (s : State) (x : Nat) : (updChain n f s).portOf x = s.portOf x := rfl
@[simp] theorem updChain_mir (n : Nat) (f : Chain → Chain) (s : State) : (updChain n f s).mir = s.mir := rfl
@[simp] theorem updChain_mirOf (n : Nat) (f : Chain → Chain) (s : State) (x : Nat) : (updChain n f s).mirOf x = s.mirOf x := rfl
@[simp] theorem updChain_phy (n : Nat) (f : Chain → Chain) (s : State) : (updChain n f s).phy = s.phy := rfl
@[simp] theorem updChain_phyOf (n : Nat) (f : Chain → Chain) (s : State) (x : Nat) : (updChain n f s).phyOf x = s.phyOf x := rfl
@[simp] theorem updChain_hub (n : Nat) (f : Chain → Chain) (s : State) : (updChain n f s).hub = s.hub := rfl
@[simp] theorem updChain_hubOf (n : Nat) (f : Chain → Chain) (s : State) (x : Nat) : (updChain n f s).hubOf x = s.hubOf x := rfl
@[simp] theorem updChain_fw (n : Nat) (f : Chain → Chain) (s : State) : (updChain n f s).fw = s.fw := rfl
@[simp] theorem updChain_fwOf (n : Nat) (f : Chain → Chain) (s : State) (x : Nat) : (updChain n f s).fwOf x = s.fwOf x := rfl
@[simp] theorem updChain_ctx (n : Nat) (f : Chain → Chain) (s : State) : (updChain n f s).ctx = s.ctx := rfl
@[simp] theorem updChain_ctxOf (n : Nat) (f : Chain → Chain) (s : State) (x y : Nat) : (updChain n f s).ctxOf x y = s.ctxOf x y := rfl
@[simp] theorem updChain_pan (n : Nat) (f : Chain → Chain) (s : State) : (updChain n f s).pan = s.pan := rfl
@[simp] theorem updChain_panOf (n : Nat) (f : Chain → Chain) (s : State) (x y : Nat) : (updChain n f s).panOf x y = s.panOf x y := rfl
@[simp] theorem updChain_opq (n : Nat) (f : Chain → Chain) (s : State) : (updChain n f s).opq = s.opq := rfl
@[simp] theorem updChain_opOf (n : Nat) (f : Chain → Chain) (s : State) (x y : Nat) : (updChain n f s).opOf x y = s.opOf x y := rfl
@[simp] theorem updChain_chan (n : Nat) (f : Chain → Chain) (s : State) : (updChain n f s).chan = s.chan := rfl
@[simp] theorem updChain_chanOf (n : Nat) (f : Chain → Chain) (s : State) (x : Nat) : (updChain n f s).chanOf x = s.chanOf x := rfl
@[simp] theorem updChain_bankA (n : Nat) (f : Chain → Chain) (s : State) : (updChain n f s).bankA = s.bankA := rfl
@[simp] theorem updChain_bankB (n : Nat) (f : Chain → Chain) (s : State) : (updChain n f s).bankB = s.bankB := rfl
@[simp] theorem updChain_active (n : Nat) (f : Chain → Chain) (s : State) : (updChain n f s).active = s.active := rfl
@[simp] theorem updChain_fdrMon (n : Nat) (f : Chain → Chain) (s : State) : (updChain n f s).fdrMon = s.fdrMon := rfl
@[simp] theorem updChain_monOf (n : Nat) (f : Chain → Chain) (s : State) (x : Nat) : (updChain n f s).monOf x = s.monOf x := rfl
@[simp] theorem updChain_roundOpen (n : Nat) (f : Chain → Chain) (s : State) : (updChain n f s).roundOpen = s.roundOpen := rfl
@[simp] theorem updChain_switchUs (n : Nat) (f : Chain → Chain) (s : State) : (updChain n f s).switchUs = s.switchUs := rfl
@[simp] theorem updChain_die (n : Nat) (f : Chain → Chain) (s : State) : (updChain n f s).die = s.die := rfl
@[simp] theorem updChain_dieOf (n : Nat) (f : Chain → Chain) (s : State) (x : Nat) : (updChain n f s).dieOf x = s.dieOf x := rfl
@[simp] theorem updChain_crs (n : Nat) (f : Chain → Chain) (s : State) : (updChain n f s).crs = s.crs := rfl
@[simp] theorem updChain_crsOf (n : Nat) (f : Chain → Chain) (s : State) (x : Nat) : (updChain n f s).crsOf x = s.crsOf x := rfl
@[simp] theorem updChain_mbx (n : Nat) (f : Chain → Chain) (s : State) : (updChain n f s).mbx = s.mbx := rfl
@[simp] theorem updChain_mbxOf (n : Nat) (f : Chain → Chain) (s : State) (x y : Nat) : (updChain n f s).mbxOf x y = s.mbxOf x y := rfl
@[simp] theorem updChain_enum (n : Nat) (f : Chain → Chain) (s : State) : (updChain n f s).enum = s.enum := rfl
@[simp] theorem updChain_twm (n : Nat) (f : Chain → Chain) (s : State) : (updChain n f s).twm = s.twm := rfl
@[simp] theorem updChain_adc (n : Nat) (f : Chain → Chain) (s : State) : (updChain n f s).adc = s.adc := rfl
@[simp] theorem updChain_adcOf (n : Nat) (f : Chain → Chain) (s : State) (x : Nat) : (updChain n f s).adcOf x = s.adcOf x := rfl
@[simp] theorem updChain_scan (n : Nat) (f : Chain → Chain) (s : State) : (updChain n f s).scan = s.scan := rfl
@[simp] theorem updChain_scanOf (n : Nat) (f : Chain → Chain) (s : State) (x : Nat) : (updChain n f s).scanOf x = s.scanOf x := rfl
@[simp] theorem updChain_scrubs (n : Nat) (f : Chain → Chain) (s : State) : (updChain n f s).scrubs = s.scrubs := rfl
@[simp] theorem updChain_scrubStart (n : Nat) (f : Chain → Chain) (s : State) : (updChain n f s).scrubStart = s.scrubStart := rfl
@[simp] theorem updChain_ceSecond (n : Nat) (f : Chain → Chain) (s : State) : (updChain n f s).ceSecond = s.ceSecond := rfl
@[simp] theorem updChain_harv (n : Nat) (f : Chain → Chain) (s : State) : (updChain n f s).harv = s.harv := rfl
@[simp] theorem updChain_harvOf (n : Nat) (f : Chain → Chain) (s : State) (x : Nat) : (updChain n f s).harvOf x = s.harvOf x := rfl
@[simp] theorem updChain_fharv (n : Nat) (f : Chain → Chain) (s : State) : (updChain n f s).fharv = s.fharv := rfl
@[simp] theorem updChain_fharvOf (n : Nat) (f : Chain → Chain) (s : State) (x : Nat) : (updChain n f s).fharvOf x = s.fharvOf x := rfl
@[simp] theorem updChain_hrvCyc (n : Nat) (f : Chain → Chain) (s : State) : (updChain n f s).hrvCyc = s.hrvCyc := rfl
@[simp] theorem updChain_clk (n : Nat) (f : Chain → Chain) (s : State) : (updChain n f s).clk = s.clk := rfl
@[simp] theorem updChain_adm (n : Nat) (f : Chain → Chain) (s : State) : (updChain n f s).adm = s.adm := rfl
@[simp] theorem updChain_saved (n : Nat) (f : Chain → Chain) (s : State) : (updChain n f s).saved = s.saved := rfl
@[simp] theorem updChain_log (n : Nat) (f : Chain → Chain) (s : State) : (updChain n f s).log = s.log := rfl
@[simp] theorem updChain_nvmA (n : Nat) (f : Chain → Chain) (s : State) : (updChain n f s).nvmA = s.nvmA := rfl
@[simp] theorem updChain_nvmB (n : Nat) (f : Chain → Chain) (s : State) : (updChain n f s).nvmB = s.nvmB := rfl
@[simp] theorem updChain_boot (n : Nat) (f : Chain → Chain) (s : State) : (updChain n f s).boot = s.boot := rfl
@[simp] theorem updChain_fuse (n : Nat) (f : Chain → Chain) (s : State) : (updChain n f s).fuse = s.fuse := rfl
@[simp] theorem updChain_weak (n : Nat) (f : Chain → Chain) (s : State) : (updChain n f s).weak = s.weak := rfl
@[simp] theorem updChain_otp (n : Nat) (f : Chain → Chain) (s : State) : (updChain n f s).otp = s.otp := rfl
@[simp] theorem updChain_upd (n : Nat) (f : Chain → Chain) (s : State) : (updChain n f s).upd = s.upd := rfl
@[simp] theorem updChain_tap (n : Nat) (f : Chain → Chain) (s : State) : (updChain n f s).tap = s.tap := rfl
@[simp] theorem updChain_bsr (n : Nat) (f : Chain → Chain) (s : State) : (updChain n f s).bsr = s.bsr := rfl
@[simp] theorem updChain_tdo (n : Nat) (f : Chain → Chain) (s : State) : (updChain n f s).tdo = s.tdo := rfl
@[simp] theorem updChain_bus (n : Nat) (f : Chain → Chain) (s : State) : (updChain n f s).bus = s.bus := rfl
@[simp] theorem updChain_block (n : Nat) (f : Chain → Chain) (s : State) : (updChain n f s).block = s.block := rfl
@[simp] theorem updChain_fresh (n : Nat) (f : Chain → Chain) (s : State) : (updChain n f s).fresh = s.fresh := rfl
@[simp] theorem updChain_clock (n : Nat) (f : Chain → Chain) (s : State) : (updChain n f s).clock = s.clock := rfl
@[simp] theorem updChain_pending (n : Nat) (f : Chain → Chain) (s : State) : (updChain n f s).pending = s.pending := rfl

@[simp] theorem updEnum_regs (f : Enum → Enum) (s : State) : (updEnum f s).regs = s.regs := rfl
@[simp] theorem updEnum_reg (f : Enum → Enum) (s : State) (x : Nat) : (updEnum f s).reg x = s.reg x := rfl
@[simp] theorem updEnum_dieRegs (f : Enum → Enum) (s : State) : (updEnum f s).dieRegs = s.dieRegs := rfl
@[simp] theorem updEnum_dreg (f : Enum → Enum) (s : State) (x : Nat) : (updEnum f s).dreg x = s.dreg x := rfl
@[simp] theorem updEnum_prec (f : Enum → Enum) (s : State) : (updEnum f s).prec = s.prec := rfl
@[simp] theorem updEnum_recOf (f : Enum → Enum) (s : State) (x y : Nat) : (updEnum f s).recOf x y = s.recOf x y := rfl
@[simp] theorem updEnum_mem (f : Enum → Enum) (s : State) : (updEnum f s).mem = s.mem := rfl
@[simp] theorem updEnum_byteAt (f : Enum → Enum) (s : State) (x y : Nat) : (updEnum f s).byteAt x y = s.byteAt x y := rfl
@[simp] theorem updEnum_ecc (f : Enum → Enum) (s : State) : (updEnum f s).ecc = s.ecc := rfl
@[simp] theorem updEnum_wordErr (f : Enum → Enum) (s : State) (x y : Nat) : (updEnum f s).wordErr x y = s.wordErr x y := rfl
@[simp] theorem updEnum_tb (f : Enum → Enum) (s : State) : (updEnum f s).tb = s.tb := rfl
@[simp] theorem updEnum_timer (f : Enum → Enum) (s : State) : (updEnum f s).timer = s.timer := rfl
@[simp] theorem updEnum_timerOf (f : Enum → Enum) (s : State) (x : Nat) : (updEnum f s).timerOf x = s.timerOf x := rfl
@[simp] theorem updEnum_portEv (f : Enum → Enum) (s : State) : (updEnum f s).portEv = s.portEv := rfl
@[simp] theorem updEnum_xat (f : Enum → Enum) (s : State) : (updEnum f s).xat = s.xat := rfl
@[simp] theorem updEnum_port (f : Enum → Enum) (s : State) : (updEnum f s).port = s.port := rfl
@[simp] theorem updEnum_portOf (f : Enum → Enum) (s : State) (x : Nat) : (updEnum f s).portOf x = s.portOf x := rfl
@[simp] theorem updEnum_mir (f : Enum → Enum) (s : State) : (updEnum f s).mir = s.mir := rfl
@[simp] theorem updEnum_mirOf (f : Enum → Enum) (s : State) (x : Nat) : (updEnum f s).mirOf x = s.mirOf x := rfl
@[simp] theorem updEnum_phy (f : Enum → Enum) (s : State) : (updEnum f s).phy = s.phy := rfl
@[simp] theorem updEnum_phyOf (f : Enum → Enum) (s : State) (x : Nat) : (updEnum f s).phyOf x = s.phyOf x := rfl
@[simp] theorem updEnum_hub (f : Enum → Enum) (s : State) : (updEnum f s).hub = s.hub := rfl
@[simp] theorem updEnum_hubOf (f : Enum → Enum) (s : State) (x : Nat) : (updEnum f s).hubOf x = s.hubOf x := rfl
@[simp] theorem updEnum_fw (f : Enum → Enum) (s : State) : (updEnum f s).fw = s.fw := rfl
@[simp] theorem updEnum_fwOf (f : Enum → Enum) (s : State) (x : Nat) : (updEnum f s).fwOf x = s.fwOf x := rfl
@[simp] theorem updEnum_ctx (f : Enum → Enum) (s : State) : (updEnum f s).ctx = s.ctx := rfl
@[simp] theorem updEnum_ctxOf (f : Enum → Enum) (s : State) (x y : Nat) : (updEnum f s).ctxOf x y = s.ctxOf x y := rfl
@[simp] theorem updEnum_pan (f : Enum → Enum) (s : State) : (updEnum f s).pan = s.pan := rfl
@[simp] theorem updEnum_panOf (f : Enum → Enum) (s : State) (x y : Nat) : (updEnum f s).panOf x y = s.panOf x y := rfl
@[simp] theorem updEnum_opq (f : Enum → Enum) (s : State) : (updEnum f s).opq = s.opq := rfl
@[simp] theorem updEnum_opOf (f : Enum → Enum) (s : State) (x y : Nat) : (updEnum f s).opOf x y = s.opOf x y := rfl
@[simp] theorem updEnum_chan (f : Enum → Enum) (s : State) : (updEnum f s).chan = s.chan := rfl
@[simp] theorem updEnum_chanOf (f : Enum → Enum) (s : State) (x : Nat) : (updEnum f s).chanOf x = s.chanOf x := rfl
@[simp] theorem updEnum_bankA (f : Enum → Enum) (s : State) : (updEnum f s).bankA = s.bankA := rfl
@[simp] theorem updEnum_bankB (f : Enum → Enum) (s : State) : (updEnum f s).bankB = s.bankB := rfl
@[simp] theorem updEnum_active (f : Enum → Enum) (s : State) : (updEnum f s).active = s.active := rfl
@[simp] theorem updEnum_fdrMon (f : Enum → Enum) (s : State) : (updEnum f s).fdrMon = s.fdrMon := rfl
@[simp] theorem updEnum_monOf (f : Enum → Enum) (s : State) (x : Nat) : (updEnum f s).monOf x = s.monOf x := rfl
@[simp] theorem updEnum_roundOpen (f : Enum → Enum) (s : State) : (updEnum f s).roundOpen = s.roundOpen := rfl
@[simp] theorem updEnum_switchUs (f : Enum → Enum) (s : State) : (updEnum f s).switchUs = s.switchUs := rfl
@[simp] theorem updEnum_die (f : Enum → Enum) (s : State) : (updEnum f s).die = s.die := rfl
@[simp] theorem updEnum_dieOf (f : Enum → Enum) (s : State) (x : Nat) : (updEnum f s).dieOf x = s.dieOf x := rfl
@[simp] theorem updEnum_crs (f : Enum → Enum) (s : State) : (updEnum f s).crs = s.crs := rfl
@[simp] theorem updEnum_crsOf (f : Enum → Enum) (s : State) (x : Nat) : (updEnum f s).crsOf x = s.crsOf x := rfl
@[simp] theorem updEnum_mbx (f : Enum → Enum) (s : State) : (updEnum f s).mbx = s.mbx := rfl
@[simp] theorem updEnum_mbxOf (f : Enum → Enum) (s : State) (x y : Nat) : (updEnum f s).mbxOf x y = s.mbxOf x y := rfl
@[simp] theorem updEnum_lnk (f : Enum → Enum) (s : State) : (updEnum f s).lnk = s.lnk := rfl
@[simp] theorem updEnum_chainOf (f : Enum → Enum) (s : State) (x : Nat) : (updEnum f s).chainOf x = s.chainOf x := rfl
@[simp] theorem updEnum_twm (f : Enum → Enum) (s : State) : (updEnum f s).twm = s.twm := rfl
@[simp] theorem updEnum_adc (f : Enum → Enum) (s : State) : (updEnum f s).adc = s.adc := rfl
@[simp] theorem updEnum_adcOf (f : Enum → Enum) (s : State) (x : Nat) : (updEnum f s).adcOf x = s.adcOf x := rfl
@[simp] theorem updEnum_scan (f : Enum → Enum) (s : State) : (updEnum f s).scan = s.scan := rfl
@[simp] theorem updEnum_scanOf (f : Enum → Enum) (s : State) (x : Nat) : (updEnum f s).scanOf x = s.scanOf x := rfl
@[simp] theorem updEnum_scrubs (f : Enum → Enum) (s : State) : (updEnum f s).scrubs = s.scrubs := rfl
@[simp] theorem updEnum_scrubStart (f : Enum → Enum) (s : State) : (updEnum f s).scrubStart = s.scrubStart := rfl
@[simp] theorem updEnum_ceSecond (f : Enum → Enum) (s : State) : (updEnum f s).ceSecond = s.ceSecond := rfl
@[simp] theorem updEnum_harv (f : Enum → Enum) (s : State) : (updEnum f s).harv = s.harv := rfl
@[simp] theorem updEnum_harvOf (f : Enum → Enum) (s : State) (x : Nat) : (updEnum f s).harvOf x = s.harvOf x := rfl
@[simp] theorem updEnum_fharv (f : Enum → Enum) (s : State) : (updEnum f s).fharv = s.fharv := rfl
@[simp] theorem updEnum_fharvOf (f : Enum → Enum) (s : State) (x : Nat) : (updEnum f s).fharvOf x = s.fharvOf x := rfl
@[simp] theorem updEnum_hrvCyc (f : Enum → Enum) (s : State) : (updEnum f s).hrvCyc = s.hrvCyc := rfl
@[simp] theorem updEnum_clk (f : Enum → Enum) (s : State) : (updEnum f s).clk = s.clk := rfl
@[simp] theorem updEnum_adm (f : Enum → Enum) (s : State) : (updEnum f s).adm = s.adm := rfl
@[simp] theorem updEnum_saved (f : Enum → Enum) (s : State) : (updEnum f s).saved = s.saved := rfl
@[simp] theorem updEnum_log (f : Enum → Enum) (s : State) : (updEnum f s).log = s.log := rfl
@[simp] theorem updEnum_nvmA (f : Enum → Enum) (s : State) : (updEnum f s).nvmA = s.nvmA := rfl
@[simp] theorem updEnum_nvmB (f : Enum → Enum) (s : State) : (updEnum f s).nvmB = s.nvmB := rfl
@[simp] theorem updEnum_boot (f : Enum → Enum) (s : State) : (updEnum f s).boot = s.boot := rfl
@[simp] theorem updEnum_fuse (f : Enum → Enum) (s : State) : (updEnum f s).fuse = s.fuse := rfl
@[simp] theorem updEnum_weak (f : Enum → Enum) (s : State) : (updEnum f s).weak = s.weak := rfl
@[simp] theorem updEnum_otp (f : Enum → Enum) (s : State) : (updEnum f s).otp = s.otp := rfl
@[simp] theorem updEnum_upd (f : Enum → Enum) (s : State) : (updEnum f s).upd = s.upd := rfl
@[simp] theorem updEnum_tap (f : Enum → Enum) (s : State) : (updEnum f s).tap = s.tap := rfl
@[simp] theorem updEnum_bsr (f : Enum → Enum) (s : State) : (updEnum f s).bsr = s.bsr := rfl
@[simp] theorem updEnum_tdo (f : Enum → Enum) (s : State) : (updEnum f s).tdo = s.tdo := rfl
@[simp] theorem updEnum_bus (f : Enum → Enum) (s : State) : (updEnum f s).bus = s.bus := rfl
@[simp] theorem updEnum_block (f : Enum → Enum) (s : State) : (updEnum f s).block = s.block := rfl
@[simp] theorem updEnum_fresh (f : Enum → Enum) (s : State) : (updEnum f s).fresh = s.fresh := rfl
@[simp] theorem updEnum_clock (f : Enum → Enum) (s : State) : (updEnum f s).clock = s.clock := rfl
@[simp] theorem updEnum_pending (f : Enum → Enum) (s : State) : (updEnum f s).pending = s.pending := rfl

@[simp] theorem updTwm_regs (f : Twm → Twm) (s : State) : (updTwm f s).regs = s.regs := rfl
@[simp] theorem updTwm_reg (f : Twm → Twm) (s : State) (x : Nat) : (updTwm f s).reg x = s.reg x := rfl
@[simp] theorem updTwm_dieRegs (f : Twm → Twm) (s : State) : (updTwm f s).dieRegs = s.dieRegs := rfl
@[simp] theorem updTwm_dreg (f : Twm → Twm) (s : State) (x : Nat) : (updTwm f s).dreg x = s.dreg x := rfl
@[simp] theorem updTwm_prec (f : Twm → Twm) (s : State) : (updTwm f s).prec = s.prec := rfl
@[simp] theorem updTwm_recOf (f : Twm → Twm) (s : State) (x y : Nat) : (updTwm f s).recOf x y = s.recOf x y := rfl
@[simp] theorem updTwm_mem (f : Twm → Twm) (s : State) : (updTwm f s).mem = s.mem := rfl
@[simp] theorem updTwm_byteAt (f : Twm → Twm) (s : State) (x y : Nat) : (updTwm f s).byteAt x y = s.byteAt x y := rfl
@[simp] theorem updTwm_ecc (f : Twm → Twm) (s : State) : (updTwm f s).ecc = s.ecc := rfl
@[simp] theorem updTwm_wordErr (f : Twm → Twm) (s : State) (x y : Nat) : (updTwm f s).wordErr x y = s.wordErr x y := rfl
@[simp] theorem updTwm_tb (f : Twm → Twm) (s : State) : (updTwm f s).tb = s.tb := rfl
@[simp] theorem updTwm_timer (f : Twm → Twm) (s : State) : (updTwm f s).timer = s.timer := rfl
@[simp] theorem updTwm_timerOf (f : Twm → Twm) (s : State) (x : Nat) : (updTwm f s).timerOf x = s.timerOf x := rfl
@[simp] theorem updTwm_portEv (f : Twm → Twm) (s : State) : (updTwm f s).portEv = s.portEv := rfl
@[simp] theorem updTwm_xat (f : Twm → Twm) (s : State) : (updTwm f s).xat = s.xat := rfl
@[simp] theorem updTwm_port (f : Twm → Twm) (s : State) : (updTwm f s).port = s.port := rfl
@[simp] theorem updTwm_portOf (f : Twm → Twm) (s : State) (x : Nat) : (updTwm f s).portOf x = s.portOf x := rfl
@[simp] theorem updTwm_mir (f : Twm → Twm) (s : State) : (updTwm f s).mir = s.mir := rfl
@[simp] theorem updTwm_mirOf (f : Twm → Twm) (s : State) (x : Nat) : (updTwm f s).mirOf x = s.mirOf x := rfl
@[simp] theorem updTwm_phy (f : Twm → Twm) (s : State) : (updTwm f s).phy = s.phy := rfl
@[simp] theorem updTwm_phyOf (f : Twm → Twm) (s : State) (x : Nat) : (updTwm f s).phyOf x = s.phyOf x := rfl
@[simp] theorem updTwm_hub (f : Twm → Twm) (s : State) : (updTwm f s).hub = s.hub := rfl
@[simp] theorem updTwm_hubOf (f : Twm → Twm) (s : State) (x : Nat) : (updTwm f s).hubOf x = s.hubOf x := rfl
@[simp] theorem updTwm_fw (f : Twm → Twm) (s : State) : (updTwm f s).fw = s.fw := rfl
@[simp] theorem updTwm_fwOf (f : Twm → Twm) (s : State) (x : Nat) : (updTwm f s).fwOf x = s.fwOf x := rfl
@[simp] theorem updTwm_ctx (f : Twm → Twm) (s : State) : (updTwm f s).ctx = s.ctx := rfl
@[simp] theorem updTwm_ctxOf (f : Twm → Twm) (s : State) (x y : Nat) : (updTwm f s).ctxOf x y = s.ctxOf x y := rfl
@[simp] theorem updTwm_pan (f : Twm → Twm) (s : State) : (updTwm f s).pan = s.pan := rfl
@[simp] theorem updTwm_panOf (f : Twm → Twm) (s : State) (x y : Nat) : (updTwm f s).panOf x y = s.panOf x y := rfl
@[simp] theorem updTwm_opq (f : Twm → Twm) (s : State) : (updTwm f s).opq = s.opq := rfl
@[simp] theorem updTwm_opOf (f : Twm → Twm) (s : State) (x y : Nat) : (updTwm f s).opOf x y = s.opOf x y := rfl
@[simp] theorem updTwm_chan (f : Twm → Twm) (s : State) : (updTwm f s).chan = s.chan := rfl
@[simp] theorem updTwm_chanOf (f : Twm → Twm) (s : State) (x : Nat) : (updTwm f s).chanOf x = s.chanOf x := rfl
@[simp] theorem updTwm_bankA (f : Twm → Twm) (s : State) : (updTwm f s).bankA = s.bankA := rfl
@[simp] theorem updTwm_bankB (f : Twm → Twm) (s : State) : (updTwm f s).bankB = s.bankB := rfl
@[simp] theorem updTwm_active (f : Twm → Twm) (s : State) : (updTwm f s).active = s.active := rfl
@[simp] theorem updTwm_fdrMon (f : Twm → Twm) (s : State) : (updTwm f s).fdrMon = s.fdrMon := rfl
@[simp] theorem updTwm_monOf (f : Twm → Twm) (s : State) (x : Nat) : (updTwm f s).monOf x = s.monOf x := rfl
@[simp] theorem updTwm_roundOpen (f : Twm → Twm) (s : State) : (updTwm f s).roundOpen = s.roundOpen := rfl
@[simp] theorem updTwm_switchUs (f : Twm → Twm) (s : State) : (updTwm f s).switchUs = s.switchUs := rfl
@[simp] theorem updTwm_die (f : Twm → Twm) (s : State) : (updTwm f s).die = s.die := rfl
@[simp] theorem updTwm_dieOf (f : Twm → Twm) (s : State) (x : Nat) : (updTwm f s).dieOf x = s.dieOf x := rfl
@[simp] theorem updTwm_crs (f : Twm → Twm) (s : State) : (updTwm f s).crs = s.crs := rfl
@[simp] theorem updTwm_crsOf (f : Twm → Twm) (s : State) (x : Nat) : (updTwm f s).crsOf x = s.crsOf x := rfl
@[simp] theorem updTwm_mbx (f : Twm → Twm) (s : State) : (updTwm f s).mbx = s.mbx := rfl
@[simp] theorem updTwm_mbxOf (f : Twm → Twm) (s : State) (x y : Nat) : (updTwm f s).mbxOf x y = s.mbxOf x y := rfl
@[simp] theorem updTwm_lnk (f : Twm → Twm) (s : State) : (updTwm f s).lnk = s.lnk := rfl
@[simp] theorem updTwm_chainOf (f : Twm → Twm) (s : State) (x : Nat) : (updTwm f s).chainOf x = s.chainOf x := rfl
@[simp] theorem updTwm_enum (f : Twm → Twm) (s : State) : (updTwm f s).enum = s.enum := rfl
@[simp] theorem updTwm_adc (f : Twm → Twm) (s : State) : (updTwm f s).adc = s.adc := rfl
@[simp] theorem updTwm_adcOf (f : Twm → Twm) (s : State) (x : Nat) : (updTwm f s).adcOf x = s.adcOf x := rfl
@[simp] theorem updTwm_scan (f : Twm → Twm) (s : State) : (updTwm f s).scan = s.scan := rfl
@[simp] theorem updTwm_scanOf (f : Twm → Twm) (s : State) (x : Nat) : (updTwm f s).scanOf x = s.scanOf x := rfl
@[simp] theorem updTwm_scrubs (f : Twm → Twm) (s : State) : (updTwm f s).scrubs = s.scrubs := rfl
@[simp] theorem updTwm_scrubStart (f : Twm → Twm) (s : State) : (updTwm f s).scrubStart = s.scrubStart := rfl
@[simp] theorem updTwm_ceSecond (f : Twm → Twm) (s : State) : (updTwm f s).ceSecond = s.ceSecond := rfl
@[simp] theorem updTwm_harv (f : Twm → Twm) (s : State) : (updTwm f s).harv = s.harv := rfl
@[simp] theorem updTwm_harvOf (f : Twm → Twm) (s : State) (x : Nat) : (updTwm f s).harvOf x = s.harvOf x := rfl
@[simp] theorem updTwm_fharv (f : Twm → Twm) (s : State) : (updTwm f s).fharv = s.fharv := rfl
@[simp] theorem updTwm_fharvOf (f : Twm → Twm) (s : State) (x : Nat) : (updTwm f s).fharvOf x = s.fharvOf x := rfl
@[simp] theorem updTwm_hrvCyc (f : Twm → Twm) (s : State) : (updTwm f s).hrvCyc = s.hrvCyc := rfl
@[simp] theorem updTwm_clk (f : Twm → Twm) (s : State) : (updTwm f s).clk = s.clk := rfl
@[simp] theorem updTwm_adm (f : Twm → Twm) (s : State) : (updTwm f s).adm = s.adm := rfl
@[simp] theorem updTwm_saved (f : Twm → Twm) (s : State) : (updTwm f s).saved = s.saved := rfl
@[simp] theorem updTwm_log (f : Twm → Twm) (s : State) : (updTwm f s).log = s.log := rfl
@[simp] theorem updTwm_nvmA (f : Twm → Twm) (s : State) : (updTwm f s).nvmA = s.nvmA := rfl
@[simp] theorem updTwm_nvmB (f : Twm → Twm) (s : State) : (updTwm f s).nvmB = s.nvmB := rfl
@[simp] theorem updTwm_boot (f : Twm → Twm) (s : State) : (updTwm f s).boot = s.boot := rfl
@[simp] theorem updTwm_fuse (f : Twm → Twm) (s : State) : (updTwm f s).fuse = s.fuse := rfl
@[simp] theorem updTwm_weak (f : Twm → Twm) (s : State) : (updTwm f s).weak = s.weak := rfl
@[simp] theorem updTwm_otp (f : Twm → Twm) (s : State) : (updTwm f s).otp = s.otp := rfl
@[simp] theorem updTwm_upd (f : Twm → Twm) (s : State) : (updTwm f s).upd = s.upd := rfl
@[simp] theorem updTwm_tap (f : Twm → Twm) (s : State) : (updTwm f s).tap = s.tap := rfl
@[simp] theorem updTwm_bsr (f : Twm → Twm) (s : State) : (updTwm f s).bsr = s.bsr := rfl
@[simp] theorem updTwm_tdo (f : Twm → Twm) (s : State) : (updTwm f s).tdo = s.tdo := rfl
@[simp] theorem updTwm_bus (f : Twm → Twm) (s : State) : (updTwm f s).bus = s.bus := rfl
@[simp] theorem updTwm_block (f : Twm → Twm) (s : State) : (updTwm f s).block = s.block := rfl
@[simp] theorem updTwm_fresh (f : Twm → Twm) (s : State) : (updTwm f s).fresh = s.fresh := rfl
@[simp] theorem updTwm_clock (f : Twm → Twm) (s : State) : (updTwm f s).clock = s.clock := rfl
@[simp] theorem updTwm_pending (f : Twm → Twm) (s : State) : (updTwm f s).pending = s.pending := rfl

@[simp] theorem updAdc_regs (u : Nat) (f : Adc → Adc) (s : State) : (updAdc u f s).regs = s.regs := rfl
@[simp] theorem updAdc_reg (u : Nat) (f : Adc → Adc) (s : State) (x : Nat) : (updAdc u f s).reg x = s.reg x := rfl
@[simp] theorem updAdc_dieRegs (u : Nat) (f : Adc → Adc) (s : State) : (updAdc u f s).dieRegs = s.dieRegs := rfl
@[simp] theorem updAdc_dreg (u : Nat) (f : Adc → Adc) (s : State) (x : Nat) : (updAdc u f s).dreg x = s.dreg x := rfl
@[simp] theorem updAdc_prec (u : Nat) (f : Adc → Adc) (s : State) : (updAdc u f s).prec = s.prec := rfl
@[simp] theorem updAdc_recOf (u : Nat) (f : Adc → Adc) (s : State) (x y : Nat) : (updAdc u f s).recOf x y = s.recOf x y := rfl
@[simp] theorem updAdc_mem (u : Nat) (f : Adc → Adc) (s : State) : (updAdc u f s).mem = s.mem := rfl
@[simp] theorem updAdc_byteAt (u : Nat) (f : Adc → Adc) (s : State) (x y : Nat) : (updAdc u f s).byteAt x y = s.byteAt x y := rfl
@[simp] theorem updAdc_ecc (u : Nat) (f : Adc → Adc) (s : State) : (updAdc u f s).ecc = s.ecc := rfl
@[simp] theorem updAdc_wordErr (u : Nat) (f : Adc → Adc) (s : State) (x y : Nat) : (updAdc u f s).wordErr x y = s.wordErr x y := rfl
@[simp] theorem updAdc_tb (u : Nat) (f : Adc → Adc) (s : State) : (updAdc u f s).tb = s.tb := rfl
@[simp] theorem updAdc_timer (u : Nat) (f : Adc → Adc) (s : State) : (updAdc u f s).timer = s.timer := rfl
@[simp] theorem updAdc_timerOf (u : Nat) (f : Adc → Adc) (s : State) (x : Nat) : (updAdc u f s).timerOf x = s.timerOf x := rfl
@[simp] theorem updAdc_portEv (u : Nat) (f : Adc → Adc) (s : State) : (updAdc u f s).portEv = s.portEv := rfl
@[simp] theorem updAdc_xat (u : Nat) (f : Adc → Adc) (s : State) : (updAdc u f s).xat = s.xat := rfl
@[simp] theorem updAdc_port (u : Nat) (f : Adc → Adc) (s : State) : (updAdc u f s).port = s.port := rfl
@[simp] theorem updAdc_portOf (u : Nat) (f : Adc → Adc) (s : State) (x : Nat) : (updAdc u f s).portOf x = s.portOf x := rfl
@[simp] theorem updAdc_mir (u : Nat) (f : Adc → Adc) (s : State) : (updAdc u f s).mir = s.mir := rfl
@[simp] theorem updAdc_mirOf (u : Nat) (f : Adc → Adc) (s : State) (x : Nat) : (updAdc u f s).mirOf x = s.mirOf x := rfl
@[simp] theorem updAdc_phy (u : Nat) (f : Adc → Adc) (s : State) : (updAdc u f s).phy = s.phy := rfl
@[simp] theorem updAdc_phyOf (u : Nat) (f : Adc → Adc) (s : State) (x : Nat) : (updAdc u f s).phyOf x = s.phyOf x := rfl
@[simp] theorem updAdc_hub (u : Nat) (f : Adc → Adc) (s : State) : (updAdc u f s).hub = s.hub := rfl
@[simp] theorem updAdc_hubOf (u : Nat) (f : Adc → Adc) (s : State) (x : Nat) : (updAdc u f s).hubOf x = s.hubOf x := rfl
@[simp] theorem updAdc_fw (u : Nat) (f : Adc → Adc) (s : State) : (updAdc u f s).fw = s.fw := rfl
@[simp] theorem updAdc_fwOf (u : Nat) (f : Adc → Adc) (s : State) (x : Nat) : (updAdc u f s).fwOf x = s.fwOf x := rfl
@[simp] theorem updAdc_ctx (u : Nat) (f : Adc → Adc) (s : State) : (updAdc u f s).ctx = s.ctx := rfl
@[simp] theorem updAdc_ctxOf (u : Nat) (f : Adc → Adc) (s : State) (x y : Nat) : (updAdc u f s).ctxOf x y = s.ctxOf x y := rfl
@[simp] theorem updAdc_pan (u : Nat) (f : Adc → Adc) (s : State) : (updAdc u f s).pan = s.pan := rfl
@[simp] theorem updAdc_panOf (u : Nat) (f : Adc → Adc) (s : State) (x y : Nat) : (updAdc u f s).panOf x y = s.panOf x y := rfl
@[simp] theorem updAdc_opq (u : Nat) (f : Adc → Adc) (s : State) : (updAdc u f s).opq = s.opq := rfl
@[simp] theorem updAdc_opOf (u : Nat) (f : Adc → Adc) (s : State) (x y : Nat) : (updAdc u f s).opOf x y = s.opOf x y := rfl
@[simp] theorem updAdc_chan (u : Nat) (f : Adc → Adc) (s : State) : (updAdc u f s).chan = s.chan := rfl
@[simp] theorem updAdc_chanOf (u : Nat) (f : Adc → Adc) (s : State) (x : Nat) : (updAdc u f s).chanOf x = s.chanOf x := rfl
@[simp] theorem updAdc_bankA (u : Nat) (f : Adc → Adc) (s : State) : (updAdc u f s).bankA = s.bankA := rfl
@[simp] theorem updAdc_bankB (u : Nat) (f : Adc → Adc) (s : State) : (updAdc u f s).bankB = s.bankB := rfl
@[simp] theorem updAdc_active (u : Nat) (f : Adc → Adc) (s : State) : (updAdc u f s).active = s.active := rfl
@[simp] theorem updAdc_fdrMon (u : Nat) (f : Adc → Adc) (s : State) : (updAdc u f s).fdrMon = s.fdrMon := rfl
@[simp] theorem updAdc_monOf (u : Nat) (f : Adc → Adc) (s : State) (x : Nat) : (updAdc u f s).monOf x = s.monOf x := rfl
@[simp] theorem updAdc_roundOpen (u : Nat) (f : Adc → Adc) (s : State) : (updAdc u f s).roundOpen = s.roundOpen := rfl
@[simp] theorem updAdc_switchUs (u : Nat) (f : Adc → Adc) (s : State) : (updAdc u f s).switchUs = s.switchUs := rfl
@[simp] theorem updAdc_die (u : Nat) (f : Adc → Adc) (s : State) : (updAdc u f s).die = s.die := rfl
@[simp] theorem updAdc_dieOf (u : Nat) (f : Adc → Adc) (s : State) (x : Nat) : (updAdc u f s).dieOf x = s.dieOf x := rfl
@[simp] theorem updAdc_crs (u : Nat) (f : Adc → Adc) (s : State) : (updAdc u f s).crs = s.crs := rfl
@[simp] theorem updAdc_crsOf (u : Nat) (f : Adc → Adc) (s : State) (x : Nat) : (updAdc u f s).crsOf x = s.crsOf x := rfl
@[simp] theorem updAdc_mbx (u : Nat) (f : Adc → Adc) (s : State) : (updAdc u f s).mbx = s.mbx := rfl
@[simp] theorem updAdc_mbxOf (u : Nat) (f : Adc → Adc) (s : State) (x y : Nat) : (updAdc u f s).mbxOf x y = s.mbxOf x y := rfl
@[simp] theorem updAdc_lnk (u : Nat) (f : Adc → Adc) (s : State) : (updAdc u f s).lnk = s.lnk := rfl
@[simp] theorem updAdc_chainOf (u : Nat) (f : Adc → Adc) (s : State) (x : Nat) : (updAdc u f s).chainOf x = s.chainOf x := rfl
@[simp] theorem updAdc_enum (u : Nat) (f : Adc → Adc) (s : State) : (updAdc u f s).enum = s.enum := rfl
@[simp] theorem updAdc_twm (u : Nat) (f : Adc → Adc) (s : State) : (updAdc u f s).twm = s.twm := rfl
@[simp] theorem updAdc_scan (u : Nat) (f : Adc → Adc) (s : State) : (updAdc u f s).scan = s.scan := rfl
@[simp] theorem updAdc_scanOf (u : Nat) (f : Adc → Adc) (s : State) (x : Nat) : (updAdc u f s).scanOf x = s.scanOf x := rfl
@[simp] theorem updAdc_scrubs (u : Nat) (f : Adc → Adc) (s : State) : (updAdc u f s).scrubs = s.scrubs := rfl
@[simp] theorem updAdc_scrubStart (u : Nat) (f : Adc → Adc) (s : State) : (updAdc u f s).scrubStart = s.scrubStart := rfl
@[simp] theorem updAdc_ceSecond (u : Nat) (f : Adc → Adc) (s : State) : (updAdc u f s).ceSecond = s.ceSecond := rfl
@[simp] theorem updAdc_harv (u : Nat) (f : Adc → Adc) (s : State) : (updAdc u f s).harv = s.harv := rfl
@[simp] theorem updAdc_harvOf (u : Nat) (f : Adc → Adc) (s : State) (x : Nat) : (updAdc u f s).harvOf x = s.harvOf x := rfl
@[simp] theorem updAdc_fharv (u : Nat) (f : Adc → Adc) (s : State) : (updAdc u f s).fharv = s.fharv := rfl
@[simp] theorem updAdc_fharvOf (u : Nat) (f : Adc → Adc) (s : State) (x : Nat) : (updAdc u f s).fharvOf x = s.fharvOf x := rfl
@[simp] theorem updAdc_hrvCyc (u : Nat) (f : Adc → Adc) (s : State) : (updAdc u f s).hrvCyc = s.hrvCyc := rfl
@[simp] theorem updAdc_clk (u : Nat) (f : Adc → Adc) (s : State) : (updAdc u f s).clk = s.clk := rfl
@[simp] theorem updAdc_adm (u : Nat) (f : Adc → Adc) (s : State) : (updAdc u f s).adm = s.adm := rfl
@[simp] theorem updAdc_saved (u : Nat) (f : Adc → Adc) (s : State) : (updAdc u f s).saved = s.saved := rfl
@[simp] theorem updAdc_log (u : Nat) (f : Adc → Adc) (s : State) : (updAdc u f s).log = s.log := rfl
@[simp] theorem updAdc_nvmA (u : Nat) (f : Adc → Adc) (s : State) : (updAdc u f s).nvmA = s.nvmA := rfl
@[simp] theorem updAdc_nvmB (u : Nat) (f : Adc → Adc) (s : State) : (updAdc u f s).nvmB = s.nvmB := rfl
@[simp] theorem updAdc_boot (u : Nat) (f : Adc → Adc) (s : State) : (updAdc u f s).boot = s.boot := rfl
@[simp] theorem updAdc_fuse (u : Nat) (f : Adc → Adc) (s : State) : (updAdc u f s).fuse = s.fuse := rfl
@[simp] theorem updAdc_weak (u : Nat) (f : Adc → Adc) (s : State) : (updAdc u f s).weak = s.weak := rfl
@[simp] theorem updAdc_otp (u : Nat) (f : Adc → Adc) (s : State) : (updAdc u f s).otp = s.otp := rfl
@[simp] theorem updAdc_upd (u : Nat) (f : Adc → Adc) (s : State) : (updAdc u f s).upd = s.upd := rfl
@[simp] theorem updAdc_tap (u : Nat) (f : Adc → Adc) (s : State) : (updAdc u f s).tap = s.tap := rfl
@[simp] theorem updAdc_bsr (u : Nat) (f : Adc → Adc) (s : State) : (updAdc u f s).bsr = s.bsr := rfl
@[simp] theorem updAdc_tdo (u : Nat) (f : Adc → Adc) (s : State) : (updAdc u f s).tdo = s.tdo := rfl
@[simp] theorem updAdc_bus (u : Nat) (f : Adc → Adc) (s : State) : (updAdc u f s).bus = s.bus := rfl
@[simp] theorem updAdc_block (u : Nat) (f : Adc → Adc) (s : State) : (updAdc u f s).block = s.block := rfl
@[simp] theorem updAdc_fresh (u : Nat) (f : Adc → Adc) (s : State) : (updAdc u f s).fresh = s.fresh := rfl
@[simp] theorem updAdc_clock (u : Nat) (f : Adc → Adc) (s : State) : (updAdc u f s).clock = s.clock := rfl
@[simp] theorem updAdc_pending (u : Nat) (f : Adc → Adc) (s : State) : (updAdc u f s).pending = s.pending := rfl

@[simp] theorem updScan_regs (p : Nat) (f : Scan → Scan) (s : State) : (updScan p f s).regs = s.regs := rfl
@[simp] theorem updScan_reg (p : Nat) (f : Scan → Scan) (s : State) (x : Nat) : (updScan p f s).reg x = s.reg x := rfl
@[simp] theorem updScan_dieRegs (p : Nat) (f : Scan → Scan) (s : State) : (updScan p f s).dieRegs = s.dieRegs := rfl
@[simp] theorem updScan_dreg (p : Nat) (f : Scan → Scan) (s : State) (x : Nat) : (updScan p f s).dreg x = s.dreg x := rfl
@[simp] theorem updScan_prec (p : Nat) (f : Scan → Scan) (s : State) : (updScan p f s).prec = s.prec := rfl
@[simp] theorem updScan_recOf (p : Nat) (f : Scan → Scan) (s : State) (x y : Nat) : (updScan p f s).recOf x y = s.recOf x y := rfl
@[simp] theorem updScan_mem (p : Nat) (f : Scan → Scan) (s : State) : (updScan p f s).mem = s.mem := rfl
@[simp] theorem updScan_byteAt (p : Nat) (f : Scan → Scan) (s : State) (x y : Nat) : (updScan p f s).byteAt x y = s.byteAt x y := rfl
@[simp] theorem updScan_ecc (p : Nat) (f : Scan → Scan) (s : State) : (updScan p f s).ecc = s.ecc := rfl
@[simp] theorem updScan_wordErr (p : Nat) (f : Scan → Scan) (s : State) (x y : Nat) : (updScan p f s).wordErr x y = s.wordErr x y := rfl
@[simp] theorem updScan_tb (p : Nat) (f : Scan → Scan) (s : State) : (updScan p f s).tb = s.tb := rfl
@[simp] theorem updScan_timer (p : Nat) (f : Scan → Scan) (s : State) : (updScan p f s).timer = s.timer := rfl
@[simp] theorem updScan_timerOf (p : Nat) (f : Scan → Scan) (s : State) (x : Nat) : (updScan p f s).timerOf x = s.timerOf x := rfl
@[simp] theorem updScan_portEv (p : Nat) (f : Scan → Scan) (s : State) : (updScan p f s).portEv = s.portEv := rfl
@[simp] theorem updScan_xat (p : Nat) (f : Scan → Scan) (s : State) : (updScan p f s).xat = s.xat := rfl
@[simp] theorem updScan_port (p : Nat) (f : Scan → Scan) (s : State) : (updScan p f s).port = s.port := rfl
@[simp] theorem updScan_portOf (p : Nat) (f : Scan → Scan) (s : State) (x : Nat) : (updScan p f s).portOf x = s.portOf x := rfl
@[simp] theorem updScan_mir (p : Nat) (f : Scan → Scan) (s : State) : (updScan p f s).mir = s.mir := rfl
@[simp] theorem updScan_mirOf (p : Nat) (f : Scan → Scan) (s : State) (x : Nat) : (updScan p f s).mirOf x = s.mirOf x := rfl
@[simp] theorem updScan_phy (p : Nat) (f : Scan → Scan) (s : State) : (updScan p f s).phy = s.phy := rfl
@[simp] theorem updScan_phyOf (p : Nat) (f : Scan → Scan) (s : State) (x : Nat) : (updScan p f s).phyOf x = s.phyOf x := rfl
@[simp] theorem updScan_hub (p : Nat) (f : Scan → Scan) (s : State) : (updScan p f s).hub = s.hub := rfl
@[simp] theorem updScan_hubOf (p : Nat) (f : Scan → Scan) (s : State) (x : Nat) : (updScan p f s).hubOf x = s.hubOf x := rfl
@[simp] theorem updScan_fw (p : Nat) (f : Scan → Scan) (s : State) : (updScan p f s).fw = s.fw := rfl
@[simp] theorem updScan_fwOf (p : Nat) (f : Scan → Scan) (s : State) (x : Nat) : (updScan p f s).fwOf x = s.fwOf x := rfl
@[simp] theorem updScan_ctx (p : Nat) (f : Scan → Scan) (s : State) : (updScan p f s).ctx = s.ctx := rfl
@[simp] theorem updScan_ctxOf (p : Nat) (f : Scan → Scan) (s : State) (x y : Nat) : (updScan p f s).ctxOf x y = s.ctxOf x y := rfl
@[simp] theorem updScan_pan (p : Nat) (f : Scan → Scan) (s : State) : (updScan p f s).pan = s.pan := rfl
@[simp] theorem updScan_panOf (p : Nat) (f : Scan → Scan) (s : State) (x y : Nat) : (updScan p f s).panOf x y = s.panOf x y := rfl
@[simp] theorem updScan_opq (p : Nat) (f : Scan → Scan) (s : State) : (updScan p f s).opq = s.opq := rfl
@[simp] theorem updScan_opOf (p : Nat) (f : Scan → Scan) (s : State) (x y : Nat) : (updScan p f s).opOf x y = s.opOf x y := rfl
@[simp] theorem updScan_chan (p : Nat) (f : Scan → Scan) (s : State) : (updScan p f s).chan = s.chan := rfl
@[simp] theorem updScan_chanOf (p : Nat) (f : Scan → Scan) (s : State) (x : Nat) : (updScan p f s).chanOf x = s.chanOf x := rfl
@[simp] theorem updScan_bankA (p : Nat) (f : Scan → Scan) (s : State) : (updScan p f s).bankA = s.bankA := rfl
@[simp] theorem updScan_bankB (p : Nat) (f : Scan → Scan) (s : State) : (updScan p f s).bankB = s.bankB := rfl
@[simp] theorem updScan_active (p : Nat) (f : Scan → Scan) (s : State) : (updScan p f s).active = s.active := rfl
@[simp] theorem updScan_fdrMon (p : Nat) (f : Scan → Scan) (s : State) : (updScan p f s).fdrMon = s.fdrMon := rfl
@[simp] theorem updScan_monOf (p : Nat) (f : Scan → Scan) (s : State) (x : Nat) : (updScan p f s).monOf x = s.monOf x := rfl
@[simp] theorem updScan_roundOpen (p : Nat) (f : Scan → Scan) (s : State) : (updScan p f s).roundOpen = s.roundOpen := rfl
@[simp] theorem updScan_switchUs (p : Nat) (f : Scan → Scan) (s : State) : (updScan p f s).switchUs = s.switchUs := rfl
@[simp] theorem updScan_die (p : Nat) (f : Scan → Scan) (s : State) : (updScan p f s).die = s.die := rfl
@[simp] theorem updScan_dieOf (p : Nat) (f : Scan → Scan) (s : State) (x : Nat) : (updScan p f s).dieOf x = s.dieOf x := rfl
@[simp] theorem updScan_crs (p : Nat) (f : Scan → Scan) (s : State) : (updScan p f s).crs = s.crs := rfl
@[simp] theorem updScan_crsOf (p : Nat) (f : Scan → Scan) (s : State) (x : Nat) : (updScan p f s).crsOf x = s.crsOf x := rfl
@[simp] theorem updScan_mbx (p : Nat) (f : Scan → Scan) (s : State) : (updScan p f s).mbx = s.mbx := rfl
@[simp] theorem updScan_mbxOf (p : Nat) (f : Scan → Scan) (s : State) (x y : Nat) : (updScan p f s).mbxOf x y = s.mbxOf x y := rfl
@[simp] theorem updScan_lnk (p : Nat) (f : Scan → Scan) (s : State) : (updScan p f s).lnk = s.lnk := rfl
@[simp] theorem updScan_chainOf (p : Nat) (f : Scan → Scan) (s : State) (x : Nat) : (updScan p f s).chainOf x = s.chainOf x := rfl
@[simp] theorem updScan_enum (p : Nat) (f : Scan → Scan) (s : State) : (updScan p f s).enum = s.enum := rfl
@[simp] theorem updScan_twm (p : Nat) (f : Scan → Scan) (s : State) : (updScan p f s).twm = s.twm := rfl
@[simp] theorem updScan_adc (p : Nat) (f : Scan → Scan) (s : State) : (updScan p f s).adc = s.adc := rfl
@[simp] theorem updScan_adcOf (p : Nat) (f : Scan → Scan) (s : State) (x : Nat) : (updScan p f s).adcOf x = s.adcOf x := rfl
@[simp] theorem updScan_scrubs (p : Nat) (f : Scan → Scan) (s : State) : (updScan p f s).scrubs = s.scrubs := rfl
@[simp] theorem updScan_scrubStart (p : Nat) (f : Scan → Scan) (s : State) : (updScan p f s).scrubStart = s.scrubStart := rfl
@[simp] theorem updScan_ceSecond (p : Nat) (f : Scan → Scan) (s : State) : (updScan p f s).ceSecond = s.ceSecond := rfl
@[simp] theorem updScan_harv (p : Nat) (f : Scan → Scan) (s : State) : (updScan p f s).harv = s.harv := rfl
@[simp] theorem updScan_harvOf (p : Nat) (f : Scan → Scan) (s : State) (x : Nat) : (updScan p f s).harvOf x = s.harvOf x := rfl
@[simp] theorem updScan_fharv (p : Nat) (f : Scan → Scan) (s : State) : (updScan p f s).fharv = s.fharv := rfl
@[simp] theorem updScan_fharvOf (p : Nat) (f : Scan → Scan) (s : State) (x : Nat) : (updScan p f s).fharvOf x = s.fharvOf x := rfl
@[simp] theorem updScan_hrvCyc (p : Nat) (f : Scan → Scan) (s : State) : (updScan p f s).hrvCyc = s.hrvCyc := rfl
@[simp] theorem updScan_clk (p : Nat) (f : Scan → Scan) (s : State) : (updScan p f s).clk = s.clk := rfl
@[simp] theorem updScan_adm (p : Nat) (f : Scan → Scan) (s : State) : (updScan p f s).adm = s.adm := rfl
@[simp] theorem updScan_saved (p : Nat) (f : Scan → Scan) (s : State) : (updScan p f s).saved = s.saved := rfl
@[simp] theorem updScan_log (p : Nat) (f : Scan → Scan) (s : State) : (updScan p f s).log = s.log := rfl
@[simp] theorem updScan_nvmA (p : Nat) (f : Scan → Scan) (s : State) : (updScan p f s).nvmA = s.nvmA := rfl
@[simp] theorem updScan_nvmB (p : Nat) (f : Scan → Scan) (s : State) : (updScan p f s).nvmB = s.nvmB := rfl
@[simp] theorem updScan_boot (p : Nat) (f : Scan → Scan) (s : State) : (updScan p f s).boot = s.boot := rfl
@[simp] theorem updScan_fuse (p : Nat) (f : Scan → Scan) (s : State) : (updScan p f s).fuse = s.fuse := rfl
@[simp] theorem updScan_weak (p : Nat) (f : Scan → Scan) (s : State) : (updScan p f s).weak = s.weak := rfl
@[simp] theorem updScan_otp (p : Nat) (f : Scan → Scan) (s : State) : (updScan p f s).otp = s.otp := rfl
@[simp] theorem updScan_upd (p : Nat) (f : Scan → Scan) (s : State) : (updScan p f s).upd = s.upd := rfl
@[simp] theorem updScan_tap (p : Nat) (f : Scan → Scan) (s : State) : (updScan p f s).tap = s.tap := rfl
@[simp] theorem updScan_bsr (p : Nat) (f : Scan → Scan) (s : State) : (updScan p f s).bsr = s.bsr := rfl
@[simp] theorem updScan_tdo (p : Nat) (f : Scan → Scan) (s : State) : (updScan p f s).tdo = s.tdo := rfl
@[simp] theorem updScan_bus (p : Nat) (f : Scan → Scan) (s : State) : (updScan p f s).bus = s.bus := rfl
@[simp] theorem updScan_block (p : Nat) (f : Scan → Scan) (s : State) : (updScan p f s).block = s.block := rfl
@[simp] theorem updScan_fresh (p : Nat) (f : Scan → Scan) (s : State) : (updScan p f s).fresh = s.fresh := rfl
@[simp] theorem updScan_clock (p : Nat) (f : Scan → Scan) (s : State) : (updScan p f s).clock = s.clock := rfl
@[simp] theorem updScan_pending (p : Nat) (f : Scan → Scan) (s : State) : (updScan p f s).pending = s.pending := rfl

@[simp] theorem updHarv_regs (p : Nat) (f : Harv → Harv) (s : State) : (updHarv p f s).regs = s.regs := rfl
@[simp] theorem updHarv_reg (p : Nat) (f : Harv → Harv) (s : State) (x : Nat) : (updHarv p f s).reg x = s.reg x := rfl
@[simp] theorem updHarv_dieRegs (p : Nat) (f : Harv → Harv) (s : State) : (updHarv p f s).dieRegs = s.dieRegs := rfl
@[simp] theorem updHarv_dreg (p : Nat) (f : Harv → Harv) (s : State) (x : Nat) : (updHarv p f s).dreg x = s.dreg x := rfl
@[simp] theorem updHarv_prec (p : Nat) (f : Harv → Harv) (s : State) : (updHarv p f s).prec = s.prec := rfl
@[simp] theorem updHarv_recOf (p : Nat) (f : Harv → Harv) (s : State) (x y : Nat) : (updHarv p f s).recOf x y = s.recOf x y := rfl
@[simp] theorem updHarv_mem (p : Nat) (f : Harv → Harv) (s : State) : (updHarv p f s).mem = s.mem := rfl
@[simp] theorem updHarv_byteAt (p : Nat) (f : Harv → Harv) (s : State) (x y : Nat) : (updHarv p f s).byteAt x y = s.byteAt x y := rfl
@[simp] theorem updHarv_ecc (p : Nat) (f : Harv → Harv) (s : State) : (updHarv p f s).ecc = s.ecc := rfl
@[simp] theorem updHarv_wordErr (p : Nat) (f : Harv → Harv) (s : State) (x y : Nat) : (updHarv p f s).wordErr x y = s.wordErr x y := rfl
@[simp] theorem updHarv_tb (p : Nat) (f : Harv → Harv) (s : State) : (updHarv p f s).tb = s.tb := rfl
@[simp] theorem updHarv_timer (p : Nat) (f : Harv → Harv) (s : State) : (updHarv p f s).timer = s.timer := rfl
@[simp] theorem updHarv_timerOf (p : Nat) (f : Harv → Harv) (s : State) (x : Nat) : (updHarv p f s).timerOf x = s.timerOf x := rfl
@[simp] theorem updHarv_portEv (p : Nat) (f : Harv → Harv) (s : State) : (updHarv p f s).portEv = s.portEv := rfl
@[simp] theorem updHarv_xat (p : Nat) (f : Harv → Harv) (s : State) : (updHarv p f s).xat = s.xat := rfl
@[simp] theorem updHarv_port (p : Nat) (f : Harv → Harv) (s : State) : (updHarv p f s).port = s.port := rfl
@[simp] theorem updHarv_portOf (p : Nat) (f : Harv → Harv) (s : State) (x : Nat) : (updHarv p f s).portOf x = s.portOf x := rfl
@[simp] theorem updHarv_mir (p : Nat) (f : Harv → Harv) (s : State) : (updHarv p f s).mir = s.mir := rfl
@[simp] theorem updHarv_mirOf (p : Nat) (f : Harv → Harv) (s : State) (x : Nat) : (updHarv p f s).mirOf x = s.mirOf x := rfl
@[simp] theorem updHarv_phy (p : Nat) (f : Harv → Harv) (s : State) : (updHarv p f s).phy = s.phy := rfl
@[simp] theorem updHarv_phyOf (p : Nat) (f : Harv → Harv) (s : State) (x : Nat) : (updHarv p f s).phyOf x = s.phyOf x := rfl
@[simp] theorem updHarv_hub (p : Nat) (f : Harv → Harv) (s : State) : (updHarv p f s).hub = s.hub := rfl
@[simp] theorem updHarv_hubOf (p : Nat) (f : Harv → Harv) (s : State) (x : Nat) : (updHarv p f s).hubOf x = s.hubOf x := rfl
@[simp] theorem updHarv_fw (p : Nat) (f : Harv → Harv) (s : State) : (updHarv p f s).fw = s.fw := rfl
@[simp] theorem updHarv_fwOf (p : Nat) (f : Harv → Harv) (s : State) (x : Nat) : (updHarv p f s).fwOf x = s.fwOf x := rfl
@[simp] theorem updHarv_ctx (p : Nat) (f : Harv → Harv) (s : State) : (updHarv p f s).ctx = s.ctx := rfl
@[simp] theorem updHarv_ctxOf (p : Nat) (f : Harv → Harv) (s : State) (x y : Nat) : (updHarv p f s).ctxOf x y = s.ctxOf x y := rfl
@[simp] theorem updHarv_pan (p : Nat) (f : Harv → Harv) (s : State) : (updHarv p f s).pan = s.pan := rfl
@[simp] theorem updHarv_panOf (p : Nat) (f : Harv → Harv) (s : State) (x y : Nat) : (updHarv p f s).panOf x y = s.panOf x y := rfl
@[simp] theorem updHarv_opq (p : Nat) (f : Harv → Harv) (s : State) : (updHarv p f s).opq = s.opq := rfl
@[simp] theorem updHarv_opOf (p : Nat) (f : Harv → Harv) (s : State) (x y : Nat) : (updHarv p f s).opOf x y = s.opOf x y := rfl
@[simp] theorem updHarv_chan (p : Nat) (f : Harv → Harv) (s : State) : (updHarv p f s).chan = s.chan := rfl
@[simp] theorem updHarv_chanOf (p : Nat) (f : Harv → Harv) (s : State) (x : Nat) : (updHarv p f s).chanOf x = s.chanOf x := rfl
@[simp] theorem updHarv_bankA (p : Nat) (f : Harv → Harv) (s : State) : (updHarv p f s).bankA = s.bankA := rfl
@[simp] theorem updHarv_bankB (p : Nat) (f : Harv → Harv) (s : State) : (updHarv p f s).bankB = s.bankB := rfl
@[simp] theorem updHarv_active (p : Nat) (f : Harv → Harv) (s : State) : (updHarv p f s).active = s.active := rfl
@[simp] theorem updHarv_fdrMon (p : Nat) (f : Harv → Harv) (s : State) : (updHarv p f s).fdrMon = s.fdrMon := rfl
@[simp] theorem updHarv_monOf (p : Nat) (f : Harv → Harv) (s : State) (x : Nat) : (updHarv p f s).monOf x = s.monOf x := rfl
@[simp] theorem updHarv_roundOpen (p : Nat) (f : Harv → Harv) (s : State) : (updHarv p f s).roundOpen = s.roundOpen := rfl
@[simp] theorem updHarv_switchUs (p : Nat) (f : Harv → Harv) (s : State) : (updHarv p f s).switchUs = s.switchUs := rfl
@[simp] theorem updHarv_die (p : Nat) (f : Harv → Harv) (s : State) : (updHarv p f s).die = s.die := rfl
@[simp] theorem updHarv_dieOf (p : Nat) (f : Harv → Harv) (s : State) (x : Nat) : (updHarv p f s).dieOf x = s.dieOf x := rfl
@[simp] theorem updHarv_crs (p : Nat) (f : Harv → Harv) (s : State) : (updHarv p f s).crs = s.crs := rfl
@[simp] theorem updHarv_crsOf (p : Nat) (f : Harv → Harv) (s : State) (x : Nat) : (updHarv p f s).crsOf x = s.crsOf x := rfl
@[simp] theorem updHarv_mbx (p : Nat) (f : Harv → Harv) (s : State) : (updHarv p f s).mbx = s.mbx := rfl
@[simp] theorem updHarv_mbxOf (p : Nat) (f : Harv → Harv) (s : State) (x y : Nat) : (updHarv p f s).mbxOf x y = s.mbxOf x y := rfl
@[simp] theorem updHarv_lnk (p : Nat) (f : Harv → Harv) (s : State) : (updHarv p f s).lnk = s.lnk := rfl
@[simp] theorem updHarv_chainOf (p : Nat) (f : Harv → Harv) (s : State) (x : Nat) : (updHarv p f s).chainOf x = s.chainOf x := rfl
@[simp] theorem updHarv_enum (p : Nat) (f : Harv → Harv) (s : State) : (updHarv p f s).enum = s.enum := rfl
@[simp] theorem updHarv_twm (p : Nat) (f : Harv → Harv) (s : State) : (updHarv p f s).twm = s.twm := rfl
@[simp] theorem updHarv_adc (p : Nat) (f : Harv → Harv) (s : State) : (updHarv p f s).adc = s.adc := rfl
@[simp] theorem updHarv_adcOf (p : Nat) (f : Harv → Harv) (s : State) (x : Nat) : (updHarv p f s).adcOf x = s.adcOf x := rfl
@[simp] theorem updHarv_scan (p : Nat) (f : Harv → Harv) (s : State) : (updHarv p f s).scan = s.scan := rfl
@[simp] theorem updHarv_scanOf (p : Nat) (f : Harv → Harv) (s : State) (x : Nat) : (updHarv p f s).scanOf x = s.scanOf x := rfl
@[simp] theorem updHarv_scrubs (p : Nat) (f : Harv → Harv) (s : State) : (updHarv p f s).scrubs = s.scrubs := rfl
@[simp] theorem updHarv_scrubStart (p : Nat) (f : Harv → Harv) (s : State) : (updHarv p f s).scrubStart = s.scrubStart := rfl
@[simp] theorem updHarv_ceSecond (p : Nat) (f : Harv → Harv) (s : State) : (updHarv p f s).ceSecond = s.ceSecond := rfl
@[simp] theorem updHarv_fharv (p : Nat) (f : Harv → Harv) (s : State) : (updHarv p f s).fharv = s.fharv := rfl
@[simp] theorem updHarv_fharvOf (p : Nat) (f : Harv → Harv) (s : State) (x : Nat) : (updHarv p f s).fharvOf x = s.fharvOf x := rfl
@[simp] theorem updHarv_hrvCyc (p : Nat) (f : Harv → Harv) (s : State) : (updHarv p f s).hrvCyc = s.hrvCyc := rfl
@[simp] theorem updHarv_clk (p : Nat) (f : Harv → Harv) (s : State) : (updHarv p f s).clk = s.clk := rfl
@[simp] theorem updHarv_adm (p : Nat) (f : Harv → Harv) (s : State) : (updHarv p f s).adm = s.adm := rfl
@[simp] theorem updHarv_saved (p : Nat) (f : Harv → Harv) (s : State) : (updHarv p f s).saved = s.saved := rfl
@[simp] theorem updHarv_log (p : Nat) (f : Harv → Harv) (s : State) : (updHarv p f s).log = s.log := rfl
@[simp] theorem updHarv_nvmA (p : Nat) (f : Harv → Harv) (s : State) : (updHarv p f s).nvmA = s.nvmA := rfl
@[simp] theorem updHarv_nvmB (p : Nat) (f : Harv → Harv) (s : State) : (updHarv p f s).nvmB = s.nvmB := rfl
@[simp] theorem updHarv_boot (p : Nat) (f : Harv → Harv) (s : State) : (updHarv p f s).boot = s.boot := rfl
@[simp] theorem updHarv_fuse (p : Nat) (f : Harv → Harv) (s : State) : (updHarv p f s).fuse = s.fuse := rfl
@[simp] theorem updHarv_weak (p : Nat) (f : Harv → Harv) (s : State) : (updHarv p f s).weak = s.weak := rfl
@[simp] theorem updHarv_otp (p : Nat) (f : Harv → Harv) (s : State) : (updHarv p f s).otp = s.otp := rfl
@[simp] theorem updHarv_upd (p : Nat) (f : Harv → Harv) (s : State) : (updHarv p f s).upd = s.upd := rfl
@[simp] theorem updHarv_tap (p : Nat) (f : Harv → Harv) (s : State) : (updHarv p f s).tap = s.tap := rfl
@[simp] theorem updHarv_bsr (p : Nat) (f : Harv → Harv) (s : State) : (updHarv p f s).bsr = s.bsr := rfl
@[simp] theorem updHarv_tdo (p : Nat) (f : Harv → Harv) (s : State) : (updHarv p f s).tdo = s.tdo := rfl
@[simp] theorem updHarv_bus (p : Nat) (f : Harv → Harv) (s : State) : (updHarv p f s).bus = s.bus := rfl
@[simp] theorem updHarv_block (p : Nat) (f : Harv → Harv) (s : State) : (updHarv p f s).block = s.block := rfl
@[simp] theorem updHarv_fresh (p : Nat) (f : Harv → Harv) (s : State) : (updHarv p f s).fresh = s.fresh := rfl
@[simp] theorem updHarv_clock (p : Nat) (f : Harv → Harv) (s : State) : (updHarv p f s).clock = s.clock := rfl
@[simp] theorem updHarv_pending (p : Nat) (f : Harv → Harv) (s : State) : (updHarv p f s).pending = s.pending := rfl

@[simp] theorem updFharv_regs (n : Nat) (g : FHarv → FHarv) (s : State) : (updFharv n g s).regs = s.regs := rfl
@[simp] theorem updFharv_reg (n : Nat) (g : FHarv → FHarv) (s : State) (x : Nat) : (updFharv n g s).reg x = s.reg x := rfl
@[simp] theorem updFharv_dieRegs (n : Nat) (g : FHarv → FHarv) (s : State) : (updFharv n g s).dieRegs = s.dieRegs := rfl
@[simp] theorem updFharv_dreg (n : Nat) (g : FHarv → FHarv) (s : State) (x : Nat) : (updFharv n g s).dreg x = s.dreg x := rfl
@[simp] theorem updFharv_prec (n : Nat) (g : FHarv → FHarv) (s : State) : (updFharv n g s).prec = s.prec := rfl
@[simp] theorem updFharv_recOf (n : Nat) (g : FHarv → FHarv) (s : State) (x y : Nat) : (updFharv n g s).recOf x y = s.recOf x y := rfl
@[simp] theorem updFharv_mem (n : Nat) (g : FHarv → FHarv) (s : State) : (updFharv n g s).mem = s.mem := rfl
@[simp] theorem updFharv_byteAt (n : Nat) (g : FHarv → FHarv) (s : State) (x y : Nat) : (updFharv n g s).byteAt x y = s.byteAt x y := rfl
@[simp] theorem updFharv_ecc (n : Nat) (g : FHarv → FHarv) (s : State) : (updFharv n g s).ecc = s.ecc := rfl
@[simp] theorem updFharv_wordErr (n : Nat) (g : FHarv → FHarv) (s : State) (x y : Nat) : (updFharv n g s).wordErr x y = s.wordErr x y := rfl
@[simp] theorem updFharv_tb (n : Nat) (g : FHarv → FHarv) (s : State) : (updFharv n g s).tb = s.tb := rfl
@[simp] theorem updFharv_timer (n : Nat) (g : FHarv → FHarv) (s : State) : (updFharv n g s).timer = s.timer := rfl
@[simp] theorem updFharv_timerOf (n : Nat) (g : FHarv → FHarv) (s : State) (x : Nat) : (updFharv n g s).timerOf x = s.timerOf x := rfl
@[simp] theorem updFharv_portEv (n : Nat) (g : FHarv → FHarv) (s : State) : (updFharv n g s).portEv = s.portEv := rfl
@[simp] theorem updFharv_xat (n : Nat) (g : FHarv → FHarv) (s : State) : (updFharv n g s).xat = s.xat := rfl
@[simp] theorem updFharv_port (n : Nat) (g : FHarv → FHarv) (s : State) : (updFharv n g s).port = s.port := rfl
@[simp] theorem updFharv_portOf (n : Nat) (g : FHarv → FHarv) (s : State) (x : Nat) : (updFharv n g s).portOf x = s.portOf x := rfl
@[simp] theorem updFharv_mir (n : Nat) (g : FHarv → FHarv) (s : State) : (updFharv n g s).mir = s.mir := rfl
@[simp] theorem updFharv_mirOf (n : Nat) (g : FHarv → FHarv) (s : State) (x : Nat) : (updFharv n g s).mirOf x = s.mirOf x := rfl
@[simp] theorem updFharv_phy (n : Nat) (g : FHarv → FHarv) (s : State) : (updFharv n g s).phy = s.phy := rfl
@[simp] theorem updFharv_phyOf (n : Nat) (g : FHarv → FHarv) (s : State) (x : Nat) : (updFharv n g s).phyOf x = s.phyOf x := rfl
@[simp] theorem updFharv_hub (n : Nat) (g : FHarv → FHarv) (s : State) : (updFharv n g s).hub = s.hub := rfl
@[simp] theorem updFharv_hubOf (n : Nat) (g : FHarv → FHarv) (s : State) (x : Nat) : (updFharv n g s).hubOf x = s.hubOf x := rfl
@[simp] theorem updFharv_fw (n : Nat) (g : FHarv → FHarv) (s : State) : (updFharv n g s).fw = s.fw := rfl
@[simp] theorem updFharv_fwOf (n : Nat) (g : FHarv → FHarv) (s : State) (x : Nat) : (updFharv n g s).fwOf x = s.fwOf x := rfl
@[simp] theorem updFharv_ctx (n : Nat) (g : FHarv → FHarv) (s : State) : (updFharv n g s).ctx = s.ctx := rfl
@[simp] theorem updFharv_ctxOf (n : Nat) (g : FHarv → FHarv) (s : State) (x y : Nat) : (updFharv n g s).ctxOf x y = s.ctxOf x y := rfl
@[simp] theorem updFharv_pan (n : Nat) (g : FHarv → FHarv) (s : State) : (updFharv n g s).pan = s.pan := rfl
@[simp] theorem updFharv_panOf (n : Nat) (g : FHarv → FHarv) (s : State) (x y : Nat) : (updFharv n g s).panOf x y = s.panOf x y := rfl
@[simp] theorem updFharv_opq (n : Nat) (g : FHarv → FHarv) (s : State) : (updFharv n g s).opq = s.opq := rfl
@[simp] theorem updFharv_opOf (n : Nat) (g : FHarv → FHarv) (s : State) (x y : Nat) : (updFharv n g s).opOf x y = s.opOf x y := rfl
@[simp] theorem updFharv_chan (n : Nat) (g : FHarv → FHarv) (s : State) : (updFharv n g s).chan = s.chan := rfl
@[simp] theorem updFharv_chanOf (n : Nat) (g : FHarv → FHarv) (s : State) (x : Nat) : (updFharv n g s).chanOf x = s.chanOf x := rfl
@[simp] theorem updFharv_bankA (n : Nat) (g : FHarv → FHarv) (s : State) : (updFharv n g s).bankA = s.bankA := rfl
@[simp] theorem updFharv_bankB (n : Nat) (g : FHarv → FHarv) (s : State) : (updFharv n g s).bankB = s.bankB := rfl
@[simp] theorem updFharv_active (n : Nat) (g : FHarv → FHarv) (s : State) : (updFharv n g s).active = s.active := rfl
@[simp] theorem updFharv_fdrMon (n : Nat) (g : FHarv → FHarv) (s : State) : (updFharv n g s).fdrMon = s.fdrMon := rfl
@[simp] theorem updFharv_monOf (n : Nat) (g : FHarv → FHarv) (s : State) (x : Nat) : (updFharv n g s).monOf x = s.monOf x := rfl
@[simp] theorem updFharv_roundOpen (n : Nat) (g : FHarv → FHarv) (s : State) : (updFharv n g s).roundOpen = s.roundOpen := rfl
@[simp] theorem updFharv_switchUs (n : Nat) (g : FHarv → FHarv) (s : State) : (updFharv n g s).switchUs = s.switchUs := rfl
@[simp] theorem updFharv_die (n : Nat) (g : FHarv → FHarv) (s : State) : (updFharv n g s).die = s.die := rfl
@[simp] theorem updFharv_dieOf (n : Nat) (g : FHarv → FHarv) (s : State) (x : Nat) : (updFharv n g s).dieOf x = s.dieOf x := rfl
@[simp] theorem updFharv_crs (n : Nat) (g : FHarv → FHarv) (s : State) : (updFharv n g s).crs = s.crs := rfl
@[simp] theorem updFharv_crsOf (n : Nat) (g : FHarv → FHarv) (s : State) (x : Nat) : (updFharv n g s).crsOf x = s.crsOf x := rfl
@[simp] theorem updFharv_mbx (n : Nat) (g : FHarv → FHarv) (s : State) : (updFharv n g s).mbx = s.mbx := rfl
@[simp] theorem updFharv_mbxOf (n : Nat) (g : FHarv → FHarv) (s : State) (x y : Nat) : (updFharv n g s).mbxOf x y = s.mbxOf x y := rfl
@[simp] theorem updFharv_lnk (n : Nat) (g : FHarv → FHarv) (s : State) : (updFharv n g s).lnk = s.lnk := rfl
@[simp] theorem updFharv_chainOf (n : Nat) (g : FHarv → FHarv) (s : State) (x : Nat) : (updFharv n g s).chainOf x = s.chainOf x := rfl
@[simp] theorem updFharv_enum (n : Nat) (g : FHarv → FHarv) (s : State) : (updFharv n g s).enum = s.enum := rfl
@[simp] theorem updFharv_twm (n : Nat) (g : FHarv → FHarv) (s : State) : (updFharv n g s).twm = s.twm := rfl
@[simp] theorem updFharv_adc (n : Nat) (g : FHarv → FHarv) (s : State) : (updFharv n g s).adc = s.adc := rfl
@[simp] theorem updFharv_adcOf (n : Nat) (g : FHarv → FHarv) (s : State) (x : Nat) : (updFharv n g s).adcOf x = s.adcOf x := rfl
@[simp] theorem updFharv_scan (n : Nat) (g : FHarv → FHarv) (s : State) : (updFharv n g s).scan = s.scan := rfl
@[simp] theorem updFharv_scanOf (n : Nat) (g : FHarv → FHarv) (s : State) (x : Nat) : (updFharv n g s).scanOf x = s.scanOf x := rfl
@[simp] theorem updFharv_scrubs (n : Nat) (g : FHarv → FHarv) (s : State) : (updFharv n g s).scrubs = s.scrubs := rfl
@[simp] theorem updFharv_scrubStart (n : Nat) (g : FHarv → FHarv) (s : State) : (updFharv n g s).scrubStart = s.scrubStart := rfl
@[simp] theorem updFharv_ceSecond (n : Nat) (g : FHarv → FHarv) (s : State) : (updFharv n g s).ceSecond = s.ceSecond := rfl
@[simp] theorem updFharv_harv (n : Nat) (g : FHarv → FHarv) (s : State) : (updFharv n g s).harv = s.harv := rfl
@[simp] theorem updFharv_harvOf (n : Nat) (g : FHarv → FHarv) (s : State) (x : Nat) : (updFharv n g s).harvOf x = s.harvOf x := rfl
@[simp] theorem updFharv_hrvCyc (n : Nat) (g : FHarv → FHarv) (s : State) : (updFharv n g s).hrvCyc = s.hrvCyc := rfl
@[simp] theorem updFharv_clk (n : Nat) (g : FHarv → FHarv) (s : State) : (updFharv n g s).clk = s.clk := rfl
@[simp] theorem updFharv_adm (n : Nat) (g : FHarv → FHarv) (s : State) : (updFharv n g s).adm = s.adm := rfl
@[simp] theorem updFharv_saved (n : Nat) (g : FHarv → FHarv) (s : State) : (updFharv n g s).saved = s.saved := rfl
@[simp] theorem updFharv_log (n : Nat) (g : FHarv → FHarv) (s : State) : (updFharv n g s).log = s.log := rfl
@[simp] theorem updFharv_nvmA (n : Nat) (g : FHarv → FHarv) (s : State) : (updFharv n g s).nvmA = s.nvmA := rfl
@[simp] theorem updFharv_nvmB (n : Nat) (g : FHarv → FHarv) (s : State) : (updFharv n g s).nvmB = s.nvmB := rfl
@[simp] theorem updFharv_boot (n : Nat) (g : FHarv → FHarv) (s : State) : (updFharv n g s).boot = s.boot := rfl
@[simp] theorem updFharv_fuse (n : Nat) (g : FHarv → FHarv) (s : State) : (updFharv n g s).fuse = s.fuse := rfl
@[simp] theorem updFharv_weak (n : Nat) (g : FHarv → FHarv) (s : State) : (updFharv n g s).weak = s.weak := rfl
@[simp] theorem updFharv_otp (n : Nat) (g : FHarv → FHarv) (s : State) : (updFharv n g s).otp = s.otp := rfl
@[simp] theorem updFharv_upd (n : Nat) (g : FHarv → FHarv) (s : State) : (updFharv n g s).upd = s.upd := rfl
@[simp] theorem updFharv_tap (n : Nat) (g : FHarv → FHarv) (s : State) : (updFharv n g s).tap = s.tap := rfl
@[simp] theorem updFharv_bsr (n : Nat) (g : FHarv → FHarv) (s : State) : (updFharv n g s).bsr = s.bsr := rfl
@[simp] theorem updFharv_tdo (n : Nat) (g : FHarv → FHarv) (s : State) : (updFharv n g s).tdo = s.tdo := rfl
@[simp] theorem updFharv_bus (n : Nat) (g : FHarv → FHarv) (s : State) : (updFharv n g s).bus = s.bus := rfl
@[simp] theorem updFharv_block (n : Nat) (g : FHarv → FHarv) (s : State) : (updFharv n g s).block = s.block := rfl
@[simp] theorem updFharv_fresh (n : Nat) (g : FHarv → FHarv) (s : State) : (updFharv n g s).fresh = s.fresh := rfl
@[simp] theorem updFharv_clock (n : Nat) (g : FHarv → FHarv) (s : State) : (updFharv n g s).clock = s.clock := rfl
@[simp] theorem updFharv_pending (n : Nat) (g : FHarv → FHarv) (s : State) : (updFharv n g s).pending = s.pending := rfl

@[simp] theorem updMir_regs (p : Nat) (f : Port → Port) (s : State) : (updMir p f s).regs = s.regs := rfl
@[simp] theorem updMir_reg (p : Nat) (f : Port → Port) (s : State) (x : Nat) : (updMir p f s).reg x = s.reg x := rfl
@[simp] theorem updMir_dieRegs (p : Nat) (f : Port → Port) (s : State) : (updMir p f s).dieRegs = s.dieRegs := rfl
@[simp] theorem updMir_dreg (p : Nat) (f : Port → Port) (s : State) (x : Nat) : (updMir p f s).dreg x = s.dreg x := rfl
@[simp] theorem updMir_prec (p : Nat) (f : Port → Port) (s : State) : (updMir p f s).prec = s.prec := rfl
@[simp] theorem updMir_recOf (p : Nat) (f : Port → Port) (s : State) (x y : Nat) : (updMir p f s).recOf x y = s.recOf x y := rfl
@[simp] theorem updMir_mem (p : Nat) (f : Port → Port) (s : State) : (updMir p f s).mem = s.mem := rfl
@[simp] theorem updMir_byteAt (p : Nat) (f : Port → Port) (s : State) (x y : Nat) : (updMir p f s).byteAt x y = s.byteAt x y := rfl
@[simp] theorem updMir_ecc (p : Nat) (f : Port → Port) (s : State) : (updMir p f s).ecc = s.ecc := rfl
@[simp] theorem updMir_wordErr (p : Nat) (f : Port → Port) (s : State) (x y : Nat) : (updMir p f s).wordErr x y = s.wordErr x y := rfl
@[simp] theorem updMir_tb (p : Nat) (f : Port → Port) (s : State) : (updMir p f s).tb = s.tb := rfl
@[simp] theorem updMir_timer (p : Nat) (f : Port → Port) (s : State) : (updMir p f s).timer = s.timer := rfl
@[simp] theorem updMir_timerOf (p : Nat) (f : Port → Port) (s : State) (x : Nat) : (updMir p f s).timerOf x = s.timerOf x := rfl
@[simp] theorem updMir_portEv (p : Nat) (f : Port → Port) (s : State) : (updMir p f s).portEv = s.portEv := rfl
@[simp] theorem updMir_xat (p : Nat) (f : Port → Port) (s : State) : (updMir p f s).xat = s.xat := rfl
@[simp] theorem updMir_port (p : Nat) (f : Port → Port) (s : State) : (updMir p f s).port = s.port := rfl
@[simp] theorem updMir_portOf (p : Nat) (f : Port → Port) (s : State) (x : Nat) : (updMir p f s).portOf x = s.portOf x := rfl
@[simp] theorem updMir_phy (p : Nat) (f : Port → Port) (s : State) : (updMir p f s).phy = s.phy := rfl
@[simp] theorem updMir_phyOf (p : Nat) (f : Port → Port) (s : State) (x : Nat) : (updMir p f s).phyOf x = s.phyOf x := rfl
@[simp] theorem updMir_hub (p : Nat) (f : Port → Port) (s : State) : (updMir p f s).hub = s.hub := rfl
@[simp] theorem updMir_hubOf (p : Nat) (f : Port → Port) (s : State) (x : Nat) : (updMir p f s).hubOf x = s.hubOf x := rfl
@[simp] theorem updMir_fw (p : Nat) (f : Port → Port) (s : State) : (updMir p f s).fw = s.fw := rfl
@[simp] theorem updMir_fwOf (p : Nat) (f : Port → Port) (s : State) (x : Nat) : (updMir p f s).fwOf x = s.fwOf x := rfl
@[simp] theorem updMir_ctx (p : Nat) (f : Port → Port) (s : State) : (updMir p f s).ctx = s.ctx := rfl
@[simp] theorem updMir_ctxOf (p : Nat) (f : Port → Port) (s : State) (x y : Nat) : (updMir p f s).ctxOf x y = s.ctxOf x y := rfl
@[simp] theorem updMir_pan (p : Nat) (f : Port → Port) (s : State) : (updMir p f s).pan = s.pan := rfl
@[simp] theorem updMir_panOf (p : Nat) (f : Port → Port) (s : State) (x y : Nat) : (updMir p f s).panOf x y = s.panOf x y := rfl
@[simp] theorem updMir_opq (p : Nat) (f : Port → Port) (s : State) : (updMir p f s).opq = s.opq := rfl
@[simp] theorem updMir_opOf (p : Nat) (f : Port → Port) (s : State) (x y : Nat) : (updMir p f s).opOf x y = s.opOf x y := rfl
@[simp] theorem updMir_chan (p : Nat) (f : Port → Port) (s : State) : (updMir p f s).chan = s.chan := rfl
@[simp] theorem updMir_chanOf (p : Nat) (f : Port → Port) (s : State) (x : Nat) : (updMir p f s).chanOf x = s.chanOf x := rfl
@[simp] theorem updMir_bankA (p : Nat) (f : Port → Port) (s : State) : (updMir p f s).bankA = s.bankA := rfl
@[simp] theorem updMir_bankB (p : Nat) (f : Port → Port) (s : State) : (updMir p f s).bankB = s.bankB := rfl
@[simp] theorem updMir_active (p : Nat) (f : Port → Port) (s : State) : (updMir p f s).active = s.active := rfl
@[simp] theorem updMir_fdrMon (p : Nat) (f : Port → Port) (s : State) : (updMir p f s).fdrMon = s.fdrMon := rfl
@[simp] theorem updMir_monOf (p : Nat) (f : Port → Port) (s : State) (x : Nat) : (updMir p f s).monOf x = s.monOf x := rfl
@[simp] theorem updMir_roundOpen (p : Nat) (f : Port → Port) (s : State) : (updMir p f s).roundOpen = s.roundOpen := rfl
@[simp] theorem updMir_switchUs (p : Nat) (f : Port → Port) (s : State) : (updMir p f s).switchUs = s.switchUs := rfl
@[simp] theorem updMir_die (p : Nat) (f : Port → Port) (s : State) : (updMir p f s).die = s.die := rfl
@[simp] theorem updMir_dieOf (p : Nat) (f : Port → Port) (s : State) (x : Nat) : (updMir p f s).dieOf x = s.dieOf x := rfl
@[simp] theorem updMir_crs (p : Nat) (f : Port → Port) (s : State) : (updMir p f s).crs = s.crs := rfl
@[simp] theorem updMir_crsOf (p : Nat) (f : Port → Port) (s : State) (x : Nat) : (updMir p f s).crsOf x = s.crsOf x := rfl
@[simp] theorem updMir_mbx (p : Nat) (f : Port → Port) (s : State) : (updMir p f s).mbx = s.mbx := rfl
@[simp] theorem updMir_mbxOf (p : Nat) (f : Port → Port) (s : State) (x y : Nat) : (updMir p f s).mbxOf x y = s.mbxOf x y := rfl
@[simp] theorem updMir_lnk (p : Nat) (f : Port → Port) (s : State) : (updMir p f s).lnk = s.lnk := rfl
@[simp] theorem updMir_chainOf (p : Nat) (f : Port → Port) (s : State) (x : Nat) : (updMir p f s).chainOf x = s.chainOf x := rfl
@[simp] theorem updMir_enum (p : Nat) (f : Port → Port) (s : State) : (updMir p f s).enum = s.enum := rfl
@[simp] theorem updMir_twm (p : Nat) (f : Port → Port) (s : State) : (updMir p f s).twm = s.twm := rfl
@[simp] theorem updMir_adc (p : Nat) (f : Port → Port) (s : State) : (updMir p f s).adc = s.adc := rfl
@[simp] theorem updMir_adcOf (p : Nat) (f : Port → Port) (s : State) (x : Nat) : (updMir p f s).adcOf x = s.adcOf x := rfl
@[simp] theorem updMir_scan (p : Nat) (f : Port → Port) (s : State) : (updMir p f s).scan = s.scan := rfl
@[simp] theorem updMir_scanOf (p : Nat) (f : Port → Port) (s : State) (x : Nat) : (updMir p f s).scanOf x = s.scanOf x := rfl
@[simp] theorem updMir_scrubs (p : Nat) (f : Port → Port) (s : State) : (updMir p f s).scrubs = s.scrubs := rfl
@[simp] theorem updMir_scrubStart (p : Nat) (f : Port → Port) (s : State) : (updMir p f s).scrubStart = s.scrubStart := rfl
@[simp] theorem updMir_ceSecond (p : Nat) (f : Port → Port) (s : State) : (updMir p f s).ceSecond = s.ceSecond := rfl
@[simp] theorem updMir_harv (p : Nat) (f : Port → Port) (s : State) : (updMir p f s).harv = s.harv := rfl
@[simp] theorem updMir_harvOf (p : Nat) (f : Port → Port) (s : State) (x : Nat) : (updMir p f s).harvOf x = s.harvOf x := rfl
@[simp] theorem updMir_fharv (p : Nat) (f : Port → Port) (s : State) : (updMir p f s).fharv = s.fharv := rfl
@[simp] theorem updMir_fharvOf (p : Nat) (f : Port → Port) (s : State) (x : Nat) : (updMir p f s).fharvOf x = s.fharvOf x := rfl
@[simp] theorem updMir_hrvCyc (p : Nat) (f : Port → Port) (s : State) : (updMir p f s).hrvCyc = s.hrvCyc := rfl
@[simp] theorem updMir_clk (p : Nat) (f : Port → Port) (s : State) : (updMir p f s).clk = s.clk := rfl
@[simp] theorem updMir_adm (p : Nat) (f : Port → Port) (s : State) : (updMir p f s).adm = s.adm := rfl
@[simp] theorem updMir_saved (p : Nat) (f : Port → Port) (s : State) : (updMir p f s).saved = s.saved := rfl
@[simp] theorem updMir_log (p : Nat) (f : Port → Port) (s : State) : (updMir p f s).log = s.log := rfl
@[simp] theorem updMir_nvmA (p : Nat) (f : Port → Port) (s : State) : (updMir p f s).nvmA = s.nvmA := rfl
@[simp] theorem updMir_nvmB (p : Nat) (f : Port → Port) (s : State) : (updMir p f s).nvmB = s.nvmB := rfl
@[simp] theorem updMir_boot (p : Nat) (f : Port → Port) (s : State) : (updMir p f s).boot = s.boot := rfl
@[simp] theorem updMir_fuse (p : Nat) (f : Port → Port) (s : State) : (updMir p f s).fuse = s.fuse := rfl
@[simp] theorem updMir_weak (p : Nat) (f : Port → Port) (s : State) : (updMir p f s).weak = s.weak := rfl
@[simp] theorem updMir_otp (p : Nat) (f : Port → Port) (s : State) : (updMir p f s).otp = s.otp := rfl
@[simp] theorem updMir_upd (p : Nat) (f : Port → Port) (s : State) : (updMir p f s).upd = s.upd := rfl
@[simp] theorem updMir_tap (p : Nat) (f : Port → Port) (s : State) : (updMir p f s).tap = s.tap := rfl
@[simp] theorem updMir_bsr (p : Nat) (f : Port → Port) (s : State) : (updMir p f s).bsr = s.bsr := rfl
@[simp] theorem updMir_tdo (p : Nat) (f : Port → Port) (s : State) : (updMir p f s).tdo = s.tdo := rfl
@[simp] theorem updMir_bus (p : Nat) (f : Port → Port) (s : State) : (updMir p f s).bus = s.bus := rfl
@[simp] theorem updMir_block (p : Nat) (f : Port → Port) (s : State) : (updMir p f s).block = s.block := rfl
@[simp] theorem updMir_fresh (p : Nat) (f : Port → Port) (s : State) : (updMir p f s).fresh = s.fresh := rfl
@[simp] theorem updMir_clock (p : Nat) (f : Port → Port) (s : State) : (updMir p f s).clock = s.clock := rfl
@[simp] theorem updMir_pending (p : Nat) (f : Port → Port) (s : State) : (updMir p f s).pending = s.pending := rfl

@[simp] theorem setBus_regs (v : Word) (s : State) : (setBus v s).regs = s.regs := rfl
@[simp] theorem setBus_reg (v : Word) (s : State) (x : Nat) : (setBus v s).reg x = s.reg x := rfl
@[simp] theorem setBus_dieRegs (v : Word) (s : State) : (setBus v s).dieRegs = s.dieRegs := rfl
@[simp] theorem setBus_dreg (v : Word) (s : State) (x : Nat) : (setBus v s).dreg x = s.dreg x := rfl
@[simp] theorem setBus_prec (v : Word) (s : State) : (setBus v s).prec = s.prec := rfl
@[simp] theorem setBus_recOf (v : Word) (s : State) (x y : Nat) : (setBus v s).recOf x y = s.recOf x y := rfl
@[simp] theorem setBus_mem (v : Word) (s : State) : (setBus v s).mem = s.mem := rfl
@[simp] theorem setBus_byteAt (v : Word) (s : State) (x y : Nat) : (setBus v s).byteAt x y = s.byteAt x y := rfl
@[simp] theorem setBus_ecc (v : Word) (s : State) : (setBus v s).ecc = s.ecc := rfl
@[simp] theorem setBus_wordErr (v : Word) (s : State) (x y : Nat) : (setBus v s).wordErr x y = s.wordErr x y := rfl
@[simp] theorem setBus_tb (v : Word) (s : State) : (setBus v s).tb = s.tb := rfl
@[simp] theorem setBus_timer (v : Word) (s : State) : (setBus v s).timer = s.timer := rfl
@[simp] theorem setBus_timerOf (v : Word) (s : State) (x : Nat) : (setBus v s).timerOf x = s.timerOf x := rfl
@[simp] theorem setBus_portEv (v : Word) (s : State) : (setBus v s).portEv = s.portEv := rfl
@[simp] theorem setBus_xat (v : Word) (s : State) : (setBus v s).xat = s.xat := rfl
@[simp] theorem setBus_port (v : Word) (s : State) : (setBus v s).port = s.port := rfl
@[simp] theorem setBus_portOf (v : Word) (s : State) (x : Nat) : (setBus v s).portOf x = s.portOf x := rfl
@[simp] theorem setBus_mir (v : Word) (s : State) : (setBus v s).mir = s.mir := rfl
@[simp] theorem setBus_mirOf (v : Word) (s : State) (x : Nat) : (setBus v s).mirOf x = s.mirOf x := rfl
@[simp] theorem setBus_phy (v : Word) (s : State) : (setBus v s).phy = s.phy := rfl
@[simp] theorem setBus_phyOf (v : Word) (s : State) (x : Nat) : (setBus v s).phyOf x = s.phyOf x := rfl
@[simp] theorem setBus_hub (v : Word) (s : State) : (setBus v s).hub = s.hub := rfl
@[simp] theorem setBus_hubOf (v : Word) (s : State) (x : Nat) : (setBus v s).hubOf x = s.hubOf x := rfl
@[simp] theorem setBus_fw (v : Word) (s : State) : (setBus v s).fw = s.fw := rfl
@[simp] theorem setBus_fwOf (v : Word) (s : State) (x : Nat) : (setBus v s).fwOf x = s.fwOf x := rfl
@[simp] theorem setBus_ctx (v : Word) (s : State) : (setBus v s).ctx = s.ctx := rfl
@[simp] theorem setBus_ctxOf (v : Word) (s : State) (x y : Nat) : (setBus v s).ctxOf x y = s.ctxOf x y := rfl
@[simp] theorem setBus_pan (v : Word) (s : State) : (setBus v s).pan = s.pan := rfl
@[simp] theorem setBus_panOf (v : Word) (s : State) (x y : Nat) : (setBus v s).panOf x y = s.panOf x y := rfl
@[simp] theorem setBus_opq (v : Word) (s : State) : (setBus v s).opq = s.opq := rfl
@[simp] theorem setBus_opOf (v : Word) (s : State) (x y : Nat) : (setBus v s).opOf x y = s.opOf x y := rfl
@[simp] theorem setBus_chan (v : Word) (s : State) : (setBus v s).chan = s.chan := rfl
@[simp] theorem setBus_chanOf (v : Word) (s : State) (x : Nat) : (setBus v s).chanOf x = s.chanOf x := rfl
@[simp] theorem setBus_bankA (v : Word) (s : State) : (setBus v s).bankA = s.bankA := rfl
@[simp] theorem setBus_bankB (v : Word) (s : State) : (setBus v s).bankB = s.bankB := rfl
@[simp] theorem setBus_active (v : Word) (s : State) : (setBus v s).active = s.active := rfl
@[simp] theorem setBus_fdrMon (v : Word) (s : State) : (setBus v s).fdrMon = s.fdrMon := rfl
@[simp] theorem setBus_monOf (v : Word) (s : State) (x : Nat) : (setBus v s).monOf x = s.monOf x := rfl
@[simp] theorem setBus_roundOpen (v : Word) (s : State) : (setBus v s).roundOpen = s.roundOpen := rfl
@[simp] theorem setBus_switchUs (v : Word) (s : State) : (setBus v s).switchUs = s.switchUs := rfl
@[simp] theorem setBus_die (v : Word) (s : State) : (setBus v s).die = s.die := rfl
@[simp] theorem setBus_dieOf (v : Word) (s : State) (x : Nat) : (setBus v s).dieOf x = s.dieOf x := rfl
@[simp] theorem setBus_crs (v : Word) (s : State) : (setBus v s).crs = s.crs := rfl
@[simp] theorem setBus_crsOf (v : Word) (s : State) (x : Nat) : (setBus v s).crsOf x = s.crsOf x := rfl
@[simp] theorem setBus_mbx (v : Word) (s : State) : (setBus v s).mbx = s.mbx := rfl
@[simp] theorem setBus_mbxOf (v : Word) (s : State) (x y : Nat) : (setBus v s).mbxOf x y = s.mbxOf x y := rfl
@[simp] theorem setBus_lnk (v : Word) (s : State) : (setBus v s).lnk = s.lnk := rfl
@[simp] theorem setBus_chainOf (v : Word) (s : State) (x : Nat) : (setBus v s).chainOf x = s.chainOf x := rfl
@[simp] theorem setBus_enum (v : Word) (s : State) : (setBus v s).enum = s.enum := rfl
@[simp] theorem setBus_twm (v : Word) (s : State) : (setBus v s).twm = s.twm := rfl
@[simp] theorem setBus_adc (v : Word) (s : State) : (setBus v s).adc = s.adc := rfl
@[simp] theorem setBus_adcOf (v : Word) (s : State) (x : Nat) : (setBus v s).adcOf x = s.adcOf x := rfl
@[simp] theorem setBus_scan (v : Word) (s : State) : (setBus v s).scan = s.scan := rfl
@[simp] theorem setBus_scanOf (v : Word) (s : State) (x : Nat) : (setBus v s).scanOf x = s.scanOf x := rfl
@[simp] theorem setBus_scrubs (v : Word) (s : State) : (setBus v s).scrubs = s.scrubs := rfl
@[simp] theorem setBus_scrubStart (v : Word) (s : State) : (setBus v s).scrubStart = s.scrubStart := rfl
@[simp] theorem setBus_ceSecond (v : Word) (s : State) : (setBus v s).ceSecond = s.ceSecond := rfl
@[simp] theorem setBus_harv (v : Word) (s : State) : (setBus v s).harv = s.harv := rfl
@[simp] theorem setBus_harvOf (v : Word) (s : State) (x : Nat) : (setBus v s).harvOf x = s.harvOf x := rfl
@[simp] theorem setBus_fharv (v : Word) (s : State) : (setBus v s).fharv = s.fharv := rfl
@[simp] theorem setBus_fharvOf (v : Word) (s : State) (x : Nat) : (setBus v s).fharvOf x = s.fharvOf x := rfl
@[simp] theorem setBus_hrvCyc (v : Word) (s : State) : (setBus v s).hrvCyc = s.hrvCyc := rfl
@[simp] theorem setBus_clk (v : Word) (s : State) : (setBus v s).clk = s.clk := rfl
@[simp] theorem setBus_adm (v : Word) (s : State) : (setBus v s).adm = s.adm := rfl
@[simp] theorem setBus_saved (v : Word) (s : State) : (setBus v s).saved = s.saved := rfl
@[simp] theorem setBus_log (v : Word) (s : State) : (setBus v s).log = s.log := rfl
@[simp] theorem setBus_nvmA (v : Word) (s : State) : (setBus v s).nvmA = s.nvmA := rfl
@[simp] theorem setBus_nvmB (v : Word) (s : State) : (setBus v s).nvmB = s.nvmB := rfl
@[simp] theorem setBus_boot (v : Word) (s : State) : (setBus v s).boot = s.boot := rfl
@[simp] theorem setBus_fuse (v : Word) (s : State) : (setBus v s).fuse = s.fuse := rfl
@[simp] theorem setBus_weak (v : Word) (s : State) : (setBus v s).weak = s.weak := rfl
@[simp] theorem setBus_otp (v : Word) (s : State) : (setBus v s).otp = s.otp := rfl
@[simp] theorem setBus_upd (v : Word) (s : State) : (setBus v s).upd = s.upd := rfl
@[simp] theorem setBus_tap (v : Word) (s : State) : (setBus v s).tap = s.tap := rfl
@[simp] theorem setBus_bsr (v : Word) (s : State) : (setBus v s).bsr = s.bsr := rfl
@[simp] theorem setBus_tdo (v : Word) (s : State) : (setBus v s).tdo = s.tdo := rfl
@[simp] theorem setBus_block (v : Word) (s : State) : (setBus v s).block = s.block := rfl
@[simp] theorem setBus_fresh (v : Word) (s : State) : (setBus v s).fresh = s.fresh := rfl
@[simp] theorem setBus_clock (v : Word) (s : State) : (setBus v s).clock = s.clock := rfl
@[simp] theorem setBus_pending (v : Word) (s : State) : (setBus v s).pending = s.pending := rfl

@[simp] theorem setByte_regs (id off : Nat) (b : Byte) (s : State) : (setByte id off b s).regs = s.regs := rfl
@[simp] theorem setByte_reg (id off : Nat) (b : Byte) (s : State) (x : Nat) : (setByte id off b s).reg x = s.reg x := rfl
@[simp] theorem setByte_dieRegs (id off : Nat) (b : Byte) (s : State) : (setByte id off b s).dieRegs = s.dieRegs := rfl
@[simp] theorem setByte_dreg (id off : Nat) (b : Byte) (s : State) (x : Nat) : (setByte id off b s).dreg x = s.dreg x := rfl
@[simp] theorem setByte_prec (id off : Nat) (b : Byte) (s : State) : (setByte id off b s).prec = s.prec := rfl
@[simp] theorem setByte_recOf (id off : Nat) (b : Byte) (s : State) (x y : Nat) : (setByte id off b s).recOf x y = s.recOf x y := rfl
@[simp] theorem setByte_ecc (id off : Nat) (b : Byte) (s : State) : (setByte id off b s).ecc = s.ecc := rfl
@[simp] theorem setByte_wordErr (id off : Nat) (b : Byte) (s : State) (x y : Nat) : (setByte id off b s).wordErr x y = s.wordErr x y := rfl
@[simp] theorem setByte_tb (id off : Nat) (b : Byte) (s : State) : (setByte id off b s).tb = s.tb := rfl
@[simp] theorem setByte_timer (id off : Nat) (b : Byte) (s : State) : (setByte id off b s).timer = s.timer := rfl
@[simp] theorem setByte_timerOf (id off : Nat) (b : Byte) (s : State) (x : Nat) : (setByte id off b s).timerOf x = s.timerOf x := rfl
@[simp] theorem setByte_portEv (id off : Nat) (b : Byte) (s : State) : (setByte id off b s).portEv = s.portEv := rfl
@[simp] theorem setByte_xat (id off : Nat) (b : Byte) (s : State) : (setByte id off b s).xat = s.xat := rfl
@[simp] theorem setByte_port (id off : Nat) (b : Byte) (s : State) : (setByte id off b s).port = s.port := rfl
@[simp] theorem setByte_portOf (id off : Nat) (b : Byte) (s : State) (x : Nat) : (setByte id off b s).portOf x = s.portOf x := rfl
@[simp] theorem setByte_mir (id off : Nat) (b : Byte) (s : State) : (setByte id off b s).mir = s.mir := rfl
@[simp] theorem setByte_mirOf (id off : Nat) (b : Byte) (s : State) (x : Nat) : (setByte id off b s).mirOf x = s.mirOf x := rfl
@[simp] theorem setByte_phy (id off : Nat) (b : Byte) (s : State) : (setByte id off b s).phy = s.phy := rfl
@[simp] theorem setByte_phyOf (id off : Nat) (b : Byte) (s : State) (x : Nat) : (setByte id off b s).phyOf x = s.phyOf x := rfl
@[simp] theorem setByte_hub (id off : Nat) (b : Byte) (s : State) : (setByte id off b s).hub = s.hub := rfl
@[simp] theorem setByte_hubOf (id off : Nat) (b : Byte) (s : State) (x : Nat) : (setByte id off b s).hubOf x = s.hubOf x := rfl
@[simp] theorem setByte_fw (id off : Nat) (b : Byte) (s : State) : (setByte id off b s).fw = s.fw := rfl
@[simp] theorem setByte_fwOf (id off : Nat) (b : Byte) (s : State) (x : Nat) : (setByte id off b s).fwOf x = s.fwOf x := rfl
@[simp] theorem setByte_ctx (id off : Nat) (b : Byte) (s : State) : (setByte id off b s).ctx = s.ctx := rfl
@[simp] theorem setByte_ctxOf (id off : Nat) (b : Byte) (s : State) (x y : Nat) : (setByte id off b s).ctxOf x y = s.ctxOf x y := rfl
@[simp] theorem setByte_pan (id off : Nat) (b : Byte) (s : State) : (setByte id off b s).pan = s.pan := rfl
@[simp] theorem setByte_panOf (id off : Nat) (b : Byte) (s : State) (x y : Nat) : (setByte id off b s).panOf x y = s.panOf x y := rfl
@[simp] theorem setByte_opq (id off : Nat) (b : Byte) (s : State) : (setByte id off b s).opq = s.opq := rfl
@[simp] theorem setByte_opOf (id off : Nat) (b : Byte) (s : State) (x y : Nat) : (setByte id off b s).opOf x y = s.opOf x y := rfl
@[simp] theorem setByte_chan (id off : Nat) (b : Byte) (s : State) : (setByte id off b s).chan = s.chan := rfl
@[simp] theorem setByte_chanOf (id off : Nat) (b : Byte) (s : State) (x : Nat) : (setByte id off b s).chanOf x = s.chanOf x := rfl
@[simp] theorem setByte_bankA (id off : Nat) (b : Byte) (s : State) : (setByte id off b s).bankA = s.bankA := rfl
@[simp] theorem setByte_bankB (id off : Nat) (b : Byte) (s : State) : (setByte id off b s).bankB = s.bankB := rfl
@[simp] theorem setByte_active (id off : Nat) (b : Byte) (s : State) : (setByte id off b s).active = s.active := rfl
@[simp] theorem setByte_fdrMon (id off : Nat) (b : Byte) (s : State) : (setByte id off b s).fdrMon = s.fdrMon := rfl
@[simp] theorem setByte_monOf (id off : Nat) (b : Byte) (s : State) (x : Nat) : (setByte id off b s).monOf x = s.monOf x := rfl
@[simp] theorem setByte_roundOpen (id off : Nat) (b : Byte) (s : State) : (setByte id off b s).roundOpen = s.roundOpen := rfl
@[simp] theorem setByte_switchUs (id off : Nat) (b : Byte) (s : State) : (setByte id off b s).switchUs = s.switchUs := rfl
@[simp] theorem setByte_die (id off : Nat) (b : Byte) (s : State) : (setByte id off b s).die = s.die := rfl
@[simp] theorem setByte_dieOf (id off : Nat) (b : Byte) (s : State) (x : Nat) : (setByte id off b s).dieOf x = s.dieOf x := rfl
@[simp] theorem setByte_crs (id off : Nat) (b : Byte) (s : State) : (setByte id off b s).crs = s.crs := rfl
@[simp] theorem setByte_crsOf (id off : Nat) (b : Byte) (s : State) (x : Nat) : (setByte id off b s).crsOf x = s.crsOf x := rfl
@[simp] theorem setByte_mbx (id off : Nat) (b : Byte) (s : State) : (setByte id off b s).mbx = s.mbx := rfl
@[simp] theorem setByte_mbxOf (id off : Nat) (b : Byte) (s : State) (x y : Nat) : (setByte id off b s).mbxOf x y = s.mbxOf x y := rfl
@[simp] theorem setByte_lnk (id off : Nat) (b : Byte) (s : State) : (setByte id off b s).lnk = s.lnk := rfl
@[simp] theorem setByte_chainOf (id off : Nat) (b : Byte) (s : State) (x : Nat) : (setByte id off b s).chainOf x = s.chainOf x := rfl
@[simp] theorem setByte_enum (id off : Nat) (b : Byte) (s : State) : (setByte id off b s).enum = s.enum := rfl
@[simp] theorem setByte_twm (id off : Nat) (b : Byte) (s : State) : (setByte id off b s).twm = s.twm := rfl
@[simp] theorem setByte_adc (id off : Nat) (b : Byte) (s : State) : (setByte id off b s).adc = s.adc := rfl
@[simp] theorem setByte_adcOf (id off : Nat) (b : Byte) (s : State) (x : Nat) : (setByte id off b s).adcOf x = s.adcOf x := rfl
@[simp] theorem setByte_scan (id off : Nat) (b : Byte) (s : State) : (setByte id off b s).scan = s.scan := rfl
@[simp] theorem setByte_scanOf (id off : Nat) (b : Byte) (s : State) (x : Nat) : (setByte id off b s).scanOf x = s.scanOf x := rfl
@[simp] theorem setByte_scrubs (id off : Nat) (b : Byte) (s : State) : (setByte id off b s).scrubs = s.scrubs := rfl
@[simp] theorem setByte_scrubStart (id off : Nat) (b : Byte) (s : State) : (setByte id off b s).scrubStart = s.scrubStart := rfl
@[simp] theorem setByte_ceSecond (id off : Nat) (b : Byte) (s : State) : (setByte id off b s).ceSecond = s.ceSecond := rfl
@[simp] theorem setByte_harv (id off : Nat) (b : Byte) (s : State) : (setByte id off b s).harv = s.harv := rfl
@[simp] theorem setByte_harvOf (id off : Nat) (b : Byte) (s : State) (x : Nat) : (setByte id off b s).harvOf x = s.harvOf x := rfl
@[simp] theorem setByte_fharv (id off : Nat) (b : Byte) (s : State) : (setByte id off b s).fharv = s.fharv := rfl
@[simp] theorem setByte_fharvOf (id off : Nat) (b : Byte) (s : State) (x : Nat) : (setByte id off b s).fharvOf x = s.fharvOf x := rfl
@[simp] theorem setByte_hrvCyc (id off : Nat) (b : Byte) (s : State) : (setByte id off b s).hrvCyc = s.hrvCyc := rfl
@[simp] theorem setByte_clk (id off : Nat) (b : Byte) (s : State) : (setByte id off b s).clk = s.clk := rfl
@[simp] theorem setByte_adm (id off : Nat) (b : Byte) (s : State) : (setByte id off b s).adm = s.adm := rfl
@[simp] theorem setByte_saved (id off : Nat) (b : Byte) (s : State) : (setByte id off b s).saved = s.saved := rfl
@[simp] theorem setByte_log (id off : Nat) (b : Byte) (s : State) : (setByte id off b s).log = s.log := rfl
@[simp] theorem setByte_nvmA (id off : Nat) (b : Byte) (s : State) : (setByte id off b s).nvmA = s.nvmA := rfl
@[simp] theorem setByte_nvmB (id off : Nat) (b : Byte) (s : State) : (setByte id off b s).nvmB = s.nvmB := rfl
@[simp] theorem setByte_boot (id off : Nat) (b : Byte) (s : State) : (setByte id off b s).boot = s.boot := rfl
@[simp] theorem setByte_fuse (id off : Nat) (b : Byte) (s : State) : (setByte id off b s).fuse = s.fuse := rfl
@[simp] theorem setByte_weak (id off : Nat) (b : Byte) (s : State) : (setByte id off b s).weak = s.weak := rfl
@[simp] theorem setByte_otp (id off : Nat) (b : Byte) (s : State) : (setByte id off b s).otp = s.otp := rfl
@[simp] theorem setByte_upd (id off : Nat) (b : Byte) (s : State) : (setByte id off b s).upd = s.upd := rfl
@[simp] theorem setByte_tap (id off : Nat) (b : Byte) (s : State) : (setByte id off b s).tap = s.tap := rfl
@[simp] theorem setByte_bsr (id off : Nat) (b : Byte) (s : State) : (setByte id off b s).bsr = s.bsr := rfl
@[simp] theorem setByte_tdo (id off : Nat) (b : Byte) (s : State) : (setByte id off b s).tdo = s.tdo := rfl
@[simp] theorem setByte_bus (id off : Nat) (b : Byte) (s : State) : (setByte id off b s).bus = s.bus := rfl
@[simp] theorem setByte_block (id off : Nat) (b : Byte) (s : State) : (setByte id off b s).block = s.block := rfl
@[simp] theorem setByte_fresh (id off : Nat) (b : Byte) (s : State) : (setByte id off b s).fresh = s.fresh := rfl
@[simp] theorem setByte_clock (id off : Nat) (b : Byte) (s : State) : (setByte id off b s).clock = s.clock := rfl
@[simp] theorem setByte_pending (id off : Nat) (b : Byte) (s : State) : (setByte id off b s).pending = s.pending := rfl

@[simp] theorem setWordErr_regs (id off : Nat) (e : WordErr) (s : State) : (setWordErr id off e s).regs = s.regs := rfl
@[simp] theorem setWordErr_reg (id off : Nat) (e : WordErr) (s : State) (x : Nat) : (setWordErr id off e s).reg x = s.reg x := rfl
@[simp] theorem setWordErr_dieRegs (id off : Nat) (e : WordErr) (s : State) : (setWordErr id off e s).dieRegs = s.dieRegs := rfl
@[simp] theorem setWordErr_dreg (id off : Nat) (e : WordErr) (s : State) (x : Nat) : (setWordErr id off e s).dreg x = s.dreg x := rfl
@[simp] theorem setWordErr_prec (id off : Nat) (e : WordErr) (s : State) : (setWordErr id off e s).prec = s.prec := rfl
@[simp] theorem setWordErr_recOf (id off : Nat) (e : WordErr) (s : State) (x y : Nat) : (setWordErr id off e s).recOf x y = s.recOf x y := rfl
@[simp] theorem setWordErr_mem (id off : Nat) (e : WordErr) (s : State) : (setWordErr id off e s).mem = s.mem := rfl
@[simp] theorem setWordErr_byteAt (id off : Nat) (e : WordErr) (s : State) (x y : Nat) : (setWordErr id off e s).byteAt x y = s.byteAt x y := rfl
@[simp] theorem setWordErr_tb (id off : Nat) (e : WordErr) (s : State) : (setWordErr id off e s).tb = s.tb := rfl
@[simp] theorem setWordErr_timer (id off : Nat) (e : WordErr) (s : State) : (setWordErr id off e s).timer = s.timer := rfl
@[simp] theorem setWordErr_timerOf (id off : Nat) (e : WordErr) (s : State) (x : Nat) : (setWordErr id off e s).timerOf x = s.timerOf x := rfl
@[simp] theorem setWordErr_portEv (id off : Nat) (e : WordErr) (s : State) : (setWordErr id off e s).portEv = s.portEv := rfl
@[simp] theorem setWordErr_xat (id off : Nat) (e : WordErr) (s : State) : (setWordErr id off e s).xat = s.xat := rfl
@[simp] theorem setWordErr_port (id off : Nat) (e : WordErr) (s : State) : (setWordErr id off e s).port = s.port := rfl
@[simp] theorem setWordErr_portOf (id off : Nat) (e : WordErr) (s : State) (x : Nat) : (setWordErr id off e s).portOf x = s.portOf x := rfl
@[simp] theorem setWordErr_mir (id off : Nat) (e : WordErr) (s : State) : (setWordErr id off e s).mir = s.mir := rfl
@[simp] theorem setWordErr_mirOf (id off : Nat) (e : WordErr) (s : State) (x : Nat) : (setWordErr id off e s).mirOf x = s.mirOf x := rfl
@[simp] theorem setWordErr_phy (id off : Nat) (e : WordErr) (s : State) : (setWordErr id off e s).phy = s.phy := rfl
@[simp] theorem setWordErr_phyOf (id off : Nat) (e : WordErr) (s : State) (x : Nat) : (setWordErr id off e s).phyOf x = s.phyOf x := rfl
@[simp] theorem setWordErr_hub (id off : Nat) (e : WordErr) (s : State) : (setWordErr id off e s).hub = s.hub := rfl
@[simp] theorem setWordErr_hubOf (id off : Nat) (e : WordErr) (s : State) (x : Nat) : (setWordErr id off e s).hubOf x = s.hubOf x := rfl
@[simp] theorem setWordErr_fw (id off : Nat) (e : WordErr) (s : State) : (setWordErr id off e s).fw = s.fw := rfl
@[simp] theorem setWordErr_fwOf (id off : Nat) (e : WordErr) (s : State) (x : Nat) : (setWordErr id off e s).fwOf x = s.fwOf x := rfl
@[simp] theorem setWordErr_ctx (id off : Nat) (e : WordErr) (s : State) : (setWordErr id off e s).ctx = s.ctx := rfl
@[simp] theorem setWordErr_ctxOf (id off : Nat) (e : WordErr) (s : State) (x y : Nat) : (setWordErr id off e s).ctxOf x y = s.ctxOf x y := rfl
@[simp] theorem setWordErr_pan (id off : Nat) (e : WordErr) (s : State) : (setWordErr id off e s).pan = s.pan := rfl
@[simp] theorem setWordErr_panOf (id off : Nat) (e : WordErr) (s : State) (x y : Nat) : (setWordErr id off e s).panOf x y = s.panOf x y := rfl
@[simp] theorem setWordErr_opq (id off : Nat) (e : WordErr) (s : State) : (setWordErr id off e s).opq = s.opq := rfl
@[simp] theorem setWordErr_opOf (id off : Nat) (e : WordErr) (s : State) (x y : Nat) : (setWordErr id off e s).opOf x y = s.opOf x y := rfl
@[simp] theorem setWordErr_chan (id off : Nat) (e : WordErr) (s : State) : (setWordErr id off e s).chan = s.chan := rfl
@[simp] theorem setWordErr_chanOf (id off : Nat) (e : WordErr) (s : State) (x : Nat) : (setWordErr id off e s).chanOf x = s.chanOf x := rfl
@[simp] theorem setWordErr_bankA (id off : Nat) (e : WordErr) (s : State) : (setWordErr id off e s).bankA = s.bankA := rfl
@[simp] theorem setWordErr_bankB (id off : Nat) (e : WordErr) (s : State) : (setWordErr id off e s).bankB = s.bankB := rfl
@[simp] theorem setWordErr_active (id off : Nat) (e : WordErr) (s : State) : (setWordErr id off e s).active = s.active := rfl
@[simp] theorem setWordErr_fdrMon (id off : Nat) (e : WordErr) (s : State) : (setWordErr id off e s).fdrMon = s.fdrMon := rfl
@[simp] theorem setWordErr_monOf (id off : Nat) (e : WordErr) (s : State) (x : Nat) : (setWordErr id off e s).monOf x = s.monOf x := rfl
@[simp] theorem setWordErr_roundOpen (id off : Nat) (e : WordErr) (s : State) : (setWordErr id off e s).roundOpen = s.roundOpen := rfl
@[simp] theorem setWordErr_switchUs (id off : Nat) (e : WordErr) (s : State) : (setWordErr id off e s).switchUs = s.switchUs := rfl
@[simp] theorem setWordErr_die (id off : Nat) (e : WordErr) (s : State) : (setWordErr id off e s).die = s.die := rfl
@[simp] theorem setWordErr_dieOf (id off : Nat) (e : WordErr) (s : State) (x : Nat) : (setWordErr id off e s).dieOf x = s.dieOf x := rfl
@[simp] theorem setWordErr_crs (id off : Nat) (e : WordErr) (s : State) : (setWordErr id off e s).crs = s.crs := rfl
@[simp] theorem setWordErr_crsOf (id off : Nat) (e : WordErr) (s : State) (x : Nat) : (setWordErr id off e s).crsOf x = s.crsOf x := rfl
@[simp] theorem setWordErr_mbx (id off : Nat) (e : WordErr) (s : State) : (setWordErr id off e s).mbx = s.mbx := rfl
@[simp] theorem setWordErr_mbxOf (id off : Nat) (e : WordErr) (s : State) (x y : Nat) : (setWordErr id off e s).mbxOf x y = s.mbxOf x y := rfl
@[simp] theorem setWordErr_lnk (id off : Nat) (e : WordErr) (s : State) : (setWordErr id off e s).lnk = s.lnk := rfl
@[simp] theorem setWordErr_chainOf (id off : Nat) (e : WordErr) (s : State) (x : Nat) : (setWordErr id off e s).chainOf x = s.chainOf x := rfl
@[simp] theorem setWordErr_enum (id off : Nat) (e : WordErr) (s : State) : (setWordErr id off e s).enum = s.enum := rfl
@[simp] theorem setWordErr_twm (id off : Nat) (e : WordErr) (s : State) : (setWordErr id off e s).twm = s.twm := rfl
@[simp] theorem setWordErr_adc (id off : Nat) (e : WordErr) (s : State) : (setWordErr id off e s).adc = s.adc := rfl
@[simp] theorem setWordErr_adcOf (id off : Nat) (e : WordErr) (s : State) (x : Nat) : (setWordErr id off e s).adcOf x = s.adcOf x := rfl
@[simp] theorem setWordErr_scan (id off : Nat) (e : WordErr) (s : State) : (setWordErr id off e s).scan = s.scan := rfl
@[simp] theorem setWordErr_scanOf (id off : Nat) (e : WordErr) (s : State) (x : Nat) : (setWordErr id off e s).scanOf x = s.scanOf x := rfl
@[simp] theorem setWordErr_scrubs (id off : Nat) (e : WordErr) (s : State) : (setWordErr id off e s).scrubs = s.scrubs := rfl
@[simp] theorem setWordErr_scrubStart (id off : Nat) (e : WordErr) (s : State) : (setWordErr id off e s).scrubStart = s.scrubStart := rfl
@[simp] theorem setWordErr_ceSecond (id off : Nat) (e : WordErr) (s : State) : (setWordErr id off e s).ceSecond = s.ceSecond := rfl
@[simp] theorem setWordErr_harv (id off : Nat) (e : WordErr) (s : State) : (setWordErr id off e s).harv = s.harv := rfl
@[simp] theorem setWordErr_harvOf (id off : Nat) (e : WordErr) (s : State) (x : Nat) : (setWordErr id off e s).harvOf x = s.harvOf x := rfl
@[simp] theorem setWordErr_fharv (id off : Nat) (e : WordErr) (s : State) : (setWordErr id off e s).fharv = s.fharv := rfl
@[simp] theorem setWordErr_fharvOf (id off : Nat) (e : WordErr) (s : State) (x : Nat) : (setWordErr id off e s).fharvOf x = s.fharvOf x := rfl
@[simp] theorem setWordErr_hrvCyc (id off : Nat) (e : WordErr) (s : State) : (setWordErr id off e s).hrvCyc = s.hrvCyc := rfl
@[simp] theorem setWordErr_clk (id off : Nat) (e : WordErr) (s : State) : (setWordErr id off e s).clk = s.clk := rfl
@[simp] theorem setWordErr_adm (id off : Nat) (e : WordErr) (s : State) : (setWordErr id off e s).adm = s.adm := rfl
@[simp] theorem setWordErr_saved (id off : Nat) (e : WordErr) (s : State) : (setWordErr id off e s).saved = s.saved := rfl
@[simp] theorem setWordErr_log (id off : Nat) (e : WordErr) (s : State) : (setWordErr id off e s).log = s.log := rfl
@[simp] theorem setWordErr_nvmA (id off : Nat) (e : WordErr) (s : State) : (setWordErr id off e s).nvmA = s.nvmA := rfl
@[simp] theorem setWordErr_nvmB (id off : Nat) (e : WordErr) (s : State) : (setWordErr id off e s).nvmB = s.nvmB := rfl
@[simp] theorem setWordErr_boot (id off : Nat) (e : WordErr) (s : State) : (setWordErr id off e s).boot = s.boot := rfl
@[simp] theorem setWordErr_fuse (id off : Nat) (e : WordErr) (s : State) : (setWordErr id off e s).fuse = s.fuse := rfl
@[simp] theorem setWordErr_weak (id off : Nat) (e : WordErr) (s : State) : (setWordErr id off e s).weak = s.weak := rfl
@[simp] theorem setWordErr_otp (id off : Nat) (e : WordErr) (s : State) : (setWordErr id off e s).otp = s.otp := rfl
@[simp] theorem setWordErr_upd (id off : Nat) (e : WordErr) (s : State) : (setWordErr id off e s).upd = s.upd := rfl
@[simp] theorem setWordErr_tap (id off : Nat) (e : WordErr) (s : State) : (setWordErr id off e s).tap = s.tap := rfl
@[simp] theorem setWordErr_bsr (id off : Nat) (e : WordErr) (s : State) : (setWordErr id off e s).bsr = s.bsr := rfl
@[simp] theorem setWordErr_tdo (id off : Nat) (e : WordErr) (s : State) : (setWordErr id off e s).tdo = s.tdo := rfl
@[simp] theorem setWordErr_bus (id off : Nat) (e : WordErr) (s : State) : (setWordErr id off e s).bus = s.bus := rfl
@[simp] theorem setWordErr_block (id off : Nat) (e : WordErr) (s : State) : (setWordErr id off e s).block = s.block := rfl
@[simp] theorem setWordErr_fresh (id off : Nat) (e : WordErr) (s : State) : (setWordErr id off e s).fresh = s.fresh := rfl
@[simp] theorem setWordErr_clock (id off : Nat) (e : WordErr) (s : State) : (setWordErr id off e s).clock = s.clock := rfl
@[simp] theorem setWordErr_pending (id off : Nat) (e : WordErr) (s : State) : (setWordErr id off e s).pending = s.pending := rfl

end Sys2Proof.Machine
end

