-- ==== Sys2Proof/Laws/Only.lean ====
section
/-! SUPPORT. Footprints: how `Only` composes, and what a record update touches. -/
namespace Sys2Proof

theorem Only.refl (l : List Part) (s : Machine.State) : Only l s s := fun p _ => by cases p <;> rfl

theorem Only.trans {l : List Part} {s t u : Machine.State} (h : Only l s t) (h' : Only l t u) : Only l s u := by
  intro p hp
  have a := h p hp
  have b := h' p hp
  cases p <;> exact Eq.trans b a

/-- A list of parts as a bit mask. -/
def Part.mask (l : List Part) : Nat := l.foldr (fun p n => n ||| (1 <<< p.ctorIdx)) 0

/-- The parts of `l` are all in `l'`, decided on masks. -/
def Part.le (l l' : List Part) : Bool := (Part.mask l ||| Part.mask l').beq (Part.mask l')

theorem Part.mask_bit (l : List Part) (p : Part) : (Part.mask l).testBit p.ctorIdx = true ↔ p ∈ l := by
  induction l with
  | nil => simp [Part.mask]
  | cons q l ih =>
    have hm : Part.mask (q :: l) = Part.mask l ||| (1 <<< q.ctorIdx) := rfl
    rw [hm, Nat.testBit_or, Nat.one_shiftLeft, Nat.testBit_two_pow, Bool.or_eq_true, ih, decide_eq_true_eq, List.mem_cons]
    have hq : q.ctorIdx = p.ctorIdx ↔ p = q := by
      constructor
      · intro h; revert h; cases p <;> cases q <;> first | (intro; rfl) | (intro h; exact absurd h (by decide))
      · rintro rfl; rfl
    rw [hq, or_comm]

theorem Part.le_sub {l l' : List Part} (h : Part.le l l' = true) {p : Part} (hp : p ∈ l) : p ∈ l' := by
  have h1 := Nat.eq_of_beq_eq_true h
  have h2 := (Part.mask_bit l p).mpr hp
  rw [← Part.mask_bit l' p, ← h1, Nat.testBit_or, h2, Bool.true_or]

theorem Part.le_trans {a b c : List Part} (h : Part.le a b = true) (h' : Part.le b c = true) : Part.le a c = true := by
  have h1 := Nat.eq_of_beq_eq_true h
  have h2 := Nat.eq_of_beq_eq_true h'
  unfold Part.le
  rw [← h2, ← Nat.or_assoc, h1]
  exact Nat.beq_refl _

theorem Only.mono {l l' : List Part} {s t : Machine.State} (h : Only l s t) (hl : Part.le l l' = true) : Only l' s t :=
  fun p hp => h p fun hm => hp (Part.le_sub hl hm)

theorem Only.step {l l' : List Part} {s t u : Machine.State} (h' : Only l' t u) (hl : Part.le l' l = true) (h : Only l s t) :
    Only l s u := h.trans (h'.mono hl)


theorem Only.ite {l : List Part} {s a b : Machine.State} {c : Prop} [Decidable c] (ha : Only l s a) (hb : Only l s b) :
    Only l s (if c then a else b) := by
  split <;> assumption

theorem Only.ite2 {β : Type} {l : List Part} {s : Machine.State} {a b : β × Machine.State} {c : Prop} [Decidable c]
    (ha : Only l s a.2) (hb : Only l s b.2) : Only l s (if c then a else b).2 := by
  split <;> assumption

theorem Only.foldl {β : Type} {l : List Part} {f : Machine.State → β → Machine.State} {o s : Machine.State} (xs : List β)
    (h : ∀ t x, Only l o t → Only l o (f t x)) (hs : Only l o s) : Only l o (xs.foldl f s) := by
  induction xs generalizing s with
  | nil => exact hs
  | cons x xs ih => exact ih (h s x hs)

namespace Machine

theorem within {a b c : List Part} (h : Part.le a b = true) (h' : Part.le b c = true) : Part.le a c = true :=
  Part.le_trans h h'

theorem forEach_only {β : Type} {l : List Part} {xs : List β} {f : β → State → State} {o s : State}
    (h : ∀ x t, Only l o t → Only l o (f x t)) (hs : Only l o s) : Only l o (forEach xs f s) :=
  Only.foldl xs (fun t x => h x t) hs
theorem only_set_regs {ps : List Part} (hl : Part.le [.regs] ps = true) {o s : State} (h : Only ps o s) {v0 : _} :
    Only ps o { s with regs := v0 } := by
  refine h.trans fun p hp => ?_
  cases p <;> first | rfl | exact absurd (Part.le_sub hl (by decide)) hp

theorem only_set_regs_xat_ctx_pan_opq {ps : List Part} (hl : Part.le [.regs, .xat, .ctx, .pan, .opq] ps = true) {o s : State} (h : Only ps o s) {v0 : _} {v1 : _} {v2 : _} {v3 : _} {v4 : _} :
    Only ps o { s with regs := v0, xat := v1, ctx := v2, pan := v3, opq := v4 } := by
  refine h.trans fun p hp => ?_
  cases p <;> first | rfl | exact absurd (Part.le_sub hl (by decide)) hp

theorem only_set_regs_mbx_lnk_enum_twm_clk_log {ps : List Part} (hl : Part.le [.regs, .mbx, .lnk, .enum, .twm, .clk, .log] ps = true) {o s : State} (h : Only ps o s) {v0 : _} {v1 : _} {v2 : _} {v3 : _} {v4 : _} {v5 : _} {v6 : _} :
    Only ps o { s with regs := v0, mbx := v1, lnk := v2, enum := v3, twm := v4, clk := v5, log := v6 } := by
  refine h.trans fun p hp => ?_
  cases p <;> first | rfl | exact absurd (Part.le_sub hl (by decide)) hp

theorem only_set_dieRegs {ps : List Part} (hl : Part.le [.dieRegs] ps = true) {o s : State} (h : Only ps o s) {v0 : _} :
    Only ps o { s with dieRegs := v0 } := by
  refine h.trans fun p hp => ?_
  cases p <;> first | rfl | exact absurd (Part.le_sub hl (by decide)) hp

theorem only_set_dieRegs_phy_adc_scan {ps : List Part} (hl : Part.le [.dieRegs, .phy, .adc, .scan] ps = true) {o s : State} (h : Only ps o s) {v0 : _} {v1 : _} {v2 : _} {v3 : _} :
    Only ps o { s with dieRegs := v0, phy := v1, adc := v2, scan := v3 } := by
  refine h.trans fun p hp => ?_
  cases p <;> first | rfl | exact absurd (Part.le_sub hl (by decide)) hp

theorem only_set_prec {ps : List Part} (hl : Part.le [.prec] ps = true) {o s : State} (h : Only ps o s) {v0 : _} :
    Only ps o { s with prec := v0 } := by
  refine h.trans fun p hp => ?_
  cases p <;> first | rfl | exact absurd (Part.le_sub hl (by decide)) hp

theorem only_set_mem {ps : List Part} (hl : Part.le [.mem] ps = true) {o s : State} (h : Only ps o s) {v0 : _} :
    Only ps o { s with mem := v0 } := by
  refine h.trans fun p hp => ?_
  cases p <;> first | rfl | exact absurd (Part.le_sub hl (by decide)) hp

theorem only_set_ecc {ps : List Part} (hl : Part.le [.ecc] ps = true) {o s : State} (h : Only ps o s) {v0 : _} :
    Only ps o { s with ecc := v0 } := by
  refine h.trans fun p hp => ?_
  cases p <;> first | rfl | exact absurd (Part.le_sub hl (by decide)) hp

theorem only_set_tb {ps : List Part} (hl : Part.le [.tb] ps = true) {o s : State} (h : Only ps o s) {v0 : _} :
    Only ps o { s with tb := v0 } := by
  refine h.trans fun p hp => ?_
  cases p <;> first | rfl | exact absurd (Part.le_sub hl (by decide)) hp

theorem only_set_tb_clock {ps : List Part} (hl : Part.le [.tb, .clock] ps = true) {o s : State} (h : Only ps o s) {v0 : _} {v1 : _} :
    Only ps o { s with tb := v0, clock := v1 } := by
  refine h.trans fun p hp => ?_
  cases p <;> first | rfl | exact absurd (Part.le_sub hl (by decide)) hp

theorem only_set_timer {ps : List Part} (hl : Part.le [.timer] ps = true) {o s : State} (h : Only ps o s) {v0 : _} :
    Only ps o { s with timer := v0 } := by
  refine h.trans fun p hp => ?_
  cases p <;> first | rfl | exact absurd (Part.le_sub hl (by decide)) hp

theorem only_set_portEv {ps : List Part} (hl : Part.le [.portEv] ps = true) {o s : State} (h : Only ps o s) {v0 : _} :
    Only ps o { s with portEv := v0 } := by
  refine h.trans fun p hp => ?_
  cases p <;> first | rfl | exact absurd (Part.le_sub hl (by decide)) hp

theorem only_set_xat {ps : List Part} (hl : Part.le [.xat] ps = true) {o s : State} (h : Only ps o s) {v0 : _} :
    Only ps o { s with xat := v0 } := by
  refine h.trans fun p hp => ?_
  cases p <;> first | rfl | exact absurd (Part.le_sub hl (by decide)) hp

theorem only_set_port {ps : List Part} (hl : Part.le [.port] ps = true) {o s : State} (h : Only ps o s) {v0 : _} :
    Only ps o { s with port := v0 } := by
  refine h.trans fun p hp => ?_
  cases p <;> first | rfl | exact absurd (Part.le_sub hl (by decide)) hp

theorem only_set_port_mir {ps : List Part} (hl : Part.le [.port, .mir] ps = true) {o s : State} (h : Only ps o s) {v0 : _} {v1 : _} :
    Only ps o { s with port := v0, mir := v1 } := by
  refine h.trans fun p hp => ?_
  cases p <;> first | rfl | exact absurd (Part.le_sub hl (by decide)) hp

theorem only_set_mir {ps : List Part} (hl : Part.le [.mir] ps = true) {o s : State} (h : Only ps o s) {v0 : _} :
    Only ps o { s with mir := v0 } := by
  refine h.trans fun p hp => ?_
  cases p <;> first | rfl | exact absurd (Part.le_sub hl (by decide)) hp

theorem only_set_phy {ps : List Part} (hl : Part.le [.phy] ps = true) {o s : State} (h : Only ps o s) {v0 : _} :
    Only ps o { s with phy := v0 } := by
  refine h.trans fun p hp => ?_
  cases p <;> first | rfl | exact absurd (Part.le_sub hl (by decide)) hp

theorem only_set_hub {ps : List Part} (hl : Part.le [.hub] ps = true) {o s : State} (h : Only ps o s) {v0 : _} :
    Only ps o { s with hub := v0 } := by
  refine h.trans fun p hp => ?_
  cases p <;> first | rfl | exact absurd (Part.le_sub hl (by decide)) hp

theorem only_set_fw {ps : List Part} (hl : Part.le [.fw] ps = true) {o s : State} (h : Only ps o s) {v0 : _} :
    Only ps o { s with fw := v0 } := by
  refine h.trans fun p hp => ?_
  cases p <;> first | rfl | exact absurd (Part.le_sub hl (by decide)) hp

theorem only_set_ctx {ps : List Part} (hl : Part.le [.ctx] ps = true) {o s : State} (h : Only ps o s) {v0 : _} :
    Only ps o { s with ctx := v0 } := by
  refine h.trans fun p hp => ?_
  cases p <;> first | rfl | exact absurd (Part.le_sub hl (by decide)) hp

theorem only_set_pan {ps : List Part} (hl : Part.le [.pan] ps = true) {o s : State} (h : Only ps o s) {v0 : _} :
    Only ps o { s with pan := v0 } := by
  refine h.trans fun p hp => ?_
  cases p <;> first | rfl | exact absurd (Part.le_sub hl (by decide)) hp

theorem only_set_opq {ps : List Part} (hl : Part.le [.opq] ps = true) {o s : State} (h : Only ps o s) {v0 : _} :
    Only ps o { s with opq := v0 } := by
  refine h.trans fun p hp => ?_
  cases p <;> first | rfl | exact absurd (Part.le_sub hl (by decide)) hp

theorem only_set_chan {ps : List Part} (hl : Part.le [.chan] ps = true) {o s : State} (h : Only ps o s) {v0 : _} :
    Only ps o { s with chan := v0 } := by
  refine h.trans fun p hp => ?_
  cases p <;> first | rfl | exact absurd (Part.le_sub hl (by decide)) hp

theorem only_set_bankA {ps : List Part} (hl : Part.le [.bankA] ps = true) {o s : State} (h : Only ps o s) {v0 : _} :
    Only ps o { s with bankA := v0 } := by
  refine h.trans fun p hp => ?_
  cases p <;> first | rfl | exact absurd (Part.le_sub hl (by decide)) hp

theorem only_set_bankA_bankB {ps : List Part} (hl : Part.le [.bankA, .bankB] ps = true) {o s : State} (h : Only ps o s) {v0 : _} {v1 : _} :
    Only ps o { s with bankA := v0, bankB := v1 } := by
  refine h.trans fun p hp => ?_
  cases p <;> first | rfl | exact absurd (Part.le_sub hl (by decide)) hp

theorem only_set_bankB {ps : List Part} (hl : Part.le [.bankB] ps = true) {o s : State} (h : Only ps o s) {v0 : _} :
    Only ps o { s with bankB := v0 } := by
  refine h.trans fun p hp => ?_
  cases p <;> first | rfl | exact absurd (Part.le_sub hl (by decide)) hp

theorem only_set_active {ps : List Part} (hl : Part.le [.active] ps = true) {o s : State} (h : Only ps o s) {v0 : _} :
    Only ps o { s with active := v0 } := by
  refine h.trans fun p hp => ?_
  cases p <;> first | rfl | exact absurd (Part.le_sub hl (by decide)) hp

theorem only_set_active_switchUs {ps : List Part} (hl : Part.le [.active, .switchUs] ps = true) {o s : State} (h : Only ps o s) {v0 : _} {v1 : _} :
    Only ps o { s with active := v0, switchUs := v1 } := by
  refine h.trans fun p hp => ?_
  cases p <;> first | rfl | exact absurd (Part.le_sub hl (by decide)) hp

theorem only_set_fdrMon {ps : List Part} (hl : Part.le [.fdrMon] ps = true) {o s : State} (h : Only ps o s) {v0 : _} :
    Only ps o { s with fdrMon := v0 } := by
  refine h.trans fun p hp => ?_
  cases p <;> first | rfl | exact absurd (Part.le_sub hl (by decide)) hp

theorem only_set_roundOpen {ps : List Part} (hl : Part.le [.roundOpen] ps = true) {o s : State} (h : Only ps o s) {v0 : _} :
    Only ps o { s with roundOpen := v0 } := by
  refine h.trans fun p hp => ?_
  cases p <;> first | rfl | exact absurd (Part.le_sub hl (by decide)) hp

theorem only_set_switchUs {ps : List Part} (hl : Part.le [.switchUs] ps = true) {o s : State} (h : Only ps o s) {v0 : _} :
    Only ps o { s with switchUs := v0 } := by
  refine h.trans fun p hp => ?_
  cases p <;> first | rfl | exact absurd (Part.le_sub hl (by decide)) hp

theorem only_set_die {ps : List Part} (hl : Part.le [.die] ps = true) {o s : State} (h : Only ps o s) {v0 : _} :
    Only ps o { s with die := v0 } := by
  refine h.trans fun p hp => ?_
  cases p <;> first | rfl | exact absurd (Part.le_sub hl (by decide)) hp

theorem only_set_crs {ps : List Part} (hl : Part.le [.crs] ps = true) {o s : State} (h : Only ps o s) {v0 : _} :
    Only ps o { s with crs := v0 } := by
  refine h.trans fun p hp => ?_
  cases p <;> first | rfl | exact absurd (Part.le_sub hl (by decide)) hp

theorem only_set_mbx {ps : List Part} (hl : Part.le [.mbx] ps = true) {o s : State} (h : Only ps o s) {v0 : _} :
    Only ps o { s with mbx := v0 } := by
  refine h.trans fun p hp => ?_
  cases p <;> first | rfl | exact absurd (Part.le_sub hl (by decide)) hp

theorem only_set_lnk {ps : List Part} (hl : Part.le [.lnk] ps = true) {o s : State} (h : Only ps o s) {v0 : _} :
    Only ps o { s with lnk := v0 } := by
  refine h.trans fun p hp => ?_
  cases p <;> first | rfl | exact absurd (Part.le_sub hl (by decide)) hp

theorem only_set_enum {ps : List Part} (hl : Part.le [.enum] ps = true) {o s : State} (h : Only ps o s) {v0 : _} :
    Only ps o { s with enum := v0 } := by
  refine h.trans fun p hp => ?_
  cases p <;> first | rfl | exact absurd (Part.le_sub hl (by decide)) hp

theorem only_set_twm {ps : List Part} (hl : Part.le [.twm] ps = true) {o s : State} (h : Only ps o s) {v0 : _} :
    Only ps o { s with twm := v0 } := by
  refine h.trans fun p hp => ?_
  cases p <;> first | rfl | exact absurd (Part.le_sub hl (by decide)) hp

theorem only_set_adc {ps : List Part} (hl : Part.le [.adc] ps = true) {o s : State} (h : Only ps o s) {v0 : _} :
    Only ps o { s with adc := v0 } := by
  refine h.trans fun p hp => ?_
  cases p <;> first | rfl | exact absurd (Part.le_sub hl (by decide)) hp

theorem only_set_scan {ps : List Part} (hl : Part.le [.scan] ps = true) {o s : State} (h : Only ps o s) {v0 : _} :
    Only ps o { s with scan := v0 } := by
  refine h.trans fun p hp => ?_
  cases p <;> first | rfl | exact absurd (Part.le_sub hl (by decide)) hp

theorem only_set_scrubs {ps : List Part} (hl : Part.le [.scrubs] ps = true) {o s : State} (h : Only ps o s) {v0 : _} :
    Only ps o { s with scrubs := v0 } := by
  refine h.trans fun p hp => ?_
  cases p <;> first | rfl | exact absurd (Part.le_sub hl (by decide)) hp

theorem only_set_scrubs_scrubStart {ps : List Part} (hl : Part.le [.scrubs, .scrubStart] ps = true) {o s : State} (h : Only ps o s) {v0 : _} {v1 : _} :
    Only ps o { s with scrubs := v0, scrubStart := v1 } := by
  refine h.trans fun p hp => ?_
  cases p <;> first | rfl | exact absurd (Part.le_sub hl (by decide)) hp

theorem only_set_scrubStart {ps : List Part} (hl : Part.le [.scrubStart] ps = true) {o s : State} (h : Only ps o s) {v0 : _} :
    Only ps o { s with scrubStart := v0 } := by
  refine h.trans fun p hp => ?_
  cases p <;> first | rfl | exact absurd (Part.le_sub hl (by decide)) hp

theorem only_set_ceSecond {ps : List Part} (hl : Part.le [.ceSecond] ps = true) {o s : State} (h : Only ps o s) {v0 : _} :
    Only ps o { s with ceSecond := v0 } := by
  refine h.trans fun p hp => ?_
  cases p <;> first | rfl | exact absurd (Part.le_sub hl (by decide)) hp

theorem only_set_harv {ps : List Part} (hl : Part.le [.harv] ps = true) {o s : State} (h : Only ps o s) {v0 : _} :
    Only ps o { s with harv := v0 } := by
  refine h.trans fun p hp => ?_
  cases p <;> first | rfl | exact absurd (Part.le_sub hl (by decide)) hp

theorem only_set_fharv {ps : List Part} (hl : Part.le [.fharv] ps = true) {o s : State} (h : Only ps o s) {v0 : _} :
    Only ps o { s with fharv := v0 } := by
  refine h.trans fun p hp => ?_
  cases p <;> first | rfl | exact absurd (Part.le_sub hl (by decide)) hp

theorem only_set_hrvCyc {ps : List Part} (hl : Part.le [.hrvCyc] ps = true) {o s : State} (h : Only ps o s) {v0 : _} :
    Only ps o { s with hrvCyc := v0 } := by
  refine h.trans fun p hp => ?_
  cases p <;> first | rfl | exact absurd (Part.le_sub hl (by decide)) hp

theorem only_set_clk {ps : List Part} (hl : Part.le [.clk] ps = true) {o s : State} (h : Only ps o s) {v0 : _} :
    Only ps o { s with clk := v0 } := by
  refine h.trans fun p hp => ?_
  cases p <;> first | rfl | exact absurd (Part.le_sub hl (by decide)) hp

theorem only_set_clk_log {ps : List Part} (hl : Part.le [.clk, .log] ps = true) {o s : State} (h : Only ps o s) {v0 : _} {v1 : _} :
    Only ps o { s with clk := v0, log := v1 } := by
  refine h.trans fun p hp => ?_
  cases p <;> first | rfl | exact absurd (Part.le_sub hl (by decide)) hp

theorem only_set_clk_upd {ps : List Part} (hl : Part.le [.clk, .upd] ps = true) {o s : State} (h : Only ps o s) {v0 : _} {v1 : _} :
    Only ps o { s with clk := v0, upd := v1 } := by
  refine h.trans fun p hp => ?_
  cases p <;> first | rfl | exact absurd (Part.le_sub hl (by decide)) hp

theorem only_set_adm {ps : List Part} (hl : Part.le [.adm] ps = true) {o s : State} (h : Only ps o s) {v0 : _} :
    Only ps o { s with adm := v0 } := by
  refine h.trans fun p hp => ?_
  cases p <;> first | rfl | exact absurd (Part.le_sub hl (by decide)) hp

theorem only_set_saved {ps : List Part} (hl : Part.le [.saved] ps = true) {o s : State} (h : Only ps o s) {v0 : _} :
    Only ps o { s with saved := v0 } := by
  refine h.trans fun p hp => ?_
  cases p <;> first | rfl | exact absurd (Part.le_sub hl (by decide)) hp

theorem only_set_saved_boot {ps : List Part} (hl : Part.le [.saved, .boot] ps = true) {o s : State} (h : Only ps o s) {v0 : _} {v1 : _} :
    Only ps o { s with saved := v0, boot := v1 } := by
  refine h.trans fun p hp => ?_
  cases p <;> first | rfl | exact absurd (Part.le_sub hl (by decide)) hp

theorem only_set_log {ps : List Part} (hl : Part.le [.log] ps = true) {o s : State} (h : Only ps o s) {v0 : _} :
    Only ps o { s with log := v0 } := by
  refine h.trans fun p hp => ?_
  cases p <;> first | rfl | exact absurd (Part.le_sub hl (by decide)) hp

theorem only_set_log_nvmA_nvmB {ps : List Part} (hl : Part.le [.log, .nvmA, .nvmB] ps = true) {o s : State} (h : Only ps o s) {v0 : _} {v1 : _} {v2 : _} :
    Only ps o { s with log := v0, nvmA := v1, nvmB := v2 } := by
  refine h.trans fun p hp => ?_
  cases p <;> first | rfl | exact absurd (Part.le_sub hl (by decide)) hp

theorem only_set_nvmA {ps : List Part} (hl : Part.le [.nvmA] ps = true) {o s : State} (h : Only ps o s) {v0 : _} :
    Only ps o { s with nvmA := v0 } := by
  refine h.trans fun p hp => ?_
  cases p <;> first | rfl | exact absurd (Part.le_sub hl (by decide)) hp

theorem only_set_nvmA_nvmB {ps : List Part} (hl : Part.le [.nvmA, .nvmB] ps = true) {o s : State} (h : Only ps o s) {v0 : _} {v1 : _} :
    Only ps o { s with nvmA := v0, nvmB := v1 } := by
  refine h.trans fun p hp => ?_
  cases p <;> first | rfl | exact absurd (Part.le_sub hl (by decide)) hp

theorem only_set_nvmB {ps : List Part} (hl : Part.le [.nvmB] ps = true) {o s : State} (h : Only ps o s) {v0 : _} :
    Only ps o { s with nvmB := v0 } := by
  refine h.trans fun p hp => ?_
  cases p <;> first | rfl | exact absurd (Part.le_sub hl (by decide)) hp

theorem only_set_boot {ps : List Part} (hl : Part.le [.boot] ps = true) {o s : State} (h : Only ps o s) {v0 : _} :
    Only ps o { s with boot := v0 } := by
  refine h.trans fun p hp => ?_
  cases p <;> first | rfl | exact absurd (Part.le_sub hl (by decide)) hp

theorem only_set_fuse {ps : List Part} (hl : Part.le [.fuse] ps = true) {o s : State} (h : Only ps o s) {v0 : _} :
    Only ps o { s with fuse := v0 } := by
  refine h.trans fun p hp => ?_
  cases p <;> first | rfl | exact absurd (Part.le_sub hl (by decide)) hp

theorem only_set_fuse_weak {ps : List Part} (hl : Part.le [.fuse, .weak] ps = true) {o s : State} (h : Only ps o s) {v0 : _} {v1 : _} :
    Only ps o { s with fuse := v0, weak := v1 } := by
  refine h.trans fun p hp => ?_
  cases p <;> first | rfl | exact absurd (Part.le_sub hl (by decide)) hp

theorem only_set_weak {ps : List Part} (hl : Part.le [.weak] ps = true) {o s : State} (h : Only ps o s) {v0 : _} :
    Only ps o { s with weak := v0 } := by
  refine h.trans fun p hp => ?_
  cases p <;> first | rfl | exact absurd (Part.le_sub hl (by decide)) hp

theorem only_set_otp {ps : List Part} (hl : Part.le [.otp] ps = true) {o s : State} (h : Only ps o s) {v0 : _} :
    Only ps o { s with otp := v0 } := by
  refine h.trans fun p hp => ?_
  cases p <;> first | rfl | exact absurd (Part.le_sub hl (by decide)) hp

theorem only_set_upd {ps : List Part} (hl : Part.le [.upd] ps = true) {o s : State} (h : Only ps o s) {v0 : _} :
    Only ps o { s with upd := v0 } := by
  refine h.trans fun p hp => ?_
  cases p <;> first | rfl | exact absurd (Part.le_sub hl (by decide)) hp

theorem only_set_tap {ps : List Part} (hl : Part.le [.tap] ps = true) {o s : State} (h : Only ps o s) {v0 : _} :
    Only ps o { s with tap := v0 } := by
  refine h.trans fun p hp => ?_
  cases p <;> first | rfl | exact absurd (Part.le_sub hl (by decide)) hp

theorem only_set_bsr {ps : List Part} (hl : Part.le [.bsr] ps = true) {o s : State} (h : Only ps o s) {v0 : _} :
    Only ps o { s with bsr := v0 } := by
  refine h.trans fun p hp => ?_
  cases p <;> first | rfl | exact absurd (Part.le_sub hl (by decide)) hp

theorem only_set_bsr_tdo {ps : List Part} (hl : Part.le [.bsr, .tdo] ps = true) {o s : State} (h : Only ps o s) {v0 : _} {v1 : _} :
    Only ps o { s with bsr := v0, tdo := v1 } := by
  refine h.trans fun p hp => ?_
  cases p <;> first | rfl | exact absurd (Part.le_sub hl (by decide)) hp

theorem only_set_tdo {ps : List Part} (hl : Part.le [.tdo] ps = true) {o s : State} (h : Only ps o s) {v0 : _} :
    Only ps o { s with tdo := v0 } := by
  refine h.trans fun p hp => ?_
  cases p <;> first | rfl | exact absurd (Part.le_sub hl (by decide)) hp

theorem only_set_bus {ps : List Part} (hl : Part.le [.bus] ps = true) {o s : State} (h : Only ps o s) {v0 : _} :
    Only ps o { s with bus := v0 } := by
  refine h.trans fun p hp => ?_
  cases p <;> first | rfl | exact absurd (Part.le_sub hl (by decide)) hp

theorem only_set_block {ps : List Part} (hl : Part.le [.block] ps = true) {o s : State} (h : Only ps o s) {v0 : _} :
    Only ps o { s with block := v0 } := by
  refine h.trans fun p hp => ?_
  cases p <;> first | rfl | exact absurd (Part.le_sub hl (by decide)) hp

theorem only_set_fresh {ps : List Part} (hl : Part.le [.fresh] ps = true) {o s : State} (h : Only ps o s) {v0 : _} :
    Only ps o { s with fresh := v0 } := by
  refine h.trans fun p hp => ?_
  cases p <;> first | rfl | exact absurd (Part.le_sub hl (by decide)) hp

theorem only_set_clock {ps : List Part} (hl : Part.le [.clock] ps = true) {o s : State} (h : Only ps o s) {v0 : _} :
    Only ps o { s with clock := v0 } := by
  refine h.trans fun p hp => ?_
  cases p <;> first | rfl | exact absurd (Part.le_sub hl (by decide)) hp


end Machine
end Sys2Proof
end

