-- ==== Sys2Proof/Laws/OnlyOps.lean ====
section
/-! SUPPORT. Footprints of the operations of Machine/Ops.lean: the parts of the state each may change. -/
namespace Sys2Proof.Machine

theorem updCrs_only {ps : List Part} (hl : Part.le [.crs] ps = true) {s0_ : State} {c : Nat} {f : Course → Course} {s : State} (h : Only ps s0_ s) :
    Only ps s0_ (updCrs c f s) := by
  unfold updCrs
  try dsimp only
  repeat' first
    | (with_reducible assumption)
    | (with_reducible apply only_set_crs (within rfl hl))

theorem setReg_only {ps : List Part} (hl : Part.le [.regs] ps = true) {s0_ : State} {a : Nat} {v : Word} {s : State} (h : Only ps s0_ s) :
    Only ps s0_ (setReg a v s) := by
  unfold setReg
  try dsimp only
  repeat' first
    | (with_reducible assumption)
    | (with_reducible apply only_set_regs (within rfl hl))

theorem setFld_only {ps : List Part} (hl : Part.le [.regs] ps = true) {s0_ : State} {a : Nat} {f : Fld} {v : Nat} {s : State} (h : Only ps s0_ s) :
    Only ps s0_ (setFld a f v s) := by
  unfold setFld
  try dsimp only
  repeat' first
    | (with_reducible assumption)
    | (with_reducible apply setReg_only (within rfl hl))

theorem incFld_only {ps : List Part} (hl : Part.le [.regs] ps = true) {s0_ : State} {a : Nat} {f : Fld} {s : State} (h : Only ps s0_ s) :
    Only ps s0_ (incFld a f s) := by
  unfold incFld
  try dsimp only
  repeat' first
    | (with_reducible assumption)
    | (with_reducible apply setFld_only (within rfl hl))
    | (with_reducible apply Only.ite)
    | (with_reducible apply Only.ite2)

theorem raiseEn_only {ps : List Part} (hl : Part.le [.regs] ps = true) {s0_ : State} {evt : Nat} {f : Fld} {en : Nat} {enf : Fld} {s : State} (h : Only ps s0_ s) :
    Only ps s0_ (raiseEn evt f en enf s) := by
  unfold raiseEn
  try dsimp only
  repeat' first
    | (with_reducible assumption)
    | (with_reducible apply setFld_only (within rfl hl))
    | (with_reducible apply Only.ite)
    | (with_reducible apply Only.ite2)

theorem raise_only {ps : List Part} (hl : Part.le [.regs] ps = true) {s0_ : State} {evt : Nat} {en : Nat} {f : Fld} {s : State} (h : Only ps s0_ s) :
    Only ps s0_ (raise evt en f s) := by
  unfold raise
  try dsimp only
  repeat' first
    | (with_reducible assumption)
    | (with_reducible apply raiseEn_only (within rfl hl))

theorem raiseSum_only {ps : List Part} (hl : Part.le [.regs] ps = true) {s0_ : State} {f : Fld} {s : State} (h : Only ps s0_ s) :
    Only ps s0_ (raiseSum f s) := by
  unfold raiseSum
  try dsimp only
  repeat' first
    | (with_reducible assumption)
    | (with_reducible apply raise_only (within rfl hl))

theorem dropRec_only {ps : List Part} (hl : Part.le [.regs, .log] ps = true) {s0_ : State} {pl : Plane} {s : State} (h : Only ps s0_ s) :
    Only ps s0_ (dropRec pl s) := by
  unfold dropRec
  try dsimp only
  repeat' first
    | (with_reducible assumption)
    | (with_reducible apply raiseSum_only (within rfl hl))
    | (with_reducible apply only_set_log (within rfl hl))

theorem acceptRec_only {ps : List Part} (hl : Part.le [.log] ps = true) {s0_ : State} {r : LogRec} {s : State} (h : Only ps s0_ s) :
    Only ps s0_ (acceptRec r s) := by
  unfold acceptRec
  try dsimp only
  repeat' first
    | (with_reducible assumption)
    | (with_reducible apply only_set_log (within rfl hl))

theorem stageRec_only {ps : List Part} (hl : Part.le [.regs, .log] ps = true) {s0_ : State} {r : LogRec} {s : State} (h : Only ps s0_ s) :
    Only ps s0_ (stageRec r s) := by
  unfold stageRec
  try dsimp only
  repeat' first
    | (with_reducible assumption)
    | (with_reducible apply acceptRec_only (within rfl hl))
    | (with_reducible apply dropRec_only (within rfl hl))
    | (with_reducible apply Only.ite)
    | (with_reducible apply Only.ite2)

theorem postRec_only {ps : List Part} (hl : Part.le [.regs, .log] ps = true) {s0_ : State} {r : LogRec} {s : State} (h : Only ps s0_ s) :
    Only ps s0_ (postRec r s) := by
  unfold postRec
  try dsimp only
  repeat' first
    | (with_reducible assumption)
    | (with_reducible apply dropRec_only (within rfl hl))
    | (with_reducible apply stageRec_only (within rfl hl))
    | (with_reducible apply Only.ite)
    | (with_reducible apply Only.ite2)
    | (with_reducible apply only_set_log (within rfl hl))

theorem post_only {ps : List Part} (hl : Part.le [.regs, .log] ps = true) {s0_ : State} {pl : Plane} {cls : Nat} {src : Nat} {d0 : Word} {d1 : Nat} {s : State} (h : Only ps s0_ s) :
    Only ps s0_ (post pl cls src d0 d1 s) := by
  unfold post
  try dsimp only
  repeat' first
    | (with_reducible assumption)
    | (with_reducible apply postRec_only (within rfl hl))

theorem setFlag_only {ps : List Part} (hl : Part.le [.regs] ps = true) {s0_ : State} {a : Nat} {f : Fld} {b : Bool} {s : State} (h : Only ps s0_ s) :
    Only ps s0_ (setFlag a f b s) := by
  unfold setFlag
  try dsimp only
  repeat' first
    | (with_reducible assumption)
    | (with_reducible apply setFld_only (within rfl hl))

theorem hang_only {ps : List Part} (hl : Part.le [.crs] ps = true) {s0_ : State} {c : Nat} {s : State} (h : Only ps s0_ s) :
    Only ps s0_ (hang c s) := by
  unfold hang
  try dsimp only
  repeat' first
    | (with_reducible assumption)
    | (with_reducible apply updCrs_only (within rfl hl))

theorem wakeUp_only {ps : List Part} (hl : Part.le [.regs, .clk, .log] ps = true) {s0_ : State} {src : Nat} {s : State} (h : Only ps s0_ s) :
    Only ps s0_ (wakeUp src s) := by
  unfold wakeUp
  try dsimp only
  repeat' first
    | (with_reducible assumption)
    | (with_reducible apply setFld_only (within rfl hl))
    | (with_reducible apply stageRec_only (within rfl hl))
    | (with_reducible apply forEach_only)
    | (with_reducible intro _)
    | (with_reducible apply Only.ite)
    | (with_reducible apply Only.ite2)
    | (with_reducible apply only_set_clk_log (within rfl hl))
    | (with_reducible apply only_set_clk (within rfl hl))
    | (with_reducible apply only_set_log (within rfl hl))
    | dsimp only

theorem updTwm_only {ps : List Part} (hl : Part.le [.twm] ps = true) {s0_ : State} {f : Twm → Twm} {s : State} (h : Only ps s0_ s) :
    Only ps s0_ (updTwm f s) := by
  unfold updTwm
  try dsimp only
  repeat' first
    | (with_reducible assumption)
    | (with_reducible apply only_set_twm (within rfl hl))

theorem updChain_only {ps : List Part} (hl : Part.le [.lnk] ps = true) {s0_ : State} {n : Nat} {f : Chain → Chain} {s : State} (h : Only ps s0_ s) :
    Only ps s0_ (updChain n f s) := by
  unfold updChain
  try dsimp only
  repeat' first
    | (with_reducible assumption)
    | (with_reducible apply only_set_lnk (within rfl hl))

theorem setMbx_only {ps : List Part} (hl : Part.le [.mbx] ps = true) {s0_ : State} {c : Nat} {i : Nat} {e : Option MbxEntry} {s : State} (h : Only ps s0_ s) :
    Only ps s0_ (setMbx c i e s) := by
  unfold setMbx
  try dsimp only
  repeat' first
    | (with_reducible assumption)
    | (with_reducible apply only_set_mbx (within rfl hl))

theorem setOp_only {ps : List Part} (hl : Part.le [.opq] ps = true) {s0_ : State} {c : Nat} {i : Nat} {e : Option OpEntry} {s : State} (h : Only ps s0_ s) :
    Only ps s0_ (setOp c i e s) := by
  unfold setOp
  try dsimp only
  repeat' first
    | (with_reducible assumption)
    | (with_reducible apply only_set_opq (within rfl hl))

theorem updChan_only {ps : List Part} (hl : Part.le [.chan] ps = true) {s0_ : State} {c : Nat} {f : Chan → Chan} {s : State} (h : Only ps s0_ s) :
    Only ps s0_ (updChan c f s) := by
  unfold updChan
  try dsimp only
  repeat' first
    | (with_reducible assumption)
    | (with_reducible apply only_set_chan (within rfl hl))

theorem drawNat_only {ps : List Part} (hl : Part.le [.fresh] ps = true) {s0_ : State} {s : State} (h : Only ps s0_ s) :
    Only ps s0_ (drawNat s).2 := by
  unfold drawNat
  try dsimp only
  repeat' first
    | (with_reducible assumption)
    | (with_reducible apply only_set_fresh (within rfl hl))

theorem pick_only {ps : List Part} (hl : Part.le [.fresh] ps = true) {s0_ : State} {l : List Nat} {s : State} (h : Only ps s0_ s) :
    Only ps s0_ (pick l s).2 := by
  unfold pick
  try dsimp only
  repeat' first
    | (with_reducible assumption)
    | (with_reducible apply drawNat_only (within rfl hl))

theorem updHub_only {ps : List Part} (hl : Part.le [.hub] ps = true) {s0_ : State} {p : Nat} {f : HubPort → HubPort} {s : State} (h : Only ps s0_ s) :
    Only ps s0_ (updHub p f s) := by
  unfold updHub
  try dsimp only
  repeat' first
    | (with_reducible assumption)
    | (with_reducible apply only_set_hub (within rfl hl))

theorem updPort_only {ps : List Part} (hl : Part.le [.port, .mir] ps = true) {s0_ : State} {p : Nat} {f : Port → Port} {s : State} (h : Only ps s0_ s) :
    Only ps s0_ (updPort p f s) := by
  unfold updPort
  try dsimp only
  repeat' first
    | (with_reducible assumption)
    | (with_reducible apply Only.ite)
    | (with_reducible apply Only.ite2)
    | (with_reducible apply only_set_port_mir (within rfl hl))
    | (with_reducible apply only_set_mir (within rfl hl))
    | (with_reducible apply only_set_port (within rfl hl))

theorem setRec_only {ps : List Part} (hl : Part.le [.prec] ps = true) {s0_ : State} {p : Nat} {w : Nat} {v : Word} {s : State} (h : Only ps s0_ s) :
    Only ps s0_ (setRec p w v s) := by
  unfold setRec
  try dsimp only
  repeat' first
    | (with_reducible assumption)
    | (with_reducible apply only_set_prec (within rfl hl))

theorem setUnit_only {ps : List Part} (hl : Part.le [.regs, .dieRegs] ps = true) {s0_ : State} {u : Nat} {a : Nat} {v : Word} {s : State} (h : Only ps s0_ s) :
    Only ps s0_ (setUnit u a v s) := by
  unfold setUnit
  try dsimp only
  repeat' first
    | (with_reducible assumption)
    | (with_reducible apply setReg_only (within rfl hl))
    | (with_reducible apply Only.ite)
    | (with_reducible apply Only.ite2)
    | (with_reducible apply only_set_dieRegs (within rfl hl))

theorem setUnitFld_only {ps : List Part} (hl : Part.le [.regs, .dieRegs] ps = true) {s0_ : State} {u : Nat} {a : Nat} {f : Fld} {v : Nat} {s : State} (h : Only ps s0_ s) :
    Only ps s0_ (setUnitFld u a f v s) := by
  unfold setUnitFld
  try dsimp only
  repeat' first
    | (with_reducible assumption)
    | (with_reducible apply setUnit_only (within rfl hl))

theorem updAdc_only {ps : List Part} (hl : Part.le [.adc] ps = true) {s0_ : State} {u : Nat} {f : Adc → Adc} {s : State} (h : Only ps s0_ s) :
    Only ps s0_ (updAdc u f s) := by
  unfold updAdc
  try dsimp only
  repeat' first
    | (with_reducible assumption)
    | (with_reducible apply only_set_adc (within rfl hl))

theorem saveSetting_only {ps : List Part} (hl : Part.le [.regs, .saved, .boot] ps = true) {s0_ : State} {host : Bool} {a : Nat} {v : Word} {s : State} (h : Only ps s0_ s) :
    Only ps s0_ (saveSetting host a v s) := by
  unfold saveSetting
  try dsimp only
  repeat' first
    | (with_reducible assumption)
    | (with_reducible apply setFld_only (within rfl hl))
    | (with_reducible apply Only.ite)
    | (with_reducible apply Only.ite2)
    | (with_reducible apply only_set_saved_boot (within rfl hl))
    | (with_reducible apply only_set_boot (within rfl hl))
    | (with_reducible apply only_set_saved (within rfl hl))

theorem writeUnit_only {ps : List Part} (hl : Part.le [.regs, .dieRegs, .adc] ps = true) {s0_ : State} {u : Nat} {a : Nat} {v : Word} {s : State} (h : Only ps s0_ s) :
    Only ps s0_ (writeUnit u a v s) := by
  unfold writeUnit
  try dsimp only
  repeat' first
    | (with_reducible assumption)
    | (with_reducible apply setReg_only (within rfl hl))
    | (with_reducible apply updAdc_only (within rfl hl))
    | (with_reducible apply Only.ite)
    | (with_reducible apply Only.ite2)
    | (with_reducible apply only_set_dieRegs (within rfl hl))

theorem setPan_only {ps : List Part} (hl : Part.le [.pan] ps = true) {s0_ : State} {c : Nat} {i : Nat} {o : PanOwner} {s : State} (h : Only ps s0_ s) :
    Only ps s0_ (setPan c i o s) := by
  unfold setPan
  try dsimp only
  repeat' first
    | (with_reducible assumption)
    | (with_reducible apply only_set_pan (within rfl hl))

theorem updPhy_only {ps : List Part} (hl : Part.le [.phy] ps = true) {s0_ : State} {p : Nat} {f : Phy → Phy} {s : State} (h : Only ps s0_ s) :
    Only ps s0_ (updPhy p f s) := by
  unfold updPhy
  try dsimp only
  repeat' first
    | (with_reducible assumption)
    | (with_reducible apply only_set_phy (within rfl hl))

theorem updCtx_only {ps : List Part} (hl : Part.le [.ctx] ps = true) {s0_ : State} {c : Nat} {n : Nat} {f : Ctx → Ctx} {s : State} (h : Only ps s0_ s) :
    Only ps s0_ (updCtx c n f s) := by
  unfold updCtx
  try dsimp only
  repeat' first
    | (with_reducible assumption)
    | (with_reducible apply only_set_ctx (within rfl hl))

theorem updMir_only {ps : List Part} (hl : Part.le [.mir] ps = true) {s0_ : State} {p : Nat} {f : Port → Port} {s : State} (h : Only ps s0_ s) :
    Only ps s0_ (updMir p f s) := by
  unfold updMir
  try dsimp only
  repeat' first
    | (with_reducible assumption)
    | (with_reducible apply only_set_mir (within rfl hl))

theorem updDie_only {ps : List Part} (hl : Part.le [.die] ps = true) {s0_ : State} {d : Nat} {f : Die → Die} {s : State} (h : Only ps s0_ s) :
    Only ps s0_ (updDie d f s) := by
  unfold updDie
  try dsimp only
  repeat' first
    | (with_reducible assumption)
    | (with_reducible apply only_set_die (within rfl hl))

theorem updFw_only {ps : List Part} (hl : Part.le [.fw] ps = true) {s0_ : State} {p : Nat} {f : Fw → Fw} {s : State} (h : Only ps s0_ s) :
    Only ps s0_ (updFw p f s) := by
  unfold updFw
  try dsimp only
  repeat' first
    | (with_reducible assumption)
    | (with_reducible apply only_set_fw (within rfl hl))

theorem updEnum_only {ps : List Part} (hl : Part.le [.enum] ps = true) {s0_ : State} {f : Enum → Enum} {s : State} (h : Only ps s0_ s) :
    Only ps s0_ (updEnum f s) := by
  unfold updEnum
  try dsimp only
  repeat' first
    | (with_reducible assumption)
    | (with_reducible apply only_set_enum (within rfl hl))

theorem updMon_only {ps : List Part} (hl : Part.le [.fdrMon] ps = true) {s0_ : State} {f : Nat} {g : FdrMon → FdrMon} {s : State} (h : Only ps s0_ s) :
    Only ps s0_ (updMon f g s) := by
  unfold updMon
  try dsimp only
  repeat' first
    | (with_reducible assumption)
    | (with_reducible apply only_set_fdrMon (within rfl hl))

theorem writePortReg_only {ps : List Part} (hl : Part.le [.regs, .dieRegs] ps = true) {s0_ : State} {p : Nat} {a : Nat} {v : Word} {s : State} (h : Only ps s0_ s) :
    Only ps s0_ (writePortReg p a v s) := by
  unfold writePortReg
  try dsimp only
  repeat' first
    | (with_reducible assumption)
    | (with_reducible apply setReg_only (within rfl hl))
    | (with_reducible apply Only.ite)
    | (with_reducible apply Only.ite2)
    | (with_reducible apply only_set_dieRegs (within rfl hl))

theorem cross_only {ps : List Part} (hl : Part.le [.xat, .fresh] ps = true) {s0_ : State} {x : Cross} {s : State} (h : Only ps s0_ s) :
    Only ps s0_ (cross x s).2 := by
  unfold cross
  try dsimp only
  repeat' first
    | (with_reducible assumption)
    | (with_reducible apply drawNat_only (within rfl hl))
    | (with_reducible apply Only.ite)
    | (with_reducible apply Only.ite2)
    | (with_reducible apply only_set_xat (within rfl hl))

theorem noteMerge_only {ps : List Part} (hl : Part.le [.regs] ps = true) {s0_ : State} {x : Cross} {s : State} (h : Only ps s0_ s) :
    Only ps s0_ (noteMerge x s) := by
  unfold noteMerge
  try dsimp only
  repeat' first
    | (with_reducible assumption)
    | (with_reducible apply setFld_only (within rfl hl))
    | split
    | dsimp only

theorem xover_only {ps : List Part} (hl : Part.le [.regs, .xat, .fresh] ps = true) {s0_ : State} {x : Cross} {s : State} (h : Only ps s0_ s) :
    Only ps s0_ (xover x s) := by
  unfold xover
  try dsimp only
  repeat' first
    | (with_reducible assumption)
    | (with_reducible apply cross_only (within rfl hl))
    | (with_reducible apply noteMerge_only (within rfl hl))
    | (with_reducible apply Only.ite)
    | (with_reducible apply Only.ite2)

theorem raisePrt_only {ps : List Part} (hl : Part.le [.regs] ps = true) {s0_ : State} {evt : Nat} {en : Nat} {p : Nat} {f : Fld} {s : State} (h : Only ps s0_ s) :
    Only ps s0_ (raisePrt evt en p f s) := by
  unfold raisePrt
  try dsimp only
  repeat' first
    | (with_reducible assumption)
    | (with_reducible apply raise_only (within rfl hl))
    | (with_reducible apply setFld_only (within rfl hl))
    | (with_reducible apply Only.ite)
    | (with_reducible apply Only.ite2)

theorem portEvt_only {ps : List Part} (hl : Part.le [.regs, .port, .mir] ps = true) {s0_ : State} {p : Nat} {f : Fld} {s : State} (h : Only ps s0_ s) :
    Only ps s0_ (portEvt p f s) := by
  unfold portEvt
  try dsimp only
  repeat' first
    | (with_reducible assumption)
    | (with_reducible apply raisePrt_only (within rfl hl))
    | (with_reducible apply updPort_only (within rfl hl))
    | (with_reducible apply Only.ite)
    | (with_reducible apply Only.ite2)

theorem updTimer_only {ps : List Part} (hl : Part.le [.timer] ps = true) {s0_ : State} {n : Nat} {f : Timer → Timer} {s : State} (h : Only ps s0_ s) :
    Only ps s0_ (updTimer n f s) := by
  unfold updTimer
  try dsimp only
  repeat' first
    | (with_reducible assumption)
    | (with_reducible apply only_set_timer (within rfl hl))

theorem raisePd_only {ps : List Part} (hl : Part.le [.regs] ps = true) {s0_ : State} {p : Nat} {f : Fld} {s : State} (h : Only ps s0_ s) :
    Only ps s0_ (raisePd p f s) := by
  unfold raisePd
  try dsimp only
  repeat' first
    | (with_reducible assumption)
    | (with_reducible apply raisePrt_only (within rfl hl))

theorem maErr_only {ps : List Part} (hl : Part.le [.regs] ps = true) {s0_ : State} {cause : Nat} {a : Word} {s : State} (h : Only ps s0_ s) :
    Only ps s0_ (maErr cause a s) := by
  unfold maErr
  try dsimp only
  repeat' first
    | (with_reducible assumption)
    | (with_reducible apply incFld_only (within rfl hl))
    | (with_reducible apply setFld_only (within rfl hl))
    | (with_reducible apply setReg_only (within rfl hl))

theorem twmCmd_only {ps : List Part} (hl : Part.le [.regs, .clk, .log] ps = true) {s0_ : State} {f : State → State} {s : State} (h : Only ps s0_ s) (h_f : ∀ (u0 : State), Only ps s0_ u0 → Only ps s0_ (f u0)) :
    Only ps s0_ (twmCmd f s) := by
  unfold twmCmd
  try dsimp only
  repeat' first
    | (with_reducible assumption)
    | (with_reducible apply h_f)
    | (with_reducible apply wakeUp_only (within rfl hl))
    | (with_reducible intro _)
    | (with_reducible apply Only.ite)
    | (with_reducible apply Only.ite2)
    | (with_reducible apply only_set_clk (within rfl hl))
    | dsimp only

theorem access_only {ps : List Part} (hl : Part.le [.regs, .crs, .clk, .log] ps = true) {s0_ : State} {who : Who} {a : Nat} {act : State → State} {s : State} (h : Only ps s0_ s) (h_act : ∀ (u0 : State), Only ps s0_ u0 → Only ps s0_ (act u0)) :
    Only ps s0_ (access who a act s) := by
  unfold access
  try dsimp only
  repeat' first
    | (with_reducible assumption)
    | (with_reducible apply h_act)
    | (with_reducible apply hang_only (within rfl hl))
    | (with_reducible apply maErr_only (within rfl hl))
    | (with_reducible apply twmCmd_only (within rfl hl))
    | (with_reducible intro _)
    | (with_reducible apply Only.ite)
    | (with_reducible apply Only.ite2)
    | split
    | dsimp only

theorem setBus_only {ps : List Part} (hl : Part.le [.bus] ps = true) {s0_ : State} {v : Word} {s : State} (h : Only ps s0_ s) :
    Only ps s0_ (setBus v s) := by
  unfold setBus
  try dsimp only
  repeat' first
    | (with_reducible assumption)
    | (with_reducible apply only_set_bus (within rfl hl))

theorem raiseAng_only {ps : List Part} (hl : Part.le [.regs] ps = true) {s0_ : State} {f : Fld} {s : State} (h : Only ps s0_ s) :
    Only ps s0_ (raiseAng f s) := by
  unfold raiseAng
  try dsimp only
  repeat' first
    | (with_reducible assumption)
    | (with_reducible apply raise_only (within rfl hl))

theorem updFharv_only {ps : List Part} (hl : Part.le [.fharv] ps = true) {s0_ : State} {f : Nat} {g : FHarv → FHarv} {s : State} (h : Only ps s0_ s) :
    Only ps s0_ (updFharv f g s) := by
  unfold updFharv
  try dsimp only
  repeat' first
    | (with_reducible assumption)
    | (with_reducible apply only_set_fharv (within rfl hl))

theorem updHarv_only {ps : List Part} (hl : Part.le [.harv] ps = true) {s0_ : State} {p : Nat} {f : Harv → Harv} {s : State} (h : Only ps s0_ s) :
    Only ps s0_ (updHarv p f s) := by
  unfold updHarv
  try dsimp only
  repeat' first
    | (with_reducible assumption)
    | (with_reducible apply only_set_harv (within rfl hl))

theorem drawWord_only {ps : List Part} (hl : Part.le [.fresh] ps = true) {s0_ : State} {s : State} (h : Only ps s0_ s) :
    Only ps s0_ (drawWord s).2 := by
  unfold drawWord
  try dsimp only
  repeat' first
    | (with_reducible assumption)
    | (with_reducible apply only_set_fresh (within rfl hl))

theorem idle_only {ps : List Part} (hl : Part.le [.tb, .clock] ps = true) {s0_ : State} {s : State} (h : Only ps s0_ s) :
    Only ps s0_ (idle s) := by
  unfold idle
  try dsimp only
  repeat' first
    | (with_reducible assumption)
    | (with_reducible apply Only.ite)
    | (with_reducible apply Only.ite2)
    | (with_reducible apply only_set_tb_clock (within rfl hl))
    | (with_reducible apply only_set_clock (within rfl hl))
    | (with_reducible apply only_set_tb (within rfl hl))

theorem updScan_only {ps : List Part} (hl : Part.le [.scan] ps = true) {s0_ : State} {p : Nat} {f : Scan → Scan} {s : State} (h : Only ps s0_ s) :
    Only ps s0_ (updScan p f s) := by
  unfold updScan
  try dsimp only
  repeat' first
    | (with_reducible assumption)
    | (with_reducible apply only_set_scan (within rfl hl))

theorem readCmd_only {ps : List Part} (hl : Part.le [.bus] ps = true) {s0_ : State} {r : Word × State} (h : Only ps s0_ r.2) :
    Only ps s0_ (readCmd r) := setBus_only (within rfl hl) h

end Sys2Proof.Machine
end

