-- ==== Sys2Proof/Laws/OnlyTimebase.lean ====
section
/-! SUPPORT. Footprints of the operations of Machine/Timebase.lean: the parts of the state each may change. -/
namespace Sys2Proof.Machine

theorem angSnap_only {ps : List Part} (hl : Part.le [.regs] ps = true) {s0_ : State} {s : State} (h : Only ps s0_ s) :
    Only ps s0_ (angSnap s) := by
  unfold angSnap
  try dsimp only
  repeat' first
    | (with_reducible assumption)
    | (with_reducible apply setFld_only (within rfl hl))
    | (with_reducible apply setReg_only (within rfl hl))

theorem readCycLo_only {ps : List Part} (hl : Part.le [.regs] ps = true) {s0_ : State} {s : State} (h : Only ps s0_ s) :
    Only ps s0_ (readCycLo s).2 := by
  unfold readCycLo
  try dsimp only
  repeat' first
    | (with_reducible assumption)
    | (with_reducible apply setReg_only (within rfl hl))

theorem readUsecLo_only {ps : List Part} (hl : Part.le [.regs] ps = true) {s0_ : State} {s : State} (h : Only ps s0_ s) :
    Only ps s0_ (readUsecLo s).2 := by
  unfold readUsecLo
  try dsimp only
  repeat' first
    | (with_reducible assumption)
    | (with_reducible apply setReg_only (within rfl hl))

theorem fixPhofs_only {ps : List Part} (hl : Part.le [.regs] ps = true) {s0_ : State} {s : State} (h : Only ps s0_ s) :
    Only ps s0_ (fixPhofs s) := by
  unfold fixPhofs
  try dsimp only
  repeat' first
    | (with_reducible assumption)
    | (with_reducible apply setFld_only (within rfl hl))
    | (with_reducible apply Only.ite)
    | (with_reducible apply Only.ite2)

theorem setTb_only {ps : List Part} (hl : Part.le [.tb] ps = true) {s0_ : State} {f : Timebase → Timebase} {s : State} (h : Only ps s0_ s) :
    Only ps s0_ (setTb f s) := by
  unfold setTb
  try dsimp only
  repeat' first
    | (with_reducible assumption)
    | (with_reducible apply only_set_tb (within rfl hl))

theorem rampAgain_only {ps : List Part} (hl : Part.le [.tb] ps = true) {s0_ : State} {s : State} (h : Only ps s0_ s) :
    Only ps s0_ (rampAgain s) := by
  unfold rampAgain
  try dsimp only
  repeat' first
    | (with_reducible assumption)
    | (with_reducible apply setTb_only (within rfl hl))

theorem advanceTo_only {ps : List Part} (hl : Part.le [.tb] ps = true) {s0_ : State} {a : BitVec 16} {s : State} (h : Only ps s0_ s) :
    Only ps s0_ (advanceTo a s) := by
  unfold advanceTo
  try dsimp only
  repeat' first
    | (with_reducible assumption)
    | (with_reducible apply setTb_only (within rfl hl))
    | (with_reducible apply Only.ite)
    | (with_reducible apply Only.ite2)

theorem angEvt_only {ps : List Part} (hl : Part.le [.regs, .log] ps = true) {s0_ : State} {f : Fld} {s : State} (h : Only ps s0_ s) :
    Only ps s0_ (angEvt f s) := by
  unfold angEvt
  try dsimp only
  repeat' first
    | (with_reducible assumption)
    | (with_reducible apply post_only (within rfl hl))
    | (with_reducible apply raiseAng_only (within rfl hl))

theorem enterHoldover_only {ps : List Part} (hl : Part.le [.regs, .tb, .log] ps = true) {s0_ : State} {s : State} (h : Only ps s0_ s) :
    Only ps s0_ (enterHoldover s) := by
  unfold enterHoldover
  try dsimp only
  repeat' first
    | (with_reducible assumption)
    | (with_reducible apply angEvt_only (within rfl hl))
    | (with_reducible apply setTb_only (within rfl hl))
    | (with_reducible apply Only.ite)
    | (with_reducible apply Only.ite2)

theorem enterIsland_only {ps : List Part} (hl : Part.le [.regs, .tb, .log] ps = true) {s0_ : State} {s : State} (h : Only ps s0_ s) :
    Only ps s0_ (enterIsland s) := by
  unfold enterIsland
  try dsimp only
  repeat' first
    | (with_reducible assumption)
    | (with_reducible apply angEvt_only (within rfl hl))
    | (with_reducible apply setTb_only (within rfl hl))

theorem tryReturn_only {ps : List Part} (hl : Part.le [.tb] ps = true) {s0_ : State} {err : BitVec 16} {s : State} (h : Only ps s0_ s) :
    Only ps s0_ (tryReturn err s) := by
  unfold tryReturn
  try dsimp only
  repeat' first
    | (with_reducible assumption)
    | (with_reducible apply setTb_only (within rfl hl))
    | (with_reducible apply Only.ite)
    | (with_reducible apply Only.ite2)

theorem angBlackout_only {ps : List Part} (hl : Part.le [.regs, .tb, .log] ps = true) {s0_ : State} {low : Bool} {angle : BitVec 16} {s : State} (h : Only ps s0_ s) :
    Only ps s0_ (angBlackout low angle s) := by
  unfold angBlackout
  try dsimp only
  repeat' first
    | (with_reducible assumption)
    | (with_reducible apply enterHoldover_only (within rfl hl))
    | (with_reducible apply enterIsland_only (within rfl hl))
    | (with_reducible apply setFlag_only (within rfl hl))
    | (with_reducible apply tryReturn_only (within rfl hl))
    | (with_reducible apply Only.ite)
    | (with_reducible apply Only.ite2)
    | split
    | dsimp only

theorem crossMiss_only {ps : List Part} (hl : Part.le [.regs, .tb, .log] ps = true) {s0_ : State} {s : State} (h : Only ps s0_ s) :
    Only ps s0_ (crossMiss s) := by
  unfold crossMiss
  try dsimp only
  repeat' first
    | (with_reducible assumption)
    | (with_reducible apply angEvt_only (within rfl hl))
    | (with_reducible apply raiseSum_only (within rfl hl))
    | (with_reducible apply setTb_only (within rfl hl))
    | (with_reducible apply Only.ite)
    | (with_reducible apply Only.ite2)

theorem crossWrap_only {ps : List Part} (hl : Part.le [.regs, .tb, .log] ps = true) {s0_ : State} {was : AngState} {s : State} (h : Only ps s0_ s) :
    Only ps s0_ (crossWrap was s) := by
  unfold crossWrap
  try dsimp only
  repeat' first
    | (with_reducible assumption)
    | (with_reducible apply crossMiss_only (within rfl hl))
    | (with_reducible apply setTb_only (within rfl hl))
    | (with_reducible apply Only.ite)
    | (with_reducible apply Only.ite2)

theorem phaseCheck_only {ps : List Part} (hl : Part.le [.regs, .log] ps = true) {s0_ : State} {m : WrapMeas} {s : State} (h : Only ps s0_ s) :
    Only ps s0_ (phaseCheck m s) := by
  unfold phaseCheck
  try dsimp only
  repeat' first
    | (with_reducible assumption)
    | (with_reducible apply angEvt_only (within rfl hl))
    | (with_reducible apply setFld_only (within rfl hl))
    | (with_reducible apply Only.ite)
    | (with_reducible apply Only.ite2)

theorem wrapMeasure_only {ps : List Part} (hl : Part.le [.regs, .tb] ps = true) {s0_ : State} {m : WrapMeas} {s : State} (h : Only ps s0_ s) :
    Only ps s0_ (wrapMeasure m s) := by
  unfold wrapMeasure
  try dsimp only
  repeat' first
    | (with_reducible assumption)
    | (with_reducible apply setFlag_only (within rfl hl))
    | (with_reducible apply setFld_only (within rfl hl))
    | (with_reducible apply setTb_only (within rfl hl))
    | (with_reducible apply Only.ite)
    | (with_reducible apply Only.ite2)

theorem setFreq_only {ps : List Part} (hl : Part.le [.regs] ps = true) {s0_ : State} {f : Nat} {s : State} (h : Only ps s0_ s) :
    Only ps s0_ (setFreq f s) := by
  unfold setFreq
  try dsimp only
  repeat' first
    | (with_reducible assumption)
    | (with_reducible apply setFld_only (within rfl hl))

theorem slewEntry_only {ps : List Part} (hl : Part.le [.regs] ps = true) {s0_ : State} {m : WrapMeas} {s : State} (h : Only ps s0_ s) :
    Only ps s0_ (slewEntry m s) := by
  unfold slewEntry
  try dsimp only
  repeat' first
    | (with_reducible assumption)
    | (with_reducible apply setFreq_only (within rfl hl))
    | (with_reducible apply Only.ite)
    | (with_reducible apply Only.ite2)

theorem wrapPhofs_only {ps : List Part} (hl : Part.le [.regs] ps = true) {s0_ : State} {m : WrapMeas} {s : State} (h : Only ps s0_ s) :
    Only ps s0_ (wrapPhofs m s) := by
  unfold wrapPhofs
  try dsimp only
  repeat' first
    | (with_reducible assumption)
    | (with_reducible apply setFld_only (within rfl hl))
    | (with_reducible apply Only.ite)
    | (with_reducible apply Only.ite2)

theorem enterLocked_only {ps : List Part} (hl : Part.le [.tb] ps = true) {s0_ : State} {s : State} (h : Only ps s0_ s) :
    Only ps s0_ (enterLocked s) := by
  unfold enterLocked
  try dsimp only
  repeat' first
    | (with_reducible assumption)
    | (with_reducible apply setTb_only (within rfl hl))

theorem wrapReturn_only {ps : List Part} (hl : Part.le [.regs, .tb, .log] ps = true) {s0_ : State} {m : WrapMeas} {s : State} (h : Only ps s0_ s) :
    Only ps s0_ (wrapReturn m s) := by
  unfold wrapReturn
  try dsimp only
  repeat' first
    | (with_reducible assumption)
    | (with_reducible apply angEvt_only (within rfl hl))
    | (with_reducible apply enterLocked_only (within rfl hl))
    | (with_reducible apply setFld_only (within rfl hl))
    | (with_reducible apply setFreq_only (within rfl hl))
    | (with_reducible apply setTb_only (within rfl hl))
    | (with_reducible apply Only.ite)
    | (with_reducible apply Only.ite2)

theorem wrapUnlock_only {ps : List Part} (hl : Part.le [.regs, .tb, .log] ps = true) {s0_ : State} {m : WrapMeas} {s : State} (h : Only ps s0_ s) {t : State}
    (he : wrapUnlock m s = some t) : Only ps s0_ t := by
  unfold wrapUnlock at he
  split at he
  · exact Option.some.inj he ▸ angEvt_only (within rfl hl) (enterHoldover_only (within rfl hl) h)
  · split at he
    · exact Option.some.inj he ▸ enterHoldover_only (within rfl hl) h
    · cases he

theorem wrapState_only {ps : List Part} (hl : Part.le [.regs, .tb, .log] ps = true) {s0_ : State} {m : WrapMeas} {s : State} (h : Only ps s0_ s) :
    Only ps s0_ (wrapState m s) := by
  unfold wrapState
  try dsimp only
  repeat' first
    | (with_reducible assumption)
    | (with_reducible apply setFreq_only (within rfl hl))
    | (with_reducible apply setTb_only (within rfl hl))
    | (with_reducible apply slewEntry_only (within rfl hl))
    | (with_reducible apply tryReturn_only (within rfl hl))
    | (with_reducible apply wrapPhofs_only (within rfl hl))
    | (with_reducible apply wrapReturn_only (within rfl hl))
    | ((with_reducible apply wrapUnlock_only (within rfl hl) (he := ?he)); case he => (with_reducible assumption))
    | (with_reducible apply Only.ite)
    | (with_reducible apply Only.ite2)
    | split
    | dsimp only

theorem crossEdge_only {ps : List Part} (hl : Part.le [.regs, .tb, .log] ps = true) {s0_ : State} {err : Int} {s : State} (h : Only ps s0_ s) :
    Only ps s0_ (crossEdge err s) := by
  unfold crossEdge
  try dsimp only
  repeat' first
    | (with_reducible assumption)
    | (with_reducible apply crossMiss_only (within rfl hl))
    | (with_reducible apply setFld_only (within rfl hl))
    | (with_reducible apply setTb_only (within rfl hl))
    | (with_reducible apply Only.ite)
    | (with_reducible apply Only.ite2)

theorem dipEnd_only {ps : List Part} (hl : Part.le [.regs, .tb, .log] ps = true) {s0_ : State} {start : BitVec 16} {stop : BitVec 16} {s : State} (h : Only ps s0_ s) :
    Only ps s0_ (dipEnd start stop s) := by
  unfold dipEnd
  try dsimp only
  repeat' first
    | (with_reducible assumption)
    | (with_reducible apply advanceTo_only (within rfl hl))
    | (with_reducible apply angEvt_only (within rfl hl))
    | (with_reducible apply setTb_only (within rfl hl))
    | (with_reducible apply Only.ite)
    | (with_reducible apply Only.ite2)

theorem loadAngle_only {ps : List Part} (hl : Part.le [.tb, .timer] ps = true) {s0_ : State} {angle : BitVec 16} {s : State} (h : Only ps s0_ s) :
    Only ps s0_ (loadAngle angle s) := by
  unfold loadAngle
  try dsimp only
  repeat' first
    | (with_reducible assumption)
    | (with_reducible apply setTb_only (within rfl hl))
    | (with_reducible apply updTimer_only (within rfl hl))
    | (with_reducible apply forEach_only)
    | (with_reducible intro _)
    | dsimp only

theorem loopLock_only {ps : List Part} (hl : Part.le [.regs, .tb, .timer, .log] ps = true) {s0_ : State} {angle : BitVec 16} {amp : BitVec 16} {s : State} (h : Only ps s0_ s) :
    Only ps s0_ (loopLock angle amp s) := by
  unfold loopLock
  try dsimp only
  repeat' first
    | (with_reducible assumption)
    | (with_reducible apply angEvt_only (within rfl hl))
    | (with_reducible apply enterLocked_only (within rfl hl))
    | (with_reducible apply loadAngle_only (within rfl hl))
    | (with_reducible apply setFld_only (within rfl hl))
    | (with_reducible apply setTb_only (within rfl hl))
    | (with_reducible apply tryReturn_only (within rfl hl))
    | (with_reducible apply Only.ite)
    | (with_reducible apply Only.ite2)

theorem maEdge_only {ps : List Part} (hl : Part.le [.regs, .tb, .log] ps = true) {s0_ : State} {a : BitVec 16} {s : State} (h : Only ps s0_ s) :
    Only ps s0_ (maEdge a s) := by
  unfold maEdge
  try dsimp only
  repeat' first
    | (with_reducible assumption)
    | (with_reducible apply crossEdge_only (within rfl hl))
    | (with_reducible apply setTb_only (within rfl hl))
    | (with_reducible apply Only.ite)
    | (with_reducible apply Only.ite2)

theorem mzxEdge_only {ps : List Part} (hl : Part.le [.regs, .tb, .log] ps = true) {s0_ : State} {a : BitVec 16} {s : State} (h : Only ps s0_ s) :
    Only ps s0_ (mzxEdge a s) := by
  unfold mzxEdge
  try dsimp only
  repeat' first
    | (with_reducible assumption)
    | (with_reducible apply crossEdge_only (within rfl hl))
    | (with_reducible apply setTb_only (within rfl hl))
    | (with_reducible apply Only.ite)
    | (with_reducible apply Only.ite2)

end Sys2Proof.Machine
end

