-- ==== Sys2Proof/Laws/OnlyQueue.lean ====
section
/-! SUPPORT. Footprints of the operations of Machine/Queue.lean: the parts of the state each may change. -/
namespace Sys2Proof.Machine

theorem postCq_only {ps : List Part} (hl : Part.le [.opq, .chan] ps = true) {s0_ : State} {c : Nat} {e : CqEntry} {s : State} (h : Only ps s0_ s) :
    Only ps s0_ (postCq c e s) := by
  unfold postCq
  try dsimp only
  repeat' first
    | (with_reducible assumption)
    | (with_reducible apply setOp_only (within rfl hl))
    | (with_reducible apply updChan_only (within rfl hl))
    | (with_reducible apply Only.ite)
    | (with_reducible apply Only.ite2)
    | split
    | dsimp only

theorem result_only {ps : List Part} (hl : Part.le [.opq, .chan] ps = true) {s0_ : State} {c : Nat} {e : CqEntry} {s : State} (h : Only ps s0_ s) :
    Only ps s0_ (result c e s) := by
  unfold result
  try dsimp only
  repeat' first
    | (with_reducible assumption)
    | (with_reducible apply postCq_only (within rfl hl))
    | (with_reducible apply setOp_only (within rfl hl))
    | (with_reducible apply updChan_only (within rfl hl))
    | (with_reducible apply Only.ite)
    | (with_reducible apply Only.ite2)
    | split
    | dsimp only

theorem finishOp_only {ps : List Part} (hl : Part.le [.opq, .chan] ps = true) {s0_ : State} {c : Nat} {i : Nat} {r : OpResult} {s : State} (h : Only ps s0_ s) :
    Only ps s0_ (finishOp c i r s) := by
  unfold finishOp
  try dsimp only
  repeat' first
    | (with_reducible assumption)
    | (with_reducible apply result_only (within rfl hl))
    | (with_reducible apply Only.ite)
    | (with_reducible apply Only.ite2)
    | split
    | dsimp only

theorem abortBefore_only {ps : List Part} (hl : Part.le [.opq, .chan] ps = true) {s0_ : State} {c : Nat} {k : Nat} {order : Nat} {s : State} (h : Only ps s0_ s) :
    Only ps s0_ (abortBefore c k order s) := by
  unfold abortBefore
  try dsimp only
  repeat' first
    | (with_reducible assumption)
    | (with_reducible apply finishOp_only (within rfl hl))
    | (with_reducible apply forEach_only)
    | (with_reducible intro _)
    | dsimp only

theorem abortOps_only {ps : List Part} (hl : Part.le [.opq, .chan] ps = true) {s0_ : State} {c : Nat} {k : Nat} {s : State} (h : Only ps s0_ s) :
    Only ps s0_ (abortOps c k s) := by
  unfold abortOps
  try dsimp only
  repeat' first
    | (with_reducible assumption)
    | (with_reducible apply abortBefore_only (within rfl hl))

theorem putOp_only {ps : List Part} (hl : Part.le [.opq, .chan] ps = true) {s0_ : State} {c : Nat} {i : Nat} {e : OpEntry} {s : State} (h : Only ps s0_ s) :
    Only ps s0_ (putOp c i e s) := by
  unfold putOp
  try dsimp only
  repeat' first
    | (with_reducible assumption)
    | (with_reducible apply setOp_only (within rfl hl))
    | (with_reducible apply updChan_only (within rfl hl))

theorem enterOp_only {ps : List Part} (hl : Part.le [.opq, .chan, .fresh] ps = true) {s0_ : State} {c : Nat} {e : OpEntry} {s : State} (h : Only ps s0_ s) :
    Only ps s0_ (enterOp c e s).2 := by
  unfold enterOp
  try dsimp only
  repeat' first
    | (with_reducible assumption)
    | (with_reducible apply pick_only (within rfl hl))
    | (with_reducible apply putOp_only (within rfl hl))

theorem createHrOff_only {ps : List Part} (hl : Part.le [.hub, .opq, .chan, .fresh] ps = true) {s0_ : State} {c : Nat} {k : Nat} {s : State} (h : Only ps s0_ s) :
    Only ps s0_ (createHrOff c k s) := by
  unfold createHrOff
  try dsimp only
  repeat' first
    | (with_reducible assumption)
    | (with_reducible apply abortBefore_only (within rfl hl))
    | (with_reducible apply enterOp_only (within rfl hl))
    | (with_reducible apply updHub_only (within rfl hl))
    | (with_reducible apply Only.ite)
    | (with_reducible apply Only.ite2)

theorem queueXfer_only {ps : List Part} (hl : Part.le [.hub, .opq, .chan, .fresh] ps = true) {s0_ : State} {c : Nat} {k : Nat} {s : State} (h : Only ps s0_ s) :
    Only ps s0_ (queueXfer c k s) := by
  unfold queueXfer
  try dsimp only
  repeat' first
    | (with_reducible assumption)
    | (with_reducible apply enterOp_only (within rfl hl))
    | (with_reducible apply updHub_only (within rfl hl))
    | (with_reducible apply Only.ite)
    | (with_reducible apply Only.ite2)

theorem serveMarks_only {ps : List Part} (hl : Part.le [.hub, .opq, .chan, .fresh] ps = true) {s0_ : State} {c : Nat} {s : State} (h : Only ps s0_ s) :
    Only ps s0_ (serveMarks c s) := by
  unfold serveMarks
  try dsimp only
  repeat' first
    | (with_reducible assumption)
    | (with_reducible apply createHrOff_only (within rfl hl))
    | (with_reducible apply queueXfer_only (within rfl hl))
    | (with_reducible apply forEach_only)
    | (with_reducible intro _)
    | dsimp only

theorem stopDeadline_only {ps : List Part} (hl : Part.le [.hub] ps = true) {s0_ : State} {p : Nat} {s : State} (h : Only ps s0_ s) :
    Only ps s0_ (stopDeadline p s) := by
  unfold stopDeadline
  try dsimp only
  repeat' first
    | (with_reducible assumption)
    | (with_reducible apply updHub_only (within rfl hl))

theorem stepToOp_only {ps : List Part} (hl : Part.le [.opq, .chan] ps = true) {s0_ : State} {c : Nat} {i : Nat} {s : State} (h : Only ps s0_ s) :
    Only ps s0_ (stepToOp c i s) := by
  unfold stepToOp
  try dsimp only
  repeat' first
    | (with_reducible assumption)
    | (with_reducible apply result_only (within rfl hl))
    | (with_reducible apply setOp_only (within rfl hl))
    | (with_reducible apply Only.ite)
    | (with_reducible apply Only.ite2)
    | split
    | dsimp only

theorem cancelReleased_only {ps : List Part} (hl : Part.le [.opq, .chan] ps = true) {s0_ : State} {c : Nat} {k : Nat} {s : State} (h : Only ps s0_ s) :
    Only ps s0_ (cancelReleased c k s) := by
  unfold cancelReleased
  try dsimp only
  repeat' first
    | (with_reducible assumption)
    | (with_reducible apply finishOp_only (within rfl hl))
    | (with_reducible apply forEach_only)
    | (with_reducible intro _)
    | dsimp only

theorem endHold_only {ps : List Part} (hl : Part.le [.hub] ps = true) {s0_ : State} {p : Nat} {s : State} (h : Only ps s0_ s) :
    Only ps s0_ (endHold p s) := by
  unfold endHold
  try dsimp only
  repeat' first
    | (with_reducible assumption)
    | (with_reducible apply updHub_only (within rfl hl))

theorem endOp_only {ps : List Part} (hl : Part.le [.hub, .opq, .chan, .fresh] ps = true) {s0_ : State} {c : Nat} {i : Nat} {r : OpResult} {s : State} (h : Only ps s0_ s) :
    Only ps s0_ (endOp c i r s) := by
  unfold endOp
  try dsimp only
  repeat' first
    | (with_reducible assumption)
    | (with_reducible apply finishOp_only (within rfl hl))
    | (with_reducible apply queueXfer_only (within rfl hl))
    | (with_reducible apply Only.ite)
    | (with_reducible apply Only.ite2)
    | split
    | dsimp only

theorem postWaiting_only {ps : List Part} (hl : Part.le [.opq, .chan] ps = true) {s0_ : State} {c : Nat} {s : State} (h : Only ps s0_ s) :
    Only ps s0_ (postWaiting c s) := by
  unfold postWaiting
  try dsimp only
  repeat' first
    | (with_reducible assumption)
    | (with_reducible apply postCq_only (within rfl hl))
    | (with_reducible apply updChan_only (within rfl hl))
    | (with_reducible apply Only.ite)
    | (with_reducible apply Only.ite2)
    | split
    | dsimp only

end Sys2Proof.Machine
end

