-- ==== Sys2Proof/Laws/OnlyMem.lean ====
section
/-! SUPPORT. Footprints of the operations of Machine/Mem.lean: the parts of the state each may change. -/
namespace Sys2Proof.Machine

theorem foundCe_only {ps : List Part} (hl : Part.le [.regs, .ceSecond, .log] ps = true) {s0_ : State} {id : Nat} {off : Nat} {s : State} (h : Only ps s0_ s) :
    Only ps s0_ (foundCe id off s) := by
  unfold foundCe
  try dsimp only
  repeat' first
    | (with_reducible assumption)
    | (with_reducible apply incFld_only (within rfl hl))
    | (with_reducible apply post_only (within rfl hl))
    | (with_reducible apply raiseSum_only (within rfl hl))
    | (with_reducible apply Only.ite)
    | (with_reducible apply Only.ite2)
    | (with_reducible apply only_set_ceSecond (within rfl hl))

theorem setWordErr_only {ps : List Part} (hl : Part.le [.ecc] ps = true) {s0_ : State} {id : Nat} {off : Nat} {e : WordErr} {s : State} (h : Only ps s0_ s) :
    Only ps s0_ (setWordErr id off e s) := by
  unfold setWordErr
  try dsimp only
  repeat' first
    | (with_reducible assumption)
    | (with_reducible apply only_set_ecc (within rfl hl))

theorem foundUe_only {ps : List Part} (hl : Part.le [.regs, .ecc, .log] ps = true) {s0_ : State} {id : Nat} {off : Nat} {scrub : Bool} {s : State} (h : Only ps s0_ s) :
    Only ps s0_ (foundUe id off scrub s) := by
  unfold foundUe
  try dsimp only
  repeat' first
    | (with_reducible assumption)
    | (with_reducible apply incFld_only (within rfl hl))
    | (with_reducible apply post_only (within rfl hl))
    | (with_reducible apply raiseSum_only (within rfl hl))
    | (with_reducible apply setReg_only (within rfl hl))
    | (with_reducible apply setWordErr_only (within rfl hl))
    | (with_reducible apply Only.ite)
    | (with_reducible apply Only.ite2)

theorem setByte_only {ps : List Part} (hl : Part.le [.mem] ps = true) {s0_ : State} {id : Nat} {off : Nat} {b : Byte} {s : State} (h : Only ps s0_ s) :
    Only ps s0_ (setByte id off b s) := by
  unfold setByte
  try dsimp only
  repeat' first
    | (with_reducible assumption)
    | (with_reducible apply only_set_mem (within rfl hl))

theorem setBytes_only {ps : List Part} (hl : Part.le [.mem] ps = true) {s0_ : State} {id off : Nat} {b : List Byte} {s : State} (h : Only ps s0_ s) :
    Only ps s0_ (setBytes id off b s) := by
  induction b generalizing off s with
  | nil => exact h
  | cons x b ih => exact ih (setByte_only (within rfl hl) h)

theorem writeBack_only {ps : List Part} (hl : Part.le [.mem, .ecc] ps = true) {s0_ : State} {id : Nat} {off : Nat} {s : State} (h : Only ps s0_ s) :
    Only ps s0_ (writeBack id off s) := by
  unfold writeBack
  try dsimp only
  repeat' first
    | (with_reducible assumption)
    | (with_reducible apply setBytes_only (within rfl hl))
    | (with_reducible apply setWordErr_only (within rfl hl))
    | (with_reducible apply Only.ite)
    | (with_reducible apply Only.ite2)

theorem decodeWord_only {ps : List Part} (hl : Part.le [.regs, .mem, .ecc, .ceSecond, .log] ps = true) {s0_ : State} {id : Nat} {off : Nat} {scrub : Bool} {s : State} (h : Only ps s0_ s) :
    Only ps s0_ (decodeWord id off scrub s) := by
  unfold decodeWord
  try dsimp only
  repeat' first
    | (with_reducible assumption)
    | (with_reducible apply foundCe_only (within rfl hl))
    | (with_reducible apply foundUe_only (within rfl hl))
    | (with_reducible apply writeBack_only (within rfl hl))
    | (with_reducible apply Only.ite)
    | (with_reducible apply Only.ite2)
    | split
    | dsimp only

theorem seen_only {ps : List Part} (hl : Part.le [.regs, .mem, .ecc, .ceSecond, .log] ps = true) {s0_ : State} {l : List (Nat × Nat)} {s : State} (h : Only ps s0_ s) :
    Only ps s0_ (seen l s) := by
  unfold seen
  try dsimp only
  repeat' first
    | (with_reducible assumption)
    | (with_reducible apply decodeWord_only (within rfl hl))
    | (with_reducible apply forEach_only)
    | (with_reducible intro _)
    | dsimp only

theorem seenRange_only {ps : List Part} (hl : Part.le [.regs, .mem, .ecc, .ceSecond, .log] ps = true) {s0_ : State} {id : Nat} {off : Nat} {n : Nat} {s : State} (h : Only ps s0_ s) :
    Only ps s0_ (seenRange id off n s) := by
  unfold seenRange
  try dsimp only
  repeat' first
    | (with_reducible assumption)
    | (with_reducible apply decodeWord_only (within rfl hl))
    | (with_reducible apply forEach_only)
    | (with_reducible intro _)
    | dsimp only

theorem wordsWritten_only {ps : List Part} (hl : Part.le [.ecc] ps = true) {s0_ : State} {id : Nat} {off : Nat} {n : Nat} {s : State} (h : Only ps s0_ s) :
    Only ps s0_ (wordsWritten id off n s) := by
  unfold wordsWritten
  try dsimp only
  repeat' first
    | (with_reducible assumption)
    | (with_reducible apply only_set_ecc (within rfl hl))

theorem clearMem_only {ps : List Part} (hl : Part.le [.mem] ps = true) {s0_ : State} {id : Nat} {off : Nat} {n : Nat} {s : State} (h : Only ps s0_ s) :
    Only ps s0_ (clearMem id off n s) := by
  unfold clearMem
  try dsimp only
  repeat' first
    | (with_reducible assumption)
    | (with_reducible apply only_set_mem (within rfl hl))

end Sys2Proof.Machine
end

