-- ==== Sys2Proof/Laws/OnlyCtx.lean ====
section
/-! SUPPORT. Footprints of the operations of Machine/Ctx.lean: the parts of the state each may change. -/
namespace Sys2Proof.Machine

theorem cmdErr_only {ps : List Part} (hl : Part.le [.regs] ps = true) {s0_ : State} {c : Nat} {s : State} (h : Only ps s0_ s) :
    Only ps s0_ (cmdErr c s) := by
  unfold cmdErr
  try dsimp only
  repeat' first
    | (with_reducible assumption)
    | (with_reducible apply setFld_only (within rfl hl))

theorem ownPans_only {ps : List Part} (hl : Part.le [.pan] ps = true) {s0_ : State} {c : Nat} {l : List Nat} {o : PanOwner} {s : State} (h : Only ps s0_ s) :
    Only ps s0_ (ownPans c l o s) := by
  unfold ownPans
  try dsimp only
  repeat' first
    | (with_reducible assumption)
    | (with_reducible apply setPan_only (within rfl hl))
    | (with_reducible apply forEach_only)
    | (with_reducible intro _)
    | dsimp only

theorem postEv_only {ps : List Part} (hl : Part.le [.chan] ps = true) {s0_ : State} {c : Nat} {e : EvEntry} {s : State} (h : Only ps s0_ s) :
    Only ps s0_ (postEv c e s) := by
  unfold postEv
  try dsimp only
  repeat' first
    | (with_reducible assumption)
    | (with_reducible apply updChan_only (within rfl hl))

theorem postMsg_only {ps : List Part} (hl : Part.le [.chan] ps = true) {s0_ : State} {p : Nat} {k : EvKind} {sp : Sop} {info : Nat} {pan : Nat} {noPan : Bool} {s : State} (h : Only ps s0_ s) :
    Only ps s0_ (postMsg p k sp info pan noPan s) := by
  unfold postMsg
  try dsimp only
  repeat' first
    | (with_reducible assumption)
    | (with_reducible apply postEv_only (within rfl hl))

theorem writeChain_only {ps : List Part} (hl : Part.le [.mem, .ecc] ps = true) {s0_ : State} {c : Nat} {sp : Sop} {len usec w1 w3 : Nat} {is : List Nat} {b : List Byte} {s : State} (h : Only ps s0_ s) :
    Only ps s0_ (writeChain c sp len usec w1 w3 is b s) := by
  induction is generalizing b s with
  | nil => exact h
  | cons i is ih => exact ih (setBytes_only (within rfl hl) (wordsWritten_only (within rfl hl) h))

theorem landChain_only {ps : List Part} (hl : Part.le [.mem, .ecc, .pan, .chan] ps = true) {s0_ : State} {p : Nat} {k : EvKind} {sp : Sop} {bytes : List Byte} {usec : Nat} {l : List Nat} {s : State} (h : Only ps s0_ s) :
    Only ps s0_ (landChain p k sp bytes usec l s) := by
  unfold landChain
  try dsimp only
  repeat' first
    | (with_reducible assumption)
    | (with_reducible apply ownPans_only (within rfl hl))
    | (with_reducible apply postMsg_only (within rfl hl))
    | (with_reducible apply writeChain_only (within rfl hl))
    | (with_reducible apply Only.ite)
    | (with_reducible apply Only.ite2)

theorem panPut_only {ps : List Part} (hl : Part.le [.regs, .pan] ps = true) {s0_ : State} {c : Nat} {i : Nat} {s : State} (h : Only ps s0_ s) :
    Only ps s0_ (panPut c i s) := by
  unfold panPut
  try dsimp only
  repeat' first
    | (with_reducible assumption)
    | (with_reducible apply cmdErr_only (within rfl hl))
    | (with_reducible apply setPan_only (within rfl hl))
    | (with_reducible apply Only.ite)
    | (with_reducible apply Only.ite2)

theorem updCtxTimer_only {ps : List Part} (hl : Part.le [.ctx] ps = true) {s0_ : State} {c : Nat} {n : Nat} {b : Bool} {f : CtxTimer → CtxTimer} {s : State} (h : Only ps s0_ s) :
    Only ps s0_ (updCtxTimer c n b f s) := by
  unfold updCtxTimer
  try dsimp only
  repeat' first
    | (with_reducible assumption)
    | (with_reducible apply updCtx_only (within rfl hl))
    | (with_reducible apply Only.ite)
    | (with_reducible apply Only.ite2)

theorem writeCtxTimer_only {ps : List Part} (hl : Part.le [.ctx] ps = true) {s0_ : State} {c : Nat} {n : Nat} {b : Bool} {v : Word} {s : State} (h : Only ps s0_ s) :
    Only ps s0_ (writeCtxTimer c n b v s) := by
  unfold writeCtxTimer
  try dsimp only
  repeat' first
    | (with_reducible assumption)
    | (with_reducible apply updCtxTimer_only (within rfl hl))
    | (with_reducible apply Only.ite)
    | (with_reducible apply Only.ite2)

theorem setWaiting_only {ps : List Part} (hl : Part.le [.regs] ps = true) {s0_ : State} {p : Nat} {b : Bool} {s : State} (h : Only ps s0_ s) :
    Only ps s0_ (setWaiting p b s) := by
  unfold setWaiting
  try dsimp only
  repeat' first
    | (with_reducible assumption)
    | (with_reducible apply setFlag_only (within rfl hl))

theorem bindCtx_only {ps : List Part} (hl : Part.le [.regs, .hub, .ctx, .chan] ps = true) {s0_ : State} {c : Nat} {n : Nat} {p : Nat} {alloc : Bool} {s : State} (h : Only ps s0_ s) :
    Only ps s0_ (bindCtx c n p alloc s) := by
  unfold bindCtx
  try dsimp only
  repeat' first
    | (with_reducible assumption)
    | (with_reducible apply postEv_only (within rfl hl))
    | (with_reducible apply setWaiting_only (within rfl hl))
    | (with_reducible apply updCtx_only (within rfl hl))
    | (with_reducible apply updHub_only (within rfl hl))

theorem serveWait_only {ps : List Part} (hl : Part.le [.regs, .hub, .ctx, .chan] ps = true) {s0_ : State} {c : Nat} {s : State} (h : Only ps s0_ s) :
    Only ps s0_ (serveWait c s) := by
  unfold serveWait
  try dsimp only
  repeat' first
    | (with_reducible assumption)
    | (with_reducible apply bindCtx_only (within rfl hl))
    | split
    | dsimp only

theorem releaseCtx_only {ps : List Part} (hl : Part.le [.regs, .hub, .ctx, .chan] ps = true) {s0_ : State} {c : Nat} {n : Nat} {gen : BitVec 8} {s : State} (h : Only ps s0_ s) :
    Only ps s0_ (releaseCtx c n gen s) := by
  unfold releaseCtx
  try dsimp only
  repeat' first
    | (with_reducible assumption)
    | (with_reducible apply cmdErr_only (within rfl hl))
    | (with_reducible apply serveWait_only (within rfl hl))
    | (with_reducible apply updCtx_only (within rfl hl))
    | (with_reducible apply updHub_only (within rfl hl))
    | (with_reducible apply Only.ite)
    | (with_reducible apply Only.ite2)

theorem requestCtx_only {ps : List Part} (hl : Part.le [.regs, .hub, .ctx, .chan] ps = true) {s0_ : State} {p : Nat} {alloc : Bool} {s : State} (h : Only ps s0_ s) :
    Only ps s0_ (requestCtx p alloc s) := by
  unfold requestCtx
  try dsimp only
  repeat' first
    | (with_reducible assumption)
    | (with_reducible apply bindCtx_only (within rfl hl))
    | (with_reducible apply setWaiting_only (within rfl hl))
    | (with_reducible apply updHub_only (within rfl hl))
    | split
    | dsimp only

theorem allocCtx_only {ps : List Part} (hl : Part.le [.regs, .xat, .hub, .ctx, .chan, .fresh] ps = true) {s0_ : State} {p : Nat} {s : State} (h : Only ps s0_ s) :
    Only ps s0_ (allocCtx p s) := by
  unfold allocCtx
  try dsimp only
  repeat' first
    | (with_reducible assumption)
    | (with_reducible apply cmdErr_only (within rfl hl))
    | (with_reducible apply cross_only (within rfl hl))
    | (with_reducible apply noteMerge_only (within rfl hl))
    | (with_reducible apply requestCtx_only (within rfl hl))
    | (with_reducible apply Only.ite)
    | (with_reducible apply Only.ite2)

theorem cancelCtx_only {ps : List Part} (hl : Part.le [.regs] ps = true) {s0_ : State} {p : Nat} {s : State} (h : Only ps s0_ s) :
    Only ps s0_ (cancelCtx p s) := by
  unfold cancelCtx
  try dsimp only
  repeat' first
    | (with_reducible assumption)
    | (with_reducible apply cmdErr_only (within rfl hl))
    | (with_reducible apply setWaiting_only (within rfl hl))
    | (with_reducible apply Only.ite)
    | (with_reducible apply Only.ite2)

theorem closeCtx_only {ps : List Part} (hl : Part.le [.regs, .ctx, .chan] ps = true) {s0_ : State} {p : Nat} {cause : Nat} {s : State} (h : Only ps s0_ s) :
    Only ps s0_ (closeCtx p cause s) := by
  unfold closeCtx
  try dsimp only
  repeat' first
    | (with_reducible assumption)
    | (with_reducible apply postEv_only (within rfl hl))
    | (with_reducible apply setWaiting_only (within rfl hl))
    | (with_reducible apply updCtx_only (within rfl hl))
    | (with_reducible apply Only.ite)
    | (with_reducible apply Only.ite2)

theorem evRead_only {ps : List Part} (hl : Part.le [.hub, .ctx, .pan] ps = true) {s0_ : State} {c : Nat} {e : EvEntry} {s : State} (h : Only ps s0_ s) :
    Only ps s0_ (evRead c e s) := by
  unfold evRead
  try dsimp only
  repeat' first
    | (with_reducible assumption)
    | (with_reducible apply ownPans_only (within rfl hl))
    | (with_reducible apply updCtx_only (within rfl hl))
    | (with_reducible apply updCtxTimer_only (within rfl hl))
    | (with_reducible apply updHub_only (within rfl hl))
    | (with_reducible apply Only.ite)
    | (with_reducible apply Only.ite2)
    | split
    | dsimp only

theorem readEvq_only {ps : List Part} (hl : Part.le [.hub, .ctx, .pan, .chan] ps = true) {s0_ : State} {c : Nat} {s : State} (h : Only ps s0_ s) :
    Only ps s0_ (readEvq c s).2 := by
  unfold readEvq
  try dsimp only
  repeat' first
    | (with_reducible assumption)
    | (with_reducible apply evRead_only (within rfl hl))
    | (with_reducible apply updChan_only (within rfl hl))
    | split
    | dsimp only

theorem expireCtxTimer_only {ps : List Part} (hl : Part.le [.ctx, .chan] ps = true) {s0_ : State} {c : Nat} {n : Nat} {b : Bool} {s : State} (h : Only ps s0_ s) :
    Only ps s0_ (expireCtxTimer c n b s) := by
  unfold expireCtxTimer
  try dsimp only
  repeat' first
    | (with_reducible assumption)
    | (with_reducible apply postEv_only (within rfl hl))
    | (with_reducible apply updCtxTimer_only (within rfl hl))
    | (with_reducible apply Only.ite)
    | (with_reducible apply Only.ite2)

end Sys2Proof.Machine
end

