-- ==== Sys2Proof/Laws/OnlyPhy.lean ====
section
/-! SUPPORT. Footprints of the operations of Machine/Phy.lean: the parts of the state each may change. -/
namespace Sys2Proof.Machine

theorem abandonRx_only {ps : List Part} (hl : Part.le [.mem, .ecc, .hub, .pan, .chan] ps = true) {s0_ : State} {p : Nat} {s : State} (h : Only ps s0_ s) :
    Only ps s0_ (abandonRx p s) := by
  unfold abandonRx
  try dsimp only
  repeat' first
    | (with_reducible assumption)
    | (with_reducible apply landChain_only (within rfl hl))
    | (with_reducible apply ownPans_only (within rfl hl))
    | (with_reducible apply updHub_only (within rfl hl))
    | split
    | dsimp only

theorem txResult_only {ps : List Part} (hl : Part.le [.phy, .chan] ps = true) {s0_ : State} {p : Nat} {k : EvKind} {sp : Sop} {pan : Nat} {s : State} (h : Only ps s0_ s) :
    Only ps s0_ (txResult p k sp pan s) := by
  unfold txResult
  try dsimp only
  repeat' first
    | (with_reducible assumption)
    | (with_reducible apply postMsg_only (within rfl hl))
    | (with_reducible apply updPhy_only (within rfl hl))
    | (with_reducible apply Only.ite)
    | (with_reducible apply Only.ite2)

theorem endChain_only {ps : List Part} (hl : Part.le [.phy, .chan] ps = true) {s0_ : State} {p : Nat} {k : EvKind} {i : Nat} {s : State} (h : Only ps s0_ s) :
    Only ps s0_ (endChain p k i s) := by
  unfold endChain
  try dsimp only
  repeat' first
    | (with_reducible assumption)
    | (with_reducible apply txResult_only (within rfl hl))

theorem putTx_only {ps : List Part} (hl : Part.le [.phy] ps = true) {s0_ : State} {p : Nat} {sp : Sop} {bytes : List Byte} {o : TxOrigin} {ams : Bool} {amsEnd : Bool} {s : State} (h : Only ps s0_ s) :
    Only ps s0_ (putTx p sp bytes o ams amsEnd s) := by
  unfold putTx
  try dsimp only
  repeat' first
    | (with_reducible assumption)
    | (with_reducible apply updPhy_only (within rfl hl))
    | (with_reducible apply Only.ite)
    | (with_reducible apply Only.ite2)

theorem seenChain_only {ps : List Part} (hl : Part.le [.regs, .mem, .ecc, .ceSecond, .log] ps = true) {s0_ : State} {c : Nat} {i : Nat} {s : State} (h : Only ps s0_ s) :
    Only ps s0_ (seenChain c i s) := by
  unfold seenChain
  try dsimp only
  repeat' first
    | (with_reducible assumption)
    | (with_reducible apply seenRange_only (within rfl hl))
    | (with_reducible apply forEach_only)
    | (with_reducible intro _)
    | dsimp only

theorem loadChain_only {ps : List Part} (hl : Part.le [.regs, .mem, .ecc, .phy, .hub, .pan, .chan, .ceSecond, .log] ps = true) {s0_ : State} {p : Nat} {i : Nat} {s0 : State} (h : Only ps s0_ s0) :
    Only ps s0_ (loadChain p i s0) := by
  unfold loadChain
  try dsimp only
  repeat' first
    | (with_reducible assumption)
    | (with_reducible apply abandonRx_only (within rfl hl))
    | (with_reducible apply endChain_only (within rfl hl))
    | (with_reducible apply putTx_only (within rfl hl))
    | (with_reducible apply seenChain_only (within rfl hl))
    | (with_reducible apply updHub_only (within rfl hl))
    | (with_reducible apply updPhy_only (within rfl hl))
    | (with_reducible apply Only.ite)
    | (with_reducible apply Only.ite2)

theorem fillTx_only {ps : List Part} (hl : Part.le [.regs, .mem, .ecc, .phy, .hub, .pan, .chan, .ceSecond, .log] ps = true) {s0_ : State} {p : Nat} {s : State} (h : Only ps s0_ s) :
    Only ps s0_ (fillTx p s) := by
  unfold fillTx
  try dsimp only
  repeat' first
    | (with_reducible assumption)
    | (with_reducible apply loadChain_only (within rfl hl))
    | (with_reducible apply putTx_only (within rfl hl))
    | (with_reducible apply updHub_only (within rfl hl))
    | (with_reducible apply Only.ite)
    | (with_reducible apply Only.ite2)
    | split
    | dsimp only

theorem ctxTx_only {ps : List Part} (hl : Part.le [.regs, .mem, .ecc, .phy, .hub, .pan, .chan, .ceSecond, .log] ps = true) {s0_ : State} {c : Nat} {i : Nat} {s : State} (h : Only ps s0_ s) :
    Only ps s0_ (ctxTx c i s) := by
  unfold ctxTx
  try dsimp only
  repeat' first
    | (with_reducible assumption)
    | (with_reducible apply cmdErr_only (within rfl hl))
    | (with_reducible apply fillTx_only (within rfl hl))
    | (with_reducible apply incFld_only (within rfl hl))
    | (with_reducible apply ownPans_only (within rfl hl))
    | (with_reducible apply postMsg_only (within rfl hl))
    | (with_reducible apply setFld_only (within rfl hl))
    | (with_reducible apply updChan_only (within rfl hl))
    | (with_reducible apply updHub_only (within rfl hl))
    | (with_reducible apply Only.ite)
    | (with_reducible apply Only.ite2)

theorem answer_only {ps : List Part} (hl : Part.le [.regs, .mem, .ecc, .phy, .hub, .pan, .chan, .ceSecond, .log] ps = true) {s0_ : State} {p : Nat} {sp : Sop} {bytes : List Byte} {s : State} (h : Only ps s0_ s) :
    Only ps s0_ (answer p sp bytes s) := by
  unfold answer
  try dsimp only
  repeat' first
    | (with_reducible assumption)
    | (with_reducible apply fillTx_only (within rfl hl))
    | (with_reducible apply updHub_only (within rfl hl))

theorem clearRx_only {ps : List Part} (hl : Part.le [.phy] ps = true) {s0_ : State} {p : Nat} {s : State} (h : Only ps s0_ s) :
    Only ps s0_ (clearRx p s) := by
  unfold clearRx
  try dsimp only
  repeat' first
    | (with_reducible assumption)
    | (with_reducible apply updPhy_only (within rfl hl))

theorem dropTx_only {ps : List Part} (hl : Part.le [.phy, .hub, .chan] ps = true) {s0_ : State} {p : Nat} {s : State} (h : Only ps s0_ s) :
    Only ps s0_ (dropTx p s) := by
  unfold dropTx
  try dsimp only
  repeat' first
    | (with_reducible assumption)
    | (with_reducible apply endChain_only (within rfl hl))
    | (with_reducible apply updHub_only (within rfl hl))
    | (with_reducible apply updPhy_only (within rfl hl))
    | split
    | dsimp only

theorem writeKa_only {ps : List Part} (hl : Part.le [.regs, .dieRegs, .phy] ps = true) {s0_ : State} {p : Nat} {v : Word} {s : State} (h : Only ps s0_ s) :
    Only ps s0_ (writeKa p v s) := by
  unfold writeKa
  try dsimp only
  repeat' first
    | (with_reducible assumption)
    | (with_reducible apply updPhy_only (within rfl hl))
    | (with_reducible apply writePortReg_only (within rfl hl))
    | (with_reducible apply Only.ite)
    | (with_reducible apply Only.ite2)

theorem discardChains_only {ps : List Part} (hl : Part.le [.phy, .chan] ps = true) {s0_ : State} {p : Nat} {l : List Nat} {s : State} (h : Only ps s0_ s) :
    Only ps s0_ (discardChains p l s) := by
  unfold discardChains
  try dsimp only
  repeat' first
    | (with_reducible assumption)
    | (with_reducible apply endChain_only (within rfl hl))
    | (with_reducible apply forEach_only)
    | (with_reducible intro _)
    | dsimp only

theorem cableResetSent_only {ps : List Part} (hl : Part.le [.regs, .mem, .ecc, .phy, .hub, .pan, .chan, .ceSecond, .log] ps = true) {s0_ : State} {p : Nat} {s : State} (h : Only ps s0_ s) :
    Only ps s0_ (cableResetSent p s) := by
  unfold cableResetSent
  try dsimp only
  repeat' first
    | (with_reducible assumption)
    | (with_reducible apply discardChains_only (within rfl hl))
    | (with_reducible apply dropTx_only (within rfl hl))
    | (with_reducible apply fillTx_only (within rfl hl))
    | (with_reducible apply postMsg_only (within rfl hl))
    | (with_reducible apply updHub_only (within rfl hl))
    | (with_reducible apply updPhy_only (within rfl hl))
    | (with_reducible apply Only.ite)
    | (with_reducible apply Only.ite2)
    | split
    | dsimp only

theorem cableReset_only {ps : List Part} (hl : Part.le [.regs, .mem, .ecc, .phy, .hub, .pan, .chan, .ceSecond, .log] ps = true) {s0_ : State} {p : Nat} {s : State} (h : Only ps s0_ s) :
    Only ps s0_ (cableReset p s) := by
  unfold cableReset
  try dsimp only
  repeat' first
    | (with_reducible assumption)
    | (with_reducible apply cableResetSent_only (within rfl hl))
    | (with_reducible apply cmdErr_only (within rfl hl))
    | (with_reducible apply postMsg_only (within rfl hl))
    | (with_reducible apply updHub_only (within rfl hl))
    | (with_reducible apply Only.ite)
    | (with_reducible apply Only.ite2)

theorem cmdHardReset_only {ps : List Part} (hl : Part.le [.regs, .xat, .phy, .fresh] ps = true) {s0_ : State} {p : Nat} {s : State} (h : Only ps s0_ s) :
    Only ps s0_ (cmdHardReset p s) := by
  unfold cmdHardReset
  try dsimp only
  repeat' first
    | (with_reducible assumption)
    | (with_reducible apply cmdErr_only (within rfl hl))
    | (with_reducible apply updPhy_only (within rfl hl))
    | (with_reducible apply xover_only (within rfl hl))
    | (with_reducible apply Only.ite)
    | (with_reducible apply Only.ite2)

theorem opResult_only {ps : List Part} (hl : Part.le [.opq, .chan] ps = true) {s0_ : State} {c : Nat} {i : Nat} {r : OpResult} {s : State} (h : Only ps s0_ s) :
    Only ps s0_ (opResult c i r s) := by
  unfold opResult
  try dsimp only
  repeat' first
    | (with_reducible assumption)
    | (with_reducible apply finishOp_only (within rfl hl))
    | (with_reducible apply stepToOp_only (within rfl hl))
    | (with_reducible apply Only.ite)
    | (with_reducible apply Only.ite2)

theorem opEnds_only {ps : List Part} (hl : Part.le [.port, .mir, .hub, .opq, .chan, .fresh] ps = true) {s0_ : State} {p : Nat} {e : Option Nat} {r : OpResult} {s : State} (h : Only ps s0_ s) :
    Only ps s0_ (opEnds p e r s) := by
  unfold opEnds
  try dsimp only
  repeat' first
    | (with_reducible assumption)
    | (with_reducible apply opResult_only (within rfl hl))
    | (with_reducible apply serveMarks_only (within rfl hl))
    | (with_reducible apply updPort_only (within rfl hl))
    | (with_reducible apply Only.ite)
    | (with_reducible apply Only.ite2)
    | split
    | dsimp only

theorem openVconn_only {ps : List Part} (hl : Part.le [.port, .mir, .hub, .opq, .chan, .fresh] ps = true) {s0_ : State} {p : Nat} {s : State} (h : Only ps s0_ s) :
    Only ps s0_ (openVconn p s) := by
  unfold openVconn
  try dsimp only
  repeat' first
    | (with_reducible assumption)
    | (with_reducible apply opEnds_only (within rfl hl))
    | (with_reducible apply updPort_only (within rfl hl))

theorem clearHeavy_only {ps : List Part} (hl : Part.le [.port, .mir, .hub] ps = true) {s0_ : State} {p : Nat} {s : State} (h : Only ps s0_ s) :
    Only ps s0_ (clearHeavy p s) := by
  unfold clearHeavy
  try dsimp only
  repeat' first
    | (with_reducible assumption)
    | (with_reducible apply updHub_only (within rfl hl))
    | (with_reducible apply updPort_only (within rfl hl))
    | (with_reducible apply Only.ite)
    | (with_reducible apply Only.ite2)

theorem dieProto_only {ps : List Part} (hl : Part.le [.phy] ps = true) {s0_ : State} {p : Nat} {keepRev : Bool} {s : State} (h : Only ps s0_ s) :
    Only ps s0_ (dieProto p keepRev s) := by
  unfold dieProto
  try dsimp only
  repeat' first
    | (with_reducible assumption)
    | (with_reducible apply updPhy_only (within rfl hl))
    | (with_reducible apply Only.ite)
    | (with_reducible apply Only.ite2)

theorem hubDiscard_only {ps : List Part} (hl : Part.le [.mem, .ecc, .phy, .hub, .pan, .chan] ps = true) {s0_ : State} {p : Nat} {s : State} (h : Only ps s0_ s) :
    Only ps s0_ (hubDiscard p s) := by
  unfold hubDiscard
  try dsimp only
  repeat' first
    | (with_reducible assumption)
    | (with_reducible apply abandonRx_only (within rfl hl))
    | (with_reducible apply discardChains_only (within rfl hl))
    | (with_reducible apply updChan_only (within rfl hl))
    | (with_reducible apply updHub_only (within rfl hl))
    | split
    | dsimp only

theorem protoReset_only {ps : List Part} (hl : Part.le [.mem, .ecc, .phy, .hub, .pan, .chan] ps = true) {s0_ : State} {p : Nat} {keepRev : Bool} {s : State} (h : Only ps s0_ s) :
    Only ps s0_ (protoReset p keepRev s) := by
  unfold protoReset
  try dsimp only
  repeat' first
    | (with_reducible assumption)
    | (with_reducible apply dieProto_only (within rfl hl))
    | (with_reducible apply dropTx_only (within rfl hl))
    | (with_reducible apply hubDiscard_only (within rfl hl))
    | (with_reducible apply Only.ite)
    | (with_reducible apply Only.ite2)

theorem setDieReg_only {ps : List Part} (hl : Part.le [.dieRegs] ps = true) {s0_ : State} {a : Nat} {v : Word} {s : State} (h : Only ps s0_ s) :
    Only ps s0_ (setDieReg a v s) := by
  unfold setDieReg
  try dsimp only
  repeat' first
    | (with_reducible assumption)
    | (with_reducible apply only_set_dieRegs (within rfl hl))

theorem stopKa_only {ps : List Part} (hl : Part.le [.regs, .dieRegs, .phy] ps = true) {s0_ : State} {p : Nat} {s : State} (h : Only ps s0_ s) :
    Only ps s0_ (stopKa p s) := by
  unfold stopKa
  try dsimp only
  repeat' first
    | (with_reducible assumption)
    | (with_reducible apply setDieReg_only (within rfl hl))
    | (with_reducible apply setFld_only (within rfl hl))
    | (with_reducible apply updPhy_only (within rfl hl))
    | (with_reducible apply Only.ite)
    | (with_reducible apply Only.ite2)

theorem pdEvent_only {ps : List Part} (hl : Part.le [.regs, .phy] ps = true) {s0_ : State} {p : Nat} {f : Fld} {s : State} (h : Only ps s0_ s) :
    Only ps s0_ (pdEvent p f s) := by
  unfold pdEvent
  try dsimp only
  repeat' first
    | (with_reducible assumption)
    | (with_reducible apply raisePd_only (within rfl hl))
    | (with_reducible apply updPhy_only (within rfl hl))
    | (with_reducible apply Only.ite)
    | (with_reducible apply Only.ite2)

theorem bistRx_only {ps : List Part} (hl : Part.le [.regs, .phy] ps = true) {s0_ : State} {p : Nat} {l : List Byte} {s : State} (h : Only ps s0_ s) :
    Only ps s0_ (bistRx p l s) := by
  unfold bistRx
  try dsimp only
  repeat' first
    | (with_reducible assumption)
    | (with_reducible apply pdEvent_only (within rfl hl))
    | (with_reducible apply updPhy_only (within rfl hl))
    | (with_reducible apply Only.ite)
    | (with_reducible apply Only.ite2)
    | split
    | dsimp only

theorem kaRestart_only {ps : List Part} (hl : Part.le [.phy] ps = true) {s0_ : State} {p : Nat} {l : List Byte} {s : State} (h : Only ps s0_ s) :
    Only ps s0_ (kaRestart p l s) := by
  unfold kaRestart
  try dsimp only
  repeat' first
    | (with_reducible assumption)
    | (with_reducible apply updPhy_only (within rfl hl))
    | (with_reducible apply Only.ite)
    | (with_reducible apply Only.ite2)

theorem softResetRx_only {ps : List Part} (hl : Part.le [.regs, .mem, .ecc, .phy, .hub, .pan, .chan] ps = true) {s0_ : State} {p : Nat} {s : State} (h : Only ps s0_ s) :
    Only ps s0_ (softResetRx p s) := by
  unfold softResetRx
  try dsimp only
  repeat' first
    | (with_reducible assumption)
    | (with_reducible apply dropTx_only (within rfl hl))
    | (with_reducible apply hubDiscard_only (within rfl hl))
    | (with_reducible apply pdEvent_only (within rfl hl))
    | (with_reducible apply updPhy_only (within rfl hl))
    | (with_reducible apply Only.ite)
    | (with_reducible apply Only.ite2)

theorem acceptMsg_only {ps : List Part} (hl : Part.le [.regs, .mem, .ecc, .phy, .hub, .pan, .chan, .ceSecond, .log] ps = true) {s0_ : State} {p : Nat} {sp : Sop} {l : List Byte} {s : State} (h : Only ps s0_ s) :
    Only ps s0_ (acceptMsg p sp l s) := by
  unfold acceptMsg
  try dsimp only
  repeat' first
    | (with_reducible assumption)
    | (with_reducible apply answer_only (within rfl hl))
    | (with_reducible apply bistRx_only (within rfl hl))
    | (with_reducible apply kaRestart_only (within rfl hl))
    | (with_reducible apply softResetRx_only (within rfl hl))
    | (with_reducible apply updPhy_only (within rfl hl))
    | (with_reducible apply Only.ite)
    | (with_reducible apply Only.ite2)

theorem fwAck_only {ps : List Part} (hl : Part.le [.fw] ps = true) {s0_ : State} {p : Nat} {m : List Byte} {s : State} (h : Only ps s0_ s) :
    Only ps s0_ (fwAck p m s) := by
  unfold fwAck
  try dsimp only
  repeat' first
    | (with_reducible assumption)
    | (with_reducible apply updFw_only (within rfl hl))
    | (with_reducible apply Only.ite)
    | (with_reducible apply Only.ite2)

theorem stampChain_only {ps : List Part} (hl : Part.le [.mem, .fw] ps = true) {s0_ : State} {p : Nat} {i : Nat} {usec : BitVec 32} {s : State} (h : Only ps s0_ s) :
    Only ps s0_ (stampChain p i usec s) := by
  unfold stampChain
  try dsimp only
  repeat' first
    | (with_reducible assumption)
    | (with_reducible apply fwAck_only (within rfl hl))
    | (with_reducible apply setBytes_only (within rfl hl))

theorem chainDone_only {ps : List Part} (hl : Part.le [.mem, .phy, .fw, .chan] ps = true) {s0_ : State} {p : Nat} {i : Nat} {sp : Sop} {s : State} (h : Only ps s0_ s) :
    Only ps s0_ (chainDone p i sp s) := by
  unfold chainDone
  try dsimp only
  repeat' first
    | (with_reducible assumption)
    | (with_reducible apply stampChain_only (within rfl hl))
    | (with_reducible apply txResult_only (within rfl hl))
    | (with_reducible apply Only.ite)
    | (with_reducible apply Only.ite2)

theorem chunkReqRx_only {ps : List Part} (hl : Part.le [.regs, .mem, .ecc, .phy, .hub, .pan, .chan, .ceSecond, .log] ps = true) {s0_ : State} {p : Nat} {m : RxBuf} {s : State} (h : Only ps s0_ s) :
    Only ps s0_ (chunkReqRx p m s) := by
  unfold chunkReqRx
  try dsimp only
  repeat' first
    | (with_reducible assumption)
    | (with_reducible apply abandonRx_only (within rfl hl))
    | (with_reducible apply clearRx_only (within rfl hl))
    | (with_reducible apply endChain_only (within rfl hl))
    | (with_reducible apply fillTx_only (within rfl hl))
    | (with_reducible apply putTx_only (within rfl hl))
    | (with_reducible apply seenChain_only (within rfl hl))
    | (with_reducible apply updHub_only (within rfl hl))
    | (with_reducible apply Only.ite)
    | (with_reducible apply Only.ite2)
    | split
    | dsimp only

theorem chunkReqTimeout_only {ps : List Part} (hl : Part.le [.regs, .mem, .ecc, .phy, .hub, .pan, .chan, .ceSecond, .log] ps = true) {s0_ : State} {p : Nat} {s : State} (h : Only ps s0_ s) :
    Only ps s0_ (chunkReqTimeout p s) := by
  unfold chunkReqTimeout
  try dsimp only
  repeat' first
    | (with_reducible assumption)
    | (with_reducible apply endChain_only (within rfl hl))
    | (with_reducible apply fillTx_only (within rfl hl))
    | (with_reducible apply updHub_only (within rfl hl))
    | (with_reducible apply Only.ite)
    | (with_reducible apply Only.ite2)
    | split
    | dsimp only

theorem takePans_only {ps : List Part} (hl : Part.le [.pan, .fresh] ps = true) {s0_ : State} {c n : Nat} {s : State} (h : Only ps s0_ s) :
    Only ps s0_ (takePans c n s).2 := by
  induction n generalizing s with
  | zero => exact h
  | succ n ih =>
    rw [takePans]
    split
    · exact ih (setPan_only (within rfl hl) (pick_only (within rfl hl) h))
    · exact h

theorem chunkReqTx_only {ps : List Part} (hl : Part.le [.regs, .mem, .ecc, .phy, .hub, .pan, .chan, .ceSecond, .log, .fresh] ps = true) {s0_ : State} {p : Nat} {s : State} (h : Only ps s0_ s) :
    Only ps s0_ (chunkReqTx p s) := by
  unfold chunkReqTx
  try dsimp only
  repeat' first
    | (with_reducible assumption)
    | (with_reducible apply answer_only (within rfl hl))
    | (with_reducible apply takePans_only (within rfl hl))
    | (with_reducible apply updHub_only (within rfl hl))
    | (with_reducible apply Only.ite)
    | (with_reducible apply Only.ite2)
    | split
    | dsimp only

theorem firstChunk_only {ps : List Part} (hl : Part.le [.mem, .ecc, .hub, .pan, .chan] ps = true) {s0_ : State} {p : Nat} {m : RxBuf} {i : Nat} {s : State} (h : Only ps s0_ s) :
    Only ps s0_ (firstChunk p m i s) := by
  unfold firstChunk
  try dsimp only
  repeat' first
    | (with_reducible assumption)
    | (with_reducible apply landChain_only (within rfl hl))
    | (with_reducible apply updHub_only (within rfl hl))
    | (with_reducible apply Only.ite)
    | (with_reducible apply Only.ite2)

theorem deliverMsg_only {ps : List Part} (hl : Part.le [.mem, .ecc, .phy, .hub, .pan, .chan, .fresh] ps = true) {s0_ : State} {p : Nat} {m : RxBuf} {s : State} (h : Only ps s0_ s) :
    Only ps s0_ (deliverMsg p m s) := by
  have ht : Only ps s0_ (takePans (p / 128) 1 s).2 := takePans_only (within rfl hl) h
  unfold deliverMsg
  split
  · next i is t e =>
    rw [e] at ht
    exact Only.ite (firstChunk_only (within rfl hl) (clearRx_only (within rfl hl) ht))
      (landChain_only (within rfl hl) (clearRx_only (within rfl hl) ht))
  · next t e =>
    rw [e] at ht
    exact ht

theorem goodCrc_only {ps : List Part} (hl : Part.le [.regs, .mem, .ecc, .phy, .hub, .fw, .pan, .chan, .ceSecond, .log] ps = true) {s0_ : State} {p : Nat} {sp : Sop} {id : Nat} {s : State} (h : Only ps s0_ s) :
    Only ps s0_ (goodCrc p sp id s) := by
  unfold goodCrc
  try dsimp only
  repeat' first
    | (with_reducible assumption)
    | (with_reducible apply chainDone_only (within rfl hl))
    | (with_reducible apply fillTx_only (within rfl hl))
    | (with_reducible apply updHub_only (within rfl hl))
    | (with_reducible apply updPhy_only (within rfl hl))
    | (with_reducible apply Only.ite)
    | (with_reducible apply Only.ite2)
    | split
    | dsimp only

theorem hardResetStart_only {ps : List Part} (hl : Part.le [.regs, .dieRegs, .mem, .ecc, .port, .mir, .phy, .hub, .pan, .opq, .chan, .fresh] ps = true) {s0_ : State} {p : Nat} {s : State} (h : Only ps s0_ s) :
    Only ps s0_ (hardResetStart p s) := by
  unfold hardResetStart
  try dsimp only
  repeat' first
    | (with_reducible assumption)
    | (with_reducible apply abortOps_only (within rfl hl))
    | (with_reducible apply clearHeavy_only (within rfl hl))
    | (with_reducible apply openVconn_only (within rfl hl))
    | (with_reducible apply protoReset_only (within rfl hl))
    | (with_reducible apply serveMarks_only (within rfl hl))
    | (with_reducible apply stopKa_only (within rfl hl))
    | (with_reducible apply updHub_only (within rfl hl))
    | (with_reducible apply updPhy_only (within rfl hl))
    | (with_reducible apply Only.ite)
    | (with_reducible apply Only.ite2)

theorem hardResetT0_only {ps : List Part} (hl : Part.le [.hub] ps = true) {s0_ : State} {p : Nat} {s : State} (h : Only ps s0_ s) :
    Only ps s0_ (hardResetT0 p s) := by
  unfold hardResetT0
  try dsimp only
  repeat' first
    | (with_reducible assumption)
    | (with_reducible apply updHub_only (within rfl hl))
    | (with_reducible apply Only.ite)
    | (with_reducible apply Only.ite2)

theorem hardResetRx_only {ps : List Part} (hl : Part.le [.regs, .dieRegs, .mem, .ecc, .xat, .port, .mir, .phy, .hub, .pan, .opq, .chan, .fresh] ps = true) {s0_ : State} {p : Nat} {s : State} (h : Only ps s0_ s) :
    Only ps s0_ (hardResetRx p s) := by
  unfold hardResetRx
  try dsimp only
  repeat' first
    | (with_reducible assumption)
    | (with_reducible apply hardResetStart_only (within rfl hl))
    | (with_reducible apply hardResetT0_only (within rfl hl))
    | (with_reducible apply pdEvent_only (within rfl hl))
    | (with_reducible apply updPhy_only (within rfl hl))
    | (with_reducible apply xover_only (within rfl hl))
    | (with_reducible apply Only.ite)
    | (with_reducible apply Only.ite2)

theorem hrDeemed_only {ps : List Part} (hl : Part.le [.regs, .dieRegs, .mem, .ecc, .port, .mir, .phy, .hub, .pan, .opq, .chan, .fresh] ps = true) {s0_ : State} {p : Nat} {s : State} (h : Only ps s0_ s) :
    Only ps s0_ (hrDeemed p s) := by
  unfold hrDeemed
  try dsimp only
  repeat' first
    | (with_reducible assumption)
    | (with_reducible apply hardResetStart_only (within rfl hl))
    | (with_reducible apply hardResetT0_only (within rfl hl))
    | (with_reducible apply pdEvent_only (within rfl hl))
    | (with_reducible apply Only.ite)
    | (with_reducible apply Only.ite2)

theorem hrOffDue_only {ps : List Part} (hl : Part.le [.hub, .opq, .chan, .fresh] ps = true) {s0_ : State} {p : Nat} {s : State} (h : Only ps s0_ s) :
    Only ps s0_ (hrOffDue p s) := by
  unfold hrOffDue
  try dsimp only
  repeat' first
    | (with_reducible assumption)
    | (with_reducible apply createHrOff_only (within rfl hl))
    | (with_reducible apply updHub_only (within rfl hl))
    | (with_reducible apply Only.ite)
    | (with_reducible apply Only.ite2)

theorem hrSent_only {ps : List Part} (hl : Part.le [.regs, .phy, .hub] ps = true) {s0_ : State} {p : Nat} {s : State} (h : Only ps s0_ s) :
    Only ps s0_ (hrSent p s) := by
  unfold hrSent
  try dsimp only
  repeat' first
    | (with_reducible assumption)
    | (with_reducible apply hardResetT0_only (within rfl hl))
    | (with_reducible apply pdEvent_only (within rfl hl))
    | (with_reducible apply updPhy_only (within rfl hl))
    | (with_reducible apply Only.ite)
    | (with_reducible apply Only.ite2)

theorem hrSigStart_only {ps : List Part} (hl : Part.le [.regs, .dieRegs, .mem, .ecc, .port, .mir, .phy, .hub, .pan, .opq, .chan, .fresh] ps = true) {s0_ : State} {p : Nat} {s : State} (h : Only ps s0_ s) :
    Only ps s0_ (hrSigStart p s) := by
  unfold hrSigStart
  try dsimp only
  repeat' first
    | (with_reducible assumption)
    | (with_reducible apply hardResetStart_only (within rfl hl))
    | (with_reducible apply updPhy_only (within rfl hl))
    | (with_reducible apply Only.ite)
    | (with_reducible apply Only.ite2)

theorem hubAnswer_only {ps : List Part} (hl : Part.le [.regs, .mem, .ecc, .phy, .hub, .pan, .chan, .ceSecond, .log] ps = true) {s0_ : State} {p : Nat} {m : RxBuf} {s : State} (h : Only ps s0_ s) :
    Only ps s0_ (hubAnswer p m s) := by
  unfold hubAnswer
  try dsimp only
  repeat' first
    | (with_reducible assumption)
    | (with_reducible apply abandonRx_only (within rfl hl))
    | (with_reducible apply answer_only (within rfl hl))
    | (with_reducible apply clearRx_only (within rfl hl))
    | (with_reducible apply raisePd_only (within rfl hl))
    | (with_reducible apply Only.ite)
    | (with_reducible apply Only.ite2)
    | split
    | dsimp only

theorem joinChunk_only {ps : List Part} (hl : Part.le [.mem, .ecc, .hub, .pan, .chan] ps = true) {s0_ : State} {p : Nat} {a : ChunkRx} {m : RxBuf} {s : State} (h : Only ps s0_ s) :
    Only ps s0_ (joinChunk p a m s) := by
  unfold joinChunk
  try dsimp only
  repeat' first
    | (with_reducible assumption)
    | (with_reducible apply landChain_only (within rfl hl))
    | (with_reducible apply updHub_only (within rfl hl))
    | (with_reducible apply Only.ite)
    | (with_reducible apply Only.ite2)

theorem kaExpire_only {ps : List Part} (hl : Part.le [.regs, .phy] ps = true) {s0_ : State} {p : Nat} {s : State} (h : Only ps s0_ s) :
    Only ps s0_ (kaExpire p s) := by
  unfold kaExpire
  try dsimp only
  repeat' first
    | (with_reducible assumption)
    | (with_reducible apply pdEvent_only (within rfl hl))
    | (with_reducible apply updPhy_only (within rfl hl))
    | (with_reducible apply Only.ite)
    | (with_reducible apply Only.ite2)

theorem txFailed_only {ps : List Part} (hl : Part.le [.regs, .phy, .chan] ps = true) {s0_ : State} {p : Nat} {i : Nat} {s : State} (h : Only ps s0_ s) :
    Only ps s0_ (txFailed p i s) := by
  unfold txFailed
  try dsimp only
  repeat' first
    | (with_reducible assumption)
    | (with_reducible apply endChain_only (within rfl hl))
    | (with_reducible apply incFld_only (within rfl hl))
    | (with_reducible apply Only.ite)
    | (with_reducible apply Only.ite2)

theorem paceRefill_only {ps : List Part} (hl : Part.le [.regs, .mem, .ecc, .phy, .hub, .pan, .chan, .ceSecond, .log] ps = true) {s0_ : State} {c : Nat} {s : State} (h : Only ps s0_ s) :
    Only ps s0_ (paceRefill c s) := by
  unfold paceRefill
  try dsimp only
  repeat' first
    | (with_reducible assumption)
    | (with_reducible apply fillTx_only (within rfl hl))
    | (with_reducible apply setFld_only (within rfl hl))
    | (with_reducible apply updChan_only (within rfl hl))
    | (with_reducible apply updHub_only (within rfl hl))
    | (with_reducible apply forEach_only)
    | (with_reducible intro _)
    | dsimp only

theorem rxBusy_only {ps : List Part} (hl : Part.le [.regs, .phy] ps = true) {s0_ : State} {p : Nat} {s : State} (h : Only ps s0_ s) :
    Only ps s0_ (rxBusy p s) := by
  unfold rxBusy
  try dsimp only
  repeat' first
    | (with_reducible assumption)
    | (with_reducible apply incFld_only (within rfl hl))
    | (with_reducible apply pdEvent_only (within rfl hl))
    | (with_reducible apply updPhy_only (within rfl hl))
    | (with_reducible apply Only.ite)
    | (with_reducible apply Only.ite2)

theorem pdRx_only {ps : List Part} (hl : Part.le [.regs, .mem, .ecc, .phy, .hub, .pan, .chan, .ceSecond, .log] ps = true) {s0_ : State} {p : Nat} {sp : Sop} {crcOk : Bool} {l : List Byte} {s : State} (h : Only ps s0_ s) :
    Only ps s0_ (pdRx p sp crcOk l s) := by
  unfold pdRx
  try dsimp only
  repeat' first
    | (with_reducible assumption)
    | (with_reducible apply acceptMsg_only (within rfl hl))
    | (with_reducible apply dropTx_only (within rfl hl))
    | (with_reducible apply fillTx_only (within rfl hl))
    | (with_reducible apply rxBusy_only (within rfl hl))
    | (with_reducible apply updPhy_only (within rfl hl))
    | (with_reducible apply Only.ite)
    | (with_reducible apply Only.ite2)
    | split
    | dsimp only

theorem rxToPan_only {ps : List Part} (hl : Part.le [.regs, .mem, .ecc, .phy, .hub, .pan, .chan, .ceSecond, .log, .fresh] ps = true) {s0_ : State} {p : Nat} {m : RxBuf} {s : State} (h : Only ps s0_ s) :
    Only ps s0_ (rxToPan p m s) := by
  unfold rxToPan
  try dsimp only
  repeat' first
    | (with_reducible assumption)
    | (with_reducible apply abandonRx_only (within rfl hl))
    | (with_reducible apply answer_only (within rfl hl))
    | (with_reducible apply clearRx_only (within rfl hl))
    | (with_reducible apply deliverMsg_only (within rfl hl))
    | (with_reducible apply joinChunk_only (within rfl hl))
    | (with_reducible apply raisePd_only (within rfl hl))
    | (with_reducible apply Only.ite)
    | (with_reducible apply Only.ite2)
    | split
    | dsimp only

theorem sinkTxExpire_only {ps : List Part} (hl : Part.le [.phy] ps = true) {s0_ : State} {p : Nat} {s : State} (h : Only ps s0_ s) :
    Only ps s0_ (sinkTxExpire p s) := by
  unfold sinkTxExpire
  try dsimp only
  repeat' first
    | (with_reducible assumption)
    | (with_reducible apply updPhy_only (within rfl hl))
    | (with_reducible apply Only.ite)
    | (with_reducible apply Only.ite2)

theorem txRetry_only {ps : List Part} (hl : Part.le [.regs, .mem, .ecc, .phy, .hub, .pan, .chan, .ceSecond, .log] ps = true) {s0_ : State} {p : Nat} {s : State} (h : Only ps s0_ s) :
    Only ps s0_ (txRetry p s) := by
  unfold txRetry
  try dsimp only
  repeat' first
    | (with_reducible assumption)
    | (with_reducible apply fillTx_only (within rfl hl))
    | (with_reducible apply txFailed_only (within rfl hl))
    | (with_reducible apply updHub_only (within rfl hl))
    | (with_reducible apply updPhy_only (within rfl hl))
    | (with_reducible apply Only.ite)
    | (with_reducible apply Only.ite2)
    | split
    | dsimp only

theorem txStart_only {ps : List Part} (hl : Part.le [.phy] ps = true) {s0_ : State} {p : Nat} {s : State} (h : Only ps s0_ s) :
    Only ps s0_ (txStart p s) := by
  unfold txStart
  try dsimp only
  repeat' first
    | (with_reducible assumption)
    | (with_reducible apply updPhy_only (within rfl hl))
    | (with_reducible apply Only.ite)
    | (with_reducible apply Only.ite2)
    | split
    | dsimp only

end Sys2Proof.Machine
end

