-- ==== Sys2Proof/Laws/OnlyPortFront.lean ====
section
/-! SUPPORT. Footprints of the operations of Machine/PortFront.lean: the parts of the state each may change. -/
namespace Sys2Proof.Machine

theorem pgFall_only {ps : List Part} (hl : Part.le [.regs, .port, .mir] ps = true) {s0_ : State} {p : Nat} {s : State} (h : Only ps s0_ s) :
    Only ps s0_ (pgFall p s) := by
  unfold pgFall
  try dsimp only
  repeat' first
    | (with_reducible assumption)
    | (with_reducible apply portEvt_only (within rfl hl))
    | (with_reducible apply updPort_only (within rfl hl))
    | (with_reducible apply Only.ite)
    | (with_reducible apply Only.ite2)

theorem hubGone_only {ps : List Part} (hl : Part.le [.regs, .hub, .ctx, .opq, .chan, .fresh] ps = true) {s0_ : State} {p : Nat} {cause : Nat} {s : State} (h : Only ps s0_ s) :
    Only ps s0_ (hubGone p cause s) := by
  unfold hubGone
  try dsimp only
  repeat' first
    | (with_reducible assumption)
    | (with_reducible apply abortOps_only (within rfl hl))
    | (with_reducible apply cancelReleased_only (within rfl hl))
    | (with_reducible apply closeCtx_only (within rfl hl))
    | (with_reducible apply endHold_only (within rfl hl))
    | (with_reducible apply serveMarks_only (within rfl hl))
    | (with_reducible apply stopDeadline_only (within rfl hl))
    | (with_reducible apply Only.ite)
    | (with_reducible apply Only.ite2)

theorem portGone_only {ps : List Part} (hl : Part.le [.regs, .dieRegs, .mem, .ecc, .port, .mir, .phy, .hub, .ctx, .pan, .opq, .chan, .fresh] ps = true) {s0_ : State} {p : Nat} {cause : Nat} {s : State} (h : Only ps s0_ s) :
    Only ps s0_ (portGone p cause s) := by
  unfold portGone
  try dsimp only
  repeat' first
    | (with_reducible assumption)
    | (with_reducible apply clearHeavy_only (within rfl hl))
    | (with_reducible apply hubGone_only (within rfl hl))
    | (with_reducible apply protoReset_only (within rfl hl))
    | (with_reducible apply stopKa_only (within rfl hl))
    | (with_reducible apply updPhy_only (within rfl hl))
    | (with_reducible apply Only.ite)
    | (with_reducible apply Only.ite2)

theorem requestUrgent_only {ps : List Part} (hl : Part.le [.regs, .dieRegs, .adc] ps = true) {s0_ : State} {p : Nat} {s : State} (h : Only ps s0_ s) :
    Only ps s0_ (requestUrgent p s) := by
  unfold requestUrgent
  try dsimp only
  repeat' first
    | (with_reducible assumption)
    | (with_reducible apply setUnitFld_only (within rfl hl))
    | (with_reducible apply updAdc_only (within rfl hl))
    | (with_reducible apply Only.ite)
    | (with_reducible apply Only.ite2)

theorem tripPort_only {ps : List Part} (hl : Part.le [.regs, .dieRegs, .mem, .ecc, .xat, .port, .mir, .phy, .hub, .ctx, .pan, .opq, .chan, .adc, .fresh] ps = true) {s0_ : State} {p : Nat} {cause : TripCause} {f : Fld} {s : State} (h : Only ps s0_ s) :
    Only ps s0_ (tripPort p cause f s) := by
  unfold tripPort
  try dsimp only
  repeat' first
    | (with_reducible assumption)
    | (with_reducible apply openVconn_only (within rfl hl))
    | (with_reducible apply pgFall_only (within rfl hl))
    | (with_reducible apply portEvt_only (within rfl hl))
    | (with_reducible apply portGone_only (within rfl hl))
    | (with_reducible apply requestUrgent_only (within rfl hl))
    | (with_reducible apply setReg_only (within rfl hl))
    | (with_reducible apply updPort_only (within rfl hl))
    | (with_reducible apply xover_only (within rfl hl))
    | (with_reducible apply Only.ite)
    | (with_reducible apply Only.ite2)

theorem checkFt_only {ps : List Part} (hl : Part.le [.regs, .dieRegs, .mem, .ecc, .xat, .port, .mir, .phy, .hub, .ctx, .pan, .opq, .chan, .adc, .fresh] ps = true) {s0_ : State} {p : Nat} {s : State} (h : Only ps s0_ s) :
    Only ps s0_ (checkFt p s) := by
  unfold checkFt
  try dsimp only
  repeat' first
    | (with_reducible assumption)
    | (with_reducible apply tripPort_only (within rfl hl))
    | (with_reducible apply Only.ite)
    | (with_reducible apply Only.ite2)

theorem writePortSetting_only {ps : List Part} (hl : Part.le [.regs, .dieRegs, .mem, .ecc, .xat, .port, .mir, .phy, .hub, .ctx, .pan, .opq, .chan, .adc, .saved, .boot, .fresh] ps = true) {s0_ : State} {host : Bool} {p : Nat} {r : PortSetting} {v : Word} {s : State} (h : Only ps s0_ s) :
    Only ps s0_ (writePortSetting host p r v s) := by
  unfold writePortSetting
  try dsimp only
  repeat' first
    | (with_reducible assumption)
    | (with_reducible apply checkFt_only (within rfl hl))
    | (with_reducible apply saveSetting_only (within rfl hl))
    | (with_reducible apply writePortReg_only (within rfl hl))

theorem admitDone_only {ps : List Part} (hl : Part.le [.regs] ps = true) {s0_ : State} {s : State} (h : Only ps s0_ s) :
    Only ps s0_ (admitDone s) := by
  unfold admitDone
  try dsimp only
  repeat' first
    | (with_reducible assumption)
    | (with_reducible apply setFld_only (within rfl hl))
    | (with_reducible apply Only.ite)
    | (with_reducible apply Only.ite2)

theorem goOff_only {ps : List Part} (hl : Part.le [.regs, .dieRegs, .mem, .ecc, .port, .mir, .phy, .hub, .ctx, .pan, .opq, .chan, .fresh] ps = true) {s0_ : State} {p : Nat} {s : State} (h : Only ps s0_ s) :
    Only ps s0_ (goOff p s) := by
  unfold goOff
  try dsimp only
  repeat' first
    | (with_reducible assumption)
    | (with_reducible apply openVconn_only (within rfl hl))
    | (with_reducible apply pgFall_only (within rfl hl))
    | (with_reducible apply portGone_only (within rfl hl))
    | (with_reducible apply updPort_only (within rfl hl))
    | (with_reducible apply Only.ite)
    | (with_reducible apply Only.ite2)

theorem markAdmin_only {ps : List Part} (hl : Part.le [.hub] ps = true) {s0_ : State} {p : Nat} {en : Bool} {s : State} (h : Only ps s0_ s) :
    Only ps s0_ (markAdmin p en s) := by
  unfold markAdmin
  try dsimp only
  repeat' first
    | (with_reducible assumption)
    | (with_reducible apply updHub_only (within rfl hl))

theorem setAdm_only {ps : List Part} (hl : Part.le [.adm] ps = true) {s0_ : State} {p : Nat} {v : Adm} {s : State} (h : Only ps s0_ s) :
    Only ps s0_ (setAdm p v s) := by
  unfold setAdm
  try dsimp only
  repeat' first
    | (with_reducible assumption)
    | (with_reducible apply only_set_adm (within rfl hl))

theorem adminDis_only {ps : List Part} (hl : Part.le [.regs, .dieRegs, .mem, .ecc, .port, .mir, .phy, .hub, .ctx, .pan, .opq, .chan, .adm, .fresh] ps = true) {s0_ : State} {p : Nat} {s : State} (h : Only ps s0_ s) :
    Only ps s0_ (adminDis p s) := by
  unfold adminDis
  try dsimp only
  repeat' first
    | (with_reducible assumption)
    | (with_reducible apply admitDone_only (within rfl hl))
    | (with_reducible apply goOff_only (within rfl hl))
    | (with_reducible apply markAdmin_only (within rfl hl))
    | (with_reducible apply setAdm_only (within rfl hl))
    | (with_reducible apply Only.ite)
    | (with_reducible apply Only.ite2)

theorem leaveOff_only {ps : List Part} (hl : Part.le [.port, .mir] ps = true) {s0_ : State} {p : Nat} {s : State} (h : Only ps s0_ s) :
    Only ps s0_ (leaveOff p s) := by
  unfold leaveOff
  try dsimp only
  repeat' first
    | (with_reducible assumption)
    | (with_reducible apply updPort_only (within rfl hl))
    | (with_reducible apply Only.ite)
    | (with_reducible apply Only.ite2)

theorem admitPort_only {ps : List Part} (hl : Part.le [.port, .mir, .hub, .adm] ps = true) {s0_ : State} {p : Nat} {s : State} (h : Only ps s0_ s) :
    Only ps s0_ (admitPort p s) := by
  unfold admitPort
  try dsimp only
  repeat' first
    | (with_reducible assumption)
    | (with_reducible apply leaveOff_only (within rfl hl))
    | (with_reducible apply markAdmin_only (within rfl hl))
    | (with_reducible apply setAdm_only (within rfl hl))
    | (with_reducible apply Only.ite)
    | (with_reducible apply Only.ite2)

theorem adminEn_only {ps : List Part} (hl : Part.le [.regs, .port, .mir, .hub, .adm] ps = true) {s0_ : State} {p : Nat} {s : State} (h : Only ps s0_ s) :
    Only ps s0_ (adminEn p s) := by
  unfold adminEn
  try dsimp only
  repeat' first
    | (with_reducible assumption)
    | (with_reducible apply admitDone_only (within rfl hl))
    | (with_reducible apply admitPort_only (within rfl hl))
    | (with_reducible apply setAdm_only (within rfl hl))
    | (with_reducible apply Only.ite)
    | (with_reducible apply Only.ite2)

theorem clearTrips_only {ps : List Part} (hl : Part.le [.regs, .port, .mir] ps = true) {s0_ : State} {p : Nat} {s : State} (h : Only ps s0_ s) :
    Only ps s0_ (clearTrips p s) := by
  unfold clearTrips
  try dsimp only
  repeat' first
    | (with_reducible assumption)
    | (with_reducible apply portEvt_only (within rfl hl))
    | (with_reducible apply updPort_only (within rfl hl))
    | (with_reducible apply Only.ite)
    | (with_reducible apply Only.ite2)

theorem unlock_only {ps : List Part} (hl : Part.le [.regs, .port, .mir] ps = true) {s0_ : State} {p : Nat} {s : State} (h : Only ps s0_ s) :
    Only ps s0_ (unlock p s) := by
  unfold unlock
  try dsimp only
  repeat' first
    | (with_reducible assumption)
    | (with_reducible apply clearTrips_only (within rfl hl))
    | (with_reducible apply updPort_only (within rfl hl))
    | (with_reducible apply Only.ite)
    | (with_reducible apply Only.ite2)

theorem cmdUnlock_only {ps : List Part} (hl : Part.le [.regs, .port, .mir, .hub] ps = true) {s0_ : State} {p : Nat} {s : State} (h : Only ps s0_ s) :
    Only ps s0_ (cmdUnlock p s) := by
  unfold cmdUnlock
  try dsimp only
  repeat' first
    | (with_reducible assumption)
    | (with_reducible apply unlock_only (within rfl hl))
    | (with_reducible apply updHub_only (within rfl hl))
    | (with_reducible apply Only.ite)
    | (with_reducible apply Only.ite2)

theorem hubAttach_only {ps : List Part} (hl : Part.le [.regs, .mem, .ecc, .xat, .phy, .hub, .fw, .ctx, .pan, .chan, .fresh] ps = true) {s0_ : State} {p : Nat} {s : State} (h : Only ps s0_ s) :
    Only ps s0_ (hubAttach p s) := by
  unfold hubAttach
  try dsimp only
  repeat' first
    | (with_reducible assumption)
    | (with_reducible apply hubDiscard_only (within rfl hl))
    | (with_reducible apply requestCtx_only (within rfl hl))
    | (with_reducible apply updFw_only (within rfl hl))
    | (with_reducible apply xover_only (within rfl hl))
    | (with_reducible apply Only.ite)
    | (with_reducible apply Only.ite2)

theorem acceptAttach_only {ps : List Part} (hl : Part.le [.regs, .mem, .ecc, .xat, .port, .mir, .phy, .hub, .fw, .ctx, .pan, .chan, .fresh] ps = true) {s0_ : State} {p : Nat} {orient : Bool} {ra : Bool} {s : State} (h : Only ps s0_ s) :
    Only ps s0_ (acceptAttach p orient ra s) := by
  unfold acceptAttach
  try dsimp only
  repeat' first
    | (with_reducible assumption)
    | (with_reducible apply dieProto_only (within rfl hl))
    | (with_reducible apply hubAttach_only (within rfl hl))
    | (with_reducible apply portEvt_only (within rfl hl))
    | (with_reducible apply updPort_only (within rfl hl))
    | (with_reducible apply Only.ite)
    | (with_reducible apply Only.ite2)

theorem attach_only {ps : List Part} (hl : Part.le [.regs, .mem, .ecc, .xat, .port, .mir, .phy, .hub, .fw, .ctx, .pan, .chan, .fresh] ps = true) {s0_ : State} {p : Nat} {cc1 : Nat} {cc2 : Nat} {vs : Nat} {s : State} (h : Only ps s0_ s) :
    Only ps s0_ (attach p cc1 cc2 vs s) := by
  unfold attach
  try dsimp only
  repeat' first
    | (with_reducible assumption)
    | (with_reducible apply acceptAttach_only (within rfl hl))
    | (with_reducible apply portEvt_only (within rfl hl))
    | (with_reducible apply updPort_only (within rfl hl))
    | (with_reducible apply Only.ite)
    | (with_reducible apply Only.ite2)
    | split
    | dsimp only

theorem opCancel_only {ps : List Part} (hl : Part.le [.hub, .opq, .chan, .fresh] ps = true) {s0_ : State} {c : Nat} {i : Nat} {s : State} (h : Only ps s0_ s) :
    Only ps s0_ (opCancel c i s) := by
  unfold opCancel
  try dsimp only
  repeat' first
    | (with_reducible assumption)
    | (with_reducible apply endOp_only (within rfl hl))
    | (with_reducible apply serveMarks_only (within rfl hl))

theorem opDone_only {ps : List Part} (hl : Part.le [.hub, .opq, .chan, .fresh] ps = true) {s0_ : State} {c : Nat} {i : Nat} {s : State} (h : Only ps s0_ s) :
    Only ps s0_ (opDone c i s) := by
  unfold opDone
  try dsimp only
  repeat' first
    | (with_reducible assumption)
    | (with_reducible apply endOp_only (within rfl hl))
    | (with_reducible apply serveMarks_only (within rfl hl))

theorem contract_only {ps : List Part} (hl : Part.le [.port, .mir, .hub, .opq, .chan, .fresh] ps = true) {s0_ : State} {c : Nat} {i : Nat} {o : OpEntry} {s : State} (h : Only ps s0_ s) :
    Only ps s0_ (contract c i o s) := by
  unfold contract
  try dsimp only
  repeat' first
    | (with_reducible assumption)
    | (with_reducible apply opCancel_only (within rfl hl))
    | (with_reducible apply opDone_only (within rfl hl))
    | (with_reducible apply updPort_only (within rfl hl))
    | (with_reducible apply Only.ite)
    | (with_reducible apply Only.ite2)

theorem detach_only {ps : List Part} (hl : Part.le [.regs, .dieRegs, .mem, .ecc, .port, .mir, .phy, .hub, .ctx, .pan, .opq, .chan, .fresh] ps = true) {s0_ : State} {p : Nat} {s : State} (h : Only ps s0_ s) :
    Only ps s0_ (detach p s) := by
  unfold detach
  try dsimp only
  repeat' first
    | (with_reducible assumption)
    | (with_reducible apply openVconn_only (within rfl hl))
    | (with_reducible apply pgFall_only (within rfl hl))
    | (with_reducible apply portEvt_only (within rfl hl))
    | (with_reducible apply portGone_only (within rfl hl))
    | (with_reducible apply updPort_only (within rfl hl))
    | (with_reducible apply Only.ite)
    | (with_reducible apply Only.ite2)
    | split
    | dsimp only

theorem portLog_only {ps : List Part} (hl : Part.le [.regs, .log] ps = true) {s0_ : State} {p : Nat} {cls : Nat} {d0 : Word} {d1 : Nat} {s : State} (h : Only ps s0_ s) :
    Only ps s0_ (portLog p cls d0 d1 s) := by
  unfold portLog
  try dsimp only
  repeat' first
    | (with_reducible assumption)
    | (with_reducible apply post_only (within rfl hl))
    | (with_reducible apply Only.ite)
    | (with_reducible apply Only.ite2)

theorem enterLockout_only {ps : List Part} (hl : Part.le [.regs, .port, .mir, .log] ps = true) {s0_ : State} {p : Nat} {s : State} (h : Only ps s0_ s) :
    Only ps s0_ (enterLockout p s) := by
  unfold enterLockout
  try dsimp only
  repeat' first
    | (with_reducible assumption)
    | (with_reducible apply portEvt_only (within rfl hl))
    | (with_reducible apply portLog_only (within rfl hl))
    | (with_reducible apply updPort_only (within rfl hl))

theorem dischFail_only {ps : List Part} (hl : Part.le [.regs, .port, .mir, .hub, .opq, .chan, .log, .fresh] ps = true) {s0_ : State} {p : Nat} {vs : Nat} {s : State} (h : Only ps s0_ s) :
    Only ps s0_ (dischFail p vs s) := by
  unfold dischFail
  try dsimp only
  repeat' first
    | (with_reducible assumption)
    | (with_reducible apply enterLockout_only (within rfl hl))
    | (with_reducible apply opEnds_only (within rfl hl))
    | (with_reducible apply portEvt_only (within rfl hl))
    | (with_reducible apply portLog_only (within rfl hl))
    | (with_reducible apply serveMarks_only (within rfl hl))
    | (with_reducible apply stopDeadline_only (within rfl hl))
    | (with_reducible apply updPort_only (within rfl hl))
    | (with_reducible apply Only.ite)
    | (with_reducible apply Only.ite2)

theorem leaveRetry_only {ps : List Part} (hl : Part.le [.port, .mir] ps = true) {s0_ : State} {p : Nat} {s : State} (h : Only ps s0_ s) :
    Only ps s0_ (leaveRetry p s) := by
  unfold leaveRetry
  try dsimp only
  repeat' first
    | (with_reducible assumption)
    | (with_reducible apply updPort_only (within rfl hl))
    | (with_reducible apply Only.ite)
    | (with_reducible apply Only.ite2)

theorem dischargeComplete_only {ps : List Part} (hl : Part.le [.regs, .mem, .ecc, .xat, .port, .mir, .phy, .hub, .fw, .ctx, .pan, .opq, .chan, .log, .fresh] ps = true) {s0_ : State} {p : Nat} {s : State} (h : Only ps s0_ s) :
    Only ps s0_ (dischargeComplete p s) := by
  unfold dischargeComplete
  try dsimp only
  repeat' first
    | (with_reducible assumption)
    | (with_reducible apply acceptAttach_only (within rfl hl))
    | (with_reducible apply enterLockout_only (within rfl hl))
    | (with_reducible apply leaveRetry_only (within rfl hl))
    | (with_reducible apply opEnds_only (within rfl hl))
    | (with_reducible apply serveMarks_only (within rfl hl))
    | (with_reducible apply stopDeadline_only (within rfl hl))
    | (with_reducible apply updPort_only (within rfl hl))
    | (with_reducible apply Only.ite)
    | (with_reducible apply Only.ite2)
    | split
    | dsimp only

theorem powerDown_only {ps : List Part} (hl : Part.le [.regs, .port, .mir, .hub, .opq, .chan, .fresh] ps = true) {s0_ : State} {p : Nat} {e : Option Nat} {s : State} (h : Only ps s0_ s) :
    Only ps s0_ (powerDown p e s) := by
  unfold powerDown
  try dsimp only
  repeat' first
    | (with_reducible assumption)
    | (with_reducible apply clearHeavy_only (within rfl hl))
    | (with_reducible apply opEnds_only (within rfl hl))
    | (with_reducible apply openVconn_only (within rfl hl))
    | (with_reducible apply pgFall_only (within rfl hl))
    | (with_reducible apply queueXfer_only (within rfl hl))
    | (with_reducible apply serveMarks_only (within rfl hl))
    | (with_reducible apply updPort_only (within rfl hl))
    | (with_reducible apply Only.ite)
    | (with_reducible apply Only.ite2)

theorem fastTrip_only {ps : List Part} (hl : Part.le [.regs, .dieRegs, .mem, .ecc, .xat, .port, .mir, .phy, .hub, .ctx, .pan, .opq, .chan, .adc, .fresh] ps = true) {s0_ : State} {p : Nat} {uv : Nat} {ns : Nat} {s : State} (h : Only ps s0_ s) :
    Only ps s0_ (fastTrip p uv ns s) := by
  unfold fastTrip
  try dsimp only
  repeat' first
    | (with_reducible assumption)
    | (with_reducible apply drawNat_only (within rfl hl))
    | (with_reducible apply tripPort_only (within rfl hl))
    | (with_reducible apply Only.ite)
    | (with_reducible apply Only.ite2)

theorem inrushComplete_only {ps : List Part} (hl : Part.le [.port, .mir, .hub, .opq, .chan, .fresh] ps = true) {s0_ : State} {p : Nat} {s : State} (h : Only ps s0_ s) :
    Only ps s0_ (inrushComplete p s) := by
  unfold inrushComplete
  try dsimp only
  repeat' first
    | (with_reducible assumption)
    | (with_reducible apply opEnds_only (within rfl hl))
    | (with_reducible apply queueXfer_only (within rfl hl))
    | (with_reducible apply serveMarks_only (within rfl hl))
    | (with_reducible apply updPort_only (within rfl hl))
    | (with_reducible apply Only.ite)
    | (with_reducible apply Only.ite2)

theorem limitRise_only {ps : List Part} (hl : Part.le [.regs, .port, .mir] ps = true) {s0_ : State} {p : Nat} {s : State} (h : Only ps s0_ s) :
    Only ps s0_ (limitRise p s) := by
  unfold limitRise
  try dsimp only
  repeat' first
    | (with_reducible assumption)
    | (with_reducible apply pgFall_only (within rfl hl))
    | (with_reducible apply portEvt_only (within rfl hl))
    | (with_reducible apply updPort_only (within rfl hl))
    | (with_reducible apply Only.ite)
    | (with_reducible apply Only.ite2)
    | split
    | dsimp only

theorem powerDownExec_only {ps : List Part} (hl : Part.le [.regs, .port, .mir, .hub, .opq, .chan, .fresh] ps = true) {s0_ : State} {p : Nat} {e : Option Nat} {s : State} (h : Only ps s0_ s) :
    Only ps s0_ (powerDownExec p e s) := by
  unfold powerDownExec
  try dsimp only
  repeat' first
    | (with_reducible assumption)
    | (with_reducible apply opCancel_only (within rfl hl))
    | (with_reducible apply powerDown_only (within rfl hl))
    | (with_reducible apply serveMarks_only (within rfl hl))
    | (with_reducible apply updPort_only (within rfl hl))
    | (with_reducible apply Only.ite)
    | (with_reducible apply Only.ite2)
    | split
    | dsimp only

theorem railOk_only {ps : List Part} (hl : Part.le [.die, .fresh] ps = true) {s0_ : State} {p : Nat} {s : State} (h : Only ps s0_ s) :
    Only ps s0_ (railOk p s).2 := by
  unfold railOk
  try dsimp only
  repeat' first
    | (with_reducible assumption)
    | (with_reducible apply drawNat_only (within rfl hl))
    | (with_reducible apply updDie_only (within rfl hl))
    | (with_reducible apply Only.ite)
    | (with_reducible apply Only.ite2)

theorem retryExpire_only {ps : List Part} (hl : Part.le [.port, .mir] ps = true) {s0_ : State} {p : Nat} {s : State} (h : Only ps s0_ s) :
    Only ps s0_ (retryExpire p s) := by
  unfold retryExpire
  try dsimp only
  repeat' first
    | (with_reducible assumption)
    | (with_reducible apply leaveRetry_only (within rfl hl))
    | (with_reducible apply updPort_only (within rfl hl))
    | (with_reducible apply Only.ite)
    | (with_reducible apply Only.ite2)

theorem sinkFirst_only {ps : List Part} (hl : Part.le [.regs, .dieRegs, .mem, .ecc, .xat, .port, .mir, .phy, .hub, .fw, .ctx, .pan, .opq, .chan, .fresh] ps = true) {s0_ : State} {p : Nat} {s : State} (h : Only ps s0_ s) :
    Only ps s0_ (sinkFirst p s) := by
  unfold sinkFirst
  try dsimp only
  repeat' first
    | (with_reducible assumption)
    | (with_reducible apply attach_only (within rfl hl))
    | (with_reducible apply detach_only (within rfl hl))
    | (with_reducible apply forEach_only)
    | (with_reducible intro _)
    | (with_reducible apply Only.ite)
    | (with_reducible apply Only.ite2)
    | split
    | dsimp only

theorem sinkGone_only {ps : List Part} (hl : Part.le [.port, .mir] ps = true) {s0_ : State} {p : Nat} {s : State} (h : Only ps s0_ s) :
    Only ps s0_ (sinkGone p s) := by
  unfold sinkGone
  try dsimp only
  repeat' first
    | (with_reducible assumption)
    | (with_reducible apply updPort_only (within rfl hl))
    | (with_reducible apply Only.ite)
    | (with_reducible apply Only.ite2)

theorem sinkSeen_only {ps : List Part} (hl : Part.le [.port, .mir] ps = true) {s0_ : State} {p : Nat} {s : State} (h : Only ps s0_ s) :
    Only ps s0_ (sinkSeen p s) := by
  unfold sinkSeen
  try dsimp only
  repeat' first
    | (with_reducible assumption)
    | (with_reducible apply updPort_only (within rfl hl))
    | (with_reducible apply Only.ite)
    | (with_reducible apply Only.ite2)

theorem step5_only {ps : List Part} (hl : Part.le [.port, .mir, .hub, .opq, .chan, .fresh] ps = true) {s0_ : State} {c : Nat} {i : Nat} {o : OpEntry} {vs : Nat} {s : State} (h : Only ps s0_ s) :
    Only ps s0_ (step5 c i o vs s) := by
  unfold step5
  try dsimp only
  repeat' first
    | (with_reducible assumption)
    | (with_reducible apply opCancel_only (within rfl hl))
    | (with_reducible apply opEnds_only (within rfl hl))
    | (with_reducible apply serveMarks_only (within rfl hl))
    | (with_reducible apply updPort_only (within rfl hl))
    | (with_reducible apply Only.ite)
    | (with_reducible apply Only.ite2)

theorem stepBleed_only {ps : List Part} (hl : Part.le [.port, .mir] ps = true) {s0_ : State} {p : Nat} {vs : Nat} {s : State} (h : Only ps s0_ s) :
    Only ps s0_ (stepBleed p vs s) := by
  unfold stepBleed
  try dsimp only
  repeat' first
    | (with_reducible assumption)
    | (with_reducible apply updPort_only (within rfl hl))
    | (with_reducible apply Only.ite)
    | (with_reducible apply Only.ite2)

theorem stepComplete_only {ps : List Part} (hl : Part.le [.port, .mir, .hub, .opq, .chan, .fresh] ps = true) {s0_ : State} {p : Nat} {s : State} (h : Only ps s0_ s) :
    Only ps s0_ (stepComplete p s) := by
  unfold stepComplete
  try dsimp only
  repeat' first
    | (with_reducible assumption)
    | (with_reducible apply opEnds_only (within rfl hl))
    | (with_reducible apply serveMarks_only (within rfl hl))
    | (with_reducible apply updPort_only (within rfl hl))
    | (with_reducible apply Only.ite)
    | (with_reducible apply Only.ite2)
    | split
    | dsimp only

theorem stepTimeout_only {ps : List Part} (hl : Part.le [.regs, .port, .mir, .hub, .opq, .chan, .fresh] ps = true) {s0_ : State} {p : Nat} {s : State} (h : Only ps s0_ s) :
    Only ps s0_ (stepTimeout p s) := by
  unfold stepTimeout
  try dsimp only
  repeat' first
    | (with_reducible assumption)
    | (with_reducible apply opEnds_only (within rfl hl))
    | (with_reducible apply portEvt_only (within rfl hl))
    | (with_reducible apply updPort_only (within rfl hl))
    | (with_reducible apply Only.ite)
    | (with_reducible apply Only.ite2)
    | split
    | dsimp only

theorem transfer_only {ps : List Part} (hl : Part.le [.port, .mir, .hub, .opq, .chan, .fresh] ps = true) {s0_ : State} {c : Nat} {i : Nat} {o : OpEntry} {s : State} (h : Only ps s0_ s) :
    Only ps s0_ (transfer c i o s) := by
  unfold transfer
  try dsimp only
  repeat' first
    | (with_reducible assumption)
    | (with_reducible apply opCancel_only (within rfl hl))
    | (with_reducible apply opDone_only (within rfl hl))
    | (with_reducible apply updHub_only (within rfl hl))
    | (with_reducible apply updPort_only (within rfl hl))
    | (with_reducible apply Only.ite)
    | (with_reducible apply Only.ite2)

theorem transferDone_only {ps : List Part} (hl : Part.le [.port, .mir, .hub, .opq, .chan, .fresh] ps = true) {s0_ : State} {p : Nat} {s : State} (h : Only ps s0_ s) :
    Only ps s0_ (transferDone p s) := by
  unfold transferDone
  try dsimp only
  repeat' first
    | (with_reducible assumption)
    | (with_reducible apply opEnds_only (within rfl hl))
    | (with_reducible apply queueXfer_only (within rfl hl))
    | (with_reducible apply serveMarks_only (within rfl hl))
    | (with_reducible apply updHub_only (within rfl hl))
    | (with_reducible apply updPort_only (within rfl hl))
    | (with_reducible apply Only.ite)
    | (with_reducible apply Only.ite2)
    | split
    | dsimp only

theorem tripFirst_only {ps : List Part} (hl : Part.le [.regs, .dieRegs, .mem, .ecc, .xat, .port, .mir, .phy, .hub, .ctx, .pan, .opq, .chan, .adc, .fresh] ps = true) {s0_ : State} {p : Nat} {s : State} (h : Only ps s0_ s) :
    Only ps s0_ (tripFirst p s) := by
  unfold tripFirst
  try dsimp only
  repeat' first
    | (with_reducible assumption)
    | (with_reducible apply fastTrip_only (within rfl hl))
    | (with_reducible apply tripPort_only (within rfl hl))
    | (with_reducible apply forEach_only)
    | (with_reducible intro _)
    | (with_reducible apply Only.ite)
    | (with_reducible apply Only.ite2)
    | split
    | dsimp only

theorem turnOn_only {ps : List Part} (hl : Part.le [.port, .mir, .hub, .opq, .chan, .die, .fresh] ps = true) {s0_ : State} {c : Nat} {i : Nat} {o : OpEntry} {s : State} (h : Only ps s0_ s) :
    Only ps s0_ (turnOn c i o s) := by
  unfold turnOn
  try dsimp only
  repeat' first
    | (with_reducible assumption)
    | (with_reducible apply opCancel_only (within rfl hl))
    | (with_reducible apply railOk_only (within rfl hl))
    | (with_reducible apply updHub_only (within rfl hl))
    | (with_reducible apply updPort_only (within rfl hl))
    | (with_reducible apply Only.ite)
    | (with_reducible apply Only.ite2)

theorem vconnOff_only {ps : List Part} (hl : Part.le [.port, .mir, .hub, .opq, .chan, .fresh] ps = true) {s0_ : State} {c : Nat} {i : Nat} {o : OpEntry} {s : State} (h : Only ps s0_ s) :
    Only ps s0_ (vconnOff c i o s) := by
  unfold vconnOff
  try dsimp only
  repeat' first
    | (with_reducible assumption)
    | (with_reducible apply opCancel_only (within rfl hl))
    | (with_reducible apply opDone_only (within rfl hl))
    | (with_reducible apply openVconn_only (within rfl hl))
    | (with_reducible apply Only.ite)
    | (with_reducible apply Only.ite2)

theorem vconnOn_only {ps : List Part} (hl : Part.le [.port, .mir, .hub, .opq, .chan, .die, .fresh] ps = true) {s0_ : State} {c : Nat} {i : Nat} {o : OpEntry} {s : State} (h : Only ps s0_ s) :
    Only ps s0_ (vconnOn c i o s) := by
  unfold vconnOn
  try dsimp only
  repeat' first
    | (with_reducible assumption)
    | (with_reducible apply opCancel_only (within rfl hl))
    | (with_reducible apply opDone_only (within rfl hl))
    | (with_reducible apply railOk_only (within rfl hl))
    | (with_reducible apply updPort_only (within rfl hl))
    | (with_reducible apply Only.ite)
    | (with_reducible apply Only.ite2)

theorem vconnUp_only {ps : List Part} (hl : Part.le [.port, .mir, .hub, .opq, .chan, .fresh] ps = true) {s0_ : State} {p : Nat} {s : State} (h : Only ps s0_ s) :
    Only ps s0_ (vconnUp p s) := by
  unfold vconnUp
  try dsimp only
  repeat' first
    | (with_reducible assumption)
    | (with_reducible apply opEnds_only (within rfl hl))
    | (with_reducible apply serveMarks_only (within rfl hl))
    | (with_reducible apply updPort_only (within rfl hl))
    | split
    | dsimp only

end Sys2Proof.Machine
end

