-- ==== Sys2Proof/Laws/OnlyOpQueue.lean ====
section
/-! SUPPORT. Footprints of the operations of Machine/OpQueue.lean: the parts of the state each may change. -/
namespace Sys2Proof.Machine

theorem fireDeadline_only {ps : List Part} (hl : Part.le [.regs, .port, .mir, .hub, .opq, .chan, .log, .fresh] ps = true) {s0_ : State} {p : Nat} {s : State} (h : Only ps s0_ s) :
    Only ps s0_ (fireDeadline p s) := by
  unfold fireDeadline
  try dsimp only
  repeat' first
    | (with_reducible assumption)
    | (with_reducible apply abortOps_only (within rfl hl))
    | (with_reducible apply incFld_only (within rfl hl))
    | (with_reducible apply post_only (within rfl hl))
    | (with_reducible apply result_only (within rfl hl))
    | (with_reducible apply serveMarks_only (within rfl hl))
    | (with_reducible apply stopDeadline_only (within rfl hl))
    | (with_reducible apply updHub_only (within rfl hl))
    | (with_reducible apply updPort_only (within rfl hl))

theorem expireDeadline_only {ps : List Part} (hl : Part.le [.regs, .port, .mir, .hub, .opq, .chan, .log, .fresh] ps = true) {s0_ : State} {p : Nat} {s : State} (h : Only ps s0_ s) :
    Only ps s0_ (expireDeadline p s) := by
  unfold expireDeadline
  try dsimp only
  repeat' first
    | (with_reducible assumption)
    | (with_reducible apply fireDeadline_only (within rfl hl))
    | (with_reducible apply updHub_only (within rfl hl))
    | (with_reducible apply Only.ite)
    | (with_reducible apply Only.ite2)

theorem checkDeadline_only {ps : List Part} (hl : Part.le [.regs, .port, .mir, .hub, .opq, .chan, .log, .fresh] ps = true) {s0_ : State} {p : Nat} {ceil : Nat} {us : BitVec 64} {s : State} (h : Only ps s0_ s) :
    Only ps s0_ (checkDeadline p ceil us s) := by
  unfold checkDeadline
  try dsimp only
  repeat' first
    | (with_reducible assumption)
    | (with_reducible apply expireDeadline_only (within rfl hl))
    | (with_reducible apply incFld_only (within rfl hl))
    | (with_reducible apply stopDeadline_only (within rfl hl))
    | (with_reducible apply updHub_only (within rfl hl))
    | (with_reducible apply Only.ite)
    | (with_reducible apply Only.ite2)

theorem setResult_only {ps : List Part} (hl : Part.le [.regs] ps = true) {s0_ : State} {c : Nat} {code : Nat} {entry : Nat} {s : State} (h : Only ps s0_ s) :
    Only ps s0_ (setResult c code entry s) := by
  unfold setResult
  try dsimp only
  repeat' first
    | (with_reducible assumption)
    | (with_reducible apply setReg_only (within rfl hl))

theorem pushOp_only {ps : List Part} (hl : Part.le [.regs, .hub, .opq, .chan, .fresh] ps = true) {s0_ : State} {c : Nat} {k : Option OpKind} {i : Nat} {s : State} (h : Only ps s0_ s) :
    Only ps s0_ (pushOp c k i s) := by
  unfold pushOp
  try dsimp only
  repeat' first
    | (with_reducible assumption)
    | (with_reducible apply abortBefore_only (within rfl hl))
    | (with_reducible apply enterOp_only (within rfl hl))
    | (with_reducible apply serveMarks_only (within rfl hl))
    | (with_reducible apply setResult_only (within rfl hl))
    | (with_reducible apply Only.ite)
    | (with_reducible apply Only.ite2)
    | split
    | dsimp only

theorem readCq_only {ps : List Part} (hl : Part.le [.chan] ps = true) {s0_ : State} {c : Nat} {s : State} (h : Only ps s0_ s) :
    Only ps s0_ (readCq c s).2 := by
  unfold readCq
  try dsimp only
  repeat' first
    | (with_reducible assumption)
    | (with_reducible apply updChan_only (within rfl hl))
    | split
    | dsimp only

theorem writeContract_only {ps : List Part} (hl : Part.le [.regs, .prec, .ecc, .port, .mir, .hub, .opq, .chan, .log, .fresh] ps = true) {s0_ : State} {p : Nat} {w7 : Word} {w8 : Word} {w10 : Word} {s : State} (h : Only ps s0_ s) :
    Only ps s0_ (writeContract p w7 w8 w10 s) := by
  unfold writeContract
  try dsimp only
  repeat' first
    | (with_reducible assumption)
    | (with_reducible apply checkDeadline_only (within rfl hl))
    | (with_reducible apply setRec_only (within rfl hl))
    | (with_reducible apply wordsWritten_only (within rfl hl))
    | (with_reducible apply Only.ite)
    | (with_reducible apply Only.ite2)

theorem pushArgs_only {ps : List Part} (hl : Part.le [.regs, .hub, .opq, .chan, .fresh] ps = true) {s0_ : State} {c : Nat} {k : OpKind} {i : Nat} {arg0 : Word} {arg1 : Word} {s : State} (h : Only ps s0_ s) :
    Only ps s0_ (pushArgs c k i arg0 arg1 s) := by
  unfold pushArgs
  try dsimp only
  repeat' first
    | (with_reducible assumption)
    | (with_reducible apply pushOp_only (within rfl hl))
    | (with_reducible apply setReg_only (within rfl hl))

end Sys2Proof.Machine
end

