-- ==== Sys2Proof/Laws/OnlyTimers.lean ====
section
/-! SUPPORT. Footprints of the operations of Machine/Timers.lean: the parts of the state each may change. -/
namespace Sys2Proof.Machine

theorem dropTicks_only {ps : List Part} (hl : Part.le [.timer] ps = true) {s0_ : State} {n : Nat} {s : State} (h : Only ps s0_ s) :
    Only ps s0_ (dropTicks n s) := by
  unfold dropTicks
  try dsimp only
  repeat' first
    | (with_reducible assumption)
    | (with_reducible apply updTimer_only (within rfl hl))

theorem setRunOne_only {ps : List Part} (hl : Part.le [.regs] ps = true) {s0_ : State} {n : Nat} {b : Bool} {s : State} (h : Only ps s0_ s) :
    Only ps s0_ (setRunOne n b s) := by
  unfold setRunOne
  try dsimp only
  repeat' first
    | (with_reducible assumption)
    | (with_reducible apply setFlag_only (within rfl hl))

theorem setRun_only {ps : List Part} (hl : Part.le [.regs, .timer] ps = true) {s0_ : State} {n : Nat} {b : Bool} {s : State} (h : Only ps s0_ s) :
    Only ps s0_ (setRun n b s) := by
  unfold setRun
  try dsimp only
  repeat' first
    | (with_reducible assumption)
    | (with_reducible apply dropTicks_only (within rfl hl))
    | (with_reducible apply setRunOne_only (within rfl hl))
    | (with_reducible apply Only.ite)
    | (with_reducible apply Only.ite2)

theorem setWide_only {ps : List Part} (hl : Part.le [.regs] ps = true) {s0_ : State} {reg : Nat → Nat} {n : Nat} {v : Nat} {s : State} (h : Only ps s0_ s) :
    Only ps s0_ (setWide reg n v s) := by
  unfold setWide
  try dsimp only
  repeat' first
    | (with_reducible assumption)
    | (with_reducible apply setReg_only (within rfl hl))
    | (with_reducible apply Only.ite)
    | (with_reducible apply Only.ite2)

theorem tmuLoad_only {ps : List Part} (hl : Part.le [.regs] ps = true) {s0_ : State} {n : Nat} {s : State} (h : Only ps s0_ s) :
    Only ps s0_ (tmuLoad n s) := by
  unfold tmuLoad
  try dsimp only
  repeat' first
    | (with_reducible assumption)
    | (with_reducible apply setWide_only (within rfl hl))

theorem tmuCmd_only {ps : List Part} (hl : Part.le [.regs, .timer] ps = true) {s0_ : State} {n : Nat} {load : Bool} {start : Bool} {stop : Bool} {s : State} (h : Only ps s0_ s) :
    Only ps s0_ (tmuCmd n load start stop s) := by
  unfold tmuCmd
  try dsimp only
  repeat' first
    | (with_reducible assumption)
    | (with_reducible apply setRun_only (within rfl hl))
    | (with_reducible apply tmuLoad_only (within rfl hl))
    | (with_reducible apply Only.ite)
    | (with_reducible apply Only.ite2)

theorem tmuGroup_only {ps : List Part} (hl : Part.le [.regs, .timer] ps = true) {s0_ : State} {who : Who} {v : Word} {start : Bool} {s : State} (h : Only ps s0_ s) :
    Only ps s0_ (tmuGroup who v start s) := by
  unfold tmuGroup
  try dsimp only
  repeat' first
    | (with_reducible assumption)
    | (with_reducible apply tmuCmd_only (within rfl hl))
    | (with_reducible apply forEach_only)
    | (with_reducible intro _)
    | (with_reducible apply Only.ite)
    | (with_reducible apply Only.ite2)
    | dsimp only

theorem setCaps_only {ps : List Part} (hl : Part.le [.regs, .timer] ps = true) {s0_ : State} {n : Nat} {l : List (BitVec 64)} {s : State} (h : Only ps s0_ s) :
    Only ps s0_ (setCaps n l s) := by
  unfold setCaps
  try dsimp only
  repeat' first
    | (with_reducible assumption)
    | (with_reducible apply setFld_only (within rfl hl))
    | (with_reducible apply updTimer_only (within rfl hl))

theorem writeCapsrc_only {ps : List Part} (hl : Part.le [.regs, .timer] ps = true) {s0_ : State} {n : Nat} {v : Word} {s : State} (h : Only ps s0_ s) :
    Only ps s0_ (writeCapsrc n v s) := by
  unfold writeCapsrc
  try dsimp only
  repeat' first
    | (with_reducible assumption)
    | (with_reducible apply setCaps_only (within rfl hl))
    | (with_reducible apply setReg_only (within rfl hl))
    | (with_reducible apply Only.ite)
    | (with_reducible apply Only.ite2)

theorem writeCmp_only {ps : List Part} (hl : Part.le [.regs, .timer] ps = true) {s0_ : State} {n : Nat} {v : Word} {s : State} (h : Only ps s0_ s) :
    Only ps s0_ (writeCmp n v s) := by
  unfold writeCmp
  try dsimp only
  repeat' first
    | (with_reducible assumption)
    | (with_reducible apply setReg_only (within rfl hl))
    | (with_reducible apply updTimer_only (within rfl hl))
    | (with_reducible apply Only.ite)
    | (with_reducible apply Only.ite2)
    | split
    | dsimp only

theorem writeCtl_only {ps : List Part} (hl : Part.le [.regs, .timer] ps = true) {s0_ : State} {n : Nat} {v : Word} {s : State} (h : Only ps s0_ s) :
    Only ps s0_ (writeCtl n v s) := by
  unfold writeCtl
  try dsimp only
  repeat' first
    | (with_reducible assumption)
    | (with_reducible apply setCaps_only (within rfl hl))
    | (with_reducible apply setFld_only (within rfl hl))
    | (with_reducible apply setReg_only (within rfl hl))
    | (with_reducible apply Only.ite)
    | (with_reducible apply Only.ite2)

theorem writeRld_only {ps : List Part} (hl : Part.le [.regs, .timer] ps = true) {s0_ : State} {n : Nat} {v : Word} {s : State} (h : Only ps s0_ s) :
    Only ps s0_ (writeRld n v s) := by
  unfold writeRld
  try dsimp only
  repeat' first
    | (with_reducible assumption)
    | (with_reducible apply setReg_only (within rfl hl))
    | (with_reducible apply updTimer_only (within rfl hl))
    | (with_reducible apply Only.ite)
    | (with_reducible apply Only.ite2)
    | split
    | dsimp only

theorem writeSrc_only {ps : List Part} (hl : Part.le [.regs, .timer] ps = true) {s0_ : State} {n : Nat} {w : Word} {s : State} (h : Only ps s0_ s) :
    Only ps s0_ (writeSrc n w s) := by
  unfold writeSrc
  try dsimp only
  repeat' first
    | (with_reducible assumption)
    | (with_reducible apply dropTicks_only (within rfl hl))
    | (with_reducible apply setReg_only (within rfl hl))
    | (with_reducible apply Only.ite)
    | (with_reducible apply Only.ite2)

theorem readCap_only {ps : List Part} (hl : Part.le [.regs, .timer] ps = true) {s0_ : State} {n : Nat} {s : State} (h : Only ps s0_ s) :
    Only ps s0_ (readCap n s).2 := by
  unfold readCap
  try dsimp only
  repeat' first
    | (with_reducible assumption)
    | (with_reducible apply setCaps_only (within rfl hl))
    | (with_reducible apply updTimer_only (within rfl hl))
    | (with_reducible apply Only.ite)
    | (with_reducible apply Only.ite2)
    | split
    | dsimp only

theorem readCnt_only {ps : List Part} (hl : Part.le [.timer] ps = true) {s0_ : State} {n : Nat} {s : State} (h : Only ps s0_ s) :
    Only ps s0_ (readCnt n s).2 := by
  unfold readCnt
  try dsimp only
  repeat' first
    | (with_reducible assumption)
    | (with_reducible apply updTimer_only (within rfl hl))
    | (with_reducible apply Only.ite)
    | (with_reducible apply Only.ite2)

theorem present_only {ps : List Part} (hl : Part.le [.timer] ps = true) {s0_ : State} {clk : State → Nat → Bool} {cap : State → Nat → Bool} {s : State} (h : Only ps s0_ s) :
    Only ps s0_ (present clk cap s) := by
  unfold present
  try dsimp only
  repeat' first
    | (with_reducible assumption)
    | (with_reducible apply updTimer_only (within rfl hl))
    | (with_reducible apply forEach_only)
    | (with_reducible intro _)
    | (with_reducible apply Only.ite)
    | (with_reducible apply Only.ite2)
    | dsimp only

theorem presentTrig_only {ps : List Part} (hl : Part.le [.adc] ps = true) {s0_ : State} {code : Nat} {n : Nat} {s : State} (h : Only ps s0_ s) :
    Only ps s0_ (presentTrig code n s) := by
  unfold presentTrig
  try dsimp only
  repeat' first
    | (with_reducible assumption)
    | (with_reducible apply updAdc_only (within rfl hl))
    | (with_reducible apply forEach_only)
    | (with_reducible intro _)
    | (with_reducible apply Only.ite)
    | (with_reducible apply Only.ite2)
    | dsimp only

theorem raiseTmu_only {ps : List Part} (hl : Part.le [.regs] ps = true) {s0_ : State} {n : Nat} {f : Fld} {s : State} (h : Only ps s0_ s) :
    Only ps s0_ (raiseTmu n f s) := by
  unfold raiseTmu
  try dsimp only
  repeat' first
    | (with_reducible assumption)
    | (with_reducible apply raiseEn_only (within rfl hl))

theorem capQueue_only {ps : List Part} (hl : Part.le [.regs, .timer] ps = true) {s0_ : State} {n : Nat} {v : BitVec 64} {s : State} (h : Only ps s0_ s) :
    Only ps s0_ (capQueue n v s) := by
  unfold capQueue
  try dsimp only
  repeat' first
    | (with_reducible assumption)
    | (with_reducible apply raiseTmu_only (within rfl hl))
    | (with_reducible apply setCaps_only (within rfl hl))
    | (with_reducible apply Only.ite)
    | (with_reducible apply Only.ite2)

theorem capSingle_only {ps : List Part} (hl : Part.le [.regs, .timer] ps = true) {s0_ : State} {n : Nat} {v : BitVec 64} {s : State} (h : Only ps s0_ s) :
    Only ps s0_ (capSingle n v s) := by
  unfold capSingle
  try dsimp only
  repeat' first
    | (with_reducible assumption)
    | (with_reducible apply raiseTmu_only (within rfl hl))
    | (with_reducible apply setCaps_only (within rfl hl))
    | (with_reducible apply Only.ite)
    | (with_reducible apply Only.ite2)

theorem capture_only {ps : List Part} (hl : Part.le [.regs, .timer] ps = true) {s0_ : State} {n : Nat} {src : CapSrc} {s : State} (h : Only ps s0_ s) :
    Only ps s0_ (capture n src s) := by
  unfold capture
  try dsimp only
  repeat' first
    | (with_reducible assumption)
    | (with_reducible apply capQueue_only (within rfl hl))
    | (with_reducible apply capSingle_only (within rfl hl))
    | (with_reducible apply updTimer_only (within rfl hl))
    | split
    | dsimp only

theorem endTick_only {ps : List Part} (hl : Part.le [.timer] ps = true) {s0_ : State} {n : Nat} {src : TickSrc} {s : State} (h : Only ps s0_ s) :
    Only ps s0_ (endTick n src s) := by
  unfold endTick
  try dsimp only
  repeat' first
    | (with_reducible assumption)
    | (with_reducible apply updTimer_only (within rfl hl))
    | split
    | dsimp only

theorem landAction_only {ps : List Part} (hl : Part.le [.regs, .timer] ps = true) {s0_ : State} {n : Nat} {s : State} (h : Only ps s0_ s) :
    Only ps s0_ (landAction n s) := by
  unfold landAction
  try dsimp only
  repeat' first
    | (with_reducible assumption)
    | (with_reducible apply tmuCmd_only (within rfl hl))
    | (with_reducible apply updTimer_only (within rfl hl))

theorem portEventCrossing_only {ps : List Part} (hl : Part.le [.regs, .timer, .portEv, .xat, .fresh] ps = true) {s0_ : State} {p : Fin 512} {k : Fin 8} {s : State} (h : Only ps s0_ s) :
    Only ps s0_ (portEventCrossing p k s) := by
  unfold portEventCrossing
  try dsimp only
  repeat' first
    | (with_reducible assumption)
    | (with_reducible apply cross_only (within rfl hl))
    | (with_reducible apply present_only (within rfl hl))
    | (with_reducible apply raiseTmu_only (within rfl hl))
    | (with_reducible apply forEach_only)
    | (with_reducible intro _)
    | (with_reducible apply Only.ite)
    | (with_reducible apply Only.ite2)
    | (with_reducible apply only_set_portEv (within rfl hl))
    | dsimp only

theorem queueAction_only {ps : List Part} (hl : Part.le [.timer] ps = true) {s0_ : State} {a : Nat × Bool × Bool} {s : State} (h : Only ps s0_ s) :
    Only ps s0_ (queueAction a s) := by
  unfold queueAction
  try dsimp only
  repeat' first
    | (with_reducible assumption)
    | (with_reducible apply updTimer_only (within rfl hl))

theorem sendActions_only {ps : List Part} (hl : Part.le [.timer] ps = true) {s0_ : State} {n : Nat} {isMatch : Bool} {isZero : Bool} {s : State} (h : Only ps s0_ s) :
    Only ps s0_ (sendActions n isMatch isZero s) := by
  unfold sendActions
  try dsimp only
  repeat' first
    | (with_reducible assumption)
    | (with_reducible apply queueAction_only (within rfl hl))
    | (with_reducible apply Only.ite)
    | (with_reducible apply Only.ite2)
    | split
    | dsimp only

theorem tickProc_only {ps : List Part} (hl : Part.le [.regs, .timer, .adc] ps = true) {s0_ : State} {n : Nat} {s : State} (h : Only ps s0_ s) :
    Only ps s0_ (tickProc n s) := by
  unfold tickProc
  try dsimp only
  repeat' first
    | (with_reducible assumption)
    | (with_reducible apply presentTrig_only (within rfl hl))
    | (with_reducible apply raiseTmu_only (within rfl hl))
    | (with_reducible apply sendActions_only (within rfl hl))
    | (with_reducible apply setRun_only (within rfl hl))
    | (with_reducible apply setWide_only (within rfl hl))
    | (with_reducible apply Only.ite)
    | (with_reducible apply Only.ite2)

theorem timerTick_only {ps : List Part} (hl : Part.le [.regs, .timer, .adc] ps = true) {s0_ : State} {n : Nat} {src : TickSrc} {s : State} (h : Only ps s0_ s) :
    Only ps s0_ (timerTick n src s) := by
  unfold timerTick
  try dsimp only
  repeat' first
    | (with_reducible assumption)
    | (with_reducible apply endTick_only (within rfl hl))
    | (with_reducible apply tickProc_only (within rfl hl))
    | (with_reducible apply Only.ite)
    | (with_reducible apply Only.ite2)

theorem tinEdge_only {ps : List Part} (hl : Part.le [.regs, .timer] ps = true) {s0_ : State} {k : Fin 8} {level : Bool} {s : State} (h : Only ps s0_ s) :
    Only ps s0_ (tinEdge k level s) := by
  unfold tinEdge
  try dsimp only
  repeat' first
    | (with_reducible assumption)
    | (with_reducible apply present_only (within rfl hl))
    | (with_reducible apply setFlag_only (within rfl hl))
    | (with_reducible apply Only.ite)
    | (with_reducible apply Only.ite2)

end Sys2Proof.Machine
end

