-- ==== Sys2Proof/Laws/OnlyRake.lean ====
section
/-! SUPPORT. Footprints of the operations of Machine/Rake.lean: the parts of the state each may change. -/
namespace Sys2Proof.Machine

theorem raisePlc_only {ps : List Part} (hl : Part.le [.regs] ps = true) {s0_ : State} {f : Fld} {s : State} (h : Only ps s0_ s) :
    Only ps s0_ (raisePlc f s) := by
  unfold raisePlc
  try dsimp only
  repeat' first
    | (with_reducible assumption)
    | (with_reducible apply raise_only (within rfl hl))

theorem setLevel_only {ps : List Part} (hl : Part.le [.regs, .log] ps = true) {s0_ : State} {s : State} (h : Only ps s0_ s) :
    Only ps s0_ (setLevel s) := by
  unfold setLevel
  try dsimp only
  repeat' first
    | (with_reducible assumption)
    | (with_reducible apply post_only (within rfl hl))
    | (with_reducible apply raisePlc_only (within rfl hl))
    | (with_reducible apply setFld_only (within rfl hl))
    | (with_reducible apply Only.ite)
    | (with_reducible apply Only.ite2)

theorem clearMeans_only {ps : List Part} (hl : Part.le [.fdrMon] ps = true) {s0_ : State} {s : State} (h : Only ps s0_ s) :
    Only ps s0_ (clearMeans s) := by
  unfold clearMeans
  try dsimp only
  repeat' first
    | (with_reducible assumption)
    | (with_reducible apply updMon_only (within rfl hl))
    | (with_reducible apply forEach_only)
    | (with_reducible intro _)
    | dsimp only

theorem commitPort_only {ps : List Part} (hl : Part.le [.regs, .port, .mir, .hub, .opq, .chan, .log, .fresh] ps = true) {s0_ : State} {old : Bank} {c : Nat} {k : Nat} {s : State} (h : Only ps s0_ s) :
    Only ps s0_ (commitPort old c k s) := by
  unfold commitPort
  try dsimp only
  repeat' first
    | (with_reducible assumption)
    | (with_reducible apply checkDeadline_only (within rfl hl))
    | (with_reducible apply finishOp_only (within rfl hl))
    | (with_reducible apply queueXfer_only (within rfl hl))
    | (with_reducible apply updHub_only (within rfl hl))
    | (with_reducible apply forEach_only)
    | (with_reducible intro _)
    | (with_reducible apply Only.ite)
    | (with_reducible apply Only.ite2)
    | dsimp only

theorem raiseFdr_only {ps : List Part} (hl : Part.le [.regs] ps = true) {s0_ : State} {f : Nat} {b : Fld} {s : State} (h : Only ps s0_ s) :
    Only ps s0_ (raiseFdr f b s) := by
  unfold raiseFdr
  try dsimp only
  repeat' first
    | (with_reducible assumption)
    | (with_reducible apply raise_only (within rfl hl))

theorem fdrEvents_only {ps : List Part} (hl : Part.le [.regs, .log] ps = true) {s0_ : State} {s0 : State} {fd : Nat → FdrOut} {f : Nat} {s : State} (h : Only ps s0_ s) :
    Only ps s0_ (fdrEvents s0 fd f s) := by
  unfold fdrEvents
  try dsimp only
  repeat' first
    | (with_reducible assumption)
    | (with_reducible apply post_only (within rfl hl))
    | (with_reducible apply raiseFdr_only (within rfl hl))
    | (with_reducible apply Only.ite)
    | (with_reducible apply Only.ite2)
    | split
    | dsimp only

theorem p7Event_only {ps : List Part} (hl : Part.le [.regs, .log] ps = true) {s0_ : State} {r : Rnd} {p : Nat} {s : State} (h : Only ps s0_ s) :
    Only ps s0_ (p7Event r p s) := by
  unfold p7Event
  try dsimp only
  repeat' first
    | (with_reducible assumption)
    | (with_reducible apply post_only (within rfl hl))
    | (with_reducible apply raisePlc_only (within rfl hl))
    | (with_reducible apply Only.ite)
    | (with_reducible apply Only.ite2)

theorem setBank_only {ps : List Part} (hl : Part.le [.bankA, .bankB] ps = true) {s0_ : State} {b : Bool} {v : Bank} {s : State} (h : Only ps s0_ s) :
    Only ps s0_ (setBank b v s) := by
  unfold setBank
  try dsimp only
  repeat' first
    | (with_reducible assumption)
    | (with_reducible apply Only.ite)
    | (with_reducible apply Only.ite2)
    | (with_reducible apply only_set_bankA_bankB (within rfl hl))
    | (with_reducible apply only_set_bankA (within rfl hl))
    | (with_reducible apply only_set_bankB (within rfl hl))

theorem commitRound_only {ps : List Part} (hl : Part.le [.regs, .ecc, .bankA, .bankB, .active, .fdrMon, .switchUs, .log] ps = true) {s0_ : State} {s : State} (h : Only ps s0_ s) :
    Only ps s0_ (commitRound s) := by
  unfold commitRound
  try dsimp only
  repeat' first
    | (with_reducible assumption)
    | (with_reducible apply fdrEvents_only (within rfl hl))
    | (with_reducible apply p7Event_only (within rfl hl))
    | (with_reducible apply setBank_only (within rfl hl))
    | (with_reducible apply setReg_only (within rfl hl))
    | (with_reducible apply updMon_only (within rfl hl))
    | (with_reducible apply wordsWritten_only (within rfl hl))
    | (with_reducible apply forEach_only)
    | (with_reducible intro _)
    | (with_reducible apply only_set_active_switchUs (within rfl hl))
    | (with_reducible apply only_set_active (within rfl hl))
    | (with_reducible apply only_set_switchUs (within rfl hl))
    | dsimp only

theorem feederEvent_only {ps : List Part} (hl : Part.le [.timer] ps = true) {s0_ : State} {f : Nat} {s : State} (h : Only ps s0_ s) :
    Only ps s0_ (feederEvent f s) := by
  unfold feederEvent
  try dsimp only
  repeat' first
    | (with_reducible assumption)
    | (with_reducible apply present_only (within rfl hl))

theorem feederBack_only {ps : List Part} (hl : Part.le [.timer, .fdrMon] ps = true) {s0_ : State} {f : Nat} {s : State} (h : Only ps s0_ s) :
    Only ps s0_ (feederBack f s) := by
  unfold feederBack
  try dsimp only
  repeat' first
    | (with_reducible assumption)
    | (with_reducible apply feederEvent_only (within rfl hl))
    | (with_reducible apply updMon_only (within rfl hl))
    | (with_reducible apply Only.ite)
    | (with_reducible apply Only.ite2)

theorem feederDown_only {ps : List Part} (hl : Part.le [.timer, .fdrMon] ps = true) {s0_ : State} {f : Nat} {s : State} (h : Only ps s0_ s) :
    Only ps s0_ (feederDown f s) := by
  unfold feederDown
  try dsimp only
  repeat' first
    | (with_reducible assumption)
    | (with_reducible apply feederEvent_only (within rfl hl))
    | (with_reducible apply updMon_only (within rfl hl))
    | (with_reducible apply Only.ite)
    | (with_reducible apply Only.ite2)

theorem noCommit_only {ps : List Part} (hl : Part.le [.regs, .log] ps = true) {s0_ : State} {code : Nat} {cnt : Fld} {ev : Fld} {s : State} (h : Only ps s0_ s) :
    Only ps s0_ (noCommit code cnt ev s) := by
  unfold noCommit
  try dsimp only
  repeat' first
    | (with_reducible assumption)
    | (with_reducible apply incFld_only (within rfl hl))
    | (with_reducible apply post_only (within rfl hl))
    | (with_reducible apply raisePlc_only (within rfl hl))
    | (with_reducible apply raiseSum_only (within rfl hl))
    | (with_reducible apply setFld_only (within rfl hl))
    | (with_reducible apply Only.ite)
    | (with_reducible apply Only.ite2)

theorem placementCommit_only {ps : List Part} (hl : Part.le [.regs, .xat, .port, .mir, .hub, .opq, .chan, .crs, .log, .fresh] ps = true) {s0_ : State} {c : Nat} {s : State} (h : Only ps s0_ s) :
    Only ps s0_ (placementCommit c s) := by
  unfold placementCommit
  try dsimp only
  repeat' first
    | (with_reducible assumption)
    | (with_reducible apply commitPort_only (within rfl hl))
    | (with_reducible apply serveMarks_only (within rfl hl))
    | (with_reducible apply updChan_only (within rfl hl))
    | (with_reducible apply updCrs_only (within rfl hl))
    | (with_reducible apply xover_only (within rfl hl))
    | (with_reducible apply forEach_only)
    | (with_reducible intro _)
    | dsimp only

theorem roundReads_only {ps : List Part} (hl : Part.le [.regs, .mem, .ecc, .ceSecond, .log] ps = true) {s0_ : State} {s : State} (h : Only ps s0_ s) :
    Only ps s0_ (roundReads s) := by
  unfold roundReads
  try dsimp only
  repeat' first
    | (with_reducible assumption)
    | (with_reducible apply seenRange_only (within rfl hl))
    | (with_reducible apply forEach_only)
    | (with_reducible intro _)
    | dsimp only

theorem vconnRound_only {ps : List Part} (hl : Part.le [.regs] ps = true) {s0_ : State} {s : State} (h : Only ps s0_ s) :
    Only ps s0_ (vconnRound s) := by
  unfold vconnRound
  try dsimp only
  repeat' first
    | (with_reducible assumption)
    | (with_reducible apply raisePlc_only (within rfl hl))
    | (with_reducible apply setFld_only (within rfl hl))
    | (with_reducible apply forEach_only)
    | (with_reducible intro _)
    | (with_reducible apply Only.ite)
    | (with_reducible apply Only.ite2)
    | dsimp only

theorem runRound_only {ps : List Part} (hl : Part.le [.regs, .mem, .ecc, .bankA, .bankB, .active, .fdrMon, .roundOpen, .switchUs, .ceSecond, .log] ps = true) {s0_ : State} {e : RoundEnd} {s : State} (h : Only ps s0_ s) :
    Only ps s0_ (runRound e s) := by
  unfold runRound
  try dsimp only
  repeat' first
    | (with_reducible assumption)
    | (with_reducible apply clearMeans_only (within rfl hl))
    | (with_reducible apply commitRound_only (within rfl hl))
    | (with_reducible apply noCommit_only (within rfl hl))
    | (with_reducible apply roundReads_only (within rfl hl))
    | (with_reducible apply vconnRound_only (within rfl hl))
    | (with_reducible apply Only.ite)
    | (with_reducible apply Only.ite2)
    | split
    | (with_reducible apply only_set_roundOpen (within rfl hl))
    | dsimp only

end Sys2Proof.Machine
end

