-- ==== Sys2Proof/Laws/OnlyMeasure.lean ====
section
/-! SUPPORT. Footprints of the operations of Machine/Measure.lean: the parts of the state each may change. -/
namespace Sys2Proof.Machine

theorem armUnit_only {ps : List Part} (hl : Part.le [.regs, .dieRegs, .adc] ps = true) {s0_ : State} {u : Nat} {on : Bool} {s : State} (h : Only ps s0_ s) :
    Only ps s0_ (armUnit u on s) := by
  unfold armUnit
  try dsimp only
  repeat' first
    | (with_reducible assumption)
    | (with_reducible apply setUnitFld_only (within rfl hl))
    | (with_reducible apply updAdc_only (within rfl hl))

theorem startCal_only {ps : List Part} (hl : Part.le [.regs, .dieRegs, .adc] ps = true) {s0_ : State} {u : Nat} {s : State} (h : Only ps s0_ s) :
    Only ps s0_ (startCal u s) := by
  unfold startCal
  try dsimp only
  repeat' first
    | (with_reducible assumption)
    | (with_reducible apply setUnitFld_only (within rfl hl))
    | (with_reducible apply updAdc_only (within rfl hl))

theorem calibrate_only {ps : List Part} (hl : Part.le [.regs, .dieRegs, .adc] ps = true) {s0_ : State} {u : Nat} {s : State} (h : Only ps s0_ s) :
    Only ps s0_ (calibrate u s) := by
  unfold calibrate
  try dsimp only
  repeat' first
    | (with_reducible assumption)
    | (with_reducible apply setUnitFld_only (within rfl hl))
    | (with_reducible apply startCal_only (within rfl hl))
    | (with_reducible apply updAdc_only (within rfl hl))
    | (with_reducible apply Only.ite)
    | (with_reducible apply Only.ite2)

theorem trigger_only {ps : List Part} (hl : Part.le [.regs, .dieRegs, .adc] ps = true) {s0_ : State} {u : Nat} {s : State} (h : Only ps s0_ s) :
    Only ps s0_ (trigger u s) := by
  unfold trigger
  try dsimp only
  repeat' first
    | (with_reducible assumption)
    | (with_reducible apply setUnitFld_only (within rfl hl))
    | (with_reducible apply updAdc_only (within rfl hl))
    | (with_reducible apply Only.ite)
    | (with_reducible apply Only.ite2)

theorem adcCmd_only {ps : List Part} (hl : Part.le [.regs, .dieRegs, .adc] ps = true) {s0_ : State} {u : Nat} {cal : Bool} {trig : Bool} {disarm : Bool} {arm : Bool} {s : State} (h : Only ps s0_ s) :
    Only ps s0_ (adcCmd u cal trig disarm arm s) := by
  unfold adcCmd
  try dsimp only
  repeat' first
    | (with_reducible assumption)
    | (with_reducible apply armUnit_only (within rfl hl))
    | (with_reducible apply calibrate_only (within rfl hl))
    | (with_reducible apply trigger_only (within rfl hl))
    | (with_reducible apply Only.ite)
    | (with_reducible apply Only.ite2)

theorem readFeederLo_only {ps : List Part} (hl : Part.le [.regs] ps = true) {s0_ : State} {f : Nat} {inn : Bool} {s : State} (h : Only ps s0_ s) :
    Only ps s0_ (readFeederLo f inn s).2 := by
  unfold readFeederLo
  try dsimp only
  repeat' first
    | (with_reducible assumption)
    | (with_reducible apply setReg_only (within rfl hl))
    | (with_reducible apply Only.ite)
    | (with_reducible apply Only.ite2)

theorem readHrvCyc_only {ps : List Part} (hl : Part.le [.regs] ps = true) {s0_ : State} {s : State} (h : Only ps s0_ s) :
    Only ps s0_ (readHrvCyc s).2 := by
  unfold readHrvCyc
  try dsimp only
  repeat' first
    | (with_reducible assumption)
    | (with_reducible apply setReg_only (within rfl hl))

theorem readElo_only {ps : List Part} (hl : Part.le [.regs] ps = true) {s0_ : State} {p : Nat} {s : State} (h : Only ps s0_ s) :
    Only ps s0_ (readElo p s).2 := by
  unfold readElo
  try dsimp only
  repeat' first
    | (with_reducible assumption)
    | (with_reducible apply setReg_only (within rfl hl))

theorem closeFeeder_only {ps : List Part} (hl : Part.le [.regs, .fharv] ps = true) {s0_ : State} {f : Nat} {s : State} (h : Only ps s0_ s) :
    Only ps s0_ (closeFeeder f s) := by
  unfold closeFeeder
  try dsimp only
  repeat' first
    | (with_reducible assumption)
    | (with_reducible apply setReg_only (within rfl hl))
    | (with_reducible apply updFharv_only (within rfl hl))
    | (with_reducible apply Only.ite)
    | (with_reducible apply Only.ite2)

theorem closePort_only {ps : List Part} (hl : Part.le [.regs, .ecc, .harv] ps = true) {s0_ : State} {p : Nat} {s : State} (h : Only ps s0_ s) :
    Only ps s0_ (closePort p s) := by
  unfold closePort
  try dsimp only
  repeat' first
    | (with_reducible assumption)
    | (with_reducible apply setReg_only (within rfl hl))
    | (with_reducible apply updHarv_only (within rfl hl))
    | (with_reducible apply wordsWritten_only (within rfl hl))

theorem harvestClose_only {ps : List Part} (hl : Part.le [.regs, .ecc, .harv, .fharv, .hrvCyc] ps = true) {s0_ : State} {s : State} (h : Only ps s0_ s) :
    Only ps s0_ (harvestClose s) := by
  unfold harvestClose
  try dsimp only
  repeat' first
    | (with_reducible assumption)
    | (with_reducible apply closeFeeder_only (within rfl hl))
    | (with_reducible apply closePort_only (within rfl hl))
    | (with_reducible apply setFld_only (within rfl hl))
    | (with_reducible apply setReg_only (within rfl hl))
    | (with_reducible apply forEach_only)
    | (with_reducible intro _)
    | (with_reducible apply only_set_hrvCyc (within rfl hl))
    | dsimp only

theorem calRecord_only {ps : List Part} (hl : Part.le [.regs, .log] ps = true) {s0_ : State} {u : Nat} {gain : Nat} {s : State} (h : Only ps s0_ s) :
    Only ps s0_ (calRecord u gain s) := by
  unfold calRecord
  try dsimp only
  repeat' first
    | (with_reducible assumption)
    | (with_reducible apply post_only (within rfl hl))

theorem calibrationDone_only {ps : List Part} (hl : Part.le [.regs, .dieRegs, .adc, .log] ps = true) {s0_ : State} {u : Nat} {gain : Nat} {ofs : BitVec 16} {s : State} (h : Only ps s0_ s) :
    Only ps s0_ (calibrationDone u gain ofs s) := by
  unfold calibrationDone
  try dsimp only
  repeat' first
    | (with_reducible assumption)
    | (with_reducible apply calRecord_only (within rfl hl))
    | (with_reducible apply setUnit_only (within rfl hl))
    | (with_reducible apply setUnitFld_only (within rfl hl))
    | (with_reducible apply updAdc_only (within rfl hl))
    | (with_reducible apply Only.ite)
    | (with_reducible apply Only.ite2)

theorem harvestFeeder_only {ps : List Part} (hl : Part.le [.fharv] ps = true) {s0_ : State} {f : Nat} {v : Nat} {i : Int} {s : State} (h : Only ps s0_ s) :
    Only ps s0_ (harvestFeeder f v i s) := by
  unfold harvestFeeder
  try dsimp only
  repeat' first
    | (with_reducible assumption)
    | (with_reducible apply updFharv_only (within rfl hl))
    | (with_reducible apply Only.ite)
    | (with_reducible apply Only.ite2)

theorem harvestScan_only {ps : List Part} (hl : Part.le [.regs, .harv] ps = true) {s0_ : State} {p : Nat} {v : Nat} {i : Nat} {s : State} (h : Only ps s0_ s) :
    Only ps s0_ (harvestScan p v i s) := by
  unfold harvestScan
  try dsimp only
  repeat' first
    | (with_reducible assumption)
    | (with_reducible apply setFld_only (within rfl hl))
    | (with_reducible apply updHarv_only (within rfl hl))
    | (with_reducible apply Only.ite)
    | (with_reducible apply Only.ite2)
    | split
    | dsimp only

theorem landResult_only {ps : List Part} (hl : Part.le [.regs, .dieRegs, .adc] ps = true) {s0_ : State} {u : Nat} {cfg : Word} {form : Nat × Bool} {c : Int} {s : State} (h : Only ps s0_ s) :
    Only ps s0_ (landResult u cfg form c s) := by
  unfold landResult
  try dsimp only
  repeat' first
    | (with_reducible assumption)
    | (with_reducible apply armUnit_only (within rfl hl))
    | (with_reducible apply setUnit_only (within rfl hl))
    | (with_reducible apply setUnitFld_only (within rfl hl))
    | (with_reducible apply startCal_only (within rfl hl))
    | (with_reducible apply updAdc_only (within rfl hl))
    | (with_reducible apply Only.ite)
    | (with_reducible apply Only.ite2)

theorem onDemand_only {ps : List Part} (hl : Part.le [.regs, .dieRegs, .adc] ps = true) {s0_ : State} {u : Nat} {raw : Nat} {s : State} (h : Only ps s0_ s) :
    Only ps s0_ (onDemand u raw s) := by
  unfold onDemand
  try dsimp only
  repeat' first
    | (with_reducible assumption)
    | (with_reducible apply landResult_only (within rfl hl))
    | split
    | dsimp only

theorem hubDeliver_only {ps : List Part} (hl : Part.le [.regs, .dieRegs, .adc] ps = true) {s0_ : State} {u : Nat} {slot : Nat} {raw : Nat} {s : State} (h : Only ps s0_ s) :
    Only ps s0_ (hubDeliver u slot raw s) := by
  unfold hubDeliver
  try dsimp only
  repeat' first
    | (with_reducible assumption)
    | (with_reducible apply onDemand_only (within rfl hl))
    | (with_reducible apply Only.ite)
    | (with_reducible apply Only.ite2)
    | split
    | dsimp only

theorem monitorSample_only {ps : List Part} (hl : Part.le [.timer, .fdrMon] ps = true) {s0_ : State} {f : Nat} {v : Nat} {s : State} (h : Only ps s0_ s) :
    Only ps s0_ (monitorSample f v s) := by
  unfold monitorSample
  try dsimp only
  repeat' first
    | (with_reducible assumption)
    | (with_reducible apply feederBack_only (within rfl hl))
    | (with_reducible apply feederDown_only (within rfl hl))
    | (with_reducible apply updMon_only (within rfl hl))
    | (with_reducible apply Only.ite)
    | (with_reducible apply Only.ite2)

theorem hubSlot_only {ps : List Part} (hl : Part.le [.timer, .fdrMon, .fharv] ps = true) {s0_ : State} {slot : Nat} {h0 : Nat} {h1 : Nat} {s : State} (h : Only ps s0_ s) :
    Only ps s0_ (hubSlot slot h0 h1 s) := by
  unfold hubSlot
  try dsimp only
  repeat' first
    | (with_reducible assumption)
    | (with_reducible apply harvestFeeder_only (within rfl hl))
    | (with_reducible apply monitorSample_only (within rfl hl))
    | (with_reducible apply updMon_only (within rfl hl))
    | split
    | dsimp only

theorem passSlot_only {ps : List Part} (hl : Part.le [.adc] ps = true) {s0_ : State} {u : Nat} {slot : Nat} {n : Nat} {s : State} (h : Only ps s0_ s) :
    Only ps s0_ (passSlot u slot n s) := by
  unfold passSlot
  try dsimp only
  repeat' first
    | (with_reducible assumption)
    | (with_reducible apply updAdc_only (within rfl hl))

theorem hubConversion_only {ps : List Part} (hl : Part.le [.regs, .dieRegs, .timer, .fdrMon, .adc, .fharv] ps = true) {s0_ : State} {slot : Nat} {h0 : Nat} {h1 : Nat} {s : State} (h : Only ps s0_ s) :
    Only ps s0_ (hubConversion slot h0 h1 s) := by
  unfold hubConversion
  try dsimp only
  repeat' first
    | (with_reducible assumption)
    | (with_reducible apply hubDeliver_only (within rfl hl))
    | (with_reducible apply hubSlot_only (within rfl hl))
    | (with_reducible apply passSlot_only (within rfl hl))

theorem measurementFrame_only {ps : List Part} (hl : Part.le [.regs, .ecc, .hub, .scan, .harv] ps = true) {s0_ : State} {p : Nat} {s : State} (h : Only ps s0_ s) :
    Only ps s0_ (measurementFrame p s) := by
  unfold measurementFrame
  try dsimp only
  repeat' first
    | (with_reducible assumption)
    | (with_reducible apply harvestScan_only (within rfl hl))
    | (with_reducible apply setFld_only (within rfl hl))
    | (with_reducible apply setReg_only (within rfl hl))
    | (with_reducible apply updHub_only (within rfl hl))
    | (with_reducible apply updScan_only (within rfl hl))
    | (with_reducible apply wordsWritten_only (within rfl hl))
    | (with_reducible apply Only.ite)
    | (with_reducible apply Only.ite2)

theorem scanConversion_only {ps : List Part} (hl : Part.le [.die, .scan] ps = true) {s0_ : State} {u : Nat} {slot : Nat} {raw : Nat} {s : State} (h : Only ps s0_ s) :
    Only ps s0_ (scanConversion u slot raw s) := by
  unfold scanConversion
  try dsimp only
  repeat' first
    | (with_reducible assumption)
    | (with_reducible apply updDie_only (within rfl hl))
    | (with_reducible apply updScan_only (within rfl hl))
    | (with_reducible apply Only.ite)
    | (with_reducible apply Only.ite2)
    | split
    | dsimp only

theorem takeTrig_only {ps : List Part} (hl : Part.le [.tb, .adc] ps = true) {s0_ : State} {u : Nat} {src : TrigSrc} {s : State} (h : Only ps s0_ s) :
    Only ps s0_ (takeTrig u src s) := by
  unfold takeTrig
  try dsimp only
  repeat' first
    | (with_reducible assumption)
    | (with_reducible apply advanceTo_only (within rfl hl))
    | (with_reducible apply updAdc_only (within rfl hl))
    | split
    | dsimp only

theorem urgentConversion_only {ps : List Part} (hl : Part.le [.regs, .dieRegs, .port, .mir, .adc, .log] ps = true) {s0_ : State} {p : Nat} {i : Nat} {v : Nat} {abrt : Bool} {s : State} (h : Only ps s0_ s) :
    Only ps s0_ (urgentConversion p i v abrt s) := by
  unfold urgentConversion
  try dsimp only
  repeat' first
    | (with_reducible assumption)
    | (with_reducible apply post_only (within rfl hl))
    | (with_reducible apply setReg_only (within rfl hl))
    | (with_reducible apply setUnitFld_only (within rfl hl))
    | (with_reducible apply updAdc_only (within rfl hl))
    | (with_reducible apply updPort_only (within rfl hl))
    | (with_reducible apply Only.ite)
    | (with_reducible apply Only.ite2)
    | split
    | dsimp only

end Sys2Proof.Machine
end

