-- ==== Sys2Proof/Laws/OnlyCycle.lean ====
section
/-! SUPPORT. Footprints of the operations of Machine/Cycle.lean: the parts of the state each may change. -/
namespace Sys2Proof.Machine

theorem admitRound_only {ps : List Part} (hl : Part.le [.regs, .port, .mir, .hub, .adm] ps = true) {s0_ : State} {s : State} (h : Only ps s0_ s) :
    Only ps s0_ (admitRound s) := by
  unfold admitRound
  try dsimp only
  repeat' first
    | (with_reducible assumption)
    | (with_reducible apply admitDone_only (within rfl hl))
    | (with_reducible apply admitPort_only (within rfl hl))
    | (with_reducible apply forEach_only)
    | (with_reducible intro _)
    | (with_reducible apply Only.ite)
    | (with_reducible apply Only.ite2)
    | dsimp only

theorem angleWrap_only {ps : List Part} (hl : Part.le [.regs, .ecc, .tb, .timer, .port, .mir, .hub, .adc, .harv, .fharv, .hrvCyc, .adm, .log] ps = true) {s0_ : State} {m : WrapMeas} {s : State} (h : Only ps s0_ s) :
    Only ps s0_ (angleWrap m s) := by
  unfold angleWrap
  try dsimp only
  repeat' first
    | (with_reducible assumption)
    | (with_reducible apply admitRound_only (within rfl hl))
    | (with_reducible apply crossWrap_only (within rfl hl))
    | (with_reducible apply harvestClose_only (within rfl hl))
    | (with_reducible apply phaseCheck_only (within rfl hl))
    | (with_reducible apply present_only (within rfl hl))
    | (with_reducible apply presentTrig_only (within rfl hl))
    | (with_reducible apply setTb_only (within rfl hl))
    | (with_reducible apply wrapMeasure_only (within rfl hl))
    | (with_reducible apply wrapState_only (within rfl hl))

theorem charge_only {ps : List Part} (hl : Part.le [.tb] ps = true) {s0_ : State} {all : Bool} {o : OpEntry} {s : State} (h : Only ps s0_ s) :
    Only ps s0_ (charge all o s) := by
  unfold charge
  try dsimp only
  repeat' first
    | (with_reducible assumption)
    | (with_reducible apply setTb_only (within rfl hl))
    | (with_reducible apply forEach_only)
    | (with_reducible intro _)
    | (with_reducible apply Only.ite)
    | (with_reducible apply Only.ite2)
    | dsimp only

theorem markDue_only {ps : List Part} (hl : Part.le [.opq] ps = true) {s0_ : State} {k : Nat} {c : Nat} {s : State} (h : Only ps s0_ s) :
    Only ps s0_ (markDue k c s) := by
  unfold markDue
  try dsimp only
  repeat' first
    | (with_reducible assumption)
    | (with_reducible apply setOp_only (within rfl hl))
    | (with_reducible apply forEach_only)
    | (with_reducible intro _)
    | (with_reducible apply Only.ite)
    | (with_reducible apply Only.ite2)
    | split
    | dsimp only

theorem release_only {ps : List Part} (hl : Part.le [.regs, .xat, .hub, .opq, .fresh] ps = true) {s0_ : State} {c : Nat} {i : Nat} {o : OpEntry} {all : Bool} {s : State} (h : Only ps s0_ s) :
    Only ps s0_ (release c i o all s) := by
  unfold release
  try dsimp only
  repeat' first
    | (with_reducible assumption)
    | (with_reducible apply incFld_only (within rfl hl))
    | (with_reducible apply setOp_only (within rfl hl))
    | (with_reducible apply stopDeadline_only (within rfl hl))
    | (with_reducible apply xover_only (within rfl hl))
    | (with_reducible apply forEach_only)
    | (with_reducible intro _)
    | (with_reducible apply Only.ite)
    | (with_reducible apply Only.ite2)
    | dsimp only

theorem offer_only {ps : List Part} (hl : Part.le [.regs, .tb, .xat, .hub, .opq, .fresh] ps = true) {s0_ : State} {c : Nat} {i : Nat} {s : State} (h : Only ps s0_ s) :
    Only ps s0_ (offer c i s) := by
  unfold offer
  try dsimp only
  repeat' first
    | (with_reducible assumption)
    | (with_reducible apply charge_only (within rfl hl))
    | (with_reducible apply release_only (within rfl hl))
    | (with_reducible apply Only.ite)
    | (with_reducible apply Only.ite2)
    | split
    | dsimp only

theorem offerChannel_only {ps : List Part} (hl : Part.le [.regs, .tb, .xat, .hub, .opq, .fresh] ps = true) {s0_ : State} {c : Nat} {s : State} (h : Only ps s0_ s) :
    Only ps s0_ (offerChannel c s) := by
  unfold offerChannel
  try dsimp only
  repeat' first
    | (with_reducible assumption)
    | (with_reducible apply offer_only (within rfl hl))
    | (with_reducible apply forEach_only)
    | (with_reducible intro _)
    | dsimp only

theorem refreshBudgets_only {ps : List Part} (hl : Part.le [.tb] ps = true) {s0_ : State} {s : State} (h : Only ps s0_ s) :
    Only ps s0_ (refreshBudgets s) := by
  unfold refreshBudgets
  try dsimp only
  repeat' first
    | (with_reducible assumption)
    | (with_reducible apply setTb_only (within rfl hl))
    | (with_reducible apply Only.foldl)
    | (with_reducible intro _)
    | dsimp only

theorem schedulerTick_only {ps : List Part} (hl : Part.le [.regs, .tb, .timer, .xat, .hub, .opq, .fresh] ps = true) {s0_ : State} {k : Nat} {s : State} (h : Only ps s0_ s) :
    Only ps s0_ (schedulerTick k s) := by
  unfold schedulerTick
  try dsimp only
  repeat' first
    | (with_reducible assumption)
    | (with_reducible apply advanceTo_only (within rfl hl))
    | (with_reducible apply markDue_only (within rfl hl))
    | (with_reducible apply offerChannel_only (within rfl hl))
    | (with_reducible apply present_only (within rfl hl))
    | (with_reducible apply refreshBudgets_only (within rfl hl))
    | (with_reducible apply setTb_only (within rfl hl))
    | (with_reducible apply forEach_only)
    | (with_reducible intro _)
    | (with_reducible apply Only.ite)
    | (with_reducible apply Only.ite2)
    | dsimp only

theorem slotChannel_only {ps : List Part} (hl : Part.le [.regs, .mem, .ecc, .phy, .hub, .pan, .chan, .crs, .ceSecond, .log] ps = true) {s0_ : State} {c : Nat} {s : State} (h : Only ps s0_ s) :
    Only ps s0_ (slotChannel c s) := by
  unfold slotChannel
  try dsimp only
  repeat' first
    | (with_reducible assumption)
    | (with_reducible apply paceRefill_only (within rfl hl))
    | (with_reducible apply updCrs_only (within rfl hl))
    | (with_reducible apply Only.ite)
    | (with_reducible apply Only.ite2)

theorem slotStart_only {ps : List Part} (hl : Part.le [.regs, .mem, .ecc, .tb, .timer, .phy, .hub, .pan, .chan, .crs, .adc, .ceSecond, .log] ps = true) {s0_ : State} {k : Nat} {s : State} (h : Only ps s0_ s) :
    Only ps s0_ (slotStart k s) := by
  unfold slotStart
  try dsimp only
  repeat' first
    | (with_reducible assumption)
    | (with_reducible apply advanceTo_only (within rfl hl))
    | (with_reducible apply present_only (within rfl hl))
    | (with_reducible apply presentTrig_only (within rfl hl))
    | (with_reducible apply setTb_only (within rfl hl))
    | (with_reducible apply slotChannel_only (within rfl hl))
    | (with_reducible apply forEach_only)
    | (with_reducible intro _)
    | dsimp only

end Sys2Proof.Machine
end

