-- ==== Sys2Proof/Laws/OnlyHeavy.lean ====
section
/-! SUPPORT. Footprints of the operations of Machine/Heavy.lean: the parts of the state each may change. -/
namespace Sys2Proof.Machine

theorem hvCmd_only {ps : List Part} (hl : Part.le [.hub] ps = true) {s0_ : State} {p : Nat} {op : Nat} {s : State} (h : Only ps s0_ s) :
    Only ps s0_ (hvCmd p op s) := by
  unfold hvCmd
  try dsimp only
  repeat' first
    | (with_reducible assumption)
    | (with_reducible apply updHub_only (within rfl hl))
    | (with_reducible apply Only.ite)
    | (with_reducible apply Only.ite2)

theorem writeHvst_only {ps : List Part} (hl : Part.le [.port, .mir, .hub] ps = true) {s0_ : State} {p : Nat} {v : Word} {s : State} (h : Only ps s0_ s) :
    Only ps s0_ (writeHvst p v s) := by
  unfold writeHvst
  try dsimp only
  repeat' first
    | (with_reducible assumption)
    | (with_reducible apply updHub_only (within rfl hl))
    | (with_reducible apply updMir_only (within rfl hl))
    | (with_reducible apply updPort_only (within rfl hl))
    | (with_reducible apply Only.ite)
    | (with_reducible apply Only.ite2)

end Sys2Proof.Machine
end

