-- ==== Sys2Proof/Laws/OnlyChainOps.lean ====
section
/-! SUPPORT. Footprints of the operations of Machine/ChainOps.lean: the parts of the state each may change. -/
namespace Sys2Proof.Machine

theorem noteFailure_only {ps : List Part} (hl : Part.le [.upd] ps = true) {s0_ : State} {c : Nat} {s : State} (h : Only ps s0_ s) :
    Only ps s0_ (noteFailure c s) := by
  unfold noteFailure
  try dsimp only
  repeat' first
    | (with_reducible assumption)
    | (with_reducible apply Only.ite)
    | (with_reducible apply Only.ite2)
    | (with_reducible apply only_set_upd (within rfl hl))

theorem raiseTwm_only {ps : List Part} (hl : Part.le [.regs] ps = true) {s0_ : State} {f : Fld} {s : State} (h : Only ps s0_ s) :
    Only ps s0_ (raiseTwm f s) := by
  unfold raiseTwm
  try dsimp only
  repeat' first
    | (with_reducible assumption)
    | (with_reducible apply raise_only (within rfl hl))

theorem endRequest_only {ps : List Part} (hl : Part.le [.regs, .twm] ps = true) {s0_ : State} {st : Nat} {resp : List Byte} {s : State} (h : Only ps s0_ s) :
    Only ps s0_ (endRequest st resp s) := by
  unfold endRequest
  try dsimp only
  repeat' first
    | (with_reducible assumption)
    | (with_reducible apply raiseTwm_only (within rfl hl))
    | (with_reducible apply setFld_only (within rfl hl))
    | (with_reducible apply updTwm_only (within rfl hl))

theorem raiseLnk_only {ps : List Part} (hl : Part.le [.regs] ps = true) {s0_ : State} {f : Fld} {s : State} (h : Only ps s0_ s) :
    Only ps s0_ (raiseLnk f s) := by
  unfold raiseLnk
  try dsimp only
  repeat' first
    | (with_reducible assumption)
    | (with_reducible apply raise_only (within rfl hl))

theorem countDisc_only {ps : List Part} (hl : Part.le [.regs] ps = true) {s0_ : State} {n : Nat} {s : State} (h : Only ps s0_ s) :
    Only ps s0_ (countDisc n s) := by
  unfold countDisc
  try dsimp only
  repeat' first
    | (with_reducible assumption)
    | (with_reducible apply incFld_only (within rfl hl))
    | (with_reducible apply raiseLnk_only (within rfl hl))

theorem countLost_only {ps : List Part} (hl : Part.le [.regs] ps = true) {s0_ : State} {n : Nat} {s : State} (h : Only ps s0_ s) :
    Only ps s0_ (countLost n s) := by
  unfold countLost
  try dsimp only
  repeat' first
    | (with_reducible assumption)
    | (with_reducible apply incFld_only (within rfl hl))
    | (with_reducible apply raiseLnk_only (within rfl hl))

theorem pumpLink_only {ps : List Part} (hl : Part.le [.regs, .lnk] ps = true) {s0_ : State} {n k : Nat} {s : State} (h : Only ps s0_ s) :
    Only ps s0_ (pumpLink n k s) := by
  induction k generalizing s with
  | zero => exact h
  | succ k ih =>
    rw [pumpLink]
    try dsimp only
    split
    · exact h
    · exact Only.ite h (ih (setFld_only (within rfl hl) (updChain_only (within rfl hl) h)))

theorem queueFrame_only {ps : List Part} (hl : Part.le [.regs, .lnk] ps = true) {s0_ : State} {n : Nat} {f : Frame} {s : State} (h : Only ps s0_ s) :
    Only ps s0_ (queueFrame n f s) := by
  unfold queueFrame
  try dsimp only
  repeat' first
    | (with_reducible assumption)
    | (with_reducible apply pumpLink_only (within rfl hl))
    | (with_reducible apply updChain_only (within rfl hl))

theorem routeFrame_only {ps : List Part} (hl : Part.le [.regs, .lnk] ps = true) {s0_ : State} {src : Nat} {f : Frame} {s : State} (h : Only ps s0_ s) :
    Only ps s0_ (routeFrame src f s) := by
  unfold routeFrame
  try dsimp only
  repeat' first
    | (with_reducible assumption)
    | (with_reducible apply countDisc_only (within rfl hl))
    | (with_reducible apply countLost_only (within rfl hl))
    | (with_reducible apply queueFrame_only (within rfl hl))
    | (with_reducible apply Only.ite)
    | (with_reducible apply Only.ite2)
    | split
    | dsimp only

theorem answerOrigin_only {ps : List Part} (hl : Part.le [.regs, .lnk, .twm] ps = true) {s0_ : State} {o : Origin} {st : Nat} {resp : List Byte} {s : State} (h : Only ps s0_ s) :
    Only ps s0_ (answerOrigin o st resp s) := by
  unfold answerOrigin
  try dsimp only
  repeat' first
    | (with_reducible assumption)
    | (with_reducible apply endRequest_only (within rfl hl))
    | (with_reducible apply routeFrame_only (within rfl hl))
    | (with_reducible apply Only.ite)
    | (with_reducible apply Only.ite2)
    | split
    | dsimp only

theorem broadcastDown_only {ps : List Part} (hl : Part.le [.regs, .lnk] ps = true) {s0_ : State} {f : Frame} {s : State} (h : Only ps s0_ s) :
    Only ps s0_ (broadcastDown f s) := by
  unfold broadcastDown
  try dsimp only
  repeat' first
    | (with_reducible assumption)
    | (with_reducible apply queueFrame_only (within rfl hl))
    | (with_reducible apply forEach_only)
    | (with_reducible intro _)
    | (with_reducible apply Only.ite)
    | (with_reducible apply Only.ite2)
    | dsimp only

theorem sendFrame_only {ps : List Part} (hl : Part.le [.regs, .lnk] ps = true) {s0_ : State} {n : Nat} {t : FType} {dst : Nat} {payload : List Byte} {s : State} (h : Only ps s0_ s) :
    Only ps s0_ (sendFrame n t dst payload s) := by
  unfold sendFrame
  try dsimp only
  repeat' first
    | (with_reducible assumption)
    | (with_reducible apply queueFrame_only (within rfl hl))

theorem restartHoldoff_only {ps : List Part} (hl : Part.le [.regs, .enum] ps = true) {s0_ : State} {s : State} (h : Only ps s0_ s) :
    Only ps s0_ (restartHoldoff s) := by
  unfold restartHoldoff
  try dsimp only
  repeat' first
    | (with_reducible assumption)
    | (with_reducible apply setFld_only (within rfl hl))
    | (with_reducible apply updEnum_only (within rfl hl))
    | (with_reducible apply Only.ite)
    | (with_reducible apply Only.ite2)

theorem setLink_only {ps : List Part} (hl : Part.le [.regs, .lnk, .enum, .log] ps = true) {s0_ : State} {n : Nat} {st : Nat} {s : State} (h : Only ps s0_ s) :
    Only ps s0_ (setLink n st s) := by
  unfold setLink
  try dsimp only
  repeat' first
    | (with_reducible assumption)
    | (with_reducible apply post_only (within rfl hl))
    | (with_reducible apply restartHoldoff_only (within rfl hl))
    | (with_reducible apply setFld_only (within rfl hl))
    | (with_reducible apply updChain_only (within rfl hl))
    | (with_reducible apply Only.ite)
    | (with_reducible apply Only.ite2)

theorem showLevel_only {ps : List Part} (hl : Part.le [.regs] ps = true) {s0_ : State} {s : State} (h : Only ps s0_ s) :
    Only ps s0_ (showLevel s) := by
  unfold showLevel
  try dsimp only
  repeat' first
    | (with_reducible assumption)
    | (with_reducible apply setFld_only (within rfl hl))

theorem startLink_only {ps : List Part} (hl : Part.le [.regs, .lnk, .enum, .log] ps = true) {s0_ : State} {n : Nat} {s : State} (h : Only ps s0_ s) :
    Only ps s0_ (startLink n s) := by
  unfold startLink
  try dsimp only
  repeat' first
    | (with_reducible assumption)
    | (with_reducible apply setLink_only (within rfl hl))
    | (with_reducible apply Only.ite)
    | (with_reducible apply Only.ite2)

end Sys2Proof.Machine
end

