-- ==== Sys2Proof/Laws/OnlyMailbox.lean ====
section
/-! SUPPORT. Footprints of the operations of Machine/Mailbox.lean: the parts of the state each may change. -/
namespace Sys2Proof.Machine

theorem mbxDone_only {ps : List Part} (hl : Part.le [.regs, .mem, .ecc, .crs, .mbx, .lnk, .twm, .ceSecond, .log] ps = true) {s0_ : State} {c : Nat} {i : Nat} {len : Nat} {s : State} (h : Only ps s0_ s) :
    Only ps s0_ (mbxDone c i len s) := by
  unfold mbxDone
  try dsimp only
  repeat' first
    | (with_reducible assumption)
    | (with_reducible apply answerOrigin_only (within rfl hl))
    | (with_reducible apply post_only (within rfl hl))
    | (with_reducible apply seenRange_only (within rfl hl))
    | (with_reducible apply setMbx_only (within rfl hl))
    | (with_reducible apply updCrs_only (within rfl hl))
    | (with_reducible apply Only.ite)
    | (with_reducible apply Only.ite2)
    | split
    | dsimp only

theorem mbxFlush_only {ps : List Part} (hl : Part.le [.regs, .mbx, .lnk, .twm] ps = true) {s0_ : State} {c : Nat} {i : Nat} {s : State} (h : Only ps s0_ s) :
    Only ps s0_ (mbxFlush c i s) := by
  unfold mbxFlush
  try dsimp only
  repeat' first
    | (with_reducible assumption)
    | (with_reducible apply answerOrigin_only (within rfl hl))
    | (with_reducible apply setMbx_only (within rfl hl))
    | (with_reducible apply Only.ite)
    | (with_reducible apply Only.ite2)
    | split
    | dsimp only

theorem mbxFlushLane_only {ps : List Part} (hl : Part.le [.regs, .mbx, .lnk, .twm] ps = true) {s0_ : State} {c : Nat} {s : State} (h : Only ps s0_ s) :
    Only ps s0_ (mbxFlushLane c s) := by
  unfold mbxFlushLane
  try dsimp only
  repeat' first
    | (with_reducible assumption)
    | (with_reducible apply mbxFlush_only (within rfl hl))
    | (with_reducible apply forEach_only)
    | (with_reducible intro _)
    | dsimp only

theorem mbxTake_only {ps : List Part} (hl : Part.le [.mbx] ps = true) {s0_ : State} {c : Nat} {s : State} (h : Only ps s0_ s) :
    Only ps s0_ (mbxTake c s).2 := by
  unfold mbxTake
  try dsimp only
  repeat' first
    | (with_reducible assumption)
    | (with_reducible apply setMbx_only (within rfl hl))
    | split
    | dsimp only

theorem mbxFlushTaken_only {ps : List Part} (hl : Part.le [.regs, .mbx, .lnk, .twm] ps = true) {s0_ : State} {c : Nat} {s : State} (h : Only ps s0_ s) :
    Only ps s0_ (mbxFlushTaken c s) := by
  unfold mbxFlushTaken
  try dsimp only
  repeat' first
    | (with_reducible assumption)
    | (with_reducible apply mbxFlush_only (within rfl hl))
    | (with_reducible apply forEach_only)
    | (with_reducible intro _)
    | (with_reducible apply Only.ite)
    | (with_reducible apply Only.ite2)
    | split
    | dsimp only

theorem mbxNoResp_only {ps : List Part} (hl : Part.le [.regs, .mbx, .lnk, .twm, .log] ps = true) {s0_ : State} {c : Nat} {i : Nat} {s : State} (h : Only ps s0_ s) :
    Only ps s0_ (mbxNoResp c i s) := by
  unfold mbxNoResp
  try dsimp only
  repeat' first
    | (with_reducible assumption)
    | (with_reducible apply answerOrigin_only (within rfl hl))
    | (with_reducible apply post_only (within rfl hl))
    | (with_reducible apply setMbx_only (within rfl hl))
    | (with_reducible apply Only.ite)
    | (with_reducible apply Only.ite2)
    | split
    | dsimp only

theorem mbxNotTaken_only {ps : List Part} (hl : Part.le [.regs, .mbx, .lnk, .twm] ps = true) {s0_ : State} {c : Nat} {i : Nat} {s : State} (h : Only ps s0_ s) :
    Only ps s0_ (mbxNotTaken c i s) := by
  unfold mbxNotTaken
  try dsimp only
  repeat' first
    | (with_reducible assumption)
    | (with_reducible apply answerOrigin_only (within rfl hl))
    | (with_reducible apply setMbx_only (within rfl hl))
    | (with_reducible apply Only.ite)
    | (with_reducible apply Only.ite2)
    | split
    | dsimp only

theorem mbxPost_only {ps : List Part} (hl : Part.le [.regs, .mem, .ecc, .mbx, .lnk, .twm, .fresh] ps = true) {s0_ : State} {c : Nat} {o : Origin} {cmd : List Byte} {s : State} (h : Only ps s0_ s) :
    Only ps s0_ (mbxPost c o cmd s) := by
  unfold mbxPost
  try dsimp only
  repeat' first
    | (with_reducible assumption)
    | (with_reducible apply answerOrigin_only (within rfl hl))
    | (with_reducible apply clearMem_only (within rfl hl))
    | (with_reducible apply pick_only (within rfl hl))
    | (with_reducible apply setBytes_only (within rfl hl))
    | (with_reducible apply setMbx_only (within rfl hl))
    | (with_reducible apply wordsWritten_only (within rfl hl))
    | (with_reducible apply Only.ite)
    | (with_reducible apply Only.ite2)

end Sys2Proof.Machine
end

