-- ==== Sys2Proof/Laws/OnlyCourse.lean ====
section
/-! SUPPORT. Footprints of the operations of Machine/Course.lean: the parts of the state each may change. -/
namespace Sys2Proof.Machine

theorem updStrs_only {ps : List Part} (hl : Part.le [.crs] ps = true) {s0_ : State} {c : Nat} {f : Str → Str} {s : State} (h : Only ps s0_ s) :
    Only ps s0_ (updStrs c f s) := by
  unfold updStrs
  try dsimp only
  repeat' first
    | (with_reducible assumption)
    | (with_reducible apply updCrs_only (within rfl hl))
    | (with_reducible apply Only.foldl)
    | (with_reducible intro _)
    | dsimp only

theorem raiseCrs_only {ps : List Part} (hl : Part.le [.regs] ps = true) {s0_ : State} {c : Nat} {f : Fld} {s : State} (h : Only ps s0_ s) :
    Only ps s0_ (raiseCrs c f s) := by
  unfold raiseCrs
  try dsimp only
  repeat' first
    | (with_reducible assumption)
    | (with_reducible apply raise_only (within rfl hl))

theorem beginRestart_only {ps : List Part} (hl : Part.le [.regs, .crs, .log, .upd] ps = true) {s0_ : State} {c : Nat} {k : RCause} {s : State} (h : Only ps s0_ s) :
    Only ps s0_ (beginRestart c k s) := by
  unfold beginRestart
  try dsimp only
  repeat' first
    | (with_reducible assumption)
    | (with_reducible apply incFld_only (within rfl hl))
    | (with_reducible apply noteFailure_only (within rfl hl))
    | (with_reducible apply post_only (within rfl hl))
    | (with_reducible apply raiseCrs_only (within rfl hl))
    | (with_reducible apply raiseSum_only (within rfl hl))
    | (with_reducible apply setFld_only (within rfl hl))
    | (with_reducible apply updCrs_only (within rfl hl))
    | (with_reducible apply Only.ite)
    | (with_reducible apply Only.ite2)

theorem countOut_only {ps : List Part} (hl : Part.le [.crs] ps = true) {s0_ : State} {c : Nat} {i : Nat} {s : State} (h : Only ps s0_ s) :
    Only ps s0_ (countOut c i s).2 := by
  unfold countOut
  try dsimp only
  repeat' first
    | (with_reducible assumption)
    | (with_reducible apply updCrs_only (within rfl hl))
    | (with_reducible apply Only.ite)
    | (with_reducible apply Only.ite2)

theorem isolate_only {ps : List Part} (hl : Part.le [.regs, .crs] ps = true) {s0_ : State} {c : Nat} {i : Nat} {s : State} (h : Only ps s0_ s) :
    Only ps s0_ (isolate c i s) := by
  unfold isolate
  try dsimp only
  repeat' first
    | (with_reducible assumption)
    | (with_reducible apply setFld_only (within rfl hl))
    | (with_reducible apply updCrs_only (within rfl hl))

theorem park_only {ps : List Part} (hl : Part.le [.regs, .log] ps = true) {s0_ : State} {c : Nat} {i : Nat} {s : State} (h : Only ps s0_ s) :
    Only ps s0_ (park c i s) := by
  unfold park
  try dsimp only
  repeat' first
    | (with_reducible assumption)
    | (with_reducible apply post_only (within rfl hl))
    | (with_reducible apply raiseCrs_only (within rfl hl))
    | (with_reducible apply raiseSum_only (within rfl hl))
    | (with_reducible apply setFlag_only (within rfl hl))
    | (with_reducible apply setFld_only (within rfl hl))

theorem outvote_only {ps : List Part} (hl : Part.le [.regs, .crs, .log] ps = true) {s0_ : State} {c : Nat} {i : Nat} {kind : Nat} {word : Nat} {s : State} (h : Only ps s0_ s) :
    Only ps s0_ (outvote c i kind word s) := by
  unfold outvote
  try dsimp only
  repeat' first
    | (with_reducible assumption)
    | (with_reducible apply countOut_only (within rfl hl))
    | (with_reducible apply isolate_only (within rfl hl))
    | (with_reducible apply park_only (within rfl hl))
    | (with_reducible apply post_only (within rfl hl))
    | (with_reducible apply raiseCrs_only (within rfl hl))
    | (with_reducible apply setReg_only (within rfl hl))
    | (with_reducible apply Only.ite)
    | (with_reducible apply Only.ite2)

theorem bridge_only {ps : List Part} (hl : Part.le [.regs, .crs, .log, .upd] ps = true) {s0_ : State} {α : Type} [DecidableEq α] {c kind word : Nat} {f : Str → α} {k : α → State → State} {s : State} (h : Only ps s0_ s)
    (hk : ∀ v t, Only ps s0_ t → Only ps s0_ (k v t)) : Only ps s0_ (bridge c kind word f k s) := by
  unfold bridge
  try dsimp only
  split
  · exact hk _ _ h
  · exact hk _ _ (outvote_only (within rfl hl) h)
  · exact beginRestart_only (within rfl hl) h

theorem cmdRestart_only {ps : List Part} (hl : Part.le [.regs, .crs, .log, .upd] ps = true) {s0_ : State} {c : Nat} {s : State} (h : Only ps s0_ s) :
    Only ps s0_ (cmdRestart c s) := by
  unfold cmdRestart
  try dsimp only
  repeat' first
    | (with_reducible assumption)
    | (with_reducible apply beginRestart_only (within rfl hl))
    | (with_reducible apply Only.ite)
    | (with_reducible apply Only.ite2)

theorem cmdUnpark_only {ps : List Part} (hl : Part.le [.regs, .crs] ps = true) {s0_ : State} {c : Nat} {s : State} (h : Only ps s0_ s) :
    Only ps s0_ (cmdUnpark c s) := by
  unfold cmdUnpark
  try dsimp only
  repeat' first
    | (with_reducible assumption)
    | (with_reducible apply isolate_only (within rfl hl))
    | (with_reducible apply setFlag_only (within rfl hl))
    | (with_reducible apply setFld_only (within rfl hl))
    | (with_reducible apply updCrs_only (within rfl hl))
    | (with_reducible apply forEach_only)
    | (with_reducible intro _)
    | (with_reducible apply Only.ite)
    | (with_reducible apply Only.ite2)
    | dsimp only

theorem crsCmd_only {ps : List Part} (hl : Part.le [.regs, .crs, .log, .upd] ps = true) {s0_ : State} {c : Nat} {v : Word} {s : State} (h : Only ps s0_ s) :
    Only ps s0_ (crsCmd c v s) := by
  unfold crsCmd
  try dsimp only
  repeat' first
    | (with_reducible assumption)
    | (with_reducible apply cmdRestart_only (within rfl hl))
    | (with_reducible apply cmdUnpark_only (within rfl hl))
    | (with_reducible apply Only.ite)
    | (with_reducible apply Only.ite2)

theorem wdKick_only {ps : List Part} (hl : Part.le [.regs, .crs] ps = true) {s0_ : State} {c : Nat} {v : Word} {s : State} (h : Only ps s0_ s) :
    Only ps s0_ (wdKick c v s) := by
  unfold wdKick
  try dsimp only
  repeat' first
    | (with_reducible assumption)
    | (with_reducible apply raiseCrs_only (within rfl hl))
    | (with_reducible apply updCrs_only (within rfl hl))
    | (with_reducible apply Only.ite)
    | (with_reducible apply Only.ite2)

theorem restartFw_only {ps : List Part} (hl : Part.le [.fw] ps = true) {s0_ : State} {p : Nat} {s : State} (h : Only ps s0_ s) :
    Only ps s0_ (restartFw p s) := by
  unfold restartFw
  try dsimp only
  repeat' first
    | (with_reducible assumption)
    | (with_reducible apply updFw_only (within rfl hl))

theorem startCourse_only {ps : List Part} (hl : Part.le [.regs, .mem, .ecc, .fw, .crs] ps = true) {s0_ : State} {c : Nat} {s0 : State} (h : Only ps s0_ s0) :
    Only ps s0_ (startCourse c s0) := by
  unfold startCourse
  try dsimp only
  repeat' first
    | (with_reducible assumption)
    | (with_reducible apply clearMem_only (within rfl hl))
    | (with_reducible apply restartFw_only (within rfl hl))
    | (with_reducible apply setFld_only (within rfl hl))
    | (with_reducible apply updCrs_only (within rfl hl))
    | (with_reducible apply wordsWritten_only (within rfl hl))
    | (with_reducible apply forEach_only)
    | (with_reducible intro _)
    | dsimp only

theorem writeCode_only {ps : List Part} (hl : Part.le [.mem, .ecc] ps = true) {s0_ : State} {c : Nat} {code : List Byte} {s : State} (h : Only ps s0_ s) :
    Only ps s0_ (writeCode c code s) := by
  unfold writeCode
  try dsimp only
  repeat' first
    | (with_reducible assumption)
    | (with_reducible apply clearMem_only (within rfl hl))
    | (with_reducible apply setBytes_only (within rfl hl))
    | (with_reducible apply wordsWritten_only (within rfl hl))

theorem bridgeScan_only {ps : List Part} (hl : Part.le [.regs, .crs, .log, .upd] ps = true) {s0_ : State} {c : Nat} {s : State} (h : Only ps s0_ s) :
    Only ps s0_ (bridgeScan c s) := by
  unfold bridgeScan
  try dsimp only
  repeat' first
    | (with_reducible assumption)
    | (with_reducible apply bridge_only (within rfl hl))
    | (with_reducible apply updCrs_only (within rfl hl))
    | (with_reducible intro _)
    | dsimp only

theorem freeFwPans_only {ps : List Part} (hl : Part.le [.pan] ps = true) {s0_ : State} {c : Nat} {s : State} (h : Only ps s0_ s) :
    Only ps s0_ (freeFwPans c s) := by
  unfold freeFwPans
  try dsimp only
  repeat' first
    | (with_reducible assumption)
    | (with_reducible apply setPan_only (within rfl hl))
    | (with_reducible apply forEach_only)
    | (with_reducible intro _)
    | (with_reducible apply Only.ite)
    | (with_reducible apply Only.ite2)
    | dsimp only

theorem finishRestart_only {ps : List Part} (hl : Part.le [.regs, .mem, .ecc, .fw, .pan, .crs, .mbx, .lnk, .twm] ps = true) {s0_ : State} {c : Nat} {code : List Byte} {s : State} (h : Only ps s0_ s) :
    Only ps s0_ (finishRestart c code s) := by
  unfold finishRestart
  try dsimp only
  repeat' first
    | (with_reducible assumption)
    | (with_reducible apply freeFwPans_only (within rfl hl))
    | (with_reducible apply mbxFlushTaken_only (within rfl hl))
    | (with_reducible apply startCourse_only (within rfl hl))
    | (with_reducible apply writeCode_only (within rfl hl))
    | (with_reducible apply Only.ite)
    | (with_reducible apply Only.ite2)

theorem courseRestart_only {ps : List Part} (hl : Part.le [.regs, .mem, .ecc, .fw, .pan, .crs, .mbx, .lnk, .twm] ps = true) {s0_ : State} {c : Nat} {code : List Byte} {s : State} (h : Only ps s0_ s) :
    Only ps s0_ (courseRestart c code s) := by
  unfold courseRestart
  try dsimp only
  repeat' first
    | (with_reducible assumption)
    | (with_reducible apply finishRestart_only (within rfl hl))
    | (with_reducible apply Only.ite)
    | (with_reducible apply Only.ite2)

theorem courseWatchdog_only {ps : List Part} (hl : Part.le [.regs, .crs, .log, .upd] ps = true) {s0_ : State} {c : Nat} {s : State} (h : Only ps s0_ s) :
    Only ps s0_ (courseWatchdog c s) := by
  unfold courseWatchdog
  try dsimp only
  repeat' first
    | (with_reducible assumption)
    | (with_reducible apply beginRestart_only (within rfl hl))
    | (with_reducible apply post_only (within rfl hl))
    | (with_reducible apply raiseCrs_only (within rfl hl))
    | (with_reducible apply updCrs_only (within rfl hl))

theorem haltCourse_only {ps : List Part} (hl : Part.le [.regs, .crs] ps = true) {s0_ : State} {c : Nat} {s : State} (h : Only ps s0_ s) :
    Only ps s0_ (haltCourse c s) := by
  unfold haltCourse
  try dsimp only
  repeat' first
    | (with_reducible assumption)
    | (with_reducible apply setFld_only (within rfl hl))
    | (with_reducible apply updCrs_only (within rfl hl))

theorem retuneRejoin_only {ps : List Part} (hl : Part.le [.regs, .crs] ps = true) {s0_ : State} {c : Nat} {i : Nat} {s : State} (h : Only ps s0_ s) :
    Only ps s0_ (retuneRejoin c i s) := by
  unfold retuneRejoin
  try dsimp only
  repeat' first
    | (with_reducible assumption)
    | (with_reducible apply haltCourse_only (within rfl hl))
    | (with_reducible apply incFld_only (within rfl hl))
    | (with_reducible apply raiseCrs_only (within rfl hl))
    | (with_reducible apply raiseSum_only (within rfl hl))
    | (with_reducible apply setFld_only (within rfl hl))
    | (with_reducible apply updCrs_only (within rfl hl))
    | (with_reducible apply Only.ite)
    | (with_reducible apply Only.ite2)

theorem retuneStall_only {ps : List Part} (hl : Part.le [.crs] ps = true) {s0_ : State} {c : Nat} {i : Nat} {s : State} (h : Only ps s0_ s) :
    Only ps s0_ (retuneStall c i s) := by
  unfold retuneStall
  try dsimp only
  repeat' first
    | (with_reducible assumption)
    | (with_reducible apply updCrs_only (within rfl hl))
    | (with_reducible apply Only.ite)
    | (with_reducible apply Only.ite2)

end Sys2Proof.Machine
end

