-- ==== Sys2Proof/Laws/OnlyLinks.lean ====
section
/-! SUPPORT. Footprints of the operations of Machine/Links.lean: the parts of the state each may change. -/
namespace Sys2Proof.Machine

theorem answerHeld_only {ps : List Part} (hl : Part.le [.regs, .mem, .ecc, .phy, .hub, .pan, .chan, .ceSecond, .log] ps = true) {s0_ : State} {p : Nat} {s : State} (h : Only ps s0_ s) :
    Only ps s0_ (answerHeld p s) := by
  unfold answerHeld
  try dsimp only
  repeat' first
    | (with_reducible assumption)
    | (with_reducible apply answer_only (within rfl hl))
    | (with_reducible apply clearRx_only (within rfl hl))
    | (with_reducible apply dropTx_only (within rfl hl))
    | (with_reducible apply Only.ite)
    | (with_reducible apply Only.ite2)
    | split
    | dsimp only

theorem enterHold_only {ps : List Part} (hl : Part.le [.regs, .mem, .ecc, .phy, .hub, .pan, .chan, .die, .ceSecond, .log] ps = true) {s0_ : State} {d : Nat} {cause : Nat} {s : State} (h : Only ps s0_ s) :
    Only ps s0_ (enterHold d cause s) := by
  unfold enterHold
  try dsimp only
  repeat' first
    | (with_reducible assumption)
    | (with_reducible apply answerHeld_only (within rfl hl))
    | (with_reducible apply post_only (within rfl hl))
    | (with_reducible apply raiseSum_only (within rfl hl))
    | (with_reducible apply setFlag_only (within rfl hl))
    | (with_reducible apply updDie_only (within rfl hl))
    | (with_reducible apply updHub_only (within rfl hl))
    | (with_reducible apply forEach_only)
    | (with_reducible intro _)
    | (with_reducible apply Only.ite)
    | (with_reducible apply Only.ite2)
    | dsimp only

theorem dieLinkLost_only {ps : List Part} (hl : Part.le [.regs, .mem, .ecc, .phy, .hub, .pan, .chan, .die, .ceSecond, .log] ps = true) {s0_ : State} {d : Nat} {s : State} (h : Only ps s0_ s) :
    Only ps s0_ (dieLinkLost d s) := by
  unfold dieLinkLost
  try dsimp only
  repeat' first
    | (with_reducible assumption)
    | (with_reducible apply enterHold_only (within rfl hl))
    | (with_reducible apply updDie_only (within rfl hl))

theorem below_only {ps : List Part} (hl : Part.le [.fresh] ps = true) {s0_ : State} {lo : Nat} {hi : Nat} {mv : Nat} {s : State} (h : Only ps s0_ s) :
    Only ps s0_ (below lo hi mv s).2 := by
  unfold below
  try dsimp only
  repeat' first
    | (with_reducible assumption)
    | (with_reducible apply drawNat_only (within rfl hl))
    | (with_reducible apply Only.ite)
    | (with_reducible apply Only.ite2)

theorem resetPort_only {ps : List Part} (hl : Part.le [.port] ps = true) {s0_ : State} {p : Nat} {s : State} (h : Only ps s0_ s) :
    Only ps s0_ (resetPort p s) := by
  unfold resetPort
  try dsimp only
  repeat' first
    | (with_reducible assumption)
    | (with_reducible apply only_set_port (within rfl hl))

theorem dieReset_only {ps : List Part} (hl : Part.le [.regs, .dieRegs, .port, .phy, .die, .adc, .scan] ps = true) {s0_ : State} {d : Nat} {s : State} (h : Only ps s0_ s) :
    Only ps s0_ (dieReset d s) := by
  unfold dieReset
  try dsimp only
  repeat' first
    | (with_reducible assumption)
    | (with_reducible apply resetPort_only (within rfl hl))
    | (with_reducible apply setFlag_only (within rfl hl))
    | (with_reducible apply updDie_only (within rfl hl))
    | (with_reducible apply forEach_only)
    | (with_reducible intro _)
    | (with_reducible apply Only.ite)
    | (with_reducible apply Only.ite2)
    | (with_reducible apply only_set_dieRegs_phy_adc_scan (within rfl hl))
    | (with_reducible apply only_set_adc (within rfl hl))
    | (with_reducible apply only_set_dieRegs (within rfl hl))
    | (with_reducible apply only_set_phy (within rfl hl))
    | (with_reducible apply only_set_scan (within rfl hl))
    | dsimp only

theorem testRecord_only {ps : List Part} (hl : Part.le [.regs, .log] ps = true) {s0_ : State} {d : Nat} {src : Nat} {check : Nat} {s : State} (h : Only ps s0_ s) :
    Only ps s0_ (testRecord d src check s) := by
  unfold testRecord
  try dsimp only
  repeat' first
    | (with_reducible assumption)
    | (with_reducible apply post_only (within rfl hl))
    | (with_reducible apply raiseSum_only (within rfl hl))

theorem deliverTest_only {ps : List Part} (hl : Part.le [.regs, .die, .log] ps = true) {s0_ : State} {d : Nat} {s : State} (h : Only ps s0_ s) :
    Only ps s0_ (deliverTest d s) := by
  unfold deliverTest
  try dsimp only
  repeat' first
    | (with_reducible assumption)
    | (with_reducible apply setReg_only (within rfl hl))
    | (with_reducible apply testRecord_only (within rfl hl))
    | (with_reducible apply updDie_only (within rfl hl))
    | (with_reducible apply forEach_only)
    | (with_reducible intro _)
    | dsimp only

theorem detachRecord_only {ps : List Part} (hl : Part.le [.regs, .log, .fresh] ps = true) {s0_ : State} {p : Nat} {s : State} (h : Only ps s0_ s) :
    Only ps s0_ (detachRecord p s) := by
  unfold detachRecord
  try dsimp only
  repeat' first
    | (with_reducible assumption)
    | (with_reducible apply drawNat_only (within rfl hl))
    | (with_reducible apply drawWord_only (within rfl hl))
    | (with_reducible apply post_only (within rfl hl))

theorem startPort_only {ps : List Part} (hl : Part.le [.port, .mir] ps = true) {s0_ : State} {p : Nat} {s : State} (h : Only ps s0_ s) :
    Only ps s0_ (startPort p s) := by
  unfold startPort
  try dsimp only
  repeat' first
    | (with_reducible assumption)
    | (with_reducible apply updPort_only (within rfl hl))
    | (with_reducible apply Only.ite)
    | (with_reducible apply Only.ite2)

theorem dieRelease_only {ps : List Part} (hl : Part.le [.regs, .dieRegs, .port, .mir, .die, .adc] ps = true) {s0_ : State} {d : Nat} {s : State} (h : Only ps s0_ s) :
    Only ps s0_ (dieRelease d s) := by
  unfold dieRelease
  try dsimp only
  repeat' first
    | (with_reducible assumption)
    | (with_reducible apply startCal_only (within rfl hl))
    | (with_reducible apply startPort_only (within rfl hl))
    | (with_reducible apply updDie_only (within rfl hl))
    | (with_reducible apply forEach_only)
    | (with_reducible intro _)
    | dsimp only

theorem downPort_only {ps : List Part} (hl : Part.le [.regs, .port, .mir, .hub, .opq, .chan, .fresh] ps = true) {s0_ : State} {p : Nat} {s : State} (h : Only ps s0_ s) :
    Only ps s0_ (downPort p s) := by
  unfold downPort
  try dsimp only
  repeat' first
    | (with_reducible assumption)
    | (with_reducible apply powerDown_only (within rfl hl))
    | (with_reducible apply Only.ite)
    | (with_reducible apply Only.ite2)

theorem holdExpire_only {ps : List Part} (hl : Part.le [.regs, .port, .mir, .hub, .opq, .chan, .die, .log, .fresh] ps = true) {s0_ : State} {d : Nat} {s : State} (h : Only ps s0_ s) :
    Only ps s0_ (holdExpire d s) := by
  unfold holdExpire
  try dsimp only
  repeat' first
    | (with_reducible assumption)
    | (with_reducible apply downPort_only (within rfl hl))
    | (with_reducible apply post_only (within rfl hl))
    | (with_reducible apply updDie_only (within rfl hl))
    | (with_reducible apply forEach_only)
    | (with_reducible intro _)
    | (with_reducible apply Only.ite)
    | (with_reducible apply Only.ite2)
    | dsimp only

theorem expireFirst_only {ps : List Part} (hl : Part.le [.regs, .port, .mir, .hub, .opq, .chan, .die, .log, .fresh] ps = true) {s0_ : State} {d : Nat} {s : State} (h : Only ps s0_ s) :
    Only ps s0_ (expireFirst d s) := by
  unfold expireFirst
  try dsimp only
  repeat' first
    | (with_reducible assumption)
    | (with_reducible apply holdExpire_only (within rfl hl))
    | (with_reducible apply Only.ite)
    | (with_reducible apply Only.ite2)
    | split
    | dsimp only

theorem latchLink_only {ps : List Part} (hl : Part.le [.crs] ps = true) {s0_ : State} {d : Nat} {s : State} (h : Only ps s0_ s) :
    Only ps s0_ (latchLink d s) := by
  unfold latchLink
  try dsimp only
  repeat' first
    | (with_reducible assumption)
    | (with_reducible apply updCrs_only (within rfl hl))

theorem hubLinkLost_only {ps : List Part} (hl : Part.le [.regs, .die, .crs, .log] ps = true) {s0_ : State} {d : Nat} {three : Bool} {s : State} (h : Only ps s0_ s) :
    Only ps s0_ (hubLinkLost d three s) := by
  unfold hubLinkLost
  try dsimp only
  repeat' first
    | (with_reducible assumption)
    | (with_reducible apply incFld_only (within rfl hl))
    | (with_reducible apply latchLink_only (within rfl hl))
    | (with_reducible apply post_only (within rfl hl))
    | (with_reducible apply setFlag_only (within rfl hl))
    | (with_reducible apply updDie_only (within rfl hl))
    | (with_reducible apply Only.ite)
    | (with_reducible apply Only.ite2)

theorem lateResult_only {ps : List Part} (hl : Part.le [.regs, .mem, .phy, .fw, .chan] ps = true) {s0_ : State} {p : Nat} {e : EvKind × Nat × BitVec 32} {s : State} (h : Only ps s0_ s) :
    Only ps s0_ (lateResult p e s) := by
  unfold lateResult
  try dsimp only
  repeat' first
    | (with_reducible assumption)
    | (with_reducible apply endChain_only (within rfl hl))
    | (with_reducible apply stampChain_only (within rfl hl))
    | (with_reducible apply txFailed_only (within rfl hl))
    | split
    | dsimp only

theorem resumePort_only {ps : List Part} (hl : Part.le [.regs, .mem, .ecc, .phy, .hub, .pan, .chan, .ceSecond, .log] ps = true) {s0_ : State} {p : Nat} {s : State} (h : Only ps s0_ s) :
    Only ps s0_ (resumePort p s) := by
  unfold resumePort
  try dsimp only
  repeat' first
    | (with_reducible assumption)
    | (with_reducible apply fillTx_only (within rfl hl))
    | (with_reducible apply updPhy_only (within rfl hl))
    | (with_reducible apply Only.ite)
    | (with_reducible apply Only.ite2)

theorem leaveHold_only {ps : List Part} (hl : Part.le [.regs, .mem, .ecc, .phy, .hub, .pan, .chan, .die, .ceSecond, .log] ps = true) {s0_ : State} {d : Nat} {s : State} (h : Only ps s0_ s) :
    Only ps s0_ (leaveHold d s) := by
  unfold leaveHold
  try dsimp only
  repeat' first
    | (with_reducible assumption)
    | (with_reducible apply deliverTest_only (within rfl hl))
    | (with_reducible apply post_only (within rfl hl))
    | (with_reducible apply resumePort_only (within rfl hl))
    | (with_reducible apply setFlag_only (within rfl hl))
    | (with_reducible apply updDie_only (within rfl hl))
    | (with_reducible apply forEach_only)
    | (with_reducible intro _)
    | dsimp only

theorem mirrorEvents_only {ps : List Part} (hl : Part.le [.regs, .mem, .ecc, .port, .mir, .phy, .hub, .ctx, .pan, .opq, .chan, .log, .fresh] ps = true) {s0_ : State} {p : Nat} {x : Port} {s : State} (h : Only ps s0_ s) :
    Only ps s0_ (mirrorEvents p x s) := by
  unfold mirrorEvents
  try dsimp only
  repeat' first
    | (with_reducible assumption)
    | (with_reducible apply abortOps_only (within rfl hl))
    | (with_reducible apply detachRecord_only (within rfl hl))
    | (with_reducible apply hubDiscard_only (within rfl hl))
    | (with_reducible apply hubGone_only (within rfl hl))
    | (with_reducible apply post_only (within rfl hl))
    | (with_reducible apply setFld_only (within rfl hl))
    | (with_reducible apply setReg_only (within rfl hl))
    | (with_reducible apply updPort_only (within rfl hl))
    | (with_reducible apply Only.ite)
    | (with_reducible apply Only.ite2)

theorem raiseBits_only {ps : List Part} (hl : Part.le [.regs] ps = true) {s0_ : State} {p : Nat} {evt : Nat} {en : Nat} {n : Nat} {v : Nat} {s : State} (h : Only ps s0_ s) :
    Only ps s0_ (raiseBits p evt en n v s) := by
  unfold raiseBits
  try dsimp only
  repeat' first
    | (with_reducible assumption)
    | (with_reducible apply raisePrt_only (within rfl hl))
    | (with_reducible apply forEach_only)
    | (with_reducible intro _)
    | (with_reducible apply Only.ite)
    | (with_reducible apply Only.ite2)
    | dsimp only

theorem mirrorResults_only {ps : List Part} (hl : Part.le [.regs, .mem, .port, .mir, .phy, .fw, .opq, .chan] ps = true) {s0_ : State} {p : Nat} {x : Port} {s : State} (h : Only ps s0_ s) :
    Only ps s0_ (mirrorResults p x s) := by
  unfold mirrorResults
  try dsimp only
  repeat' first
    | (with_reducible assumption)
    | (with_reducible apply lateResult_only (within rfl hl))
    | (with_reducible apply opResult_only (within rfl hl))
    | (with_reducible apply raiseBits_only (within rfl hl))
    | (with_reducible apply setFld_only (within rfl hl))
    | (with_reducible apply updPhy_only (within rfl hl))
    | (with_reducible apply updPort_only (within rfl hl))
    | (with_reducible apply forEach_only)
    | (with_reducible intro _)
    | dsimp only

theorem resetMirrorPort_only {ps : List Part} (hl : Part.le [.regs, .dieRegs, .mem, .ecc, .port, .mir, .phy, .hub, .ctx, .pan, .opq, .chan, .fresh] ps = true) {s0_ : State} {p : Nat} {old : PState} {s : State} (h : Only ps s0_ s) :
    Only ps s0_ (resetMirrorPort p old s) := by
  unfold resetMirrorPort
  try dsimp only
  repeat' first
    | (with_reducible assumption)
    | (with_reducible apply clearHeavy_only (within rfl hl))
    | (with_reducible apply hubDiscard_only (within rfl hl))
    | (with_reducible apply hubGone_only (within rfl hl))
    | (with_reducible apply stopKa_only (within rfl hl))
    | (with_reducible apply updHub_only (within rfl hl))
    | (with_reducible apply Only.ite)
    | (with_reducible apply Only.ite2)

theorem mirrorPort_only {ps : List Part} (hl : Part.le [.regs, .dieRegs, .mem, .ecc, .xat, .port, .mir, .phy, .hub, .fw, .ctx, .pan, .opq, .chan, .log, .fresh] ps = true) {s0_ : State} {reset : Bool} {p : Nat} {s : State} (h : Only ps s0_ s) :
    Only ps s0_ (mirrorPort reset p s) := by
  unfold mirrorPort
  try dsimp only
  repeat' first
    | (with_reducible assumption)
    | (with_reducible apply hubAttach_only (within rfl hl))
    | (with_reducible apply mirrorEvents_only (within rfl hl))
    | (with_reducible apply mirrorResults_only (within rfl hl))
    | (with_reducible apply resetMirrorPort_only (within rfl hl))
    | (with_reducible apply updHub_only (within rfl hl))
    | (with_reducible apply updPort_only (within rfl hl))
    | (with_reducible apply Only.ite)
    | (with_reducible apply Only.ite2)

theorem mirrorUnit_only {ps : List Part} (hl : Part.le [.regs, .dieRegs, .adc, .log] ps = true) {s0_ : State} {u : Nat} {s : State} (h : Only ps s0_ s) :
    Only ps s0_ (mirrorUnit u s) := by
  unfold mirrorUnit
  try dsimp only
  repeat' first
    | (with_reducible assumption)
    | (with_reducible apply calRecord_only (within rfl hl))
    | (with_reducible apply setDieReg_only (within rfl hl))
    | (with_reducible apply setReg_only (within rfl hl))
    | (with_reducible apply updAdc_only (within rfl hl))
    | (with_reducible apply forEach_only)
    | (with_reducible intro _)
    | (with_reducible apply Only.ite)
    | (with_reducible apply Only.ite2)
    | split
    | dsimp only

theorem sendSettings_only {ps : List Part} (hl : Part.le [.regs, .dieRegs, .mem, .ecc, .xat, .port, .mir, .phy, .hub, .ctx, .pan, .opq, .chan, .adc, .log, .fresh] ps = true) {s0_ : State} {p : Nat} {s : State} (h : Only ps s0_ s) :
    Only ps s0_ (sendSettings p s) := by
  unfold sendSettings
  try dsimp only
  repeat' first
    | (with_reducible assumption)
    | (with_reducible apply checkFt_only (within rfl hl))
    | (with_reducible apply fireDeadline_only (within rfl hl))
    | (with_reducible apply goOff_only (within rfl hl))
    | (with_reducible apply leaveOff_only (within rfl hl))
    | (with_reducible apply setDieReg_only (within rfl hl))
    | (with_reducible apply stopDeadline_only (within rfl hl))
    | (with_reducible apply unlock_only (within rfl hl))
    | (with_reducible apply updHub_only (within rfl hl))
    | (with_reducible apply updPhy_only (within rfl hl))
    | (with_reducible apply forEach_only)
    | (with_reducible intro _)
    | (with_reducible apply Only.ite)
    | (with_reducible apply Only.ite2)
    | dsimp only

theorem linkComesUp_only {ps : List Part} (hl : Part.le [.regs, .dieRegs, .mem, .ecc, .xat, .port, .mir, .phy, .hub, .fw, .ctx, .pan, .opq, .chan, .die, .crs, .adc, .log, .fresh] ps = true) {s0_ : State} {d : Nat} {s : State} (h : Only ps s0_ s) :
    Only ps s0_ (linkComesUp d s) := by
  unfold linkComesUp
  try dsimp only
  repeat' first
    | (with_reducible assumption)
    | (with_reducible apply deliverTest_only (within rfl hl))
    | (with_reducible apply drawWord_only (within rfl hl))
    | (with_reducible apply latchLink_only (within rfl hl))
    | (with_reducible apply mirrorPort_only (within rfl hl))
    | (with_reducible apply mirrorUnit_only (within rfl hl))
    | (with_reducible apply post_only (within rfl hl))
    | (with_reducible apply queueXfer_only (within rfl hl))
    | (with_reducible apply sendSettings_only (within rfl hl))
    | (with_reducible apply serveMarks_only (within rfl hl))
    | (with_reducible apply setFlag_only (within rfl hl))
    | (with_reducible apply updDie_only (within rfl hl))
    | (with_reducible apply forEach_only)
    | (with_reducible intro _)
    | (with_reducible apply Only.ite)
    | (with_reducible apply Only.ite2)
    | split
    | dsimp only

theorem portDieLinkLoss_only {ps : List Part} (hl : Part.le [.regs, .mem, .ecc, .phy, .hub, .pan, .chan, .die, .crs, .ceSecond, .log] ps = true) {s0_ : State} {d : Nat} {hub : Bool} {three : Bool} {s : State} (h : Only ps s0_ s) :
    Only ps s0_ (portDieLinkLoss d hub three s) := by
  unfold portDieLinkLoss
  try dsimp only
  repeat' first
    | (with_reducible assumption)
    | (with_reducible apply dieLinkLost_only (within rfl hl))
    | (with_reducible apply hubLinkLost_only (within rfl hl))
    | (with_reducible apply Only.ite)
    | (with_reducible apply Only.ite2)

theorem setTest_only {ps : List Part} (hl : Part.le [.dieRegs] ps = true) {s0_ : State} {a : Nat} {f : Fld} {v : Nat} {s : State} (h : Only ps s0_ s) :
    Only ps s0_ (setTest a f v s) := by
  unfold setTest
  try dsimp only
  repeat' first
    | (with_reducible assumption)
    | (with_reducible apply setDieReg_only (within rfl hl))

theorem testFailed_only {ps : List Part} (hl : Part.le [.regs, .die, .log] ps = true) {s0_ : State} {d : Nat} {src : Nat} {check : Nat} {s : State} (h : Only ps s0_ s) :
    Only ps s0_ (testFailed d src check s) := by
  unfold testFailed
  try dsimp only
  repeat' first
    | (with_reducible assumption)
    | (with_reducible apply testRecord_only (within rfl hl))
    | (with_reducible apply updDie_only (within rfl hl))
    | (with_reducible apply Only.ite)
    | (with_reducible apply Only.ite2)

theorem testPortFailed_only {ps : List Part} (hl : Part.le [.regs, .dieRegs, .port, .mir, .hub, .opq, .chan, .die, .log, .fresh] ps = true) {s0_ : State} {d : Nat} {i : Nat} {check : Nat} {s : State} (h : Only ps s0_ s) :
    Only ps s0_ (testPortFailed d i check s) := by
  unfold testPortFailed
  try dsimp only
  repeat' first
    | (with_reducible assumption)
    | (with_reducible apply downPort_only (within rfl hl))
    | (with_reducible apply setTest_only (within rfl hl))
    | (with_reducible apply testFailed_only (within rfl hl))
    | (with_reducible apply updPort_only (within rfl hl))
    | (with_reducible apply Only.ite)
    | (with_reducible apply Only.ite2)

theorem testSpare_only {ps : List Part} (hl : Part.le [.regs, .dieRegs, .die, .log] ps = true) {s0_ : State} {d : Nat} {r : StResult} {s : State} (h : Only ps s0_ s) :
    Only ps s0_ (testSpare d r s) := by
  unfold testSpare
  try dsimp only
  repeat' first
    | (with_reducible assumption)
    | (with_reducible apply raiseSum_only (within rfl hl))
    | (with_reducible apply setTest_only (within rfl hl))
    | (with_reducible apply testFailed_only (within rfl hl))
    | (with_reducible apply Only.ite)
    | (with_reducible apply Only.ite2)
    | split
    | dsimp only

theorem selftestStep_only {ps : List Part} (hl : Part.le [.regs, .dieRegs, .port, .mir, .hub, .opq, .chan, .die, .log, .fresh] ps = true) {s0_ : State} {d : Nat} {r : StResult} {s : State} (h : Only ps s0_ s) :
    Only ps s0_ (selftestStep d r s) := by
  unfold selftestStep
  try dsimp only
  repeat' first
    | (with_reducible assumption)
    | (with_reducible apply setReg_only (within rfl hl))
    | (with_reducible apply setTest_only (within rfl hl))
    | (with_reducible apply testPortFailed_only (within rfl hl))
    | (with_reducible apply testSpare_only (within rfl hl))
    | (with_reducible apply updDie_only (within rfl hl))
    | (with_reducible apply forEach_only)
    | (with_reducible intro _)
    | (with_reducible apply Only.ite)
    | (with_reducible apply Only.ite2)
    | split
    | dsimp only

end Sys2Proof.Machine
end

