-- ==== Sys2Proof/Laws/OnlyMemories.lean ====
section
/-! SUPPORT. Footprints of the operations of Machine/Memories.lean: the parts of the state each may change. -/
namespace Sys2Proof.Machine

theorem clearChannel_only {ps : List Part} (hl : Part.le [.regs, .mem, .ecc, .xat, .ctx, .pan, .opq, .chan, .crs] ps = true) {s0_ : State} {c : Nat} {s : State} (h : Only ps s0_ s) :
    Only ps s0_ (clearChannel c s) := by
  unfold clearChannel
  try dsimp only
  repeat' first
    | (with_reducible assumption)
    | (with_reducible apply clearMem_only (within rfl hl))
    | (with_reducible apply updChan_only (within rfl hl))
    | (with_reducible apply updCrs_only (within rfl hl))
    | (with_reducible apply wordsWritten_only (within rfl hl))
    | (with_reducible apply Only.foldl)
    | (with_reducible intro _)
    | (with_reducible apply only_set_regs_xat_ctx_pan_opq (within rfl hl))
    | (with_reducible apply only_set_ctx (within rfl hl))
    | (with_reducible apply only_set_opq (within rfl hl))
    | (with_reducible apply only_set_pan (within rfl hl))
    | (with_reducible apply only_set_regs (within rfl hl))
    | (with_reducible apply only_set_xat (within rfl hl))
    | dsimp only

theorem cutLink_only {ps : List Part} (hl : Part.le [.regs, .mem, .ecc, .phy, .hub, .pan, .chan, .die, .ceSecond, .log] ps = true) {s0_ : State} {d : Nat} {s : State} (h : Only ps s0_ s) :
    Only ps s0_ (cutLink d s) := by
  unfold cutLink
  try dsimp only
  repeat' first
    | (with_reducible assumption)
    | (with_reducible apply dieLinkLost_only (within rfl hl))
    | (with_reducible apply setFlag_only (within rfl hl))
    | (with_reducible apply Only.ite)
    | (with_reducible apply Only.ite2)

theorem resetHubPort_only {ps : List Part} (hl : Part.le [.port, .phy, .hub, .fw] ps = true) {s0_ : State} {p : Nat} {s : State} (h : Only ps s0_ s) :
    Only ps s0_ (resetHubPort p s) := by
  unfold resetHubPort
  try dsimp only
  repeat' first
    | (with_reducible assumption)
    | (with_reducible apply updFw_only (within rfl hl))
    | (with_reducible apply updHub_only (within rfl hl))
    | (with_reducible apply updPhy_only (within rfl hl))
    | (with_reducible apply only_set_port (within rfl hl))

theorem resetChannel_only {ps : List Part} (hl : Part.le [.regs, .mem, .ecc, .xat, .port, .phy, .hub, .fw, .ctx, .pan, .opq, .chan, .die, .crs, .mbx, .lnk, .twm, .ceSecond, .log, .boot] ps = true) {s0_ : State} {c : Nat} {cause : Fld} {s : State} (h : Only ps s0_ s) :
    Only ps s0_ (resetChannel c cause s) := by
  unfold resetChannel
  try dsimp only
  repeat' first
    | (with_reducible assumption)
    | (with_reducible apply clearChannel_only (within rfl hl))
    | (with_reducible apply cutLink_only (within rfl hl))
    | (with_reducible apply mbxFlushLane_only (within rfl hl))
    | (with_reducible apply resetHubPort_only (within rfl hl))
    | (with_reducible apply setFld_only (within rfl hl))
    | (with_reducible apply updChan_only (within rfl hl))
    | (with_reducible apply forEach_only)
    | (with_reducible intro _)
    | (with_reducible apply Only.ite)
    | (with_reducible apply Only.ite2)
    | (with_reducible apply only_set_boot (within rfl hl))
    | dsimp only

theorem writeChrst_only {ps : List Part} (hl : Part.le [.regs, .mem, .ecc, .xat, .port, .phy, .hub, .fw, .ctx, .pan, .opq, .chan, .die, .crs, .mbx, .lnk, .twm, .ceSecond, .log, .boot] ps = true) {s0_ : State} {v : Word} {s : State} (h : Only ps s0_ s) :
    Only ps s0_ (writeChrst v s) := by
  unfold writeChrst
  try dsimp only
  repeat' first
    | (with_reducible assumption)
    | (with_reducible apply resetChannel_only (within rfl hl))
    | (with_reducible apply forEach_only)
    | (with_reducible intro _)
    | (with_reducible apply Only.ite)
    | (with_reducible apply Only.ite2)
    | dsimp only

theorem channelWatchdog_only {ps : List Part} (hl : Part.le [.regs, .mem, .ecc, .xat, .port, .phy, .hub, .fw, .ctx, .pan, .opq, .chan, .die, .crs, .mbx, .lnk, .twm, .ceSecond, .log, .boot, .upd] ps = true) {s0_ : State} {c : Nat} {s : State} (h : Only ps s0_ s) :
    Only ps s0_ (channelWatchdog c s) := by
  unfold channelWatchdog
  try dsimp only
  repeat' first
    | (with_reducible assumption)
    | (with_reducible apply noteFailure_only (within rfl hl))
    | (with_reducible apply post_only (within rfl hl))
    | (with_reducible apply raiseSum_only (within rfl hl))
    | (with_reducible apply resetChannel_only (within rfl hl))

theorem dropStaged_only {ps : List Part} (hl : Part.le [.regs, .ecc, .log] ps = true) {s0_ : State} {n : Nat} {s : State} (h : Only ps s0_ s) :
    Only ps s0_ (dropStaged n s) := by
  unfold dropStaged
  try dsimp only
  repeat' first
    | (with_reducible assumption)
    | (with_reducible apply dropRec_only (within rfl hl))
    | (with_reducible apply wordsWritten_only (within rfl hl))
    | (with_reducible apply Only.ite)
    | (with_reducible apply Only.ite2)
    | (with_reducible apply only_set_log (within rfl hl))

theorem readStaged_only {ps : List Part} (hl : Part.le [.regs, .mem, .ecc, .ceSecond, .log] ps = true) {s0_ : State} {n : Nat} {s : State} (h : Only ps s0_ s) :
    Only ps s0_ (readStaged n s) := by
  unfold readStaged
  try dsimp only
  repeat' first
    | (with_reducible assumption)
    | (with_reducible apply dropStaged_only (within rfl hl))
    | (with_reducible apply seenRange_only (within rfl hl))
    | (with_reducible apply forEach_only)
    | (with_reducible intro _)
    | (with_reducible apply Only.ite)
    | (with_reducible apply Only.ite2)
    | dsimp only

theorem logProgram_only {ps : List Part} (hl : Part.le [.regs, .mem, .ecc, .ceSecond, .log, .nvmA, .nvmB] ps = true) {s0_ : State} {n : Nat} {s0 : State} (h : Only ps s0_ s0) :
    Only ps s0_ (logProgram n s0) := by
  unfold logProgram
  try dsimp only
  repeat' first
    | (with_reducible assumption)
    | (with_reducible apply readStaged_only (within rfl hl))
    | (with_reducible apply Only.ite)
    | (with_reducible apply Only.ite2)
    | (with_reducible apply only_set_log_nvmA_nvmB (within rfl hl))
    | (with_reducible apply only_set_log (within rfl hl))
    | (with_reducible apply only_set_nvmA (within rfl hl))
    | (with_reducible apply only_set_nvmB (within rfl hl))

theorem waitAtRelease_only {ps : List Part} (hl : Part.le [.regs, .hub] ps = true) {s0_ : State} {p : Nat} {s : State} (h : Only ps s0_ s) :
    Only ps s0_ (waitAtRelease p s) := by
  unfold waitAtRelease
  try dsimp only
  repeat' first
    | (with_reducible assumption)
    | (with_reducible apply setWaiting_only (within rfl hl))
    | (with_reducible apply updHub_only (within rfl hl))
    | (with_reducible apply Only.ite)
    | (with_reducible apply Only.ite2)

theorem releaseChannel_only {ps : List Part} (hl : Part.le [.regs, .hub, .chan] ps = true) {s0_ : State} {c : Nat} {s : State} (h : Only ps s0_ s) :
    Only ps s0_ (releaseChannel c s) := by
  unfold releaseChannel
  try dsimp only
  repeat' first
    | (with_reducible assumption)
    | (with_reducible apply updChan_only (within rfl hl))
    | (with_reducible apply waitAtRelease_only (within rfl hl))
    | (with_reducible apply forEach_only)
    | (with_reducible intro _)
    | dsimp only

theorem rewriteWord_only {ps : List Part} (hl : Part.le [.regs, .mem, .ecc] ps = true) {s0_ : State} {id : Nat} {off : Nat} {w : BitVec 64} {s : State} (h : Only ps s0_ s) :
    Only ps s0_ (rewriteWord id off w s) := by
  unfold rewriteWord
  try dsimp only
  repeat' first
    | (with_reducible assumption)
    | (with_reducible apply setBytes_only (within rfl hl))
    | (with_reducible apply setReg_only (within rfl hl))
    | (with_reducible apply wordsWritten_only (within rfl hl))
    | (with_reducible apply Only.ite)
    | (with_reducible apply Only.ite2)
    | split
    | dsimp only

theorem scrubPass_only {ps : List Part} (hl : Part.le [.regs, .scrubs, .scrubStart] ps = true) {s0_ : State} {id : Nat} {s : State} (h : Only ps s0_ s) :
    Only ps s0_ (scrubPass id s) := by
  unfold scrubPass
  try dsimp only
  repeat' first
    | (with_reducible assumption)
    | (with_reducible apply setReg_only (within rfl hl))
    | (with_reducible apply Only.foldl)
    | (with_reducible intro _)
    | (with_reducible apply Only.ite)
    | (with_reducible apply Only.ite2)
    | (with_reducible apply only_set_scrubs_scrubStart (within rfl hl))
    | (with_reducible apply only_set_scrubStart (within rfl hl))
    | (with_reducible apply only_set_scrubs (within rfl hl))
    | dsimp only

theorem uecc_only {ps : List Part} (hl : Part.le [.regs, .mem, .ecc, .xat, .port, .phy, .hub, .fw, .ctx, .pan, .opq, .chan, .die, .crs, .mbx, .lnk, .twm, .ceSecond, .clk, .log, .boot] ps = true) {s0_ : State} {c : Nat} {off : Nat} {scrub : Bool} {s : State} (h : Only ps s0_ s) :
    Only ps s0_ (uecc c off scrub s) := by
  unfold uecc
  try dsimp only
  repeat' first
    | (with_reducible assumption)
    | (with_reducible apply foundUe_only (within rfl hl))
    | (with_reducible apply resetChannel_only (within rfl hl))
    | (with_reducible apply wakeUp_only (within rfl hl))

theorem scrubWord_only {ps : List Part} (hl : Part.le [.regs, .mem, .ecc, .xat, .port, .phy, .hub, .fw, .ctx, .pan, .opq, .chan, .die, .crs, .mbx, .lnk, .twm, .ceSecond, .clk, .log, .boot] ps = true) {s0_ : State} {id : Nat} {off : Nat} {s : State} (h : Only ps s0_ s) :
    Only ps s0_ (scrubWord id off s) := by
  unfold scrubWord
  try dsimp only
  repeat' first
    | (with_reducible assumption)
    | (with_reducible apply decodeWord_only (within rfl hl))
    | (with_reducible apply dropStaged_only (within rfl hl))
    | (with_reducible apply uecc_only (within rfl hl))
    | (with_reducible apply Only.ite)
    | (with_reducible apply Only.ite2)

theorem scrubStep_only {ps : List Part} (hl : Part.le [.regs, .mem, .ecc, .xat, .port, .phy, .hub, .fw, .ctx, .pan, .opq, .chan, .die, .crs, .mbx, .lnk, .twm, .scrubs, .scrubStart, .ceSecond, .clk, .log, .boot] ps = true) {s0_ : State} {id : Nat} {s : State} (h : Only ps s0_ s) :
    Only ps s0_ (scrubStep id s) := by
  unfold scrubStep
  try dsimp only
  repeat' first
    | (with_reducible assumption)
    | (with_reducible apply scrubPass_only (within rfl hl))
    | (with_reducible apply scrubWord_only (within rfl hl))
    | (with_reducible apply Only.ite)
    | (with_reducible apply Only.ite2)
    | (with_reducible apply only_set_scrubs (within rfl hl))

end Sys2Proof.Machine
end

