-- ==== Sys2Proof/Laws/OnlyFuse.lean ====
section
/-! SUPPORT. Footprints of the operations of Machine/Fuse.lean: the parts of the state each may change. -/
namespace Sys2Proof.Machine

theorem setPhase_only {ps : List Part} (hl : Part.le [.regs] ps = true) {s0_ : State} {v : Nat} {s : State} (h : Only ps s0_ s) :
    Only ps s0_ (setPhase v s) := by
  unfold setPhase
  try dsimp only
  repeat' first
    | (with_reducible assumption)
    | (with_reducible apply setFld_only (within rfl hl))

theorem otpCommand_only {ps : List Part} (hl : Part.le [.regs, .otp] ps = true) {s0_ : State} {op : OtpOp} {vpp : Nat} {s : State} (h : Only ps s0_ s) :
    Only ps s0_ (otpCommand op vpp s) := by
  unfold otpCommand
  try dsimp only
  repeat' first
    | (with_reducible assumption)
    | (with_reducible apply setFld_only (within rfl hl))
    | split
    | (with_reducible apply only_set_otp (within rfl hl))
    | dsimp only

theorem blowBits_only {ps : List Part} (hl : Part.le [.fuse, .weak] ps = true) {s0_ : State} {w : Nat} {bits : Word} {s : State} (h : Only ps s0_ s) :
    Only ps s0_ (blowBits w bits s) := by
  unfold blowBits
  try dsimp only
  repeat' first
    | (with_reducible assumption)
    | (with_reducible apply only_set_fuse_weak (within rfl hl))
    | (with_reducible apply only_set_fuse (within rfl hl))
    | (with_reducible apply only_set_weak (within rfl hl))

theorem bootFailed_only {ps : List Part} (hl : Part.le [.regs, .log] ps = true) {s0_ : State} {s : State} (h : Only ps s0_ s) :
    Only ps s0_ (bootFailed s) := by
  unfold bootFailed
  try dsimp only
  repeat' first
    | (with_reducible assumption)
    | (with_reducible apply post_only (within rfl hl))
    | (with_reducible apply setPhase_only (within rfl hl))

theorem fuseDiff_only {ps : List Part} (hl : Part.le [.regs, .log] ps = true) {s0_ : State} {rd : Nat → Word} {mg : Nat → Word} {w : Nat} {s : State} (h : Only ps s0_ s) :
    Only ps s0_ (fuseDiff rd mg w s) := by
  unfold fuseDiff
  try dsimp only
  repeat' first
    | (with_reducible assumption)
    | (with_reducible apply incFld_only (within rfl hl))
    | (with_reducible apply post_only (within rfl hl))
    | (with_reducible apply raiseSum_only (within rfl hl))
    | (with_reducible apply setFld_only (within rfl hl))

theorem fuseReread_only {ps : List Part} (hl : Part.le [.regs, .log, .otp] ps = true) {s0_ : State} {drift : List (BitVec 8 × Word × Word)} {s : State} (h : Only ps s0_ s) :
    Only ps s0_ (fuseReread drift s) := by
  unfold fuseReread
  try dsimp only
  repeat' first
    | (with_reducible assumption)
    | (with_reducible apply fuseDiff_only (within rfl hl))
    | (with_reducible apply setReg_only (within rfl hl))
    | (with_reducible apply forEach_only)
    | (with_reducible intro _)
    | (with_reducible apply Only.ite)
    | (with_reducible apply Only.ite2)
    | split
    | (with_reducible apply only_set_otp (within rfl hl))
    | dsimp only

theorem latchTrims_only {ps : List Part} (hl : Part.le [.die] ps = true) {s0_ : State} {rd : Nat → Word} {s : State} (h : Only ps s0_ s) :
    Only ps s0_ (latchTrims rd s) := by
  unfold latchTrims
  try dsimp only
  repeat' first
    | (with_reducible assumption)
    | (with_reducible apply updDie_only (within rfl hl))
    | (with_reducible apply forEach_only)
    | (with_reducible intro _)
    | dsimp only

theorem loadIdentity_only {ps : List Part} (hl : Part.le [.regs] ps = true) {s0_ : State} {rd : Nat → Word} {s : State} (h : Only ps s0_ s) :
    Only ps s0_ (loadIdentity rd s) := by
  unfold loadIdentity
  try dsimp only
  repeat' first
    | (with_reducible assumption)
    | (with_reducible apply setReg_only (within rfl hl))
    | (with_reducible apply Only.ite)
    | (with_reducible apply Only.ite2)

theorem loadOtp_only {ps : List Part} (hl : Part.le [.regs] ps = true) {s0_ : State} {rd : Nat → Word} {mg : Nat → Word} {s : State} (h : Only ps s0_ s) :
    Only ps s0_ (loadOtp rd mg s) := by
  unfold loadOtp
  try dsimp only
  repeat' first
    | (with_reducible assumption)
    | (with_reducible apply setReg_only (within rfl hl))
    | (with_reducible apply forEach_only)
    | (with_reducible apply Only.foldl)
    | (with_reducible intro _)
    | dsimp only

theorem fuseSense_only {ps : List Part} (hl : Part.le [.regs, .die, .log, .otp] ps = true) {s0_ : State} {s : State} (h : Only ps s0_ s) :
    Only ps s0_ (fuseSense s) := by
  unfold fuseSense
  try dsimp only
  repeat' first
    | (with_reducible assumption)
    | (with_reducible apply bootFailed_only (within rfl hl))
    | (with_reducible apply latchTrims_only (within rfl hl))
    | (with_reducible apply loadIdentity_only (within rfl hl))
    | (with_reducible apply loadOtp_only (within rfl hl))
    | (with_reducible apply setFlag_only (within rfl hl))
    | (with_reducible apply setFld_only (within rfl hl))
    | (with_reducible apply setPhase_only (within rfl hl))
    | (with_reducible apply Only.foldl)
    | (with_reducible intro _)
    | (with_reducible apply Only.ite)
    | (with_reducible apply Only.ite2)
    | (with_reducible apply only_set_otp (within rfl hl))
    | dsimp only

theorem halfBlow_only {ps : List Part} (hl : Part.le [.fuse, .weak, .fresh] ps = true) {s0_ : State} {w : Nat} {i : Nat} {s : State} (h : Only ps s0_ s) :
    Only ps s0_ (halfBlow w i s) := by
  unfold halfBlow
  try dsimp only
  repeat' first
    | (with_reducible assumption)
    | (with_reducible apply drawNat_only (within rfl hl))
    | (with_reducible apply Only.ite)
    | (with_reducible apply Only.ite2)
    | (with_reducible apply only_set_fuse_weak (within rfl hl))
    | (with_reducible apply only_set_fuse (within rfl hl))
    | (with_reducible apply only_set_weak (within rfl hl))

theorem intervalReread_only {ps : List Part} (hl : Part.le [.regs, .clk, .log, .otp] ps = true) {s0_ : State} {s : State} (h : Only ps s0_ s) :
    Only ps s0_ (intervalReread s) := by
  unfold intervalReread
  try dsimp only
  repeat' first
    | (with_reducible assumption)
    | (with_reducible apply wakeUp_only (within rfl hl))
    | (with_reducible apply Only.ite)
    | (with_reducible apply Only.ite2)
    | (with_reducible apply only_set_otp (within rfl hl))

theorem lastBit_only {ps : List Part} (hl : Part.le [.fresh] ps = true) {s0_ : State} {l : List (Nat × Nat)} {s : State} (h : Only ps s0_ s) :
    Only ps s0_ (lastBit l s).2 := by
  unfold lastBit
  try dsimp only
  repeat' first
    | (with_reducible assumption)
    | (with_reducible apply drawNat_only (within rfl hl))
    | split
    | dsimp only

theorem setTap_only {ps : List Part} (hl : Part.le [.tap] ps = true) {s0_ : State} {n : Nat} {s : State} (h : Only ps s0_ s) :
    Only ps s0_ (setTap n s) := by
  unfold setTap
  try dsimp only
  repeat' first
    | (with_reducible assumption)
    | (with_reducible apply only_set_tap (within rfl hl))

theorem loadExtest_only {ps : List Part} (hl : Part.le [.regs, .dieRegs, .mem, .ecc, .port, .mir, .phy, .hub, .ctx, .pan, .opq, .chan, .clk, .tap, .fresh] ps = true) {s0_ : State} {s : State} (h : Only ps s0_ s) :
    Only ps s0_ (loadExtest s) := by
  unfold loadExtest
  try dsimp only
  repeat' first
    | (with_reducible assumption)
    | (with_reducible apply goOff_only (within rfl hl))
    | (with_reducible apply setTap_only (within rfl hl))
    | (with_reducible apply forEach_only)
    | (with_reducible intro _)
    | (with_reducible apply only_set_clk (within rfl hl))
    | dsimp only

theorem loadOpcode_only {ps : List Part} (hl : Part.le [.regs, .dieRegs, .mem, .ecc, .port, .mir, .phy, .hub, .ctx, .pan, .opq, .chan, .clk, .tap, .fresh] ps = true) {s0_ : State} {op : Nat} {s : State} (h : Only ps s0_ s) :
    Only ps s0_ (loadOpcode op s) := by
  unfold loadOpcode
  try dsimp only
  repeat' first
    | (with_reducible assumption)
    | (with_reducible apply loadExtest_only (within rfl hl))
    | (with_reducible apply setTap_only (within rfl hl))
    | (with_reducible apply Only.ite)
    | (with_reducible apply Only.ite2)

theorem otpStop_only {ps : List Part} (hl : Part.le [.fuse, .weak, .fresh] ps = true) {s0_ : State} {c : OtpCmd} {k : Nat} {i : Nat} {s : State} (h : Only ps s0_ s) :
    Only ps s0_ (otpStop c k i s) := by
  unfold otpStop
  try dsimp only
  repeat' first
    | (with_reducible assumption)
    | (with_reducible apply blowBits_only (within rfl hl))
    | (with_reducible apply halfBlow_only (within rfl hl))
    | (with_reducible apply forEach_only)
    | (with_reducible intro _)
    | (with_reducible apply Only.ite)
    | (with_reducible apply Only.ite2)
    | dsimp only

theorem otpEnd_only {ps : List Part} (hl : Part.le [.regs, .log, .otp] ps = true) {s0_ : State} {c : OtpCmd} {code : Nat} {bit : Nat} {s : State} (h : Only ps s0_ s) :
    Only ps s0_ (otpEnd c code bit s) := by
  unfold otpEnd
  try dsimp only
  repeat' first
    | (with_reducible assumption)
    | (with_reducible apply post_only (within rfl hl))
    | (with_reducible apply setReg_only (within rfl hl))
    | (with_reducible apply Only.ite)
    | (with_reducible apply Only.ite2)
    | (with_reducible apply only_set_otp (within rfl hl))

theorem otpDone_only {ps : List Part} (hl : Part.le [.regs, .log, .fuse, .weak, .otp, .fresh] ps = true) {s0_ : State} {c : OtpCmd} {s : State} (h : Only ps s0_ s) :
    Only ps s0_ (otpDone c s) := by
  unfold otpDone
  try dsimp only
  repeat' first
    | (with_reducible assumption)
    | (with_reducible apply blowBits_only (within rfl hl))
    | (with_reducible apply lastBit_only (within rfl hl))
    | (with_reducible apply otpEnd_only (within rfl hl))
    | (with_reducible apply setFld_only (within rfl hl))
    | (with_reducible apply forEach_only)
    | (with_reducible intro _)
    | (with_reducible apply Only.ite)
    | (with_reducible apply Only.ite2)
    | (with_reducible apply only_set_otp (within rfl hl))
    | dsimp only

theorem programmingEnds_only {ps : List Part} (hl : Part.le [.regs, .log, .fuse, .weak, .otp, .fresh] ps = true) {s0_ : State} {c : OtpCmd} {fail : Option (Fin 3 × Fin 32)} {s : State} (h : Only ps s0_ s) :
    Only ps s0_ (programmingEnds c fail s) := by
  unfold programmingEnds
  try dsimp only
  repeat' first
    | (with_reducible assumption)
    | (with_reducible apply otpDone_only (within rfl hl))
    | (with_reducible apply otpEnd_only (within rfl hl))
    | (with_reducible apply otpStop_only (within rfl hl))
    | (with_reducible apply Only.ite)
    | (with_reducible apply Only.ite2)
    | split
    | dsimp only

theorem scanBoundary_only {ps : List Part} (hl : Part.le [.bsr, .tdo, .fresh] ps = true) {s0_ : State} {data : List Bool} {s : State} (h : Only ps s0_ s) :
    Only ps s0_ (scanBoundary data s) := by
  unfold scanBoundary
  try dsimp only
  repeat' first
    | (with_reducible assumption)
    | (with_reducible apply drawNat_only (within rfl hl))
    | (with_reducible apply only_set_bsr_tdo (within rfl hl))
    | (with_reducible apply only_set_bsr (within rfl hl))
    | (with_reducible apply only_set_tdo (within rfl hl))

theorem vppLost_only {ps : List Part} (hl : Part.le [.regs, .log, .fuse, .weak, .otp, .fresh] ps = true) {s0_ : State} {c : OtpCmd} {n : Nat} {s : State} (h : Only ps s0_ s) :
    Only ps s0_ (vppLost c n s) := by
  unfold vppLost
  try dsimp only
  repeat' first
    | (with_reducible assumption)
    | (with_reducible apply lastBit_only (within rfl hl))
    | (with_reducible apply otpEnd_only (within rfl hl))
    | (with_reducible apply otpStop_only (within rfl hl))
    | split
    | dsimp only

end Sys2Proof.Machine
end

