-- ==== Sys2Proof/Laws/OnlyBoot.lean ====
section
/-! SUPPORT. Footprints of the operations of Machine/Boot.lean: the parts of the state each may change. -/
namespace Sys2Proof.Machine

theorem refreshRecord_only {ps : List Part} (hl : Part.le [.regs, .log] ps = true) {s0_ : State} {src : Nat} {reason : Nat} {s : State} (h : Only ps s0_ s) :
    Only ps s0_ (refreshRecord src reason s) := by
  unfold refreshRecord
  try dsimp only
  repeat' first
    | (with_reducible assumption)
    | (with_reducible apply post_only (within rfl hl))

theorem setRefState_only {ps : List Part} (hl : Part.le [.regs] ps = true) {s0_ : State} {v : Nat} {s : State} (h : Only ps s0_ s) :
    Only ps s0_ (setRefState v s) := by
  unfold setRefState
  try dsimp only
  repeat' first
    | (with_reducible assumption)
    | (with_reducible apply setFld_only (within rfl hl))

theorem updBoot_only {ps : List Part} (hl : Part.le [.boot] ps = true) {s0_ : State} {f : Boot → Boot} {s : State} (h : Only ps s0_ s) :
    Only ps s0_ (updBoot f s) := by
  unfold updBoot
  try dsimp only
  repeat' first
    | (with_reducible assumption)
    | (with_reducible apply only_set_boot (within rfl hl))

theorem tryRefresh_only {ps : List Part} (hl : Part.le [.regs, .log, .boot] ps = true) {s0_ : State} {s : State} (h : Only ps s0_ s) :
    Only ps s0_ (tryRefresh s) := by
  unfold tryRefresh
  try dsimp only
  repeat' first
    | (with_reducible assumption)
    | (with_reducible apply refreshRecord_only (within rfl hl))
    | (with_reducible apply setFld_only (within rfl hl))
    | (with_reducible apply setRefState_only (within rfl hl))
    | (with_reducible apply updBoot_only (within rfl hl))
    | (with_reducible apply Only.ite)
    | (with_reducible apply Only.ite2)

theorem cmdRefresh_only {ps : List Part} (hl : Part.le [.regs, .log, .boot] ps = true) {s0_ : State} {s : State} (h : Only ps s0_ s) :
    Only ps s0_ (cmdRefresh s) := by
  unfold cmdRefresh
  try dsimp only
  repeat' first
    | (with_reducible assumption)
    | (with_reducible apply tryRefresh_only (within rfl hl))
    | (with_reducible apply updBoot_only (within rfl hl))

theorem cmdRetry_only {ps : List Part} (hl : Part.le [.regs, .boot] ps = true) {s0_ : State} {s : State} (h : Only ps s0_ s) :
    Only ps s0_ (cmdRetry s) := by
  unfold cmdRetry
  try dsimp only
  repeat' first
    | (with_reducible assumption)
    | (with_reducible apply setPhase_only (within rfl hl))
    | (with_reducible apply setReg_only (within rfl hl))
    | (with_reducible apply updBoot_only (within rfl hl))
    | (with_reducible apply Only.ite)
    | (with_reducible apply Only.ite2)

theorem cmdSave_only {ps : List Part} (hl : Part.le [.boot] ps = true) {s0_ : State} {s : State} (h : Only ps s0_ s) :
    Only ps s0_ (cmdSave s) := by
  unfold cmdSave
  try dsimp only
  repeat' first
    | (with_reducible assumption)
    | (with_reducible apply updBoot_only (within rfl hl))
    | (with_reducible apply Only.ite)
    | (with_reducible apply Only.ite2)

theorem writeHeaders_only {ps : List Part} (hl : Part.le [.nvmA, .nvmB, .boot] ps = true) {s0_ : State} {f : BootHdr → BootHdr} {s : State} (h : Only ps s0_ s) :
    Only ps s0_ (writeHeaders f s) := by
  unfold writeHeaders
  try dsimp only
  repeat' first
    | (with_reducible assumption)
    | (with_reducible apply updBoot_only (within rfl hl))
    | (with_reducible apply only_set_nvmA_nvmB (within rfl hl))
    | (with_reducible apply only_set_nvmA (within rfl hl))
    | (with_reducible apply only_set_nvmB (within rfl hl))

theorem acceptImage_only {ps : List Part} (hl : Part.le [.regs, .nvmA, .nvmB, .boot] ps = true) {s0_ : State} {i : Nat} {k : Nat} {s : State} (h : Only ps s0_ s) :
    Only ps s0_ (acceptImage i k s) := by
  unfold acceptImage
  try dsimp only
  repeat' first
    | (with_reducible assumption)
    | (with_reducible apply setFlag_only (within rfl hl))
    | (with_reducible apply setFld_only (within rfl hl))
    | (with_reducible apply setPhase_only (within rfl hl))
    | (with_reducible apply setReg_only (within rfl hl))
    | (with_reducible apply updBoot_only (within rfl hl))
    | (with_reducible apply writeHeaders_only (within rfl hl))
    | (with_reducible apply Only.foldl)
    | (with_reducible intro _)
    | (with_reducible apply Only.ite)
    | (with_reducible apply Only.ite2)
    | split
    | dsimp only

theorem actValues_only {ps : List Part} (hl : Part.le [.regs, .tb, .die] ps = true) {s0_ : State} {s : State} (h : Only ps s0_ s) :
    Only ps s0_ (actValues s) := by
  unfold actValues
  try dsimp only
  repeat' first
    | (with_reducible assumption)
    | (with_reducible apply fixPhofs_only (within rfl hl))
    | (with_reducible apply rampAgain_only (within rfl hl))
    | (with_reducible apply updDie_only (within rfl hl))
    | (with_reducible apply forEach_only)
    | (with_reducible intro _)
    | (with_reducible apply Only.ite)
    | (with_reducible apply Only.ite2)
    | dsimp only

theorem firstAdmissions_only {ps : List Part} (hl : Part.le [.regs, .port, .mir, .hub, .adm] ps = true) {s0_ : State} {s : State} (h : Only ps s0_ s) :
    Only ps s0_ (firstAdmissions s) := by
  unfold firstAdmissions
  try dsimp only
  repeat' first
    | (with_reducible assumption)
    | (with_reducible apply admitPort_only (within rfl hl))
    | (with_reducible apply admitRound_only (within rfl hl))
    | (with_reducible apply forEach_only)
    | (with_reducible intro _)
    | (with_reducible apply Only.ite)
    | (with_reducible apply Only.ite2)
    | dsimp only

theorem releaseCourse_only {ps : List Part} (hl : Part.le [.regs, .mem, .ecc, .fw, .crs] ps = true) {s0_ : State} {c : Nat} {s : State} (h : Only ps s0_ s) :
    Only ps s0_ (releaseCourse c s) := by
  unfold releaseCourse
  try dsimp only
  repeat' first
    | (with_reducible assumption)
    | (with_reducible apply setFld_only (within rfl hl))
    | (with_reducible apply startCourse_only (within rfl hl))

theorem rewriteCode_only {ps : List Part} (hl : Part.le [.mem, .ecc] ps = true) {s0_ : State} {c : Nat} {s : State} (h : Only ps s0_ s) :
    Only ps s0_ (rewriteCode c s) := by
  unfold rewriteCode
  try dsimp only
  repeat' first
    | (with_reducible assumption)
    | (with_reducible apply writeCode_only (within rfl hl))
    | split
    | dsimp only

theorem bootRelease_only {ps : List Part} (hl : Part.le [.regs, .mem, .ecc, .tb, .port, .mir, .hub, .fw, .die, .crs, .lnk, .enum, .adm, .log, .boot] ps = true) {s0_ : State} {s : State} (h : Only ps s0_ s) :
    Only ps s0_ (bootRelease s) := by
  unfold bootRelease
  try dsimp only
  repeat' first
    | (with_reducible assumption)
    | (with_reducible apply actValues_only (within rfl hl))
    | (with_reducible apply firstAdmissions_only (within rfl hl))
    | (with_reducible apply post_only (within rfl hl))
    | (with_reducible apply releaseCourse_only (within rfl hl))
    | (with_reducible apply rewriteCode_only (within rfl hl))
    | (with_reducible apply setFld_only (within rfl hl))
    | (with_reducible apply setLevel_only (within rfl hl))
    | (with_reducible apply setPhase_only (within rfl hl))
    | (with_reducible apply setReg_only (within rfl hl))
    | (with_reducible apply showLevel_only (within rfl hl))
    | (with_reducible apply startLink_only (within rfl hl))
    | (with_reducible apply updBoot_only (within rfl hl))
    | (with_reducible apply forEach_only)
    | (with_reducible intro _)
    | dsimp only

theorem setOutcome_only {ps : List Part} (hl : Part.le [.regs] ps = true) {s0_ : State} {i : Nat} {code : Nat} {s : State} (h : Only ps s0_ s) :
    Only ps s0_ (setOutcome i code s) := by
  unfold setOutcome
  try dsimp only
  repeat' first
    | (with_reducible assumption)
    | (with_reducible apply setFld_only (within rfl hl))
    | (with_reducible apply Only.ite)
    | (with_reducible apply Only.ite2)

theorem nextCand_only {ps : List Part} (hl : Part.le [.regs, .log, .boot] ps = true) {s0_ : State} {cs : List (Nat × Option Nat)} {s : State} (h : Only ps s0_ s) :
    Only ps s0_ (nextCand cs s) := by
  induction cs generalizing s with
  | nil => exact bootFailed_only (within rfl hl) (updBoot_only (within rfl hl) h)
  | cons e cs ih =>
    obtain ⟨i, o⟩ := e
    cases o with
    | none => exact ih (setOutcome_only (within rfl hl) h)
    | some k => exact setPhase_only (within rfl hl) (updBoot_only (within rfl hl) h)

theorem candFail_only {ps : List Part} (hl : Part.le [.regs, .mem, .ecc, .log, .boot] ps = true) {s0_ : State} {code : Nat} {s : State} (h : Only ps s0_ s) :
    Only ps s0_ (candFail code s) := by
  unfold candFail
  try dsimp only
  repeat' first
    | (with_reducible assumption)
    | (with_reducible apply clearMem_only (within rfl hl))
    | (with_reducible apply nextCand_only (within rfl hl))
    | (with_reducible apply setOutcome_only (within rfl hl))
    | (with_reducible apply updBoot_only (within rfl hl))
    | (with_reducible apply wordsWritten_only (within rfl hl))
    | (with_reducible apply forEach_only)
    | (with_reducible intro _)
    | split
    | dsimp only

theorem loadHours_only {ps : List Part} (hl : Part.le [.regs, .boot] ps = true) {s0_ : State} {h_ : Option BootHdr} {s : State} (h : Only ps s0_ s) :
    Only ps s0_ (loadHours h_ s) := by
  unfold loadHours
  try dsimp only
  repeat' first
    | (with_reducible assumption)
    | (with_reducible apply setReg_only (within rfl hl))
    | (with_reducible apply updBoot_only (within rfl hl))
    | split
    | dsimp only

theorem flashDiscovery_only {ps : List Part} (hl : Part.le [.regs, .log, .nvmA, .nvmB, .boot] ps = true) {s0_ : State} {a : FlashDev} {b : FlashDev} {s : State} (h : Only ps s0_ s) :
    Only ps s0_ (flashDiscovery a b s) := by
  unfold flashDiscovery
  try dsimp only
  repeat' first
    | (with_reducible assumption)
    | (with_reducible apply loadHours_only (within rfl hl))
    | (with_reducible apply nextCand_only (within rfl hl))
    | (with_reducible apply setFlag_only (within rfl hl))
    | (with_reducible apply setFld_only (within rfl hl))
    | (with_reducible apply setReg_only (within rfl hl))
    | (with_reducible apply Only.ite)
    | (with_reducible apply Only.ite2)
    | split
    | (with_reducible apply only_set_nvmA_nvmB (within rfl hl))
    | (with_reducible apply only_set_nvmA (within rfl hl))
    | (with_reducible apply only_set_nvmB (within rfl hl))
    | dsimp only

theorem setRefresh_only {ps : List Part} (hl : Part.le [.boot] ps = true) {s0_ : State} {r : Option Refresh} {s : State} (h : Only ps s0_ s) :
    Only ps s0_ (setRefresh r s) := by
  unfold setRefresh
  try dsimp only
  repeat' first
    | (with_reducible assumption)
    | (with_reducible apply updBoot_only (within rfl hl))

theorem updTarget_only {ps : List Part} (hl : Part.le [.nvmA, .nvmB] ps = true) {s0_ : State} {f : Nvm → Nvm} {s : State} (h : Only ps s0_ s) :
    Only ps s0_ (updTarget f s) := by
  unfold updTarget
  try dsimp only
  repeat' first
    | (with_reducible assumption)
    | (with_reducible apply Only.ite)
    | (with_reducible apply Only.ite2)
    | (with_reducible apply only_set_nvmA_nvmB (within rfl hl))
    | (with_reducible apply only_set_nvmA (within rfl hl))
    | (with_reducible apply only_set_nvmB (within rfl hl))

theorem refreshEnds_only {ps : List Part} (hl : Part.le [.regs, .log, .nvmA, .nvmB, .boot] ps = true) {s0_ : State} {r : Refresh} {s : State} (h : Only ps s0_ s) :
    Only ps s0_ (refreshEnds r s) := by
  unfold refreshEnds
  try dsimp only
  repeat' first
    | (with_reducible assumption)
    | (with_reducible apply refreshRecord_only (within rfl hl))
    | (with_reducible apply setFld_only (within rfl hl))
    | (with_reducible apply setRefState_only (within rfl hl))
    | (with_reducible apply setRefresh_only (within rfl hl))
    | (with_reducible apply setReg_only (within rfl hl))
    | (with_reducible apply updTarget_only (within rfl hl))
    | (with_reducible apply writeHeaders_only (within rfl hl))
    | (with_reducible apply Only.ite)
    | (with_reducible apply Only.ite2)

theorem refreshResult_only {ps : List Part} (hl : Part.le [.regs, .log, .nvmA, .nvmB, .boot] ps = true) {s0_ : State} {slots : List (List Byte)} {r : Refresh} {s : State} (h : Only ps s0_ s) :
    Only ps s0_ (refreshResult slots r s) := by
  unfold refreshResult
  try dsimp only
  repeat' first
    | (with_reducible assumption)
    | (with_reducible apply refreshEnds_only (within rfl hl))
    | (with_reducible apply setFld_only (within rfl hl))
    | (with_reducible apply setRefresh_only (within rfl hl))
    | (with_reducible apply Only.ite)
    | (with_reducible apply Only.ite2)

theorem refreshVerify_only {ps : List Part} (hl : Part.le [.nvmA, .nvmB, .boot] ps = true) {s0_ : State} {own : List (List Byte)} {other : List (List Byte)} {s : State} (h : Only ps s0_ s) :
    Only ps s0_ (refreshVerify own other s) := by
  unfold refreshVerify
  try dsimp only
  repeat' first
    | (with_reducible assumption)
    | (with_reducible apply setRefresh_only (within rfl hl))
    | (with_reducible apply updTarget_only (within rfl hl))
    | (with_reducible apply Only.ite)
    | (with_reducible apply Only.ite2)

theorem flashRefresh_only {ps : List Part} (hl : Part.le [.regs, .log, .nvmA, .nvmB, .boot] ps = true) {s0_ : State} {k : RefreshStep} {s : State} (h : Only ps s0_ s) :
    Only ps s0_ (flashRefresh k s) := by
  unfold flashRefresh
  try dsimp only
  repeat' first
    | (with_reducible assumption)
    | (with_reducible apply refreshResult_only (within rfl hl))
    | (with_reducible apply refreshVerify_only (within rfl hl))
    | (with_reducible apply setFld_only (within rfl hl))
    | split
    | dsimp only

theorem imageRead_only {ps : List Part} (hl : Part.le [.regs, .mem, .ecc, .log, .boot] ps = true) {s0_ : State} {b : List Byte} {s : State} (h : Only ps s0_ s) :
    Only ps s0_ (imageRead b s) := by
  unfold imageRead
  try dsimp only
  repeat' first
    | (with_reducible assumption)
    | (with_reducible apply candFail_only (within rfl hl))
    | (with_reducible apply setPhase_only (within rfl hl))
    | (with_reducible apply updBoot_only (within rfl hl))
    | (with_reducible apply writeCode_only (within rfl hl))
    | (with_reducible apply forEach_only)
    | (with_reducible intro _)
    | (with_reducible apply Only.ite)
    | (with_reducible apply Only.ite2)
    | split
    | dsimp only

theorem loadReg_only {ps : List Part} (hl : Part.le [.regs, .dieRegs, .adc] ps = true) {s0_ : State} {a : Nat} {v : Word} {s : State} (h : Only ps s0_ s) :
    Only ps s0_ (loadReg a v s) := by
  unfold loadReg
  try dsimp only
  repeat' first
    | (with_reducible assumption)
    | (with_reducible apply setReg_only (within rfl hl))
    | (with_reducible apply writePortReg_only (within rfl hl))
    | (with_reducible apply writeUnit_only (within rfl hl))
    | (with_reducible apply Only.ite)
    | (with_reducible apply Only.ite2)
    | split
    | dsimp only

theorem loadValues_only {ps : List Part} (hl : Part.le [.regs, .dieRegs, .adc] ps = true) {s0_ : State} {vals : List (Nat × Word)} {s : State} (h : Only ps s0_ s) :
    Only ps s0_ (loadValues vals s) := by
  unfold loadValues
  try dsimp only
  repeat' first
    | (with_reducible assumption)
    | (with_reducible apply loadReg_only (within rfl hl))
    | (with_reducible apply forEach_only)
    | (with_reducible intro _)
    | dsimp only

theorem otpCut_only {ps : List Part} (hl : Part.le [.fuse, .weak, .fresh] ps = true) {s0_ : State} {s : State} (h : Only ps s0_ s) :
    Only ps s0_ (otpCut s) := by
  unfold otpCut
  try dsimp only
  repeat' first
    | (with_reducible assumption)
    | (with_reducible apply drawNat_only (within rfl hl))
    | (with_reducible apply otpStop_only (within rfl hl))
    | split
    | dsimp only

theorem porstAssert_only {ps : List Part} (hl : Part.le [.regs, .dieRegs, .prec, .mem, .ecc, .tb, .timer, .portEv, .xat, .port, .mir, .phy, .hub, .fw, .ctx, .pan, .opq, .chan, .bankA, .bankB, .active, .fdrMon, .roundOpen, .switchUs, .die, .crs, .mbx, .lnk, .enum, .twm, .adc, .scan, .scrubs, .scrubStart, .ceSecond, .harv, .fharv, .hrvCyc, .clk, .adm, .saved, .log, .nvmA, .nvmB, .boot, .fuse, .weak, .otp, .upd, .tap, .bsr, .tdo, .bus, .block, .fresh, .clock, .pending] ps = true) {s0_ : State} {s : State} (h : Only ps s0_ s) :
    Only ps s0_ (porstAssert s) := by
  intro p hp
  cases p <;> exact absurd (Part.le_sub hl (by decide)) hp

theorem porstRelease_only {ps : List Part} (hl : Part.le [.regs, .dieRegs, .chan, .adc, .clk, .log] ps = true) {s0_ : State} {addr : Nat} {s : State} (h : Only ps s0_ s) :
    Only ps s0_ (porstRelease addr s) := by
  unfold porstRelease
  try dsimp only
  repeat' first
    | (with_reducible assumption)
    | (with_reducible apply post_only (within rfl hl))
    | (with_reducible apply setFld_only (within rfl hl))
    | (with_reducible apply startCal_only (within rfl hl))
    | (with_reducible apply updChan_only (within rfl hl))
    | (with_reducible apply forEach_only)
    | (with_reducible intro _)
    | (with_reducible apply only_set_clk (within rfl hl))
    | dsimp only

theorem poweredHour_only {ps : List Part} (hl : Part.le [.regs, .clk, .log, .nvmA, .nvmB, .boot] ps = true) {s0_ : State} {s0 : State} (h : Only ps s0_ s0) :
    Only ps s0_ (poweredHour s0) := by
  unfold poweredHour
  try dsimp only
  repeat' first
    | (with_reducible assumption)
    | (with_reducible apply setReg_only (within rfl hl))
    | (with_reducible apply tryRefresh_only (within rfl hl))
    | (with_reducible apply wakeUp_only (within rfl hl))
    | (with_reducible apply writeHeaders_only (within rfl hl))
    | (with_reducible apply Only.ite)
    | (with_reducible apply Only.ite2)

theorem setWb_only {ps : List Part} (hl : Part.le [.boot] ps = true) {s0_ : State} {w : Option Wb} {s : State} (h : Only ps s0_ s) :
    Only ps s0_ (setWb w s) := by
  unfold setWb
  try dsimp only
  repeat' first
    | (with_reducible assumption)
    | (with_reducible apply updBoot_only (within rfl hl))

theorem settled_only {ps : List Part} (hl : Part.le [.regs, .dieRegs, .adc, .saved, .log, .boot] ps = true) {s0_ : State} {copy : Nat} {result : Nat} {seq : Nat} {entries : List (Nat × Word)} {s : State} (h : Only ps s0_ s) :
    Only ps s0_ (settled copy result seq entries s) := by
  unfold settled
  try dsimp only
  repeat' first
    | (with_reducible assumption)
    | (with_reducible apply loadValues_only (within rfl hl))
    | (with_reducible apply post_only (within rfl hl))
    | (with_reducible apply setReg_only (within rfl hl))
    | (with_reducible apply updBoot_only (within rfl hl))
    | (with_reducible apply Only.foldl)
    | (with_reducible intro _)
    | (with_reducible apply only_set_saved (within rfl hl))
    | dsimp only

theorem settingsApply_only {ps : List Part} (hl : Part.le [.regs, .dieRegs, .adc, .saved, .log, .nvmA, .nvmB, .boot] ps = true) {s0_ : State} {a0 : Option SetRec} {a1 : Option SetRec} {b0 : Option SetRec} {b1 : Option SetRec} {s : State} (h : Only ps s0_ s) :
    Only ps s0_ (settingsApply a0 a1 b0 b1 s) := by
  unfold settingsApply
  try dsimp only
  repeat' first
    | (with_reducible assumption)
    | (with_reducible apply settled_only (within rfl hl))
    | (with_reducible apply Only.ite)
    | (with_reducible apply Only.ite2)
    | split
    | (with_reducible apply only_set_nvmA_nvmB (within rfl hl))
    | (with_reducible apply only_set_nvmA (within rfl hl))
    | (with_reducible apply only_set_nvmB (within rfl hl))
    | dsimp only

theorem signatureCheck_only {ps : List Part} (hl : Part.le [.regs, .mem, .ecc, .log, .boot] ps = true) {s0_ : State} {s : State} (h : Only ps s0_ s) :
    Only ps s0_ (signatureCheck s) := by
  unfold signatureCheck
  try dsimp only
  repeat' first
    | (with_reducible assumption)
    | (with_reducible apply candFail_only (within rfl hl))
    | (with_reducible apply setPhase_only (within rfl hl))
    | (with_reducible apply updBoot_only (within rfl hl))
    | (with_reducible apply Only.ite)
    | (with_reducible apply Only.ite2)

theorem valueCheck_only {ps : List Part} (hl : Part.le [.regs, .mem, .ecc, .log, .nvmA, .nvmB, .boot] ps = true) {s0_ : State} {s : State} (h : Only ps s0_ s) :
    Only ps s0_ (valueCheck s) := by
  unfold valueCheck
  try dsimp only
  repeat' first
    | (with_reducible assumption)
    | (with_reducible apply acceptImage_only (within rfl hl))
    | (with_reducible apply candFail_only (within rfl hl))
    | split
    | dsimp only

theorem wbBegin_only {ps : List Part} (hl : Part.le [.regs, .nvmA, .nvmB, .boot] ps = true) {s0_ : State} {s : State} (h : Only ps s0_ s) :
    Only ps s0_ (wbBegin s) := by
  unfold wbBegin
  try dsimp only
  repeat' first
    | (with_reducible assumption)
    | (with_reducible apply setFld_only (within rfl hl))
    | (with_reducible apply setWb_only (within rfl hl))
    | (with_reducible apply updBoot_only (within rfl hl))
    | (with_reducible apply Only.ite)
    | (with_reducible apply Only.ite2)
    | (with_reducible apply only_set_nvmA_nvmB (within rfl hl))
    | (with_reducible apply only_set_nvmA (within rfl hl))
    | (with_reducible apply only_set_nvmB (within rfl hl))

theorem wbEnd_only {ps : List Part} (hl : Part.le [.regs, .log, .boot] ps = true) {s0_ : State} {w : Wb} {okB : Bool} {s : State} (h : Only ps s0_ s) :
    Only ps s0_ (wbEnd w okB s) := by
  unfold wbEnd
  try dsimp only
  repeat' first
    | (with_reducible assumption)
    | (with_reducible apply post_only (within rfl hl))
    | (with_reducible apply setFlag_only (within rfl hl))
    | (with_reducible apply setFld_only (within rfl hl))
    | (with_reducible apply setWb_only (within rfl hl))
    | (with_reducible apply Only.ite)
    | (with_reducible apply Only.ite2)

theorem wbNext_only {ps : List Part} (hl : Part.le [.regs, .log, .nvmA, .nvmB, .boot] ps = true) {s0_ : State} {w : Wb} {ok : Bool} {s : State} (h : Only ps s0_ s) :
    Only ps s0_ (wbNext w ok s) := by
  unfold wbNext
  try dsimp only
  repeat' first
    | (with_reducible assumption)
    | (with_reducible apply setWb_only (within rfl hl))
    | (with_reducible apply wbEnd_only (within rfl hl))
    | (with_reducible apply Only.ite)
    | (with_reducible apply Only.ite2)
    | (with_reducible apply only_set_nvmA_nvmB (within rfl hl))
    | (with_reducible apply only_set_nvmA (within rfl hl))
    | (with_reducible apply only_set_nvmB (within rfl hl))

theorem writeback_only {ps : List Part} (hl : Part.le [.regs, .clk, .log, .nvmA, .nvmB, .boot] ps = true) {s0_ : State} {ok : Bool} {s : State} (h : Only ps s0_ s) :
    Only ps s0_ (writeback ok s) := by
  unfold writeback
  try dsimp only
  repeat' first
    | (with_reducible assumption)
    | (with_reducible apply wakeUp_only (within rfl hl))
    | (with_reducible apply wbBegin_only (within rfl hl))
    | (with_reducible apply wbNext_only (within rfl hl))
    | (with_reducible apply Only.ite)
    | (with_reducible apply Only.ite2)
    | split
    | dsimp only

end Sys2Proof.Machine
end

