-- ==== Sys2Proof/Laws/OnlyResets.lean ====
section
/-! SUPPORT. Footprints of the operations of Machine/Resets.lean: the parts of the state each may change. -/
namespace Sys2Proof.Machine

theorem afterWrite_only {ps : List Part} (hl : Part.le [.regs] ps = true) {s0_ : State} {s : State} (h : Only ps s0_ s) :
    Only ps s0_ (afterWrite s) := by
  unfold afterWrite
  try dsimp only
  repeat' first
    | (with_reducible assumption)
    | (with_reducible apply setFld_only (within rfl hl))
    | (with_reducible apply Only.ite)
    | (with_reducible apply Only.ite2)

theorem setUpdState_only {ps : List Part} (hl : Part.le [.regs] ps = true) {s0_ : State} {v : Nat} {s : State} (h : Only ps s0_ s) :
    Only ps s0_ (setUpdState v s) := by
  unfold setUpdState
  try dsimp only
  repeat' first
    | (with_reducible assumption)
    | (with_reducible apply setFld_only (within rfl hl))

theorem unstage_only {ps : List Part} (hl : Part.le [.nvmA, .nvmB, .boot] ps = true) {s0_ : State} {s : State} (h : Only ps s0_ s) :
    Only ps s0_ (unstage s) := by
  unfold unstage
  try dsimp only
  repeat' first
    | (with_reducible assumption)
    | (with_reducible apply writeHeaders_only (within rfl hl))

theorem accessTimeout_only {ps : List Part} (hl : Part.le [.regs, .bus] ps = true) {s0_ : State} {a : Word} {write : Bool} {win : Bool} {s : State} (h : Only ps s0_ s) :
    Only ps s0_ (accessTimeout a write win s) := by
  unfold accessTimeout
  try dsimp only
  repeat' first
    | (with_reducible assumption)
    | (with_reducible apply maErr_only (within rfl hl))
    | (with_reducible apply raiseTwm_only (within rfl hl))
    | (with_reducible apply setBus_only (within rfl hl))
    | (with_reducible apply setReg_only (within rfl hl))
    | (with_reducible apply Only.ite)
    | (with_reducible apply Only.ite2)

theorem updReset_only {ps : List Part} (hl : Part.le [.regs, .nvmA, .nvmB, .boot, .upd] ps = true) {s0_ : State} {s : State} (h : Only ps s0_ s) :
    Only ps s0_ (updReset s) := by
  unfold updReset
  try dsimp only
  repeat' first
    | (with_reducible assumption)
    | (with_reducible apply setReg_only (within rfl hl))
    | (with_reducible apply unstage_only (within rfl hl))
    | (with_reducible apply Only.ite)
    | (with_reducible apply Only.ite2)
    | (with_reducible apply only_set_upd (within rfl hl))

theorem mgmtReset_only {ps : List Part} (hl : Part.le [.regs, .mbx, .lnk, .enum, .twm, .clk, .log, .nvmA, .nvmB, .boot, .upd] ps = true) {s0_ : State} {s : State} (h : Only ps s0_ s) :
    Only ps s0_ (mgmtReset s) := by
  unfold mgmtReset
  try dsimp only
  repeat' first
    | (with_reducible assumption)
    | (with_reducible apply setFld_only (within rfl hl))
    | (with_reducible apply updReset_only (within rfl hl))
    | (with_reducible apply forEach_only)
    | (with_reducible intro _)
    | (with_reducible apply Only.ite)
    | (with_reducible apply Only.ite2)
    | (with_reducible apply only_set_regs_mbx_lnk_enum_twm_clk_log (within rfl hl))
    | (with_reducible apply only_set_clk (within rfl hl))
    | (with_reducible apply only_set_enum (within rfl hl))
    | (with_reducible apply only_set_lnk (within rfl hl))
    | (with_reducible apply only_set_log (within rfl hl))
    | (with_reducible apply only_set_mbx (within rfl hl))
    | (with_reducible apply only_set_regs (within rfl hl))
    | (with_reducible apply only_set_twm (within rfl hl))
    | dsimp only

theorem lossResponse_only {ps : List Part} (hl : Part.le [.regs, .dieRegs, .mem, .ecc, .xat, .port, .phy, .hub, .fw, .ctx, .pan, .opq, .chan, .die, .crs, .mbx, .lnk, .enum, .twm, .adc, .scan, .ceSecond, .clk, .log, .nvmA, .nvmB, .boot, .upd] ps = true) {s0_ : State} {k : ClockId} {s : State} (h : Only ps s0_ s) :
    Only ps s0_ (lossResponse k s) := by
  unfold lossResponse
  try dsimp only
  repeat' first
    | (with_reducible assumption)
    | (with_reducible apply dieReset_only (within rfl hl))
    | (with_reducible apply enterHold_only (within rfl hl))
    | (with_reducible apply mgmtReset_only (within rfl hl))
    | (with_reducible apply resetChannel_only (within rfl hl))
    | (with_reducible apply setFlag_only (within rfl hl))
    | (with_reducible apply setFld_only (within rfl hl))
    | (with_reducible apply forEach_only)
    | (with_reducible intro _)
    | (with_reducible apply Only.ite)
    | (with_reducible apply Only.ite2)
    | split
    | (with_reducible apply only_set_clk (within rfl hl))
    | dsimp only

theorem clockLoss_only {ps : List Part} (hl : Part.le [.regs, .dieRegs, .mem, .ecc, .xat, .port, .phy, .hub, .fw, .ctx, .pan, .opq, .chan, .die, .crs, .mbx, .lnk, .enum, .twm, .adc, .scan, .ceSecond, .clk, .log, .nvmA, .nvmB, .boot, .upd] ps = true) {s0_ : State} {k : ClockId} {s : State} (h : Only ps s0_ s) :
    Only ps s0_ (clockLoss k s) := by
  unfold clockLoss
  try dsimp only
  repeat' first
    | (with_reducible assumption)
    | (with_reducible apply lossResponse_only (within rfl hl))
    | (with_reducible apply post_only (within rfl hl))
    | (with_reducible apply raiseSum_only (within rfl hl))
    | (with_reducible apply setFld_only (within rfl hl))
    | (with_reducible apply only_set_clk (within rfl hl))

theorem clockReturn_only {ps : List Part} (hl : Part.le [.regs, .clk, .log] ps = true) {s0_ : State} {k : ClockId} {s : State} (h : Only ps s0_ s) :
    Only ps s0_ (clockReturn k s) := by
  unfold clockReturn
  try dsimp only
  repeat' first
    | (with_reducible assumption)
    | (with_reducible apply post_only (within rfl hl))
    | (with_reducible apply setFlag_only (within rfl hl))
    | (with_reducible apply setFld_only (within rfl hl))
    | split
    | (with_reducible apply only_set_clk (within rfl hl))
    | dsimp only

theorem markBusy_only {ps : List Part} (hl : Part.le [.clk] ps = true) {s0_ : State} {s : State} (h : Only ps s0_ s) :
    Only ps s0_ (markBusy s) := by
  unfold markBusy
  try dsimp only
  repeat' first
    | (with_reducible assumption)
    | (with_reducible apply Only.ite)
    | (with_reducible apply Only.ite2)
    | (with_reducible apply only_set_clk (within rfl hl))

theorem mgmtRelease_only {ps : List Part} (hl : Part.le [.regs, .clk, .upd] ps = true) {s0_ : State} {s : State} (h : Only ps s0_ s) :
    Only ps s0_ (mgmtRelease s) := by
  unfold mgmtRelease
  try dsimp only
  repeat' first
    | (with_reducible assumption)
    | (with_reducible apply showLevel_only (within rfl hl))
    | (with_reducible apply Only.ite)
    | (with_reducible apply Only.ite2)
    | split
    | (with_reducible apply only_set_clk_upd (within rfl hl))
    | (with_reducible apply only_set_clk (within rfl hl))
    | (with_reducible apply only_set_upd (within rfl hl))
    | dsimp only

end Sys2Proof.Machine
end

