-- ==== Sys2Proof/Laws/OnlyDomain.lean ====
section
/-! SUPPORT. Footprints of the operations of Machine/Domain.lean: the parts of the state each may change. -/
namespace Sys2Proof.Machine

theorem abandonFrames_only {ps : List Part} (hl : Part.le [.regs, .lnk] ps = true) {s0_ : State} {n : Nat} {s : State} (h : Only ps s0_ s) :
    Only ps s0_ (abandonFrames n s) := by
  unfold abandonFrames
  try dsimp only
  repeat' first
    | (with_reducible assumption)
    | (with_reducible apply setFld_only (within rfl hl))
    | (with_reducible apply updChain_only (within rfl hl))

theorem sendRequest_only {ps : List Part} (hl : Part.le [.regs, .lnk, .twm] ps = true) {s0_ : State} {s : State} (h : Only ps s0_ s) :
    Only ps s0_ (sendRequest s) := by
  unfold sendRequest
  try dsimp only
  repeat' first
    | (with_reducible assumption)
    | (with_reducible apply endRequest_only (within rfl hl))
    | (with_reducible apply routeFrame_only (within rfl hl))
    | (with_reducible apply updTwm_only (within rfl hl))
    | (with_reducible apply Only.ite)
    | (with_reducible apply Only.ite2)

theorem setLevelNow_only {ps : List Part} (hl : Part.le [.regs, .lnk, .log] ps = true) {s0_ : State} {v : Nat} {s : State} (h : Only ps s0_ s) :
    Only ps s0_ (setLevelNow v s) := by
  unfold setLevelNow
  try dsimp only
  repeat' first
    | (with_reducible assumption)
    | (with_reducible apply post_only (within rfl hl))
    | (with_reducible apply pumpLink_only (within rfl hl))
    | (with_reducible apply raiseLnk_only (within rfl hl))
    | (with_reducible apply setFlag_only (within rfl hl))
    | (with_reducible apply setFld_only (within rfl hl))
    | (with_reducible apply forEach_only)
    | (with_reducible intro _)
    | (with_reducible apply Only.ite)
    | (with_reducible apply Only.ite2)
    | dsimp only

theorem raiseUpd_only {ps : List Part} (hl : Part.le [.regs] ps = true) {s0_ : State} {f : Fld} {s : State} (h : Only ps s0_ s) :
    Only ps s0_ (raiseUpd f s) := by
  unfold raiseUpd
  try dsimp only
  repeat' first
    | (with_reducible assumption)
    | (with_reducible apply raise_only (within rfl hl))

theorem withDom_only {ps : List Part} (hl : Part.le [.regs] ps = true) {s0_ : State} {f : State → State} {s : State} (h : Only ps s0_ s) (h_f : ∀ (u0 : State), Only ps s0_ u0 → Only ps s0_ (f u0)) :
    Only ps s0_ (withDom f s) := by
  unfold withDom
  try dsimp only
  repeat' first
    | (with_reducible assumption)
    | (with_reducible apply h_f)
    | (with_reducible apply raiseUpd_only (within rfl hl))
    | (with_reducible intro _)
    | (with_reducible apply Only.ite)
    | (with_reducible apply Only.ite2)
    | dsimp only

theorem enumFinish_only {ps : List Part} (hl : Part.le [.regs, .lnk, .enum, .twm, .log] ps = true) {s0_ : State} {s : State} (h : Only ps s0_ s) :
    Only ps s0_ (enumFinish s) := by
  unfold enumFinish
  try dsimp only
  repeat' first
    | (with_reducible assumption)
    | (with_reducible apply broadcastDown_only (within rfl hl))
    | (with_reducible apply post_only (within rfl hl))
    | (with_reducible apply raiseLnk_only (within rfl hl))
    | (with_reducible apply sendFrame_only (within rfl hl))
    | (with_reducible apply sendRequest_only (within rfl hl))
    | (with_reducible apply setFlag_only (within rfl hl))
    | (with_reducible apply setFld_only (within rfl hl))
    | (with_reducible apply setLevelNow_only (within rfl hl))
    | (with_reducible apply updEnum_only (within rfl hl))
    | (with_reducible apply withDom_only (within rfl hl))
    | (with_reducible intro _)
    | (with_reducible apply Only.ite)
    | (with_reducible apply Only.ite2)
    | dsimp only

theorem enumLinks_only {ps : List Part} (hl : Part.le [.regs, .lnk, .enum, .twm, .log] ps = true) {s0_ : State} {ks : List Nat} {s : State} (h : Only ps s0_ s) :
    Only ps s0_ (enumLinks ks s) := by
  induction ks generalizing s with
  | nil => exact enumFinish_only (within rfl hl) h
  | cons k ks ih =>
    rw [enumLinks]
    try dsimp only
    have h1 : Only ps s0_ (setReg (R.LNK_RANGE k) 0 (setFld (R.LNK_LSTAT k) F.LNK_LSTAT_ENUMD 0 s)) :=
      setReg_only (within rfl hl) (setFld_only (within rfl hl) h)
    refine Only.ite (ih h1) (Only.ite ?_ ?_)
    · exact sendFrame_only (within rfl hl) (updEnum_only (within rfl hl) h1)
    · exact ih (raiseLnk_only (within rfl hl) (setFld_only (within rfl hl) h1))

theorem linkDown_only {ps : List Part} (hl : Part.le [.regs, .lnk, .enum, .twm, .log] ps = true) {s0_ : State} {n : Nat} {s : State} (h : Only ps s0_ s) :
    Only ps s0_ (linkDown n s) := by
  unfold linkDown
  try dsimp only
  repeat' first
    | (with_reducible assumption)
    | (with_reducible apply abandonFrames_only (within rfl hl))
    | (with_reducible apply enumLinks_only (within rfl hl))
    | (with_reducible apply raiseLnk_only (within rfl hl))
    | (with_reducible apply setFld_only (within rfl hl))
    | (with_reducible apply setLink_only (within rfl hl))
    | (with_reducible apply setReg_only (within rfl hl))
    | (with_reducible apply updEnum_only (within rfl hl))
    | (with_reducible apply Only.ite)
    | (with_reducible apply Only.ite2)

theorem cmdDrop_only {ps : List Part} (hl : Part.le [.regs, .lnk, .enum, .twm, .log] ps = true) {s0_ : State} {mask : Nat} {s : State} (h : Only ps s0_ s) :
    Only ps s0_ (cmdDrop mask s) := by
  unfold cmdDrop
  try dsimp only
  repeat' first
    | (with_reducible assumption)
    | (with_reducible apply linkDown_only (within rfl hl))
    | (with_reducible apply updChain_only (within rfl hl))
    | (with_reducible apply forEach_only)
    | (with_reducible intro _)
    | (with_reducible apply Only.ite)
    | (with_reducible apply Only.ite2)
    | dsimp only

theorem enumBegin_only {ps : List Part} (hl : Part.le [.regs, .lnk, .enum, .twm, .log] ps = true) {s0_ : State} {base : Nat} {gen : Nat} {s : State} (h : Only ps s0_ s) :
    Only ps s0_ (enumBegin base gen s) := by
  unfold enumBegin
  try dsimp only
  repeat' first
    | (with_reducible assumption)
    | (with_reducible apply enumLinks_only (within rfl hl))
    | (with_reducible apply setFld_only (within rfl hl))
    | (with_reducible apply setLevelNow_only (within rfl hl))
    | (with_reducible apply updEnum_only (within rfl hl))
    | (with_reducible apply Only.ite)
    | (with_reducible apply Only.ite2)

theorem rootEnum_only {ps : List Part} (hl : Part.le [.regs, .lnk, .enum, .twm, .log] ps = true) {s0_ : State} {s : State} (h : Only ps s0_ s) :
    Only ps s0_ (rootEnum s) := by
  unfold rootEnum
  try dsimp only
  repeat' first
    | (with_reducible assumption)
    | (with_reducible apply enumBegin_only (within rfl hl))
    | (with_reducible apply setFld_only (within rfl hl))

theorem cmdEnum_only {ps : List Part} (hl : Part.le [.regs, .lnk, .enum, .twm, .log] ps = true) {s0_ : State} {s : State} (h : Only ps s0_ s) :
    Only ps s0_ (cmdEnum s) := by
  unfold cmdEnum
  try dsimp only
  repeat' first
    | (with_reducible assumption)
    | (with_reducible apply restartHoldoff_only (within rfl hl))
    | (with_reducible apply rootEnum_only (within rfl hl))
    | (with_reducible apply Only.ite)
    | (with_reducible apply Only.ite2)

theorem writeLnkCmd_only {ps : List Part} (hl : Part.le [.regs, .lnk, .enum, .twm, .log] ps = true) {s0_ : State} {v : Word} {s : State} (h : Only ps s0_ s) :
    Only ps s0_ (writeLnkCmd v s) := by
  unfold writeLnkCmd
  try dsimp only
  repeat' first
    | (with_reducible assumption)
    | (with_reducible apply cmdDrop_only (within rfl hl))
    | (with_reducible apply cmdEnum_only (within rfl hl))
    | (with_reducible apply Only.ite)
    | (with_reducible apply Only.ite2)

theorem ackFrame_only {ps : List Part} (hl : Part.le [.lnk] ps = true) {s0_ : State} {n : Nat} {seq : Nat} {nak : Bool} {s : State} (h : Only ps s0_ s) :
    Only ps s0_ (ackFrame n seq nak s) := by
  unfold ackFrame
  try dsimp only
  repeat' first
    | (with_reducible assumption)
    | (with_reducible apply updChain_only (within rfl hl))

theorem resend_only {ps : List Part} (hl : Part.le [.regs, .lnk] ps = true) {s0_ : State} {n : Nat} {seq : Nat} {s : State} (h : Only ps s0_ s) :
    Only ps s0_ (resend n seq s) := by
  unfold resend
  try dsimp only
  repeat' first
    | (with_reducible assumption)
    | (with_reducible apply countLost_only (within rfl hl))
    | (with_reducible apply incFld_only (within rfl hl))
    | (with_reducible apply pumpLink_only (within rfl hl))
    | (with_reducible apply setFld_only (within rfl hl))
    | (with_reducible apply updChain_only (within rfl hl))
    | (with_reducible apply Only.ite)
    | (with_reducible apply Only.ite2)
    | split
    | dsimp only

theorem ackRx_only {ps : List Part} (hl : Part.le [.regs, .lnk] ps = true) {s0_ : State} {n : Nat} {seq : Nat} {nak : Bool} {free : Nat} {s : State} (h : Only ps s0_ s) :
    Only ps s0_ (ackRx n seq nak free s) := by
  unfold ackRx
  try dsimp only
  repeat' first
    | (with_reducible assumption)
    | (with_reducible apply pumpLink_only (within rfl hl))
    | (with_reducible apply resend_only (within rfl hl))
    | (with_reducible apply setFld_only (within rfl hl))
    | (with_reducible apply updChain_only (within rfl hl))
    | (with_reducible apply Only.ite)
    | (with_reducible apply Only.ite2)

theorem sendAlert_only {ps : List Part} (hl : Part.le [.regs, .lnk, .enum] ps = true) {s0_ : State} {s : State} (h : Only ps s0_ s) :
    Only ps s0_ (sendAlert s) := by
  unfold sendAlert
  try dsimp only
  repeat' first
    | (with_reducible assumption)
    | (with_reducible apply sendFrame_only (within rfl hl))
    | (with_reducible apply updEnum_only (within rfl hl))
    | (with_reducible apply Only.ite)
    | (with_reducible apply Only.ite2)

theorem showAlert_only {ps : List Part} (hl : Part.le [.regs] ps = true) {s0_ : State} {s : State} (h : Only ps s0_ s) :
    Only ps s0_ (showAlert s) := by
  unfold showAlert
  try dsimp only
  repeat' first
    | (with_reducible assumption)
    | (with_reducible apply setFld_only (within rfl hl))
    | (with_reducible apply Only.ite)
    | (with_reducible apply Only.ite2)

theorem alertUpdate_only {ps : List Part} (hl : Part.le [.regs, .lnk, .enum] ps = true) {s0_ : State} {s : State} (h : Only ps s0_ s) :
    Only ps s0_ (alertUpdate s) := by
  unfold alertUpdate
  try dsimp only
  repeat' first
    | (with_reducible assumption)
    | (with_reducible apply sendAlert_only (within rfl hl))
    | (with_reducible apply showAlert_only (within rfl hl))
    | (with_reducible apply Only.ite)
    | (with_reducible apply Only.ite2)

theorem chainLoss_only {ps : List Part} (hl : Part.le [.regs, .lnk, .enum, .twm, .log] ps = true) {s0_ : State} {n : Nat} {s : State} (h : Only ps s0_ s) :
    Only ps s0_ (chainLoss n s) := by
  unfold chainLoss
  try dsimp only
  repeat' first
    | (with_reducible assumption)
    | (with_reducible apply incFld_only (within rfl hl))
    | (with_reducible apply linkDown_only (within rfl hl))
    | (with_reducible apply sendFrame_only (within rfl hl))
    | (with_reducible apply startLink_only (within rfl hl))
    | (with_reducible apply Only.ite)
    | (with_reducible apply Only.ite2)

theorem cutThrough_only {ps : List Part} (hl : Part.le [.lnk] ps = true) {s0_ : State} {n : Nat} {h_ : Header} {typ : Nat} {level : Nat} {tr : Travel} {s : State} (h : Only ps s0_ s) :
    Only ps s0_ (cutThrough n h_ typ level tr s) := by
  unfold cutThrough
  try dsimp only
  repeat' first
    | (with_reducible assumption)
    | (with_reducible apply updChain_only (within rfl hl))
    | (with_reducible apply forEach_only)
    | (with_reducible intro _)
    | (with_reducible apply Only.ite)
    | (with_reducible apply Only.ite2)
    | dsimp only

theorem levelReport_only {ps : List Part} (hl : Part.le [.regs, .lnk, .enum] ps = true) {s0_ : State} {s : State} (h : Only ps s0_ s) :
    Only ps s0_ (levelReport s) := by
  unfold levelReport
  try dsimp only
  repeat' first
    | (with_reducible assumption)
    | (with_reducible apply restartHoldoff_only (within rfl hl))
    | (with_reducible apply sendFrame_only (within rfl hl))
    | (with_reducible apply Only.ite)
    | (with_reducible apply Only.ite2)

theorem subtreeLow_only {ps : List Part} (hl : Part.le [.fresh] ps = true) {s0_ : State} {k : Nat} {lo : Nat} {hi : Nat} {lv : Nat} {s : State} (h : Only ps s0_ s) :
    Only ps s0_ (subtreeLow k lo hi lv s).2 := by
  unfold subtreeLow
  try dsimp only
  repeat' first
    | (with_reducible assumption)
    | (with_reducible apply drawNat_only (within rfl hl))
    | (with_reducible apply Only.ite)
    | (with_reducible apply Only.ite2)

theorem enumDone_only {ps : List Part} (hl : Part.le [.regs, .lnk, .enum, .twm, .log, .fresh] ps = true) {s0_ : State} {k : Nat} {count : Nat} {lv : Nat} {s : State} (h : Only ps s0_ s) :
    Only ps s0_ (enumDone k count lv s) := by
  unfold enumDone
  try dsimp only
  repeat' first
    | (with_reducible assumption)
    | (with_reducible apply enumLinks_only (within rfl hl))
    | (with_reducible apply setFld_only (within rfl hl))
    | (with_reducible apply setReg_only (within rfl hl))
    | (with_reducible apply subtreeLow_only (within rfl hl))
    | (with_reducible apply updEnum_only (within rfl hl))
    | (with_reducible apply Only.ite)
    | (with_reducible apply Only.ite2)

theorem hello_only {ps : List Part} (hl : Part.le [.regs, .lnk, .enum, .log] ps = true) {s0_ : State} {n : Nat} {fwver : Word} {level : Nat} {link : Nat} {s : State} (h : Only ps s0_ s) :
    Only ps s0_ (hello n fwver level link s) := by
  unfold hello
  try dsimp only
  repeat' first
    | (with_reducible assumption)
    | (with_reducible apply abandonFrames_only (within rfl hl))
    | (with_reducible apply raiseLnk_only (within rfl hl))
    | (with_reducible apply setFld_only (within rfl hl))
    | (with_reducible apply setLink_only (within rfl hl))
    | (with_reducible apply setReg_only (within rfl hl))
    | (with_reducible apply Only.ite)
    | (with_reducible apply Only.ite2)

theorem levelRx_only {ps : List Part} (hl : Part.le [.regs, .lnk, .enum, .log] ps = true) {s0_ : State} {h_ : Header} {level : Nat} {gen : BitVec 16} {s : State} (h : Only ps s0_ s) :
    Only ps s0_ (levelRx h_ level gen s) := by
  unfold levelRx
  try dsimp only
  repeat' first
    | (with_reducible assumption)
    | (with_reducible apply broadcastDown_only (within rfl hl))
    | (with_reducible apply sendAlert_only (within rfl hl))
    | (with_reducible apply setLevelNow_only (within rfl hl))

theorem takeFrame_only {ps : List Part} (hl : Part.le [.regs, .lnk] ps = true) {s0_ : State} {n : Nat} {h_ : Header} {level : Nat} {tr : Travel} {act : State → State} {s : State} (h : Only ps s0_ s) (h_act : ∀ (u0 : State), Only ps s0_ u0 → Only ps s0_ (act u0)) :
    Only ps s0_ (takeFrame n h_ level tr act s) := by
  unfold takeFrame
  try dsimp only
  repeat' first
    | (with_reducible assumption)
    | (with_reducible apply h_act)
    | (with_reducible apply ackFrame_only (within rfl hl))
    | (with_reducible apply countDisc_only (within rfl hl))
    | (with_reducible apply updChain_only (within rfl hl))
    | (with_reducible intro _)
    | (with_reducible apply Only.ite)
    | (with_reducible apply Only.ite2)
    | dsimp only

theorem recvFrame_only {ps : List Part} (hl : Part.le [.regs, .lnk] ps = true) {s0_ : State} {n : Nat} {h_ : Header} {typ : FType} {payload : List Byte} {level : Nat} {tr : Travel} {act : State → State} {s : State} (h : Only ps s0_ s) (h_act : ∀ (u0 : State), Only ps s0_ u0 → Only ps s0_ (act u0)) :
    Only ps s0_ (recvFrame n h_ typ payload level tr act s) := by
  unfold recvFrame
  try dsimp only
  repeat' first
    | (with_reducible assumption)
    | (with_reducible apply h_act)
    | (with_reducible apply ackFrame_only (within rfl hl))
    | (with_reducible apply countDisc_only (within rfl hl))
    | (with_reducible apply cutThrough_only (within rfl hl))
    | (with_reducible apply incFld_only (within rfl hl))
    | (with_reducible apply takeFrame_only (within rfl hl))
    | (with_reducible intro _)
    | (with_reducible apply Only.ite)
    | (with_reducible apply Only.ite2)
    | split
    | dsimp only

theorem relayUp_only {ps : List Part} (hl : Part.le [.regs, .lnk, .enum] ps = true) {s0_ : State} {n : Nat} {f : Frame} {s : State} (h : Only ps s0_ s) :
    Only ps s0_ (relayUp n f s) := by
  unfold relayUp
  try dsimp only
  repeat' first
    | (with_reducible assumption)
    | (with_reducible apply countLost_only (within rfl hl))
    | (with_reducible apply queueFrame_only (within rfl hl))
    | (with_reducible apply restartHoldoff_only (within rfl hl))
    | (with_reducible apply Only.ite)
    | (with_reducible apply Only.ite2)

theorem signalLost_only {ps : List Part} (hl : Part.le [.regs, .lnk, .enum, .twm, .log] ps = true) {s0_ : State} {n : Nat} {s : State} (h : Only ps s0_ s) :
    Only ps s0_ (signalLost n s) := by
  unfold signalLost
  try dsimp only
  repeat' first
    | (with_reducible assumption)
    | (with_reducible apply linkDown_only (within rfl hl))
    | (with_reducible apply setFld_only (within rfl hl))
    | (with_reducible apply Only.ite)
    | (with_reducible apply Only.ite2)

theorem trainingComplete_only {ps : List Part} (hl : Part.le [.regs, .lnk, .enum, .log] ps = true) {s0_ : State} {n : Nat} {s : State} (h : Only ps s0_ s) :
    Only ps s0_ (trainingComplete n s) := by
  unfold trainingComplete
  try dsimp only
  repeat' first
    | (with_reducible assumption)
    | (with_reducible apply sendFrame_only (within rfl hl))
    | (with_reducible apply setFld_only (within rfl hl))
    | (with_reducible apply setLink_only (within rfl hl))

end Sys2Proof.Machine
end

