-- ==== Sys2Proof/Laws/OnlyUpdate.lean ====
section
/-! SUPPORT. Footprints of the operations of Machine/Update.lean: the parts of the state each may change. -/
namespace Sys2Proof.Machine

theorem writeOwner_only {ps : List Part} (hl : Part.le [.regs, .saved, .boot] ps = true) {s0_ : State} {v : Word} {s : State} (h : Only ps s0_ s) :
    Only ps s0_ (writeOwner v s) := by
  unfold writeOwner
  try dsimp only
  repeat' first
    | (with_reducible assumption)
    | (with_reducible apply saveSetting_only (within rfl hl))
    | (with_reducible apply setReg_only (within rfl hl))
    | (with_reducible apply Only.ite)
    | (with_reducible apply Only.ite2)

theorem moveTo_only {ps : List Part} (hl : Part.le [.regs, .log] ps = true) {s0_ : State} {v : Nat} {s : State} (h : Only ps s0_ s) :
    Only ps s0_ (moveTo v s) := by
  unfold moveTo
  try dsimp only
  repeat' first
    | (with_reducible assumption)
    | (with_reducible apply post_only (within rfl hl))
    | (with_reducible apply setUpdState_only (within rfl hl))

theorem abortAct_only {ps : List Part} (hl : Part.le [.regs, .log, .nvmA, .nvmB, .boot] ps = true) {s0_ : State} {s : State} (h : Only ps s0_ s) :
    Only ps s0_ (abortAct s) := by
  unfold abortAct
  try dsimp only
  repeat' first
    | (with_reducible assumption)
    | (with_reducible apply moveTo_only (within rfl hl))
    | (with_reducible apply unstage_only (within rfl hl))
    | (with_reducible apply Only.ite)
    | (with_reducible apply Only.ite2)

theorem castUpd_only {ps : List Part} (hl : Part.le [.regs, .lnk] ps = true) {s0_ : State} {payload : List Byte} {s : State} (h : Only ps s0_ s) :
    Only ps s0_ (castUpd payload s) := by
  unfold castUpd
  try dsimp only
  repeat' first
    | (with_reducible assumption)
    | (with_reducible apply broadcastDown_only (within rfl hl))
    | (with_reducible apply Only.ite)
    | (with_reducible apply Only.ite2)

theorem setReason_only {ps : List Part} (hl : Part.le [.regs] ps = true) {s0_ : State} {v : Nat} {s : State} (h : Only ps s0_ s) :
    Only ps s0_ (setReason v s) := by
  unfold setReason
  try dsimp only
  repeat' first
    | (with_reducible assumption)
    | (with_reducible apply setFld_only (within rfl hl))

theorem refuse_only {ps : List Part} (hl : Part.le [.regs, .log] ps = true) {s0_ : State} {op : Nat} {code : Nat} {s : State} (h : Only ps s0_ s) :
    Only ps s0_ (refuse op code s) := by
  unfold refuse
  try dsimp only
  repeat' first
    | (with_reducible assumption)
    | (with_reducible apply post_only (within rfl hl))
    | (with_reducible apply raiseUpd_only (within rfl hl))
    | (with_reducible apply setReason_only (within rfl hl))

theorem updUpd_only {ps : List Part} (hl : Part.le [.upd] ps = true) {s0_ : State} {f : Upd → Upd} {s : State} (h : Only ps s0_ s) :
    Only ps s0_ (updUpd f s) := by
  unfold updUpd
  try dsimp only
  repeat' first
    | (with_reducible assumption)
    | (with_reducible apply only_set_upd (within rfl hl))

theorem cmdAbort_only {ps : List Part} (hl : Part.le [.regs, .lnk, .log, .nvmA, .nvmB, .boot, .upd] ps = true) {s0_ : State} {s : State} (h : Only ps s0_ s) :
    Only ps s0_ (cmdAbort s) := by
  unfold cmdAbort
  try dsimp only
  repeat' first
    | (with_reducible assumption)
    | (with_reducible apply abortAct_only (within rfl hl))
    | (with_reducible apply castUpd_only (within rfl hl))
    | (with_reducible apply refuse_only (within rfl hl))
    | (with_reducible apply updUpd_only (within rfl hl))
    | (with_reducible apply Only.ite)
    | (with_reducible apply Only.ite2)

theorem activate_only {ps : List Part} (hl : Part.le [.regs, .log, .nvmA, .nvmB, .boot, .upd] ps = true) {s0_ : State} {defer : Bool} {s : State} (h : Only ps s0_ s) :
    Only ps s0_ (activate defer s) := by
  unfold activate
  try dsimp only
  repeat' first
    | (with_reducible assumption)
    | (with_reducible apply moveTo_only (within rfl hl))
    | (with_reducible apply setFlag_only (within rfl hl))
    | (with_reducible apply setFld_only (within rfl hl))
    | (with_reducible apply setReason_only (within rfl hl))
    | (with_reducible apply updUpd_only (within rfl hl))
    | (with_reducible apply writeHeaders_only (within rfl hl))

theorem cmdActivate_only {ps : List Part} (hl : Part.le [.regs, .log, .nvmA, .nvmB, .boot, .upd] ps = true) {s0_ : State} {defer : Bool} {s : State} (h : Only ps s0_ s) :
    Only ps s0_ (cmdActivate defer s) := by
  unfold cmdActivate
  try dsimp only
  repeat' first
    | (with_reducible assumption)
    | (with_reducible apply activate_only (within rfl hl))
    | (with_reducible apply refuse_only (within rfl hl))
    | (with_reducible apply Only.ite)
    | (with_reducible apply Only.ite2)

theorem cmdCast_only {ps : List Part} (hl : Part.le [.regs, .lnk, .log, .upd] ps = true) {s0_ : State} {op : Nat} {act : State → State} {s : State} (h : Only ps s0_ s) (h_act : ∀ (u0 : State), Only ps s0_ u0 → Only ps s0_ (act u0)) :
    Only ps s0_ (cmdCast op act s) := by
  unfold cmdCast
  try dsimp only
  repeat' first
    | (with_reducible assumption)
    | (with_reducible apply h_act)
    | (with_reducible apply castUpd_only (within rfl hl))
    | (with_reducible apply refuse_only (within rfl hl))
    | (with_reducible apply updUpd_only (within rfl hl))
    | (with_reducible intro _)
    | (with_reducible apply Only.ite)
    | (with_reducible apply Only.ite2)
    | dsimp only

theorem clash_only {ps : List Part} (hl : Part.le [.upd] ps = true) {s0_ : State} {waits : Bool} {act : State → State} {s : State} (h : Only ps s0_ s) (h_act : ∀ (u0 : State), Only ps s0_ u0 → Only ps s0_ (act u0)) :
    Only ps s0_ (clash waits act s) := by
  unfold clash
  try dsimp only
  repeat' first
    | (with_reducible assumption)
    | (with_reducible apply h_act)
    | (with_reducible apply updUpd_only (within rfl hl))
    | (with_reducible intro _)
    | (with_reducible apply Only.ite)
    | (with_reducible apply Only.ite2)
    | dsimp only

theorem confirm_only {ps : List Part} (hl : Part.le [.regs, .log, .nvmA, .nvmB, .boot] ps = true) {s0_ : State} {s : State} (h : Only ps s0_ s) :
    Only ps s0_ (confirm s) := by
  unfold confirm
  try dsimp only
  repeat' first
    | (with_reducible assumption)
    | (with_reducible apply moveTo_only (within rfl hl))
    | (with_reducible apply post_only (within rfl hl))
    | (with_reducible apply raiseUpd_only (within rfl hl))
    | (with_reducible apply writeHeaders_only (within rfl hl))

theorem cmdConfirm_only {ps : List Part} (hl : Part.le [.regs, .log, .nvmA, .nvmB, .boot, .upd] ps = true) {s0_ : State} {s : State} (h : Only ps s0_ s) :
    Only ps s0_ (cmdConfirm s) := by
  unfold cmdConfirm
  try dsimp only
  repeat' first
    | (with_reducible assumption)
    | (with_reducible apply clash_only (within rfl hl))
    | (with_reducible apply confirm_only (within rfl hl))
    | (with_reducible intro _)
    | (with_reducible apply Only.ite)
    | (with_reducible apply Only.ite2)
    | dsimp only

theorem showMissing_only {ps : List Part} (hl : Part.le [.regs] ps = true) {s0_ : State} {s : State} (h : Only ps s0_ s) :
    Only ps s0_ (showMissing s) := by
  unfold showMissing
  try dsimp only
  repeat' first
    | (with_reducible assumption)
    | (with_reducible apply setFld_only (within rfl hl))
    | (with_reducible apply Only.foldl)
    | (with_reducible intro _)
    | dsimp only

theorem takeOpen_only {ps : List Part} (hl : Part.le [.regs, .log, .nvmA, .nvmB, .boot, .upd] ps = true) {s0_ : State} {session : Nat} {len : Nat} {lo : Nat} {hi : Nat} {s : State} (h : Only ps s0_ s) :
    Only ps s0_ (takeOpen session len lo hi s) := by
  unfold takeOpen
  try dsimp only
  repeat' first
    | (with_reducible assumption)
    | (with_reducible apply moveTo_only (within rfl hl))
    | (with_reducible apply setFld_only (within rfl hl))
    | (with_reducible apply setReason_only (within rfl hl))
    | (with_reducible apply setReg_only (within rfl hl))
    | (with_reducible apply showMissing_only (within rfl hl))
    | (with_reducible apply unstage_only (within rfl hl))
    | (with_reducible apply updUpd_only (within rfl hl))

theorem cmdOpen_only {ps : List Part} (hl : Part.le [.regs, .lnk, .log, .nvmA, .nvmB, .boot, .upd, .fresh] ps = true) {s0_ : State} {s : State} (h : Only ps s0_ s) :
    Only ps s0_ (cmdOpen s) := by
  unfold cmdOpen
  try dsimp only
  repeat' first
    | (with_reducible assumption)
    | (with_reducible apply castUpd_only (within rfl hl))
    | (with_reducible apply drawNat_only (within rfl hl))
    | (with_reducible apply refuse_only (within rfl hl))
    | (with_reducible apply setReg_only (within rfl hl))
    | (with_reducible apply takeOpen_only (within rfl hl))
    | (with_reducible apply updUpd_only (within rfl hl))
    | (with_reducible apply Only.ite)
    | (with_reducible apply Only.ite2)

theorem failUpdate_only {ps : List Part} (hl : Part.le [.upd] ps = true) {s0_ : State} {s : State} (h : Only ps s0_ s) :
    Only ps s0_ (failUpdate s) := by
  unfold failUpdate
  try dsimp only
  repeat' first
    | (with_reducible assumption)
    | (with_reducible apply updUpd_only (within rfl hl))

theorem cmdReject_only {ps : List Part} (hl : Part.le [.upd] ps = true) {s0_ : State} {s : State} (h : Only ps s0_ s) :
    Only ps s0_ (cmdReject s) := by
  unfold cmdReject
  try dsimp only
  repeat' first
    | (with_reducible assumption)
    | (with_reducible apply clash_only (within rfl hl))
    | (with_reducible apply failUpdate_only (within rfl hl))
    | (with_reducible intro _)
    | (with_reducible apply Only.ite)
    | (with_reducible apply Only.ite2)
    | dsimp only

theorem blockArrives_only {ps : List Part} (hl : Part.le [.regs, .ecc, .upd] ps = true) {s0_ : State} {block : Nat} {bcrc : Word} {bytes : List Byte} {s : State} (h : Only ps s0_ s) :
    Only ps s0_ (blockArrives block bcrc bytes s) := by
  unfold blockArrives
  try dsimp only
  repeat' first
    | (with_reducible assumption)
    | (with_reducible apply incFld_only (within rfl hl))
    | (with_reducible apply updUpd_only (within rfl hl))
    | (with_reducible apply wordsWritten_only (within rfl hl))
    | (with_reducible apply Only.ite)
    | (with_reducible apply Only.ite2)

theorem cmdSend_only {ps : List Part} (hl : Part.le [.regs, .ecc, .lnk, .log, .upd] ps = true) {s0_ : State} {s : State} (h : Only ps s0_ s) :
    Only ps s0_ (cmdSend s) := by
  unfold cmdSend
  try dsimp only
  repeat' first
    | (with_reducible assumption)
    | (with_reducible apply blockArrives_only (within rfl hl))
    | (with_reducible apply castUpd_only (within rfl hl))
    | (with_reducible apply refuse_only (within rfl hl))
    | (with_reducible apply Only.ite)
    | (with_reducible apply Only.ite2)

theorem sendReport_only {ps : List Part} (hl : Part.le [.regs, .lnk] ps = true) {s0_ : State} {s : State} (h : Only ps s0_ s) :
    Only ps s0_ (sendReport s) := by
  unfold sendReport
  try dsimp only
  repeat' first
    | (with_reducible assumption)
    | (with_reducible apply routeFrame_only (within rfl hl))
    | (with_reducible apply Only.foldl)
    | (with_reducible intro _)
    | (with_reducible apply Only.ite)
    | (with_reducible apply Only.ite2)
    | dsimp only

theorem endAct_only {ps : List Part} (hl : Part.le [.regs, .lnk, .log] ps = true) {s0_ : State} {s : State} (h : Only ps s0_ s) :
    Only ps s0_ (endAct s) := by
  unfold endAct
  try dsimp only
  repeat' first
    | (with_reducible assumption)
    | (with_reducible apply moveTo_only (within rfl hl))
    | (with_reducible apply sendReport_only (within rfl hl))
    | (with_reducible apply Only.ite)
    | (with_reducible apply Only.ite2)

theorem queryAct_only {ps : List Part} (hl : Part.le [.regs, .lnk] ps = true) {s0_ : State} {s : State} (h : Only ps s0_ s) :
    Only ps s0_ (queryAct s) := by
  unfold queryAct
  try dsimp only
  repeat' first
    | (with_reducible assumption)
    | (with_reducible apply sendReport_only (within rfl hl))
    | (with_reducible apply Only.ite)
    | (with_reducible apply Only.ite2)

theorem writeUpdCmd_only {ps : List Part} (hl : Part.le [.regs, .ecc, .lnk, .log, .nvmA, .nvmB, .boot, .upd, .fresh] ps = true) {s0_ : State} {v : Word} {s : State} (h : Only ps s0_ s) :
    Only ps s0_ (writeUpdCmd v s) := by
  unfold writeUpdCmd
  try dsimp only
  repeat' first
    | (with_reducible assumption)
    | (with_reducible apply cmdAbort_only (within rfl hl))
    | (with_reducible apply cmdActivate_only (within rfl hl))
    | (with_reducible apply cmdCast_only (within rfl hl))
    | (with_reducible apply cmdConfirm_only (within rfl hl))
    | (with_reducible apply cmdOpen_only (within rfl hl))
    | (with_reducible apply cmdReject_only (within rfl hl))
    | (with_reducible apply cmdSend_only (within rfl hl))
    | (with_reducible apply endAct_only (within rfl hl))
    | (with_reducible apply queryAct_only (within rfl hl))
    | (with_reducible apply withDom_only (within rfl hl))
    | (with_reducible intro _)
    | (with_reducible apply Only.ite)
    | (with_reducible apply Only.ite2)
    | split
    | dsimp only

theorem failWith_only {ps : List Part} (hl : Part.le [.regs, .lnk, .log] ps = true) {s0_ : State} {code : Nat} {s : State} (h : Only ps s0_ s) :
    Only ps s0_ (failWith code s) := by
  unfold failWith
  try dsimp only
  repeat' first
    | (with_reducible assumption)
    | (with_reducible apply moveTo_only (within rfl hl))
    | (with_reducible apply raiseUpd_only (within rfl hl))
    | (with_reducible apply sendReport_only (within rfl hl))
    | (with_reducible apply setReason_only (within rfl hl))

theorem flashResult_only {ps : List Part} (hl : Part.le [.regs, .upd] ps = true) {s0_ : State} {okA : Bool} {okB : Bool} {s : State} (h : Only ps s0_ s) :
    Only ps s0_ (flashResult okA okB s) := by
  unfold flashResult
  try dsimp only
  repeat' first
    | (with_reducible assumption)
    | (with_reducible apply setReason_only (within rfl hl))
    | (with_reducible apply updUpd_only (within rfl hl))
    | (with_reducible apply Only.ite)
    | (with_reducible apply Only.ite2)

theorem blockStaged_only {ps : List Part} (hl : Part.le [.regs, .mem, .ecc, .lnk, .ceSecond, .log, .upd] ps = true) {s0_ : State} {okA : Bool} {okB : Bool} {s : State} (h : Only ps s0_ s) :
    Only ps s0_ (blockStaged okA okB s) := by
  unfold blockStaged
  try dsimp only
  repeat' first
    | (with_reducible assumption)
    | (with_reducible apply failWith_only (within rfl hl))
    | (with_reducible apply flashResult_only (within rfl hl))
    | (with_reducible apply incFld_only (within rfl hl))
    | (with_reducible apply seenRange_only (within rfl hl))
    | (with_reducible apply showMissing_only (within rfl hl))
    | (with_reducible apply updUpd_only (within rfl hl))
    | (with_reducible apply Only.ite)
    | (with_reducible apply Only.ite2)
    | split
    | dsimp only

theorem copyFailed_only {ps : List Part} (hl : Part.le [.upd] ps = true) {s0_ : State} {s : State} (h : Only ps s0_ s) :
    Only ps s0_ (copyFailed s) := by
  unfold copyFailed
  try dsimp only
  repeat' first
    | (with_reducible assumption)
    | (with_reducible apply updUpd_only (within rfl hl))
    | (with_reducible apply Only.ite)
    | (with_reducible apply Only.ite2)

theorem dataPart_only {ps : List Part} (hl : Part.le [.regs, .ecc, .upd] ps = true) {s0_ : State} {block : Nat} {part : Nat} {bcrc : Word} {bytes : List Byte} {s : State} (h : Only ps s0_ s) :
    Only ps s0_ (dataPart block part bcrc bytes s) := by
  unfold dataPart
  try dsimp only
  repeat' first
    | (with_reducible assumption)
    | (with_reducible apply blockArrives_only (within rfl hl))
    | (with_reducible apply updUpd_only (within rfl hl))
    | (with_reducible apply Only.ite)
    | (with_reducible apply Only.ite2)
    | split
    | dsimp only

theorem runImage_only {ps : List Part} (hl : Part.le [.regs, .lnk, .enum, .log] ps = true) {s0_ : State} {ver : Word} {info : Word} {src : Nat} {s : State} (h : Only ps s0_ s) :
    Only ps s0_ (runImage ver info src s) := by
  unfold runImage
  try dsimp only
  repeat' first
    | (with_reducible assumption)
    | (with_reducible apply levelReport_only (within rfl hl))
    | (with_reducible apply post_only (within rfl hl))
    | (with_reducible apply setReg_only (within rfl hl))
    | (with_reducible apply showLevel_only (within rfl hl))
    | (with_reducible apply Only.ite)
    | (with_reducible apply Only.ite2)

theorem enterTrial_only {ps : List Part} (hl : Part.le [.regs, .lnk, .enum, .log, .upd] ps = true) {s0_ : State} {s : State} (h : Only ps s0_ s) :
    Only ps s0_ (enterTrial s) := by
  unfold enterTrial
  try dsimp only
  repeat' first
    | (with_reducible assumption)
    | (with_reducible apply moveTo_only (within rfl hl))
    | (with_reducible apply raiseUpd_only (within rfl hl))
    | (with_reducible apply runImage_only (within rfl hl))
    | (with_reducible apply updUpd_only (within rfl hl))

theorem eraseDone_only {ps : List Part} (hl : Part.le [.regs, .lnk, .log, .upd] ps = true) {s0_ : State} {okA : Bool} {okB : Bool} {s : State} (h : Only ps s0_ s) :
    Only ps s0_ (eraseDone okA okB s) := by
  unfold eraseDone
  try dsimp only
  repeat' first
    | (with_reducible assumption)
    | (with_reducible apply failWith_only (within rfl hl))
    | (with_reducible apply flashResult_only (within rfl hl))
    | (with_reducible apply moveTo_only (within rfl hl))
    | (with_reducible apply raiseUpd_only (within rfl hl))
    | (with_reducible apply sendReport_only (within rfl hl))
    | (with_reducible apply Only.ite)
    | (with_reducible apply Only.ite2)

theorem fallbackDone_only {ps : List Part} (hl : Part.le [.regs, .lnk, .enum, .log, .upd] ps = true) {s0_ : State} {s : State} (h : Only ps s0_ s) :
    Only ps s0_ (fallbackDone s) := by
  unfold fallbackDone
  try dsimp only
  repeat' first
    | (with_reducible assumption)
    | (with_reducible apply raiseUpd_only (within rfl hl))
    | (with_reducible apply runImage_only (within rfl hl))
    | (with_reducible apply updUpd_only (within rfl hl))

theorem copyBack_only {ps : List Part} (hl : Part.le [.boot] ps = true) {s0_ : State} {s : State} (h : Only ps s0_ s) :
    Only ps s0_ (copyBack s) := by
  unfold copyBack
  split
  · exact updBoot_only (within rfl hl) h
  · exact h

theorem fallback_only {ps : List Part} (hl : Part.le [.regs, .lnk, .enum, .log, .nvmA, .nvmB, .boot, .upd] ps = true) {s0_ : State} {s : State} (h : Only ps s0_ s) :
    Only ps s0_ (fallback s) := by
  unfold fallback
  try dsimp only
  repeat' first
    | (with_reducible assumption)
    | (with_reducible apply failWith_only (within rfl hl))
    | (with_reducible apply fallbackDone_only (within rfl hl))
    | (with_reducible apply updUpd_only (within rfl hl))
    | (with_reducible apply writeHeaders_only (within rfl hl))
    | (with_reducible apply copyBack_only (within rfl hl))
    | (with_reducible apply Only.ite)
    | (with_reducible apply Only.ite2)

theorem openRx_only {ps : List Part} (hl : Part.le [.regs, .lnk, .log, .nvmA, .nvmB, .boot, .upd] ps = true) {s0_ : State} {session : Nat} {len : Nat} {lo : Nat} {hi : Nat} {s : State} (h : Only ps s0_ s) :
    Only ps s0_ (openRx session len lo hi s) := by
  unfold openRx
  try dsimp only
  repeat' first
    | (with_reducible assumption)
    | (with_reducible apply refuse_only (within rfl hl))
    | (with_reducible apply sendReport_only (within rfl hl))
    | (with_reducible apply takeOpen_only (within rfl hl))
    | (with_reducible apply Only.ite)
    | (with_reducible apply Only.ite2)

theorem recvUpd_only {ps : List Part} (hl : Part.le [.regs, .lnk] ps = true) {s0_ : State} {n : Nat} {h_ : Header} {payload : List Byte} {act : State → State} {s : State} (h : Only ps s0_ s) (h_act : ∀ (u0 : State), Only ps s0_ u0 → Only ps s0_ (act u0)) :
    Only ps s0_ (recvUpd n h_ payload act s) := by
  unfold recvUpd
  try dsimp only
  repeat' first
    | (with_reducible assumption)
    | (with_reducible apply h_act)
    | (with_reducible apply broadcastDown_only (within rfl hl))
    | (with_reducible apply recvFrame_only (within rfl hl))
    | (with_reducible intro _)
    | (with_reducible apply Only.ite)
    | (with_reducible apply Only.ite2)
    | dsimp only

theorem switchDone_only {ps : List Part} (hl : Part.le [.regs, .lnk, .enum, .log, .upd] ps = true) {s0_ : State} {c : Nat} {s : State} (h : Only ps s0_ s) :
    Only ps s0_ (switchDone c s) := by
  unfold switchDone
  try dsimp only
  repeat' first
    | (with_reducible assumption)
    | (with_reducible apply enterTrial_only (within rfl hl))
    | (with_reducible apply fallbackDone_only (within rfl hl))
    | (with_reducible apply setFlag_only (within rfl hl))
    | (with_reducible apply updUpd_only (within rfl hl))
    | (with_reducible apply Only.ite)
    | (with_reducible apply Only.ite2)

theorem releaseAfterReset_only {ps : List Part} (hl : Part.le [.regs, .mem, .ecc, .fw, .crs, .lnk, .enum, .log, .upd] ps = true) {s0_ : State} {c : Nat} {code : List Byte} {s : State} (h : Only ps s0_ s) :
    Only ps s0_ (releaseAfterReset c code s) := by
  unfold releaseAfterReset
  try dsimp only
  repeat' first
    | (with_reducible assumption)
    | (with_reducible apply copyFailed_only (within rfl hl))
    | (with_reducible apply releaseCourse_only (within rfl hl))
    | (with_reducible apply switchDone_only (within rfl hl))
    | (with_reducible apply writeCode_only (within rfl hl))
    | (with_reducible apply Only.ite)
    | (with_reducible apply Only.ite2)

theorem reportRx_only {ps : List Part} (hl : Part.le [.regs, .lnk, .upd] ps = true) {s0_ : State} {n : Nat} {h_ : Header} {session : Nat} {first : Nat} {state : Nat} {reason : Nat} {missing : Nat} {s : State} (h : Only ps s0_ s) :
    Only ps s0_ (reportRx n h_ session first state reason missing s) := by
  unfold reportRx
  try dsimp only
  repeat' first
    | (with_reducible assumption)
    | (with_reducible apply routeFrame_only (within rfl hl))
    | (with_reducible apply updUpd_only (within rfl hl))
    | (with_reducible apply withDom_only (within rfl hl))
    | (with_reducible intro _)
    | (with_reducible apply Only.ite)
    | (with_reducible apply Only.ite2)
    | dsimp only

theorem restartCourse_only {ps : List Part} (hl : Part.le [.regs, .mem, .ecc, .fw, .pan, .crs, .mbx, .lnk, .enum, .twm, .log, .upd] ps = true) {s0_ : State} {c : Nat} {code : List Byte} {s : State} (h : Only ps s0_ s) :
    Only ps s0_ (restartCourse c code s) := by
  unfold restartCourse
  try dsimp only
  repeat' first
    | (with_reducible assumption)
    | (with_reducible apply copyFailed_only (within rfl hl))
    | (with_reducible apply courseRestart_only (within rfl hl))
    | (with_reducible apply finishRestart_only (within rfl hl))
    | (with_reducible apply switchDone_only (within rfl hl))
    | (with_reducible apply Only.ite)
    | (with_reducible apply Only.ite2)

theorem switchChannel_only {ps : List Part} (hl : Part.le [.regs, .xat, .crs, .log, .boot, .upd, .fresh] ps = true) {s0_ : State} {c : Nat} {s : State} (h : Only ps s0_ s) :
    Only ps s0_ (switchChannel c s) := by
  unfold switchChannel
  try dsimp only
  repeat' first
    | (with_reducible assumption)
    | (with_reducible apply beginRestart_only (within rfl hl))
    | (with_reducible apply updBoot_only (within rfl hl))
    | (with_reducible apply updUpd_only (within rfl hl))
    | (with_reducible apply xover_only (within rfl hl))
    | (with_reducible apply Only.ite)
    | (with_reducible apply Only.ite2)

theorem verified_only {ps : List Part} (hl : Part.le [.regs, .lnk, .log, .nvmA, .nvmB, .upd] ps = true) {s0_ : State} {va : Bool} {vb : Bool} {l : List Byte} {s : State} (h : Only ps s0_ s) :
    Only ps s0_ (verified va vb l s) := by
  unfold verified
  try dsimp only
  repeat' first
    | (with_reducible assumption)
    | (with_reducible apply moveTo_only (within rfl hl))
    | (with_reducible apply raiseUpd_only (within rfl hl))
    | (with_reducible apply sendReport_only (within rfl hl))
    | (with_reducible apply setFlag_only (within rfl hl))
    | (with_reducible apply setReg_only (within rfl hl))
    | (with_reducible apply updUpd_only (within rfl hl))
    | (with_reducible apply Only.ite)
    | (with_reducible apply Only.ite2)
    | (with_reducible apply only_set_nvmA_nvmB (within rfl hl))
    | (with_reducible apply only_set_nvmA (within rfl hl))
    | (with_reducible apply only_set_nvmB (within rfl hl))

theorem verify_only {ps : List Part} (hl : Part.le [.regs, .lnk, .log, .nvmA, .nvmB, .upd] ps = true) {s0_ : State} {a : Option (List Byte)} {b : Option (List Byte)} {s : State} (h : Only ps s0_ s) :
    Only ps s0_ (verify a b s) := by
  unfold verify
  try dsimp only
  repeat' first
    | (with_reducible assumption)
    | (with_reducible apply failWith_only (within rfl hl))
    | (with_reducible apply setFlag_only (within rfl hl))
    | (with_reducible apply setReason_only (within rfl hl))
    | (with_reducible apply verified_only (within rfl hl))
    | (with_reducible apply Only.ite)
    | (with_reducible apply Only.ite2)

theorem windowEnd_only {ps : List Part} (hl : Part.le [.regs, .log, .nvmA, .nvmB, .boot, .upd] ps = true) {s0_ : State} {s : State} (h : Only ps s0_ s) :
    Only ps s0_ (windowEnd s) := by
  unfold windowEnd
  try dsimp only
  repeat' first
    | (with_reducible assumption)
    | (with_reducible apply confirm_only (within rfl hl))
    | (with_reducible apply failUpdate_only (within rfl hl))
    | (with_reducible apply Only.ite)
    | (with_reducible apply Only.ite2)

end Sys2Proof.Machine
end

