-- ==== Sys2Proof/Laws/OnlyAccess.lean ====
section
/-! SUPPORT. Footprints of the operations of Machine/Access.lean: the parts of the state each may change. -/
namespace Sys2Proof.Machine

theorem writeHeld_only {ps : List Part} (hl : Part.le [.regs, .saved, .boot] ps = true) {s0_ : State} {host : Bool} {r : RegRow} {a : Nat} {v : Word} {s : State} (h : Only ps s0_ s) :
    Only ps s0_ (writeHeld host r a v s) := by
  unfold writeHeld
  try dsimp only
  repeat' first
    | (with_reducible assumption)
    | (with_reducible apply saveSetting_only (within rfl hl))
    | (with_reducible apply setReg_only (within rfl hl))
    | (with_reducible apply Only.ite)
    | (with_reducible apply Only.ite2)

theorem writeAdc_only {ps : List Part} (hl : Part.le [.regs, .dieRegs, .adc, .saved, .boot] ps = true) {s0_ : State} {host : Bool} {r : RegRow} {a : Nat} {v : Word} {s : State} (h : Only ps s0_ s) :
    Only ps s0_ (writeAdc host r a v s) := by
  unfold writeAdc
  try dsimp only
  repeat' first
    | (with_reducible assumption)
    | (with_reducible apply adcCmd_only (within rfl hl))
    | (with_reducible apply saveSetting_only (within rfl hl))
    | (with_reducible apply writeHeld_only (within rfl hl))
    | (with_reducible apply writeUnit_only (within rfl hl))
    | (with_reducible apply Only.ite)
    | (with_reducible apply Only.ite2)

theorem writeCtx_only {ps : List Part} (hl : Part.le [.ctx] ps = true) {s0_ : State} {c : Nat} {o : Nat} {v : Word} {s : State} (h : Only ps s0_ s) :
    Only ps s0_ (writeCtx c o v s) := by
  unfold writeCtx
  try dsimp only
  repeat' first
    | (with_reducible assumption)
    | (with_reducible apply updCtx_only (within rfl hl))
    | (with_reducible apply writeCtxTimer_only (within rfl hl))
    | split
    | dsimp only

theorem writeCtxCmd_only {ps : List Part} (hl : Part.le [.regs, .hub, .ctx, .chan] ps = true) {s0_ : State} {c : Nat} {v : Word} {s : State} (h : Only ps s0_ s) :
    Only ps s0_ (writeCtxCmd c v s) := by
  unfold writeCtxCmd
  try dsimp only
  repeat' first
    | (with_reducible assumption)
    | (with_reducible apply releaseCtx_only (within rfl hl))
    | (with_reducible apply Only.ite)
    | (with_reducible apply Only.ite2)

theorem writeChn_only {ps : List Part} (hl : Part.le [.regs, .mem, .ecc, .port, .mir, .phy, .hub, .ctx, .pan, .opq, .chan, .crs, .ceSecond, .saved, .log, .boot, .upd, .fresh] ps = true) {s0_ : State} {host : Bool} {r : RegRow} {a : Nat} {v : Word} {s : State} (h : Only ps s0_ s) :
    Only ps s0_ (writeChn host r a v s) := by
  unfold writeChn
  try dsimp only
  repeat' first
    | (with_reducible assumption)
    | (with_reducible apply abortOps_only (within rfl hl))
    | (with_reducible apply crsCmd_only (within rfl hl))
    | (with_reducible apply ctxTx_only (within rfl hl))
    | (with_reducible apply hvCmd_only (within rfl hl))
    | (with_reducible apply panPut_only (within rfl hl))
    | (with_reducible apply pushOp_only (within rfl hl))
    | (with_reducible apply serveMarks_only (within rfl hl))
    | (with_reducible apply wdKick_only (within rfl hl))
    | (with_reducible apply writeCtx_only (within rfl hl))
    | (with_reducible apply writeCtxCmd_only (within rfl hl))
    | (with_reducible apply writeHeld_only (within rfl hl))
    | (with_reducible apply writeHvst_only (within rfl hl))
    | (with_reducible apply Only.ite)
    | (with_reducible apply Only.ite2)

theorem writeBootCmd_only {ps : List Part} (hl : Part.le [.regs, .log, .boot] ps = true) {s0_ : State} {v : Word} {s : State} (h : Only ps s0_ s) :
    Only ps s0_ (writeBootCmd v s) := by
  unfold writeBootCmd
  try dsimp only
  repeat' first
    | (with_reducible assumption)
    | (with_reducible apply cmdRefresh_only (within rfl hl))
    | (with_reducible apply cmdRetry_only (within rfl hl))
    | (with_reducible apply cmdSave_only (within rfl hl))
    | (with_reducible apply Only.ite)
    | (with_reducible apply Only.ite2)

theorem writeOtpCmd_only {ps : List Part} (hl : Part.le [.regs, .otp, .fresh] ps = true) {s0_ : State} {v : Word} {s : State} (h : Only ps s0_ s) :
    Only ps s0_ (writeOtpCmd v s) := by
  unfold writeOtpCmd
  try dsimp only
  repeat' first
    | (with_reducible assumption)
    | (with_reducible apply drawNat_only (within rfl hl))
    | (with_reducible apply otpCommand_only (within rfl hl))
    | (with_reducible apply Only.ite)
    | (with_reducible apply Only.ite2)
    | split
    | dsimp only

theorem writePadmin_only {ps : List Part} (hl : Part.le [.prec, .ecc] ps = true) {s0_ : State} {v : Word} {s : State} (h : Only ps s0_ s) :
    Only ps s0_ (writePadmin v s) := by
  unfold writePadmin
  try dsimp only
  repeat' first
    | (with_reducible assumption)
    | (with_reducible apply setRec_only (within rfl hl))
    | (with_reducible apply wordsWritten_only (within rfl hl))

theorem writeDev_only {ps : List Part} (hl : Part.le [.regs, .prec, .mem, .ecc, .xat, .port, .phy, .hub, .fw, .ctx, .pan, .opq, .chan, .die, .crs, .mbx, .lnk, .enum, .twm, .ceSecond, .saved, .log, .nvmA, .nvmB, .boot, .otp, .upd, .fresh] ps = true) {s0_ : State} {host : Bool} {r : RegRow} {a : Nat} {v : Word} {s : State} (h : Only ps s0_ s) :
    Only ps s0_ (writeDev host r a v s) := by
  unfold writeDev
  try dsimp only
  repeat' first
    | (with_reducible assumption)
    | (with_reducible apply writeBootCmd_only (within rfl hl))
    | (with_reducible apply writeChrst_only (within rfl hl))
    | (with_reducible apply writeHeld_only (within rfl hl))
    | (with_reducible apply writeLnkCmd_only (within rfl hl))
    | (with_reducible apply writeOtpCmd_only (within rfl hl))
    | (with_reducible apply writeOwner_only (within rfl hl))
    | (with_reducible apply writePadmin_only (within rfl hl))
    | (with_reducible apply writeUpdCmd_only (within rfl hl))
    | (with_reducible apply Only.ite)
    | (with_reducible apply Only.ite2)

theorem writeFdrCmd_only {ps : List Part} (hl : Part.le [.fdrMon] ps = true) {s0_ : State} {f : Nat} {v : Word} {s : State} (h : Only ps s0_ s) :
    Only ps s0_ (writeFdrCmd f v s) := by
  unfold writeFdrCmd
  try dsimp only
  repeat' first
    | (with_reducible assumption)
    | (with_reducible apply updMon_only (within rfl hl))
    | (with_reducible apply Only.ite)
    | (with_reducible apply Only.ite2)

theorem writePlc_only {ps : List Part} (hl : Part.le [.regs, .fdrMon, .saved, .log, .boot] ps = true) {s0_ : State} {host : Bool} {r : RegRow} {a : Nat} {v : Word} {s : State} (h : Only ps s0_ s) :
    Only ps s0_ (writePlc host r a v s) := by
  unfold writePlc
  try dsimp only
  repeat' first
    | (with_reducible assumption)
    | (with_reducible apply setLevel_only (within rfl hl))
    | (with_reducible apply writeFdrCmd_only (within rfl hl))
    | (with_reducible apply writeHeld_only (within rfl hl))
    | (with_reducible apply Only.ite)
    | (with_reducible apply Only.ite2)

theorem writePdCmd_only {ps : List Part} (hl : Part.le [.regs, .mem, .ecc, .xat, .phy, .hub, .ctx, .pan, .chan, .ceSecond, .log, .fresh] ps = true) {s0_ : State} {p : Nat} {v : Word} {s : State} (h : Only ps s0_ s) :
    Only ps s0_ (writePdCmd p v s) := by
  unfold writePdCmd
  try dsimp only
  repeat' first
    | (with_reducible assumption)
    | (with_reducible apply allocCtx_only (within rfl hl))
    | (with_reducible apply cableReset_only (within rfl hl))
    | (with_reducible apply cancelCtx_only (within rfl hl))
    | (with_reducible apply cmdHardReset_only (within rfl hl))
    | (with_reducible apply Only.ite)
    | (with_reducible apply Only.ite2)

theorem writePrtCmd_only {ps : List Part} (hl : Part.le [.regs, .dieRegs, .mem, .ecc, .port, .mir, .phy, .hub, .ctx, .pan, .opq, .chan, .adm, .fresh] ps = true) {s0_ : State} {host : Bool} {p : Nat} {v : Word} {s : State} (h : Only ps s0_ s) :
    Only ps s0_ (writePrtCmd host p v s) := by
  unfold writePrtCmd
  try dsimp only
  repeat' first
    | (with_reducible assumption)
    | (with_reducible apply adminDis_only (within rfl hl))
    | (with_reducible apply adminEn_only (within rfl hl))
    | (with_reducible apply cmdUnlock_only (within rfl hl))
    | (with_reducible apply Only.ite)
    | (with_reducible apply Only.ite2)

theorem writePrt_only {ps : List Part} (hl : Part.le [.regs, .dieRegs, .mem, .ecc, .xat, .port, .mir, .phy, .hub, .ctx, .pan, .opq, .chan, .adc, .ceSecond, .adm, .saved, .log, .boot, .fresh] ps = true) {s0_ : State} {host : Bool} {r : RegRow} {a : Nat} {v : Word} {s : State} (h : Only ps s0_ s) :
    Only ps s0_ (writePrt host r a v s) := by
  unfold writePrt
  try dsimp only
  repeat' first
    | (with_reducible assumption)
    | (with_reducible apply writeHeld_only (within rfl hl))
    | (with_reducible apply writeKa_only (within rfl hl))
    | (with_reducible apply writePdCmd_only (within rfl hl))
    | (with_reducible apply writePortSetting_only (within rfl hl))
    | (with_reducible apply writePrtCmd_only (within rfl hl))
    | split
    | dsimp only

theorem writeTmu_only {ps : List Part} (hl : Part.le [.regs, .timer, .saved, .boot] ps = true) {s0_ : State} {who : Who} {r : RegRow} {a : Nat} {v : Word} {s : State} (h : Only ps s0_ s) :
    Only ps s0_ (writeTmu who r a v s) := by
  unfold writeTmu
  try dsimp only
  repeat' first
    | (with_reducible assumption)
    | (with_reducible apply setReg_only (within rfl hl))
    | (with_reducible apply tmuCmd_only (within rfl hl))
    | (with_reducible apply tmuGroup_only (within rfl hl))
    | (with_reducible apply writeCapsrc_only (within rfl hl))
    | (with_reducible apply writeCmp_only (within rfl hl))
    | (with_reducible apply writeCtl_only (within rfl hl))
    | (with_reducible apply writeHeld_only (within rfl hl))
    | (with_reducible apply writeRld_only (within rfl hl))
    | (with_reducible apply writeSrc_only (within rfl hl))
    | (with_reducible apply Only.ite)
    | (with_reducible apply Only.ite2)
    | split
    | dsimp only

theorem writeReg_only {ps : List Part} (hl : Part.le [.regs, .dieRegs, .prec, .mem, .ecc, .timer, .xat, .port, .mir, .phy, .hub, .fw, .ctx, .pan, .opq, .chan, .fdrMon, .die, .crs, .mbx, .lnk, .enum, .twm, .adc, .ceSecond, .adm, .saved, .log, .nvmA, .nvmB, .boot, .otp, .upd, .fresh] ps = true) {s0_ : State} {who : Who} {r : RegRow} {a : Nat} {v : Word} {s : State} (h : Only ps s0_ s) :
    Only ps s0_ (writeReg who r a v s) := by
  unfold writeReg
  try dsimp only
  repeat' first
    | (with_reducible assumption)
    | (with_reducible apply angSnap_only (within rfl hl))
    | (with_reducible apply writeAdc_only (within rfl hl))
    | (with_reducible apply writeChn_only (within rfl hl))
    | (with_reducible apply writeDev_only (within rfl hl))
    | (with_reducible apply writeHeld_only (within rfl hl))
    | (with_reducible apply writePlc_only (within rfl hl))
    | (with_reducible apply writePrt_only (within rfl hl))
    | (with_reducible apply writeTmu_only (within rfl hl))
    | (with_reducible apply Only.ite)
    | (with_reducible apply Only.ite2)

theorem readHeld_only {ps : List Part} (hl : Part.le [.regs] ps = true) {s0_ : State} {r : RegRow} {a : Nat} {s : State} (h : Only ps s0_ s) :
    Only ps s0_ (readHeld r a s).2 := by
  unfold readHeld
  try dsimp only
  repeat' first
    | (with_reducible assumption)
    | (with_reducible apply setReg_only (within rfl hl))

theorem show0_only {ps : List Part} (hl : Part.le [] ps = true) {s0_ : State} {v : Word} {s : State} (h : Only ps s0_ s) :
    Only ps s0_ (show0 v s).2 := by
  unfold show0
  try dsimp only
  repeat' first
    | (with_reducible assumption)

theorem readAdc_only {ps : List Part} (hl : Part.le [.regs, .dieRegs, .adc] ps = true) {s0_ : State} {r : RegRow} {a : Nat} {s : State} (h : Only ps s0_ s) :
    Only ps s0_ (readAdc r a s).2 := by
  unfold readAdc
  try dsimp only
  repeat' first
    | (with_reducible assumption)
    | (with_reducible apply readFeederLo_only (within rfl hl))
    | (with_reducible apply readHeld_only (within rfl hl))
    | (with_reducible apply readHrvCyc_only (within rfl hl))
    | (with_reducible apply show0_only (within rfl hl))
    | (with_reducible apply writeUnit_only (within rfl hl))
    | (with_reducible apply Only.ite)
    | (with_reducible apply Only.ite2)
    | split
    | dsimp only

theorem readAng_only {ps : List Part} (hl : Part.le [.regs] ps = true) {s0_ : State} {r : RegRow} {a : Nat} {s : State} (h : Only ps s0_ s) :
    Only ps s0_ (readAng r a s).2 := by
  unfold readAng
  try dsimp only
  repeat' first
    | (with_reducible assumption)
    | (with_reducible apply readCycLo_only (within rfl hl))
    | (with_reducible apply readHeld_only (within rfl hl))
    | (with_reducible apply readUsecLo_only (within rfl hl))
    | (with_reducible apply show0_only (within rfl hl))
    | (with_reducible apply Only.ite)
    | (with_reducible apply Only.ite2)

theorem readPanget_only {ps : List Part} (hl : Part.le [.pan, .fresh] ps = true) {s0_ : State} {c : Nat} {s : State} (h : Only ps s0_ s) :
    Only ps s0_ (readPanget c s).2 := by
  unfold readPanget
  try dsimp only
  repeat' first
    | (with_reducible assumption)
    | (with_reducible apply pick_only (within rfl hl))
    | (with_reducible apply setPan_only (within rfl hl))
    | (with_reducible apply Only.ite)
    | (with_reducible apply Only.ite2)

theorem readChn_only {ps : List Part} (hl : Part.le [.regs, .hub, .ctx, .pan, .chan, .fresh] ps = true) {s0_ : State} {r : RegRow} {a : Nat} {s : State} (h : Only ps s0_ s) :
    Only ps s0_ (readChn r a s).2 := by
  unfold readChn
  try dsimp only
  repeat' first
    | (with_reducible assumption)
    | (with_reducible apply readCq_only (within rfl hl))
    | (with_reducible apply readEvq_only (within rfl hl))
    | (with_reducible apply readHeld_only (within rfl hl))
    | (with_reducible apply readPanget_only (within rfl hl))
    | (with_reducible apply setReg_only (within rfl hl))
    | (with_reducible apply show0_only (within rfl hl))
    | (with_reducible apply Only.ite)
    | (with_reducible apply Only.ite2)

theorem readFlt_only {ps : List Part} (hl : Part.le [.regs] ps = true) {s0_ : State} {r : RegRow} {a : Nat} {s : State} (h : Only ps s0_ s) :
    Only ps s0_ (readFlt r a s).2 := by
  unfold readFlt
  try dsimp only
  repeat' first
    | (with_reducible assumption)
    | (with_reducible apply readHeld_only (within rfl hl))
    | (with_reducible apply setFld_only (within rfl hl))
    | (with_reducible apply show0_only (within rfl hl))
    | (with_reducible apply Only.ite)
    | (with_reducible apply Only.ite2)
    | split
    | dsimp only

theorem readPlc_only {ps : List Part} (hl : Part.le [.regs] ps = true) {s0_ : State} {r : RegRow} {a : Nat} {s : State} (h : Only ps s0_ s) :
    Only ps s0_ (readPlc r a s).2 := by
  unfold readPlc
  try dsimp only
  repeat' first
    | (with_reducible assumption)
    | (with_reducible apply readHeld_only (within rfl hl))
    | (with_reducible apply show0_only (within rfl hl))
    | (with_reducible apply Only.ite)
    | (with_reducible apply Only.ite2)

theorem readPrt_only {ps : List Part} (hl : Part.le [.regs] ps = true) {s0_ : State} {r : RegRow} {a : Nat} {s : State} (h : Only ps s0_ s) :
    Only ps s0_ (readPrt r a s).2 := by
  unfold readPrt
  try dsimp only
  repeat' first
    | (with_reducible assumption)
    | (with_reducible apply readElo_only (within rfl hl))
    | (with_reducible apply readHeld_only (within rfl hl))
    | (with_reducible apply show0_only (within rfl hl))
    | split
    | dsimp only

theorem readSerial_only {ps : List Part} (hl : Part.le [.regs] ps = true) {s0_ : State} {s : State} (h : Only ps s0_ s) :
    Only ps s0_ (readSerial s).2 := by
  unfold readSerial
  try dsimp only
  repeat' first
    | (with_reducible assumption)
    | (with_reducible apply setReg_only (within rfl hl))

theorem readTmu_only {ps : List Part} (hl : Part.le [.regs, .timer] ps = true) {s0_ : State} {r : RegRow} {a : Nat} {s : State} (h : Only ps s0_ s) :
    Only ps s0_ (readTmu r a s).2 := by
  unfold readTmu
  try dsimp only
  repeat' first
    | (with_reducible assumption)
    | (with_reducible apply readCap_only (within rfl hl))
    | (with_reducible apply readCnt_only (within rfl hl))
    | (with_reducible apply readHeld_only (within rfl hl))
    | split
    | dsimp only

theorem readTwm_only {ps : List Part} (hl : Part.le [.regs] ps = true) {s0_ : State} {r : RegRow} {a : Nat} {s : State} (h : Only ps s0_ s) :
    Only ps s0_ (readTwm r a s).2 := by
  unfold readTwm
  try dsimp only
  repeat' first
    | (with_reducible assumption)
    | (with_reducible apply readHeld_only (within rfl hl))
    | (with_reducible apply show0_only (within rfl hl))
    | (with_reducible apply Only.ite)
    | (with_reducible apply Only.ite2)
    | split
    | dsimp only

theorem readUpd_only {ps : List Part} (hl : Part.le [.regs] ps = true) {s0_ : State} {r : RegRow} {a : Nat} {s : State} (h : Only ps s0_ s) :
    Only ps s0_ (readUpd r a s).2 := by
  unfold readUpd
  try dsimp only
  repeat' first
    | (with_reducible assumption)
    | (with_reducible apply readHeld_only (within rfl hl))
    | (with_reducible apply show0_only (within rfl hl))
    | (with_reducible apply Only.ite)
    | (with_reducible apply Only.ite2)

theorem readReg_only {ps : List Part} (hl : Part.le [.regs, .dieRegs, .timer, .hub, .ctx, .pan, .chan, .adc, .fresh] ps = true) {s0_ : State} {r : RegRow} {a : Nat} {s : State} (h : Only ps s0_ s) :
    Only ps s0_ (readReg r a s).2 := by
  unfold readReg
  try dsimp only
  repeat' first
    | (with_reducible assumption)
    | (with_reducible apply readAdc_only (within rfl hl))
    | (with_reducible apply readAng_only (within rfl hl))
    | (with_reducible apply readChn_only (within rfl hl))
    | (with_reducible apply readFlt_only (within rfl hl))
    | (with_reducible apply readHeld_only (within rfl hl))
    | (with_reducible apply readPlc_only (within rfl hl))
    | (with_reducible apply readPrt_only (within rfl hl))
    | (with_reducible apply readSerial_only (within rfl hl))
    | (with_reducible apply readTmu_only (within rfl hl))
    | (with_reducible apply readTwm_only (within rfl hl))
    | (with_reducible apply readUpd_only (within rfl hl))
    | (with_reducible apply Only.ite)
    | (with_reducible apply Only.ite2)

theorem maPoison_only {ps : List Part} (hl : Part.le [.regs, .fresh] ps = true) {s0_ : State} {a : Nat} {s : State} (h : Only ps s0_ s) :
    Only ps s0_ (maPoison a s) := by
  unfold maPoison
  try dsimp only
  repeat' first
    | (with_reducible assumption)
    | (with_reducible apply drawNat_only (within rfl hl))
    | (with_reducible apply maErr_only (within rfl hl))

theorem hostRead_only {ps : List Part} (hl : Part.le [.regs, .dieRegs, .mem, .ecc, .timer, .hub, .ctx, .pan, .chan, .adc, .ceSecond, .log, .fresh] ps = true) {s0_ : State} {a : Nat} {s : State} (h : Only ps s0_ s) :
    Only ps s0_ (hostRead a s).st := by
  have hs := seen_only (within rfl hl) (l := s.regPlaces a) h
  unfold hostRead
  split
  · exact h
  · split
    · exact maErr_only (within rfl hl) h
    · split
      · exact h
      · split
        · exact h
        · try dsimp only
          split
          · exact maPoison_only (within rfl hl) hs
          · exact readReg_only (within rfl hl) hs

theorem hostWrite_only {ps : List Part} (hl : Part.le [.regs, .dieRegs, .prec, .mem, .ecc, .timer, .xat, .port, .mir, .phy, .hub, .fw, .ctx, .pan, .opq, .chan, .fdrMon, .die, .crs, .mbx, .lnk, .enum, .twm, .adc, .ceSecond, .adm, .saved, .log, .nvmA, .nvmB, .boot, .otp, .upd, .fresh] ps = true) {s0_ : State} {a : Nat} {v : Word} {s : State} (h : Only ps s0_ s) :
    Only ps s0_ (hostWrite a v s).2 := by
  unfold hostWrite
  try dsimp only
  repeat' first
    | (with_reducible assumption)
    | (with_reducible apply afterWrite_only (within rfl hl))
    | (with_reducible apply maErr_only (within rfl hl))
    | (with_reducible apply writeReg_only (within rfl hl))
    | (with_reducible apply Only.ite)
    | (with_reducible apply Only.ite2)
    | split
    | dsimp only

theorem hostReadCmd_only {ps : List Part} (hl : Part.le [.regs, .dieRegs, .mem, .ecc, .timer, .hub, .ctx, .pan, .chan, .adc, .ceSecond, .clk, .log, .bus, .fresh] ps = true) {s0_ : State} {a : Nat} {s : State} (h : Only ps s0_ s) :
    Only ps s0_ (hostReadCmd a s) := by
  unfold hostReadCmd
  try dsimp only
  repeat' first
    | (with_reducible assumption)
    | (with_reducible apply hostRead_only (within rfl hl))
    | (with_reducible apply setBus_only (within rfl hl))
    | (with_reducible apply twmCmd_only (within rfl hl))
    | (with_reducible intro _)
    | dsimp only

end Sys2Proof.Machine
end

