-- ==== Sys2Proof/Laws/Fld.lean ====
section
/-! SUPPORT. Register fields: a field reads back what was put into it, and a write leaves the fields beside it. -/
namespace Sys2Proof.Machine

/-- A field lies within the 32 bits of a register. -/
abbrev Fld.fits (f : Fld) : Prop := f.lo + f.w ≤ 32

/-- Two fields share no bit. -/
abbrev Fld.apart (f g : Fld) : Prop := f.lo + f.w ≤ g.lo ∨ g.lo + g.w ≤ f.lo

theorem Fld.mask_bit (f : Fld) (i : Nat) :
    f.mask.getLsbD i = (decide (i < 32) && decide (f.lo ≤ i) && decide (i < f.lo + f.w)) := by
  unfold Fld.mask
  rw [BitVec.getLsbD_ofNat, Nat.testBit_mul_two_pow, Nat.testBit_two_pow_sub_one]
  by_cases h1 : i < 32 <;> by_cases h2 : f.lo ≤ i <;> by_cases h3 : i < f.lo + f.w <;>
    simp [h1, h2, h3] <;> omega

/-- The bits of a word after a field is put. -/
theorem Fld.put_bit (f : Fld) (w : Word) (v i : Nat) :
    (f.put w v).getLsbD i =
      if i < 32 ∧ f.lo ≤ i ∧ i < f.lo + f.w then v.testBit (i - f.lo) else w.getLsbD i := by
  unfold Fld.put
  rw [BitVec.getLsbD_or, BitVec.getLsbD_and, BitVec.getLsbD_and, BitVec.getLsbD_not, Fld.mask_bit,
    BitVec.getLsbD_ofNat, Nat.testBit_mul_two_pow]
  by_cases h1 : i < 32
  · by_cases h2 : f.lo ≤ i <;> by_cases h3 : i < f.lo + f.w <;> simp [h1, h2, h3]
  · simp [h1, BitVec.getLsbD_of_ge w i (Nat.le_of_not_lt h1)]

theorem Fld.get_bit (f : Fld) (w : Word) (i : Nat) :
    (f.get w).testBit i = (decide (i < f.w) && w.getLsbD (f.lo + i)) := by
  unfold Fld.get
  rw [BitVec.testBit_toNat, BitVec.getLsbD_extractLsb']

theorem Fld.get_lt (f : Fld) (w : Word) : f.get w < 2 ^ f.w := (w.extractLsb' f.lo f.w).isLt

/-- A field reads back what was put into it, less the bits beyond its width. -/
theorem Fld.get_put (f : Fld) (w : Word) (v : Nat) (h : f.fits) : f.get (f.put w v) = v % 2 ^ f.w := by
  apply Nat.eq_of_testBit_eq
  intro i
  rw [Fld.get_bit, Fld.put_bit, Nat.testBit_mod_two_pow]
  by_cases hi : i < f.w
  · have : f.lo + i < 32 ∧ f.lo ≤ f.lo + i ∧ f.lo + i < f.lo + f.w := ⟨by have := h; omega, by omega, by omega⟩
    simp [hi, this]
  · simp [hi]

/-- A field put leaves the fields apart from it. -/
theorem Fld.get_put_apart (f g : Fld) (w : Word) (v : Nat) (h : f.apart g) : g.get (f.put w v) = g.get w := by
  apply Nat.eq_of_testBit_eq
  intro i
  rw [Fld.get_bit, Fld.get_bit, Fld.put_bit]
  by_cases hi : i < g.w
  · have : ¬(g.lo + i < 32 ∧ f.lo ≤ g.lo + i ∧ g.lo + i < f.lo + f.w) := by rcases h with h | h <;> omega
    simp [this]
  · simp [hi]

/-! ### Fields of the registers of the state -/

theorem reg_setFld (a : Nat) (f : Fld) (v : Nat) (s : State) : (setFld a f v s).reg a = f.put (s.reg a) v := by
  simp [setFld]

theorem reg_setFld_ne (a b : Nat) (f : Fld) (v : Nat) (s : State) (h : b ≠ a) : (setFld a f v s).reg b = s.reg b :=
  reg_setReg_ne _ _ _ _ h

theorem fld_setFld (a : Nat) (f : Fld) (v : Nat) (s : State) (h : f.fits) :
    (setFld a f v s).fld a f = v % 2 ^ f.w := by
  unfold State.fld
  rw [reg_setFld, Fld.get_put f _ _ h]

theorem fld_setFld_apart (a : Nat) (f g : Fld) (v : Nat) (s : State) (h : f.apart g) :
    (setFld a f v s).fld a g = s.fld a g := by
  unfold State.fld
  rw [reg_setFld, Fld.get_put_apart f g _ _ h]

theorem fld_setFld_ne (a b : Nat) (f g : Fld) (v : Nat) (s : State) (h : b ≠ a) :
    (setFld a f v s).fld b g = s.fld b g := by
  unfold State.fld
  rw [reg_setFld_ne _ _ _ _ _ h]

theorem flag_setFlag (a : Nat) (f : Fld) (b : Bool) (s : State) (h : f.fits) (hw : f.w = 1) :
    (setFlag a f b s).flag a f = b := by
  unfold setFlag State.flag
  rw [fld_setFld _ _ _ _ h, hw]
  cases b <;> rfl

/-- A counting field rises by one and stays at its largest value. -/
theorem fld_incFld (a : Nat) (f : Fld) (s : State) (h : f.fits) :
    (incFld a f s).fld a f = min (s.fld a f + 1) (2 ^ f.w - 1) := by
  have hp : 0 < 2 ^ f.w := Nat.two_pow_pos _
  unfold incFld
  split
  · next hl => rw [fld_setFld _ _ _ _ h, Nat.mod_eq_of_lt hl, Nat.min_eq_left (by omega)]
  · next hl => rw [fld_setFld _ _ _ _ h, Nat.mod_eq_of_lt (by omega), Nat.min_eq_right (by omega)]

theorem reg_incFld_ne (a b : Nat) (f : Fld) (s : State) (h : b ≠ a) : (incFld a f s).reg b = s.reg b := by
  unfold incFld
  split <;> exact reg_setFld_ne _ _ _ _ _ h

end Sys2Proof.Machine
end

