-- ==== Sys2Proof/Laws/Reads.lean ====
section
/-! SUPPORT. What a view of the state reads: after a change outside the parts it reads, it gives what it gave before. One lemma
to a view, each used with the footprint lemmas `…_only`. -/
namespace Sys2Proof

/-- Two lists of parts have no part in common, decided on masks. -/
def Part.apart (l l' : List Part) : Bool := (Part.mask l &&& Part.mask l').beq 0

theorem Part.apart_not_mem {l l' : List Part} (h : Part.apart l l' = true) {p : Part} (hp : p ∈ l') : p ∉ l := by
  intro hm
  have h1 := Nat.eq_of_beq_eq_true h
  have h2 := (Part.mask_bit l p).mpr hm
  have h3 := (Part.mask_bit l' p).mpr hp
  have h4 := Nat.zero_testBit p.ctorIdx
  rw [← h1, Nat.testBit_and, h2, h3] at h4
  cases h4

namespace Machine

theorem State.abWithin_of_only {l : List Part} {s t : State} (h : Only l s t) (hd : Part.apart l [.regs, .fdrMon] = true) (x0 : Nat) (x1 : Nat) :
    State.abWithin t x0 x1 = State.abWithin s x0 x1 := by
  have h0 : t.regs = s.regs := h .regs (Part.apart_not_mem hd (by decide))
  have h1 : t.fdrMon = s.fdrMon := h .fdrMon (Part.apart_not_mem hd (by decide))
  clear h hd
  cases s; cases t; dsimp only at h0 h1; subst h0; subst h1; rfl

theorem State.accessCause_of_only {l : List Part} {s t : State} (h : Only l s t) (hd : Part.apart l [.regs, .chan, .clk] = true) (x0 : Nat) :
    State.accessCause t x0 = State.accessCause s x0 := by
  have h0 : t.regs = s.regs := h .regs (Part.apart_not_mem hd (by decide))
  have h1 : t.chan = s.chan := h .chan (Part.apart_not_mem hd (by decide))
  have h2 : t.clk = s.clk := h .clk (Part.apart_not_mem hd (by decide))
  clear h hd
  cases s; cases t; dsimp only at h0 h1 h2; subst h0; subst h1; subst h2; rfl

theorem State.accessory_of_only {l : List Part} {s t : State} (h : Only l s t) (hd : Part.apart l [.regs, .dieRegs, .phy] = true) (x0 : Nat) (x1 : Nat) (x2 : Nat) :
    State.accessory t x0 x1 x2 = State.accessory s x0 x1 x2 := by
  have h0 : t.regs = s.regs := h .regs (Part.apart_not_mem hd (by decide))
  have h1 : t.dieRegs = s.dieRegs := h .dieRegs (Part.apart_not_mem hd (by decide))
  have h2 : t.phy = s.phy := h .phy (Part.apart_not_mem hd (by decide))
  clear h hd
  cases s; cases t; dsimp only at h0 h1 h2; subst h0; subst h1; subst h2; rfl

theorem State.ackOverdue_of_only {l : List Part} {s t : State} (h : Only l s t) (hd : Part.apart l [.lnk, .clock] = true) (x0 : Nat) (x1 : Nat) :
    State.ackOverdue t x0 x1 = State.ackOverdue s x0 x1 := by
  have h0 : t.lnk = s.lnk := h .lnk (Part.apart_not_mem hd (by decide))
  have h1 : t.clock = s.clock := h .clock (Part.apart_not_mem hd (by decide))
  clear h hd
  cases s; cases t; dsimp only at h0 h1; subst h0; subst h1; rfl

theorem State.act_of_only {l : List Part} {s t : State} (h : Only l s t) (hd : Part.apart l [.regs] = true) (x0 : Nat) (x1 : Fld) :
    State.act t x0 x1 = State.act s x0 x1 := by
  have h0 : t.regs = s.regs := h .regs (Part.apart_not_mem hd (by decide))
  clear h hd
  cases s; cases t; dsimp only at h0; subst h0; rfl

theorem State.activateRefusal_of_only {l : List Part} {s t : State} (h : Only l s t) (hd : Part.apart l [.regs, .bankA, .bankB, .active, .nvmA, .nvmB, .upd] = true) (x0 : Bool) :
    State.activateRefusal t x0 = State.activateRefusal s x0 := by
  have h0 : t.regs = s.regs := h .regs (Part.apart_not_mem hd (by decide))
  have h1 : t.bankA = s.bankA := h .bankA (Part.apart_not_mem hd (by decide))
  have h2 : t.bankB = s.bankB := h .bankB (Part.apart_not_mem hd (by decide))
  have h3 : t.active = s.active := h .active (Part.apart_not_mem hd (by decide))
  have h4 : t.nvmA = s.nvmA := h .nvmA (Part.apart_not_mem hd (by decide))
  have h5 : t.nvmB = s.nvmB := h .nvmB (Part.apart_not_mem hd (by decide))
  have h6 : t.upd = s.upd := h .upd (Part.apart_not_mem hd (by decide))
  clear h hd
  cases s; cases t; dsimp only at h0 h1 h2 h3 h4 h5 h6; subst h0; subst h1; subst h2; subst h3; subst h4; subst h5; subst h6; rfl

theorem State.active3_of_only {l : List Part} {s t : State} (h : Only l s t) (hd : Part.apart l [.regs, .crs] = true) (x0 : Nat) :
    State.active3 t x0 = State.active3 s x0 := by
  have h0 : t.regs = s.regs := h .regs (Part.apart_not_mem hd (by decide))
  have h1 : t.crs = s.crs := h .crs (Part.apart_not_mem hd (by decide))
  clear h hd
  cases s; cases t; dsimp only at h0 h1; subst h0; subst h1; rfl

theorem State.acts_of_only {l : List Part} {s t : State} (h : Only l s t) (hd : Part.apart l [.regs] = true) (x0 : Nat) (x1 : Fld) :
    State.acts t x0 x1 = State.acts s x0 x1 := by
  have h0 : t.regs = s.regs := h .regs (Part.apart_not_mem hd (by decide))
  clear h hd
  cases s; cases t; dsimp only at h0; subst h0; rfl

theorem State.adcOf_of_only {l : List Part} {s t : State} (h : Only l s t) (hd : Part.apart l [.adc] = true) (x0 : Nat) :
    State.adcOf t x0 = State.adcOf s x0 := by
  have h0 : t.adc = s.adc := h .adc (Part.apart_not_mem hd (by decide))
  clear h hd
  cases s; cases t; dsimp only at h0; subst h0; rfl

theorem State.addrR_of_only {l : List Part} {s t : State} (h : Only l s t) (hd : Part.apart l [.regs] = true) :
    State.addrR t = State.addrR s := by
  have h0 : t.regs = s.regs := h .regs (Part.apart_not_mem hd (by decide))
  clear h hd
  cases s; cases t; dsimp only at h0; subst h0; rfl

theorem State.addrW_of_only {l : List Part} {s t : State} (h : Only l s t) (hd : Part.apart l [.regs] = true) :
    State.addrW t = State.addrW s := by
  have h0 : t.regs = s.regs := h .regs (Part.apart_not_mem hd (by decide))
  clear h hd
  cases s; cases t; dsimp only at h0; subst h0; rfl

theorem State.admFeeder_of_only {l : List Part} {s t : State} (h : Only l s t) (hd : Part.apart l [.regs] = true) (x0 : Nat) :
    State.admFeeder t x0 = State.admFeeder s x0 := by
  have h0 : t.regs = s.regs := h .regs (Part.apart_not_mem hd (by decide))
  clear h hd
  cases s; cases t; dsimp only at h0; subst h0; rfl

theorem State.admQuota_of_only {l : List Part} {s t : State} (h : Only l s t) (hd : Part.apart l [.regs] = true) (x0 : Nat) :
    State.admQuota t x0 = State.admQuota s x0 := by
  have h0 : t.regs = s.regs := h .regs (Part.apart_not_mem hd (by decide))
  clear h hd
  cases s; cases t; dsimp only at h0; subst h0; rfl

theorem State.advCur_of_only {l : List Part} {s t : State} (h : Only l s t) (hd : Part.apart l [.regs, .dieRegs] = true) (x0 : Nat) :
    State.advCur t x0 = State.advCur s x0 := by
  have h0 : t.regs = s.regs := h .regs (Part.apart_not_mem hd (by decide))
  have h1 : t.dieRegs = s.dieRegs := h .dieRegs (Part.apart_not_mem hd (by decide))
  clear h hd
  cases s; cases t; dsimp only at h0 h1; subst h0; subst h1; rfl

theorem State.alertN_of_only {l : List Part} {s t : State} (h : Only l s t) (hd : Part.apart l [.regs, .prec] = true) :
    State.alertN t = State.alertN s := by
  have h0 : t.regs = s.regs := h .regs (Part.apart_not_mem hd (by decide))
  have h1 : t.prec = s.prec := h .prec (Part.apart_not_mem hd (by decide))
  clear h hd
  cases s; cases t; dsimp only at h0 h1; subst h0; subst h1; rfl

theorem State.alertValue_of_only {l : List Part} {s t : State} (h : Only l s t) (hd : Part.apart l [.regs, .prec, .lnk] = true) :
    State.alertValue t = State.alertValue s := by
  have h0 : t.regs = s.regs := h .regs (Part.apart_not_mem hd (by decide))
  have h1 : t.prec = s.prec := h .prec (Part.apart_not_mem hd (by decide))
  have h2 : t.lnk = s.lnk := h .lnk (Part.apart_not_mem hd (by decide))
  clear h hd
  cases s; cases t; dsimp only at h0 h1 h2; subst h0; subst h1; subst h2; rfl

theorem State.allFresh_of_only {l : List Part} {s t : State} (h : Only l s t) (hd : Part.apart l [.tb] = true) (x0 : OpEntry) :
    State.allFresh t x0 = State.allFresh s x0 := by
  have h0 : t.tb = s.tb := h .tb (Part.apart_not_mem hd (by decide))
  clear h hd
  cases s; cases t; dsimp only at h0; subst h0; rfl

theorem State.allocLate_of_only {l : List Part} {s t : State} (h : Only l s t) (hd : Part.apart l [.hub, .fw, .ctx, .clock] = true) (x0 : Nat) :
    State.allocLate t x0 = State.allocLate s x0 := by
  have h0 : t.hub = s.hub := h .hub (Part.apart_not_mem hd (by decide))
  have h1 : t.fw = s.fw := h .fw (Part.apart_not_mem hd (by decide))
  have h2 : t.ctx = s.ctx := h .ctx (Part.apart_not_mem hd (by decide))
  have h3 : t.clock = s.clock := h .clock (Part.apart_not_mem hd (by decide))
  clear h hd
  cases s; cases t; dsimp only at h0 h1 h2 h3; subst h0; subst h1; subst h2; subst h3; rfl

theorem State.amask_of_only {l : List Part} {s t : State} (h : Only l s t) (hd : Part.apart l [.prec] = true) (x0 : Nat) :
    State.amask t x0 = State.amask s x0 := by
  have h0 : t.prec = s.prec := h .prec (Part.apart_not_mem hd (by decide))
  clear h hd
  cases s; cases t; dsimp only at h0; subst h0; rfl

theorem State.amsActive_of_only {l : List Part} {s t : State} (h : Only l s t) (hd : Part.apart l [.regs, .dieRegs, .phy] = true) (x0 : Nat) :
    State.amsActive t x0 = State.amsActive s x0 := by
  have h0 : t.regs = s.regs := h .regs (Part.apart_not_mem hd (by decide))
  have h1 : t.dieRegs = s.dieRegs := h .dieRegs (Part.apart_not_mem hd (by decide))
  have h2 : t.phy = s.phy := h .phy (Part.apart_not_mem hd (by decide))
  clear h hd
  cases s; cases t; dsimp only at h0 h1 h2; subst h0; subst h1; subst h2; rfl

theorem State.angStatus_of_only {l : List Part} {s t : State} (h : Only l s t) (hd : Part.apart l [.regs, .tb] = true) :
    State.angStatus t = State.angStatus s := by
  have h0 : t.regs = s.regs := h .regs (Part.apart_not_mem hd (by decide))
  have h1 : t.tb = s.tb := h .tb (Part.apart_not_mem hd (by decide))
  clear h hd
  cases s; cases t; dsimp only at h0 h1; subst h0; subst h1; rfl

theorem State.angleWord_of_only {l : List Part} {s t : State} (h : Only l s t) (hd : Part.apart l [.tb] = true) :
    State.angleWord t = State.angleWord s := by
  have h0 : t.tb = s.tb := h .tb (Part.apart_not_mem hd (by decide))
  clear h hd
  cases s; cases t; dsimp only at h0; subst h0; rfl

theorem State.answerDue_of_only {l : List Part} {s t : State} (h : Only l s t) (hd : Part.apart l [.dieRegs, .phy] = true) (x0 : Nat) :
    State.answerDue t x0 = State.answerDue s x0 := by
  have h0 : t.dieRegs = s.dieRegs := h .dieRegs (Part.apart_not_mem hd (by decide))
  have h1 : t.phy = s.phy := h .phy (Part.apart_not_mem hd (by decide))
  clear h hd
  cases s; cases t; dsimp only at h0 h1; subst h0; subst h1; rfl

theorem State.anyPoison_of_only {l : List Part} {s t : State} (h : Only l s t) (hd : Part.apart l [.ecc] = true) (x0 : List (Nat × Nat)) :
    State.anyPoison t x0 = State.anyPoison s x0 := by
  have h0 : t.ecc = s.ecc := h .ecc (Part.apart_not_mem hd (by decide))
  clear h hd
  cases s; cases t; dsimp only at h0; subst h0; rfl

theorem State.aport_of_only {l : List Part} {s t : State} (h : Only l s t) (hd : Part.apart l [.regs, .prec] = true) (x0 : Nat) :
    State.aport t x0 = State.aport s x0 := by
  have h0 : t.regs = s.regs := h .regs (Part.apart_not_mem hd (by decide))
  have h1 : t.prec = s.prec := h .prec (Part.apart_not_mem hd (by decide))
  clear h hd
  cases s; cases t; dsimp only at h0 h1; subst h0; subst h1; rfl

theorem State.asum_of_only {l : List Part} {s t : State} (h : Only l s t) (hd : Part.apart l [.regs, .prec] = true) :
    State.asum t = State.asum s := by
  have h0 : t.regs = s.regs := h .regs (Part.apart_not_mem hd (by decide))
  have h1 : t.prec = s.prec := h .prec (Part.apart_not_mem hd (by decide))
  clear h hd
  cases s; cases t; dsimp only at h0 h1; subst h0; subst h1; rfl

theorem State.auPos_of_only {l : List Part} {s t : State} (h : Only l s t) (hd : Part.apart l [.tb] = true) (x0 : BitVec 16) :
    State.auPos t x0 = State.auPos s x0 := by
  have h0 : t.tb = s.tb := h .tb (Part.apart_not_mem hd (by decide))
  clear h hd
  cases s; cases t; dsimp only at h0; subst h0; rfl

theorem State.badRange_of_only {l : List Part} {s t : State} (h : Only l s t) (hd : Part.apart l [.regs] = true) (x0 : Nat) (x1 : OpKind) (x2 : OpArgs) :
    State.badRange t x0 x1 x2 = State.badRange s x0 x1 x2 := by
  have h0 : t.regs = s.regs := h .regs (Part.apart_not_mem hd (by decide))
  clear h hd
  cases s; cases t; dsimp only at h0; subst h0; rfl

theorem State.badState_of_only {l : List Part} {s t : State} (h : Only l s t) (hd : Part.apart l [.regs, .mir] = true) (x0 : Nat) (x1 : OpKind) :
    State.badState t x0 x1 = State.badState s x0 x1 := by
  have h0 : t.regs = s.regs := h .regs (Part.apart_not_mem hd (by decide))
  have h1 : t.mir = s.mir := h .mir (Part.apart_not_mem hd (by decide))
  clear h hd
  cases s; cases t; dsimp only at h0 h1; subst h0; subst h1; rfl

theorem State.bandNow_of_only {l : List Part} {s t : State} (h : Only l s t) (hd : Part.apart l [.tb] = true) (x0 : Sys2Proof.WrapMeas) :
    State.bandNow t x0 = State.bandNow s x0 := by
  have h0 : t.tb = s.tb := h .tb (Part.apart_not_mem hd (by decide))
  clear h hd
  cases s; cases t; dsimp only at h0; subst h0; rfl

theorem State.bankOf_of_only {l : List Part} {s t : State} (h : Only l s t) (hd : Part.apart l [.bankA, .bankB] = true) (x0 : Bool) :
    State.bankOf t x0 = State.bankOf s x0 := by
  have h0 : t.bankA = s.bankA := h .bankA (Part.apart_not_mem hd (by decide))
  have h1 : t.bankB = s.bankB := h .bankB (Part.apart_not_mem hd (by decide))
  clear h hd
  cases s; cases t; dsimp only at h0 h1; subst h0; subst h1; rfl

theorem State.before_of_only {l : List Part} {s t : State} (h : Only l s t) (hd : Part.apart l [.fuse, .weak] = true) (x0 : OtpCmd) (x1 : Nat) (x2 : Nat) :
    State.before t x0 x1 x2 = State.before s x0 x1 x2 := by
  have h0 : t.fuse = s.fuse := h .fuse (Part.apart_not_mem hd (by decide))
  have h1 : t.weak = s.weak := h .weak (Part.apart_not_mem hd (by decide))
  clear h hd
  cases s; cases t; dsimp only at h0 h1; subst h0; subst h1; rfl

theorem State.blkApp_of_only {l : List Part} {s t : State} (h : Only l s t) (hd : Part.apart l [.regs] = true) (x0 : Nat) :
    State.blkApp t x0 = State.blkApp s x0 := by
  have h0 : t.regs = s.regs := h .regs (Part.apart_not_mem hd (by decide))
  clear h hd
  cases s; cases t; dsimp only at h0; subst h0; rfl

theorem State.blkEn_of_only {l : List Part} {s t : State} (h : Only l s t) (hd : Part.apart l [.regs] = true) :
    State.blkEn t = State.blkEn s := by
  have h0 : t.regs = s.regs := h .regs (Part.apart_not_mem hd (by decide))
  clear h hd
  cases s; cases t; dsimp only at h0; subst h0; rfl

theorem State.blkOn_of_only {l : List Part} {s t : State} (h : Only l s t) (hd : Part.apart l [.regs] = true) :
    State.blkOn t = State.blkOn s := by
  have h0 : t.regs = s.regs := h .regs (Part.apart_not_mem hd (by decide))
  clear h hd
  cases s; cases t; dsimp only at h0; subst h0; rfl

theorem State.bootRuns_of_only {l : List Part} {s t : State} (h : Only l s t) (hd : Part.apart l [.clk] = true) :
    State.bootRuns t = State.bootRuns s := by
  have h0 : t.clk = s.clk := h .clk (Part.apart_not_mem hd (by decide))
  clear h hd
  cases s; cases t; dsimp only at h0; subst h0; rfl

theorem State.both_of_only {l : List Part} {s t : State} (h : Only l s t) (hd : Part.apart l [.regs] = true) (x0 : Nat) (x1 : Nat) :
    State.both t x0 x1 = State.both s x0 x1 := by
  have h0 : t.regs = s.regs := h .regs (Part.apart_not_mem hd (by decide))
  clear h hd
  cases s; cases t; dsimp only at h0; subst h0; rfl

theorem State.bound_of_only {l : List Part} {s t : State} (h : Only l s t) (hd : Part.apart l [.hub, .ctx] = true) (x0 : Nat) :
    State.bound t x0 = State.bound s x0 := by
  have h0 : t.hub = s.hub := h .hub (Part.apart_not_mem hd (by decide))
  have h1 : t.ctx = s.ctx := h .ctx (Part.apart_not_mem hd (by decide))
  clear h hd
  cases s; cases t; dsimp only at h0 h1; subst h0; subst h1; rfl

theorem State.breaks_of_only {l : List Part} {s t : State} (h : Only l s t) (hd : Part.apart l [.regs, .fw] = true) (x0 : Nat) (x1 : FwRow) (x2 : EvEntry) (x3 : List Sys2Proof.Byte) :
    State.breaks t x0 x1 x2 x3 = State.breaks s x0 x1 x2 x3 := by
  have h0 : t.regs = s.regs := h .regs (Part.apart_not_mem hd (by decide))
  have h1 : t.fw = s.fw := h .fw (Part.apart_not_mem hd (by decide))
  clear h hd
  cases s; cases t; dsimp only at h0 h1; subst h0; subst h1; rfl

theorem State.burstLen_of_only {l : List Part} {s t : State} (h : Only l s t) (hd : Part.apart l [.regs] = true) :
    State.burstLen t = State.burstLen s := by
  have h0 : t.regs = s.regs := h .regs (Part.apart_not_mem hd (by decide))
  clear h hd
  cases s; cases t; dsimp only at h0; subst h0; rfl

theorem State.byteAt_of_only {l : List Part} {s t : State} (h : Only l s t) (hd : Part.apart l [.mem] = true) (x0 : Nat) (x1 : Nat) :
    State.byteAt t x0 x1 = State.byteAt s x0 x1 := by
  have h0 : t.mem = s.mem := h .mem (Part.apart_not_mem hd (by decide))
  clear h hd
  cases s; cases t; dsimp only at h0; subst h0; rfl

theorem State.bytesAt_of_only {l : List Part} {s t : State} (h : Only l s t) (hd : Part.apart l [.mem] = true) (x0 : Nat) (x1 : Nat) (x2 : Nat) :
    State.bytesAt t x0 x1 x2 = State.bytesAt s x0 x1 x2 := by
  have h0 : t.mem = s.mem := h .mem (Part.apart_not_mem hd (by decide))
  clear h hd
  cases s; cases t; dsimp only at h0; subst h0; rfl

theorem State.calBusy_of_only {l : List Part} {s t : State} (h : Only l s t) (hd : Part.apart l [.dieRegs] = true) (x0 : Nat) :
    State.calBusy t x0 = State.calBusy s x0 := by
  have h0 : t.dieRegs = s.dieRegs := h .dieRegs (Part.apart_not_mem hd (by decide))
  clear h hd
  cases s; cases t; dsimp only at h0; subst h0; rfl

theorem State.calEnds_of_only {l : List Part} {s t : State} (h : Only l s t) (hd : Part.apart l [.dieRegs, .adc, .clock] = true) (x0 : Nat) :
    State.calEnds t x0 = State.calEnds s x0 := by
  have h0 : t.dieRegs = s.dieRegs := h .dieRegs (Part.apart_not_mem hd (by decide))
  have h1 : t.adc = s.adc := h .adc (Part.apart_not_mem hd (by decide))
  have h2 : t.clock = s.clock := h .clock (Part.apart_not_mem hd (by decide))
  clear h hd
  cases s; cases t; dsimp only at h0 h1 h2; subst h0; subst h1; subst h2; rfl

theorem State.candidates_of_only {l : List Part} {s t : State} (h : Only l s t) (hd : Part.apart l [.regs, .fdrMon] = true) (x0 : Nat) :
    State.candidates t x0 = State.candidates s x0 := by
  have h0 : t.regs = s.regs := h .regs (Part.apart_not_mem hd (by decide))
  have h1 : t.fdrMon = s.fdrMon := h .fdrMon (Part.apart_not_mem hd (by decide))
  clear h hd
  cases s; cases t; dsimp only at h0 h1; subst h0; subst h1; rfl

theorem State.capFeeder_of_only {l : List Part} {s t : State} (h : Only l s t) (hd : Part.apart l [.regs] = true) (x0 : Nat) (x1 : Nat) :
    State.capFeeder t x0 x1 = State.capFeeder s x0 x1 := by
  have h0 : t.regs = s.regs := h .regs (Part.apart_not_mem hd (by decide))
  clear h hd
  cases s; cases t; dsimp only at h0; subst h0; rfl

theorem State.capIs_of_only {l : List Part} {s t : State} (h : Only l s t) (hd : Part.apart l [.regs, .portEv, .die] = true) (x0 : Nat) (x1 : Sys2Proof.CapSrc) :
    State.capIs t x0 x1 = State.capIs s x0 x1 := by
  have h0 : t.regs = s.regs := h .regs (Part.apart_not_mem hd (by decide))
  have h1 : t.portEv = s.portEv := h .portEv (Part.apart_not_mem hd (by decide))
  have h2 : t.die = s.die := h .die (Part.apart_not_mem hd (by decide))
  clear h hd
  cases s; cases t; dsimp only at h0 h1 h2; subst h0; subst h1; subst h2; rfl

theorem State.capsObjs_of_only {l : List Part} {s t : State} (h : Only l s t) (hd : Part.apart l [.regs, .fw, .chan, .bankA, .bankB] = true) (x0 : Nat) :
    State.capsObjs t x0 = State.capsObjs s x0 := by
  have h0 : t.regs = s.regs := h .regs (Part.apart_not_mem hd (by decide))
  have h1 : t.fw = s.fw := h .fw (Part.apart_not_mem hd (by decide))
  have h2 : t.chan = s.chan := h .chan (Part.apart_not_mem hd (by decide))
  have h3 : t.bankA = s.bankA := h .bankA (Part.apart_not_mem hd (by decide))
  have h4 : t.bankB = s.bankB := h .bankB (Part.apart_not_mem hd (by decide))
  clear h hd
  cases s; cases t; dsimp only at h0 h1 h2 h3 h4; subst h0; subst h1; subst h2; subst h3; subst h4; rfl

theorem State.castRefusal_of_only {l : List Part} {s t : State} (h : Only l s t) (hd : Part.apart l [.regs] = true) (x0 : Bool) :
    State.castRefusal t x0 = State.castRefusal s x0 := by
  have h0 : t.regs = s.regs := h .regs (Part.apart_not_mem hd (by decide))
  clear h hd
  cases s; cases t; dsimp only at h0; subst h0; rfl

theorem State.ccLevels_of_only {l : List Part} {s t : State} (h : Only l s t) (hd : Part.apart l [.dieRegs, .phy] = true) (x0 : Nat) :
    State.ccLevels t x0 = State.ccLevels s x0 := by
  have h0 : t.dieRegs = s.dieRegs := h .dieRegs (Part.apart_not_mem hd (by decide))
  have h1 : t.phy = s.phy := h .phy (Part.apart_not_mem hd (by decide))
  clear h hd
  cases s; cases t; dsimp only at h0 h1; subst h0; subst h1; rfl

theorem State.ceilSince_of_only {l : List Part} {s t : State} (h : Only l s t) (hd : Part.apart l [.hub, .chan, .bankA, .bankB, .active, .switchUs] = true) (x0 : Nat) :
    State.ceilSince t x0 = State.ceilSince s x0 := by
  have h0 : t.hub = s.hub := h .hub (Part.apart_not_mem hd (by decide))
  have h1 : t.chan = s.chan := h .chan (Part.apart_not_mem hd (by decide))
  have h2 : t.bankA = s.bankA := h .bankA (Part.apart_not_mem hd (by decide))
  have h3 : t.bankB = s.bankB := h .bankB (Part.apart_not_mem hd (by decide))
  have h4 : t.active = s.active := h .active (Part.apart_not_mem hd (by decide))
  have h5 : t.switchUs = s.switchUs := h .switchUs (Part.apart_not_mem hd (by decide))
  clear h hd
  cases s; cases t; dsimp only at h0 h1 h2 h3 h4 h5; subst h0; subst h1; subst h2; subst h3; subst h4; subst h5; rfl

theorem State.ceilW_of_only {l : List Part} {s t : State} (h : Only l s t) (hd : Part.apart l [.chan, .bankA, .bankB] = true) (x0 : Nat) :
    State.ceilW t x0 = State.ceilW s x0 := by
  have h0 : t.chan = s.chan := h .chan (Part.apart_not_mem hd (by decide))
  have h1 : t.bankA = s.bankA := h .bankA (Part.apart_not_mem hd (by decide))
  have h2 : t.bankB = s.bankB := h .bankB (Part.apart_not_mem hd (by decide))
  clear h hd
  cases s; cases t; dsimp only at h0 h1 h2; subst h0; subst h1; subst h2; rfl

theorem State.chCeil_of_only {l : List Part} {s t : State} (h : Only l s t) (hd : Part.apart l [.chan, .bankA, .bankB] = true) (x0 : Nat) :
    State.chCeil t x0 = State.chCeil s x0 := by
  have h0 : t.chan = s.chan := h .chan (Part.apart_not_mem hd (by decide))
  have h1 : t.bankA = s.bankA := h .bankA (Part.apart_not_mem hd (by decide))
  have h2 : t.bankB = s.bankB := h .bankB (Part.apart_not_mem hd (by decide))
  clear h hd
  cases s; cases t; dsimp only at h0 h1 h2; subst h0; subst h1; subst h2; rfl

theorem State.chEnt_of_only {l : List Part} {s t : State} (h : Only l s t) (hd : Part.apart l [.chan, .bankA, .bankB] = true) (x0 : Nat) :
    State.chEnt t x0 = State.chEnt s x0 := by
  have h0 : t.chan = s.chan := h .chan (Part.apart_not_mem hd (by decide))
  have h1 : t.bankA = s.bankA := h .bankA (Part.apart_not_mem hd (by decide))
  have h2 : t.bankB = s.bankB := h .bankB (Part.apart_not_mem hd (by decide))
  clear h hd
  cases s; cases t; dsimp only at h0 h1 h2; subst h0; subst h1; subst h2; rfl

theorem State.chLeg_of_only {l : List Part} {s t : State} (h : Only l s t) (hd : Part.apart l [.chan, .bankA, .bankB] = true) (x0 : Nat) :
    State.chLeg t x0 = State.chLeg s x0 := by
  have h0 : t.chan = s.chan := h .chan (Part.apart_not_mem hd (by decide))
  have h1 : t.bankA = s.bankA := h .bankA (Part.apart_not_mem hd (by decide))
  have h2 : t.bankB = s.bankB := h .bankB (Part.apart_not_mem hd (by decide))
  clear h hd
  cases s; cases t; dsimp only at h0 h1 h2; subst h0; subst h1; subst h2; rfl

theorem State.chRound_of_only {l : List Part} {s t : State} (h : Only l s t) (hd : Part.apart l [.regs, .chan, .active] = true) (x0 : Nat) :
    State.chRound t x0 = State.chRound s x0 := by
  have h0 : t.regs = s.regs := h .regs (Part.apart_not_mem hd (by decide))
  have h1 : t.chan = s.chan := h .chan (Part.apart_not_mem hd (by decide))
  have h2 : t.active = s.active := h .active (Part.apart_not_mem hd (by decide))
  clear h hd
  cases s; cases t; dsimp only at h0 h1 h2; subst h0; subst h1; subst h2; rfl

theorem State.chainBytes_of_only {l : List Part} {s t : State} (h : Only l s t) (hd : Part.apart l [.mem] = true) (x0 : Nat) (x1 : List Nat) (x2 : Nat) :
    State.chainBytes t x0 x1 x2 = State.chainBytes s x0 x1 x2 := by
  have h0 : t.mem = s.mem := h .mem (Part.apart_not_mem hd (by decide))
  clear h hd
  cases s; cases t; dsimp only at h0; subst h0; rfl

theorem State.chainOf_of_only {l : List Part} {s t : State} (h : Only l s t) (hd : Part.apart l [.lnk] = true) (x0 : Nat) :
    State.chainOf t x0 = State.chainOf s x0 := by
  have h0 : t.lnk = s.lnk := h .lnk (Part.apart_not_mem hd (by decide))
  clear h hd
  cases s; cases t; dsimp only at h0; subst h0; rfl

theorem State.chainSop_of_only {l : List Part} {s t : State} (h : Only l s t) (hd : Part.apart l [.mem] = true) (x0 : Nat) (x1 : Nat) :
    State.chainSop t x0 x1 = State.chainSop s x0 x1 := by
  have h0 : t.mem = s.mem := h .mem (Part.apart_not_mem hd (by decide))
  clear h hd
  cases s; cases t; dsimp only at h0; subst h0; rfl

theorem State.chained_of_only {l : List Part} {s t : State} (h : Only l s t) (hd : Part.apart l [.regs] = true) (x0 : Nat) :
    State.chained t x0 = State.chained s x0 := by
  have h0 : t.regs = s.regs := h .regs (Part.apart_not_mem hd (by decide))
  clear h hd
  cases s; cases t; dsimp only at h0; subst h0; rfl

theorem State.chanAddr_of_only {l : List Part} {s t : State} (h : Only l s t) (hd : Part.apart l [.regs] = true) (x0 : Nat) :
    State.chanAddr t x0 = State.chanAddr s x0 := by
  have h0 : t.regs = s.regs := h .regs (Part.apart_not_mem hd (by decide))
  clear h hd
  cases s; cases t; dsimp only at h0; subst h0; rfl

theorem State.chanOf_of_only {l : List Part} {s t : State} (h : Only l s t) (hd : Part.apart l [.chan] = true) (x0 : Nat) :
    State.chanOf t x0 = State.chanOf s x0 := by
  have h0 : t.chan = s.chan := h .chan (Part.apart_not_mem hd (by decide))
  clear h hd
  cases s; cases t; dsimp only at h0; subst h0; rfl

theorem State.chanUp_of_only {l : List Part} {s t : State} (h : Only l s t) (hd : Part.apart l [.chan] = true) (x0 : Nat) :
    State.chanUp t x0 = State.chanUp s x0 := by
  have h0 : t.chan = s.chan := h .chan (Part.apart_not_mem hd (by decide))
  clear h hd
  cases s; cases t; dsimp only at h0; subst h0; rfl

theorem State.changedSettings_of_only {l : List Part} {s t : State} (h : Only l s t) (hd : Part.apart l [.saved, .boot] = true) :
    State.changedSettings t = State.changedSettings s := by
  have h0 : t.saved = s.saved := h .saved (Part.apart_not_mem hd (by decide))
  have h1 : t.boot = s.boot := h .boot (Part.apart_not_mem hd (by decide))
  clear h hd
  cases s; cases t; dsimp only at h0 h1; subst h0; subst h1; rfl

theorem State.children_of_only {l : List Part} {s t : State} (h : Only l s t) (hd : Part.apart l [.regs, .prec] = true) (x0 : Nat) :
    State.children t x0 = State.children s x0 := by
  have h0 : t.regs = s.regs := h .regs (Part.apart_not_mem hd (by decide))
  have h1 : t.prec = s.prec := h .prec (Part.apart_not_mem hd (by decide))
  clear h hd
  cases s; cases t; dsimp only at h0 h1; subst h0; subst h1; rfl

theorem State.clkIs_of_only {l : List Part} {s t : State} (h : Only l s t) (hd : Part.apart l [.regs, .portEv, .die] = true) (x0 : Nat) (x1 : Sys2Proof.TickSrc) :
    State.clkIs t x0 x1 = State.clkIs s x0 x1 := by
  have h0 : t.regs = s.regs := h .regs (Part.apart_not_mem hd (by decide))
  have h1 : t.portEv = s.portEv := h .portEv (Part.apart_not_mem hd (by decide))
  have h2 : t.die = s.die := h .die (Part.apart_not_mem hd (by decide))
  clear h hd
  cases s; cases t; dsimp only at h0 h1 h2; subst h0; subst h1; subst h2; rfl

theorem State.closeFeeds_of_only {l : List Part} {s t : State} (h : Only l s t) (hd : Part.apart l [.regs, .fdrMon] = true) (x0 : Nat) (x1 : OpEntry) :
    State.closeFeeds t x0 x1 = State.closeFeeds s x0 x1 := by
  have h0 : t.regs = s.regs := h .regs (Part.apart_not_mem hd (by decide))
  have h1 : t.fdrMon = s.fdrMon := h .fdrMon (Part.apart_not_mem hd (by decide))
  clear h hd
  cases s; cases t; dsimp only at h0 h1; subst h0; subst h1; rfl

theorem State.cls_of_only {l : List Part} {s t : State} (h : Only l s t) (hd : Part.apart l [.regs] = true) (x0 : Nat) :
    State.cls t x0 = State.cls s x0 := by
  have h0 : t.regs = s.regs := h .regs (Part.apart_not_mem hd (by decide))
  clear h hd
  cases s; cases t; dsimp only at h0; subst h0; rfl

theorem State.condAt_of_only {l : List Part} {s t : State} (h : Only l s t) (hd : Part.apart l [.regs, .dieRegs, .port, .phy] = true) (x0 : Nat) (x1 : Nat) (x2 : Nat) :
    State.condAt t x0 x1 x2 = State.condAt s x0 x1 x2 := by
  have h0 : t.regs = s.regs := h .regs (Part.apart_not_mem hd (by decide))
  have h1 : t.dieRegs = s.dieRegs := h .dieRegs (Part.apart_not_mem hd (by decide))
  have h2 : t.port = s.port := h .port (Part.apart_not_mem hd (by decide))
  have h3 : t.phy = s.phy := h .phy (Part.apart_not_mem hd (by decide))
  clear h hd
  cases s; cases t; dsimp only at h0 h1 h2 h3; subst h0; subst h1; subst h2; subst h3; rfl

theorem State.configDiffers_of_only {l : List Part} {s t : State} (h : Only l s t) (hd : Part.apart l [.regs] = true) (x0 : List Sys2Proof.Byte) :
    State.configDiffers t x0 = State.configDiffers s x0 := by
  have h0 : t.regs = s.regs := h .regs (Part.apart_not_mem hd (by decide))
  clear h hd
  cases s; cases t; dsimp only at h0; subst h0; rfl

theorem State.confirmWaits_of_only {l : List Part} {s t : State} (h : Only l s t) (hd : Part.apart l [.pending] = true) :
    State.confirmWaits t = State.confirmWaits s := by
  have h0 : t.pending = s.pending := h .pending (Part.apart_not_mem hd (by decide))
  clear h hd
  cases s; cases t; dsimp only at h0; subst h0; rfl

theorem State.contractOf_of_only {l : List Part} {s t : State} (h : Only l s t) (hd : Part.apart l [.prec, .mir] = true) (x0 : Nat) :
    State.contractOf t x0 = State.contractOf s x0 := by
  have h0 : t.prec = s.prec := h .prec (Part.apart_not_mem hd (by decide))
  have h1 : t.mir = s.mir := h .mir (Part.apart_not_mem hd (by decide))
  clear h hd
  cases s; cases t; dsimp only at h0 h1; subst h0; subst h1; rfl

theorem State.contractPower_of_only {l : List Part} {s t : State} (h : Only l s t) (hd : Part.apart l [.prec] = true) (x0 : Nat) :
    State.contractPower t x0 = State.contractPower s x0 := by
  have h0 : t.prec = s.prec := h .prec (Part.apart_not_mem hd (by decide))
  clear h hd
  cases s; cases t; dsimp only at h0; subst h0; rfl

theorem State.converted_of_only {l : List Part} {s t : State} (h : Only l s t) (hd : Part.apart l [.dieRegs] = true) (x0 : Nat) (x1 : Nat) (x2 : Nat) :
    State.converted t x0 x1 x2 = State.converted s x0 x1 x2 := by
  have h0 : t.dieRegs = s.dieRegs := h .dieRegs (Part.apart_not_mem hd (by decide))
  clear h hd
  cases s; cases t; dsimp only at h0; subst h0; rfl

theorem State.copyOutcome_of_only {l : List Part} {s t : State} (h : Only l s t) (hd : Part.apart l [.otp] = true) (x0 : List Sys2Proof.Byte) :
    State.copyOutcome t x0 = State.copyOutcome s x0 := by
  have h0 : t.otp = s.otp := h .otp (Part.apart_not_mem hd (by decide))
  clear h hd
  cases s; cases t; dsimp only at h0; subst h0; rfl

theorem State.counted_of_only {l : List Part} {s t : State} (h : Only l s t) (hd : Part.apart l [.regs, .upd] = true) (x0 : Nat) :
    State.counted t x0 = State.counted s x0 := by
  have h0 : t.regs = s.regs := h .regs (Part.apart_not_mem hd (by decide))
  have h1 : t.upd = s.upd := h .upd (Part.apart_not_mem hd (by decide))
  clear h hd
  cases s; cases t; dsimp only at h0 h1; subst h0; subst h1; rfl

theorem State.crsHung_of_only {l : List Part} {s t : State} (h : Only l s t) (hd : Part.apart l [.regs, .crs, .clk] = true) (x0 : Nat) :
    State.crsHung t x0 = State.crsHung s x0 := by
  have h0 : t.regs = s.regs := h .regs (Part.apart_not_mem hd (by decide))
  have h1 : t.crs = s.crs := h .crs (Part.apart_not_mem hd (by decide))
  have h2 : t.clk = s.clk := h .clk (Part.apart_not_mem hd (by decide))
  clear h hd
  cases s; cases t; dsimp only at h0 h1 h2; subst h0; subst h1; subst h2; rfl

theorem State.crsOf_of_only {l : List Part} {s t : State} (h : Only l s t) (hd : Part.apart l [.crs] = true) (x0 : Nat) :
    State.crsOf t x0 = State.crsOf s x0 := by
  have h0 : t.crs = s.crs := h .crs (Part.apart_not_mem hd (by decide))
  clear h hd
  cases s; cases t; dsimp only at h0; subst h0; rfl

theorem State.crsRuns_of_only {l : List Part} {s t : State} (h : Only l s t) (hd : Part.apart l [.regs, .chan, .crs, .clk] = true) (x0 : Nat) :
    State.crsRuns t x0 = State.crsRuns s x0 := by
  have h0 : t.regs = s.regs := h .regs (Part.apart_not_mem hd (by decide))
  have h1 : t.chan = s.chan := h .chan (Part.apart_not_mem hd (by decide))
  have h2 : t.crs = s.crs := h .crs (Part.apart_not_mem hd (by decide))
  have h3 : t.clk = s.clk := h .clk (Part.apart_not_mem hd (by decide))
  clear h hd
  cases s; cases t; dsimp only at h0 h1 h2 h3; subst h0; subst h1; subst h2; subst h3; rfl

theorem State.crsState_of_only {l : List Part} {s t : State} (h : Only l s t) (hd : Part.apart l [.regs] = true) (x0 : Nat) :
    State.crsState t x0 = State.crsState s x0 := by
  have h0 : t.regs = s.regs := h .regs (Part.apart_not_mem hd (by decide))
  clear h hd
  cases s; cases t; dsimp only at h0; subst h0; rfl

theorem State.ctxLeft_of_only {l : List Part} {s t : State} (h : Only l s t) (hd : Part.apart l [.clock] = true) (x0 : CtxTimer) :
    State.ctxLeft t x0 = State.ctxLeft s x0 := by
  have h0 : t.clock = s.clock := h .clock (Part.apart_not_mem hd (by decide))
  clear h hd
  cases s; cases t; dsimp only at h0; subst h0; rfl

theorem State.ctxOf_of_only {l : List Part} {s t : State} (h : Only l s t) (hd : Part.apart l [.ctx] = true) (x0 : Nat) (x1 : Nat) :
    State.ctxOf t x0 x1 = State.ctxOf s x0 x1 := by
  have h0 : t.ctx = s.ctx := h .ctx (Part.apart_not_mem hd (by decide))
  clear h hd
  cases s; cases t; dsimp only at h0; subst h0; rfl

theorem State.deadlineDue_of_only {l : List Part} {s t : State} (h : Only l s t) (hd : Part.apart l [.tb, .hub] = true) (x0 : Nat) :
    State.deadlineDue t x0 = State.deadlineDue s x0 := by
  have h0 : t.tb = s.tb := h .tb (Part.apart_not_mem hd (by decide))
  have h1 : t.hub = s.hub := h .hub (Part.apart_not_mem hd (by decide))
  clear h hd
  cases s; cases t; dsimp only at h0 h1; subst h0; subst h1; rfl

theorem State.deadlineUs_of_only {l : List Part} {s t : State} (h : Only l s t) (hd : Part.apart l [.regs] = true) (x0 : Nat) :
    State.deadlineUs t x0 = State.deadlineUs s x0 := by
  have h0 : t.regs = s.regs := h .regs (Part.apart_not_mem hd (by decide))
  clear h hd
  cases s; cases t; dsimp only at h0; subst h0; rfl

theorem State.debounced_of_only {l : List Part} {s t : State} (h : Only l s t) (hd : Part.apart l [.dieRegs, .port, .clock] = true) (x0 : Nat) :
    State.debounced t x0 = State.debounced s x0 := by
  have h0 : t.dieRegs = s.dieRegs := h .dieRegs (Part.apart_not_mem hd (by decide))
  have h1 : t.port = s.port := h .port (Part.apart_not_mem hd (by decide))
  have h2 : t.clock = s.clock := h .clock (Part.apart_not_mem hd (by decide))
  clear h hd
  cases s; cases t; dsimp only at h0 h1 h2; subst h0; subst h1; subst h2; rfl

theorem State.debugKill_of_only {l : List Part} {s t : State} (h : Only l s t) (hd : Part.apart l [.regs] = true) :
    State.debugKill t = State.debugKill s := by
  have h0 : t.regs = s.regs := h .regs (Part.apart_not_mem hd (by decide))
  clear h hd
  cases s; cases t; dsimp only at h0; subst h0; rfl

theorem State.delivered_of_only {l : List Part} {s t : State} (h : Only l s t) (hd : Part.apart l [.portEv] = true) (x0 : Nat) (x1 : Nat) :
    State.delivered t x0 x1 = State.delivered s x0 x1 := by
  have h0 : t.portEv = s.portEv := h .portEv (Part.apart_not_mem hd (by decide))
  clear h hd
  cases s; cases t; dsimp only at h0; subst h0; rfl

theorem State.delivers_of_only {l : List Part} {s t : State} (h : Only l s t) (hd : Part.apart l [.regs, .die] = true) (x0 : Nat) :
    State.delivers t x0 = State.delivers s x0 := by
  have h0 : t.regs = s.regs := h .regs (Part.apart_not_mem hd (by decide))
  have h1 : t.die = s.die := h .die (Part.apart_not_mem hd (by decide))
  clear h hd
  cases s; cases t; dsimp only at h0 h1; subst h0; subst h1; rfl

theorem State.detachEnds_of_only {l : List Part} {s t : State} (h : Only l s t) (hd : Part.apart l [.port, .clock] = true) (x0 : Nat) :
    State.detachEnds t x0 = State.detachEnds s x0 := by
  have h0 : t.port = s.port := h .port (Part.apart_not_mem hd (by decide))
  have h1 : t.clock = s.clock := h .clock (Part.apart_not_mem hd (by decide))
  clear h hd
  cases s; cases t; dsimp only at h0 h1; subst h0; subst h1; rfl

theorem State.dfld_of_only {l : List Part} {s t : State} (h : Only l s t) (hd : Part.apart l [.dieRegs] = true) (x0 : Nat) (x1 : Fld) :
    State.dfld t x0 x1 = State.dfld s x0 x1 := by
  have h0 : t.dieRegs = s.dieRegs := h .dieRegs (Part.apart_not_mem hd (by decide))
  clear h hd
  cases s; cases t; dsimp only at h0; subst h0; rfl

theorem State.dieOf_of_only {l : List Part} {s t : State} (h : Only l s t) (hd : Part.apart l [.die] = true) (x0 : Nat) :
    State.dieOf t x0 = State.dieOf s x0 := by
  have h0 : t.die = s.die := h .die (Part.apart_not_mem hd (by decide))
  clear h hd
  cases s; cases t; dsimp only at h0; subst h0; rfl

theorem State.dieTemp_of_only {l : List Part} {s t : State} (h : Only l s t) (hd : Part.apart l [.regs] = true) (x0 : Nat) :
    State.dieTemp t x0 = State.dieTemp s x0 := by
  have h0 : t.regs = s.regs := h .regs (Part.apart_not_mem hd (by decide))
  clear h hd
  cases s; cases t; dsimp only at h0; subst h0; rfl

theorem State.disWaits_of_only {l : List Part} {s t : State} (h : Only l s t) (hd : Part.apart l [.pending] = true) (x0 : Nat) :
    State.disWaits t x0 = State.disWaits s x0 := by
  have h0 : t.pending = s.pending := h .pending (Part.apart_not_mem hd (by decide))
  clear h hd
  cases s; cases t; dsimp only at h0; subst h0; rfl

theorem State.dischWaits_of_only {l : List Part} {s t : State} (h : Only l s t) (hd : Part.apart l [.pending] = true) (x0 : Nat) :
    State.dischWaits t x0 = State.dischWaits s x0 := by
  have h0 : t.pending = s.pending := h .pending (Part.apart_not_mem hd (by decide))
  clear h hd
  cases s; cases t; dsimp only at h0; subst h0; rfl

theorem State.domAlert_of_only {l : List Part} {s t : State} (h : Only l s t) (hd : Part.apart l [.regs] = true) :
    State.domAlert t = State.domAlert s := by
  have h0 : t.regs = s.regs := h .regs (Part.apart_not_mem hd (by decide))
  clear h hd
  cases s; cases t; dsimp only at h0; subst h0; rfl

theorem State.domLevel_of_only {l : List Part} {s t : State} (h : Only l s t) (hd : Part.apart l [.regs] = true) :
    State.domLevel t = State.domLevel s := by
  have h0 : t.regs = s.regs := h .regs (Part.apart_not_mem hd (by decide))
  clear h hd
  cases s; cases t; dsimp only at h0; subst h0; rfl

theorem State.domWords_of_only {l : List Part} {s t : State} (h : Only l s t) (hd : Part.apart l [.regs, .upd] = true) :
    State.domWords t = State.domWords s := by
  have h0 : t.regs = s.regs := h .regs (Part.apart_not_mem hd (by decide))
  have h1 : t.upd = s.upd := h .upd (Part.apart_not_mem hd (by decide))
  clear h hd
  cases s; cases t; dsimp only at h0 h1; subst h0; subst h1; rfl

theorem State.downAlert_of_only {l : List Part} {s t : State} (h : Only l s t) (hd : Part.apart l [.regs, .lnk] = true) :
    State.downAlert t = State.downAlert s := by
  have h0 : t.regs = s.regs := h .regs (Part.apart_not_mem hd (by decide))
  have h1 : t.lnk = s.lnk := h .lnk (Part.apart_not_mem hd (by decide))
  clear h hd
  cases s; cases t; dsimp only at h0 h1; subst h0; subst h1; rfl

theorem State.dreg_of_only {l : List Part} {s t : State} (h : Only l s t) (hd : Part.apart l [.dieRegs] = true) (x0 : Nat) :
    State.dreg t x0 = State.dreg s x0 := by
  have h0 : t.dieRegs = s.dieRegs := h .dieRegs (Part.apart_not_mem hd (by decide))
  clear h hd
  cases s; cases t; dsimp only at h0; subst h0; rfl

theorem State.dtry_of_only {l : List Part} {s t : State} (h : Only l s t) (hd : Part.apart l [.regs] = true) (x0 : Nat) :
    State.dtry t x0 = State.dtry s x0 := by
  have h0 : t.regs = s.regs := h .regs (Part.apart_not_mem hd (by decide))
  clear h hd
  cases s; cases t; dsimp only at h0; subst h0; rfl

theorem State.dueOf_of_only {l : List Part} {s t : State} (h : Only l s t) (hd : Part.apart l [.opq] = true) (x0 : Nat) (x1 : Nat) :
    State.dueOf t x0 x1 = State.dueOf s x0 x1 := by
  have h0 : t.opq = s.opq := h .opq (Part.apart_not_mem hd (by decide))
  clear h hd
  cases s; cases t; dsimp only at h0; subst h0; rfl

theorem State.entOf_of_only {l : List Part} {s t : State} (h : Only l s t) (hd : Part.apart l [.bankA, .bankB, .active] = true) (x0 : Nat) :
    State.entOf t x0 = State.entOf s x0 := by
  have h0 : t.bankA = s.bankA := h .bankA (Part.apart_not_mem hd (by decide))
  have h1 : t.bankB = s.bankB := h .bankB (Part.apart_not_mem hd (by decide))
  have h2 : t.active = s.active := h .active (Part.apart_not_mem hd (by decide))
  clear h hd
  cases s; cases t; dsimp only at h0 h1 h2; subst h0; subst h1; subst h2; rfl

theorem State.entered_of_only {l : List Part} {s t : State} (h : Only l s t) (hd : Part.apart l [.regs, .mir] = true) (x0 : Nat) :
    State.entered t x0 = State.entered s x0 := by
  have h0 : t.regs = s.regs := h .regs (Part.apart_not_mem hd (by decide))
  have h1 : t.mir = s.mir := h .mir (Part.apart_not_mem hd (by decide))
  clear h hd
  cases s; cases t; dsimp only at h0 h1; subst h0; subst h1; rfl

theorem State.enumd_of_only {l : List Part} {s t : State} (h : Only l s t) (hd : Part.apart l [.regs] = true) :
    State.enumd t = State.enumd s := by
  have h0 : t.regs = s.regs := h .regs (Part.apart_not_mem hd (by decide))
  clear h hd
  cases s; cases t; dsimp only at h0; subst h0; rfl

theorem State.eprCapable_of_only {l : List Part} {s t : State} (h : Only l s t) (hd : Part.apart l [.regs] = true) (x0 : Nat) :
    State.eprCapable t x0 = State.eprCapable s x0 := by
  have h0 : t.regs = s.regs := h .regs (Part.apart_not_mem hd (by decide))
  clear h hd
  cases s; cases t; dsimp only at h0; subst h0; rfl

theorem State.eprOk_of_only {l : List Part} {s t : State} (h : Only l s t) (hd : Part.apart l [.regs, .fw] = true) (x0 : Nat) (x1 : Bool) :
    State.eprOk t x0 x1 = State.eprOk s x0 x1 := by
  have h0 : t.regs = s.regs := h .regs (Part.apart_not_mem hd (by decide))
  have h1 : t.fw = s.fw := h .fw (Part.apart_not_mem hd (by decide))
  clear h hd
  cases s; cases t; dsimp only at h0 h1; subst h0; subst h1; rfl

theorem State.eventDue_of_only {l : List Part} {s t : State} (h : Only l s t) (hd : Part.apart l [.regs, .hub, .chan, .crs, .mbx] = true) (x0 : Nat) :
    State.eventDue t x0 = State.eventDue s x0 := by
  have h0 : t.regs = s.regs := h .regs (Part.apart_not_mem hd (by decide))
  have h1 : t.hub = s.hub := h .hub (Part.apart_not_mem hd (by decide))
  have h2 : t.chan = s.chan := h .chan (Part.apart_not_mem hd (by decide))
  have h3 : t.crs = s.crs := h .crs (Part.apart_not_mem hd (by decide))
  have h4 : t.mbx = s.mbx := h .mbx (Part.apart_not_mem hd (by decide))
  clear h hd
  cases s; cases t; dsimp only at h0 h1 h2 h3 h4; subst h0; subst h1; subst h2; subst h3; subst h4; rfl

theorem State.eventPending_of_only {l : List Part} {s t : State} (h : Only l s t) (hd : Part.apart l [.regs, .hub, .chan, .crs, .mbx] = true) (x0 : Nat) :
    State.eventPending t x0 = State.eventPending s x0 := by
  have h0 : t.regs = s.regs := h .regs (Part.apart_not_mem hd (by decide))
  have h1 : t.hub = s.hub := h .hub (Part.apart_not_mem hd (by decide))
  have h2 : t.chan = s.chan := h .chan (Part.apart_not_mem hd (by decide))
  have h3 : t.crs = s.crs := h .crs (Part.apart_not_mem hd (by decide))
  have h4 : t.mbx = s.mbx := h .mbx (Part.apart_not_mem hd (by decide))
  clear h hd
  cases s; cases t; dsimp only at h0 h1 h2 h3 h4; subst h0; subst h1; subst h2; subst h3; subst h4; rfl

theorem State.evtWord_of_only {l : List Part} {s t : State} (h : Only l s t) (hd : Part.apart l [.regs, .hub, .chan, .crs, .mbx] = true) (x0 : Nat) :
    State.evtWord t x0 = State.evtWord s x0 := by
  have h0 : t.regs = s.regs := h .regs (Part.apart_not_mem hd (by decide))
  have h1 : t.hub = s.hub := h .hub (Part.apart_not_mem hd (by decide))
  have h2 : t.chan = s.chan := h .chan (Part.apart_not_mem hd (by decide))
  have h3 : t.crs = s.crs := h .crs (Part.apart_not_mem hd (by decide))
  have h4 : t.mbx = s.mbx := h .mbx (Part.apart_not_mem hd (by decide))
  clear h hd
  cases s; cases t; dsimp only at h0 h1 h2 h3 h4; subst h0; subst h1; subst h2; subst h3; subst h4; rfl

theorem State.executes_of_only {l : List Part} {s t : State} (h : Only l s t) (hd : Part.apart l [.regs, .chan, .crs, .clk] = true) (x0 : Nat) :
    State.executes t x0 = State.executes s x0 := by
  have h0 : t.regs = s.regs := h .regs (Part.apart_not_mem hd (by decide))
  have h1 : t.chan = s.chan := h .chan (Part.apart_not_mem hd (by decide))
  have h2 : t.crs = s.crs := h .crs (Part.apart_not_mem hd (by decide))
  have h3 : t.clk = s.clk := h .clk (Part.apart_not_mem hd (by decide))
  clear h hd
  cases s; cases t; dsimp only at h0 h1 h2 h3; subst h0; subst h1; subst h2; subst h3; rfl

theorem State.failing_of_only {l : List Part} {s t : State} (h : Only l s t) (hd : Part.apart l [.regs, .upd] = true) (x0 : Nat) :
    State.failing t x0 = State.failing s x0 := by
  have h0 : t.regs = s.regs := h .regs (Part.apart_not_mem hd (by decide))
  have h1 : t.upd = s.upd := h .upd (Part.apart_not_mem hd (by decide))
  clear h hd
  cases s; cases t; dsimp only at h0 h1; subst h0; subst h1; rfl

theorem State.failureWaits_of_only {l : List Part} {s t : State} (h : Only l s t) (hd : Part.apart l [.regs, .chan, .crs, .clock, .pending] = true) :
    State.failureWaits t = State.failureWaits s := by
  have h0 : t.regs = s.regs := h .regs (Part.apart_not_mem hd (by decide))
  have h1 : t.chan = s.chan := h .chan (Part.apart_not_mem hd (by decide))
  have h2 : t.crs = s.crs := h .crs (Part.apart_not_mem hd (by decide))
  have h3 : t.clock = s.clock := h .clock (Part.apart_not_mem hd (by decide))
  have h4 : t.pending = s.pending := h .pending (Part.apart_not_mem hd (by decide))
  clear h hd
  cases s; cases t; dsimp only at h0 h1 h2 h3 h4; subst h0; subst h1; subst h2; subst h3; subst h4; rfl

theorem State.fastActs_of_only {l : List Part} {s t : State} (h : Only l s t) (hd : Part.apart l [.dieRegs, .port, .fresh] = true) (x0 : Nat) (x1 : Nat) (x2 : Nat) :
    State.fastActs t x0 x1 x2 = State.fastActs s x0 x1 x2 := by
  have h0 : t.dieRegs = s.dieRegs := h .dieRegs (Part.apart_not_mem hd (by decide))
  have h1 : t.port = s.port := h .port (Part.apart_not_mem hd (by decide))
  have h2 : t.fresh = s.fresh := h .fresh (Part.apart_not_mem hd (by decide))
  clear h hd
  cases s; cases t; dsimp only at h0 h1 h2; subst h0; subst h1; subst h2; rfl

theorem State.fastCrosses_of_only {l : List Part} {s t : State} (h : Only l s t) (hd : Part.apart l [.dieRegs] = true) (x0 : Nat) (x1 : Nat) (x2 : Nat) :
    State.fastCrosses t x0 x1 x2 = State.fastCrosses s x0 x1 x2 := by
  have h0 : t.dieRegs = s.dieRegs := h .dieRegs (Part.apart_not_mem hd (by decide))
  clear h hd
  cases s; cases t; dsimp only at h0; subst h0; rfl

theorem State.fastWaits_of_only {l : List Part} {s t : State} (h : Only l s t) (hd : Part.apart l [.dieRegs, .port, .fresh, .pending] = true) (x0 : Nat) :
    State.fastWaits t x0 = State.fastWaits s x0 := by
  have h0 : t.dieRegs = s.dieRegs := h .dieRegs (Part.apart_not_mem hd (by decide))
  have h1 : t.port = s.port := h .port (Part.apart_not_mem hd (by decide))
  have h2 : t.fresh = s.fresh := h .fresh (Part.apart_not_mem hd (by decide))
  have h3 : t.pending = s.pending := h .pending (Part.apart_not_mem hd (by decide))
  clear h hd
  cases s; cases t; dsimp only at h0 h1 h2 h3; subst h0; subst h1; subst h2; subst h3; rfl

theorem State.faultEnds_of_only {l : List Part} {s t : State} (h : Only l s t) (hd : Part.apart l [.dieRegs, .port, .clock] = true) (x0 : Nat) :
    State.faultEnds t x0 = State.faultEnds s x0 := by
  have h0 : t.dieRegs = s.dieRegs := h .dieRegs (Part.apart_not_mem hd (by decide))
  have h1 : t.port = s.port := h .port (Part.apart_not_mem hd (by decide))
  have h2 : t.clock = s.clock := h .clock (Part.apart_not_mem hd (by decide))
  clear h hd
  cases s; cases t; dsimp only at h0 h1 h2; subst h0; subst h1; subst h2; rfl

theorem State.faultN_of_only {l : List Part} {s t : State} (h : Only l s t) (hd : Part.apart l [.regs, .clk] = true) :
    State.faultN t = State.faultN s := by
  have h0 : t.regs = s.regs := h .regs (Part.apart_not_mem hd (by decide))
  have h1 : t.clk = s.clk := h .clk (Part.apart_not_mem hd (by decide))
  clear h hd
  cases s; cases t; dsimp only at h0 h1; subst h0; subst h1; rfl

theorem State.fdrOut_of_only {l : List Part} {s t : State} (h : Only l s t) (hd : Part.apart l [.regs, .ecc, .bankA, .bankB, .active, .fdrMon] = true) (x0 : Nat) (x1 : Nat) :
    State.fdrOut t x0 x1 = State.fdrOut s x0 x1 := by
  have h0 : t.regs = s.regs := h .regs (Part.apart_not_mem hd (by decide))
  have h1 : t.ecc = s.ecc := h .ecc (Part.apart_not_mem hd (by decide))
  have h2 : t.bankA = s.bankA := h .bankA (Part.apart_not_mem hd (by decide))
  have h3 : t.bankB = s.bankB := h .bankB (Part.apart_not_mem hd (by decide))
  have h4 : t.active = s.active := h .active (Part.apart_not_mem hd (by decide))
  have h5 : t.fdrMon = s.fdrMon := h .fdrMon (Part.apart_not_mem hd (by decide))
  clear h hd
  cases s; cases t; dsimp only at h0 h1 h2 h3 h4 h5; subst h0; subst h1; subst h2; subst h3; subst h4; subst h5; rfl

theorem State.fdrRow_of_only {l : List Part} {s t : State} (h : Only l s t) (hd : Part.apart l [.bankA, .bankB, .active] = true) (x0 : Nat) :
    State.fdrRow t x0 = State.fdrRow s x0 := by
  have h0 : t.bankA = s.bankA := h .bankA (Part.apart_not_mem hd (by decide))
  have h1 : t.bankB = s.bankB := h .bankB (Part.apart_not_mem hd (by decide))
  have h2 : t.active = s.active := h .active (Part.apart_not_mem hd (by decide))
  clear h hd
  cases s; cases t; dsimp only at h0 h1 h2; subst h0; subst h1; subst h2; rfl

theorem State.fdrType_of_only {l : List Part} {s t : State} (h : Only l s t) (hd : Part.apart l [.regs] = true) (x0 : Nat) :
    State.fdrType t x0 = State.fdrType s x0 := by
  have h0 : t.regs = s.regs := h .regs (Part.apart_not_mem hd (by decide))
  clear h hd
  cases s; cases t; dsimp only at h0; subst h0; rfl

theorem State.feedA_of_only {l : List Part} {s t : State} (h : Only l s t) (hd : Part.apart l [.regs] = true) (x0 : Nat) :
    State.feedA t x0 = State.feedA s x0 := by
  have h0 : t.regs = s.regs := h .regs (Part.apart_not_mem hd (by decide))
  clear h hd
  cases s; cases t; dsimp only at h0; subst h0; rfl

theorem State.feedB_of_only {l : List Part} {s t : State} (h : Only l s t) (hd : Part.apart l [.regs] = true) (x0 : Nat) :
    State.feedB t x0 = State.feedB s x0 := by
  have h0 : t.regs = s.regs := h .regs (Part.apart_not_mem hd (by decide))
  clear h hd
  cases s; cases t; dsimp only at h0; subst h0; rfl

theorem State.fharvOf_of_only {l : List Part} {s t : State} (h : Only l s t) (hd : Part.apart l [.fharv] = true) (x0 : Nat) :
    State.fharvOf t x0 = State.fharvOf s x0 := by
  have h0 : t.fharv = s.fharv := h .fharv (Part.apart_not_mem hd (by decide))
  clear h hd
  cases s; cases t; dsimp only at h0; subst h0; rfl

theorem State.firstOfPort_of_only {l : List Part} {s t : State} (h : Only l s t) (hd : Part.apart l [.opq] = true) (x0 : Nat) (x1 : Nat) :
    State.firstOfPort t x0 x1 = State.firstOfPort s x0 x1 := by
  have h0 : t.opq = s.opq := h .opq (Part.apart_not_mem hd (by decide))
  clear h hd
  cases s; cases t; dsimp only at h0; subst h0; rfl

theorem State.fits_of_only {l : List Part} {s t : State} (h : Only l s t) (hd : Part.apart l [.tb] = true) (x0 : OpEntry) :
    State.fits t x0 = State.fits s x0 := by
  have h0 : t.tb = s.tb := h .tb (Part.apart_not_mem hd (by decide))
  clear h hd
  cases s; cases t; dsimp only at h0; subst h0; rfl

theorem State.flag_of_only {l : List Part} {s t : State} (h : Only l s t) (hd : Part.apart l [.regs] = true) (x0 : Nat) (x1 : Fld) :
    State.flag t x0 x1 = State.flag s x0 x1 := by
  have h0 : t.regs = s.regs := h .regs (Part.apart_not_mem hd (by decide))
  clear h hd
  cases s; cases t; dsimp only at h0; subst h0; rfl

theorem State.flashBusy_of_only {l : List Part} {s t : State} (h : Only l s t) (hd : Part.apart l [.regs, .boot] = true) :
    State.flashBusy t = State.flashBusy s := by
  have h0 : t.regs = s.regs := h .regs (Part.apart_not_mem hd (by decide))
  have h1 : t.boot = s.boot := h .boot (Part.apart_not_mem hd (by decide))
  clear h hd
  cases s; cases t; dsimp only at h0 h1; subst h0; subst h1; rfl

theorem State.fld_of_only {l : List Part} {s t : State} (h : Only l s t) (hd : Part.apart l [.regs] = true) (x0 : Nat) (x1 : Fld) :
    State.fld t x0 x1 = State.fld s x0 x1 := by
  have h0 : t.regs = s.regs := h .regs (Part.apart_not_mem hd (by decide))
  clear h hd
  cases s; cases t; dsimp only at h0; subst h0; rfl

theorem State.follows_of_only {l : List Part} {s t : State} (h : Only l s t) (hd : Part.apart l [.tb] = true) :
    State.follows t = State.follows s := by
  have h0 : t.tb = s.tb := h .tb (Part.apart_not_mem hd (by decide))
  clear h hd
  cases s; cases t; dsimp only at h0; subst h0; rfl

theorem State.freeCtxs_of_only {l : List Part} {s t : State} (h : Only l s t) (hd : Part.apart l [.ctx] = true) (x0 : Nat) :
    State.freeCtxs t x0 = State.freeCtxs s x0 := by
  have h0 : t.ctx = s.ctx := h .ctx (Part.apart_not_mem hd (by decide))
  clear h hd
  cases s; cases t; dsimp only at h0; subst h0; rfl

theorem State.freeOps_of_only {l : List Part} {s t : State} (h : Only l s t) (hd : Part.apart l [.opq] = true) (x0 : Nat) :
    State.freeOps t x0 = State.freeOps s x0 := by
  have h0 : t.opq = s.opq := h .opq (Part.apart_not_mem hd (by decide))
  clear h hd
  cases s; cases t; dsimp only at h0; subst h0; rfl

theorem State.freePans_of_only {l : List Part} {s t : State} (h : Only l s t) (hd : Part.apart l [.pan] = true) (x0 : Nat) :
    State.freePans t x0 = State.freePans s x0 := by
  have h0 : t.pan = s.pan := h .pan (Part.apart_not_mem hd (by decide))
  clear h hd
  cases s; cases t; dsimp only at h0; subst h0; rfl

theorem State.ftNow_of_only {l : List Part} {s t : State} (h : Only l s t) (hd : Part.apart l [.clock] = true) (x0 : Port) :
    State.ftNow t x0 = State.ftNow s x0 := by
  have h0 : t.clock = s.clock := h .clock (Part.apart_not_mem hd (by decide))
  clear h hd
  cases s; cases t; dsimp only at h0; subst h0; rfl

theorem State.fuseMargin_of_only {l : List Part} {s t : State} (h : Only l s t) (hd : Part.apart l [.fuse, .weak] = true) (x0 : Nat) :
    State.fuseMargin t x0 = State.fuseMargin s x0 := by
  have h0 : t.fuse = s.fuse := h .fuse (Part.apart_not_mem hd (by decide))
  have h1 : t.weak = s.weak := h .weak (Part.apart_not_mem hd (by decide))
  clear h hd
  cases s; cases t; dsimp only at h0 h1; subst h0; subst h1; rfl

theorem State.fuseWord_of_only {l : List Part} {s t : State} (h : Only l s t) (hd : Part.apart l [.fuse] = true) (x0 : Nat) :
    State.fuseWord t x0 = State.fuseWord s x0 := by
  have h0 : t.fuse = s.fuse := h .fuse (Part.apart_not_mem hd (by decide))
  clear h hd
  cases s; cases t; dsimp only at h0; subst h0; rfl

theorem State.fwOf_of_only {l : List Part} {s t : State} (h : Only l s t) (hd : Part.apart l [.fw] = true) (x0 : Nat) :
    State.fwOf t x0 = State.fwOf s x0 := by
  have h0 : t.fw = s.fw := h .fw (Part.apart_not_mem hd (by decide))
  clear h hd
  cases s; cases t; dsimp only at h0; subst h0; rfl

theorem State.fwRuns_of_only {l : List Part} {s t : State} (h : Only l s t) (hd : Part.apart l [.regs, .chan] = true) (x0 : Nat) :
    State.fwRuns t x0 = State.fwRuns s x0 := by
  have h0 : t.regs = s.regs := h .regs (Part.apart_not_mem hd (by decide))
  have h1 : t.chan = s.chan := h .chan (Part.apart_not_mem hd (by decide))
  clear h hd
  cases s; cases t; dsimp only at h0 h1; subst h0; subst h1; rfl

theorem State.gapOver_of_only {l : List Part} {s t : State} (h : Only l s t) (hd : Part.apart l [.regs, .upd, .clock] = true) :
    State.gapOver t = State.gapOver s := by
  have h0 : t.regs = s.regs := h .regs (Part.apart_not_mem hd (by decide))
  have h1 : t.upd = s.upd := h .upd (Part.apart_not_mem hd (by decide))
  have h2 : t.clock = s.clock := h .clock (Part.apart_not_mem hd (by decide))
  clear h hd
  cases s; cases t; dsimp only at h0 h1 h2; subst h0; subst h1; subst h2; rfl

theorem State.gateLevel_of_only {l : List Part} {s t : State} (h : Only l s t) (hd : Part.apart l [.regs, .mir, .die] = true) (x0 : Nat) :
    State.gateLevel t x0 = State.gateLevel s x0 := by
  have h0 : t.regs = s.regs := h .regs (Part.apart_not_mem hd (by decide))
  have h1 : t.mir = s.mir := h .mir (Part.apart_not_mem hd (by decide))
  have h2 : t.die = s.die := h .die (Part.apart_not_mem hd (by decide))
  clear h hd
  cases s; cases t; dsimp only at h0 h1 h2; subst h0; subst h1; subst h2; rfl

theorem State.gateOpen_of_only {l : List Part} {s t : State} (h : Only l s t) (hd : Part.apart l [.regs, .mir, .die] = true) (x0 : Nat) :
    State.gateOpen t x0 = State.gateOpen s x0 := by
  have h0 : t.regs = s.regs := h .regs (Part.apart_not_mem hd (by decide))
  have h1 : t.mir = s.mir := h .mir (Part.apart_not_mem hd (by decide))
  have h2 : t.die = s.die := h .die (Part.apart_not_mem hd (by decide))
  clear h hd
  cases s; cases t; dsimp only at h0 h1 h2; subst h0; subst h1; subst h2; rfl

theorem State.gatesOf_of_only {l : List Part} {s t : State} (h : Only l s t) (hd : Part.apart l [.regs] = true) (x0 : Nat) (x1 : Leg) :
    State.gatesOf t x0 x1 = State.gatesOf s x0 x1 := by
  have h0 : t.regs = s.regs := h .regs (Part.apart_not_mem hd (by decide))
  clear h hd
  cases s; cases t; dsimp only at h0; subst h0; rfl

theorem State.glbWord_of_only {l : List Part} {s t : State} (h : Only l s t) (hd : Part.apart l [.regs, .ctx] = true) (x0 : Nat) :
    State.glbWord t x0 = State.glbWord s x0 := by
  have h0 : t.regs = s.regs := h .regs (Part.apart_not_mem hd (by decide))
  have h1 : t.ctx = s.ctx := h .ctx (Part.apart_not_mem hd (by decide))
  clear h hd
  cases s; cases t; dsimp only at h0 h1; subst h0; subst h1; rfl

theorem State.glitchNs_of_only {l : List Part} {s t : State} (h : Only l s t) (hd : Part.apart l [.regs] = true) :
    State.glitchNs t = State.glitchNs s := by
  have h0 : t.regs = s.regs := h .regs (Part.apart_not_mem hd (by decide))
  clear h hd
  cases s; cases t; dsimp only at h0; subst h0; rfl

theorem State.goingBack_of_only {l : List Part} {s t : State} (h : Only l s t) (hd : Part.apart l [.upd] = true) :
    State.goingBack t = State.goingBack s := by
  have h0 : t.upd = s.upd := h .upd (Part.apart_not_mem hd (by decide))
  clear h hd
  cases s; cases t; dsimp only at h0; subst h0; rfl

theorem State.grantAck_of_only {l : List Part} {s t : State} (h : Only l s t) (hd : Part.apart l [.regs] = true) (x0 : Nat) (x1 : List Sys2Proof.Byte) :
    State.grantAck t x0 x1 = State.grantAck s x0 x1 := by
  have h0 : t.regs = s.regs := h .regs (Part.apart_not_mem hd (by decide))
  clear h hd
  cases s; cases t; dsimp only at h0; subst h0; rfl

theorem State.gusedWord_of_only {l : List Part} {s t : State} (h : Only l s t) (hd : Part.apart l [.regs, .bankA, .bankB, .active] = true) :
    State.gusedWord t = State.gusedWord s := by
  have h0 : t.regs = s.regs := h .regs (Part.apart_not_mem hd (by decide))
  have h1 : t.bankA = s.bankA := h .bankA (Part.apart_not_mem hd (by decide))
  have h2 : t.bankB = s.bankB := h .bankB (Part.apart_not_mem hd (by decide))
  have h3 : t.active = s.active := h .active (Part.apart_not_mem hd (by decide))
  clear h hd
  cases s; cases t; dsimp only at h0 h1 h2 h3; subst h0; subst h1; subst h2; subst h3; rfl

theorem State.hangs_of_only {l : List Part} {s t : State} (h : Only l s t) (hd : Part.apart l [.regs, .clk] = true) (x0 : Spot) :
    State.hangs t x0 = State.hangs s x0 := by
  have h0 : t.regs = s.regs := h .regs (Part.apart_not_mem hd (by decide))
  have h1 : t.clk = s.clk := h .clk (Part.apart_not_mem hd (by decide))
  clear h hd
  cases s; cases t; dsimp only at h0 h1; subst h0; subst h1; rfl

theorem State.harvOf_of_only {l : List Part} {s t : State} (h : Only l s t) (hd : Part.apart l [.harv] = true) (x0 : Nat) :
    State.harvOf t x0 = State.harvOf s x0 := by
  have h0 : t.harv = s.harv := h .harv (Part.apart_not_mem hd (by decide))
  clear h hd
  cases s; cases t; dsimp only at h0; subst h0; rfl

theorem State.headroom_of_only {l : List Part} {s t : State} (h : Only l s t) (hd : Part.apart l [.regs, .port, .fdrMon] = true) (x0 : Nat) (x1 : Nat) :
    State.headroom t x0 x1 = State.headroom s x0 x1 := by
  have h0 : t.regs = s.regs := h .regs (Part.apart_not_mem hd (by decide))
  have h1 : t.port = s.port := h .port (Part.apart_not_mem hd (by decide))
  have h2 : t.fdrMon = s.fdrMon := h .fdrMon (Part.apart_not_mem hd (by decide))
  clear h hd
  cases s; cases t; dsimp only at h0 h1 h2; subst h0; subst h1; subst h2; rfl

theorem State.hears_of_only {l : List Part} {s t : State} (h : Only l s t) (hd : Part.apart l [.regs, .clk] = true) (x0 : Nat) :
    State.hears t x0 = State.hears s x0 := by
  have h0 : t.regs = s.regs := h .regs (Part.apart_not_mem hd (by decide))
  have h1 : t.clk = s.clk := h .clk (Part.apart_not_mem hd (by decide))
  clear h hd
  cases s; cases t; dsimp only at h0 h1; subst h0; subst h1; rfl

theorem State.heavyObj_of_only {l : List Part} {s t : State} (h : Only l s t) (hd : Part.apart l [.regs, .mir, .chan, .bankA, .bankB] = true) (x0 : Nat) (x1 : Nat) :
    State.heavyObj t x0 x1 = State.heavyObj s x0 x1 := by
  have h0 : t.regs = s.regs := h .regs (Part.apart_not_mem hd (by decide))
  have h1 : t.mir = s.mir := h .mir (Part.apart_not_mem hd (by decide))
  have h2 : t.chan = s.chan := h .chan (Part.apart_not_mem hd (by decide))
  have h3 : t.bankA = s.bankA := h .bankA (Part.apart_not_mem hd (by decide))
  have h4 : t.bankB = s.bankB := h .bankB (Part.apart_not_mem hd (by decide))
  clear h hd
  cases s; cases t; dsimp only at h0 h1 h2 h3 h4; subst h0; subst h1; subst h2; subst h3; subst h4; rfl

theorem State.heavyObjs_of_only {l : List Part} {s t : State} (h : Only l s t) (hd : Part.apart l [.regs, .mir, .chan, .bankA, .bankB] = true) (x0 : Nat) :
    State.heavyObjs t x0 = State.heavyObjs s x0 := by
  have h0 : t.regs = s.regs := h .regs (Part.apart_not_mem hd (by decide))
  have h1 : t.mir = s.mir := h .mir (Part.apart_not_mem hd (by decide))
  have h2 : t.chan = s.chan := h .chan (Part.apart_not_mem hd (by decide))
  have h3 : t.bankA = s.bankA := h .bankA (Part.apart_not_mem hd (by decide))
  have h4 : t.bankB = s.bankB := h .bankB (Part.apart_not_mem hd (by decide))
  clear h hd
  cases s; cases t; dsimp only at h0 h1 h2 h3 h4; subst h0; subst h1; subst h2; subst h3; subst h4; rfl

theorem State.heldBufs_of_only {l : List Part} {s t : State} (h : Only l s t) (hd : Part.apart l [.lnk] = true) (x0 : Nat) :
    State.heldBufs t x0 = State.heldBufs s x0 := by
  have h0 : t.lnk = s.lnk := h .lnk (Part.apart_not_mem hd (by decide))
  clear h hd
  cases s; cases t; dsimp only at h0; subst h0; rfl

theorem State.helloBytes_of_only {l : List Part} {s t : State} (h : Only l s t) (hd : Part.apart l [.regs, .otp] = true) (x0 : Nat) :
    State.helloBytes t x0 = State.helloBytes s x0 := by
  have h0 : t.regs = s.regs := h .regs (Part.apart_not_mem hd (by decide))
  have h1 : t.otp = s.otp := h .otp (Part.apart_not_mem hd (by decide))
  clear h hd
  cases s; cases t; dsimp only at h0 h1; subst h0; subst h1; rfl

theorem State.holdEnds_of_only {l : List Part} {s t : State} (h : Only l s t) (hd : Part.apart l [.die, .clock] = true) (x0 : Nat) :
    State.holdEnds t x0 = State.holdEnds s x0 := by
  have h0 : t.die = s.die := h .die (Part.apart_not_mem hd (by decide))
  have h1 : t.clock = s.clock := h .clock (Part.apart_not_mem hd (by decide))
  clear h hd
  cases s; cases t; dsimp only at h0 h1; subst h0; subst h1; rfl

theorem State.holdLeft_of_only {l : List Part} {s t : State} (h : Only l s t) (hd : Part.apart l [.regs, .tb] = true) :
    State.holdLeft t = State.holdLeft s := by
  have h0 : t.regs = s.regs := h .regs (Part.apart_not_mem hd (by decide))
  have h1 : t.tb = s.tb := h .tb (Part.apart_not_mem hd (by decide))
  clear h hd
  cases s; cases t; dsimp only at h0 h1; subst h0; subst h1; rfl

theorem State.holdOver_of_only {l : List Part} {s t : State} (h : Only l s t) (hd : Part.apart l [.regs, .tb] = true) :
    State.holdOver t = State.holdOver s := by
  have h0 : t.regs = s.regs := h .regs (Part.apart_not_mem hd (by decide))
  have h1 : t.tb = s.tb := h .tb (Part.apart_not_mem hd (by decide))
  clear h hd
  cases s; cases t; dsimp only at h0 h1; subst h0; subst h1; rfl

theorem State.holdWaits_of_only {l : List Part} {s t : State} (h : Only l s t) (hd : Part.apart l [.pending] = true) (x0 : Nat) :
    State.holdWaits t x0 = State.holdWaits s x0 := by
  have h0 : t.pending = s.pending := h .pending (Part.apart_not_mem hd (by decide))
  clear h hd
  cases s; cases t; dsimp only at h0; subst h0; rfl

theorem State.holdoffOver_of_only {l : List Part} {s t : State} (h : Only l s t) (hd : Part.apart l [.regs, .enum, .clock] = true) :
    State.holdoffOver t = State.holdoffOver s := by
  have h0 : t.regs = s.regs := h .regs (Part.apart_not_mem hd (by decide))
  have h1 : t.enum = s.enum := h .enum (Part.apart_not_mem hd (by decide))
  have h2 : t.clock = s.clock := h .clock (Part.apart_not_mem hd (by decide))
  clear h hd
  cases s; cases t; dsimp only at h0 h1 h2; subst h0; subst h1; subst h2; rfl

theorem State.hrMarks_of_only {l : List Part} {s t : State} (h : Only l s t) (hd : Part.apart l [.hub] = true) (x0 : Nat) :
    State.hrMarks t x0 = State.hrMarks s x0 := by
  have h0 : t.hub = s.hub := h .hub (Part.apart_not_mem hd (by decide))
  clear h hd
  cases s; cases t; dsimp only at h0; subst h0; rfl

theorem State.hubOf_of_only {l : List Part} {s t : State} (h : Only l s t) (hd : Part.apart l [.hub] = true) (x0 : Nat) :
    State.hubOf t x0 = State.hubOf s x0 := by
  have h0 : t.hub = s.hub := h .hub (Part.apart_not_mem hd (by decide))
  clear h hd
  cases s; cases t; dsimp only at h0; subst h0; rfl

theorem State.hubOwes_of_only {l : List Part} {s t : State} (h : Only l s t) (hd : Part.apart l [.dieRegs] = true) (x0 : Nat) (x1 : RxBuf) :
    State.hubOwes t x0 x1 = State.hubOwes s x0 x1 := by
  have h0 : t.dieRegs = s.dieRegs := h .dieRegs (Part.apart_not_mem hd (by decide))
  clear h hd
  cases s; cases t; dsimp only at h0; subst h0; rfl

theorem State.hubSees_of_only {l : List Part} {s t : State} (h : Only l s t) (hd : Part.apart l [.regs, .chan, .die] = true) (x0 : Nat) :
    State.hubSees t x0 = State.hubSees s x0 := by
  have h0 : t.regs = s.regs := h .regs (Part.apart_not_mem hd (by decide))
  have h1 : t.chan = s.chan := h .chan (Part.apart_not_mem hd (by decide))
  have h2 : t.die = s.die := h .die (Part.apart_not_mem hd (by decide))
  clear h hd
  cases s; cases t; dsimp only at h0 h1 h2; subst h0; subst h1; subst h2; rfl

theorem State.hvstWord_of_only {l : List Part} {s t : State} (h : Only l s t) (hd : Part.apart l [.regs, .mir, .hub, .die] = true) (x0 : Nat) :
    State.hvstWord t x0 = State.hvstWord s x0 := by
  have h0 : t.regs = s.regs := h .regs (Part.apart_not_mem hd (by decide))
  have h1 : t.mir = s.mir := h .mir (Part.apart_not_mem hd (by decide))
  have h2 : t.hub = s.hub := h .hub (Part.apart_not_mem hd (by decide))
  have h3 : t.die = s.die := h .die (Part.apart_not_mem hd (by decide))
  clear h hd
  cases s; cases t; dsimp only at h0 h1 h2 h3; subst h0; subst h1; subst h2; subst h3; rfl

theorem State.idleNow_of_only {l : List Part} {s t : State} (h : Only l s t) (hd : Part.apart l [.tb] = true) (x0 : Sys2Proof.WrapMeas) :
    State.idleNow t x0 = State.idleNow s x0 := by
  have h0 : t.tb = s.tb := h .tb (Part.apart_not_mem hd (by decide))
  clear h hd
  cases s; cases t; dsimp only at h0; subst h0; rfl

theorem State.ift_of_only {l : List Part} {s t : State} (h : Only l s t) (hd : Part.apart l [.dieRegs] = true) (x0 : Nat) :
    State.ift t x0 = State.ift s x0 := by
  have h0 : t.dieRegs = s.dieRegs := h .dieRegs (Part.apart_not_mem hd (by decide))
  clear h hd
  cases s; cases t; dsimp only at h0; subst h0; rfl

theorem State.imageBad_of_only {l : List Part} {s t : State} (h : Only l s t) (hd : Part.apart l [.ecc] = true) :
    State.imageBad t = State.imageBad s := by
  have h0 : t.ecc = s.ecc := h .ecc (Part.apart_not_mem hd (by decide))
  clear h hd
  cases s; cases t; dsimp only at h0; subst h0; rfl

theorem State.imageKey_of_only {l : List Part} {s t : State} (h : Only l s t) (hd : Part.apart l [.otp] = true) (x0 : List Sys2Proof.Byte) :
    State.imageKey t x0 = State.imageKey s x0 := by
  have h0 : t.otp = s.otp := h .otp (Part.apart_not_mem hd (by decide))
  clear h hd
  cases s; cases t; dsimp only at h0; subst h0; rfl

theorem State.inDip_of_only {l : List Part} {s t : State} (h : Only l s t) (hd : Part.apart l [.tb] = true) (x0 : Sys2Proof.WrapMeas) :
    State.inDip t x0 = State.inDip s x0 := by
  have h0 : t.tb = s.tb := h .tb (Part.apart_not_mem hd (by decide))
  clear h hd
  cases s; cases t; dsimp only at h0; subst h0; rfl

theorem State.inRange_of_only {l : List Part} {s t : State} (h : Only l s t) (hd : Part.apart l [.regs] = true) (x0 : Nat) (x1 : Nat) :
    State.inRange t x0 x1 = State.inRange s x0 x1 := by
  have h0 : t.regs = s.regs := h .regs (Part.apart_not_mem hd (by decide))
  clear h hd
  cases s; cases t; dsimp only at h0; subst h0; rfl

theorem State.inSession_of_only {l : List Part} {s t : State} (h : Only l s t) (hd : Part.apart l [.regs, .upd] = true) :
    State.inSession t = State.inSession s := by
  have h0 : t.regs = s.regs := h .regs (Part.apart_not_mem hd (by decide))
  have h1 : t.upd = s.upd := h .upd (Part.apart_not_mem hd (by decide))
  clear h hd
  cases s; cases t; dsimp only at h0 h1; subst h0; subst h1; rfl

theorem State.inUse_of_only {l : List Part} {s t : State} (h : Only l s t) (hd : Part.apart l [.opq] = true) (x0 : Nat) :
    State.inUse t x0 = State.inUse s x0 := by
  have h0 : t.opq = s.opq := h .opq (Part.apart_not_mem hd (by decide))
  clear h hd
  cases s; cases t; dsimp only at h0; subst h0; rfl

theorem State.inWindow_of_only {l : List Part} {s t : State} (h : Only l s t) (hd : Part.apart l [.dieRegs, .port] = true) (x0 : Nat) (x1 : Nat) :
    State.inWindow t x0 x1 = State.inWindow s x0 x1 := by
  have h0 : t.dieRegs = s.dieRegs := h .dieRegs (Part.apart_not_mem hd (by decide))
  have h1 : t.port = s.port := h .port (Part.apart_not_mem hd (by decide))
  clear h hd
  cases s; cases t; dsimp only at h0 h1; subst h0; subst h1; rfl

theorem State.inrushEnds_of_only {l : List Part} {s t : State} (h : Only l s t) (hd : Part.apart l [.dieRegs, .port, .clock] = true) (x0 : Nat) :
    State.inrushEnds t x0 = State.inrushEnds s x0 := by
  have h0 : t.dieRegs = s.dieRegs := h .dieRegs (Part.apart_not_mem hd (by decide))
  have h1 : t.port = s.port := h .port (Part.apart_not_mem hd (by decide))
  have h2 : t.clock = s.clock := h .clock (Part.apart_not_mem hd (by decide))
  clear h hd
  cases s; cases t; dsimp only at h0 h1 h2; subst h0; subst h1; subst h2; rfl

theorem State.isRoot_of_only {l : List Part} {s t : State} (h : Only l s t) (hd : Part.apart l [.regs] = true) :
    State.isRoot t = State.isRoot s := by
  have h0 : t.regs = s.regs := h .regs (Part.apart_not_mem hd (by decide))
  clear h hd
  cases s; cases t; dsimp only at h0; subst h0; rfl

theorem State.islf_of_only {l : List Part} {s t : State} (h : Only l s t) (hd : Part.apart l [.regs] = true) :
    State.islf t = State.islf s := by
  have h0 : t.regs = s.regs := h .regs (Part.apart_not_mem hd (by decide))
  clear h hd
  cases s; cases t; dsimp only at h0; subst h0; rfl

theorem State.kaKind_of_only {l : List Part} {s t : State} (h : Only l s t) (hd : Part.apart l [.dieRegs] = true) (x0 : Nat) :
    State.kaKind t x0 = State.kaKind s x0 := by
  have h0 : t.dieRegs = s.dieRegs := h .dieRegs (Part.apart_not_mem hd (by decide))
  clear h hd
  cases s; cases t; dsimp only at h0; subst h0; rfl

theorem State.kaUs_of_only {l : List Part} {s t : State} (h : Only l s t) (hd : Part.apart l [.dieRegs] = true) (x0 : Nat) :
    State.kaUs t x0 = State.kaUs s x0 := by
  have h0 : t.dieRegs = s.dieRegs := h .dieRegs (Part.apart_not_mem hd (by decide))
  clear h hd
  cases s; cases t; dsimp only at h0; subst h0; rfl

theorem State.keyPrio_of_only {l : List Part} {s t : State} (h : Only l s t) (hd : Part.apart l [.regs, .prec] = true) (x0 : Nat) :
    State.keyPrio t x0 = State.keyPrio s x0 := by
  have h0 : t.regs = s.regs := h .regs (Part.apart_not_mem hd (by decide))
  have h1 : t.prec = s.prec := h .prec (Part.apart_not_mem hd (by decide))
  clear h hd
  cases s; cases t; dsimp only at h0 h1; subst h0; subst h1; rfl

theorem State.kickWaits_of_only {l : List Part} {s t : State} (h : Only l s t) (hd : Part.apart l [.crs, .pending] = true) (x0 : Fin 4) :
    State.kickWaits t x0 = State.kickWaits s x0 := by
  have h0 : t.crs = s.crs := h .crs (Part.apart_not_mem hd (by decide))
  have h1 : t.pending = s.pending := h .pending (Part.apart_not_mem hd (by decide))
  clear h hd
  cases s; cases t; dsimp only at h0 h1; subst h0; subst h1; rfl

theorem State.lastSeq_of_only {l : List Part} {s t : State} (h : Only l s t) (hd : Part.apart l [.nvmA, .nvmB] = true) :
    State.lastSeq t = State.lastSeq s := by
  have h0 : t.nvmA = s.nvmA := h .nvmA (Part.apart_not_mem hd (by decide))
  have h1 : t.nvmB = s.nvmB := h .nvmB (Part.apart_not_mem hd (by decide))
  clear h hd
  cases s; cases t; dsimp only at h0 h1; subst h0; subst h1; rfl

theorem State.leAt_of_only {l : List Part} {s t : State} (h : Only l s t) (hd : Part.apart l [.mem] = true) (x0 : Nat) (x1 : Nat) (x2 : Nat) :
    State.leAt t x0 x1 x2 = State.leAt s x0 x1 x2 := by
  have h0 : t.mem = s.mem := h .mem (Part.apart_not_mem hd (by decide))
  clear h hd
  cases s; cases t; dsimp only at h0; subst h0; rfl

theorem State.lead_of_only {l : List Part} {s t : State} (h : Only l s t) (hd : Part.apart l [.regs, .crs] = true) (x0 : Nat) :
    State.lead t x0 = State.lead s x0 := by
  have h0 : t.regs = s.regs := h .regs (Part.apart_not_mem hd (by decide))
  have h1 : t.crs = s.crs := h .crs (Part.apart_not_mem hd (by decide))
  clear h hd
  cases s; cases t; dsimp only at h0 h1; subst h0; subst h1; rfl

theorem State.leadNow_of_only {l : List Part} {s t : State} (h : Only l s t) (hd : Part.apart l [.tb] = true) (x0 : Sys2Proof.WrapMeas) :
    State.leadNow t x0 = State.leadNow s x0 := by
  have h0 : t.tb = s.tb := h .tb (Part.apart_not_mem hd (by decide))
  clear h hd
  cases s; cases t; dsimp only at h0; subst h0; rfl

theorem State.legCost_of_only {l : List Part} {s t : State} (h : Only l s t) (hd : Part.apart l [.regs] = true) (x0 : Nat) (x1 : Leg) :
    State.legCost t x0 x1 = State.legCost s x0 x1 := by
  have h0 : t.regs = s.regs := h .regs (Part.apart_not_mem hd (by decide))
  clear h hd
  cases s; cases t; dsimp only at h0; subst h0; rfl

theorem State.legFeeders_of_only {l : List Part} {s t : State} (h : Only l s t) (hd : Part.apart l [.regs, .port] = true) (x0 : Nat) :
    State.legFeeders t x0 = State.legFeeders s x0 := by
  have h0 : t.regs = s.regs := h .regs (Part.apart_not_mem hd (by decide))
  have h1 : t.port = s.port := h .port (Part.apart_not_mem hd (by decide))
  clear h hd
  cases s; cases t; dsimp only at h0 h1; subst h0; subst h1; rfl

theorem State.legFeeds_of_only {l : List Part} {s t : State} (h : Only l s t) (hd : Part.apart l [.regs] = true) (x0 : Nat) (x1 : Leg) :
    State.legFeeds t x0 x1 = State.legFeeds s x0 x1 := by
  have h0 : t.regs = s.regs := h .regs (Part.apart_not_mem hd (by decide))
  clear h hd
  cases s; cases t; dsimp only at h0; subst h0; rfl

theorem State.legFprio_of_only {l : List Part} {s t : State} (h : Only l s t) (hd : Part.apart l [.regs] = true) (x0 : Nat) (x1 : Leg) :
    State.legFprio t x0 x1 = State.legFprio s x0 x1 := by
  have h0 : t.regs = s.regs := h .regs (Part.apart_not_mem hd (by decide))
  clear h hd
  cases s; cases t; dsimp only at h0; subst h0; rfl

theorem State.levelNow_of_only {l : List Part} {s t : State} (h : Only l s t) (hd : Part.apart l [.regs] = true) :
    State.levelNow t = State.levelNow s := by
  have h0 : t.regs = s.regs := h .regs (Part.apart_not_mem hd (by decide))
  clear h hd
  cases s; cases t; dsimp only at h0; subst h0; rfl

theorem State.limit_of_only {l : List Part} {s t : State} (h : Only l s t) (hd : Part.apart l [.dieRegs, .port] = true) (x0 : Nat) :
    State.limit t x0 = State.limit s x0 := by
  have h0 : t.dieRegs = s.dieRegs := h .dieRegs (Part.apart_not_mem hd (by decide))
  have h1 : t.port = s.port := h .port (Part.apart_not_mem hd (by decide))
  clear h hd
  cases s; cases t; dsimp only at h0 h1; subst h0; subst h1; rfl

theorem State.linkOn_of_only {l : List Part} {s t : State} (h : Only l s t) (hd : Part.apart l [.regs] = true) (x0 : Nat) :
    State.linkOn t x0 = State.linkOn s x0 := by
  have h0 : t.regs = s.regs := h .regs (Part.apart_not_mem hd (by decide))
  clear h hd
  cases s; cases t; dsimp only at h0; subst h0; rfl

theorem State.linkState_of_only {l : List Part} {s t : State} (h : Only l s t) (hd : Part.apart l [.regs] = true) (x0 : Nat) :
    State.linkState t x0 = State.linkState s x0 := by
  have h0 : t.regs = s.regs := h .regs (Part.apart_not_mem hd (by decide))
  clear h hd
  cases s; cases t; dsimp only at h0; subst h0; rfl

theorem State.linkUp_of_only {l : List Part} {s t : State} (h : Only l s t) (hd : Part.apart l [.regs, .die] = true) (x0 : Nat) :
    State.linkUp t x0 = State.linkUp s x0 := by
  have h0 : t.regs = s.regs := h .regs (Part.apart_not_mem hd (by decide))
  have h1 : t.die = s.die := h .die (Part.apart_not_mem hd (by decide))
  clear h hd
  cases s; cases t; dsimp only at h0 h1; subst h0; subst h1; rfl

theorem State.linked_of_only {l : List Part} {s t : State} (h : Only l s t) (hd : Part.apart l [.regs] = true) (x0 : Nat) :
    State.linked t x0 = State.linked s x0 := by
  have h0 : t.regs = s.regs := h .regs (Part.apart_not_mem hd (by decide))
  clear h hd
  cases s; cases t; dsimp only at h0; subst h0; rfl

theorem State.live_of_only {l : List Part} {s t : State} (h : Only l s t) (hd : Part.apart l [.regs, .mir, .hub, .chan] = true) (x0 : Nat) :
    State.live t x0 = State.live s x0 := by
  have h0 : t.regs = s.regs := h .regs (Part.apart_not_mem hd (by decide))
  have h1 : t.mir = s.mir := h .mir (Part.apart_not_mem hd (by decide))
  have h2 : t.hub = s.hub := h .hub (Part.apart_not_mem hd (by decide))
  have h3 : t.chan = s.chan := h .chan (Part.apart_not_mem hd (by decide))
  clear h hd
  cases s; cases t; dsimp only at h0 h1 h2 h3; subst h0; subst h1; subst h2; subst h3; rfl

theorem State.lnkUp_of_only {l : List Part} {s t : State} (h : Only l s t) (hd : Part.apart l [.regs] = true) (x0 : Nat) :
    State.lnkUp t x0 = State.lnkUp s x0 := by
  have h0 : t.regs = s.regs := h .regs (Part.apart_not_mem hd (by decide))
  clear h hd
  cases s; cases t; dsimp only at h0; subst h0; rfl

theorem State.logData_of_only {l : List Part} {s t : State} (h : Only l s t) (hd : Part.apart l [.regs, .log] = true) (x0 : Nat) :
    State.logData t x0 = State.logData s x0 := by
  have h0 : t.regs = s.regs := h .regs (Part.apart_not_mem hd (by decide))
  have h1 : t.log = s.log := h .log (Part.apart_not_mem hd (by decide))
  clear h hd
  cases s; cases t; dsimp only at h0 h1; subst h0; subst h1; rfl

theorem State.logStat_of_only {l : List Part} {s t : State} (h : Only l s t) (hd : Part.apart l [.log] = true) :
    State.logStat t = State.logStat s := by
  have h0 : t.log = s.log := h .log (Part.apart_not_mem hd (by decide))
  clear h hd
  cases s; cases t; dsimp only at h0; subst h0; rfl

theorem State.lossSeen_of_only {l : List Part} {s t : State} (h : Only l s t) (hd : Part.apart l [.regs, .clk] = true) (x0 : Sys2Proof.ClockId) :
    State.lossSeen t x0 = State.lossSeen s x0 := by
  have h0 : t.regs = s.regs := h .regs (Part.apart_not_mem hd (by decide))
  have h1 : t.clk = s.clk := h .clk (Part.apart_not_mem hd (by decide))
  clear h hd
  cases s; cases t; dsimp only at h0 h1; subst h0; subst h1; rfl

theorem State.lossWaits_of_only {l : List Part} {s t : State} (h : Only l s t) (hd : Part.apart l [.dieRegs, .port, .fresh, .clock, .pending] = true) (x0 : Nat) :
    State.lossWaits t x0 = State.lossWaits s x0 := by
  have h0 : t.dieRegs = s.dieRegs := h .dieRegs (Part.apart_not_mem hd (by decide))
  have h1 : t.port = s.port := h .port (Part.apart_not_mem hd (by decide))
  have h2 : t.fresh = s.fresh := h .fresh (Part.apart_not_mem hd (by decide))
  have h3 : t.clock = s.clock := h .clock (Part.apart_not_mem hd (by decide))
  have h4 : t.pending = s.pending := h .pending (Part.apart_not_mem hd (by decide))
  clear h hd
  cases s; cases t; dsimp only at h0 h1 h2 h3 h4; subst h0; subst h1; subst h2; subst h3; subst h4; rfl

theorem State.mbxFree_of_only {l : List Part} {s t : State} (h : Only l s t) (hd : Part.apart l [.mbx] = true) (x0 : Nat) :
    State.mbxFree t x0 = State.mbxFree s x0 := by
  have h0 : t.mbx = s.mbx := h .mbx (Part.apart_not_mem hd (by decide))
  clear h hd
  cases s; cases t; dsimp only at h0; subst h0; rfl

theorem State.mbxOf_of_only {l : List Part} {s t : State} (h : Only l s t) (hd : Part.apart l [.mbx] = true) (x0 : Nat) (x1 : Nat) :
    State.mbxOf t x0 x1 = State.mbxOf s x0 x1 := by
  have h0 : t.mbx = s.mbx := h .mbx (Part.apart_not_mem hd (by decide))
  clear h hd
  cases s; cases t; dsimp only at h0; subst h0; rfl

theorem State.mbxOldest_of_only {l : List Part} {s t : State} (h : Only l s t) (hd : Part.apart l [.mbx] = true) (x0 : Nat) :
    State.mbxOldest t x0 = State.mbxOldest s x0 := by
  have h0 : t.mbx = s.mbx := h .mbx (Part.apart_not_mem hd (by decide))
  clear h hd
  cases s; cases t; dsimp only at h0; subst h0; rfl

theorem State.mbxOrder_of_only {l : List Part} {s t : State} (h : Only l s t) (hd : Part.apart l [.mbx] = true) (x0 : Nat) :
    State.mbxOrder t x0 = State.mbxOrder s x0 := by
  have h0 : t.mbx = s.mbx := h .mbx (Part.apart_not_mem hd (by decide))
  clear h hd
  cases s; cases t; dsimp only at h0; subst h0; rfl

theorem State.mbxStat_of_only {l : List Part} {s t : State} (h : Only l s t) (hd : Part.apart l [.crs, .mbx] = true) (x0 : Nat) :
    State.mbxStat t x0 = State.mbxStat s x0 := by
  have h0 : t.crs = s.crs := h .crs (Part.apart_not_mem hd (by decide))
  have h1 : t.mbx = s.mbx := h .mbx (Part.apart_not_mem hd (by decide))
  clear h hd
  cases s; cases t; dsimp only at h0 h1; subst h0; subst h1; rfl

theorem State.meetsLimit_of_only {l : List Part} {s t : State} (h : Only l s t) (hd : Part.apart l [.dieRegs, .port] = true) (x0 : Nat) (x1 : Nat) :
    State.meetsLimit t x0 x1 = State.meetsLimit s x0 x1 := by
  have h0 : t.dieRegs = s.dieRegs := h .dieRegs (Part.apart_not_mem hd (by decide))
  have h1 : t.port = s.port := h .port (Part.apart_not_mem hd (by decide))
  clear h hd
  cases s; cases t; dsimp only at h0 h1; subst h0; subst h1; rfl

theorem State.mgmtIdle_of_only {l : List Part} {s t : State} (h : Only l s t) (hd : Part.apart l [.regs, .prec, .mbx, .log, .boot, .otp, .upd] = true) :
    State.mgmtIdle t = State.mgmtIdle s := by
  have h0 : t.regs = s.regs := h .regs (Part.apart_not_mem hd (by decide))
  have h1 : t.prec = s.prec := h .prec (Part.apart_not_mem hd (by decide))
  have h2 : t.mbx = s.mbx := h .mbx (Part.apart_not_mem hd (by decide))
  have h3 : t.log = s.log := h .log (Part.apart_not_mem hd (by decide))
  have h4 : t.boot = s.boot := h .boot (Part.apart_not_mem hd (by decide))
  have h5 : t.otp = s.otp := h .otp (Part.apart_not_mem hd (by decide))
  have h6 : t.upd = s.upd := h .upd (Part.apart_not_mem hd (by decide))
  clear h hd
  cases s; cases t; dsimp only at h0 h1 h2 h3 h4 h5 h6; subst h0; subst h1; subst h2; subst h3; subst h4; subst h5; subst h6; rfl

theorem State.mgmtUp_of_only {l : List Part} {s t : State} (h : Only l s t) (hd : Part.apart l [.clk] = true) :
    State.mgmtUp t = State.mgmtUp s := by
  have h0 : t.clk = s.clk := h .clk (Part.apart_not_mem hd (by decide))
  clear h hd
  cases s; cases t; dsimp only at h0; subst h0; rfl

theorem State.mirOf_of_only {l : List Part} {s t : State} (h : Only l s t) (hd : Part.apart l [.mir] = true) (x0 : Nat) :
    State.mirOf t x0 = State.mirOf s x0 := by
  have h0 : t.mir = s.mir := h .mir (Part.apart_not_mem hd (by decide))
  clear h hd
  cases s; cases t; dsimp only at h0; subst h0; rfl

theorem State.mirTime_of_only {l : List Part} {s t : State} (h : Only l s t) (hd : Part.apart l [.regs, .die, .clock] = true) (x0 : Nat) :
    State.mirTime t x0 = State.mirTime s x0 := by
  have h0 : t.regs = s.regs := h .regs (Part.apart_not_mem hd (by decide))
  have h1 : t.die = s.die := h .die (Part.apart_not_mem hd (by decide))
  have h2 : t.clock = s.clock := h .clock (Part.apart_not_mem hd (by decide))
  clear h hd
  cases s; cases t; dsimp only at h0 h1 h2; subst h0; subst h1; subst h2; rfl

theorem State.monOf_of_only {l : List Part} {s t : State} (h : Only l s t) (hd : Part.apart l [.fdrMon] = true) (x0 : Nat) :
    State.monOf t x0 = State.monOf s x0 := by
  have h0 : t.fdrMon = s.fdrMon := h .fdrMon (Part.apart_not_mem hd (by decide))
  clear h hd
  cases s; cases t; dsimp only at h0; subst h0; rfl

theorem State.msgRow_of_only {l : List Part} {s t : State} (h : Only l s t) (hd : Part.apart l [.regs, .fw] = true) (x0 : Nat) (x1 : Sys2Proof.Sop) (x2 : List Sys2Proof.Byte) :
    State.msgRow t x0 x1 x2 = State.msgRow s x0 x1 x2 := by
  have h0 : t.regs = s.regs := h .regs (Part.apart_not_mem hd (by decide))
  have h1 : t.fw = s.fw := h .fw (Part.apart_not_mem hd (by decide))
  clear h hd
  cases s; cases t; dsimp only at h0 h1; subst h0; subst h1; rfl

theorem State.myAddr_of_only {l : List Part} {s t : State} (h : Only l s t) (hd : Part.apart l [.regs] = true) :
    State.myAddr t = State.myAddr s := by
  have h0 : t.regs = s.regs := h .regs (Part.apart_not_mem hd (by decide))
  clear h hd
  cases s; cases t; dsimp only at h0; subst h0; rfl

theorem State.namesSelf_of_only {l : List Part} {s t : State} (h : Only l s t) (hd : Part.apart l [.regs] = true) (x0 : Nat) :
    State.namesSelf t x0 = State.namesSelf s x0 := by
  have h0 : t.regs = s.regs := h .regs (Part.apart_not_mem hd (by decide))
  clear h hd
  cases s; cases t; dsimp only at h0; subst h0; rfl

theorem State.nblk_of_only {l : List Part} {s t : State} (h : Only l s t) (hd : Part.apart l [.regs] = true) :
    State.nblk t = State.nblk s := by
  have h0 : t.regs = s.regs := h .regs (Part.apart_not_mem hd (by decide))
  clear h hd
  cases s; cases t; dsimp only at h0; subst h0; rfl

theorem State.newBits_of_only {l : List Part} {s t : State} (h : Only l s t) (hd : Part.apart l [.fuse, .weak] = true) (x0 : OtpCmd) :
    State.newBits t x0 = State.newBits s x0 := by
  have h0 : t.fuse = s.fuse := h .fuse (Part.apart_not_mem hd (by decide))
  have h1 : t.weak = s.weak := h .weak (Part.apart_not_mem hd (by decide))
  clear h hd
  cases s; cases t; dsimp only at h0 h1; subst h0; subst h1; rfl

theorem State.newOp_of_only {l : List Part} {s t : State} (h : Only l s t) (hd : Part.apart l [.regs] = true) (x0 : OpKind) (x1 : Nat) (x2 : Nat) (x3 : Nat) :
    State.newOp t x0 x1 x2 x3 = State.newOp s x0 x1 x2 x3 := by
  have h0 : t.regs = s.regs := h .regs (Part.apart_not_mem hd (by decide))
  clear h hd
  cases s; cases t; dsimp only at h0; subst h0; rfl

theorem State.newTran_of_only {l : List Part} {s t : State} (h : Only l s t) (hd : Part.apart l [.regs, .prec, .mir] = true) (x0 : Nat) (x1 : Nat) (x2 : Nat) (x3 : Nat) (x4 : Bool) (x5 : Bool) (x6 : Bool) :
    State.newTran t x0 x1 x2 x3 x4 x5 x6 = State.newTran s x0 x1 x2 x3 x4 x5 x6 := by
  have h0 : t.regs = s.regs := h .regs (Part.apart_not_mem hd (by decide))
  have h1 : t.prec = s.prec := h .prec (Part.apart_not_mem hd (by decide))
  have h2 : t.mir = s.mir := h .mir (Part.apart_not_mem hd (by decide))
  clear h hd
  cases s; cases t; dsimp only at h0 h1 h2; subst h0; subst h1; subst h2; rfl

theorem State.nextFrame_of_only {l : List Part} {s t : State} (h : Only l s t) (hd : Part.apart l [.regs, .lnk] = true) (x0 : Nat) :
    State.nextFrame t x0 = State.nextFrame s x0 := by
  have h0 : t.regs = s.regs := h .regs (Part.apart_not_mem hd (by decide))
  have h1 : t.lnk = s.lnk := h .lnk (Part.apart_not_mem hd (by decide))
  clear h hd
  cases s; cases t; dsimp only at h0 h1; subst h0; subst h1; rfl

theorem State.objPos_of_only {l : List Part} {s t : State} (h : Only l s t) (hd : Part.apart l [.prec] = true) (x0 : Nat) :
    State.objPos t x0 = State.objPos s x0 := by
  have h0 : t.prec = s.prec := h .prec (Part.apart_not_mem hd (by decide))
  clear h hd
  cases s; cases t; dsimp only at h0; subst h0; rfl

theorem State.odDue_of_only {l : List Part} {s t : State} (h : Only l s t) (hd : Part.apart l [.adc, .clock] = true) (x0 : Nat) :
    State.odDue t x0 = State.odDue s x0 := by
  have h0 : t.adc = s.adc := h .adc (Part.apart_not_mem hd (by decide))
  have h1 : t.clock = s.clock := h .clock (Part.apart_not_mem hd (by decide))
  clear h hd
  cases s; cases t; dsimp only at h0 h1; subst h0; subst h1; rfl

theorem State.oddHalf_of_only {l : List Part} {s t : State} (h : Only l s t) (hd : Part.apart l [.regs] = true) (x0 : Nat) :
    State.oddHalf t x0 = State.oddHalf s x0 := by
  have h0 : t.regs = s.regs := h .regs (Part.apart_not_mem hd (by decide))
  clear h hd
  cases s; cases t; dsimp only at h0; subst h0; rfl

theorem State.offerChanged_of_only {l : List Part} {s t : State} (h : Only l s t) (hd : Part.apart l [.regs, .prec, .mir, .fw, .chan, .bankA, .bankB] = true) (x0 : Nat) :
    State.offerChanged t x0 = State.offerChanged s x0 := by
  have h0 : t.regs = s.regs := h .regs (Part.apart_not_mem hd (by decide))
  have h1 : t.prec = s.prec := h .prec (Part.apart_not_mem hd (by decide))
  have h2 : t.mir = s.mir := h .mir (Part.apart_not_mem hd (by decide))
  have h3 : t.fw = s.fw := h .fw (Part.apart_not_mem hd (by decide))
  have h4 : t.chan = s.chan := h .chan (Part.apart_not_mem hd (by decide))
  have h5 : t.bankA = s.bankA := h .bankA (Part.apart_not_mem hd (by decide))
  have h6 : t.bankB = s.bankB := h .bankB (Part.apart_not_mem hd (by decide))
  clear h hd
  cases s; cases t; dsimp only at h0 h1 h2 h3 h4 h5 h6; subst h0; subst h1; subst h2; subst h3; subst h4; subst h5; subst h6; rfl

theorem State.offerEpr_of_only {l : List Part} {s t : State} (h : Only l s t) (hd : Part.apart l [.regs, .fw, .chan, .bankA, .bankB] = true) (x0 : Nat) (x1 : Bool) :
    State.offerEpr t x0 x1 = State.offerEpr s x0 x1 := by
  have h0 : t.regs = s.regs := h .regs (Part.apart_not_mem hd (by decide))
  have h1 : t.fw = s.fw := h .fw (Part.apart_not_mem hd (by decide))
  have h2 : t.chan = s.chan := h .chan (Part.apart_not_mem hd (by decide))
  have h3 : t.bankA = s.bankA := h .bankA (Part.apart_not_mem hd (by decide))
  have h4 : t.bankB = s.bankB := h .bankB (Part.apart_not_mem hd (by decide))
  clear h hd
  cases s; cases t; dsimp only at h0 h1 h2 h3 h4; subst h0; subst h1; subst h2; subst h3; subst h4; rfl

theorem State.offerObj_of_only {l : List Part} {s t : State} (h : Only l s t) (hd : Part.apart l [.regs, .fw, .chan, .bankA, .bankB] = true) (x0 : Nat) (x1 : Bool) (x2 : Nat) :
    State.offerObj t x0 x1 x2 = State.offerObj s x0 x1 x2 := by
  have h0 : t.regs = s.regs := h .regs (Part.apart_not_mem hd (by decide))
  have h1 : t.fw = s.fw := h .fw (Part.apart_not_mem hd (by decide))
  have h2 : t.chan = s.chan := h .chan (Part.apart_not_mem hd (by decide))
  have h3 : t.bankA = s.bankA := h .bankA (Part.apart_not_mem hd (by decide))
  have h4 : t.bankB = s.bankB := h .bankB (Part.apart_not_mem hd (by decide))
  clear h hd
  cases s; cases t; dsimp only at h0 h1 h2 h3 h4; subst h0; subst h1; subst h2; subst h3; subst h4; rfl

theorem State.offerSpr_of_only {l : List Part} {s t : State} (h : Only l s t) (hd : Part.apart l [.regs, .fw, .chan, .bankA, .bankB] = true) (x0 : Nat) :
    State.offerSpr t x0 = State.offerSpr s x0 := by
  have h0 : t.regs = s.regs := h .regs (Part.apart_not_mem hd (by decide))
  have h1 : t.fw = s.fw := h .fw (Part.apart_not_mem hd (by decide))
  have h2 : t.chan = s.chan := h .chan (Part.apart_not_mem hd (by decide))
  have h3 : t.bankA = s.bankA := h .bankA (Part.apart_not_mem hd (by decide))
  have h4 : t.bankB = s.bankB := h .bankB (Part.apart_not_mem hd (by decide))
  clear h hd
  cases s; cases t; dsimp only at h0 h1 h2 h3 h4; subst h0; subst h1; subst h2; subst h3; subst h4; rfl

theorem State.opArgs_of_only {l : List Part} {s t : State} (h : Only l s t) (hd : Part.apart l [.regs] = true) (x0 : Nat) :
    State.opArgs t x0 = State.opArgs s x0 := by
  have h0 : t.regs = s.regs := h .regs (Part.apart_not_mem hd (by decide))
  clear h hd
  cases s; cases t; dsimp only at h0; subst h0; rfl

theorem State.opArrives_of_only {l : List Part} {s t : State} (h : Only l s t) (hd : Part.apart l [.regs, .dieRegs, .port, .opq, .die, .fresh, .clock, .pending] = true) (x0 : Nat) (x1 : Nat) (x2 : OpKind) :
    State.opArrives t x0 x1 x2 = State.opArrives s x0 x1 x2 := by
  have h0 : t.regs = s.regs := h .regs (Part.apart_not_mem hd (by decide))
  have h1 : t.dieRegs = s.dieRegs := h .dieRegs (Part.apart_not_mem hd (by decide))
  have h2 : t.port = s.port := h .port (Part.apart_not_mem hd (by decide))
  have h3 : t.opq = s.opq := h .opq (Part.apart_not_mem hd (by decide))
  have h4 : t.die = s.die := h .die (Part.apart_not_mem hd (by decide))
  have h5 : t.fresh = s.fresh := h .fresh (Part.apart_not_mem hd (by decide))
  have h6 : t.clock = s.clock := h .clock (Part.apart_not_mem hd (by decide))
  have h7 : t.pending = s.pending := h .pending (Part.apart_not_mem hd (by decide))
  clear h hd
  cases s; cases t; dsimp only at h0 h1 h2 h3 h4 h5 h6 h7; subst h0; subst h1; subst h2; subst h3; subst h4; subst h5; subst h6; subst h7; rfl

theorem State.opOf_of_only {l : List Part} {s t : State} (h : Only l s t) (hd : Part.apart l [.opq] = true) (x0 : Nat) (x1 : Nat) :
    State.opOf t x0 x1 = State.opOf s x0 x1 := by
  have h0 : t.opq = s.opq := h .opq (Part.apart_not_mem hd (by decide))
  clear h hd
  cases s; cases t; dsimp only at h0; subst h0; rfl

theorem State.openRefusal_of_only {l : List Part} {s t : State} (h : Only l s t) (hd : Part.apart l [.regs, .bankA, .bankB, .active, .nvmA, .nvmB, .otp] = true) (x0 : Nat) :
    State.openRefusal t x0 = State.openRefusal s x0 := by
  have h0 : t.regs = s.regs := h .regs (Part.apart_not_mem hd (by decide))
  have h1 : t.bankA = s.bankA := h .bankA (Part.apart_not_mem hd (by decide))
  have h2 : t.bankB = s.bankB := h .bankB (Part.apart_not_mem hd (by decide))
  have h3 : t.active = s.active := h .active (Part.apart_not_mem hd (by decide))
  have h4 : t.nvmA = s.nvmA := h .nvmA (Part.apart_not_mem hd (by decide))
  have h5 : t.nvmB = s.nvmB := h .nvmB (Part.apart_not_mem hd (by decide))
  have h6 : t.otp = s.otp := h .otp (Part.apart_not_mem hd (by decide))
  clear h hd
  cases s; cases t; dsimp only at h0 h1 h2 h3 h4 h5 h6; subst h0; subst h1; subst h2; subst h3; subst h4; subst h5; subst h6; rfl

theorem State.opqStat_of_only {l : List Part} {s t : State} (h : Only l s t) (hd : Part.apart l [.opq, .chan] = true) (x0 : Nat) :
    State.opqStat t x0 = State.opqStat s x0 := by
  have h0 : t.opq = s.opq := h .opq (Part.apart_not_mem hd (by decide))
  have h1 : t.chan = s.chan := h .chan (Part.apart_not_mem hd (by decide))
  clear h hd
  cases s; cases t; dsimp only at h0 h1; subst h0; subst h1; rfl

theorem State.opsOf_of_only {l : List Part} {s t : State} (h : Only l s t) (hd : Part.apart l [.opq] = true) (x0 : Nat) (x1 : Nat) (x2 : OpEntry → Bool) :
    State.opsOf t x0 x1 x2 = State.opsOf s x0 x1 x2 := by
  have h0 : t.opq = s.opq := h .opq (Part.apart_not_mem hd (by decide))
  clear h hd
  cases s; cases t; dsimp only at h0; subst h0; rfl

theorem State.originAddr_of_only {l : List Part} {s t : State} (h : Only l s t) (hd : Part.apart l [.regs] = true) (x0 : Sys2Proof.Origin) :
    State.originAddr t x0 = State.originAddr s x0 := by
  have h0 : t.regs = s.regs := h .regs (Part.apart_not_mem hd (by decide))
  clear h hd
  cases s; cases t; dsimp only at h0; subst h0; rfl

theorem State.otpRefusal_of_only {l : List Part} {s t : State} (h : Only l s t) (hd : Part.apart l [.regs, .fuse, .weak, .otp] = true) (x0 : OtpOp) (x1 : Nat) :
    State.otpRefusal t x0 x1 = State.otpRefusal s x0 x1 := by
  have h0 : t.regs = s.regs := h .regs (Part.apart_not_mem hd (by decide))
  have h1 : t.fuse = s.fuse := h .fuse (Part.apart_not_mem hd (by decide))
  have h2 : t.weak = s.weak := h .weak (Part.apart_not_mem hd (by decide))
  have h3 : t.otp = s.otp := h .otp (Part.apart_not_mem hd (by decide))
  clear h hd
  cases s; cases t; dsimp only at h0 h1 h2 h3; subst h0; subst h1; subst h2; subst h3; rfl

theorem State.outputs_of_only {l : List Part} {s t : State} (h : Only l s t) (hd : Part.apart l [.regs] = true) (x0 : Nat) (x1 : Sys2Proof.Header) (x2 : Travel) :
    State.outputs t x0 x1 x2 = State.outputs s x0 x1 x2 := by
  have h0 : t.regs = s.regs := h .regs (Part.apart_not_mem hd (by decide))
  clear h hd
  cases s; cases t; dsimp only at h0; subst h0; rfl

theorem State.outside_of_only {l : List Part} {s t : State} (h : Only l s t) (hd : Part.apart l [.regs] = true) (x0 : Nat) (x1 : Nat) :
    State.outside t x0 x1 = State.outside s x0 x1 := by
  have h0 : t.regs = s.regs := h .regs (Part.apart_not_mem hd (by decide))
  clear h hd
  cases s; cases t; dsimp only at h0; subst h0; rfl

theorem State.oversize_of_only {l : List Part} {s t : State} (h : Only l s t) (hd : Part.apart l [.tb] = true) (x0 : OpEntry) :
    State.oversize t x0 = State.oversize s x0 := by
  have h0 : t.tb = s.tb := h .tb (Part.apart_not_mem hd (by decide))
  clear h hd
  cases s; cases t; dsimp only at h0; subst h0; rfl

theorem State.ownAlerts_of_only {l : List Part} {s t : State} (h : Only l s t) (hd : Part.apart l [.regs, .prec] = true) :
    State.ownAlerts t = State.ownAlerts s := by
  have h0 : t.regs = s.regs := h .regs (Part.apart_not_mem hd (by decide))
  have h1 : t.prec = s.prec := h .prec (Part.apart_not_mem hd (by decide))
  clear h hd
  cases s; cases t; dsimp only at h0 h1; subst h0; subst h1; rfl

theorem State.ownFrame_of_only {l : List Part} {s t : State} (h : Only l s t) (hd : Part.apart l [.regs] = true) (x0 : FType) (x1 : Nat) (x2 : List Sys2Proof.Byte) :
    State.ownFrame t x0 x1 x2 = State.ownFrame s x0 x1 x2 := by
  have h0 : t.regs = s.regs := h .regs (Part.apart_not_mem hd (by decide))
  clear h hd
  cases s; cases t; dsimp only at h0; subst h0; rfl

theorem State.ownLevel_of_only {l : List Part} {s t : State} (h : Only l s t) (hd : Part.apart l [.regs] = true) :
    State.ownLevel t = State.ownLevel s := by
  have h0 : t.regs = s.regs := h .regs (Part.apart_not_mem hd (by decide))
  clear h hd
  cases s; cases t; dsimp only at h0; subst h0; rfl

theorem State.ownPrio_of_only {l : List Part} {s t : State} (h : Only l s t) (hd : Part.apart l [.regs, .prec] = true) (x0 : Nat) :
    State.ownPrio t x0 = State.ownPrio s x0 := by
  have h0 : t.regs = s.regs := h .regs (Part.apart_not_mem hd (by decide))
  have h1 : t.prec = s.prec := h .prec (Part.apart_not_mem hd (by decide))
  clear h hd
  cases s; cases t; dsimp only at h0 h1; subst h0; subst h1; rfl

theorem State.pacedMsg_of_only {l : List Part} {s t : State} (h : Only l s t) (hd : Part.apart l [.regs, .prec] = true) (x0 : Nat) (x1 : Sys2Proof.Sop) (x2 : List Sys2Proof.Byte) :
    State.pacedMsg t x0 x1 x2 = State.pacedMsg s x0 x1 x2 := by
  have h0 : t.regs = s.regs := h .regs (Part.apart_not_mem hd (by decide))
  have h1 : t.prec = s.prec := h .prec (Part.apart_not_mem hd (by decide))
  clear h hd
  cases s; cases t; dsimp only at h0 h1; subst h0; subst h1; rfl

theorem State.pacedOf_of_only {l : List Part} {s t : State} (h : Only l s t) (hd : Part.apart l [.chan] = true) (x0 : Nat) :
    State.pacedOf t x0 = State.pacedOf s x0 := by
  have h0 : t.chan = s.chan := h .chan (Part.apart_not_mem hd (by decide))
  clear h hd
  cases s; cases t; dsimp only at h0; subst h0; rfl

theorem State.panDesc_of_only {l : List Part} {s t : State} (h : Only l s t) (hd : Part.apart l [.mem] = true) (x0 : Nat) (x1 : Nat) :
    State.panDesc t x0 x1 = State.panDesc s x0 x1 := by
  have h0 : t.mem = s.mem := h .mem (Part.apart_not_mem hd (by decide))
  clear h hd
  cases s; cases t; dsimp only at h0; subst h0; rfl

theorem State.panOf_of_only {l : List Part} {s t : State} (h : Only l s t) (hd : Part.apart l [.pan] = true) (x0 : Nat) (x1 : Nat) :
    State.panOf t x0 x1 = State.panOf s x0 x1 := by
  have h0 : t.pan = s.pan := h .pan (Part.apart_not_mem hd (by decide))
  clear h hd
  cases s; cases t; dsimp only at h0; subst h0; rfl

theorem State.parentOf_of_only {l : List Part} {s t : State} (h : Only l s t) (hd : Part.apart l [.regs] = true) (x0 : Nat) :
    State.parentOf t x0 = State.parentOf s x0 := by
  have h0 : t.regs = s.regs := h .regs (Part.apart_not_mem hd (by decide))
  clear h hd
  cases s; cases t; dsimp only at h0; subst h0; rfl

theorem State.parked_of_only {l : List Part} {s t : State} (h : Only l s t) (hd : Part.apart l [.regs] = true) (x0 : Nat) (x1 : Nat) :
    State.parked t x0 x1 = State.parked s x0 x1 := by
  have h0 : t.regs = s.regs := h .regs (Part.apart_not_mem hd (by decide))
  clear h hd
  cases s; cases t; dsimp only at h0; subst h0; rfl

theorem State.passes_of_only {l : List Part} {s t : State} (h : Only l s t) (hd : Part.apart l [.regs] = true) (x0 : Sys2Proof.Xact) (x1 : Nat) (x2 : List Sys2Proof.Byte) :
    State.passes t x0 x1 x2 = State.passes s x0 x1 x2 := by
  have h0 : t.regs = s.regs := h .regs (Part.apart_not_mem hd (by decide))
  clear h hd
  cases s; cases t; dsimp only at h0; subst h0; rfl

theorem State.past_of_only {l : List Part} {s t : State} (h : Only l s t) (hd : Part.apart l [.clock] = true) (x0 : Nat) (x1 : Nat) :
    State.past t x0 x1 = State.past s x0 x1 := by
  have h0 : t.clock = s.clock := h .clock (Part.apart_not_mem hd (by decide))
  clear h hd
  cases s; cases t; dsimp only at h0; subst h0; rfl

theorem State.pendTimer_of_only {l : List Part} {s t : State} (h : Only l s t) (hd : Part.apart l [.hub, .ctx] = true) (x0 : Nat) (x1 : Bool) :
    State.pendTimer t x0 x1 = State.pendTimer s x0 x1 := by
  have h0 : t.hub = s.hub := h .hub (Part.apart_not_mem hd (by decide))
  have h1 : t.ctx = s.ctx := h .ctx (Part.apart_not_mem hd (by decide))
  clear h hd
  cases s; cases t; dsimp only at h0 h1; subst h0; subst h1; rfl

theorem State.pendingTag_of_only {l : List Part} {s t : State} (h : Only l s t) (hd : Part.apart l [.regs] = true) (x0 : Nat) :
    State.pendingTag t x0 = State.pendingTag s x0 := by
  have h0 : t.regs = s.regs := h .regs (Part.apart_not_mem hd (by decide))
  clear h hd
  cases s; cases t; dsimp only at h0; subst h0; rfl

theorem State.pevBit_of_only {l : List Part} {s t : State} (h : Only l s t) (hd : Part.apart l [.regs, .hub] = true) (x0 : Nat) :
    State.pevBit t x0 = State.pevBit s x0 := by
  have h0 : t.regs = s.regs := h .regs (Part.apart_not_mem hd (by decide))
  have h1 : t.hub = s.hub := h .hub (Part.apart_not_mem hd (by decide))
  clear h hd
  cases s; cases t; dsimp only at h0 h1; subst h0; subst h1; rfl

theorem State.pevWord_of_only {l : List Part} {s t : State} (h : Only l s t) (hd : Part.apart l [.regs, .hub] = true) (x0 : Nat) (x1 : Nat) :
    State.pevWord t x0 x1 = State.pevWord s x0 x1 := by
  have h0 : t.regs = s.regs := h .regs (Part.apart_not_mem hd (by decide))
  have h1 : t.hub = s.hub := h .hub (Part.apart_not_mem hd (by decide))
  clear h hd
  cases s; cases t; dsimp only at h0 h1; subst h0; subst h1; rfl

theorem State.pgQualifies_of_only {l : List Part} {s t : State} (h : Only l s t) (hd : Part.apart l [.dieRegs, .port, .clock] = true) (x0 : Nat) (x1 : Nat) :
    State.pgQualifies t x0 x1 = State.pgQualifies s x0 x1 := by
  have h0 : t.dieRegs = s.dieRegs := h .dieRegs (Part.apart_not_mem hd (by decide))
  have h1 : t.port = s.port := h .port (Part.apart_not_mem hd (by decide))
  have h2 : t.clock = s.clock := h .clock (Part.apart_not_mem hd (by decide))
  clear h hd
  cases s; cases t; dsimp only at h0 h1 h2; subst h0; subst h1; subst h2; rfl

theorem State.phase_of_only {l : List Part} {s t : State} (h : Only l s t) (hd : Part.apart l [.regs] = true) :
    State.phase t = State.phase s := by
  have h0 : t.regs = s.regs := h .regs (Part.apart_not_mem hd (by decide))
  clear h hd
  cases s; cases t; dsimp only at h0; subst h0; rfl

theorem State.phasesLow_of_only {l : List Part} {s t : State} (h : Only l s t) (hd : Part.apart l [.regs] = true) (x0 : Sys2Proof.WrapMeas) :
    State.phasesLow t x0 = State.phasesLow s x0 := by
  have h0 : t.regs = s.regs := h .regs (Part.apart_not_mem hd (by decide))
  clear h hd
  cases s; cases t; dsimp only at h0; subst h0; rfl

theorem State.phyOf_of_only {l : List Part} {s t : State} (h : Only l s t) (hd : Part.apart l [.phy] = true) (x0 : Nat) :
    State.phyOf t x0 = State.phyOf s x0 := by
  have h0 : t.phy = s.phy := h .phy (Part.apart_not_mem hd (by decide))
  clear h hd
  cases s; cases t; dsimp only at h0; subst h0; rfl

theorem State.pmax_of_only {l : List Part} {s t : State} (h : Only l s t) (hd : Part.apart l [.regs] = true) (x0 : Nat) :
    State.pmax t x0 = State.pmax s x0 := by
  have h0 : t.regs = s.regs := h .regs (Part.apart_not_mem hd (by decide))
  clear h hd
  cases s; cases t; dsimp only at h0; subst h0; rfl

theorem State.poisoned_of_only {l : List Part} {s t : State} (h : Only l s t) (hd : Part.apart l [.ecc] = true) (x0 : Nat) (x1 : Nat) :
    State.poisoned t x0 x1 = State.poisoned s x0 x1 := by
  have h0 : t.ecc = s.ecc := h .ecc (Part.apart_not_mem hd (by decide))
  clear h hd
  cases s; cases t; dsimp only at h0; subst h0; rfl

theorem State.portAlert_of_only {l : List Part} {s t : State} (h : Only l s t) (hd : Part.apart l [.regs, .prec] = true) (x0 : Nat) :
    State.portAlert t x0 = State.portAlert s x0 := by
  have h0 : t.regs = s.regs := h .regs (Part.apart_not_mem hd (by decide))
  have h1 : t.prec = s.prec := h .prec (Part.apart_not_mem hd (by decide))
  clear h hd
  cases s; cases t; dsimp only at h0 h1; subst h0; subst h1; rfl

theorem State.portMa_of_only {l : List Part} {s t : State} (h : Only l s t) (hd : Part.apart l [.regs] = true) (x0 : Nat) (x1 : Int) :
    State.portMa t x0 x1 = State.portMa s x0 x1 := by
  have h0 : t.regs = s.regs := h .regs (Part.apart_not_mem hd (by decide))
  clear h hd
  cases s; cases t; dsimp only at h0; subst h0; rfl

theorem State.portOf_of_only {l : List Part} {s t : State} (h : Only l s t) (hd : Part.apart l [.port] = true) (x0 : Nat) :
    State.portOf t x0 = State.portOf s x0 := by
  have h0 : t.port = s.port := h .port (Part.apart_not_mem hd (by decide))
  clear h hd
  cases s; cases t; dsimp only at h0; subst h0; rfl

theorem State.portUp_of_only {l : List Part} {s t : State} (h : Only l s t) (hd : Part.apart l [.regs, .die] = true) (x0 : Nat) :
    State.portUp t x0 = State.portUp s x0 := by
  have h0 : t.regs = s.regs := h .regs (Part.apart_not_mem hd (by decide))
  have h1 : t.die = s.die := h .die (Part.apart_not_mem hd (by decide))
  clear h hd
  cases s; cases t; dsimp only at h0 h1; subst h0; subst h1; rfl

theorem State.ppol_of_only {l : List Part} {s t : State} (h : Only l s t) (hd : Part.apart l [.regs] = true) (x0 : Nat) :
    State.ppol t x0 = State.ppol s x0 := by
  have h0 : t.regs = s.regs := h .regs (Part.apart_not_mem hd (by decide))
  clear h hd
  cases s; cases t; dsimp only at h0; subst h0; rfl

theorem State.ppolWord_of_only {l : List Part} {s t : State} (h : Only l s t) (hd : Part.apart l [.regs, .hub] = true) (x0 : Nat) (x1 : Nat) :
    State.ppolWord t x0 x1 = State.ppolWord s x0 x1 := by
  have h0 : t.regs = s.regs := h .regs (Part.apart_not_mem hd (by decide))
  have h1 : t.hub = s.hub := h .hub (Part.apart_not_mem hd (by decide))
  clear h hd
  cases s; cases t; dsimp only at h0 h1; subst h0; subst h1; rfl

theorem State.ppsNow_of_only {l : List Part} {s t : State} (h : Only l s t) (hd : Part.apart l [.regs, .fw] = true) (x0 : Nat) :
    State.ppsNow t x0 = State.ppsNow s x0 := by
  have h0 : t.regs = s.regs := h .regs (Part.apart_not_mem hd (by decide))
  have h1 : t.fw = s.fw := h .fw (Part.apart_not_mem hd (by decide))
  clear h hd
  cases s; cases t; dsimp only at h0 h1; subst h0; subst h1; rfl

theorem State.presented_of_only {l : List Part} {s t : State} (h : Only l s t) (hd : Part.apart l [.tb, .timer] = true) (x0 : Nat) (x1 : Sys2Proof.TickSrc) :
    State.presented t x0 x1 = State.presented s x0 x1 := by
  have h0 : t.tb = s.tb := h .tb (Part.apart_not_mem hd (by decide))
  have h1 : t.timer = s.timer := h .timer (Part.apart_not_mem hd (by decide))
  clear h hd
  cases s; cases t; dsimp only at h0 h1; subst h0; subst h1; rfl

theorem State.prevCeil_of_only {l : List Part} {s t : State} (h : Only l s t) (hd : Part.apart l [.regs, .ecc, .mir, .hub, .chan, .bankA, .bankB, .active] = true) (x0 : Nat) :
    State.prevCeil t x0 = State.prevCeil s x0 := by
  have h0 : t.regs = s.regs := h .regs (Part.apart_not_mem hd (by decide))
  have h1 : t.ecc = s.ecc := h .ecc (Part.apart_not_mem hd (by decide))
  have h2 : t.mir = s.mir := h .mir (Part.apart_not_mem hd (by decide))
  have h3 : t.hub = s.hub := h .hub (Part.apart_not_mem hd (by decide))
  have h4 : t.chan = s.chan := h .chan (Part.apart_not_mem hd (by decide))
  have h5 : t.bankA = s.bankA := h .bankA (Part.apart_not_mem hd (by decide))
  have h6 : t.bankB = s.bankB := h .bankB (Part.apart_not_mem hd (by decide))
  have h7 : t.active = s.active := h .active (Part.apart_not_mem hd (by decide))
  clear h hd
  cases s; cases t; dsimp only at h0 h1 h2 h3 h4 h5 h6 h7; subst h0; subst h1; subst h2; subst h3; subst h4; subst h5; subst h6; subst h7; rfl

theorem State.prevEnt_of_only {l : List Part} {s t : State} (h : Only l s t) (hd : Part.apart l [.regs, .ecc, .mir, .hub, .chan, .bankA, .bankB, .active] = true) (x0 : Nat) :
    State.prevEnt t x0 = State.prevEnt s x0 := by
  have h0 : t.regs = s.regs := h .regs (Part.apart_not_mem hd (by decide))
  have h1 : t.ecc = s.ecc := h .ecc (Part.apart_not_mem hd (by decide))
  have h2 : t.mir = s.mir := h .mir (Part.apart_not_mem hd (by decide))
  have h3 : t.hub = s.hub := h .hub (Part.apart_not_mem hd (by decide))
  have h4 : t.chan = s.chan := h .chan (Part.apart_not_mem hd (by decide))
  have h5 : t.bankA = s.bankA := h .bankA (Part.apart_not_mem hd (by decide))
  have h6 : t.bankB = s.bankB := h .bankB (Part.apart_not_mem hd (by decide))
  have h7 : t.active = s.active := h .active (Part.apart_not_mem hd (by decide))
  clear h hd
  cases s; cases t; dsimp only at h0 h1 h2 h3 h4 h5 h6 h7; subst h0; subst h1; subst h2; subst h3; subst h4; subst h5; subst h6; subst h7; rfl

theorem State.prevRow_of_only {l : List Part} {s t : State} (h : Only l s t) (hd : Part.apart l [.regs, .ecc, .bankA, .bankB, .active] = true) (x0 : Nat) :
    State.prevRow t x0 = State.prevRow s x0 := by
  have h0 : t.regs = s.regs := h .regs (Part.apart_not_mem hd (by decide))
  have h1 : t.ecc = s.ecc := h .ecc (Part.apart_not_mem hd (by decide))
  have h2 : t.bankA = s.bankA := h .bankA (Part.apart_not_mem hd (by decide))
  have h3 : t.bankB = s.bankB := h .bankB (Part.apart_not_mem hd (by decide))
  have h4 : t.active = s.active := h .active (Part.apart_not_mem hd (by decide))
  clear h hd
  cases s; cases t; dsimp only at h0 h1 h2 h3 h4; subst h0; subst h1; subst h2; subst h3; subst h4; rfl

theorem State.profWord_of_only {l : List Part} {s t : State} (h : Only l s t) (hd : Part.apart l [.regs] = true) (x0 : Nat) (x1 : Nat) :
    State.profWord t x0 x1 = State.profWord s x0 x1 := by
  have h0 : t.regs = s.regs := h .regs (Part.apart_not_mem hd (by decide))
  clear h hd
  cases s; cases t; dsimp only at h0; subst h0; rfl

theorem State.pselPort_of_only {l : List Part} {s t : State} (h : Only l s t) (hd : Part.apart l [.regs] = true) (x0 : Nat) :
    State.pselPort t x0 = State.pselPort s x0 := by
  have h0 : t.regs = s.regs := h .regs (Part.apart_not_mem hd (by decide))
  clear h hd
  cases s; cases t; dsimp only at h0; subst h0; rfl

theorem State.pushEntry_of_only {l : List Part} {s t : State} (h : Only l s t) (hd : Part.apart l [.regs, .chan, .bankA, .bankB] = true) (x0 : Nat) (x1 : OpKind) (x2 : Nat) :
    State.pushEntry t x0 x1 x2 = State.pushEntry s x0 x1 x2 := by
  have h0 : t.regs = s.regs := h .regs (Part.apart_not_mem hd (by decide))
  have h1 : t.chan = s.chan := h .chan (Part.apart_not_mem hd (by decide))
  have h2 : t.bankA = s.bankA := h .bankA (Part.apart_not_mem hd (by decide))
  have h3 : t.bankB = s.bankB := h .bankB (Part.apart_not_mem hd (by decide))
  clear h hd
  cases s; cases t; dsimp only at h0 h1 h2 h3; subst h0; subst h1; subst h2; subst h3; rfl

theorem State.pushed_of_only {l : List Part} {s t : State} (h : Only l s t) (hd : Part.apart l [.regs] = true) (x0 : Nat) :
    State.pushed t x0 = State.pushed s x0 := by
  have h0 : t.regs = s.regs := h .regs (Part.apart_not_mem hd (by decide))
  clear h hd
  cases s; cases t; dsimp only at h0; subst h0; rfl

theorem State.qstatWord_of_only {l : List Part} {s t : State} (h : Only l s t) (hd : Part.apart l [.pan, .chan] = true) (x0 : Nat) :
    State.qstatWord t x0 = State.qstatWord s x0 := by
  have h0 : t.pan = s.pan := h .pan (Part.apart_not_mem hd (by decide))
  have h1 : t.chan = s.chan := h .chan (Part.apart_not_mem hd (by decide))
  clear h hd
  cases s; cases t; dsimp only at h0 h1; subst h0; subst h1; rfl

theorem State.rakeHold_of_only {l : List Part} {s t : State} (h : Only l s t) (hd : Part.apart l [.regs, .hub, .chan] = true) (x0 : Nat) :
    State.rakeHold t x0 = State.rakeHold s x0 := by
  have h0 : t.regs = s.regs := h .regs (Part.apart_not_mem hd (by decide))
  have h1 : t.hub = s.hub := h .hub (Part.apart_not_mem hd (by decide))
  have h2 : t.chan = s.chan := h .chan (Part.apart_not_mem hd (by decide))
  clear h hd
  cases s; cases t; dsimp only at h0 h1 h2; subst h0; subst h1; subst h2; rfl

theorem State.rakePowered_of_only {l : List Part} {s t : State} (h : Only l s t) (hd : Part.apart l [.regs, .mir, .hub, .chan] = true) (x0 : Nat) :
    State.rakePowered t x0 = State.rakePowered s x0 := by
  have h0 : t.regs = s.regs := h .regs (Part.apart_not_mem hd (by decide))
  have h1 : t.mir = s.mir := h .mir (Part.apart_not_mem hd (by decide))
  have h2 : t.hub = s.hub := h .hub (Part.apart_not_mem hd (by decide))
  have h3 : t.chan = s.chan := h .chan (Part.apart_not_mem hd (by decide))
  clear h hd
  cases s; cases t; dsimp only at h0 h1 h2 h3; subst h0; subst h1; subst h2; subst h3; rfl

theorem State.rampFreq_of_only {l : List Part} {s t : State} (h : Only l s t) (hd : Part.apart l [.regs, .tb] = true) :
    State.rampFreq t = State.rampFreq s := by
  have h0 : t.regs = s.regs := h .regs (Part.apart_not_mem hd (by decide))
  have h1 : t.tb = s.tb := h .tb (Part.apart_not_mem hd (by decide))
  clear h hd
  cases s; cases t; dsimp only at h0 h1; subst h0; subst h1; rfl

theorem State.reaches_of_only {l : List Part} {s t : State} (h : Only l s t) (hd : Part.apart l [.tb] = true) (x0 : BitVec 16) :
    State.reaches t x0 = State.reaches s x0 := by
  have h0 : t.tb = s.tb := h .tb (Part.apart_not_mem hd (by decide))
  clear h hd
  cases s; cases t; dsimp only at h0; subst h0; rfl

theorem State.readBack_of_only {l : List Part} {s t : State} (h : Only l s t) (hd : Part.apart l [.upd] = true) (x0 : Option (List Sys2Proof.Byte)) :
    State.readBack t x0 = State.readBack s x0 := by
  have h0 : t.upd = s.upd := h .upd (Part.apart_not_mem hd (by decide))
  clear h hd
  cases s; cases t; dsimp only at h0; subst h0; rfl

theorem State.recBad_of_only {l : List Part} {s t : State} (h : Only l s t) (hd : Part.apart l [.ecc] = true) (x0 : Nat) :
    State.recBad t x0 = State.recBad s x0 := by
  have h0 : t.ecc = s.ecc := h .ecc (Part.apart_not_mem hd (by decide))
  clear h hd
  cases s; cases t; dsimp only at h0; subst h0; rfl

theorem State.recOf_of_only {l : List Part} {s t : State} (h : Only l s t) (hd : Part.apart l [.prec] = true) (x0 : Nat) (x1 : Nat) :
    State.recOf t x0 x1 = State.recOf s x0 x1 := by
  have h0 : t.prec = s.prec := h .prec (Part.apart_not_mem hd (by decide))
  clear h hd
  cases s; cases t; dsimp only at h0; subst h0; rfl

theorem State.refHours_of_only {l : List Part} {s t : State} (h : Only l s t) (hd : Part.apart l [.regs] = true) :
    State.refHours t = State.refHours s := by
  have h0 : t.regs = s.regs := h .regs (Part.apart_not_mem hd (by decide))
  clear h hd
  cases s; cases t; dsimp only at h0; subst h0; rfl

theorem State.refIsMzx_of_only {l : List Part} {s t : State} (h : Only l s t) (hd : Part.apart l [.regs] = true) :
    State.refIsMzx t = State.refIsMzx s := by
  have h0 : t.regs = s.regs := h .regs (Part.apart_not_mem hd (by decide))
  clear h hd
  cases s; cases t; dsimp only at h0; subst h0; rfl

theorem State.refreshDue_of_only {l : List Part} {s t : State} (h : Only l s t) (hd : Part.apart l [.regs, .boot] = true) :
    State.refreshDue t = State.refreshDue s := by
  have h0 : t.regs = s.regs := h .regs (Part.apart_not_mem hd (by decide))
  have h1 : t.boot = s.boot := h .boot (Part.apart_not_mem hd (by decide))
  clear h hd
  cases s; cases t; dsimp only at h0 h1; subst h0; subst h1; rfl

theorem State.refreshesA_of_only {l : List Part} {s t : State} (h : Only l s t) (hd : Part.apart l [.regs] = true) :
    State.refreshesA t = State.refreshesA s := by
  have h0 : t.regs = s.regs := h .regs (Part.apart_not_mem hd (by decide))
  clear h hd
  cases s; cases t; dsimp only at h0; subst h0; rfl

theorem State.reg_of_only {l : List Part} {s t : State} (h : Only l s t) (hd : Part.apart l [.regs] = true) (x0 : Nat) :
    State.reg t x0 = State.reg s x0 := by
  have h0 : t.regs = s.regs := h .regs (Part.apart_not_mem hd (by decide))
  clear h hd
  cases s; cases t; dsimp only at h0; subst h0; rfl

theorem State.regPlaces_of_only {l : List Part} {s t : State} (h : Only l s t) (hd : Part.apart l [.regs, .active] = true) (x0 : Nat) :
    State.regPlaces t x0 = State.regPlaces s x0 := by
  have h0 : t.regs = s.regs := h .regs (Part.apart_not_mem hd (by decide))
  have h1 : t.active = s.active := h .active (Part.apart_not_mem hd (by decide))
  clear h hd
  cases s; cases t; dsimp only at h0 h1; subst h0; subst h1; rfl

theorem State.regionLocked_of_only {l : List Part} {s t : State} (h : Only l s t) (hd : Part.apart l [.regs, .otp] = true) (x0 : Nat) :
    State.regionLocked t x0 = State.regionLocked s x0 := by
  have h0 : t.regs = s.regs := h .regs (Part.apart_not_mem hd (by decide))
  have h1 : t.otp = s.otp := h .otp (Part.apart_not_mem hd (by decide))
  clear h hd
  cases s; cases t; dsimp only at h0 h1; subst h0; subst h1; rfl

theorem State.rejectWaits_of_only {l : List Part} {s t : State} (h : Only l s t) (hd : Part.apart l [.pending] = true) :
    State.rejectWaits t = State.rejectWaits s := by
  have h0 : t.pending = s.pending := h .pending (Part.apart_not_mem hd (by decide))
  clear h hd
  cases s; cases t; dsimp only at h0; subst h0; rfl

theorem State.relAngle_of_only {l : List Part} {s t : State} (h : Only l s t) (hd : Part.apart l [.regs] = true) (x0 : Nat) (x1 : Nat) :
    State.relAngle t x0 x1 = State.relAngle s x0 x1 := by
  have h0 : t.regs = s.regs := h .regs (Part.apart_not_mem hd (by decide))
  clear h hd
  cases s; cases t; dsimp only at h0; subst h0; rfl

theorem State.released_of_only {l : List Part} {s t : State} (h : Only l s t) (hd : Part.apart l [.regs] = true) :
    State.released t = State.released s := by
  have h0 : t.regs = s.regs := h .regs (Part.apart_not_mem hd (by decide))
  clear h hd
  cases s; cases t; dsimp only at h0; subst h0; rfl

theorem State.reportOf_of_only {l : List Part} {s t : State} (h : Only l s t) (hd : Part.apart l [.regs, .upd] = true) (x0 : Nat) :
    State.reportOf t x0 = State.reportOf s x0 := by
  have h0 : t.regs = s.regs := h .regs (Part.apart_not_mem hd (by decide))
  have h1 : t.upd = s.upd := h .upd (Part.apart_not_mem hd (by decide))
  clear h hd
  cases s; cases t; dsimp only at h0 h1; subst h0; subst h1; rfl

theorem State.rereadDue_of_only {l : List Part} {s t : State} (h : Only l s t) (hd : Part.apart l [.regs, .tb, .otp] = true) :
    State.rereadDue t = State.rereadDue s := by
  have h0 : t.regs = s.regs := h .regs (Part.apart_not_mem hd (by decide))
  have h1 : t.tb = s.tb := h .tb (Part.apart_not_mem hd (by decide))
  have h2 : t.otp = s.otp := h .otp (Part.apart_not_mem hd (by decide))
  clear h hd
  cases s; cases t; dsimp only at h0 h1 h2; subst h0; subst h1; subst h2; rfl

theorem State.respBad_of_only {l : List Part} {s t : State} (h : Only l s t) (hd : Part.apart l [.ecc] = true) (x0 : Nat) (x1 : Nat) (x2 : Nat) :
    State.respBad t x0 x1 x2 = State.respBad s x0 x1 x2 := by
  have h0 : t.ecc = s.ecc := h .ecc (Part.apart_not_mem hd (by decide))
  clear h hd
  cases s; cases t; dsimp only at h0; subst h0; rfl

theorem State.response_of_only {l : List Part} {s t : State} (h : Only l s t) (hd : Part.apart l [.regs, .twm] = true) :
    State.response t = State.response s := by
  have h0 : t.regs = s.regs := h .regs (Part.apart_not_mem hd (by decide))
  have h1 : t.twm = s.twm := h .twm (Part.apart_not_mem hd (by decide))
  clear h hd
  cases s; cases t; dsimp only at h0 h1; subst h0; subst h1; rfl

theorem State.restState_of_only {l : List Part} {s t : State} (h : Only l s t) (hd : Part.apart l [.regs, .prec, .mir, .fw] = true) (x0 : Nat) :
    State.restState t x0 = State.restState s x0 := by
  have h0 : t.regs = s.regs := h .regs (Part.apart_not_mem hd (by decide))
  have h1 : t.prec = s.prec := h .prec (Part.apart_not_mem hd (by decide))
  have h2 : t.mir = s.mir := h .mir (Part.apart_not_mem hd (by decide))
  have h3 : t.fw = s.fw := h .fw (Part.apart_not_mem hd (by decide))
  clear h hd
  cases s; cases t; dsimp only at h0 h1 h2 h3; subst h0; subst h1; subst h2; subst h3; rfl

theorem State.retryInt_of_only {l : List Part} {s t : State} (h : Only l s t) (hd : Part.apart l [.dieRegs] = true) (x0 : Nat) (x1 : Nat) :
    State.retryInt t x0 x1 = State.retryInt s x0 x1 := by
  have h0 : t.dieRegs = s.dieRegs := h .dieRegs (Part.apart_not_mem hd (by decide))
  clear h hd
  cases s; cases t; dsimp only at h0; subst h0; rfl

theorem State.returnSeen_of_only {l : List Part} {s t : State} (h : Only l s t) (hd : Part.apart l [.regs, .clk, .clock] = true) (x0 : Sys2Proof.ClockId) :
    State.returnSeen t x0 = State.returnSeen s x0 := by
  have h0 : t.regs = s.regs := h .regs (Part.apart_not_mem hd (by decide))
  have h1 : t.clk = s.clk := h .clk (Part.apart_not_mem hd (by decide))
  have h2 : t.clock = s.clock := h .clock (Part.apart_not_mem hd (by decide))
  clear h hd
  cases s; cases t; dsimp only at h0 h1 h2; subst h0; subst h1; subst h2; rfl

theorem State.riseWaits_of_only {l : List Part} {s t : State} (h : Only l s t) (hd : Part.apart l [.dieRegs, .port, .fresh, .clock, .pending] = true) (x0 : Nat) :
    State.riseWaits t x0 = State.riseWaits s x0 := by
  have h0 : t.dieRegs = s.dieRegs := h .dieRegs (Part.apart_not_mem hd (by decide))
  have h1 : t.port = s.port := h .port (Part.apart_not_mem hd (by decide))
  have h2 : t.fresh = s.fresh := h .fresh (Part.apart_not_mem hd (by decide))
  have h3 : t.clock = s.clock := h .clock (Part.apart_not_mem hd (by decide))
  have h4 : t.pending = s.pending := h .pending (Part.apart_not_mem hd (by decide))
  clear h hd
  cases s; cases t; dsimp only at h0 h1 h2 h3 h4; subst h0; subst h1; subst h2; subst h3; subst h4; rfl

theorem State.rises_of_only {l : List Part} {s t : State} (h : Only l s t) (hd : Part.apart l [.dieRegs, .port, .fresh, .clock, .pending] = true) (x0 : Nat) (x1 : Nat) :
    State.rises t x0 x1 = State.rises s x0 x1 := by
  have h0 : t.dieRegs = s.dieRegs := h .dieRegs (Part.apart_not_mem hd (by decide))
  have h1 : t.port = s.port := h .port (Part.apart_not_mem hd (by decide))
  have h2 : t.fresh = s.fresh := h .fresh (Part.apart_not_mem hd (by decide))
  have h3 : t.clock = s.clock := h .clock (Part.apart_not_mem hd (by decide))
  have h4 : t.pending = s.pending := h .pending (Part.apart_not_mem hd (by decide))
  clear h hd
  cases s; cases t; dsimp only at h0 h1 h2 h3 h4; subst h0; subst h1; subst h2; subst h3; subst h4; rfl

theorem State.roundDue_of_only {l : List Part} {s t : State} (h : Only l s t) (hd : Part.apart l [.tb] = true) :
    State.roundDue t = State.roundDue s := by
  have h0 : t.tb = s.tb := h .tb (Part.apart_not_mem hd (by decide))
  clear h hd
  cases s; cases t; dsimp only at h0; subst h0; rfl

theorem State.roundLate_of_only {l : List Part} {s t : State} (h : Only l s t) (hd : Part.apart l [.tb] = true) :
    State.roundLate t = State.roundLate s := by
  have h0 : t.tb = s.tb := h .tb (Part.apart_not_mem hd (by decide))
  clear h hd
  cases s; cases t; dsimp only at h0; subst h0; rfl

theorem State.roundPoint_of_only {l : List Part} {s t : State} (h : Only l s t) (hd : Part.apart l [.tb] = true) :
    State.roundPoint t = State.roundPoint s := by
  have h0 : t.tb = s.tb := h .tb (Part.apart_not_mem hd (by decide))
  clear h hd
  cases s; cases t; dsimp only at h0; subst h0; rfl

theorem State.rqPending_of_only {l : List Part} {s t : State} (h : Only l s t) (hd : Part.apart l [.regs] = true) :
    State.rqPending t = State.rqPending s := by
  have h0 : t.regs = s.regs := h .regs (Part.apart_not_mem hd (by decide))
  clear h hd
  cases s; cases t; dsimp only at h0; subst h0; rfl

theorem State.rsns_of_only {l : List Part} {s t : State} (h : Only l s t) (hd : Part.apart l [.dieRegs] = true) (x0 : Nat) :
    State.rsns t x0 = State.rsns s x0 := by
  have h0 : t.dieRegs = s.dieRegs := h .dieRegs (Part.apart_not_mem hd (by decide))
  clear h hd
  cases s; cases t; dsimp only at h0; subst h0; rfl

theorem State.running_of_only {l : List Part} {s t : State} (h : Only l s t) (hd : Part.apart l [.regs] = true) (x0 : Nat) :
    State.running t x0 = State.running s x0 := by
  have h0 : t.regs = s.regs := h .regs (Part.apart_not_mem hd (by decide))
  clear h hd
  cases s; cases t; dsimp only at h0; subst h0; rfl

theorem State.sameContract_of_only {l : List Part} {s t : State} (h : Only l s t) (hd : Part.apart l [.regs, .prec, .mir, .fw] = true) (x0 : Nat) (x1 : Nat) (x2 : Nat) (x3 : Nat) :
    State.sameContract t x0 x1 x2 x3 = State.sameContract s x0 x1 x2 x3 := by
  have h0 : t.regs = s.regs := h .regs (Part.apart_not_mem hd (by decide))
  have h1 : t.prec = s.prec := h .prec (Part.apart_not_mem hd (by decide))
  have h2 : t.mir = s.mir := h .mir (Part.apart_not_mem hd (by decide))
  have h3 : t.fw = s.fw := h .fw (Part.apart_not_mem hd (by decide))
  clear h hd
  cases s; cases t; dsimp only at h0 h1 h2 h3; subst h0; subst h1; subst h2; subst h3; rfl

theorem State.scanDue_of_only {l : List Part} {s t : State} (h : Only l s t) (hd : Part.apart l [.crs] = true) (x0 : Nat) :
    State.scanDue t x0 = State.scanDue s x0 := by
  have h0 : t.crs = s.crs := h .crs (Part.apart_not_mem hd (by decide))
  clear h hd
  cases s; cases t; dsimp only at h0; subst h0; rfl

theorem State.scanOf_of_only {l : List Part} {s t : State} (h : Only l s t) (hd : Part.apart l [.scan] = true) (x0 : Nat) :
    State.scanOf t x0 = State.scanOf s x0 := by
  have h0 : t.scan = s.scan := h .scan (Part.apart_not_mem hd (by decide))
  clear h hd
  cases s; cases t; dsimp only at h0; subst h0; rfl

theorem State.scrubRuns_of_only {l : List Part} {s t : State} (h : Only l s t) (hd : Part.apart l [.regs, .chan, .clk] = true) (x0 : Nat) :
    State.scrubRuns t x0 = State.scrubRuns s x0 := by
  have h0 : t.regs = s.regs := h .regs (Part.apart_not_mem hd (by decide))
  have h1 : t.chan = s.chan := h .chan (Part.apart_not_mem hd (by decide))
  have h2 : t.clk = s.clk := h .clk (Part.apart_not_mem hd (by decide))
  clear h hd
  cases s; cases t; dsimp only at h0 h1 h2; subst h0; subst h1; subst h2; rfl

theorem State.selects_of_only {l : List Part} {s t : State} (h : Only l s t) (hd : Part.apart l [.regs] = true) (x0 : Nat) (x1 : Nat) (x2 : Nat) :
    State.selects t x0 x1 x2 = State.selects s x0 x1 x2 := by
  have h0 : t.regs = s.regs := h .regs (Part.apart_not_mem hd (by decide))
  clear h hd
  cases s; cases t; dsimp only at h0; subst h0; rfl

theorem State.sendBusy_of_only {l : List Part} {s t : State} (h : Only l s t) (hd : Part.apart l [.lnk] = true) :
    State.sendBusy t = State.sendBusy s := by
  have h0 : t.lnk = s.lnk := h .lnk (Part.apart_not_mem hd (by decide))
  clear h hd
  cases s; cases t; dsimp only at h0; subst h0; rfl

theorem State.sentBlock_of_only {l : List Part} {s t : State} (h : Only l s t) (hd : Part.apart l [.block] = true) :
    State.sentBlock t = State.sentBlock s := by
  have h0 : t.block = s.block := h .block (Part.apart_not_mem hd (by decide))
  clear h hd
  cases s; cases t; dsimp only at h0; subst h0; rfl

theorem State.sentWord_of_only {l : List Part} {s t : State} (h : Only l s t) (hd : Part.apart l [.bus] = true) :
    State.sentWord t = State.sentWord s := by
  have h0 : t.bus = s.bus := h .bus (Part.apart_not_mem hd (by decide))
  clear h hd
  cases s; cases t; dsimp only at h0; subst h0; rfl

theorem State.serialHi_of_only {l : List Part} {s t : State} (h : Only l s t) (hd : Part.apart l [.regs, .otp] = true) :
    State.serialHi t = State.serialHi s := by
  have h0 : t.regs = s.regs := h .regs (Part.apart_not_mem hd (by decide))
  have h1 : t.otp = s.otp := h .otp (Part.apart_not_mem hd (by decide))
  clear h hd
  cases s; cases t; dsimp only at h0 h1; subst h0; subst h1; rfl

theorem State.session_of_only {l : List Part} {s t : State} (h : Only l s t) (hd : Part.apart l [.regs] = true) :
    State.session t = State.session s := by
  have h0 : t.regs = s.regs := h .regs (Part.apart_not_mem hd (by decide))
  clear h hd
  cases s; cases t; dsimp only at h0; subst h0; rfl

theorem State.settingDefault_of_only {l : List Part} {s t : State} (h : Only l s t) (hd : Part.apart l [.boot] = true) (x0 : Nat) :
    State.settingDefault t x0 = State.settingDefault s x0 := by
  have h0 : t.boot = s.boot := h .boot (Part.apart_not_mem hd (by decide))
  clear h hd
  cases s; cases t; dsimp only at h0; subst h0; rfl

theorem State.shedHoldDue_of_only {l : List Part} {s t : State} (h : Only l s t) (hd : Part.apart l [.regs, .tb, .hub] = true) (x0 : Nat) :
    State.shedHoldDue t x0 = State.shedHoldDue s x0 := by
  have h0 : t.regs = s.regs := h .regs (Part.apart_not_mem hd (by decide))
  have h1 : t.tb = s.tb := h .tb (Part.apart_not_mem hd (by decide))
  have h2 : t.hub = s.hub := h .hub (Part.apart_not_mem hd (by decide))
  clear h hd
  cases s; cases t; dsimp only at h0 h1 h2; subst h0; subst h1; subst h2; rfl

theorem State.shedLevel_of_only {l : List Part} {s t : State} (h : Only l s t) (hd : Part.apart l [.regs] = true) :
    State.shedLevel t = State.shedLevel s := by
  have h0 : t.regs = s.regs := h .regs (Part.apart_not_mem hd (by decide))
  clear h hd
  cases s; cases t; dsimp only at h0; subst h0; rfl

theorem State.shipRefusal_of_only {l : List Part} {s t : State} (h : Only l s t) (hd : Part.apart l [.regs, .bankA, .bankB, .active] = true) :
    State.shipRefusal t = State.shipRefusal s := by
  have h0 : t.regs = s.regs := h .regs (Part.apart_not_mem hd (by decide))
  have h1 : t.bankA = s.bankA := h .bankA (Part.apart_not_mem hd (by decide))
  have h2 : t.bankB = s.bankB := h .bankB (Part.apart_not_mem hd (by decide))
  have h3 : t.active = s.active := h .active (Part.apart_not_mem hd (by decide))
  clear h hd
  cases s; cases t; dsimp only at h0 h1 h2 h3; subst h0; subst h1; subst h2; subst h3; rfl

theorem State.sideFrame_of_only {l : List Part} {s t : State} (h : Only l s t) (hd : Part.apart l [.regs, .port] = true) (x0 : Nat) :
    State.sideFrame t x0 = State.sideFrame s x0 := by
  have h0 : t.regs = s.regs := h .regs (Part.apart_not_mem hd (by decide))
  have h1 : t.port = s.port := h .port (Part.apart_not_mem hd (by decide))
  clear h hd
  cases s; cases t; dsimp only at h0 h1; subst h0; subst h1; rfl

theorem State.sideline_of_only {l : List Part} {s t : State} (h : Only l s t) (hd : Part.apart l [.regs, .port] = true) (x0 : Nat) :
    State.sideline t x0 = State.sideline s x0 := by
  have h0 : t.regs = s.regs := h .regs (Part.apart_not_mem hd (by decide))
  have h1 : t.port = s.port := h .port (Part.apart_not_mem hd (by decide))
  clear h hd
  cases s; cases t; dsimp only at h0 h1; subst h0; subst h1; rfl

theorem State.since_of_only {l : List Part} {s t : State} (h : Only l s t) (hd : Part.apart l [.tb] = true) (x0 : BitVec 64) :
    State.since t x0 = State.since s x0 := by
  have h0 : t.tb = s.tb := h .tb (Part.apart_not_mem hd (by decide))
  clear h hd
  cases s; cases t; dsimp only at h0; subst h0; rfl

theorem State.sinkCond_of_only {l : List Part} {s t : State} (h : Only l s t) (hd : Part.apart l [.regs, .dieRegs, .phy] = true) (x0 : Nat) (x1 : Nat) (x2 : Nat) :
    State.sinkCond t x0 x1 x2 = State.sinkCond s x0 x1 x2 := by
  have h0 : t.regs = s.regs := h .regs (Part.apart_not_mem hd (by decide))
  have h1 : t.dieRegs = s.dieRegs := h .dieRegs (Part.apart_not_mem hd (by decide))
  have h2 : t.phy = s.phy := h .phy (Part.apart_not_mem hd (by decide))
  clear h hd
  cases s; cases t; dsimp only at h0 h1 h2; subst h0; subst h1; subst h2; rfl

theorem State.sld_of_only {l : List Part} {s t : State} (h : Only l s t) (hd : Part.apart l [.regs, .port] = true) (x0 : Nat) (x1 : Nat) :
    State.sld t x0 x1 = State.sld s x0 x1 := by
  have h0 : t.regs = s.regs := h .regs (Part.apart_not_mem hd (by decide))
  have h1 : t.port = s.port := h .port (Part.apart_not_mem hd (by decide))
  clear h hd
  cases s; cases t; dsimp only at h0 h1; subst h0; subst h1; rfl

theorem State.slotDue_of_only {l : List Part} {s t : State} (h : Only l s t) (hd : Part.apart l [.tb] = true) (x0 : Nat) :
    State.slotDue t x0 = State.slotDue s x0 := by
  have h0 : t.tb = s.tb := h .tb (Part.apart_not_mem hd (by decide))
  clear h hd
  cases s; cases t; dsimp only at h0; subst h0; rfl

theorem State.slotFree_of_only {l : List Part} {s t : State} (h : Only l s t) (hd : Part.apart l [.adc, .clock] = true) (x0 : Nat) :
    State.slotFree t x0 = State.slotFree s x0 := by
  have h0 : t.adc = s.adc := h .adc (Part.apart_not_mem hd (by decide))
  have h1 : t.clock = s.clock := h .clock (Part.apart_not_mem hd (by decide))
  clear h hd
  cases s; cases t; dsimp only at h0 h1; subst h0; subst h1; rfl

theorem State.slotNext_of_only {l : List Part} {s t : State} (h : Only l s t) (hd : Part.apart l [.adc] = true) (x0 : Nat) (x1 : Nat) :
    State.slotNext t x0 x1 = State.slotNext s x0 x1 := by
  have h0 : t.adc = s.adc := h .adc (Part.apart_not_mem hd (by decide))
  clear h hd
  cases s; cases t; dsimp only at h0; subst h0; rfl

theorem State.slowStore_of_only {l : List Part} {s t : State} (h : Only l s t) (hd : Part.apart l [.crs] = true) (x0 : Nat) :
    State.slowStore t x0 = State.slowStore s x0 := by
  have h0 : t.crs = s.crs := h .crs (Part.apart_not_mem hd (by decide))
  clear h hd
  cases s; cases t; dsimp only at h0; subst h0; rfl

theorem State.soppOn_of_only {l : List Part} {s t : State} (h : Only l s t) (hd : Part.apart l [.regs, .port] = true) (x0 : Nat) :
    State.soppOn t x0 = State.soppOn s x0 := by
  have h0 : t.regs = s.regs := h .regs (Part.apart_not_mem hd (by decide))
  have h1 : t.port = s.port := h .port (Part.apart_not_mem hd (by decide))
  clear h hd
  cases s; cases t; dsimp only at h0 h1; subst h0; subst h1; rfl

theorem State.spans_of_only {l : List Part} {s t : State} (h : Only l s t) (hd : Part.apart l [.dieRegs] = true) (x0 : Nat) (x1 : Nat) (x2 : Nat) (x3 : Nat) :
    State.spans t x0 x1 x2 x3 = State.spans s x0 x1 x2 x3 := by
  have h0 : t.dieRegs = s.dieRegs := h .dieRegs (Part.apart_not_mem hd (by decide))
  clear h hd
  cases s; cases t; dsimp only at h0; subst h0; rfl

theorem State.spareOk_of_only {l : List Part} {s t : State} (h : Only l s t) (hd : Part.apart l [.dieRegs] = true) (x0 : Nat) :
    State.spareOk t x0 = State.spareOk s x0 := by
  have h0 : t.dieRegs = s.dieRegs := h .dieRegs (Part.apart_not_mem hd (by decide))
  clear h hd
  cases s; cases t; dsimp only at h0; subst h0; rfl

theorem State.spareUse_of_only {l : List Part} {s t : State} (h : Only l s t) (hd : Part.apart l [.dieRegs] = true) (x0 : Nat) :
    State.spareUse t x0 = State.spareUse s x0 := by
  have h0 : t.dieRegs = s.dieRegs := h .dieRegs (Part.apart_not_mem hd (by decide))
  clear h hd
  cases s; cases t; dsimp only at h0; subst h0; rfl

theorem State.special_of_only {l : List Part} {s t : State} (h : Only l s t) (hd : Part.apart l [.regs, .hub, .chan, .crs, .mbx] = true) (x0 : Nat) (x1 : Nat) :
    State.special t x0 x1 = State.special s x0 x1 := by
  have h0 : t.regs = s.regs := h .regs (Part.apart_not_mem hd (by decide))
  have h1 : t.hub = s.hub := h .hub (Part.apart_not_mem hd (by decide))
  have h2 : t.chan = s.chan := h .chan (Part.apart_not_mem hd (by decide))
  have h3 : t.crs = s.crs := h .crs (Part.apart_not_mem hd (by decide))
  have h4 : t.mbx = s.mbx := h .mbx (Part.apart_not_mem hd (by decide))
  clear h hd
  cases s; cases t; dsimp only at h0 h1 h2 h3 h4; subst h0; subst h1; subst h2; subst h3; subst h4; rfl

theorem State.spotPlaces_of_only {l : List Part} {s t : State} (h : Only l s t) (hd : Part.apart l [.regs, .chan, .active] = true) (x0 : Nat) (x1 : Spot) :
    State.spotPlaces t x0 x1 = State.spotPlaces s x0 x1 := by
  have h0 : t.regs = s.regs := h .regs (Part.apart_not_mem hd (by decide))
  have h1 : t.chan = s.chan := h .chan (Part.apart_not_mem hd (by decide))
  have h2 : t.active = s.active := h .active (Part.apart_not_mem hd (by decide))
  clear h hd
  cases s; cases t; dsimp only at h0 h1 h2; subst h0; subst h1; subst h2; rfl

theorem State.srcAddr_of_only {l : List Part} {s t : State} (h : Only l s t) (hd : Part.apart l [.regs] = true) :
    State.srcAddr t = State.srcAddr s := by
  have h0 : t.regs = s.regs := h .regs (Part.apart_not_mem hd (by decide))
  clear h hd
  cases s; cases t; dsimp only at h0; subst h0; rfl

theorem State.stage2Due_of_only {l : List Part} {s t : State} (h : Only l s t) (hd : Part.apart l [.regs, .chan, .crs, .clock, .pending] = true) (x0 : Fin 4) :
    State.stage2Due t x0 = State.stage2Due s x0 := by
  have h0 : t.regs = s.regs := h .regs (Part.apart_not_mem hd (by decide))
  have h1 : t.chan = s.chan := h .chan (Part.apart_not_mem hd (by decide))
  have h2 : t.crs = s.crs := h .crs (Part.apart_not_mem hd (by decide))
  have h3 : t.clock = s.clock := h .clock (Part.apart_not_mem hd (by decide))
  have h4 : t.pending = s.pending := h .pending (Part.apart_not_mem hd (by decide))
  clear h hd
  cases s; cases t; dsimp only at h0 h1 h2 h3 h4; subst h0; subst h1; subst h2; subst h3; subst h4; rfl

theorem State.stagedImage_of_only {l : List Part} {s t : State} (h : Only l s t) (hd : Part.apart l [.upd] = true) :
    State.stagedImage t = State.stagedImage s := by
  have h0 : t.upd = s.upd := h .upd (Part.apart_not_mem hd (by decide))
  clear h hd
  cases s; cases t; dsimp only at h0; subst h0; rfl

theorem State.stallDue_of_only {l : List Part} {s t : State} (h : Only l s t) (hd : Part.apart l [.regs, .chan, .crs, .clk] = true) (x0 : Nat) :
    State.stallDue t x0 = State.stallDue s x0 := by
  have h0 : t.regs = s.regs := h .regs (Part.apart_not_mem hd (by decide))
  have h1 : t.chan = s.chan := h .chan (Part.apart_not_mem hd (by decide))
  have h2 : t.crs = s.crs := h .crs (Part.apart_not_mem hd (by decide))
  have h3 : t.clk = s.clk := h .clk (Part.apart_not_mem hd (by decide))
  clear h hd
  cases s; cases t; dsimp only at h0 h1 h2 h3; subst h0; subst h1; subst h2; subst h3; rfl

theorem State.startCur_of_only {l : List Part} {s t : State} (h : Only l s t) (hd : Part.apart l [.regs] = true) (x0 : Nat) :
    State.startCur t x0 = State.startCur s x0 := by
  have h0 : t.regs = s.regs := h .regs (Part.apart_not_mem hd (by decide))
  clear h hd
  cases s; cases t; dsimp only at h0; subst h0; rfl

theorem State.startPhase_of_only {l : List Part} {s t : State} (h : Only l s t) (hd : Part.apart l [.regs] = true) (x0 : Nat) :
    State.startPhase t x0 = State.startPhase s x0 := by
  have h0 : t.regs = s.regs := h .regs (Part.apart_not_mem hd (by decide))
  clear h hd
  cases s; cases t; dsimp only at h0; subst h0; rfl

theorem State.startSlot_of_only {l : List Part} {s t : State} (h : Only l s t) (hd : Part.apart l [.regs] = true) (x0 : Nat) :
    State.startSlot t x0 = State.startSlot s x0 := by
  have h0 : t.regs = s.regs := h .regs (Part.apart_not_mem hd (by decide))
  clear h hd
  cases s; cases t; dsimp only at h0; subst h0; rfl

theorem State.stateWord_of_only {l : List Part} {s t : State} (h : Only l s t) (hd : Part.apart l [.regs, .mir, .die] = true) (x0 : Nat) :
    State.stateWord t x0 = State.stateWord s x0 := by
  have h0 : t.regs = s.regs := h .regs (Part.apart_not_mem hd (by decide))
  have h1 : t.mir = s.mir := h .mir (Part.apart_not_mem hd (by decide))
  have h2 : t.die = s.die := h .die (Part.apart_not_mem hd (by decide))
  clear h hd
  cases s; cases t; dsimp only at h0 h1 h2; subst h0; subst h1; subst h2; rfl

theorem State.stepEnds_of_only {l : List Part} {s t : State} (h : Only l s t) (hd : Part.apart l [.regs, .dieRegs, .port, .fdrMon, .clock] = true) (x0 : Nat) (x1 : Nat) :
    State.stepEnds t x0 x1 = State.stepEnds s x0 x1 := by
  have h0 : t.regs = s.regs := h .regs (Part.apart_not_mem hd (by decide))
  have h1 : t.dieRegs = s.dieRegs := h .dieRegs (Part.apart_not_mem hd (by decide))
  have h2 : t.port = s.port := h .port (Part.apart_not_mem hd (by decide))
  have h3 : t.fdrMon = s.fdrMon := h .fdrMon (Part.apart_not_mem hd (by decide))
  have h4 : t.clock = s.clock := h .clock (Part.apart_not_mem hd (by decide))
  clear h hd
  cases s; cases t; dsimp only at h0 h1 h2 h3 h4; subst h0; subst h1; subst h2; subst h3; subst h4; rfl

theorem State.storedWord_of_only {l : List Part} {s t : State} (h : Only l s t) (hd : Part.apart l [.mem, .ecc] = true) (x0 : Nat) (x1 : Nat) :
    State.storedWord t x0 x1 = State.storedWord s x0 x1 := by
  have h0 : t.mem = s.mem := h .mem (Part.apart_not_mem hd (by decide))
  have h1 : t.ecc = s.ecc := h .ecc (Part.apart_not_mem hd (by decide))
  clear h hd
  cases s; cases t; dsimp only at h0 h1; subst h0; subst h1; rfl

theorem State.svid_of_only {l : List Part} {s t : State} (h : Only l s t) (hd : Part.apart l [.regs] = true) (x0 : Nat) :
    State.svid t x0 = State.svid s x0 := by
  have h0 : t.regs = s.regs := h .regs (Part.apart_not_mem hd (by decide))
  clear h hd
  cases s; cases t; dsimp only at h0; subst h0; rfl

theorem State.switched_of_only {l : List Part} {s t : State} (h : Only l s t) (hd : Part.apart l [.regs] = true) (x0 : Nat) :
    State.switched t x0 = State.switched s x0 := by
  have h0 : t.regs = s.regs := h .regs (Part.apart_not_mem hd (by decide))
  clear h hd
  cases s; cases t; dsimp only at h0; subst h0; rfl

theorem State.tFt_of_only {l : List Part} {s t : State} (h : Only l s t) (hd : Part.apart l [.dieRegs] = true) (x0 : Nat) :
    State.tFt t x0 = State.tFt s x0 := by
  have h0 : t.dieRegs = s.dieRegs := h .dieRegs (Part.apart_not_mem hd (by decide))
  clear h hd
  cases s; cases t; dsimp only at h0; subst h0; rfl

theorem State.tInr_of_only {l : List Part} {s t : State} (h : Only l s t) (hd : Part.apart l [.dieRegs] = true) (x0 : Nat) :
    State.tInr t x0 = State.tInr s x0 := by
  have h0 : t.dieRegs = s.dieRegs := h .dieRegs (Part.apart_not_mem hd (by decide))
  clear h hd
  cases s; cases t; dsimp only at h0; subst h0; rfl

theorem State.takes_of_only {l : List Part} {s t : State} (h : Only l s t) (hd : Part.apart l [.regs] = true) (x0 : Sys2Proof.Header) (x1 : Nat) (x2 : Travel) :
    State.takes t x0 x1 x2 = State.takes s x0 x1 x2 := by
  have h0 : t.regs = s.regs := h .regs (Part.apart_not_mem hd (by decide))
  clear h hd
  cases s; cases t; dsimp only at h0; subst h0; rfl

theorem State.takesTick_of_only {l : List Part} {s t : State} (h : Only l s t) (hd : Part.apart l [.regs, .timer, .portEv, .mir, .die] = true) (x0 : Nat) (x1 : Sys2Proof.TickSrc) :
    State.takesTick t x0 x1 = State.takesTick s x0 x1 := by
  have h0 : t.regs = s.regs := h .regs (Part.apart_not_mem hd (by decide))
  have h1 : t.timer = s.timer := h .timer (Part.apart_not_mem hd (by decide))
  have h2 : t.portEv = s.portEv := h .portEv (Part.apart_not_mem hd (by decide))
  have h3 : t.mir = s.mir := h .mir (Part.apart_not_mem hd (by decide))
  have h4 : t.die = s.die := h .die (Part.apart_not_mem hd (by decide))
  clear h hd
  cases s; cases t; dsimp only at h0 h1 h2 h3 h4; subst h0; subst h1; subst h2; subst h3; subst h4; rfl

theorem State.takesUpd_of_only {l : List Part} {s t : State} (h : Only l s t) (hd : Part.apart l [.regs, .upd] = true) (x0 : Nat) :
    State.takesUpd t x0 = State.takesUpd s x0 := by
  have h0 : t.regs = s.regs := h .regs (Part.apart_not_mem hd (by decide))
  have h1 : t.upd = s.upd := h .upd (Part.apart_not_mem hd (by decide))
  clear h hd
  cases s; cases t; dsimp only at h0 h1; subst h0; subst h1; rfl

theorem State.targetWord_of_only {l : List Part} {s t : State} (h : Only l s t) (hd : Part.apart l [.mir] = true) (x0 : Nat) :
    State.targetWord t x0 = State.targetWord s x0 := by
  have h0 : t.mir = s.mir := h .mir (Part.apart_not_mem hd (by decide))
  clear h hd
  cases s; cases t; dsimp only at h0; subst h0; rfl

theorem State.tclk_of_only {l : List Part} {s t : State} (h : Only l s t) (hd : Part.apart l [.regs, .clk] = true) :
    State.tclk t = State.tclk s := by
  have h0 : t.regs = s.regs := h .regs (Part.apart_not_mem hd (by decide))
  have h1 : t.clk = s.clk := h .clk (Part.apart_not_mem hd (by decide))
  clear h hd
  cases s; cases t; dsimp only at h0 h1; subst h0; subst h1; rfl

theorem State.testable_of_only {l : List Part} {s t : State} (h : Only l s t) (hd : Part.apart l [.regs, .dieRegs, .port] = true) (x0 : Nat) (x1 : Nat) :
    State.testable t x0 x1 = State.testable s x0 x1 := by
  have h0 : t.regs = s.regs := h .regs (Part.apart_not_mem hd (by decide))
  have h1 : t.dieRegs = s.dieRegs := h .dieRegs (Part.apart_not_mem hd (by decide))
  have h2 : t.port = s.port := h .port (Part.apart_not_mem hd (by decide))
  clear h hd
  cases s; cases t; dsimp only at h0 h1 h2; subst h0; subst h1; subst h2; rfl

theorem State.tickDue_of_only {l : List Part} {s t : State} (h : Only l s t) (hd : Part.apart l [.tb] = true) (x0 : Nat) :
    State.tickDue t x0 = State.tickDue s x0 := by
  have h0 : t.tb = s.tb := h .tb (Part.apart_not_mem hd (by decide))
  clear h hd
  cases s; cases t; dsimp only at h0; subst h0; rfl

theorem State.timerOf_of_only {l : List Part} {s t : State} (h : Only l s t) (hd : Part.apart l [.timer] = true) (x0 : Nat) :
    State.timerOf t x0 = State.timerOf s x0 := by
  have h0 : t.timer = s.timer := h .timer (Part.apart_not_mem hd (by decide))
  clear h hd
  cases s; cases t; dsimp only at h0; subst h0; rfl

theorem State.timerWord_of_only {l : List Part} {s t : State} (h : Only l s t) (hd : Part.apart l [.clock] = true) (x0 : CtxTimer) :
    State.timerWord t x0 = State.timerWord s x0 := by
  have h0 : t.clock = s.clock := h .clock (Part.apart_not_mem hd (by decide))
  clear h hd
  cases s; cases t; dsimp only at h0; subst h0; rfl

theorem State.timersWord_of_only {l : List Part} {s t : State} (h : Only l s t) (hd : Part.apart l [.regs, .mir, .die, .clock] = true) (x0 : Nat) :
    State.timersWord t x0 = State.timersWord s x0 := by
  have h0 : t.regs = s.regs := h .regs (Part.apart_not_mem hd (by decide))
  have h1 : t.mir = s.mir := h .mir (Part.apart_not_mem hd (by decide))
  have h2 : t.die = s.die := h .die (Part.apart_not_mem hd (by decide))
  have h3 : t.clock = s.clock := h .clock (Part.apart_not_mem hd (by decide))
  clear h hd
  cases s; cases t; dsimp only at h0 h1 h2 h3; subst h0; subst h1; subst h2; subst h3; rfl

theorem State.trained_of_only {l : List Part} {s t : State} (h : Only l s t) (hd : Part.apart l [.clock] = true) (x0 : Option Nat) :
    State.trained t x0 = State.trained s x0 := by
  have h0 : t.clock = s.clock := h .clock (Part.apart_not_mem hd (by decide))
  clear h hd
  cases s; cases t; dsimp only at h0; subst h0; rfl

theorem State.tranStep_of_only {l : List Part} {s t : State} (h : Only l s t) (hd : Part.apart l [.fw] = true) (x0 : Nat) (x1 : CqEntry) :
    State.tranStep t x0 x1 = State.tranStep s x0 x1 := by
  have h0 : t.fw = s.fw := h .fw (Part.apart_not_mem hd (by decide))
  clear h hd
  cases s; cases t; dsimp only at h0; subst h0; rfl

theorem State.transferOp_of_only {l : List Part} {s t : State} (h : Only l s t) (hd : Part.apart l [.regs, .mir, .hub, .chan, .bankA, .bankB] = true) (x0 : Nat) (x1 : Nat) (x2 : Leg) :
    State.transferOp t x0 x1 x2 = State.transferOp s x0 x1 x2 := by
  have h0 : t.regs = s.regs := h .regs (Part.apart_not_mem hd (by decide))
  have h1 : t.mir = s.mir := h .mir (Part.apart_not_mem hd (by decide))
  have h2 : t.hub = s.hub := h .hub (Part.apart_not_mem hd (by decide))
  have h3 : t.chan = s.chan := h .chan (Part.apart_not_mem hd (by decide))
  have h4 : t.bankA = s.bankA := h .bankA (Part.apart_not_mem hd (by decide))
  have h5 : t.bankB = s.bankB := h .bankB (Part.apart_not_mem hd (by decide))
  clear h hd
  cases s; cases t; dsimp only at h0 h1 h2 h3 h4 h5; subst h0; subst h1; subst h2; subst h3; subst h4; subst h5; rfl

theorem State.trigComes_of_only {l : List Part} {s t : State} (h : Only l s t) (hd : Part.apart l [.tb, .adc] = true) (x0 : Nat) (x1 : Sys2Proof.TrigSrc) :
    State.trigComes t x0 x1 = State.trigComes s x0 x1 := by
  have h0 : t.tb = s.tb := h .tb (Part.apart_not_mem hd (by decide))
  have h1 : t.adc = s.adc := h .adc (Part.apart_not_mem hd (by decide))
  clear h hd
  cases s; cases t; dsimp only at h0 h1; subst h0; subst h1; rfl

theorem State.trigIs_of_only {l : List Part} {s t : State} (h : Only l s t) (hd : Part.apart l [.dieRegs] = true) (x0 : Nat) (x1 : Sys2Proof.TrigSrc) :
    State.trigIs t x0 x1 = State.trigIs s x0 x1 := by
  have h0 : t.dieRegs = s.dieRegs := h .dieRegs (Part.apart_not_mem hd (by decide))
  clear h hd
  cases s; cases t; dsimp only at h0; subst h0; rfl

theorem State.trigOn_of_only {l : List Part} {s t : State} (h : Only l s t) (hd : Part.apart l [.dieRegs] = true) (x0 : Nat) (x1 : Nat) (x2 : Nat) :
    State.trigOn t x0 x1 x2 = State.trigOn s x0 x1 x2 := by
  have h0 : t.dieRegs = s.dieRegs := h .dieRegs (Part.apart_not_mem hd (by decide))
  clear h hd
  cases s; cases t; dsimp only at h0; subst h0; rfl

theorem State.tripWaits_of_only {l : List Part} {s t : State} (h : Only l s t) (hd : Part.apart l [.dieRegs, .port, .fresh, .clock, .pending] = true) (x0 : Nat) :
    State.tripWaits t x0 = State.tripWaits s x0 := by
  have h0 : t.dieRegs = s.dieRegs := h .dieRegs (Part.apart_not_mem hd (by decide))
  have h1 : t.port = s.port := h .port (Part.apart_not_mem hd (by decide))
  have h2 : t.fresh = s.fresh := h .fresh (Part.apart_not_mem hd (by decide))
  have h3 : t.clock = s.clock := h .clock (Part.apart_not_mem hd (by decide))
  have h4 : t.pending = s.pending := h .pending (Part.apart_not_mem hd (by decide))
  clear h hd
  cases s; cases t; dsimp only at h0 h1 h2 h3 h4; subst h0; subst h1; subst h2; subst h3; subst h4; rfl

theorem State.twmStat_of_only {l : List Part} {s t : State} (h : Only l s t) (hd : Part.apart l [.regs, .prec] = true) :
    State.twmStat t = State.twmStat s := by
  have h0 : t.regs = s.regs := h .regs (Part.apart_not_mem hd (by decide))
  have h1 : t.prec = s.prec := h .prec (Part.apart_not_mem hd (by decide))
  clear h hd
  cases s; cases t; dsimp only at h0 h1; subst h0; subst h1; rfl

theorem State.txBad_of_only {l : List Part} {s t : State} (h : Only l s t) (hd : Part.apart l [.regs, .port, .mir, .phy] = true) (x0 : Nat) (x1 : Nat) (x2 : List Nat) (x3 : List Sys2Proof.Byte) :
    State.txBad t x0 x1 x2 x3 = State.txBad s x0 x1 x2 x3 := by
  have h0 : t.regs = s.regs := h .regs (Part.apart_not_mem hd (by decide))
  have h1 : t.port = s.port := h .port (Part.apart_not_mem hd (by decide))
  have h2 : t.mir = s.mir := h .mir (Part.apart_not_mem hd (by decide))
  have h3 : t.phy = s.phy := h .phy (Part.apart_not_mem hd (by decide))
  clear h hd
  cases s; cases t; dsimp only at h0 h1 h2 h3; subst h0; subst h1; subst h2; subst h3; rfl

theorem State.txPans_of_only {l : List Part} {s t : State} (h : Only l s t) (hd : Part.apart l [.pan] = true) (x0 : Nat) (x1 : Nat) :
    State.txPans t x0 x1 = State.txPans s x0 x1 := by
  have h0 : t.pan = s.pan := h .pan (Part.apart_not_mem hd (by decide))
  clear h hd
  cases s; cases t; dsimp only at h0; subst h0; rfl

theorem State.unblanked_of_only {l : List Part} {s t : State} (h : Only l s t) (hd : Part.apart l [.tb] = true) (x0 : Nat) (x1 : BitVec 16) :
    State.unblanked t x0 x1 = State.unblanked s x0 x1 := by
  have h0 : t.tb = s.tb := h .tb (Part.apart_not_mem hd (by decide))
  clear h hd
  cases s; cases t; dsimp only at h0; subst h0; rfl

theorem State.unitUp_of_only {l : List Part} {s t : State} (h : Only l s t) (hd : Part.apart l [.regs, .die, .clk] = true) (x0 : Nat) :
    State.unitUp t x0 = State.unitUp s x0 := by
  have h0 : t.regs = s.regs := h .regs (Part.apart_not_mem hd (by decide))
  have h1 : t.die = s.die := h .die (Part.apart_not_mem hd (by decide))
  have h2 : t.clk = s.clk := h .clk (Part.apart_not_mem hd (by decide))
  clear h hd
  cases s; cases t; dsimp only at h0 h1 h2; subst h0; subst h1; subst h2; rfl

theorem State.updBuf_of_only {l : List Part} {s t : State} (h : Only l s t) (hd : Part.apart l [.regs] = true) :
    State.updBuf t = State.updBuf s := by
  have h0 : t.regs = s.regs := h .regs (Part.apart_not_mem hd (by decide))
  clear h hd
  cases s; cases t; dsimp only at h0; subst h0; rfl

theorem State.updState_of_only {l : List Part} {s t : State} (h : Only l s t) (hd : Part.apart l [.regs] = true) :
    State.updState t = State.updState s := by
  have h0 : t.regs = s.regs := h .regs (Part.apart_not_mem hd (by decide))
  clear h hd
  cases s; cases t; dsimp only at h0; subst h0; rfl

theorem State.updateBusy_of_only {l : List Part} {s t : State} (h : Only l s t) (hd : Part.apart l [.regs] = true) :
    State.updateBusy t = State.updateBusy s := by
  have h0 : t.regs = s.regs := h .regs (Part.apart_not_mem hd (by decide))
  clear h hd
  cases s; cases t; dsimp only at h0; subst h0; rfl

theorem State.usable_of_only {l : List Part} {s t : State} (h : Only l s t) (hd : Part.apart l [.regs] = true) (x0 : Nat) (x1 : Health) (x2 : Nat) (x3 : Nat) :
    State.usable t x0 x1 x2 x3 = State.usable s x0 x1 x2 x3 := by
  have h0 : t.regs = s.regs := h .regs (Part.apart_not_mem hd (by decide))
  clear h hd
  cases s; cases t; dsimp only at h0; subst h0; rfl

theorem State.vconnLoad_of_only {l : List Part} {s t : State} (h : Only l s t) (hd : Part.apart l [.regs, .mir, .hub, .chan] = true) (x0 : Nat) :
    State.vconnLoad t x0 = State.vconnLoad s x0 := by
  have h0 : t.regs = s.regs := h .regs (Part.apart_not_mem hd (by decide))
  have h1 : t.mir = s.mir := h .mir (Part.apart_not_mem hd (by decide))
  have h2 : t.hub = s.hub := h .hub (Part.apart_not_mem hd (by decide))
  have h3 : t.chan = s.chan := h .chan (Part.apart_not_mem hd (by decide))
  clear h hd
  cases s; cases t; dsimp only at h0 h1 h2 h3; subst h0; subst h1; subst h2; subst h3; rfl

theorem State.vddpOver_of_only {l : List Part} {s t : State} (h : Only l s t) (hd : Part.apart l [.die, .clock] = true) (x0 : Nat) :
    State.vddpOver t x0 = State.vddpOver s x0 := by
  have h0 : t.die = s.die := h .die (Part.apart_not_mem hd (by decide))
  have h1 : t.clock = s.clock := h .clock (Part.apart_not_mem hd (by decide))
  clear h hd
  cases s; cases t; dsimp only at h0 h1; subst h0; subst h1; rfl

theorem State.vidPid_of_only {l : List Part} {s t : State} (h : Only l s t) (hd : Part.apart l [.regs] = true) :
    State.vidPid t = State.vidPid s := by
  have h0 : t.regs = s.regs := h .regs (Part.apart_not_mem hd (by decide))
  clear h hd
  cases s; cases t; dsimp only at h0; subst h0; rfl

theorem State.waitCount_of_only {l : List Part} {s t : State} (h : Only l s t) (hd : Part.apart l [.regs] = true) (x0 : Nat) :
    State.waitCount t x0 = State.waitCount s x0 := by
  have h0 : t.regs = s.regs := h .regs (Part.apart_not_mem hd (by decide))
  clear h hd
  cases s; cases t; dsimp only at h0; subst h0; rfl

theorem State.waitOver_of_only {l : List Part} {s t : State} (h : Only l s t) (hd : Part.apart l [.fw, .clock] = true) (x0 : Nat) :
    State.waitOver t x0 = State.waitOver s x0 := by
  have h0 : t.fw = s.fw := h .fw (Part.apart_not_mem hd (by decide))
  have h1 : t.clock = s.clock := h .clock (Part.apart_not_mem hd (by decide))
  clear h hd
  cases s; cases t; dsimp only at h0 h1; subst h0; subst h1; rfl

theorem State.waiters_of_only {l : List Part} {s t : State} (h : Only l s t) (hd : Part.apart l [.regs, .hub] = true) (x0 : Nat) :
    State.waiters t x0 = State.waiters s x0 := by
  have h0 : t.regs = s.regs := h .regs (Part.apart_not_mem hd (by decide))
  have h1 : t.hub = s.hub := h .hub (Part.apart_not_mem hd (by decide))
  clear h hd
  cases s; cases t; dsimp only at h0 h1; subst h0; subst h1; rfl

theorem State.waiting_of_only {l : List Part} {s t : State} (h : Only l s t) (hd : Part.apart l [.regs] = true) (x0 : Nat) :
    State.waiting t x0 = State.waiting s x0 := by
  have h0 : t.regs = s.regs := h .regs (Part.apart_not_mem hd (by decide))
  clear h hd
  cases s; cases t; dsimp only at h0; subst h0; rfl

theorem State.wakeSource_of_only {l : List Part} {s t : State} (h : Only l s t) (hd : Part.apart l [.regs, .prec, .tb, .log, .boot, .otp, .clock, .pending] = true) (x0 : Fin 6) :
    State.wakeSource t x0 = State.wakeSource s x0 := by
  have h0 : t.regs = s.regs := h .regs (Part.apart_not_mem hd (by decide))
  have h1 : t.prec = s.prec := h .prec (Part.apart_not_mem hd (by decide))
  have h2 : t.tb = s.tb := h .tb (Part.apart_not_mem hd (by decide))
  have h3 : t.log = s.log := h .log (Part.apart_not_mem hd (by decide))
  have h4 : t.boot = s.boot := h .boot (Part.apart_not_mem hd (by decide))
  have h5 : t.otp = s.otp := h .otp (Part.apart_not_mem hd (by decide))
  have h6 : t.clock = s.clock := h .clock (Part.apart_not_mem hd (by decide))
  have h7 : t.pending = s.pending := h .pending (Part.apart_not_mem hd (by decide))
  clear h hd
  cases s; cases t; dsimp only at h0 h1 h2 h3 h4 h5 h6 h7; subst h0; subst h1; subst h2; subst h3; subst h4; subst h5; subst h6; subst h7; rfl

theorem State.wdDue_of_only {l : List Part} {s t : State} (h : Only l s t) (hd : Part.apart l [.regs, .chan, .crs, .clock] = true) (x0 : Nat) :
    State.wdDue t x0 = State.wdDue s x0 := by
  have h0 : t.regs = s.regs := h .regs (Part.apart_not_mem hd (by decide))
  have h1 : t.chan = s.chan := h .chan (Part.apart_not_mem hd (by decide))
  have h2 : t.crs = s.crs := h .crs (Part.apart_not_mem hd (by decide))
  have h3 : t.clock = s.clock := h .clock (Part.apart_not_mem hd (by decide))
  clear h hd
  cases s; cases t; dsimp only at h0 h1 h2 h3; subst h0; subst h1; subst h2; subst h3; rfl

theorem State.wdLeft_of_only {l : List Part} {s t : State} (h : Only l s t) (hd : Part.apart l [.regs, .crs, .clock] = true) (x0 : Nat) :
    State.wdLeft t x0 = State.wdLeft s x0 := by
  have h0 : t.regs = s.regs := h .regs (Part.apart_not_mem hd (by decide))
  have h1 : t.crs = s.crs := h .crs (Part.apart_not_mem hd (by decide))
  have h2 : t.clock = s.clock := h .clock (Part.apart_not_mem hd (by decide))
  clear h hd
  cases s; cases t; dsimp only at h0 h1 h2; subst h0; subst h1; subst h2; rfl

theorem State.wdNow_of_only {l : List Part} {s t : State} (h : Only l s t) (hd : Part.apart l [.crs, .clock] = true) (x0 : Nat) :
    State.wdNow t x0 = State.wdNow s x0 := by
  have h0 : t.crs = s.crs := h .crs (Part.apart_not_mem hd (by decide))
  have h1 : t.clock = s.clock := h .clock (Part.apart_not_mem hd (by decide))
  clear h hd
  cases s; cases t; dsimp only at h0 h1; subst h0; subst h1; rfl

theorem State.wide_of_only {l : List Part} {s t : State} (h : Only l s t) (hd : Part.apart l [.regs] = true) (x0 : Nat → Nat) (x1 : Nat) :
    State.wide t x0 x1 = State.wide s x0 x1 := by
  have h0 : t.regs = s.regs := h .regs (Part.apart_not_mem hd (by decide))
  clear h hd
  cases s; cases t; dsimp only at h0; subst h0; rfl

theorem State.winHi_of_only {l : List Part} {s t : State} (h : Only l s t) (hd : Part.apart l [.dieRegs] = true) (x0 : Nat) (x1 : Nat) :
    State.winHi t x0 x1 = State.winHi s x0 x1 := by
  have h0 : t.dieRegs = s.dieRegs := h .dieRegs (Part.apart_not_mem hd (by decide))
  clear h hd
  cases s; cases t; dsimp only at h0; subst h0; rfl

theorem State.windowLeft_of_only {l : List Part} {s t : State} (h : Only l s t) (hd : Part.apart l [.regs, .tb, .upd] = true) :
    State.windowLeft t = State.windowLeft s := by
  have h0 : t.regs = s.regs := h .regs (Part.apart_not_mem hd (by decide))
  have h1 : t.tb = s.tb := h .tb (Part.apart_not_mem hd (by decide))
  have h2 : t.upd = s.upd := h .upd (Part.apart_not_mem hd (by decide))
  clear h hd
  cases s; cases t; dsimp only at h0 h1 h2; subst h0; subst h1; subst h2; rfl

theorem State.windowOver_of_only {l : List Part} {s t : State} (h : Only l s t) (hd : Part.apart l [.regs, .tb, .upd] = true) :
    State.windowOver t = State.windowOver s := by
  have h0 : t.regs = s.regs := h .regs (Part.apart_not_mem hd (by decide))
  have h1 : t.tb = s.tb := h .tb (Part.apart_not_mem hd (by decide))
  have h2 : t.upd = s.upd := h .upd (Part.apart_not_mem hd (by decide))
  clear h hd
  cases s; cases t; dsimp only at h0 h1 h2; subst h0; subst h1; subst h2; rfl

theorem State.wordErr_of_only {l : List Part} {s t : State} (h : Only l s t) (hd : Part.apart l [.ecc] = true) (x0 : Nat) (x1 : Nat) :
    State.wordErr t x0 x1 = State.wordErr s x0 x1 := by
  have h0 : t.ecc = s.ecc := h .ecc (Part.apart_not_mem hd (by decide))
  clear h hd
  cases s; cases t; dsimp only at h0; subst h0; rfl

theorem State.wordPermitted_of_only {l : List Part} {s t : State} (h : Only l s t) (hd : Part.apart l [.regs] = true) (x0 : Nat) :
    State.wordPermitted t x0 = State.wordPermitted s x0 := by
  have h0 : t.regs = s.regs := h .regs (Part.apart_not_mem hd (by decide))
  clear h hd
  cases s; cases t; dsimp only at h0; subst h0; rfl

theorem State.workDue_of_only {l : List Part} {s t : State} (h : Only l s t) (hd : Part.apart l [.regs, .tb, .boot, .otp, .clock] = true) :
    State.workDue t = State.workDue s := by
  have h0 : t.regs = s.regs := h .regs (Part.apart_not_mem hd (by decide))
  have h1 : t.tb = s.tb := h .tb (Part.apart_not_mem hd (by decide))
  have h2 : t.boot = s.boot := h .boot (Part.apart_not_mem hd (by decide))
  have h3 : t.otp = s.otp := h .otp (Part.apart_not_mem hd (by decide))
  have h4 : t.clock = s.clock := h .clock (Part.apart_not_mem hd (by decide))
  clear h hd
  cases s; cases t; dsimp only at h0 h1 h2 h3 h4; subst h0; subst h1; subst h2; subst h3; subst h4; rfl

theorem State.wrapDue_of_only {l : List Part} {s t : State} (h : Only l s t) (hd : Part.apart l [.tb] = true) :
    State.wrapDue t = State.wrapDue s := by
  have h0 : t.tb = s.tb := h .tb (Part.apart_not_mem hd (by decide))
  clear h hd
  cases s; cases t; dsimp only at h0; subst h0; rfl

theorem State.writePec_of_only {l : List Part} {s t : State} (h : Only l s t) (hd : Part.apart l [.regs] = true) (x0 : Nat) (x1 : List Sys2Proof.Byte) :
    State.writePec t x0 x1 = State.writePec s x0 x1 := by
  have h0 : t.regs = s.regs := h .regs (Part.apart_not_mem hd (by decide))
  clear h hd
  cases s; cases t; dsimp only at h0; subst h0; rfl

theorem State.writebackDue_of_only {l : List Part} {s t : State} (h : Only l s t) (hd : Part.apart l [.regs, .boot, .clock] = true) :
    State.writebackDue t = State.writebackDue s := by
  have h0 : t.regs = s.regs := h .regs (Part.apart_not_mem hd (by decide))
  have h1 : t.boot = s.boot := h .boot (Part.apart_not_mem hd (by decide))
  have h2 : t.clock = s.clock := h .clock (Part.apart_not_mem hd (by decide))
  clear h hd
  cases s; cases t; dsimp only at h0 h1 h2; subst h0; subst h1; subst h2; rfl

theorem State.xActive_of_only {l : List Part} {s t : State} (h : Only l s t) (hd : Part.apart l [.tb] = true) :
    State.xActive t = State.xActive s := by
  have h0 : t.tb = s.tb := h .tb (Part.apart_not_mem hd (by decide))
  clear h hd
  cases s; cases t; dsimp only at h0; subst h0; rfl

theorem State.xferBusy_of_only {l : List Part} {s t : State} (h : Only l s t) (hd : Part.apart l [.opq] = true) (x0 : Nat) (x1 : Nat) :
    State.xferBusy t x0 x1 = State.xferBusy s x0 x1 := by
  have h0 : t.opq = s.opq := h .opq (Part.apart_not_mem hd (by decide))
  clear h hd
  cases s; cases t; dsimp only at h0; subst h0; rfl

theorem State.xferDue_of_only {l : List Part} {s t : State} (h : Only l s t) (hd : Part.apart l [.mir, .hub, .opq, .chan, .bankA, .bankB] = true) (x0 : Nat) (x1 : Nat) :
    State.xferDue t x0 x1 = State.xferDue s x0 x1 := by
  have h0 : t.mir = s.mir := h .mir (Part.apart_not_mem hd (by decide))
  have h1 : t.hub = s.hub := h .hub (Part.apart_not_mem hd (by decide))
  have h2 : t.opq = s.opq := h .opq (Part.apart_not_mem hd (by decide))
  have h3 : t.chan = s.chan := h .chan (Part.apart_not_mem hd (by decide))
  have h4 : t.bankA = s.bankA := h .bankA (Part.apart_not_mem hd (by decide))
  have h5 : t.bankB = s.bankB := h .bankB (Part.apart_not_mem hd (by decide))
  clear h hd
  cases s; cases t; dsimp only at h0 h1 h2 h3 h4 h5; subst h0; subst h1; subst h2; subst h3; subst h4; subst h5; rfl

theorem State.xferMarks_of_only {l : List Part} {s t : State} (h : Only l s t) (hd : Part.apart l [.hub] = true) (x0 : Nat) :
    State.xferMarks t x0 = State.xferMarks s x0 := by
  have h0 : t.hub = s.hub := h .hub (Part.apart_not_mem hd (by decide))
  clear h hd
  cases s; cases t; dsimp only at h0; subst h0; rfl

end Machine
end Sys2Proof
end

