-- ==== Sys2Proof/Laws/Ops.lean ====
section
/-! SUPPORT. What the shared operations do to the registers: which registers an event, a log record or a port event may
write, and that an event leaves its bit set. -/
namespace Sys2Proof.Machine

/-- A one-bit field within a register. -/
abbrev Fld.isBit (f : Fld) : Prop := f.w = 1 ∧ f.lo < 32

theorem reg_congr {s t : State} (h : t.regs = s.regs) (a : Nat) : t.reg a = s.reg a := by
  unfold State.reg
  rw [h]

theorem flag_congr {s t : State} {a : Nat} (h : t.reg a = s.reg a) (f : Fld) : t.flag a f = s.flag a f := by
  unfold State.flag State.fld
  rw [h]

theorem fld_congr {s t : State} {a : Nat} (h : t.reg a = s.reg a) (f : Fld) : t.fld a f = s.fld a f := by
  unfold State.fld
  rw [h]

theorem reg_setFlag_ne (a b : Nat) (f : Fld) (v : Bool) (s : State) (h : b ≠ a) : (setFlag a f v s).reg b = s.reg b :=
  reg_setFld_ne a b f _ s h

theorem flag_setFld_one (a : Nat) (f : Fld) (s : State) (h : f.isBit) : (setFld a f 1 s).flag a f = true := by
  unfold State.flag
  rw [fld_setFld _ _ _ _ (by have := h; unfold Fld.fits; omega), h.1]
  rfl

/-! ### Events -/

/-- An event writes its register and `TWM_STAT` alone. -/
theorem reg_raiseEn (evt : Nat) (f : Fld) (en : Nat) (enf : Fld) (s : State) (a : Nat) (h : a ≠ evt)
    (h' : a ≠ R.TWM_STAT) : (raiseEn evt f en enf s).reg a = s.reg a := by
  unfold raiseEn
  dsimp only
  split
  · rfl
  · split
    · rw [reg_setFld_ne _ _ _ _ _ h', reg_setFld_ne _ _ _ _ _ h]
    · rw [reg_setFld_ne _ _ _ _ _ h]

theorem reg_raise (evt en : Nat) (f : Fld) (s : State) (a : Nat) (h : a ≠ evt) (h' : a ≠ R.TWM_STAT) :
    (raise evt en f s).reg a = s.reg a := reg_raiseEn evt f en f s a h h'

/-- An event leaves its bit set. -/
theorem flag_raiseEn (evt : Nat) (f : Fld) (en : Nat) (enf : Fld) (s : State) (hf : f.isBit) (h : evt ≠ R.TWM_STAT) :
    (raiseEn evt f en enf s).flag evt f = true := by
  unfold raiseEn
  dsimp only
  split
  · assumption
  · split
    · rw [flag_congr (reg_setFld_ne _ _ _ _ _ h), flag_setFld_one _ _ _ hf]
    · rw [flag_setFld_one _ _ _ hf]

theorem flag_raise (evt en : Nat) (f : Fld) (s : State) (hf : f.isBit) (h : evt ≠ R.TWM_STAT) :
    (raise evt en f s).flag evt f = true := flag_raiseEn evt f en f s hf h

/-- A bit that is set stays set through any event. -/
theorem flag_raiseEn_keep (evt : Nat) (f : Fld) (en : Nat) (enf : Fld) (s : State) (b : Nat) (g : Fld)
    (h : b ≠ R.TWM_STAT) (hg : f.apart g ∨ b ≠ evt) : (raiseEn evt f en enf s).flag b g = s.flag b g := by
  by_cases hb : b = evt
  · have ha : f.apart g := hg.resolve_right fun hn => hn hb
    subst hb
    unfold raiseEn
    dsimp only
    split
    · rfl
    · have h1 : (setFld b f 1 s).flag b g = s.flag b g := by
        unfold State.flag
        rw [fld_setFld_apart _ _ _ _ _ ha]
      split
      · rw [flag_congr (reg_setFld_ne _ _ _ _ _ h), h1]
      · exact h1
  · exact flag_congr (reg_raiseEn evt f en enf s b hb h) g

theorem reg_raiseAng (f : Fld) (s : State) (a : Nat) (h : a ≠ R.ANG_EVT) (h' : a ≠ R.TWM_STAT) :
    (raiseAng f s).reg a = s.reg a := reg_raise _ _ f s a h h'

theorem reg_raiseSum (f : Fld) (s : State) (a : Nat) (h : a ≠ R.FLT_SUM) (h' : a ≠ R.TWM_STAT) :
    (raiseSum f s).reg a = s.reg a := reg_raise _ _ f s a h h'

theorem flag_raiseSum (f : Fld) (s : State) (hf : f.isBit) : (raiseSum f s).flag R.FLT_SUM f = true :=
  flag_raise _ _ f s hf (by decide)

theorem reg_raisePrt (evt en p : Nat) (f : Fld) (s : State) (a : Nat) (h : a ≠ evt) (h' : a ≠ R.TWM_STAT) :
    (raisePrt evt en p f s).reg a = s.reg a := by
  unfold raisePrt
  split
  · split
    · rfl
    · exact reg_setFld_ne _ _ _ _ _ h
  · exact reg_raise _ _ _ _ _ h h'

theorem flag_raisePrt (evt en p : Nat) (f : Fld) (s : State) (hf : f.isBit) (h : evt ≠ R.TWM_STAT) :
    (raisePrt evt en p f s).flag evt f = true := by
  unfold raisePrt
  split
  · split
    · assumption
    · exact flag_setFld_one _ _ _ hf
  · exact flag_raise _ _ _ _ hf h

theorem reg_raisePd (p : Nat) (f : Fld) (s : State) (a : Nat) (h : a ≠ R.PRT_PDEVT p) (h' : a ≠ R.TWM_STAT) :
    (raisePd p f s).reg a = s.reg a := reg_raisePrt _ _ p f s a h h'

theorem flag_raisePd (p : Nat) (f : Fld) (s : State) (hf : f.isBit) : (raisePd p f s).flag (R.PRT_PDEVT p) f = true :=
  flag_raisePrt _ _ p f s hf (by unfold R.PRT_PDEVT R.TWM_STAT; omega)

/-! ### The log -/

theorem reg_dropRec (pl : Plane) (s : State) (a : Nat) (h : a ≠ R.FLT_SUM) (h' : a ≠ R.TWM_STAT) :
    (dropRec pl s).reg a = s.reg a := (reg_raiseSum _ _ _ h h').trans (reg_congr rfl a)

theorem reg_stageRec (r : LogRec) (s : State) (a : Nat) (h : a ≠ R.FLT_SUM) (h' : a ≠ R.TWM_STAT) :
    (stageRec r s).reg a = s.reg a := by
  unfold stageRec
  split
  · exact reg_dropRec _ _ _ h h'
  · exact reg_congr rfl a

theorem reg_postRec (r : LogRec) (s : State) (a : Nat) (h : a ≠ R.FLT_SUM) (h' : a ≠ R.TWM_STAT) :
    (postRec r s).reg a = s.reg a := by
  unfold postRec
  dsimp only
  split
  · split
    · exact reg_congr rfl a
    · exact reg_dropRec _ _ _ h h'
  · exact reg_stageRec _ _ _ h h'

/-- A record leaves every register but the fault summary and `TWM_STAT`. -/
theorem reg_post (pl : Plane) (cls src : Nat) (d0 : Word) (d1 : Nat) (s : State) (a : Nat) (h : a ≠ R.FLT_SUM)
    (h' : a ≠ R.TWM_STAT) : (post pl cls src d0 d1 s).reg a = s.reg a := reg_postRec _ s a h h'

theorem flag_dropRec_keep (pl : Plane) (s : State) (b : Nat) (g : Fld) (h : b ≠ R.TWM_STAT)
    (hg : F.FLT_SUM_LOGLOST.apart g ∨ b ≠ R.FLT_SUM) : (dropRec pl s).flag b g = s.flag b g :=
  (flag_raiseEn_keep _ _ _ _ _ b g h hg).trans (flag_congr (reg_congr rfl b) g)

/-- A record leaves every bit but `LOGLOST` and those of `TWM_STAT`. -/
theorem flag_post_keep (pl : Plane) (cls src : Nat) (d0 : Word) (d1 : Nat) (s : State) (b : Nat) (g : Fld)
    (h : b ≠ R.TWM_STAT) (hg : F.FLT_SUM_LOGLOST.apart g ∨ b ≠ R.FLT_SUM) :
    (post pl cls src d0 d1 s).flag b g = s.flag b g := by
  unfold post postRec stageRec
  dsimp only
  split
  · split
    · exact flag_congr (reg_congr rfl b) g
    · exact flag_dropRec_keep _ _ _ _ h hg
  · split
    · exact flag_dropRec_keep _ _ _ _ h hg
    · exact flag_congr (reg_congr rfl b) g

/-! ### Timebase and port events -/

theorem reg_angEvt (f : Fld) (s : State) (a : Nat) (h : a ≠ R.FLT_SUM) (h' : a ≠ R.TWM_STAT) (he : a ≠ R.ANG_EVT) :
    (angEvt f s).reg a = s.reg a := (reg_post _ _ _ _ _ _ _ h h').trans (reg_raiseAng _ _ _ he h')

theorem flag_angEvt (f : Fld) (s : State) (hf : f.isBit) : (angEvt f s).flag R.ANG_EVT f = true :=
  (flag_congr (reg_post _ _ _ _ _ _ _ (by decide) (by decide)) f).trans (flag_raise _ _ f s hf (by decide))

theorem flag_angEvt_keep (f g : Fld) (s : State) (ha : f.apart g) : (angEvt f s).flag R.ANG_EVT g = s.flag R.ANG_EVT g :=
  (flag_congr (reg_post _ _ _ _ _ _ _ (by decide) (by decide)) g).trans
    (flag_raiseEn_keep _ _ _ _ _ _ g (by decide) (.inl ha))

theorem reg_portEvt (p : Nat) (f : Fld) (s : State) (a : Nat) (h : a ≠ R.PRT_EVT p) (h' : a ≠ R.TWM_STAT) :
    (portEvt p f s).reg a = s.reg a := by
  unfold portEvt
  split
  · exact reg_raisePrt _ _ _ _ _ _ h h'
  · exact State.reg_of_only (updPort_only (ps := [.port, .mir]) rfl (Only.refl _ s)) rfl a

/-- With the link of its die up, a port event reaches its register. -/
theorem flag_portEvt (p : Nat) (f : Fld) (s : State) (hf : f.isBit) (hu : s.portUp p = true) :
    (portEvt p f s).flag (R.PRT_EVT p) f = true := by
  unfold portEvt
  rw [if_pos hu]
  exact flag_raisePrt _ _ _ _ _ hf (by unfold R.PRT_EVT R.TWM_STAT; omega)

/-! ### Ports -/

@[simp] theorem portOf_updPort (p : Nat) (f : Port → Port) (s : State) : (updPort p f s).portOf p = f (s.portOf p) := by
  unfold updPort State.portOf
  dsimp only
  split <;> exact tabGet_tabSet_same ..

theorem portOf_updPort_ne (p j : Nat) (f : Port → Port) (s : State) (h : j ≠ p) :
    (updPort p f s).portOf j = s.portOf j := by
  unfold updPort State.portOf
  dsimp only
  split <;> exact tabGet_tabSet_ne _ _ _ _ h

/-- While the link is up the hub's mirror follows. -/
theorem mirOf_updPort (p : Nat) (f : Port → Port) (s : State) (h : s.portUp p = true) :
    (updPort p f s).mirOf p = f (s.portOf p) := by
  unfold updPort State.mirOf
  dsimp only
  rw [if_pos (by exact h)]
  exact tabGet_tabSet_same ..

/-- A port event leaves a port as it is, but for the events that wait while its link is down. -/
theorem portOf_portEvt (p j : Nat) (f : Fld) (s : State) :
    ∃ e, (portEvt p f s).portOf j = { s.portOf j with evt := e } := by
  unfold portEvt
  split
  · refine ⟨(s.portOf j).evt, ?_⟩
    rw [State.portOf_of_only (raisePrt_only (ps := [.regs]) rfl (Only.refl _ s)) rfl j]
  · by_cases hj : j = p
    · subst hj
      exact ⟨_, by rw [portOf_updPort]⟩
    · refine ⟨(s.portOf j).evt, ?_⟩
      rw [portOf_updPort_ne _ _ _ _ hj]

end Sys2Proof.Machine
end

