-- ==== Sys2Proof/Laws/Access.lean ====
section
/-! SUPPORT. A management-plane read or write of a register that can be reached and shows no word of a memory. -/
namespace Sys2Proof.Machine

/-- The management plane has just had a transaction. -/
def State.commanded (s : State) : State := { s with clk := { s.clk with idleAt := s.tb.usec } }

/-- A transaction of a plane that is awake. -/
theorem twmCmd_eq {f : State → State} {s : State} (hm : s.mgmtUp = true) (hq : s.clk.quiet = false) :
    twmCmd f s = f s.commanded := by
  simp [twmCmd, wakeUp, hm, hq, State.commanded]

/-- A host read that nothing stops is the read of the register. -/
theorem hostReadCmd_eq {a : Nat} {r : RegRow} {s : State} (hm : s.mgmtUp = true) (hq : s.clk.quiet = false)
    (hi : implemented a = true) (hr : findReg a = some r) (hn : r.cls ≠ .noHostRead) (hc : s.commanded.accessCause a = none)
    (hp : s.commanded.regPlaces a = []) :
    hostReadCmd a s = setBus (readReg r a s.commanded).1 (readReg r a s.commanded).2 := by
  simp [hostReadCmd, twmCmd_eq hm hq, hostRead, hi, hr, hn, hc, hp, seen, forEach, State.anyPoison]

/-- A host write that nothing stops is the write of the register. -/
theorem hostWrite_eq {a : Nat} {v : Word} {r : RegRow} {s : State} (hi : implemented a = true) (hr : findReg a = some r)
    (hw : r.hostWrites = true) (hc : s.accessCause a = none) :
    (hostWrite a v s).2 = afterWrite (writeReg .host r a v s) := by
  simp [hostWrite, hi, hr, hw, hc]

/-- The timebase's registers are in the TCLK domain. -/
theorem accessCause_tclk {a : Nat} {s : State} (h : a < 0x10000) (ha : a ≠ R.TWM_PADMIN) (ht : s.tclk = true) :
    s.accessCause a = none := by
  have hc : s.chanAddr a = none := by
    unfold State.chanAddr
    rw [if_neg, if_neg, if_neg ha]
    · simp; omega
    · simp; omega
  simp [State.accessCause, hc, ht]

/-- A register that shows no word of a memory. -/
theorem regPlaces_none {a : Nat} {s : State} (h : a < 0x3000) (ha : a ≠ R.TWM_PADMIN) (hg : a ≠ R.PLC_GUSED)
    (hi : imagePlace a = none) : s.regPlaces a = [] := by
  unfold State.regPlaces
  rw [if_neg (by omega), if_neg ha, if_neg (by unfold R.PLC_ENT; simp only [Bool.and_eq_true, decide_eq_true_eq]; omega),
    if_neg (by simp only [Bool.and_eq_true, decide_eq_true_eq]; omega), if_neg hg, hi]

end Sys2Proof.Machine
end

