-- ==== Sys2Proof/Laws/Mem.lean ====
section
/-! SUPPORT. The memories: read after write, what a write leaves, and the canonical form kept by every operation. -/
namespace Sys2Proof.Machine

theorem memKey_eq {id off id' off' : Nat} (h : off < 2 ^ 20) (h' : off' < 2 ^ 20) :
    memKey id off = memKey id' off' ↔ id = id' ∧ off = off' := by
  unfold memKey
  constructor
  · intro e; omega
  · rintro ⟨rfl, rfl⟩; rfl

/-- A memory operation of one byte keeps the canonical form. -/
theorem wf_setByte (id off : Nat) (b : Byte) (s : State) (h : Memory.wf s.mem) : Memory.wf (setByte id off b s).mem :=
  tabWf_set (d := fun _ => 0) h _ _

theorem wf_setBytes (id off : Nat) (l : List Byte) (s : State) (h : Memory.wf s.mem) :
    Memory.wf (setBytes id off l s).mem := by
  induction l generalizing off s with
  | nil => exact h
  | cons b l ih => exact ih _ _ (wf_setByte _ _ _ _ h)

theorem wf_clearMem (id off n : Nat) (s : State) (h : Memory.wf s.mem) : Memory.wf (clearMem id off n s).mem := by
  exact tabWf_drop (α := Byte) (d := fun _ => 0) h (fun k => memKey id off <= k && k < memKey id (off + n))

theorem byteAt_setByte_of_ne (id off off' : Nat) (b : Byte) (s : State) (h : off' ≠ off) :
    (setByte id off b s).byteAt id off' = s.byteAt id off' :=
  byteAt_setByte_ne _ _ _ _ _ _ (by unfold memKey; omega)

/-- Bytes below the first one written stand. -/
theorem byteAt_setBytes_lt (id off off' : Nat) (l : List Byte) (s : State) (h : off' < off) :
    (setBytes id off l s).byteAt id off' = s.byteAt id off' := by
  induction l generalizing off s with
  | nil => rfl
  | cons b l ih => rw [setBytes, ih _ _ (by omega), byteAt_setByte_of_ne _ _ _ _ _ (by omega)]

/-- A byte within a written range reads as written; every other byte of the memory stands. -/
theorem byteAt_setBytes (id off off' : Nat) (l : List Byte) (s : State) :
    (setBytes id off l s).byteAt id off' =
      if off ≤ off' ∧ off' < off + l.length then l.getD (off' - off) 0 else s.byteAt id off' := by
  induction l generalizing off s with
  | nil =>
    rw [if_neg (by simp only [List.length_nil]; omega)]
    rfl
  | cons b l ih =>
    rw [setBytes]
    by_cases h0 : off' = off
    · subst h0
      rw [byteAt_setBytes_lt _ _ _ _ _ (by omega)]
      simp
    · rw [ih, byteAt_setByte_of_ne _ _ _ _ _ h0]
      simp only [List.length_cons]
      by_cases h : off + 1 ≤ off' ∧ off' < off + 1 + l.length
      · rw [if_pos h, if_pos (by omega), show off' - off = (off' - (off + 1)) + 1 by omega, List.getD_cons_succ]
      · rw [if_neg h, if_neg (by omega)]

theorem leNat_natLe (n v : Nat) : leNat (natLe n v) = v % 256 ^ n := by
  induction n generalizing v with
  | zero => simp [natLe, leNat, Nat.mod_one]
  | succ n ih =>
    have h8 : 2 ^ 8 = 256 := rfl
    rw [natLe, leNat, ih, BitVec.toNat_ofNat, h8, show 256 ^ (n + 1) = 256 * 256 ^ n by rw [Nat.pow_succ, Nat.mul_comm],
      Nat.mod_mul]

theorem length_natLe (n v : Nat) : (natLe n v).length = n := by
  induction n generalizing v with
  | zero => rfl
  | succ n ih => simp [natLe, ih]

/-- The bytes just written, read back. -/
theorem bytesAt_setBytes (id off : Nat) (l : List Byte) (s : State) :
    (setBytes id off l s).bytesAt id off l.length = l := by
  apply List.ext_getElem
  · simp [State.bytesAt]
  · intro i h1 h2
    simp only [State.bytesAt, List.getElem_map, List.getElem_range]
    rw [byteAt_setBytes, if_pos (by omega), Nat.add_sub_cancel_left, List.getD_eq_getElem?_getD,
      List.getElem?_eq_getElem h2]
    rfl

/-- A little-endian value just written reads back, less the bytes beyond its width. -/
theorem leAt_setBytes (id off n v : Nat) (s : State) :
    (setBytes id off (natLe n v) s).leAt id off n = v % 256 ^ n := by
  unfold State.leAt
  have h := bytesAt_setBytes id off (natLe n v) s
  rw [length_natLe] at h
  rw [h, leNat_natLe]

end Sys2Proof.Machine
end

