-- ==== Sys2Proof/Laws/OnlyCourseMap.lean ====
section
/-! SUPPORT. Footprints of the operations of Machine/CourseMap.lean: the parts of the state each may change. -/
namespace Sys2Proof.Machine

theorem setAe_only {ps : List Part} (hl : Part.le [.crs] ps = true) {s0_ : State} {c : Nat} {a : Word} {s : State} (h : Only ps s0_ s) :
    Only ps s0_ (setAe c a s) := by
  unfold setAe
  try dsimp only
  repeat' first
    | (with_reducible assumption)
    | (with_reducible apply updCrs_only (within rfl hl))
    | (with_reducible apply Only.ite)
    | (with_reducible apply Only.ite2)

theorem laneStore_only {ps : List Part} (hl : Part.le [.regs, .clk, .log] ps = true) {s0_ : State} {f : State → Option State} {s : State} (h : Only ps s0_ s)
    (hf : ∀ t u, Only ps s0_ t → f t = some u → Only ps s0_ u) {r : State} (he : laneStore f s = some r) : Only ps s0_ r := by
  unfold laneStore at he
  split at he
  · exact hf _ _ (wakeUp_only (within rfl hl) h) he
  · cases he

theorem contractWritten_only {ps : List Part} (hl : Part.le [.regs, .port, .mir, .hub, .opq, .chan, .log, .fresh] ps = true) {s0_ : State} {p : Nat} {s : State} (h : Only ps s0_ s) :
    Only ps s0_ (contractWritten p s) := by
  unfold contractWritten
  try dsimp only
  repeat' first
    | (with_reducible assumption)
    | (with_reducible apply checkDeadline_only (within rfl hl))
    | (with_reducible apply Only.ite)
    | (with_reducible apply Only.ite2)

theorem storeRec_only {ps : List Part} (hl : Part.le [.regs, .prec, .port, .mir, .hub, .opq, .chan, .log, .fresh] ps = true) {s0_ : State} {p w i n : Nat} {v : Word} {s : State} (h : Only ps s0_ s) {r : State}
    (he : storeRec p w i n v s = some r) : Only ps s0_ r := by
  unfold storeRec at he
  split at he
  · exact Option.some.inj he ▸ contractWritten_only (within rfl hl) (setRec_only (within rfl hl) h)
  · split at he
    · exact Option.some.inj he ▸ h
    · cases he

theorem storeReg_only {ps : List Part} (hl : Part.le [.regs, .dieRegs, .prec, .mem, .ecc, .timer, .xat, .port, .mir, .phy, .hub, .fw, .ctx, .pan, .opq, .chan, .fdrMon, .die, .crs, .mbx, .lnk, .enum, .twm, .adc, .ceSecond, .adm, .saved, .log, .nvmA, .nvmB, .boot, .otp, .upd, .fresh] ps = true) {s0_ : State} {c : Fin 4} {a : Nat} {v : Word} {s : State} (h : Only ps s0_ s) {r : State}
    (he : storeReg c a v s = some r) : Only ps s0_ r := by
  unfold storeReg at he
  split at he
  · cases he
  · split at he
    · exact Option.some.inj he ▸ h
    · cases he
    · exact Option.some.inj he ▸ afterWrite_only (within rfl hl) (writeReg_only (within rfl hl) h)

theorem storeSpot_only {ps : List Part} (hl : Part.le [.regs, .dieRegs, .prec, .mem, .ecc, .timer, .xat, .port, .mir, .phy, .hub, .fw, .ctx, .pan, .opq, .chan, .fdrMon, .die, .crs, .mbx, .lnk, .enum, .twm, .adc, .ceSecond, .clk, .adm, .saved, .log, .nvmA, .nvmB, .boot, .otp, .upd, .fresh] ps = true) {s0_ : State} {c : Fin 4} {i n : Nat} {sp : Spot} {v : Word} {s : State} (h : Only ps s0_ s) {r : State}
    (he : storeSpot c i n sp v s = some r) : Only ps s0_ r := by
  unfold storeSpot at he
  split at he
  · exact Option.some.inj he ▸ setBytes_only (within rfl hl) h
  · exact Option.some.inj he ▸ setBytes_only (within rfl hl) h
  · exact storeRec_only (within rfl hl) h he
  · exact storeReg_only (within rfl hl) h he
  · exact storeReg_only (within rfl hl) h he
  · exact laneStore_only (within rfl hl) h
      (fun t u ht e => Option.some.inj e ▸ setBytes_only (within rfl hl) ht) he
  · refine laneStore_only (within rfl hl) h (fun t u ht e => ?_) he
    have e' := Option.some.inj e
    subst e'
    exact Only.ite (updCrs_only (within rfl hl) ht) ht
  · exact laneStore_only (within rfl hl) h
      (fun t u ht e => Option.some.inj e ▸ mbxDone_only (within rfl hl) ht) he
  all_goals cases he

theorem courseStore_only {ps : List Part} (hl : Part.le [.regs, .dieRegs, .prec, .mem, .ecc, .timer, .xat, .port, .mir, .phy, .hub, .fw, .ctx, .pan, .opq, .chan, .fdrMon, .die, .crs, .mbx, .lnk, .enum, .twm, .adc, .ceSecond, .clk, .adm, .saved, .log, .nvmA, .nvmB, .boot, .otp, .upd, .fresh] ps = true) {s0_ : State} {c : Fin 4} {n : Nat} {a v : Word} {s0 : State} (h : Only ps s0_ s0) :
    Only ps s0_ (courseStore c n a v s0) := by
  have hs := seen_only (within rfl hl) (l := (courseSpot c a.toNat).merged c) h
  unfold courseStore
  try dsimp only
  split
  · next t ht =>
    split at ht
    · have hs := storeSpot_only (within rfl hl) hs ht
      exact Only.ite (setAe_only (within rfl hl) hs) hs
    · cases ht
  · exact setAe_only (within rfl hl) hs

theorem laneRead_only {ps : List Part} (hl : Part.le [.regs, .clk, .log] ps = true) {s0_ : State} {f : State → Word × State} {s : State} (h : Only ps s0_ s)
    (hf : ∀ t, Only ps s0_ t → Only ps s0_ (f t).2) {r : Word × State} (he : laneRead f s = some r) : Only ps s0_ r.2 := by
  unfold laneRead at he
  split at he
  · exact Option.some.inj he ▸ hf _ (wakeUp_only (within rfl hl) h)
  · cases he

theorem readTmuSpot_only {ps : List Part} (hl : Part.le [.regs, .dieRegs, .timer, .hub, .ctx, .pan, .chan, .adc, .fresh] ps = true) {s0_ : State} {c : Nat} {a : Nat} {s : State} (h : Only ps s0_ s) :
    Only ps s0_ (readTmuSpot c a s).2 := by
  unfold readTmuSpot
  try dsimp only
  repeat' first
    | (with_reducible assumption)
    | (with_reducible apply readReg_only (within rfl hl))
    | (with_reducible apply Only.ite)
    | (with_reducible apply Only.ite2)
    | split
    | dsimp only

theorem readView_only {ps : List Part} (hl : Part.le [.crs] ps = true) {s0_ : State} {c : Nat} {a : Nat} {s : State} (h : Only ps s0_ s) :
    Only ps s0_ (readView c a s).2 := by
  unfold readView
  try dsimp only
  repeat' first
    | (with_reducible assumption)
    | (with_reducible apply updCrs_only (within rfl hl))
    | (with_reducible apply Only.ite)
    | (with_reducible apply Only.ite2)

theorem loadSpot_only {ps : List Part} (hl : Part.le [.regs, .dieRegs, .timer, .hub, .ctx, .pan, .chan, .crs, .mbx, .adc, .clk, .log, .fresh] ps = true) {s0_ : State} {c i n : Nat} {sp : Spot} {s : State} (h : Only ps s0_ s) {r : Word × State}
    (he : loadSpot c i n sp s = some r) : Only ps s0_ r.2 := by
  unfold loadSpot at he
  split at he
  case h_5 a =>
    cases hf : findReg a with
    | none => rw [hf] at he; cases he
    | some x => rw [hf] at he; exact Option.some.inj he ▸ readReg_only (within rfl hl) h
  case h_6 => exact Option.some.inj he ▸ readTmuSpot_only (within rfl hl) h
  case h_7 => exact Option.some.inj he ▸ readView_only (within rfl hl) h
  case h_14 => exact laneRead_only (within rfl hl) h (fun t ht => mbxTake_only (within rfl hl) ht) he
  all_goals first
    | exact Option.some.inj he ▸ h
    | exact laneRead_only (within rfl hl) h (fun t ht => ht) he
    | cases he

theorem courseLoad_only {ps : List Part} (hl : Part.le [.regs, .dieRegs, .mem, .ecc, .timer, .hub, .ctx, .pan, .chan, .crs, .mbx, .adc, .ceSecond, .clk, .log, .fresh] ps = true) {s0_ : State} {c n : Nat} {a : Word} {s : State} (h : Only ps s0_ s) :
    Only ps s0_ (courseLoad c n a s).2 := by
  unfold courseLoad
  try dsimp only
  split
  · have hs := seen_only (within rfl hl) (l := s.spotPlaces c (courseSpot c a.toNat)) h
    split
    · exact setAe_only (within rfl hl) hs
    · split
      · next t ht => exact loadSpot_only (within rfl hl) hs ht
      · exact setAe_only (within rfl hl) hs
  · exact setAe_only (within rfl hl) h

theorem ramAcc_only {ps : List Part} (hl : Part.le [.regs, .mem, .ecc, .ceSecond, .log, .bus, .fresh] ps = true) {s0_ : State} {c : Nat} {id : Nat} {off : Nat} {w : Option Word} {s : State} (h : Only ps s0_ s) :
    Only ps s0_ (ramAcc c id off w s) := by
  unfold ramAcc
  try dsimp only
  repeat' first
    | (with_reducible assumption)
    | (with_reducible apply drawWord_only (within rfl hl))
    | (with_reducible apply maErr_only (within rfl hl))
    | (with_reducible apply readCmd_only (within rfl hl))
    | (with_reducible apply seen_only (within rfl hl))
    | (with_reducible apply setBus_only (within rfl hl))
    | (with_reducible apply setBytes_only (within rfl hl))
    | (with_reducible apply Only.ite)
    | (with_reducible apply Only.ite2)
    | split
    | dsimp only

theorem memAcc_only {ps : List Part} (hl : Part.le [.regs, .dieRegs, .prec, .mem, .ecc, .timer, .xat, .port, .mir, .phy, .hub, .fw, .ctx, .pan, .opq, .chan, .fdrMon, .die, .crs, .mbx, .lnk, .enum, .twm, .adc, .ceSecond, .clk, .adm, .saved, .log, .nvmA, .nvmB, .boot, .otp, .upd, .bus, .fresh] ps = true) {s0_ : State} {m : MemAcc} {s : State} (h : Only ps s0_ s) :
    Only ps s0_ (memAcc m s) := by
  unfold memAcc
  try dsimp only
  repeat' first
    | (with_reducible assumption)
    | (with_reducible apply hostReadCmd_only (within rfl hl))
    | (with_reducible apply hostWrite_only (within rfl hl))
    | (with_reducible apply ramAcc_only (within rfl hl))
    | split
    | dsimp only

theorem registerWrite_only {ps : List Part} (hl : Part.le [.regs, .dieRegs, .prec, .mem, .ecc, .timer, .xat, .port, .mir, .phy, .hub, .fw, .ctx, .pan, .opq, .chan, .fdrMon, .die, .crs, .mbx, .lnk, .enum, .twm, .adc, .ceSecond, .clk, .adm, .saved, .log, .nvmA, .nvmB, .boot, .otp, .upd, .fresh] ps = true) {s0_ : State} {who : Who} {a : Word} {v : Word} {s : State} (h : Only ps s0_ s) :
    Only ps s0_ (registerWrite who a v s) := by
  unfold registerWrite
  try dsimp only
  repeat' first
    | (with_reducible assumption)
    | (with_reducible apply courseStore_only (within rfl hl))
    | (with_reducible apply hang_only (within rfl hl))
    | (with_reducible apply hostWrite_only (within rfl hl))
    | (with_reducible apply twmCmd_only (within rfl hl))
    | (with_reducible intro _)
    | (with_reducible apply Only.ite)
    | (with_reducible apply Only.ite2)
    | split
    | dsimp only

end Sys2Proof.Machine
end

