-- ==== Sys2Proof/Laws/OnlyChain.lean ====
section
/-! SUPPORT. Footprints of the operations of Machine/Chain.lean: the parts of the state each may change. -/
namespace Sys2Proof.Machine

theorem strikeString_only {ps : List Part} (hl : Part.le [.crs] ps = true) {s0_ : State} {c : Fin 4} {i : Fin 3} {w : Nat} {f : Word} {s : State} (h : Only ps s0_ s) :
    Only ps s0_ (strikeString c i w f s) := by
  unfold strikeString
  try dsimp only
  repeat' first
    | (with_reducible assumption)
    | (with_reducible apply updCrs_only (within rfl hl))

theorem strikeWord_only {ps : List Part} (hl : Part.le [.ecc] ps = true) {s0_ : State} {id : Nat} {w : Nat} {f : BitVec 100} {s : State} (h : Only ps s0_ s) :
    Only ps s0_ (strikeWord id w f s) := by
  unfold strikeWord
  try dsimp only
  repeat' first
    | (with_reducible assumption)
    | (with_reducible apply setWordErr_only (within rfl hl))
    | (with_reducible apply Only.ite)
    | (with_reducible apply Only.ite2)

theorem strike_only {ps : List Part} (hl : Part.le [.ecc, .crs] ps = true) {s0_ : State} {s : State} (h : Only ps s0_ s) :
    Only ps s0_ (strike s) := by
  unfold strike
  try dsimp only
  repeat' first
    | (with_reducible assumption)
    | (with_reducible apply strikeString_only (within rfl hl))
    | (with_reducible apply strikeWord_only (within rfl hl))
    | split
    | dsimp only

theorem idleStep_only {ps : List Part} (hl : Part.le [.regs, .ecc, .tb, .crs, .lnk, .enum, .clk, .clock] ps = true) {s0_ : State} {s : State} (h : Only ps s0_ s) :
    Only ps s0_ (idleStep s) := by
  unfold idleStep
  try dsimp only
  repeat' first
    | (with_reducible assumption)
    | (with_reducible apply alertUpdate_only (within rfl hl))
    | (with_reducible apply idle_only (within rfl hl))
    | (with_reducible apply markBusy_only (within rfl hl))
    | (with_reducible apply strike_only (within rfl hl))
    | (with_reducible apply Only.ite)
    | (with_reducible apply Only.ite2)

theorem requestRead_only {ps : List Part} (hl : Part.le [.regs, .dieRegs, .mem, .ecc, .timer, .hub, .ctx, .pan, .chan, .adc, .ceSecond, .log, .fresh] ps = true) {s0_ : State} {n a : Nat} {s : State} (h : Only ps s0_ s) :
    Only ps s0_ (requestRead n a s).2.2 := by
  induction n generalizing a s with
  | zero => exact h
  | succ n ih =>
    rw [requestRead]
    exact ih (hostRead_only (within rfl hl) h)

theorem requestWrite_only {ps : List Part} (hl : Part.le [.regs, .dieRegs, .prec, .mem, .ecc, .timer, .xat, .port, .mir, .phy, .hub, .fw, .ctx, .pan, .opq, .chan, .fdrMon, .die, .crs, .mbx, .lnk, .enum, .twm, .adc, .ceSecond, .adm, .saved, .log, .nvmA, .nvmB, .boot, .otp, .upd, .fresh] ps = true) {s0_ : State} {n a : Nat} {l : List Byte} {s : State} (h : Only ps s0_ s) :
    Only ps s0_ (requestWrite n a l s).2 := by
  induction n generalizing a l s with
  | zero => exact h
  | succ n ih =>
    rw [requestWrite]
    split
    · exact h
    · exact ih (hostWrite_only (within rfl hl) h)

theorem runRequest_only {ps : List Part} (hl : Part.le [.regs, .dieRegs, .prec, .mem, .ecc, .timer, .xat, .port, .mir, .phy, .hub, .fw, .ctx, .pan, .opq, .chan, .fdrMon, .die, .crs, .mbx, .lnk, .enum, .twm, .adc, .ceSecond, .adm, .saved, .log, .nvmA, .nvmB, .boot, .otp, .upd, .fresh] ps = true) {s0_ : State} {o : Origin} {kind : Nat} {ch : Nat} {data : List Byte} {s : State} (h : Only ps s0_ s) :
    Only ps s0_ (runRequest o kind ch data s) := by
  unfold runRequest
  try dsimp only
  repeat' first
    | (with_reducible assumption)
    | (with_reducible apply answerOrigin_only (within rfl hl))
    | (with_reducible apply mbxPost_only (within rfl hl))
    | (with_reducible apply requestRead_only (within rfl hl))
    | (with_reducible apply requestWrite_only (within rfl hl))
    | (with_reducible apply Only.ite)
    | (with_reducible apply Only.ite2)

theorem reqRx_only {ps : List Part} (hl : Part.le [.regs, .dieRegs, .prec, .mem, .ecc, .timer, .xat, .port, .mir, .phy, .hub, .fw, .ctx, .pan, .opq, .chan, .fdrMon, .die, .crs, .mbx, .lnk, .enum, .twm, .adc, .ceSecond, .adm, .saved, .log, .nvmA, .nvmB, .boot, .otp, .upd, .fresh] ps = true) {s0_ : State} {n : Nat} {h_ : Header} {kind : Nat} {ch : Nat} {tag : BitVec 8} {data : List Byte} {s : State} (h : Only ps s0_ s) :
    Only ps s0_ (reqRx n h_ kind ch tag data s) := by
  unfold reqRx
  try dsimp only
  repeat' first
    | (with_reducible assumption)
    | (with_reducible apply routeFrame_only (within rfl hl))
    | (with_reducible apply runRequest_only (within rfl hl))
    | (with_reducible apply Only.ite)
    | (with_reducible apply Only.ite2)

theorem respRx_only {ps : List Part} (hl : Part.le [.regs, .lnk, .twm] ps = true) {s0_ : State} {n : Nat} {h_ : Header} {st : Nat} {tag : BitVec 8} {data : List Byte} {s : State} (h : Only ps s0_ s) :
    Only ps s0_ (respRx n h_ st tag data s) := by
  unfold respRx
  try dsimp only
  repeat' first
    | (with_reducible assumption)
    | (with_reducible apply endRequest_only (within rfl hl))
    | (with_reducible apply routeFrame_only (within rfl hl))
    | (with_reducible apply Only.ite)
    | (with_reducible apply Only.ite2)

end Sys2Proof.Machine
end

