-- ==== Sys2Proof/Laws/OnlyFwBase.lean ====
section
/-! SUPPORT. Footprints of the operations of Machine/FwBase.lean: the parts of the state each may change. -/
namespace Sys2Proof.Machine

theorem getPans_only {ps : List Part} (hl : Part.le [.pan, .fresh] ps = true) {s0_ : State} {c n : Nat} {s : State} (h : Only ps s0_ s) :
    Only ps s0_ (getPans c n s).2 := by
  induction n generalizing s with
  | zero => exact h
  | succ n ih => exact ih (setPan_only (within rfl hl) (pick_only (within rfl hl) h))

theorem say_only {ps : List Part} (hl : Part.le [.regs, .mem, .ecc, .phy, .hub, .fw, .pan, .chan, .ceSecond, .log, .fresh] ps = true) {s0_ : State} {p : Nat} {sp : Sop} {bytes : List Byte} {ams : Bool} {amsEnd : Bool} {w : Say} {s : State} (h : Only ps s0_ s) :
    Only ps s0_ (say p sp bytes ams amsEnd w s) := by
  unfold say
  try dsimp only
  repeat' first
    | (with_reducible assumption)
    | (with_reducible apply ctxTx_only (within rfl hl))
    | (with_reducible apply getPans_only (within rfl hl))
    | (with_reducible apply updFw_only (within rfl hl))
    | (with_reducible apply writeChain_only (within rfl hl))
    | (with_reducible apply Only.ite)
    | (with_reducible apply Only.ite2)

theorem sayCtl_only {ps : List Part} (hl : Part.le [.regs, .mem, .ecc, .phy, .hub, .fw, .pan, .chan, .ceSecond, .log, .fresh] ps = true) {s0_ : State} {p : Nat} {t : Nat} {amsEnd : Bool} {w : Say} {s : State} (h : Only ps s0_ s) :
    Only ps s0_ (sayCtl p t amsEnd w s) := by
  unfold sayCtl
  try dsimp only
  repeat' first
    | (with_reducible assumption)
    | (with_reducible apply say_only (within rfl hl))

theorem armTimer_only {ps : List Part} (hl : Part.le [.ctx] ps = true) {s0_ : State} {p : Nat} {b : Bool} {n : Nat} {s : State} (h : Only ps s0_ s) :
    Only ps s0_ (armTimer p b n s) := by
  unfold armTimer
  try dsimp only
  repeat' first
    | (with_reducible assumption)
    | (with_reducible apply writeCtxTimer_only (within rfl hl))
    | (with_reducible apply Only.ite)
    | (with_reducible apply Only.ite2)

theorem waitFor_only {ps : List Part} (hl : Part.le [.fw, .ctx] ps = true) {s0_ : State} {p : Nat} {u : Wait} {n : Nat} {s : State} (h : Only ps s0_ s) :
    Only ps s0_ (waitFor p u n s) := by
  unfold waitFor
  try dsimp only
  repeat' first
    | (with_reducible assumption)
    | (with_reducible apply armTimer_only (within rfl hl))
    | (with_reducible apply updFw_only (within rfl hl))

theorem arm_only {ps : List Part} (hl : Part.le [.fw, .ctx] ps = true) {s0_ : State} {p : Nat} {u : Wait} {s : State} (h : Only ps s0_ s) :
    Only ps s0_ (arm p u s) := by
  unfold arm
  try dsimp only
  repeat' first
    | (with_reducible assumption)
    | (with_reducible apply waitFor_only (within rfl hl))

theorem armNoResponse_only {ps : List Part} (hl : Part.le [.fw, .ctx] ps = true) {s0_ : State} {p : Nat} {on : Bool} {s : State} (h : Only ps s0_ s) :
    Only ps s0_ (armNoResponse p on s) := by
  unfold armNoResponse
  try dsimp only
  repeat' first
    | (with_reducible assumption)
    | (with_reducible apply armTimer_only (within rfl hl))
    | (with_reducible apply updFw_only (within rfl hl))
    | (with_reducible apply Only.ite)
    | (with_reducible apply Only.ite2)

theorem recordContract_only {ps : List Part} (hl : Part.le [.regs, .prec, .ecc, .port, .mir, .hub, .fw, .opq, .chan, .log, .fresh] ps = true) {s0_ : State} {p : Nat} {v : Nat} {i : Nat} {pos : Nat} {s : State} (h : Only ps s0_ s) :
    Only ps s0_ (recordContract p v i pos s) := by
  unfold recordContract
  try dsimp only
  repeat' first
    | (with_reducible assumption)
    | (with_reducible apply updFw_only (within rfl hl))
    | (with_reducible apply writeContract_only (within rfl hl))

theorem sendCaps_only {ps : List Part} (hl : Part.le [.regs, .mem, .ecc, .phy, .hub, .fw, .pan, .chan, .ceSecond, .log, .fresh] ps = true) {s0_ : State} {p : Nat} {reply : Bool} {s : State} (h : Only ps s0_ s) :
    Only ps s0_ (sendCaps p reply s) := by
  unfold sendCaps
  try dsimp only
  repeat' first
    | (with_reducible assumption)
    | (with_reducible apply say_only (within rfl hl))
    | (with_reducible apply updFw_only (within rfl hl))
    | (with_reducible apply Only.ite)
    | (with_reducible apply Only.ite2)

theorem fwHardReset_only {ps : List Part} (hl : Part.le [.regs, .mem, .ecc, .xat, .phy, .hub, .fw, .ctx, .pan, .chan, .ceSecond, .log, .fresh] ps = true) {s0_ : State} {p : Nat} {s : State} (h : Only ps s0_ s) :
    Only ps s0_ (fwHardReset p s) := by
  unfold fwHardReset
  try dsimp only
  repeat' first
    | (with_reducible assumption)
    | (with_reducible apply waitFor_only (within rfl hl))
    | (with_reducible apply writePdCmd_only (within rfl hl))

theorem fwRelease_only {ps : List Part} (hl : Part.le [.regs, .hub, .fw, .ctx, .chan] ps = true) {s0_ : State} {p : Nat} {s : State} (h : Only ps s0_ s) :
    Only ps s0_ (fwRelease p s) := by
  unfold fwRelease
  try dsimp only
  repeat' first
    | (with_reducible assumption)
    | (with_reducible apply releaseCtx_only (within rfl hl))
    | (with_reducible apply updFw_only (within rfl hl))
    | (with_reducible apply Only.ite)
    | (with_reducible apply Only.ite2)

theorem sayAgain_only {ps : List Part} (hl : Part.le [.regs, .mem, .ecc, .phy, .hub, .fw, .pan, .chan, .ceSecond, .log, .fresh] ps = true) {s0_ : State} {p : Nat} {m : Say × List Byte} {s : State} (h : Only ps s0_ s) :
    Only ps s0_ (sayAgain p m s) := by
  unfold sayAgain
  try dsimp only
  repeat' first
    | (with_reducible assumption)
    | (with_reducible apply say_only (within rfl hl))

theorem sayVdm_only {ps : List Part} (hl : Part.le [.regs, .mem, .ecc, .phy, .hub, .fw, .pan, .chan, .ceSecond, .log, .fresh] ps = true) {s0_ : State} {p : Nat} {w : Say} {objs : List Nat} {s : State} (h : Only ps s0_ s) :
    Only ps s0_ (sayVdm p w objs s) := by
  unfold sayVdm
  try dsimp only
  repeat' first
    | (with_reducible assumption)
    | (with_reducible apply sayAgain_only (within rfl hl))

theorem sendHcaps_only {ps : List Part} (hl : Part.le [.regs, .mem, .ecc, .phy, .hub, .fw, .pan, .chan, .ceSecond, .log, .fresh] ps = true) {s0_ : State} {p : Nat} {s : State} (h : Only ps s0_ s) :
    Only ps s0_ (sendHcaps p s) := by
  unfold sendHcaps
  try dsimp only
  repeat' first
    | (with_reducible assumption)
    | (with_reducible apply sayVdm_only (within rfl hl))
    | (with_reducible apply sendCaps_only (within rfl hl))
    | (with_reducible apply updFw_only (within rfl hl))
    | (with_reducible apply Only.ite)
    | (with_reducible apply Only.ite2)

theorem sendOffer_only {ps : List Part} (hl : Part.le [.regs, .mem, .ecc, .phy, .hub, .fw, .pan, .chan, .ceSecond, .log, .fresh] ps = true) {s0_ : State} {p : Nat} {s : State} (h : Only ps s0_ s) :
    Only ps s0_ (sendOffer p s) := by
  unfold sendOffer
  try dsimp only
  repeat' first
    | (with_reducible assumption)
    | (with_reducible apply sendCaps_only (within rfl hl))
    | (with_reducible apply sendHcaps_only (within rfl hl))
    | (with_reducible apply updFw_only (within rfl hl))
    | (with_reducible apply Only.ite)
    | (with_reducible apply Only.ite2)

theorem fwAlloc_only {ps : List Part} (hl : Part.le [.regs, .xat, .hub, .fw, .ctx, .chan, .fresh] ps = true) {s0_ : State} {p : Nat} {w : Want} {s : State} (h : Only ps s0_ s) :
    Only ps s0_ (fwAlloc p w s) := by
  unfold fwAlloc
  try dsimp only
  repeat' first
    | (with_reducible assumption)
    | (with_reducible apply allocCtx_only (within rfl hl))
    | (with_reducible apply updFw_only (within rfl hl))
    | (with_reducible apply Only.ite)
    | (with_reducible apply Only.ite2)

theorem tryTurnOn_only {ps : List Part} (hl : Part.le [.regs, .xat, .hub, .fw, .ctx, .opq, .chan, .fresh] ps = true) {s0_ : State} {p : Nat} {s : State} (h : Only ps s0_ s) :
    Only ps s0_ (tryTurnOn p s) := by
  unfold tryTurnOn
  try dsimp only
  repeat' first
    | (with_reducible assumption)
    | (with_reducible apply fwAlloc_only (within rfl hl))
    | (with_reducible apply pushArgs_only (within rfl hl))
    | (with_reducible apply updFw_only (within rfl hl))
    | (with_reducible apply Only.ite)
    | (with_reducible apply Only.ite2)
    | split
    | dsimp only

theorem reAdvertise_only {ps : List Part} (hl : Part.le [.regs, .mem, .ecc, .xat, .phy, .hub, .fw, .ctx, .pan, .chan, .ceSecond, .log, .fresh] ps = true) {s0_ : State} {p : Nat} {s : State} (h : Only ps s0_ s) :
    Only ps s0_ (reAdvertise p s) := by
  unfold reAdvertise
  try dsimp only
  repeat' first
    | (with_reducible assumption)
    | (with_reducible apply fwAlloc_only (within rfl hl))
    | (with_reducible apply sendOffer_only (within rfl hl))
    | (with_reducible apply updFw_only (within rfl hl))
    | (with_reducible apply Only.ite)
    | (with_reducible apply Only.ite2)

theorem writeRequested_only {ps : List Part} (hl : Part.le [.regs, .prec, .ecc, .port, .mir, .hub, .opq, .chan, .log, .fresh] ps = true) {s0_ : State} {p : Nat} {pw : Nat} {s : State} (h : Only ps s0_ s) :
    Only ps s0_ (writeRequested p pw s) := by
  unfold writeRequested
  try dsimp only
  repeat' first
    | (with_reducible assumption)
    | (with_reducible apply writeContract_only (within rfl hl))

theorem requestedBack_only {ps : List Part} (hl : Part.le [.regs, .prec, .ecc, .port, .mir, .hub, .opq, .chan, .log, .fresh] ps = true) {s0_ : State} {p : Nat} {s : State} (h : Only ps s0_ s) :
    Only ps s0_ (requestedBack p s) := by
  unfold requestedBack
  try dsimp only
  repeat' first
    | (with_reducible assumption)
    | (with_reducible apply writeRequested_only (within rfl hl))

theorem hardResetSeen_only {ps : List Part} (hl : Part.le [.regs, .xat, .hub, .fw, .ctx, .chan, .fresh] ps = true) {s0_ : State} {p : Nat} {s : State} (h : Only ps s0_ s) :
    Only ps s0_ (hardResetSeen p s) := by
  unfold hardResetSeen
  try dsimp only
  repeat' first
    | (with_reducible assumption)
    | (with_reducible apply armNoResponse_only (within rfl hl))
    | (with_reducible apply fwAlloc_only (within rfl hl))
    | (with_reducible apply updFw_only (within rfl hl))
    | (with_reducible apply waitFor_only (within rfl hl))
    | (with_reducible apply Only.ite)
    | (with_reducible apply Only.ite2)

theorem fwPortEvents_only {ps : List Part} (hl : Part.le [.regs, .mem, .ecc, .xat, .phy, .hub, .fw, .ctx, .pan, .chan, .ceSecond, .log, .fresh] ps = true) {s0_ : State} {p : Nat} {s : State} (h : Only ps s0_ s) :
    Only ps s0_ (fwPortEvents p s) := by
  unfold fwPortEvents
  try dsimp only
  repeat' first
    | (with_reducible assumption)
    | (with_reducible apply fwHardReset_only (within rfl hl))
    | (with_reducible apply hardResetSeen_only (within rfl hl))
    | (with_reducible apply setFld_only (within rfl hl))
    | (with_reducible apply Only.ite)
    | (with_reducible apply Only.ite2)

theorem countUnanswered_only {ps : List Part} (hl : Part.le [.regs, .prec, .ecc, .port, .mir, .hub, .opq, .chan, .log, .fresh] ps = true) {s0_ : State} {p : Nat} {s : State} (h : Only ps s0_ s) :
    Only ps s0_ (countUnanswered p s) := by
  unfold countUnanswered
  try dsimp only
  repeat' first
    | (with_reducible assumption)
    | (with_reducible apply writeContract_only (within rfl hl))

theorem pushStep_only {ps : List Part} (hl : Part.le [.regs, .mem, .ecc, .xat, .phy, .hub, .fw, .ctx, .pan, .opq, .chan, .ceSecond, .log, .fresh] ps = true) {s0_ : State} {p : Nat} {t : Tran} {s : State} (h : Only ps s0_ s) :
    Only ps s0_ (pushStep p t s) := by
  unfold pushStep
  try dsimp only
  repeat' first
    | (with_reducible assumption)
    | (with_reducible apply fwHardReset_only (within rfl hl))
    | (with_reducible apply pushArgs_only (within rfl hl))
    | (with_reducible apply updFw_only (within rfl hl))
    | (with_reducible apply Only.ite)
    | (with_reducible apply Only.ite2)
    | split
    | dsimp only

theorem sendReady_only {ps : List Part} (hl : Part.le [.regs, .mem, .ecc, .phy, .hub, .fw, .pan, .chan, .ceSecond, .log, .fresh] ps = true) {s0_ : State} {p : Nat} {t : Tran} {s : State} (h : Only ps s0_ s) :
    Only ps s0_ (sendReady p t s) := by
  unfold sendReady
  try dsimp only
  repeat' first
    | (with_reducible assumption)
    | (with_reducible apply sayCtl_only (within rfl hl))
    | (with_reducible apply sayVdm_only (within rfl hl))
    | (with_reducible apply updFw_only (within rfl hl))
    | (with_reducible apply Only.ite)
    | (with_reducible apply Only.ite2)

end Sys2Proof.Machine
end

