-- ==== Sys2Proof/Laws/OnlyFwEvent.lean ====
section
/-! SUPPORT. Footprints of the operations of Machine/FwEvent.lean: the parts of the state each may change. -/
namespace Sys2Proof.Machine

theorem sendCable_only {ps : List Part} (hl : Part.le [.regs, .mem, .ecc, .phy, .hub, .fw, .pan, .chan, .ceSecond, .log, .fresh] ps = true) {s0_ : State} {p : Nat} {s : State} (h : Only ps s0_ s) :
    Only ps s0_ (sendCable p s) := by
  unfold sendCable
  try dsimp only
  repeat' first
    | (with_reducible assumption)
    | (with_reducible apply say_only (within rfl hl))
    | (with_reducible apply updFw_only (within rfl hl))

theorem atSafe5v_only {ps : List Part} (hl : Part.le [.regs, .prec, .mem, .ecc, .port, .mir, .phy, .hub, .fw, .ctx, .pan, .opq, .chan, .ceSecond, .log, .fresh] ps = true) {s0_ : State} {p : Nat} {s : State} (h : Only ps s0_ s) :
    Only ps s0_ (atSafe5v p s) := by
  unfold atSafe5v
  try dsimp only
  repeat' first
    | (with_reducible assumption)
    | (with_reducible apply armNoResponse_only (within rfl hl))
    | (with_reducible apply recordContract_only (within rfl hl))
    | (with_reducible apply sendCable_only (within rfl hl))
    | (with_reducible apply sendCaps_only (within rfl hl))
    | (with_reducible apply updFw_only (within rfl hl))
    | (with_reducible apply Only.ite)
    | (with_reducible apply Only.ite2)

theorem shedSeen_only {ps : List Part} (hl : Part.le [.regs, .hub, .fw, .ctx, .chan] ps = true) {s0_ : State} {p : Nat} {s : State} (h : Only ps s0_ s) :
    Only ps s0_ (shedSeen p s) := by
  unfold shedSeen
  try dsimp only
  repeat' first
    | (with_reducible assumption)
    | (with_reducible apply fwRelease_only (within rfl hl))
    | (with_reducible apply updFw_only (within rfl hl))
    | (with_reducible apply waitFor_only (within rfl hl))

theorem fwResult_only {ps : List Part} (hl : Part.le [.regs, .prec, .mem, .ecc, .xat, .port, .mir, .phy, .hub, .fw, .ctx, .pan, .opq, .chan, .ceSecond, .log, .fresh] ps = true) {s0_ : State} {c : Nat} {e : CqEntry} {s : State} (h : Only ps s0_ s) :
    Only ps s0_ (fwResult c e s) := by
  unfold fwResult
  try dsimp only
  repeat' first
    | (with_reducible assumption)
    | (with_reducible apply arm_only (within rfl hl))
    | (with_reducible apply atSafe5v_only (within rfl hl))
    | (with_reducible apply fwHardReset_only (within rfl hl))
    | (with_reducible apply sayCtl_only (within rfl hl))
    | (with_reducible apply shedSeen_only (within rfl hl))
    | (with_reducible apply updFw_only (within rfl hl))
    | (with_reducible apply Only.ite)
    | (with_reducible apply Only.ite2)
    | split
    | dsimp only

theorem drainCq_only {ps : List Part} (hl : Part.le [.regs, .prec, .mem, .ecc, .xat, .port, .mir, .phy, .hub, .fw, .ctx, .pan, .opq, .chan, .ceSecond, .log, .fresh] ps = true) {s0_ : State} {c n : Nat} {s : State} (h : Only ps s0_ s) :
    Only ps s0_ (drainCq c n s) := by
  induction n generalizing s with
  | zero => exact h
  | succ n ih =>
    rw [drainCq]
    split
    · exact h
    · exact Only.ite h (ih (fwResult_only (within rfl hl) (readCq_only (within rfl hl) h)))

theorem setHvst_only {ps : List Part} (hl : Part.le [.port, .mir, .hub] ps = true) {s0_ : State} {p : Nat} {l : List (Fld × Nat)} {s : State} (h : Only ps s0_ s) :
    Only ps s0_ (setHvst p l s) := by
  unfold setHvst
  try dsimp only
  repeat' first
    | (with_reducible assumption)
    | (with_reducible apply writeHvst_only (within rfl hl))
    | (with_reducible apply Only.foldl)
    | (with_reducible intro _)
    | dsimp only

theorem exitMode_only {ps : List Part} (hl : Part.le [.port, .mir, .hub, .fw, .ctx] ps = true) {s0_ : State} {p : Nat} {s : State} (h : Only ps s0_ s) :
    Only ps s0_ (exitMode p s) := by
  unfold exitMode
  try dsimp only
  repeat' first
    | (with_reducible assumption)
    | (with_reducible apply setHvst_only (within rfl hl))
    | (with_reducible apply updFw_only (within rfl hl))
    | (with_reducible apply waitFor_only (within rfl hl))

theorem swapAccept_only {ps : List Part} (hl : Part.le [.regs, .mem, .ecc, .xat, .phy, .hub, .fw, .ctx, .pan, .opq, .chan, .ceSecond, .log, .fresh] ps = true) {s0_ : State} {p : Nat} {s : State} (h : Only ps s0_ s) :
    Only ps s0_ (swapAccept p s) := by
  unfold swapAccept
  try dsimp only
  repeat' first
    | (with_reducible assumption)
    | (with_reducible apply arm_only (within rfl hl))
    | (with_reducible apply fwHardReset_only (within rfl hl))
    | (with_reducible apply pushArgs_only (within rfl hl))
    | (with_reducible apply sayCtl_only (within rfl hl))
    | (with_reducible apply updFw_only (within rfl hl))
    | (with_reducible apply Only.ite)
    | (with_reducible apply Only.ite2)

theorem fwBound_only {ps : List Part} (hl : Part.le [.regs, .mem, .ecc, .xat, .port, .mir, .phy, .hub, .fw, .ctx, .pan, .opq, .chan, .ceSecond, .log, .fresh] ps = true) {s0_ : State} {p : Nat} {alloc : Bool} {s : State} (h : Only ps s0_ s) :
    Only ps s0_ (fwBound p alloc s) := by
  unfold fwBound
  try dsimp only
  repeat' first
    | (with_reducible assumption)
    | (with_reducible apply arm_only (within rfl hl))
    | (with_reducible apply exitMode_only (within rfl hl))
    | (with_reducible apply sayCtl_only (within rfl hl))
    | (with_reducible apply sendCaps_only (within rfl hl))
    | (with_reducible apply sendOffer_only (within rfl hl))
    | (with_reducible apply swapAccept_only (within rfl hl))
    | (with_reducible apply tryTurnOn_only (within rfl hl))
    | (with_reducible apply updFw_only (within rfl hl))
    | (with_reducible apply Only.ite)
    | (with_reducible apply Only.ite2)
    | split
    | dsimp only

theorem putChain_only {ps : List Part} (hl : Part.le [.regs, .pan] ps = true) {s0_ : State} {c : Nat} {i : Nat} {s : State} (h : Only ps s0_ s) :
    Only ps s0_ (putChain c i s) := by
  unfold putChain
  try dsimp only
  repeat' first
    | (with_reducible assumption)
    | (with_reducible apply panPut_only (within rfl hl))
    | (with_reducible apply forEach_only)
    | (with_reducible intro _)
    | dsimp only

theorem setHstate_only {ps : List Part} (hl : Part.le [.port, .mir, .hub] ps = true) {s0_ : State} {p : Nat} {n : Nat} {s : State} (h : Only ps s0_ s) :
    Only ps s0_ (setHstate p n s) := by
  unfold setHstate
  try dsimp only
  repeat' first
    | (with_reducible assumption)
    | (with_reducible apply setHvst_only (within rfl hl))

theorem settleCtx_only {ps : List Part} (hl : Part.le [.regs, .mem, .ecc, .xat, .phy, .hub, .fw, .ctx, .pan, .chan, .ceSecond, .log, .fresh] ps = true) {s0_ : State} {p : Nat} {s : State} (h : Only ps s0_ s) :
    Only ps s0_ (settleCtx p s) := by
  unfold settleCtx
  try dsimp only
  repeat' first
    | (with_reducible assumption)
    | (with_reducible apply fwRelease_only (within rfl hl))
    | (with_reducible apply reAdvertise_only (within rfl hl))
    | (with_reducible apply updFw_only (within rfl hl))
    | (with_reducible apply Only.ite)
    | (with_reducible apply Only.ite2)

theorem watchPps_only {ps : List Part} (hl : Part.le [.regs, .dieRegs, .phy] ps = true) {s0_ : State} {p : Nat} {s : State} (h : Only ps s0_ s) :
    Only ps s0_ (watchPps p s) := by
  unfold watchPps
  try dsimp only
  repeat' first
    | (with_reducible assumption)
    | (with_reducible apply writeKa_only (within rfl hl))

theorem contractMade_only {ps : List Part} (hl : Part.le [.regs, .dieRegs, .prec, .mem, .ecc, .xat, .port, .mir, .phy, .hub, .fw, .ctx, .pan, .opq, .chan, .ceSecond, .log, .fresh] ps = true) {s0_ : State} {p : Nat} {t : Tran} {s : State} (h : Only ps s0_ s) :
    Only ps s0_ (contractMade p t s) := by
  unfold contractMade
  try dsimp only
  repeat' first
    | (with_reducible assumption)
    | (with_reducible apply exitMode_only (within rfl hl))
    | (with_reducible apply fwAlloc_only (within rfl hl))
    | (with_reducible apply recordContract_only (within rfl hl))
    | (with_reducible apply say_only (within rfl hl))
    | (with_reducible apply setHstate_only (within rfl hl))
    | (with_reducible apply settleCtx_only (within rfl hl))
    | (with_reducible apply updFw_only (within rfl hl))
    | (with_reducible apply watchPps_only (within rfl hl))
    | (with_reducible apply writeKa_only (within rfl hl))
    | (with_reducible apply Only.ite)
    | (with_reducible apply Only.ite2)

theorem discFail_only {ps : List Part} (hl : Part.le [.regs, .mem, .ecc, .xat, .port, .mir, .phy, .hub, .fw, .ctx, .pan, .chan, .ceSecond, .log, .fresh] ps = true) {s0_ : State} {p : Nat} {s : State} (h : Only ps s0_ s) :
    Only ps s0_ (discFail p s) := by
  unfold discFail
  try dsimp only
  repeat' first
    | (with_reducible assumption)
    | (with_reducible apply fwHardReset_only (within rfl hl))
    | (with_reducible apply setHstate_only (within rfl hl))
    | (with_reducible apply settleCtx_only (within rfl hl))
    | (with_reducible apply updFw_only (within rfl hl))
    | (with_reducible apply Only.ite)
    | (with_reducible apply Only.ite2)

theorem sendDisc_only {ps : List Part} (hl : Part.le [.regs, .mem, .ecc, .phy, .hub, .fw, .pan, .chan, .ceSecond, .log, .fresh] ps = true) {s0_ : State} {p : Nat} {d : Disc} {s : State} (h : Only ps s0_ s) :
    Only ps s0_ (sendDisc p d s) := by
  unfold sendDisc
  try dsimp only
  repeat' first
    | (with_reducible assumption)
    | (with_reducible apply sayVdm_only (within rfl hl))
    | (with_reducible apply updFw_only (within rfl hl))
    | split
    | dsimp only

theorem discMiss_only {ps : List Part} (hl : Part.le [.regs, .mem, .ecc, .xat, .port, .mir, .phy, .hub, .fw, .ctx, .pan, .chan, .ceSecond, .log, .fresh] ps = true) {s0_ : State} {p : Nat} {busy : Bool} {s : State} (h : Only ps s0_ s) :
    Only ps s0_ (discMiss p busy s) := by
  unfold discMiss
  try dsimp only
  repeat' first
    | (with_reducible assumption)
    | (with_reducible apply arm_only (within rfl hl))
    | (with_reducible apply discFail_only (within rfl hl))
    | (with_reducible apply sendDisc_only (within rfl hl))
    | (with_reducible apply updFw_only (within rfl hl))
    | (with_reducible apply Only.ite)
    | (with_reducible apply Only.ite2)

theorem exitDone_only {ps : List Part} (hl : Part.le [.regs, .mem, .ecc, .xat, .port, .mir, .phy, .hub, .fw, .ctx, .pan, .chan, .ceSecond, .log, .fresh] ps = true) {s0_ : State} {p : Nat} {s : State} (h : Only ps s0_ s) :
    Only ps s0_ (exitDone p s) := by
  unfold exitDone
  try dsimp only
  repeat' first
    | (with_reducible assumption)
    | (with_reducible apply setHstate_only (within rfl hl))
    | (with_reducible apply settleCtx_only (within rfl hl))
    | (with_reducible apply updFw_only (within rfl hl))
    | (with_reducible apply waitFor_only (within rfl hl))

theorem firstCaps_only {ps : List Part} (hl : Part.le [.regs, .mem, .ecc, .phy, .hub, .fw, .pan, .chan, .ceSecond, .log, .fresh] ps = true) {s0_ : State} {p : Nat} {s : State} (h : Only ps s0_ s) :
    Only ps s0_ (firstCaps p s) := by
  unfold firstCaps
  try dsimp only
  repeat' first
    | (with_reducible assumption)
    | (with_reducible apply sendCaps_only (within rfl hl))
    | (with_reducible apply Only.ite)
    | (with_reducible apply Only.ite2)

theorem hcapsMiss_only {ps : List Part} (hl : Part.le [.regs, .mem, .ecc, .xat, .phy, .hub, .fw, .ctx, .pan, .chan, .ceSecond, .log, .fresh] ps = true) {s0_ : State} {p : Nat} {s : State} (h : Only ps s0_ s) :
    Only ps s0_ (hcapsMiss p s) := by
  unfold hcapsMiss
  try dsimp only
  repeat' first
    | (with_reducible assumption)
    | (with_reducible apply sendHcaps_only (within rfl hl))
    | (with_reducible apply settleCtx_only (within rfl hl))
    | (with_reducible apply waitFor_only (within rfl hl))
    | (with_reducible apply Only.ite)
    | (with_reducible apply Only.ite2)

theorem leaveEpr_only {ps : List Part} (hl : Part.le [.regs, .dieRegs, .phy, .fw] ps = true) {s0_ : State} {p : Nat} {s : State} (h : Only ps s0_ s) :
    Only ps s0_ (leaveEpr p s) := by
  unfold leaveEpr
  try dsimp only
  repeat' first
    | (with_reducible assumption)
    | (with_reducible apply updFw_only (within rfl hl))
    | (with_reducible apply watchPps_only (within rfl hl))
    | (with_reducible apply writeKa_only (within rfl hl))
    | (with_reducible apply Only.ite)
    | (with_reducible apply Only.ite2)

theorem noTransition_only {ps : List Part} (hl : Part.le [.regs, .prec, .ecc, .port, .mir, .hub, .fw, .opq, .chan, .log, .fresh] ps = true) {s0_ : State} {p : Nat} {s : State} (h : Only ps s0_ s) :
    Only ps s0_ (noTransition p s) := by
  unfold noTransition
  try dsimp only
  repeat' first
    | (with_reducible assumption)
    | (with_reducible apply requestedBack_only (within rfl hl))
    | (with_reducible apply updFw_only (within rfl hl))

theorem offerHeavy_only {ps : List Part} (hl : Part.le [.regs, .mem, .ecc, .xat, .phy, .hub, .fw, .ctx, .pan, .chan, .ceSecond, .log, .fresh] ps = true) {s0_ : State} {p : Nat} {s : State} (h : Only ps s0_ s) :
    Only ps s0_ (offerHeavy p s) := by
  unfold offerHeavy
  try dsimp only
  repeat' first
    | (with_reducible assumption)
    | (with_reducible apply fwAlloc_only (within rfl hl))
    | (with_reducible apply sendHcaps_only (within rfl hl))
    | (with_reducible apply updFw_only (within rfl hl))
    | (with_reducible apply Only.ite)
    | (with_reducible apply Only.ite2)

theorem openTransition_only {ps : List Part} (hl : Part.le [.fw, .ctx] ps = true) {s0_ : State} {p : Nat} {s : State} (h : Only ps s0_ s) :
    Only ps s0_ (openTransition p s) := by
  unfold openTransition
  try dsimp only
  repeat' first
    | (with_reducible assumption)
    | (with_reducible apply arm_only (within rfl hl))
    | (with_reducible apply Only.ite)
    | (with_reducible apply Only.ite2)
    | split
    | dsimp only

theorem sayDropped_only {ps : List Part} (hl : Part.le [.regs, .mem, .ecc, .phy, .hub, .fw, .pan, .chan, .ceSecond, .log, .fresh] ps = true) {s0_ : State} {p : Nat} {s : State} (h : Only ps s0_ s) :
    Only ps s0_ (sayDropped p s) := by
  unfold sayDropped
  try dsimp only
  repeat' first
    | (with_reducible assumption)
    | (with_reducible apply sayAgain_only (within rfl hl))
    | (with_reducible apply updFw_only (within rfl hl))
    | (with_reducible apply forEach_only)
    | (with_reducible intro _)
    | dsimp only

theorem sendSoftReset_only {ps : List Part} (hl : Part.le [.regs, .mem, .ecc, .phy, .hub, .fw, .pan, .chan, .ceSecond, .log, .fresh] ps = true) {s0_ : State} {p : Nat} {s : State} (h : Only ps s0_ s) :
    Only ps s0_ (sendSoftReset p s) := by
  unfold sendSoftReset
  try dsimp only
  repeat' first
    | (with_reducible assumption)
    | (with_reducible apply say_only (within rfl hl))
    | (with_reducible apply updFw_only (within rfl hl))

theorem said_only {ps : List Part} (hl : Part.le [.regs, .dieRegs, .prec, .mem, .ecc, .xat, .port, .mir, .phy, .hub, .fw, .ctx, .pan, .opq, .chan, .ceSecond, .log, .fresh] ps = true) {s0_ : State} {p : Nat} {w : Say} {k : EvKind} {s : State} (h : Only ps s0_ s) :
    Only ps s0_ (said p w k s) := by
  unfold said
  try dsimp only
  repeat' first
    | (with_reducible assumption)
    | (with_reducible apply arm_only (within rfl hl))
    | (with_reducible apply contractMade_only (within rfl hl))
    | (with_reducible apply discMiss_only (within rfl hl))
    | (with_reducible apply exitDone_only (within rfl hl))
    | (with_reducible apply firstCaps_only (within rfl hl))
    | (with_reducible apply fwHardReset_only (within rfl hl))
    | (with_reducible apply fwRelease_only (within rfl hl))
    | (with_reducible apply hcapsMiss_only (within rfl hl))
    | (with_reducible apply leaveEpr_only (within rfl hl))
    | (with_reducible apply noTransition_only (within rfl hl))
    | (with_reducible apply offerHeavy_only (within rfl hl))
    | (with_reducible apply openTransition_only (within rfl hl))
    | (with_reducible apply say_only (within rfl hl))
    | (with_reducible apply sayDropped_only (within rfl hl))
    | (with_reducible apply sendCaps_only (within rfl hl))
    | (with_reducible apply sendSoftReset_only (within rfl hl))
    | (with_reducible apply updFw_only (within rfl hl))
    | (with_reducible apply waitFor_only (within rfl hl))
    | (with_reducible apply writeKa_only (within rfl hl))
    | (with_reducible apply Only.ite)
    | (with_reducible apply Only.ite2)
    | split
    | dsimp only

theorem fwEvent_only {ps : List Part} (hl : Part.le [.regs, .dieRegs, .prec, .mem, .ecc, .xat, .port, .mir, .phy, .hub, .fw, .ctx, .pan, .opq, .chan, .ceSecond, .log, .fresh] ps = true) {s0_ : State} {c : Nat} {e : EvEntry} {s : State} (h : Only ps s0_ s) :
    Only ps s0_ (fwEvent c e s) := by
  unfold fwEvent
  try dsimp only
  repeat' first
    | (with_reducible assumption)
    | (with_reducible apply fwBound_only (within rfl hl))
    | (with_reducible apply putChain_only (within rfl hl))
    | (with_reducible apply releaseCtx_only (within rfl hl))
    | (with_reducible apply said_only (within rfl hl))
    | (with_reducible apply updFw_only (within rfl hl))
    | (with_reducible apply Only.ite)
    | (with_reducible apply Only.ite2)
    | split
    | dsimp only

theorem drainEv_only {ps : List Part} (hl : Part.le [.regs, .dieRegs, .prec, .mem, .ecc, .xat, .port, .mir, .phy, .hub, .fw, .ctx, .pan, .opq, .chan, .ceSecond, .log, .fresh] ps = true) {s0_ : State} {c n : Nat} {s : State} (h : Only ps s0_ s) :
    Only ps s0_ (drainEv c n s) := by
  induction n generalizing s with
  | zero => exact h
  | succ n ih =>
    rw [drainEv]
    split
    · exact h
    · exact Only.ite h (ih (fwEvent_only (within rfl hl) (readEvq_only (within rfl hl) h)))

theorem fwPrep_only {ps : List Part} (hl : Part.le [.regs, .dieRegs, .prec, .mem, .ecc, .xat, .port, .mir, .phy, .hub, .fw, .ctx, .pan, .opq, .chan, .ceSecond, .log, .fresh] ps = true) {s0_ : State} {c : Nat} {s : State} (h : Only ps s0_ s) :
    Only ps s0_ (fwPrep c s) := by
  unfold fwPrep
  try dsimp only
  repeat' first
    | (with_reducible assumption)
    | (with_reducible apply drainCq_only (within rfl hl))
    | (with_reducible apply drainEv_only (within rfl hl))
    | (with_reducible apply fwPortEvents_only (within rfl hl))
    | (with_reducible apply forEach_only)
    | (with_reducible intro _)
    | dsimp only

theorem discNext_only {ps : List Part} (hl : Part.le [.regs, .mem, .ecc, .phy, .hub, .fw, .pan, .chan, .ceSecond, .log, .fresh] ps = true) {s0_ : State} {p : Nat} {d : Disc} {s : State} (h : Only ps s0_ s) :
    Only ps s0_ (discNext p d s) := by
  unfold discNext
  try dsimp only
  repeat' first
    | (with_reducible assumption)
    | (with_reducible apply sendDisc_only (within rfl hl))
    | (with_reducible apply updFw_only (within rfl hl))

theorem heavyMade_only {ps : List Part} (hl : Part.le [.regs, .prec, .mem, .ecc, .xat, .port, .mir, .phy, .hub, .fw, .ctx, .pan, .opq, .chan, .ceSecond, .log, .fresh] ps = true) {s0_ : State} {p : Nat} {t : Tran} {s : State} (h : Only ps s0_ s) :
    Only ps s0_ (heavyMade p t s) := by
  unfold heavyMade
  try dsimp only
  repeat' first
    | (with_reducible assumption)
    | (with_reducible apply recordContract_only (within rfl hl))
    | (with_reducible apply setHstate_only (within rfl hl))
    | (with_reducible apply settleCtx_only (within rfl hl))
    | (with_reducible apply updFw_only (within rfl hl))
    | (with_reducible apply waitFor_only (within rfl hl))

theorem keepDropped_only {ps : List Part} (hl : Part.le [.regs, .prec, .ecc, .port, .mir, .hub, .fw, .opq, .chan, .log, .fresh] ps = true) {s0_ : State} {p : Nat} {s : State} (h : Only ps s0_ s) :
    Only ps s0_ (keepDropped p s) := by
  unfold keepDropped
  try dsimp only
  repeat' first
    | (with_reducible assumption)
    | (with_reducible apply noTransition_only (within rfl hl))
    | (with_reducible apply updFw_only (within rfl hl))
    | (with_reducible apply Only.ite)
    | (with_reducible apply Only.ite2)

end Sys2Proof.Machine
end

