-- ==== Sys2Proof/Laws/OnlyFirmware.lean ====
section
/-! SUPPORT. Footprints of the operations of Machine/Firmware.lean: the parts of the state each may change. -/
namespace Sys2Proof.Machine

theorem acceptTran_only {ps : List Part} (hl : Part.le [.regs, .mem, .ecc, .phy, .hub, .fw, .pan, .chan, .ceSecond, .log, .fresh] ps = true) {s0_ : State} {p : Nat} {t : Tran} {s : State} (h : Only ps s0_ s) :
    Only ps s0_ (acceptTran p t s) := by
  unfold acceptTran
  try dsimp only
  repeat' first
    | (with_reducible assumption)
    | (with_reducible apply sayCtl_only (within rfl hl))
    | (with_reducible apply updFw_only (within rfl hl))

theorem afterCommit_only {ps : List Part} (hl : Part.le [.regs, .dieRegs, .prec, .mem, .ecc, .xat, .port, .mir, .phy, .hub, .fw, .ctx, .pan, .opq, .chan, .ceSecond, .log, .fresh] ps = true) {s0_ : State} {c : Nat} {s : State} (h : Only ps s0_ s) :
    Only ps s0_ (afterCommit c s) := by
  unfold afterCommit
  try dsimp only
  repeat' first
    | (with_reducible assumption)
    | (with_reducible apply fwPrep_only (within rfl hl))
    | (with_reducible apply reAdvertise_only (within rfl hl))
    | (with_reducible apply tryTurnOn_only (within rfl hl))
    | (with_reducible apply forEach_only)
    | (with_reducible intro _)
    | (with_reducible apply Only.ite)
    | (with_reducible apply Only.ite2)
    | dsimp only

theorem answerCtl_only {ps : List Part} (hl : Part.le [.regs, .mem, .ecc, .phy, .hub, .fw, .ctx, .pan, .chan, .ceSecond, .log, .fresh] ps = true) {s0_ : State} {p : Nat} {t : Nat} {s : State} (h : Only ps s0_ s) :
    Only ps s0_ (answerCtl p t s) := by
  unfold answerCtl
  try dsimp only
  repeat' first
    | (with_reducible assumption)
    | (with_reducible apply say_only (within rfl hl))
    | (with_reducible apply sayCtl_only (within rfl hl))
    | (with_reducible apply sendCaps_only (within rfl hl))
    | (with_reducible apply sendSoftReset_only (within rfl hl))
    | (with_reducible apply updFw_only (within rfl hl))
    | (with_reducible apply waitFor_only (within rfl hl))
    | (with_reducible apply Only.ite)
    | (with_reducible apply Only.ite2)
    | split
    | dsimp only

theorem answerVdm_only {ps : List Part} (hl : Part.le [.regs, .prec, .mem, .ecc, .port, .mir, .phy, .hub, .fw, .pan, .opq, .chan, .ceSecond, .log, .fresh] ps = true) {s0_ : State} {p : Nat} {m : List Byte} {s : State} (h : Only ps s0_ s) :
    Only ps s0_ (answerVdm p m s) := by
  unfold answerVdm
  try dsimp only
  repeat' first
    | (with_reducible assumption)
    | (with_reducible apply countUnanswered_only (within rfl hl))
    | (with_reducible apply say_only (within rfl hl))
    | (with_reducible apply Only.ite)
    | (with_reducible apply Only.ite2)

theorem answerMsg_only {ps : List Part} (hl : Part.le [.regs, .prec, .mem, .ecc, .port, .mir, .phy, .hub, .fw, .ctx, .pan, .opq, .chan, .ceSecond, .log, .fresh] ps = true) {s0_ : State} {p : Nat} {m : List Byte} {s : State} (h : Only ps s0_ s) :
    Only ps s0_ (answerMsg p m s) := by
  unfold answerMsg
  try dsimp only
  repeat' first
    | (with_reducible assumption)
    | (with_reducible apply answerCtl_only (within rfl hl))
    | (with_reducible apply answerVdm_only (within rfl hl))
    | (with_reducible apply countUnanswered_only (within rfl hl))
    | (with_reducible apply say_only (within rfl hl))
    | (with_reducible apply sayCtl_only (within rfl hl))
    | (with_reducible apply Only.ite)
    | (with_reducible apply Only.ite2)
    | split
    | dsimp only

theorem eprMode_only {ps : List Part} (hl : Part.le [.regs, .dieRegs, .prec, .mem, .ecc, .port, .mir, .phy, .hub, .fw, .pan, .opq, .chan, .ceSecond, .log, .fresh] ps = true) {s0_ : State} {p : Nat} {m : List Byte} {s : State} (h : Only ps s0_ s) :
    Only ps s0_ (eprMode p m s) := by
  unfold eprMode
  try dsimp only
  repeat' first
    | (with_reducible assumption)
    | (with_reducible apply countUnanswered_only (within rfl hl))
    | (with_reducible apply leaveEpr_only (within rfl hl))
    | (with_reducible apply say_only (within rfl hl))
    | (with_reducible apply sendCaps_only (within rfl hl))
    | (with_reducible apply Only.ite)
    | (with_reducible apply Only.ite2)
    | split
    | dsimp only

theorem reject_only {ps : List Part} (hl : Part.le [.regs, .mem, .ecc, .phy, .hub, .fw, .pan, .chan, .ceSecond, .log, .fresh] ps = true) {s0_ : State} {p : Nat} {s : State} (h : Only ps s0_ s) :
    Only ps s0_ (reject p s) := by
  unfold reject
  try dsimp only
  repeat' first
    | (with_reducible assumption)
    | (with_reducible apply sayCtl_only (within rfl hl))

theorem evalRequest_only {ps : List Part} (hl : Part.le [.regs, .prec, .mem, .ecc, .xat, .port, .mir, .phy, .hub, .fw, .ctx, .pan, .opq, .chan, .ceSecond, .log, .fresh] ps = true) {s0_ : State} {p : Nat} {m : List Byte} {s : State} (h : Only ps s0_ s) :
    Only ps s0_ (evalRequest p m s) := by
  unfold evalRequest
  try dsimp only
  repeat' first
    | (with_reducible assumption)
    | (with_reducible apply acceptTran_only (within rfl hl))
    | (with_reducible apply armNoResponse_only (within rfl hl))
    | (with_reducible apply fwAlloc_only (within rfl hl))
    | (with_reducible apply reAdvertise_only (within rfl hl))
    | (with_reducible apply reject_only (within rfl hl))
    | (with_reducible apply updFw_only (within rfl hl))
    | (with_reducible apply waitFor_only (within rfl hl))
    | (with_reducible apply writeRequested_only (within rfl hl))
    | (with_reducible apply Only.ite)
    | (with_reducible apply Only.ite2)

theorem fwDo_only {ps : List Part} (hl : Part.le [] ps = true) {s0_ : State} {p : Nat} {f : State → State} {s : State} (h : Only ps s0_ s) (h_f : ∀ (u0 : State), Only ps s0_ u0 → Only ps s0_ (f u0)) :
    Only ps s0_ (fwDo p f s) := by
  unfold fwDo
  try dsimp only
  repeat' first
    | (with_reducible assumption)
    | (with_reducible apply h_f)
    | (with_reducible intro _)
    | (with_reducible apply Only.ite)
    | (with_reducible apply Only.ite2)
    | dsimp only

theorem mbxAnswer_only {ps : List Part} (hl : Part.le [.regs, .mem, .ecc, .crs, .mbx, .lnk, .twm, .ceSecond, .log] ps = true) {s0_ : State} {c : Nat} {i : Nat} {l : List Byte} {s : State} (h : Only ps s0_ s) :
    Only ps s0_ (mbxAnswer c i l s) := by
  unfold mbxAnswer
  try dsimp only
  repeat' first
    | (with_reducible assumption)
    | (with_reducible apply mbxDone_only (within rfl hl))
    | (with_reducible apply setBytes_only (within rfl hl))

theorem mbxCmd_only {ps : List Part} (hl : Part.le [.regs, .mem, .ecc, .crs, .mbx, .lnk, .twm, .ceSecond, .log] ps = true) {s0_ : State} {c : Nat} {op : Nat} {len : Nat} {act : Nat → List Byte → State → List Byte × State} {s : State} (h : Only ps s0_ s) (h_act : ∀ (u0 : Nat) (u1 : List Byte) (u2 : State), Only ps s0_ u2 → Only ps s0_ (act u0 u1 u2).2) :
    Only ps s0_ (mbxCmd c op len act s) := by
  unfold mbxCmd
  try dsimp only
  repeat' first
    | (with_reducible assumption)
    | (with_reducible apply h_act)
    | (with_reducible apply mbxAnswer_only (within rfl hl))
    | (with_reducible apply mbxTake_only (within rfl hl))
    | (with_reducible intro _)
    | (with_reducible apply Only.ite)
    | (with_reducible apply Only.ite2)
    | split
    | dsimp only

theorem mbxRow_only {ps : List Part} (hl : Part.le [.regs, .dieRegs, .prec, .mem, .ecc, .xat, .port, .mir, .phy, .hub, .fw, .ctx, .pan, .opq, .chan, .ceSecond, .log, .fresh] ps = true) {s0_ : State} {c : Nat} {f : State → State} {s : State} (h : Only ps s0_ s) (h_f : ∀ (u0 : State), Only ps s0_ u0 → Only ps s0_ (f u0)) :
    Only ps s0_ (mbxRow c f s) := by
  unfold mbxRow
  try dsimp only
  repeat' first
    | (with_reducible assumption)
    | (with_reducible apply h_f)
    | (with_reducible apply fwPrep_only (within rfl hl))
    | (with_reducible intro _)
    | (with_reducible apply Only.ite)
    | (with_reducible apply Only.ite2)
    | dsimp only

theorem noResponse_only {ps : List Part} (hl : Part.le [.regs, .mem, .ecc, .xat, .phy, .hub, .fw, .ctx, .pan, .chan, .ceSecond, .log, .fresh] ps = true) {s0_ : State} {p : Nat} {s : State} (h : Only ps s0_ s) :
    Only ps s0_ (noResponse p s) := by
  unfold noResponse
  try dsimp only
  repeat' first
    | (with_reducible assumption)
    | (with_reducible apply fwHardReset_only (within rfl hl))
    | (with_reducible apply fwRelease_only (within rfl hl))
    | (with_reducible apply updFw_only (within rfl hl))
    | (with_reducible apply Only.ite)
    | (with_reducible apply Only.ite2)

theorem takeHead_only {ps : List Part} (hl : Part.le [.regs, .hub, .ctx, .pan, .chan] ps = true) {s0_ : State} {c : Nat} {e : EvEntry} {s : State} (h : Only ps s0_ s) :
    Only ps s0_ (takeHead c e s) := by
  unfold takeHead
  try dsimp only
  repeat' first
    | (with_reducible assumption)
    | (with_reducible apply putChain_only (within rfl hl))
    | (with_reducible apply readEvq_only (within rfl hl))
    | (with_reducible apply Only.ite)
    | (with_reducible apply Only.ite2)

theorem onRow_only {ps : List Part} (hl : Part.le [.regs, .dieRegs, .prec, .mem, .ecc, .xat, .port, .mir, .phy, .hub, .fw, .ctx, .pan, .opq, .chan, .ceSecond, .log, .fresh] ps = true) {s0_ : State} {p : Nat} {r : FwRow} {act : EvEntry → List Byte → State → State} {other : State → State} {s : State} (h : Only ps s0_ s) (h_act : ∀ (u0 : EvEntry) (u1 : List Byte) (u2 : State), Only ps s0_ u2 → Only ps s0_ (act u0 u1 u2)) (h_other : ∀ (u0 : State), Only ps s0_ u0 → Only ps s0_ (other u0)) :
    Only ps s0_ (onRow p r act other s) := by
  unfold onRow
  try dsimp only
  repeat' first
    | (with_reducible assumption)
    | (with_reducible apply h_act)
    | (with_reducible apply h_other)
    | (with_reducible apply fwHardReset_only (within rfl hl))
    | (with_reducible apply fwPrep_only (within rfl hl))
    | (with_reducible apply keepDropped_only (within rfl hl))
    | (with_reducible apply sayDropped_only (within rfl hl))
    | (with_reducible apply takeHead_only (within rfl hl))
    | (with_reducible intro _)
    | (with_reducible apply Only.ite)
    | (with_reducible apply Only.ite2)
    | split
    | dsimp only

theorem onWait_only {ps : List Part} (hl : Part.le [.regs, .dieRegs, .prec, .mem, .ecc, .xat, .port, .mir, .phy, .hub, .fw, .ctx, .pan, .opq, .chan, .ceSecond, .log, .fresh] ps = true) {s0_ : State} {p : Nat} {r : FwRow} {act : Wait → State → State} {s : State} (h : Only ps s0_ s) (h_act : ∀ (u0 : Wait) (u1 : State), Only ps s0_ u1 → Only ps s0_ (act u0 u1)) :
    Only ps s0_ (onWait p r act s) := by
  unfold onWait
  try dsimp only
  repeat' first
    | (with_reducible assumption)
    | (with_reducible apply h_act)
    | (with_reducible apply onRow_only (within rfl hl))
    | (with_reducible apply updFw_only (within rfl hl))
    | (with_reducible intro _)
    | (with_reducible apply Only.ite)
    | (with_reducible apply Only.ite2)
    | dsimp only

theorem reneg_only {ps : List Part} (hl : Part.le [.regs, .mem, .ecc, .xat, .phy, .hub, .fw, .ctx, .pan, .chan, .ceSecond, .log, .fresh] ps = true) {s0_ : State} {p : Nat} {s : State} (h : Only ps s0_ s) :
    Only ps s0_ (reneg p s).2 := by
  unfold reneg
  try dsimp only
  repeat' first
    | (with_reducible assumption)
    | (with_reducible apply reAdvertise_only (within rfl hl))
    | (with_reducible apply Only.ite)
    | (with_reducible apply Only.ite2)

theorem senderTimeout_only {ps : List Part} (hl : Part.le [.regs, .mem, .ecc, .xat, .phy, .hub, .fw, .ctx, .pan, .chan, .ceSecond, .log, .fresh] ps = true) {s0_ : State} {p : Nat} {u : Wait} {s : State} (h : Only ps s0_ s) :
    Only ps s0_ (senderTimeout p u s) := by
  unfold senderTimeout
  try dsimp only
  repeat' first
    | (with_reducible assumption)
    | (with_reducible apply arm_only (within rfl hl))
    | (with_reducible apply fwHardReset_only (within rfl hl))
    | (with_reducible apply Only.ite)
    | (with_reducible apply Only.ite2)

theorem stepResult_only {ps : List Part} (hl : Part.le [.regs, .mem, .ecc, .xat, .phy, .hub, .fw, .ctx, .pan, .opq, .chan, .ceSecond, .log, .fresh] ps = true) {s0_ : State} {p : Nat} {t : Tran} {r : OpResult} {s : State} (h : Only ps s0_ s) :
    Only ps s0_ (stepResult p t r s) := by
  unfold stepResult
  try dsimp only
  repeat' first
    | (with_reducible assumption)
    | (with_reducible apply fwHardReset_only (within rfl hl))
    | (with_reducible apply pushStep_only (within rfl hl))
    | (with_reducible apply sendReady_only (within rfl hl))
    | (with_reducible apply updFw_only (within rfl hl))
    | (with_reducible apply Only.ite)
    | (with_reducible apply Only.ite2)
    | split
    | dsimp only

theorem stepPush_only {ps : List Part} (hl : Part.le [.regs, .dieRegs, .prec, .mem, .ecc, .xat, .port, .mir, .phy, .hub, .fw, .ctx, .pan, .opq, .chan, .ceSecond, .log, .fresh] ps = true) {s0_ : State} {p : Nat} {s : State} (h : Only ps s0_ s) :
    Only ps s0_ (stepPush p s) := by
  unfold stepPush
  try dsimp only
  repeat' first
    | (with_reducible assumption)
    | (with_reducible apply fwPrep_only (within rfl hl))
    | (with_reducible apply pushStep_only (within rfl hl))
    | (with_reducible apply readCq_only (within rfl hl))
    | (with_reducible apply stepResult_only (within rfl hl))
    | (with_reducible apply Only.ite)
    | (with_reducible apply Only.ite2)
    | split
    | dsimp only

theorem swapAsked_only {ps : List Part} (hl : Part.le [.regs, .mem, .ecc, .xat, .phy, .hub, .fw, .ctx, .pan, .opq, .chan, .ceSecond, .log, .fresh] ps = true) {s0_ : State} {p : Nat} {s : State} (h : Only ps s0_ s) :
    Only ps s0_ (swapAsked p s) := by
  unfold swapAsked
  try dsimp only
  repeat' first
    | (with_reducible assumption)
    | (with_reducible apply fwAlloc_only (within rfl hl))
    | (with_reducible apply sayCtl_only (within rfl hl))
    | (with_reducible apply swapAccept_only (within rfl hl))
    | (with_reducible apply updFw_only (within rfl hl))
    | (with_reducible apply Only.ite)
    | (with_reducible apply Only.ite2)

theorem swapReady_only {ps : List Part} (hl : Part.le [.regs, .hub, .fw, .ctx, .opq, .chan, .fresh] ps = true) {s0_ : State} {p : Nat} {s : State} (h : Only ps s0_ s) :
    Only ps s0_ (swapReady p s) := by
  unfold swapReady
  try dsimp only
  repeat' first
    | (with_reducible assumption)
    | (with_reducible apply fwRelease_only (within rfl hl))
    | (with_reducible apply pushArgs_only (within rfl hl))
    | (with_reducible apply updFw_only (within rfl hl))
    | (with_reducible apply waitFor_only (within rfl hl))
    | (with_reducible apply Only.ite)
    | (with_reducible apply Only.ite2)

theorem swapRow_only {ps : List Part} (hl : Part.le [.regs, .mem, .ecc, .xat, .phy, .hub, .fw, .ctx, .pan, .opq, .chan, .ceSecond, .log, .fresh] ps = true) {s0_ : State} {p : Nat} {e : EvEntry} {m : List Byte} {s : State} (h : Only ps s0_ s) :
    Only ps s0_ (swapRow p e m s) := by
  unfold swapRow
  try dsimp only
  repeat' first
    | (with_reducible assumption)
    | (with_reducible apply fwHardReset_only (within rfl hl))
    | (with_reducible apply swapAsked_only (within rfl hl))
    | (with_reducible apply swapReady_only (within rfl hl))
    | (with_reducible apply Only.ite)
    | (with_reducible apply Only.ite2)

theorem transitionExpire_only {ps : List Part} (hl : Part.le [.regs, .mem, .ecc, .xat, .phy, .hub, .fw, .ctx, .pan, .opq, .chan, .ceSecond, .log, .fresh] ps = true) {s0_ : State} {p : Nat} {u : Wait} {s : State} (h : Only ps s0_ s) :
    Only ps s0_ (transitionExpire p u s) := by
  unfold transitionExpire
  try dsimp only
  repeat' first
    | (with_reducible assumption)
    | (with_reducible apply pushStep_only (within rfl hl))
    | (with_reducible apply sendReady_only (within rfl hl))
    | (with_reducible apply Only.ite)
    | (with_reducible apply Only.ite2)
    | split
    | dsimp only

theorem waitAnswer_only {ps : List Part} (hl : Part.le [.regs, .mem, .ecc, .phy, .hub, .fw, .pan, .chan, .ceSecond, .log, .fresh] ps = true) {s0_ : State} {p : Nat} {amsEnd : Bool} {s : State} (h : Only ps s0_ s) :
    Only ps s0_ (waitAnswer p amsEnd s) := by
  unfold waitAnswer
  try dsimp only
  repeat' first
    | (with_reducible assumption)
    | (with_reducible apply cancelCtx_only (within rfl hl))
    | (with_reducible apply sayCtl_only (within rfl hl))
    | (with_reducible apply updFw_only (within rfl hl))

end Sys2Proof.Machine
end

