-- ==== Sys2Proof/Laws/OnlyFwHeavy.lean ====
section
/-! SUPPORT. Footprints of the operations of Machine/FwHeavy.lean: the parts of the state each may change. -/
namespace Sys2Proof.Machine

theorem cableAnswer_only {ps : List Part} (hl : Part.le [.regs, .mem, .ecc, .xat, .phy, .hub, .fw, .ctx, .pan, .chan, .ceSecond, .log, .fresh] ps = true) {s0_ : State} {p : Nat} {m : List Byte} {s : State} (h : Only ps s0_ s) :
    Only ps s0_ (cableAnswer p m s) := by
  unfold cableAnswer
  try dsimp only
  repeat' first
    | (with_reducible assumption)
    | (with_reducible apply reAdvertise_only (within rfl hl))
    | (with_reducible apply sendCaps_only (within rfl hl))
    | (with_reducible apply updFw_only (within rfl hl))
    | (with_reducible apply Only.ite)
    | (with_reducible apply Only.ite2)

theorem cableNext_only {ps : List Part} (hl : Part.le [.regs, .mem, .ecc, .phy, .hub, .fw, .pan, .chan, .ceSecond, .log, .fresh] ps = true) {s0_ : State} {p : Nat} {s : State} (h : Only ps s0_ s) :
    Only ps s0_ (cableNext p s) := by
  unfold cableNext
  try dsimp only
  repeat' first
    | (with_reducible assumption)
    | (with_reducible apply firstCaps_only (within rfl hl))
    | (with_reducible apply sendCable_only (within rfl hl))
    | (with_reducible apply updFw_only (within rfl hl))
    | (with_reducible apply Only.ite)
    | (with_reducible apply Only.ite2)

theorem capsIdle_only {ps : List Part} (hl : Part.le [.regs, .mem, .ecc, .xat, .phy, .hub, .fw, .ctx, .pan, .chan, .ceSecond, .log, .fresh] ps = true) {s0_ : State} {p : Nat} {s : State} (h : Only ps s0_ s) :
    Only ps s0_ (capsIdle p s) := by
  unfold capsIdle
  try dsimp only
  repeat' first
    | (with_reducible assumption)
    | (with_reducible apply reAdvertise_only (within rfl hl))
    | (with_reducible apply Only.ite)
    | (with_reducible apply Only.ite2)

theorem capsRow_only {ps : List Part} (hl : Part.le [.regs, .mem, .ecc, .xat, .phy, .hub, .fw, .ctx, .pan, .chan, .ceSecond, .log, .fresh] ps = true) {s0_ : State} {p : Nat} {e : EvEntry} {x2 : List Byte} {s : State} (h : Only ps s0_ s) :
    Only ps s0_ (capsRow p e x2 s) := by
  unfold capsRow
  try dsimp only
  repeat' first
    | (with_reducible assumption)
    | (with_reducible apply hcapsMiss_only (within rfl hl))
    | (with_reducible apply settleCtx_only (within rfl hl))
    | (with_reducible apply waitFor_only (within rfl hl))
    | (with_reducible apply Only.ite)
    | (with_reducible apply Only.ite2)

theorem testDone_only {ps : List Part} (hl : Part.le [.regs, .mem, .ecc, .xat, .port, .mir, .phy, .hub, .fw, .ctx, .pan, .chan, .ceSecond, .log, .fresh] ps = true) {s0_ : State} {p : Nat} {s : State} (h : Only ps s0_ s) :
    Only ps s0_ (testDone p s) := by
  unfold testDone
  try dsimp only
  repeat' first
    | (with_reducible assumption)
    | (with_reducible apply setHvst_only (within rfl hl))
    | (with_reducible apply settleCtx_only (within rfl hl))
    | (with_reducible apply updFw_only (within rfl hl))

theorem discAck_only {ps : List Part} (hl : Part.le [.regs, .mem, .ecc, .xat, .port, .mir, .phy, .hub, .fw, .ctx, .pan, .chan, .ceSecond, .log, .fresh] ps = true) {s0_ : State} {p : Nat} {m : List Byte} {s : State} (h : Only ps s0_ s) :
    Only ps s0_ (discAck p m s) := by
  unfold discAck
  try dsimp only
  repeat' first
    | (with_reducible assumption)
    | (with_reducible apply discFail_only (within rfl hl))
    | (with_reducible apply discNext_only (within rfl hl))
    | (with_reducible apply exitDone_only (within rfl hl))
    | (with_reducible apply testDone_only (within rfl hl))
    | (with_reducible apply updFw_only (within rfl hl))
    | (with_reducible apply Only.ite)
    | (with_reducible apply Only.ite2)
    | split
    | dsimp only

theorem discStart_only {ps : List Part} (hl : Part.le [.regs, .mem, .ecc, .port, .mir, .phy, .hub, .fw, .pan, .chan, .ceSecond, .log, .fresh] ps = true) {s0_ : State} {p : Nat} {s : State} (h : Only ps s0_ s) :
    Only ps s0_ (discStart p s) := by
  unfold discStart
  try dsimp only
  repeat' first
    | (with_reducible assumption)
    | (with_reducible apply discNext_only (within rfl hl))
    | (with_reducible apply setHstate_only (within rfl hl))
    | (with_reducible apply setHvst_only (within rfl hl))
    | (with_reducible apply updFw_only (within rfl hl))
    | (with_reducible apply Only.ite)
    | (with_reducible apply Only.ite2)

theorem takeRequest_only {ps : List Part} (hl : Part.le [.regs, .xat, .port, .mir, .hub, .fw, .ctx, .chan, .fresh] ps = true) {s0_ : State} {p : Nat} {f : Fld} {g : Fw → Fw} {s : State} (h : Only ps s0_ s) :
    Only ps s0_ (takeRequest p f g s) := by
  unfold takeRequest
  try dsimp only
  repeat' first
    | (with_reducible assumption)
    | (with_reducible apply fwAlloc_only (within rfl hl))
    | (with_reducible apply setHvst_only (within rfl hl))
    | (with_reducible apply updFw_only (within rfl hl))

theorem discIdle_only {ps : List Part} (hl : Part.le [.regs, .mem, .ecc, .xat, .port, .mir, .phy, .hub, .fw, .ctx, .pan, .chan, .ceSecond, .log, .fresh] ps = true) {s0_ : State} {p : Nat} {s : State} (h : Only ps s0_ s) :
    Only ps s0_ (discIdle p s) := by
  unfold discIdle
  try dsimp only
  repeat' first
    | (with_reducible assumption)
    | (with_reducible apply cableNext_only (within rfl hl))
    | (with_reducible apply discStart_only (within rfl hl))
    | (with_reducible apply setHvst_only (within rfl hl))
    | (with_reducible apply takeRequest_only (within rfl hl))
    | (with_reducible apply Only.ite)
    | (with_reducible apply Only.ite2)

theorem discRow_only {ps : List Part} (hl : Part.le [.regs, .mem, .ecc, .xat, .port, .mir, .phy, .hub, .fw, .ctx, .pan, .chan, .ceSecond, .log, .fresh] ps = true) {s0_ : State} {p : Nat} {e : EvEntry} {m : List Byte} {s : State} (h : Only ps s0_ s) :
    Only ps s0_ (discRow p e m s) := by
  unfold discRow
  try dsimp only
  repeat' first
    | (with_reducible assumption)
    | (with_reducible apply cableAnswer_only (within rfl hl))
    | (with_reducible apply discAck_only (within rfl hl))
    | (with_reducible apply discFail_only (within rfl hl))
    | (with_reducible apply discMiss_only (within rfl hl))
    | (with_reducible apply exitDone_only (within rfl hl))
    | (with_reducible apply sendDisc_only (within rfl hl))
    | (with_reducible apply updFw_only (within rfl hl))
    | (with_reducible apply waitFor_only (within rfl hl))
    | (with_reducible apply Only.ite)
    | (with_reducible apply Only.ite2)

theorem enterMode_only {ps : List Part} (hl : Part.le [.regs, .mem, .ecc, .port, .mir, .phy, .hub, .fw, .ctx, .pan, .chan, .ceSecond, .log, .fresh] ps = true) {s0_ : State} {p : Nat} {s : State} (h : Only ps s0_ s) :
    Only ps s0_ (enterMode p s) := by
  unfold enterMode
  try dsimp only
  repeat' first
    | (with_reducible assumption)
    | (with_reducible apply sendHcaps_only (within rfl hl))
    | (with_reducible apply setHvst_only (within rfl hl))
    | (with_reducible apply updFw_only (within rfl hl))
    | (with_reducible apply waitFor_only (within rfl hl))
    | (with_reducible apply Only.ite)
    | (with_reducible apply Only.ite2)

theorem sendGrant_only {ps : List Part} (hl : Part.le [.regs, .mem, .ecc, .phy, .hub, .fw, .pan, .chan, .ceSecond, .log, .fresh] ps = true) {s0_ : State} {p : Nat} {hrdo : Nat} {outcome : Nat} {w : Say} {s : State} (h : Only ps s0_ s) :
    Only ps s0_ (sendGrant p hrdo outcome w s) := by
  unfold sendGrant
  try dsimp only
  repeat' first
    | (with_reducible assumption)
    | (with_reducible apply sayVdm_only (within rfl hl))

theorem evalHrdo_only {ps : List Part} (hl : Part.le [.regs, .prec, .mem, .ecc, .port, .mir, .phy, .hub, .fw, .ctx, .pan, .opq, .chan, .ceSecond, .log, .fresh] ps = true) {s0_ : State} {p : Nat} {m : List Byte} {s : State} (h : Only ps s0_ s) :
    Only ps s0_ (evalHrdo p m s) := by
  unfold evalHrdo
  try dsimp only
  repeat' first
    | (with_reducible assumption)
    | (with_reducible apply sendGrant_only (within rfl hl))
    | (with_reducible apply updFw_only (within rfl hl))
    | (with_reducible apply waitFor_only (within rfl hl))
    | (with_reducible apply writeRequested_only (within rfl hl))
    | (with_reducible apply Only.ite)
    | (with_reducible apply Only.ite2)

theorem heavyAsk_only {ps : List Part} (hl : Part.le [.regs, .mem, .ecc, .phy, .hub, .fw, .pan, .chan, .ceSecond, .log, .fresh] ps = true) {s0_ : State} {p : Nat} {m : List Byte} {s : State} (h : Only ps s0_ s) :
    Only ps s0_ (heavyAsk p m s) := by
  unfold heavyAsk
  try dsimp only
  repeat' first
    | (with_reducible assumption)
    | (with_reducible apply sayDropped_only (within rfl hl))
    | (with_reducible apply sayVdm_only (within rfl hl))
    | (with_reducible apply Only.ite)
    | (with_reducible apply Only.ite2)

theorem readyRow_only {ps : List Part} (hl : Part.le [.regs, .prec, .mem, .ecc, .xat, .port, .mir, .phy, .hub, .fw, .ctx, .pan, .opq, .chan, .ceSecond, .log, .fresh] ps = true) {s0_ : State} {p : Nat} {e : EvEntry} {m : List Byte} {s : State} (h : Only ps s0_ s) :
    Only ps s0_ (readyRow p e m s) := by
  unfold readyRow
  try dsimp only
  repeat' first
    | (with_reducible assumption)
    | (with_reducible apply fwHardReset_only (within rfl hl))
    | (with_reducible apply heavyMade_only (within rfl hl))
    | (with_reducible apply Only.ite)
    | (with_reducible apply Only.ite2)
    | split
    | dsimp only

end Sys2Proof.Machine
end

