-- ==== Sys2Proof/Laws/OnlyMgmt.lean ====
section
/-! SUPPORT. Footprints of the operations of Machine/Mgmt.lean: the parts of the state each may change. -/
namespace Sys2Proof.Machine

theorem windowNext_only {ps : List Part} (hl : Part.le [.regs] ps = true) {s0_ : State} {s : State} (h : Only ps s0_ s) :
    Only ps s0_ (windowNext s) := by
  unfold windowNext
  try dsimp only
  repeat' first
    | (with_reducible assumption)
    | (with_reducible apply setReg_only (within rfl hl))

theorem noteWerr_only {ps : List Part} (hl : Part.le [.regs] ps = true) {s0_ : State} {failed : Bool} {s : State} (h : Only ps s0_ s) :
    Only ps s0_ (noteWerr failed s) := by
  unfold noteWerr
  try dsimp only
  repeat' first
    | (with_reducible assumption)
    | (with_reducible apply raiseTwm_only (within rfl hl))
    | (with_reducible apply Only.ite)
    | (with_reducible apply Only.ite2)

theorem windowRead_only {ps : List Part} (hl : Part.le [.regs, .dieRegs, .mem, .ecc, .timer, .hub, .ctx, .pan, .chan, .adc, .ceSecond, .log, .fresh] ps = true) {s0_ : State} {s : State} (h : Only ps s0_ s) :
    Only ps s0_ (windowRead s).2 := by
  unfold windowRead
  try dsimp only
  repeat' first
    | (with_reducible assumption)
    | (with_reducible apply hostRead_only (within rfl hl))
    | (with_reducible apply noteWerr_only (within rfl hl))
    | (with_reducible apply setReg_only (within rfl hl))

theorem windowReadNext_only {ps : List Part} (hl : Part.le [.regs, .dieRegs, .mem, .ecc, .timer, .hub, .ctx, .pan, .chan, .adc, .ceSecond, .log, .fresh] ps = true) {s0_ : State} {s : State} (h : Only ps s0_ s) :
    Only ps s0_ (windowReadNext s).2 := by
  unfold windowReadNext
  try dsimp only
  repeat' first
    | (with_reducible assumption)
    | (with_reducible apply windowNext_only (within rfl hl))
    | (with_reducible apply windowRead_only (within rfl hl))

theorem burstRead_only {ps : List Part} (hl : Part.le [.regs, .dieRegs, .mem, .ecc, .timer, .hub, .ctx, .pan, .chan, .adc, .ceSecond, .log, .fresh] ps = true) {s0_ : State} {n : Nat} {s : State} (h : Only ps s0_ s) :
    Only ps s0_ (burstRead n s).2 := by
  induction n generalizing s with
  | zero => exact h
  | succ n ih => exact ih (windowReadNext_only (within rfl hl) h)

theorem windowWrite_only {ps : List Part} (hl : Part.le [.regs, .dieRegs, .prec, .mem, .ecc, .timer, .xat, .port, .mir, .phy, .hub, .fw, .ctx, .pan, .opq, .chan, .fdrMon, .die, .crs, .mbx, .lnk, .enum, .twm, .adc, .ceSecond, .adm, .saved, .log, .nvmA, .nvmB, .boot, .otp, .upd, .fresh] ps = true) {s0_ : State} {v : Word} {s : State} (h : Only ps s0_ s) :
    Only ps s0_ (windowWrite v s) := by
  unfold windowWrite
  try dsimp only
  repeat' first
    | (with_reducible assumption)
    | (with_reducible apply hostWrite_only (within rfl hl))
    | (with_reducible apply noteWerr_only (within rfl hl))

theorem burstWrite_only {ps : List Part} (hl : Part.le [.regs, .dieRegs, .prec, .mem, .ecc, .timer, .xat, .port, .mir, .phy, .hub, .fw, .ctx, .pan, .opq, .chan, .fdrMon, .die, .crs, .mbx, .lnk, .enum, .twm, .adc, .ceSecond, .adm, .saved, .log, .nvmA, .nvmB, .boot, .otp, .upd, .fresh] ps = true) {s0_ : State} {n : Nat} {b : List Byte} {s : State} (h : Only ps s0_ s) :
    Only ps s0_ (burstWrite n b s) := by
  induction n generalizing b s with
  | zero => exact h
  | succ n ih =>
    rw [burstWrite]
    exact Only.ite h (ih (windowNext_only (within rfl hl) (windowWrite_only (within rfl hl) h)))

theorem countXfer_only {ps : List Part} (hl : Part.le [.regs] ps = true) {s0_ : State} {s : State} (h : Only ps s0_ s) :
    Only ps s0_ (countXfer s) := by
  unfold countXfer
  try dsimp only
  repeat' first
    | (with_reducible assumption)
    | (with_reducible apply incFld_only (within rfl hl))

theorem discard_only {ps : List Part} (hl : Part.le [.regs] ps = true) {s0_ : State} {f : Fld} {s : State} (h : Only ps s0_ s) :
    Only ps s0_ (discard f s) := by
  unfold discard
  try dsimp only
  repeat' first
    | (with_reducible assumption)
    | (with_reducible apply incFld_only (within rfl hl))
    | (with_reducible apply raiseTwm_only (within rfl hl))

theorem readXact_only {ps : List Part} (hl : Part.le [.regs, .twm] ps = true) {s0_ : State} {x : Xact} {code : Nat} {sent : State → List Byte} {act : State → State} {s : State} (h : Only ps s0_ s) (h_act : ∀ (u0 : State), Only ps s0_ u0 → Only ps s0_ (act u0)) :
    Only ps s0_ (readXact x code sent act s) := by
  unfold readXact
  try dsimp only
  repeat' first
    | (with_reducible assumption)
    | (with_reducible apply h_act)
    | (with_reducible apply countXfer_only (within rfl hl))
    | (with_reducible apply discard_only (within rfl hl))
    | (with_reducible apply updTwm_only (within rfl hl))
    | (with_reducible intro _)
    | split
    | dsimp only

theorem readBlock_only {ps : List Part} (hl : Part.le [.regs, .twm] ps = true) {s0_ : State} {x : Xact} {code : Nat} {act : State → State} {s : State} (h : Only ps s0_ s) (h_act : ∀ (u0 : State), Only ps s0_ u0 → Only ps s0_ (act u0)) :
    Only ps s0_ (readBlock x code act s) := by
  unfold readBlock
  try dsimp only
  repeat' first
    | (with_reducible assumption)
    | (with_reducible apply h_act)
    | (with_reducible apply readXact_only (within rfl hl))
    | (with_reducible intro _)
    | dsimp only

theorem readWord_only {ps : List Part} (hl : Part.le [.regs, .twm] ps = true) {s0_ : State} {x : Xact} {code : Nat} {act : State → State} {s : State} (h : Only ps s0_ s) (h_act : ∀ (u0 : State), Only ps s0_ u0 → Only ps s0_ (act u0)) :
    Only ps s0_ (readWord x code act s) := by
  unfold readWord
  try dsimp only
  repeat' first
    | (with_reducible assumption)
    | (with_reducible apply h_act)
    | (with_reducible apply readXact_only (within rfl hl))
    | (with_reducible intro _)
    | dsimp only

theorem setBlock_only {ps : List Part} (hl : Part.le [.block] ps = true) {s0_ : State} {l : List Byte} {s : State} (h : Only ps s0_ s) :
    Only ps s0_ (setBlock l s) := by
  unfold setBlock
  try dsimp only
  repeat' first
    | (with_reducible assumption)
    | (with_reducible apply only_set_block (within rfl hl))

theorem startRequest_only {ps : List Part} (hl : Part.le [.regs, .dieRegs, .prec, .mem, .ecc, .timer, .xat, .port, .mir, .phy, .hub, .fw, .ctx, .pan, .opq, .chan, .fdrMon, .die, .crs, .mbx, .lnk, .enum, .twm, .adc, .ceSecond, .adm, .saved, .log, .nvmA, .nvmB, .boot, .otp, .upd, .fresh] ps = true) {s0_ : State} {v : Word} {s : State} (h : Only ps s0_ s) :
    Only ps s0_ (startRequest v s) := by
  unfold startRequest
  try dsimp only
  repeat' first
    | (with_reducible assumption)
    | (with_reducible apply endRequest_only (within rfl hl))
    | (with_reducible apply runRequest_only (within rfl hl))
    | (with_reducible apply sendRequest_only (within rfl hl))
    | (with_reducible apply setReg_only (within rfl hl))
    | (with_reducible apply updTwm_only (within rfl hl))
    | (with_reducible apply Only.ite)
    | (with_reducible apply Only.ite2)

theorem writeXact_only {ps : List Part} (hl : Part.le [.regs] ps = true) {s0_ : State} {x : Xact} {code : Nat} {data : List Byte} {act : State → State} {s : State} (h : Only ps s0_ s) (h_act : ∀ (u0 : State), Only ps s0_ u0 → Only ps s0_ (act u0)) :
    Only ps s0_ (writeXact x code data act s) := by
  unfold writeXact
  try dsimp only
  repeat' first
    | (with_reducible assumption)
    | (with_reducible apply h_act)
    | (with_reducible apply countXfer_only (within rfl hl))
    | (with_reducible apply discard_only (within rfl hl))
    | (with_reducible apply raiseTwm_only (within rfl hl))
    | (with_reducible intro _)
    | (with_reducible apply Only.ite)
    | (with_reducible apply Only.ite2)
    | split
    | dsimp only

end Sys2Proof.Machine
end

