-- ==== Sys2Proof/Laws/OnlySvaq.lean ====
section
/-! SUPPORT. Footprints of the operations of Machine/Svaq.lean: the parts of the state each may change. -/
namespace Sys2Proof.Machine

theorem StrOp.after_only {ps : List Part} (hl : Part.le [.crs] ps = true) {s0_ : State} {o : StrOp} {c : Nat} {w : Word} {pc : Word} {d : Word} {s : State} (h : Only ps s0_ s) :
    Only ps s0_ (StrOp.after o c w pc d s) := by
  unfold StrOp.after
  try dsimp only
  repeat' first
    | (with_reducible assumption)
    | (with_reducible apply updStrs_only (within rfl hl))
    | (with_reducible apply Only.ite)
    | (with_reducible apply Only.ite2)

theorem StrOp.ends_only {ps : List Part} (hl : Part.le [.crs] ps = true) {s0_ : State} {o : StrOp} {c : Nat} {w : Word} {pc : Word} {d : Word} {k : State → State} {s : State} (h : Only ps s0_ s) (h_k : ∀ (u0 : State), Only ps s0_ u0 → Only ps s0_ (k u0)) :
    Only ps s0_ (StrOp.ends o c w pc d k s) := by
  unfold StrOp.ends
  try dsimp only
  repeat' first
    | (with_reducible assumption)
    | (with_reducible apply h_k)
    | (with_reducible apply StrOp.after_only (within rfl hl))
    | (with_reducible apply updCrs_only (within rfl hl))
    | (with_reducible intro _)
    | (with_reducible apply Only.ite)
    | (with_reducible apply Only.ite2)
    | dsimp only

theorem spend_only {ps : List Part} (hl : Part.le [.crs] ps = true) {s0_ : State} {c : Nat} {n : Nat} {s : State} (h : Only ps s0_ s) :
    Only ps s0_ (spend c n s) := by
  unfold spend
  try dsimp only
  repeat' first
    | (with_reducible assumption)
    | (with_reducible apply updCrs_only (within rfl hl))
    | (with_reducible apply updStrs_only (within rfl hl))
    | (with_reducible apply Only.ite)
    | (with_reducible apply Only.ite2)

theorem landOldest_only {ps : List Part} (hl : Part.le [.regs, .dieRegs, .prec, .mem, .ecc, .timer, .xat, .port, .mir, .phy, .hub, .fw, .ctx, .pan, .opq, .chan, .fdrMon, .die, .crs, .mbx, .lnk, .enum, .twm, .adc, .ceSecond, .clk, .adm, .saved, .log, .nvmA, .nvmB, .boot, .otp, .upd, .fresh] ps = true) {s0_ : State} {c : Fin 4} {s : State} (h : Only ps s0_ s) {t : State}
    (he : landOldest c s = some t) : Only ps s0_ t := by
  unfold landOldest at he
  split at he
  · exact Option.some.inj he ▸ h
  · split at he
    · cases he
    · exact Option.some.inj he ▸ courseStore_only (within rfl hl) (updCrs_only (within rfl hl) h)

theorem waitCycles_only {ps : List Part} (hl : Part.le [.fresh] ps = true) {s0_ : State} {n : Nat} {most : Nat} {slow : Bool} {s : State} (h : Only ps s0_ s) :
    Only ps s0_ (waitCycles n most slow s).2 := by
  unfold waitCycles
  try dsimp only
  repeat' first
    | (with_reducible assumption)
    | (with_reducible apply drawNat_only (within rfl hl))
    | (with_reducible apply Only.ite)
    | (with_reducible apply Only.ite2)

theorem svStore_only {ps : List Part} (hl : Part.le [.regs, .dieRegs, .prec, .mem, .ecc, .timer, .xat, .port, .mir, .phy, .hub, .fw, .ctx, .pan, .opq, .chan, .fdrMon, .die, .crs, .mbx, .lnk, .enum, .twm, .adc, .ceSecond, .clk, .adm, .saved, .log, .nvmA, .nvmB, .boot, .otp, .upd, .fresh] ps = true) {s0_ : State} {c : Fin 4} {n : Nat} {a v : Word} {s : State} (h : Only ps s0_ s) {r : Nat × State}
    (he : svStore c n a v s = some r) : Only ps s0_ r.2 := by
  unfold svStore at he
  split at he
  · exact Option.some.inj he ▸ courseStore_only (within rfl hl) h
  · dsimp only at he
    split at he
    · have e := Option.some.inj he
      subst e
      dsimp only
      exact updCrs_only (within rfl hl) h
    · split at he
      · cases he
      · next t ht =>
        have e := Option.some.inj he
        subst e
        dsimp only
        exact updCrs_only (within rfl hl) (waitCycles_only (within rfl hl)
          (landOldest_only (within rfl hl) h ht))

theorem StrOp.put_only {ps : List Part} (hl : Part.le [.regs, .dieRegs, .prec, .mem, .ecc, .timer, .xat, .port, .mir, .phy, .hub, .fw, .ctx, .pan, .opq, .chan, .fdrMon, .die, .crs, .mbx, .lnk, .enum, .twm, .adc, .ceSecond, .clk, .adm, .saved, .log, .nvmA, .nvmB, .boot, .otp, .upd, .fresh] ps = true) {s0_ : State} {o : StrOp} {c : Fin 4} {w pc d : Word} {k : State → State} {s : State} (h : Only ps s0_ s)
    (hk : ∀ t, Only ps s0_ t → Only ps s0_ (k t)) : Only ps s0_ (StrOp.put o c w pc d k s) := by
  unfold StrOp.put
  split
  · refine bridge_only (within rfl hl) h fun v t ht => ?_
    split
    · exact hk _ ht
    · split
      · exact hang_only (within rfl hl) (updCrs_only (within rfl hl) ht)
      · next u hu => exact hk _ (spend_only (within rfl hl) (svStore_only (within rfl hl) ht hu))
  · exact hk _ (spend_only (within rfl hl) h)

theorem landStores_only {ps : List Part} (hl : Part.le [.regs, .dieRegs, .prec, .mem, .ecc, .timer, .xat, .port, .mir, .phy, .hub, .fw, .ctx, .pan, .opq, .chan, .fdrMon, .die, .crs, .mbx, .lnk, .enum, .twm, .adc, .ceSecond, .clk, .adm, .saved, .log, .nvmA, .nvmB, .boot, .otp, .upd, .fresh] ps = true) {s0_ : State} {c : Fin 4} {n : Nat} {s : State} (h : Only ps s0_ s) {t : State}
    (he : landStores c n s = some t) : Only ps s0_ t := by
  induction n generalizing s with
  | zero => exact Option.some.inj he ▸ h
  | succ n ih =>
    rw [landStores] at he
    split at he
    · next u hu => exact ih (landOldest_only (within rfl hl) h hu) he
    · cases he

theorem svLoad_only {ps : List Part} (hl : Part.le [.regs, .dieRegs, .prec, .mem, .ecc, .timer, .xat, .port, .mir, .phy, .hub, .fw, .ctx, .pan, .opq, .chan, .fdrMon, .die, .crs, .mbx, .lnk, .enum, .twm, .adc, .ceSecond, .clk, .adm, .saved, .log, .nvmA, .nvmB, .boot, .otp, .upd, .fresh] ps = true) {s0_ : State} {c : Fin 4} {n : Nat} {a : Word} {s : State} (h : Only ps s0_ s) :
    (∀ u, svLoad c n a s = .stop u → Only ps s0_ u) ∧ ∀ d k u, svLoad c n a s = .value d k u → Only ps s0_ u := by
  have hr : ∀ x l, Only ps s0_ (beginRestart c x (seen l s)) := fun x l => beginRestart_only (within rfl hl) (seen_only (within rfl hl) h)
  have hc : ∀ t, Only ps s0_ t → Only ps s0_ (courseLoad c n a t).2 := fun t ht => courseLoad_only (within rfl hl) ht
  have hd : ∀ t, Only ps s0_ t → Only ps s0_ (drawNat t).2 := fun t ht => drawNat_only (within rfl hl) ht
  have hw : ∀ i m b t, Only ps s0_ t → Only ps s0_ (waitCycles i m b t).2 := fun i m b t ht => waitCycles_only (within rfl hl) ht
  have hn : ∀ l, Only ps s0_ (seen l s) := fun l => seen_only (within rfl hl) h
  unfold svLoad
  try dsimp only
  split
  · split
    · exact ⟨fun u e => Loaded.stop.inj e ▸ hr _ _, fun d k u e => Loaded.noConfusion e⟩
    · exact ⟨fun u e => Loaded.noConfusion e, fun d k u e => (Loaded.value.inj e).2.2 ▸ hc _ (hn _)⟩
  · split
    · exact ⟨fun u e => Loaded.stop.inj e ▸ hr _ _, fun d k u e => Loaded.noConfusion e⟩
    · exact ⟨fun u e => Loaded.noConfusion e, fun d k u e => (Loaded.value.inj e).2.2 ▸ hc _ (hn _)⟩
  · exact ⟨fun u e => Loaded.noConfusion e, fun d k u e => (Loaded.value.inj e).2.2 ▸ hc _ h⟩
  · split
    · exact ⟨fun u e => Loaded.noConfusion e, fun d k u e => Loaded.noConfusion e⟩
    · next t ht =>
      have hs := landStores_only (within rfl hl) h ht
      split
      · exact ⟨fun u e => Loaded.noConfusion e, fun d k u e => Loaded.noConfusion e⟩
      · split
        · exact ⟨fun u e => Loaded.noConfusion e, fun d k u e => (Loaded.value.inj e).2.2 ▸ hd _ (hc _ (hw _ _ _ _ hs))⟩
        · exact ⟨fun u e => Loaded.noConfusion e, fun d k u e => (Loaded.value.inj e).2.2 ▸ hc _ (hw _ _ _ _ hs)⟩

theorem svLoad_stop_only {ps : List Part} (hl : Part.le [.regs, .dieRegs, .prec, .mem, .ecc, .timer, .xat, .port, .mir, .phy, .hub, .fw, .ctx, .pan, .opq, .chan, .fdrMon, .die, .crs, .mbx, .lnk, .enum, .twm, .adc, .ceSecond, .clk, .adm, .saved, .log, .nvmA, .nvmB, .boot, .otp, .upd, .fresh] ps = true) {s0_ : State} {c : Fin 4} {n : Nat} {a : Word} {s : State} (h : Only ps s0_ s) {u : State}
    (he : svLoad c n a s = .stop u) : Only ps s0_ u := (svLoad_only hl h).1 u he

theorem svLoad_value_only {ps : List Part} (hl : Part.le [.regs, .dieRegs, .prec, .mem, .ecc, .timer, .xat, .port, .mir, .phy, .hub, .fw, .ctx, .pan, .opq, .chan, .fdrMon, .die, .crs, .mbx, .lnk, .enum, .twm, .adc, .ceSecond, .clk, .adm, .saved, .log, .nvmA, .nvmB, .boot, .otp, .upd, .fresh] ps = true) {s0_ : State} {c : Fin 4} {n : Nat} {a : Word} {s : State} (h : Only ps s0_ s) {d : Word} {k : Nat} {u : State}
    (he : svLoad c n a s = .value d k u) : Only ps s0_ u := (svLoad_only hl h).2 d k u he

theorem StrOp.element_only {ps : List Part} (hl : Part.le [.regs, .dieRegs, .prec, .mem, .ecc, .timer, .xat, .port, .mir, .phy, .hub, .fw, .ctx, .pan, .opq, .chan, .fdrMon, .die, .crs, .mbx, .lnk, .enum, .twm, .adc, .ceSecond, .clk, .adm, .saved, .log, .nvmA, .nvmB, .boot, .otp, .upd, .fresh] ps = true) {s0_ : State} {o : StrOp} {c : Fin 4} {w : Word} {pc : Word} {k : State → State} {s : State} (h : Only ps s0_ s) (h_k : ∀ (u0 : State), Only ps s0_ u0 → Only ps s0_ (k u0)) :
    Only ps s0_ (StrOp.element o c w pc k s) := by
  unfold StrOp.element
  try dsimp only
  repeat' first
    | (with_reducible assumption)
    | (with_reducible apply h_k)
    | (with_reducible apply StrOp.ends_only (within rfl hl))
    | (with_reducible apply StrOp.put_only (within rfl hl))
    | (with_reducible apply bridge_only (within rfl hl))
    | (with_reducible apply hang_only (within rfl hl))
    | (with_reducible apply spend_only (within rfl hl))
    | ((with_reducible apply svLoad_value_only (within rfl hl) (he := ?he)); case he => (with_reducible assumption))
    | ((with_reducible apply svLoad_stop_only (within rfl hl) (he := ?he)); case he => (with_reducible assumption))
    | (with_reducible apply updCrs_only (within rfl hl))
    | (with_reducible intro _)
    | (with_reducible apply Only.ite)
    | (with_reducible apply Only.ite2)
    | split
    | dsimp only

theorem settle_only {ps : List Part} (hl : Part.le [.regs, .crs, .log, .upd] ps = true) {s0_ : State} {c : Nat} {cost : Nat} {f : Str → Ending} {s : State} (h : Only ps s0_ s) :
    Only ps s0_ (settle c cost f s) := by
  unfold settle
  try dsimp only
  repeat' first
    | (with_reducible assumption)
    | (with_reducible apply beginRestart_only (within rfl hl))
    | (with_reducible apply spend_only (within rfl hl))
    | (with_reducible apply updStrs_only (within rfl hl))
    | (with_reducible apply Only.ite)
    | (with_reducible apply Only.ite2)
    | split
    | dsimp only

theorem StrOp.finish_only {ps : List Part} (hl : Part.le [.regs, .crs, .log, .upd] ps = true) {s0_ : State} {o : StrOp} {c : Nat} {w : Word} {pc : Word} {s : State} (h : Only ps s0_ s) :
    Only ps s0_ (StrOp.finish o c w pc s) := by
  unfold StrOp.finish
  try dsimp only
  repeat' first
    | (with_reducible assumption)
    | (with_reducible apply settle_only (within rfl hl))
    | (with_reducible apply updCrs_only (within rfl hl))
    | (with_reducible apply Only.ite)
    | (with_reducible apply Only.ite2)

theorem StrOp.run_only {ps : List Part} (hl : Part.le [.regs, .dieRegs, .prec, .mem, .ecc, .timer, .xat, .port, .mir, .phy, .hub, .fw, .ctx, .pan, .opq, .chan, .fdrMon, .die, .crs, .mbx, .lnk, .enum, .twm, .adc, .ceSecond, .clk, .adm, .saved, .log, .nvmA, .nvmB, .boot, .otp, .upd, .fresh] ps = true) {s0_ : State} {o : StrOp} {c : Fin 4} {w pc : Word} {n : Nat} {s : State} (h : Only ps s0_ s) :
    Only ps s0_ (StrOp.run o c w pc n s) := by
  induction n generalizing s with
  | zero => exact StrOp.finish_only (within rfl hl) h
  | succ n ih =>
    rw [StrOp.run]
    refine Only.ite h (Only.ite ?_ (StrOp.finish_only (within rfl hl) h))
    exact StrOp.element_only (within rfl hl) h fun t ht => Only.ite (StrOp.finish_only (within rfl hl) ht) (ih ht)

theorem StrOp.begin_only {ps : List Part} (hl : Part.le [.regs, .dieRegs, .prec, .mem, .ecc, .timer, .xat, .port, .mir, .phy, .hub, .fw, .ctx, .pan, .opq, .chan, .fdrMon, .die, .crs, .mbx, .lnk, .enum, .twm, .adc, .ceSecond, .clk, .adm, .saved, .log, .nvmA, .nvmB, .boot, .otp, .upd, .fresh] ps = true) {s0_ : State} {o : StrOp} {c : Fin 4} {elems : Nat} {w : Word} {s : State} (h : Only ps s0_ s) :
    Only ps s0_ (StrOp.begin o c elems w s) := by
  unfold StrOp.begin
  try dsimp only
  repeat' first
    | (with_reducible assumption)
    | (with_reducible apply StrOp.run_only (within rfl hl))
    | (with_reducible apply spend_only (within rfl hl))
    | (with_reducible apply Only.ite)
    | (with_reducible apply Only.ite2)

theorem alu_only {ps : List Part} (hl : Part.le [.regs, .crs, .log, .upd] ps = true) {s0_ : State} {c : Nat} {w : Word} {f : Str → Str} {s : State} (h : Only ps s0_ s) :
    Only ps s0_ (alu c w f s) := by
  unfold alu
  try dsimp only
  repeat' first
    | (with_reducible assumption)
    | (with_reducible apply settle_only (within rfl hl))
    | (with_reducible apply Only.ite)
    | (with_reducible apply Only.ite2)

theorem branch_only {ps : List Part} (hl : Part.le [.regs, .crs, .log, .upd] ps = true) {s0_ : State} {c : Nat} {w : Word} {f : Str → Str} {s : State} (h : Only ps s0_ s) :
    Only ps s0_ (branch c w f s) := by
  unfold branch
  try dsimp only
  repeat' first
    | (with_reducible assumption)
    | (with_reducible apply settle_only (within rfl hl))
    | (with_reducible apply Only.ite)
    | (with_reducible apply Only.ite2)

theorem break__only {ps : List Part} (hl : Part.le [.regs, .crs, .log, .upd] ps = true) {s0_ : State} {c : Nat} {w : Word} {s : State} (h : Only ps s0_ s) :
    Only ps s0_ (break_ c w s) := by
  unfold break_
  try dsimp only
  repeat' first
    | (with_reducible assumption)
    | (with_reducible apply settle_only (within rfl hl))
    | (with_reducible apply Only.ite)
    | (with_reducible apply Only.ite2)

theorem divide_only {ps : List Part} (hl : Part.le [.regs, .crs, .log, .upd] ps = true) {s0_ : State} {c : Nat} {w : Word} {s : State} (h : Only ps s0_ s) :
    Only ps s0_ (divide c w s) := by
  unfold divide
  try dsimp only
  repeat' first
    | (with_reducible assumption)
    | (with_reducible apply settle_only (within rfl hl))
    | (with_reducible apply Only.ite)
    | (with_reducible apply Only.ite2)

theorem return__only {ps : List Part} (hl : Part.le [.regs, .crs, .log, .upd] ps = true) {s0_ : State} {c : Nat} {w : Word} {x0 : Bool} {s : State} (h : Only ps s0_ s) :
    Only ps s0_ (return_ c w x0 s) := by
  unfold return_
  try dsimp only
  repeat' first
    | (with_reducible assumption)
    | (with_reducible apply settle_only (within rfl hl))
    | (with_reducible apply Only.ite)
    | (with_reducible apply Only.ite2)

theorem load_only {ps : List Part} (hl : Part.le [.regs, .dieRegs, .prec, .mem, .ecc, .timer, .xat, .port, .mir, .phy, .hub, .fw, .ctx, .pan, .opq, .chan, .fdrMon, .die, .crs, .mbx, .lnk, .enum, .twm, .adc, .ceSecond, .clk, .adm, .saved, .log, .nvmA, .nvmB, .boot, .otp, .upd, .fresh] ps = true) {s0_ : State} {c : Fin 4} {n : Nat} {ext : Word → Word} {w : Word} {s : State} (h : Only ps s0_ s) :
    Only ps s0_ (load c n ext w s) := by
  unfold load
  try dsimp only
  repeat' first
    | (with_reducible assumption)
    | (with_reducible apply bridge_only (within rfl hl))
    | (with_reducible apply hang_only (within rfl hl))
    | (with_reducible apply settle_only (within rfl hl))
    | ((with_reducible apply svLoad_value_only (within rfl hl) (he := ?he)); case he => (with_reducible assumption))
    | ((with_reducible apply svLoad_stop_only (within rfl hl) (he := ?he)); case he => (with_reducible assumption))
    | (with_reducible intro _)
    | (with_reducible apply Only.ite)
    | (with_reducible apply Only.ite2)
    | split
    | dsimp only

theorem issue_only {ps : List Part} (hl : Part.le [.regs, .crs, .log, .upd] ps = true) {s0_ : State} {c : Nat} {acc : Bool} {f : Word → Word → BitVec 64} {w : Word} {s : State} (h : Only ps s0_ s) :
    Only ps s0_ (issue c acc f w s) := by
  unfold issue
  try dsimp only
  repeat' first
    | (with_reducible assumption)
    | (with_reducible apply alu_only (within rfl hl))

theorem readSpecial_only {ps : List Part} (hl : Part.le [.regs, .crs, .log, .upd] ps = true) {s0_ : State} {c : Nat} {w : Word} {s : State} (h : Only ps s0_ s) :
    Only ps s0_ (readSpecial c w s) := by
  unfold readSpecial
  try dsimp only
  repeat' first
    | (with_reducible assumption)
    | (with_reducible apply alu_only (within rfl hl))
    | (with_reducible apply bridge_only (within rfl hl))
    | (with_reducible intro _)
    | (with_reducible apply Only.ite)
    | (with_reducible apply Only.ite2)
    | dsimp only

theorem setSpecial_only {ps : List Part} (hl : Part.le [.crs] ps = true) {s0_ : State} {c : Nat} {n : Nat} {v : Word} {s : State} (h : Only ps s0_ s) :
    Only ps s0_ (setSpecial c n v s) := by
  unfold setSpecial
  try dsimp only
  repeat' first
    | (with_reducible assumption)
    | (with_reducible apply updCrs_only (within rfl hl))
    | split
    | dsimp only

theorem writeSpecial_only {ps : List Part} (hl : Part.le [.regs, .crs, .log, .upd] ps = true) {s0_ : State} {c : Nat} {w : Word} {s : State} (h : Only ps s0_ s) :
    Only ps s0_ (writeSpecial c w s) := by
  unfold writeSpecial
  try dsimp only
  repeat' first
    | (with_reducible assumption)
    | (with_reducible apply alu_only (within rfl hl))
    | (with_reducible apply bridge_only (within rfl hl))
    | (with_reducible apply setSpecial_only (within rfl hl))
    | (with_reducible intro _)
    | (with_reducible apply Only.ite)
    | (with_reducible apply Only.ite2)
    | split
    | dsimp only

theorem repeat__only {ps : List Part} (hl : Part.le [.regs, .crs, .log, .upd] ps = true) {s0_ : State} {c : Nat} {w : Word} {s : State} (h : Only ps s0_ s) :
    Only ps s0_ (repeat_ c w s) := by
  unfold repeat_
  try dsimp only
  repeat' first
    | (with_reducible assumption)
    | (with_reducible apply settle_only (within rfl hl))
    | (with_reducible apply Only.ite)
    | (with_reducible apply Only.ite2)

theorem snapWords_only {ps : List Part} (hl : Part.le [.regs, .dieRegs, .prec, .mem, .ecc, .timer, .xat, .port, .mir, .phy, .hub, .fw, .ctx, .pan, .opq, .chan, .fdrMon, .die, .crs, .mbx, .lnk, .enum, .twm, .adc, .ceSecond, .clk, .adm, .saved, .log, .nvmA, .nvmB, .boot, .otp, .upd, .fresh] ps = true) {s0_ : State} {c : Fin 4} {k : Nat} {b : Word} {i n : Nat} {s : State} (h : Only ps s0_ s) :
    Only ps s0_ (snapWords c k b i n s) := by
  induction n generalizing i s with
  | zero => exact h
  | succ n ih => exact ih (courseStore_only (within rfl hl) (courseLoad_only (within rfl hl) h))

theorem snapCopy_only {ps : List Part} (hl : Part.le [.regs, .dieRegs, .prec, .mem, .ecc, .timer, .xat, .port, .mir, .phy, .hub, .fw, .ctx, .pan, .opq, .chan, .fdrMon, .die, .crs, .mbx, .lnk, .enum, .twm, .adc, .ceSecond, .clk, .adm, .saved, .log, .nvmA, .nvmB, .boot, .otp, .upd, .fresh] ps = true) {s0_ : State} {c : Fin 4} {k : Nat} {b : Word} {s : State} (h : Only ps s0_ s) :
    Only ps s0_ (snapCopy c k b s) := by
  unfold snapCopy
  try dsimp only
  repeat' first
    | (with_reducible assumption)
    | (with_reducible apply setAe_only (within rfl hl))
    | (with_reducible apply snapWords_only (within rfl hl))
    | (with_reducible apply Only.ite)
    | (with_reducible apply Only.ite2)

theorem snap_only {ps : List Part} (hl : Part.le [.regs, .dieRegs, .prec, .mem, .ecc, .timer, .xat, .port, .mir, .phy, .hub, .fw, .ctx, .pan, .opq, .chan, .fdrMon, .die, .crs, .mbx, .lnk, .enum, .twm, .adc, .ceSecond, .clk, .adm, .saved, .log, .nvmA, .nvmB, .boot, .otp, .upd, .fresh] ps = true) {s0_ : State} {c : Fin 4} {w : Word} {s : State} (h : Only ps s0_ s) :
    Only ps s0_ (snap c w s) := by
  unfold snap
  try dsimp only
  repeat' first
    | (with_reducible assumption)
    | (with_reducible apply bridge_only (within rfl hl))
    | (with_reducible apply hang_only (within rfl hl))
    | ((with_reducible apply landStores_only (within rfl hl) (he := ?he)); case he => (with_reducible assumption))
    | (with_reducible apply settle_only (within rfl hl))
    | (with_reducible apply snapCopy_only (within rfl hl))
    | (with_reducible apply waitCycles_only (within rfl hl))
    | (with_reducible intro _)
    | (with_reducible apply Only.ite)
    | (with_reducible apply Only.ite2)
    | split
    | dsimp only

theorem store_only {ps : List Part} (hl : Part.le [.regs, .dieRegs, .prec, .mem, .ecc, .timer, .xat, .port, .mir, .phy, .hub, .fw, .ctx, .pan, .opq, .chan, .fdrMon, .die, .crs, .mbx, .lnk, .enum, .twm, .adc, .ceSecond, .clk, .adm, .saved, .log, .nvmA, .nvmB, .boot, .otp, .upd, .fresh] ps = true) {s0_ : State} {c : Fin 4} {n : Nat} {w : Word} {s : State} (h : Only ps s0_ s) :
    Only ps s0_ (store c n w s) := by
  unfold store
  try dsimp only
  repeat' first
    | (with_reducible assumption)
    | (with_reducible apply bridge_only (within rfl hl))
    | (with_reducible apply hang_only (within rfl hl))
    | (with_reducible apply settle_only (within rfl hl))
    | ((with_reducible apply svStore_only (within rfl hl) (he := ?he)); case he => (with_reducible assumption))
    | (with_reducible intro _)
    | (with_reducible apply Only.ite)
    | (with_reducible apply Only.ite2)
    | split
    | dsimp only

theorem wait__only {ps : List Part} (hl : Part.le [.regs, .crs, .log, .upd] ps = true) {s0_ : State} {c : Nat} {w : Word} {s : State} (h : Only ps s0_ s) :
    Only ps s0_ (wait_ c w s) := by
  unfold wait_
  try dsimp only
  repeat' first
    | (with_reducible assumption)
    | (with_reducible apply alu_only (within rfl hl))
    | (with_reducible apply bridge_only (within rfl hl))
    | (with_reducible apply updCrs_only (within rfl hl))
    | (with_reducible intro _)
    | (with_reducible apply Only.ite)
    | (with_reducible apply Only.ite2)
    | dsimp only

theorem codeWord_only {ps : List Part} (hl : Part.le [.fresh] ps = true) {s0_ : State} {c : Nat} {pc : Word} {s : State} (h : Only ps s0_ s) :
    Only ps s0_ (codeWord c pc s).2 := by
  unfold codeWord
  try dsimp only
  repeat' first
    | (with_reducible assumption)
    | (with_reducible apply drawWord_only (within rfl hl))
    | (with_reducible apply Only.ite)
    | (with_reducible apply Only.ite2)

theorem fetchAt_only {ps : List Part} (hl : Part.le [.regs, .crs, .log, .upd] ps = true) {s0_ : State} {c : Nat} {k : Word → State → State} {s : State} (h : Only ps s0_ s) (h_k : ∀ (u0 : Word) (u1 : State), Only ps s0_ u1 → Only ps s0_ (k u0 u1)) :
    Only ps s0_ (fetchAt c k s) := by
  unfold fetchAt
  try dsimp only
  repeat' first
    | (with_reducible assumption)
    | (with_reducible apply h_k)
    | (with_reducible apply bridge_only (within rfl hl))
    | (with_reducible intro _)
    | dsimp only

theorem landProducts_only {ps : List Part} (hl : Part.le [.crs] ps = true) {s0_ : State} {c : Nat} {s : State} (h : Only ps s0_ s) :
    Only ps s0_ (landProducts c s) := by
  unfold landProducts
  try dsimp only
  repeat' first
    | (with_reducible assumption)
    | (with_reducible apply updStrs_only (within rfl hl))

theorem svRun_only {ps : List Part} (hl : Part.le [.regs, .mem, .ecc, .crs, .ceSecond, .log, .upd, .fresh] ps = true) {s0_ : State} {c : Nat} {is : Word → Bool} {act : Word → State → State} {s : State} (h : Only ps s0_ s) (h_act : ∀ (u0 : Word) (u1 : State), Only ps s0_ u1 → Only ps s0_ (act u0 u1)) :
    Only ps s0_ (svRun c is act s) := by
  unfold svRun
  try dsimp only
  repeat' first
    | (with_reducible assumption)
    | (with_reducible apply h_act)
    | (with_reducible apply beginRestart_only (within rfl hl))
    | (with_reducible apply codeWord_only (within rfl hl))
    | (with_reducible apply fetchAt_only (within rfl hl))
    | (with_reducible apply landProducts_only (within rfl hl))
    | (with_reducible apply seen_only (within rfl hl))
    | (with_reducible intro _)
    | (with_reducible apply Only.ite)
    | (with_reducible apply Only.ite2)
    | dsimp only

end Sys2Proof.Machine
end

