-- ==== Sys2Proof/Laws/OnlySvaqRows.lean ====
section
/-! SUPPORT. Footprints of the operations of Machine/SvaqRows.lean: the parts of the state each may change. -/
namespace Sys2Proof.Machine

theorem arith_only {ps : List Part} (hl : Part.le [.regs, .crs, .log, .upd] ps = true) {s0_ : State} {c : Nat} {b : Str → Word} {f : Word → Word → Flags → Word × Flags} {w : Word} {s : State} (h : Only ps s0_ s) :
    Only ps s0_ (arith c b f w s) := by
  unfold arith
  try dsimp only
  repeat' first
    | (with_reducible assumption)
    | (with_reducible apply alu_only (within rfl hl))

theorem actAdc_only {ps : List Part} (hl : Part.le [.regs, .crs, .log, .upd] ps = true) {s0_ : State} {c : Fin 4} {w : Word} {s : State} (h : Only ps s0_ s) :
    Only ps s0_ (actAdc c w s) := by
  unfold actAdc
  try dsimp only
  repeat' first
    | (with_reducible assumption)
    | (with_reducible apply arith_only (within rfl hl))

theorem actAdd_only {ps : List Part} (hl : Part.le [.regs, .crs, .log, .upd] ps = true) {s0_ : State} {c : Fin 4} {w : Word} {s : State} (h : Only ps s0_ s) :
    Only ps s0_ (actAdd c w s) := by
  unfold actAdd
  try dsimp only
  repeat' first
    | (with_reducible assumption)
    | (with_reducible apply arith_only (within rfl hl))

theorem actAddi_only {ps : List Part} (hl : Part.le [.regs, .crs, .log, .upd] ps = true) {s0_ : State} {c : Fin 4} {w : Word} {s : State} (h : Only ps s0_ s) :
    Only ps s0_ (actAddi c w s) := by
  unfold actAddi
  try dsimp only
  repeat' first
    | (with_reducible assumption)
    | (with_reducible apply arith_only (within rfl hl))

theorem logic_only {ps : List Part} (hl : Part.le [.regs, .crs, .log, .upd] ps = true) {s0_ : State} {c : Nat} {b : Str → Word} {f : Word → Word → Word} {w : Word} {s : State} (h : Only ps s0_ s) :
    Only ps s0_ (logic c b f w s) := by
  unfold logic
  try dsimp only
  repeat' first
    | (with_reducible assumption)
    | (with_reducible apply arith_only (within rfl hl))

theorem actAnd_only {ps : List Part} (hl : Part.le [.regs, .crs, .log, .upd] ps = true) {s0_ : State} {c : Fin 4} {w : Word} {s : State} (h : Only ps s0_ s) :
    Only ps s0_ (actAnd c w s) := by
  unfold actAnd
  try dsimp only
  repeat' first
    | (with_reducible assumption)
    | (with_reducible apply logic_only (within rfl hl))

theorem actAndi_only {ps : List Part} (hl : Part.le [.regs, .crs, .log, .upd] ps = true) {s0_ : State} {c : Fin 4} {w : Word} {s : State} (h : Only ps s0_ s) :
    Only ps s0_ (actAndi c w s) := by
  unfold actAndi
  try dsimp only
  repeat' first
    | (with_reducible assumption)
    | (with_reducible apply logic_only (within rfl hl))

theorem actB_only {ps : List Part} (hl : Part.le [.regs, .crs, .log, .upd] ps = true) {s0_ : State} {c : Fin 4} {w : Word} {s : State} (h : Only ps s0_ s) :
    Only ps s0_ (actB c w s) := by
  unfold actB
  try dsimp only
  repeat' first
    | (with_reducible assumption)
    | (with_reducible apply branch_only (within rfl hl))

theorem actBrk_only {ps : List Part} (hl : Part.le [.regs, .crs, .log, .upd] ps = true) {s0_ : State} {c : Fin 4} {w : Word} {s : State} (h : Only ps s0_ s) :
    Only ps s0_ (actBrk c w s) := by
  unfold actBrk
  try dsimp only
  repeat' first
    | (with_reducible assumption)
    | (with_reducible apply break__only (within rfl hl))

theorem compare_only {ps : List Part} (hl : Part.le [.regs, .crs, .log, .upd] ps = true) {s0_ : State} {c : Nat} {b : Str → Word} {f : Word → Word → Flags → Flags} {w : Word} {s : State} (h : Only ps s0_ s) :
    Only ps s0_ (compare c b f w s) := by
  unfold compare
  try dsimp only
  repeat' first
    | (with_reducible assumption)
    | (with_reducible apply alu_only (within rfl hl))

theorem actCmp_only {ps : List Part} (hl : Part.le [.regs, .crs, .log, .upd] ps = true) {s0_ : State} {c : Fin 4} {w : Word} {s : State} (h : Only ps s0_ s) :
    Only ps s0_ (actCmp c w s) := by
  unfold actCmp
  try dsimp only
  repeat' first
    | (with_reducible assumption)
    | (with_reducible apply compare_only (within rfl hl))

theorem actCmpi_only {ps : List Part} (hl : Part.le [.regs, .crs, .log, .upd] ps = true) {s0_ : State} {c : Fin 4} {w : Word} {s : State} (h : Only ps s0_ s) :
    Only ps s0_ (actCmpi c w s) := by
  unfold actCmpi
  try dsimp only
  repeat' first
    | (with_reducible assumption)
    | (with_reducible apply compare_only (within rfl hl))

theorem actDivu_only {ps : List Part} (hl : Part.le [.regs, .crs, .log, .upd] ps = true) {s0_ : State} {c : Fin 4} {w : Word} {s : State} (h : Only ps s0_ s) :
    Only ps s0_ (actDivu c w s) := by
  unfold actDivu
  try dsimp only
  repeat' first
    | (with_reducible assumption)
    | (with_reducible apply divide_only (within rfl hl))

theorem actEret_only {ps : List Part} (hl : Part.le [.regs, .crs, .log, .upd] ps = true) {s0_ : State} {c : Fin 4} {w : Word} {s : State} (h : Only ps s0_ s) :
    Only ps s0_ (actEret c w s) := by
  unfold actEret
  try dsimp only
  repeat' first
    | (with_reducible assumption)
    | (with_reducible apply return__only (within rfl hl))

theorem actIllegal_only {ps : List Part} (hl : Part.le [.regs, .crs, .log, .upd] ps = true) {s0_ : State} {c : Fin 4} {x1 : Word} {s : State} (h : Only ps s0_ s) :
    Only ps s0_ (actIllegal c x1 s) := by
  unfold actIllegal
  try dsimp only
  repeat' first
    | (with_reducible assumption)
    | (with_reducible apply settle_only (within rfl hl))

theorem actJal_only {ps : List Part} (hl : Part.le [.regs, .crs, .log, .upd] ps = true) {s0_ : State} {c : Fin 4} {w : Word} {s : State} (h : Only ps s0_ s) :
    Only ps s0_ (actJal c w s) := by
  unfold actJal
  try dsimp only
  repeat' first
    | (with_reducible assumption)
    | (with_reducible apply branch_only (within rfl hl))

theorem actJr_only {ps : List Part} (hl : Part.le [.regs, .crs, .log, .upd] ps = true) {s0_ : State} {c : Fin 4} {w : Word} {s : State} (h : Only ps s0_ s) :
    Only ps s0_ (actJr c w s) := by
  unfold actJr
  try dsimp only
  repeat' first
    | (with_reducible assumption)
    | (with_reducible apply branch_only (within rfl hl))

theorem actLdb_only {ps : List Part} (hl : Part.le [.regs, .dieRegs, .prec, .mem, .ecc, .timer, .xat, .port, .mir, .phy, .hub, .fw, .ctx, .pan, .opq, .chan, .fdrMon, .die, .crs, .mbx, .lnk, .enum, .twm, .adc, .ceSecond, .clk, .adm, .saved, .log, .nvmA, .nvmB, .boot, .otp, .upd, .fresh] ps = true) {s0_ : State} {c : Fin 4} {w : Word} {s : State} (h : Only ps s0_ s) :
    Only ps s0_ (actLdb c w s) := by
  unfold actLdb
  try dsimp only
  repeat' first
    | (with_reducible assumption)
    | (with_reducible apply load_only (within rfl hl))

theorem actLdbs_only {ps : List Part} (hl : Part.le [.regs, .dieRegs, .prec, .mem, .ecc, .timer, .xat, .port, .mir, .phy, .hub, .fw, .ctx, .pan, .opq, .chan, .fdrMon, .die, .crs, .mbx, .lnk, .enum, .twm, .adc, .ceSecond, .clk, .adm, .saved, .log, .nvmA, .nvmB, .boot, .otp, .upd, .fresh] ps = true) {s0_ : State} {c : Fin 4} {w : Word} {s : State} (h : Only ps s0_ s) :
    Only ps s0_ (actLdbs c w s) := by
  unfold actLdbs
  try dsimp only
  repeat' first
    | (with_reducible assumption)
    | (with_reducible apply load_only (within rfl hl))

theorem actLdh_only {ps : List Part} (hl : Part.le [.regs, .dieRegs, .prec, .mem, .ecc, .timer, .xat, .port, .mir, .phy, .hub, .fw, .ctx, .pan, .opq, .chan, .fdrMon, .die, .crs, .mbx, .lnk, .enum, .twm, .adc, .ceSecond, .clk, .adm, .saved, .log, .nvmA, .nvmB, .boot, .otp, .upd, .fresh] ps = true) {s0_ : State} {c : Fin 4} {w : Word} {s : State} (h : Only ps s0_ s) :
    Only ps s0_ (actLdh c w s) := by
  unfold actLdh
  try dsimp only
  repeat' first
    | (with_reducible assumption)
    | (with_reducible apply load_only (within rfl hl))

theorem actLdhs_only {ps : List Part} (hl : Part.le [.regs, .dieRegs, .prec, .mem, .ecc, .timer, .xat, .port, .mir, .phy, .hub, .fw, .ctx, .pan, .opq, .chan, .fdrMon, .die, .crs, .mbx, .lnk, .enum, .twm, .adc, .ceSecond, .clk, .adm, .saved, .log, .nvmA, .nvmB, .boot, .otp, .upd, .fresh] ps = true) {s0_ : State} {c : Fin 4} {w : Word} {s : State} (h : Only ps s0_ s) :
    Only ps s0_ (actLdhs c w s) := by
  unfold actLdhs
  try dsimp only
  repeat' first
    | (with_reducible assumption)
    | (with_reducible apply load_only (within rfl hl))

theorem actLdw_only {ps : List Part} (hl : Part.le [.regs, .dieRegs, .prec, .mem, .ecc, .timer, .xat, .port, .mir, .phy, .hub, .fw, .ctx, .pan, .opq, .chan, .fdrMon, .die, .crs, .mbx, .lnk, .enum, .twm, .adc, .ceSecond, .clk, .adm, .saved, .log, .nvmA, .nvmB, .boot, .otp, .upd, .fresh] ps = true) {s0_ : State} {c : Fin 4} {w : Word} {s : State} (h : Only ps s0_ s) :
    Only ps s0_ (actLdw c w s) := by
  unfold actLdw
  try dsimp only
  repeat' first
    | (with_reducible assumption)
    | (with_reducible apply load_only (within rfl hl))

theorem actMacs_only {ps : List Part} (hl : Part.le [.regs, .crs, .log, .upd] ps = true) {s0_ : State} {c : Fin 4} {w : Word} {s : State} (h : Only ps s0_ s) :
    Only ps s0_ (actMacs c w s) := by
  unfold actMacs
  try dsimp only
  repeat' first
    | (with_reducible assumption)
    | (with_reducible apply issue_only (within rfl hl))

theorem actMacu_only {ps : List Part} (hl : Part.le [.regs, .crs, .log, .upd] ps = true) {s0_ : State} {c : Fin 4} {w : Word} {s : State} (h : Only ps s0_ s) :
    Only ps s0_ (actMacu c w s) := by
  unfold actMacu
  try dsimp only
  repeat' first
    | (with_reducible assumption)
    | (with_reducible apply issue_only (within rfl hl))

theorem actMaxu_only {ps : List Part} (hl : Part.le [.regs, .crs, .log, .upd] ps = true) {s0_ : State} {c : Fin 4} {w : Word} {s : State} (h : Only ps s0_ s) :
    Only ps s0_ (actMaxu c w s) := by
  unfold actMaxu
  try dsimp only
  repeat' first
    | (with_reducible assumption)
    | (with_reducible apply logic_only (within rfl hl))
    | (with_reducible apply Only.ite)
    | (with_reducible apply Only.ite2)

theorem actMaxui_only {ps : List Part} (hl : Part.le [.regs, .crs, .log, .upd] ps = true) {s0_ : State} {c : Fin 4} {w : Word} {s : State} (h : Only ps s0_ s) :
    Only ps s0_ (actMaxui c w s) := by
  unfold actMaxui
  try dsimp only
  repeat' first
    | (with_reducible assumption)
    | (with_reducible apply logic_only (within rfl hl))
    | (with_reducible apply Only.ite)
    | (with_reducible apply Only.ite2)

theorem actMfs_only {ps : List Part} (hl : Part.le [.regs, .crs, .log, .upd] ps = true) {s0_ : State} {c : Fin 4} {w : Word} {s : State} (h : Only ps s0_ s) :
    Only ps s0_ (actMfs c w s) := by
  unfold actMfs
  try dsimp only
  repeat' first
    | (with_reducible assumption)
    | (with_reducible apply readSpecial_only (within rfl hl))

theorem actMinu_only {ps : List Part} (hl : Part.le [.regs, .crs, .log, .upd] ps = true) {s0_ : State} {c : Fin 4} {w : Word} {s : State} (h : Only ps s0_ s) :
    Only ps s0_ (actMinu c w s) := by
  unfold actMinu
  try dsimp only
  repeat' first
    | (with_reducible assumption)
    | (with_reducible apply logic_only (within rfl hl))
    | (with_reducible apply Only.ite)
    | (with_reducible apply Only.ite2)

theorem actMinui_only {ps : List Part} (hl : Part.le [.regs, .crs, .log, .upd] ps = true) {s0_ : State} {c : Fin 4} {w : Word} {s : State} (h : Only ps s0_ s) :
    Only ps s0_ (actMinui c w s) := by
  unfold actMinui
  try dsimp only
  repeat' first
    | (with_reducible assumption)
    | (with_reducible apply logic_only (within rfl hl))
    | (with_reducible apply Only.ite)
    | (with_reducible apply Only.ite2)

theorem actMovh_only {ps : List Part} (hl : Part.le [.regs, .crs, .log, .upd] ps = true) {s0_ : State} {c : Fin 4} {w : Word} {s : State} (h : Only ps s0_ s) :
    Only ps s0_ (actMovh c w s) := by
  unfold actMovh
  try dsimp only
  repeat' first
    | (with_reducible assumption)
    | (with_reducible apply alu_only (within rfl hl))

theorem actMovl_only {ps : List Part} (hl : Part.le [.regs, .crs, .log, .upd] ps = true) {s0_ : State} {c : Fin 4} {w : Word} {s : State} (h : Only ps s0_ s) :
    Only ps s0_ (actMovl c w s) := by
  unfold actMovl
  try dsimp only
  repeat' first
    | (with_reducible assumption)
    | (with_reducible apply alu_only (within rfl hl))

theorem actMts_only {ps : List Part} (hl : Part.le [.regs, .crs, .log, .upd] ps = true) {s0_ : State} {c : Fin 4} {w : Word} {s : State} (h : Only ps s0_ s) :
    Only ps s0_ (actMts c w s) := by
  unfold actMts
  try dsimp only
  repeat' first
    | (with_reducible assumption)
    | (with_reducible apply writeSpecial_only (within rfl hl))

theorem actMuls_only {ps : List Part} (hl : Part.le [.regs, .crs, .log, .upd] ps = true) {s0_ : State} {c : Fin 4} {w : Word} {s : State} (h : Only ps s0_ s) :
    Only ps s0_ (actMuls c w s) := by
  unfold actMuls
  try dsimp only
  repeat' first
    | (with_reducible assumption)
    | (with_reducible apply issue_only (within rfl hl))

theorem actMulu_only {ps : List Part} (hl : Part.le [.regs, .crs, .log, .upd] ps = true) {s0_ : State} {c : Fin 4} {w : Word} {s : State} (h : Only ps s0_ s) :
    Only ps s0_ (actMulu c w s) := by
  unfold actMulu
  try dsimp only
  repeat' first
    | (with_reducible assumption)
    | (with_reducible apply issue_only (within rfl hl))

theorem actNop_only {ps : List Part} (hl : Part.le [.regs, .crs, .log, .upd] ps = true) {s0_ : State} {c : Fin 4} {w : Word} {s : State} (h : Only ps s0_ s) :
    Only ps s0_ (actNop c w s) := by
  unfold actNop
  try dsimp only
  repeat' first
    | (with_reducible assumption)
    | (with_reducible apply alu_only (within rfl hl))

theorem actOr_only {ps : List Part} (hl : Part.le [.regs, .crs, .log, .upd] ps = true) {s0_ : State} {c : Fin 4} {w : Word} {s : State} (h : Only ps s0_ s) :
    Only ps s0_ (actOr c w s) := by
  unfold actOr
  try dsimp only
  repeat' first
    | (with_reducible assumption)
    | (with_reducible apply logic_only (within rfl hl))

theorem actOri_only {ps : List Part} (hl : Part.le [.regs, .crs, .log, .upd] ps = true) {s0_ : State} {c : Fin 4} {w : Word} {s : State} (h : Only ps s0_ s) :
    Only ps s0_ (actOri c w s) := by
  unfold actOri
  try dsimp only
  repeat' first
    | (with_reducible assumption)
    | (with_reducible apply logic_only (within rfl hl))

theorem actRep_only {ps : List Part} (hl : Part.le [.regs, .crs, .log, .upd] ps = true) {s0_ : State} {c : Fin 4} {w : Word} {s : State} (h : Only ps s0_ s) :
    Only ps s0_ (actRep c w s) := by
  unfold actRep
  try dsimp only
  repeat' first
    | (with_reducible assumption)
    | (with_reducible apply repeat__only (within rfl hl))

theorem actSar_only {ps : List Part} (hl : Part.le [.regs, .crs, .log, .upd] ps = true) {s0_ : State} {c : Fin 4} {w : Word} {s : State} (h : Only ps s0_ s) :
    Only ps s0_ (actSar c w s) := by
  unfold actSar
  try dsimp only
  repeat' first
    | (with_reducible assumption)
    | (with_reducible apply arith_only (within rfl hl))

theorem actSari_only {ps : List Part} (hl : Part.le [.regs, .crs, .log, .upd] ps = true) {s0_ : State} {c : Fin 4} {w : Word} {s : State} (h : Only ps s0_ s) :
    Only ps s0_ (actSari c w s) := by
  unfold actSari
  try dsimp only
  repeat' first
    | (with_reducible assumption)
    | (with_reducible apply arith_only (within rfl hl))

theorem actSbc_only {ps : List Part} (hl : Part.le [.regs, .crs, .log, .upd] ps = true) {s0_ : State} {c : Fin 4} {w : Word} {s : State} (h : Only ps s0_ s) :
    Only ps s0_ (actSbc c w s) := by
  unfold actSbc
  try dsimp only
  repeat' first
    | (with_reducible assumption)
    | (with_reducible apply arith_only (within rfl hl))

theorem actSfillw_only {ps : List Part} (hl : Part.le [.regs, .dieRegs, .prec, .mem, .ecc, .timer, .xat, .port, .mir, .phy, .hub, .fw, .ctx, .pan, .opq, .chan, .fdrMon, .die, .crs, .mbx, .lnk, .enum, .twm, .adc, .ceSecond, .clk, .adm, .saved, .log, .nvmA, .nvmB, .boot, .otp, .upd, .fresh] ps = true) {s0_ : State} {c : Fin 4} {elems : Nat} {w : Word} {s : State} (h : Only ps s0_ s) :
    Only ps s0_ (actSfillw c elems w s) := by
  unfold actSfillw
  try dsimp only
  repeat' first
    | (with_reducible assumption)
    | (with_reducible apply StrOp.begin_only (within rfl hl))

theorem actShl_only {ps : List Part} (hl : Part.le [.regs, .crs, .log, .upd] ps = true) {s0_ : State} {c : Fin 4} {w : Word} {s : State} (h : Only ps s0_ s) :
    Only ps s0_ (actShl c w s) := by
  unfold actShl
  try dsimp only
  repeat' first
    | (with_reducible assumption)
    | (with_reducible apply arith_only (within rfl hl))

theorem actShli_only {ps : List Part} (hl : Part.le [.regs, .crs, .log, .upd] ps = true) {s0_ : State} {c : Fin 4} {w : Word} {s : State} (h : Only ps s0_ s) :
    Only ps s0_ (actShli c w s) := by
  unfold actShli
  try dsimp only
  repeat' first
    | (with_reducible assumption)
    | (with_reducible apply arith_only (within rfl hl))

theorem actShr_only {ps : List Part} (hl : Part.le [.regs, .crs, .log, .upd] ps = true) {s0_ : State} {c : Fin 4} {w : Word} {s : State} (h : Only ps s0_ s) :
    Only ps s0_ (actShr c w s) := by
  unfold actShr
  try dsimp only
  repeat' first
    | (with_reducible assumption)
    | (with_reducible apply arith_only (within rfl hl))

theorem actShri_only {ps : List Part} (hl : Part.le [.regs, .crs, .log, .upd] ps = true) {s0_ : State} {c : Fin 4} {w : Word} {s : State} (h : Only ps s0_ s) :
    Only ps s0_ (actShri c w s) := by
  unfold actShri
  try dsimp only
  repeat' first
    | (with_reducible assumption)
    | (with_reducible apply arith_only (within rfl hl))

theorem actSmovb_only {ps : List Part} (hl : Part.le [.regs, .dieRegs, .prec, .mem, .ecc, .timer, .xat, .port, .mir, .phy, .hub, .fw, .ctx, .pan, .opq, .chan, .fdrMon, .die, .crs, .mbx, .lnk, .enum, .twm, .adc, .ceSecond, .clk, .adm, .saved, .log, .nvmA, .nvmB, .boot, .otp, .upd, .fresh] ps = true) {s0_ : State} {c : Fin 4} {elems : Nat} {w : Word} {s : State} (h : Only ps s0_ s) :
    Only ps s0_ (actSmovb c elems w s) := by
  unfold actSmovb
  try dsimp only
  repeat' first
    | (with_reducible assumption)
    | (with_reducible apply StrOp.begin_only (within rfl hl))

theorem actSmovw_only {ps : List Part} (hl : Part.le [.regs, .dieRegs, .prec, .mem, .ecc, .timer, .xat, .port, .mir, .phy, .hub, .fw, .ctx, .pan, .opq, .chan, .fdrMon, .die, .crs, .mbx, .lnk, .enum, .twm, .adc, .ceSecond, .clk, .adm, .saved, .log, .nvmA, .nvmB, .boot, .otp, .upd, .fresh] ps = true) {s0_ : State} {c : Fin 4} {elems : Nat} {w : Word} {s : State} (h : Only ps s0_ s) :
    Only ps s0_ (actSmovw c elems w s) := by
  unfold actSmovw
  try dsimp only
  repeat' first
    | (with_reducible assumption)
    | (with_reducible apply StrOp.begin_only (within rfl hl))

theorem actSnap_only {ps : List Part} (hl : Part.le [.regs, .dieRegs, .prec, .mem, .ecc, .timer, .xat, .port, .mir, .phy, .hub, .fw, .ctx, .pan, .opq, .chan, .fdrMon, .die, .crs, .mbx, .lnk, .enum, .twm, .adc, .ceSecond, .clk, .adm, .saved, .log, .nvmA, .nvmB, .boot, .otp, .upd, .fresh] ps = true) {s0_ : State} {c : Fin 4} {w : Word} {s : State} (h : Only ps s0_ s) :
    Only ps s0_ (actSnap c w s) := by
  unfold actSnap
  try dsimp only
  repeat' first
    | (with_reducible assumption)
    | (with_reducible apply snap_only (within rfl hl))

theorem actSscanw_only {ps : List Part} (hl : Part.le [.regs, .dieRegs, .prec, .mem, .ecc, .timer, .xat, .port, .mir, .phy, .hub, .fw, .ctx, .pan, .opq, .chan, .fdrMon, .die, .crs, .mbx, .lnk, .enum, .twm, .adc, .ceSecond, .clk, .adm, .saved, .log, .nvmA, .nvmB, .boot, .otp, .upd, .fresh] ps = true) {s0_ : State} {c : Fin 4} {elems : Nat} {w : Word} {s : State} (h : Only ps s0_ s) :
    Only ps s0_ (actSscanw c elems w s) := by
  unfold actSscanw
  try dsimp only
  repeat' first
    | (with_reducible assumption)
    | (with_reducible apply StrOp.begin_only (within rfl hl))

theorem actStb_only {ps : List Part} (hl : Part.le [.regs, .dieRegs, .prec, .mem, .ecc, .timer, .xat, .port, .mir, .phy, .hub, .fw, .ctx, .pan, .opq, .chan, .fdrMon, .die, .crs, .mbx, .lnk, .enum, .twm, .adc, .ceSecond, .clk, .adm, .saved, .log, .nvmA, .nvmB, .boot, .otp, .upd, .fresh] ps = true) {s0_ : State} {c : Fin 4} {w : Word} {s : State} (h : Only ps s0_ s) :
    Only ps s0_ (actStb c w s) := by
  unfold actStb
  try dsimp only
  repeat' first
    | (with_reducible assumption)
    | (with_reducible apply store_only (within rfl hl))

theorem actSth_only {ps : List Part} (hl : Part.le [.regs, .dieRegs, .prec, .mem, .ecc, .timer, .xat, .port, .mir, .phy, .hub, .fw, .ctx, .pan, .opq, .chan, .fdrMon, .die, .crs, .mbx, .lnk, .enum, .twm, .adc, .ceSecond, .clk, .adm, .saved, .log, .nvmA, .nvmB, .boot, .otp, .upd, .fresh] ps = true) {s0_ : State} {c : Fin 4} {w : Word} {s : State} (h : Only ps s0_ s) :
    Only ps s0_ (actSth c w s) := by
  unfold actSth
  try dsimp only
  repeat' first
    | (with_reducible assumption)
    | (with_reducible apply store_only (within rfl hl))

theorem actStw_only {ps : List Part} (hl : Part.le [.regs, .dieRegs, .prec, .mem, .ecc, .timer, .xat, .port, .mir, .phy, .hub, .fw, .ctx, .pan, .opq, .chan, .fdrMon, .die, .crs, .mbx, .lnk, .enum, .twm, .adc, .ceSecond, .clk, .adm, .saved, .log, .nvmA, .nvmB, .boot, .otp, .upd, .fresh] ps = true) {s0_ : State} {c : Fin 4} {w : Word} {s : State} (h : Only ps s0_ s) :
    Only ps s0_ (actStw c w s) := by
  unfold actStw
  try dsimp only
  repeat' first
    | (with_reducible assumption)
    | (with_reducible apply store_only (within rfl hl))

theorem actSub_only {ps : List Part} (hl : Part.le [.regs, .crs, .log, .upd] ps = true) {s0_ : State} {c : Fin 4} {w : Word} {s : State} (h : Only ps s0_ s) :
    Only ps s0_ (actSub c w s) := by
  unfold actSub
  try dsimp only
  repeat' first
    | (with_reducible assumption)
    | (with_reducible apply arith_only (within rfl hl))

theorem actTst_only {ps : List Part} (hl : Part.le [.regs, .crs, .log, .upd] ps = true) {s0_ : State} {c : Fin 4} {w : Word} {s : State} (h : Only ps s0_ s) :
    Only ps s0_ (actTst c w s) := by
  unfold actTst
  try dsimp only
  repeat' first
    | (with_reducible assumption)
    | (with_reducible apply compare_only (within rfl hl))

theorem actTsti_only {ps : List Part} (hl : Part.le [.regs, .crs, .log, .upd] ps = true) {s0_ : State} {c : Fin 4} {w : Word} {s : State} (h : Only ps s0_ s) :
    Only ps s0_ (actTsti c w s) := by
  unfold actTsti
  try dsimp only
  repeat' first
    | (with_reducible assumption)
    | (with_reducible apply compare_only (within rfl hl))

theorem actWait_only {ps : List Part} (hl : Part.le [.regs, .crs, .log, .upd] ps = true) {s0_ : State} {c : Fin 4} {w : Word} {s : State} (h : Only ps s0_ s) :
    Only ps s0_ (actWait c w s) := by
  unfold actWait
  try dsimp only
  repeat' first
    | (with_reducible assumption)
    | (with_reducible apply wait__only (within rfl hl))

theorem actXor_only {ps : List Part} (hl : Part.le [.regs, .crs, .log, .upd] ps = true) {s0_ : State} {c : Fin 4} {w : Word} {s : State} (h : Only ps s0_ s) :
    Only ps s0_ (actXor c w s) := by
  unfold actXor
  try dsimp only
  repeat' first
    | (with_reducible assumption)
    | (with_reducible apply logic_only (within rfl hl))

theorem actXori_only {ps : List Part} (hl : Part.le [.regs, .crs, .log, .upd] ps = true) {s0_ : State} {c : Fin 4} {w : Word} {s : State} (h : Only ps s0_ s) :
    Only ps s0_ (actXori c w s) := by
  unfold actXori
  try dsimp only
  repeat' first
    | (with_reducible assumption)
    | (with_reducible apply logic_only (within rfl hl))

theorem actXret_only {ps : List Part} (hl : Part.le [.regs, .crs, .log, .upd] ps = true) {s0_ : State} {c : Fin 4} {w : Word} {s : State} (h : Only ps s0_ s) :
    Only ps s0_ (actXret c w s) := by
  unfold actXret
  try dsimp only
  repeat' first
    | (with_reducible assumption)
    | (with_reducible apply return__only (within rfl hl))

theorem actOf_only {ps : List Part} (hl : Part.le [.regs, .dieRegs, .prec, .mem, .ecc, .timer, .xat, .port, .mir, .phy, .hub, .fw, .ctx, .pan, .opq, .chan, .fdrMon, .die, .crs, .mbx, .lnk, .enum, .twm, .adc, .ceSecond, .clk, .adm, .saved, .log, .nvmA, .nvmB, .boot, .otp, .upd, .fresh] ps = true) {s0_ : State} {c : Fin 4} {elems : Nat} {w : Word} {s : State} (h : Only ps s0_ s) :
    Only ps s0_ (actOf c elems w s) := by
  unfold actOf
  try dsimp only
  repeat' first
    | (with_reducible assumption)
    | (with_reducible apply actAdc_only (within rfl hl))
    | (with_reducible apply actAdd_only (within rfl hl))
    | (with_reducible apply actAddi_only (within rfl hl))
    | (with_reducible apply actAnd_only (within rfl hl))
    | (with_reducible apply actAndi_only (within rfl hl))
    | (with_reducible apply actB_only (within rfl hl))
    | (with_reducible apply actBrk_only (within rfl hl))
    | (with_reducible apply actCmp_only (within rfl hl))
    | (with_reducible apply actCmpi_only (within rfl hl))
    | (with_reducible apply actDivu_only (within rfl hl))
    | (with_reducible apply actEret_only (within rfl hl))
    | (with_reducible apply actIllegal_only (within rfl hl))
    | (with_reducible apply actJal_only (within rfl hl))
    | (with_reducible apply actJr_only (within rfl hl))
    | (with_reducible apply actLdb_only (within rfl hl))
    | (with_reducible apply actLdbs_only (within rfl hl))
    | (with_reducible apply actLdh_only (within rfl hl))
    | (with_reducible apply actLdhs_only (within rfl hl))
    | (with_reducible apply actLdw_only (within rfl hl))
    | (with_reducible apply actMacs_only (within rfl hl))
    | (with_reducible apply actMacu_only (within rfl hl))
    | (with_reducible apply actMaxu_only (within rfl hl))
    | (with_reducible apply actMaxui_only (within rfl hl))
    | (with_reducible apply actMfs_only (within rfl hl))
    | (with_reducible apply actMinu_only (within rfl hl))
    | (with_reducible apply actMinui_only (within rfl hl))
    | (with_reducible apply actMovh_only (within rfl hl))
    | (with_reducible apply actMovl_only (within rfl hl))
    | (with_reducible apply actMts_only (within rfl hl))
    | (with_reducible apply actMuls_only (within rfl hl))
    | (with_reducible apply actMulu_only (within rfl hl))
    | (with_reducible apply actNop_only (within rfl hl))
    | (with_reducible apply actOr_only (within rfl hl))
    | (with_reducible apply actOri_only (within rfl hl))
    | (with_reducible apply actRep_only (within rfl hl))
    | (with_reducible apply actSar_only (within rfl hl))
    | (with_reducible apply actSari_only (within rfl hl))
    | (with_reducible apply actSbc_only (within rfl hl))
    | (with_reducible apply actSfillw_only (within rfl hl))
    | (with_reducible apply actShl_only (within rfl hl))
    | (with_reducible apply actShli_only (within rfl hl))
    | (with_reducible apply actShr_only (within rfl hl))
    | (with_reducible apply actShri_only (within rfl hl))
    | (with_reducible apply actSmovb_only (within rfl hl))
    | (with_reducible apply actSmovw_only (within rfl hl))
    | (with_reducible apply actSnap_only (within rfl hl))
    | (with_reducible apply actSscanw_only (within rfl hl))
    | (with_reducible apply actStb_only (within rfl hl))
    | (with_reducible apply actSth_only (within rfl hl))
    | (with_reducible apply actStw_only (within rfl hl))
    | (with_reducible apply actSub_only (within rfl hl))
    | (with_reducible apply actTst_only (within rfl hl))
    | (with_reducible apply actTsti_only (within rfl hl))
    | (with_reducible apply actWait_only (within rfl hl))
    | (with_reducible apply actXor_only (within rfl hl))
    | (with_reducible apply actXori_only (within rfl hl))
    | (with_reducible apply actXret_only (within rfl hl))
    | (with_reducible apply Only.ite)
    | (with_reducible apply Only.ite2)
    | split
    | dsimp only

theorem debugResume_only {ps : List Part} (hl : Part.le [.regs, .crs] ps = true) {s0_ : State} {c : Fin 4} {s : State} (h : Only ps s0_ s) :
    Only ps s0_ (debugResume c s) := by
  unfold debugResume
  try dsimp only
  repeat' first
    | (with_reducible assumption)
    | (with_reducible apply setFld_only (within rfl hl))
    | (with_reducible apply updCrs_only (within rfl hl))

theorem fetchOutside_only {ps : List Part} (hl : Part.le [.regs, .crs, .log, .upd] ps = true) {s0_ : State} {c : Fin 4} {s : State} (h : Only ps s0_ s) :
    Only ps s0_ (fetchOutside c s) := by
  unfold fetchOutside
  try dsimp only
  repeat' first
    | (with_reducible assumption)
    | (with_reducible apply fetchAt_only (within rfl hl))
    | (with_reducible apply landProducts_only (within rfl hl))
    | (with_reducible apply settle_only (within rfl hl))
    | (with_reducible intro _)
    | (with_reducible apply Only.ite)
    | (with_reducible apply Only.ite2)
    | dsimp only

theorem svStep_only {ps : List Part} (hl : Part.le [.regs, .dieRegs, .prec, .mem, .ecc, .timer, .xat, .port, .mir, .phy, .hub, .fw, .ctx, .pan, .opq, .chan, .fdrMon, .die, .crs, .mbx, .lnk, .enum, .twm, .adc, .ceSecond, .clk, .adm, .saved, .log, .nvmA, .nvmB, .boot, .otp, .upd, .fresh] ps = true) {s0_ : State} {c : Fin 4} {s : State} (h : Only ps s0_ s) :
    Only ps s0_ (svStep c s) := by
  unfold svStep
  try dsimp only
  repeat' first
    | (with_reducible assumption)
    | (with_reducible apply actOf_only (within rfl hl))
    | (with_reducible apply fetchOutside_only (within rfl hl))
    | (with_reducible apply svRun_only (within rfl hl))
    | (with_reducible intro _)
    | (with_reducible apply Only.ite)
    | (with_reducible apply Only.ite2)
    | dsimp only

theorem debugStep_only {ps : List Part} (hl : Part.le [.regs, .dieRegs, .prec, .mem, .ecc, .timer, .xat, .port, .mir, .phy, .hub, .fw, .ctx, .pan, .opq, .chan, .fdrMon, .die, .crs, .mbx, .lnk, .enum, .twm, .adc, .ceSecond, .clk, .adm, .saved, .log, .nvmA, .nvmB, .boot, .otp, .upd, .fresh] ps = true) {s0_ : State} {c : Fin 4} {s : State} (h : Only ps s0_ s) :
    Only ps s0_ (debugStep c s) := by
  unfold debugStep
  try dsimp only
  repeat' first
    | (with_reducible assumption)
    | (with_reducible apply setFld_only (within rfl hl))
    | (with_reducible apply svStep_only (within rfl hl))
    | (with_reducible apply Only.ite)
    | (with_reducible apply Only.ite2)

theorem debugOp_only {ps : List Part} (hl : Part.le [.regs, .dieRegs, .prec, .mem, .ecc, .timer, .xat, .port, .mir, .phy, .hub, .fw, .ctx, .pan, .opq, .chan, .fdrMon, .die, .crs, .mbx, .lnk, .enum, .twm, .adc, .ceSecond, .clk, .adm, .saved, .log, .nvmA, .nvmB, .boot, .otp, .upd, .fresh] ps = true) {s0_ : State} {c : Fin 4} {op : DebugOp} {s : State} (h : Only ps s0_ s) :
    Only ps s0_ (debugOp c op s) := by
  unfold debugOp
  try dsimp only
  repeat' first
    | (with_reducible assumption)
    | (with_reducible apply debugResume_only (within rfl hl))
    | (with_reducible apply debugStep_only (within rfl hl))
    | (with_reducible apply haltCourse_only (within rfl hl))
    | (with_reducible apply updCrs_only (within rfl hl))
    | (with_reducible apply Only.ite)
    | (with_reducible apply Only.ite2)
    | split
    | dsimp only

theorem eventEntry_only {ps : List Part} (hl : Part.le [.crs] ps = true) {s0_ : State} {c : Nat} {s : State} (h : Only ps s0_ s) :
    Only ps s0_ (eventEntry c s) := by
  unfold eventEntry
  try dsimp only
  repeat' first
    | (with_reducible assumption)
    | (with_reducible apply spend_only (within rfl hl))
    | (with_reducible apply updCrs_only (within rfl hl))
    | (with_reducible apply updStrs_only (within rfl hl))

theorem wake_only {ps : List Part} (hl : Part.le [.crs, .fresh] ps = true) {s0_ : State} {c : Nat} {s : State} (h : Only ps s0_ s) :
    Only ps s0_ (wake c s) := by
  unfold wake
  try dsimp only
  repeat' first
    | (with_reducible assumption)
    | (with_reducible apply drawNat_only (within rfl hl))
    | (with_reducible apply spend_only (within rfl hl))
    | (with_reducible apply updCrs_only (within rfl hl))

end Sys2Proof.Machine
end

