-- ==== Sys2Proof/Laws/MemKept.lean ====
section
/-! SUPPORT. What holds of the memories through every operation: a property that depends on memory alone and that the two
operations on memory keep is kept by every operation of the model. -/
namespace Sys2Proof.Machine

/-- Every part of the state but the memories. -/
def noMem : List Part := [.regs, .dieRegs, .prec, .ecc, .tb, .timer, .portEv, .xat, .port, .mir, .phy, .hub, .fw, .ctx, .pan, .opq, .chan, .bankA, .bankB, .active, .fdrMon, .roundOpen, .switchUs, .die, .crs, .mbx, .lnk, .enum, .twm, .adc, .scan, .scrubs, .scrubStart, .ceSecond, .harv, .fharv, .hrvCyc, .clk, .adm, .saved, .log, .nvmA, .nvmB, .boot, .fuse, .weak, .otp, .upd, .tap, .bsr, .tdo, .bus, .block, .fresh, .clock, .pending]

/-- A property of the memories that a byte write and a clearing keep. -/
structure MemKept (P : State → Prop) : Prop where
  frame : ∀ {s t : State}, Only noMem s t → P s → P t
  byte : ∀ {id off : Nat} {b : Byte} {s : State}, P s → P (setByte id off b s)
  clear : ∀ {id off n : Nat} {s : State}, P s → P (clearMem id off n s)

/-- The canonical form of the memory list is such a property. -/
theorem memKept_wf : MemKept (fun s => Memory.wf s.mem) where
  frame h w := by
    have e : _ = _ := h .mem (by decide)
    rw [show _ = _ from e]
    exact w
  byte w := wf_setByte _ _ _ _ w
  clear w := wf_clearMem _ _ _ _ w

theorem P_ite {P : State → Prop} {a b : State} {c : Prop} [Decidable c] (ha : P a) (hb : P b) : P (if c then a else b) := by
  split <;> assumption

theorem P_ite2 {P : State → Prop} {β : Type} {a b : β × State} {c : Prop} [Decidable c] (ha : P a.2) (hb : P b.2) :
    P (if c then a else b).2 := by
  split <;> assumption

theorem P_foldl {P : State → Prop} {β : Type} {f : State → β → State} {s : State} (xs : List β)
    (h : ∀ t x, P t → P (f t x)) (hs : P s) : P (xs.foldl f s) := by
  induction xs generalizing s with
  | nil => exact hs
  | cons x xs ih => exact ih (h s x hs)

theorem forEach_keeps {P : State → Prop} {β : Type} {xs : List β} {f : β → State → State} {s : State}
    (h : ∀ x t, P t → P (f x t)) (hs : P s) : P (forEach xs f s) := P_foldl xs (fun t x => h x t) hs

theorem updCrs_keeps {P : State → Prop} (K : MemKept P) {c : Nat} {f : Course → Course} {s : State} (h : P s) : P (updCrs c f s) :=
  K.frame (updCrs_only rfl (Only.refl _ _)) h

theorem StrOp.ends_keeps {P : State → Prop} (K : MemKept P) {o : StrOp} {c : Nat} {w : Word} {pc : Word} {d : Word} {k : State → State} {s : State} (h : P s) (h_k : ∀ (u0 : State), P u0 → P (k u0)) :
    P (StrOp.ends o c w pc d k s) := by
  unfold StrOp.ends
  try dsimp only
  repeat' first
    | (with_reducible assumption)
    | (with_reducible apply h_k)
    | (with_reducible apply K.frame (StrOp.after_only rfl (Only.refl _ _)))
    | (with_reducible apply updCrs_keeps K)
    | (with_reducible apply forEach_keeps)
    | (with_reducible apply P_foldl)
    | (with_reducible intro _)
    | (with_reducible apply P_ite)
    | (with_reducible apply P_ite2)
    | split
    | dsimp only

theorem beginRestart_keeps {P : State → Prop} (K : MemKept P) {c : Nat} {k : RCause} {s : State} (h : P s) : P (beginRestart c k s) :=
  K.frame (beginRestart_only rfl (Only.refl _ _)) h

theorem outvote_keeps {P : State → Prop} (K : MemKept P) {c : Nat} {i : Nat} {kind : Nat} {word : Nat} {s : State} (h : P s) : P (outvote c i kind word s) :=
  K.frame (outvote_only rfl (Only.refl _ _)) h

theorem bridge_keeps {P : State → Prop} (K : MemKept P) {α : Type} [DecidableEq α] {c kind word : Nat} {f : Str → α} {k : α → State → State} {s : State} (h : P s)
    (hk : ∀ v t, P t → P (k v t)) : P (bridge c kind word f k s) := by
  unfold bridge
  try dsimp only
  split
  · exact hk _ _ h
  · exact hk _ _ (outvote_keeps K h)
  · exact beginRestart_keeps K h

theorem hang_keeps {P : State → Prop} (K : MemKept P) {c : Nat} {s : State} (h : P s) : P (hang c s) :=
  K.frame (hang_only rfl (Only.refl _ _)) h

theorem spend_keeps {P : State → Prop} (K : MemKept P) {c : Nat} {n : Nat} {s : State} (h : P s) : P (spend c n s) :=
  K.frame (spend_only rfl (Only.refl _ _)) h

theorem setByte_keeps {P : State → Prop} (K : MemKept P) {id off : Nat} {b : Byte} {s : State} (h : P s) : P (setByte id off b s) := K.byte h

theorem setBytes_keeps {P : State → Prop} (K : MemKept P) {id off : Nat} {b : List Byte} {s : State} (h : P s) :
    P (setBytes id off b s) := by
  induction b generalizing off s with
  | nil => exact h
  | cons x b ih => exact ih (setByte_keeps K h)

theorem writeBack_keeps {P : State → Prop} (K : MemKept P) {id : Nat} {off : Nat} {s : State} (h : P s) :
    P (writeBack id off s) := by
  unfold writeBack
  try dsimp only
  repeat' first
    | (with_reducible assumption)
    | (with_reducible apply setBytes_keeps K)
    | (with_reducible apply K.frame (setWordErr_only rfl (Only.refl _ _)))
    | (with_reducible apply forEach_keeps)
    | (with_reducible apply P_foldl)
    | (with_reducible intro _)
    | (with_reducible apply P_ite)
    | (with_reducible apply P_ite2)
    | split
    | dsimp only

theorem decodeWord_keeps {P : State → Prop} (K : MemKept P) {id : Nat} {off : Nat} {scrub : Bool} {s : State} (h : P s) :
    P (decodeWord id off scrub s) := by
  unfold decodeWord
  try dsimp only
  repeat' first
    | (with_reducible assumption)
    | (with_reducible apply K.frame (foundCe_only rfl (Only.refl _ _)))
    | (with_reducible apply K.frame (foundUe_only rfl (Only.refl _ _)))
    | (with_reducible apply writeBack_keeps K)
    | (with_reducible apply forEach_keeps)
    | (with_reducible apply P_foldl)
    | (with_reducible intro _)
    | (with_reducible apply P_ite)
    | (with_reducible apply P_ite2)
    | split
    | dsimp only

theorem seen_keeps {P : State → Prop} (K : MemKept P) {l : List (Nat × Nat)} {s : State} (h : P s) :
    P (seen l s) := by
  unfold seen
  try dsimp only
  repeat' first
    | (with_reducible assumption)
    | (with_reducible apply decodeWord_keeps K)
    | (with_reducible apply forEach_keeps)
    | (with_reducible apply P_foldl)
    | (with_reducible intro _)
    | (with_reducible apply P_ite)
    | (with_reducible apply P_ite2)
    | split
    | dsimp only

theorem setAe_keeps {P : State → Prop} (K : MemKept P) {c : Nat} {a : Word} {s : State} (h : P s) : P (setAe c a s) :=
  K.frame (setAe_only rfl (Only.refl _ _)) h

theorem wakeUp_keeps {P : State → Prop} (K : MemKept P) {src : Nat} {s : State} (h : P s) : P (wakeUp src s) :=
  K.frame (wakeUp_only rfl (Only.refl _ _)) h

theorem laneStore_keeps {P : State → Prop} (K : MemKept P) {f : State → Option State} {s : State} (h : P s)
    (hf : ∀ t u, P t → f t = some u → P u) {r : State} (he : laneStore f s = some r) : P r := by
  unfold laneStore at he
  split at he
  · exact hf _ _ (wakeUp_keeps K h) he
  · cases he

theorem seenRange_keeps {P : State → Prop} (K : MemKept P) {id : Nat} {off : Nat} {n : Nat} {s : State} (h : P s) :
    P (seenRange id off n s) := by
  unfold seenRange
  try dsimp only
  repeat' first
    | (with_reducible assumption)
    | (with_reducible apply decodeWord_keeps K)
    | (with_reducible apply forEach_keeps)
    | (with_reducible apply P_foldl)
    | (with_reducible intro _)
    | (with_reducible apply P_ite)
    | (with_reducible apply P_ite2)
    | split
    | dsimp only

theorem mbxDone_keeps {P : State → Prop} (K : MemKept P) {c : Nat} {i : Nat} {len : Nat} {s : State} (h : P s) :
    P (mbxDone c i len s) := by
  unfold mbxDone
  try dsimp only
  repeat' first
    | (with_reducible assumption)
    | (with_reducible apply K.frame (answerOrigin_only rfl (Only.refl _ _)))
    | (with_reducible apply K.frame (post_only rfl (Only.refl _ _)))
    | (with_reducible apply seenRange_keeps K)
    | (with_reducible apply K.frame (setMbx_only rfl (Only.refl _ _)))
    | (with_reducible apply updCrs_keeps K)
    | (with_reducible apply forEach_keeps)
    | (with_reducible apply P_foldl)
    | (with_reducible intro _)
    | (with_reducible apply P_ite)
    | (with_reducible apply P_ite2)
    | split
    | dsimp only

theorem drawNat_keeps {P : State → Prop} (K : MemKept P) {s : State} (h : P s) : P (drawNat s).2 :=
  K.frame (drawNat_only rfl (Only.refl _ _)) h

theorem pick_keeps {P : State → Prop} (K : MemKept P) {l : List Nat} {s : State} (h : P s) : P (pick l s).2 :=
  K.frame (pick_only rfl (Only.refl _ _)) h

theorem contractWritten_keeps {P : State → Prop} (K : MemKept P) {p : Nat} {s : State} (h : P s) : P (contractWritten p s) :=
  K.frame (contractWritten_only rfl (Only.refl _ _)) h

theorem setRec_keeps {P : State → Prop} (K : MemKept P) {p : Nat} {w : Nat} {v : Word} {s : State} (h : P s) : P (setRec p w v s) :=
  K.frame (setRec_only rfl (Only.refl _ _)) h

theorem storeRec_keeps {P : State → Prop} (K : MemKept P) {p w i n : Nat} {v : Word} {s : State} (h : P s) {r : State}
    (he : storeRec p w i n v s = some r) : P r := by
  unfold storeRec at he
  split at he
  · exact Option.some.inj he ▸ contractWritten_keeps K (setRec_keeps K h)
  · split at he
    · exact Option.some.inj he ▸ h
    · cases he

theorem afterWrite_keeps {P : State → Prop} (K : MemKept P) {s : State} (h : P s) : P (afterWrite s) :=
  K.frame (afterWrite_only rfl (Only.refl _ _)) h

theorem setPan_keeps {P : State → Prop} (K : MemKept P) {c : Nat} {i : Nat} {o : PanOwner} {s : State} (h : P s) : P (setPan c i o s) :=
  K.frame (setPan_only rfl (Only.refl _ _)) h

theorem wordsWritten_keeps {P : State → Prop} (K : MemKept P) {id : Nat} {off : Nat} {n : Nat} {s : State} (h : P s) : P (wordsWritten id off n s) :=
  K.frame (wordsWritten_only rfl (Only.refl _ _)) h

theorem writeChain_keeps {P : State → Prop} (K : MemKept P) {c : Nat} {sp : Sop} {len usec w1 w3 : Nat} {is : List Nat} {b : List Byte} {s : State} (h : P s) :
    P (writeChain c sp len usec w1 w3 is b s) := by
  induction is generalizing b s with
  | nil => exact h
  | cons i is ih => exact ih (setBytes_keeps K (wordsWritten_keeps K h))

theorem landChain_keeps {P : State → Prop} (K : MemKept P) {p : Nat} {k : EvKind} {sp : Sop} {bytes : List Byte} {usec : Nat} {l : List Nat} {s : State} (h : P s) :
    P (landChain p k sp bytes usec l s) := by
  unfold landChain
  try dsimp only
  repeat' first
    | (with_reducible assumption)
    | (with_reducible apply K.frame (ownPans_only rfl (Only.refl _ _)))
    | (with_reducible apply K.frame (postMsg_only rfl (Only.refl _ _)))
    | (with_reducible apply writeChain_keeps K)
    | (with_reducible apply forEach_keeps)
    | (with_reducible apply P_foldl)
    | (with_reducible intro _)
    | (with_reducible apply P_ite)
    | (with_reducible apply P_ite2)
    | split
    | dsimp only

theorem abandonRx_keeps {P : State → Prop} (K : MemKept P) {p : Nat} {s : State} (h : P s) :
    P (abandonRx p s) := by
  unfold abandonRx
  try dsimp only
  repeat' first
    | (with_reducible assumption)
    | (with_reducible apply landChain_keeps K)
    | (with_reducible apply K.frame (ownPans_only rfl (Only.refl _ _)))
    | (with_reducible apply K.frame (updHub_only rfl (Only.refl _ _)))
    | (with_reducible apply forEach_keeps)
    | (with_reducible apply P_foldl)
    | (with_reducible intro _)
    | (with_reducible apply P_ite)
    | (with_reducible apply P_ite2)
    | split
    | dsimp only

theorem seenChain_keeps {P : State → Prop} (K : MemKept P) {c : Nat} {i : Nat} {s : State} (h : P s) :
    P (seenChain c i s) := by
  unfold seenChain
  try dsimp only
  repeat' first
    | (with_reducible assumption)
    | (with_reducible apply seenRange_keeps K)
    | (with_reducible apply forEach_keeps)
    | (with_reducible apply P_foldl)
    | (with_reducible intro _)
    | (with_reducible apply P_ite)
    | (with_reducible apply P_ite2)
    | split
    | dsimp only

theorem loadChain_keeps {P : State → Prop} (K : MemKept P) {p : Nat} {i : Nat} {s0 : State} (h : P s0) :
    P (loadChain p i s0) := by
  unfold loadChain
  try dsimp only
  repeat' first
    | (with_reducible assumption)
    | (with_reducible apply abandonRx_keeps K)
    | (with_reducible apply K.frame (endChain_only rfl (Only.refl _ _)))
    | (with_reducible apply K.frame (putTx_only rfl (Only.refl _ _)))
    | (with_reducible apply seenChain_keeps K)
    | (with_reducible apply K.frame (updHub_only rfl (Only.refl _ _)))
    | (with_reducible apply K.frame (updPhy_only rfl (Only.refl _ _)))
    | (with_reducible apply forEach_keeps)
    | (with_reducible apply P_foldl)
    | (with_reducible intro _)
    | (with_reducible apply P_ite)
    | (with_reducible apply P_ite2)
    | split
    | dsimp only

theorem fillTx_keeps {P : State → Prop} (K : MemKept P) {p : Nat} {s : State} (h : P s) :
    P (fillTx p s) := by
  unfold fillTx
  try dsimp only
  repeat' first
    | (with_reducible assumption)
    | (with_reducible apply loadChain_keeps K)
    | (with_reducible apply K.frame (putTx_only rfl (Only.refl _ _)))
    | (with_reducible apply K.frame (updHub_only rfl (Only.refl _ _)))
    | (with_reducible apply forEach_keeps)
    | (with_reducible apply P_foldl)
    | (with_reducible intro _)
    | (with_reducible apply P_ite)
    | (with_reducible apply P_ite2)
    | split
    | dsimp only

theorem ctxTx_keeps {P : State → Prop} (K : MemKept P) {c : Nat} {i : Nat} {s : State} (h : P s) :
    P (ctxTx c i s) := by
  unfold ctxTx
  try dsimp only
  repeat' first
    | (with_reducible assumption)
    | (with_reducible apply K.frame (cmdErr_only rfl (Only.refl _ _)))
    | (with_reducible apply fillTx_keeps K)
    | (with_reducible apply K.frame (incFld_only rfl (Only.refl _ _)))
    | (with_reducible apply K.frame (ownPans_only rfl (Only.refl _ _)))
    | (with_reducible apply K.frame (postMsg_only rfl (Only.refl _ _)))
    | (with_reducible apply K.frame (setFld_only rfl (Only.refl _ _)))
    | (with_reducible apply K.frame (updChan_only rfl (Only.refl _ _)))
    | (with_reducible apply K.frame (updHub_only rfl (Only.refl _ _)))
    | (with_reducible apply forEach_keeps)
    | (with_reducible apply P_foldl)
    | (with_reducible intro _)
    | (with_reducible apply P_ite)
    | (with_reducible apply P_ite2)
    | split
    | dsimp only

theorem writeChn_keeps {P : State → Prop} (K : MemKept P) {host : Bool} {r : RegRow} {a : Nat} {v : Word} {s : State} (h : P s) :
    P (writeChn host r a v s) := by
  unfold writeChn
  try dsimp only
  repeat' first
    | (with_reducible assumption)
    | (with_reducible apply K.frame (abortOps_only rfl (Only.refl _ _)))
    | (with_reducible apply K.frame (crsCmd_only rfl (Only.refl _ _)))
    | (with_reducible apply ctxTx_keeps K)
    | (with_reducible apply K.frame (hvCmd_only rfl (Only.refl _ _)))
    | (with_reducible apply K.frame (panPut_only rfl (Only.refl _ _)))
    | (with_reducible apply K.frame (pushOp_only rfl (Only.refl _ _)))
    | (with_reducible apply K.frame (serveMarks_only rfl (Only.refl _ _)))
    | (with_reducible apply K.frame (wdKick_only rfl (Only.refl _ _)))
    | (with_reducible apply K.frame (writeCtx_only rfl (Only.refl _ _)))
    | (with_reducible apply K.frame (writeCtxCmd_only rfl (Only.refl _ _)))
    | (with_reducible apply K.frame (writeHeld_only rfl (Only.refl _ _)))
    | (with_reducible apply K.frame (writeHvst_only rfl (Only.refl _ _)))
    | (with_reducible apply forEach_keeps)
    | (with_reducible apply P_foldl)
    | (with_reducible intro _)
    | (with_reducible apply P_ite)
    | (with_reducible apply P_ite2)
    | split
    | dsimp only

theorem clearMem_keeps {P : State → Prop} (K : MemKept P) {id off n : Nat} {s : State} (h : P s) : P (clearMem id off n s) := K.clear h

theorem clearChannel_keeps {P : State → Prop} (K : MemKept P) {c : Nat} {s : State} (h : P s) :
    P (clearChannel c s) := by
  unfold clearChannel
  try dsimp only
  repeat' first
    | (with_reducible assumption)
    | (with_reducible apply clearMem_keeps K)
    | (with_reducible apply K.frame (updChan_only rfl (Only.refl _ _)))
    | (with_reducible apply updCrs_keeps K)
    | (with_reducible apply wordsWritten_keeps K)
    | (with_reducible apply forEach_keeps)
    | (with_reducible apply P_foldl)
    | (with_reducible intro _)
    | (with_reducible apply P_ite)
    | (with_reducible apply P_ite2)
    | split
    | (with_reducible apply K.frame (only_set_regs_xat_ctx_pan_opq rfl (Only.refl _ _)))
    | (with_reducible apply K.frame (only_set_ctx rfl (Only.refl _ _)))
    | (with_reducible apply K.frame (only_set_opq rfl (Only.refl _ _)))
    | (with_reducible apply K.frame (only_set_pan rfl (Only.refl _ _)))
    | (with_reducible apply K.frame (only_set_regs rfl (Only.refl _ _)))
    | (with_reducible apply K.frame (only_set_xat rfl (Only.refl _ _)))
    | dsimp only

theorem answer_keeps {P : State → Prop} (K : MemKept P) {p : Nat} {sp : Sop} {bytes : List Byte} {s : State} (h : P s) :
    P (answer p sp bytes s) := by
  unfold answer
  try dsimp only
  repeat' first
    | (with_reducible assumption)
    | (with_reducible apply fillTx_keeps K)
    | (with_reducible apply K.frame (updHub_only rfl (Only.refl _ _)))
    | (with_reducible apply forEach_keeps)
    | (with_reducible apply P_foldl)
    | (with_reducible intro _)
    | (with_reducible apply P_ite)
    | (with_reducible apply P_ite2)
    | split
    | dsimp only

theorem clearRx_keeps {P : State → Prop} (K : MemKept P) {p : Nat} {s : State} (h : P s) : P (clearRx p s) :=
  K.frame (clearRx_only rfl (Only.refl _ _)) h

theorem answerHeld_keeps {P : State → Prop} (K : MemKept P) {p : Nat} {s : State} (h : P s) :
    P (answerHeld p s) := by
  unfold answerHeld
  try dsimp only
  repeat' first
    | (with_reducible assumption)
    | (with_reducible apply answer_keeps K)
    | (with_reducible apply clearRx_keeps K)
    | (with_reducible apply K.frame (dropTx_only rfl (Only.refl _ _)))
    | (with_reducible apply forEach_keeps)
    | (with_reducible apply P_foldl)
    | (with_reducible intro _)
    | (with_reducible apply P_ite)
    | (with_reducible apply P_ite2)
    | split
    | dsimp only

theorem enterHold_keeps {P : State → Prop} (K : MemKept P) {d : Nat} {cause : Nat} {s : State} (h : P s) :
    P (enterHold d cause s) := by
  unfold enterHold
  try dsimp only
  repeat' first
    | (with_reducible assumption)
    | (with_reducible apply answerHeld_keeps K)
    | (with_reducible apply K.frame (post_only rfl (Only.refl _ _)))
    | (with_reducible apply K.frame (raiseSum_only rfl (Only.refl _ _)))
    | (with_reducible apply K.frame (setFlag_only rfl (Only.refl _ _)))
    | (with_reducible apply K.frame (updDie_only rfl (Only.refl _ _)))
    | (with_reducible apply K.frame (updHub_only rfl (Only.refl _ _)))
    | (with_reducible apply forEach_keeps)
    | (with_reducible apply P_foldl)
    | (with_reducible intro _)
    | (with_reducible apply P_ite)
    | (with_reducible apply P_ite2)
    | split
    | dsimp only

theorem dieLinkLost_keeps {P : State → Prop} (K : MemKept P) {d : Nat} {s : State} (h : P s) :
    P (dieLinkLost d s) := by
  unfold dieLinkLost
  try dsimp only
  repeat' first
    | (with_reducible assumption)
    | (with_reducible apply enterHold_keeps K)
    | (with_reducible apply K.frame (updDie_only rfl (Only.refl _ _)))
    | (with_reducible apply forEach_keeps)
    | (with_reducible apply P_foldl)
    | (with_reducible intro _)
    | (with_reducible apply P_ite)
    | (with_reducible apply P_ite2)
    | split
    | dsimp only

theorem cutLink_keeps {P : State → Prop} (K : MemKept P) {d : Nat} {s : State} (h : P s) :
    P (cutLink d s) := by
  unfold cutLink
  try dsimp only
  repeat' first
    | (with_reducible assumption)
    | (with_reducible apply dieLinkLost_keeps K)
    | (with_reducible apply K.frame (setFlag_only rfl (Only.refl _ _)))
    | (with_reducible apply forEach_keeps)
    | (with_reducible apply P_foldl)
    | (with_reducible intro _)
    | (with_reducible apply P_ite)
    | (with_reducible apply P_ite2)
    | split
    | dsimp only

theorem resetChannel_keeps {P : State → Prop} (K : MemKept P) {c : Nat} {cause : Fld} {s : State} (h : P s) :
    P (resetChannel c cause s) := by
  unfold resetChannel
  try dsimp only
  repeat' first
    | (with_reducible assumption)
    | (with_reducible apply clearChannel_keeps K)
    | (with_reducible apply cutLink_keeps K)
    | (with_reducible apply K.frame (mbxFlushLane_only rfl (Only.refl _ _)))
    | (with_reducible apply K.frame (resetHubPort_only rfl (Only.refl _ _)))
    | (with_reducible apply K.frame (setFld_only rfl (Only.refl _ _)))
    | (with_reducible apply K.frame (updChan_only rfl (Only.refl _ _)))
    | (with_reducible apply forEach_keeps)
    | (with_reducible apply P_foldl)
    | (with_reducible intro _)
    | (with_reducible apply P_ite)
    | (with_reducible apply P_ite2)
    | split
    | (with_reducible apply K.frame (only_set_boot rfl (Only.refl _ _)))
    | dsimp only

theorem writeChrst_keeps {P : State → Prop} (K : MemKept P) {v : Word} {s : State} (h : P s) :
    P (writeChrst v s) := by
  unfold writeChrst
  try dsimp only
  repeat' first
    | (with_reducible assumption)
    | (with_reducible apply resetChannel_keeps K)
    | (with_reducible apply forEach_keeps)
    | (with_reducible apply P_foldl)
    | (with_reducible intro _)
    | (with_reducible apply P_ite)
    | (with_reducible apply P_ite2)
    | split
    | dsimp only

theorem withDom_keeps {P : State → Prop} (K : MemKept P) {f : State → State} {s : State} (h : P s) (h_f : ∀ (u0 : State), P u0 → P (f u0)) :
    P (withDom f s) := by
  unfold withDom
  try dsimp only
  repeat' first
    | (with_reducible assumption)
    | (with_reducible apply h_f)
    | (with_reducible apply K.frame (raiseUpd_only rfl (Only.refl _ _)))
    | (with_reducible apply forEach_keeps)
    | (with_reducible apply P_foldl)
    | (with_reducible intro _)
    | (with_reducible apply P_ite)
    | (with_reducible apply P_ite2)
    | split
    | dsimp only

theorem cmdCast_keeps {P : State → Prop} (K : MemKept P) {op : Nat} {act : State → State} {s : State} (h : P s) (h_act : ∀ (u0 : State), P u0 → P (act u0)) :
    P (cmdCast op act s) := by
  unfold cmdCast
  try dsimp only
  repeat' first
    | (with_reducible assumption)
    | (with_reducible apply h_act)
    | (with_reducible apply K.frame (castUpd_only rfl (Only.refl _ _)))
    | (with_reducible apply K.frame (refuse_only rfl (Only.refl _ _)))
    | (with_reducible apply K.frame (updUpd_only rfl (Only.refl _ _)))
    | (with_reducible apply forEach_keeps)
    | (with_reducible apply P_foldl)
    | (with_reducible intro _)
    | (with_reducible apply P_ite)
    | (with_reducible apply P_ite2)
    | split
    | dsimp only

theorem clash_keeps {P : State → Prop} (K : MemKept P) {waits : Bool} {act : State → State} {s : State} (h : P s) (h_act : ∀ (u0 : State), P u0 → P (act u0)) :
    P (clash waits act s) := by
  unfold clash
  try dsimp only
  repeat' first
    | (with_reducible assumption)
    | (with_reducible apply h_act)
    | (with_reducible apply K.frame (updUpd_only rfl (Only.refl _ _)))
    | (with_reducible apply forEach_keeps)
    | (with_reducible apply P_foldl)
    | (with_reducible intro _)
    | (with_reducible apply P_ite)
    | (with_reducible apply P_ite2)
    | split
    | dsimp only

theorem writeDev_keeps {P : State → Prop} (K : MemKept P) {host : Bool} {r : RegRow} {a : Nat} {v : Word} {s : State} (h : P s) :
    P (writeDev host r a v s) := by
  unfold writeDev
  try dsimp only
  repeat' first
    | (with_reducible assumption)
    | (with_reducible apply K.frame (writeBootCmd_only rfl (Only.refl _ _)))
    | (with_reducible apply writeChrst_keeps K)
    | (with_reducible apply K.frame (writeHeld_only rfl (Only.refl _ _)))
    | (with_reducible apply K.frame (writeLnkCmd_only rfl (Only.refl _ _)))
    | (with_reducible apply K.frame (writeOtpCmd_only rfl (Only.refl _ _)))
    | (with_reducible apply K.frame (writeOwner_only rfl (Only.refl _ _)))
    | (with_reducible apply K.frame (writePadmin_only rfl (Only.refl _ _)))
    | (with_reducible apply K.frame (writeUpdCmd_only rfl (Only.refl _ _)))
    | (with_reducible apply forEach_keeps)
    | (with_reducible apply P_foldl)
    | (with_reducible intro _)
    | (with_reducible apply P_ite)
    | (with_reducible apply P_ite2)
    | split
    | dsimp only

theorem cableResetSent_keeps {P : State → Prop} (K : MemKept P) {p : Nat} {s : State} (h : P s) :
    P (cableResetSent p s) := by
  unfold cableResetSent
  try dsimp only
  repeat' first
    | (with_reducible assumption)
    | (with_reducible apply K.frame (discardChains_only rfl (Only.refl _ _)))
    | (with_reducible apply K.frame (dropTx_only rfl (Only.refl _ _)))
    | (with_reducible apply fillTx_keeps K)
    | (with_reducible apply K.frame (postMsg_only rfl (Only.refl _ _)))
    | (with_reducible apply K.frame (updHub_only rfl (Only.refl _ _)))
    | (with_reducible apply K.frame (updPhy_only rfl (Only.refl _ _)))
    | (with_reducible apply forEach_keeps)
    | (with_reducible apply P_foldl)
    | (with_reducible intro _)
    | (with_reducible apply P_ite)
    | (with_reducible apply P_ite2)
    | split
    | dsimp only

theorem cableReset_keeps {P : State → Prop} (K : MemKept P) {p : Nat} {s : State} (h : P s) :
    P (cableReset p s) := by
  unfold cableReset
  try dsimp only
  repeat' first
    | (with_reducible assumption)
    | (with_reducible apply cableResetSent_keeps K)
    | (with_reducible apply K.frame (cmdErr_only rfl (Only.refl _ _)))
    | (with_reducible apply K.frame (postMsg_only rfl (Only.refl _ _)))
    | (with_reducible apply K.frame (updHub_only rfl (Only.refl _ _)))
    | (with_reducible apply forEach_keeps)
    | (with_reducible apply P_foldl)
    | (with_reducible intro _)
    | (with_reducible apply P_ite)
    | (with_reducible apply P_ite2)
    | split
    | dsimp only

theorem writePdCmd_keeps {P : State → Prop} (K : MemKept P) {p : Nat} {v : Word} {s : State} (h : P s) :
    P (writePdCmd p v s) := by
  unfold writePdCmd
  try dsimp only
  repeat' first
    | (with_reducible assumption)
    | (with_reducible apply K.frame (allocCtx_only rfl (Only.refl _ _)))
    | (with_reducible apply cableReset_keeps K)
    | (with_reducible apply K.frame (cancelCtx_only rfl (Only.refl _ _)))
    | (with_reducible apply K.frame (cmdHardReset_only rfl (Only.refl _ _)))
    | (with_reducible apply forEach_keeps)
    | (with_reducible apply P_foldl)
    | (with_reducible intro _)
    | (with_reducible apply P_ite)
    | (with_reducible apply P_ite2)
    | split
    | dsimp only

theorem hubDiscard_keeps {P : State → Prop} (K : MemKept P) {p : Nat} {s : State} (h : P s) :
    P (hubDiscard p s) := by
  unfold hubDiscard
  try dsimp only
  repeat' first
    | (with_reducible assumption)
    | (with_reducible apply abandonRx_keeps K)
    | (with_reducible apply K.frame (discardChains_only rfl (Only.refl _ _)))
    | (with_reducible apply K.frame (updChan_only rfl (Only.refl _ _)))
    | (with_reducible apply K.frame (updHub_only rfl (Only.refl _ _)))
    | (with_reducible apply forEach_keeps)
    | (with_reducible apply P_foldl)
    | (with_reducible intro _)
    | (with_reducible apply P_ite)
    | (with_reducible apply P_ite2)
    | split
    | dsimp only

theorem protoReset_keeps {P : State → Prop} (K : MemKept P) {p : Nat} {keepRev : Bool} {s : State} (h : P s) :
    P (protoReset p keepRev s) := by
  unfold protoReset
  try dsimp only
  repeat' first
    | (with_reducible assumption)
    | (with_reducible apply K.frame (dieProto_only rfl (Only.refl _ _)))
    | (with_reducible apply K.frame (dropTx_only rfl (Only.refl _ _)))
    | (with_reducible apply hubDiscard_keeps K)
    | (with_reducible apply forEach_keeps)
    | (with_reducible apply P_foldl)
    | (with_reducible intro _)
    | (with_reducible apply P_ite)
    | (with_reducible apply P_ite2)
    | split
    | dsimp only

theorem portGone_keeps {P : State → Prop} (K : MemKept P) {p : Nat} {cause : Nat} {s : State} (h : P s) :
    P (portGone p cause s) := by
  unfold portGone
  try dsimp only
  repeat' first
    | (with_reducible assumption)
    | (with_reducible apply K.frame (clearHeavy_only rfl (Only.refl _ _)))
    | (with_reducible apply K.frame (hubGone_only rfl (Only.refl _ _)))
    | (with_reducible apply protoReset_keeps K)
    | (with_reducible apply K.frame (stopKa_only rfl (Only.refl _ _)))
    | (with_reducible apply K.frame (updPhy_only rfl (Only.refl _ _)))
    | (with_reducible apply forEach_keeps)
    | (with_reducible apply P_foldl)
    | (with_reducible intro _)
    | (with_reducible apply P_ite)
    | (with_reducible apply P_ite2)
    | split
    | dsimp only

theorem tripPort_keeps {P : State → Prop} (K : MemKept P) {p : Nat} {cause : TripCause} {f : Fld} {s : State} (h : P s) :
    P (tripPort p cause f s) := by
  unfold tripPort
  try dsimp only
  repeat' first
    | (with_reducible assumption)
    | (with_reducible apply K.frame (openVconn_only rfl (Only.refl _ _)))
    | (with_reducible apply K.frame (pgFall_only rfl (Only.refl _ _)))
    | (with_reducible apply K.frame (portEvt_only rfl (Only.refl _ _)))
    | (with_reducible apply portGone_keeps K)
    | (with_reducible apply K.frame (requestUrgent_only rfl (Only.refl _ _)))
    | (with_reducible apply K.frame (setReg_only rfl (Only.refl _ _)))
    | (with_reducible apply K.frame (updPort_only rfl (Only.refl _ _)))
    | (with_reducible apply K.frame (xover_only rfl (Only.refl _ _)))
    | (with_reducible apply forEach_keeps)
    | (with_reducible apply P_foldl)
    | (with_reducible intro _)
    | (with_reducible apply P_ite)
    | (with_reducible apply P_ite2)
    | split
    | dsimp only

theorem checkFt_keeps {P : State → Prop} (K : MemKept P) {p : Nat} {s : State} (h : P s) :
    P (checkFt p s) := by
  unfold checkFt
  try dsimp only
  repeat' first
    | (with_reducible assumption)
    | (with_reducible apply tripPort_keeps K)
    | (with_reducible apply forEach_keeps)
    | (with_reducible apply P_foldl)
    | (with_reducible intro _)
    | (with_reducible apply P_ite)
    | (with_reducible apply P_ite2)
    | split
    | dsimp only

theorem writePortSetting_keeps {P : State → Prop} (K : MemKept P) {host : Bool} {p : Nat} {r : PortSetting} {v : Word} {s : State} (h : P s) :
    P (writePortSetting host p r v s) := by
  unfold writePortSetting
  try dsimp only
  repeat' first
    | (with_reducible assumption)
    | (with_reducible apply checkFt_keeps K)
    | (with_reducible apply K.frame (saveSetting_only rfl (Only.refl _ _)))
    | (with_reducible apply K.frame (writePortReg_only rfl (Only.refl _ _)))
    | (with_reducible apply forEach_keeps)
    | (with_reducible apply P_foldl)
    | (with_reducible intro _)
    | (with_reducible apply P_ite)
    | (with_reducible apply P_ite2)
    | split
    | dsimp only

theorem goOff_keeps {P : State → Prop} (K : MemKept P) {p : Nat} {s : State} (h : P s) :
    P (goOff p s) := by
  unfold goOff
  try dsimp only
  repeat' first
    | (with_reducible assumption)
    | (with_reducible apply K.frame (openVconn_only rfl (Only.refl _ _)))
    | (with_reducible apply K.frame (pgFall_only rfl (Only.refl _ _)))
    | (with_reducible apply portGone_keeps K)
    | (with_reducible apply K.frame (updPort_only rfl (Only.refl _ _)))
    | (with_reducible apply forEach_keeps)
    | (with_reducible apply P_foldl)
    | (with_reducible intro _)
    | (with_reducible apply P_ite)
    | (with_reducible apply P_ite2)
    | split
    | dsimp only

theorem adminDis_keeps {P : State → Prop} (K : MemKept P) {p : Nat} {s : State} (h : P s) :
    P (adminDis p s) := by
  unfold adminDis
  try dsimp only
  repeat' first
    | (with_reducible assumption)
    | (with_reducible apply K.frame (admitDone_only rfl (Only.refl _ _)))
    | (with_reducible apply goOff_keeps K)
    | (with_reducible apply K.frame (markAdmin_only rfl (Only.refl _ _)))
    | (with_reducible apply K.frame (setAdm_only rfl (Only.refl _ _)))
    | (with_reducible apply forEach_keeps)
    | (with_reducible apply P_foldl)
    | (with_reducible intro _)
    | (with_reducible apply P_ite)
    | (with_reducible apply P_ite2)
    | split
    | dsimp only

theorem writePrtCmd_keeps {P : State → Prop} (K : MemKept P) {host : Bool} {p : Nat} {v : Word} {s : State} (h : P s) :
    P (writePrtCmd host p v s) := by
  unfold writePrtCmd
  try dsimp only
  repeat' first
    | (with_reducible assumption)
    | (with_reducible apply adminDis_keeps K)
    | (with_reducible apply K.frame (adminEn_only rfl (Only.refl _ _)))
    | (with_reducible apply K.frame (cmdUnlock_only rfl (Only.refl _ _)))
    | (with_reducible apply forEach_keeps)
    | (with_reducible apply P_foldl)
    | (with_reducible intro _)
    | (with_reducible apply P_ite)
    | (with_reducible apply P_ite2)
    | split
    | dsimp only

theorem writePrt_keeps {P : State → Prop} (K : MemKept P) {host : Bool} {r : RegRow} {a : Nat} {v : Word} {s : State} (h : P s) :
    P (writePrt host r a v s) := by
  unfold writePrt
  try dsimp only
  repeat' first
    | (with_reducible assumption)
    | (with_reducible apply K.frame (writeHeld_only rfl (Only.refl _ _)))
    | (with_reducible apply K.frame (writeKa_only rfl (Only.refl _ _)))
    | (with_reducible apply writePdCmd_keeps K)
    | (with_reducible apply writePortSetting_keeps K)
    | (with_reducible apply writePrtCmd_keeps K)
    | (with_reducible apply forEach_keeps)
    | (with_reducible apply P_foldl)
    | (with_reducible intro _)
    | (with_reducible apply P_ite)
    | (with_reducible apply P_ite2)
    | split
    | dsimp only

theorem writeReg_keeps {P : State → Prop} (K : MemKept P) {who : Who} {r : RegRow} {a : Nat} {v : Word} {s : State} (h : P s) :
    P (writeReg who r a v s) := by
  unfold writeReg
  try dsimp only
  repeat' first
    | (with_reducible assumption)
    | (with_reducible apply K.frame (angSnap_only rfl (Only.refl _ _)))
    | (with_reducible apply K.frame (writeAdc_only rfl (Only.refl _ _)))
    | (with_reducible apply writeChn_keeps K)
    | (with_reducible apply writeDev_keeps K)
    | (with_reducible apply K.frame (writeHeld_only rfl (Only.refl _ _)))
    | (with_reducible apply K.frame (writePlc_only rfl (Only.refl _ _)))
    | (with_reducible apply writePrt_keeps K)
    | (with_reducible apply K.frame (writeTmu_only rfl (Only.refl _ _)))
    | (with_reducible apply forEach_keeps)
    | (with_reducible apply P_foldl)
    | (with_reducible intro _)
    | (with_reducible apply P_ite)
    | (with_reducible apply P_ite2)
    | split
    | dsimp only

theorem storeReg_keeps {P : State → Prop} (K : MemKept P) {c : Fin 4} {a : Nat} {v : Word} {s : State} (h : P s) {r : State}
    (he : storeReg c a v s = some r) : P r := by
  unfold storeReg at he
  split at he
  · cases he
  · split at he
    · exact Option.some.inj he ▸ h
    · cases he
    · exact Option.some.inj he ▸ afterWrite_keeps K (writeReg_keeps K h)

theorem storeSpot_keeps {P : State → Prop} (K : MemKept P) {c : Fin 4} {i n : Nat} {sp : Spot} {v : Word} {s : State} (h : P s) {r : State}
    (he : storeSpot c i n sp v s = some r) : P r := by
  unfold storeSpot at he
  split at he
  · exact Option.some.inj he ▸ setBytes_keeps K h
  · exact Option.some.inj he ▸ setBytes_keeps K h
  · exact storeRec_keeps K h he
  · exact storeReg_keeps K h he
  · exact storeReg_keeps K h he
  · exact laneStore_keeps K h
      (fun t u ht e => Option.some.inj e ▸ setBytes_keeps K ht) he
  · refine laneStore_keeps K h (fun t u ht e => ?_) he
    have e' := Option.some.inj e
    subst e'
    exact P_ite (updCrs_keeps K ht) ht
  · exact laneStore_keeps K h
      (fun t u ht e => Option.some.inj e ▸ mbxDone_keeps K ht) he
  all_goals cases he

theorem courseStore_keeps {P : State → Prop} (K : MemKept P) {c : Fin 4} {n : Nat} {a v : Word} {s0 : State} (h : P s0) :
    P (courseStore c n a v s0) := by
  have hs := seen_keeps K (l := (courseSpot c a.toNat).merged c) h
  unfold courseStore
  try dsimp only
  split
  · next t ht =>
    split at ht
    · have hs := storeSpot_keeps K hs ht
      exact P_ite (setAe_keeps K hs) hs
    · cases ht
  · exact setAe_keeps K hs

theorem landOldest_keeps {P : State → Prop} (K : MemKept P) {c : Fin 4} {s : State} (h : P s) {t : State}
    (he : landOldest c s = some t) : P t := by
  unfold landOldest at he
  split at he
  · exact Option.some.inj he ▸ h
  · split at he
    · cases he
    · exact Option.some.inj he ▸ courseStore_keeps K (updCrs_keeps K h)

theorem waitCycles_keeps {P : State → Prop} (K : MemKept P) {n : Nat} {most : Nat} {slow : Bool} {s : State} (h : P s) : P (waitCycles n most slow s).2 :=
  K.frame (waitCycles_only rfl (Only.refl _ _)) h

theorem svStore_keeps {P : State → Prop} (K : MemKept P) {c : Fin 4} {n : Nat} {a v : Word} {s : State} (h : P s) {r : Nat × State}
    (he : svStore c n a v s = some r) : P r.2 := by
  unfold svStore at he
  split at he
  · exact Option.some.inj he ▸ courseStore_keeps K h
  · dsimp only at he
    split at he
    · have e := Option.some.inj he
      subst e
      dsimp only
      exact updCrs_keeps K h
    · split at he
      · cases he
      · next t ht =>
        have e := Option.some.inj he
        subst e
        dsimp only
        exact updCrs_keeps K (waitCycles_keeps K
          (landOldest_keeps K h ht))

theorem StrOp.put_keeps {P : State → Prop} (K : MemKept P) {o : StrOp} {c : Fin 4} {w pc d : Word} {k : State → State} {s : State} (h : P s)
    (hk : ∀ t, P t → P (k t)) : P (StrOp.put o c w pc d k s) := by
  unfold StrOp.put
  split
  · refine bridge_keeps K h fun v t ht => ?_
    split
    · exact hk _ ht
    · split
      · exact hang_keeps K (updCrs_keeps K ht)
      · next u hu => exact hk _ (spend_keeps K (svStore_keeps K ht hu))
  · exact hk _ (spend_keeps K h)

theorem laneRead_keeps {P : State → Prop} (K : MemKept P) {f : State → Word × State} {s : State} (h : P s)
    (hf : ∀ t, P t → P (f t).2) {r : Word × State} (he : laneRead f s = some r) : P r.2 := by
  unfold laneRead at he
  split at he
  · exact Option.some.inj he ▸ hf _ (wakeUp_keeps K h)
  · cases he

theorem mbxTake_keeps {P : State → Prop} (K : MemKept P) {c : Nat} {s : State} (h : P s) : P (mbxTake c s).2 :=
  K.frame (mbxTake_only rfl (Only.refl _ _)) h

theorem readCq_keeps {P : State → Prop} (K : MemKept P) {c : Nat} {s : State} (h : P s) : P (readCq c s).2 :=
  K.frame (readCq_only rfl (Only.refl _ _)) h

theorem readEvq_keeps {P : State → Prop} (K : MemKept P) {c : Nat} {s : State} (h : P s) : P (readEvq c s).2 :=
  K.frame (readEvq_only rfl (Only.refl _ _)) h

theorem readReg_keeps {P : State → Prop} (K : MemKept P) {r : RegRow} {a : Nat} {s : State} (h : P s) : P (readReg r a s).2 :=
  K.frame (readReg_only rfl (Only.refl _ _)) h

theorem readTmuSpot_keeps {P : State → Prop} (K : MemKept P) {c : Nat} {a : Nat} {s : State} (h : P s) : P (readTmuSpot c a s).2 :=
  K.frame (readTmuSpot_only rfl (Only.refl _ _)) h

theorem readView_keeps {P : State → Prop} (K : MemKept P) {c : Nat} {a : Nat} {s : State} (h : P s) : P (readView c a s).2 :=
  K.frame (readView_only rfl (Only.refl _ _)) h

theorem loadSpot_keeps {P : State → Prop} (K : MemKept P) {c i n : Nat} {sp : Spot} {s : State} (h : P s) {r : Word × State}
    (he : loadSpot c i n sp s = some r) : P r.2 := by
  unfold loadSpot at he
  split at he
  case h_5 a =>
    cases hf : findReg a with
    | none => rw [hf] at he; cases he
    | some x => rw [hf] at he; exact Option.some.inj he ▸ readReg_keeps K h
  case h_6 => exact Option.some.inj he ▸ readTmuSpot_keeps K h
  case h_7 => exact Option.some.inj he ▸ readView_keeps K h
  case h_14 => exact laneRead_keeps K h (fun t ht => mbxTake_keeps K ht) he
  all_goals first
    | exact Option.some.inj he ▸ h
    | exact laneRead_keeps K h (fun t ht => ht) he
    | cases he

theorem courseLoad_keeps {P : State → Prop} (K : MemKept P) {c n : Nat} {a : Word} {s : State} (h : P s) :
    P (courseLoad c n a s).2 := by
  unfold courseLoad
  try dsimp only
  split
  · have hs := seen_keeps K (l := s.spotPlaces c (courseSpot c a.toNat)) h
    split
    · exact setAe_keeps K hs
    · split
      · next t ht => exact loadSpot_keeps K hs ht
      · exact setAe_keeps K hs
  · exact setAe_keeps K h

theorem landStores_keeps {P : State → Prop} (K : MemKept P) {c : Fin 4} {n : Nat} {s : State} (h : P s) {t : State}
    (he : landStores c n s = some t) : P t := by
  induction n generalizing s with
  | zero => exact Option.some.inj he ▸ h
  | succ n ih =>
    rw [landStores] at he
    split at he
    · next u hu => exact ih (landOldest_keeps K h hu) he
    · cases he

theorem svLoad_keeps {P : State → Prop} (K : MemKept P) {c : Fin 4} {n : Nat} {a : Word} {s : State} (h : P s) :
    (∀ u, svLoad c n a s = .stop u → P u) ∧ ∀ d k u, svLoad c n a s = .value d k u → P u := by
  have hr : ∀ x l, P (beginRestart c x (seen l s)) := fun x l => beginRestart_keeps K (seen_keeps K h)
  have hc : ∀ t, P t → P (courseLoad c n a t).2 := fun t ht => courseLoad_keeps K ht
  have hd : ∀ t, P t → P (drawNat t).2 := fun t ht => drawNat_keeps K ht
  have hw : ∀ i m b t, P t → P (waitCycles i m b t).2 := fun i m b t ht => waitCycles_keeps K ht
  have hn : ∀ l, P (seen l s) := fun l => seen_keeps K h
  unfold svLoad
  try dsimp only
  split
  · split
    · exact ⟨fun u e => Loaded.stop.inj e ▸ hr _ _, fun d k u e => Loaded.noConfusion e⟩
    · exact ⟨fun u e => Loaded.noConfusion e, fun d k u e => (Loaded.value.inj e).2.2 ▸ hc _ (hn _)⟩
  · split
    · exact ⟨fun u e => Loaded.stop.inj e ▸ hr _ _, fun d k u e => Loaded.noConfusion e⟩
    · exact ⟨fun u e => Loaded.noConfusion e, fun d k u e => (Loaded.value.inj e).2.2 ▸ hc _ (hn _)⟩
  · exact ⟨fun u e => Loaded.noConfusion e, fun d k u e => (Loaded.value.inj e).2.2 ▸ hc _ h⟩
  · split
    · exact ⟨fun u e => Loaded.noConfusion e, fun d k u e => Loaded.noConfusion e⟩
    · next t ht =>
      have hs := landStores_keeps K h ht
      split
      · exact ⟨fun u e => Loaded.noConfusion e, fun d k u e => Loaded.noConfusion e⟩
      · split
        · exact ⟨fun u e => Loaded.noConfusion e, fun d k u e => (Loaded.value.inj e).2.2 ▸ hd _ (hc _ (hw _ _ _ _ hs))⟩
        · exact ⟨fun u e => Loaded.noConfusion e, fun d k u e => (Loaded.value.inj e).2.2 ▸ hc _ (hw _ _ _ _ hs)⟩

theorem svLoad_stop_keeps {P : State → Prop} (K : MemKept P) {c : Fin 4} {n : Nat} {a : Word} {s : State} (h : P s) {u : State}
    (he : svLoad c n a s = .stop u) : P u := (svLoad_keeps K h).1 u he

theorem svLoad_value_keeps {P : State → Prop} (K : MemKept P) {c : Fin 4} {n : Nat} {a : Word} {s : State} (h : P s) {d : Word} {k : Nat} {u : State}
    (he : svLoad c n a s = .value d k u) : P u := (svLoad_keeps K h).2 d k u he

theorem StrOp.element_keeps {P : State → Prop} (K : MemKept P) {o : StrOp} {c : Fin 4} {w : Word} {pc : Word} {k : State → State} {s : State} (h : P s) (h_k : ∀ (u0 : State), P u0 → P (k u0)) :
    P (StrOp.element o c w pc k s) := by
  unfold StrOp.element
  try dsimp only
  repeat' first
    | (with_reducible assumption)
    | (with_reducible apply h_k)
    | (with_reducible apply StrOp.ends_keeps K)
    | (with_reducible apply StrOp.put_keeps K)
    | (with_reducible apply bridge_keeps K)
    | (with_reducible apply hang_keeps K)
    | (with_reducible apply spend_keeps K)
    | ((with_reducible apply svLoad_value_keeps K (he := ?he)); case he => (with_reducible assumption))
    | ((with_reducible apply svLoad_stop_keeps K (he := ?he)); case he => (with_reducible assumption))
    | (with_reducible apply updCrs_keeps K)
    | (with_reducible apply forEach_keeps)
    | (with_reducible apply P_foldl)
    | (with_reducible intro _)
    | (with_reducible apply P_ite)
    | (with_reducible apply P_ite2)
    | split
    | dsimp only

theorem StrOp.finish_keeps {P : State → Prop} (K : MemKept P) {o : StrOp} {c : Nat} {w : Word} {pc : Word} {s : State} (h : P s) : P (StrOp.finish o c w pc s) :=
  K.frame (StrOp.finish_only rfl (Only.refl _ _)) h

theorem StrOp.run_keeps {P : State → Prop} (K : MemKept P) {o : StrOp} {c : Fin 4} {w pc : Word} {n : Nat} {s : State} (h : P s) :
    P (StrOp.run o c w pc n s) := by
  induction n generalizing s with
  | zero => exact StrOp.finish_keeps K h
  | succ n ih =>
    rw [StrOp.run]
    refine P_ite h (P_ite ?_ (StrOp.finish_keeps K h))
    exact StrOp.element_keeps K h fun t ht => P_ite (StrOp.finish_keeps K ht) (ih ht)

theorem StrOp.begin_keeps {P : State → Prop} (K : MemKept P) {o : StrOp} {c : Fin 4} {elems : Nat} {w : Word} {s : State} (h : P s) :
    P (StrOp.begin o c elems w s) := by
  unfold StrOp.begin
  try dsimp only
  repeat' first
    | (with_reducible assumption)
    | (with_reducible apply StrOp.run_keeps K)
    | (with_reducible apply spend_keeps K)
    | (with_reducible apply forEach_keeps)
    | (with_reducible apply P_foldl)
    | (with_reducible intro _)
    | (with_reducible apply P_ite)
    | (with_reducible apply P_ite2)
    | split
    | dsimp only

theorem hubAttach_keeps {P : State → Prop} (K : MemKept P) {p : Nat} {s : State} (h : P s) :
    P (hubAttach p s) := by
  unfold hubAttach
  try dsimp only
  repeat' first
    | (with_reducible assumption)
    | (with_reducible apply hubDiscard_keeps K)
    | (with_reducible apply K.frame (requestCtx_only rfl (Only.refl _ _)))
    | (with_reducible apply K.frame (updFw_only rfl (Only.refl _ _)))
    | (with_reducible apply K.frame (xover_only rfl (Only.refl _ _)))
    | (with_reducible apply forEach_keeps)
    | (with_reducible apply P_foldl)
    | (with_reducible intro _)
    | (with_reducible apply P_ite)
    | (with_reducible apply P_ite2)
    | split
    | dsimp only

theorem acceptAttach_keeps {P : State → Prop} (K : MemKept P) {p : Nat} {orient : Bool} {ra : Bool} {s : State} (h : P s) :
    P (acceptAttach p orient ra s) := by
  unfold acceptAttach
  try dsimp only
  repeat' first
    | (with_reducible assumption)
    | (with_reducible apply K.frame (dieProto_only rfl (Only.refl _ _)))
    | (with_reducible apply hubAttach_keeps K)
    | (with_reducible apply K.frame (portEvt_only rfl (Only.refl _ _)))
    | (with_reducible apply K.frame (updPort_only rfl (Only.refl _ _)))
    | (with_reducible apply forEach_keeps)
    | (with_reducible apply P_foldl)
    | (with_reducible intro _)
    | (with_reducible apply P_ite)
    | (with_reducible apply P_ite2)
    | split
    | dsimp only

theorem softResetRx_keeps {P : State → Prop} (K : MemKept P) {p : Nat} {s : State} (h : P s) :
    P (softResetRx p s) := by
  unfold softResetRx
  try dsimp only
  repeat' first
    | (with_reducible assumption)
    | (with_reducible apply K.frame (dropTx_only rfl (Only.refl _ _)))
    | (with_reducible apply hubDiscard_keeps K)
    | (with_reducible apply K.frame (pdEvent_only rfl (Only.refl _ _)))
    | (with_reducible apply K.frame (updPhy_only rfl (Only.refl _ _)))
    | (with_reducible apply forEach_keeps)
    | (with_reducible apply P_foldl)
    | (with_reducible intro _)
    | (with_reducible apply P_ite)
    | (with_reducible apply P_ite2)
    | split
    | dsimp only

theorem acceptMsg_keeps {P : State → Prop} (K : MemKept P) {p : Nat} {sp : Sop} {l : List Byte} {s : State} (h : P s) :
    P (acceptMsg p sp l s) := by
  unfold acceptMsg
  try dsimp only
  repeat' first
    | (with_reducible assumption)
    | (with_reducible apply answer_keeps K)
    | (with_reducible apply K.frame (bistRx_only rfl (Only.refl _ _)))
    | (with_reducible apply K.frame (kaRestart_only rfl (Only.refl _ _)))
    | (with_reducible apply softResetRx_keeps K)
    | (with_reducible apply K.frame (updPhy_only rfl (Only.refl _ _)))
    | (with_reducible apply forEach_keeps)
    | (with_reducible apply P_foldl)
    | (with_reducible intro _)
    | (with_reducible apply P_ite)
    | (with_reducible apply P_ite2)
    | split
    | dsimp only

theorem say_keeps {P : State → Prop} (K : MemKept P) {p : Nat} {sp : Sop} {bytes : List Byte} {ams : Bool} {amsEnd : Bool} {w : Say} {s : State} (h : P s) :
    P (say p sp bytes ams amsEnd w s) := by
  unfold say
  try dsimp only
  repeat' first
    | (with_reducible assumption)
    | (with_reducible apply ctxTx_keeps K)
    | (with_reducible apply K.frame (getPans_only rfl (Only.refl _ _)))
    | (with_reducible apply K.frame (updFw_only rfl (Only.refl _ _)))
    | (with_reducible apply writeChain_keeps K)
    | (with_reducible apply forEach_keeps)
    | (with_reducible apply P_foldl)
    | (with_reducible intro _)
    | (with_reducible apply P_ite)
    | (with_reducible apply P_ite2)
    | split
    | dsimp only

theorem sayCtl_keeps {P : State → Prop} (K : MemKept P) {p : Nat} {t : Nat} {amsEnd : Bool} {w : Say} {s : State} (h : P s) :
    P (sayCtl p t amsEnd w s) := by
  unfold sayCtl
  try dsimp only
  repeat' first
    | (with_reducible assumption)
    | (with_reducible apply say_keeps K)
    | (with_reducible apply forEach_keeps)
    | (with_reducible apply P_foldl)
    | (with_reducible intro _)
    | (with_reducible apply P_ite)
    | (with_reducible apply P_ite2)
    | split
    | dsimp only

theorem acceptTran_keeps {P : State → Prop} (K : MemKept P) {p : Nat} {t : Tran} {s : State} (h : P s) :
    P (acceptTran p t s) := by
  unfold acceptTran
  try dsimp only
  repeat' first
    | (with_reducible assumption)
    | (with_reducible apply sayCtl_keeps K)
    | (with_reducible apply K.frame (updFw_only rfl (Only.refl _ _)))
    | (with_reducible apply forEach_keeps)
    | (with_reducible apply P_foldl)
    | (with_reducible intro _)
    | (with_reducible apply P_ite)
    | (with_reducible apply P_ite2)
    | split
    | dsimp only

theorem maErr_keeps {P : State → Prop} (K : MemKept P) {cause : Nat} {a : Word} {s : State} (h : P s) : P (maErr cause a s) :=
  K.frame (maErr_only rfl (Only.refl _ _)) h

theorem twmCmd_keeps {P : State → Prop} (K : MemKept P) {f : State → State} {s : State} (h : P s) (h_f : ∀ (u0 : State), P u0 → P (f u0)) :
    P (twmCmd f s) := by
  unfold twmCmd
  try dsimp only
  repeat' first
    | (with_reducible assumption)
    | (with_reducible apply h_f)
    | (with_reducible apply wakeUp_keeps K)
    | (with_reducible apply forEach_keeps)
    | (with_reducible apply P_foldl)
    | (with_reducible intro _)
    | (with_reducible apply P_ite)
    | (with_reducible apply P_ite2)
    | split
    | (with_reducible apply K.frame (only_set_clk rfl (Only.refl _ _)))
    | dsimp only

theorem access_keeps {P : State → Prop} (K : MemKept P) {who : Who} {a : Nat} {act : State → State} {s : State} (h : P s) (h_act : ∀ (u0 : State), P u0 → P (act u0)) :
    P (access who a act s) := by
  unfold access
  try dsimp only
  repeat' first
    | (with_reducible assumption)
    | (with_reducible apply h_act)
    | (with_reducible apply hang_keeps K)
    | (with_reducible apply maErr_keeps K)
    | (with_reducible apply twmCmd_keeps K)
    | (with_reducible apply forEach_keeps)
    | (with_reducible apply P_foldl)
    | (with_reducible intro _)
    | (with_reducible apply P_ite)
    | (with_reducible apply P_ite2)
    | split
    | dsimp only

theorem load_keeps {P : State → Prop} (K : MemKept P) {c : Fin 4} {n : Nat} {ext : Word → Word} {w : Word} {s : State} (h : P s) :
    P (load c n ext w s) := by
  unfold load
  try dsimp only
  repeat' first
    | (with_reducible assumption)
    | (with_reducible apply bridge_keeps K)
    | (with_reducible apply hang_keeps K)
    | (with_reducible apply K.frame (settle_only rfl (Only.refl _ _)))
    | ((with_reducible apply svLoad_value_keeps K (he := ?he)); case he => (with_reducible assumption))
    | ((with_reducible apply svLoad_stop_keeps K (he := ?he)); case he => (with_reducible assumption))
    | (with_reducible apply forEach_keeps)
    | (with_reducible apply P_foldl)
    | (with_reducible intro _)
    | (with_reducible apply P_ite)
    | (with_reducible apply P_ite2)
    | split
    | dsimp only

theorem actLdb_keeps {P : State → Prop} (K : MemKept P) {c : Fin 4} {w : Word} {s : State} (h : P s) :
    P (actLdb c w s) := by
  unfold actLdb
  try dsimp only
  repeat' first
    | (with_reducible assumption)
    | (with_reducible apply load_keeps K)
    | (with_reducible apply forEach_keeps)
    | (with_reducible apply P_foldl)
    | (with_reducible intro _)
    | (with_reducible apply P_ite)
    | (with_reducible apply P_ite2)
    | split
    | dsimp only

theorem actLdbs_keeps {P : State → Prop} (K : MemKept P) {c : Fin 4} {w : Word} {s : State} (h : P s) :
    P (actLdbs c w s) := by
  unfold actLdbs
  try dsimp only
  repeat' first
    | (with_reducible assumption)
    | (with_reducible apply load_keeps K)
    | (with_reducible apply forEach_keeps)
    | (with_reducible apply P_foldl)
    | (with_reducible intro _)
    | (with_reducible apply P_ite)
    | (with_reducible apply P_ite2)
    | split
    | dsimp only

theorem actLdh_keeps {P : State → Prop} (K : MemKept P) {c : Fin 4} {w : Word} {s : State} (h : P s) :
    P (actLdh c w s) := by
  unfold actLdh
  try dsimp only
  repeat' first
    | (with_reducible assumption)
    | (with_reducible apply load_keeps K)
    | (with_reducible apply forEach_keeps)
    | (with_reducible apply P_foldl)
    | (with_reducible intro _)
    | (with_reducible apply P_ite)
    | (with_reducible apply P_ite2)
    | split
    | dsimp only

theorem actLdhs_keeps {P : State → Prop} (K : MemKept P) {c : Fin 4} {w : Word} {s : State} (h : P s) :
    P (actLdhs c w s) := by
  unfold actLdhs
  try dsimp only
  repeat' first
    | (with_reducible assumption)
    | (with_reducible apply load_keeps K)
    | (with_reducible apply forEach_keeps)
    | (with_reducible apply P_foldl)
    | (with_reducible intro _)
    | (with_reducible apply P_ite)
    | (with_reducible apply P_ite2)
    | split
    | dsimp only

theorem actLdw_keeps {P : State → Prop} (K : MemKept P) {c : Fin 4} {w : Word} {s : State} (h : P s) :
    P (actLdw c w s) := by
  unfold actLdw
  try dsimp only
  repeat' first
    | (with_reducible assumption)
    | (with_reducible apply load_keeps K)
    | (with_reducible apply forEach_keeps)
    | (with_reducible apply P_foldl)
    | (with_reducible intro _)
    | (with_reducible apply P_ite)
    | (with_reducible apply P_ite2)
    | split
    | dsimp only

theorem actSfillw_keeps {P : State → Prop} (K : MemKept P) {c : Fin 4} {elems : Nat} {w : Word} {s : State} (h : P s) :
    P (actSfillw c elems w s) := by
  unfold actSfillw
  try dsimp only
  repeat' first
    | (with_reducible assumption)
    | (with_reducible apply StrOp.begin_keeps K)
    | (with_reducible apply forEach_keeps)
    | (with_reducible apply P_foldl)
    | (with_reducible intro _)
    | (with_reducible apply P_ite)
    | (with_reducible apply P_ite2)
    | split
    | dsimp only

theorem actSmovb_keeps {P : State → Prop} (K : MemKept P) {c : Fin 4} {elems : Nat} {w : Word} {s : State} (h : P s) :
    P (actSmovb c elems w s) := by
  unfold actSmovb
  try dsimp only
  repeat' first
    | (with_reducible assumption)
    | (with_reducible apply StrOp.begin_keeps K)
    | (with_reducible apply forEach_keeps)
    | (with_reducible apply P_foldl)
    | (with_reducible intro _)
    | (with_reducible apply P_ite)
    | (with_reducible apply P_ite2)
    | split
    | dsimp only

theorem actSmovw_keeps {P : State → Prop} (K : MemKept P) {c : Fin 4} {elems : Nat} {w : Word} {s : State} (h : P s) :
    P (actSmovw c elems w s) := by
  unfold actSmovw
  try dsimp only
  repeat' first
    | (with_reducible assumption)
    | (with_reducible apply StrOp.begin_keeps K)
    | (with_reducible apply forEach_keeps)
    | (with_reducible apply P_foldl)
    | (with_reducible intro _)
    | (with_reducible apply P_ite)
    | (with_reducible apply P_ite2)
    | split
    | dsimp only

theorem snapWords_keeps {P : State → Prop} (K : MemKept P) {c : Fin 4} {k : Nat} {b : Word} {i n : Nat} {s : State} (h : P s) :
    P (snapWords c k b i n s) := by
  induction n generalizing i s with
  | zero => exact h
  | succ n ih => exact ih (courseStore_keeps K (courseLoad_keeps K h))

theorem snapCopy_keeps {P : State → Prop} (K : MemKept P) {c : Fin 4} {k : Nat} {b : Word} {s : State} (h : P s) :
    P (snapCopy c k b s) := by
  unfold snapCopy
  try dsimp only
  repeat' first
    | (with_reducible assumption)
    | (with_reducible apply setAe_keeps K)
    | (with_reducible apply snapWords_keeps K)
    | (with_reducible apply forEach_keeps)
    | (with_reducible apply P_foldl)
    | (with_reducible intro _)
    | (with_reducible apply P_ite)
    | (with_reducible apply P_ite2)
    | split
    | dsimp only

theorem snap_keeps {P : State → Prop} (K : MemKept P) {c : Fin 4} {w : Word} {s : State} (h : P s) :
    P (snap c w s) := by
  unfold snap
  try dsimp only
  repeat' first
    | (with_reducible assumption)
    | (with_reducible apply bridge_keeps K)
    | (with_reducible apply hang_keeps K)
    | ((with_reducible apply landStores_keeps K (he := ?he)); case he => (with_reducible assumption))
    | (with_reducible apply K.frame (settle_only rfl (Only.refl _ _)))
    | (with_reducible apply snapCopy_keeps K)
    | (with_reducible apply waitCycles_keeps K)
    | (with_reducible apply forEach_keeps)
    | (with_reducible apply P_foldl)
    | (with_reducible intro _)
    | (with_reducible apply P_ite)
    | (with_reducible apply P_ite2)
    | split
    | dsimp only

theorem actSnap_keeps {P : State → Prop} (K : MemKept P) {c : Fin 4} {w : Word} {s : State} (h : P s) :
    P (actSnap c w s) := by
  unfold actSnap
  try dsimp only
  repeat' first
    | (with_reducible assumption)
    | (with_reducible apply snap_keeps K)
    | (with_reducible apply forEach_keeps)
    | (with_reducible apply P_foldl)
    | (with_reducible intro _)
    | (with_reducible apply P_ite)
    | (with_reducible apply P_ite2)
    | split
    | dsimp only

theorem actSscanw_keeps {P : State → Prop} (K : MemKept P) {c : Fin 4} {elems : Nat} {w : Word} {s : State} (h : P s) :
    P (actSscanw c elems w s) := by
  unfold actSscanw
  try dsimp only
  repeat' first
    | (with_reducible assumption)
    | (with_reducible apply StrOp.begin_keeps K)
    | (with_reducible apply forEach_keeps)
    | (with_reducible apply P_foldl)
    | (with_reducible intro _)
    | (with_reducible apply P_ite)
    | (with_reducible apply P_ite2)
    | split
    | dsimp only

theorem store_keeps {P : State → Prop} (K : MemKept P) {c : Fin 4} {n : Nat} {w : Word} {s : State} (h : P s) :
    P (store c n w s) := by
  unfold store
  try dsimp only
  repeat' first
    | (with_reducible assumption)
    | (with_reducible apply bridge_keeps K)
    | (with_reducible apply hang_keeps K)
    | (with_reducible apply K.frame (settle_only rfl (Only.refl _ _)))
    | ((with_reducible apply svStore_keeps K (he := ?he)); case he => (with_reducible assumption))
    | (with_reducible apply forEach_keeps)
    | (with_reducible apply P_foldl)
    | (with_reducible intro _)
    | (with_reducible apply P_ite)
    | (with_reducible apply P_ite2)
    | split
    | dsimp only

theorem actStb_keeps {P : State → Prop} (K : MemKept P) {c : Fin 4} {w : Word} {s : State} (h : P s) :
    P (actStb c w s) := by
  unfold actStb
  try dsimp only
  repeat' first
    | (with_reducible assumption)
    | (with_reducible apply store_keeps K)
    | (with_reducible apply forEach_keeps)
    | (with_reducible apply P_foldl)
    | (with_reducible intro _)
    | (with_reducible apply P_ite)
    | (with_reducible apply P_ite2)
    | split
    | dsimp only

theorem actSth_keeps {P : State → Prop} (K : MemKept P) {c : Fin 4} {w : Word} {s : State} (h : P s) :
    P (actSth c w s) := by
  unfold actSth
  try dsimp only
  repeat' first
    | (with_reducible assumption)
    | (with_reducible apply store_keeps K)
    | (with_reducible apply forEach_keeps)
    | (with_reducible apply P_foldl)
    | (with_reducible intro _)
    | (with_reducible apply P_ite)
    | (with_reducible apply P_ite2)
    | split
    | dsimp only

theorem actStw_keeps {P : State → Prop} (K : MemKept P) {c : Fin 4} {w : Word} {s : State} (h : P s) :
    P (actStw c w s) := by
  unfold actStw
  try dsimp only
  repeat' first
    | (with_reducible assumption)
    | (with_reducible apply store_keeps K)
    | (with_reducible apply forEach_keeps)
    | (with_reducible apply P_foldl)
    | (with_reducible intro _)
    | (with_reducible apply P_ite)
    | (with_reducible apply P_ite2)
    | split
    | dsimp only

theorem actOf_keeps {P : State → Prop} (K : MemKept P) {c : Fin 4} {elems : Nat} {w : Word} {s : State} (h : P s) :
    P (actOf c elems w s) := by
  unfold actOf
  try dsimp only
  repeat' first
    | (with_reducible assumption)
    | (with_reducible apply K.frame (actAdc_only rfl (Only.refl _ _)))
    | (with_reducible apply K.frame (actAdd_only rfl (Only.refl _ _)))
    | (with_reducible apply K.frame (actAddi_only rfl (Only.refl _ _)))
    | (with_reducible apply K.frame (actAnd_only rfl (Only.refl _ _)))
    | (with_reducible apply K.frame (actAndi_only rfl (Only.refl _ _)))
    | (with_reducible apply K.frame (actB_only rfl (Only.refl _ _)))
    | (with_reducible apply K.frame (actBrk_only rfl (Only.refl _ _)))
    | (with_reducible apply K.frame (actCmp_only rfl (Only.refl _ _)))
    | (with_reducible apply K.frame (actCmpi_only rfl (Only.refl _ _)))
    | (with_reducible apply K.frame (actDivu_only rfl (Only.refl _ _)))
    | (with_reducible apply K.frame (actEret_only rfl (Only.refl _ _)))
    | (with_reducible apply K.frame (actIllegal_only rfl (Only.refl _ _)))
    | (with_reducible apply K.frame (actJal_only rfl (Only.refl _ _)))
    | (with_reducible apply K.frame (actJr_only rfl (Only.refl _ _)))
    | (with_reducible apply actLdb_keeps K)
    | (with_reducible apply actLdbs_keeps K)
    | (with_reducible apply actLdh_keeps K)
    | (with_reducible apply actLdhs_keeps K)
    | (with_reducible apply actLdw_keeps K)
    | (with_reducible apply K.frame (actMacs_only rfl (Only.refl _ _)))
    | (with_reducible apply K.frame (actMacu_only rfl (Only.refl _ _)))
    | (with_reducible apply K.frame (actMaxu_only rfl (Only.refl _ _)))
    | (with_reducible apply K.frame (actMaxui_only rfl (Only.refl _ _)))
    | (with_reducible apply K.frame (actMfs_only rfl (Only.refl _ _)))
    | (with_reducible apply K.frame (actMinu_only rfl (Only.refl _ _)))
    | (with_reducible apply K.frame (actMinui_only rfl (Only.refl _ _)))
    | (with_reducible apply K.frame (actMovh_only rfl (Only.refl _ _)))
    | (with_reducible apply K.frame (actMovl_only rfl (Only.refl _ _)))
    | (with_reducible apply K.frame (actMts_only rfl (Only.refl _ _)))
    | (with_reducible apply K.frame (actMuls_only rfl (Only.refl _ _)))
    | (with_reducible apply K.frame (actMulu_only rfl (Only.refl _ _)))
    | (with_reducible apply K.frame (actNop_only rfl (Only.refl _ _)))
    | (with_reducible apply K.frame (actOr_only rfl (Only.refl _ _)))
    | (with_reducible apply K.frame (actOri_only rfl (Only.refl _ _)))
    | (with_reducible apply K.frame (actRep_only rfl (Only.refl _ _)))
    | (with_reducible apply K.frame (actSar_only rfl (Only.refl _ _)))
    | (with_reducible apply K.frame (actSari_only rfl (Only.refl _ _)))
    | (with_reducible apply K.frame (actSbc_only rfl (Only.refl _ _)))
    | (with_reducible apply actSfillw_keeps K)
    | (with_reducible apply K.frame (actShl_only rfl (Only.refl _ _)))
    | (with_reducible apply K.frame (actShli_only rfl (Only.refl _ _)))
    | (with_reducible apply K.frame (actShr_only rfl (Only.refl _ _)))
    | (with_reducible apply K.frame (actShri_only rfl (Only.refl _ _)))
    | (with_reducible apply actSmovb_keeps K)
    | (with_reducible apply actSmovw_keeps K)
    | (with_reducible apply actSnap_keeps K)
    | (with_reducible apply actSscanw_keeps K)
    | (with_reducible apply actStb_keeps K)
    | (with_reducible apply actSth_keeps K)
    | (with_reducible apply actStw_keeps K)
    | (with_reducible apply K.frame (actSub_only rfl (Only.refl _ _)))
    | (with_reducible apply K.frame (actTst_only rfl (Only.refl _ _)))
    | (with_reducible apply K.frame (actTsti_only rfl (Only.refl _ _)))
    | (with_reducible apply K.frame (actWait_only rfl (Only.refl _ _)))
    | (with_reducible apply K.frame (actXor_only rfl (Only.refl _ _)))
    | (with_reducible apply K.frame (actXori_only rfl (Only.refl _ _)))
    | (with_reducible apply K.frame (actXret_only rfl (Only.refl _ _)))
    | (with_reducible apply forEach_keeps)
    | (with_reducible apply P_foldl)
    | (with_reducible intro _)
    | (with_reducible apply P_ite)
    | (with_reducible apply P_ite2)
    | split
    | dsimp only

theorem sendCable_keeps {P : State → Prop} (K : MemKept P) {p : Nat} {s : State} (h : P s) :
    P (sendCable p s) := by
  unfold sendCable
  try dsimp only
  repeat' first
    | (with_reducible assumption)
    | (with_reducible apply say_keeps K)
    | (with_reducible apply K.frame (updFw_only rfl (Only.refl _ _)))
    | (with_reducible apply forEach_keeps)
    | (with_reducible apply P_foldl)
    | (with_reducible intro _)
    | (with_reducible apply P_ite)
    | (with_reducible apply P_ite2)
    | split
    | dsimp only

theorem sendCaps_keeps {P : State → Prop} (K : MemKept P) {p : Nat} {reply : Bool} {s : State} (h : P s) :
    P (sendCaps p reply s) := by
  unfold sendCaps
  try dsimp only
  repeat' first
    | (with_reducible assumption)
    | (with_reducible apply say_keeps K)
    | (with_reducible apply K.frame (updFw_only rfl (Only.refl _ _)))
    | (with_reducible apply forEach_keeps)
    | (with_reducible apply P_foldl)
    | (with_reducible intro _)
    | (with_reducible apply P_ite)
    | (with_reducible apply P_ite2)
    | split
    | dsimp only

theorem atSafe5v_keeps {P : State → Prop} (K : MemKept P) {p : Nat} {s : State} (h : P s) :
    P (atSafe5v p s) := by
  unfold atSafe5v
  try dsimp only
  repeat' first
    | (with_reducible assumption)
    | (with_reducible apply K.frame (armNoResponse_only rfl (Only.refl _ _)))
    | (with_reducible apply K.frame (recordContract_only rfl (Only.refl _ _)))
    | (with_reducible apply sendCable_keeps K)
    | (with_reducible apply sendCaps_keeps K)
    | (with_reducible apply K.frame (updFw_only rfl (Only.refl _ _)))
    | (with_reducible apply forEach_keeps)
    | (with_reducible apply P_foldl)
    | (with_reducible intro _)
    | (with_reducible apply P_ite)
    | (with_reducible apply P_ite2)
    | split
    | dsimp only

theorem fwHardReset_keeps {P : State → Prop} (K : MemKept P) {p : Nat} {s : State} (h : P s) :
    P (fwHardReset p s) := by
  unfold fwHardReset
  try dsimp only
  repeat' first
    | (with_reducible assumption)
    | (with_reducible apply K.frame (waitFor_only rfl (Only.refl _ _)))
    | (with_reducible apply writePdCmd_keeps K)
    | (with_reducible apply forEach_keeps)
    | (with_reducible apply P_foldl)
    | (with_reducible intro _)
    | (with_reducible apply P_ite)
    | (with_reducible apply P_ite2)
    | split
    | dsimp only

theorem fwResult_keeps {P : State → Prop} (K : MemKept P) {c : Nat} {e : CqEntry} {s : State} (h : P s) :
    P (fwResult c e s) := by
  unfold fwResult
  try dsimp only
  repeat' first
    | (with_reducible assumption)
    | (with_reducible apply K.frame (arm_only rfl (Only.refl _ _)))
    | (with_reducible apply atSafe5v_keeps K)
    | (with_reducible apply fwHardReset_keeps K)
    | (with_reducible apply sayCtl_keeps K)
    | (with_reducible apply K.frame (shedSeen_only rfl (Only.refl _ _)))
    | (with_reducible apply K.frame (updFw_only rfl (Only.refl _ _)))
    | (with_reducible apply forEach_keeps)
    | (with_reducible apply P_foldl)
    | (with_reducible intro _)
    | (with_reducible apply P_ite)
    | (with_reducible apply P_ite2)
    | split
    | dsimp only

theorem drainCq_keeps {P : State → Prop} (K : MemKept P) {c n : Nat} {s : State} (h : P s) :
    P (drainCq c n s) := by
  induction n generalizing s with
  | zero => exact h
  | succ n ih =>
    rw [drainCq]
    split
    · exact h
    · exact P_ite h (ih (fwResult_keeps K (readCq_keeps K h)))

theorem sayAgain_keeps {P : State → Prop} (K : MemKept P) {p : Nat} {m : Say × List Byte} {s : State} (h : P s) :
    P (sayAgain p m s) := by
  unfold sayAgain
  try dsimp only
  repeat' first
    | (with_reducible assumption)
    | (with_reducible apply say_keeps K)
    | (with_reducible apply forEach_keeps)
    | (with_reducible apply P_foldl)
    | (with_reducible intro _)
    | (with_reducible apply P_ite)
    | (with_reducible apply P_ite2)
    | split
    | dsimp only

theorem sayVdm_keeps {P : State → Prop} (K : MemKept P) {p : Nat} {w : Say} {objs : List Nat} {s : State} (h : P s) :
    P (sayVdm p w objs s) := by
  unfold sayVdm
  try dsimp only
  repeat' first
    | (with_reducible assumption)
    | (with_reducible apply sayAgain_keeps K)
    | (with_reducible apply forEach_keeps)
    | (with_reducible apply P_foldl)
    | (with_reducible intro _)
    | (with_reducible apply P_ite)
    | (with_reducible apply P_ite2)
    | split
    | dsimp only

theorem sendHcaps_keeps {P : State → Prop} (K : MemKept P) {p : Nat} {s : State} (h : P s) :
    P (sendHcaps p s) := by
  unfold sendHcaps
  try dsimp only
  repeat' first
    | (with_reducible assumption)
    | (with_reducible apply sayVdm_keeps K)
    | (with_reducible apply sendCaps_keeps K)
    | (with_reducible apply K.frame (updFw_only rfl (Only.refl _ _)))
    | (with_reducible apply forEach_keeps)
    | (with_reducible apply P_foldl)
    | (with_reducible intro _)
    | (with_reducible apply P_ite)
    | (with_reducible apply P_ite2)
    | split
    | dsimp only

theorem sendOffer_keeps {P : State → Prop} (K : MemKept P) {p : Nat} {s : State} (h : P s) :
    P (sendOffer p s) := by
  unfold sendOffer
  try dsimp only
  repeat' first
    | (with_reducible assumption)
    | (with_reducible apply sendCaps_keeps K)
    | (with_reducible apply sendHcaps_keeps K)
    | (with_reducible apply K.frame (updFw_only rfl (Only.refl _ _)))
    | (with_reducible apply forEach_keeps)
    | (with_reducible apply P_foldl)
    | (with_reducible intro _)
    | (with_reducible apply P_ite)
    | (with_reducible apply P_ite2)
    | split
    | dsimp only

theorem swapAccept_keeps {P : State → Prop} (K : MemKept P) {p : Nat} {s : State} (h : P s) :
    P (swapAccept p s) := by
  unfold swapAccept
  try dsimp only
  repeat' first
    | (with_reducible assumption)
    | (with_reducible apply K.frame (arm_only rfl (Only.refl _ _)))
    | (with_reducible apply fwHardReset_keeps K)
    | (with_reducible apply K.frame (pushArgs_only rfl (Only.refl _ _)))
    | (with_reducible apply sayCtl_keeps K)
    | (with_reducible apply K.frame (updFw_only rfl (Only.refl _ _)))
    | (with_reducible apply forEach_keeps)
    | (with_reducible apply P_foldl)
    | (with_reducible intro _)
    | (with_reducible apply P_ite)
    | (with_reducible apply P_ite2)
    | split
    | dsimp only

theorem fwBound_keeps {P : State → Prop} (K : MemKept P) {p : Nat} {alloc : Bool} {s : State} (h : P s) :
    P (fwBound p alloc s) := by
  unfold fwBound
  try dsimp only
  repeat' first
    | (with_reducible assumption)
    | (with_reducible apply K.frame (arm_only rfl (Only.refl _ _)))
    | (with_reducible apply K.frame (exitMode_only rfl (Only.refl _ _)))
    | (with_reducible apply sayCtl_keeps K)
    | (with_reducible apply sendCaps_keeps K)
    | (with_reducible apply sendOffer_keeps K)
    | (with_reducible apply swapAccept_keeps K)
    | (with_reducible apply K.frame (tryTurnOn_only rfl (Only.refl _ _)))
    | (with_reducible apply K.frame (updFw_only rfl (Only.refl _ _)))
    | (with_reducible apply forEach_keeps)
    | (with_reducible apply P_foldl)
    | (with_reducible intro _)
    | (with_reducible apply P_ite)
    | (with_reducible apply P_ite2)
    | split
    | dsimp only

theorem reAdvertise_keeps {P : State → Prop} (K : MemKept P) {p : Nat} {s : State} (h : P s) :
    P (reAdvertise p s) := by
  unfold reAdvertise
  try dsimp only
  repeat' first
    | (with_reducible assumption)
    | (with_reducible apply K.frame (fwAlloc_only rfl (Only.refl _ _)))
    | (with_reducible apply sendOffer_keeps K)
    | (with_reducible apply K.frame (updFw_only rfl (Only.refl _ _)))
    | (with_reducible apply forEach_keeps)
    | (with_reducible apply P_foldl)
    | (with_reducible intro _)
    | (with_reducible apply P_ite)
    | (with_reducible apply P_ite2)
    | split
    | dsimp only

theorem settleCtx_keeps {P : State → Prop} (K : MemKept P) {p : Nat} {s : State} (h : P s) :
    P (settleCtx p s) := by
  unfold settleCtx
  try dsimp only
  repeat' first
    | (with_reducible assumption)
    | (with_reducible apply K.frame (fwRelease_only rfl (Only.refl _ _)))
    | (with_reducible apply reAdvertise_keeps K)
    | (with_reducible apply K.frame (updFw_only rfl (Only.refl _ _)))
    | (with_reducible apply forEach_keeps)
    | (with_reducible apply P_foldl)
    | (with_reducible intro _)
    | (with_reducible apply P_ite)
    | (with_reducible apply P_ite2)
    | split
    | dsimp only

theorem contractMade_keeps {P : State → Prop} (K : MemKept P) {p : Nat} {t : Tran} {s : State} (h : P s) :
    P (contractMade p t s) := by
  unfold contractMade
  try dsimp only
  repeat' first
    | (with_reducible assumption)
    | (with_reducible apply K.frame (exitMode_only rfl (Only.refl _ _)))
    | (with_reducible apply K.frame (fwAlloc_only rfl (Only.refl _ _)))
    | (with_reducible apply K.frame (recordContract_only rfl (Only.refl _ _)))
    | (with_reducible apply say_keeps K)
    | (with_reducible apply K.frame (setHstate_only rfl (Only.refl _ _)))
    | (with_reducible apply settleCtx_keeps K)
    | (with_reducible apply K.frame (updFw_only rfl (Only.refl _ _)))
    | (with_reducible apply K.frame (watchPps_only rfl (Only.refl _ _)))
    | (with_reducible apply K.frame (writeKa_only rfl (Only.refl _ _)))
    | (with_reducible apply forEach_keeps)
    | (with_reducible apply P_foldl)
    | (with_reducible intro _)
    | (with_reducible apply P_ite)
    | (with_reducible apply P_ite2)
    | split
    | dsimp only

theorem discFail_keeps {P : State → Prop} (K : MemKept P) {p : Nat} {s : State} (h : P s) :
    P (discFail p s) := by
  unfold discFail
  try dsimp only
  repeat' first
    | (with_reducible assumption)
    | (with_reducible apply fwHardReset_keeps K)
    | (with_reducible apply K.frame (setHstate_only rfl (Only.refl _ _)))
    | (with_reducible apply settleCtx_keeps K)
    | (with_reducible apply K.frame (updFw_only rfl (Only.refl _ _)))
    | (with_reducible apply forEach_keeps)
    | (with_reducible apply P_foldl)
    | (with_reducible intro _)
    | (with_reducible apply P_ite)
    | (with_reducible apply P_ite2)
    | split
    | dsimp only

theorem sendDisc_keeps {P : State → Prop} (K : MemKept P) {p : Nat} {d : Disc} {s : State} (h : P s) :
    P (sendDisc p d s) := by
  unfold sendDisc
  try dsimp only
  repeat' first
    | (with_reducible assumption)
    | (with_reducible apply sayVdm_keeps K)
    | (with_reducible apply K.frame (updFw_only rfl (Only.refl _ _)))
    | (with_reducible apply forEach_keeps)
    | (with_reducible apply P_foldl)
    | (with_reducible intro _)
    | (with_reducible apply P_ite)
    | (with_reducible apply P_ite2)
    | split
    | dsimp only

theorem discMiss_keeps {P : State → Prop} (K : MemKept P) {p : Nat} {busy : Bool} {s : State} (h : P s) :
    P (discMiss p busy s) := by
  unfold discMiss
  try dsimp only
  repeat' first
    | (with_reducible assumption)
    | (with_reducible apply K.frame (arm_only rfl (Only.refl _ _)))
    | (with_reducible apply discFail_keeps K)
    | (with_reducible apply sendDisc_keeps K)
    | (with_reducible apply K.frame (updFw_only rfl (Only.refl _ _)))
    | (with_reducible apply forEach_keeps)
    | (with_reducible apply P_foldl)
    | (with_reducible intro _)
    | (with_reducible apply P_ite)
    | (with_reducible apply P_ite2)
    | split
    | dsimp only

theorem exitDone_keeps {P : State → Prop} (K : MemKept P) {p : Nat} {s : State} (h : P s) :
    P (exitDone p s) := by
  unfold exitDone
  try dsimp only
  repeat' first
    | (with_reducible assumption)
    | (with_reducible apply K.frame (setHstate_only rfl (Only.refl _ _)))
    | (with_reducible apply settleCtx_keeps K)
    | (with_reducible apply K.frame (updFw_only rfl (Only.refl _ _)))
    | (with_reducible apply K.frame (waitFor_only rfl (Only.refl _ _)))
    | (with_reducible apply forEach_keeps)
    | (with_reducible apply P_foldl)
    | (with_reducible intro _)
    | (with_reducible apply P_ite)
    | (with_reducible apply P_ite2)
    | split
    | dsimp only

theorem firstCaps_keeps {P : State → Prop} (K : MemKept P) {p : Nat} {s : State} (h : P s) :
    P (firstCaps p s) := by
  unfold firstCaps
  try dsimp only
  repeat' first
    | (with_reducible assumption)
    | (with_reducible apply sendCaps_keeps K)
    | (with_reducible apply forEach_keeps)
    | (with_reducible apply P_foldl)
    | (with_reducible intro _)
    | (with_reducible apply P_ite)
    | (with_reducible apply P_ite2)
    | split
    | dsimp only

theorem hcapsMiss_keeps {P : State → Prop} (K : MemKept P) {p : Nat} {s : State} (h : P s) :
    P (hcapsMiss p s) := by
  unfold hcapsMiss
  try dsimp only
  repeat' first
    | (with_reducible assumption)
    | (with_reducible apply sendHcaps_keeps K)
    | (with_reducible apply settleCtx_keeps K)
    | (with_reducible apply K.frame (waitFor_only rfl (Only.refl _ _)))
    | (with_reducible apply forEach_keeps)
    | (with_reducible apply P_foldl)
    | (with_reducible intro _)
    | (with_reducible apply P_ite)
    | (with_reducible apply P_ite2)
    | split
    | dsimp only

theorem offerHeavy_keeps {P : State → Prop} (K : MemKept P) {p : Nat} {s : State} (h : P s) :
    P (offerHeavy p s) := by
  unfold offerHeavy
  try dsimp only
  repeat' first
    | (with_reducible assumption)
    | (with_reducible apply K.frame (fwAlloc_only rfl (Only.refl _ _)))
    | (with_reducible apply sendHcaps_keeps K)
    | (with_reducible apply K.frame (updFw_only rfl (Only.refl _ _)))
    | (with_reducible apply forEach_keeps)
    | (with_reducible apply P_foldl)
    | (with_reducible intro _)
    | (with_reducible apply P_ite)
    | (with_reducible apply P_ite2)
    | split
    | dsimp only

theorem sayDropped_keeps {P : State → Prop} (K : MemKept P) {p : Nat} {s : State} (h : P s) :
    P (sayDropped p s) := by
  unfold sayDropped
  try dsimp only
  repeat' first
    | (with_reducible assumption)
    | (with_reducible apply sayAgain_keeps K)
    | (with_reducible apply K.frame (updFw_only rfl (Only.refl _ _)))
    | (with_reducible apply forEach_keeps)
    | (with_reducible apply P_foldl)
    | (with_reducible intro _)
    | (with_reducible apply P_ite)
    | (with_reducible apply P_ite2)
    | split
    | dsimp only

theorem sendSoftReset_keeps {P : State → Prop} (K : MemKept P) {p : Nat} {s : State} (h : P s) :
    P (sendSoftReset p s) := by
  unfold sendSoftReset
  try dsimp only
  repeat' first
    | (with_reducible assumption)
    | (with_reducible apply say_keeps K)
    | (with_reducible apply K.frame (updFw_only rfl (Only.refl _ _)))
    | (with_reducible apply forEach_keeps)
    | (with_reducible apply P_foldl)
    | (with_reducible intro _)
    | (with_reducible apply P_ite)
    | (with_reducible apply P_ite2)
    | split
    | dsimp only

theorem said_keeps {P : State → Prop} (K : MemKept P) {p : Nat} {w : Say} {k : EvKind} {s : State} (h : P s) :
    P (said p w k s) := by
  unfold said
  try dsimp only
  repeat' first
    | (with_reducible assumption)
    | (with_reducible apply K.frame (arm_only rfl (Only.refl _ _)))
    | (with_reducible apply contractMade_keeps K)
    | (with_reducible apply discMiss_keeps K)
    | (with_reducible apply exitDone_keeps K)
    | (with_reducible apply firstCaps_keeps K)
    | (with_reducible apply fwHardReset_keeps K)
    | (with_reducible apply K.frame (fwRelease_only rfl (Only.refl _ _)))
    | (with_reducible apply hcapsMiss_keeps K)
    | (with_reducible apply K.frame (leaveEpr_only rfl (Only.refl _ _)))
    | (with_reducible apply K.frame (noTransition_only rfl (Only.refl _ _)))
    | (with_reducible apply offerHeavy_keeps K)
    | (with_reducible apply K.frame (openTransition_only rfl (Only.refl _ _)))
    | (with_reducible apply say_keeps K)
    | (with_reducible apply sayDropped_keeps K)
    | (with_reducible apply sendCaps_keeps K)
    | (with_reducible apply sendSoftReset_keeps K)
    | (with_reducible apply K.frame (updFw_only rfl (Only.refl _ _)))
    | (with_reducible apply K.frame (waitFor_only rfl (Only.refl _ _)))
    | (with_reducible apply K.frame (writeKa_only rfl (Only.refl _ _)))
    | (with_reducible apply forEach_keeps)
    | (with_reducible apply P_foldl)
    | (with_reducible intro _)
    | (with_reducible apply P_ite)
    | (with_reducible apply P_ite2)
    | split
    | dsimp only

theorem fwEvent_keeps {P : State → Prop} (K : MemKept P) {c : Nat} {e : EvEntry} {s : State} (h : P s) :
    P (fwEvent c e s) := by
  unfold fwEvent
  try dsimp only
  repeat' first
    | (with_reducible assumption)
    | (with_reducible apply fwBound_keeps K)
    | (with_reducible apply K.frame (putChain_only rfl (Only.refl _ _)))
    | (with_reducible apply K.frame (releaseCtx_only rfl (Only.refl _ _)))
    | (with_reducible apply said_keeps K)
    | (with_reducible apply K.frame (updFw_only rfl (Only.refl _ _)))
    | (with_reducible apply forEach_keeps)
    | (with_reducible apply P_foldl)
    | (with_reducible intro _)
    | (with_reducible apply P_ite)
    | (with_reducible apply P_ite2)
    | split
    | dsimp only

theorem drainEv_keeps {P : State → Prop} (K : MemKept P) {c n : Nat} {s : State} (h : P s) :
    P (drainEv c n s) := by
  induction n generalizing s with
  | zero => exact h
  | succ n ih =>
    rw [drainEv]
    split
    · exact h
    · exact P_ite h (ih (fwEvent_keeps K (readEvq_keeps K h)))

theorem fwPortEvents_keeps {P : State → Prop} (K : MemKept P) {p : Nat} {s : State} (h : P s) :
    P (fwPortEvents p s) := by
  unfold fwPortEvents
  try dsimp only
  repeat' first
    | (with_reducible assumption)
    | (with_reducible apply fwHardReset_keeps K)
    | (with_reducible apply K.frame (hardResetSeen_only rfl (Only.refl _ _)))
    | (with_reducible apply K.frame (setFld_only rfl (Only.refl _ _)))
    | (with_reducible apply forEach_keeps)
    | (with_reducible apply P_foldl)
    | (with_reducible intro _)
    | (with_reducible apply P_ite)
    | (with_reducible apply P_ite2)
    | split
    | dsimp only

theorem fwPrep_keeps {P : State → Prop} (K : MemKept P) {c : Nat} {s : State} (h : P s) :
    P (fwPrep c s) := by
  unfold fwPrep
  try dsimp only
  repeat' first
    | (with_reducible assumption)
    | (with_reducible apply drainCq_keeps K)
    | (with_reducible apply drainEv_keeps K)
    | (with_reducible apply fwPortEvents_keeps K)
    | (with_reducible apply forEach_keeps)
    | (with_reducible apply P_foldl)
    | (with_reducible intro _)
    | (with_reducible apply P_ite)
    | (with_reducible apply P_ite2)
    | split
    | dsimp only

theorem afterCommit_keeps {P : State → Prop} (K : MemKept P) {c : Nat} {s : State} (h : P s) :
    P (afterCommit c s) := by
  unfold afterCommit
  try dsimp only
  repeat' first
    | (with_reducible assumption)
    | (with_reducible apply fwPrep_keeps K)
    | (with_reducible apply reAdvertise_keeps K)
    | (with_reducible apply K.frame (tryTurnOn_only rfl (Only.refl _ _)))
    | (with_reducible apply forEach_keeps)
    | (with_reducible apply P_foldl)
    | (with_reducible intro _)
    | (with_reducible apply P_ite)
    | (with_reducible apply P_ite2)
    | split
    | dsimp only

theorem answerCtl_keeps {P : State → Prop} (K : MemKept P) {p : Nat} {t : Nat} {s : State} (h : P s) :
    P (answerCtl p t s) := by
  unfold answerCtl
  try dsimp only
  repeat' first
    | (with_reducible assumption)
    | (with_reducible apply say_keeps K)
    | (with_reducible apply sayCtl_keeps K)
    | (with_reducible apply sendCaps_keeps K)
    | (with_reducible apply sendSoftReset_keeps K)
    | (with_reducible apply K.frame (updFw_only rfl (Only.refl _ _)))
    | (with_reducible apply K.frame (waitFor_only rfl (Only.refl _ _)))
    | (with_reducible apply forEach_keeps)
    | (with_reducible apply P_foldl)
    | (with_reducible intro _)
    | (with_reducible apply P_ite)
    | (with_reducible apply P_ite2)
    | split
    | dsimp only

theorem answerVdm_keeps {P : State → Prop} (K : MemKept P) {p : Nat} {m : List Byte} {s : State} (h : P s) :
    P (answerVdm p m s) := by
  unfold answerVdm
  try dsimp only
  repeat' first
    | (with_reducible assumption)
    | (with_reducible apply K.frame (countUnanswered_only rfl (Only.refl _ _)))
    | (with_reducible apply say_keeps K)
    | (with_reducible apply forEach_keeps)
    | (with_reducible apply P_foldl)
    | (with_reducible intro _)
    | (with_reducible apply P_ite)
    | (with_reducible apply P_ite2)
    | split
    | dsimp only

theorem answerMsg_keeps {P : State → Prop} (K : MemKept P) {p : Nat} {m : List Byte} {s : State} (h : P s) :
    P (answerMsg p m s) := by
  unfold answerMsg
  try dsimp only
  repeat' first
    | (with_reducible assumption)
    | (with_reducible apply answerCtl_keeps K)
    | (with_reducible apply answerVdm_keeps K)
    | (with_reducible apply K.frame (countUnanswered_only rfl (Only.refl _ _)))
    | (with_reducible apply say_keeps K)
    | (with_reducible apply sayCtl_keeps K)
    | (with_reducible apply forEach_keeps)
    | (with_reducible apply P_foldl)
    | (with_reducible intro _)
    | (with_reducible apply P_ite)
    | (with_reducible apply P_ite2)
    | split
    | dsimp only

theorem attach_keeps {P : State → Prop} (K : MemKept P) {p : Nat} {cc1 : Nat} {cc2 : Nat} {vs : Nat} {s : State} (h : P s) :
    P (attach p cc1 cc2 vs s) := by
  unfold attach
  try dsimp only
  repeat' first
    | (with_reducible assumption)
    | (with_reducible apply acceptAttach_keeps K)
    | (with_reducible apply K.frame (portEvt_only rfl (Only.refl _ _)))
    | (with_reducible apply K.frame (updPort_only rfl (Only.refl _ _)))
    | (with_reducible apply forEach_keeps)
    | (with_reducible apply P_foldl)
    | (with_reducible intro _)
    | (with_reducible apply P_ite)
    | (with_reducible apply P_ite2)
    | split
    | dsimp only

theorem blockStaged_keeps {P : State → Prop} (K : MemKept P) {okA : Bool} {okB : Bool} {s : State} (h : P s) :
    P (blockStaged okA okB s) := by
  unfold blockStaged
  try dsimp only
  repeat' first
    | (with_reducible assumption)
    | (with_reducible apply K.frame (failWith_only rfl (Only.refl _ _)))
    | (with_reducible apply K.frame (flashResult_only rfl (Only.refl _ _)))
    | (with_reducible apply K.frame (incFld_only rfl (Only.refl _ _)))
    | (with_reducible apply seenRange_keeps K)
    | (with_reducible apply K.frame (showMissing_only rfl (Only.refl _ _)))
    | (with_reducible apply K.frame (updUpd_only rfl (Only.refl _ _)))
    | (with_reducible apply forEach_keeps)
    | (with_reducible apply P_foldl)
    | (with_reducible intro _)
    | (with_reducible apply P_ite)
    | (with_reducible apply P_ite2)
    | split
    | dsimp only

theorem startCourse_keeps {P : State → Prop} (K : MemKept P) {c : Nat} {s0 : State} (h : P s0) :
    P (startCourse c s0) := by
  unfold startCourse
  try dsimp only
  repeat' first
    | (with_reducible assumption)
    | (with_reducible apply clearMem_keeps K)
    | (with_reducible apply K.frame (restartFw_only rfl (Only.refl _ _)))
    | (with_reducible apply K.frame (setFld_only rfl (Only.refl _ _)))
    | (with_reducible apply updCrs_keeps K)
    | (with_reducible apply wordsWritten_keeps K)
    | (with_reducible apply forEach_keeps)
    | (with_reducible apply P_foldl)
    | (with_reducible intro _)
    | (with_reducible apply P_ite)
    | (with_reducible apply P_ite2)
    | split
    | dsimp only

theorem releaseCourse_keeps {P : State → Prop} (K : MemKept P) {c : Nat} {s : State} (h : P s) :
    P (releaseCourse c s) := by
  unfold releaseCourse
  try dsimp only
  repeat' first
    | (with_reducible assumption)
    | (with_reducible apply K.frame (setFld_only rfl (Only.refl _ _)))
    | (with_reducible apply startCourse_keeps K)
    | (with_reducible apply forEach_keeps)
    | (with_reducible apply P_foldl)
    | (with_reducible intro _)
    | (with_reducible apply P_ite)
    | (with_reducible apply P_ite2)
    | split
    | dsimp only

theorem writeCode_keeps {P : State → Prop} (K : MemKept P) {c : Nat} {code : List Byte} {s : State} (h : P s) :
    P (writeCode c code s) := by
  unfold writeCode
  try dsimp only
  repeat' first
    | (with_reducible assumption)
    | (with_reducible apply clearMem_keeps K)
    | (with_reducible apply setBytes_keeps K)
    | (with_reducible apply wordsWritten_keeps K)
    | (with_reducible apply forEach_keeps)
    | (with_reducible apply P_foldl)
    | (with_reducible intro _)
    | (with_reducible apply P_ite)
    | (with_reducible apply P_ite2)
    | split
    | dsimp only

theorem rewriteCode_keeps {P : State → Prop} (K : MemKept P) {c : Nat} {s : State} (h : P s) :
    P (rewriteCode c s) := by
  unfold rewriteCode
  try dsimp only
  repeat' first
    | (with_reducible assumption)
    | (with_reducible apply writeCode_keeps K)
    | (with_reducible apply forEach_keeps)
    | (with_reducible apply P_foldl)
    | (with_reducible intro _)
    | (with_reducible apply P_ite)
    | (with_reducible apply P_ite2)
    | split
    | dsimp only

theorem bootRelease_keeps {P : State → Prop} (K : MemKept P) {s : State} (h : P s) :
    P (bootRelease s) := by
  unfold bootRelease
  try dsimp only
  repeat' first
    | (with_reducible assumption)
    | (with_reducible apply K.frame (actValues_only rfl (Only.refl _ _)))
    | (with_reducible apply K.frame (firstAdmissions_only rfl (Only.refl _ _)))
    | (with_reducible apply K.frame (post_only rfl (Only.refl _ _)))
    | (with_reducible apply releaseCourse_keeps K)
    | (with_reducible apply rewriteCode_keeps K)
    | (with_reducible apply K.frame (setFld_only rfl (Only.refl _ _)))
    | (with_reducible apply K.frame (setLevel_only rfl (Only.refl _ _)))
    | (with_reducible apply K.frame (setPhase_only rfl (Only.refl _ _)))
    | (with_reducible apply K.frame (setReg_only rfl (Only.refl _ _)))
    | (with_reducible apply K.frame (showLevel_only rfl (Only.refl _ _)))
    | (with_reducible apply K.frame (startLink_only rfl (Only.refl _ _)))
    | (with_reducible apply K.frame (updBoot_only rfl (Only.refl _ _)))
    | (with_reducible apply forEach_keeps)
    | (with_reducible apply P_foldl)
    | (with_reducible intro _)
    | (with_reducible apply P_ite)
    | (with_reducible apply P_ite2)
    | split
    | dsimp only

theorem windowNext_keeps {P : State → Prop} (K : MemKept P) {s : State} (h : P s) : P (windowNext s) :=
  K.frame (windowNext_only rfl (Only.refl _ _)) h

theorem maPoison_keeps {P : State → Prop} (K : MemKept P) {a : Nat} {s : State} (h : P s) : P (maPoison a s) :=
  K.frame (maPoison_only rfl (Only.refl _ _)) h

theorem hostRead_keeps {P : State → Prop} (K : MemKept P) {a : Nat} {s : State} (h : P s) :
    P (hostRead a s).st := by
  have hs := seen_keeps K (l := s.regPlaces a) h
  unfold hostRead
  split
  · exact h
  · split
    · exact maErr_keeps K h
    · split
      · exact h
      · split
        · exact h
        · try dsimp only
          split
          · exact maPoison_keeps K hs
          · exact readReg_keeps K hs

theorem windowRead_keeps {P : State → Prop} (K : MemKept P) {s : State} (h : P s) :
    P (windowRead s).2 := by
  unfold windowRead
  try dsimp only
  repeat' first
    | (with_reducible assumption)
    | (with_reducible apply hostRead_keeps K)
    | (with_reducible apply K.frame (noteWerr_only rfl (Only.refl _ _)))
    | (with_reducible apply K.frame (setReg_only rfl (Only.refl _ _)))
    | (with_reducible apply forEach_keeps)
    | (with_reducible apply P_foldl)
    | (with_reducible intro _)
    | (with_reducible apply P_ite)
    | (with_reducible apply P_ite2)
    | split
    | dsimp only

theorem windowReadNext_keeps {P : State → Prop} (K : MemKept P) {s : State} (h : P s) :
    P (windowReadNext s).2 := by
  unfold windowReadNext
  try dsimp only
  repeat' first
    | (with_reducible assumption)
    | (with_reducible apply windowNext_keeps K)
    | (with_reducible apply windowRead_keeps K)
    | (with_reducible apply forEach_keeps)
    | (with_reducible apply P_foldl)
    | (with_reducible intro _)
    | (with_reducible apply P_ite)
    | (with_reducible apply P_ite2)
    | split
    | dsimp only

theorem burstRead_keeps {P : State → Prop} (K : MemKept P) {n : Nat} {s : State} (h : P s) :
    P (burstRead n s).2 := by
  induction n generalizing s with
  | zero => exact h
  | succ n ih => exact ih (windowReadNext_keeps K h)

theorem hostWrite_keeps {P : State → Prop} (K : MemKept P) {a : Nat} {v : Word} {s : State} (h : P s) :
    P (hostWrite a v s).2 := by
  unfold hostWrite
  try dsimp only
  repeat' first
    | (with_reducible assumption)
    | (with_reducible apply afterWrite_keeps K)
    | (with_reducible apply maErr_keeps K)
    | (with_reducible apply writeReg_keeps K)
    | (with_reducible apply forEach_keeps)
    | (with_reducible apply P_foldl)
    | (with_reducible intro _)
    | (with_reducible apply P_ite)
    | (with_reducible apply P_ite2)
    | split
    | dsimp only

theorem windowWrite_keeps {P : State → Prop} (K : MemKept P) {v : Word} {s : State} (h : P s) :
    P (windowWrite v s) := by
  unfold windowWrite
  try dsimp only
  repeat' first
    | (with_reducible assumption)
    | (with_reducible apply hostWrite_keeps K)
    | (with_reducible apply K.frame (noteWerr_only rfl (Only.refl _ _)))
    | (with_reducible apply forEach_keeps)
    | (with_reducible apply P_foldl)
    | (with_reducible intro _)
    | (with_reducible apply P_ite)
    | (with_reducible apply P_ite2)
    | split
    | dsimp only

theorem burstWrite_keeps {P : State → Prop} (K : MemKept P) {n : Nat} {b : List Byte} {s : State} (h : P s) :
    P (burstWrite n b s) := by
  induction n generalizing b s with
  | zero => exact h
  | succ n ih =>
    rw [burstWrite]
    exact P_ite h (ih (windowNext_keeps K (windowWrite_keeps K h)))

theorem cableAnswer_keeps {P : State → Prop} (K : MemKept P) {p : Nat} {m : List Byte} {s : State} (h : P s) :
    P (cableAnswer p m s) := by
  unfold cableAnswer
  try dsimp only
  repeat' first
    | (with_reducible assumption)
    | (with_reducible apply reAdvertise_keeps K)
    | (with_reducible apply sendCaps_keeps K)
    | (with_reducible apply K.frame (updFw_only rfl (Only.refl _ _)))
    | (with_reducible apply forEach_keeps)
    | (with_reducible apply P_foldl)
    | (with_reducible intro _)
    | (with_reducible apply P_ite)
    | (with_reducible apply P_ite2)
    | split
    | dsimp only

theorem cableNext_keeps {P : State → Prop} (K : MemKept P) {p : Nat} {s : State} (h : P s) :
    P (cableNext p s) := by
  unfold cableNext
  try dsimp only
  repeat' first
    | (with_reducible assumption)
    | (with_reducible apply firstCaps_keeps K)
    | (with_reducible apply sendCable_keeps K)
    | (with_reducible apply K.frame (updFw_only rfl (Only.refl _ _)))
    | (with_reducible apply forEach_keeps)
    | (with_reducible apply P_foldl)
    | (with_reducible intro _)
    | (with_reducible apply P_ite)
    | (with_reducible apply P_ite2)
    | split
    | dsimp only

theorem candFail_keeps {P : State → Prop} (K : MemKept P) {code : Nat} {s : State} (h : P s) :
    P (candFail code s) := by
  unfold candFail
  try dsimp only
  repeat' first
    | (with_reducible assumption)
    | (with_reducible apply clearMem_keeps K)
    | (with_reducible apply K.frame (nextCand_only rfl (Only.refl _ _)))
    | (with_reducible apply K.frame (setOutcome_only rfl (Only.refl _ _)))
    | (with_reducible apply K.frame (updBoot_only rfl (Only.refl _ _)))
    | (with_reducible apply wordsWritten_keeps K)
    | (with_reducible apply forEach_keeps)
    | (with_reducible apply P_foldl)
    | (with_reducible intro _)
    | (with_reducible apply P_ite)
    | (with_reducible apply P_ite2)
    | split
    | dsimp only

theorem capsIdle_keeps {P : State → Prop} (K : MemKept P) {p : Nat} {s : State} (h : P s) :
    P (capsIdle p s) := by
  unfold capsIdle
  try dsimp only
  repeat' first
    | (with_reducible assumption)
    | (with_reducible apply reAdvertise_keeps K)
    | (with_reducible apply forEach_keeps)
    | (with_reducible apply P_foldl)
    | (with_reducible intro _)
    | (with_reducible apply P_ite)
    | (with_reducible apply P_ite2)
    | split
    | dsimp only

theorem capsRow_keeps {P : State → Prop} (K : MemKept P) {p : Nat} {e : EvEntry} {x2 : List Byte} {s : State} (h : P s) :
    P (capsRow p e x2 s) := by
  unfold capsRow
  try dsimp only
  repeat' first
    | (with_reducible assumption)
    | (with_reducible apply hcapsMiss_keeps K)
    | (with_reducible apply settleCtx_keeps K)
    | (with_reducible apply K.frame (waitFor_only rfl (Only.refl _ _)))
    | (with_reducible apply forEach_keeps)
    | (with_reducible apply P_foldl)
    | (with_reducible intro _)
    | (with_reducible apply P_ite)
    | (with_reducible apply P_ite2)
    | split
    | dsimp only

theorem stampChain_keeps {P : State → Prop} (K : MemKept P) {p : Nat} {i : Nat} {usec : BitVec 32} {s : State} (h : P s) :
    P (stampChain p i usec s) := by
  unfold stampChain
  try dsimp only
  repeat' first
    | (with_reducible assumption)
    | (with_reducible apply K.frame (fwAck_only rfl (Only.refl _ _)))
    | (with_reducible apply setBytes_keeps K)
    | (with_reducible apply forEach_keeps)
    | (with_reducible apply P_foldl)
    | (with_reducible intro _)
    | (with_reducible apply P_ite)
    | (with_reducible apply P_ite2)
    | split
    | dsimp only

theorem chainDone_keeps {P : State → Prop} (K : MemKept P) {p : Nat} {i : Nat} {sp : Sop} {s : State} (h : P s) :
    P (chainDone p i sp s) := by
  unfold chainDone
  try dsimp only
  repeat' first
    | (with_reducible assumption)
    | (with_reducible apply stampChain_keeps K)
    | (with_reducible apply K.frame (txResult_only rfl (Only.refl _ _)))
    | (with_reducible apply forEach_keeps)
    | (with_reducible apply P_foldl)
    | (with_reducible intro _)
    | (with_reducible apply P_ite)
    | (with_reducible apply P_ite2)
    | split
    | dsimp only

theorem channelWatchdog_keeps {P : State → Prop} (K : MemKept P) {c : Nat} {s : State} (h : P s) :
    P (channelWatchdog c s) := by
  unfold channelWatchdog
  try dsimp only
  repeat' first
    | (with_reducible assumption)
    | (with_reducible apply K.frame (noteFailure_only rfl (Only.refl _ _)))
    | (with_reducible apply K.frame (post_only rfl (Only.refl _ _)))
    | (with_reducible apply K.frame (raiseSum_only rfl (Only.refl _ _)))
    | (with_reducible apply resetChannel_keeps K)
    | (with_reducible apply forEach_keeps)
    | (with_reducible apply P_foldl)
    | (with_reducible intro _)
    | (with_reducible apply P_ite)
    | (with_reducible apply P_ite2)
    | split
    | dsimp only

theorem chunkReqRx_keeps {P : State → Prop} (K : MemKept P) {p : Nat} {m : RxBuf} {s : State} (h : P s) :
    P (chunkReqRx p m s) := by
  unfold chunkReqRx
  try dsimp only
  repeat' first
    | (with_reducible assumption)
    | (with_reducible apply abandonRx_keeps K)
    | (with_reducible apply clearRx_keeps K)
    | (with_reducible apply K.frame (endChain_only rfl (Only.refl _ _)))
    | (with_reducible apply fillTx_keeps K)
    | (with_reducible apply K.frame (putTx_only rfl (Only.refl _ _)))
    | (with_reducible apply seenChain_keeps K)
    | (with_reducible apply K.frame (updHub_only rfl (Only.refl _ _)))
    | (with_reducible apply forEach_keeps)
    | (with_reducible apply P_foldl)
    | (with_reducible intro _)
    | (with_reducible apply P_ite)
    | (with_reducible apply P_ite2)
    | split
    | dsimp only

theorem chunkReqTimeout_keeps {P : State → Prop} (K : MemKept P) {p : Nat} {s : State} (h : P s) :
    P (chunkReqTimeout p s) := by
  unfold chunkReqTimeout
  try dsimp only
  repeat' first
    | (with_reducible assumption)
    | (with_reducible apply K.frame (endChain_only rfl (Only.refl _ _)))
    | (with_reducible apply fillTx_keeps K)
    | (with_reducible apply K.frame (updHub_only rfl (Only.refl _ _)))
    | (with_reducible apply forEach_keeps)
    | (with_reducible apply P_foldl)
    | (with_reducible intro _)
    | (with_reducible apply P_ite)
    | (with_reducible apply P_ite2)
    | split
    | dsimp only

theorem takePans_keeps {P : State → Prop} (K : MemKept P) {c n : Nat} {s : State} (h : P s) :
    P (takePans c n s).2 := by
  induction n generalizing s with
  | zero => exact h
  | succ n ih =>
    rw [takePans]
    split
    · exact ih (setPan_keeps K (pick_keeps K h))
    · exact h

theorem chunkReqTx_keeps {P : State → Prop} (K : MemKept P) {p : Nat} {s : State} (h : P s) :
    P (chunkReqTx p s) := by
  unfold chunkReqTx
  try dsimp only
  repeat' first
    | (with_reducible assumption)
    | (with_reducible apply answer_keeps K)
    | (with_reducible apply takePans_keeps K)
    | (with_reducible apply K.frame (updHub_only rfl (Only.refl _ _)))
    | (with_reducible apply forEach_keeps)
    | (with_reducible apply P_foldl)
    | (with_reducible intro _)
    | (with_reducible apply P_ite)
    | (with_reducible apply P_ite2)
    | split
    | dsimp only

theorem lossResponse_keeps {P : State → Prop} (K : MemKept P) {k : ClockId} {s : State} (h : P s) :
    P (lossResponse k s) := by
  unfold lossResponse
  try dsimp only
  repeat' first
    | (with_reducible assumption)
    | (with_reducible apply K.frame (dieReset_only rfl (Only.refl _ _)))
    | (with_reducible apply enterHold_keeps K)
    | (with_reducible apply K.frame (mgmtReset_only rfl (Only.refl _ _)))
    | (with_reducible apply resetChannel_keeps K)
    | (with_reducible apply K.frame (setFlag_only rfl (Only.refl _ _)))
    | (with_reducible apply K.frame (setFld_only rfl (Only.refl _ _)))
    | (with_reducible apply forEach_keeps)
    | (with_reducible apply P_foldl)
    | (with_reducible intro _)
    | (with_reducible apply P_ite)
    | (with_reducible apply P_ite2)
    | split
    | (with_reducible apply K.frame (only_set_clk rfl (Only.refl _ _)))
    | dsimp only

theorem clockLoss_keeps {P : State → Prop} (K : MemKept P) {k : ClockId} {s : State} (h : P s) :
    P (clockLoss k s) := by
  unfold clockLoss
  try dsimp only
  repeat' first
    | (with_reducible assumption)
    | (with_reducible apply lossResponse_keeps K)
    | (with_reducible apply K.frame (post_only rfl (Only.refl _ _)))
    | (with_reducible apply K.frame (raiseSum_only rfl (Only.refl _ _)))
    | (with_reducible apply K.frame (setFld_only rfl (Only.refl _ _)))
    | (with_reducible apply forEach_keeps)
    | (with_reducible apply P_foldl)
    | (with_reducible intro _)
    | (with_reducible apply P_ite)
    | (with_reducible apply P_ite2)
    | split
    | (with_reducible apply K.frame (only_set_clk rfl (Only.refl _ _)))
    | dsimp only

theorem finishRestart_keeps {P : State → Prop} (K : MemKept P) {c : Nat} {code : List Byte} {s : State} (h : P s) :
    P (finishRestart c code s) := by
  unfold finishRestart
  try dsimp only
  repeat' first
    | (with_reducible assumption)
    | (with_reducible apply K.frame (freeFwPans_only rfl (Only.refl _ _)))
    | (with_reducible apply K.frame (mbxFlushTaken_only rfl (Only.refl _ _)))
    | (with_reducible apply startCourse_keeps K)
    | (with_reducible apply writeCode_keeps K)
    | (with_reducible apply forEach_keeps)
    | (with_reducible apply P_foldl)
    | (with_reducible intro _)
    | (with_reducible apply P_ite)
    | (with_reducible apply P_ite2)
    | split
    | dsimp only

theorem courseRestart_keeps {P : State → Prop} (K : MemKept P) {c : Nat} {code : List Byte} {s : State} (h : P s) :
    P (courseRestart c code s) := by
  unfold courseRestart
  try dsimp only
  repeat' first
    | (with_reducible assumption)
    | (with_reducible apply finishRestart_keeps K)
    | (with_reducible apply forEach_keeps)
    | (with_reducible apply P_foldl)
    | (with_reducible intro _)
    | (with_reducible apply P_ite)
    | (with_reducible apply P_ite2)
    | split
    | dsimp only

theorem fetchAt_keeps {P : State → Prop} (K : MemKept P) {c : Nat} {k : Word → State → State} {s : State} (h : P s) (h_k : ∀ (u0 : Word) (u1 : State), P u1 → P (k u0 u1)) :
    P (fetchAt c k s) := by
  unfold fetchAt
  try dsimp only
  repeat' first
    | (with_reducible assumption)
    | (with_reducible apply h_k)
    | (with_reducible apply bridge_keeps K)
    | (with_reducible apply forEach_keeps)
    | (with_reducible apply P_foldl)
    | (with_reducible intro _)
    | (with_reducible apply P_ite)
    | (with_reducible apply P_ite2)
    | split
    | dsimp only

theorem svRun_keeps {P : State → Prop} (K : MemKept P) {c : Nat} {is : Word → Bool} {act : Word → State → State} {s : State} (h : P s) (h_act : ∀ (u0 : Word) (u1 : State), P u1 → P (act u0 u1)) :
    P (svRun c is act s) := by
  unfold svRun
  try dsimp only
  repeat' first
    | (with_reducible assumption)
    | (with_reducible apply h_act)
    | (with_reducible apply beginRestart_keeps K)
    | (with_reducible apply K.frame (codeWord_only rfl (Only.refl _ _)))
    | (with_reducible apply fetchAt_keeps K)
    | (with_reducible apply K.frame (landProducts_only rfl (Only.refl _ _)))
    | (with_reducible apply seen_keeps K)
    | (with_reducible apply forEach_keeps)
    | (with_reducible apply P_foldl)
    | (with_reducible intro _)
    | (with_reducible apply P_ite)
    | (with_reducible apply P_ite2)
    | split
    | dsimp only

theorem svStep_keeps {P : State → Prop} (K : MemKept P) {c : Fin 4} {s : State} (h : P s) :
    P (svStep c s) := by
  unfold svStep
  try dsimp only
  repeat' first
    | (with_reducible assumption)
    | (with_reducible apply actOf_keeps K)
    | (with_reducible apply K.frame (fetchOutside_only rfl (Only.refl _ _)))
    | (with_reducible apply svRun_keeps K)
    | (with_reducible apply forEach_keeps)
    | (with_reducible apply P_foldl)
    | (with_reducible intro _)
    | (with_reducible apply P_ite)
    | (with_reducible apply P_ite2)
    | split
    | dsimp only

theorem debugStep_keeps {P : State → Prop} (K : MemKept P) {c : Fin 4} {s : State} (h : P s) :
    P (debugStep c s) := by
  unfold debugStep
  try dsimp only
  repeat' first
    | (with_reducible assumption)
    | (with_reducible apply K.frame (setFld_only rfl (Only.refl _ _)))
    | (with_reducible apply svStep_keeps K)
    | (with_reducible apply forEach_keeps)
    | (with_reducible apply P_foldl)
    | (with_reducible intro _)
    | (with_reducible apply P_ite)
    | (with_reducible apply P_ite2)
    | split
    | dsimp only

theorem debugOp_keeps {P : State → Prop} (K : MemKept P) {c : Fin 4} {op : DebugOp} {s : State} (h : P s) :
    P (debugOp c op s) := by
  unfold debugOp
  try dsimp only
  repeat' first
    | (with_reducible assumption)
    | (with_reducible apply K.frame (debugResume_only rfl (Only.refl _ _)))
    | (with_reducible apply debugStep_keeps K)
    | (with_reducible apply K.frame (haltCourse_only rfl (Only.refl _ _)))
    | (with_reducible apply updCrs_keeps K)
    | (with_reducible apply forEach_keeps)
    | (with_reducible apply P_foldl)
    | (with_reducible intro _)
    | (with_reducible apply P_ite)
    | (with_reducible apply P_ite2)
    | split
    | dsimp only

theorem firstChunk_keeps {P : State → Prop} (K : MemKept P) {p : Nat} {m : RxBuf} {i : Nat} {s : State} (h : P s) :
    P (firstChunk p m i s) := by
  unfold firstChunk
  try dsimp only
  repeat' first
    | (with_reducible assumption)
    | (with_reducible apply landChain_keeps K)
    | (with_reducible apply K.frame (updHub_only rfl (Only.refl _ _)))
    | (with_reducible apply forEach_keeps)
    | (with_reducible apply P_foldl)
    | (with_reducible intro _)
    | (with_reducible apply P_ite)
    | (with_reducible apply P_ite2)
    | split
    | dsimp only

theorem deliverMsg_keeps {P : State → Prop} (K : MemKept P) {p : Nat} {m : RxBuf} {s : State} (h : P s) :
    P (deliverMsg p m s) := by
  have ht : P (takePans (p / 128) 1 s).2 := takePans_keeps K h
  unfold deliverMsg
  split
  · next i is t e =>
    rw [e] at ht
    exact P_ite (firstChunk_keeps K (clearRx_keeps K ht))
      (landChain_keeps K (clearRx_keeps K ht))
  · next t e =>
    rw [e] at ht
    exact ht

theorem detach_keeps {P : State → Prop} (K : MemKept P) {p : Nat} {s : State} (h : P s) :
    P (detach p s) := by
  unfold detach
  try dsimp only
  repeat' first
    | (with_reducible assumption)
    | (with_reducible apply K.frame (openVconn_only rfl (Only.refl _ _)))
    | (with_reducible apply K.frame (pgFall_only rfl (Only.refl _ _)))
    | (with_reducible apply K.frame (portEvt_only rfl (Only.refl _ _)))
    | (with_reducible apply portGone_keeps K)
    | (with_reducible apply K.frame (updPort_only rfl (Only.refl _ _)))
    | (with_reducible apply forEach_keeps)
    | (with_reducible apply P_foldl)
    | (with_reducible intro _)
    | (with_reducible apply P_ite)
    | (with_reducible apply P_ite2)
    | split
    | dsimp only

theorem discNext_keeps {P : State → Prop} (K : MemKept P) {p : Nat} {d : Disc} {s : State} (h : P s) :
    P (discNext p d s) := by
  unfold discNext
  try dsimp only
  repeat' first
    | (with_reducible assumption)
    | (with_reducible apply sendDisc_keeps K)
    | (with_reducible apply K.frame (updFw_only rfl (Only.refl _ _)))
    | (with_reducible apply forEach_keeps)
    | (with_reducible apply P_foldl)
    | (with_reducible intro _)
    | (with_reducible apply P_ite)
    | (with_reducible apply P_ite2)
    | split
    | dsimp only

theorem testDone_keeps {P : State → Prop} (K : MemKept P) {p : Nat} {s : State} (h : P s) :
    P (testDone p s) := by
  unfold testDone
  try dsimp only
  repeat' first
    | (with_reducible assumption)
    | (with_reducible apply K.frame (setHvst_only rfl (Only.refl _ _)))
    | (with_reducible apply settleCtx_keeps K)
    | (with_reducible apply K.frame (updFw_only rfl (Only.refl _ _)))
    | (with_reducible apply forEach_keeps)
    | (with_reducible apply P_foldl)
    | (with_reducible intro _)
    | (with_reducible apply P_ite)
    | (with_reducible apply P_ite2)
    | split
    | dsimp only

theorem discAck_keeps {P : State → Prop} (K : MemKept P) {p : Nat} {m : List Byte} {s : State} (h : P s) :
    P (discAck p m s) := by
  unfold discAck
  try dsimp only
  repeat' first
    | (with_reducible assumption)
    | (with_reducible apply discFail_keeps K)
    | (with_reducible apply discNext_keeps K)
    | (with_reducible apply exitDone_keeps K)
    | (with_reducible apply testDone_keeps K)
    | (with_reducible apply K.frame (updFw_only rfl (Only.refl _ _)))
    | (with_reducible apply forEach_keeps)
    | (with_reducible apply P_foldl)
    | (with_reducible intro _)
    | (with_reducible apply P_ite)
    | (with_reducible apply P_ite2)
    | split
    | dsimp only

theorem discStart_keeps {P : State → Prop} (K : MemKept P) {p : Nat} {s : State} (h : P s) :
    P (discStart p s) := by
  unfold discStart
  try dsimp only
  repeat' first
    | (with_reducible assumption)
    | (with_reducible apply discNext_keeps K)
    | (with_reducible apply K.frame (setHstate_only rfl (Only.refl _ _)))
    | (with_reducible apply K.frame (setHvst_only rfl (Only.refl _ _)))
    | (with_reducible apply K.frame (updFw_only rfl (Only.refl _ _)))
    | (with_reducible apply forEach_keeps)
    | (with_reducible apply P_foldl)
    | (with_reducible intro _)
    | (with_reducible apply P_ite)
    | (with_reducible apply P_ite2)
    | split
    | dsimp only

theorem discIdle_keeps {P : State → Prop} (K : MemKept P) {p : Nat} {s : State} (h : P s) :
    P (discIdle p s) := by
  unfold discIdle
  try dsimp only
  repeat' first
    | (with_reducible assumption)
    | (with_reducible apply cableNext_keeps K)
    | (with_reducible apply discStart_keeps K)
    | (with_reducible apply K.frame (setHvst_only rfl (Only.refl _ _)))
    | (with_reducible apply K.frame (takeRequest_only rfl (Only.refl _ _)))
    | (with_reducible apply forEach_keeps)
    | (with_reducible apply P_foldl)
    | (with_reducible intro _)
    | (with_reducible apply P_ite)
    | (with_reducible apply P_ite2)
    | split
    | dsimp only

theorem discRow_keeps {P : State → Prop} (K : MemKept P) {p : Nat} {e : EvEntry} {m : List Byte} {s : State} (h : P s) :
    P (discRow p e m s) := by
  unfold discRow
  try dsimp only
  repeat' first
    | (with_reducible assumption)
    | (with_reducible apply cableAnswer_keeps K)
    | (with_reducible apply discAck_keeps K)
    | (with_reducible apply discFail_keeps K)
    | (with_reducible apply discMiss_keeps K)
    | (with_reducible apply exitDone_keeps K)
    | (with_reducible apply sendDisc_keeps K)
    | (with_reducible apply K.frame (updFw_only rfl (Only.refl _ _)))
    | (with_reducible apply K.frame (waitFor_only rfl (Only.refl _ _)))
    | (with_reducible apply forEach_keeps)
    | (with_reducible apply P_foldl)
    | (with_reducible intro _)
    | (with_reducible apply P_ite)
    | (with_reducible apply P_ite2)
    | split
    | dsimp only

theorem dischargeComplete_keeps {P : State → Prop} (K : MemKept P) {p : Nat} {s : State} (h : P s) :
    P (dischargeComplete p s) := by
  unfold dischargeComplete
  try dsimp only
  repeat' first
    | (with_reducible assumption)
    | (with_reducible apply acceptAttach_keeps K)
    | (with_reducible apply K.frame (enterLockout_only rfl (Only.refl _ _)))
    | (with_reducible apply K.frame (leaveRetry_only rfl (Only.refl _ _)))
    | (with_reducible apply K.frame (opEnds_only rfl (Only.refl _ _)))
    | (with_reducible apply K.frame (serveMarks_only rfl (Only.refl _ _)))
    | (with_reducible apply K.frame (stopDeadline_only rfl (Only.refl _ _)))
    | (with_reducible apply K.frame (updPort_only rfl (Only.refl _ _)))
    | (with_reducible apply forEach_keeps)
    | (with_reducible apply P_foldl)
    | (with_reducible intro _)
    | (with_reducible apply P_ite)
    | (with_reducible apply P_ite2)
    | split
    | dsimp only

theorem enterMode_keeps {P : State → Prop} (K : MemKept P) {p : Nat} {s : State} (h : P s) :
    P (enterMode p s) := by
  unfold enterMode
  try dsimp only
  repeat' first
    | (with_reducible assumption)
    | (with_reducible apply sendHcaps_keeps K)
    | (with_reducible apply K.frame (setHvst_only rfl (Only.refl _ _)))
    | (with_reducible apply K.frame (updFw_only rfl (Only.refl _ _)))
    | (with_reducible apply K.frame (waitFor_only rfl (Only.refl _ _)))
    | (with_reducible apply forEach_keeps)
    | (with_reducible apply P_foldl)
    | (with_reducible intro _)
    | (with_reducible apply P_ite)
    | (with_reducible apply P_ite2)
    | split
    | dsimp only

theorem eprMode_keeps {P : State → Prop} (K : MemKept P) {p : Nat} {m : List Byte} {s : State} (h : P s) :
    P (eprMode p m s) := by
  unfold eprMode
  try dsimp only
  repeat' first
    | (with_reducible assumption)
    | (with_reducible apply K.frame (countUnanswered_only rfl (Only.refl _ _)))
    | (with_reducible apply K.frame (leaveEpr_only rfl (Only.refl _ _)))
    | (with_reducible apply say_keeps K)
    | (with_reducible apply sendCaps_keeps K)
    | (with_reducible apply forEach_keeps)
    | (with_reducible apply P_foldl)
    | (with_reducible intro _)
    | (with_reducible apply P_ite)
    | (with_reducible apply P_ite2)
    | split
    | dsimp only

theorem sendGrant_keeps {P : State → Prop} (K : MemKept P) {p : Nat} {hrdo : Nat} {outcome : Nat} {w : Say} {s : State} (h : P s) :
    P (sendGrant p hrdo outcome w s) := by
  unfold sendGrant
  try dsimp only
  repeat' first
    | (with_reducible assumption)
    | (with_reducible apply sayVdm_keeps K)
    | (with_reducible apply forEach_keeps)
    | (with_reducible apply P_foldl)
    | (with_reducible intro _)
    | (with_reducible apply P_ite)
    | (with_reducible apply P_ite2)
    | split
    | dsimp only

theorem evalHrdo_keeps {P : State → Prop} (K : MemKept P) {p : Nat} {m : List Byte} {s : State} (h : P s) :
    P (evalHrdo p m s) := by
  unfold evalHrdo
  try dsimp only
  repeat' first
    | (with_reducible assumption)
    | (with_reducible apply sendGrant_keeps K)
    | (with_reducible apply K.frame (updFw_only rfl (Only.refl _ _)))
    | (with_reducible apply K.frame (waitFor_only rfl (Only.refl _ _)))
    | (with_reducible apply K.frame (writeRequested_only rfl (Only.refl _ _)))
    | (with_reducible apply forEach_keeps)
    | (with_reducible apply P_foldl)
    | (with_reducible intro _)
    | (with_reducible apply P_ite)
    | (with_reducible apply P_ite2)
    | split
    | dsimp only

theorem reject_keeps {P : State → Prop} (K : MemKept P) {p : Nat} {s : State} (h : P s) :
    P (reject p s) := by
  unfold reject
  try dsimp only
  repeat' first
    | (with_reducible assumption)
    | (with_reducible apply sayCtl_keeps K)
    | (with_reducible apply forEach_keeps)
    | (with_reducible apply P_foldl)
    | (with_reducible intro _)
    | (with_reducible apply P_ite)
    | (with_reducible apply P_ite2)
    | split
    | dsimp only

theorem evalRequest_keeps {P : State → Prop} (K : MemKept P) {p : Nat} {m : List Byte} {s : State} (h : P s) :
    P (evalRequest p m s) := by
  unfold evalRequest
  try dsimp only
  repeat' first
    | (with_reducible assumption)
    | (with_reducible apply acceptTran_keeps K)
    | (with_reducible apply K.frame (armNoResponse_only rfl (Only.refl _ _)))
    | (with_reducible apply K.frame (fwAlloc_only rfl (Only.refl _ _)))
    | (with_reducible apply reAdvertise_keeps K)
    | (with_reducible apply reject_keeps K)
    | (with_reducible apply K.frame (updFw_only rfl (Only.refl _ _)))
    | (with_reducible apply K.frame (waitFor_only rfl (Only.refl _ _)))
    | (with_reducible apply K.frame (writeRequested_only rfl (Only.refl _ _)))
    | (with_reducible apply forEach_keeps)
    | (with_reducible apply P_foldl)
    | (with_reducible intro _)
    | (with_reducible apply P_ite)
    | (with_reducible apply P_ite2)
    | split
    | dsimp only

theorem fastTrip_keeps {P : State → Prop} (K : MemKept P) {p : Nat} {uv : Nat} {ns : Nat} {s : State} (h : P s) :
    P (fastTrip p uv ns s) := by
  unfold fastTrip
  try dsimp only
  repeat' first
    | (with_reducible assumption)
    | (with_reducible apply drawNat_keeps K)
    | (with_reducible apply tripPort_keeps K)
    | (with_reducible apply forEach_keeps)
    | (with_reducible apply P_foldl)
    | (with_reducible intro _)
    | (with_reducible apply P_ite)
    | (with_reducible apply P_ite2)
    | split
    | dsimp only

theorem fwDo_keeps {P : State → Prop} (K : MemKept P) {p : Nat} {f : State → State} {s : State} (h : P s) (h_f : ∀ (u0 : State), P u0 → P (f u0)) :
    P (fwDo p f s) := by
  unfold fwDo
  try dsimp only
  repeat' first
    | (with_reducible assumption)
    | (with_reducible apply h_f)
    | (with_reducible apply forEach_keeps)
    | (with_reducible apply P_foldl)
    | (with_reducible intro _)
    | (with_reducible apply P_ite)
    | (with_reducible apply P_ite2)
    | split
    | dsimp only

theorem goodCrc_keeps {P : State → Prop} (K : MemKept P) {p : Nat} {sp : Sop} {id : Nat} {s : State} (h : P s) :
    P (goodCrc p sp id s) := by
  unfold goodCrc
  try dsimp only
  repeat' first
    | (with_reducible assumption)
    | (with_reducible apply chainDone_keeps K)
    | (with_reducible apply fillTx_keeps K)
    | (with_reducible apply K.frame (updHub_only rfl (Only.refl _ _)))
    | (with_reducible apply K.frame (updPhy_only rfl (Only.refl _ _)))
    | (with_reducible apply forEach_keeps)
    | (with_reducible apply P_foldl)
    | (with_reducible intro _)
    | (with_reducible apply P_ite)
    | (with_reducible apply P_ite2)
    | split
    | dsimp only

theorem hardResetStart_keeps {P : State → Prop} (K : MemKept P) {p : Nat} {s : State} (h : P s) :
    P (hardResetStart p s) := by
  unfold hardResetStart
  try dsimp only
  repeat' first
    | (with_reducible assumption)
    | (with_reducible apply K.frame (abortOps_only rfl (Only.refl _ _)))
    | (with_reducible apply K.frame (clearHeavy_only rfl (Only.refl _ _)))
    | (with_reducible apply K.frame (openVconn_only rfl (Only.refl _ _)))
    | (with_reducible apply protoReset_keeps K)
    | (with_reducible apply K.frame (serveMarks_only rfl (Only.refl _ _)))
    | (with_reducible apply K.frame (stopKa_only rfl (Only.refl _ _)))
    | (with_reducible apply K.frame (updHub_only rfl (Only.refl _ _)))
    | (with_reducible apply K.frame (updPhy_only rfl (Only.refl _ _)))
    | (with_reducible apply forEach_keeps)
    | (with_reducible apply P_foldl)
    | (with_reducible intro _)
    | (with_reducible apply P_ite)
    | (with_reducible apply P_ite2)
    | split
    | dsimp only

theorem hardResetRx_keeps {P : State → Prop} (K : MemKept P) {p : Nat} {s : State} (h : P s) :
    P (hardResetRx p s) := by
  unfold hardResetRx
  try dsimp only
  repeat' first
    | (with_reducible assumption)
    | (with_reducible apply hardResetStart_keeps K)
    | (with_reducible apply K.frame (hardResetT0_only rfl (Only.refl _ _)))
    | (with_reducible apply K.frame (pdEvent_only rfl (Only.refl _ _)))
    | (with_reducible apply K.frame (updPhy_only rfl (Only.refl _ _)))
    | (with_reducible apply K.frame (xover_only rfl (Only.refl _ _)))
    | (with_reducible apply forEach_keeps)
    | (with_reducible apply P_foldl)
    | (with_reducible intro _)
    | (with_reducible apply P_ite)
    | (with_reducible apply P_ite2)
    | split
    | dsimp only

theorem heavyAsk_keeps {P : State → Prop} (K : MemKept P) {p : Nat} {m : List Byte} {s : State} (h : P s) :
    P (heavyAsk p m s) := by
  unfold heavyAsk
  try dsimp only
  repeat' first
    | (with_reducible assumption)
    | (with_reducible apply sayDropped_keeps K)
    | (with_reducible apply sayVdm_keeps K)
    | (with_reducible apply forEach_keeps)
    | (with_reducible apply P_foldl)
    | (with_reducible intro _)
    | (with_reducible apply P_ite)
    | (with_reducible apply P_ite2)
    | split
    | dsimp only

theorem heavyMade_keeps {P : State → Prop} (K : MemKept P) {p : Nat} {t : Tran} {s : State} (h : P s) :
    P (heavyMade p t s) := by
  unfold heavyMade
  try dsimp only
  repeat' first
    | (with_reducible assumption)
    | (with_reducible apply K.frame (recordContract_only rfl (Only.refl _ _)))
    | (with_reducible apply K.frame (setHstate_only rfl (Only.refl _ _)))
    | (with_reducible apply settleCtx_keeps K)
    | (with_reducible apply K.frame (updFw_only rfl (Only.refl _ _)))
    | (with_reducible apply K.frame (waitFor_only rfl (Only.refl _ _)))
    | (with_reducible apply forEach_keeps)
    | (with_reducible apply P_foldl)
    | (with_reducible intro _)
    | (with_reducible apply P_ite)
    | (with_reducible apply P_ite2)
    | split
    | dsimp only

theorem hostReadCmd_keeps {P : State → Prop} (K : MemKept P) {a : Nat} {s : State} (h : P s) :
    P (hostReadCmd a s) := by
  unfold hostReadCmd
  try dsimp only
  repeat' first
    | (with_reducible assumption)
    | (with_reducible apply hostRead_keeps K)
    | (with_reducible apply K.frame (setBus_only rfl (Only.refl _ _)))
    | (with_reducible apply twmCmd_keeps K)
    | (with_reducible apply forEach_keeps)
    | (with_reducible apply P_foldl)
    | (with_reducible intro _)
    | (with_reducible apply P_ite)
    | (with_reducible apply P_ite2)
    | split
    | dsimp only

theorem hrDeemed_keeps {P : State → Prop} (K : MemKept P) {p : Nat} {s : State} (h : P s) :
    P (hrDeemed p s) := by
  unfold hrDeemed
  try dsimp only
  repeat' first
    | (with_reducible assumption)
    | (with_reducible apply hardResetStart_keeps K)
    | (with_reducible apply K.frame (hardResetT0_only rfl (Only.refl _ _)))
    | (with_reducible apply K.frame (pdEvent_only rfl (Only.refl _ _)))
    | (with_reducible apply forEach_keeps)
    | (with_reducible apply P_foldl)
    | (with_reducible intro _)
    | (with_reducible apply P_ite)
    | (with_reducible apply P_ite2)
    | split
    | dsimp only

theorem hrSigStart_keeps {P : State → Prop} (K : MemKept P) {p : Nat} {s : State} (h : P s) :
    P (hrSigStart p s) := by
  unfold hrSigStart
  try dsimp only
  repeat' first
    | (with_reducible assumption)
    | (with_reducible apply hardResetStart_keeps K)
    | (with_reducible apply K.frame (updPhy_only rfl (Only.refl _ _)))
    | (with_reducible apply forEach_keeps)
    | (with_reducible apply P_foldl)
    | (with_reducible intro _)
    | (with_reducible apply P_ite)
    | (with_reducible apply P_ite2)
    | split
    | dsimp only

theorem hubAnswer_keeps {P : State → Prop} (K : MemKept P) {p : Nat} {m : RxBuf} {s : State} (h : P s) :
    P (hubAnswer p m s) := by
  unfold hubAnswer
  try dsimp only
  repeat' first
    | (with_reducible assumption)
    | (with_reducible apply abandonRx_keeps K)
    | (with_reducible apply answer_keeps K)
    | (with_reducible apply clearRx_keeps K)
    | (with_reducible apply K.frame (raisePd_only rfl (Only.refl _ _)))
    | (with_reducible apply forEach_keeps)
    | (with_reducible apply P_foldl)
    | (with_reducible intro _)
    | (with_reducible apply P_ite)
    | (with_reducible apply P_ite2)
    | split
    | dsimp only

theorem imageRead_keeps {P : State → Prop} (K : MemKept P) {b : List Byte} {s : State} (h : P s) :
    P (imageRead b s) := by
  unfold imageRead
  try dsimp only
  repeat' first
    | (with_reducible assumption)
    | (with_reducible apply candFail_keeps K)
    | (with_reducible apply K.frame (setPhase_only rfl (Only.refl _ _)))
    | (with_reducible apply K.frame (updBoot_only rfl (Only.refl _ _)))
    | (with_reducible apply writeCode_keeps K)
    | (with_reducible apply forEach_keeps)
    | (with_reducible apply P_foldl)
    | (with_reducible intro _)
    | (with_reducible apply P_ite)
    | (with_reducible apply P_ite2)
    | split
    | dsimp only

theorem joinChunk_keeps {P : State → Prop} (K : MemKept P) {p : Nat} {a : ChunkRx} {m : RxBuf} {s : State} (h : P s) :
    P (joinChunk p a m s) := by
  unfold joinChunk
  try dsimp only
  repeat' first
    | (with_reducible assumption)
    | (with_reducible apply landChain_keeps K)
    | (with_reducible apply K.frame (updHub_only rfl (Only.refl _ _)))
    | (with_reducible apply forEach_keeps)
    | (with_reducible apply P_foldl)
    | (with_reducible intro _)
    | (with_reducible apply P_ite)
    | (with_reducible apply P_ite2)
    | split
    | dsimp only

theorem lateResult_keeps {P : State → Prop} (K : MemKept P) {p : Nat} {e : EvKind × Nat × BitVec 32} {s : State} (h : P s) :
    P (lateResult p e s) := by
  unfold lateResult
  try dsimp only
  repeat' first
    | (with_reducible assumption)
    | (with_reducible apply K.frame (endChain_only rfl (Only.refl _ _)))
    | (with_reducible apply stampChain_keeps K)
    | (with_reducible apply K.frame (txFailed_only rfl (Only.refl _ _)))
    | (with_reducible apply forEach_keeps)
    | (with_reducible apply P_foldl)
    | (with_reducible intro _)
    | (with_reducible apply P_ite)
    | (with_reducible apply P_ite2)
    | split
    | dsimp only

theorem resumePort_keeps {P : State → Prop} (K : MemKept P) {p : Nat} {s : State} (h : P s) :
    P (resumePort p s) := by
  unfold resumePort
  try dsimp only
  repeat' first
    | (with_reducible assumption)
    | (with_reducible apply fillTx_keeps K)
    | (with_reducible apply K.frame (updPhy_only rfl (Only.refl _ _)))
    | (with_reducible apply forEach_keeps)
    | (with_reducible apply P_foldl)
    | (with_reducible intro _)
    | (with_reducible apply P_ite)
    | (with_reducible apply P_ite2)
    | split
    | dsimp only

theorem leaveHold_keeps {P : State → Prop} (K : MemKept P) {d : Nat} {s : State} (h : P s) :
    P (leaveHold d s) := by
  unfold leaveHold
  try dsimp only
  repeat' first
    | (with_reducible assumption)
    | (with_reducible apply K.frame (deliverTest_only rfl (Only.refl _ _)))
    | (with_reducible apply K.frame (post_only rfl (Only.refl _ _)))
    | (with_reducible apply resumePort_keeps K)
    | (with_reducible apply K.frame (setFlag_only rfl (Only.refl _ _)))
    | (with_reducible apply K.frame (updDie_only rfl (Only.refl _ _)))
    | (with_reducible apply forEach_keeps)
    | (with_reducible apply P_foldl)
    | (with_reducible intro _)
    | (with_reducible apply P_ite)
    | (with_reducible apply P_ite2)
    | split
    | dsimp only

theorem mirrorEvents_keeps {P : State → Prop} (K : MemKept P) {p : Nat} {x : Port} {s : State} (h : P s) :
    P (mirrorEvents p x s) := by
  unfold mirrorEvents
  try dsimp only
  repeat' first
    | (with_reducible assumption)
    | (with_reducible apply K.frame (abortOps_only rfl (Only.refl _ _)))
    | (with_reducible apply K.frame (detachRecord_only rfl (Only.refl _ _)))
    | (with_reducible apply hubDiscard_keeps K)
    | (with_reducible apply K.frame (hubGone_only rfl (Only.refl _ _)))
    | (with_reducible apply K.frame (post_only rfl (Only.refl _ _)))
    | (with_reducible apply K.frame (setFld_only rfl (Only.refl _ _)))
    | (with_reducible apply K.frame (setReg_only rfl (Only.refl _ _)))
    | (with_reducible apply K.frame (updPort_only rfl (Only.refl _ _)))
    | (with_reducible apply forEach_keeps)
    | (with_reducible apply P_foldl)
    | (with_reducible intro _)
    | (with_reducible apply P_ite)
    | (with_reducible apply P_ite2)
    | split
    | dsimp only

theorem mirrorResults_keeps {P : State → Prop} (K : MemKept P) {p : Nat} {x : Port} {s : State} (h : P s) :
    P (mirrorResults p x s) := by
  unfold mirrorResults
  try dsimp only
  repeat' first
    | (with_reducible assumption)
    | (with_reducible apply lateResult_keeps K)
    | (with_reducible apply K.frame (opResult_only rfl (Only.refl _ _)))
    | (with_reducible apply K.frame (raiseBits_only rfl (Only.refl _ _)))
    | (with_reducible apply K.frame (setFld_only rfl (Only.refl _ _)))
    | (with_reducible apply K.frame (updPhy_only rfl (Only.refl _ _)))
    | (with_reducible apply K.frame (updPort_only rfl (Only.refl _ _)))
    | (with_reducible apply forEach_keeps)
    | (with_reducible apply P_foldl)
    | (with_reducible intro _)
    | (with_reducible apply P_ite)
    | (with_reducible apply P_ite2)
    | split
    | dsimp only

theorem resetMirrorPort_keeps {P : State → Prop} (K : MemKept P) {p : Nat} {old : PState} {s : State} (h : P s) :
    P (resetMirrorPort p old s) := by
  unfold resetMirrorPort
  try dsimp only
  repeat' first
    | (with_reducible assumption)
    | (with_reducible apply K.frame (clearHeavy_only rfl (Only.refl _ _)))
    | (with_reducible apply hubDiscard_keeps K)
    | (with_reducible apply K.frame (hubGone_only rfl (Only.refl _ _)))
    | (with_reducible apply K.frame (stopKa_only rfl (Only.refl _ _)))
    | (with_reducible apply K.frame (updHub_only rfl (Only.refl _ _)))
    | (with_reducible apply forEach_keeps)
    | (with_reducible apply P_foldl)
    | (with_reducible intro _)
    | (with_reducible apply P_ite)
    | (with_reducible apply P_ite2)
    | split
    | dsimp only

theorem mirrorPort_keeps {P : State → Prop} (K : MemKept P) {reset : Bool} {p : Nat} {s : State} (h : P s) :
    P (mirrorPort reset p s) := by
  unfold mirrorPort
  try dsimp only
  repeat' first
    | (with_reducible assumption)
    | (with_reducible apply hubAttach_keeps K)
    | (with_reducible apply mirrorEvents_keeps K)
    | (with_reducible apply mirrorResults_keeps K)
    | (with_reducible apply resetMirrorPort_keeps K)
    | (with_reducible apply K.frame (updHub_only rfl (Only.refl _ _)))
    | (with_reducible apply K.frame (updPort_only rfl (Only.refl _ _)))
    | (with_reducible apply forEach_keeps)
    | (with_reducible apply P_foldl)
    | (with_reducible intro _)
    | (with_reducible apply P_ite)
    | (with_reducible apply P_ite2)
    | split
    | dsimp only

theorem sendSettings_keeps {P : State → Prop} (K : MemKept P) {p : Nat} {s : State} (h : P s) :
    P (sendSettings p s) := by
  unfold sendSettings
  try dsimp only
  repeat' first
    | (with_reducible assumption)
    | (with_reducible apply checkFt_keeps K)
    | (with_reducible apply K.frame (fireDeadline_only rfl (Only.refl _ _)))
    | (with_reducible apply goOff_keeps K)
    | (with_reducible apply K.frame (leaveOff_only rfl (Only.refl _ _)))
    | (with_reducible apply K.frame (setDieReg_only rfl (Only.refl _ _)))
    | (with_reducible apply K.frame (stopDeadline_only rfl (Only.refl _ _)))
    | (with_reducible apply K.frame (unlock_only rfl (Only.refl _ _)))
    | (with_reducible apply K.frame (updHub_only rfl (Only.refl _ _)))
    | (with_reducible apply K.frame (updPhy_only rfl (Only.refl _ _)))
    | (with_reducible apply forEach_keeps)
    | (with_reducible apply P_foldl)
    | (with_reducible intro _)
    | (with_reducible apply P_ite)
    | (with_reducible apply P_ite2)
    | split
    | dsimp only

theorem linkComesUp_keeps {P : State → Prop} (K : MemKept P) {d : Nat} {s : State} (h : P s) :
    P (linkComesUp d s) := by
  unfold linkComesUp
  try dsimp only
  repeat' first
    | (with_reducible assumption)
    | (with_reducible apply K.frame (deliverTest_only rfl (Only.refl _ _)))
    | (with_reducible apply K.frame (drawWord_only rfl (Only.refl _ _)))
    | (with_reducible apply K.frame (latchLink_only rfl (Only.refl _ _)))
    | (with_reducible apply mirrorPort_keeps K)
    | (with_reducible apply K.frame (mirrorUnit_only rfl (Only.refl _ _)))
    | (with_reducible apply K.frame (post_only rfl (Only.refl _ _)))
    | (with_reducible apply K.frame (queueXfer_only rfl (Only.refl _ _)))
    | (with_reducible apply sendSettings_keeps K)
    | (with_reducible apply K.frame (serveMarks_only rfl (Only.refl _ _)))
    | (with_reducible apply K.frame (setFlag_only rfl (Only.refl _ _)))
    | (with_reducible apply K.frame (updDie_only rfl (Only.refl _ _)))
    | (with_reducible apply forEach_keeps)
    | (with_reducible apply P_foldl)
    | (with_reducible intro _)
    | (with_reducible apply P_ite)
    | (with_reducible apply P_ite2)
    | split
    | dsimp only

theorem loadExtest_keeps {P : State → Prop} (K : MemKept P) {s : State} (h : P s) :
    P (loadExtest s) := by
  unfold loadExtest
  try dsimp only
  repeat' first
    | (with_reducible assumption)
    | (with_reducible apply goOff_keeps K)
    | (with_reducible apply K.frame (setTap_only rfl (Only.refl _ _)))
    | (with_reducible apply forEach_keeps)
    | (with_reducible apply P_foldl)
    | (with_reducible intro _)
    | (with_reducible apply P_ite)
    | (with_reducible apply P_ite2)
    | split
    | (with_reducible apply K.frame (only_set_clk rfl (Only.refl _ _)))
    | dsimp only

theorem loadOpcode_keeps {P : State → Prop} (K : MemKept P) {op : Nat} {s : State} (h : P s) :
    P (loadOpcode op s) := by
  unfold loadOpcode
  try dsimp only
  repeat' first
    | (with_reducible assumption)
    | (with_reducible apply loadExtest_keeps K)
    | (with_reducible apply K.frame (setTap_only rfl (Only.refl _ _)))
    | (with_reducible apply forEach_keeps)
    | (with_reducible apply P_foldl)
    | (with_reducible intro _)
    | (with_reducible apply P_ite)
    | (with_reducible apply P_ite2)
    | split
    | dsimp only

theorem readStaged_keeps {P : State → Prop} (K : MemKept P) {n : Nat} {s : State} (h : P s) :
    P (readStaged n s) := by
  unfold readStaged
  try dsimp only
  repeat' first
    | (with_reducible assumption)
    | (with_reducible apply K.frame (dropStaged_only rfl (Only.refl _ _)))
    | (with_reducible apply seenRange_keeps K)
    | (with_reducible apply forEach_keeps)
    | (with_reducible apply P_foldl)
    | (with_reducible intro _)
    | (with_reducible apply P_ite)
    | (with_reducible apply P_ite2)
    | split
    | dsimp only

theorem logProgram_keeps {P : State → Prop} (K : MemKept P) {n : Nat} {s0 : State} (h : P s0) :
    P (logProgram n s0) := by
  unfold logProgram
  try dsimp only
  repeat' first
    | (with_reducible assumption)
    | (with_reducible apply readStaged_keeps K)
    | (with_reducible apply forEach_keeps)
    | (with_reducible apply P_foldl)
    | (with_reducible intro _)
    | (with_reducible apply P_ite)
    | (with_reducible apply P_ite2)
    | split
    | (with_reducible apply K.frame (only_set_log_nvmA_nvmB rfl (Only.refl _ _)))
    | (with_reducible apply K.frame (only_set_log rfl (Only.refl _ _)))
    | (with_reducible apply K.frame (only_set_nvmA rfl (Only.refl _ _)))
    | (with_reducible apply K.frame (only_set_nvmB rfl (Only.refl _ _)))
    | dsimp only

theorem mbxAnswer_keeps {P : State → Prop} (K : MemKept P) {c : Nat} {i : Nat} {l : List Byte} {s : State} (h : P s) :
    P (mbxAnswer c i l s) := by
  unfold mbxAnswer
  try dsimp only
  repeat' first
    | (with_reducible assumption)
    | (with_reducible apply mbxDone_keeps K)
    | (with_reducible apply setBytes_keeps K)
    | (with_reducible apply forEach_keeps)
    | (with_reducible apply P_foldl)
    | (with_reducible intro _)
    | (with_reducible apply P_ite)
    | (with_reducible apply P_ite2)
    | split
    | dsimp only

theorem mbxCmd_keeps {P : State → Prop} (K : MemKept P) {c : Nat} {op : Nat} {len : Nat} {act : Nat → List Byte → State → List Byte × State} {s : State} (h : P s) (h_act : ∀ (u0 : Nat) (u1 : List Byte) (u2 : State), P u2 → P (act u0 u1 u2).2) :
    P (mbxCmd c op len act s) := by
  unfold mbxCmd
  try dsimp only
  repeat' first
    | (with_reducible assumption)
    | (with_reducible apply h_act)
    | (with_reducible apply mbxAnswer_keeps K)
    | (with_reducible apply mbxTake_keeps K)
    | (with_reducible apply forEach_keeps)
    | (with_reducible apply P_foldl)
    | (with_reducible intro _)
    | (with_reducible apply P_ite)
    | (with_reducible apply P_ite2)
    | split
    | dsimp only

theorem mbxPost_keeps {P : State → Prop} (K : MemKept P) {c : Nat} {o : Origin} {cmd : List Byte} {s : State} (h : P s) :
    P (mbxPost c o cmd s) := by
  unfold mbxPost
  try dsimp only
  repeat' first
    | (with_reducible assumption)
    | (with_reducible apply K.frame (answerOrigin_only rfl (Only.refl _ _)))
    | (with_reducible apply clearMem_keeps K)
    | (with_reducible apply pick_keeps K)
    | (with_reducible apply setBytes_keeps K)
    | (with_reducible apply K.frame (setMbx_only rfl (Only.refl _ _)))
    | (with_reducible apply wordsWritten_keeps K)
    | (with_reducible apply forEach_keeps)
    | (with_reducible apply P_foldl)
    | (with_reducible intro _)
    | (with_reducible apply P_ite)
    | (with_reducible apply P_ite2)
    | split
    | dsimp only

theorem mbxRow_keeps {P : State → Prop} (K : MemKept P) {c : Nat} {f : State → State} {s : State} (h : P s) (h_f : ∀ (u0 : State), P u0 → P (f u0)) :
    P (mbxRow c f s) := by
  unfold mbxRow
  try dsimp only
  repeat' first
    | (with_reducible assumption)
    | (with_reducible apply h_f)
    | (with_reducible apply fwPrep_keeps K)
    | (with_reducible apply forEach_keeps)
    | (with_reducible apply P_foldl)
    | (with_reducible intro _)
    | (with_reducible apply P_ite)
    | (with_reducible apply P_ite2)
    | split
    | dsimp only

theorem ramAcc_keeps {P : State → Prop} (K : MemKept P) {c : Nat} {id : Nat} {off : Nat} {w : Option Word} {s : State} (h : P s) :
    P (ramAcc c id off w s) := by
  unfold ramAcc
  try dsimp only
  repeat' first
    | (with_reducible assumption)
    | (with_reducible apply K.frame (drawWord_only rfl (Only.refl _ _)))
    | (with_reducible apply maErr_keeps K)
    | (with_reducible apply K.frame (readCmd_only rfl (Only.refl _ _)))
    | (with_reducible apply seen_keeps K)
    | (with_reducible apply K.frame (setBus_only rfl (Only.refl _ _)))
    | (with_reducible apply setBytes_keeps K)
    | (with_reducible apply forEach_keeps)
    | (with_reducible apply P_foldl)
    | (with_reducible intro _)
    | (with_reducible apply P_ite)
    | (with_reducible apply P_ite2)
    | split
    | dsimp only

theorem memAcc_keeps {P : State → Prop} (K : MemKept P) {m : MemAcc} {s : State} (h : P s) :
    P (memAcc m s) := by
  unfold memAcc
  try dsimp only
  repeat' first
    | (with_reducible assumption)
    | (with_reducible apply hostReadCmd_keeps K)
    | (with_reducible apply hostWrite_keeps K)
    | (with_reducible apply ramAcc_keeps K)
    | (with_reducible apply forEach_keeps)
    | (with_reducible apply P_foldl)
    | (with_reducible intro _)
    | (with_reducible apply P_ite)
    | (with_reducible apply P_ite2)
    | split
    | dsimp only

theorem noResponse_keeps {P : State → Prop} (K : MemKept P) {p : Nat} {s : State} (h : P s) :
    P (noResponse p s) := by
  unfold noResponse
  try dsimp only
  repeat' first
    | (with_reducible assumption)
    | (with_reducible apply fwHardReset_keeps K)
    | (with_reducible apply K.frame (fwRelease_only rfl (Only.refl _ _)))
    | (with_reducible apply K.frame (updFw_only rfl (Only.refl _ _)))
    | (with_reducible apply forEach_keeps)
    | (with_reducible apply P_foldl)
    | (with_reducible intro _)
    | (with_reducible apply P_ite)
    | (with_reducible apply P_ite2)
    | split
    | dsimp only

theorem onRow_keeps {P : State → Prop} (K : MemKept P) {p : Nat} {r : FwRow} {act : EvEntry → List Byte → State → State} {other : State → State} {s : State} (h : P s) (h_act : ∀ (u0 : EvEntry) (u1 : List Byte) (u2 : State), P u2 → P (act u0 u1 u2)) (h_other : ∀ (u0 : State), P u0 → P (other u0)) :
    P (onRow p r act other s) := by
  unfold onRow
  try dsimp only
  repeat' first
    | (with_reducible assumption)
    | (with_reducible apply h_act)
    | (with_reducible apply h_other)
    | (with_reducible apply fwHardReset_keeps K)
    | (with_reducible apply fwPrep_keeps K)
    | (with_reducible apply K.frame (keepDropped_only rfl (Only.refl _ _)))
    | (with_reducible apply sayDropped_keeps K)
    | (with_reducible apply K.frame (takeHead_only rfl (Only.refl _ _)))
    | (with_reducible apply forEach_keeps)
    | (with_reducible apply P_foldl)
    | (with_reducible intro _)
    | (with_reducible apply P_ite)
    | (with_reducible apply P_ite2)
    | split
    | dsimp only

theorem onWait_keeps {P : State → Prop} (K : MemKept P) {p : Nat} {r : FwRow} {act : Wait → State → State} {s : State} (h : P s) (h_act : ∀ (u0 : Wait) (u1 : State), P u1 → P (act u0 u1)) :
    P (onWait p r act s) := by
  unfold onWait
  try dsimp only
  repeat' first
    | (with_reducible assumption)
    | (with_reducible apply h_act)
    | (with_reducible apply onRow_keeps K)
    | (with_reducible apply K.frame (updFw_only rfl (Only.refl _ _)))
    | (with_reducible apply forEach_keeps)
    | (with_reducible apply P_foldl)
    | (with_reducible intro _)
    | (with_reducible apply P_ite)
    | (with_reducible apply P_ite2)
    | split
    | dsimp only

theorem paceRefill_keeps {P : State → Prop} (K : MemKept P) {c : Nat} {s : State} (h : P s) :
    P (paceRefill c s) := by
  unfold paceRefill
  try dsimp only
  repeat' first
    | (with_reducible assumption)
    | (with_reducible apply fillTx_keeps K)
    | (with_reducible apply K.frame (setFld_only rfl (Only.refl _ _)))
    | (with_reducible apply K.frame (updChan_only rfl (Only.refl _ _)))
    | (with_reducible apply K.frame (updHub_only rfl (Only.refl _ _)))
    | (with_reducible apply forEach_keeps)
    | (with_reducible apply P_foldl)
    | (with_reducible intro _)
    | (with_reducible apply P_ite)
    | (with_reducible apply P_ite2)
    | split
    | dsimp only

theorem pdRx_keeps {P : State → Prop} (K : MemKept P) {p : Nat} {sp : Sop} {crcOk : Bool} {l : List Byte} {s : State} (h : P s) :
    P (pdRx p sp crcOk l s) := by
  unfold pdRx
  try dsimp only
  repeat' first
    | (with_reducible assumption)
    | (with_reducible apply acceptMsg_keeps K)
    | (with_reducible apply K.frame (dropTx_only rfl (Only.refl _ _)))
    | (with_reducible apply fillTx_keeps K)
    | (with_reducible apply K.frame (rxBusy_only rfl (Only.refl _ _)))
    | (with_reducible apply K.frame (updPhy_only rfl (Only.refl _ _)))
    | (with_reducible apply forEach_keeps)
    | (with_reducible apply P_foldl)
    | (with_reducible intro _)
    | (with_reducible apply P_ite)
    | (with_reducible apply P_ite2)
    | split
    | dsimp only

theorem portDieLinkLoss_keeps {P : State → Prop} (K : MemKept P) {d : Nat} {hub : Bool} {three : Bool} {s : State} (h : P s) :
    P (portDieLinkLoss d hub three s) := by
  unfold portDieLinkLoss
  try dsimp only
  repeat' first
    | (with_reducible assumption)
    | (with_reducible apply dieLinkLost_keeps K)
    | (with_reducible apply K.frame (hubLinkLost_only rfl (Only.refl _ _)))
    | (with_reducible apply forEach_keeps)
    | (with_reducible apply P_foldl)
    | (with_reducible intro _)
    | (with_reducible apply P_ite)
    | (with_reducible apply P_ite2)
    | split
    | dsimp only

theorem pushStep_keeps {P : State → Prop} (K : MemKept P) {p : Nat} {t : Tran} {s : State} (h : P s) :
    P (pushStep p t s) := by
  unfold pushStep
  try dsimp only
  repeat' first
    | (with_reducible assumption)
    | (with_reducible apply fwHardReset_keeps K)
    | (with_reducible apply K.frame (pushArgs_only rfl (Only.refl _ _)))
    | (with_reducible apply K.frame (updFw_only rfl (Only.refl _ _)))
    | (with_reducible apply forEach_keeps)
    | (with_reducible apply P_foldl)
    | (with_reducible intro _)
    | (with_reducible apply P_ite)
    | (with_reducible apply P_ite2)
    | split
    | dsimp only

theorem readXact_keeps {P : State → Prop} (K : MemKept P) {x : Xact} {code : Nat} {sent : State → List Byte} {act : State → State} {s : State} (h : P s) (h_act : ∀ (u0 : State), P u0 → P (act u0)) :
    P (readXact x code sent act s) := by
  unfold readXact
  try dsimp only
  repeat' first
    | (with_reducible assumption)
    | (with_reducible apply h_act)
    | (with_reducible apply K.frame (countXfer_only rfl (Only.refl _ _)))
    | (with_reducible apply K.frame (discard_only rfl (Only.refl _ _)))
    | (with_reducible apply K.frame (updTwm_only rfl (Only.refl _ _)))
    | (with_reducible apply forEach_keeps)
    | (with_reducible apply P_foldl)
    | (with_reducible intro _)
    | (with_reducible apply P_ite)
    | (with_reducible apply P_ite2)
    | split
    | dsimp only

theorem readBlock_keeps {P : State → Prop} (K : MemKept P) {x : Xact} {code : Nat} {act : State → State} {s : State} (h : P s) (h_act : ∀ (u0 : State), P u0 → P (act u0)) :
    P (readBlock x code act s) := by
  unfold readBlock
  try dsimp only
  repeat' first
    | (with_reducible assumption)
    | (with_reducible apply h_act)
    | (with_reducible apply readXact_keeps K)
    | (with_reducible apply forEach_keeps)
    | (with_reducible apply P_foldl)
    | (with_reducible intro _)
    | (with_reducible apply P_ite)
    | (with_reducible apply P_ite2)
    | split
    | dsimp only

theorem readWord_keeps {P : State → Prop} (K : MemKept P) {x : Xact} {code : Nat} {act : State → State} {s : State} (h : P s) (h_act : ∀ (u0 : State), P u0 → P (act u0)) :
    P (readWord x code act s) := by
  unfold readWord
  try dsimp only
  repeat' first
    | (with_reducible assumption)
    | (with_reducible apply h_act)
    | (with_reducible apply readXact_keeps K)
    | (with_reducible apply forEach_keeps)
    | (with_reducible apply P_foldl)
    | (with_reducible intro _)
    | (with_reducible apply P_ite)
    | (with_reducible apply P_ite2)
    | split
    | dsimp only

theorem readyRow_keeps {P : State → Prop} (K : MemKept P) {p : Nat} {e : EvEntry} {m : List Byte} {s : State} (h : P s) :
    P (readyRow p e m s) := by
  unfold readyRow
  try dsimp only
  repeat' first
    | (with_reducible assumption)
    | (with_reducible apply fwHardReset_keeps K)
    | (with_reducible apply heavyMade_keeps K)
    | (with_reducible apply forEach_keeps)
    | (with_reducible apply P_foldl)
    | (with_reducible intro _)
    | (with_reducible apply P_ite)
    | (with_reducible apply P_ite2)
    | split
    | dsimp only

theorem takeFrame_keeps {P : State → Prop} (K : MemKept P) {n : Nat} {h_ : Header} {level : Nat} {tr : Travel} {act : State → State} {s : State} (h : P s) (h_act : ∀ (u0 : State), P u0 → P (act u0)) :
    P (takeFrame n h_ level tr act s) := by
  unfold takeFrame
  try dsimp only
  repeat' first
    | (with_reducible assumption)
    | (with_reducible apply h_act)
    | (with_reducible apply K.frame (ackFrame_only rfl (Only.refl _ _)))
    | (with_reducible apply K.frame (countDisc_only rfl (Only.refl _ _)))
    | (with_reducible apply K.frame (updChain_only rfl (Only.refl _ _)))
    | (with_reducible apply forEach_keeps)
    | (with_reducible apply P_foldl)
    | (with_reducible intro _)
    | (with_reducible apply P_ite)
    | (with_reducible apply P_ite2)
    | split
    | dsimp only

theorem recvFrame_keeps {P : State → Prop} (K : MemKept P) {n : Nat} {h_ : Header} {typ : FType} {payload : List Byte} {level : Nat} {tr : Travel} {act : State → State} {s : State} (h : P s) (h_act : ∀ (u0 : State), P u0 → P (act u0)) :
    P (recvFrame n h_ typ payload level tr act s) := by
  unfold recvFrame
  try dsimp only
  repeat' first
    | (with_reducible assumption)
    | (with_reducible apply h_act)
    | (with_reducible apply K.frame (ackFrame_only rfl (Only.refl _ _)))
    | (with_reducible apply K.frame (countDisc_only rfl (Only.refl _ _)))
    | (with_reducible apply K.frame (cutThrough_only rfl (Only.refl _ _)))
    | (with_reducible apply K.frame (incFld_only rfl (Only.refl _ _)))
    | (with_reducible apply takeFrame_keeps K)
    | (with_reducible apply forEach_keeps)
    | (with_reducible apply P_foldl)
    | (with_reducible intro _)
    | (with_reducible apply P_ite)
    | (with_reducible apply P_ite2)
    | split
    | dsimp only

theorem recvUpd_keeps {P : State → Prop} (K : MemKept P) {n : Nat} {h_ : Header} {payload : List Byte} {act : State → State} {s : State} (h : P s) (h_act : ∀ (u0 : State), P u0 → P (act u0)) :
    P (recvUpd n h_ payload act s) := by
  unfold recvUpd
  try dsimp only
  repeat' first
    | (with_reducible assumption)
    | (with_reducible apply h_act)
    | (with_reducible apply K.frame (broadcastDown_only rfl (Only.refl _ _)))
    | (with_reducible apply recvFrame_keeps K)
    | (with_reducible apply forEach_keeps)
    | (with_reducible apply P_foldl)
    | (with_reducible intro _)
    | (with_reducible apply P_ite)
    | (with_reducible apply P_ite2)
    | split
    | dsimp only

theorem registerWrite_keeps {P : State → Prop} (K : MemKept P) {who : Who} {a : Word} {v : Word} {s : State} (h : P s) :
    P (registerWrite who a v s) := by
  unfold registerWrite
  try dsimp only
  repeat' first
    | (with_reducible assumption)
    | (with_reducible apply courseStore_keeps K)
    | (with_reducible apply hang_keeps K)
    | (with_reducible apply hostWrite_keeps K)
    | (with_reducible apply twmCmd_keeps K)
    | (with_reducible apply forEach_keeps)
    | (with_reducible apply P_foldl)
    | (with_reducible intro _)
    | (with_reducible apply P_ite)
    | (with_reducible apply P_ite2)
    | split
    | dsimp only

theorem releaseAfterReset_keeps {P : State → Prop} (K : MemKept P) {c : Nat} {code : List Byte} {s : State} (h : P s) :
    P (releaseAfterReset c code s) := by
  unfold releaseAfterReset
  try dsimp only
  repeat' first
    | (with_reducible assumption)
    | (with_reducible apply K.frame (copyFailed_only rfl (Only.refl _ _)))
    | (with_reducible apply releaseCourse_keeps K)
    | (with_reducible apply K.frame (switchDone_only rfl (Only.refl _ _)))
    | (with_reducible apply writeCode_keeps K)
    | (with_reducible apply forEach_keeps)
    | (with_reducible apply P_foldl)
    | (with_reducible intro _)
    | (with_reducible apply P_ite)
    | (with_reducible apply P_ite2)
    | split
    | dsimp only

theorem reneg_keeps {P : State → Prop} (K : MemKept P) {p : Nat} {s : State} (h : P s) :
    P (reneg p s).2 := by
  unfold reneg
  try dsimp only
  repeat' first
    | (with_reducible assumption)
    | (with_reducible apply reAdvertise_keeps K)
    | (with_reducible apply forEach_keeps)
    | (with_reducible apply P_foldl)
    | (with_reducible intro _)
    | (with_reducible apply P_ite)
    | (with_reducible apply P_ite2)
    | split
    | dsimp only

theorem requestRead_keeps {P : State → Prop} (K : MemKept P) {n a : Nat} {s : State} (h : P s) :
    P (requestRead n a s).2.2 := by
  induction n generalizing a s with
  | zero => exact h
  | succ n ih =>
    rw [requestRead]
    exact ih (hostRead_keeps K h)

theorem requestWrite_keeps {P : State → Prop} (K : MemKept P) {n a : Nat} {l : List Byte} {s : State} (h : P s) :
    P (requestWrite n a l s).2 := by
  induction n generalizing a l s with
  | zero => exact h
  | succ n ih =>
    rw [requestWrite]
    split
    · exact h
    · exact ih (hostWrite_keeps K h)

theorem runRequest_keeps {P : State → Prop} (K : MemKept P) {o : Origin} {kind : Nat} {ch : Nat} {data : List Byte} {s : State} (h : P s) :
    P (runRequest o kind ch data s) := by
  unfold runRequest
  try dsimp only
  repeat' first
    | (with_reducible assumption)
    | (with_reducible apply K.frame (answerOrigin_only rfl (Only.refl _ _)))
    | (with_reducible apply mbxPost_keeps K)
    | (with_reducible apply requestRead_keeps K)
    | (with_reducible apply requestWrite_keeps K)
    | (with_reducible apply forEach_keeps)
    | (with_reducible apply P_foldl)
    | (with_reducible intro _)
    | (with_reducible apply P_ite)
    | (with_reducible apply P_ite2)
    | split
    | dsimp only

theorem reqRx_keeps {P : State → Prop} (K : MemKept P) {n : Nat} {h_ : Header} {kind : Nat} {ch : Nat} {tag : BitVec 8} {data : List Byte} {s : State} (h : P s) :
    P (reqRx n h_ kind ch tag data s) := by
  unfold reqRx
  try dsimp only
  repeat' first
    | (with_reducible assumption)
    | (with_reducible apply K.frame (routeFrame_only rfl (Only.refl _ _)))
    | (with_reducible apply runRequest_keeps K)
    | (with_reducible apply forEach_keeps)
    | (with_reducible apply P_foldl)
    | (with_reducible intro _)
    | (with_reducible apply P_ite)
    | (with_reducible apply P_ite2)
    | split
    | dsimp only

theorem restartCourse_keeps {P : State → Prop} (K : MemKept P) {c : Nat} {code : List Byte} {s : State} (h : P s) :
    P (restartCourse c code s) := by
  unfold restartCourse
  try dsimp only
  repeat' first
    | (with_reducible assumption)
    | (with_reducible apply K.frame (copyFailed_only rfl (Only.refl _ _)))
    | (with_reducible apply courseRestart_keeps K)
    | (with_reducible apply finishRestart_keeps K)
    | (with_reducible apply K.frame (switchDone_only rfl (Only.refl _ _)))
    | (with_reducible apply forEach_keeps)
    | (with_reducible apply P_foldl)
    | (with_reducible intro _)
    | (with_reducible apply P_ite)
    | (with_reducible apply P_ite2)
    | split
    | dsimp only

theorem rewriteWord_keeps {P : State → Prop} (K : MemKept P) {id : Nat} {off : Nat} {w : BitVec 64} {s : State} (h : P s) :
    P (rewriteWord id off w s) := by
  unfold rewriteWord
  try dsimp only
  repeat' first
    | (with_reducible assumption)
    | (with_reducible apply setBytes_keeps K)
    | (with_reducible apply K.frame (setReg_only rfl (Only.refl _ _)))
    | (with_reducible apply wordsWritten_keeps K)
    | (with_reducible apply forEach_keeps)
    | (with_reducible apply P_foldl)
    | (with_reducible intro _)
    | (with_reducible apply P_ite)
    | (with_reducible apply P_ite2)
    | split
    | dsimp only

theorem roundReads_keeps {P : State → Prop} (K : MemKept P) {s : State} (h : P s) :
    P (roundReads s) := by
  unfold roundReads
  try dsimp only
  repeat' first
    | (with_reducible assumption)
    | (with_reducible apply seenRange_keeps K)
    | (with_reducible apply forEach_keeps)
    | (with_reducible apply P_foldl)
    | (with_reducible intro _)
    | (with_reducible apply P_ite)
    | (with_reducible apply P_ite2)
    | split
    | dsimp only

theorem runRound_keeps {P : State → Prop} (K : MemKept P) {e : RoundEnd} {s : State} (h : P s) :
    P (runRound e s) := by
  unfold runRound
  try dsimp only
  repeat' first
    | (with_reducible assumption)
    | (with_reducible apply K.frame (clearMeans_only rfl (Only.refl _ _)))
    | (with_reducible apply K.frame (commitRound_only rfl (Only.refl _ _)))
    | (with_reducible apply K.frame (noCommit_only rfl (Only.refl _ _)))
    | (with_reducible apply roundReads_keeps K)
    | (with_reducible apply K.frame (vconnRound_only rfl (Only.refl _ _)))
    | (with_reducible apply forEach_keeps)
    | (with_reducible apply P_foldl)
    | (with_reducible intro _)
    | (with_reducible apply P_ite)
    | (with_reducible apply P_ite2)
    | split
    | (with_reducible apply K.frame (only_set_roundOpen rfl (Only.refl _ _)))
    | dsimp only

theorem rxToPan_keeps {P : State → Prop} (K : MemKept P) {p : Nat} {m : RxBuf} {s : State} (h : P s) :
    P (rxToPan p m s) := by
  unfold rxToPan
  try dsimp only
  repeat' first
    | (with_reducible assumption)
    | (with_reducible apply abandonRx_keeps K)
    | (with_reducible apply answer_keeps K)
    | (with_reducible apply clearRx_keeps K)
    | (with_reducible apply deliverMsg_keeps K)
    | (with_reducible apply joinChunk_keeps K)
    | (with_reducible apply K.frame (raisePd_only rfl (Only.refl _ _)))
    | (with_reducible apply forEach_keeps)
    | (with_reducible apply P_foldl)
    | (with_reducible intro _)
    | (with_reducible apply P_ite)
    | (with_reducible apply P_ite2)
    | split
    | dsimp only

theorem uecc_keeps {P : State → Prop} (K : MemKept P) {c : Nat} {off : Nat} {scrub : Bool} {s : State} (h : P s) :
    P (uecc c off scrub s) := by
  unfold uecc
  try dsimp only
  repeat' first
    | (with_reducible assumption)
    | (with_reducible apply K.frame (foundUe_only rfl (Only.refl _ _)))
    | (with_reducible apply resetChannel_keeps K)
    | (with_reducible apply wakeUp_keeps K)
    | (with_reducible apply forEach_keeps)
    | (with_reducible apply P_foldl)
    | (with_reducible intro _)
    | (with_reducible apply P_ite)
    | (with_reducible apply P_ite2)
    | split
    | dsimp only

theorem scrubWord_keeps {P : State → Prop} (K : MemKept P) {id : Nat} {off : Nat} {s : State} (h : P s) :
    P (scrubWord id off s) := by
  unfold scrubWord
  try dsimp only
  repeat' first
    | (with_reducible assumption)
    | (with_reducible apply decodeWord_keeps K)
    | (with_reducible apply K.frame (dropStaged_only rfl (Only.refl _ _)))
    | (with_reducible apply uecc_keeps K)
    | (with_reducible apply forEach_keeps)
    | (with_reducible apply P_foldl)
    | (with_reducible intro _)
    | (with_reducible apply P_ite)
    | (with_reducible apply P_ite2)
    | split
    | dsimp only

theorem scrubStep_keeps {P : State → Prop} (K : MemKept P) {id : Nat} {s : State} (h : P s) :
    P (scrubStep id s) := by
  unfold scrubStep
  try dsimp only
  repeat' first
    | (with_reducible assumption)
    | (with_reducible apply K.frame (scrubPass_only rfl (Only.refl _ _)))
    | (with_reducible apply scrubWord_keeps K)
    | (with_reducible apply forEach_keeps)
    | (with_reducible apply P_foldl)
    | (with_reducible intro _)
    | (with_reducible apply P_ite)
    | (with_reducible apply P_ite2)
    | split
    | (with_reducible apply K.frame (only_set_scrubs rfl (Only.refl _ _)))
    | dsimp only

theorem sendReady_keeps {P : State → Prop} (K : MemKept P) {p : Nat} {t : Tran} {s : State} (h : P s) :
    P (sendReady p t s) := by
  unfold sendReady
  try dsimp only
  repeat' first
    | (with_reducible assumption)
    | (with_reducible apply sayCtl_keeps K)
    | (with_reducible apply sayVdm_keeps K)
    | (with_reducible apply K.frame (updFw_only rfl (Only.refl _ _)))
    | (with_reducible apply forEach_keeps)
    | (with_reducible apply P_foldl)
    | (with_reducible intro _)
    | (with_reducible apply P_ite)
    | (with_reducible apply P_ite2)
    | split
    | dsimp only

theorem senderTimeout_keeps {P : State → Prop} (K : MemKept P) {p : Nat} {u : Wait} {s : State} (h : P s) :
    P (senderTimeout p u s) := by
  unfold senderTimeout
  try dsimp only
  repeat' first
    | (with_reducible assumption)
    | (with_reducible apply K.frame (arm_only rfl (Only.refl _ _)))
    | (with_reducible apply fwHardReset_keeps K)
    | (with_reducible apply forEach_keeps)
    | (with_reducible apply P_foldl)
    | (with_reducible intro _)
    | (with_reducible apply P_ite)
    | (with_reducible apply P_ite2)
    | split
    | dsimp only

theorem signatureCheck_keeps {P : State → Prop} (K : MemKept P) {s : State} (h : P s) :
    P (signatureCheck s) := by
  unfold signatureCheck
  try dsimp only
  repeat' first
    | (with_reducible assumption)
    | (with_reducible apply candFail_keeps K)
    | (with_reducible apply K.frame (setPhase_only rfl (Only.refl _ _)))
    | (with_reducible apply K.frame (updBoot_only rfl (Only.refl _ _)))
    | (with_reducible apply forEach_keeps)
    | (with_reducible apply P_foldl)
    | (with_reducible intro _)
    | (with_reducible apply P_ite)
    | (with_reducible apply P_ite2)
    | split
    | dsimp only

theorem sinkFirst_keeps {P : State → Prop} (K : MemKept P) {p : Nat} {s : State} (h : P s) :
    P (sinkFirst p s) := by
  unfold sinkFirst
  try dsimp only
  repeat' first
    | (with_reducible assumption)
    | (with_reducible apply attach_keeps K)
    | (with_reducible apply detach_keeps K)
    | (with_reducible apply forEach_keeps)
    | (with_reducible apply P_foldl)
    | (with_reducible intro _)
    | (with_reducible apply P_ite)
    | (with_reducible apply P_ite2)
    | split
    | dsimp only

theorem slotChannel_keeps {P : State → Prop} (K : MemKept P) {c : Nat} {s : State} (h : P s) :
    P (slotChannel c s) := by
  unfold slotChannel
  try dsimp only
  repeat' first
    | (with_reducible assumption)
    | (with_reducible apply paceRefill_keeps K)
    | (with_reducible apply updCrs_keeps K)
    | (with_reducible apply forEach_keeps)
    | (with_reducible apply P_foldl)
    | (with_reducible intro _)
    | (with_reducible apply P_ite)
    | (with_reducible apply P_ite2)
    | split
    | dsimp only

theorem slotStart_keeps {P : State → Prop} (K : MemKept P) {k : Nat} {s : State} (h : P s) :
    P (slotStart k s) := by
  unfold slotStart
  try dsimp only
  repeat' first
    | (with_reducible assumption)
    | (with_reducible apply K.frame (advanceTo_only rfl (Only.refl _ _)))
    | (with_reducible apply K.frame (present_only rfl (Only.refl _ _)))
    | (with_reducible apply K.frame (presentTrig_only rfl (Only.refl _ _)))
    | (with_reducible apply K.frame (setTb_only rfl (Only.refl _ _)))
    | (with_reducible apply slotChannel_keeps K)
    | (with_reducible apply forEach_keeps)
    | (with_reducible apply P_foldl)
    | (with_reducible intro _)
    | (with_reducible apply P_ite)
    | (with_reducible apply P_ite2)
    | split
    | dsimp only

theorem startRequest_keeps {P : State → Prop} (K : MemKept P) {v : Word} {s : State} (h : P s) :
    P (startRequest v s) := by
  unfold startRequest
  try dsimp only
  repeat' first
    | (with_reducible assumption)
    | (with_reducible apply K.frame (endRequest_only rfl (Only.refl _ _)))
    | (with_reducible apply runRequest_keeps K)
    | (with_reducible apply K.frame (sendRequest_only rfl (Only.refl _ _)))
    | (with_reducible apply K.frame (setReg_only rfl (Only.refl _ _)))
    | (with_reducible apply K.frame (updTwm_only rfl (Only.refl _ _)))
    | (with_reducible apply forEach_keeps)
    | (with_reducible apply P_foldl)
    | (with_reducible intro _)
    | (with_reducible apply P_ite)
    | (with_reducible apply P_ite2)
    | split
    | dsimp only

theorem stepResult_keeps {P : State → Prop} (K : MemKept P) {p : Nat} {t : Tran} {r : OpResult} {s : State} (h : P s) :
    P (stepResult p t r s) := by
  unfold stepResult
  try dsimp only
  repeat' first
    | (with_reducible assumption)
    | (with_reducible apply fwHardReset_keeps K)
    | (with_reducible apply pushStep_keeps K)
    | (with_reducible apply sendReady_keeps K)
    | (with_reducible apply K.frame (updFw_only rfl (Only.refl _ _)))
    | (with_reducible apply forEach_keeps)
    | (with_reducible apply P_foldl)
    | (with_reducible intro _)
    | (with_reducible apply P_ite)
    | (with_reducible apply P_ite2)
    | split
    | dsimp only

theorem stepPush_keeps {P : State → Prop} (K : MemKept P) {p : Nat} {s : State} (h : P s) :
    P (stepPush p s) := by
  unfold stepPush
  try dsimp only
  repeat' first
    | (with_reducible assumption)
    | (with_reducible apply fwPrep_keeps K)
    | (with_reducible apply pushStep_keeps K)
    | (with_reducible apply readCq_keeps K)
    | (with_reducible apply stepResult_keeps K)
    | (with_reducible apply forEach_keeps)
    | (with_reducible apply P_foldl)
    | (with_reducible intro _)
    | (with_reducible apply P_ite)
    | (with_reducible apply P_ite2)
    | split
    | dsimp only

theorem swapAsked_keeps {P : State → Prop} (K : MemKept P) {p : Nat} {s : State} (h : P s) :
    P (swapAsked p s) := by
  unfold swapAsked
  try dsimp only
  repeat' first
    | (with_reducible assumption)
    | (with_reducible apply K.frame (fwAlloc_only rfl (Only.refl _ _)))
    | (with_reducible apply sayCtl_keeps K)
    | (with_reducible apply swapAccept_keeps K)
    | (with_reducible apply K.frame (updFw_only rfl (Only.refl _ _)))
    | (with_reducible apply forEach_keeps)
    | (with_reducible apply P_foldl)
    | (with_reducible intro _)
    | (with_reducible apply P_ite)
    | (with_reducible apply P_ite2)
    | split
    | dsimp only

theorem swapRow_keeps {P : State → Prop} (K : MemKept P) {p : Nat} {e : EvEntry} {m : List Byte} {s : State} (h : P s) :
    P (swapRow p e m s) := by
  unfold swapRow
  try dsimp only
  repeat' first
    | (with_reducible assumption)
    | (with_reducible apply fwHardReset_keeps K)
    | (with_reducible apply swapAsked_keeps K)
    | (with_reducible apply K.frame (swapReady_only rfl (Only.refl _ _)))
    | (with_reducible apply forEach_keeps)
    | (with_reducible apply P_foldl)
    | (with_reducible intro _)
    | (with_reducible apply P_ite)
    | (with_reducible apply P_ite2)
    | split
    | dsimp only

theorem transitionExpire_keeps {P : State → Prop} (K : MemKept P) {p : Nat} {u : Wait} {s : State} (h : P s) :
    P (transitionExpire p u s) := by
  unfold transitionExpire
  try dsimp only
  repeat' first
    | (with_reducible assumption)
    | (with_reducible apply pushStep_keeps K)
    | (with_reducible apply sendReady_keeps K)
    | (with_reducible apply forEach_keeps)
    | (with_reducible apply P_foldl)
    | (with_reducible intro _)
    | (with_reducible apply P_ite)
    | (with_reducible apply P_ite2)
    | split
    | dsimp only

theorem tripFirst_keeps {P : State → Prop} (K : MemKept P) {p : Nat} {s : State} (h : P s) :
    P (tripFirst p s) := by
  unfold tripFirst
  try dsimp only
  repeat' first
    | (with_reducible assumption)
    | (with_reducible apply fastTrip_keeps K)
    | (with_reducible apply tripPort_keeps K)
    | (with_reducible apply forEach_keeps)
    | (with_reducible apply P_foldl)
    | (with_reducible intro _)
    | (with_reducible apply P_ite)
    | (with_reducible apply P_ite2)
    | split
    | dsimp only

theorem txRetry_keeps {P : State → Prop} (K : MemKept P) {p : Nat} {s : State} (h : P s) :
    P (txRetry p s) := by
  unfold txRetry
  try dsimp only
  repeat' first
    | (with_reducible assumption)
    | (with_reducible apply fillTx_keeps K)
    | (with_reducible apply K.frame (txFailed_only rfl (Only.refl _ _)))
    | (with_reducible apply K.frame (updHub_only rfl (Only.refl _ _)))
    | (with_reducible apply K.frame (updPhy_only rfl (Only.refl _ _)))
    | (with_reducible apply forEach_keeps)
    | (with_reducible apply P_foldl)
    | (with_reducible intro _)
    | (with_reducible apply P_ite)
    | (with_reducible apply P_ite2)
    | split
    | dsimp only

theorem valueCheck_keeps {P : State → Prop} (K : MemKept P) {s : State} (h : P s) :
    P (valueCheck s) := by
  unfold valueCheck
  try dsimp only
  repeat' first
    | (with_reducible assumption)
    | (with_reducible apply K.frame (acceptImage_only rfl (Only.refl _ _)))
    | (with_reducible apply candFail_keeps K)
    | (with_reducible apply forEach_keeps)
    | (with_reducible apply P_foldl)
    | (with_reducible intro _)
    | (with_reducible apply P_ite)
    | (with_reducible apply P_ite2)
    | split
    | dsimp only

theorem waitAnswer_keeps {P : State → Prop} (K : MemKept P) {p : Nat} {amsEnd : Bool} {s : State} (h : P s) :
    P (waitAnswer p amsEnd s) := by
  unfold waitAnswer
  try dsimp only
  repeat' first
    | (with_reducible assumption)
    | (with_reducible apply K.frame (cancelCtx_only rfl (Only.refl _ _)))
    | (with_reducible apply sayCtl_keeps K)
    | (with_reducible apply K.frame (updFw_only rfl (Only.refl _ _)))
    | (with_reducible apply forEach_keeps)
    | (with_reducible apply P_foldl)
    | (with_reducible intro _)
    | (with_reducible apply P_ite)
    | (with_reducible apply P_ite2)
    | split
    | dsimp only

theorem writeXact_keeps {P : State → Prop} (K : MemKept P) {x : Xact} {code : Nat} {data : List Byte} {act : State → State} {s : State} (h : P s) (h_act : ∀ (u0 : State), P u0 → P (act u0)) :
    P (writeXact x code data act s) := by
  unfold writeXact
  try dsimp only
  repeat' first
    | (with_reducible assumption)
    | (with_reducible apply h_act)
    | (with_reducible apply K.frame (countXfer_only rfl (Only.refl _ _)))
    | (with_reducible apply K.frame (discard_only rfl (Only.refl _ _)))
    | (with_reducible apply K.frame (raiseTwm_only rfl (Only.refl _ _)))
    | (with_reducible apply forEach_keeps)
    | (with_reducible apply P_foldl)
    | (with_reducible intro _)
    | (with_reducible apply P_ite)
    | (with_reducible apply P_ite2)
    | split
    | dsimp only

end Sys2Proof.Machine
end

