-- ==== Sys2Proof/WellFormed.lean ====
section
/-! DEFINITION. Which commands the environment of the block can send: the lengths and alignments that the operand types leave
open. A command of any other row is well formed by the types of its operands. -/
namespace Sys2Proof

/-- A message that the RX buffer holds: a header and up to 28 bytes (R146). -/
def msgLenOk (l : List Byte) : Bool := 2 ≤ l.length && l.length ≤ 30

/-- A mailbox command: 1 to 64 bytes (R29). -/
def mbxLenOk (l : List Byte) : Bool := 1 ≤ l.length && l.length ≤ 64

/-- What follows the two leading bytes of a REQ or RESP frame of at most 2,048 bytes (Tables 17-2, 17-3). -/
def frameLenOk (l : List Byte) : Bool := l.length ≤ 2046

/-- The parts of a block: 2,036, 2,036 and 24 bytes (R444). -/
def partLenOk (part : Fin 3) (l : List Byte) : Bool := l.length = if part.val < 2 then 2036 else 24

/-- A block transfer has an 8-bit byte count (R401). -/
def blockLenOk : BlockCmd → Bool
  | .write l => l.length ≤ 255
  | .read => true

/-- An image of at most 8 MiB (Table 14-3). -/
def imageLenOk (l : List Byte) : Bool := l.length ≤ 8388608

/-- The code RAM of a channel is 192 KiB (R289, Table 10-9). -/
def codeLenOk (l : List Byte) : Bool := l.length ≤ 196608

/-- A memory word is 64 bits (R315). -/
def wordOfs (off : BitVec 20) : Bool := off.toNat % 8 = 0

/-- Each fuse word is named at most once by a re-read (R389). -/
def driftOk (l : List (BitVec 8 × Word × Word)) : Bool := (l.map (·.1)).eraseDups.length = l.length

/-- The command codes of Table 16-3. -/
def listedCodes : List Nat := [0x00, 0x01, 0x02, 0x03, 0x04, 0x05, 0x10, 0x11, 0x12, 0x13, 0x20]

/-- A transaction whose command code is NACKed as unlisted has a code that Table 16-3 does not list (R401). -/
def codeOk : Xact → Bool
  | .alien code => !listedCodes.contains code.toNat
  | .done | .pec _ | .short | .extra _ => true

/-- The commands that the environment can send. -/
def WellFormed : Instr → Bool
  | .pdMessageRx _ _ _ bytes => msgLenOk bytes
  | .mbxPost _ _ cmd => mbxLenOk cmd
  | .lnkReq _ _ _ _ _ data => frameLenOk data
  | .lnkResp _ _ _ _ data => frameLenOk data
  | .updData _ _ _ _ _ part bytes => partLenOk part bytes
  | .twmWburst x k => codeOk x && blockLenOk k
  | .twmRqbuf x k => codeOk x && blockLenOk k
  | .twmStatus x | .twmWaddr x _ | .twmWdata x _ | .twmWdatai x _ | .twmLastrd x | .twmRqgo x _ | .twmRqstat x | .twmRqresp x
  | .twmAlertsum x => codeOk x
  | .imageRead img => (img.map imageLenOk).getD true
  | .verificationComplete a b => (a.map imageLenOk).getD true && (b.map imageLenOk).getD true
  | .courseReleaseAfterReset _ code => codeLenOk code
  | .courseRestart _ code => codeLenOk code
  | .poisonedWordRewrite _ off _ => wordOfs off
  | .fuseReread drift => driftOk drift
  | _ => true

end Sys2Proof
end

