-- ==== Sys2Proof/Tests/Slice0.lean ====
section
/-! SUPPORT. Tests: the spec's worked examples, the well-formedness checks, and for each statement states and operands that
meet its hypotheses, a boundary value for each clause. -/
namespace Sys2Proof.Tests
open Sys2Proof Sys2Proof.Machine

set_option Elab.async false
set_option synthInstance.maxSize 8192
set_option synthInstance.maxHeartbeats 400000

/-! ### States -/

def chOn : Chan := { Chan.init with inReset := false }
def dieOn : Die := { Die.init with inReset := false, up := true, resetMirror := false }

/-- Every clock runs, every domain is out of reset, every link is up, the boot release is past, all legs are enabled. -/
def up : State :=
  { State.reset with
    clk := ⟨false, false, false, false, false, 0, []⟩
    chan := [(0, chOn), (1, chOn), (2, chOn), (3, chOn)]
    die := [(0, dieOn), (1, dieOn), (2, dieOn), (3, dieOn), (4, dieOn), (5, dieOn), (6, dieOn), (7, dieOn)]
    regs := [(R.FLT_SUM, 0), (R.FLT_LINKSTAT, 0xFFFFFFFF)] }

/-- A field of a register holds a value. -/
def put (a : Nat) (f : Fld) (v : Nat) (s : State) : State := setFld a f v s

/-- The timebase is in state `x`. -/
def ang (x : AngState) : State := { up with tb := { up.tb with st := x } }

/-- Port `p` of class `k` in state `x`, and as its die holds it otherwise `f` of the port at reset. -/
def prt (p k : Nat) (x : PState) (f : Port → Port := id) : State :=
  put (R.PRT_CFG p) F.PRT_CFG_CLASS k (updPort p (fun _ => { f Port.init with state := x }) up)

/-- `s` at `n` µs of the device's clock. -/
def aged (n : Nat) (s : State) : State := { s with clock := n }

/-- A released operation of port 0, at entry 0 of channel 0's queue. -/
def op (k : OpKind) (v i : Nat) : OpEntry :=
  { st := .released, kind := k, port := 0, slot := 63, ph := 0, last := true, stepTo := false, vtgt := v, icon := i, w := 0, fa := 0,
    fb := 0, leg := .a, fromLeg := .none, rel := 0, due := none, order := 0, mbb := true, refuse := false, fin := false }

def opIn (o : OpEntry) (s : State) : State := { s with opq := [(0, some o)] }

/-- A transmission of the chain at pan 0, tried `n` times. -/
def txb (begun : Bool) (n : Nat) : TxBuf :=
  { sop := .sop, bytes := [0xA1, 1], origin := .chain 0, amsEnd := false, waitNg := false, begun := begun, tries := n, start := 0 }

/-- A class 1 port 0 in CONTRACT, as the die and the mirror hold it, with its PHY as `f` makes it. -/
def phyS (f : Phy → Phy) : State :=
  let s := prt 0 1 .contract
  { s with phy := [(0, f Phy.init)], mir := s.port }

def rxb (l : List Byte) : RxBuf := ⟨.sop, l, 0⟩

/-- The pans of channel 0 from number `n` on belong to firmware. -/
def pansTaken (n : Nat) (s : State) : State :=
  { s with pan := (List.range (256 - n)).map fun i => (n + i, PanOwner.firmware) }
/-! ### Statements on chapters 02 to 04 -/

theorem test_TimebaseTransitions :
    ((ang .acquire).tclk = true ∧ (ang .acquire).tb.st = .acquire ∧ -256 ≤ (-256#16).toInt ∧ (256#16).toInt ≤ 256) ∧
    (∀ x ∈ [AngState.holdover, .island], (ang x).tclk = true ∧ (ang x).tb.st = x ∧ 400 ≤ (400#16).toNat ∧ (ang x).blkOn = false) ∧
    ((257#16).toInt > 256 ∧ (-257#16).toInt < -256) ∧
    (let s := setTb (fun t => { t with usec := 100000 }) (ang .acquire)
     s.tclk = true ∧ s.tb.st = .acquire ∧ 100000 ≤ s.tb.usec.toNat) ∧
    (let s := setTb (fun t => { t with usec := 2000000 }) (ang .holdover)
     s.tclk = true ∧ s.tb.st = .holdover ∧
      1000 * s.act R.ANG_HOLDISL F.ANG_HOLDISL_HOLD_MS ≤ (s.tb.usec - s.tb.holdStart).toNat) ∧
    (∀ x ∈ [AngState.locked, .ret],
      let s := setTb (fun t => { t with dipping := true }) (ang x)
      s.tclk = true ∧ s.tb.st = x ∧ s.tb.dipping = true ∧ s.reaches 0 = true ∧ (299#16).toNat < 300) ∧
    (ang .locked).act R.ANG_HOLDISL F.ANG_HOLDISL_HOLD_MS ≠ 0 ∧
    (let s := put R.ANG_HOLDISL F.ANG_HOLDISL_HOLD_MS 0 (ang .locked)
     s.tclk = true ∧ s.tb.st = .locked ∧ s.act R.ANG_HOLDISL F.ANG_HOLDISL_HOLD_MS = 0) ∧
    ∀ x ∈ [AngState.locked, .ret, .acquire, .holdover, .island],
      let s := put R.ANG_CFG F.ANG_CFG_BLK_EN 1 (ang x)
      s.tclk = true ∧ s.blkEn = true ∧ s.tb.st = x := by decide +kernel

theorem test_TimebaseCycle :
    (let m (f a : Nat) (l : List Int) : WrapMeas := ⟨f, l, 0, BitVec.ofNat 16 a, 0, 0, 0, 0, 0, 0, 0⟩
     let s (x : AngState) : State := setTb (fun t => { t with nextTick := 256, nextSlot := 32, lead := -64 }) (ang x)
     (s .locked).tclk = true ∧ (s .locked).tb.st = .locked ∧ (s .ret).tb.st = .ret ∧ (s .locked).tb.nextTick = 256 ∧
     (s .locked).tb.nextSlot = 32 ∧ 300 ≤ (m 35000 300 [1024, -1024]).amp.toNat ∧ 35000 ≤ (m 35000 300 []).freq ∧
     (∀ e ∈ (m 35000 300 [1024, -1024]).loop, -1024 ≤ e ∧ e ≤ 1024) ∧ (m 75000 299 []).amp.toNat < 300 ∧
     -64 ≤ (s .ret).leadNow (m 75000 300 []) ∧ (s .ret).leadNow (m 75000 300 []) ≤ 64 ∧ (m 75000 300 []).freq ≤ 75000 ∧
     75000 < (m 75001 300 []).freq ∧ (s .locked).act R.ANG_HOLDISL F.ANG_HOLDISL_HOLD_MS ≠ 0) ∧
    (∀ k ∈ [0, 31],
      let s := setTb (fun t => { t with nextSlot := k, nextTick := 8 * k }) up
      s.tclk = true ∧ s.tb.nextSlot = k ∧ 8 * k ≤ s.tb.nextTick ∧ s.tb.angle.toNat ≤ 2048 * k ∧ s.chanUp 3 = true) ∧
    (∀ k ∈ [8, 255],
      let s := setTb (fun t => { t with nextSlot := 32, nextTick := k }) up
      s.tb.nextTick = k ∧ 256 * k ≤ 2048 * s.tb.nextSlot ∧ s.tb.angle.toNat ≤ 256 * k) ∧
    (8 : Fin 256).val % 8 = 0 ∧ (255 : Fin 256).val % 8 ≠ 0 ∧
    (let s := opIn { op .turnOn 5000 3000 with st := .queued } (ang .acquire)
     s.tclk = true ∧ s.tb.st = .acquire ∧ ((s.opOf 0 0).map (·.st)) = some .queued) ∧
    (let s := setTb (fun t => { t with mzxBlankEnd := 1, maBlankEnd := 1, nextTick := 1, nextSlot := 1 }) up
     s.auPos 0 < s.tb.mzxBlankEnd ∧ s.auPos 0 < s.tb.maBlankEnd ∧ s.tb.mzxBlankEnd ≤ s.auPos 1 ∧ s.tb.maBlankEnd ≤ s.auPos 1 ∧
     s.tclk = true ∧ s.reaches 0 = true ∧ s.reaches 1 = true) ∧ up.mgmtUp = true := by decide +kernel

theorem test_LowHalfReadsLatch : up.mgmtUp = true ∧ up.tclk = true ∧ up.clk.quiet = false := by decide +kernel

/-- Counter 0 runs on TCLK ticks and stands at `v`. -/
def cnt (v : Word) : State := setReg (R.TMU_CNT 0) v (setRun 0 true up)

/-- Counters 0 and 1 are chained. -/
def pair : State := setRun 0 true (put (R.TMU_CTL 0) F.TMU_CTL_CHAIN 1 up)

theorem test_TimersCount :
    (∀ v ∈ [0, 1, 2], (cnt (BitVec.ofNat 32 v)).tclk = true ∧ (cnt (BitVec.ofNat 32 v)).takesTick 0 .tclk = true ∧
      (cnt (BitVec.ofNat 32 v)).presented 0 .tclk = true) ∧
    (up.clkIs 0 .tclk = true ∧ up.presented 0 .tclk = true ∧ up.takesTick 0 .tclk = false) ∧
    ((cnt 1).wide R.TMU_CNT 0 - 1 = 0 ∧ (cnt 1).flag (R.TMU_CTL 0) F.TMU_CTL_ONESHOT = false) ∧
    (let s := put (R.TMU_CTL 0) F.TMU_CTL_ONESHOT 1 (cnt 1)
     s.takesTick 0 .tclk = true ∧ s.flag (R.TMU_CTL 0) F.TMU_CTL_ONESHOT = true) ∧
    ((cnt 0).wide R.TMU_CNT 0 = 0 ∧ (cnt 2).wide R.TMU_CNT 0 - 1 = 1 ∧
      (let s := setReg (R.TMU_CMP 0) 1 (cnt 2); s.takesTick 0 .tclk = true ∧ s.wide R.TMU_CMP 0 = 1)) ∧
    (let s := updTimer 0 (fun x => { x with actReset := true, actStart := true }) up
     s.tclk = true ∧ s.oddHalf 0 = false ∧ (s.timerOf 0).actReset = true ∧ (s.timerOf 0).actStart = true) ∧
    (up.oddHalf 31 = false ∧ pair.tclk = true ∧ pair.oddHalf 0 = false ∧ pair.chained 0 = true ∧ pair.oddHalf 1 = true) ∧
    (whoOwns .host 31 = true ∧ whoOwns (.course 0) 8 = false ∧ whoOwns (.course 0) 7 = true ∧
     (1#32).getLsbD 0 = true ∧ (1#32).getLsbD 31 = false ∧ up.mgmtUp = true ∧ up.chanUp 3 = true) := by decide +kernel

/-- Counter 0 captures on source `c` and holds `n` captures. -/
def capS (n c : Nat) : State := updTimer 0 (fun x => { x with caps := List.replicate n 5, cap := true })
  (put (R.TMU_CAPSRC 0) F.TMU_CAPSRC_CSEL c (put (R.TMU_CTL 0) F.TMU_CTL_CAPEN 1 up))

theorem test_TimerRegistersAndCaptures :
    (up.tclk = true ∧ up.chained 0 = false ∧ up.oddHalf 0 = false ∧ up.running 0 = false ∧ up.running 1 = false) ∧
    (pair.tclk = true ∧ pair.oddHalf 1 = true ∧ pair.chained 0 = true ∧ pair.running 0 = true) ∧
    (((updTimer 1 (fun x => { x with rldPend := some 7, cmpPend := some 8 }) pair).timerOf 1).rldPend = some 7 ∧
     ((updTimer 1 (fun x => { x with rldPend := some 7, cmpPend := some 8 }) pair).timerOf 1).cmpPend = some 8) ∧
    (F.TMU_CTL_GATE.get 0 ≠ 3 ∧ F.TMU_CTL_GATE.get (F.TMU_CTL_GATE.put 0 3) = 3 ∧ up.mgmtUp = true ∧ up.clk.quiet = false) ∧
    ((∀ n ∈ [0, 3, 4], (capS n 8).tclk = true ∧ (capS n 8).oddHalf 0 = false ∧ (capS n 8).flag (R.TMU_CTL 0) F.TMU_CTL_CAPEN = true ∧
       (capS n 8).capIs 0 .mzx = true ∧ ((capS n 8).timerOf 0).cap = true ∧ ((capS n 8).timerOf 0).caps.length = n) ∧
     (({ capS 1 13 with portEv := [(0, 1)] } : State).capIs 0 (.port 0 0) = true ∧ (capS 1 13).capIs 0 .mzx = false ∧ ((capS 1 13).timerOf 0).caps ≠ []) ∧
     ((capS 1 8).mgmtUp = true ∧ ((capS 1 8).timerOf 0).caps = 5 :: [] ∧ ((capS 0 8).timerOf 0).caps = [])) ∧
    (up.tclk = true ∧ up.portUp 511 = true) ∧
    (let s := put (R.TMU_SRC 0) F.TMU_SRC_CLK 7 up
     s.tclk = true ∧ s.portUp 0 = true ∧ s.chanUp 0 = true ∧ s.selects 0 0 0 = true ∧ tabGet 0 s.xat 2048 ≠ s.clock + 1) := by decide +kernel

theorem test_PortAdminAndAttach :
    (let s := prt 511 1 .off
     s.flag R.OTP_STAT F.OTP_STAT_TRIMBAD = false ∧ s.cls 511 = 1 ∧ s.released = true ∧ s.portUp 511 = true ∧
     (s.portOf 511).state = .off ∧ s.clk.extest = false ∧ (s.dieOf (511 / 64)).inReset = false ∧ s.mgmtUp = true ∧
     s.chanUp (511 / 128) = true) ∧
    ((prt 0 2 .off).cls 0 = 2) ∧
    (let s := put R.FLT_SUM F.FLT_SUM_BOOT 1 (prt 0 0 .off)
     s.flag R.OTP_STAT F.OTP_STAT_TRIMBAD = false ∧ s.released = false ∧ s.mgmtUp = true ∧ s.chanUp (0 / 128) = true) ∧
    (let s := prt 0 1 .contract
     s.released = true ∧ s.portUp 0 = true ∧ (s.portOf 0).state ≠ .off ∧ s.mgmtUp = true ∧ s.chanUp (0 / 128) = true) ∧
    (let s := put R.FLT_LINKSTAT F.FLT_LINKSTAT_UP 0 (prt 0 1 .contract)
     s.released = true ∧ s.portUp 0 = false ∧ s.mgmtUp = true ∧ s.chanUp (0 / 128) = true) ∧
    (∀ x ∈ [PState.lockout, .idle], (prt 0 1 x (fun y => { y with tripCnt := 15 })).portUp 0 = true ∧
      ((prt 0 1 x (fun y => { y with tripCnt := 15 })).portOf 0).tripCnt ≠ 0 ∧ (prt 0 1 x).mgmtUp = true ∧
      (prt 0 1 x).chanUp (0 / 128) = true) ∧
    (let s := prt 0 1 .idle (fun y => { y with term := true })
     (s.portOf 0).state = .idle ∧ (s.portOf 0).term = true ∧ s.sinkCond 0 2600 3000 = true ∧ s.accessory 0 1000 1000 = true ∧
     s.portUp 0 = true) ∧
    (let s := prt 0 1 .debounce (fun y => { y with term := true })
     (s.portOf 0).state = .debounce ∧ (s.portOf 0).term = true ∧ s.sinkCond 0 2601 3000 = false) ∧
    (let s := prt 0 1 .contract (fun y => { y with term := true, cc := true, orient := true })
     (s.portOf 0).state = .contract ∧ (s.portOf 0).term = true ∧ s.cls 0 = 1 ∧ (s.portOf 0).cc = true ∧
     isRd (s.ccLevels 0) 2600 = true ∧ isRd (s.ccLevels 0) 2601 = false) ∧
    (let s := aged 200000 (prt 0 1 .debounce (fun y => { y with cc := true }))
     (s.portOf 0).state = .debounce ∧ s.sinkCond 0 1000 3000 = true ∧ s.debounced 0 = true ∧ (799#16).toNat < 800 ∧
     800 ≤ (800#16).toNat) ∧
    (∀ x ∈ [PState.tripped, .retryWait, .lockout],
      let s := aged 200000 (prt 0 2 x (fun y => { y with cc := true }))
      (s.portOf 0).state = x ∧ s.sinkCond 0 400 0 = true ∧ (s.portOf 0).sink = false ∧ s.portUp 0 = true ∧
      s.debounced 0 = true ∧
      (let u := aged 11800 (prt 0 2 x (fun y => { y with sink := true }))
       (u.portOf 0).sink = true ∧ (u.portOf 0).state = x ∧ (u.portOf 0).cc = false ∧ (u.portOf 0).ccAt + 11800 ≤ u.clock ∧
       tripFirst 0 u = u)) ∧
    (let s := aged 11800 (prt 0 1 .safe5v (fun y => { y with sink := true }))
     (s.portOf 0).sink = true ∧ (s.portOf 0).powered = true ∧ (s.portOf 0).cc = false ∧ (s.portOf 0).ccAt + 11800 ≤ s.clock ∧
     tripFirst 0 s = s) ∧
    (let s := aged 11800 (prt 0 1 .inrush (fun y => { y with sink := true, armed := true }))
     (s.portOf 0).sink = true ∧ (s.portOf 0).state = .inrush ∧ (s.portOf 0).armed = true ∧ (s.portOf 0).cc = false ∧
     (s.portOf 0).ccAt + 11800 ≤ s.clock ∧ tripFirst 0 s = s) ∧
    (let s := aged 11799 (prt 0 1 .safe5v (fun y => { y with sink := true }))
     s.clock < (s.portOf 0).ccAt + 11800 ∧ (up.portOf 0).sink = false ∧
     ((prt 0 1 .safe5v (fun y => { y with cc := true })).portOf 0).cc = true) := by decide +kernel

/-- Port 0 of class 1 in state `x` as its die holds it otherwise `f` of the port at reset, `n` µs after reset. -/
def late (n : Nat) (x : PState) (f : Port → Port := id) : State := aged n (prt 0 1 x f)

theorem test_PortProtection :
    (let s := prt 0 1 .inrush
     (s.portOf 0).state = .inrush ∧ (s.portOf 0).armed = false ∧ 4750 ≤ (4750#16).toNat ∧ s.tripWaits 0 = false) ∧
    (let s := late 200000 .inrush
     (s.portOf 0).state = .inrush ∧ (s.portOf 0).armed = false ∧ s.past (s.portOf 0).stAt (atLeast (s.tInr 0)) = true ∧
     s.fastWaits 0 = false) ∧
    (let s := prt 0 1 .contract (fun y => { y with ga := true, tripCnt := 15 })
     (s.portOf 0).powered = true ∧ (s.portOf 0).ga = true ∧ 250 ≤ (250#16).toNat ∧
     (105 * s.ift 0 + 10000) * s.rsns 0 < 100000 * (0xFFFFFF#24).toNat ∧
     100000 * (0#24).toNat < (95 * s.ift 0 - 10000) * s.rsns 0 ∧ (up.portOf 0).powered = false ∧ (99#16).toNat < 100) ∧
    (let s := prt 0 1 .limit (fun y => { y with ftAcc := 100000 })
     (s.portOf 0).state = .limit ∧ atLeast (s.tFt 0) ≤ s.ftNow (s.portOf 0) ∧ s.fastWaits 0 = false) ∧
    (∀ x ∈ [PState.safe5v, .contract, .transition],
      let s := prt 0 1 x (fun y => { y with vtgt := 5000, icon := 3000 })
      (s.portOf 0).goingDown = false ∧ (s.portOf 0).state = x ∧ (s.portOf 0).limact = false ∧
      98 * s.limit 0 ≤ 10000 * (5000#16).toNat + 100000 ∧ s.tripWaits 0 = false ∧ s.portUp 0 = true ∧
      10000 * (0#16).toNat + 100000 < 98 * s.limit 0) ∧
    (((prt 0 1 .limit (fun y => { y with limact := true })).portOf 0).limact = true) ∧
    (let s := late 1980 .limit
     (s.portOf 0).state = .limit ∧ (s.portOf 0).limact = false ∧ (s.portOf 0).limFall + 1980 ≤ s.clock ∧ s.riseWaits 0 = false ∧
     s.tripWaits 0 = false) ∧
    (∀ x ∈ [PState.safe5v, .contract, .transition],
      let s := late 1980 x (fun y => { y with vtgt := 5000 })
      (s.portOf 0).state = x ∧ (s.portOf 0).goingDown = false ∧ (s.portOf 0).limact = false ∧ (s.portOf 0).pgood = false ∧
      s.portUp 0 = true ∧ s.inWindow 0 5000 = true ∧ (s.portOf 0).winAt + 1980 ≤ s.clock ∧
      (s.portOf 0).limFall + 1980 ≤ s.clock ∧ s.riseWaits 0 = false ∧ s.lossWaits 0 = false) ∧
    (let s := prt 0 1 .contract (fun y => { y with pgood := true, vtgt := 5000 })
     (s.portOf 0).pgood = true ∧ s.portUp 0 = true ∧ s.inWindow 0 5000 = true ∧ s.inWindow 0 0 = false ∧
     (prt 0 1 .safe5v).inWindow 0 4750 = true ∧ (prt 0 1 .safe5v).inWindow 0 4749 = false) ∧
    ((let s := prt 0 1 .tripped (fun y => { y with disch := true, retryRun := true, tripCnt := 1 })
      (s.portOf 0).disch = true ∧ (799#16).toNat < 800 ∧ (s.portOf 0).state = .tripped ∧ (s.portOf 0).retryRun = true ∧
      (s.portOf 0).tripCnt < clampTo 1 15 (s.dfld (R.PRT_RETRY 0) F.PRT_RETRY_TRIP_MAX)) ∧
     (let s := prt 0 1 .tripped (fun y => { y with disch := true, tripCnt := 15 })
      (s.portOf 0).disch = true ∧ (s.portOf 0).state = .tripped ∧
      clampTo 1 15 (s.dfld (R.PRT_RETRY 0) F.PRT_RETRY_TRIP_MAX) ≤ (s.portOf 0).tripCnt) ∧
     (let s := prt 0 1 .transition (fun y => { y with disch := true })
      (s.portOf 0).disch = true ∧ (s.portOf 0).state = .transition ∧ (s.portOf 0).vtgt = 0) ∧ 800 ≤ (800#16).toNat) ∧
    (∀ b ∈ [true, false],
      let s := late 640000 .tripped (fun y => { y with disch := true, dischOff := b })
      (s.portOf 0).disch = true ∧ (s.portOf 0).dischOff = b ∧ (s.portOf 0).dischAt + 640000 ≤ s.clock ∧ s.dischWaits 0 = false) ∧
    (∀ x ∈ [PState.retryWait, .tripped],
      let s := late 1000000 x (fun y => { y with retryRun := true, ri := 1000 })
      (s.portOf 0).retryRun = true ∧ (s.portOf 0).state = x ∧
      s.past (s.portOf 0).retryStart (atLeast (1000 * (s.portOf 0).ri)) = true ∧ sinkFirst 0 s = s) ∧
    (let s := late 59400000 .contract (fun y => { y with tripCnt := 1 })
     (s.portOf 0).state = .contract ∧ s.portUp 0 = true ∧ (s.portOf 0).tripCnt ≠ 0 ∧ (s.portOf 0).stAt + 59400000 ≤ s.clock) ∧
    (let s := late 1000000 .idle (fun y => { y with tripCnt := 1, ri := 1000 })
     (s.portOf 0).sink = false ∧ (s.portOf 0).cc = false ∧ (s.portOf 0).state ≠ .lockout ∧ s.portUp 0 = true ∧
     (s.portOf 0).tripCnt ≠ 0 ∧ s.past (s.portOf 0).ccAt (atLeast (1000 * (s.portOf 0).ri)) = true) ∧
    (let s := late 900 .contract (fun y => { y with vconn := true })
     (s.portOf 0).vconn = true ∧ (s.portOf 0).vcAt + 900 ≤ s.clock) := by decide +kernel

set_option synthInstance.maxSize 1024 in
theorem test_PortOperations :
    (let s := opIn (op .turnOn 5000 3000) (prt 0 1 .inrush (fun y => { y with armed := true }))
     s.opArrives 0 0 .turnOn = some (op .turnOn 5000 3000) ∧ (s.portOf 0).state = .inrush ∧ (s.portOf 0).armed = true ∧
     (s.portOf 0).failed = false ∧ (s.dieOf (0 / 64)).vghLow = false) ∧
    (let s := opIn (op .contract 0 3000) (prt 0 1 .safe5v)
     s.opArrives 0 0 .contract = some (op .contract 0 3000) ∧ (s.portOf (128 * 0 + 0)).eff = .safe5v) ∧
    (∀ x ∈ [PState.safe5v, .contract, .transition],
      let s := opIn (op .step 3300 0) (prt 0 1 x (fun y => { y with vtgt := 5000 }))
      s.opArrives 0 0 .step = some (op .step 3300 0) ∧ (op .step 3300 0).vtgt ≠ 0 ∧ (s.portOf 0).eff = x ∧
      (s.portOf 0).goingDown = false) ∧
    (∀ b ∈ [true, false],
      let r : StepRun := ⟨0, b, 5000, false, 0⟩
      let s := late 9900 .transition (fun y => { y with step := some r, vtgt := 9000 })
      (s.portOf 0).step = some r ∧ r.timedOut = false ∧ s.spans 0 (s.portOf 0).vtgt (s.portOf 0).vtgt 9000 = true ∧
      s.headroom 0 9000 = true ∧
      (let u := updMon 0 (fun m => { m with v := 10000 }) (updPort 0 (fun y => { y with ga := true }) s)
       u.headroom 0 9000 = true ∧ u.headroom 0 9001 = false) ∧
      s.spans 0 (s.portOf 0).vtgt (s.portOf 0).vtgt 0 = false ∧ r.start + 99 ≤ s.clock ∧ r.start + 9900 ≤ s.clock ∧
      s.lossWaits 0 = false) ∧
    (∀ k ∈ [OpKind.hrOff, .step],
      let s := opIn (op k 0 0) (prt 0 1 .contract (fun y => { y with disc := true }))
      s.opOf 0 0 = some (op k 0 0) ∧ (op k 0 0).st = .released ∧ (op k 0 0).fin = false ∧ (op k 0 0).port = 0 % 128 ∧
      (op k 0 0).kind = k ∧ (op k 0 0).vtgt = 0 ∧ s.portUp 0 = true ∧ (s.dieOf (0 / 64)).hold = false ∧
      (s.portOf 0).powered = true ∧ (s.portOf 0).disc = true ∧ s.lossWaits 0 = false) ∧
    (∀ m ∈ [true, false],
      let o := { op .transfer 0 0 with mbb := m }
      let s := opIn o (prt 0 1 .contract)
      s.opArrives 0 0 .transfer = some o ∧ (s.portOf 0).powered = true ∧ (s.portOf 0).goingDown = false ∧ o.refuse = false ∧
      o.mbb = m) ∧
    ((prt 0 1 .contract (fun y => { y with xfer := some ⟨0, .b⟩ })).portOf 0).xfer = some ⟨0, .b⟩ ∧
    (let s := opIn (op .vconnOn 0 0) (prt 0 1 .safe5v)
     s.opArrives 0 0 .vconnOn = some (op .vconnOn 0 0) ∧ (s.portOf 0).powered = true ∧ (s.portOf 0).goingDown = false ∧
     (s.portOf 0).vconn = false ∧ (s.dieOf (0 / 64)).vconnLow = false) ∧
    (let s := opIn (op .vconnOff 0 0) (late 495 .safe5v (fun y => { y with vcEntry := some 0 }))
     s.opArrives 0 0 .vconnOff = some (op .vconnOff 0 0) ∧ (s.portOf 0).state ≠ .off ∧ (s.portOf 0).vcEntry = some 0 ∧
     (s.portOf 0).vcAt + 495 ≤ s.clock) ∧
    (Who.ownsPort .host 511 = true ∧ Who.ownsPort (.course 3) 511 = true ∧ (up.portOf 511).state ≠ .limit ∧ up.chanUp 3 = true ∧ up.mgmtUp = true ∧
     up.portUp 511 = true ∧ (put R.FLT_LINKSTAT F.FLT_LINKSTAT_UP 0 up).portUp 511 = false) ∧
    (let s := prt 0 1 .limit (fun y => { y with ftAcc := 1000 })
     s.portUp 0 = true ∧ (s.portOf 0).state = .limit ∧ s.chanUp (0 / 128) = true ∧ s.mgmtUp = true ∧
     clampTo 1000 100000 (F.PRT_LIMIT_T_FT.get 0) ≤ s.ftNow (s.portOf 0)) := by decide +kernel

/-! ### Statements on chapter 05 -/

/-- Get_Sink_Cap of the sink with MessageID 1, and a Request. -/
def getCap : List Byte := [0x88, 0x02]
def request1 : List Byte := [0x82, 0x12, 0x2C, 0xB1, 0x04, 0x13]

theorem test_PhyCommandsComplete :
    (let s := phyS id
     s.cls 0 ≠ 0 ∧ (s.portOf 0).state ≠ .off ∧ (s.phyOf 0).bistCarrier = false ∧ (s.phyOf 0).bistData = false ∧
     Sop.sop ≠ .other ∧ (s.phyOf 0).rx = none ∧ isCtl request1 13 = false ∧ isData request1 3 = false ∧
     (s.phyOf 0).rxId .sop ≠ some (msgId request1) ∧ (s.dieOf (0 / 64)).hold = false) ∧
    (let s := put (R.PRT_PDCFG 0) F.PRT_PDCFG_SOPP_EN 1 (updPort 0 (fun y => { y with vconn := true }) (phyS id))
     s.soppOn 0 = true ∧ s.chanUp (0 / 128) = true ∧ s.portUp 0 = true) ∧
    ((phyS fun y => { y with rxIdSop := some 1 }).phyOf 0).rxId .sop = some (msgId request1) ∧
    ((phyS fun y => { y with rx := some (rxb request1) }).phyOf 0).rx ≠ none ∧
    (let s := phyS fun y => { y with tx := some (txb false 0) }
     (s.phyOf 0).tx = some (txb false 0) ∧ (txb false 0).begun = false ∧ (txb false 0).waitNg = false ∧ (txb false 0).tries = 0 ∧
     (s.phyOf 0).hrPend = false ∧ (s.phyOf 0).hrSig = false) ∧
    (let s := phyS fun y => { y with tx := some (txb true 1), txIdSop := 7 }
     (s.phyOf 0).tx = some (txb true 1) ∧ (txb true 1).tries ≠ 0 ∧ (txb true 1).origin = .chain 0 ∧ (s.phyOf 0).txId .sop < 8 ∧
     (s.hubOf 0).answers = [] ∧ (s.hubOf 0).txq = [] ∧ s.portUp 0 = true ∧ s.chanUp (0 / 128) = true ∧
     (s.phyOf 0).txId .sop ≠ (6#3).toNat) ∧
    (crc32 request1 ≠ crc32 request1 + 1 ∧ (aged 900 up).clock = (txb true 2).start + 900 ∧ (txb true 3).origin = .chain 0) ∧
    ((txb true 2).begun = true ∧ (txb true 2).tries < 3 ∧ 3 ≤ (txb true 3).tries ∧
     ((phyS fun y => { y with tx := some (txb true 3) }).phyOf 0).tx = some (txb true 3)) ∧
    (let s := aged 16000 (phyS fun y => { y with sinkTx := true })
     (s.phyOf 0).sinkTx = true ∧ (s.phyOf 0).ngAt + 16000 ≤ s.clock) ∧
    (let s := aged 29700 (phyS fun y => { y with bistCarrier := true })
     (s.phyOf 0).bistCarrier = true ∧ (s.phyOf 0).bistAt + 29700 ≤ s.clock ∧ (s.phyOf 0).hrAt + 3960 ≤ s.clock) ∧
    (((phyS fun y => { y with hrPend := true }).phyOf 0).hrPend = true ∧
     ((phyS fun y => { y with hrSig := true }).phyOf 0).hrSig = true) ∧
    ((phyS id).soppOn 0 = false ∧ ((phyS id).hubOf 0).noPanUnread = false ∧
     ((updHub 0 (fun h => { h with noPanUnread := true }) (phyS id)).hubOf 0).noPanUnread = true) ∧
    ((put R.FLT_LINKSTAT F.FLT_LINKSTAT_UP 0 (phyS id)).portUp 0 = false ∧
     (updDie 0 (fun d => { d with hold := true }) (phyS id)).dieOf 0 = { dieOn with hold := true }) ∧
    (let s := aged 99000 (phyS fun y => { y with kaRun := true })
     (s.phyOf 0).kaRun = true ∧ (s.dieOf (0 / 64)).hold = false ∧ s.portUp 0 = true ∧
     s.past (s.phyOf 0).kaStart (atLeast (s.kaUs 0)) = true) := by decide +kernel

/-- The hub's part for port 0 is `f` of its reset value. -/
def hubS (f : HubPort → HubPort) (g : Phy → Phy := id) : State := { phyS g with hub := [(0, f HubPort.init)] }

/-- A chunk that asks for chunk 1 of the message being sent. -/
def chunkAsk : List Byte := [0x92, 0x92, 0x00, 0x8C]

def joining : ChunkRx := { sop := .sop, pans := [0], header := request1.take 2, data := [], size := 260, next := 9, asked := false, since := 0, usec := 0 }

theorem test_HubCommandsComplete :
    (let s := phyS fun y => { y with rx := some (rxb request1) }
     (s.phyOf 0).rx = some (rxb request1) ∧ s.hubSees 0 = true ∧ handlerOf (s.kaKind 0) request1 = .firmware ∧
     msgExt request1 = false ∧ (s.hubOf 0).chunkRx = none ∧ request1.length ≤ 48 ∧
     (pansTaken 16 s).freePans 0 = List.range 16 ∧ (pansTaken 17 s).freePans 0 = List.range 17) ∧
    (handlerOf 0 [9, 0] = .reject ∧ handlerOf 0 [8, 0] = .notSup ∧ handlerOf 2 [16, 0x80, 2, 0x80, 3, 0] = .kaAck ∧
     (up.phyOf 0).tx = none ∧ (up.hubOf 0).answers = [] ∧ ((phyS fun y => { y with tx := some (txb true 1) }).phyOf 0).tx ≠ none) ∧
    (let s := hubS (fun h => { h with chunkTx := some ⟨0, 0, true, 0⟩ }) (fun y => { y with rx := some (rxb chunkAsk) })
     (s.phyOf 0).rx = some (rxb chunkAsk) ∧ s.hubSees 0 = true ∧ handlerOf (s.kaKind 0) chunkAsk = .chunkReq ∧
     (s.hubOf 0).chunkTx = some ⟨0, 0, true, 0⟩ ∧ extNum chunkAsk = 0 + 1 ∧ (s.hubOf 0).txq = [] ∧
     (∀ k < 256 * 8, s.wordErr (0x20 + 0 / 128) (8 * k) = WordErr.init) ∧ 0 + 24000 ≤ (aged 24000 s).clock) ∧
    (let s := pansTaken 22 (hubS fun h => { h with chunkRx := some joining })
     s.hubSees 0 = true ∧ (s.hubOf 0).chunkRx = some joining ∧ joining.asked = false ∧ joining.size ≤ 260 ∧
     22 ≤ (s.freePans (0 / 128)).length) ∧
    (hubS fun h => { h with chunkRx := some { joining with asked := true } }).hubOf 0 =
      { HubPort.init with chunkRx := some { joining with asked := true } } ∧
    (let s : State := setBytes 0x20 0 (natLe 4 2) (pansTaken 0 (phyS fun y => { y with tx := some (txb true 1) }))
     s.chanUp 0 = true ∧ s.txChain 0 0 = [0] ∧ s.panOf 0 0 = .firmware ∧
     s.txBad 0 (s.panDesc 0 0) [0] [3, 0] = false ∧ s.pacedMsg 0 (s.chainSop 0 0) [3, 0] = false ∧ (s.phyOf 0).tx ≠ none ∧
     s.txBad 0 0 [0] [] = true ∧ up.panOf 0 0 ≠ .firmware) := by decide +kernel

/-- Context 1 of channel 0 is `f` of a context bound to port 0, generation 1. -/
def ctxS (f : Ctx → Ctx) : State :=
  { hubS (fun h => { h with ctxId := 1, gen := 1 }) with ctx := [(1, f { Ctx.init with state := .bound, gen := 1 })] }

/-- Every context of channel 0 is bound. -/
def ctxFull : State := { phyS id with ctx := (List.range 64).map fun n => (n, { Ctx.init with state := .bound }) }

/-- Port 0 waits for a context. -/
def waits (s : State) : State := put (R.CTX_WAIT 0 0) ⟨0, 1⟩ 1 s

theorem test_ContextCommandsComplete :
    (tabGet 0 (ctxS id).xat (Cross.ctx 0).key ≠ (ctxS id).clock + 1 ∧ (ctxS id).chanUp (0 / 128) = true ∧ ((ctxS id).hubOf 0).ctxId ≠ 0 ∧ (waits (phyS id)).waiting 0 = true ∧
     (up.mirOf 0).mayAlloc = false) ∧
    ((phyS id).waiting 0 = false ∧ ((phyS id).hubOf 0).ctxId = 0 ∧ ((phyS id).mirOf 0).mayAlloc = true ∧
     (phyS id).freeCtxs 0 = 1 :: (List.range 62).map (· + 2)) ∧
    (ctxFull.freeCtxs 0 = [] ∧ ctxFull.waiting 0 = false ∧ (ctxFull.mirOf 0).mayAlloc = true ∧ (ctxFull.hubOf 0).ctxId = 0) ∧
    ((waits (phyS id)).bestPort ((waits (phyS id)).waiters 0) = some 0) ∧
    ((ctxS id).ctxOf 0 0).state = .free ∧ ((ctxS id).ctxOf 0 1).gen ≠ 2 ∧
    ((ctxS fun x => { x with boundUnread := true }).ctxOf 0 1).boundUnread = true ∧
    ((ctxS fun x => { x with closingUnread := true }).ctxOf 0 1).closingUnread = true ∧
    (let s := ctxS id
     (s.ctxOf 0 1).state ≠ .free ∧ (s.ctxOf 0 1).gen = 1 ∧ (s.ctxOf 0 1).boundUnread = false ∧
     (s.ctxOf 0 1).closingUnread = false ∧ (∀ k : Fin 128, s.waiting (128 * 0 + k.val) = false) ∧ (s.ctxOf 0 1).state = .bound ∧
     (0x40000000#32).getLsbD 30 = true) ∧
    (∀ b ∈ [true, false],
      let s := aged 100 (ctxS fun x => { x with tmrA := ⟨1, 0, b, false⟩, tmrB := ⟨1, 0, b, false⟩ })
      ((s.ctxOf 0 1).timer b).start + 100 * ((s.ctxOf 0 1).timer b).count.toNat ≤ s.clock ∧ (s.ctxOf 0 1).state = .bound ∧
      ((s.ctxOf 0 1).timer false).count ≠ 0 ∧ ((s.ctxOf 0 1).timer true).count ≠ 0 ∧ ((s.ctxOf 0 1).timer false).pend = b) ∧
    (up.freePans 0 ≠ [] ∧ (pansTaken 0 up).freePans 0 = [] ∧ (pansTaken 0 up).panOf 0 255 = .firmware ∧ up.panOf 0 255 ≠ .firmware) ∧
    ((up.chanOf 0).evq = [] ∧
     (let e : EvEntry := ⟨.txDone, 0, 0, .sop, 0, 5, false⟩
      let s := setPan 0 5 (.tx 5) (updChan 0 (fun x => { x with evq := [e] }) up)
      (s.chanOf 0).evq = e :: [] ∧ e.noPan = false ∧ e.kind = .txDone ∧ s.panOf 0 (5 : Fin 256) = .tx e.pan)) := by decide +kernel
/-! ### Statements on chapters 06 and 07 -/

/-- Port 0 with a context in INRUSH in its mirror, leg A and a ceiling of `w` in both banks. -/
def queueS (w : Nat) : State :=
  let s := ctxS id
  { s with bankA := ⟨[(0, F.PLC_ENT_CEIL.put (F.PLC_ENT_LEG.put 0 1) w)], [], []⟩ }

theorem test_OperationQueueCompletes :
    (let s := queueS 150
     s.chanUp 0 = true ∧ s.freeOps 0 ≠ [] ∧ s.bound 0 = true ∧ s.badState 0 .step = false ∧ s.badState 0 .contract = false ∧
     s.badState 0 .vconnOff = false ∧ s.chLeg 0 ≠ .none ∧ 5000 * s.startCur 0 ≤ s.chCeil 0 * 100000 ∧
     (s.hubOf 0).hold = false ∧ s.portUp 0 = true ∧ s.tclk = true ∧ s.hrMarks 0 = [] ∧ s.xferMarks 0 = [] ∧
     s.badState 0 .hrOff = false) ∧
    (let s := updPort 0 (fun y => { y with state := .inrush, armed := true, raSeen := true }) (queueS 150)
     let t := put (R.PRT_CCCFG 0) F.PRT_CCCFG_VCONN_EN 1 { s with mir := s.port }
     t.badState 0 .turnOn = false ∧ t.badState 0 .vconnOn = false) ∧
    (F.OPQ_ARG1_SLOT.get (F.OPQ_ARG1_SLOT.put 0 31) ≤ 31 ∧ F.OPQ_ARG1_SLOT.get (F.OPQ_ARG1_SLOT.put 0 63) = 63 ∧
     F.OPQ_ARG1_PH.get (F.OPQ_ARG1_PH.put 0 2) ≠ 3 ∧ F.OPQ_ARG1_PH.get (F.OPQ_ARG1_PH.put 0 3) = 3 ∧
     F.OPQ_ARG0_ICON.get (F.OPQ_ARG0_ICON.put 0 5000) ≤ 5000 ∧ F.OPQ_ARG0_VTGT.get 0 = 0 ∧
     3300 ≤ F.OPQ_ARG0_VTGT.get (F.OPQ_ARG0_VTGT.put 0 3300) ∧ F.OPQ_ARG0_VTGT.get (F.OPQ_ARG0_VTGT.put 0 48000) ≤ 48000 ∧
     32 ≤ F.OPQ_ARG1_SLOT.get (F.OPQ_ARG1_SLOT.put 0 32) ∧ F.OPQ_ARG1_SLOT.get (F.OPQ_ARG1_SLOT.put 0 62) ≤ 62) ∧
    (let s : State := { up with opq := (List.range 64).map fun i => (i, some (op .step 0 0)) }
     s.freeOps 0 = [] ∧ s.chanUp 0 = true) ∧
    (up.freeOps 0 ≠ [] ∧ up.bound 0 = false) ∧
    ((up.chanOf 0).cq = [] ∧
     (let r : CqEntry := ⟨.done, some .step, 0, some 0⟩
      let s := updChan 0 (fun x => { x with cq := [r], waitRes := [r] }) up
      (s.chanOf 0).cq = r :: [] ∧ (s.chanOf 0).waitRes = r :: [] ∧ (s.chanOf 0).cq.length < 256)) ∧
    (let o := { op .step 0 0 with st := .queued }
     let s := opIn o (updChan 0 (fun x => { x with opOrder := 1 }) up)
     s.opOf 0 0 = some o ∧ o.fin = false ∧ o.st = .queued ∧ o.port = (0 : Fin 128).val ∧ o.order < (s.chanOf 0).opOrder ∧
     s.hrMarks 0 = [] ∧ s.xferMarks 0 = [] ∧ (op .step 0 0).st ≠ .queued) ∧
    (let s := aged 25000 (updHub 0 (fun h => { h with psHardReset := true }) up)
     s.chanUp (0 / 128) = true ∧ (s.hubOf 0).psHardReset = true ∧ (s.hubOf 0).psAt + 25000 ≤ s.clock) := by decide +kernel

theorem test_ContractsAndShedding :
    (let s := queueS 150
     let power (w : Word) := (w.toNat / 65536 * (w.toNat % 65536) + 99999) / 100000
     s.chanUp (0 / 128) = true ∧ (s.mirOf 0).powered = true ∧
     power (BitVec.ofNat 32 (5000 * 65536 + 3000)) ≤ F.PLC_ENT_CEIL.get (s.entOf 0) ∧
     F.PLC_ENT_CEIL.get (s.entOf 0) < power (BitVec.ofNat 32 (5000 * 65536 + 3001)) ∧
     s.ownPrio 0 < 7 ∧ (s.hubOf 0).deadline = none ∧
     s.tb.usec.toNat ≤ (s.ceilSince 0 + BitVec.ofNat 64 (s.deadlineUs (0 / 128))).toNat) ∧
    (let s := hubS fun h => { h with deadline := some 0 }
     s.deadlineDue 0 = true ∧ s.chanUp (0 / 128) = true ∧ s.portUp 0 = true ∧
     (put R.FLT_LINKSTAT F.FLT_LINKSTAT_UP 0 s).portUp 0 = false ∧ (put R.FLT_LINKSTAT F.FLT_LINKSTAT_UP 0 s).deadlineDue 0 = true) ∧
    (let s := setTb (fun t => { t with usec := 60000000 }) (hubS fun h => { h with hold := true })
     s.shedHoldDue 0 = true ∧ s.deadlineDue 0 = false ∧ (hubS fun h => { h with hold := true }).shedHoldDue 0 = false) := by decide +kernel

/-- The course of channel 0 runs; port 0 has context 1, leg A, a ceiling of 15 W and firmware's record as `f` makes it. -/
def fwS (f : Fw → Fw) : State := { put (R.CRS_STAT 0) F.CRS_STAT_STATE 1 (queueS 150) with fw := [(0, f Fw.init)] }

theorem caught_of {s : State} {c : Nat} (h : s.fwRuns c = true ∧ fwPrep c s = s) : Caught s c := h

/-- At the head of `CTX_EVQ` stands the receipt of message `m`, in pan 0. -/
def rxS (m : List Byte) (f : Fw → Fw) : State :=
  setBytes 0x20 16 m (setBytes 0x20 0 (natLe 4 m.length)
    (updChan 0 (fun x => { x with evq := [⟨.rx, 1, 0, .sop, 0, 0, false⟩] }) (fwS f)))

/-- At the head of `CTX_EVQ` stands the expiry of timer A or B of context 1. -/
def tmS (b : Bool) (f : Fw → Fw) : State :=
  updChan 0 (fun x => { x with evq := [⟨if b then .timerB else .timerA, 1, 0, .sop, 0, 0, false⟩] }) (fwS f)

/-- What makes row `r` have its turn, but for `Caught`, which a computation shows. -/
def TurnB (s : State) (p : Nat) (r : FwRow) (e : EvEntry) : Prop :=
  (s.fwRuns (p / 128) = true ∧ fwPrep (p / 128) s = s) ∧ (s.chanOf (p / 128)).evq.head? = some e ∧ e.port = p % 128 ∧
  s.evRow (p / 128) e = some r ∧ s.breaks p r e (s.rxBytes (p / 128) e.pan) = false ∧ (s.fwOf p).again = []

theorem turn_of {s : State} {p : Nat} {r : FwRow} {e : EvEntry} (h : TurnB s p r e) : Turn s p r e := h

def rxE : EvEntry := ⟨.rx, 1, 0, .sop, 0, 0, false⟩
def tmE (b : Bool) : EvEntry := ⟨if b then .timerB else .timerA, 1, 0, .sop, 0, 0, false⟩

/-- A Request for 3 A, and one for 3.1 A, of object 1; an EPR Request of object 8, and the fixed objects they name. -/
def req3 : List Byte := [0x82, 0x12, 0x2C, 0xB1, 0x04, 0x10]
def req31 : List Byte := [0x82, 0x12, 0x2C, 0xD9, 0x04, 0x10]
def reqEpr : List Byte := [0x89, 0x22, 0x2C, 0xB1, 0x04, 0x80] ++ natLe 4 0x1912C
def fixed5 (f : Fw) : Fw := { f with basis := [0x1912C, 0, 0, 0, 0, 0, 0, 0x1912C] }

theorem test_FirmwareRequestsAndWaits_requests :
    TurnB (rxS req3 fixed5) 0 .request rxE ∧ (rxS req3 fixed5).rxBytes 0 0 = req3 ∧
    (let o := basisObj ((rxS req3 fixed5).fwOf 0).basis (msgObj req3 0 / 2 ^ 28)
     let a := askOf o (msgObj req3 0)
     o ≠ 0 ∧ a.ok = true ∧ isData req3 9 = false ∧ msgObj req3 0 / 2 ^ 28 ≤ 7 ∧ a.v * a.i = 5000 * 3000 ∧
     a.v * a.i ≤ (rxS req3 fixed5).chCeil 0 * 100000 ∧ (rxS req3 fixed5).bound 0 = true ∧
     (askOf o (msgObj req31 0)).ok = false) ∧
    (basisObj ((rxS req3 id).fwOf 0).basis (msgObj req3 0 / 2 ^ 28) = 0) ∧
    (let s := { rxS req3 fixed5 with bankA := ⟨[(0, F.PLC_ENT_CEIL.put (F.PLC_ENT_LEG.put 0 1) 149)], [], []⟩ }
     s.chCeil 0 * 100000 < 5000 * 3000) ∧
    (let s := updHub 0 (fun h => { h with ctxId := 0 }) (rxS req3 fixed5)
     s.bound 0 = false ∧ s.sameContract 0 5000 3000 1 = false ∧ s.evRow 0 rxE = some .request) ∧
    (let f (x : Fw) : Fw := { fixed5 x with epr := true }
     let s := rxS reqEpr f
     s.evRow 0 rxE = some .request ∧ isData reqEpr 9 = true ∧ msgObj reqEpr 0 / 2 ^ 28 = 8 ∧
     msgObj reqEpr 1 = basisObj (s.fwOf 0).basis 8) := by unfold TurnB; decide +kernel

/-- A transition from 5 V to 9 V in 20 steps of which `k` are pushed. -/
def tran9 (k : Nat) (e : Option Nat) : Tran :=
  { v0 := 5000, i0 := 3000, v1 := 9000, i1 := 1600, pos := 2, n := 20, k := k, slot := 31, entry := e, noOp := false, oneOp := false,
    pps := false, heavy := false, opened := true, trying := false, last := 0, waited := 0 }

theorem test_FirmwareRequestsAndWaits_waits :
    (let s := aged 5000 (updHub 0 (fun h => { h with ctxId := 0 }) (fwS fun x => { x with req := some (tran9 0 none), want := .move }))
     (s.fwRuns 0 = true ∧ fwPrep 0 s = s) ∧ (s.chanOf (0 / 128)).evq = [] ∧ (s.fwOf 0).req.isSome = true ∧
     (s.fwOf 0).want = .move ∧ s.bound 0 = false ∧ (s.fwOf 0).wantAt + 5000 ≤ s.clock) ∧
    (let s := aged 150000 (updHub 0 (fun h => { h with ctxId := 0 }) (fwS fun x => { x with useA := .caps, waitN := 1500 }))
     (s.fwRuns 0 = true ∧ fwPrep 0 s = s) ∧ (s.chanOf (0 / 128)).evq = [] ∧ s.bound 0 = false ∧ (s.fwOf 0).useA = .caps ∧
     s.waitOver 0 = true ∧ (s.fwOf 0).dead = false) ∧
    TurnB (tmS false fun x => { x with useA := .caps }) 0 .repeat_ (tmE false) ∧
    TurnB (tmS false fun x => { x with useA := .sender, hrCount := 2 }) 0 .sender (tmE false) ∧
    (tmS false fun x => { x with useA := .soft, hrCount := 2 }).evRow 0 (tmE false) = some .sender ∧
    TurnB (tmS true fun x => { x with useB := true, hrCount := 1 }) 0 .noResponse (tmE true) ∧
    TurnB (tmS false fun x => { x with useA := .trans, tran := some (tran9 0 none) }) 0 .transition (tmE false) ∧
    (tmS false fun x => { x with useA := .same, tran := some (tran9 0 none) }).evRow 0 (tmE false) = some .transition ∧
    TurnB (tmS false fun x => { x with useA := .recover }) 0 .recovery (tmE false) ∧
    ((tmE false).kind = .timerA ∧ (tmE true).kind = .timerB) := by unfold TurnB; decide +kernel

theorem test_FirmwareRequestsAndWaits_steps :
    (let s := tmS false fun x => { x with useA := .trans, tran := some (tran9 0 none) }
     (s.fwOf 0).tran = some (tran9 0 none) ∧ (s.fwOf 0).useA = .trans ∧ (tran9 0 none).oneOp = false ∧
     s.freeOps (0 / 128) ≠ [] ∧ (tran9 0 none).slot ≤ 31 ∧ s.startPhase 0 ≠ 3 ∧ s.bound 0 = true ∧ s.badState 0 .step = false ∧
     s.chLeg 0 ≠ .none ∧ 3300 ≤ (tran9 0 none).vtgt 1 ∧ (tran9 0 none).vtgt 1 ≤ 48000 ∧ (tran9 0 none).icon 1 ≤ 5000 ∧
     (tran9 0 none).weight 1 ≤ 65535 ∧ s.portUp 0 = true ∧ s.tclk = true) ∧
    (∀ x ∈ [OpResult.done, .stepTo, .aborted, .cancelled, .superseded],
      let e : CqEntry := ⟨x, some .step, 0, some 0⟩
      let s := updChan 0 (fun y => { y with cq := [e] }) (fwS fun x => { x with tran := some (tran9 20 (some 0)) })
      (s.chanOf 0).cq.head? = some e ∧ e.port = 0 % 128 ∧ s.tranStep 0 e = true ∧ e.result = x ∧ (tran9 20 (some 0)).k = 20) ∧
    (let e : CqEntry := ⟨.done, some .step, 0, some 0⟩
     let s := updChan 0 (fun y => { y with cq := [e] }) (fwS fun x => { x with tran := some (tran9 20 (some 0)) })
     s.fwRuns 0 = true ∧ fwPrep 0 s = s) := by decide +kernel

/-- Get_Source_Cap, Soft_Reset, VCONN_Swap, PS_RDY, an extended message, EPR_Mode Enter, Exit and another action. -/
def getSrc : List Byte := [0x87, 0x02]
def ctl (t : Nat) : List Byte := natLe 2 (t + 0x280)
def extM : List Byte := [0x81, 0x92, 2, 0x80, 0, 0]
def eprM (a : Nat) : List Byte := [0x8A, 0x12] ++ natLe 4 (a * 2 ^ 24)

theorem test_FirmwareMessagesAndOffers_answers :
    TurnB (rxS getSrc id) 0 .answer rxE ∧ (isCtl getSrc 7 = true ∧ ((rxS getSrc id).fwOf 0).dead = false) ∧
    ((rxS (ctl 13) id).evRow 0 rxE = some .answer ∧ isCtl (ctl 13) 13 = true) ∧
    ((rxS extM id).evRow 0 rxE = some .answer ∧ msgExt extM = true ∧ msgType extM ≠ 6 ∧ msgType extM ≠ 16) ∧
    ((rxS [0x84, 0x12, 0, 0, 0, 0] id).evRow 0 rxE = some .answer ∧ msgExt [0x84, 0x12, 0, 0, 0, 0] = false ∧
     msgNdo [0x84, 0x12, 0, 0, 0, 0] ≠ 0 ∧ isStructuredVdm [0x84, 0x12, 0, 0, 0, 0] = false) ∧
    TurnB (rxS (eprM 1) id) 0 .epr rxE ∧ (msgObj (eprM 1) 0 / 2 ^ 24 = 1) ∧
    (msgObj (eprM 5) 0 / 2 ^ 24 = 5 ∧ msgObj (eprM 2) 0 / 2 ^ 24 ≠ 1 ∧ msgObj (eprM 2) 0 / 2 ^ 24 ≠ 5 ∧
     (rxS (eprM 5) id).evRow 0 rxE = some .epr ∧ (rxS (eprM 5) id).cls 0 ≠ 2 ∧ ((rxS (eprM 5) id).fwOf 0).cpps = false ∧
     (put (R.PRT_CFG 0) F.PRT_CFG_CLASS 2 (rxS (eprM 5) id)).evRow 0 rxE = some .epr ∧
     ((rxS (eprM 5) fun x => { x with cpps := true }).fwOf 0).cpps = true) := by unfold TurnB; decide +kernel

theorem test_FirmwareMessagesAndOffers_swap :
    TurnB (rxS (ctl 11) id) 0 .swap rxE ∧ rxE.kind = .rx ∧ isCtl (ctl 11) 11 = true ∧
    ((rxS (ctl 11) id).cls 0 = 1 ∧ (rxS (ctl 11) id).bound 0 = true ∧ ((rxS (ctl 11) id).fwOf 0).vcSink = false) ∧
    ((put (R.PRT_CFG 0) F.PRT_CFG_CLASS 2 (rxS (ctl 11) id)).cls 0 = 2 ∧
     (put (R.PRT_CFG 0) F.PRT_CFG_CLASS 2 (rxS (ctl 11) id)).evRow 0 rxE = some .swap) ∧
    (updHub 0 (fun h => { h with ctxId := 0 }) (rxS (ctl 11) id)).bound 0 = false ∧
    ((rxS (ctl 6) fun x => { x with vcAwait := true }).evRow 0 rxE = some .swap ∧ isCtl (ctl 6) 6 = true) ∧
    (let s := setRec 0 8 0x10000096 (fwS fun x => { x with adv := [0x1912C] })
     (s.fwRuns 0 = true ∧ fwPrep 0 s = s) ∧ s.offerChanged 0 = true ∧ s.entered 0 = false ∧ (s.fwOf 0).calm = true ∧
     (s.fwOf 0).dead = false ∧ s.bound 0 = true ∧ (∀ q : Fin 128, q.val ≠ 0 → s.offerChanged q = false) ∧
     (∀ q : Fin 128, (s.fwOf q).onWait = false)) := by unfold TurnB; decide +kernel

/-- Port 0 is a heavy port. -/
def heavy (s : State) : State := put (R.PRT_CFG 0) F.PRT_CFG_CLASS 2 s

/-- A structured VDM of header `h` and objects `l`; the SVID of an unprogrammed channel is 0. -/
def vdm (h : Nat) (l : List Nat) : List Byte :=
  natLe 2 (0x8F + 0x200 + 4096 * (1 + l.length)) ++ natLe 4 h ++ l.flatMap (natLe 4)

theorem test_HeavyFirmwareRows_discovery :
    (let s := heavy (rxS (vdm 0xFF00A841 []) fun x => { x with disc := .identity })
     TurnB s 0 .discovery rxE ∧ s.cls 0 = 2 ∧ (s.fwOf 0).disc = .identity ∧ rxE.sop = .sop ∧
     vdmCt (msgObj (s.rxBytes 0 0) 0) = 1) ∧
    (let s := heavy (rxS (vdm 0xFF00A881 []) fun x => { x with disc := .identity })
     s.evRow 0 rxE = some .discovery ∧ vdmCt (msgObj (s.rxBytes 0 0) 0) = 2 ∧ (s.fwOf 0).test = false) ∧
    (let s := heavy (tmS false fun x => { x with disc := .identity, useA := .disc, discTry := 0 })
     TurnB s 0 .discovery (tmE false) ∧ s.dtry 0 ≤ 0 + 8) ∧
    (let s := put (R.CHN_HVCFG 0) F.CHN_HVCFG_DTRY 2 (heavy (tmS false fun x => { x with disc := .identity, useA := .disc }))
     s.evRow 0 (tmE false) = some .discovery ∧ (s.fwOf 0).discTry + 1 < s.dtry 0 ∧ s.dtry 0 ≤ 1 + 1) ∧
    (let s := heavy (fwS fun x => { x with disc := .due })
     (s.fwRuns 0 = true ∧ fwPrep 0 s = s) ∧ (s.chanOf 0).evq = [] ∧ (s.fwOf 0).disc = .due ∧ s.bound 0 = true ∧
     (s.fwOf 0).test = false) := by unfold TurnB; decide +kernel

theorem test_HeavyFirmwareRows_contract :
    (let s := heavy (rxS (vdm 0xA844 []) fun x => { x with disc := .enter })
     TurnB s 0 .enterAck rxE) ∧
    (let s := put (R.CHN_HVCFG 0) F.CHN_HVCFG_DTRY 1 (heavy (tmS false fun x => { x with useA := .hcaps, capsTry := 1 }))
     TurnB s 0 .caps (tmE false) ∧ s.dtry 0 ≤ (s.fwOf 0).capsTry) ∧
    (let s := updMir 0 (fun x => { x with pimax := 100, pvmax := 1023 }) (put (R.CHN_HPROF 0 0 0) F.CHN_HPROF_VMAX 100
       (put (R.CHN_HPROF 0 0 0) F.CHN_HPROF_IMAX 100 (put (R.CHN_HPROF 0 0 0) F.CHN_HPROF_TYPE 0
       (put (R.CHN_HVCFG 0) F.CHN_HVCFG_DTRY 2 (heavy (tmS false fun x => { x with useA := .hcaps, capsTry := 1 }))))))
     TurnB s 0 .caps (tmE false) ∧ (s.fwOf 0).capsTry < s.dtry 0 ∧ (s.heavyObjs 0).all (· = 0) = false) ∧
    (let x : Word := BitVec.ofNat 32 (360 * 2 ^ 20 + 20)
     let s := heavy (rxS (vdm 0xA850 [2 ^ 28 + 360 * 2 ^ 16 + 20]) fun f => { f with hbasis := [x], useA := .hcaps })
     s.evRow 0 rxE = some .heavyRequest ∧ heavyAllows x.toNat 360 20 = true ∧ heavyAllows x.toNat 360 21 = false ∧
     s.chCeil 0 * 100000 < 360 * 100 * (20 * 50) ∧
     (let t : State := { s with bankA := ⟨[(0, F.PLC_ENT_CEIL.put (F.PLC_ENT_LEG.put 0 1) 360)], [], []⟩ }
      TurnB t 0 .heavyRequest rxE ∧ 360 * 100 * (20 * 50) ≤ t.chCeil 0 * 100000)) ∧
    (let s := heavy (tmS false fun x => { x with useA := .hready, tran := some { tran9 20 none with heavy := true } })
     TurnB s 0 .ready (tmE false) ∧ (s.fwOf 0).tran.isSome = true ∧ s.portUp 0 = true) ∧
    (let s := heavy (rxS (vdm 0xA852 []) fun x => { x with useA := .hready, tran := some { tran9 20 none with heavy := true } })
     s.evRow 0 rxE = some .ready ∧ s.breaks 0 .ready rxE (s.rxBytes 0 0) = false ∧ vdmCt (msgObj (s.rxBytes 0 0) 0) = 1) ∧
    (heavy (rxS (vdm 0xA813 [0]) id)).evRow 0 rxE = some .ask := by unfold TurnB; decide +kernel

theorem test_HeavyCommandsComplete :
    (Who.ownsPort (.course 0) 127 = true ∧ Who.ownsPort .host 127 = true ∧ up.chanUp (127 / 128) = true ∧ up.mgmtUp = true ∧
     up.clk.quiet = false ∧ up.cls 0 ≠ 2 ∧ (heavy up).cls 0 = 2 ∧
     (heavy up).portUp 0 = true ∧ (put R.FLT_LINKSTAT F.FLT_LINKSTAT_UP 0 (heavy up)).portUp 0 = false) := by decide +kernel
/-! ### Statements on chapters 08 and 09 -/

theorem test_RoundsAndCommits :
    (up.tclk = true ∧ up.released = true ∧ up.roundDue = true ∧ up.roundPoint = true ∧ roundReads up = up ∧ up.imageBad = false ∧
     up.chanUp 3 = true) ∧
    (let s : State := { up with roundOpen := true }
     s.roundOpen = true ∧ s.tclk = true ∧ s.roundLate = true) ∧
    ((updHub 511 (fun h => { h with redate := true }) up).hubOf 511).redate = true ∧
    (let s : State := { up with bankA := ⟨[(511, 150)], [], []⟩, chan := [(3, { chOn with bank := true })] }
     F.PLC_ENT_CEIL.get (s.chEnt 511) ≠ F.PLC_ENT_CEIL.get (s.entOf 511) ∧
     F.PLC_ENT_CEIL.get (s.chEnt 510) = F.PLC_ENT_CEIL.get (s.entOf 510)) := by decide +kernel

theorem test_RoundKeepsHeldPorts :
    (let s := put R.FLT_LINKSTAT (F.FLT_LINKSTAT_HOLD.bit 7) 1 up
     s.rakeHold 511 = true ∧ s.tclk = true ∧ s.released = true ∧ s.roundDue = true ∧ s.roundPoint = true ∧ roundReads s = s ∧
     s.imageBad = false) ∧
    (let s := put R.FLT_LINKSTAT F.FLT_LINKSTAT_HOLD 0 up
     s.rakeHold 0 = false ∧ s.live 0 = false ∧ s.roundDue = true) := by decide +kernel

/-- Feeder 7 is present, its monitor as `f` makes it. -/
def fdrS (f : FdrMon → FdrMon) : State := updMon 7 f (put (R.FDR_CFG 7) F.FDR_CFG_PRES 1 up)

theorem test_FeederInputsComplete :
    (let s := fdrS fun m => { m with outCnt := 11 }
     s.tclk = true ∧ s.acts (R.FDR_CFG 7) F.FDR_CFG_PRES = true ∧ 11 ≤ (s.monOf 7).outCnt ∧ s.mgmtUp = true ∧
     s.clk.quiet = false) ∧
    ((fdrS fun m => { m with outCnt := 10 }).monOf 7).outCnt < 11 ∧
    (let s := put (R.FDR_VWIN 7) F.FDR_VWIN_VDOWN 110 (put (R.FDR_VWIN 7) F.FDR_VWIN_VOVER 200 (fdrS fun m => { m with v := 11000 }))
     s.acts (R.FDR_CFG 7) F.FDR_CFG_PRES = true ∧ s.outside 7 (s.monOf 7).v = false ∧
     (updMon 7 (fun m => { m with v := 10999 }) s).outside 7 10999 = true) ∧
    (up.fld R.PLC_INPUTS F.PLC_INPUTS_LEVEL ≠ 7 ∧ (put R.PLC_INPUTS F.PLC_INPUTS_PINLV 7 up).shedLevel = 7) := by decide +kernel

theorem test_ScanAndTripMeasurements :
    (let s := { up with adc := [(31, { Adc.init with scanOn := true, next := some 32 })] }
     (s.dieOf (31 / 4)).inReset = false ∧ (s.adcOf 31).scanOn = true ∧ s.calBusy 31 = false ∧ s.slotFree 31 = true ∧
     s.slotNext 31 32 = true ∧ s.slotNext 31 31 = false ∧ 511 = 16 * (31 : Fin 32).val + (31 : Fin 33).val / 2 ∧
     16 * 31 + (32 : Fin 33).val / 2 = 512 ∧ (30 : Fin 33).val % 2 = 0 ∧ (31 : Fin 33).val % 2 = 1) ∧
    (let s := { up with adc := [(0, { Adc.init with urgent := [0] })] }
     s.slotFree 0 = false) ∧
    (let s := { up with scan := [(511, { Scan.init with due := true })] }
     s.portUp 511 = true ∧ (s.dieOf (511 / 64)).hold = false ∧ (s.scanOf 511).due = true ∧ s.tclk = true ∧
     (s.harvOf 511).last = none ∧
     ({ up with harv := [(511, { Harv.init with last := some 0 })] } : State).harvOf 511 = { Harv.init with last := some 0 }) ∧
    (let s := { up with adc := [(31, { Adc.init with urgent := [511], pend := some 0 })] }
     (s.adcOf (511 / 16)).urgent.head? = some 511 ∧ (s.adcOf (511 / 16)).pend.isSome = true ∧ s.portUp 511 = true) := by
  decide +kernel

/-- A port measured at 5.0 V and 1.2 A shows 600 in `PWR`: 6.00 W. -/
theorem test_power_600 : min 65535 (5000 * 12000 / 100000) = 600 := by decide

theorem test_HubFrameAndHarvest :
    (up.tclk = true ∧ up.mgmtUp = true ∧ up.calBusy 32 = false ∧ up.calBusy 33 = false ∧ up.slotNext 32 0 = true) ∧
    (slotFeeder 0 = none ∧ slotFeeder 1 = some 0 ∧ slotFeeder 4 = some 3 ∧ slotFeeder 5 = none ∧ slotFeeder 6 = some 4 ∧
     slotFeeder 9 = some 7) ∧
    (let s := put (R.FDR_VWIN 0) F.FDR_VWIN_VDOWN 110 (put (R.FDR_VWIN 0) F.FDR_VWIN_VOVER 200 (put (R.FDR_CFG 0) F.FDR_CFG_PRES 1 up))
     s.acts (R.FDR_CFG 0) F.FDR_CFG_PRES = true ∧ s.outside 0 11000 = false ∧ s.outside 0 10999 = true ∧ s.outside 0 20000 = false ∧
     s.outside 0 20001 = true ∧ (s.monOf 0).outCnt < 10) ∧
    (({ up with fdrMon := [(0, { FdrMon.init with outCnt := 10 })] } : State).monOf 0).outCnt = 10 ∧
    (up.chanUp (511 / 128) = true ∧ seen (up.regPlaces (R.PRT_ELO 511)) up = up ∧
     up.anyPoison (up.regPlaces (R.PRT_ELO 511)) = false ∧ (511 : Fin 512).val / 128 = (3 : Fin 4).val) := by decide +kernel

/-- Unit 0 with its registers and its path as given, an hour on. -/
def unit0 (u : Nat) (l : List (Nat × Word)) (a : Adc) : State :=
  { up with clock := 3600000000, adc := [(u, a)], dieRegs := l }

theorem test_AdcCommandsComplete :
    (Who.ownsUnit .host 33 = true ∧ up.unitUp 33 = true ∧ up.mgmtUp = true ∧ Who.ownsUnit (.course 3) 31 = true ∧
     up.chanUp 3 = true ∧ up.unitUp 31 = true) ∧
    up.dfld (R.ADC_STAT 0) F.ADC_STAT_ARMED = 0 ∧
    (let s := unit0 0 [(R.ADC_ODTRG 0, F.ADC_ODTRG_TSRC.put 0 5), (R.ADC_STAT 0, F.ADC_STAT_ARMED.put 0 1)] { Adc.init with trg := true }
     s.unitUp 0 = true ∧ s.tclk = true ∧ s.trigIs 0 .wrap = true ∧ s.trigComes 0 .wrap = true ∧ s.trigIs 0 .slot = false ∧
     s.dfld (R.ADC_STAT 0) F.ADC_STAT_ARMED = 1 ∧ (s.adcOf 0).pend = none ∧ s.calBusy 0 = false) ∧
    (let s := unit0 0 [(R.ADC_STAT 0, F.ADC_STAT_CALBUSY.put (F.ADC_STAT_ARMED.put 0 1) 1)] Adc.init
     s.dfld (R.ADC_STAT 0) F.ADC_STAT_ARMED = 1 ∧ s.calBusy 0 = true ∧ s.trigComes 0 .wrap = false) ∧
    (let s := unit0 0 [(R.ADC_DATA 0, F.ADC_DATA_NEW.put 0 1)] { Adc.init with pend := some 0, calWait := true }
     (s.adcOf 0).pend ≠ none ∧ (s.adcOf 0).pend = some 0 ∧ unitForm 0 (F.ADC_ODCFG_INPUT.get 0) = some (12, false) ∧
     s.odDue 0 = true ∧ (s.adcOf 0).urgent = [] ∧ (s.dieOf (0 / 4)).inReset = false ∧
     s.dfld (R.ADC_DATA 0) F.ADC_DATA_NEW = 1 ∧ F.ADC_ODCFG_REPEAT.get 0 = 0 ∧ (s.adcOf 0).calWait = true) ∧
    (let s := unit0 33 [] { Adc.init with pend := some 0 }
     s.odDue 33 = true ∧ unitForm 33 (F.ADC_ODCFG_INPUT.get 0) = some (14, true) ∧ s.tclk = true ∧ s.slotNext 32 0 = true ∧
     s.calBusy 32 = false ∧ s.calBusy 33 = false ∧ F.ADC_ODCFG_INPUT.get 0 = (0 : Fin 10).val ∧ (s.adcOf (65 - 33)).pend = none) ∧
    (unit0 0 [] Adc.init).odDue 0 = false ∧
    (let s := unit0 0 [(R.ADC_STAT 0, F.ADC_STAT_CALBUSY.put 0 1)] { Adc.init with calAt := 3599997475 }
     s.calBusy 0 = true ∧ (s.adcOf 0).urgent = [] ∧ s.past (s.adcOf 0).calAt (atLeast 2550) = true ∧ s.linkUp (0 / 4) = true) ∧
    (let s := updDie 0 (fun d => { d with up := false }) (unit0 0 [(R.ADC_STAT 0, F.ADC_STAT_CALBUSY.put 0 1)] Adc.init)
     s.calBusy 0 = true ∧ s.linkUp (0 / 4) = false) ∧
    (29491 ≤ (29491#17).toNat ∧ (36045#17).toNat ≤ 36045 ∧ ¬(29491 ≤ (29490#17).toNat ∧ (29490#17).toNat ≤ 36045) ∧
     ¬(29491 ≤ (36046#17).toNat ∧ (36046#17).toNat ≤ 36045)) := by decide +kernel
/-! ### Statements on chapters 10 and 11 -/

/-- Course 0 runs, and its three strings, `x` each, fetch the word `w`, which stands at 0x100 of its code RAM. -/
def codeS (w : Nat) (x : Str) : State :=
  setBytes 0 0x100 (natLe 4 w) (updCrs 0 (fun y => { y with s0 := x, s1 := x, s2 := x }) (put (R.CRS_STAT 0) F.CRS_STAT_STATE 1 up))

def at100 : Str := { Str.init with pc := 0x100, g := [(1, 7)] }

/-- A word of opcode `op` with the low bits `low`. -/
def word (op low : Nat) : Nat := op * 2 ^ 22 + low

/-- Every opcode of the register, immediate, load, store, multiplier and control groups stands in a word that is fetched. -/
theorem test_Fetches_all : ∀ p ∈ [(0x00, 0), (0x01, 0), (0x02, 0), (0x03, 0), (0x04, 0), (0x05, 0), (0x06, 0), (0x07, 0), (0x08, 0),
      (0x09, 0), (0x0A, 0), (0x0B, 0), (0x0C, 0), (0x0D, 0), (0x10, 0x2000), (0x14, 0x3FFF), (0x15, 0), (0x16, 0), (0x17, 31), (0x18, 31),
      (0x19, 31), (0x1A, 0), (0x1B, 0), (0x1C, 0x2000), (0x1D, 0x3FFF), (0x20, 0xFFFF), (0x21, 0xFFFF), (0x24, 0), (0x25, 0), (0x26, 0),
      (0x27, 0), (0x28, 0), (0x2C, 0), (0x2D, 0), (0x2E, 0), (0x30, 0), (0x31, 0), (0x32, 0), (0x33, 0), (0x34, 0), (0x38, 31), (0x39, 31),
      (0x3A, 0x3FFFFF), (0x3B, 0x200000), (0x3C, 0), (0x3D, 1), (0x3E, 0), (0x3E, 1), (0x3E, 2), (0x3E, 3), (0x3E, 4), (0x3F, 0), (0x3F, 1),
      (0x3F, 2), (0x3F, 3), (0x3F, 4)],
    legal (BitVec.ofNat 32 (word p.1 p.2)) = true ∧ opCode (BitVec.ofNat 32 (word p.1 p.2)) = p.1 ∧
      at100.cond (BitVec.ofNat 32 (word p.1 p.2)) = true ∧
      (codeS (word p.1 p.2) at100).leAt 0 0x100 4 = (BitVec.ofNat 32 (word p.1 p.2)).toNat := by decide +kernel

/-- A course that runs and fetches, with what the statements on its instructions ask. -/
theorem test_Fetches : Fetches (codeS (word 0 0) at100) 0 (BitVec.ofNat 32 (word 0 0)) at100 :=
  ⟨by decide +kernel, by decide +kernel, by decide +kernel, by decide, by decide, rfl, by decide +kernel, by decide⟩

/-- The condition eq fails while Z is 0; `add.ne g3, g4, g5` and a `b.ne` eight words back stand in the words that the manual
gives. -/
theorem test_words :
    at100.cond 0x10000000 = false ∧ at100.cond 0 = true ∧
    (opCond 0x200D1400 = 2 ∧ opCode 0x200D1400 = 0 ∧ opD 0x200D1400 = 3 ∧ opA 0x200D1400 = 4 ∧ opB 0x200D1400 = 5 ∧
     legal 0x200D1400 = true) ∧
    (opCond 0x2EBFFFF8 = 2 ∧ opCode 0x2EBFFFF8 = 0x3A ∧ off22 0x2EBFFFF8 = -32 ∧ legal 0x2EBFFFF8 = true) := by decide +kernel

theorem test_FlagArithmetic :
    (addFlags 0xFFFFFFFF 1 false).1 = 0 ∧ (addFlags 0x7FFFFFFF 0 true).2.v = true ∧ (subFlags 5 5 true).2.c = true ∧
    (subFlags 5 5 false).2.c = false ∧ (shiftFlags .left 0x80000001 1 ⟨false, false, false, false⟩).2.c = true ∧
    (shiftFlags .arith 0x80000000 31 ⟨false, false, false, false⟩).1 = 0xFFFFFFFF ∧
    (shiftFlags .right 3 32 ⟨false, false, true, false⟩).2.c = true := by decide

/-- Division by zero and by 2, `mts` and `mfs` of each number, `rep` of 0 and of 7. -/
theorem test_SvaqMultiplierAndSpecials :
    (let s := codeS (word 0x34 0) at100
     s.crsRuns 0 = true ∧ at100.gpr (opB (BitVec.ofNat 32 (word 0x34 0))) = 0 ∧
     at100.gpr (opB (BitVec.ofNat 32 (word 0x34 (1 * 2 ^ 10)))) ≠ 0 ∧ legal (BitVec.ofNat 32 (word 0x34 (1 * 2 ^ 10))) = true) ∧
    (∀ n ∈ [0, 1, 2, 5, 9, 10, 11, 12, 13, 14, 15, 16, 17, 255],
      opNum (BitVec.ofNat 32 (word 0x38 n)) = n ∧ legal (BitVec.ofNat 32 (word 0x39 n)) = true ∧ legal (BitVec.ofNat 32 (word 0x38 n)) = true) := by
  decide +kernel

theorem test_SvaqControlInstructions :
    (let w : Word := BitVec.ofNat 32 (word 0x3D 1)
     at100.gpr (opRep w) = 0 ∧ at100.gpr (opRep (BitVec.ofNat 32 (word 0x3D (1 * 2 ^ 18 + 1)))) ≠ 0 ∧
     legal (BitVec.ofNat 32 (word 0x3D (1 * 2 ^ 18 + 0xFFFF))) = true) ∧
    (∀ n ∈ [0, 1, 2, 3, 4], opNum (BitVec.ofNat 32 (word 0x3F n)) = n) ∧ at100.xa = false := by decide +kernel

theorem test_SvaqExceptionsAndEvents :
    (let s := codeS (word 0x3F 5) at100
     s.executes 0 = true ∧ 2 ≤ (s.active3 0).length ∧ (∀ j ∈ s.active3 0, Str.landDue 4 ((s.crsOf 0).str j) = at100) ∧
     at100.pc.toNat % 4 = 0 ∧ at100.pc.toNat < 0x30000 ∧ s.leAt 0 at100.pc.toNat 4 = word 0x3F 5 ∧
     legal (BitVec.ofNat 32 (word 0x3F 5)) = false ∧ at100.xa = false ∧ ({ at100 with st := 0x80 } : Str).xa = true) ∧
    (codeS 0 at100).wordErr 0 0x100 = WordErr.init ∧
    0x30000 ≤ ({ at100 with pc := 0x30000 } : Str).pc.toNat ∧
    (let s := updCrs 0 (fun y => { y with even := 0x40, slot := true, sleep := true }) (codeS 0 { at100 with st := 0x10 })
     (s.crsOf 0).iso = none ∧ s.eventDue 0 = true ∧ s.crsRuns 0 = true ∧ (s.crsOf 0).sleep = true ∧ s.eventPending 0 = true) ∧
    (let s := updCrs 0 (fun y => { y with even := 0x40, slot := true }) (codeS 0 { at100 with st := 0x10 })
     s.executes 0 = true ∧ s.eventDue 0 = true) := by decide +kernel

/-- The first and the last address of each region of a course's map, and the addresses beside it. -/
theorem test_SvaqLoadsAndStores :
    (∀ a ∈ [0x30000, 0x3FFFF, 0x50000, 0x84000, 0x94000, 0xA2000, 0xB8000, 0xC0210, 0xC0318, 0xC1100, 0xD0204, 0xD0500, 0xE040C, 0xE1010,
        0xFFFFFFFF], courseSpot 0 a = .outside) ∧
    (∀ a ∈ [0, 0x2FFFF, 0x40000, 0x4FFFF, 0x90000, 0x93FFF, 0xA0000, 0xA1FFF, 0xC0200, 0xC020F, 0xC0300, 0xC0317, 0xD0000, 0xD0203, 0xD0400,
        0xE0000, 0xE040B, 0xE1000, 0xE100F], courseSpot 0 a ≠ .outside) ∧
    (let x : Str := { at100 with g := [(1, 0x4FFFC)] }
     let w : Word := BitVec.ofNat 32 (word 0x24 (1 * 2 ^ 14))
     (x.gpr (opA w) + simm14 w).toNat = 0x4FFFC ∧
     (x.gpr (opA w) + simm14 (BitVec.ofNat 32 (word 0x24 (1 * 2 ^ 14 + 0x3FFF)))).toNat = 0x4FFFB ∧ 0x4FFFB % 2 ≠ 0) ∧
    (let e : StoreReq := ⟨0x30000, 4, 1⟩
     let s := updCrs 0 (fun y => { y with sbuf := [e] }) up
     (s.crsOf 0).sbuf = e :: [] ∧ s.chanUp 0 = true ∧ s.hangs (courseSpot 0 e.addr.toNat) = false ∧ (s.crsOf 0).sbuf.length < 4) := by
  decide +kernel

/-- g12 to g14 name 4 words from 0x40000 to 0x40010; g1 holds 7. -/
def atStr : Str := { at100 with g := [(1, 7), (12, 0x40000), (13, 0x40010), (14, 4)] }

theorem test_SvaqStringsRun :
    (let s := codeS (word 0x3E 0) atStr
     s.executes 0 = true ∧ s.active3 0 = [0, 1, 2] ∧ (∀ i ∈ [0, 1, 2], (s.crsOf 0).str i = atStr) ∧
     s.leAt 0 0x100 4 = word 0x3E 0 ∧ (s.crsOf 0).iso = none ∧ (s.crsOf 0).mid = false ∧ (s.crsOf 0).sbuf = []) ∧
    ((atStr.gpr 14).toNat = 4 ∧ (atStr.gpr 12).toNat % 4 = 0 ∧ 0x40000 ≤ (atStr.gpr 12).toNat ∧ (atStr.gpr 13).toNat % 4 = 0 ∧
     (atStr.gpr 12).toNat + 4 * 4 ≤ (atStr.gpr 13).toNat ∧ (atStr.gpr 13).toNat + 64 ≤ 0x50000) ∧
    (let w : Word := BitVec.ofNat 32 (word 0x3E (1 * 2 ^ 14 + 3))
     opA w ≠ 12 ∧ opA w ≠ 13 ∧ opA w ≠ 14 ∧ legal w = true ∧ opNum w = 3 ∧ (atStr.gpr (opA w)).toNat = 7) ∧
    (∀ j < 4, (codeS (word 0x3E 3) atStr).leAt 0x10 (4 * j) 4 ≠ 7) ∧
    (setBytes 0x10 8 (natLe 4 7) (codeS (word 0x3E 3) atStr)).leAt 0x10 8 4 = 7 ∧
    (∀ j < 16, up.wordErr (recPlace 7 j).1 (recPlace 7 j).2 = WordErr.init) := by decide +kernel

theorem test_SvaqStringsRun_intact (w : Nat) : ∀ o < 0x10000, (codeS w atStr).wordErr 0x10 o = WordErr.init := fun _ _ => rfl

/-- An entry of channel 0's lane, its command `cmd` in its buffer, taken or not; the course's firmware runs. -/
def mbxS (taken : Bool) (cmd : List Byte) : State :=
  setBytes 0x53 (mbxOff 0 7) cmd
    { (fwS id) with mbx := [(7, some { taken := taken, order := 0, time := 0, len := cmd.length, origin := .host 0, reported := false })] }

def mbxE (taken : Bool) (n : Nat) : MbxEntry := { taken := taken, order := 0, time := 0, len := n, origin := .host 0, reported := false }

theorem test_MailboxCommandsComplete :
    (up.mgmtUp = true ∧ up.chanUp 3 = true ∧ up.mbxFree 3 ≠ [] ∧ up.mbxOf 3 7 = none) ∧
    (({ up with mbx := (List.range 8).map fun i => (24 + i, some (mbxE true 1)) } : State).mbxFree 3 = []) ∧
    (let s := mbxS false [1]
     s.mgmtUp = true ∧ s.mbxOf 0 7 = some (mbxE false 1) ∧ (mbxE false 1).taken = false ∧
     (∀ j : Fin 8, j ≠ 7 → s.mbxOf 0 j = none) ∧ s.mbxOldest 0 = some (7, mbxE false 1) ∧ s.bytesAt 0x53 (mbxOff 0 7) 1 = [1] ∧
     (s.fwRuns 0 = true ∧ fwPrep 0 s = s)) ∧
    (let s := mbxS true [1]
     s.mbxOf 0 7 = some (mbxE true 1) ∧ (mbxE true 1).taken = true ∧ (mbxE true 1).reported = false ∧
     (aged 49999 s).past (mbxE true 1).time 50000 = false ∧ (aged 50000 s).past (mbxE true 1).time 50000 = true ∧
     (aged 99999 s).past (mbxE true 1).time 100000 = false ∧ (aged 100000 s).past (mbxE true 1).time 100000 = true ∧ (64#7).toNat ≤ 64 ∧
     64 < (65#7).toNat) ∧
    (∀ k ∈ [2, 3],
      let s := mbxS false [BitVec.ofNat 8 k, 0]
      s.mbxOldest 0 = some (7, mbxE false 2) ∧ s.bytesAt 0x53 (mbxOff 0 7) 2 = [BitVec.ofNat 8 k, 0] ∧ s.objPos 0 = 0) ∧
    (let s := setRec 0 8 0x10000096 (mbxS false [3, 0])
     s.objPos 0 ≠ 0 ∧ (s.fwOf 0).calm = true ∧ s.bound 0 = true ∧ s.entered 0 = false ∧ (s.fwOf 0).dead = false ∧
     (s.fwRuns 0 = true ∧ fwPrep 0 s = s) ∧ (updFw 0 (fun f => { f with test := true }) s |>.fwOf 0).calm = false) := by decide +kernel

/-- Course 0 in state `st`, and `f` of its reset value. -/
def crsS (st : Nat) (f : Course → Course) : State := updCrs 0 f (put (R.CRS_STAT 0) F.CRS_STAT_STATE st up)

theorem test_CoursesRestartAndRetune :
    (let s := crsS 1 fun x => { x with scanAge := 256 }
     s.crsRuns 0 = true ∧ s.scanDue 0 = true ∧ (crsS 1 id).scanDue 0 = false ∧ 2 ≤ (s.active3 0).length ∧
     (∀ i ∈ s.active3 0, ∀ j ∈ s.active3 0, ((s.crsOf 0).str i).word 0 = ((s.crsOf 0).str j).word 0)) ∧
    (let s := put (R.CRS_CFG 0) F.CRS_CFG_RTMAX 1 (crsS 1 fun x => { x with s2 := { Str.init with pc := 4 }, scan := 15, scanAge := 256 })
     s.active3 0 = [0, 1, 2] ∧ (∃ w < 27, ((s.crsOf 0).str 0).word w = ((s.crsOf 0).str 1).word w ∧
       ((s.crsOf 0).str 2).word w ≠ ((s.crsOf 0).str 0).word w) ∧
     (s.crsOf 0).second = s.tb.usec.toNat / 1000000 ∧ tabGet 0 (s.crsOf 0).out 2 + 1 ≤ s.fld (R.CRS_CFG 0) F.CRS_CFG_RTMAX) ∧
    (∀ b ∈ [true, false],
      let s := crsS 1 fun x => { x with iso := some 2, stall := b, haltReq := b }
      (s.crsOf 0).iso = some (2 : Fin 3).val ∧ s.crsState 0 = 1 ∧ s.crsHung 0 = false ∧ (s.crsOf 0).stall = b ∧
      (s.crsOf 0).haltReq = b ∧ s.chanUp 0 = true) ∧
    (∀ n ∈ [0, 1, 2, 3], (crsS n id).crsState 0 = n) ∧ (crsS 1 id).mgmtUp = true ∧
    (∀ j : Fin 3, (put (R.CRS_STAT 0) (F.CRS_STAT_PARK.bit 2) 1 (crsS 1 id)).parked 0 j = decide (j = 2)) ∧
    (∀ k ∈ [7, 8],
      let s := put (R.CRS_STAT 0) F.CRS_STAT_RCAUSE k (crsS 3 id)
      s.crsState 0 = 3 ∧ (s.crsOf 0).sbuf = [] ∧ s.crsHung 0 = false ∧ s.fld (R.CRS_STAT 0) F.CRS_STAT_RCAUSE = k) ∧
    (let s := put (R.CRS_CFG 0) F.CRS_CFG_WD_MS 100 (crsS 1 id)
     (aged 99999 s).wdDue 0 = false ∧ (aged 100000 s).wdDue 0 = true ∧ (s.crsOf 0).wdFirst = false ∧ s.kickWaits 0 = false ∧
     ({ s with pending := [.crsWdkick 0 0xC3A5] } : State).kickWaits 0 = true) ∧
    (let s := aged 100000 (put (R.CRS_CFG 0) F.CRS_CFG_WD_MS 100 (crsS 1 fun x => { x with wdFirst := true }))
     s.wdDue 0 = true ∧ (s.crsOf 0).wdFirst = true ∧ s.kickWaits 0 = false) := by decide +kernel
/-! ### Statements on chapters 12 to 15 -/

theorem test_MemoryAndLogCommands :
    (0x43 ∈ memIds ∧ up.scrubRuns 0x43 = true ∧ up.scrubRuns 0x50 = true ∧ up.scrubRuns 0x52 = true ∧ 0x52 ∈ memIds ∧
     memBytes 3 = 0x2FFF8 + 8 ∧ 0x2FFF0 + 8 < memBytes 3) ∧
    (let e (f : BitVec 100) : WordErr := ⟨false, f⟩
     (e 8).decode = .corrected ∧ flipCount (e 8).flips ≤ 2 ∧ (e 7).decode = .uncorrectable ∧ (e (1 <<< 90)).decode = .uncorrectable ∧
     (e 0).decode = .clean ∧ (⟨true, 0⟩ : WordErr).decode = .uncorrectable) ∧
    (let s := { up with scrubs := [(3, ⟨0, 0x2FFF8 / 8⟩)], ecc := [(memKey 3 (0x2FFF8 / 8), ⟨false, 7⟩)] }
     8 * (tabGet Scrubber.init s.scrubs 3).next = 0x2FFF8 ∧ s.wordErr 3 0x2FFF8 = ⟨false, 7⟩) ∧
    (let s := { up with ecc := [(memKey 3 (0x2FFF8 / 8), ⟨true, 0⟩)] }
     s.poisoned 3 0x2FFF8 = true ∧ s.clk.porst = false) ∧
    (let r : LogRec := ⟨.data, 1, 0, 0, 127, 0, 0, 0, 0, 0⟩
     r.entry = (0x1000 - 32) / 32) ∧
    (up.clk.quiet = false ∧ up.clk.mgmtReset = false ∧ up.log.staged.length < 128 ∧
     ({ up.clk with quiet := true } : Clk).mgmtReset = false ∧ up.log.heldOf .data < 32) ∧
    (let r : LogRec := ⟨.data, 1, 0, 0, 0, 0, 0, 0, 0, 0⟩
     128 ≤ ({ up.log with staged := List.replicate 128 r } : Log).staged.length ∧
     ({ up.log with held := List.replicate 31 r } : Log).heldOf .data = 31) := by decide +kernel

theorem test_MemoryAndLogCommands_intact : ∀ o < 0x1000, up.wordErr 0x52 o = WordErr.init := fun _ _ => rfl

theorem test_ringOfAFlash :
    (let s := put R.BOOT_NVSIZE F.BOOT_NVSIZE_A 64 { up with nvmA := { up.nvmA with ok := true } }
     let r : LogRec := ⟨.data, 1, 0, 0, 0, 0, 0, 0, 0, 0⟩
     s.mgmtUp = true ∧ s.clk.quiet = false ∧ s.nvmA.ok = true ∧ s.nvmB.ok = false ∧
     (s.fld R.BOOT_NVSIZE F.BOOT_NVSIZE_A * 2 ^ 20 - 0x1B00000) / 32 = 1212416 ∧
     (ringAdd 4096 (List.replicate 4095 r) [r]).length = 4096 ∧ (ringAdd 4096 (List.replicate 4096 r) [r]).length = 2049) := by
  decide +kernel

theorem test_ringFull (r : LogRec) : ringCap 64 < (List.replicate 1212416 r).length + [r].length := by
  rw [List.length_replicate, List.length_singleton]
  decide

theorem test_ClockAndSupplyCommands :
    (up.clk.porst = false ∧ (∀ k ∈ [ClockId.ref, .pll 0, .pll 3, .tclk, .mclk, .die 0, .die 7], up.lossSeen k = true) ∧
     up.linkUp 7 = true ∧ up.chanUp 3 = true) ∧
    (∀ k ∈ [ClockId.ref, .pll 3, .tclk, .die 7], (aged 950 (put R.FLT_CLKSTAT (clockFld k) 1 up)).returnSeen k = true) ∧
    (aged 949 up).past (tabGet 0 up.clk.lostAt (clockSrc .mclk)) (returnUs .mclk) = false ∧
    (aged 950 { up with clk := { up.clk with mclkLost := true } }).returnSeen .mclk = true ∧
    (let s : State := { up with clk := { up.clk with mgmtReset := true } }
     s.clk.mgmtReset = true ∧ s.clk.porst = false ∧ s.clk.mclkLost = false) ∧
    (let s := { prt 511 2 .inrush with die := [(7, Die.init)], mir := [(511, { Port.init with state := .idle })] }
     (s.dieOf 7).inReset = true ∧ s.flag R.FLT_CLKSTAT (F.FLT_CLKSTAT_PDOSC.bit 7) = false ∧ s.released = true ∧ s.cls 511 = 2 ∧
     (s.mirOf 511).state ≠ .off ∧ s.clk.extest = false ∧ s.clk.porst = false ∧ s.vddpOver 7 = true ∧
     (updDie 7 (fun d => { d with vddpAt := some 0 }) s).vddpOver 7 = false) ∧
    ((up.dieOf 0).inReset = false ∧ ((prt 511 1 .contract).portOf 511).powered = true) := by decide +kernel

theorem test_LinkHoldAndTestCommands :
    (up.chanUp (7 / 2) = true ∧ up.flag R.FLT_LINKSTAT (F.FLT_LINKSTAT_UP.bit 7) = true ∧ (up.dieOf 7).up = true ∧
     (up.dieOf 7).hold = false ∧ up.linkUp 7 = true ∧ up.tclk = true) ∧
    (let s := aged 3960 { up with die := [(7, { dieOn with up := false, downSince := some 0 })], regs := [(R.FLT_SUM, 0)] }
     (s.dieOf 7).inReset = false ∧ s.chanUp 3 = true ∧ s.flag R.FLT_LINKSTAT (F.FLT_LINKSTAT_UP.bit 7) = false ∧
     (s.dieOf 7).up = false ∧ s.trained (s.dieOf 7).downSince = true ∧ s.trained (s.dieOf 7).lostAt = true ∧
     (aged 3959 s).trained (s.dieOf 7).downSince = false) ∧
    (let s := aged 990000 { prt 448 1 .contract with die := [(7, { dieOn with hold := true, holdS := 1 })], phy := [(511, { Phy.init with holdHr := true })] }
     s.linkUp 7 = true ∧ (s.dieOf 7).hold = true ∧ s.holdEnds 7 = true ∧ (aged 989999 s).holdEnds 7 = false ∧
     (s.phyOf 511).holdHr = true ∧ s.past (s.phyOf 511).holdHrAt (atLeast 30000) = true ∧
     (aged 29699 s).past (s.phyOf 511).holdHrAt (atLeast 30000) = false ∧
     (s.portOf 448).powered = true ∧ s.chanUp 3 = true ∧ s.tclk = true ∧ s.holdWaits 7 = false ∧
     ({ s with pending := [.holdOrder 7] } : State).holdWaits 7 = true ∧ ({ s with pending := [.holdExpire 7] } : State).holdWaits 7 = false) ∧
    (let s := aged 891000 { prt 511 1 .contract with dieRegs := [(R.FLT_STSTAT 7, F.FLT_STSTAT_NEXT.put 0 64)] }
     s.dfld (R.FLT_STSTAT 7) F.FLT_STSTAT_NEXT = 64 ∧ (s.dieOf 7).inReset = false ∧ s.testable 7 63 = true ∧
     s.past (s.dieOf 7).testAt (atLeast 900000) = true ∧ (aged 890999 s).past (s.dieOf 7).testAt (atLeast 900000) = false ∧
     s.slotFree 28 = true ∧ s.slotFree 29 = true ∧ s.slotFree 30 = true ∧ s.slotFree 31 = true) ∧
    (StResult.failed (.measured false 1000 1000 1060 true) = none ∧ StResult.failed (.measured false 1001 0 0 true) = some 2 ∧
     StResult.failed (.measured false 0 1000 1062 true) = some 3 ∧ StResult.failed (.measured false 0 0 0 false) = some 4) ∧
    up.dfld (R.FLT_STSTAT 7) F.FLT_STSTAT_NEXT = 0 := by decide +kernel

theorem test_LinkHoldAndTestCommands_spare :
    (let s := { prt 511 1 .contract with dieRegs := [(R.FLT_STSTAT 7, F.FLT_STSTAT_SPAREOK.put (F.FLT_STSTAT_NEXT.put 0 64) 1)] }
     s.spareOk 7 = true ∧ s.spareUse 7 = false) ∧
    ({ up with dieRegs := [(R.FLT_STSTAT 7, 0)] } : State).spareOk 7 = false := by decide +kernel

theorem test_ChannelResetAndRelease :
    (let e : MbxEntry := ⟨true, 0, 0, 1, .host 7, false⟩
     let s := put R.TWM_RQSTAT F.TWM_RQSTAT_ST 1 (put R.TWM_RQSTAT F.TWM_RQSTAT_TAG 7 { up with mbx := [(8 * 3 + 7, some e)] })
     s.chanUp 3 = true ∧ s.mbxOf 3 7 = some e ∧ s.pendingTag 7 = true ∧ s.mgmtUp = true ∧ s.tclk = true) ∧
    (F.CRU_CHRST_KEY.get 0x5A08 = 0x5A ∧ (0x5A08 : Word).getLsbD 3 = true ∧ (0x5A08 : Word).getLsbD 0 = false ∧
     F.CRU_CHRST_KEY.get 8 ≠ 0x5A) ∧
    (let s := aged 10 { up with chan := [(0, chOn)] }
     s.chanUp 3 = false ∧ s.clk.porst = false ∧ s.flag R.FLT_CLKSTAT (F.FLT_CLKSTAT_PLL.bit 3) = false ∧
     s.past (s.chanOf 3).resetAt 10 = true ∧ (aged 9 s).past (s.chanOf 3).resetAt 10 = false) ∧
    (let s := aged 100000 (put (R.CRS_CFG 3) F.CRS_CFG_WD_MS 100 (updCrs 3 (fun x => { x with wdFirst := true })
       (put (R.CRS_STAT 3) F.CRS_STAT_STATE 1 up)))
     s.stage2Due 3 = true ∧ (aged 99999 s).stage2Due 3 = false) ∧
    ((⟨false, 7⟩ : WordErr).decode = .uncorrectable ∧
     ({ up with ecc := [(memKey 0x43 1, ⟨false, 7⟩)] } : State).wordErr (0x40 + 3) (15#20).toNat = ⟨false, 7⟩) := by decide +kernel

theorem test_ManagementTimeoutAndQuiet :
    (up.mgmtUp = true ∧ up.clk.quiet = false ∧
     (put R.CRU_QCFG F.CRU_QCFG_QEN 1 up).flag R.CRU_QCFG F.CRU_QCFG_QEN = true ∧
     1000 * max 10 (min 60000 (up.fld R.CRU_QCFG F.CRU_QCFG_QIDLE_MS)) ≤
       ({ up with tb := { up.tb with usec := 60000000 } } : State).since up.clk.idleAt ∧ up.since up.clk.idleAt < 10000 ∧
     up.wakeSource 0 = true ∧ up.wakeSource 1 = false ∧
     (put R.CRU_QCFG F.CRU_QCFG_QEN 0 up).flag R.CRU_QCFG F.CRU_QCFG_QEN = false) ∧
    (let r : LogRec := ⟨.data, 1, 0, 0, 0, 0, 0, 0, 0, 0⟩
     let s := { up with clk := { up.clk with quiet := true }, log := { Log.init with held := List.replicate 64 r, staged := List.replicate 64 r } }
     s.clk.quiet = true ∧ s.clk.mgmtReset = false ∧ s.log.staged.length + s.log.held.length ≤ 128) := by decide +kernel

theorem mgmtIdle_of_araheld (s : State) (h : s.flag R.TWM_STAT F.TWM_STAT_ARAHELD = true)
    (k : ∀ n < 4, s.lnkUp n = false) (f : s.flashBusy = false)
    (e : s.log.staged = [] ∧ s.updateBusy = false ∧ s.upd.todo = [] ∧ s.mbx = [] ∧ s.log.held = [] ∧ s.otp.cmd = none ∧
      s.otp.reread = false) : s.mgmtIdle = true := by
  obtain ⟨e1, e2, e3, e4, e5, e6, e7⟩ := e
  simp [State.mgmtIdle, State.alertN, h, f, e1, e2, e3, e4, e5, e6, e7]
  exact k

/-- A management plane that has nothing to do, its alert answered. -/
theorem test_mgmtIdle : (put R.BOOT_STAT F.BOOT_STAT_PHASE 6 (put R.TWM_STAT F.TWM_STAT_ARAHELD 1 up)).mgmtIdle = true :=
  mgmtIdle_of_araheld _ (by decide +kernel) (by decide +kernel) (by decide +kernel) (by decide +kernel)

theorem test_mgmtIdle_reread : ({ up with otp := { Otp.init with reread := true } } : State).mgmtIdle = false := by
  simp [State.mgmtIdle]

theorem test_FullLaneAnswersBusy :
    (let e : MbxEntry := ⟨false, 0, 0, 1, .host 7, false⟩
     let s := put R.TWM_RQSTAT F.TWM_RQSTAT_ST 1 { up with mbx := (List.range 8).map fun i => (24 + i, some e) }
     s.mgmtUp = true ∧ s.chanUp 3 = true ∧ (∀ i < 8, s.mbxOf 3 i ≠ none) ∧ s.pendingTag 0 = true ∧ s.isRoot = false) ∧
    1 ≤ ([0] : List Byte).length ∧ (List.replicate 64 (0 : Byte)).length ≤ 64 := by decide +kernel

/-- The public key of a cabinet image, and a signature over the image below. -/
def pubKey : List Byte := natBe 97 0x4e819826dee5ea5e9380285ea25dcfe0c1972c28d6aafc4a09055d70b92fac677ff5f41d001c7d7a98a024c3ac2b341b99128a15a89685882adc845499fffba34de3fd105fe80b73b9e277a373aad84e2f977e8c2ef5c0630819deecf6dc132f6

def signature : List Byte :=
  natBe 48 0x3069bc64c500f0c4ebb5b3d88cfbe48b0e0862c98112bdfe05571f91078aed562b7c33d34dd47300c7c86073e713f6a7 ++
  natBe 48 0xfaaa0886d5358943d7a0f67c2311022e07f701be896a3a8a999cfd112464e7759c3aba2bcf8fd309215ad9fc2aac94f7

/-- The SHA-384 of no bytes, and of the public key. -/
def hashNone : List Byte := natBe 48 0x38b060a751ac96384cd9327eb1b1e36a21fdb71114be07434c0cc7bf63f6e1da274edebfe76f65fbd51ad2f14898b95b

def hashKey : List Byte := natBe 48 0xef78b2f00ec6cbcee8b46c95cfe05e4ef089ebd179840ca10aefd1f2e6ae38e2b376ab823df93ebf478cb45a0fe20e76

/-- An image after Table 14-3 and Table 14-4: version 1.2.3, level 2, one empty code section for the four channels. -/
def image : List Byte :=
  natLe 4 0x43414231 ++ natLe 2 1 ++ natLe 2 1 ++ natLe 4 352 ++ natLe 4 0x01020003 ++ [2, 5, 3, 0] ++ List.replicate 12 0 ++
  pubKey ++ List.replicate 31 0 ++ natLe 4 2 ++ natLe 4 15 ++ natLe 4 256 ++ natLe 4 0 ++ hashNone ++ List.replicate 32 0 ++ signature

/-- A fuse array whose key slot 0 holds the hash of the public key, sealed and locked in copy A. -/
def keyFuses : Tab Word :=
  let t := (List.range 12).foldl (fun t i => tabSet 0 t (0x30 + i) (BitVec.ofNat 32 (leOf hashKey (4 * i) 4))) shippedFuse
  let t := tabSet 0 (tabSet 0 (tabSet 0 t 0xB5 15) 0xB6 15) 0xB7 15
  tabSet 0 t 0x3C (sealOf (tabGet 0 t) 3)

theorem test_digests :
    sha384 [] = hashNone ∧ sha384 pubKey = hashKey ∧ crc32 [0x31, 0x32, 0x33, 0x34, 0x35, 0x36, 0x37, 0x38, 0x39] = 0xCBF43926 ∧
    crc16 [0x31, 0x32, 0x33, 0x34, 0x35, 0x36, 0x37, 0x38, 0x39] = 0x29B1 := by decide +kernel

theorem test_signature : imageSigned image = true := by decide +kernel

theorem test_image :
    imageForm image = 0 ∧ imageForm (image.drop 1) ≠ 0 ∧ imageHashes image = true ∧
    imgVer image = 0x01020003 ∧ imgInfo image = 0x02050300 ∧ (imgSecs image).length = 1 ∧
    imageForm (image.set 0xB0 1) = 0 ∧ imageHashes (image.set 0xB0 1) = false := by decide +kernel

theorem test_imageValues : imageValues image = 0 ∧ imageValues (image.set 0xA4 7) ≠ 0 := by decide +kernel

theorem test_imageKey :
    (let s := { up with otp := { up.otp with norm := keyFuses } }
     s.imageKey image = true) ∧ up.imageKey image = false ∧ imageSigned (image.take 256 ++ List.replicate 96 0) = false := by decide +kernel

/-- The boot controller in phase `n`, before boot release. -/
def bootS (n : Nat) (b : Boot) : State :=
  put R.BOOT_STAT F.BOOT_STAT_PHASE n { up with regs := [(R.FLT_SUM, 0x1000)], boot := b, fuse := keyFuses }

/-- The boot header copy of Table 14-2 with slots 1, none and 2. -/
def hdrBytes : List Byte :=
  let l := natLe 4 0x48423531 ++ natLe 4 9 ++ [1, 0xFF, 2, 1] ++ natLe 4 100 ++ natLe 4 50 ++ List.replicate 40 0
  l ++ natLe 4 (crc32 l).toNat

def flash : FlashDev := { sfdp := true, mib := 64, erase64 := true, copy0 := hdrBytes, copy1 := [] }

theorem test_headers :
    parseHdr hdrBytes = some { gen := 9, active := 1, previous := none, staging := 2, trial := true, staged := false, pwrhrs := 100, lastref := 50 } ∧
    parseHdr (hdrBytes.set 8 2) = none ∧ flashGood flash = true ∧ flashGood { flash with mib := 63 } = false ∧
    candidates (parseHdr hdrBytes) none false = [(0, none), (2, some 1)] ∧
    candidates none none false = [] := by decide +kernel

theorem test_BootStepsComplete :
    (State.reset.clk.porst = true ∧ State.reset.otp.cmd = none) ∧
    (let s := bootS 0 Boot.init
     s.bootRuns = true ∧ s.phase = 0 ∧ s.flag R.OTP_STAT F.OTP_STAT_SENSED = false ∧ fuseBad s.fuseWord = false) ∧
    fuseBad ({ up with fuse := [] } : State).fuseWord = true ∧ ((bootS 1 Boot.init).bootRuns = true ∧ (bootS 1 Boot.init).phase = 1) ∧
    (let s := bootS 2 { Boot.init with cands := [(3, some 2)], wrote := [0, 3] }
     s.phase = 2 ∧ s.bootRuns = true ∧ s.boot.cands = (3, some 2) :: []) ∧
    (let s := put R.BOOT_STAT F.BOOT_STAT_SECURE 1 (bootS 3 { Boot.init with img := image })
     s.phase = 3 ∧ s.flag R.BOOT_STAT F.BOOT_STAT_SECURE = true ∧ s.boot.img = image) ∧
    (bootS 3 Boot.init).flag R.BOOT_STAT F.BOOT_STAT_SECURE = false ∧
    (let s := bootS 4 { Boot.init with img := image, cands := [(5, some 2)] }
     s.phase = 4 ∧ s.bootRuns = true ∧ s.boot.cands = (5, some 2) :: []) ∧
    (let s := bootS 5 { Boot.init with ready := true, calDone := true }
     s.bootRuns = true ∧ s.phase = 5 ∧ s.boot.ready = true ∧ s.boot.calDone = true ∧ ∀ c < 4, s.chanUp c = true) ∧
    (let s : State := { up with adc := (List.range 34).map fun u => (u, { Adc.init with scanOn := true }) }
     s.bootRuns = true ∧ ∀ u < 34, (s.adcOf u).scanOn = true ∧ s.calBusy u = false) := by decide +kernel

/-- A settings record copy of format `v`, with one entry. -/
def setBytes1 (v : Nat) : List Byte :=
  let l := natLe 4 0x53544753 ++ natLe 4 7 ++ natLe 4 v ++ natLe 4 1 ++ natLe 4 R.BOOT_SETCFG ++ natLe 4 20
  l ++ natLe 4 (crc32 l).toNat

/-- Settings of the oldest and the newest format understood, and of those beside them; none. -/
theorem test_BootStepsComplete_settings :
    (let s := put R.BOOT_IMGINFO F.BOOT_IMGINFO_SVER 5 (put R.BOOT_IMGINFO F.BOOT_IMGINFO_SVER_MIN 3
       { bootS 5 { Boot.init with img := image } with nvmA := { Nvm.init with ok := true } })
     s.bootRuns = true ∧ s.phase = 5 ∧ s.boot.ready = false ∧ s.nvmA.ok = true ∧ s.nvmB.ok = false ∧
     s.fld R.BOOT_IMGINFO F.BOOT_IMGINFO_SVER_MIN = 3 ∧ s.fld R.BOOT_IMGINFO F.BOOT_IMGINFO_SVER = 5) ∧
    (∀ v ∈ [2, 3, 5, 6], parseSet (setBytes1 v) = some { seq := 7, sver := v, entries := [(R.BOOT_SETCFG, 20)] }) ∧
    savedReg R.BOOT_SETCFG = true ∧ parseSet ((setBytes1 3).set 9 1) = none ∧
    bestSet [(0, none), (1, none), (2, none), (3, none)] = none := by decide +kernel

theorem test_BootServicesComplete :
    (let s := bootS 7 Boot.init
     s.mgmtUp = true ∧ s.phase = 7 ∧ s.flag R.BOOT_STAT F.BOOT_STAT_FUSEBAD = false ∧
     (put R.BOOT_STAT F.BOOT_STAT_FUSEBAD 1 s).flag R.BOOT_STAT F.BOOT_STAT_FUSEBAD = true ∧ (bootS 6 Boot.init).phase ≠ 7) ∧
    (let s := put R.BOOT_SETSTAT F.BOOT_SETSTAT_DIRTY 1 { bootS 6 Boot.init with nvmA := { Nvm.init with ok := true } }
     s.mgmtUp = true ∧ s.phase = 6 ∧ s.flag R.BOOT_SETSTAT F.BOOT_SETSTAT_DIRTY = true ∧ s.nvmA.ok = true ∧ s.nvmB.ok = false ∧
     s.fld R.BOOT_REFSTAT F.BOOT_REFSTAT_STATE < 2 ∧ s.shipRefusal = 0 ∧ s.updateBusy = false ∧ s.clk.quiet = false ∧ s.bootRuns = true ∧
     s.boot.wb = none ∧ s.clk.porst = false ∧ s.clk.mclkLost = false ∧
     (updBoot (fun b => { b with saveNow := true }) s).writebackDue = true ∧ s.writebackDue = false ∧
     (setWb (some ⟨⟨1, 2, []⟩, true, true, false⟩) s).boot.wb = some ⟨⟨1, 2, []⟩, true, true, false⟩ ∧
     (setRefresh (some ⟨true, []⟩) s).boot.refresh = some ⟨true, []⟩ ∧ s.boot.refresh = none ∧
     (put R.UPD_STAT F.UPD_STAT_STATE 6 s).updateBusy = true ∧ (put R.PLC_INPUTS F.PLC_INPUTS_MANV 1 s).shipRefusal = 1) ∧
    (put R.BOOT_REFSTAT F.BOOT_REFSTAT_STATE 2 up).fld R.BOOT_REFSTAT F.BOOT_REFSTAT_STATE = 2 ∧
    (put R.BOOT_REFSTAT F.BOOT_REFSTAT_STATE 3 up).fld R.BOOT_REFSTAT F.BOOT_REFSTAT_STATE ≠ 2 ∧
    (let s : State := { up with ecc := [(memKey 3 0, ⟨true, 0⟩)], boot := { Boot.init with codeHash := [(3, hashNone)] } }
     s.released = true ∧ s.chanUp 3 = true ∧ s.crsState 3 = 0 ∧ s.bootRuns = true ∧ s.upd.copy ≠ some 3 ∧
     (s.ecc.any fun e => e.2.poison && decide (memKey 3 0 ≤ e.1) && decide (e.1 < memKey 4 0)) = true ∧ sha384 [] = tabGet [] s.boot.codeHash 3) ∧
    (up.ecc.any fun e => decide (memKey 3 0 ≤ e.1)) = false := by decide +kernel

/-- Programming may begin: boot is past, all regions permit it, and OTP_PADDR names `a`. -/
def otpS (a : Nat) : State :=
  put R.OTP_PADDR F.OTP_PADDR_ADDR a (put R.BOOT_STAT F.BOOT_STAT_PHASE 6
    { up with regs := (R.OTP_PGMEN, 0xFFFFFFFF) :: up.regs, fuse := keyFuses })

theorem test_FuseCommandsComplete :
    (otpS 0xC0).otpRefusal .blow 6500 = none ∧ (otpS 0xDF).otpRefusal .blow 6500 = none ∧ (otpS 0xE0).otpRefusal .blow 6500 = some 4 ∧
    (otpS 0xB5).otpRefusal .blow 6500 = some 5 ∧ (otpS 0).otpRefusal .reread 6500 = none ∧ (otpS 0).otpRefusal .reread 6304 = some 3 ∧
    (put R.BOOT_STAT F.BOOT_STAT_PHASE 5 (otpS 0)).otpRefusal .lock 6500 = some 2 ∧
    (put R.OTP_PSTAT F.OTP_PSTAT_BUSY 1 (otpS 0)).otpRefusal .lock 6500 = some 1 ∧
    (otpS 11).otpRefusal .lock 6500 = some 7 ∧ (otpS 13).otpRefusal .lock 6500 = some 5 ∧ (otpS 3).otpRefusal .lock 6500 = none ∧
    ((otpS 12).flag R.OTP_PGMEN (F.OTP_PGMEN_REG.bit 12) = true ∧ (otpS 12).regionLocked 12 = false ∧
     (otpS 11).regionLocked 11 = false ∧ sealOk (otpS 11).fuseMargin 11 = false) ∧
    (let c : OtpCmd := { lock := false, addr := 0xB3, data := 0x80000002, start := 0 }
     let s : State := { up with otp := { Otp.init with cmd := some c } }
     s.bootRuns = true ∧ s.otp.cmd = some c ∧ c.words = [0xB2, 0xB3, 0xB4] ∧ (2 : Fin 3).val < c.words.length ∧
     s.newBits c = [(0xB2, 1), (0xB2, 31), (0xB3, 1), (0xB3, 31), (0xB4, 1), (0xB4, 31)] ∧ s.clock = 0 ∧
     ({ s with clock := 108 } : State).past c.start (12 * (s.before c 2 31).length + 48) = true ∧
     ({ s with clock := 107 } : State).past c.start (12 * (s.before c 2 31).length + 48) = false ∧
     ({ s with clock := 72 } : State).past c.start (12 * (s.newBits c).length) = true ∧ s.past c.start (12 * 0) = true) ∧
    (let s := put R.OTP_STAT F.OTP_STAT_SENSED 1 { up with fuse := [] }
     s.clk.porst = false ∧ s.clk.mclkLost = false ∧ s.otp.cmd = none ∧ s.rereadDue = false ∧
     (setTb (fun x => { x with usec := 604800000000 }) s).rereadDue = true ∧
     rereadDiffs s.fuseWord s.fuseMargin (tabGet 0 s.otp.norm) (tabGet 0 s.otp.marg) = [] ∧
     rereadDiffs (tabGet 0 [(0xB5, 1)]) s.fuseMargin (tabGet 0 s.otp.norm) (tabGet 0 s.otp.marg) ≠ []) := by decide +kernel

theorem test_DebugKillLatchesAtOnce :
    (let c : OtpCmd := { lock := false, addr := 0xB4, data := 2, start := 0 }
     (!c.lock && decide (0xB2 ≤ c.addr) && decide (c.addr < 0xB5) && c.data.getLsbD 1) = true ∧
     (let s : State := { up with otp := { Otp.init with cmd := some c }, clock := 36, fuse := [] }
      s.otp.cmd = some c ∧ s.past c.start (12 * (s.newBits c).length) = true)) ∧
    ((bootS 0 Boot.init).bootRuns = true ∧ (bootS 0 Boot.init).phase = 0) := by decide +kernel

theorem test_TestPortCommandsComplete :
    (up.debugKill = false ∧ up.mgmtUp = true ∧ up.chanUp 3 = true ∧ up.wordErr 3 0x2FFFC = WordErr.init ∧ up.clk.quiet = false ∧
     ({ up with chan := [] } : State).chanUp 3 = false ∧ (put R.OTP_CRIT F.OTP_CRIT_DEBUG_KILL 1 up).debugKill = true) ∧
    (let s := put (R.CRS_STAT 3) F.CRS_STAT_STATE 1 up
     s.crsState 3 = 1 ∧ (s.crsOf 3).iso = none ∧ s.crsHung 3 = false ∧ ((updCrs 3 (fun y => { y with iso := some 2 }) s).crsOf 3).iso ≠ none) ∧
    (put (R.CRS_STAT 3) F.CRS_STAT_STATE 2 up).crsState 3 = 2 ∧
    (let s : State := { up with ecc := [(memKey 0x13 (0xFFF8 / 8), ⟨true, 0⟩)] }
     s.poisoned 0x13 0xFFFC = true) ∧ (0 : Word).toNat / 4 * 4 = R.GLB_ID := by decide +kernel

/-! ### Statements on chapters 16 to 19 -/

theorem test_TwoWireTransactionsComplete :
    (up.mgmtUp = true ∧ up.clk.quiet = false ∧ up.flag R.TWM_CFG F.TWM_CFG_PECREQ = false ∧
     (put R.TWM_CFG F.TWM_CFG_PECREQ 1 up).flag R.TWM_CFG F.TWM_CFG_PECREQ = true) ∧
    crc8 [0x31, 0x32, 0x33, 0x34, 0x35, 0x36, 0x37, 0x38, 0x39] = 0xF4 ∧ (0 : Byte) ≠ crc8 ([up.addrW, 0x01] ++ natLe 4 0) ∧
    (let s : State := { up with regs := (R.TWM_WADDR, 0x20000) :: up.regs }
     (hostRead 0x20000 s).failed = true ∧ implemented 0x20000 = false) ∧
    (implemented R.GLB_SCRATCH = true ∧ up.accessCause R.GLB_SCRATCH = none) ∧
    (∀ l ∈ [4, 64], l % 4 = 0 ∧ 4 ≤ l ∧ l ≤ 64) ∧ (∀ l ∈ [3, 68, 5], l < 4 ∨ 64 < l ∨ l % 4 ≠ 0) := by decide +kernel

theorem test_DomainRequestsComplete :
    up.rqPending = false ∧ (put R.TWM_RQSTAT F.TWM_RQSTAT_ST 1 up).rqPending = true ∧
    (let s := put R.TWM_RQSTAT F.TWM_RQSTAT_ST 2 (updTwm (fun t => { t with resp := [1] }) up)
     s.fld R.TWM_RQSTAT F.TWM_RQSTAT_ST = 2 ∧ s.twm.resp ≠ []) ∧
    (let s := put R.TWM_DOMCFG F.TWM_DOMCFG_TMO_MS 1 (put R.TWM_RQSTAT F.TWM_RQSTAT_ST 1 (aged 10000 up))
     s.rqPending = true ∧ s.fld R.TWM_DOMCFG F.TWM_DOMCFG_TMO_MS = 1 ∧ s.past s.twm.goAt 10000 = true ∧
     (aged 9999 s).past s.twm.goAt 10000 = false) ∧ up.fld R.TWM_RQSTAT F.TWM_RQSTAT_ST ≠ 2 ∧
    (requestOk 1 (natLe 4 0 ++ [1]) = true ∧ requestOk 1 (natLe 4 0 ++ [16]) = true ∧ requestOk 1 (natLe 4 0 ++ [0]) = false ∧
     requestOk 1 (natLe 4 0 ++ [17]) = false ∧ requestOk 2 (List.replicate 64 0) = true ∧ requestOk 2 (List.replicate 4 0) = false ∧
     requestOk 3 [0] = true ∧ requestOk 3 [] = false ∧ requestOk 4 [0] = false) ∧
    (0xFFFF1001 : Word).toNat / 4096 % 16 = 1 ∧ (0xFFFF1001 : Word).toNat / 256 % 4 = 0 ∧ up.namesSelf 0xFFFF = true ∧
    (up.namesSelf 1 = false ∧ up.isRoot = false) ∧
    (let s := put R.LNK_DOM F.LNK_DOM_COUNT 2 (put R.LNK_CFG F.LNK_CFG_ROOT 1 up)
     s.isRoot = true ∧ s.namesSelf 1 = false ∧ 1 < s.fld R.LNK_DOM F.LNK_DOM_COUNT ∧ s.fld R.LNK_DOM F.LNK_DOM_COUNT ≤ 2 ∧
     s.namesSelf 2 = false ∧ s.enum.run = false ∧ (updEnum (fun e => { e with run := true }) s).enum.run = true) := by decide +kernel

/-- The root, alerted by device 5 of its domain. -/
def alertS : State :=
  put R.TWM_CFG F.TWM_CFG_ARAEN 1 (put R.TWM_ADEV F.TWM_ADEV_DEV 5 (put R.LNK_CFG F.LNK_CFG_ROOT 1 up))

theorem alertN_of_domAlert (s : State) (h : s.domAlert = true ∧ s.flag R.TWM_STAT F.TWM_STAT_ARAHELD = false) : s.alertN = true := by
  simp [State.alertN, State.asum, h]

theorem test_alertN : alertS.alertN = true := alertN_of_domAlert alertS (by decide +kernel)

theorem test_BusAlertAndAdministrationComplete :
    (let s := alertS
     s.mgmtUp = true ∧ s.clk.quiet = false ∧ s.flag R.TWM_CFG F.TWM_CFG_ARAEN = true ∧
     (put R.TWM_STAT F.TWM_STAT_SADDR 0x3F s).fld R.TWM_STAT F.TWM_STAT_SADDR = 0x3F ∧
     (0x3E : BitVec 7).toNat < 0x3F) ∧ (1999 < 2000 ∧ 24999 < 25000 ∧ 34999 < 35000) ∧ (put R.TWM_CFG F.TWM_CFG_ARAEN 0 up).flag R.TWM_CFG F.TWM_CFG_ARAEN = false ∧
    (let s := put R.TWM_PASEL F.TWM_PASEL_PORT 511 up
     s.fld R.TWM_PASEL F.TWM_PASEL_PORT = 511 ∧ s.chanUp (511 / 128) = true) := by decide +kernel

/-- The largest filters of Table 16-1 and the `GF` that gives them. -/
theorem test_glitch :
    ([100, 400, 1000].map largestGlitchNs = [800, 300, 100]) ∧
    ([15, 5, 1].map fun g => (put R.TWM_CFG F.TWM_CFG_GF g up).glitchNs) = [800, 300, 100] := by decide +kernel

/-- Link `n` in state `k`. -/
def lnkS (n k : Nat) : State := put (R.LNK_LSTAT n) F.LNK_LSTAT_STATE k up

/-- The header of a frame to device 0 from device 1 with SEQ 255, as it ends, and as it ends intact. -/
def hdr (stop : FrameEnd) : Header := ⟨0, 1, 0xFF, 0, stop⟩

def hdrOk (ty : FType) (l : List Byte) : Header := hdr (.eof (crc32 (covered (hdr .eab) ty l)))

theorem test_LinkStatesComplete :
    (up.mgmtUp = true ∧ (lnkS 3 0).linkState 3 = 0 ∧ (lnkS 3 1).linkState 3 = 1 ∧ (lnkS 3 2).linkState 3 = 2 ∧ (lnkS 3 3).linkState 3 = 3 ∧
     (lnkS 3 4).linkState 3 ≠ 3 ∧ (lnkS 3 1).isRoot = false) ∧
    ((up.chainOf 3).wait = [] ∧ (hdr .eab).stop = .eab ∧ (hdr .eab).seq.toNat ∉ (up.chainOf 3).rxSeq ∧
     (let l := natLe 4 7 ++ natLe 1 2 ++ natLe 1 3 ++ natLe 8 9
      intact (hdrOk .hello l) .hello l = true ∧ intact (hdrOk .hello l) .enum l = false)) ∧
    (∀ n ∈ [163, 2000, 10000], (aged n (lnkS 3 1)).past ((lnkS 3 1).chainOf 3).since n = true ∧
      (aged (n - 1) (lnkS 3 1)).past ((lnkS 3 1).chainOf 3).since n = false) ∧
    (((0 : Fin 4).val = 0 ↔ (0 : Fin 4).val = 0) ∧ ¬((3 : Fin 4).val = 0 ↔ (0 : Fin 4).val = 0)) ∧
    ((8 : BitVec 4).getLsbD 3 = true ∧ (7 : BitVec 4).getLsbD 3 = false) ∧
    ({ up with lnk := [(3, { Chain.init with dropping := true })] } : State).chainOf 3 = { Chain.init with dropping := true } := by
  decide +kernel

/-- The link starts after its signal is detected: `starts` of that statement, and its contrary. -/
theorem test_LinkStatesComplete_starts :
    (let s := put R.LNK_CFG (F.LNK_CFG_LEN.bit 3) 1 (put (R.LNK_LSTAT 3) F.LNK_LSTAT_SIGDET 1 up)
     s.linkOn 3 = true ∧ s.flag (R.LNK_LSTAT 3) F.LNK_LSTAT_SIGDET = true ∧ s.flag R.FLT_SUM F.FLT_SUM_BOOT = false ∧
     (s.chainOf 3).dropping = false ∧ s.linkState 3 = 0) ∧ (put R.LNK_CFG (F.LNK_CFG_LEN.bit 3) 0 up).linkOn 3 = false := by decide +kernel

theorem test_FramesAreAcknowledged :
    (let s := lnkS 3 3
     s.mgmtUp = true ∧ s.lnkUp 3 = true ∧ (hdr .eab).seq.toNat ∉ (s.chainOf 3).rxSeq ∧ (s.domLevel ≠ 3 ∨ s.domLevel = 3) ∧
     (put R.LNK_GEN F.LNK_GEN_GEN 0x101 s).fld R.LNK_GEN F.LNK_GEN_GEN % 256 ≠ (hdr .eab).gen.toNat) ∧
    (hdr .eab).seq.toNat ∈ (({ lnkS 3 3 with lnk := [(3, { Chain.init with rxSeq := [255] })] } : State).chainOf 3).rxSeq ∧
    (∀ x ∈ [FrameEnd.eab, .tooLong, .alien, .eof 0], (hdr x).stop = x) ∧
    (let l := reqBytes 1 2 3 [4]
     intact (hdrOk .req l) .req l = true ∧ (0 : Word) ≠ crc32 (covered (hdr (.eof 0)) .req l)) ∧
    (∀ k ∈ [2, 3], ∀ tries ∈ [2, 3], let f : Frame := ⟨1, 0, 0, 255, 0, [], tries, 0, none⟩
      let s : State := aged 402 { lnkS 3 k with lnk := [(3, { Chain.init with sent := [f] })] }
      2 ≤ s.linkState 3 ∧ s.linkState 3 ≤ 3 ∧ (s.chainOf 3).wait = [] ∧ (s.chainOf 3).sent.find? (·.seq = 255) = some f ∧
      f.start + 400 + (f.payload.length + 14) * 160 / 1000 ≤ s.clock ∧
      ¬(f.start + 400 + (f.payload.length + 14) * 160 / 1000 ≤ (aged 401 s).clock)) ∧
    (∀ nak ∈ [0, 128], let l := natLe 1 255 ++ natLe 1 (nak + 4)
     intact (hdrOk .ack l) .ack l = true) := by decide +kernel

theorem test_EnumerationAndDomainFramesComplete :
    (let s := put R.LNK_CFG F.LNK_CFG_ROOT 1 up
     s.isRoot = true ∧ s.enum.run = false ∧ s.twm.held = false ∧ (∀ k ∈ [1, 2, 3], s.lnkUp k = false) ∧
     (put (R.LNK_LSTAT 3) F.LNK_LSTAT_STATE 3 s).lnkUp 3 = true ∧ (∀ j ∈ [1, 2], (put (R.LNK_LSTAT 3) F.LNK_LSTAT_STATE 3 s).lnkUp j = false) ∧
     (updEnum (fun e => { e with holdoff := true }) s).enum.holdoff = true) ∧ up.isRoot = false ∧
    (let s := put R.LNK_CFG F.LNK_CFG_HOLD_MS 10001 (aged 10000000 up)
     1000 * max 100 (min 10000 (s.fld R.LNK_CFG F.LNK_CFG_HOLD_MS)) = 10000000 ∧ s.past s.enum.holdAt 10000000 = true ∧
     (aged 9999999 s).past s.enum.holdAt 10000000 = false) ∧
    (∀ ty ∈ [FType.enum, .enumDone, .level, .alert, .lvrep, .topo, .req, .resp], intact (hdrOk ty [1, 2, 3]) ty [1, 2, 3] = true) ∧
    (hdr .eab).seq.toNat ∉ ((lnkS 3 3).chainOf 3).rxSeq ∧
    (let s := updEnum (fun e => { e with run := true, link := 3, next := 65535 }) (lnkS 3 3)
     s.enum.run = true ∧ s.enum.link = 3 ∧ 1 ≤ (1 : BitVec 17).toNat ∧ s.enum.next + (1 : BitVec 17).toNat ≤ 65536 ∧ s.lnkUp 3 = true) ∧
    ((2 : BitVec 4).toNat ≠ 3 ∧ 2 ≤ (put R.LNK_STAT F.LNK_STAT_DLEVEL 2 up).domLevel) ∧
    (lnkS 3 3).fld R.LNK_GEN F.LNK_GEN_GEN % 256 = (hdr .eab).gen.toNat ∧ (hdr .eab).dst.toNat = (lnkS 3 3).myAddr ∧
    (let s := put R.LNK_STAT F.LNK_STAT_ADDR 7 (lnkS 0 0)
     (hdr .eab).dst.toNat ≠ s.myAddr ∧ (∀ k ∈ [1, 2, 3], s.inRange k 0 = false) ∧ s.lnkUp 0 = false ∧ s.isRoot = false) ∧
    (let s := put R.LNK_CFG F.LNK_CFG_ROOT 1 (put R.TWM_RQSTAT F.TWM_RQSTAT_ST 1 (put R.TWM_RQSTAT F.TWM_RQSTAT_TAG 255 (lnkS 3 3)))
     s.isRoot = true ∧ s.pendingTag 255 = true ∧ s.pendingTag 254 = false ∧ s.twm.gen ≠ some (hdr .eab).gen.toNat ∧
     (updTwm (fun y => { y with gen := some 0 }) s).twm.gen = some (hdr .eab).gen.toNat) := by decide +kernel

/-- The root of a domain of level 2 after boot, the update in state `k` with `u`. -/
def updS (k : Nat) (u : Upd) : State :=
  put R.UPD_STAT F.UPD_STAT_STATE k (put R.LNK_STAT F.LNK_STAT_DLEVEL 2 (put R.LNK_CFG F.LNK_CFG_ROOT 1
    (put R.BOOT_STAT F.BOOT_STAT_PHASE 6
      { up with upd := u, regs := (R.UPD_OLEN, 8388608) :: up.regs, nvmA := { Nvm.init with ok := true },
                otp := { Otp.init with norm := keyFuses } })))

theorem test_UpdateCommandsComplete :
    (let s := updS 0 Upd.init
     s.openRefusal 8388608 = 0 ∧ s.openRefusal 1 = 0 ∧ s.openRefusal 0 = 0x0F ∧ s.openRefusal 8388609 = 0x0F ∧ s.castRefusal false = 0 ∧
     s.sendBusy = false ∧ s.takesUpd s.session = true ∧ (updS 6 Upd.init).openRefusal 1 = 7) ∧
    (up.castRefusal false = 5 ∧ (updS 0 { Upd.init with lo := 1 }).takesUpd 0 = false) ∧
    (let s := put R.UPD_SESS F.UPD_SESS_NBLK 1 (updS 2 { Upd.init with isOpen := true, missing := [0], bufs := List.replicate 15 (1, []) })
     s.castRefusal s.sendBusy = 0 ∧ ¬(s.nblk ≤ (s.reg R.UPD_ARG).toNat % 4096) ∧ s.updState = 2 ∧ 0 ∈ s.upd.missing ∧ s.upd.bufs.length < 16) ∧
    ((updS 4 Upd.init).activateRefusal false = 0 ∧ (updS 3 Upd.init).activateRefusal false = 8 ∧
     (put R.UPD_STAT F.UPD_STAT_CONFIG 1 (updS 4 Upd.init)).activateRefusal true = 0 ∧
     (put R.UPD_STAT F.UPD_STAT_CONFIG 1 (updS 4 Upd.init)).activateRefusal false = 0x0A) ∧
    (F.UPD_OWNER_KEY.get 0x4C000001 = 0x4C ∧ F.UPD_OWNER_KEY.get 1 ≠ 0x4C) := by decide +kernel

/-- CONFIRM and REJECT, alone, together and after a clash, and with a failure event waiting. -/
theorem test_UpdateCommandsComplete_trial :
    (let s := updS 6 Upd.init
     s.updState = 6 ∧ s.upd.failed = false ∧ s.upd.clash ≠ some s.clock ∧ s.rejectWaits = false ∧ s.failureWaits = false ∧
     s.confirmWaits = false ∧ ({ s with pending := [.updCmdReject] } : State).rejectWaits = true ∧
     ({ s with pending := [.updCmdConfirm] } : State).confirmWaits = true ∧
     (let w : State := put (R.CRS_STAT 0) F.CRS_STAT_STATE 1 (put R.UPD_STAT (F.UPD_STAT_CHDONE.bit 0) 1
        { aged 200000000 s with pending := [.courseWatchdog 0] })
      w.failureWaits = true)) ∧
    (updS 6 { Upd.init with clash := some 0 }).upd.clash = some (updS 6 Upd.init).clock ∧ (updS 5 Upd.init).updState = 5 := by decide +kernel

theorem test_StagingCompletes :
    (let s := updS 2 { Upd.init with useA := true, bufs := [(2047, [])] }
     s.updState = 2 ∧ s.upd.bufs = (2047, []) :: [] ∧ ((s.upd.useA && true) || (s.upd.useB && false)) = true ∧
     ((s.upd.useA && false) || (s.upd.useB && true)) = false ∧
     (∀ w ∈ [0, 511], s.wordErr 0x53 (bufPlace 2047 + 8 * w) = WordErr.init) ∧
     ({ s with ecc := [(memKey 0x53 ((bufPlace 2047 + 8 * 511) / 8), ⟨true, 0⟩)] } : State).poisoned 0x53 (bufPlace 2047 + 8 * 511) = true) ∧
    (updS 1 Upd.init).updState = 1 ∧
    (let s := updS 3 { Upd.init with useA := true, useB := true }
     s.updState = 3 ∧ (List.range 4).any (slotUsable (tabGet 0 s.otp.norm)) = true ∧ s.copyOutcome [] = 0x0A ∧ s.stagedImage = []) ∧
    (List.range 4).any (slotUsable (tabGet 0 shippedFuse)) = false ∧
    (let s := put (R.LNK_LSTAT 0) F.LNK_LSTAT_STATE 3 (put R.LNK_STAT F.LNK_STAT_ENUMD 1 (updS 2 { Upd.init with block := 1, bcrc := crc32 [], missing := [1], parts := [(0, []), (1, [])] }))
     s.lnkUp 0 = true ∧ 2 ≤ s.domLevel ∧ s.enumd = true ∧ (hdr .eab).dst.toNat = s.myAddr ∧ s.isRoot = true ∧
     s.fld R.LNK_GEN F.LNK_GEN_GEN % 256 = (hdr .eab).gen.toNat ∧ (hdr .eab).seq.toNat ∉ (s.chainOf 0).rxSeq ∧ s.takesUpd 0 = true ∧
     s.updState = 2 ∧ s.upd.block = 1 ∧ s.upd.bcrc = crc32 ([] ++ [] ++ []) ∧ s.upd.parts.lookup 0 = some [] ∧ s.upd.parts.lookup 1 = some [] ∧
     1 ∈ s.upd.missing ∧ s.upd.bufs.length < 16 ∧ s.openRefusal 1 ≠ 0x0F) ∧
    (∀ op ∈ [1, 3, 4, 5], let l := subheader op 0 0 0 0
     intact (hdrOk .upd l) .upd l = true) ∧
    (let l := subheader 2 2 0 1 (crc32 [])
     intact (hdrOk .upd l) .upd l = true) ∧
    (let l := reportBytes 0 0 2 0 0
     intact (hdrOk .upd l) .upd l = true) := by decide +kernel

/-- A staged copy passes every check of an image with no register list. -/
theorem test_StagingCompletes_copy : (updS 3 Upd.init).copyOutcome image = 0 := by
  have h : image ≠ [] ∧ imageForm image = 0 ∧ imageHashes image = true ∧ (updS 3 Upd.init).imageKey image = true := by decide +kernel
  simp [State.copyOutcome, h, test_signature, test_imageValues.1]

theorem test_ActivationCompletes :
    (let s := put (R.CRS_STAT 3) F.CRS_STAT_STATE 1 (updS 5 { Upd.init with todo := [3] })
     s.upd.todo.head? = some 3 ∧ s.updState = 5 ∧ s.upd.failed = false ∧ s.shipRefusal = 0 ∧ s.chanUp 3 = true ∧ s.crsState 3 ≠ 0 ∧
     s.upd.copy = none ∧ s.gapOver = true ∧
     (let w : State := put R.UPD_CFG F.UPD_CFG_GAP_MS 10 { s with upd := { s.upd with step6 := some 0 } }
      w.gapOver = false ∧ (aged 10000 w).gapOver = true)) ∧
    (let s := put (R.CRS_STAT 3) F.CRS_STAT_RCAUSE 9 (put (R.CRS_STAT 3) F.CRS_STAT_STATE 3
       { updS 5 { Upd.init with todo := [3], copy := some 3 } with boot := { Boot.init with codeHash := [(3, hashNone)] } })
     s.crsState 3 = 3 ∧ (s.crsOf 3).sbuf = [] ∧ s.fld (R.CRS_STAT 3) F.CRS_STAT_RCAUSE = 9 ∧ s.upd.copy = some 3 ∧ s.crsHung 3 = false ∧
     sha384 [] = tabGet [] s.boot.codeHash 3 ∧ s.upd.todo.filter (· ≠ 3) = [] ∧ s.upd.back = false ∧
     sha384 [] ≠ tabGet [] (updS 5 Upd.init).boot.codeHash 3) ∧
    (let s := updS 5 { Upd.init with todo := [3], copy := some 3 }
     s.bootRuns = true ∧ s.released = true ∧ s.crsState 3 = 0) ∧
    (updS 7 { Upd.init with back := true, todo := [3] }).goingBack = true ∧
    ((put R.UPD_CFG F.UPD_CFG_AUTOCONF 1 (updS 6 Upd.init)).flag R.UPD_CFG F.UPD_CFG_AUTOCONF = true ∧
     (put R.UPD_CFG F.UPD_CFG_AUTOCONF 0 (updS 6 Upd.init)).flag R.UPD_CFG F.UPD_CFG_AUTOCONF = false) ∧
    (let s := put R.UPD_CFG F.UPD_CFG_WIN_MIN 0 (updS 6 Upd.init)
     s.failureWaits = false ∧ s.rejectWaits = false ∧
     60000000 * max 1 (min 1440 (s.fld R.UPD_CFG F.UPD_CFG_WIN_MIN)) ≤ ({ s with tb := { s.tb with usec := 60000000 } } : State).since s.upd.winStart) ∧
    (updS 5 { Upd.init with failed := true }).upd.failed = true := by decide +kernel

theorem test_RegisterWriteCompletes :
    (State.reset.mgmtUp = false ∧ up.mgmtUp = true ∧ up.tclk = true) ∧
    (∀ a ∈ [0x20003, 0xFFFFF], 0x20000 ≤ a / 4 * 4 ∧ a / 4 * 4 < 0x100000) ∧
    (let s : State := { up with chan := [] }
     s.chanUp 3 = false ∧ (put R.FLT_CLKSTAT F.FLT_CLKSTAT_TCLK 1 s).tclk = false) ∧
    (up.accessCause 0x100 = none ∧ findReg 0xFFC = none ∧ up.accessCause 0xFFC = none ∧ (findReg R.GLB_ID).isSome = true) ∧
    (0x82024 : Word) = 0x82024 ∧ (0x2FFFF : Word).toNat < 0x30000 ∧ R.GLB_SCRATCH / 4 * 4 = R.GLB_SCRATCH ∧
    R.FLT_SUM / 4 * 4 = R.FLT_SUM := by decide +kernel

theorem test_WritesOutsideTheCourseMap :
    (∀ a ∈ [0x30000, 0x3FFFC, 0x50000, 0x7FFFC, 0x84000, 0xB8000, 0xD0204, 0xE1010, 0xFFFFFFFC],
      ∀ r ∈ [(0, 0x30000), (0x40000, 0x50000), (0x80000, 0x84000), (0x90000, 0x94000), (0xA0000, 0xA2000),
        (0xB0000, 0xB8000), (0xC0000, 0xC0210), (0xC0300, 0xC0318), (0xC1000, 0xC1100), (0xD0000, 0xD0204),
        (0xD0400, 0xD0500), (0xE0000, 0xE040C), (0xE1000, 0xE1010)], a < r.1 ∨ r.2 ≤ a) ∧ up.chanUp 3 = true := by decide +kernel

theorem test_UnimplementedAddresses :
    (∀ a ∈ [0x20000, 0xFFFFC, 0x120000, 0xFFFFFFFC], a < 2 ^ 32 ∧ a % 4 = 0 ∧ (0x20000 ≤ a ∧ a < 0x100000 ∨ 0x120000 ≤ a)) ∧
    (let s : State := { up with regs := (R.TWM_WADDR, 0xFFFFFFFC) :: up.regs, twm := { Twm.init with buf := natLe 4 0xFFFFFFFC ++ [1] } }
     s.mgmtUp = true ∧ s.clk.quiet = false ∧ (s.reg R.TWM_WADDR).toNat = 0xFFFFFFFC ∧ s.rqPending = false ∧
     s.namesSelf ((0xFFFF1001 : Word).toNat / 65536) = true ∧ (0xFFFF1001 : Word).toNat / 256 % 4 = 0 ∧
     s.twm.buf = natLe 4 0xFFFFFFFC ++ [1]) ∧
    ((0xFFFFFFC0 + 4 * 15) % 2 ^ 32 / 4 * 4 = 0xFFFFFFFC ∧ (0xFFFF2001 : Word).toNat / 4096 % 16 = 2) := by decide +kernel

theorem test_StepTakesTheFrontCommand :
    (∃ t, step { up with pending := [.tapBypass 15, .tapIdcode] } = .next t ∧ t.tap = 15 ∧ t.pending = [.tapIdcode]) ∧
    (up.pending = [] ∧ up.tclk = true ∧ State.reset.tclk = false ∧ State.reset.mgmtUp = false) := ⟨⟨_, rfl, rfl, rfl⟩, by decide +kernel⟩

theorem test_MemoryStaysCanonical : Memory.wf State.reset.mem ∧ ∃ t, step State.reset = .next t := ⟨by decide, _, rfl⟩

theorem test_CommandsKeepToTheirFootprint :
    (∃ t, exec .porstNAssert up = .next t ∧ t.clock = 0 ∧ t.pending = []) ∧ Instr.tapIdcode ≠ .porstNAssert := ⟨⟨_, rfl, rfl, rfl⟩, by decide⟩

theorem test_BlownFusesStayBlown : (∃ t, step up = .next t) ∧ (up.fuseWord 0xB7).getLsbD 2 = true ∧ (up.fuseWord 0x07).getLsbD 30 = true :=
  ⟨⟨_, rfl⟩, by decide +kernel⟩

/-! ### The well-formedness of commands: each check takes a command and refuses another -/

theorem test_wellformed_messages :
    WellFormed (.pdMessageRx 0 .sop 0 [1, 2]) = true ∧ WellFormed (.pdMessageRx 0 .sop 0 [1]) = false ∧
    WellFormed (.mbxPost 0 (.host 0) [1]) = true ∧ WellFormed (.mbxPost 0 (.host 0) []) = false ∧
    WellFormed (.twmWburst .done (.write (List.replicate 255 0))) = true ∧ WellFormed (.twmWburst .done (.write (List.replicate 256 0))) = false ∧
    WellFormed (.twmStatus (.alien 0x06)) = true ∧ WellFormed (.twmStatus (.alien 0x05)) = false ∧
    WellFormed (.lnkReq 0 (hdr .eab) 1 0 0 (List.replicate 2046 0)) = true ∧
    WellFormed (.lnkReq 0 (hdr .eab) 1 0 0 (List.replicate 2047 0)) = false ∧
    WellFormed (.updData 0 (hdr .eab) 0 0 0 2 (List.replicate 24 0)) = true ∧
    WellFormed (.updData 0 (hdr .eab) 0 0 0 1 (List.replicate 24 0)) = false := by decide +kernel

theorem test_wellformed_words :
    WellFormed (.poisonedWordRewrite 0x50 8 0) = true ∧ WellFormed (.poisonedWordRewrite 0x50 4 0) = false ∧
    WellFormed (.fuseReread [(0, 0, 0), (1, 0, 0)]) = true ∧ WellFormed (.fuseReread [(0, 0, 0), (0, 0, 0)]) = false := by decide

/-- Image and code lengths, said of the lengths themselves. -/
theorem test_wellformed_lengths (l : List Byte) (h : l.length = 8388609) :
    WellFormed (.imageRead (some l)) = false ∧ WellFormed (.verificationComplete none (some l)) = false ∧
    WellFormed (.courseRestart 0 l) = false ∧ WellFormed (.courseReleaseAfterReset 0 l) = false ∧
    WellFormed (.imageRead (some [])) = true ∧ WellFormed (.verificationComplete none (some [])) = true ∧
    WellFormed (.courseRestart 0 []) = true ∧ WellFormed (.courseReleaseAfterReset 0 []) = true := by
  simp [WellFormed, imageLenOk, codeLenOk, h]

/-! ### The worked examples of chapters 06 and 07 -/

/-- P450 of "A portable tool on E1": its heavy profile, its granted ceiling of 600.0 W, and the limits of its plug. -/
def toolS : State :=
  let hp (h t lo hi i : Nat) (s : State) : State :=
    put (R.CHN_HPROF 3 0 h) F.CHN_HPROF_TYPE t (put (R.CHN_HPROF 3 0 h) F.CHN_HPROF_VMIN lo
      (put (R.CHN_HPROF 3 0 h) F.CHN_HPROF_VMAX hi (put (R.CHN_HPROF 3 0 h) F.CHN_HPROF_IMAX i s)))
  let s := hp 0 0 0 240 400 (hp 1 0 0 420 400 (hp 2 1 200 460 300 (hp 3 3 0 0 0 (prt 450 2 .contract))))
  { s with bankA := ⟨[(450, BitVec.ofNat 32 (F.PLC_ENT_CEIL.put 0 6000).toNat)], [], []⟩,
           mir := [(450, { Port.init with state := .contract, pvmax := 460, pimax := 400 })] }

theorem test_heavyObjs : toolS.heavyObjs 450 = [0x0F000190, 0x1A40011D, 0x5CC32104, 0] := by decide +kernel

theorem test_vdmHead : vdmHead 0x3A71 1 0 16 = 0x3A71A910 ∧ vdmHead 0x3A71 1 1 16 = 0x3A71A950 := by decide

/-- The transition of the tool, in 19 steps. -/
def toolTran : Tran :=
  { v0 := 5000, i0 := 1000, v1 := 42000, i1 := 12000, pos := 13, n := 19, k := 0, slot := 12, entry := none, noOp := false, oneOp := false,
    pps := false, heavy := true, opened := false, trying := false, last := 0, waited := 0 }

theorem test_toolSteps :
    (37000 + 2000 - 1) / 2000 = 19 ∧ toolTran.vtgt 1 = 6947 ∧ toolTran.icon 1 = 12000 ∧ toolTran.weight 1 = 1120 ∧
    (∀ k < 18, toolTran.weight (k + 2) = 20) ∧ toolTran.vtgt 19 = 42000 ∧ toolTran.icon 19 = 12000 := by decide

/-- P300 comes down from 20.0 V 3.00 A to 15.0 V 2.00 A. -/
def shedTran : Tran := { toolTran with v0 := 20000, i0 := 3000, v1 := 15000, i1 := 2000, n := 3 }

theorem test_shedSteps :
    [1, 2, 3].map shedTran.vtgt = [18333, 16667, 15000] ∧ [1, 2, 3].map shedTran.icon = [3000, 3000, 2000] ∧
    [1, 2, 3].map shedTran.weight = [0, 0, 100] := by decide

/-- P300 of Table 06-4 on a 3 A cable: its profile, and a ceiling in 100 mW. -/
def laptopS (ceil : Nat) : State :=
  let pr (w k lo hi i : Nat) (s : State) : State :=
    put (R.CHN_PROF 2 0 w) F.CHN_PROF_KIND k (put (R.CHN_PROF 2 0 w) F.CHN_PROF_VMIN lo
      (put (R.CHN_PROF 2 0 w) F.CHN_PROF_VMAX hi (put (R.CHN_PROF 2 0 w) F.CHN_PROF_IMAX i s)))
  let s := pr 0 0 0 50 300 (pr 1 0 0 90 300 (pr 2 0 0 150 300 (pr 3 0 0 200 500 (prt 300 1 .contract))))
  let s := pr 4 1 33 59 300 (pr 5 1 33 110 300 (pr 6 1 33 210 500 (pr 7 0 0 280 500 (pr 10 2 150 480 240 s))))
  let s := put (R.CHN_PPOL 2 44) F.CHN_PPOL_PPS_EN 1 (put (R.CHN_PPOL 2 44) F.CHN_PPOL_EPR_EN 0 s)
  { s with bankA := ⟨[(300, BitVec.ofNat 32 ceil)], [], []⟩ }

/-- The current of an object in mA: of a fixed one, of a PPS one. -/
def fixedMa (o : Nat) : Nat := o % 1024 * 10
def ppsMa (o : Nat) : Nat := o % 128 * 50

theorem test_offers :
    ((laptopS 1000).offerSpr 300).length = 7 ∧ ((laptopS 300).offerSpr 300).length = 7 ∧ (laptopS 1000).offerEpr 300 false = [] ∧
    (((laptopS 1000).offerSpr 300).take 4).map fixedMa = [3000, 3000, 3000, 3000] ∧
    (((laptopS 1000).offerSpr 300).drop 4).map ppsMa = [3000, 3000, 3000] ∧
    (((laptopS 300).offerSpr 300).take 4).map fixedMa = [3000, 3000, 2000, 1500] ∧
    (((laptopS 300).offerSpr 300).drop 4).map ppsMa = [3000, 2700, 1400] := by decide +kernel

/-! ### The package: signals of the examples of chapter 20 -/

theorem test_package :
    portColumn 300 0 = (74, 14) ∧ gridColumn 74 14 = .port 300 0 ∧ gridColumn 60 19 = .sideline 4 0 := by decide

end Sys2Proof.Tests
end

/-! SUPPORT. A course access that names nothing in the course's map: it sets the access-error flag and does no more (R16). -/
namespace Sys2Proof.Machine

/-- The ranges of Table 10-9, each with its first address and the address after its last. -/
def courseRanges : List (Nat × Nat) :=
  [(0, 0x30000), (0x40000, 0x50000), (0x80000, 0x84000), (0x90000, 0x94000), (0xA0000, 0xA2000), (0xB0000, 0xB8000),
   (0xC0000, 0xC0210), (0xC0300, 0xC0318), (0xC1000, 0xC1100), (0xD0000, 0xD0204), (0xD0400, 0xD0500), (0xE0000, 0xE040C),
   (0xE1000, 0xE1010)]

/-- The test of a branch of the map fails outside a range that holds the branch. -/
theorem outside_branch {a lo hi lo' hi' : Nat} (h : a < lo ∨ hi ≤ a) (hl : lo ≤ lo') (hh : hi' ≤ hi) :
    ¬ (decide (lo' ≤ a) && decide (a < hi')) = true := by
  rw [Bool.and_eq_true, decide_eq_true_eq, decide_eq_true_eq]
  omega

/-- An address outside every range of the map names nothing. -/
theorem courseSpot_outside {a : Nat} (c : Nat) (h : ∀ r ∈ courseRanges, a < r.1 ∨ r.2 ≤ a) : courseSpot c a = .outside := by
  simp only [courseRanges, List.forall_mem_cons] at h
  obtain ⟨code, data, chan, pan, prec, port, tmu, ang, ctx, ent, row, mbx, pev, -⟩ := h
  unfold courseSpot
  rw [if_neg (by omega), if_neg (outside_branch data (by decide) (by decide)),
    if_neg (outside_branch chan (by decide) (by decide)), if_neg (outside_branch pan (by decide) (by decide)),
    if_neg (outside_branch prec (by decide) (by decide)), if_neg (outside_branch port (by decide) (by decide)),
    if_neg (outside_branch tmu (by decide) (by decide)), if_neg (outside_branch tmu (by decide) (by decide)),
    if_neg (outside_branch tmu (by decide) (by decide)), if_neg (outside_branch tmu (by decide) (by decide)),
    if_neg (outside_branch tmu (by decide) (by decide)), if_neg (outside_branch ang (by decide) (by decide)),
    if_neg (outside_branch ctx (by decide) (by decide)), if_neg (outside_branch ent (by decide) (by decide)),
    if_neg (outside_branch ent (by decide) (by decide)), if_neg (outside_branch row (by decide) (by decide)),
    if_neg (outside_branch mbx (by decide) (by decide)), if_neg (outside_branch mbx (by decide) (by decide)),
    if_neg (outside_branch mbx (by decide) (by decide)), if_neg (outside_branch mbx (by decide) (by decide)),
    if_neg (outside_branch pev (by decide) (by decide))]

/-- From `s` to `t` course `c` has had its access-error flag set for an access at `a`, and nothing else has changed. -/
def AeFlagged (c : Fin 4) (a : Word) (s t : State) : Prop :=
  t.crsOf c = { s.crsOf c with ae := true, aeAddr := if (s.crsOf c).ae then (s.crsOf c).aeAddr else a } ∧
  (∀ d : Fin 4, d ≠ c → t.crsOf d = s.crsOf d) ∧ Only [.crs] s t

/-- The address kept is that of the first such access since the flag was cleared (Table 10-1). -/
theorem aeFlagged_setAe (c : Fin 4) (a : Word) (s : State) : AeFlagged c a s (setAe c a s) := by
  refine ⟨?_, fun d hd => ?_, setAe_only rfl (Only.refl _ s)⟩
  · rw [setAe, crsOf_updCrs]
    by_cases hae : (s.crsOf c).ae = true
    · rw [if_pos hae, if_pos hae, ← hae]
    · rw [if_neg hae, if_neg hae]
  · exact crsOf_updCrs_ne _ _ _ _ fun e => hd (Fin.ext e)

@[simp] theorem seen_nil (s : State) : seen [] s = s := rfl

@[simp] theorem anyPoison_nil (s : State) : s.anyPoison [] = false := rfl

theorem courseStore_outside {c : Fin 4} {a : Word} (n : Nat) (v : Word) (s : State)
    (h : courseSpot c a.toNat = .outside) : courseStore c n a v s = setAe c a s := by
  simp [courseStore, h, Spot.merged, storeSpot]

theorem courseLoad_outside {c : Nat} {a : Word} (n : Nat) (s : State) (h : courseSpot c a.toNat = .outside) :
    courseLoad c n a s = (BitVec.ofNat 32 (2 ^ (8 * n) - 1), setAe c a s) := by
  simp [courseLoad, h, State.spotPlaces, loadSpot]

/-- Nothing outside the map waits for TCLK, so the write of a course out of reset comes to its store. -/
theorem registerWrite_outside {c : Fin 4} {a : Word} (v : Word) (s : State) (hc : s.chanUp c = true)
    (ha : a.toNat % 4 = 0) (h : courseSpot c a.toNat = .outside) : registerWrite (.course c) a v s = setAe c a s := by
  have hw : a.toNat / 4 * 4 = a.toNat := by omega
  simp [registerWrite, hc, hw, h, State.hangs, courseStore_outside]

end Sys2Proof.Machine

namespace Sys2Proof

open Machine

/-- Settles O54: the address names nothing in the course's map, and there each access is `setAe` alone. -/
theorem writesOutsideTheCourseMap : Obligations.WritesOutsideTheCourseMap := by
  intro s c a v hr
  have hs : courseSpot c a.toNat = .outside := courseSpot_outside c hr
  have hf : AeFlagged c a s (setAe c a s) := aeFlagged_setAe c a s
  refine ⟨fun n _ => ?_, ?_, fun n _ => ?_, fun hc ha => ⟨_, rfl, ?_⟩⟩
  · rw [courseStore_outside n v s hs]
    exact hf
  · rw [courseLoad_outside 4 s hs]
    exact ⟨rfl, hf⟩
  · rw [courseLoad_outside n s hs]
    exact ⟨rfl, hf⟩
  · rw [registerWrite_outside v s hc ha hs]
    exact hf

end Sys2Proof

/-! SUPPORT. A command posted to a full mailbox lane: what the waking of the management plane leaves, and what the answer to the
command's origin writes (R29, R351, R409). -/
namespace Sys2Proof.Machine

theorem reg_forEach_stageRec (l : List LogRec) (s : State) (a : Nat) (h : a ≠ R.FLT_SUM) (h' : a ≠ R.TWM_STAT) :
    (forEach l stageRec s).reg a = s.reg a := by
  induction l generalizing s with
  | nil => rfl
  | cons r l ih => exact (ih (stageRec r s)).trans (reg_stageRec r s a h h')

/-- A wake writes its own status register and, for records that find no room, the fault summary and `TWM_STAT`. -/
theorem reg_wakeUp (src : Nat) (s : State) (a : Nat) (hq : a ≠ R.CRU_QSTAT) (h : a ≠ R.FLT_SUM) (h' : a ≠ R.TWM_STAT) :
    (wakeUp src s).reg a = s.reg a := by
  unfold wakeUp
  dsimp only
  split
  · rw [reg_forEach_stageRec _ _ _ h h', reg_setFld_ne _ _ _ _ _ hq]
    exact reg_congr rfl a
  · rfl

/-- The state in which a management plane out of reset does what a transaction asks: awake, and busy with it. -/
def State.woken (s : State) : State := (wakeUp 1 s).commanded

theorem twmCmd_eq_woken (f : State → State) {s : State} (hm : s.mgmtUp = true) : twmCmd f s = f s.woken := if_pos hm

theorem woken_only (s : State) : Only [.regs, .clk, .log] s s.woken :=
  only_set_clk rfl (wakeUp_only rfl (Only.refl _ s))

theorem reg_woken (s : State) (a : Nat) (hq : a ≠ R.CRU_QSTAT) (h : a ≠ R.FLT_SUM) (h' : a ≠ R.TWM_STAT) :
    s.woken.reg a = s.reg a := (reg_congr rfl a).trans (reg_wakeUp 1 s a hq h h')

theorem pendingTag_woken (s : State) (tag : Nat) : s.woken.pendingTag tag = s.pendingTag tag := by
  have hr : s.woken.reg R.TWM_RQSTAT = s.reg R.TWM_RQSTAT := reg_woken s _ (by decide) (by decide) (by decide)
  unfold State.pendingTag
  rw [fld_congr hr, fld_congr hr]

theorem isRoot_woken (s : State) : s.woken.isRoot = s.isRoot :=
  flag_congr (reg_woken s R.LNK_CFG (by decide) (by decide) (by decide)) F.LNK_CFG_ROOT

/-! ### Lanes -/

theorem mbxFree_full {s : State} {c : Nat} (h : ∀ i < 8, s.mbxOf c i ≠ none) : s.mbxFree c = [] := by
  refine List.filter_eq_nil_iff.mpr fun i hi => ?_
  rw [Option.isNone_iff_eq_none]
  exact h i (List.mem_range.mp hi)

theorem mbxPost_full {s : State} {c : Nat} (o : Origin) (cmd : List Byte) (hc : s.chanUp c = true)
    (h : s.mbxFree c = []) : mbxPost c o cmd s = answerOrigin o 8 [] s := by
  simp [mbxPost, hc, h]

/-! ### The answer to the origin -/

theorem reg_endRequest_rqstat (st : Nat) (resp : List Byte) (s : State) :
    (endRequest st resp s).reg R.TWM_RQSTAT =
      F.TWM_RQSTAT_LEN.put (F.TWM_RQSTAT_ST.put (s.reg R.TWM_RQSTAT) st) resp.length := by
  unfold endRequest raiseTwm
  dsimp only
  rw [reg_raise _ _ _ _ _ (by decide) (by decide), ← reg_setFld, ← reg_setFld]
  exact reg_congr rfl _

/-- The status of a request that has ended, as Table 16-6 numbers it. -/
theorem fld_endRequest_st {st : Nat} (resp : List Byte) (s : State) (h : st < 16) :
    (endRequest st resp s).fld R.TWM_RQSTAT F.TWM_RQSTAT_ST = st := by
  unfold State.fld
  rw [reg_endRequest_rqstat, Fld.get_put_apart _ _ _ _ (by decide), Fld.get_put _ _ _ (by decide)]
  exact Nat.mod_eq_of_lt h

theorem fld_endRequest_len (st : Nat) {resp : List Byte} (s : State) (h : resp.length < 128) :
    (endRequest st resp s).fld R.TWM_RQSTAT F.TWM_RQSTAT_LEN = resp.length := by
  unfold State.fld
  rw [reg_endRequest_rqstat, Fld.get_put _ _ _ (by decide)]
  exact Nat.mod_eq_of_lt h

theorem fld_endRequest_tag (st : Nat) (resp : List Byte) (s : State) :
    (endRequest st resp s).fld R.TWM_RQSTAT F.TWM_RQSTAT_TAG = s.fld R.TWM_RQSTAT F.TWM_RQSTAT_TAG := by
  unfold State.fld
  rw [reg_endRequest_rqstat, Fld.get_put_apart _ _ _ _ (by decide), Fld.get_put_apart _ _ _ _ (by decide)]

theorem flag_endRequest_rqdone (st : Nat) (resp : List Byte) (s : State) :
    (endRequest st resp s).flag R.TWM_EVT F.TWM_EVT_RQDONE = true :=
  flag_raise _ _ _ _ (by decide) (by decide)

theorem resp_endRequest (st : Nat) (resp : List Byte) (s : State) : (endRequest st resp s).twm.resp = resp := by
  unfold endRequest
  rw [raiseTwm_only (ps := [.regs]) rfl (Only.refl _ _) .twm (by decide)]
  rfl

theorem answerOrigin_host {tag : Byte} {s : State} (st : Nat) (resp : List Byte) (h : s.pendingTag tag.toNat = true) :
    answerOrigin (.host tag) st resp s = endRequest st resp s := if_pos h

theorem answerOrigin_domain {s : State} (tag : Byte) (st : Nat) (resp : List Byte) (h : s.isRoot = false) :
    answerOrigin (.domain tag) st resp s =
      routeFrame 0 (s.ownFrame .resp 0 (natLe 1 st ++ natLe 1 tag.toNat ++ resp)) s := by
  simp [answerOrigin, h]

theorem tag_of_pendingTag {s : State} {tag : Nat} (h : s.pendingTag tag = true) :
    s.fld R.TWM_RQSTAT F.TWM_RQSTAT_TAG = tag := by
  simp only [State.pendingTag, Bool.and_eq_true, decide_eq_true_eq] at h
  exact h.2

theorem natLe_one_toNat (b : Byte) : natLe 1 b.toNat = [b] := by
  simp [natLe]

/-- A command for a full lane of a channel out of reset is the busy answer of the woken plane. -/
theorem execMbxPost_full {s : State} {c : Fin 4} (o : Origin) {cmd : List Byte} (hm : s.mgmtUp = true)
    (hc : s.chanUp c = true) (h1 : 1 ≤ cmd.length) (h2 : cmd.length ≤ 64) (hfull : ∀ i < 8, s.mbxOf c i ≠ none) :
    execMbxPost c o cmd s = .next (answerOrigin o 8 [] s.woken) := by
  have hup : s.woken.chanUp c = true := (State.chanUp_of_only (woken_only s) rfl c).trans hc
  have hfree : s.woken.mbxFree c = [] := (State.mbxFree_of_only (woken_only s) rfl c).trans (mbxFree_full hfull)
  simp [execMbxPost, h1, h2, twmCmd_eq_woken _ hm, mbxPost_full o cmd hup hfree]

end Sys2Proof.Machine

namespace Sys2Proof

open Machine

/-- Settles O38: the command comes to the busy answer alone, which writes neither the lanes nor the memories. -/
theorem fullLaneAnswersBusy : Obligations.FullLaneAnswersBusy := by
  intro s c o cmd hm hc h1 h2 hfull
  have hu : Only [.regs, .lnk, .twm, .clk, .log] s (answerOrigin o 8 [] s.woken) :=
    answerOrigin_only rfl ((woken_only s).mono rfl)
  refine ⟨_, execMbxPost_full o hm hc h1 h2 hfull, hu .mbx (by decide), hu .mem (by decide), ?_, ?_⟩
  · rintro tag rfl hp
    rw [← pendingTag_woken] at hp
    rw [answerOrigin_host 8 [] hp]
    exact ⟨fld_endRequest_st [] _ (by decide), fld_endRequest_len 8 _ (by decide),
      (fld_endRequest_tag 8 [] _).trans (tag_of_pendingTag hp), flag_endRequest_rqdone 8 [] _, resp_endRequest 8 [] _⟩
  · rintro tag rfl hroot
    rw [answerOrigin_domain tag 8 [] ((isRoot_woken s).trans hroot), natLe_one_toNat, List.append_nil]
    rfl

end Sys2Proof

/-! SUPPORT. The low-half reads of the timebase: the read of a register that the woken plane can reach, and the state in which a
read has given the low half of a counter and latched the high one (R76, R350). -/
namespace Sys2Proof.Machine

/-! ### The woken plane, and a read of it -/

theorem clk_forEach_stageRec (l : List LogRec) (s : State) : (forEach l stageRec s).clk = s.clk :=
  forEach_only (fun _ _ h => stageRec_only rfl h) (Only.refl [.regs, .log] s) .clk (by decide)

theorem porst_wakeUp (src : Nat) (s : State) : (wakeUp src s).clk.porst = s.clk.porst := by
  unfold wakeUp
  dsimp only
  split
  · rw [clk_forEach_stageRec]
    rfl
  · rfl

/-- A wake writes neither of the two conditions on TCLK: `PORST_N` and the declared loss. -/
theorem tclk_woken (s : State) : s.woken.tclk = s.tclk := by
  have hp : s.woken.clk.porst = s.clk.porst := porst_wakeUp 1 s
  have hc : s.woken.reg R.FLT_CLKSTAT = s.reg R.FLT_CLKSTAT := reg_woken s _ (by decide) (by decide) (by decide)
  unfold State.tclk
  rw [hp, flag_congr hc]

theorem tb_woken (s : State) : s.woken.tb = s.tb := woken_only s .tb (by decide)

/-- Outside quiet mode there is no wake to record. -/
theorem reg_woken_of_not_quiet {s : State} (hq : s.clk.quiet = false) (a : Nat) : s.woken.reg a = s.reg a := by
  have hw : wakeUp 1 s = s := by simp [wakeUp, hq]
  exact reg_congr (congrArg State.regs hw) a

/-- A host read that nothing stops, in quiet mode or out of it: the woken plane reads the register. -/
theorem hostReadCmd_eq_woken {a : Nat} {r : RegRow} {s : State} (hm : s.mgmtUp = true) (hi : implemented a = true)
    (hr : findReg a = some r) (hn : r.cls ≠ .noHostRead) (hc : s.woken.accessCause a = none)
    (hp : s.woken.regPlaces a = []) :
    hostReadCmd a s = setBus (readReg r a s.woken).1 (readReg r a s.woken).2 := by
  simp [hostReadCmd, twmCmd_eq_woken _ hm, hostRead, hi, hr, hn, hc, hp]

/-! ### A counter read by halves -/

/-- The woken plane has read the low half of a counter at `n` and latched the bits above it into register `b`. -/
def State.readLow (b n : Nat) (s : State) : State :=
  setBus (BitVec.ofNat 32 n) (setReg b (BitVec.ofNat 32 (n / 2 ^ 32)) s.woken)

theorem bus_readLow (b n : Nat) (s : State) : (s.readLow b n).bus.toNat = n % 2 ^ 32 := BitVec.toNat_ofNat ..

/-- The latched half is whole: a counter of up to 64 bits has at most 32 above the low half. -/
theorem reg_readLow {n : Nat} (b : Nat) (s : State) (h : n < 2 ^ 64) : ((s.readLow b n).reg b).toNat = n / 2 ^ 32 := by
  rw [State.readLow, setBus_reg, reg_setReg, BitVec.toNat_ofNat]
  exact Nat.mod_eq_of_lt (by omega)

theorem reg_readLow_ne {a b : Nat} {s : State} (n : Nat) (hq : s.clk.quiet = false) (h : a ≠ b) :
    (s.readLow b n).reg a = s.reg a :=
  (reg_setReg_ne b a _ s.woken h).trans (reg_woken_of_not_quiet hq a)

theorem tb_readLow (b n : Nat) (s : State) : (s.readLow b n).tb = s.tb := tb_woken s

theorem readLow_only (b n : Nat) (s : State) : Only [.regs, .clk, .log, .bus] s (s.readLow b n) :=
  setBus_only rfl (setReg_only rfl ((woken_only s).mono rfl))

/-- The image tables hold no register of the timebase or the timer unit. -/
theorem imagePlace_none {a : Nat} (h : a < 0x3000) : imagePlace a = none := by
  have hg : ¬ R.PLC_GRP 0 ≤ a := by unfold R.PLC_GRP; omega
  have hb : a < 0x10000 := by omega
  simp [imagePlace, hg, hb]

/-- A read of the timebase or the timer unit that gives a low half and latches the high one, by the host while TCLK runs. -/
theorem hostReadCmd_eq_readLow {a b n : Nat} {r : RegRow} {s : State} (hm : s.mgmtUp = true) (ht : s.tclk = true)
    (ha : a < 0x3000) (hi : implemented a = true) (hr : findReg a = some r) (hn : r.cls ≠ .noHostRead)
    (hread : readReg r a s.woken = (BitVec.ofNat 32 n, setReg b (BitVec.ofNat 32 (n / 2 ^ 32)) s.woken)) :
    hostReadCmd a s = s.readLow b n := by
  have hadmin : a ≠ R.TWM_PADMIN := by unfold R.TWM_PADMIN; omega
  have hgused : a ≠ R.PLC_GUSED := by unfold R.PLC_GUSED; omega
  have hc : s.woken.accessCause a = none := accessCause_tclk (by omega) hadmin ((tclk_woken s).trans ht)
  have hp : s.woken.regPlaces a = [] := regPlaces_none ha hadmin hgused (imagePlace_none ha)
  rw [hostReadCmd_eq_woken hm hi hr hn hc hp, hread]
  rfl

/-! ### CYC and USEC -/

theorem readReg_cycLo (r : RegRow) (s : State) : readReg r R.ANG_CYC_LO s = readCycLo s := rfl

theorem readReg_usecLo (r : RegRow) (s : State) : readReg r R.ANG_USEC_LO s = readUsecLo s := rfl

theorem hostReadCmd_cycLo {s : State} (hm : s.mgmtUp = true) (ht : s.tclk = true) :
    hostReadCmd R.ANG_CYC_LO s = s.readLow R.ANG_CYC_HI s.tb.cyc.toNat :=
  hostReadCmd_eq_readLow hm ht (by decide) rfl rfl (by decide) (by rw [readReg_cycLo, readCycLo, tb_woken])

theorem hostReadCmd_usecLo {s : State} (hm : s.mgmtUp = true) (ht : s.tclk = true) :
    hostReadCmd R.ANG_USEC_LO s = s.readLow R.ANG_USEC_HI s.tb.usec.toNat :=
  hostReadCmd_eq_readLow hm ht (by decide) rfl rfl (by decide) (by rw [readReg_usecLo, readUsecLo, tb_woken])

end Sys2Proof.Machine

namespace Sys2Proof

open Machine

/-- A command that comes to the read of a counter's low half completes with the two halves of the counter, and writes no other
register outside quiet mode. -/
theorem completes_readLow {i : Instr} {s : State} {b n : Nat} (hn : n < 2 ^ 64) (h : exec i s = .next (s.readLow b n)) :
    Completes i s fun t =>
      t.bus.toNat = n % 2 ^ 32 ∧ (t.reg b).toNat = n / 2 ^ 32 ∧ t.tb = s.tb ∧ Only [.regs, .clk, .log, .bus] s t ∧
      (s.clk.quiet = false → ∀ a, a ≠ b → t.reg a = s.reg a) :=
  ⟨_, h, bus_readLow b n s, reg_readLow b s hn, tb_readLow b n s, readLow_only b n s, fun hq _ => reg_readLow_ne n hq⟩

/-- Settles O3: both commands are reads of a low half, of CYC with 48 bits and of USEC with 64. -/
theorem lowHalfReadsLatch : Obligations.LowHalfReadsLatch := by
  refine ⟨fun s hm ht => completes_readLow ?_ ?_, fun s hm ht => completes_readLow s.tb.usec.isLt ?_⟩
  · exact Nat.lt_trans s.tb.cyc.isLt (by decide)
  · exact congrArg _ (hostReadCmd_cycLo hm ht)
  · exact congrArg _ (hostReadCmd_usecLo hm ht)

end Sys2Proof

/-! SUPPORT. What the end of a programming command writes, and what fuse sense puts into the registers of the fuse array: the
words of OTP_DATA, the fields of OTP_CRIT and the digits of OTP_REGION (R384-R388, R393). -/
namespace Sys2Proof.Machine

/-! ### The latch of `DEBUG_KILL` -/

/-- The command is a `BLOW` of a copy of the security word with `DEBUG_KILL` in its data (R393). -/
def OtpCmd.kills (c : OtpCmd) : Bool := !c.lock && decide (0xB2 ≤ c.addr) && decide (c.addr < 0xB5) && c.data.getLsbD 1

/-- The latch of `DEBUG_KILL` as a command that ends `DONE` leaves it. -/
def OtpCmd.latchKill (c : OtpCmd) (s : State) : State := if c.kills then setFld R.OTP_CRIT F.OTP_CRIT_DEBUG_KILL 1 s else s

theorem reg_latchKill_ne {c : OtpCmd} {s : State} {a : Nat} (h : a ≠ R.OTP_CRIT) : (c.latchKill s).reg a = s.reg a := by
  unfold OtpCmd.latchKill
  split
  · exact reg_setFld_ne _ _ _ _ _ h
  · rfl

theorem regs_latchKill_congr (c : OtpCmd) {s t : State} (h : t.regs = s.regs) :
    (c.latchKill t).regs = (c.latchKill s).regs := by
  unfold OtpCmd.latchKill
  split
  · simp [setFld, setReg, State.reg, h]
  · exact h

/-- A bit put to 1 joins the others of its word. -/
theorem Fld.put_one {f : Fld} (h : f.isBit) (w : Word) : f.put w 1 = w ||| f.mask := by
  obtain ⟨hw, hl⟩ := h
  refine BitVec.eq_of_getLsbD_eq fun i hi => ?_
  rw [Fld.put_bit, BitVec.getLsbD_or, Fld.mask_bit, hw]
  by_cases hif : i = f.lo
  · simp [hif, hl]
  · have hout : ¬ (i < 32 ∧ f.lo ≤ i ∧ i < f.lo + 1) := by omega
    rw [if_neg hout, ← Bool.decide_and, ← Bool.decide_and, decide_eq_false fun ⟨⟨h1, h2⟩, h3⟩ => hout ⟨h1, h2, h3⟩,
      Bool.or_false]

theorem reg_latchKill (c : OtpCmd) (s : State) :
    (c.latchKill s).reg R.OTP_CRIT = s.reg R.OTP_CRIT ||| (if c.kills then 0x40000000 else 0) := by
  unfold OtpCmd.latchKill
  split
  · exact (reg_setFld _ _ _ _).trans (Fld.put_one (by decide) _)
  · exact BitVec.or_zero.symm

theorem debugKill_latchKill {c : OtpCmd} (s : State) (h : c.kills = true) : (c.latchKill s).debugKill = true := by
  rw [OtpCmd.latchKill, if_pos h]
  exact flag_setFld_one _ _ _ (by decide)

/-- With `DEBUG_KILL` latched, DEBUG acts as BYPASS (R395). -/
theorem execTapDebug_killed (k : Fin 4) (op : DebugOp) {s : State} (h : s.debugKill = true) :
    execTapDebug k op s = .next { s with tap := 15 } := congrArg _ (if_pos h)

/-- With `DEBUG_KILL` latched, MEMACC acts as BYPASS (R395). -/
theorem execTapMemacc_killed (m : MemAcc) {s : State} (h : s.debugKill = true) :
    execTapMemacc m s = .next { s with tap := 15 } := congrArg _ (if_pos h)

/-! ### The end of a programming command -/

/-- The end of a command writes its status and a record. -/
theorem reg_otpEnd (c : OtpCmd) (code bit : Nat) (s : State) {a : Nat} (hp : a ≠ R.OTP_PSTAT) (h : a ≠ R.FLT_SUM)
    (h' : a ≠ R.TWM_STAT) : (otpEnd c code bit s).reg a = s.reg a :=
  (reg_post _ _ _ _ _ _ _ h h').trans ((reg_setReg_ne _ _ _ _ hp).trans (reg_congr rfl a))

/-- Pulses write the array alone. -/
theorem regs_forEach_blowBits (l : List Nat) (bits : Word) (s : State) :
    (forEach l (fun w t => blowBits w bits t) s).regs = s.regs :=
  forEach_only (fun _ _ h => blowBits_only rfl h) (Only.refl [.fuse, .weak] s) .regs (by decide)

/-- A command that ends `DONE` changes no register but its status, those of its record, and the latch of `DEBUG_KILL`. -/
theorem reg_otpDone (c : OtpCmd) (s : State) {a : Nat} (hp : a ≠ R.OTP_PSTAT) (h : a ≠ R.FLT_SUM) (h' : a ≠ R.TWM_STAT) :
    (otpDone c s).reg a = (c.latchKill s).reg a := by
  have hb := regs_latchKill_congr c (regs_forEach_blowBits c.words c.bits s)
  unfold otpDone
  dsimp only
  rw [reg_otpEnd _ _ _ _ hp h h', State.reg_of_only (lastBit_only (ps := [.fresh]) rfl (Only.refl _ _)) rfl a,
    ← reg_congr hb a]
  cases hl : c.lock with
  | true =>
    simp only [OtpCmd.latchKill, OtpCmd.kills, hl]
    rfl
  | false =>
    simp only [OtpCmd.latchKill, OtpCmd.kills, hl]
    rfl

/-- The command has ended `DONE`: its pulses have had their time. -/
theorem execProgrammingCommandEnded_done {s : State} {c : OtpCmd} (hr : s.bootRuns = true) (hc : s.otp.cmd = some c)
    (hd : s.past c.start (12 * (s.newBits c).length) = true) :
    execProgrammingCommandEnded none s = .next (otpDone c s) := by
  simp [execProgrammingCommandEnded, programmingEnds, hr, hc, hd]

/-! ### Numbers built digit by digit -/

/-- The number whose digits in base `b` are `d 0` to `d (n - 1)`, the lowest first. -/
def digitSum (b : Nat) (d : Nat → Nat) (n : Nat) : Nat := (List.range n).foldl (fun v i => v + d i * b ^ i) 0

theorem digitSum_succ (b : Nat) (d : Nat → Nat) (n : Nat) : digitSum b d (n + 1) = digitSum b d n + d n * b ^ n := by
  rw [digitSum, List.range_succ, List.foldl_append]
  rfl

theorem digitSum_lt {b : Nat} {d : Nat → Nat} (h : ∀ j, d j < b) (n : Nat) : digitSum b d n < b ^ n := by
  induction n with
  | zero => exact Nat.one_pos
  | succ n ih =>
    calc digitSum b d (n + 1) = digitSum b d n + d n * b ^ n := digitSum_succ b d n
      _ < b ^ n + d n * b ^ n := Nat.add_lt_add_right ih _
      _ = (d n + 1) * b ^ n := by rw [Nat.succ_mul, Nat.add_comm]
      _ ≤ b * b ^ n := Nat.mul_le_mul_right _ (h n)
      _ = b ^ (n + 1) := Nat.pow_succ'.symm

/-- Digit `i` reads back: the digits above it are multiples of `b ^ (i + 1)`, those below it less than `b ^ i`. -/
theorem digitSum_digit {b : Nat} {d : Nat → Nat} (h : ∀ j, d j < b) {n i : Nat} (hi : i < n) :
    digitSum b d n / b ^ i % b = d i := by
  have hb : 0 < b := Nat.zero_lt_of_lt (h 0)
  induction n with
  | zero => exact absurd hi (Nat.not_lt_zero i)
  | succ n ih =>
    rw [digitSum_succ]
    rcases Nat.lt_succ_iff_lt_or_eq.mp hi with hlt | rfl
    · have habove : d n * b ^ n = b ^ i * (b * (d n * b ^ (n - (i + 1)))) := by
        have hpow : b ^ n = b ^ i * b * b ^ (n - (i + 1)) := by
          rw [← Nat.pow_succ, ← Nat.pow_add, Nat.add_sub_of_le hlt]
        rw [hpow, Nat.mul_left_comm, Nat.mul_assoc]
      rw [habove, Nat.add_mul_div_left _ _ (Nat.pow_pos hb), Nat.add_mul_mod_self_left, ih hlt]
    · rw [Nat.add_mul_div_right _ _ (Nat.pow_pos hb), Nat.div_eq_of_lt (digitSum_lt h i), Nat.zero_add,
        Nat.mod_eq_of_lt (h i)]

theorem bitsOf_lt (n : Nat) (p : Nat → Bool) : bitsOf n p < 2 ^ n :=
  digitSum_lt (d := fun i => (p i).toNat) (fun i => Bool.toNat_lt (p i)) n

/-! ### A register loaded with a number -/

theorem Fld.get_ofNat {f : Fld} (h : f.fits) (n : Nat) : f.get (BitVec.ofNat 32 n) = n / 2 ^ f.lo % 2 ^ f.w := by
  apply Nat.eq_of_testBit_eq
  intro i
  rw [Fld.get_bit, BitVec.getLsbD_ofNat, Nat.testBit_mod_two_pow, Nat.testBit_div_two_pow, Nat.add_comm i]
  by_cases hi : i < f.w
  · have : f.lo + i < 32 := by have := h; omega
    simp [this]
  · simp [hi]

/-- A flag read from a word put together as a number. -/
theorem flag_of_reg_ofNat {s : State} {a n : Nat} {f : Fld} {b : Bool} (hf : f.isBit) (hr : s.reg a = BitVec.ofNat 32 n)
    (hn : n / 2 ^ f.lo % 2 = b.toNat) : s.flag a f = b := by
  obtain ⟨hw, hl⟩ := hf
  have hget : s.fld a f = b.toNat := by
    rw [State.fld, hr, Fld.get_ofNat (by unfold Fld.fits; omega), hw]
    exact hn
  rw [State.flag, hget]
  cases b <;> rfl

theorem fld_of_reg_ofNat {s : State} {a n : Nat} {f : Fld} (hf : f.fits) (hr : s.reg a = BitVec.ofNat 32 n) :
    s.fld a f = n / 2 ^ f.lo % 2 ^ f.w := by
  rw [State.fld, hr, Fld.get_ofNat hf]

/-! ### What fuse sense loads -/

/-- `OTP_CRIT` after fuse sense, as a number. -/
def critWord (rd mg : Nat → Word) : Nat :=
  ((votedSec rd).getLsbD 0).toNat * 2 ^ 31 + ((votedSec rd).getLsbD 1).toNat * 2 ^ 30 +
    bitsOf 4 (slotRevoked rd) * 2 ^ 26 + (votedLock rd).toNat % 2 ^ 13 * 2 ^ 13 + weakCount rd mg

/-- `OTP_REGION` after fuse sense, as a number: a digit in base 4 for each region. -/
def regionWord (rd : Nat → Word) : Nat := digitSum 4 (regionState rd) 13

theorem weakCount_lt (rd mg : Nat → Word) : weakCount rd mg < 256 := Nat.lt_of_le_of_lt (Nat.min_le_left ..) (by decide)

theorem critWord_secureBoot (rd mg : Nat → Word) : critWord rd mg / 2 ^ 31 % 2 = ((votedSec rd).getLsbD 0).toNat := by
  have hw := weakCount_lt rd mg
  have hr := bitsOf_lt 4 (slotRevoked rd)
  have h0 := Bool.toNat_lt ((votedSec rd).getLsbD 0)
  have h1 := Bool.toNat_lt ((votedSec rd).getLsbD 1)
  unfold critWord
  omega

theorem critWord_debugKill (rd mg : Nat → Word) : critWord rd mg / 2 ^ 30 % 2 = ((votedSec rd).getLsbD 1).toNat := by
  have hw := weakCount_lt rd mg
  have hr := bitsOf_lt 4 (slotRevoked rd)
  have h1 := Bool.toNat_lt ((votedSec rd).getLsbD 1)
  unfold critWord
  omega

theorem critWord_lock (rd mg : Nat → Word) : critWord rd mg / 2 ^ 13 % 2 ^ 13 = (votedLock rd).toNat % 2 ^ 13 := by
  have hw := weakCount_lt rd mg
  unfold critWord
  omega

theorem regionState_lt (rd : Nat → Word) (i : Nat) : regionState rd i < 4 := by
  unfold regionState
  split
  · split <;> decide
  · decide

theorem regionWord_digit (rd : Nat → Word) {i : Nat} (h : i < 13) : regionWord rd / 4 ^ i % 4 = regionState rd i :=
  digitSum_digit (regionState_lt rd) h

/-! ### The registers that fuse sense writes -/

/-- The words of `OTP_DATA` are those read, as far as they are loaded. -/
theorem reg_forEach_otpData (rd : Nat → Word) {n w : Nat} (s : State) (h : w < n) :
    (forEach (List.range n) (fun w t => setReg (R.OTP_DATA w) (rd w) t) s).reg (R.OTP_DATA w) = rd w := by
  unfold forEach
  induction n with
  | zero => exact absurd h (Nat.not_lt_zero w)
  | succ n ih =>
    rw [List.range_succ, List.foldl_append, List.foldl_cons, List.foldl_nil]
    rcases Nat.lt_succ_iff_lt_or_eq.mp h with hlt | rfl
    · rw [reg_setReg_ne _ _ _ _ (by unfold R.OTP_DATA; omega)]
      exact ih hlt
    · exact reg_setReg ..

theorem reg_forEach_otpData_below (rd : Nat → Word) (l : List Nat) (s : State) {a : Nat} (h : a < R.OTP_DATA 0) :
    (forEach l (fun w t => setReg (R.OTP_DATA w) (rd w) t) s).reg a = s.reg a := by
  induction l generalizing s with
  | nil => rfl
  | cons w l ih => exact (ih _).trans (reg_setReg_ne _ _ _ _ (by unfold R.OTP_DATA at h ⊢; omega))

theorem reg_loadOtp_data (rd mg : Nat → Word) (s : State) {w : Nat} (h : w < 0xE0) :
    (loadOtp rd mg s).reg (R.OTP_DATA w) = rd w :=
  reg_forEach_otpData rd _ h

theorem reg_loadOtp_crit (rd mg : Nat → Word) (s : State) :
    (loadOtp rd mg s).reg R.OTP_CRIT = BitVec.ofNat 32 (critWord rd mg) :=
  (reg_forEach_otpData_below rd _ _ (by decide)).trans ((reg_setReg_ne _ _ _ _ (by decide)).trans (reg_setReg ..))

theorem reg_loadOtp_region (rd mg : Nat → Word) (s : State) :
    (loadOtp rd mg s).reg R.OTP_REGION = BitVec.ofNat 32 (regionWord rd) :=
  (reg_forEach_otpData_below rd _ _ (by decide)).trans (reg_setReg ..)

/-- The identity registers lie at the bottom of the map. -/
theorem reg_loadIdentity (rd : Nat → Word) (s : State) {a : Nat} (h : 0x7400 ≤ a) : (loadIdentity rd s).reg a = s.reg a := by
  have hne : ∀ b < 0x7400, a ≠ b := fun b hb => by omega
  unfold loadIdentity
  dsimp only
  rw [reg_setReg_ne _ _ _ _ (hne _ (by decide)), reg_setReg_ne _ _ _ _ (hne _ (by decide)),
    reg_setReg_ne _ _ _ _ (hne _ (by decide)), reg_setReg_ne _ _ _ _ (hne _ (by decide)),
    reg_setReg_ne _ _ _ _ (hne _ (by decide))]

theorem reg_bootFailed (s : State) {a : Nat} (hb : a ≠ R.BOOT_STAT) (h : a ≠ R.FLT_SUM) (h' : a ≠ R.TWM_STAT) :
    (bootFailed s).reg a = s.reg a :=
  (reg_post _ _ _ _ _ _ _ h h').trans (reg_setFld_ne _ _ _ _ _ hb)

theorem reg_latchTrims (rd : Nat → Word) (s : State) (a : Nat) : (latchTrims rd s).reg a = s.reg a :=
  State.reg_of_only (latchTrims_only (ps := [.die]) rfl (Only.refl _ s)) rfl a

theorem reg_with_otp (s : State) (o : Otp) (a : Nat) : ({ s with otp := o } : State).reg a = s.reg a := reg_congr rfl a

/-- The rest of step 1 of boot leaves the registers of the fuse array as they were loaded. -/
theorem reg_fuseSense (s : State) {a : Nat} (hl : 0x7400 ≤ a) (hh : a < 0x8000) :
    (fuseSense s).reg a = (loadOtp s.fuseWord s.fuseMargin s).reg a := by
  have hb : a ≠ R.BOOT_STAT := by unfold R.BOOT_STAT; omega
  have hf : a ≠ R.FLT_SUM := by unfold R.FLT_SUM; omega
  have ht : a ≠ R.TWM_STAT := by unfold R.TWM_STAT; omega
  unfold fuseSense
  dsimp only
  split
  · rw [reg_bootFailed _ hb hf ht, reg_setFld_ne _ _ _ _ _ hb, reg_setFlag_ne _ _ _ _ _ hb, reg_with_otp,
      reg_latchTrims]
  · rw [setPhase, reg_setFld_ne _ _ _ _ _ hb, reg_loadIdentity _ _ hl, reg_setFlag_ne _ _ _ _ _ hb, reg_with_otp,
      reg_latchTrims]

theorem reg_fuseSense_crit (s : State) :
    (fuseSense s).reg R.OTP_CRIT = BitVec.ofNat 32 (critWord s.fuseWord s.fuseMargin) :=
  (reg_fuseSense s (by decide) (by decide)).trans (reg_loadOtp_crit ..)

theorem reg_fuseSense_region (s : State) : (fuseSense s).reg R.OTP_REGION = BitVec.ofNat 32 (regionWord s.fuseWord) :=
  (reg_fuseSense s (by decide) (by decide)).trans (reg_loadOtp_region ..)

theorem reg_fuseSense_data (s : State) {w : Nat} (h : w < 0xE0) : (fuseSense s).reg (R.OTP_DATA w) = s.fuseWord w :=
  (reg_fuseSense s (by unfold R.OTP_DATA; omega) (by unfold R.OTP_DATA; omega)).trans (reg_loadOtp_data _ _ _ h)

/-- Fuse sense is due: step 1 of boot, once. -/
theorem execFuseSense_due {s : State} (hr : s.bootRuns = true) (hp : s.phase = 0)
    (hs : s.flag R.OTP_STAT F.OTP_STAT_SENSED = false) : execFuseSense s = .next (fuseSense s) := by
  simp [execFuseSense, hr, hp, hs]

end Sys2Proof.Machine

namespace Sys2Proof

open Machine

/-- A programming command that completes: the frame of its registers, and the test port once `DEBUG_KILL` is latched. -/
theorem completes_programmingDone {s : State} {c : OtpCmd} (hr : s.bootRuns = true) (hc : s.otp.cmd = some c)
    (hd : s.past c.start (12 * (s.newBits c).length) = true) :
    Completes (.programmingCommandEnded none) s fun t =>
      (∀ a, a ≠ R.OTP_PSTAT → a ≠ R.OTP_CRIT → a ≠ R.FLT_SUM → a ≠ R.TWM_STAT → t.reg a = s.reg a) ∧
      t.reg R.OTP_CRIT = s.reg R.OTP_CRIT ||| (if c.kills then 0x40000000 else 0) ∧
      (c.kills = true →
        (∀ (k : Fin 4) (op : DebugOp), exec (.tapDebug k op) t = .next { t with tap := 15 }) ∧
        ∀ m, exec (.tapMemacc m) t = .next { t with tap := 15 }) := by
  have hcrit : (otpDone c s).reg R.OTP_CRIT = (c.latchKill s).reg R.OTP_CRIT :=
    reg_otpDone c s (by decide) (by decide) (by decide)
  refine ⟨_, execProgrammingCommandEnded_done hr hc hd, fun a hp hk h h' => ?_, ?_, fun hkill => ?_⟩
  · exact (reg_otpDone c s hp h h').trans (reg_latchKill_ne hk)
  · exact hcrit.trans (reg_latchKill c s)
  · have hdk : (otpDone c s).debugKill = true := (flag_congr hcrit _).trans (debugKill_latchKill s hkill)
    exact ⟨fun k op => execTapDebug_killed k op hdk, fun m => execTapMemacc_killed m hdk⟩

/-- Fuse sense puts the voted array into the latches and the words of the array into `OTP_DATA`. -/
theorem completes_fuseSense {s : State} (hr : s.bootRuns = true) (hp : s.phase = 0)
    (hs : s.flag R.OTP_STAT F.OTP_STAT_SENSED = false) :
    Completes .fuseSense s fun t =>
      t.debugKill = (votedSec s.fuseWord).getLsbD 1 ∧
      t.flag R.OTP_CRIT F.OTP_CRIT_SECURE_BOOT = (votedSec s.fuseWord).getLsbD 0 ∧
      t.fld R.OTP_CRIT F.OTP_CRIT_LOCK = (votedLock s.fuseWord).toNat % 2 ^ 13 ∧
      (∀ i < 13, t.fld R.OTP_REGION ⟨2 * i, 2⟩ = regionState s.fuseWord i) ∧
      ∀ w < 0xE0, t.reg (R.OTP_DATA w) = s.fuseWord w := by
  have hcrit := reg_fuseSense_crit s
  refine ⟨_, execFuseSense_due hr hp hs, ?_, ?_, ?_, fun i hi => ?_, fun w => reg_fuseSense_data s⟩
  · exact flag_of_reg_ofNat (by decide) hcrit (critWord_debugKill _ _)
  · exact flag_of_reg_ofNat (by decide) hcrit (critWord_secureBoot _ _)
  · exact (fld_of_reg_ofNat (by decide) hcrit).trans (critWord_lock _ _)
  · rw [fld_of_reg_ofNat (by unfold Fld.fits; dsimp only; omega) (reg_fuseSense_region s), Nat.pow_mul]
    exact regionWord_digit _ hi

/-- Settles O42: the end of a command and fuse sense, each by what it writes into the registers of the fuse array. -/
theorem debugKillLatchesAtOnce : Obligations.DebugKillLatchesAtOnce :=
  ⟨fun _ _ hr hc hd => completes_programmingDone hr hc hd, fun _ hr hp hs => completes_fuseSense hr hp hs⟩

end Sys2Proof

/-! SUPPORT. An access to an address of no block of Table 19-1: what the management plane's read and write of one word give, and
what the window, the words of a domain request and `RQGO` make of it (R405, R408, R409, R463). -/
namespace Sys2Proof.Machine

/-! ### One word -/

/-- The ranges between the channel blocks and the port blocks, and above the port blocks, hold no block of Table 19-1. -/
theorem implemented_gap {a : Nat} (h : 0x20000 ≤ a ∧ a < 0x100000 ∨ 0x120000 ≤ a) : implemented a = false := by
  have hlow : ∀ n ≤ 0x20000, ¬ a < n := fun n hn => by omega
  have hgap : a < 0x100000 ∨ ¬ a < 0x120000 := by omega
  rcases hgap with hgap | hgap <;> simp [implemented, blockRows, hlow, hgap]

theorem hostRead_unimplemented {a : Nat} (s : State) (h : implemented a = false) :
    hostRead a s = ⟨0xFFFFFFFF, true, s⟩ := by
  simp [hostRead, h]

theorem hostWrite_unimplemented {a : Nat} (v : Word) (s : State) (h : implemented a = false) :
    hostWrite a v s = (true, s) := by
  simp [hostWrite, h]

/-- The write leaves of the transaction only that the plane was woken by it. -/
theorem registerWrite_unimplemented {a : Word} (v : Word) (s : State) (h : implemented (a.toNat / 4 * 4) = false) :
    registerWrite .host a v s = twmCmd id s := by
  simp only [registerWrite, hostWrite_unimplemented _ _ h]
  rfl

/-! ### The window -/

theorem windowRead_unimplemented {s : State} (h : implemented (s.reg R.TWM_WADDR).toNat = false) :
    windowRead s = (0xFFFFFFFF, setReg R.TWM_LRD 0xFFFFFFFF (raiseTwm F.TWM_EVT_WERR s)) := by
  simp [windowRead, hostRead_unimplemented s h, noteWerr]

theorem windowWrite_unimplemented {s : State} (v : Word) (h : implemented (s.reg R.TWM_WADDR).toNat = false) :
    windowWrite v s = raiseTwm F.TWM_EVT_WERR s := by
  simp [windowWrite, hostWrite_unimplemented v s h, noteWerr]

theorem reg_raiseTwm (f : Fld) (s : State) (a : Nat) (h : a ≠ R.TWM_EVT) (h' : a ≠ R.TWM_STAT) :
    (raiseTwm f s).reg a = s.reg a := reg_raise _ _ f s a h h'

theorem flag_raiseTwm (f : Fld) (s : State) (hf : f.isBit) : (raiseTwm f s).flag R.TWM_EVT f = true :=
  flag_raise _ _ f s hf (by decide)

/-! ### A transaction that acts -/

theorem reg_countXfer (s : State) (a : Nat) (h : a ≠ R.TWM_CNT) : (countXfer s).reg a = s.reg a :=
  reg_incFld_ne _ _ _ _ h

theorem commanded_only (s : State) : Only [.clk] s s.commanded := only_set_clk rfl (Only.refl _ s)

/-- A Read 32 takes its value from the state that it leaves. -/
theorem bus_readWord_done (code : Nat) (act : State → State) (s : State) :
    (readWord .done code act s).bus = (act s).bus :=
  countXfer_only (ps := [.regs]) rfl (Only.refl _ _) .bus (by decide)

theorem reg_readWord_done (code : Nat) (act : State → State) (s : State) (a : Nat) (h : a ≠ R.TWM_CNT) :
    (readWord .done code act s).reg a = (act s).reg a := reg_countXfer _ a h

theorem writeXact_pec (code : Nat) (data : List Byte) (act : State → State) (s : State) :
    writeXact (.pec (s.writePec code data)) code data act s = countXfer (act s) := if_pos rfl

/-! ### The words of a request -/

/-- A READ fails where one of its words does. -/
theorem requestRead_failed {n b k : Nat} (s : State) (hk : k < n) (hb : b < 2 ^ 32)
    (h : implemented ((b + 4 * k) % 2 ^ 32 / 4 * 4) = false) : (requestRead n b s).2.1 = true := by
  induction n generalizing b k s with
  | zero => omega
  | succ n ih =>
    rw [requestRead]
    cases k with
    | zero =>
      rw [Nat.mul_zero, Nat.add_zero, Nat.mod_eq_of_lt hb] at h
      simp [hostRead_unimplemented s h]
    | succ k =>
      have hw : implemented (((b + 4) % 2 ^ 32 + 4 * k) % 2 ^ 32 / 4 * 4) = false := by
        rwa [Nat.mod_add_mod, show b + 4 + 4 * k = b + 4 * (k + 1) by omega]
      have hr := ih (hostRead (b / 4 * 4) s).st (by omega) (Nat.mod_lt _ (by decide)) hw
      exact (Bool.or_eq_true _ _).mpr (.inr hr)

/-- A WRITE fails where one of its words does. -/
theorem requestWrite_failed {n b k : Nat} {l : List Byte} (s : State) (hk : k < n) (hl : 4 * k + 4 ≤ l.length)
    (hb : b < 2 ^ 32) (h : implemented ((b + 4 * k) % 2 ^ 32 / 4 * 4) = false) : (requestWrite n b l s).1 = true := by
  induction n generalizing b k l s with
  | zero => omega
  | succ n ih =>
    rw [requestWrite, if_neg (by omega)]
    cases k with
    | zero =>
      rw [Nat.mul_zero, Nat.add_zero, Nat.mod_eq_of_lt hb] at h
      simp [hostWrite_unimplemented _ s h]
    | succ k =>
      have hw : implemented (((b + 4) % 2 ^ 32 + 4 * k) % 2 ^ 32 / 4 * 4) = false := by
        rwa [Nat.mod_add_mod, show b + 4 + 4 * k = b + 4 * (k + 1) by omega]
      have hr := ih (l := l.drop 4) (hostWrite (b / 4 * 4) (BitVec.ofNat 32 (leNat (l.take 4))) s).2 (by omega)
        (by rw [List.length_drop]; omega) (Nat.mod_lt _ (by decide)) hw
      exact (Bool.or_eq_true _ _).mpr (.inr hr)

/-! ### The request -/

/-- The address at the head of a request's buffer. -/
theorem leNat_take_natLe {b : Nat} (l : List Byte) (hb : b < 2 ^ 32) : leNat ((natLe 4 b ++ l).take 4) = b := by
  rw [List.take_left' (length_natLe 4 b), leNat_natLe]
  exact Nat.mod_eq_of_lt hb

theorem drop_natLe (b : Nat) (l : List Byte) : (natLe 4 b ++ l).drop 4 = l := List.drop_left' (length_natLe 4 b)

/-- The word count of a READ. -/
theorem leNat_count {n : Nat} (hn : n ≤ 16) : leNat [BitVec.ofNat 8 n] = n := by
  simp only [leNat, BitVec.toNat_ofNat]
  omega

/-- The status with which a request of words ends: ACCERR where an access failed, DONE otherwise (Table 16-6). -/
def wordsStatus (failed : Bool) : Nat := if failed then 7 else 2

theorem requestOk_read {n : Nat} (b : Nat) (h1 : 1 ≤ n) (hn : n ≤ 16) :
    requestOk 1 (natLe 4 b ++ [BitVec.ofNat 8 n]) = true := by
  simp [requestOk, leNat_count hn, length_natLe, h1, hn]

theorem requestOk_write {l : List Byte} (b : Nat) (h4 : 4 ≤ l.length) (h60 : l.length ≤ 60) (hm : l.length % 4 = 0) :
    requestOk 2 (natLe 4 b ++ l) = true := by
  simp only [requestOk, List.length_append, length_natLe, Bool.and_eq_true, decide_eq_true_eq]
  omega

/-- A well-formed READ is answered with what its words give. -/
theorem runRequest_read {b n : Nat} (o : Origin) (ch : Nat) (s : State) (h1 : 1 ≤ n) (hn : n ≤ 16) (hb : b < 2 ^ 32) :
    runRequest o 1 ch (natLe 4 b ++ [BitVec.ofNat 8 n]) s =
      answerOrigin o (wordsStatus (requestRead n b s).2.1) (requestRead n b s).1 (requestRead n b s).2.2 := by
  simp only [runRequest, requestOk_read b h1 hn, leNat_take_natLe _ hb, drop_natLe, leNat_count hn]
  rfl

/-- A well-formed WRITE is answered with the outcome of its words. -/
theorem runRequest_write {b : Nat} {l : List Byte} (o : Origin) (ch : Nat) (s : State) (h4 : 4 ≤ l.length)
    (h60 : l.length ≤ 60) (hm : l.length % 4 = 0) (hb : b < 2 ^ 32) :
    runRequest o 2 ch (natLe 4 b ++ l) s =
      answerOrigin o (wordsStatus (requestWrite 15 b l s).1) [] (requestWrite 15 b l s).2 := by
  simp only [runRequest, requestOk_write b h4 h60 hm, leNat_take_natLe _ hb, drop_natLe]
  rfl

/-- A READ of one unimplemented word gives all ones and changes nothing before the answer. -/
theorem runRequest_read_unimplemented {a : Nat} (o : Origin) (ch : Nat) (s : State) (ha : a < 2 ^ 32) (h4 : a % 4 = 0)
    (h : implemented a = false) :
    runRequest o 1 ch (natLe 4 a ++ [1]) s = answerOrigin o 7 [0xFF, 0xFF, 0xFF, 0xFF] s := by
  have hw : a / 4 * 4 = a := by omega
  have hr : requestRead 1 a s = ([0xFF, 0xFF, 0xFF, 0xFF], true, s) := by
    simp only [requestRead, hw, hostRead_unimplemented s h]
    rfl
  have hrun := runRequest_read (n := 1) o ch s (by decide) (by decide) ha
  rw [hr] at hrun
  exact hrun

/-- A WRITE of one unimplemented word changes nothing before the answer. -/
theorem runRequest_write_unimplemented {a : Nat} (o : Origin) (ch : Nat) (v : Word) (s : State) (ha : a < 2 ^ 32)
    (h4 : a % 4 = 0) (h : implemented a = false) :
    runRequest o 2 ch (natLe 4 a ++ natLe 4 v.toNat) s = answerOrigin o 7 [] s := by
  have hw : a / 4 * 4 = a := by omega
  have hlen : (natLe 4 v.toNat).length = 4 := length_natLe 4 _
  have hr : requestWrite 15 a (natLe 4 v.toNat) s = (true, s) := by
    simp [requestWrite, hw, hlen, hostWrite_unimplemented _ s h]
  have hrun := runRequest_write (b := a) (l := natLe 4 v.toNat) o ch s (by omega) (by omega) (by omega) ha
  rw [hr] at hrun
  exact hrun

/-! ### `RQGO` -/

theorem reg_endRequest (st : Nat) (resp : List Byte) (s : State) {a : Nat} (hr : a ≠ R.TWM_RQSTAT) (h : a ≠ R.TWM_EVT)
    (h' : a ≠ R.TWM_STAT) : (endRequest st resp s).reg a = s.reg a := by
  unfold endRequest
  dsimp only
  rw [reg_raiseTwm _ _ _ h h', updTwm_reg, reg_setFld_ne _ _ _ _ _ hr, reg_setFld_ne _ _ _ _ _ hr]

/-- The word of `RQGO` stands in the status register as a pending request, and the engine holds it (Table 16-5). -/
def State.requested (v : Word) (s : State) : State :=
  updTwm (fun y => { y with go := v, goAt := s.clock, held := false, gen := none })
    (setReg R.TWM_RQSTAT (BitVec.ofNat 32 (2 ^ 28 + v.toNat % 256 * 65536)) s)

theorem reg_requested (v : Word) (s : State) {a : Nat} (h : a ≠ R.TWM_RQSTAT) : (s.requested v).reg a = s.reg a :=
  reg_setReg_ne _ _ _ s h

theorem pendingTag_requested (v : Word) (s : State) :
    (s.requested v).pendingTag (BitVec.ofNat 8 (v.toNat % 256)).toNat = true := by
  have hr : (s.requested v).reg R.TWM_RQSTAT = BitVec.ofNat 32 (2 ^ 28 + v.toNat % 256 * 65536) := reg_setReg ..
  have hst : (s.requested v).fld R.TWM_RQSTAT F.TWM_RQSTAT_ST = 1 := by
    rw [fld_of_reg_ofNat (by decide) hr]
    simp only [F.TWM_RQSTAT_ST]
    omega
  have htag : (s.requested v).fld R.TWM_RQSTAT F.TWM_RQSTAT_TAG = v.toNat % 256 := by
    rw [fld_of_reg_ofNat (by decide) hr]
    simp only [F.TWM_RQSTAT_TAG]
    omega
  simp [State.pendingTag, hst, htag]

/-- A well-formed request that names this device is executed by it. -/
theorem startRequest_self {v : Word} {s : State} (hk : requestOk (v.toNat / 4096 % 16) s.twm.buf = true)
    (hz : v.toNat / 256 % 4 = 0) (hs : s.namesSelf (v.toNat / 65536) = true) :
    startRequest v s = runRequest (.host (BitVec.ofNat 8 (v.toNat % 256))) (v.toNat / 4096 % 16) (v.toNat / 1024 % 4)
      s.twm.buf (s.requested v) := by
  simp [startRequest, hk, hz, hs, State.requested]

/-- `RQGO` in a plane that is awake and has no request pending. -/
theorem execTwmRqgo_pec {v : Word} {s : State} (hm : s.mgmtUp = true) (hq : s.clk.quiet = false)
    (hp : s.rqPending = false) :
    execTwmRqgo (.pec (s.writePec 0x11 (natLe 4 v.toNat))) v s = .next (countXfer (startRequest v s.commanded)) := by
  have hp' : s.commanded.rqPending = false := (State.rqPending_of_only (commanded_only s) rfl).trans hp
  have hw : s.writePec 0x11 (natLe 4 v.toNat) = s.commanded.writePec 0x11 (wordBytes v) := rfl
  rw [execTwmRqgo, twmCmd_eq hm hq, hw]
  simp only [hp', Bool.false_and, Bool.false_eq_true, if_false, writeXact_pec]

end Sys2Proof.Machine

namespace Sys2Proof

open Machine

/-- A read of the window at an unimplemented address. -/
theorem completes_wdataRead_unimplemented {s : State} (hm : s.mgmtUp = true) (hq : s.clk.quiet = false)
    (h : implemented (s.reg R.TWM_WADDR).toNat = false) :
    Completes (.twmWdata .done .read) s fun t =>
      t.bus = 0xFFFFFFFF ∧ t.flag R.TWM_EVT F.TWM_EVT_WERR = true ∧ t.reg R.CRU_MAERR = s.reg R.CRU_MAERR := by
  have hr : windowRead s.commanded = _ := windowRead_unimplemented h
  have hreg (a : Nat) (hc : a ≠ R.TWM_CNT) (hl : a ≠ R.TWM_LRD) :
      (readWord .done 0x02 (fun t => readCmd (windowRead t)) s.commanded).reg a =
        (raiseTwm F.TWM_EVT_WERR s.commanded).reg a := by
    rw [reg_readWord_done _ _ _ a hc, hr, readCmd, setBus_reg, reg_setReg_ne _ _ _ _ hl]
  refine ⟨_, congrArg Host.Outcome.next (twmCmd_eq hm hq), ?_, ?_, ?_⟩
  · exact (bus_readWord_done ..).trans (congrArg Prod.fst hr)
  · exact (flag_congr (hreg _ (by decide) (by decide)) _).trans (flag_raiseTwm _ _ (by decide))
  · exact (hreg _ (by decide) (by decide)).trans (reg_raiseTwm _ _ _ (by decide) (by decide))

/-- A write of the window at an unimplemented address. -/
theorem completes_wdataWrite_unimplemented {s : State} (v : Word) (hm : s.mgmtUp = true) (hq : s.clk.quiet = false)
    (h : implemented (s.reg R.TWM_WADDR).toNat = false) :
    Completes (.twmWdata (.pec (s.writePec 0x02 (natLe 4 v.toNat))) (.write v)) s fun t =>
      t.flag R.TWM_EVT F.TWM_EVT_WERR = true ∧ t.reg R.CRU_MAERR = s.reg R.CRU_MAERR ∧ Only [.regs, .clk] s t := by
  have hw : windowWrite v s.commanded = raiseTwm F.TWM_EVT_WERR s.commanded := windowWrite_unimplemented v h
  have hx : twmCmd (writeXact (.pec (s.writePec 0x02 (natLe 4 v.toNat))) 0x02 (wordBytes v) (windowWrite v)) s =
      countXfer (raiseTwm F.TWM_EVT_WERR s.commanded) := by
    rw [twmCmd_eq hm hq, ← hw]
    exact writeXact_pec 0x02 (wordBytes v) (windowWrite v) s.commanded
  refine ⟨_, congrArg Host.Outcome.next hx, ?_, ?_, ?_⟩
  · exact (flag_congr (reg_countXfer _ _ (by decide)) _).trans (flag_raiseTwm _ _ (by decide))
  · exact (reg_countXfer _ _ (by decide)).trans (reg_raiseTwm _ _ _ (by decide) (by decide))
  · exact countXfer_only rfl (raiseTwm_only rfl ((commanded_only s).mono rfl))

/-- `RQGO` of a request to this device whose words fail and change nothing ends it with ACCERR and the words read. -/
theorem completes_rqgo_accerr {s : State} {g : Word} (resp : List Byte) (hm : s.mgmtUp = true) (hq : s.clk.quiet = false)
    (hp : s.rqPending = false) (hs : s.namesSelf (g.toNat / 65536) = true) (hz : g.toNat / 256 % 4 = 0)
    (hk : requestOk (g.toNat / 4096 % 16) s.twm.buf = true)
    (hrun : ∀ o t, runRequest o (g.toNat / 4096 % 16) (g.toNat / 1024 % 4) s.twm.buf t = answerOrigin o 7 resp t) :
    Completes (.twmRqgo (.pec (s.writePec 0x11 (natLe 4 g.toNat))) g) s fun t =>
      t.fld R.TWM_RQSTAT F.TWM_RQSTAT_ST = 7 ∧ t.twm.resp = resp ∧ t.reg R.CRU_MAERR = s.reg R.CRU_MAERR := by
  have hs' : s.commanded.namesSelf (g.toNat / 65536) = true :=
    (State.namesSelf_of_only (commanded_only s) rfl _).trans hs
  have hend : startRequest g s.commanded = endRequest 7 resp (s.commanded.requested g) := by
    have hk' : requestOk (g.toNat / 4096 % 16) s.commanded.twm.buf = true := hk
    have hbuf : s.commanded.twm.buf = s.twm.buf := rfl
    rw [startRequest_self hk' hz hs', hbuf, hrun, answerOrigin_host 7 resp (pendingTag_requested g _)]
  have hexec := execTwmRqgo_pec (v := g) hm hq hp
  rw [hend] at hexec
  refine ⟨_, hexec, ?_, ?_, ?_⟩
  · exact (fld_congr (reg_countXfer _ _ (by decide)) _).trans (fld_endRequest_st _ _ (by decide))
  · rw [countXfer_only (ps := [.regs]) rfl (Only.refl _ _) .twm (by decide)]
    exact resp_endRequest _ _ _
  · rw [reg_countXfer _ _ (by decide), reg_endRequest _ _ _ (by decide) (by decide) (by decide),
      reg_requested _ _ (by decide)]
    rfl

/-- Settles O55: no block of Table 19-1 holds the address, so the read and the write of the word there fail at once; every other
access is made of these. -/
theorem unimplementedAddresses : Obligations.UnimplementedAddresses := by
  intro s a v ha h4 hgap hm
  have h : implemented a = false := implemented_gap hgap
  have hr := hostRead_unimplemented s h
  refine ⟨congrArg Answer.val hr, congrArg Answer.failed hr, congrArg Answer.st hr, hostWrite_unimplemented v s h,
    ⟨_, rfl, registerWrite_unimplemented v s ?_⟩, fun hq hw => ?_, ?_, ?_,
    fun g hq hp hs hz => ⟨fun hk hbuf => ?_, fun hk hbuf => ?_⟩⟩
  · rwa [BitVec.toNat_ofNat, Nat.mod_eq_of_lt ha, Nat.div_mul_cancel (Nat.dvd_of_mod_eq_zero h4)]
  · rw [← hw] at h
    exact ⟨completes_wdataRead_unimplemented hm hq h, completes_wdataWrite_unimplemented v hm hq h⟩
  · intro o ch b n k h1 hn hk hb hka
    have hf : (requestRead n b s).2.1 = true := requestRead_failed s hk hb (hka ▸ h)
    exact ⟨_, _, (runRequest_read o ch s h1 hn hb).trans (by rw [hf]; rfl)⟩
  · intro o ch b k l h4 h60 hm4 hk hb hka
    have hf : (requestWrite 15 b l s).1 = true := requestWrite_failed s (by omega) (by omega) hb (hka ▸ h)
    exact ⟨_, (runRequest_write o ch s h4 h60 hm4 hb).trans (by rw [hf]; rfl)⟩
  · refine completes_rqgo_accerr _ hm hq hp hs hz ?_ fun o t => ?_
    · rw [hk, hbuf]
      exact requestOk_read a (by decide) (by decide)
    · rw [hk, hbuf]
      exact runRequest_read_unimplemented o _ t ha h4 h
  · have hlen : (natLe 4 v.toNat).length = 4 := length_natLe 4 _
    have hok : requestOk (g.toNat / 4096 % 16) s.twm.buf = true := by
      rw [hk, hbuf]
      exact requestOk_write a (by omega) (by omega) (by omega)
    have hrun (o : Origin) (t : State) :
        runRequest o (g.toNat / 4096 % 16) (g.toNat / 1024 % 4) s.twm.buf t = answerOrigin o 7 [] t := by
      rw [hk, hbuf]
      exact runRequest_write_unimplemented o _ v t ha h4 h
    obtain ⟨t, hexec, hst, -, hmaerr⟩ := completes_rqgo_accerr [] hm hq hp hs hz hok hrun
    exact ⟨t, hexec, hst, hmaerr⟩

end Sys2Proof
